-- ==== Sys2Proof/Word.lean ====
section
/-! DEFINITION. The word types of the node (R78, R84, R93 and the number formats of the lane datapath). -/

namespace Sys2Proof

/-- A byte of memory. -/
abbrev Byte := BitVec 8

/-- A 32-bit register word (R78). -/
abbrev Word := BitVec 32

/-- A 40-bit word: a sample Q7.32, a coefficient Q3.36 or an integer (R92). -/
abbrev W40 := BitVec 40

/-- A 64-bit slot or program word. -/
abbrev W64 := BitVec 64

/-- An 88-bit accumulator. -/
abbrev W88 := BitVec 88

/-- An 18-bit address, offset or length register of a lane. -/
abbrev W18 := BitVec 18

end Sys2Proof
end

