-- ==== Sys2Proof/Syntax.lean ====
section
/-! DEFINITION. The commands of the node: one constructor of `Instr` for every row of the opcode table, with its operands,
and the data the operands are made of. -/

namespace Sys2Proof

/-! ### The chip matrix (02_hierarchy_and_matrices.md) -/

/-- Chip-matrix masters M0 to M9 (R55). -/
abbrev Master := Fin 10

/-- A physical lane slot: slot `s` of gallery `g` is number 17 g + s (R2, R55). -/
abbrev LaneSlot := Fin 272

/-- The requesters of R55. -/
inductive Requester where
  | master (m : Master)
  | lane (l : LaneSlot)
  | gdma (g : Fin 16)
  | ramp (g : Fin 16)
  deriving DecidableEq, Repr

/-- Access sizes: 8, 16, 32 and 64 bits (R80). -/
inductive Size where
  | b1 | b2 | b4 | b8
  deriving DecidableEq, Repr

/-- A beat of 256 bits with its 32 byte enables (R68, R69). -/
structure Beat where
  data : BitVec 256
  en : BitVec 32
  deriving DecidableEq, Repr

/-- A request on the matrices: a single access of one size, or an incrementing burst (R68). -/
inductive MatrixReq where
  | read (sz : Size)
  | write (sz : Size) (v : W64)
  | readBurst (n : Nat)
  | writeBurst (bs : List Beat)
  deriving DecidableEq, Repr

/-- One entry of the latency table as the image declares it: the path number, its endpoints, the algorithmic latency A
and the transit ticks T (R41, R44). -/
structure LatEntry where
  path : Fin 4096
  src : BitVec 12
  dst : BitVec 12
  a : Nat
  t : Nat
  deriving DecidableEq, Repr

/-! ### Lane instructions (04_lane_instructions.md) -/

/-- The two arithmetic slots of a compute word (R143). -/
inductive Half where
  | s0 | s1
  deriving DecidableEq, Repr

/-- The conversions of R97. -/
inductive Conv where
  | cvS | cvQ | cvC | cvI
  deriving DecidableEq, Repr

/-- The rounding modes of R98. -/
inductive Rounding where
  | rnd | trn
  deriving DecidableEq, Repr

/-- An arithmetic slot (R145, R147). -/
inductive SlotOp where
  | nop
  | mac (acc : Fin 4) (da db : Fin 16)
  | msu (acc : Fin 4) (da db : Fin 16)
  | mpy (acc : Fin 4) (da db : Fin 16)
  | mpyn (acc : Fin 4) (da db : Fin 16)
  | mov (d s : Fin 16)
  | add (d s : Fin 16)
  | sub (d s : Fin 16)
  | neg (d s : Fin 16)
  | abs (d s : Fin 16)
  | max (d s : Fin 16)
  | min (d s : Fin 16)
  | cmp (d s : Fin 16)
  | and (d s : Fin 16)
  | or (d s : Fin 16)
  | xor (d s : Fin 16)
  | asr (d : Fin 16) (n : Fin 32)
  | lsl (d : Fin 16) (n : Fin 32)
  | lsr (d : Fin 16) (n : Fin 32)
  | cv (c : Conv) (d : Fin 16) (acc : Fin 4) (rm : Rounding)
  | lda (acc : Fin 4) (s : Fin 16)
  | clra (acc : Fin 4)
  | adda (acc src : Fin 4)
  | suba (acc src : Fin 4)
  | tsta (acc : Fin 4)
  deriving DecidableEq, Repr

/-- The source of a store: one D register, a pair, or a conversion of an accumulator (R152). -/
inductive StoreSrc where
  | reg (s : Fin 16)
  | pair (s : Fin 16)
  | conv (acc : Fin 4) (c : Conv) (rm : Rounding)
  deriving DecidableEq, Repr

/-- The memory operation of a compute word (R150). `p` is the pair bit of a side. -/
inductive MemOp where
  | none
  | lx (p : Bool) (d : Fin 16)
  | ly (p : Bool) (d : Fin 16)
  | lxy (px : Bool) (dx : Fin 16) (py : Bool) (dy : Fin 16)
  | sx (src : StoreSrc)
  | sy (src : StoreSrc)
  deriving DecidableEq, Repr

/-- An address update: EN, the A register and the M register (R143, R151). -/
structure AddrUpd where
  en : Bool
  an : Fin 16
  mm : Fin 16
  deriving DecidableEq, Repr

/-- A compute word (R143). -/
structure ComputeWord where
  slot0 : SlotOp
  slot1 : SlotOp
  mop : MemOp
  u0 : AddrUpd
  u1 : AddrUpd
  deriving DecidableEq, Repr

/-- The rest of the compute word that an arithmetic operation stands in: the other slot, the memory operation and the
two address updates. -/
structure SlotCtx where
  other : SlotOp
  mop : MemOp
  u0 : AddrUpd
  u1 : AddrUpd
  deriving DecidableEq, Repr

/-- The rest of the compute word that a memory operation stands in. -/
structure MemCtx where
  slot0 : SlotOp
  slot1 : SlotOp
  u0 : AddrUpd
  u1 : AddrUpd
  deriving DecidableEq, Repr

/-- The conditions of R155. -/
inductive Cond where
  | al | eq | ne | lt | ge | gt | le
  deriving DecidableEq, Repr

/-- A control word (R154). `rep` counts hold k − 1 as the field does. -/
inductive ControlWord where
  | jmp (cc : Cond) (t : Fin 4096)
  | call (cc : Cond) (t : Fin 4096)
  | ret (cc : Cond)
  | repImm (n : Fin 65536) (k : Fin 256)
  | repD (d : Fin 16) (k : Fin 256)
  | waitTick
  | ldi (d : Fin 16) (v : W40)
  | movaImm (n : Fin 16) (v : W18)
  | movmImm (n : Fin 16) (v : W18)
  | movlImm (n : Fin 16) (v : W18)
  | movaD (n s : Fin 16)
  | movmD (n s : Fin 16)
  | movlD (n s : Fin 16)
  | movd (d n : Fin 16)
  | gld (d n m : Fin 16) (en : Bool)
  | gst (s n m : Fin 16) (en : Bool)
  | qrd (d p : Fin 16)
  | qwr (p s : Fin 16)
  deriving DecidableEq, Repr

/-- An instruction word of a lane (R139). -/
inductive LaneWord where
  | compute (w : ComputeWord)
  | control (w : ControlWord)
  deriving DecidableEq, Repr

/-! ### Ports and streams -/

/-- Receive or transmit (R288). -/
inductive Dir where
  | rx | tx
  deriving DecidableEq, Repr

/-- The configuration registers of a serial port direction (R294). -/
inductive SapReg where
  | rxcfg | txcfg | rxslot | txslot
  deriving DecidableEq, Repr

/-- Ethernet ports P0 to P3 (R375). -/
abbrev Port := Fin 4

/-- A frame as its bytes, from the first byte of the destination address through the last byte of the FCS (R379). -/
abbrev Frame := List Byte

/-- The configuration registers of a stream entry (R416). -/
inductive CltReg where
  | rxcfg | rxkey | rxaux | txcfg | txdst | txkey | txaux
  deriving DecidableEq, Repr

/-! ### Siphon messages (16_redundant_pair.md) -/

/-- The MARK message (R491). -/
structure MarkMsg where
  tick : BitVec 32
  owner : Bool
  rel : Bool
  ho : Bool
  safe : Bool
  state : Fin 16
  ack : BitVec 32
  deriving DecidableEq, Repr

/-- The DIGEST message: the flags of the tick and the digests of C0 to C3 (R491, R499). -/
structure DigestMsg where
  tick : BitVec 32
  flags : Byte
  d0 : BitVec 128
  d1 : BitVec 128
  d2 : BitVec 128
  d3 : BitVec 128
  deriving DecidableEq, Repr

/-- A forwarded write: address, byte enables of a 64-bit beat, data and master (R491, R496). -/
structure WriteMsg where
  tick : BitVec 32
  addr : Word
  en : BitVec 8
  data : W64
  master : Master
  deriving DecidableEq, Repr

/-- One channel in a MODSTATE message: channel, state code, fault cause, diagnostic result, the diagnostic step that runs (0 none, 1 to 5
for S to E) with the ticks left in it, and BEN (R351). -/
structure ModRec where
  ch : Fin 64
  st : Fin 8
  cause : Fin 4
  diag : Fin 16
  step : Fin 6
  left : Fin 65536
  ben : Bool
  deriving DecidableEq, Repr

/-- One rail group in a MODSTATE message: group, state code, target, commanded voltage and DONE (R351). -/
structure RailRec where
  g : Fin 8
  st : Fin 6
  target : Fin 65536
  vcmd : Fin 65536
  done : Bool
  deriving DecidableEq, Repr

/-- A lane's state set (R514). -/
structure LaneSet where
  lane : Fin 256
  tick : BitVec 32
  xs : List W40
  ys : List W40
  ds : List W40
  accs : List W88
  as_ : List W18
  ms : List W18
  lens : List W18
  zf : Bool
  nf : Bool
  rets : List (Fin 4096)
  pc : Fin 4096
  deriving DecidableEq, Repr

/-- The ENGINE record of an edge (R515): selector states by gallery and selector, each with the length in ticks and the shape of its fade,
detector states, trim proposals and applied trims, microphone mute counters, converter states by port direction (state code, count,
ratio), substitution counts by lane output channel, by port direction and channel, and by stream entry and channel. -/
structure EngineRec where
  tick : BitVec 32
  sels : List (Fin 256 × Word × Nat × Nat)
  sils : List (Fin 128 × Bool × Nat)
  props : List (Fin 1024 × Word)
  trims : List (Fin 1024 × Word)
  mutes : List (Fin 64 × Nat)
  asrcs : List (Fin 64 × Fin 6 × Nat × Nat)
  subs : List (Fin 16384 × Nat)
  sapSubs : List (Fin 64 × Fin 512 × Nat)
  netSubs : List (Fin 256 × Fin 1024 × Nat)
  deriving DecidableEq, Repr

/-- The content of a COPY message (R513): the image check word, a 64-bit slot of lane or gallery memory, a register word, the configuration
of a pool queue, an entry of the Ethernet address table, a route table entry, or the words of a ramp parameter. -/
inductive CopyRec where
  | icw (w : Word)
  | slot (addr : Word) (v : W64)
  | reg (addr : Word) (v : Word)
  | queue (q : Fin 4096) (cfg : W64)
  | mac (i : Fin 1024) (key mask : W64) (act : Word)
  | route (e : Fin 65536) (v : Word)
  | ramp (g : Fin 16) (p : Fin 4096) (v0 target cur : W40) (db : Bool) (dur k : Nat)
  deriving DecidableEq, Repr

/-! ### PTP messages (14_time_and_ptp.md) -/

/-- What the engine reads of an event or general message (R447–R452): domain, source port identity, sequence number, two-step flag,
correction in 2^−16 ns, a timestamp of the sender in ns, of an answer the requesting port identity, and the ball time of the frame
in ps. -/
structure PtpMsg where
  domain : Fin 256
  srcId : W64
  srcPort : Fin 65536
  seq : Fin 65536
  twoStep : Bool
  corr : Int
  origin : Nat
  reqId : W64
  reqPort : Fin 65536
  rx : Nat
  deriving DecidableEq, Repr

/-- The attributes an Announce carries (R448). -/
structure AnnounceMsg where
  domain : Fin 256
  srcId : W64
  srcPort : Fin 65536
  gmId : W64
  prio1 : Fin 256
  cls : Fin 256
  acc : Fin 256
  var : Fin 65536
  prio2 : Fin 256
  steps : Fin 65536
  deriving DecidableEq, Repr

/-! ### Clock unit, power and the host port -/

/-- What the monitors of the references see in one millisecond (R452, R467, R468). The frequencies of the edges of WCLK_IN and EXTREF
as XIN counts them, in 2^−16 Hz, 0 where there are none; the counter time of the latest edge of each within its second, in 2^−16 ns;
the offsets from XIN, in 2^−16 ppb, of the rate of PTP time and of the recovered clock of REF2. -/
structure RefObs where
  freq1 : Nat
  freq3 : Nat
  at1 : Nat
  at3 : Nat
  off0 : Int
  off2 : Int
  deriving DecidableEq, Repr

/-- The three PLLs (R461). -/
inductive Pll where
  | a | b | c
  deriving DecidableEq, Repr

/-- Inputs MUTE_N and EVIN0 to EVIN3, numbered 0 to 4 (R577). -/
abbrev InPin := Fin 5

/-- The command byte of an HCP transaction (R595). -/
abbrev HcpByte := Byte

/-- The commands a node takes from outside, and the events its blocks come to by themselves: one constructor for each row
of the opcode table. -/
inductive Instr where
  /-- TICK_EDGE (R24): At each tick edge, when the cycle count of the tick expires, the node runs E0 to E4: it collects outputs, latches inputs, applies shadows, seals digests and releases the lanes -/
  | tickEdge (ls : List LatEntry)
  /-- TICK_START (R641): A write of TICK_CTRL.RUN 1 starts the tick at the next edge position that R20 allows -/
  | tickStart (m : Master)
  /-- TICK_STOP (R28): A write of TICK_CTRL.RUN 0 stops the tick after the next edge has completed E0 to E3 -/
  | tickStop (m : Master)
  /-- TICK_CFG_WRITE (R46): A write of the rate and F is dropped while the tick runs and otherwise takes effect at the next start -/
  | tickCfgWrite (m : Master) (v : Word)
  /-- REGISTER_WRITE (R6): A write to a register without a row of its own acts by the access codes of its fields -/
  | registerWrite (m : Master) (a : Word) (sz : Size) (v : W64) (tie : Bool)
  /-- SHADOW_APPLY_STOPPED (R28): While the tick is stopped, a shadow write is applied to the live value within 1 µs -/
  | shadowApplyStopped
  /-- MEMORY_ACCESS (R80): A matrix access to a memory window is performed beat by beat, by the width rules -/
  | memoryAccess (q : Requester) (a : Word) (r : MatrixReq)
  /-- PAIR_LOW_READ (R82): A read of the low word of a pair latches the high word for the reading master -/
  | pairLowRead (m : Master) (a : Word)
  /-- PAIR_LOW_WRITE (R83): A write of the low word of a pair is buffered for the writing master -/
  | pairLowWrite (m : Master) (a : Word) (v : Word)
  /-- PAIR_HIGH_WRITE (R83): A write of the high word of a pair commits it together with the master's buffered low word -/
  | pairHighWrite (m : Master) (a : Word) (v : Word)
  /-- MASTER_RESET_ABORT (R75): A master reset mid-burst commits the beats already accepted, discards the rest and logs the abort -/
  | masterResetAbort (m : Master) (a : Word) (r : MatrixReq) (n : Nat)
  /-- LANE_WINDOW_ACCESS_RESUME (R60): A lane-window access suspended at E4 resumes when the lane next ceases to be released -/
  | laneWindowAccessResume
  /-- GAL_SLOTMAP_WRITE (R89): A slot map write is checked for the slot range and for collisions, and is stored in the shadow -/
  | galSlotmapWrite (m : Master) (g : Fin 16) (i : Fin 4) (v : Word)
  /-- NOP (R145): A NOP slot or an all-zero compute word changes nothing -/
  | nop (l : LaneSlot) (h : Half) (x : SlotCtx)
  /-- MAC (R145): Adds DA times DB to the accumulator -/
  | mac (l : LaneSlot) (h : Half) (acc : Fin 4) (da : Fin 16) (db : Fin 16) (x : SlotCtx)
  /-- MSU (R145): Subtracts DA times DB from the accumulator -/
  | msu (l : LaneSlot) (h : Half) (acc : Fin 4) (da : Fin 16) (db : Fin 16) (x : SlotCtx)
  /-- MPY (R145): Sets the accumulator to DA times DB -/
  | mpy (l : LaneSlot) (h : Half) (acc : Fin 4) (da : Fin 16) (db : Fin 16) (x : SlotCtx)
  /-- MPYN (R145): Sets the accumulator to the negated product of DA and DB -/
  | mpyn (l : LaneSlot) (h : Half) (acc : Fin 4) (da : Fin 16) (db : Fin 16) (x : SlotCtx)
  /-- MOV (R147): Moves a D register into another -/
  | opMov (l : LaneSlot) (h : Half) (d : Fin 16) (r : Fin 16) (x : SlotCtx)
  /-- ADD (R147): Saturating add of two D registers -/
  | opAdd (l : LaneSlot) (h : Half) (d : Fin 16) (r : Fin 16) (x : SlotCtx)
  /-- SUB (R147): Saturating subtract of two D registers -/
  | opSub (l : LaneSlot) (h : Half) (d : Fin 16) (r : Fin 16) (x : SlotCtx)
  /-- NEG (R147): Saturating negate of a D register -/
  | opNeg (l : LaneSlot) (h : Half) (d : Fin 16) (r : Fin 16) (x : SlotCtx)
  /-- ABS (R147): Saturating absolute value of a D register -/
  | opAbs (l : LaneSlot) (h : Half) (d : Fin 16) (r : Fin 16) (x : SlotCtx)
  /-- MAX (R147): Signed maximum of two D registers -/
  | opMax (l : LaneSlot) (h : Half) (d : Fin 16) (r : Fin 16) (x : SlotCtx)
  /-- MIN (R147): Signed minimum of two D registers -/
  | opMin (l : LaneSlot) (h : Half) (d : Fin 16) (r : Fin 16) (x : SlotCtx)
  /-- CMP (R147): Sets the flags from the exact difference of two D registers -/
  | cmp (l : LaneSlot) (h : Half) (d : Fin 16) (r : Fin 16) (x : SlotCtx)
  /-- AND (R147): Bitwise AND of two D registers -/
  | opAnd (l : LaneSlot) (h : Half) (d : Fin 16) (r : Fin 16) (x : SlotCtx)
  /-- OR (R147): Bitwise OR of two D registers -/
  | opOr (l : LaneSlot) (h : Half) (d : Fin 16) (r : Fin 16) (x : SlotCtx)
  /-- XOR (R147): Bitwise XOR of two D registers -/
  | opXor (l : LaneSlot) (h : Half) (d : Fin 16) (r : Fin 16) (x : SlotCtx)
  /-- ASR (R147): Arithmetic right shift of a D register by an immediate -/
  | asr (l : LaneSlot) (h : Half) (d : Fin 16) (n : Fin 32) (x : SlotCtx)
  /-- LSL (R147): Logical left shift of a D register by an immediate -/
  | lsl (l : LaneSlot) (h : Half) (d : Fin 16) (n : Fin 32) (x : SlotCtx)
  /-- LSR (R147): Logical right shift of a D register by an immediate -/
  | lsr (l : LaneSlot) (h : Half) (d : Fin 16) (n : Fin 32) (x : SlotCtx)
  /-- CV_S (R97): Converts sample-by-coefficient sums in an accumulator to a Q7.32 sample, with saturation -/
  | cvS (l : LaneSlot) (h : Half) (d : Fin 16) (acc : Fin 4) (rm : Rounding) (x : SlotCtx)
  /-- CV_Q (R97): Converts sample-by-sample sums in an accumulator to a Q7.32 sample, with saturation -/
  | cvQ (l : LaneSlot) (h : Half) (d : Fin 16) (acc : Fin 4) (rm : Rounding) (x : SlotCtx)
  /-- CV_C (R97): Converts coefficient-by-coefficient sums in an accumulator to a Q3.36 coefficient, with saturation -/
  | cvC (l : LaneSlot) (h : Half) (d : Fin 16) (acc : Fin 4) (rm : Rounding) (x : SlotCtx)
  /-- CV_I (R97): Converts integer sums in an accumulator to a 40-bit integer, with saturation -/
  | cvI (l : LaneSlot) (h : Half) (d : Fin 16) (acc : Fin 4) (rm : Rounding) (x : SlotCtx)
  /-- LDA (R96): Loads an accumulator from a D register -/
  | lda (l : LaneSlot) (h : Half) (acc : Fin 4) (r : Fin 16) (x : SlotCtx)
  /-- CLRA (R147): Clears an accumulator -/
  | clra (l : LaneSlot) (h : Half) (acc : Fin 4) (x : SlotCtx)
  /-- ADDA (R147): Adds one accumulator to another, modulo 2^88 -/
  | adda (l : LaneSlot) (h : Half) (acc : Fin 4) (src : Fin 4) (x : SlotCtx)
  /-- SUBA (R147): Subtracts one accumulator from another, modulo 2^88 -/
  | suba (l : LaneSlot) (h : Half) (acc : Fin 4) (src : Fin 4) (x : SlotCtx)
  /-- TSTA (R148): Sets the flags from an accumulator -/
  | tsta (l : LaneSlot) (h : Half) (acc : Fin 4) (x : SlotCtx)
  /-- LX (R150): Loads a word or a pair from X memory into D registers -/
  | lx (l : LaneSlot) (p : Bool) (d : Fin 16) (x : MemCtx)
  /-- LY (R150): Loads a word or a pair from Y memory into D registers -/
  | ly (l : LaneSlot) (p : Bool) (d : Fin 16) (x : MemCtx)
  /-- LXY (R150): Loads from X and from Y memory together -/
  | lxy (l : LaneSlot) (px : Bool) (dx : Fin 16) (py : Bool) (dy : Fin 16) (x : MemCtx)
  /-- SX (R152): Stores a D register, a pair or a conversion to X memory -/
  | sx (l : LaneSlot) (src : StoreSrc) (x : MemCtx)
  /-- SY (R152): Stores a D register, a pair or a conversion to Y memory -/
  | sy (l : LaneSlot) (src : StoreSrc) (x : MemCtx)
  /-- JMP (R154): A conditional jump to a target -/
  | jmp (l : LaneSlot) (cc : Cond) (t : Fin 4096)
  /-- CALL (R156): A conditional call that pushes the return stack -/
  | opCall (l : LaneSlot) (cc : Cond) (t : Fin 4096)
  /-- RET (R156): A conditional return that pops the return stack -/
  | opRet (l : LaneSlot) (cc : Cond)
  /-- REP_IMM (R119): Repeats the next k instructions an immediate number of times -/
  | repImm (l : LaneSlot) (n : Fin 65536) (k : Fin 256)
  /-- REP_D (R119): Repeats the next k instructions a number of times taken from a D register -/
  | repD (l : LaneSlot) (d : Fin 16) (k : Fin 256)
  /-- WAIT_TICK (R127): Ends the lane's tick once its earlier stores are written -/
  | waitTick (l : LaneSlot)
  /-- LDI (R154): Loads an immediate into a D register -/
  | ldi (l : LaneSlot) (d : Fin 16) (v : W40)
  /-- MOVA_IMM (R154): Loads an immediate into an A register -/
  | movaImm (l : LaneSlot) (n : Fin 16) (v : W18)
  /-- MOVM_IMM (R154): Loads an immediate into an M register -/
  | movmImm (l : LaneSlot) (n : Fin 16) (v : W18)
  /-- MOVL_IMM (R154): Loads an immediate into a LEN register -/
  | movlImm (l : LaneSlot) (n : Fin 16) (v : W18)
  /-- MOVA_D (R157): Loads an A register from a D register -/
  | movaD (l : LaneSlot) (n : Fin 16) (r : Fin 16)
  /-- MOVM_D (R157): Loads an M register from a D register -/
  | movmD (l : LaneSlot) (n : Fin 16) (r : Fin 16)
  /-- MOVL_D (R157): Loads a LEN register from a D register -/
  | movlD (l : LaneSlot) (n : Fin 16) (r : Fin 16)
  /-- MOVD (R157): Copies an A register, zero-extended, into a D register -/
  | movd (l : LaneSlot) (d : Fin 16) (n : Fin 16)
  /-- GLD (R158): Requests a gallery memory load, stalling the lane -/
  | gld (l : LaneSlot) (d : Fin 16) (n : Fin 16) (m : Fin 16) (en : Bool)
  /-- GST (R158): Requests a gallery memory store, stalling the lane until the grant -/
  | gst (l : LaneSlot) (r : Fin 16) (n : Fin 16) (m : Fin 16) (en : Bool)
  /-- QRD (R159): Reads the next word from a bound queue port, stalling while the queue is empty -/
  | qrd (l : LaneSlot) (d : Fin 16) (p : Fin 16)
  /-- QWR (R159): Appends a word to a bound queue port without a stall -/
  | qwr (l : LaneSlot) (p : Fin 16) (r : Fin 16)
  /-- GLD_DATA_RETURN (R109): Gallery load data returns and the lane resumes -/
  | gldDataReturn (l : LaneSlot)
  /-- GST_GRANT (R109): A gallery store is granted and the lane resumes -/
  | gstGrant (l : LaneSlot)
  /-- QRD_ITEM_ARRIVAL (R110): A word arrives for a stalled QRD, and the lane takes it and resumes -/
  | qrdItemArrival (l : LaneSlot)
  /-- LANE_HALT_REQUEST (R124): A write of LANE_CTRL.HALT 1 requests a debug halt -/
  | laneHaltRequest (m : Master) (l : LaneSlot)
  /-- LANE_HALT_ENTER (R124): The halt takes effect at the first instruction boundary outside REP -/
  | laneHaltEnter (l : LaneSlot)
  /-- LANE_RESUME (R130): A write of HALT 0 resumes a halted lane -/
  | laneResume (m : Master) (l : LaneSlot)
  /-- LANE_STEP (R131): A write of LANE_CTRL.STEP issues one instruction in HALT, or in WAIT or IDLE while the tick is stopped -/
  | laneStep (m : Master) (l : LaneSlot)
  /-- LANE_FCLR (R130): A write of LANE_CTRL.FCLR leaves the FAULT state when the slot holds no active lane -/
  | laneFclr (m : Master) (l : LaneSlot)
  /-- LANE_PC_WRITE (R131): A write of LANE_PC sets the PC outside FAULT and is dropped in FAULT -/
  | lanePcWrite (m : Master) (l : LaneSlot) (v : Word)
  /-- LANE_FRAME_WRITE (R137): A write of the lane channel counts is checked and stored -/
  | laneFrameWrite (m : Master) (l : LaneSlot) (v : Word)
  /-- ECC_LOG_CAPTURE (R176): The log takes one report per 200 MHz cycle from its capture queue -/
  | eccLogCapture
  /-- REMAP_ADD (R184): A write of SYS_REMAP_CMD.ADD requests a remap of one address unit -/
  | remapAdd (m : Master) (v : W64)
  /-- REMAP_APPLY (R185): At the next E2, or within 1 µs while stopped, the unit is copied to a spare and the result is recorded -/
  | remapApply
  /-- JOURNAL_WRITE (R189): Every INTERVAL ms a journal is written to the next ring slot -/
  | journalWrite
  /-- ROUTE_TBL_WRITE (R202): A route table entry write is checked, stalled around E1 and stored -/
  | routeTblWrite (m : Master) (i : Fin 8192) (v : Word)
  /-- ROUTE_OUT_WRITE (R202): A destination route write is checked, stalled around E1 and stored -/
  | routeOutWrite (m : Master) (i : Fin 1600) (v : Word)
  /-- ROUTE_BUS_WRITE (R201): A bus definition write is stalled around E1 and stored -/
  | routeBusWrite (m : Master) (i : Fin 2048) (v : Word)
  /-- ROUTE_WRITE_RELEASE (R201): A route write stalled from the edge cycle completes when E1 ends -/
  | routeWriteRelease
  /-- RAMP_MAP_WRITE (R213): A ramp map write is checked against the word limits and the EN rule -/
  | rampMapWrite (m : Master) (g : Fin 16) (i : Fin 4096) (v : Word)
  /-- ROPE_MAP_WRITE (R220): A rope map write is checked and stored -/
  | ropeMapWrite (m : Master) (i : Fin 32) (v : Word)
  /-- ROPE_MAP_APPLY (R225): A change of the rope map in force takes effect on the pins within 100 ns -/
  | ropeMapApply
  /-- ROPE_STRAP_CHANGE (R223): A change on the ROPESEL or ROPEHOLD pins changes the strap map -/
  | ropeStrapChange (sel : Fin 8) (hold : Bool)
  /-- ROPES_LIVE (R222): The ropes become live within 1 ms of the I/O supplies -/
  | ropesLive
  /-- DLY_TRANSFER_END (R239): The delay engine completes the transfers of the tick -/
  | dlyTransferEnd (cyc : Nat)
  /-- DLY_LINE_WRITE (R259): A delay line write is checked and stored -/
  | dlyLineWrite (m : Master) (i : Fin 1024) (v : W64)
  /-- DLY_TAP_WRITE (R236): A tap write is checked for its delay range and stored -/
  | dlyTapWrite (m : Master) (i : Fin 2048) (v : W64)
  /-- GDMA_JOB_START (R257): The gallery DMA takes the next job descriptor from its queue -/
  | gdmaJobStart (g : Fin 16)
  /-- GDMA_JOB_COMPLETE (R257): A job completes, its TAG is stored and its cell is released -/
  | gdmaJobComplete (g : Fin 16)
  /-- PDM_CLK_WRITE (R260): A PDM clock write is checked for its divider -/
  | pdmClkWrite (m : Master) (i : Fin 16) (v : Word)
  /-- DEC_MIC_WRITE (R266): A microphone configuration write is checked for fine-path consistency -/
  | decMicWrite (m : Master) (i : Fin 64) (v : W64)
  /-- MUTE_PERIOD_END (R264): A microphone mute period expires and its endpoints deliver filtered values -/
  | mutePeriodEnd (i : Fin 64)
  /-- FINE_OUTPUT (R265): A fine-path output sample is computed at fo -/
  | fineOutput (i : Fin 64) (bits : List Bool)
  /-- FAST_OUTPUT (R270): A fast-path output sample is computed at PDMCLK / 16 -/
  | fastOutput (i : Fin 64) (bits : List Bool) (k : Fin 32)
  /-- TRIM_UPDATE (R277): At an update edge the governor moves the applied trims toward the proposals -/
  | trimUpdate
  /-- TRIM_SELECTOR_WRITE (R280): COMP_T − 1 edges after an update, the governor writes the selector bank through M2 -/
  | trimSelectorWrite
  /-- DEC_ID_ZERO (R283): A write of DEC_ID_CMD.ZERO zeroes every stored proposal at the next E3 -/
  | decIdZero (m : Master)
  /-- DEC_ID_TIME_WRITE (R281): A write of the governor timing is checked and stored -/
  | decIdTimeWrite (m : Master) (v : Word)
  /-- SAP_CLK_WRITE (R285): A port clocking write is checked and stored -/
  | sapClkWrite (m : Master) (n : Fin 32) (v : Word)
  /-- SAP_CFG_WRITE (R294): A direction configuration or slot mask write is checked for its channel range -/
  | sapCfgWrite (m : Master) (n : Fin 32) (r : SapReg) (v : Word)
  /-- SAP_RX_FRAME (R288): A received port frame is checked and placed in its block -/
  | sapRxFrame (n : Fin 32) (q : Nat) (th : Int) (len : Nat) (ws : List W40)
  /-- SAP_TX_FRAME (R297): A transmit frame is shifted out at its grid point -/
  | sapTxFrame (n : Fin 32) (q : Nat) (th : Int) (len : Nat)
  /-- ASRC_BLOCK_LATE (R306): A block more than one block period late unlocks the converter -/
  | asrcBlockLate (n : Fin 32) (d : Dir)
  /-- SAP_START_GO (R308): A write of GO issues the common start at the edge named by R27 -/
  | sapStartGo (m : Master)
  /-- SAP_START_AT_CMD (R310): A write of GO with ATEN schedules the common start at tick AT, or is refused as late -/
  | sapStartAtCmd (m : Master)
  /-- SAP_START_APPLY (R308): The applying E2 starts the named, armed directions at the following edge -/
  | sapStartApply
  /-- SENSE_FRAME (R317): A SENSE frame is received and its sense points are taken -/
  | senseFrame (k : Fin 4) (ws : List Word)
  /-- SENSE_PT_WRITE (R318): A sense point write is checked for duplicates and its owner -/
  | sensePtWrite (m : Master) (i : Fin 128) (v : Word)
  /-- CARRIER_PERIOD (R323): Each carrier period computes the modulation index and the pulse widths -/
  | carrierPeriod (c : Fin 64)
  /-- MOD_START (R330): A committed start mask starts the named OFF channels -/
  | modStart (m : Master) (mask : W64)
  /-- MOD_STOP (R333): A committed stop mask takes the gains of the named channels to 0 -/
  | modStop (m : Master) (mask : W64)
  /-- MOD_FCLR (R349): A committed fault-clear mask returns channels whose cause is gone to OFF -/
  | modFclr (m : Master) (mask : W64)
  /-- MOD_CH_WRITE (R334): A channel configuration write is checked against the channel's state -/
  | modChWrite (m : Master) (c : Fin 64) (v : W64)
  /-- DIAG_STEP_END (R335): A diagnostic step ends after its count of ticks and is judged -/
  | diagStepEnd (c : Fin 64)
  /-- DIAG_RAIL_TIMEOUT (R336): A group rail not ready within 50 ms ends its queued channels with RAIL_BAD -/
  | diagRailTimeout (g : Fin 8)
  /-- MOD_GAIN_SAMPLE (R332): The ramp gain moves once per node sample toward its target -/
  | modGainSample (c : Fin 64)
  /-- RAILCMD_FRAME (R339): A rail command frame is sent at each SENSE frame start, with the VCMD slew -/
  | railcmdFrame (g : Fin 8)
  /-- POOL_ALLOC (R359): A read of POOL_ALLOC allocates a cell for the selected queue -/
  | poolAlloc (m : Master)
  /-- POOL_PUSH (R359): A write of POOL_PUSH appends a cell to the open item and links the item when LAST is 1 -/
  | poolPush (m : Master) (v : Word)
  /-- POOL_FREE (R363): A write of POOL_FREE frees a cell held by its owner -/
  | poolFree (m : Master) (v : Word)
  /-- POOL_POP (R361): A read of POOL_POP pops the next cell, waiting while the queue is empty -/
  | poolPop (m : Master)
  /-- POOL_TRYPOP (R362): A read of POOL_TRYPOP pops a cell or returns VALID 0 without waiting -/
  | poolTrypop (m : Master)
  /-- POOL_QWORD_WRITE (R365): A committed POOL_QWORD write appends a word to a word queue -/
  | poolQwordWrite (m : Master) (v : W64)
  /-- POOL_QWORD_READ (R365): A low-word read of POOL_QWORD pops a word, waiting while the queue is empty -/
  | poolQwordRead (m : Master)
  /-- POOL_WAIT_COMPLETE (R362): A waiting pop or word read completes when an item or a word arrives -/
  | poolWaitComplete (q : Requester)
  /-- POOL_STALL (R362): A read that has waited STALL_LIM × 1,024 cycles raises POOL_STALL once -/
  | poolStall (q : Requester)
  /-- POOL_QCFG_WRITE (R374): A queue configuration write is checked and stored -/
  | poolQcfgWrite (m : Master) (v : W64)
  /-- POOL_LPORT_WRITE (R367): A lane queue port binding write is checked and stored -/
  | poolLportWrite (m : Master) (i : Fin 4096) (v : Word)
  /-- ETH_RX_FRAME (R380): A received Ethernet frame is stored, checked and given one outcome -/
  | ethRxFrame (p : Port) (f : Frame) (ts : W64)
  /-- ETH_TX_START (R390): An egress port starts the next eligible frame by class and gate -/
  | ethTxStart (p : Port)
  /-- ETH_TX_DONE (R383): A transmission ends, and the frame's cells are freed after its last transmission -/
  | ethTxDone (p : Port)
  /-- GATE_WINDOW_OPEN (R390): The audio window opens at OPEN ns after the edge -/
  | gateWindowOpen
  /-- GATE_WINDOW_CLOSE (R390): The audio window closes at CLOSE, and queued class 3 frames are held -/
  | gateWindowClose
  /-- ETH_LINK (R377): A change of link state is recorded, and queued frames are dropped on link down -/
  | ethLink (p : Port) (up : Bool)
  /-- ETH_PCFG_WRITE (R376): A port configuration write is checked and stored -/
  | ethPcfgWrite (m : Master) (p : Port) (v : Word)
  /-- ETH_PORT_STOP (R376): A disabled port stops at the next frame boundary and drops its queues -/
  | ethPortStop (p : Port)
  /-- ETH_GATE_WRITE (R391): A gate window write is checked and shadowed -/
  | ethGateWrite (m : Master) (v : Word)
  /-- AT_COPY_TO_ENTRY (R413): ETH_AT_CMD OP 0b01 copies the master's staging into an address table entry -/
  | atCopyToEntry (m : Master) (i : Fin 256)
  /-- AT_COPY_TO_STAGING (R413): ETH_AT_CMD OP 0b10 copies an address table entry into the master's staging -/
  | atCopyToStaging (m : Master) (i : Fin 256)
  /-- P4_TX_ITEM (R393): The switch pops a host frame item from the P4 transmit queue and forwards it -/
  | p4TxItem
  /-- ETH_MGMT_WRITE (R394): A management agent configuration write is checked -/
  | ethMgmtWrite (m : Master) (v : Word)
  /-- MGMT_READ (R396): The agent takes a READ request and starts its accesses -/
  | mgmtRead
  /-- MGMT_WRITE (R396): The agent takes a WRITE request and starts its accesses -/
  | mgmtWrite
  /-- MGMT_ACCESS_COMPLETE (R396): One agent access completes and the next one starts -/
  | mgmtAccessComplete
  /-- MGMT_TIMEOUT (R399): A request unfinished after TMO ms is aborted -/
  | mgmtTimeout
  /-- T1S_RX_FRAME (R403): A frame received on the T1S port is checked and stored -/
  | t1sRxFrame (f : Frame) (ts : W64)
  /-- T1S_TX_ATTEMPT (R404): The T1S MAC attempts to transmit a frame -/
  | t1sTxAttempt
  /-- T1S_COLLISION (R404): A collision starts a random backoff -/
  | t1sCollision
  /-- T1S_BACKOFF_END (R404): The backoff expires and the frame is retried -/
  | t1sBackoffEnd
  /-- PLCA_BEACON (R405): The coordinator sends the BEACON that opens a PLCA cycle -/
  | plcaBeacon
  /-- PLCA_TRANSMIT_OPPORTUNITY (R405): A PLCA transmit opportunity passes, or its timer expires -/
  | plcaTransmitOpportunity
  /-- T1S_CFG_WRITE (R405): A T1S configuration write changes PLCA only with EN 0 -/
  | t1sCfgWrite (m : Master) (v : Word)
  /-- EZ_DISCOVER (R410): A host DISCOVER is sent to all elements -/
  | ezDiscover
  /-- EZ_SET (R409): A host SET transaction is sent to an element -/
  | ezSet
  /-- EZ_GET (R409): A host GET transaction is sent to an element -/
  | ezGet
  /-- EZ_MUTE (R409): A MUTE message is sent to one element or to all -/
  | ezMute
  /-- EZ_POLL (R411): Every POLL_MS ms the engine polls each enabled element -/
  | ezPoll
  /-- EZ_ANNOUNCE (R410): An ANNOUNCE answer to DISCOVER is pushed to RPLQ -/
  | ezAnnounce (src : BitVec 48) (msg : List Byte)
  /-- EZ_ACK (R409): An ACK answer completes a transaction -/
  | ezAck (src : BitVec 48) (msg : List Byte)
  /-- EZ_VALUE (R409): A VALUE answer completes a GET -/
  | ezValue (src : BitVec 48) (msg : List Byte)
  /-- EZ_STATUS (R411): A STATUS answer marks the element present -/
  | ezStatus (src : BitVec 48) (msg : List Byte)
  /-- EZ_FAULT (R412): An unsolicited FAULT message is pushed and reported -/
  | ezFault (src : BitVec 48) (msg : List Byte)
  /-- EZ_NAK (R409): A NAK answer completes a transaction -/
  | ezNak (src : BitVec 48) (msg : List Byte)
  /-- EZ_TIMEOUT (R409): An answer wait expires, and the message is resent or a timeout NAK is pushed -/
  | ezTimeout (e : Fin 32)
  /-- EZ_DISCOVER_WINDOW_END (R410): The ANNOUNCE collection window of a DISCOVER ends -/
  | ezDiscoverWindowEnd
  /-- CLT_RX_FRAME (R425): A received Coleel frame is matched, checked and buffered by its stamp -/
  | cltRxFrame (p : Port) (f : Frame) (ts : W64)
  /-- AES67_RX_PACKET (R429): A received AES67 packet is matched and placed by its media time -/
  | aes67RxPacket (p : Port) (f : Frame) (ts : W64)
  /-- AAF_RX_PACKET (R437): A received AAF packet is matched, checked and placed by its timestamp -/
  | aafRxPacket (p : Port) (f : Frame) (ts : W64)
  /-- CLT_ENTRY_WRITE (R416): A stream entry write is checked and shadowed -/
  | cltEntryWrite (m : Master) (r : CltReg) (i : Fin 256) (v : W64)
  /-- CLT_TX_FRAME (R422): The stream engine sends a Coleel frame of a transmit entry into P4 -/
  | cltTxFrame (i : Fin 256) (ofs : Fin 16)
  /-- AES67_TX_PACKET (R436): The stream engine sends an AES67 packet -/
  | aes67TxPacket (i : Fin 256)
  /-- AAF_TX_PACKET (R437): The stream engine sends an AAF packet -/
  | aafTxPacket (i : Fin 256)
  /-- PTP_SYNC (R452): A received Sync yields an offset that is slewed, stepped or held -/
  | ptpSync (p : Port) (g : PtpMsg)
  /-- PTP_FOLLOW_UP (R451): A received Follow_Up completes a two-step Sync -/
  | ptpFollowUp (p : Port) (g : PtpMsg)
  /-- PTP_ANNOUNCE (R448): A received Announce feeds the best master clock algorithm -/
  | ptpAnnounce (p : Port) (g : AnnounceMsg)
  /-- PTP_DELAY_REQ (R447): A received Delay_Req is answered by a master port -/
  | ptpDelayReq (p : Port) (g : PtpMsg)
  /-- PTP_DELAY_RESP (R447): A received Delay_Resp gives a path-delay measurement -/
  | ptpDelayResp (p : Port) (g : PtpMsg)
  /-- PTP_PDELAY_REQ (R450): A received Pdelay_Req is answered with Pdelay_Resp -/
  | ptpPdelayReq (p : Port) (g : PtpMsg)
  /-- PTP_PDELAY_RESP (R450): A received Pdelay_Resp gives a peer-delay measurement -/
  | ptpPdelayResp (p : Port) (g : PtpMsg)
  /-- PTP_PDELAY_RESP_FOLLOW_UP (R451): A received Pdelay_Resp_Follow_Up completes a peer-delay measurement -/
  | ptpPdelayRespFollowUp (p : Port) (g : PtpMsg)
  /-- PTP_MANAGEMENT_MSG (R447): A PTP management message is discarded and counted -/
  | ptpManagementMsg (p : Port)
  /-- PTP_SYNC_TX (R450): A master port sends Sync each sync interval -/
  | ptpSyncTx (p : Port)
  /-- PTP_ANNOUNCE_TX (R449): A port sends Announce each announce interval -/
  | ptpAnnounceTx (p : Port)
  /-- PTP_DELAY_REQ_TX (R449): A port sends Delay_Req or Pdelay_Req each delay interval -/
  | ptpDelayReqTx (p : Port)
  /-- PTP_FOLLOW_UP_TX (R451): The matching Follow_Up is sent within 100 µs of the event message's egress -/
  | ptpFollowUpTx (p : Port)
  /-- PTP_ANNOUNCE_TIMEOUT (R449): ANN_TO announce intervals pass without an Announce -/
  | ptpAnnounceTimeout (p : Port)
  /-- PTP_SYNC_LOSS (R454): SYNC_TO intervals pass without a Sync, and SYNC_LOST is set -/
  | ptpSyncLoss (p : Port)
  /-- PTP_GM_QUAL (R453): QUAL becomes 1 after QUAL_MS ms as grandmaster -/
  | ptpGmQual
  /-- PTP_TIME_READ (R443): A read of PTP_TIME_FRAC latches the other counter words -/
  | ptpTimeRead (m : Master)
  /-- PTP_TIME_COMMIT (R443): A write of PTP_TIME_SECHI commits a counter step -/
  | ptpTimeCommit (m : Master) (v : Word)
  /-- EVT_ARM (R457): A write of EN 1 to an event output schedule is checked and arms it -/
  | evtArm (m : Master) (e : Fin 8) (v : Word)
  /-- EVT_ARMED (R458): 1 µs after the write the schedule is armed, and past times are judged -/
  | evtArmed (e : Fin 8)
  /-- EVT_DISARM (R458): A write of EN 0 ends the schedule after any pulse in progress -/
  | evtDisarm (m : Master) (e : Fin 8) (v : Word)
  /-- EVT_PULSE (R456): A pulse starts at its scheduled counter time -/
  | evtPulse (e : Fin 8)
  /-- EVT_PULSE_END (R456): A pulse ends after WIDTH -/
  | evtPulseEnd (e : Fin 8)
  /-- CAP_EDGE (R459): A selected edge on a capture input records the counter in the FIFO -/
  | capEdge (c : Fin 4) (rise : Bool) (ts : W64)
  /-- CAP_HEAD_READ (R460): A read of PTP_CAP_HEAD moves the oldest entry into the latch -/
  | capHeadRead (m : Master) (c : Fin 4)
  /-- REF_EVALUATE (R470): Every 1 ms the clock unit evaluates the references -/
  | refEvaluate (o : RefObs)
  /-- LOOP_STEP_ADVANCE (R472): After its dwell within threshold, the loop advances one step -/
  | loopStepAdvance
  /-- CLK_HOLD_EXPIRED (R475): The holdover timer reaches 0 -/
  | clkHoldExpired
  /-- PLL_LOCK (R461): A PLL achieves lock -/
  | pllLock (p : Pll)
  /-- PLL_UNLOCK (R465): A PLL out of lock for more than 10 µs is reported -/
  | pllUnlock (p : Pll)
  /-- PLLB_PHASE_SET (R466): Within 1 ms of PLL_B lock the sample-clock phase is set against the counter -/
  | pllbPhaseSet
  /-- CLK_FORCE_FREERUN (R475): A write of CLK_CTRL.FREERUN 1 forces FREERUN -/
  | clkForceFreerun (m : Master)
  /-- CLK_RELEASE_FREERUN (R475): A write of FREERUN 0 resumes evaluation -/
  | clkReleaseFreerun (m : Master)
  /-- CLKOUT_REALIGN (R481): A write of CLK_ALIGN realigns the named outputs by one cut or stretched period -/
  | clkoutRealign (m : Master) (mask : Byte)
  /-- CLK_OUT_WRITE (R479): A clock output configuration write is checked and stored -/
  | clkOutWrite (m : Master) (n : Fin 8) (v : Word)
  /-- CLK_PLLA_WRITE (R463): A CCLK frequency select write is accepted only while the tick is stopped -/
  | clkPllaWrite (m : Master) (v : Word)
  /-- PAIR_LINK_UP (R489): Siphon becomes up -/
  | pairLinkUp
  /-- PAIR_LINK_DOWN (R489): Siphon goes down -/
  | pairLinkDown
  /-- SIPHON_MARK (R502): A partner MARK renews or acknowledges the lease -/
  | siphonMark (seg : List Byte) (rest : List (List Byte))
  /-- SIPHON_RSTREQ (R523): A received RSTREQ forces a reset when enabled -/
  | siphonRstreq (segs : List (List Byte))
  /-- SIPHON_DIGEST (R501): The partner's digest of a tick is received -/
  | siphonDigest (seg : List Byte) (rest : List (List Byte))
  /-- SIPHON_WRITE (R497): A forwarded write is applied on the standby -/
  | siphonWrite (g : WriteMsg) (segs : List (List Byte))
  /-- SIPHON_MODSTATE (R351): The standby takes the modulator channel and rail states from the owner -/
  | siphonModstate (cs : List ModRec) (rs : List RailRec) (segs : List (List Byte))
  /-- SIPHON_STAMP (R493): SAP block stamps of side A are received -/
  | siphonStamp (ss : List (Fin 64 × W64)) (segs : List (List Byte))
  /-- SIPHON_PATCH (R494): A patched stream frame is received as a further copy -/
  | siphonPatch (f : Frame) (ts : W64) (segs : List (List Byte))
  /-- SIPHON_LANESTATE (R514): A lane state set is received and written in its window -/
  | siphonLanestate (g : LaneSet) (segs : List (List Byte))
  /-- SIPHON_ENGINE (R515): An engine record is received and installed in E2 -/
  | siphonEngine (g : EngineRec) (segs : List (List Byte))
  /-- SIPHON_COPY (R513): Background copy data is received and written -/
  | siphonCopy (rs : List CopyRec) (segs : List (List Byte))
  /-- FORM_TIMEOUT (R511): Side B alone takes ownership after START_MS of continuous low -/
  | formTimeout
  /-- OWN_PIN_CHANGE (R486): A change on the partner's OWN pin changes ownership outside pair mode -/
  | ownPinChange (low : Bool)
  /-- PAIR_PRESET (R523): PAIR_CMD.PRESET sends RSTREQ -/
  | pairPreset (m : Master)
  /-- PAIR_HANDOVER (R510): PAIR_CMD.HANDOVER requests a handover at the next edge -/
  | pairHandover (m : Master)
  /-- PAIR_JOIN (R511): PAIR_CMD.JOIN rejoins with a copy -/
  | pairJoin (m : Master)
  /-- PAIR_JOIN_UPD (R511): PAIR_CMD.JOIN_UPD rejoins without a copy -/
  | pairJoinUpd (m : Master)
  /-- PAIR_CMD_OUT (R512): PAIR_CMD.OUT takes the chip out of service -/
  | pairCmdOut (m : Master)
  /-- COPY_PASS_COMPLETE (R513): The copy pass completes and the image check words are compared -/
  | copyPassComplete
  /-- PAIR_PATCH_WRITE (R495): A patch margin write is checked against the network margin -/
  | pairPatchWrite (m : Master) (v : Word)
  /-- SPARE_LOAD_END (R519): The spare load ends -/
  | spareLoadEnd (g : Fin 16)
  /-- GAL_STSET_WRITE (R524): A state set range write is checked -/
  | galStsetWrite (m : Master) (g : Fin 16) (i : Fin 16) (v : W64)
  /-- GAL_COPY_WRITE (R518): A gallery copy write is checked against the usable window and shadowed -/
  | galCopyWrite (m : Master) (g : Fin 16) (v : W64)
  /-- SUMP_LOG (R536): The Sump logs one raise per 200 MHz cycle from its capture queue -/
  | sumpLog
  /-- SUMP_SCAN (R535): The Sump parity scan runs at least every 10 µs -/
  | sumpScan
  /-- SUMP_EVSTAT_CLEAR (R532): A write to SUMP_EVSTAT clears bits whose cause is gone -/
  | sumpEvstatClear (m : Master) (i : Fin 8) (v : Word)
  /-- SUMP_EXIT (R533): A write of SUMP_CTRL.EXIT requests RUN -/
  | sumpExit (m : Master)
  /-- SUMP_EXIT_APPLY (R534): An accepted EXIT takes effect at the next edge, or within 1 µs while the tick is stopped -/
  | sumpExitApply
  /-- SUMP_HCLR (R537): SUMP_CTRL.HCLR empties the history -/
  | sumpHclr (m : Master)
  /-- SUMP_EVCFG_WRITE (R526): An event configuration write is checked against the class rules -/
  | sumpEvcfgWrite (m : Master) (i : Fin 256) (v : Word)
  /-- SUMP_HIST_READ (R538): A read of a history entry's first word latches the rest of the entry -/
  | sumpHistRead (m : Master) (i : Fin 32)
  /-- LOADER_START (R545): After reset the loader reads and checks the header and runs the DRAM preamble -/
  | loaderStart (hdr : List Byte)
  /-- LOADER_DRAM_TIMEOUT (R546): LPDDR5X not ready within 50 ms sends the loader to DEFAULT -/
  | loaderDramTimeout
  /-- STAGE_COMPLETE (R545): The image copy completes and the check words are judged -/
  | stageComplete (img : List Byte)
  /-- RECORD_END (R543): END ends the layer, and at the base layer's end the base enters service -/
  | recordEnd
  /-- RECORD_FILL (R543): FILL writes a value to consecutive slots -/
  | recordFill
  /-- RECORD_WRITE (R543): WRITE writes 32-bit words -/
  | recordWrite
  /-- RECORD_WRITE40 (R543): WRITE40 writes 40-bit words -/
  | recordWrite40
  /-- RECORD_PROG (R543): PROG writes program memory words -/
  | recordProg
  /-- RECORD_ROUTE (R547): ROUTE writes route entries or stores them as pending -/
  | recordRoute
  /-- RECORD_MODE (R547): MODE applies the operating point and waits for relock -/
  | recordMode
  /-- RECORD_LOCK (R547): LOCK freezes the lk fields -/
  | recordLock
  /-- STRATA_ARM (R554): STRATA_CMD.ARM arms the selected layer -/
  | strataArm (m : Master)
  /-- ARMING_COMPLETE (R554): Arming ends as ARMED or with an error result -/
  | armingComplete
  /-- STRATA_GO (R555): STRATA_CMD.GO triggers the switch -/
  | strataGo (m : Master)
  /-- STRATA_DISARM (R558): STRATA_CMD.DISARM returns an ARMED layer to IDLE -/
  | strataDisarm (m : Master)
  /-- STRATA_AT_TRIGGER (R555): The scheduled tick triggers the switch play -/
  | strataAtTrigger
  /-- SWITCH_PLAY_COMPLETE (R556): The last register word of the switch section reaches its shadow -/
  | switchPlayComplete
  /-- GALLERY_RELOAD_GO (R561): STRATA_GCMD.GO takes a gallery out and starts its reload -/
  | galleryReloadGo (m : Master) (v : Word)
  /-- RELOAD_PLAY_COMPLETE (R564): The reload layer play completes or fails -/
  | reloadPlayComplete
  /-- PORST (R568): PORST_N resets the whole node -/
  | porst
  /-- RESET_N_PULSE (R569): A RESET_N pulse resets the node -/
  | resetNPulse (ns : Nat)
  /-- SYS_SWRST (R570): A keyed write to SYS_SWRST resets the node -/
  | sysSwrst (m : Master) (v : Word)
  /-- SYS_WDOG_WRITE (R570): A watchdog configuration write restarts or stops the timer -/
  | sysWdogWrite (m : Master) (v : Word)
  /-- WDOG_KICK (R570): A write of the kick key restarts the watchdog -/
  | wdogKick (m : Master) (v : Word)
  /-- WATCHDOG_EXPIRY (R570): The watchdog timeout resets the node -/
  | watchdogExpiry
  /-- EARLY_MIX_START (R572): The boot ROM starts the early mix on chamber C0 -/
  | earlyMixStart
  /-- EARLY_MIX_FADE_END (R575): The early-mix fade completes and the ROM stops the tick -/
  | earlyMixFadeEnd
  /-- BOOT_TICK_RESTART (R575): The ROM restarts the tick on Sync, grandmaster, PTP off or PTPWAIT expiry -/
  | bootTickRestart (expired : Bool)
  /-- INPUT_FILTER_CHANGE (R577): A debounced input changes its filtered state and acts -/
  | inputFilterChange (i : InPin)
  /-- IN_STUCK (R579): An input active for STUCK ms is reported -/
  | inStuck (i : InPin)
  /-- HALF_CYCLE_END (R584): A mains half-cycle ends and its peak is stored -/
  | halfCycleEnd (vpk : Fin 65536)
  /-- SHUTDOWN_S2 (R586): Gains at 0 and DWELL passed, the commit point stops channels and starts the journal save -/
  | shutdownS2
  /-- SHUTDOWN_S3 (R586): The final journal is written, the tick stops and self-refresh is requested -/
  | shutdownS3
  /-- SHUTDOWN_S4 (R586): Self-refresh is entered and PDREQ_N is driven low -/
  | shutdownS4
  /-- SUPPLY_FAIL (R586): The supplies fail and the keep-alive domain remains -/
  | supplyFail
  /-- PWR_MCFG_WRITE (R585): A mains configuration write is checked -/
  | pwrMcfgWrite (m : Master) (v : W64)
  /-- PWR_JHOST_WRITE (R587): A journal host-byte window write is checked -/
  | pwrJhostWrite (m : Master) (v : W64)
  /-- LISTEN_ENTER (R589): PWR_LP.LISTEN enters the LISTEN state -/
  | listenEnter (m : Master)
  /-- TAMPER_LATCH (R592): A falling edge on TAMPER_N sets the tamper latch -/
  | tamperLatch
  /-- MAINS_LATCH (R592): MSENSE rising above 0.4 V sets the MAINS latch -/
  | mainsLatch
  /-- KA_ALARM (R592): The keep-alive counter reaching ALARM sets the ALARM latch -/
  | kaAlarm
  /-- VKA_LOSS (R591): VKA below 1.6 V resets the keep-alive domain -/
  | vkaLoss
  /-- HCP_READ (R598): An HCP READ transaction performs M1 reads and returns tokens and words -/
  | hcpRead (cmd : HcpByte) (a : Word) (n : Nat)
  /-- HCP_WRITE (R601): An HCP WRITE transaction issues M1 writes word by word -/
  | hcpWrite (cmd : HcpByte) (a : Word) (ws : List W64)
  /-- HCP_STATUS (R604): An HCP STATUS transaction returns HCP_STAT -/
  | hcpStatus (cmd : HcpByte)
  /-- HCP_ABORT (R605): An HCP ABORT resets M1 and ends pending accesses -/
  | hcpAbort (cmd : HcpByte)
  /-- HCP_CS_RISE (R600): HCP_CS_N rising ends the transaction and fixes its code -/
  | hcpCsRise (part : Bool)
  /-- HCP_READ_COMPLETE (R600): A read left pending after HCP_CS_N rose completes and RDY returns -/
  | hcpReadComplete
  /-- HCP_CFG_WRITE (R606): An HCP configuration write takes effect when its transaction ends -/
  | hcpCfgWrite (m : Master) (v : Word)
  /-- DRAM_INIT (R636): DRAM_CTRL.INIT starts LPDDR5X initialization and training -/
  | dramInit (m : Master)
  /-- DRAM_INIT_DONE (R636): Training ends with READY or FAIL -/
  | dramInitDone (ok : Bool)
  /-- DRAM_CFG_WRITE (R637): A DRAM configuration write is accepted only while not ready or busy -/
  | dramCfgWrite (m : Master) (v : Word)
  /-- INPUT_PIN_CHANGE (R578): A level change on MUTE_N or an EVIN pin that is undone before DEB has passed is absorbed and increments PWR_INOVF -/
  | inputPinChange (i : InPin) (undone : Bool)
  /-- CLKOUT_SLEW_ALIGNED (R481): A misaligned clock output slewing by itself with INSVC 0 comes within 1 ns of alignment, and its CLK_ALIGNPEND bit clears -/
  | clkoutSlewAligned (n : Fin 8)
  deriving DecidableEq, Repr

end Sys2Proof
end

