-- ==== Sys2Proof/Decode.lean ====
section
/-! DEFINITION. Commands that are words. The table gives no row any bits, so no word spells a command. The instruction words of the
lanes (R139–R157) are decoded in Machine/LaneCode.lean. -/

namespace Sys2Proof

/-- The command that a word of `nbits` bits spells: none, since no row of the table gives bits. -/
def decodeTableWord (_nbits _w : Nat) : Option Instr := none

end Sys2Proof
end

