-- ==== Sys2Proof/Machine/Crc.lean ====
section
/-! DEFINITION. Cyclic redundancy checks, bit by bit, and byte strings of numbers. -/

namespace Sys2Proof.Machine

/-- One bit of a reflected CRC: the low bit leaves. -/
def crcBitR (poly c : Nat) : Nat := if c % 2 == 1 then (c / 2) ^^^ poly else c / 2

/-- One bit of a CRC of width `w`, most significant bit first. -/
def crcBitL (w poly c : Nat) : Nat := if c / 2 ^ (w - 1) % 2 == 1 then (2 * c % 2 ^ w) ^^^ poly else 2 * c % 2 ^ w

/-- Repeat a function. -/
def iter {α : Type} (f : α → α) : Nat → α → α
  | 0, x => x
  | n + 1, x => iter f n (f x)

/-- A reflected CRC over bytes; `poly` is the reversed polynomial. -/
def crcR (poly init xorOut : Nat) (bs : List Byte) : Nat :=
  (bs.foldl (fun c b => iter (crcBitR poly) 8 (c ^^^ b.toNat)) init) ^^^ xorOut

/-- A CRC of width `w`, most significant bit first, over bytes. -/
def crcL (w poly init : Nat) (bs : List Byte) : Nat :=
  bs.foldl (fun c b => iter (crcBitL w poly) 8 (c ^^^ (b.toNat * 2 ^ (w - 8)))) init

/-- CRC-32 of Ethernet (IEEE 802.3); the FCS as the little-endian value of its four bytes. PRESUMED, log 15. -/
def crc32 (bs : List Byte) : Nat := crcR 0xEDB88320 0xFFFFFFFF 0xFFFFFFFF bs

/-- CRC-32C (Castagnoli). PRESUMED, log 15. -/
def crc32c (bs : List Byte) : Nat := crcR 0x82F63B78 0xFFFFFFFF 0xFFFFFFFF bs

/-- The `n` low bits of a number reversed. -/
def revBits : Nat → Nat → Nat
  | 0, _ => 0
  | n + 1, v => v % 2 * 2 ^ n + revBits n (v / 2)

/-- CRC-64 with reflected input and output, from the polynomial in its normal form (R499). -/
def crc64 (poly init xorOut : Nat) (bs : List Byte) : Nat := crcR (revBits 64 poly) init xorOut bs

/-- CRC-8 of a rail command: polynomial x^8 + x^2 + x + 1, initial value 0 (R339). -/
def crc8 (bs : List Byte) : Nat := crcL 8 0x07 0 bs

/-- `n` bytes of a number, least significant first. -/
def bytesLe (n v : Nat) : List Byte := (List.range n).map fun i => BitVec.ofNat 8 (v / 2 ^ (8 * i))

/-- `n` bytes of a number, most significant first. -/
def bytesBe (n v : Nat) : List Byte := (bytesLe n v).reverse

/-- Number of bytes read most significant first. -/
def ofBe (bs : List Byte) : Nat := bs.foldl (fun a b => 256 * a + b.toNat) 0

/-- Number of bytes read least significant first. -/
def ofLe (bs : List Byte) : Nat := ofBe bs.reverse

/-- Bytes [i, i + n) of a string, most significant first. -/
def fieldBe (bs : List Byte) (i n : Nat) : Nat := ofBe ((bs.drop i).take n)

/-- Bytes [i, i + n) of a string, least significant first. -/
def fieldLe (bs : List Byte) (i n : Nat) : Nat := ofLe ((bs.drop i).take n)

end Sys2Proof.Machine
end

