-- ==== Sys2Proof/Config.lean ====
section
/-! DEFINITION. Values the spec leaves open. Each is a constant without a body, so no proof can use a value of it. -/

namespace Sys2Proof.Config

/-- Free values, drawn one after another: the n-th draw is `freeNat n`. Each use reduces it to the width of the value the
spec leaves open and names that value. -/
opaque freeNat : Nat → Nat

/-- The half-band and compensation stages of a fine path (R265): the spec states no coefficients. Order, half-band stages and the
normalized CIC outputs, newest first (log 16). -/
opaque fineFilter : Nat → Nat → List Int → Int

/-- offsetScaledLogVariance of the node's own clock: `PTP_DS` (R448) gives it no field. -/
opaque ptpVariance : Nat

/-- The loop filter of the clock unit (R472): the spec states no form. Bandwidth in tenths of a hertz, y and the frequency of the
reference in 2^−16 ppb, phase error in 2^−16 ns, and a draw (log 29). -/
opaque loopFilter : Nat → Int → Int → Int → Nat → Int

/-- Interpolation of a converter (R304): the spec states its delay and its quality, and no kernel. Instant in 2^−16 node samples, and the
samples with their instants (log 79). -/
opaque asrcSample : Int → List (Nat × W40) → W40

/-- The noise shaper of a pulse edge (R326): the spec states its order and its noise, and no coefficients. The errors of the last five
edges, newest first, in 2^−16 step, give what is added to the next (log 78). -/
opaque shaperFeedback : List Int → Int

/-- Rounding of an AUTO target that is no whole unit (R341): the exact target in 2^−32 of 5 mV; odd is up. -/
opaque railRound : Nat → Nat

/-- Gain of an early-mix crosspoint of `g` × 0.5 dB as a 24-bit number in units of 2^−20: the spec states neither the format nor
the rounding (R572, log 34). -/
opaque emixGain : Int → Nat

end Sys2Proof.Config
end

