-- ==== Sys2Proof/Machine/Events.lean ====
section
/-! DEFINITION. The events of the Sump (R540): their numbers, source codes, default classes and which classes are fixed.
The lists follow the event table of 17_sump_faults.md row by row. -/

namespace Sys2Proof.Machine

/-- The five classes of an event, in the order of their codes (R525, R538). -/
inductive EvClass where
  | info | degrade | channel | node | safe
  deriving DecidableEq, Repr

/-- The events the node raises; it raises no others (R540). -/
inductive Ev where
  | SYS_RESET
  | ECC_CE
  | ECC_CE_LIMIT
  | ECC_REMAP
  | ECC_UE_QRD
  | ECC_UE_MASTER
  | ECC_UE_DMA
  | ECC_UE_RAMP
  | ECC_UE_ROUTE
  | ECC_UE_POOL
  | ECC_UE_SCENE
  | ECC_UE_LAT
  | ECC_UE_SPARE
  | HCP_ERR
  | TICK_ALIGN_LOST
  | TICK_OVR
  | TICK_OVR_RUN
  | STRATA_DEFAULT
  | STRATA_OVL_BAD
  | STRATA_SWITCH
  | STRATA_RELOAD
  | SUMP_SELF
  | XBAR_DECODE
  | XBAR_ACCESS
  | XBAR_BURST_ABORT
  | XBAR_SH_CONFLICT
  | LANE_ACC_OVF
  | LANE_FAULT
  | LANE_CFG_ERR
  | LANE_SPARED
  | LANE_SPARE_NONE
  | GDMA_BAD
  | GDMA_LATE
  | DLY_CFG_ERR
  | DLY_LATE
  | SAP_FRAME_ERR
  | SAP_UNDERRUN
  | SAP_EXCESS
  | SAP_PHASE
  | SAP_ASRC_RANGE
  | SAP_ASRC_UNLOCK
  | MIC_OVR
  | MIC_THR
  | DEC_CFG_ERR
  | ID_BOUND
  | MOD_START_SKIP
  | MOD_DIAG_FAIL
  | MOD_OC
  | MOD_SENSE_LOST
  | MOD_CLIP
  | RAIL_LOW
  | POOL_OVERDRAW
  | POOL_PUSH_ERR
  | POOL_FREE_ERR
  | POOL_STALL
  | POOL_PORT_ERR
  | POOL_Q_HIGH
  | POOL_LOW
  | ETH_LINK
  | ETH_WAKE
  | T1S_EXCESS_COLL
  | EZ_LOST
  | EZ_FAULT
  | CLT_BAD
  | CLT_LATE
  | CLT_MISS
  | CLT_POLICE
  | PTP_STEP
  | PTP_SYNC_LOSS
  | PTP_GM_CHANGE
  | EVT_LATE
  | CAP_OVF
  | CLK_PLL_UNLOCK_BC
  | CLK_PLL_UNLOCK_A
  | CLK_FREERUN
  | CLK_ACQUIRE
  | CLK_LOCKED
  | CLK_HOLDOVER
  | CLK_HOLD_EXPIRED
  | CLK_REF_SWITCH
  | CLK_REF_LOST
  | CLKOUT_CFG_ERR
  | PAIR_LINK_UP
  | PAIR_LINK_DOWN
  | PAIR_PATCH_LATE
  | PAIR_LEASE_LOST
  | PAIR_TAKEOVER
  | PAIR_RELEASE
  | PAIR_SUSPECT
  | PAIR_BOTH_FAULT
  | PAIR_SYNCED
  | PAIR_IMAGE_DIFF
  | PAIR_OUT
  | MAINS_LOW
  | PWR_SHUTDOWN
  | IN_STUCK
  | IN_COALESCE
  deriving DecidableEq, Repr

/-- The class code of R538. -/
def evClassNum : EvClass → Nat
  | .info => 0 | .degrade => 1 | .channel => 2 | .node => 3 | .safe => 4

/-- Event number, R540. -/
def evNum : Ev → Nat
  | .SYS_RESET => 0x00
  | .ECC_CE => 0x01
  | .ECC_CE_LIMIT => 0x02
  | .ECC_REMAP => 0x03
  | .ECC_UE_QRD => 0x04
  | .ECC_UE_MASTER => 0x05
  | .ECC_UE_DMA => 0x06
  | .ECC_UE_RAMP => 0x07
  | .ECC_UE_ROUTE => 0x08
  | .ECC_UE_POOL => 0x09
  | .ECC_UE_SCENE => 0x0A
  | .ECC_UE_LAT => 0x0B
  | .ECC_UE_SPARE => 0x0C
  | .HCP_ERR => 0x0D
  | .TICK_ALIGN_LOST => 0x10
  | .TICK_OVR => 0x11
  | .TICK_OVR_RUN => 0x12
  | .STRATA_DEFAULT => 0x14
  | .STRATA_OVL_BAD => 0x15
  | .STRATA_SWITCH => 0x16
  | .STRATA_RELOAD => 0x17
  | .SUMP_SELF => 0x18
  | .XBAR_DECODE => 0x19
  | .XBAR_ACCESS => 0x1A
  | .XBAR_BURST_ABORT => 0x1B
  | .XBAR_SH_CONFLICT => 0x1C
  | .LANE_ACC_OVF => 0x20
  | .LANE_FAULT => 0x21
  | .LANE_CFG_ERR => 0x22
  | .LANE_SPARED => 0x23
  | .LANE_SPARE_NONE => 0x24
  | .GDMA_BAD => 0x25
  | .GDMA_LATE => 0x26
  | .DLY_CFG_ERR => 0x28
  | .DLY_LATE => 0x29
  | .SAP_FRAME_ERR => 0x30
  | .SAP_UNDERRUN => 0x31
  | .SAP_EXCESS => 0x32
  | .SAP_PHASE => 0x33
  | .SAP_ASRC_RANGE => 0x34
  | .SAP_ASRC_UNLOCK => 0x35
  | .MIC_OVR => 0x38
  | .MIC_THR => 0x39
  | .DEC_CFG_ERR => 0x3A
  | .ID_BOUND => 0x3B
  | .MOD_START_SKIP => 0x40
  | .MOD_DIAG_FAIL => 0x41
  | .MOD_OC => 0x42
  | .MOD_SENSE_LOST => 0x43
  | .MOD_CLIP => 0x44
  | .RAIL_LOW => 0x45
  | .POOL_OVERDRAW => 0x48
  | .POOL_PUSH_ERR => 0x49
  | .POOL_FREE_ERR => 0x4A
  | .POOL_STALL => 0x4B
  | .POOL_PORT_ERR => 0x4C
  | .POOL_Q_HIGH => 0x4D
  | .POOL_LOW => 0x4E
  | .ETH_LINK => 0x50
  | .ETH_WAKE => 0x51
  | .T1S_EXCESS_COLL => 0x52
  | .EZ_LOST => 0x53
  | .EZ_FAULT => 0x54
  | .CLT_BAD => 0x58
  | .CLT_LATE => 0x59
  | .CLT_MISS => 0x5A
  | .CLT_POLICE => 0x5B
  | .PTP_STEP => 0x60
  | .PTP_SYNC_LOSS => 0x61
  | .PTP_GM_CHANGE => 0x62
  | .EVT_LATE => 0x63
  | .CAP_OVF => 0x64
  | .CLK_PLL_UNLOCK_BC => 0x68
  | .CLK_PLL_UNLOCK_A => 0x69
  | .CLK_FREERUN => 0x6A
  | .CLK_ACQUIRE => 0x6B
  | .CLK_LOCKED => 0x6C
  | .CLK_HOLDOVER => 0x6D
  | .CLK_HOLD_EXPIRED => 0x6E
  | .CLK_REF_SWITCH => 0x6F
  | .CLK_REF_LOST => 0x70
  | .CLKOUT_CFG_ERR => 0x71
  | .PAIR_LINK_UP => 0x78
  | .PAIR_LINK_DOWN => 0x79
  | .PAIR_PATCH_LATE => 0x7A
  | .PAIR_LEASE_LOST => 0x7B
  | .PAIR_TAKEOVER => 0x7C
  | .PAIR_RELEASE => 0x7D
  | .PAIR_SUSPECT => 0x7E
  | .PAIR_BOTH_FAULT => 0x7F
  | .PAIR_SYNCED => 0x80
  | .PAIR_IMAGE_DIFF => 0x81
  | .PAIR_OUT => 0x82
  | .MAINS_LOW => 0x88
  | .PWR_SHUTDOWN => 0x89
  | .IN_STUCK => 0x8A
  | .IN_COALESCE => 0x8B

/-- Source code of a history entry, R538 and R540; `none` where the code is 0x40 + the gallery. -/
def evSrc : Ev → Option Nat
  | .SYS_RESET => some 0x00
  | .ECC_CE => some 0x00
  | .ECC_CE_LIMIT => some 0x00
  | .ECC_REMAP => some 0x00
  | .ECC_UE_QRD => some 0x00
  | .ECC_UE_MASTER => some 0x00
  | .ECC_UE_DMA => some 0x00
  | .ECC_UE_RAMP => some 0x00
  | .ECC_UE_ROUTE => some 0x00
  | .ECC_UE_POOL => some 0x00
  | .ECC_UE_SCENE => some 0x00
  | .ECC_UE_LAT => some 0x00
  | .ECC_UE_SPARE => some 0x00
  | .HCP_ERR => some 0x13
  | .TICK_ALIGN_LOST => some 0x01
  | .TICK_OVR => some 0x01
  | .TICK_OVR_RUN => some 0x01
  | .STRATA_DEFAULT => some 0x02
  | .STRATA_OVL_BAD => some 0x02
  | .STRATA_SWITCH => some 0x02
  | .STRATA_RELOAD => some 0x02
  | .SUMP_SELF => some 0x03
  | .XBAR_DECODE => some 0x04
  | .XBAR_ACCESS => some 0x04
  | .XBAR_BURST_ABORT => some 0x04
  | .XBAR_SH_CONFLICT => some 0x04
  | .LANE_ACC_OVF => none
  | .LANE_FAULT => none
  | .LANE_CFG_ERR => none
  | .LANE_SPARED => none
  | .LANE_SPARE_NONE => none
  | .GDMA_BAD => none
  | .GDMA_LATE => none
  | .DLY_CFG_ERR => some 0x12
  | .DLY_LATE => some 0x12
  | .SAP_FRAME_ERR => some 0x07
  | .SAP_UNDERRUN => some 0x07
  | .SAP_EXCESS => some 0x07
  | .SAP_PHASE => some 0x07
  | .SAP_ASRC_RANGE => some 0x07
  | .SAP_ASRC_UNLOCK => some 0x07
  | .MIC_OVR => some 0x08
  | .MIC_THR => some 0x08
  | .DEC_CFG_ERR => some 0x08
  | .ID_BOUND => some 0x08
  | .MOD_START_SKIP => some 0x09
  | .MOD_DIAG_FAIL => some 0x09
  | .MOD_OC => some 0x09
  | .MOD_SENSE_LOST => some 0x09
  | .MOD_CLIP => some 0x09
  | .RAIL_LOW => some 0x09
  | .POOL_OVERDRAW => some 0x0B
  | .POOL_PUSH_ERR => some 0x0B
  | .POOL_FREE_ERR => some 0x0B
  | .POOL_STALL => some 0x0B
  | .POOL_PORT_ERR => some 0x0B
  | .POOL_Q_HIGH => some 0x0B
  | .POOL_LOW => some 0x0B
  | .ETH_LINK => some 0x0C
  | .ETH_WAKE => some 0x0C
  | .T1S_EXCESS_COLL => some 0x0D
  | .EZ_LOST => some 0x0D
  | .EZ_FAULT => some 0x0D
  | .CLT_BAD => some 0x0E
  | .CLT_LATE => some 0x0E
  | .CLT_MISS => some 0x0E
  | .CLT_POLICE => some 0x0E
  | .PTP_STEP => some 0x0F
  | .PTP_SYNC_LOSS => some 0x0F
  | .PTP_GM_CHANGE => some 0x0F
  | .EVT_LATE => some 0x0F
  | .CAP_OVF => some 0x0F
  | .CLK_PLL_UNLOCK_BC => some 0x10
  | .CLK_PLL_UNLOCK_A => some 0x10
  | .CLK_FREERUN => some 0x10
  | .CLK_ACQUIRE => some 0x10
  | .CLK_LOCKED => some 0x10
  | .CLK_HOLDOVER => some 0x10
  | .CLK_HOLD_EXPIRED => some 0x10
  | .CLK_REF_SWITCH => some 0x10
  | .CLK_REF_LOST => some 0x10
  | .CLKOUT_CFG_ERR => some 0x10
  | .PAIR_LINK_UP => some 0x11
  | .PAIR_LINK_DOWN => some 0x11
  | .PAIR_PATCH_LATE => some 0x11
  | .PAIR_LEASE_LOST => some 0x11
  | .PAIR_TAKEOVER => some 0x11
  | .PAIR_RELEASE => some 0x11
  | .PAIR_SUSPECT => some 0x11
  | .PAIR_BOTH_FAULT => some 0x11
  | .PAIR_SYNCED => some 0x11
  | .PAIR_IMAGE_DIFF => some 0x11
  | .PAIR_OUT => some 0x11
  | .MAINS_LOW => some 0x14
  | .PWR_SHUTDOWN => some 0x14
  | .IN_STUCK => some 0x14
  | .IN_COALESCE => some 0x14

/-- Default class, R540. -/
def evDefault : Ev → EvClass
  | .SYS_RESET => .info
  | .ECC_CE => .info
  | .ECC_CE_LIMIT => .degrade
  | .ECC_REMAP => .info
  | .ECC_UE_QRD => .channel
  | .ECC_UE_MASTER => .info
  | .ECC_UE_DMA => .channel
  | .ECC_UE_RAMP => .channel
  | .ECC_UE_ROUTE => .channel
  | .ECC_UE_POOL => .node
  | .ECC_UE_SCENE => .degrade
  | .ECC_UE_LAT => .info
  | .ECC_UE_SPARE => .channel
  | .HCP_ERR => .info
  | .TICK_ALIGN_LOST => .degrade
  | .TICK_OVR => .channel
  | .TICK_OVR_RUN => .node
  | .STRATA_DEFAULT => .node
  | .STRATA_OVL_BAD => .degrade
  | .STRATA_SWITCH => .info
  | .STRATA_RELOAD => .info
  | .SUMP_SELF => .safe
  | .XBAR_DECODE => .info
  | .XBAR_ACCESS => .info
  | .XBAR_BURST_ABORT => .info
  | .XBAR_SH_CONFLICT => .info
  | .LANE_ACC_OVF => .info
  | .LANE_FAULT => .channel
  | .LANE_CFG_ERR => .degrade
  | .LANE_SPARED => .degrade
  | .LANE_SPARE_NONE => .node
  | .GDMA_BAD => .degrade
  | .GDMA_LATE => .channel
  | .DLY_CFG_ERR => .degrade
  | .DLY_LATE => .channel
  | .SAP_FRAME_ERR => .info
  | .SAP_UNDERRUN => .channel
  | .SAP_EXCESS => .info
  | .SAP_PHASE => .info
  | .SAP_ASRC_RANGE => .degrade
  | .SAP_ASRC_UNLOCK => .channel
  | .MIC_OVR => .info
  | .MIC_THR => .info
  | .DEC_CFG_ERR => .degrade
  | .ID_BOUND => .info
  | .MOD_START_SKIP => .info
  | .MOD_DIAG_FAIL => .channel
  | .MOD_OC => .channel
  | .MOD_SENSE_LOST => .channel
  | .MOD_CLIP => .info
  | .RAIL_LOW => .degrade
  | .POOL_OVERDRAW => .degrade
  | .POOL_PUSH_ERR => .degrade
  | .POOL_FREE_ERR => .degrade
  | .POOL_STALL => .info
  | .POOL_PORT_ERR => .degrade
  | .POOL_Q_HIGH => .info
  | .POOL_LOW => .degrade
  | .ETH_LINK => .info
  | .ETH_WAKE => .info
  | .T1S_EXCESS_COLL => .info
  | .EZ_LOST => .degrade
  | .EZ_FAULT => .info
  | .CLT_BAD => .info
  | .CLT_LATE => .info
  | .CLT_MISS => .channel
  | .CLT_POLICE => .info
  | .PTP_STEP => .info
  | .PTP_SYNC_LOSS => .degrade
  | .PTP_GM_CHANGE => .info
  | .EVT_LATE => .info
  | .CAP_OVF => .info
  | .CLK_PLL_UNLOCK_BC => .node
  | .CLK_PLL_UNLOCK_A => .safe
  | .CLK_FREERUN => .info
  | .CLK_ACQUIRE => .info
  | .CLK_LOCKED => .info
  | .CLK_HOLDOVER => .degrade
  | .CLK_HOLD_EXPIRED => .degrade
  | .CLK_REF_SWITCH => .info
  | .CLK_REF_LOST => .info
  | .CLKOUT_CFG_ERR => .degrade
  | .PAIR_LINK_UP => .info
  | .PAIR_LINK_DOWN => .degrade
  | .PAIR_PATCH_LATE => .info
  | .PAIR_LEASE_LOST => .degrade
  | .PAIR_TAKEOVER => .degrade
  | .PAIR_RELEASE => .degrade
  | .PAIR_SUSPECT => .degrade
  | .PAIR_BOTH_FAULT => .node
  | .PAIR_SYNCED => .info
  | .PAIR_IMAGE_DIFF => .degrade
  | .PAIR_OUT => .node
  | .MAINS_LOW => .degrade
  | .PWR_SHUTDOWN => .info
  | .IN_STUCK => .degrade
  | .IN_COALESCE => .info

/-- Whether the class cannot be changed (R526, R540). -/
def evFixed : Ev → Bool
  | .SUMP_SELF => true
  | .CLK_PLL_UNLOCK_A => true
  | _ => false

/-- Every event of R540. -/
def allEvents : List Ev :=
  [.SYS_RESET, .ECC_CE, .ECC_CE_LIMIT, .ECC_REMAP, .ECC_UE_QRD, .ECC_UE_MASTER,
   .ECC_UE_DMA, .ECC_UE_RAMP, .ECC_UE_ROUTE, .ECC_UE_POOL, .ECC_UE_SCENE, .ECC_UE_LAT,
   .ECC_UE_SPARE, .HCP_ERR, .TICK_ALIGN_LOST, .TICK_OVR, .TICK_OVR_RUN, .STRATA_DEFAULT,
   .STRATA_OVL_BAD, .STRATA_SWITCH, .STRATA_RELOAD, .SUMP_SELF, .XBAR_DECODE, .XBAR_ACCESS,
   .XBAR_BURST_ABORT, .XBAR_SH_CONFLICT, .LANE_ACC_OVF, .LANE_FAULT, .LANE_CFG_ERR, .LANE_SPARED,
   .LANE_SPARE_NONE, .GDMA_BAD, .GDMA_LATE, .DLY_CFG_ERR, .DLY_LATE, .SAP_FRAME_ERR,
   .SAP_UNDERRUN, .SAP_EXCESS, .SAP_PHASE, .SAP_ASRC_RANGE, .SAP_ASRC_UNLOCK, .MIC_OVR,
   .MIC_THR, .DEC_CFG_ERR, .ID_BOUND, .MOD_START_SKIP, .MOD_DIAG_FAIL, .MOD_OC,
   .MOD_SENSE_LOST, .MOD_CLIP, .RAIL_LOW, .POOL_OVERDRAW, .POOL_PUSH_ERR, .POOL_FREE_ERR,
   .POOL_STALL, .POOL_PORT_ERR, .POOL_Q_HIGH, .POOL_LOW, .ETH_LINK, .ETH_WAKE,
   .T1S_EXCESS_COLL, .EZ_LOST, .EZ_FAULT, .CLT_BAD, .CLT_LATE, .CLT_MISS,
   .CLT_POLICE, .PTP_STEP, .PTP_SYNC_LOSS, .PTP_GM_CHANGE, .EVT_LATE, .CAP_OVF,
   .CLK_PLL_UNLOCK_BC, .CLK_PLL_UNLOCK_A, .CLK_FREERUN, .CLK_ACQUIRE, .CLK_LOCKED, .CLK_HOLDOVER,
   .CLK_HOLD_EXPIRED, .CLK_REF_SWITCH, .CLK_REF_LOST, .CLKOUT_CFG_ERR, .PAIR_LINK_UP, .PAIR_LINK_DOWN,
   .PAIR_PATCH_LATE, .PAIR_LEASE_LOST, .PAIR_TAKEOVER, .PAIR_RELEASE, .PAIR_SUSPECT, .PAIR_BOTH_FAULT,
   .PAIR_SYNCED, .PAIR_IMAGE_DIFF, .PAIR_OUT, .MAINS_LOW, .PWR_SHUTDOWN, .IN_STUCK,
   .IN_COALESCE]

/-- The event of a number, if R540 has one. -/
def evOfNum (n : Nat) : Option Ev := allEvents.find? fun e => evNum e == n

/-- Reset value of `SUMP_EVCFG`e.CLASS: the default class of R540, and 0 for a number R540 does not have. -/
def evClassCode (e : Nat) : Nat := match evOfNum e with
  | some v => evClassNum (evDefault v)
  | none => 0

/-- Reset value of `SUMP_EVCFG`e.INT0 (R527). -/
def evInt0 (e : Nat) : Nat := match evOfNum e with
  | some v => if evClassNum (evDefault v) ≥ 3 then 1 else 0
  | none => 0

/-- Reset value of `SUMP_EVCFG`e.INT1 (R527). -/
def evInt1 (e : Nat) : Nat := match evOfNum e with
  | some v => if evDefault v = .degrade ∨ evDefault v = .channel then 1 else 0
  | none => 0

/-- Reset value of `SUMP_EVCFG`e.LOG: 1, and 0 for a number R540 does not have, whose register reads 0. -/
def evLog (e : Nat) : Nat := if (evOfNum e).isSome then 1 else 0

end Sys2Proof.Machine
end

