-- ==== Sys2Proof/Machine/Regs.lean ====
section
/-! DEFINITION. Every register of the node: its place, its fields, their access codes, reset values and unlisted encodings.
One entry per register title line of the spec's register maps (R14); fields in the order of each map.
Fields of a register held per chip-matrix master exist once per master. -/

namespace Sys2Proof.Machine

/-- The names of the registers. -/
inductive RegName where
  | TICK_CFG | TICK_CYC | TICK_CYCFRAC | TICK_BUDGET | TICK_CTRL
  | TICK_STAT | TICK_NUM | TICK_NETMARGIN | TICK_TXEND | TICK_LANEMAX
  | TICK_LANEPEAK | TICK_OVR_STAT | TICK_OVR_CNT | TICK_OVR_CFG | TICK_LAT_CNT
  | TICK_LAT | XBAR_DERR | XBAR_ACCERR | XBAR_ABORT | XBAR_CONFLICT
  | XBAR_CONFLICT_LAST | XBAR_AGE | GAL_ID | GAL_SLICE | GAL_SLOTMAP
  | CHM_WEIGHT | LANE_CTRL | LANE_STAT | LANE_ENTRY | LANE_PC
  | LANE_ENABLE | LANE_FRAME | LANE_FAULT | LANE_CLIP | LANE_CYC
  | LANE_STALL | LANE_D | LANE_ACC | LANE_A | LANE_M
  | LANE_LEN | SYS_ECC_CECNT | SYS_ECC_THRESH | SYS_ECC_CELOG | SYS_ECC_CELOST
  | SYS_ECC_UE | SYS_ECC_UECNT | SYS_REMAP_CMD | SYS_REMAP_RES | SYS_JRNL_CFG
  | SYS_JRNL_STAT | SYS_JRNL_SEQ | ROUTE_PAGE | ROUTE_OCLIP | ROUTE_SIL_CFG
  | ROUTE_SIL_STAT | ROUTE_SIL_CHG | ROUTE_POLICY | ROUTE_BUS | ROUTE_OUT
  | ROUTE_TBL | RAMP_CTRL | RAMP_STAT | RAMP_IDX | RAMP_LIVE
  | RAMP_CUR | RAMP_ACTIVE | RAMP_MAP | RAMP_TGT | ROPE_CTRL
  | ROPE_STRAP | ROPE_STAT | ROPE_MAP | DRAM_DLY_CTRL | DRAM_DLY_STAT
  | DRAM_DLY_PEAK | DRAM_DLY_LATECNT | DRAM_DLY_LINE | DRAM_DLY_TAP | GDMA_CFG
  | GDMA_STAT | GDMA_TAG | GDMA_SEL | GDMA_SEL_STAT | PDM_CLK
  | PDM_LINE | DEC_MIC | DEC_OVR | DEC_THR | DEC_THR_CHG
  | DEC_MUTED | DEC_GD | DEC_ID_CFG | DEC_ID_TIME | DEC_ID_LIMIT
  | DEC_ID_CMD | DEC_ID_STAT | DEC_ID_CLAMP | DEC_ID_FRZ | DEC_ID_CH
  | DEC_ID_PROP | DEC_ID_TRIM | SAP_CLK | SAP_RXCFG | SAP_TXCFG
  | SAP_RXSLOT | SAP_TXSLOT | SAP_ASRC | SAP_STAT | SAP_PHASE
  | SAP_RXSTAMP | SAP_TXSTAMP | SAP_RXRATIO | SAP_TXRATIO | SAP_UNDCNT
  | SAP_START_RX | SAP_START_TX | SAP_START_AT | SAP_START_CMD | SAP_START_STAT
  | SAP_START_LAST | SAP_UND_RX | SAP_UND_TX | MOD_CFG | MOD_RAMP
  | MOD_DIAG | MOD_START | MOD_STOP | MOD_FCLR | MOD_OCST
  | MOD_CLIPST | MOD_CH | MOD_STAT | RAIL_GCFG | RAIL_GV
  | RAIL_GV2 | RAIL_STAT | SENSE_CTRL | SENSE_PT | SENSE_VAL
  | SENSE_BAD | POOL_STAT | POOL_WM | POOL_WMSTAT | POOL_ERR
  | POOL_SELQ | POOL_ALLOC | POOL_PUSH | POOL_FREE | POOL_POP
  | POOL_TRYPOP | POOL_QWORD | POOL_TAGSEL | POOL_TAG | POOL_QIDX
  | POOL_QCFG | POOL_QSTAT | POOL_QHIGH | POOL_LPORT | ETH_PCFG
  | ETH_PSTAT | ETH_PQMAP | ETH_PQ | ETH_PCNT | ETH_P4RX
  | ETH_P4TX | ETH_SWCFG | ETH_GATE | ETH_MAC | ETH_AT_KEY
  | ETH_AT_MASK | ETH_AT_ACT | ETH_AT_CMD | ETH_VLAN | ETH_WAKE_CFG
  | ETH_WAKE_MASK | ETH_WAKE_STAT | ETH_MGMT | ETH_MGMT_Q | ETH_MGMT_CNT
  | T1S_CFG | T1S_CNT | EZ_CFG | EZ_TIME | EZ_Q
  | EZ_PRESENT | EZ_LOST | EZ_CNT | EZ_ELEM | CLT_CFG
  | CLT_UDP | CLT_IP | CLT_IPCFG | CLT_ID | CLT_STAT
  | CLT_EARLY | CLT_RXCFG | CLT_TXCFG | CLT_RXKEY | CLT_TXKEY
  | CLT_RXAUX | CLT_TXAUX | CLT_RXCNT | CLT_RXSTAT | CLT_TXDST
  | CLT_TXCNT | CLT_POL | CLT_POLDROP | PTP_TIME_FRAC | PTP_TIME_NS
  | PTP_TIME_SECLO | PTP_TIME_SECHI | PTP_CFG | PTP_DS | PTP_INTV
  | PTP_QUAL | PTP_STEP | PTP_STAT | PTP_OFS | PTP_MPD
  | PTP_GMID | PTP_STEPCNT | PTP_PCFG | PTP_PSTAT | PTP_PCORR
  | PTP_PCNT | PTP_EVT_CTRL | PTP_EVT_SEC | PTP_EVT_NS | PTP_EVT_PER
  | PTP_EVT_WID | PTP_CAP_CFG | PTP_CAP_HEAD | PTP_CAP_TS | PTP_CAP_OVF
  | CLK_CTRL | CLK_STAT | CLK_HIST | CLK_REFCFG | CLK_REFPRIO
  | CLK_REFSTAT | CLK_REF1 | CLK_REF2 | CLK_REF3 | CLK_FRANGE
  | CLK_SLEW | CLK_Y | CLK_PHERR | CLK_HOLD | CLK_HOLDNS
  | CLK_HOLD_LEFT | CLK_FR | CLK_PLLA | CLK_SEED | CLK_DITHER_CTRL
  | CLK_ALIGN | CLK_ALIGNPEND | CLK_OUT | CLK_OUTMIS | PAIR_CFG
  | PAIR_CMD | PAIR_STAT | PAIR_HIST | PAIR_PATCH | PAIR_CONV
  | PAIR_MATCH | PAIR_FLAGS | PAIR_DIG | PAIR_PDIG | PAIR_MISMATCH
  | PAIR_CNT | GAL_FAULT | GAL_SPARE | GAL_SPARE_LAST | GAL_COPY
  | GAL_STSET | SUMP_STAT | SUMP_CTRL | SUMP_REFUSED | SUMP_HIST_STAT
  | SUMP_LOST | SUMP_HIST | SUMP_EVSTAT | SUMP_EVCNT | SUMP_EVCFG
  | STRATA_STAT | STRATA_ICW | STRATA_OVL | STRATA_MODE | STRATA_SEL
  | STRATA_TRIG | STRATA_AT | STRATA_CMD | STRATA_SWSTAT | STRATA_GCMD
  | STRATA_GSTAT | SYS_ID | SYS_RSTCAUSE | SYS_SWRST | SYS_WDOG
  | SYS_WDOG_KICK | PWR_STAT | PWR_BOOT | PWR_MCFG | PWR_MSTAT
  | PWR_MUTE | PWR_INCFG | PWR_INSTAT | PWR_INOVF | PWR_JHOST
  | PWR_LP | PWR_KACFG | PWR_KALATCH | PWR_KACNT | PWR_KAALARM
  | HCP_CFG | HCP_STAT | HCP_CNT | DRAM_CFG | DRAM_CTRL
  | DRAM_STAT
  deriving DecidableEq, Repr

/-- The read and write behaviour of a field apart from sh and lk (R6). -/
inductive Acc where
  | rw | ro | wc | wcCount | wt
  deriving DecidableEq, Repr

/-- A register or an indexed set of registers. Element `i` counts through `dims`, the last dimension fastest. -/
structure Reg where
  name : RegName
  /-- byte address of element 0 -/
  base : Nat
  /-- count and stride of each index, outermost first -/
  dims : List (Nat × Nat) := []
  /-- 32-bit words of one element -/
  words : Nat := 1
  /-- reset value of element `i`, all words together -/
  rst : Nat → Nat := fun _ => 0
  /-- byte address of element 0 of the `_LIVE` mirror -/
  live : Option Nat := none
  /-- held once for each chip-matrix master -/
  perMaster : Bool := false

/-- A field of a register: bits [hi:lo] of the element. -/
structure Fld where
  reg : Reg
  hi : Nat
  lo : Nat
  acc : Acc := .rw
  sh : Bool := false
  lk : Bool := false
  /-- encodings a write may not store (R9) -/
  unlisted : List Nat := []

/-- A register with the fields of its map. -/
structure RegEntry where
  reg : Reg
  flds : List Fld

namespace R

/-! Registers of 01_tick_and_latency.md. -/

def TICK_CFG : Reg where
  name := .TICK_CFG
  base := 0x20010000
  dims := []
  words := 1
  rst := fun _ => 0x21
  live := none

def TICK_CYC : Reg where
  name := .TICK_CYC
  base := 0x20010004
  dims := []
  words := 1
  rst := fun _ => 0x186A0
  live := none

def TICK_CYCFRAC : Reg where
  name := .TICK_CYCFRAC
  base := 0x20010008
  dims := []
  words := 1
  rst := fun _ => 0
  live := none

def TICK_BUDGET : Reg where
  name := .TICK_BUDGET
  base := 0x2001000C
  dims := []
  words := 1
  rst := fun _ => 0x17EA0
  live := none

def TICK_CTRL : Reg where
  name := .TICK_CTRL
  base := 0x20010010
  dims := []
  words := 1
  rst := fun _ => 0
  live := none

def TICK_STAT : Reg where
  name := .TICK_STAT
  base := 0x20010014
  dims := []
  words := 1
  rst := fun _ => 0
  live := none

def TICK_NUM : Reg where
  name := .TICK_NUM
  base := 0x20010018
  dims := []
  words := 2
  rst := fun _ => 0
  live := none

def TICK_NETMARGIN : Reg where
  name := .TICK_NETMARGIN
  base := 0x20010020
  dims := []
  words := 1
  rst := fun _ => 0x7D0
  live := none

def TICK_TXEND : Reg where
  name := .TICK_TXEND
  base := 0x20010028
  dims := []
  words := 1
  rst := fun _ => 0
  live := none

def TICK_LANEMAX : Reg where
  name := .TICK_LANEMAX
  base := 0x20010030
  dims := []
  words := 1
  rst := fun _ => 0
  live := none

def TICK_LANEPEAK : Reg where
  name := .TICK_LANEPEAK
  base := 0x20010034
  dims := []
  words := 1
  rst := fun _ => 0
  live := none

def TICK_OVR_STAT : Reg where
  name := .TICK_OVR_STAT
  base := 0x20010100
  dims := [(8, 0x4)]
  words := 1
  rst := fun _ => 0
  live := none

def TICK_OVR_CNT : Reg where
  name := .TICK_OVR_CNT
  base := 0x20010120
  dims := []
  words := 1
  rst := fun _ => 0
  live := none

def TICK_OVR_CFG : Reg where
  name := .TICK_OVR_CFG
  base := 0x20010124
  dims := []
  words := 1
  rst := fun _ => 0x10
  live := none

def TICK_LAT_CNT : Reg where
  name := .TICK_LAT_CNT
  base := 0x20010200
  dims := []
  words := 1
  rst := fun _ => 0
  live := none

def TICK_LAT : Reg where
  name := .TICK_LAT
  base := 0x20018000
  dims := [(4096, 0x8)]
  words := 2
  rst := fun _ => 0
  live := none

/-! Registers of 02_hierarchy_and_matrices.md. -/

def XBAR_DERR : Reg where
  name := .XBAR_DERR
  base := 0x20040000
  dims := []
  words := 2
  rst := fun _ => 0
  live := none

def XBAR_ACCERR : Reg where
  name := .XBAR_ACCERR
  base := 0x20040008
  dims := []
  words := 2
  rst := fun _ => 0
  live := none

def XBAR_ABORT : Reg where
  name := .XBAR_ABORT
  base := 0x20040010
  dims := []
  words := 2
  rst := fun _ => 0
  live := none

def XBAR_CONFLICT : Reg where
  name := .XBAR_CONFLICT
  base := 0x20040018
  dims := []
  words := 1
  rst := fun _ => 0
  live := none

def XBAR_CONFLICT_LAST : Reg where
  name := .XBAR_CONFLICT_LAST
  base := 0x20040020
  dims := []
  words := 2
  rst := fun _ => 0
  live := none

def XBAR_AGE : Reg where
  name := .XBAR_AGE
  base := 0x20040028
  dims := []
  words := 1
  rst := fun _ => 0x40
  live := none

def GAL_ID : Reg where
  name := .GAL_ID
  base := 0x00F00000
  dims := [(16, 0x1000000)]
  words := 1
  rst := fun i => (i / 4) * 2 ^ 4 + (i)
  live := none

def GAL_SLICE : Reg where
  name := .GAL_SLICE
  base := 0x00F00004
  dims := [(16, 0x1000000)]
  words := 1
  rst := fun _ => 0
  live := some 0x00F00008

def GAL_SLOTMAP : Reg where
  name := .GAL_SLOTMAP
  base := 0x00F00010
  dims := [(16, 0x1000000), (4, 0x4)]
  words := 1
  rst := fun i => 0x80808080 + (4 * (i % 4) + 0) + (4 * (i % 4) + 1) * 2 ^ 8 + (4 * (i % 4) + 2) * 2 ^ 16 + (4 * (i % 4) + 3) * 2 ^ 24
  live := some 0x00F00020

def CHM_WEIGHT : Reg where
  name := .CHM_WEIGHT
  base := 0x10F00000
  dims := [(4, 0x1000000)]
  words := 1
  rst := fun _ => 0x24444
  live := none

/-! Registers of 03_lane_datapath.md. -/

def LANE_CTRL : Reg where
  name := .LANE_CTRL
  base := 0x00030000
  dims := [(16, 0x1000000), (17, 0x40000)]
  words := 1
  rst := fun _ => 0
  live := none

def LANE_STAT : Reg where
  name := .LANE_STAT
  base := 0x00030004
  dims := [(16, 0x1000000), (17, 0x40000)]
  words := 1
  rst := fun _ => 0
  live := none

def LANE_ENTRY : Reg where
  name := .LANE_ENTRY
  base := 0x00030008
  dims := [(16, 0x1000000), (17, 0x40000)]
  words := 1
  rst := fun _ => 0
  live := none

def LANE_PC : Reg where
  name := .LANE_PC
  base := 0x0003000C
  dims := [(16, 0x1000000), (17, 0x40000)]
  words := 1
  rst := fun _ => 0
  live := none

def LANE_ENABLE : Reg where
  name := .LANE_ENABLE
  base := 0x00030010
  dims := [(16, 0x1000000), (17, 0x40000)]
  words := 1
  rst := fun _ => 0
  live := some 0x00030014

def LANE_FRAME : Reg where
  name := .LANE_FRAME
  base := 0x00030018
  dims := [(16, 0x1000000), (17, 0x40000)]
  words := 1
  rst := fun _ => 0
  live := some 0x0003001C

def LANE_FAULT : Reg where
  name := .LANE_FAULT
  base := 0x00030020
  dims := [(16, 0x1000000), (17, 0x40000)]
  words := 2
  rst := fun _ => 0
  live := none

def LANE_CLIP : Reg where
  name := .LANE_CLIP
  base := 0x00030028
  dims := [(16, 0x1000000), (17, 0x40000)]
  words := 2
  rst := fun _ => 0
  live := none

def LANE_CYC : Reg where
  name := .LANE_CYC
  base := 0x00030030
  dims := [(16, 0x1000000), (17, 0x40000)]
  words := 1
  rst := fun _ => 0
  live := none

def LANE_STALL : Reg where
  name := .LANE_STALL
  base := 0x00030034
  dims := [(16, 0x1000000), (17, 0x40000)]
  words := 1
  rst := fun _ => 0
  live := none

def LANE_D : Reg where
  name := .LANE_D
  base := 0x00030100
  dims := [(16, 0x1000000), (17, 0x40000), (16, 0x8)]
  words := 2
  rst := fun _ => 0
  live := none

def LANE_ACC : Reg where
  name := .LANE_ACC
  base := 0x00030180
  dims := [(16, 0x1000000), (17, 0x40000), (4, 0x10)]
  words := 4
  rst := fun _ => 0
  live := none

def LANE_A : Reg where
  name := .LANE_A
  base := 0x00030200
  dims := [(16, 0x1000000), (17, 0x40000), (16, 0x4)]
  words := 1
  rst := fun _ => 0
  live := none

def LANE_M : Reg where
  name := .LANE_M
  base := 0x00030240
  dims := [(16, 0x1000000), (17, 0x40000), (16, 0x4)]
  words := 1
  rst := fun _ => 0
  live := none

def LANE_LEN : Reg where
  name := .LANE_LEN
  base := 0x00030280
  dims := [(16, 0x1000000), (17, 0x40000), (16, 0x4)]
  words := 1
  rst := fun _ => 0
  live := none

/-! Registers of 05_memories_and_ecc.md. -/

def SYS_ECC_CECNT : Reg where
  name := .SYS_ECC_CECNT
  base := 0x20000400
  dims := [(12, 0x4)]
  words := 1
  rst := fun _ => 0
  live := none

def SYS_ECC_THRESH : Reg where
  name := .SYS_ECC_THRESH
  base := 0x20000440
  dims := [(12, 0x4)]
  words := 1
  rst := fun _ => 0x10
  live := none

def SYS_ECC_CELOG : Reg where
  name := .SYS_ECC_CELOG
  base := 0x20000480
  dims := [(8, 0x8)]
  words := 2
  rst := fun _ => 0
  live := none

def SYS_ECC_CELOST : Reg where
  name := .SYS_ECC_CELOST
  base := 0x200004C0
  dims := []
  words := 1
  rst := fun _ => 0
  live := none

def SYS_ECC_UE : Reg where
  name := .SYS_ECC_UE
  base := 0x200004C8
  dims := []
  words := 2
  rst := fun _ => 0
  live := none

def SYS_ECC_UECNT : Reg where
  name := .SYS_ECC_UECNT
  base := 0x200004D0
  dims := []
  words := 1
  rst := fun _ => 0
  live := none

def SYS_REMAP_CMD : Reg where
  name := .SYS_REMAP_CMD
  base := 0x200004E0
  dims := []
  words := 2
  rst := fun _ => 0
  live := none

def SYS_REMAP_RES : Reg where
  name := .SYS_REMAP_RES
  base := 0x200004E8
  dims := []
  words := 1
  rst := fun _ => 0
  live := none

def SYS_JRNL_CFG : Reg where
  name := .SYS_JRNL_CFG
  base := 0x20000500
  dims := []
  words := 1
  rst := fun _ => 0xA
  live := none

def SYS_JRNL_STAT : Reg where
  name := .SYS_JRNL_STAT
  base := 0x20000504
  dims := []
  words := 1
  rst := fun _ => 0
  live := none

def SYS_JRNL_SEQ : Reg where
  name := .SYS_JRNL_SEQ
  base := 0x20000508
  dims := []
  words := 1
  rst := fun _ => 0
  live := none

/-! Registers of 06_routing_and_mixing.md. -/

def ROUTE_PAGE : Reg where
  name := .ROUTE_PAGE
  base := 0x20050000
  dims := []
  words := 1
  rst := fun _ => 0
  live := none
  perMaster := true

def ROUTE_OCLIP : Reg where
  name := .ROUTE_OCLIP
  base := 0x20050400
  dims := [(50, 0x4)]
  words := 1
  rst := fun _ => 0
  live := none

def ROUTE_SIL_CFG : Reg where
  name := .ROUTE_SIL_CFG
  base := 0x20050800
  dims := [(128, 0x8)]
  words := 2
  rst := fun _ => 0x1060
  live := some 0x20050C00

def ROUTE_SIL_STAT : Reg where
  name := .ROUTE_SIL_STAT
  base := 0x20051000
  dims := [(4, 0x4)]
  words := 1
  rst := fun _ => 0
  live := none

def ROUTE_SIL_CHG : Reg where
  name := .ROUTE_SIL_CHG
  base := 0x20051010
  dims := [(4, 0x4)]
  words := 1
  rst := fun _ => 0
  live := none

def ROUTE_POLICY : Reg where
  name := .ROUTE_POLICY
  base := 0x20052000
  dims := [(256, 0x8)]
  words := 2
  rst := fun _ => 0
  live := some 0x20052800

def ROUTE_BUS : Reg where
  name := .ROUTE_BUS
  base := 0x20053000
  dims := [(2048, 0x4)]
  words := 1
  rst := fun _ => 0
  live := none

def ROUTE_OUT : Reg where
  name := .ROUTE_OUT
  base := 0x20055000
  dims := [(1600, 0x4)]
  words := 1
  rst := fun _ => 0
  live := none

def ROUTE_TBL : Reg where
  name := .ROUTE_TBL
  base := 0x20058000
  dims := [(8192, 0x4)]
  words := 1
  rst := fun _ => 0
  live := none

def RAMP_CTRL : Reg where
  name := .RAMP_CTRL
  base := 0x00F10000
  dims := [(16, 0x1000000)]
  words := 1
  rst := fun _ => 0
  live := some 0x00F10004

def RAMP_STAT : Reg where
  name := .RAMP_STAT
  base := 0x00F10008
  dims := [(16, 0x1000000)]
  words := 1
  rst := fun _ => 0
  live := none

def RAMP_IDX : Reg where
  name := .RAMP_IDX
  base := 0x00F10010
  dims := [(16, 0x1000000)]
  words := 1
  rst := fun _ => 0
  live := none
  perMaster := true

def RAMP_LIVE : Reg where
  name := .RAMP_LIVE
  base := 0x00F10018
  dims := [(16, 0x1000000)]
  words := 2
  rst := fun _ => 0
  live := none

def RAMP_CUR : Reg where
  name := .RAMP_CUR
  base := 0x00F10020
  dims := [(16, 0x1000000)]
  words := 2
  rst := fun _ => 0
  live := none

def RAMP_ACTIVE : Reg where
  name := .RAMP_ACTIVE
  base := 0x00F11000
  dims := [(16, 0x1000000), (128, 0x4)]
  words := 1
  rst := fun _ => 0
  live := none

def RAMP_MAP : Reg where
  name := .RAMP_MAP
  base := 0x00F14000
  dims := [(16, 0x1000000), (4096, 0x4)]
  words := 1
  rst := fun _ => 0
  live := none

def RAMP_TGT : Reg where
  name := .RAMP_TGT
  base := 0x00F18000
  dims := [(16, 0x1000000), (4096, 0x8)]
  words := 2
  rst := fun _ => 0
  live := none

def ROPE_CTRL : Reg where
  name := .ROPE_CTRL
  base := 0x20060000
  dims := []
  words := 1
  rst := fun _ => 0
  live := none

def ROPE_STRAP : Reg where
  name := .ROPE_STRAP
  base := 0x20060004
  dims := []
  words := 1
  rst := fun _ => 0
  live := none

def ROPE_STAT : Reg where
  name := .ROPE_STAT
  base := 0x20060008
  dims := []
  words := 1
  rst := fun _ => 0
  live := none

def ROPE_MAP : Reg where
  name := .ROPE_MAP
  base := 0x20060100
  dims := [(32, 0x4)]
  words := 1
  rst := fun _ => 0
  live := some 0x20060200

/-! Registers of 07_array_delay_and_steering.md. -/

def DRAM_DLY_CTRL : Reg where
  name := .DRAM_DLY_CTRL
  base := 0x20123000
  dims := []
  words := 1
  rst := fun _ => 0
  live := some 0x20123004

def DRAM_DLY_STAT : Reg where
  name := .DRAM_DLY_STAT
  base := 0x20123008
  dims := []
  words := 1
  rst := fun _ => 0
  live := none

def DRAM_DLY_PEAK : Reg where
  name := .DRAM_DLY_PEAK
  base := 0x2012300C
  dims := []
  words := 1
  rst := fun _ => 0
  live := none

def DRAM_DLY_LATECNT : Reg where
  name := .DRAM_DLY_LATECNT
  base := 0x20123010
  dims := []
  words := 1
  rst := fun _ => 0
  live := none

def DRAM_DLY_LINE : Reg where
  name := .DRAM_DLY_LINE
  base := 0x20124000
  dims := [(1024, 0x8)]
  words := 2
  rst := fun _ => 0
  live := some 0x20126000

def DRAM_DLY_TAP : Reg where
  name := .DRAM_DLY_TAP
  base := 0x20128000
  dims := [(2048, 0x8)]
  words := 2
  rst := fun _ => 0
  live := some 0x2012C000

def GDMA_CFG : Reg where
  name := .GDMA_CFG
  base := 0x00F20000
  dims := [(16, 0x1000000)]
  words := 1
  rst := fun _ => 0
  live := none

def GDMA_STAT : Reg where
  name := .GDMA_STAT
  base := 0x00F20004
  dims := [(16, 0x1000000)]
  words := 1
  rst := fun _ => 0
  live := none

def GDMA_TAG : Reg where
  name := .GDMA_TAG
  base := 0x00F20008
  dims := [(16, 0x1000000)]
  words := 1
  rst := fun _ => 0
  live := none

def GDMA_SEL : Reg where
  name := .GDMA_SEL
  base := 0x00F20100
  dims := [(16, 0x1000000), (16, 0x4)]
  words := 1
  rst := fun _ => 0x1
  live := some 0x00F20140

def GDMA_SEL_STAT : Reg where
  name := .GDMA_SEL_STAT
  base := 0x00F20180
  dims := [(16, 0x1000000), (16, 0x4)]
  words := 1
  rst := fun _ => 0
  live := none

/-! Registers of 08_microphones_and_calibration.md. -/

def PDM_CLK : Reg where
  name := .PDM_CLK
  base := 0x20080000
  dims := [(16, 0x4)]
  words := 1
  rst := fun _ => 0x20
  live := some 0x20080040

def PDM_LINE : Reg where
  name := .PDM_LINE
  base := 0x20080080
  dims := [(32, 0x4)]
  words := 1
  rst := fun _ => 0
  live := some 0x20080100

def DEC_MIC : Reg where
  name := .DEC_MIC
  base := 0x20080200
  dims := [(64, 0x8)]
  words := 2
  rst := fun _ => 0x2600050000000014
  live := some 0x20080400

def DEC_OVR : Reg where
  name := .DEC_OVR
  base := 0x20080600
  dims := []
  words := 2
  rst := fun _ => 0
  live := none

def DEC_THR : Reg where
  name := .DEC_THR
  base := 0x20080608
  dims := []
  words := 2
  rst := fun _ => 0
  live := none

def DEC_THR_CHG : Reg where
  name := .DEC_THR_CHG
  base := 0x20080610
  dims := []
  words := 2
  rst := fun _ => 0
  live := none

def DEC_MUTED : Reg where
  name := .DEC_MUTED
  base := 0x20080618
  dims := []
  words := 2
  rst := fun _ => 0
  live := none

def DEC_GD : Reg where
  name := .DEC_GD
  base := 0x20080700
  dims := [(64, 0x4)]
  words := 1
  rst := fun _ => 0x2F76
  live := none

def DEC_ID_CFG : Reg where
  name := .DEC_ID_CFG
  base := 0x20081000
  dims := []
  words := 1
  rst := fun _ => 0
  live := none

def DEC_ID_TIME : Reg where
  name := .DEC_ID_TIME
  base := 0x20081004
  dims := []
  words := 1
  rst := fun _ => 0x9601804
  live := none

def DEC_ID_LIMIT : Reg where
  name := .DEC_ID_LIMIT
  base := 0x20081008
  dims := []
  words := 1
  rst := fun _ => 0x18000028
  live := none

def DEC_ID_CMD : Reg where
  name := .DEC_ID_CMD
  base := 0x2008100C
  dims := []
  words := 1
  rst := fun _ => 0
  live := none

def DEC_ID_STAT : Reg where
  name := .DEC_ID_STAT
  base := 0x20081010
  dims := []
  words := 1
  rst := fun _ => 0
  live := none

def DEC_ID_CLAMP : Reg where
  name := .DEC_ID_CLAMP
  base := 0x20081018
  dims := []
  words := 2
  rst := fun _ => 0
  live := none

def DEC_ID_FRZ : Reg where
  name := .DEC_ID_FRZ
  base := 0x20081020
  dims := []
  words := 2
  rst := fun _ => 0
  live := none

def DEC_ID_CH : Reg where
  name := .DEC_ID_CH
  base := 0x20081100
  dims := [(64, 0x4)]
  words := 1
  rst := fun _ => 0
  live := none

def DEC_ID_PROP : Reg where
  name := .DEC_ID_PROP
  base := 0x20082000
  dims := [(1024, 0x4)]
  words := 1
  rst := fun _ => 0
  live := none

def DEC_ID_TRIM : Reg where
  name := .DEC_ID_TRIM
  base := 0x20083000
  dims := [(1024, 0x4)]
  words := 1
  rst := fun _ => 0
  live := none

/-! Registers of 09_serial_audio_ports.md. -/

def SAP_CLK : Reg where
  name := .SAP_CLK
  base := 0x20070000
  dims := [(32, 0x400)]
  words := 1
  rst := fun _ => 0x12080000
  live := some 0x20070004

def SAP_RXCFG : Reg where
  name := .SAP_RXCFG
  base := 0x20070008
  dims := [(32, 0x400)]
  words := 1
  rst := fun i => (i) * 2 ^ 20
  live := some 0x2007000C

def SAP_TXCFG : Reg where
  name := .SAP_TXCFG
  base := 0x20070010
  dims := [(32, 0x400)]
  words := 1
  rst := fun i => (i) * 2 ^ 20
  live := some 0x20070014

def SAP_RXSLOT : Reg where
  name := .SAP_RXSLOT
  base := 0x20070018
  dims := [(32, 0x400)]
  words := 1
  rst := fun _ => 0
  live := some 0x2007001C

def SAP_TXSLOT : Reg where
  name := .SAP_TXSLOT
  base := 0x20070020
  dims := [(32, 0x400)]
  words := 1
  rst := fun _ => 0
  live := some 0x20070024

def SAP_ASRC : Reg where
  name := .SAP_ASRC
  base := 0x20070028
  dims := [(32, 0x400)]
  words := 1
  rst := fun _ => 0x800080
  live := some 0x2007002C

def SAP_STAT : Reg where
  name := .SAP_STAT
  base := 0x20070040
  dims := [(32, 0x400)]
  words := 1
  rst := fun _ => 0
  live := none

def SAP_PHASE : Reg where
  name := .SAP_PHASE
  base := 0x20070044
  dims := [(32, 0x400)]
  words := 1
  rst := fun _ => 0
  live := none

def SAP_RXSTAMP : Reg where
  name := .SAP_RXSTAMP
  base := 0x20070048
  dims := [(32, 0x400)]
  words := 2
  rst := fun _ => 0
  live := none

def SAP_TXSTAMP : Reg where
  name := .SAP_TXSTAMP
  base := 0x20070050
  dims := [(32, 0x400)]
  words := 2
  rst := fun _ => 0
  live := none

def SAP_RXRATIO : Reg where
  name := .SAP_RXRATIO
  base := 0x20070058
  dims := [(32, 0x400)]
  words := 1
  rst := fun _ => 0
  live := none

def SAP_TXRATIO : Reg where
  name := .SAP_TXRATIO
  base := 0x2007005C
  dims := [(32, 0x400)]
  words := 1
  rst := fun _ => 0
  live := none

def SAP_UNDCNT : Reg where
  name := .SAP_UNDCNT
  base := 0x20070060
  dims := [(32, 0x400)]
  words := 1
  rst := fun _ => 0
  live := none

def SAP_START_RX : Reg where
  name := .SAP_START_RX
  base := 0x20078000
  dims := []
  words := 1
  rst := fun _ => 0
  live := none

def SAP_START_TX : Reg where
  name := .SAP_START_TX
  base := 0x20078004
  dims := []
  words := 1
  rst := fun _ => 0
  live := none

def SAP_START_AT : Reg where
  name := .SAP_START_AT
  base := 0x20078008
  dims := []
  words := 1
  rst := fun _ => 0
  live := none

def SAP_START_CMD : Reg where
  name := .SAP_START_CMD
  base := 0x2007800C
  dims := []
  words := 1
  rst := fun _ => 0
  live := none

def SAP_START_STAT : Reg where
  name := .SAP_START_STAT
  base := 0x20078010
  dims := []
  words := 1
  rst := fun _ => 0
  live := none

def SAP_START_LAST : Reg where
  name := .SAP_START_LAST
  base := 0x20078014
  dims := []
  words := 1
  rst := fun _ => 0
  live := none

def SAP_UND_RX : Reg where
  name := .SAP_UND_RX
  base := 0x20078020
  dims := []
  words := 1
  rst := fun _ => 0
  live := none

def SAP_UND_TX : Reg where
  name := .SAP_UND_TX
  base := 0x20078024
  dims := []
  words := 1
  rst := fun _ => 0
  live := none

/-! Registers of 10_amplifier_modulators.md. -/

def MOD_CFG : Reg where
  name := .MOD_CFG
  base := 0x20090000
  dims := []
  words := 1
  rst := fun _ => 0x2FAE1
  live := none

def MOD_RAMP : Reg where
  name := .MOD_RAMP
  base := 0x20090004
  dims := []
  words := 1
  rst := fun _ => 0x3BF12BF
  live := some 0x20090008

def MOD_DIAG : Reg where
  name := .MOD_DIAG
  base := 0x20090010
  dims := []
  words := 2
  rst := fun _ => 0xC8003204000010
  live := none

def MOD_START : Reg where
  name := .MOD_START
  base := 0x20090020
  dims := []
  words := 2
  rst := fun _ => 0
  live := none

def MOD_STOP : Reg where
  name := .MOD_STOP
  base := 0x20090028
  dims := []
  words := 2
  rst := fun _ => 0
  live := none

def MOD_FCLR : Reg where
  name := .MOD_FCLR
  base := 0x20090030
  dims := []
  words := 2
  rst := fun _ => 0
  live := none

def MOD_OCST : Reg where
  name := .MOD_OCST
  base := 0x20090040
  dims := []
  words := 2
  rst := fun _ => 0
  live := none

def MOD_CLIPST : Reg where
  name := .MOD_CLIPST
  base := 0x20090048
  dims := []
  words := 2
  rst := fun _ => 0
  live := none

def MOD_CH : Reg where
  name := .MOD_CH
  base := 0x20090100
  dims := [(64, 0x8)]
  words := 2
  rst := fun i => 0xA0000007D003E8 + (i % 64) * 2 ^ 47 + (i / 8 % 8) * 2 ^ 44
  live := some 0x20090300

def MOD_STAT : Reg where
  name := .MOD_STAT
  base := 0x20090500
  dims := [(64, 0x4)]
  words := 1
  rst := fun _ => 0
  live := none

def RAIL_GCFG : Reg where
  name := .RAIL_GCFG
  base := 0x20098000
  dims := [(8, 0x20)]
  words := 2
  rst := fun _ => 0xA0004
  live := some 0x20098400

def RAIL_GV : Reg where
  name := .RAIL_GV
  base := 0x20098008
  dims := [(8, 0x20)]
  words := 2
  rst := fun _ => 0
  live := some 0x20098408

def RAIL_GV2 : Reg where
  name := .RAIL_GV2
  base := 0x20098010
  dims := [(8, 0x20)]
  words := 2
  rst := fun _ => 0
  live := some 0x20098410

def RAIL_STAT : Reg where
  name := .RAIL_STAT
  base := 0x20098800
  dims := [(8, 0x8)]
  words := 2
  rst := fun _ => 0
  live := none

def SENSE_CTRL : Reg where
  name := .SENSE_CTRL
  base := 0x200A0000
  dims := []
  words := 1
  rst := fun _ => 0
  live := none

def SENSE_PT : Reg where
  name := .SENSE_PT
  base := 0x200A0100
  dims := [(128, 0x4)]
  words := 1
  rst := fun _ => 0
  live := some 0x200A0300

def SENSE_VAL : Reg where
  name := .SENSE_VAL
  base := 0x200A0500
  dims := [(128, 0x4)]
  words := 1
  rst := fun _ => 0
  live := none

def SENSE_BAD : Reg where
  name := .SENSE_BAD
  base := 0x200A0700
  dims := [(4, 0x4)]
  words := 1
  rst := fun _ => 0
  live := none

/-! Registers of 11_pool_and_queues.md. -/

def POOL_STAT : Reg where
  name := .POOL_STAT
  base := 0x200B0000
  dims := []
  words := 1
  rst := fun _ => 0xF800F800
  live := none

def POOL_WM : Reg where
  name := .POOL_WM
  base := 0x200B0004
  dims := []
  words := 1
  rst := fun _ => 0x10000400
  live := none

def POOL_WMSTAT : Reg where
  name := .POOL_WMSTAT
  base := 0x200B0008
  dims := []
  words := 1
  rst := fun _ => 0x1
  live := none

def POOL_ERR : Reg where
  name := .POOL_ERR
  base := 0x200B0010
  dims := []
  words := 2
  rst := fun _ => 0
  live := none

def POOL_SELQ : Reg where
  name := .POOL_SELQ
  base := 0x200B0020
  dims := []
  words := 1
  rst := fun _ => 0
  live := none
  perMaster := true

def POOL_ALLOC : Reg where
  name := .POOL_ALLOC
  base := 0x200B0024
  dims := []
  words := 1
  rst := fun _ => 0
  live := none

def POOL_PUSH : Reg where
  name := .POOL_PUSH
  base := 0x200B0028
  dims := []
  words := 1
  rst := fun _ => 0
  live := none

def POOL_FREE : Reg where
  name := .POOL_FREE
  base := 0x200B0034
  dims := []
  words := 1
  rst := fun _ => 0
  live := none

def POOL_POP : Reg where
  name := .POOL_POP
  base := 0x200B002C
  dims := []
  words := 1
  rst := fun _ => 0
  live := none

def POOL_TRYPOP : Reg where
  name := .POOL_TRYPOP
  base := 0x200B0030
  dims := []
  words := 1
  rst := fun _ => 0
  live := none

def POOL_QWORD : Reg where
  name := .POOL_QWORD
  base := 0x200B0038
  dims := []
  words := 2
  rst := fun _ => 0
  live := none

def POOL_TAGSEL : Reg where
  name := .POOL_TAGSEL
  base := 0x200B0040
  dims := []
  words := 1
  rst := fun _ => 0
  live := none
  perMaster := true

def POOL_TAG : Reg where
  name := .POOL_TAG
  base := 0x200B0044
  dims := []
  words := 1
  rst := fun _ => 0
  live := none

def POOL_QIDX : Reg where
  name := .POOL_QIDX
  base := 0x200B0048
  dims := []
  words := 1
  rst := fun _ => 0
  live := none
  perMaster := true

def POOL_QCFG : Reg where
  name := .POOL_QCFG
  base := 0x200B0050
  dims := []
  words := 2
  rst := fun _ => 0
  live := none

def POOL_QSTAT : Reg where
  name := .POOL_QSTAT
  base := 0x200B0058
  dims := []
  words := 2
  rst := fun _ => 0
  live := none

def POOL_QHIGH : Reg where
  name := .POOL_QHIGH
  base := 0x200B0200
  dims := [(128, 0x4)]
  words := 1
  rst := fun _ => 0
  live := none

def POOL_LPORT : Reg where
  name := .POOL_LPORT
  base := 0x200B4000
  dims := [(4096, 0x4)]
  words := 1
  rst := fun _ => 0
  live := some 0x200B8000

/-! Registers of 12_ethernet_and_t1s.md. -/

def ETH_PCFG : Reg where
  name := .ETH_PCFG
  base := 0x200C0000
  dims := [(4, 0x400)]
  words := 1
  rst := fun _ => 0x28000001
  live := none

def ETH_PSTAT : Reg where
  name := .ETH_PSTAT
  base := 0x200C0004
  dims := [(4, 0x400)]
  words := 1
  rst := fun _ => 0
  live := none

def ETH_PQMAP : Reg where
  name := .ETH_PQMAP
  base := 0x200C0008
  dims := [(4, 0x400)]
  words := 1
  rst := fun _ => 0xFA50
  live := none

def ETH_PQ : Reg where
  name := .ETH_PQ
  base := 0x200C000C
  dims := [(4, 0x400)]
  words := 1
  rst := fun _ => 0x1000000
  live := none

def ETH_PCNT : Reg where
  name := .ETH_PCNT
  base := 0x200C0100
  dims := [(5, 0x400), (9, 0x4)]
  words := 1
  rst := fun _ => 0
  live := none

def ETH_P4RX : Reg where
  name := .ETH_P4RX
  base := 0x200C1000
  dims := []
  words := 1
  rst := fun _ => 0
  live := none

def ETH_P4TX : Reg where
  name := .ETH_P4TX
  base := 0x200C1004
  dims := []
  words := 1
  rst := fun _ => 0
  live := none

def ETH_SWCFG : Reg where
  name := .ETH_SWCFG
  base := 0x200C2000
  dims := []
  words := 1
  rst := fun _ => 0x5F2
  live := none

def ETH_GATE : Reg where
  name := .ETH_GATE
  base := 0x200C2008
  dims := []
  words := 1
  rst := fun _ => 0
  live := some 0x200C200C

def ETH_MAC : Reg where
  name := .ETH_MAC
  base := 0x200C2010
  dims := []
  words := 2
  rst := fun _ => 0
  live := none

def ETH_AT_KEY : Reg where
  name := .ETH_AT_KEY
  base := 0x200C3000
  dims := []
  words := 2
  rst := fun _ => 0
  live := none
  perMaster := true

def ETH_AT_MASK : Reg where
  name := .ETH_AT_MASK
  base := 0x200C3008
  dims := []
  words := 2
  rst := fun _ => 0
  live := none
  perMaster := true

def ETH_AT_ACT : Reg where
  name := .ETH_AT_ACT
  base := 0x200C3010
  dims := []
  words := 1
  rst := fun _ => 0
  live := none
  perMaster := true

def ETH_AT_CMD : Reg where
  name := .ETH_AT_CMD
  base := 0x200C3014
  dims := []
  words := 1
  rst := fun _ => 0
  live := none

def ETH_VLAN : Reg where
  name := .ETH_VLAN
  base := 0x200C4000
  dims := [(64, 0x4)]
  words := 1
  rst := fun i => 0x5F1F0001 + ((if i = 0 then 1 else 0)) * 2 ^ 31
  live := none

def ETH_WAKE_CFG : Reg where
  name := .ETH_WAKE_CFG
  base := 0x200C5000
  dims := [(8, 0x4)]
  words := 1
  rst := fun _ => 0
  live := none

def ETH_WAKE_MASK : Reg where
  name := .ETH_WAKE_MASK
  base := 0x200C5100
  dims := [(8, 0x10)]
  words := 4
  rst := fun _ => 0
  live := none

def ETH_WAKE_STAT : Reg where
  name := .ETH_WAKE_STAT
  base := 0x200C5200
  dims := []
  words := 1
  rst := fun _ => 0
  live := none

def ETH_MGMT : Reg where
  name := .ETH_MGMT
  base := 0x200C6000
  dims := []
  words := 1
  rst := fun _ => 0x10000
  live := none

def ETH_MGMT_Q : Reg where
  name := .ETH_MGMT_Q
  base := 0x200C6004
  dims := []
  words := 1
  rst := fun _ => 0x640000
  live := none

def ETH_MGMT_CNT : Reg where
  name := .ETH_MGMT_CNT
  base := 0x200C6008
  dims := []
  words := 1
  rst := fun _ => 0
  live := none

def T1S_CFG : Reg where
  name := .T1S_CFG
  base := 0x200D0000
  dims := []
  words := 1
  rst := fun _ => 0x2120
  live := none

def T1S_CNT : Reg where
  name := .T1S_CNT
  base := 0x200D0100
  dims := [(8, 0x4)]
  words := 1
  rst := fun _ => 0
  live := none

def EZ_CFG : Reg where
  name := .EZ_CFG
  base := 0x200D1000
  dims := []
  words := 1
  rst := fun _ => 0x88B5
  live := none

def EZ_TIME : Reg where
  name := .EZ_TIME
  base := 0x200D1004
  dims := []
  words := 1
  rst := fun _ => 0x1907D023
  live := none

def EZ_Q : Reg where
  name := .EZ_Q
  base := 0x200D1008
  dims := []
  words := 1
  rst := fun _ => 0
  live := none

def EZ_PRESENT : Reg where
  name := .EZ_PRESENT
  base := 0x200D1010
  dims := []
  words := 1
  rst := fun _ => 0
  live := none

def EZ_LOST : Reg where
  name := .EZ_LOST
  base := 0x200D1014
  dims := []
  words := 1
  rst := fun _ => 0
  live := none

def EZ_CNT : Reg where
  name := .EZ_CNT
  base := 0x200D1018
  dims := []
  words := 1
  rst := fun _ => 0
  live := none

def EZ_ELEM : Reg where
  name := .EZ_ELEM
  base := 0x200D1100
  dims := [(32, 0x4)]
  words := 1
  rst := fun _ => 0
  live := none

/-! Registers of 13_coleel_transport.md. -/

def CLT_CFG : Reg where
  name := .CLT_CFG
  base := 0x200E0000
  dims := []
  words := 1
  rst := fun _ => 0x88B6
  live := none

def CLT_UDP : Reg where
  name := .CLT_UDP
  base := 0x200E0004
  dims := []
  words := 1
  rst := fun _ => 0x1CE8
  live := none

def CLT_IP : Reg where
  name := .CLT_IP
  base := 0x200E0008
  dims := []
  words := 1
  rst := fun _ => 0
  live := none

def CLT_IPCFG : Reg where
  name := .CLT_IPCFG
  base := 0x200E000C
  dims := []
  words := 1
  rst := fun _ => 0x2E20
  live := none

def CLT_ID : Reg where
  name := .CLT_ID
  base := 0x200E0010
  dims := []
  words := 1
  rst := fun _ => 0
  live := none

def CLT_STAT : Reg where
  name := .CLT_STAT
  base := 0x200E0014
  dims := []
  words := 1
  rst := fun _ => 0
  live := none

def CLT_EARLY : Reg where
  name := .CLT_EARLY
  base := 0x200E0018
  dims := []
  words := 1
  rst := fun _ => 0
  live := none

def CLT_RXCFG : Reg where
  name := .CLT_RXCFG
  base := 0x200E1000
  dims := [(256, 0x10)]
  words := 2
  rst := fun _ => 0x408000000000000
  live := some 0x200E3000

def CLT_TXCFG : Reg where
  name := .CLT_TXCFG
  base := 0x200E8000
  dims := [(256, 0x10)]
  words := 2
  rst := fun _ => 0x408000000000000
  live := some 0x200E9000

def CLT_RXKEY : Reg where
  name := .CLT_RXKEY
  base := 0x200E1008
  dims := [(256, 0x10)]
  words := 2
  rst := fun _ => 0
  live := some 0x200E3008

def CLT_TXKEY : Reg where
  name := .CLT_TXKEY
  base := 0x200EA000
  dims := [(256, 0x8)]
  words := 2
  rst := fun _ => 0
  live := some 0x200EA800

def CLT_RXAUX : Reg where
  name := .CLT_RXAUX
  base := 0x200E2000
  dims := [(256, 0x8)]
  words := 2
  rst := fun _ => 0
  live := some 0x200E2800

def CLT_TXAUX : Reg where
  name := .CLT_TXAUX
  base := 0x200EB000
  dims := [(256, 0x8)]
  words := 2
  rst := fun _ => 0
  live := some 0x200EB800

def CLT_RXCNT : Reg where
  name := .CLT_RXCNT
  base := 0x200E4000
  dims := [(256, 0x20), (6, 0x4)]
  words := 1
  rst := fun _ => 0
  live := none

def CLT_RXSTAT : Reg where
  name := .CLT_RXSTAT
  base := 0x200E6000
  dims := [(256, 0x4)]
  words := 1
  rst := fun _ => 0
  live := none

def CLT_TXDST : Reg where
  name := .CLT_TXDST
  base := 0x200E8008
  dims := [(256, 0x10)]
  words := 2
  rst := fun _ => 0xE001000000000000
  live := some 0x200E9008

def CLT_TXCNT : Reg where
  name := .CLT_TXCNT
  base := 0x200EC000
  dims := [(256, 0x4)]
  words := 1
  rst := fun _ => 0
  live := none

def CLT_POL : Reg where
  name := .CLT_POL
  base := 0x200EE000
  dims := [(4, 0x10), (4, 0x4)]
  words := 1
  rst := fun _ => 0
  live := none

def CLT_POLDROP : Reg where
  name := .CLT_POLDROP
  base := 0x200EE100
  dims := [(4, 0x10), (4, 0x4)]
  words := 1
  rst := fun _ => 0
  live := none

/-! Registers of 14_time_and_ptp.md. -/

def PTP_TIME_FRAC : Reg where
  name := .PTP_TIME_FRAC
  base := 0x200F0000
  dims := []
  words := 1
  rst := fun _ => 0
  live := none

def PTP_TIME_NS : Reg where
  name := .PTP_TIME_NS
  base := 0x200F0004
  dims := []
  words := 1
  rst := fun _ => 0
  live := none

def PTP_TIME_SECLO : Reg where
  name := .PTP_TIME_SECLO
  base := 0x200F0008
  dims := []
  words := 1
  rst := fun _ => 0
  live := none

def PTP_TIME_SECHI : Reg where
  name := .PTP_TIME_SECHI
  base := 0x200F000C
  dims := []
  words := 1
  rst := fun _ => 0
  live := none

def PTP_CFG : Reg where
  name := .PTP_CFG
  base := 0x200F0010
  dims := []
  words := 1
  rst := fun _ => 0
  live := none

def PTP_DS : Reg where
  name := .PTP_DS
  base := 0x200F0014
  dims := []
  words := 1
  rst := fun _ => 0x8080F8FE
  live := none

def PTP_INTV : Reg where
  name := .PTP_INTV
  base := 0x200F0018
  dims := []
  words := 1
  rst := fun _ => 0xFBFDFD33
  live := none

def PTP_QUAL : Reg where
  name := .PTP_QUAL
  base := 0x200F001C
  dims := []
  words := 1
  rst := fun _ => 0x641000
  live := none

def PTP_STEP : Reg where
  name := .PTP_STEP
  base := 0x200F0020
  dims := []
  words := 1
  rst := fun _ => 0x3E8
  live := none

def PTP_STAT : Reg where
  name := .PTP_STAT
  base := 0x200F0028
  dims := []
  words := 1
  rst := fun _ => 0x7
  live := none

def PTP_OFS : Reg where
  name := .PTP_OFS
  base := 0x200F0030
  dims := []
  words := 2
  rst := fun _ => 0
  live := none

def PTP_MPD : Reg where
  name := .PTP_MPD
  base := 0x200F0038
  dims := []
  words := 2
  rst := fun _ => 0
  live := none

def PTP_GMID : Reg where
  name := .PTP_GMID
  base := 0x200F0040
  dims := []
  words := 2
  rst := fun _ => 0
  live := none

def PTP_STEPCNT : Reg where
  name := .PTP_STEPCNT
  base := 0x200F0048
  dims := []
  words := 1
  rst := fun _ => 0
  live := none

def PTP_PCFG : Reg where
  name := .PTP_PCFG
  base := 0x200F0100
  dims := [(4, 0x20)]
  words := 1
  rst := fun _ => 0
  live := none

def PTP_PSTAT : Reg where
  name := .PTP_PSTAT
  base := 0x200F0104
  dims := [(4, 0x20)]
  words := 1
  rst := fun _ => 0x3
  live := none

def PTP_PCORR : Reg where
  name := .PTP_PCORR
  base := 0x200F0108
  dims := [(4, 0x20)]
  words := 2
  rst := fun _ => 0
  live := none

def PTP_PCNT : Reg where
  name := .PTP_PCNT
  base := 0x200F0110
  dims := [(4, 0x20), (4, 0x4)]
  words := 1
  rst := fun _ => 0
  live := none

def PTP_EVT_CTRL : Reg where
  name := .PTP_EVT_CTRL
  base := 0x200F0400
  dims := [(8, 0x20)]
  words := 1
  rst := fun _ => 0
  live := none

def PTP_EVT_SEC : Reg where
  name := .PTP_EVT_SEC
  base := 0x200F0408
  dims := [(8, 0x20)]
  words := 2
  rst := fun _ => 0
  live := none

def PTP_EVT_NS : Reg where
  name := .PTP_EVT_NS
  base := 0x200F0410
  dims := [(8, 0x20)]
  words := 1
  rst := fun _ => 0
  live := none

def PTP_EVT_PER : Reg where
  name := .PTP_EVT_PER
  base := 0x200F0414
  dims := [(8, 0x20)]
  words := 1
  rst := fun _ => 0x3B9ACA00
  live := none

def PTP_EVT_WID : Reg where
  name := .PTP_EVT_WID
  base := 0x200F0418
  dims := [(8, 0x20)]
  words := 1
  rst := fun _ => 0x3E8
  live := none

def PTP_CAP_CFG : Reg where
  name := .PTP_CAP_CFG
  base := 0x200F0600
  dims := [(4, 0x20)]
  words := 1
  rst := fun _ => 0x20000000
  live := none

def PTP_CAP_HEAD : Reg where
  name := .PTP_CAP_HEAD
  base := 0x200F0604
  dims := [(4, 0x20)]
  words := 1
  rst := fun _ => 0
  live := none

def PTP_CAP_TS : Reg where
  name := .PTP_CAP_TS
  base := 0x200F0608
  dims := [(4, 0x20)]
  words := 2
  rst := fun _ => 0
  live := none

def PTP_CAP_OVF : Reg where
  name := .PTP_CAP_OVF
  base := 0x200F0610
  dims := [(4, 0x20)]
  words := 1
  rst := fun _ => 0
  live := none

/-! Registers of 15_clocks_and_references.md. -/

def CLK_CTRL : Reg where
  name := .CLK_CTRL
  base := 0x20100000
  dims := []
  words := 1
  rst := fun _ => 0
  live := none

def CLK_STAT : Reg where
  name := .CLK_STAT
  base := 0x20100004
  dims := []
  words := 1
  rst := fun _ => 0x70
  live := none

def CLK_HIST : Reg where
  name := .CLK_HIST
  base := 0x20100008
  dims := []
  words := 1
  rst := fun _ => 0
  live := none

def CLK_REFCFG : Reg where
  name := .CLK_REFCFG
  base := 0x20100010
  dims := []
  words := 1
  rst := fun _ => 0x12C
  live := none

def CLK_REFPRIO : Reg where
  name := .CLK_REFPRIO
  base := 0x20100014
  dims := []
  words := 1
  rst := fun _ => 0x1
  live := none

def CLK_REFSTAT : Reg where
  name := .CLK_REFSTAT
  base := 0x20100018
  dims := []
  words := 1
  rst := fun _ => 0
  live := none

def CLK_REF1 : Reg where
  name := .CLK_REF1
  base := 0x20100020
  dims := []
  words := 1
  rst := fun _ => 0
  live := none

def CLK_REF2 : Reg where
  name := .CLK_REF2
  base := 0x20100024
  dims := []
  words := 1
  rst := fun _ => 0
  live := none

def CLK_REF3 : Reg where
  name := .CLK_REF3
  base := 0x20100028
  dims := []
  words := 1
  rst := fun _ => 0x80008000
  live := none

def CLK_FRANGE : Reg where
  name := .CLK_FRANGE
  base := 0x2010002C
  dims := []
  words := 1
  rst := fun _ => 0x3E80064
  live := none

def CLK_SLEW : Reg where
  name := .CLK_SLEW
  base := 0x20100030
  dims := []
  words := 1
  rst := fun _ => 0xA
  live := none

def CLK_Y : Reg where
  name := .CLK_Y
  base := 0x20100038
  dims := []
  words := 2
  rst := fun _ => 0
  live := none

def CLK_PHERR : Reg where
  name := .CLK_PHERR
  base := 0x20100040
  dims := []
  words := 2
  rst := fun _ => 0
  live := none

def CLK_HOLD : Reg where
  name := .CLK_HOLD
  base := 0x20100048
  dims := []
  words := 1
  rst := fun _ => 0xA0001
  live := none

def CLK_HOLDNS : Reg where
  name := .CLK_HOLDNS
  base := 0x2010004C
  dims := []
  words := 1
  rst := fun _ => 0x3E8
  live := none

def CLK_HOLD_LEFT : Reg where
  name := .CLK_HOLD_LEFT
  base := 0x20100050
  dims := []
  words := 1
  rst := fun _ => 0
  live := none

def CLK_FR : Reg where
  name := .CLK_FR
  base := 0x20100054
  dims := []
  words := 1
  rst := fun _ => 0
  live := none

def CLK_PLLA : Reg where
  name := .CLK_PLLA
  base := 0x20100058
  dims := []
  words := 1
  rst := fun _ => 0
  live := none

def CLK_SEED : Reg where
  name := .CLK_SEED
  base := 0x20100060
  dims := [(3, 0x4)]
  words := 1
  rst := fun _ => 0x1
  live := none

def CLK_DITHER_CTRL : Reg where
  name := .CLK_DITHER_CTRL
  base := 0x2010006C
  dims := []
  words := 1
  rst := fun _ => 0x7
  live := none

def CLK_ALIGN : Reg where
  name := .CLK_ALIGN
  base := 0x201000F0
  dims := []
  words := 1
  rst := fun _ => 0
  live := none

def CLK_ALIGNPEND : Reg where
  name := .CLK_ALIGNPEND
  base := 0x201000F4
  dims := []
  words := 1
  rst := fun _ => 0
  live := none

def CLK_OUT : Reg where
  name := .CLK_OUT
  base := 0x20100100
  dims := [(8, 0x10)]
  words := 1
  rst := fun _ => 0
  live := none

def CLK_OUTMIS : Reg where
  name := .CLK_OUTMIS
  base := 0x20100104
  dims := [(8, 0x10)]
  words := 1
  rst := fun _ => 0
  live := none

/-! Registers of 16_redundant_pair.md. -/

def PAIR_CFG : Reg where
  name := .PAIR_CFG
  base := 0x20110000
  dims := []
  words := 1
  rst := fun _ => 0x407D0
  live := some 0x20110020

def PAIR_CMD : Reg where
  name := .PAIR_CMD
  base := 0x20110004
  dims := []
  words := 1
  rst := fun _ => 0
  live := none

def PAIR_STAT : Reg where
  name := .PAIR_STAT
  base := 0x20110008
  dims := []
  words := 1
  rst := fun _ => 0
  live := none

def PAIR_HIST : Reg where
  name := .PAIR_HIST
  base := 0x2011000C
  dims := []
  words := 1
  rst := fun _ => 0
  live := none

def PAIR_PATCH : Reg where
  name := .PAIR_PATCH
  base := 0x20110010
  dims := []
  words := 1
  rst := fun _ => 0x12C
  live := none

def PAIR_CONV : Reg where
  name := .PAIR_CONV
  base := 0x20110014
  dims := []
  words := 1
  rst := fun _ => 0x4001
  live := none

def PAIR_MATCH : Reg where
  name := .PAIR_MATCH
  base := 0x20110018
  dims := []
  words := 1
  rst := fun _ => 0
  live := none

def PAIR_FLAGS : Reg where
  name := .PAIR_FLAGS
  base := 0x20110028
  dims := []
  words := 2
  rst := fun _ => 0
  live := none

def PAIR_DIG : Reg where
  name := .PAIR_DIG
  base := 0x20110100
  dims := [(4, 0x10)]
  words := 4
  rst := fun _ => 0
  live := none

def PAIR_PDIG : Reg where
  name := .PAIR_PDIG
  base := 0x20110140
  dims := [(4, 0x10)]
  words := 4
  rst := fun _ => 0
  live := none

def PAIR_MISMATCH : Reg where
  name := .PAIR_MISMATCH
  base := 0x20110180
  dims := []
  words := 2
  rst := fun _ => 0
  live := none

def PAIR_CNT : Reg where
  name := .PAIR_CNT
  base := 0x20110200
  dims := [(8, 0x4)]
  words := 1
  rst := fun _ => 0
  live := none

def GAL_FAULT : Reg where
  name := .GAL_FAULT
  base := 0x00F30000
  dims := [(16, 0x1000000)]
  words := 1
  rst := fun _ => 0
  live := none

def GAL_SPARE : Reg where
  name := .GAL_SPARE
  base := 0x00F30004
  dims := [(16, 0x1000000)]
  words := 1
  rst := fun _ => 0x80000000
  live := none

def GAL_SPARE_LAST : Reg where
  name := .GAL_SPARE_LAST
  base := 0x00F30008
  dims := [(16, 0x1000000)]
  words := 2
  rst := fun _ => 0
  live := none

def GAL_COPY : Reg where
  name := .GAL_COPY
  base := 0x00F30010
  dims := [(16, 0x1000000)]
  words := 2
  rst := fun _ => 0
  live := some 0x00F30018

def GAL_STSET : Reg where
  name := .GAL_STSET
  base := 0x00F30100
  dims := [(16, 0x1000000), (16, 0x8)]
  words := 2
  rst := fun _ => 0
  live := none

/-! Registers of 17_sump_faults.md. -/

def SUMP_STAT : Reg where
  name := .SUMP_STAT
  base := 0x20030000
  dims := []
  words := 1
  rst := fun _ => 0
  live := none

def SUMP_CTRL : Reg where
  name := .SUMP_CTRL
  base := 0x20030004
  dims := []
  words := 1
  rst := fun _ => 0
  live := none

def SUMP_REFUSED : Reg where
  name := .SUMP_REFUSED
  base := 0x20030008
  dims := []
  words := 1
  rst := fun _ => 0
  live := none

def SUMP_HIST_STAT : Reg where
  name := .SUMP_HIST_STAT
  base := 0x2003000C
  dims := []
  words := 1
  rst := fun _ => 0
  live := none

def SUMP_LOST : Reg where
  name := .SUMP_LOST
  base := 0x20030010
  dims := []
  words := 1
  rst := fun _ => 0
  live := none

def SUMP_HIST : Reg where
  name := .SUMP_HIST
  base := 0x20030100
  dims := [(32, 0x10)]
  words := 4
  rst := fun _ => 0
  live := none

def SUMP_EVSTAT : Reg where
  name := .SUMP_EVSTAT
  base := 0x20030300
  dims := [(8, 0x4)]
  words := 1
  rst := fun _ => 0
  live := none

def SUMP_EVCNT : Reg where
  name := .SUMP_EVCNT
  base := 0x20030400
  dims := [(256, 0x4)]
  words := 1
  rst := fun _ => 0
  live := none

def SUMP_EVCFG : Reg where
  name := .SUMP_EVCFG
  base := 0x20030800
  dims := [(256, 0x4)]
  words := 1
  rst := fun i => evLog i * 2 ^ 7 + (evInt1 i) * 2 ^ 6 + (evInt0 i) * 2 ^ 5 + (evClassCode i)
  live := none

/-! Registers of 18_strata_configuration.md. -/

def STRATA_STAT : Reg where
  name := .STRATA_STAT
  base := 0x20020000
  dims := []
  words := 1
  rst := fun _ => 0
  live := none

def STRATA_ICW : Reg where
  name := .STRATA_ICW
  base := 0x20020004
  dims := []
  words := 1
  rst := fun _ => 0
  live := none

def STRATA_OVL : Reg where
  name := .STRATA_OVL
  base := 0x20020008
  dims := []
  words := 1
  rst := fun _ => 0
  live := none

def STRATA_MODE : Reg where
  name := .STRATA_MODE
  base := 0x2002000C
  dims := []
  words := 1
  rst := fun _ => 0x10023
  live := none

def STRATA_SEL : Reg where
  name := .STRATA_SEL
  base := 0x20020010
  dims := []
  words := 1
  rst := fun _ => 0
  live := none

def STRATA_TRIG : Reg where
  name := .STRATA_TRIG
  base := 0x20020014
  dims := []
  words := 1
  rst := fun _ => 0
  live := none

def STRATA_AT : Reg where
  name := .STRATA_AT
  base := 0x20020018
  dims := []
  words := 2
  rst := fun _ => 0
  live := none

def STRATA_CMD : Reg where
  name := .STRATA_CMD
  base := 0x20020020
  dims := []
  words := 1
  rst := fun _ => 0
  live := none

def STRATA_SWSTAT : Reg where
  name := .STRATA_SWSTAT
  base := 0x20020024
  dims := []
  words := 1
  rst := fun _ => 0
  live := none

def STRATA_GCMD : Reg where
  name := .STRATA_GCMD
  base := 0x20020030
  dims := []
  words := 1
  rst := fun _ => 0x800
  live := none

def STRATA_GSTAT : Reg where
  name := .STRATA_GSTAT
  base := 0x20020034
  dims := []
  words := 1
  rst := fun _ => 0
  live := none

/-! Registers of 19_power_reset_bringup.md. -/

def SYS_ID : Reg where
  name := .SYS_ID
  base := 0x20000000
  dims := []
  words := 1
  rst := fun _ => 0x25604200
  live := none

def SYS_RSTCAUSE : Reg where
  name := .SYS_RSTCAUSE
  base := 0x20000004
  dims := []
  words := 1
  rst := fun _ => 0
  live := none

def SYS_SWRST : Reg where
  name := .SYS_SWRST
  base := 0x20000008
  dims := []
  words := 1
  rst := fun _ => 0
  live := none

def SYS_WDOG : Reg where
  name := .SYS_WDOG
  base := 0x20000010
  dims := []
  words := 1
  rst := fun _ => 0x3E8
  live := none

def SYS_WDOG_KICK : Reg where
  name := .SYS_WDOG_KICK
  base := 0x20000014
  dims := []
  words := 1
  rst := fun _ => 0
  live := none

def PWR_STAT : Reg where
  name := .PWR_STAT
  base := 0x20140000
  dims := []
  words := 1
  rst := fun _ => 0
  live := none

def PWR_BOOT : Reg where
  name := .PWR_BOOT
  base := 0x20140004
  dims := []
  words := 1
  rst := fun _ => 0x7D00000
  live := none

def PWR_MCFG : Reg where
  name := .PWR_MCFG
  base := 0x20140010
  dims := []
  words := 2
  rst := fun _ => 0x8014420001E00190
  live := none

def PWR_MSTAT : Reg where
  name := .PWR_MSTAT
  base := 0x20140018
  dims := []
  words := 1
  rst := fun _ => 0
  live := none

def PWR_MUTE : Reg where
  name := .PWR_MUTE
  base := 0x20140020
  dims := []
  words := 1
  rst := fun _ => 0x2FF
  live := some 0x20140024

def PWR_INCFG : Reg where
  name := .PWR_INCFG
  base := 0x20140040
  dims := [(5, 0x4)]
  words := 1
  rst := fun _ => 0x3E8
  live := none

def PWR_INSTAT : Reg where
  name := .PWR_INSTAT
  base := 0x20140060
  dims := []
  words := 1
  rst := fun _ => 0
  live := none

def PWR_INOVF : Reg where
  name := .PWR_INOVF
  base := 0x20140080
  dims := [(5, 0x4)]
  words := 1
  rst := fun _ => 0
  live := none

def PWR_JHOST : Reg where
  name := .PWR_JHOST
  base := 0x201400A0
  dims := []
  words := 2
  rst := fun _ => 0
  live := none

def PWR_LP : Reg where
  name := .PWR_LP
  base := 0x201400C0
  dims := []
  words := 1
  rst := fun _ => 0
  live := none

def PWR_KACFG : Reg where
  name := .PWR_KACFG
  base := 0x20140100
  dims := []
  words := 1
  rst := fun _ => 0
  live := none

def PWR_KALATCH : Reg where
  name := .PWR_KALATCH
  base := 0x20140104
  dims := []
  words := 1
  rst := fun _ => 0x800
  live := none

def PWR_KACNT : Reg where
  name := .PWR_KACNT
  base := 0x20140108
  dims := []
  words := 2
  rst := fun _ => 0
  live := none

def PWR_KAALARM : Reg where
  name := .PWR_KAALARM
  base := 0x20140110
  dims := []
  words := 2
  rst := fun _ => 0
  live := none

/-! Registers of 20_host_port_and_register_summary.md. -/

def HCP_CFG : Reg where
  name := .HCP_CFG
  base := 0x20130000
  dims := []
  words := 1
  rst := fun _ => 0
  live := none

def HCP_STAT : Reg where
  name := .HCP_STAT
  base := 0x20130004
  dims := []
  words := 1
  rst := fun _ => 0
  live := none

def HCP_CNT : Reg where
  name := .HCP_CNT
  base := 0x20130008
  dims := []
  words := 1
  rst := fun _ => 0
  live := none

/-! Registers of 21_electrical_and_package.md. -/

def DRAM_CFG : Reg where
  name := .DRAM_CFG
  base := 0x20120000
  dims := []
  words := 1
  rst := fun _ => 0x2
  live := none

def DRAM_CTRL : Reg where
  name := .DRAM_CTRL
  base := 0x20120004
  dims := []
  words := 1
  rst := fun _ => 0
  live := none

def DRAM_STAT : Reg where
  name := .DRAM_STAT
  base := 0x20120008
  dims := []
  words := 1
  rst := fun _ => 0
  live := none

end R

namespace F

def TICK_CFG_F : Fld := { reg := R.TICK_CFG, hi := 6, lo := 4, lk := true, unlisted := [5, 6, 7] }
def TICK_CFG_FS : Fld := { reg := R.TICK_CFG, hi := 2, lo := 0, lk := true, unlisted := [6, 7] }
def TICK_CYC_CYC_INT : Fld := { reg := R.TICK_CYC, hi := 18, lo := 0, acc := .ro }
def TICK_CYCFRAC_FRAC : Fld := { reg := R.TICK_CYCFRAC, hi := 31, lo := 0, acc := .ro }
def TICK_BUDGET_LANE_CYC : Fld := { reg := R.TICK_BUDGET, hi := 18, lo := 0, acc := .ro }
def TICK_CTRL_RUN : Fld := { reg := R.TICK_CTRL, hi := 0, lo := 0 }
def TICK_STAT_ALIGN_LOST : Fld := { reg := R.TICK_STAT, hi := 2, lo := 2, acc := .wc }
def TICK_STAT_ALIGNED : Fld := { reg := R.TICK_STAT, hi := 1, lo := 1, acc := .ro }
def TICK_STAT_RUNNING : Fld := { reg := R.TICK_STAT, hi := 0, lo := 0, acc := .ro }
def TICK_NUM_NUM : Fld := { reg := R.TICK_NUM, hi := 63, lo := 0, acc := .ro }
def TICK_NETMARGIN_NS : Fld := { reg := R.TICK_NETMARGIN, hi := 13, lo := 0, sh := true }
def TICK_TXEND_MAX : Fld := { reg := R.TICK_TXEND, hi := 31, lo := 16 }
def TICK_TXEND_LAST : Fld := { reg := R.TICK_TXEND, hi := 15, lo := 0, acc := .ro }
def TICK_LANEMAX_LAST : Fld := { reg := R.TICK_LANEMAX, hi := 18, lo := 0, acc := .ro }
def TICK_LANEPEAK_LANE : Fld := { reg := R.TICK_LANEPEAK, hi := 31, lo := 24, acc := .ro }
def TICK_LANEPEAK_PEAK : Fld := { reg := R.TICK_LANEPEAK, hi := 18, lo := 0 }
def TICK_OVR_STAT_OVR : Fld := { reg := R.TICK_OVR_STAT, hi := 31, lo := 0, acc := .wc }
def TICK_OVR_CNT_COUNT : Fld := { reg := R.TICK_OVR_CNT, hi := 31, lo := 0, acc := .ro }
def TICK_OVR_CFG_RUN_LIM : Fld := { reg := R.TICK_OVR_CFG, hi := 15, lo := 0 }
def TICK_LAT_CNT_COUNT : Fld := { reg := R.TICK_LAT_CNT, hi := 12, lo := 0, acc := .ro }
def TICK_LAT_LAT : Fld := { reg := R.TICK_LAT, hi := 59, lo := 32, acc := .ro }
def TICK_LAT_DST : Fld := { reg := R.TICK_LAT, hi := 23, lo := 12, acc := .ro }
def TICK_LAT_SRC : Fld := { reg := R.TICK_LAT, hi := 11, lo := 0, acc := .ro }
def XBAR_DERR_VALID : Fld := { reg := R.XBAR_DERR, hi := 63, lo := 63, acc := .wc }
def XBAR_DERR_WR : Fld := { reg := R.XBAR_DERR, hi := 62, lo := 62, acc := .ro }
def XBAR_DERR_MASTER : Fld := { reg := R.XBAR_DERR, hi := 61, lo := 52, acc := .ro }
def XBAR_DERR_COUNT : Fld := { reg := R.XBAR_DERR, hi := 47, lo := 32, acc := .ro }
def XBAR_DERR_ADDR : Fld := { reg := R.XBAR_DERR, hi := 31, lo := 0, acc := .ro }
def XBAR_ACCERR_VALID : Fld := { reg := R.XBAR_ACCERR, hi := 63, lo := 63, acc := .wc }
def XBAR_ACCERR_WR : Fld := { reg := R.XBAR_ACCERR, hi := 62, lo := 62, acc := .ro }
def XBAR_ACCERR_MASTER : Fld := { reg := R.XBAR_ACCERR, hi := 61, lo := 52, acc := .ro }
def XBAR_ACCERR_REASON : Fld := { reg := R.XBAR_ACCERR, hi := 51, lo := 50, acc := .ro }
def XBAR_ACCERR_COUNT : Fld := { reg := R.XBAR_ACCERR, hi := 47, lo := 32, acc := .ro }
def XBAR_ACCERR_ADDR : Fld := { reg := R.XBAR_ACCERR, hi := 31, lo := 0, acc := .ro }
def XBAR_ABORT_VALID : Fld := { reg := R.XBAR_ABORT, hi := 63, lo := 63, acc := .wc }
def XBAR_ABORT_WR : Fld := { reg := R.XBAR_ABORT, hi := 62, lo := 62, acc := .ro }
def XBAR_ABORT_MASTER : Fld := { reg := R.XBAR_ABORT, hi := 61, lo := 52, acc := .ro }
def XBAR_ABORT_BEATS : Fld := { reg := R.XBAR_ABORT, hi := 36, lo := 32, acc := .ro }
def XBAR_ABORT_ADDR : Fld := { reg := R.XBAR_ABORT, hi := 31, lo := 0, acc := .ro }
def XBAR_CONFLICT_TIE : Fld := { reg := R.XBAR_CONFLICT, hi := 16, lo := 16, acc := .wc }
def XBAR_CONFLICT_OVERWRITTEN : Fld := { reg := R.XBAR_CONFLICT, hi := 9, lo := 0, acc := .wc }
def XBAR_CONFLICT_LAST_LOSER : Fld := { reg := R.XBAR_CONFLICT_LAST, hi := 61, lo := 52, acc := .ro }
def XBAR_CONFLICT_LAST_WINNER : Fld := { reg := R.XBAR_CONFLICT_LAST, hi := 51, lo := 42, acc := .ro }
def XBAR_CONFLICT_LAST_TIE : Fld := { reg := R.XBAR_CONFLICT_LAST, hi := 41, lo := 41, acc := .ro }
def XBAR_CONFLICT_LAST_ADDR : Fld := { reg := R.XBAR_CONFLICT_LAST, hi := 31, lo := 0, acc := .ro }
def XBAR_AGE_LIMIT : Fld := { reg := R.XBAR_AGE, hi := 7, lo := 0, lk := true }
def GAL_ID_CHAMBER : Fld := { reg := R.GAL_ID, hi := 5, lo := 4, acc := .ro }
def GAL_ID_GALLERY : Fld := { reg := R.GAL_ID, hi := 3, lo := 0, acc := .ro }
def GAL_SLICE_UPLINK : Fld := { reg := R.GAL_SLICE, hi := 20, lo := 20, sh := true, lk := true }
def GAL_SLICE_PORT : Fld := { reg := R.GAL_SLICE, hi := 19, lo := 0, sh := true, lk := true }
def GAL_SLOTMAP_ACTIVE0 : Fld := { reg := R.GAL_SLOTMAP, hi := 7, lo := 7, sh := true, lk := true }
def GAL_SLOTMAP_SLOT0 : Fld := { reg := R.GAL_SLOTMAP, hi := 4, lo := 0, sh := true, lk := true }
def GAL_SLOTMAP_ACTIVE1 : Fld := { reg := R.GAL_SLOTMAP, hi := 15, lo := 15, sh := true, lk := true }
def GAL_SLOTMAP_SLOT1 : Fld := { reg := R.GAL_SLOTMAP, hi := 12, lo := 8, sh := true, lk := true }
def GAL_SLOTMAP_ACTIVE2 : Fld := { reg := R.GAL_SLOTMAP, hi := 23, lo := 23, sh := true, lk := true }
def GAL_SLOTMAP_SLOT2 : Fld := { reg := R.GAL_SLOTMAP, hi := 20, lo := 16, sh := true, lk := true }
def GAL_SLOTMAP_ACTIVE3 : Fld := { reg := R.GAL_SLOTMAP, hi := 31, lo := 31, sh := true, lk := true }
def GAL_SLOTMAP_SLOT3 : Fld := { reg := R.GAL_SLOTMAP, hi := 28, lo := 24, sh := true, lk := true }
def CHM_WEIGHT_W4 : Fld := { reg := R.CHM_WEIGHT, hi := 19, lo := 16, lk := true }
def CHM_WEIGHT_W3 : Fld := { reg := R.CHM_WEIGHT, hi := 15, lo := 12, lk := true }
def CHM_WEIGHT_W2 : Fld := { reg := R.CHM_WEIGHT, hi := 11, lo := 8, lk := true }
def CHM_WEIGHT_W1 : Fld := { reg := R.CHM_WEIGHT, hi := 7, lo := 4, lk := true }
def CHM_WEIGHT_W0 : Fld := { reg := R.CHM_WEIGHT, hi := 3, lo := 0, lk := true }
def LANE_CTRL_FCLR : Fld := { reg := R.LANE_CTRL, hi := 2, lo := 2, acc := .wt }
def LANE_CTRL_STEP : Fld := { reg := R.LANE_CTRL, hi := 1, lo := 1, acc := .wt }
def LANE_CTRL_HALT : Fld := { reg := R.LANE_CTRL, hi := 0, lo := 0 }
def LANE_STAT_AOV : Fld := { reg := R.LANE_STAT, hi := 7, lo := 7, acc := .wc }
def LANE_STAT_SAT : Fld := { reg := R.LANE_STAT, hi := 6, lo := 6, acc := .wc }
def LANE_STAT_LOOP : Fld := { reg := R.LANE_STAT, hi := 5, lo := 3, acc := .ro }
def LANE_STAT_STATE : Fld := { reg := R.LANE_STAT, hi := 2, lo := 0, acc := .ro }
def LANE_ENTRY_ADDR : Fld := { reg := R.LANE_ENTRY, hi := 11, lo := 0, lk := true }
def LANE_PC_PC : Fld := { reg := R.LANE_PC, hi := 11, lo := 0 }
def LANE_ENABLE_ENABLE : Fld := { reg := R.LANE_ENABLE, hi := 0, lo := 0, sh := true }
def LANE_FRAME_OUT_CH : Fld := { reg := R.LANE_FRAME, hi := 22, lo := 16, sh := true, lk := true }
def LANE_FRAME_IN_CH : Fld := { reg := R.LANE_FRAME, hi := 8, lo := 0, sh := true, lk := true }
def LANE_FAULT_VALID : Fld := { reg := R.LANE_FAULT, hi := 63, lo := 63, acc := .ro }
def LANE_FAULT_CODE : Fld := { reg := R.LANE_FAULT, hi := 59, lo := 56, acc := .ro }
def LANE_FAULT_PC : Fld := { reg := R.LANE_FAULT, hi := 55, lo := 44, acc := .ro }
def LANE_FAULT_ADDR : Fld := { reg := R.LANE_FAULT, hi := 41, lo := 24, acc := .ro }
def LANE_FAULT_TICK : Fld := { reg := R.LANE_FAULT, hi := 23, lo := 0, acc := .ro }
def LANE_CLIP_CLIP : Fld := { reg := R.LANE_CLIP, hi := 63, lo := 0, acc := .wc }
def LANE_CYC_RUN : Fld := { reg := R.LANE_CYC, hi := 18, lo := 0, acc := .ro }
def LANE_STALL_STALL : Fld := { reg := R.LANE_STALL, hi := 18, lo := 0, acc := .ro }
def LANE_D_VALUE : Fld := { reg := R.LANE_D, hi := 39, lo := 0 }
def LANE_ACC_VALUE : Fld := { reg := R.LANE_ACC, hi := 87, lo := 0 }
def LANE_A_ADDR : Fld := { reg := R.LANE_A, hi := 17, lo := 0 }
def LANE_M_OFFSET : Fld := { reg := R.LANE_M, hi := 17, lo := 0 }
def LANE_LEN_LEN : Fld := { reg := R.LANE_LEN, hi := 17, lo := 0 }
def SYS_ECC_CECNT_COUNT : Fld := { reg := R.SYS_ECC_CECNT, hi := 15, lo := 0, acc := .wcCount }
def SYS_ECC_THRESH_LIMIT : Fld := { reg := R.SYS_ECC_THRESH, hi := 15, lo := 0 }
def SYS_ECC_CELOG_VALID : Fld := { reg := R.SYS_ECC_CELOG, hi := 63, lo := 63, acc := .wc }
def SYS_ECC_CELOG_BIT : Fld := { reg := R.SYS_ECC_CELOG, hi := 62, lo := 56, acc := .ro }
def SYS_ECC_CELOG_INST : Fld := { reg := R.SYS_ECC_CELOG, hi := 55, lo := 40, acc := .ro }
def SYS_ECC_CELOG_HITS : Fld := { reg := R.SYS_ECC_CELOG, hi := 39, lo := 32, acc := .ro }
def SYS_ECC_CELOG_ADDR : Fld := { reg := R.SYS_ECC_CELOG, hi := 27, lo := 0, acc := .ro }
def SYS_ECC_CELOST_COUNT : Fld := { reg := R.SYS_ECC_CELOST, hi := 15, lo := 0, acc := .wcCount }
def SYS_ECC_UE_VALID : Fld := { reg := R.SYS_ECC_UE, hi := 63, lo := 63, acc := .wc }
def SYS_ECC_UE_REQ : Fld := { reg := R.SYS_ECC_UE, hi := 62, lo := 53, acc := .ro }
def SYS_ECC_UE_INST : Fld := { reg := R.SYS_ECC_UE, hi := 52, lo := 37, acc := .ro }
def SYS_ECC_UE_ADDR : Fld := { reg := R.SYS_ECC_UE, hi := 27, lo := 0, acc := .ro }
def SYS_ECC_UECNT_COUNT : Fld := { reg := R.SYS_ECC_UECNT, hi := 15, lo := 0, acc := .wcCount }
def SYS_REMAP_CMD_ADD : Fld := { reg := R.SYS_REMAP_CMD, hi := 63, lo := 63, acc := .wt }
def SYS_REMAP_CMD_INST : Fld := { reg := R.SYS_REMAP_CMD, hi := 47, lo := 32 }
def SYS_REMAP_CMD_ADDR : Fld := { reg := R.SYS_REMAP_CMD, hi := 27, lo := 0 }
def SYS_REMAP_RES_BUSY : Fld := { reg := R.SYS_REMAP_RES, hi := 31, lo := 31, acc := .ro }
def SYS_REMAP_RES_CODE : Fld := { reg := R.SYS_REMAP_RES, hi := 27, lo := 24, acc := .ro }
def SYS_REMAP_RES_FREE : Fld := { reg := R.SYS_REMAP_RES, hi := 23, lo := 16, acc := .ro }
def SYS_REMAP_RES_LIST_BAD : Fld := { reg := R.SYS_REMAP_RES, hi := 0, lo := 0, acc := .ro }
def SYS_JRNL_CFG_EN : Fld := { reg := R.SYS_JRNL_CFG, hi := 16, lo := 16 }
def SYS_JRNL_CFG_INTERVAL : Fld := { reg := R.SYS_JRNL_CFG, hi := 15, lo := 0 }
def SYS_JRNL_STAT_NEXT : Fld := { reg := R.SYS_JRNL_STAT, hi := 5, lo := 0, acc := .ro }
def SYS_JRNL_SEQ_SEQ : Fld := { reg := R.SYS_JRNL_SEQ, hi := 31, lo := 0, acc := .ro }
def ROUTE_PAGE_PAGE : Fld := { reg := R.ROUTE_PAGE, hi := 2, lo := 0 }
def ROUTE_OCLIP_CLIP : Fld := { reg := R.ROUTE_OCLIP, hi := 31, lo := 0, acc := .wc }
def ROUTE_SIL_CFG_EN : Fld := { reg := R.ROUTE_SIL_CFG, hi := 63, lo := 63, sh := true }
def ROUTE_SIL_CFG_BUS : Fld := { reg := R.ROUTE_SIL_CFG, hi := 42, lo := 32, sh := true }
def ROUTE_SIL_CFG_HOLD : Fld := { reg := R.ROUTE_SIL_CFG, hi := 31, lo := 12, sh := true }
def ROUTE_SIL_CFG_HYST : Fld := { reg := R.ROUTE_SIL_CFG, hi := 11, lo := 8, sh := true }
def ROUTE_SIL_CFG_THR : Fld := { reg := R.ROUTE_SIL_CFG, hi := 7, lo := 0, sh := true }
def ROUTE_SIL_STAT_SILENT : Fld := { reg := R.ROUTE_SIL_STAT, hi := 31, lo := 0, acc := .ro }
def ROUTE_SIL_CHG_CHG : Fld := { reg := R.ROUTE_SIL_CHG, hi := 31, lo := 0, acc := .wc }
def ROUTE_POLICY_HOLD : Fld := { reg := R.ROUTE_POLICY, hi := 63, lo := 0, sh := true }
def ROUTE_BUS_VALID : Fld := { reg := R.ROUTE_BUS, hi := 31, lo := 31 }
def ROUTE_BUS_LANE : Fld := { reg := R.ROUTE_BUS, hi := 13, lo := 6 }
def ROUTE_BUS_CH : Fld := { reg := R.ROUTE_BUS, hi := 5, lo := 0 }
def ROUTE_OUT_VALID : Fld := { reg := R.ROUTE_OUT, hi := 31, lo := 31 }
def ROUTE_OUT_SRC : Fld := { reg := R.ROUTE_OUT, hi := 11, lo := 0 }
def ROUTE_TBL_VALID : Fld := { reg := R.ROUTE_TBL, hi := 31, lo := 31 }
def ROUTE_TBL_SRC : Fld := { reg := R.ROUTE_TBL, hi := 11, lo := 0 }
def RAMP_CTRL_EN : Fld := { reg := R.RAMP_CTRL, hi := 0, lo := 0, sh := true }
def RAMP_STAT_WORDS : Fld := { reg := R.RAMP_STAT, hi := 28, lo := 16, acc := .ro }
def RAMP_STAT_ACTIVE : Fld := { reg := R.RAMP_STAT, hi := 12, lo := 0, acc := .ro }
def RAMP_IDX_P : Fld := { reg := R.RAMP_IDX, hi := 11, lo := 0 }
def RAMP_LIVE_MODE : Fld := { reg := R.RAMP_LIVE, hi := 56, lo := 56, acc := .ro }
def RAMP_LIVE_DUR : Fld := { reg := R.RAMP_LIVE, hi := 55, lo := 40, acc := .ro }
def RAMP_LIVE_TARGET : Fld := { reg := R.RAMP_LIVE, hi := 39, lo := 0, acc := .ro }
def RAMP_CUR_LEFT : Fld := { reg := R.RAMP_CUR, hi := 56, lo := 40, acc := .ro }
def RAMP_CUR_VALUE : Fld := { reg := R.RAMP_CUR, hi := 39, lo := 0, acc := .ro }
def RAMP_ACTIVE_ACTIVE : Fld := { reg := R.RAMP_ACTIVE, hi := 31, lo := 0, acc := .ro }
def RAMP_MAP_EN : Fld := { reg := R.RAMP_MAP, hi := 31, lo := 31 }
def RAMP_MAP_DELIV : Fld := { reg := R.RAMP_MAP, hi := 30, lo := 30 }
def RAMP_MAP_LANE : Fld := { reg := R.RAMP_MAP, hi := 16, lo := 13 }
def RAMP_MAP_ADDR : Fld := { reg := R.RAMP_MAP, hi := 12, lo := 0 }
def RAMP_TGT_MODE : Fld := { reg := R.RAMP_TGT, hi := 56, lo := 56, sh := true }
def RAMP_TGT_DUR : Fld := { reg := R.RAMP_TGT, hi := 55, lo := 40, sh := true }
def RAMP_TGT_TARGET : Fld := { reg := R.RAMP_TGT, hi := 39, lo := 0, sh := true }
def ROPE_CTRL_SRC : Fld := { reg := R.ROPE_CTRL, hi := 0, lo := 0 }
def ROPE_STRAP_HOLD : Fld := { reg := R.ROPE_STRAP, hi := 3, lo := 3, acc := .ro }
def ROPE_STRAP_SEL : Fld := { reg := R.ROPE_STRAP, hi := 2, lo := 0, acc := .ro }
def ROPE_STAT_STRAP_BAD : Fld := { reg := R.ROPE_STAT, hi := 2, lo := 2, acc := .ro }
def ROPE_STAT_SAFE_OFF : Fld := { reg := R.ROPE_STAT, hi := 1, lo := 1, acc := .ro }
def ROPE_STAT_CONFLICT : Fld := { reg := R.ROPE_STAT, hi := 0, lo := 0, acc := .wc }
def ROPE_MAP_EN : Fld := { reg := R.ROPE_MAP, hi := 31, lo := 31 }
def ROPE_MAP_CLK : Fld := { reg := R.ROPE_MAP, hi := 30, lo := 30 }
def ROPE_MAP_IN : Fld := { reg := R.ROPE_MAP, hi := 4, lo := 0 }
def DRAM_DLY_CTRL_EN : Fld := { reg := R.DRAM_DLY_CTRL, hi := 0, lo := 0, sh := true }
def DRAM_DLY_STAT_LATE : Fld := { reg := R.DRAM_DLY_STAT, hi := 31, lo := 31, acc := .wc }
def DRAM_DLY_STAT_DONE : Fld := { reg := R.DRAM_DLY_STAT, hi := 18, lo := 0, acc := .ro }
def DRAM_DLY_PEAK_PEAK : Fld := { reg := R.DRAM_DLY_PEAK, hi := 18, lo := 0 }
def DRAM_DLY_LATECNT_COUNT : Fld := { reg := R.DRAM_DLY_LATECNT, hi := 31, lo := 0, acc := .ro }
def DRAM_DLY_LINE_EN : Fld := { reg := R.DRAM_DLY_LINE, hi := 63, lo := 63, sh := true }
def DRAM_DLY_LINE_GAL : Fld := { reg := R.DRAM_DLY_LINE, hi := 62, lo := 59, sh := true }
def DRAM_DLY_LINE_IN_ADDR : Fld := { reg := R.DRAM_DLY_LINE, hi := 58, lo := 41, sh := true }
def DRAM_DLY_LINE_BASE : Fld := { reg := R.DRAM_DLY_LINE, hi := 40, lo := 22, sh := true }
def DRAM_DLY_LINE_GROUPS : Fld := { reg := R.DRAM_DLY_LINE, hi := 20, lo := 0, sh := true }
def DRAM_DLY_TAP_EN : Fld := { reg := R.DRAM_DLY_TAP, hi := 63, lo := 63, sh := true }
def DRAM_DLY_TAP_LINE : Fld := { reg := R.DRAM_DLY_TAP, hi := 62, lo := 53, sh := true }
def DRAM_DLY_TAP_GAL : Fld := { reg := R.DRAM_DLY_TAP, hi := 52, lo := 49, sh := true }
def DRAM_DLY_TAP_OUT_ADDR : Fld := { reg := R.DRAM_DLY_TAP, hi := 48, lo := 31, sh := true }
def DRAM_DLY_TAP_DELAY : Fld := { reg := R.DRAM_DLY_TAP, hi := 23, lo := 0, sh := true }
def GDMA_CFG_EN : Fld := { reg := R.GDMA_CFG, hi := 31, lo := 31 }
def GDMA_CFG_QUEUE : Fld := { reg := R.GDMA_CFG, hi := 11, lo := 0 }
def GDMA_STAT_BUSY : Fld := { reg := R.GDMA_STAT, hi := 31, lo := 31, acc := .ro }
def GDMA_STAT_LATE : Fld := { reg := R.GDMA_STAT, hi := 30, lo := 30, acc := .wc }
def GDMA_STAT_DONE : Fld := { reg := R.GDMA_STAT, hi := 15, lo := 0, acc := .ro }
def GDMA_TAG_TAG : Fld := { reg := R.GDMA_TAG, hi := 31, lo := 0, acc := .ro }
def GDMA_SEL_BANK : Fld := { reg := R.GDMA_SEL, hi := 31, lo := 31, sh := true }
def GDMA_SEL_SHAPE : Fld := { reg := R.GDMA_SEL, hi := 30, lo := 30, sh := true }
def GDMA_SEL_FADE_T : Fld := { reg := R.GDMA_SEL, hi := 15, lo := 0, sh := true }
def GDMA_SEL_STAT_ACTIVE : Fld := { reg := R.GDMA_SEL_STAT, hi := 31, lo := 31, acc := .ro }
def GDMA_SEL_STAT_FADE : Fld := { reg := R.GDMA_SEL_STAT, hi := 30, lo := 30, acc := .ro }
def GDMA_SEL_STAT_PEND : Fld := { reg := R.GDMA_SEL_STAT, hi := 29, lo := 29, acc := .ro }
def GDMA_SEL_STAT_REMAIN : Fld := { reg := R.GDMA_SEL_STAT, hi := 15, lo := 0, acc := .ro }
def PDM_CLK_EN : Fld := { reg := R.PDM_CLK, hi := 31, lo := 31, sh := true }
def PDM_CLK_DIV : Fld := { reg := R.PDM_CLK, hi := 6, lo := 0, sh := true }
def PDM_LINE_EN : Fld := { reg := R.PDM_LINE, hi := 31, lo := 31, sh := true }
def PDM_LINE_CLK : Fld := { reg := R.PDM_LINE, hi := 3, lo := 0, sh := true }
def DEC_MIC_FINE_EN : Fld := { reg := R.DEC_MIC, hi := 63, lo := 63, sh := true }
def DEC_MIC_FAST_EN : Fld := { reg := R.DEC_MIC, hi := 62, lo := 62, sh := true }
def DEC_MIC_ORDER : Fld := { reg := R.DEC_MIC, hi := 61, lo := 60, sh := true, unlisted := [3] }
def DEC_MIC_RLOG : Fld := { reg := R.DEC_MIC, hi := 59, lo := 57, sh := true, unlisted := [5, 6, 7] }
def DEC_MIC_H : Fld := { reg := R.DEC_MIC, hi := 56, lo := 55, sh := true, unlisted := [3] }
def DEC_MIC_INV : Fld := { reg := R.DEC_MIC, hi := 54, lo := 54, sh := true }
def DEC_MIC_GAIN : Fld := { reg := R.DEC_MIC, hi := 53, lo := 46, sh := true }
def DEC_MIC_THR : Fld := { reg := R.DEC_MIC, hi := 45, lo := 38, sh := true }
def DEC_MIC_HYST : Fld := { reg := R.DEC_MIC, hi := 37, lo := 34, sh := true }
def DEC_MIC_TPATH : Fld := { reg := R.DEC_MIC, hi := 33, lo := 33, sh := true }
def DEC_MIC_TEN : Fld := { reg := R.DEC_MIC, hi := 32, lo := 32, sh := true }
def DEC_MIC_MUTE_MS : Fld := { reg := R.DEC_MIC, hi := 9, lo := 0, sh := true }
def DEC_OVR_OVR : Fld := { reg := R.DEC_OVR, hi := 63, lo := 0, acc := .wc }
def DEC_THR_ABOVE : Fld := { reg := R.DEC_THR, hi := 63, lo := 0, acc := .ro }
def DEC_THR_CHG_CHG : Fld := { reg := R.DEC_THR_CHG, hi := 63, lo := 0, acc := .wc }
def DEC_MUTED_MUTED : Fld := { reg := R.DEC_MUTED, hi := 63, lo := 0, acc := .ro }
def DEC_GD_GD : Fld := { reg := R.DEC_GD, hi := 15, lo := 0, acc := .ro }
def DEC_ID_CFG_SHAPE : Fld := { reg := R.DEC_ID_CFG, hi := 14, lo := 14 }
def DEC_ID_CFG_MODE : Fld := { reg := R.DEC_ID_CFG, hi := 13, lo := 12, unlisted := [3] }
def DEC_ID_CFG_PQUEUE : Fld := { reg := R.DEC_ID_CFG, hi := 11, lo := 0 }
def DEC_ID_TIME_UPD_T : Fld := { reg := R.DEC_ID_TIME, hi := 31, lo := 16, lk := true }
def DEC_ID_TIME_FADE_T : Fld := { reg := R.DEC_ID_TIME, hi := 15, lo := 8, lk := true }
def DEC_ID_TIME_COMP_T : Fld := { reg := R.DEC_ID_TIME, hi := 7, lo := 0, lk := true }
def DEC_ID_LIMIT_BOUND : Fld := { reg := R.DEC_ID_LIMIT, hi := 31, lo := 16, lk := true }
def DEC_ID_LIMIT_STEP : Fld := { reg := R.DEC_ID_LIMIT, hi := 15, lo := 0, lk := true }
def DEC_ID_CMD_ZERO : Fld := { reg := R.DEC_ID_CMD, hi := 0, lo := 0, acc := .wt }
def DEC_ID_STAT_BADPROP : Fld := { reg := R.DEC_ID_STAT, hi := 15, lo := 0 }
def DEC_ID_CLAMP_CLAMP : Fld := { reg := R.DEC_ID_CLAMP, hi := 63, lo := 0, acc := .wc }
def DEC_ID_FRZ_FRZ : Fld := { reg := R.DEC_ID_FRZ, hi := 63, lo := 0, acc := .wc }
def DEC_ID_CH_EN : Fld := { reg := R.DEC_ID_CH, hi := 31, lo := 31 }
def DEC_ID_CH_MIC : Fld := { reg := R.DEC_ID_CH, hi := 30, lo := 25 }
def DEC_ID_CH_GAL : Fld := { reg := R.DEC_ID_CH, hi := 24, lo := 21 }
def DEC_ID_CH_SEL : Fld := { reg := R.DEC_ID_CH, hi := 20, lo := 17 }
def DEC_ID_CH_BANDS : Fld := { reg := R.DEC_ID_CH, hi := 16, lo := 13 }
def DEC_ID_CH_GQUEUE : Fld := { reg := R.DEC_ID_CH, hi := 11, lo := 0 }
def DEC_ID_PROP_TRIM : Fld := { reg := R.DEC_ID_PROP, hi := 19, lo := 0, acc := .ro }
def DEC_ID_TRIM_TRIM : Fld := { reg := R.DEC_ID_TRIM, hi := 19, lo := 0, acc := .ro }
def SAP_CLK_MST : Fld := { reg := R.SAP_CLK, hi := 31, lo := 31, sh := true }
def SAP_CLK_FMT : Fld := { reg := R.SAP_CLK, hi := 30, lo := 29, sh := true, unlisted := [3] }
def SAP_CLK_FSD : Fld := { reg := R.SAP_CLK, hi := 28, lo := 28, sh := true }
def SAP_CLK_SCKINV : Fld := { reg := R.SAP_CLK, hi := 27, lo := 27, sh := true }
def SAP_CLK_FSINV : Fld := { reg := R.SAP_CLK, hi := 26, lo := 26, sh := true }
def SAP_CLK_SLOTW : Fld := { reg := R.SAP_CLK, hi := 25, lo := 24, sh := true, unlisted := [3] }
def SAP_CLK_NSLOT : Fld := { reg := R.SAP_CLK, hi := 23, lo := 19, sh := true }
def SAP_RXCFG_EN : Fld := { reg := R.SAP_RXCFG, hi := 31, lo := 31, sh := true }
def SAP_RXCFG_ARM : Fld := { reg := R.SAP_RXCFG, hi := 30, lo := 30, sh := true }
def SAP_RXCFG_MODE : Fld := { reg := R.SAP_RXCFG, hi := 29, lo := 29, sh := true }
def SAP_RXCFG_POLICY : Fld := { reg := R.SAP_RXCFG, hi := 28, lo := 28, sh := true }
def SAP_RXCFG_CKPORT : Fld := { reg := R.SAP_RXCFG, hi := 24, lo := 20, sh := true }
def SAP_RXCFG_BASE : Fld := { reg := R.SAP_RXCFG, hi := 8, lo := 0, sh := true }
def SAP_TXCFG_EN : Fld := { reg := R.SAP_TXCFG, hi := 31, lo := 31, sh := true }
def SAP_TXCFG_ARM : Fld := { reg := R.SAP_TXCFG, hi := 30, lo := 30, sh := true }
def SAP_TXCFG_MODE : Fld := { reg := R.SAP_TXCFG, hi := 29, lo := 29, sh := true }
def SAP_TXCFG_POLICY : Fld := { reg := R.SAP_TXCFG, hi := 28, lo := 28, sh := true }
def SAP_TXCFG_TRI : Fld := { reg := R.SAP_TXCFG, hi := 27, lo := 27, sh := true }
def SAP_TXCFG_CKPORT : Fld := { reg := R.SAP_TXCFG, hi := 24, lo := 20, sh := true }
def SAP_TXCFG_BASE : Fld := { reg := R.SAP_TXCFG, hi := 8, lo := 0, sh := true }
def SAP_RXSLOT_MASK : Fld := { reg := R.SAP_RXSLOT, hi := 31, lo := 0, sh := true }
def SAP_TXSLOT_MASK : Fld := { reg := R.SAP_TXSLOT, hi := 31, lo := 0, sh := true }
def SAP_ASRC_TXDLY : Fld := { reg := R.SAP_ASRC, hi := 25, lo := 16, sh := true }
def SAP_ASRC_RXDLY : Fld := { reg := R.SAP_ASRC, hi := 9, lo := 0, sh := true }
def SAP_STAT_TXSTATE : Fld := { reg := R.SAP_STAT, hi := 18, lo := 16, acc := .ro }
def SAP_STAT_TXRANGE : Fld := { reg := R.SAP_STAT, hi := 13, lo := 13, acc := .wc }
def SAP_STAT_TXFRMERR : Fld := { reg := R.SAP_STAT, hi := 12, lo := 12, acc := .wc }
def SAP_STAT_TXPHASE : Fld := { reg := R.SAP_STAT, hi := 11, lo := 11, acc := .wc }
def SAP_STAT_TXEXC : Fld := { reg := R.SAP_STAT, hi := 10, lo := 10, acc := .wc }
def SAP_STAT_TXUND : Fld := { reg := R.SAP_STAT, hi := 9, lo := 9, acc := .wc }
def SAP_STAT_RXSTATE : Fld := { reg := R.SAP_STAT, hi := 7, lo := 5, acc := .ro }
def SAP_STAT_RXRANGE : Fld := { reg := R.SAP_STAT, hi := 4, lo := 4, acc := .wc }
def SAP_STAT_RXPHASE : Fld := { reg := R.SAP_STAT, hi := 3, lo := 3, acc := .wc }
def SAP_STAT_RXFRMERR : Fld := { reg := R.SAP_STAT, hi := 2, lo := 2, acc := .wc }
def SAP_STAT_RXEXC : Fld := { reg := R.SAP_STAT, hi := 1, lo := 1, acc := .wc }
def SAP_STAT_RXUND : Fld := { reg := R.SAP_STAT, hi := 0, lo := 0, acc := .wc }
def SAP_PHASE_TX : Fld := { reg := R.SAP_PHASE, hi := 31, lo := 16, acc := .ro }
def SAP_PHASE_RX : Fld := { reg := R.SAP_PHASE, hi := 15, lo := 0, acc := .ro }
def SAP_RXSTAMP_TICK : Fld := { reg := R.SAP_RXSTAMP, hi := 63, lo := 32, acc := .ro }
def SAP_RXSTAMP_OFS : Fld := { reg := R.SAP_RXSTAMP, hi := 19, lo := 0, acc := .ro }
def SAP_TXSTAMP_TICK : Fld := { reg := R.SAP_TXSTAMP, hi := 63, lo := 32, acc := .ro }
def SAP_TXSTAMP_OFS : Fld := { reg := R.SAP_TXSTAMP, hi := 19, lo := 0, acc := .ro }
def SAP_RXRATIO_RATIO : Fld := { reg := R.SAP_RXRATIO, hi := 31, lo := 0, acc := .ro }
def SAP_TXRATIO_RATIO : Fld := { reg := R.SAP_TXRATIO, hi := 31, lo := 0, acc := .ro }
def SAP_UNDCNT_TX : Fld := { reg := R.SAP_UNDCNT, hi := 31, lo := 16, acc := .ro }
def SAP_UNDCNT_RX : Fld := { reg := R.SAP_UNDCNT, hi := 15, lo := 0, acc := .ro }
def SAP_START_RX_PORTS : Fld := { reg := R.SAP_START_RX, hi := 31, lo := 0 }
def SAP_START_TX_PORTS : Fld := { reg := R.SAP_START_TX, hi := 31, lo := 0 }
def SAP_START_AT_AT : Fld := { reg := R.SAP_START_AT, hi := 31, lo := 0 }
def SAP_START_CMD_ATEN : Fld := { reg := R.SAP_START_CMD, hi := 1, lo := 1, acc := .wt }
def SAP_START_CMD_GO : Fld := { reg := R.SAP_START_CMD, hi := 0, lo := 0, acc := .wt }
def SAP_START_STAT_PEND : Fld := { reg := R.SAP_START_STAT, hi := 2, lo := 2, acc := .ro }
def SAP_START_STAT_LATE : Fld := { reg := R.SAP_START_STAT, hi := 1, lo := 1, acc := .wc }
def SAP_START_STAT_SKIP : Fld := { reg := R.SAP_START_STAT, hi := 0, lo := 0, acc := .wc }
def SAP_START_LAST_TICK : Fld := { reg := R.SAP_START_LAST, hi := 31, lo := 0, acc := .ro }
def SAP_UND_RX_UND : Fld := { reg := R.SAP_UND_RX, hi := 31, lo := 0, acc := .wc }
def SAP_UND_TX_UND : Fld := { reg := R.SAP_UND_TX, hi := 31, lo := 0, acc := .wc }
def MOD_CFG_CAR : Fld := { reg := R.MOD_CFG, hi := 31, lo := 31, lk := true }
def MOD_CFG_CARIN : Fld := { reg := R.MOD_CFG, hi := 30, lo := 30, acc := .ro }
def MOD_CFG_NOC : Fld := { reg := R.MOD_CFG, hi := 23, lo := 16, lk := true }
def MOD_CFG_MMAX : Fld := { reg := R.MOD_CFG, hi := 15, lo := 0, lk := true }
def MOD_RAMP_DRAMP : Fld := { reg := R.MOD_RAMP, hi := 31, lo := 16, sh := true }
def MOD_RAMP_URAMP : Fld := { reg := R.MOD_RAMP, hi := 15, lo := 0, sh := true }
def MOD_DIAG_VTEST : Fld := { reg := R.MOD_DIAG, hi := 63, lo := 48, lk := true }
def MOD_DIAG_ILEAK : Fld := { reg := R.MOD_DIAG, hi := 47, lo := 32, lk := true }
def MOD_DIAG_ROPEN : Fld := { reg := R.MOD_DIAG, hi := 31, lo := 16, lk := true }
def MOD_DIAG_RSHORT : Fld := { reg := R.MOD_DIAG, hi := 15, lo := 0, lk := true }
def MOD_START_CH : Fld := { reg := R.MOD_START, hi := 63, lo := 0, acc := .wt }
def MOD_STOP_CH : Fld := { reg := R.MOD_STOP, hi := 63, lo := 0, acc := .wt }
def MOD_FCLR_CH : Fld := { reg := R.MOD_FCLR, hi := 63, lo := 0, acc := .wt }
def MOD_OCST_CH : Fld := { reg := R.MOD_OCST, hi := 63, lo := 0, acc := .wc }
def MOD_CLIPST_CH : Fld := { reg := R.MOD_CLIPST, hi := 63, lo := 0, acc := .wc }
def MOD_CH_SILEN : Fld := { reg := R.MOD_CH, hi := 63, lo := 63, sh := true }
def MOD_CH_SILDET : Fld := { reg := R.MOD_CH, hi := 62, lo := 56, sh := true }
def MOD_CH_DIAG_EN : Fld := { reg := R.MOD_CH, hi := 55, lo := 55, sh := true }
def MOD_CH_SLEW : Fld := { reg := R.MOD_CH, hi := 54, lo := 53, sh := true }
def MOD_CH_PHASE : Fld := { reg := R.MOD_CH, hi := 52, lo := 47, sh := true }
def MOD_CH_GROUP : Fld := { reg := R.MOD_CH, hi := 46, lo := 44, sh := true }
def MOD_CH_VFS : Fld := { reg := R.MOD_CH, hi := 31, lo := 16, sh := true }
def MOD_CH_IMAX : Fld := { reg := R.MOD_CH, hi := 15, lo := 0, sh := true }
def MOD_STAT_DIAG : Fld := { reg := R.MOD_STAT, hi := 15, lo := 12, acc := .ro }
def MOD_STAT_FCAUSE : Fld := { reg := R.MOD_STAT, hi := 9, lo := 8, acc := .ro }
def MOD_STAT_STATE : Fld := { reg := R.MOD_STAT, hi := 2, lo := 0, acc := .ro }
def RAIL_GCFG_EN : Fld := { reg := R.RAIL_GCFG, hi := 63, lo := 63, sh := true }
def RAIL_GCFG_MODE : Fld := { reg := R.RAIL_GCFG, hi := 62, lo := 62, sh := true }
def RAIL_GCFG_LOOK : Fld := { reg := R.RAIL_GCFG, hi := 61, lo := 55, sh := true }
def RAIL_GCFG_LEADBUS : Fld := { reg := R.RAIL_GCFG, hi := 54, lo := 44, sh := true }
def RAIL_GCFG_RISE : Fld := { reg := R.RAIL_GCFG, hi := 31, lo := 16, sh := true }
def RAIL_GCFG_FALL : Fld := { reg := R.RAIL_GCFG, hi := 15, lo := 0, sh := true }
def RAIL_GV_KV : Fld := { reg := R.RAIL_GV, hi := 63, lo := 48, sh := true }
def RAIL_GV_VOFS : Fld := { reg := R.RAIL_GV, hi := 47, lo := 32, sh := true }
def RAIL_GV_VFLOOR : Fld := { reg := R.RAIL_GV, hi := 31, lo := 16, sh := true }
def RAIL_GV_VCEIL : Fld := { reg := R.RAIL_GV, hi := 15, lo := 0, sh := true }
def RAIL_GV2_VPARK : Fld := { reg := R.RAIL_GV2, hi := 63, lo := 48, sh := true }
def RAIL_GV2_VDIAG : Fld := { reg := R.RAIL_GV2, hi := 47, lo := 32, sh := true }
def RAIL_GV2_VSAFE : Fld := { reg := R.RAIL_GV2, hi := 31, lo := 16, sh := true, lk := true }
def RAIL_GV2_VSET : Fld := { reg := R.RAIL_GV2, hi := 15, lo := 0, sh := true }
def RAIL_STAT_DONE : Fld := { reg := R.RAIL_STAT, hi := 63, lo := 63, acc := .ro }
def RAIL_STAT_STATE : Fld := { reg := R.RAIL_STAT, hi := 62, lo := 60, acc := .ro }
def RAIL_STAT_TARGET : Fld := { reg := R.RAIL_STAT, hi := 47, lo := 32, acc := .ro }
def RAIL_STAT_VCMD : Fld := { reg := R.RAIL_STAT, hi := 31, lo := 16, acc := .ro }
def RAIL_STAT_MEAS : Fld := { reg := R.RAIL_STAT, hi := 15, lo := 0, acc := .ro }
def SENSE_CTRL_EN : Fld := { reg := R.SENSE_CTRL, hi := 3, lo := 0 }
def SENSE_PT_EN : Fld := { reg := R.SENSE_PT, hi := 31, lo := 31, sh := true }
def SENSE_PT_KIND : Fld := { reg := R.SENSE_PT, hi := 30, lo := 29, sh := true, unlisted := [3] }
def SENSE_PT_OWNER : Fld := { reg := R.SENSE_PT, hi := 28, lo := 23, sh := true }
def SENSE_PT_SCALE : Fld := { reg := R.SENSE_PT, hi := 15, lo := 0, sh := true }
def SENSE_VAL_VALID : Fld := { reg := R.SENSE_VAL, hi := 31, lo := 31, acc := .ro }
def SENSE_VAL_CODE : Fld := { reg := R.SENSE_VAL, hi := 15, lo := 0, acc := .ro }
def SENSE_BAD_BAD : Fld := { reg := R.SENSE_BAD, hi := 31, lo := 0, acc := .wc }
def POOL_STAT_UNRES : Fld := { reg := R.POOL_STAT, hi := 31, lo := 16, acc := .ro }
def POOL_STAT_FREE : Fld := { reg := R.POOL_STAT, hi := 15, lo := 0, acc := .ro }
def POOL_WM_LO : Fld := { reg := R.POOL_WM, hi := 31, lo := 16 }
def POOL_WM_HYS : Fld := { reg := R.POOL_WM, hi := 15, lo := 0 }
def POOL_WMSTAT_CLOSED : Fld := { reg := R.POOL_WMSTAT, hi := 7, lo := 4, acc := .ro }
def POOL_WMSTAT_CROSSED : Fld := { reg := R.POOL_WMSTAT, hi := 1, lo := 1, acc := .wc }
def POOL_WMSTAT_ABOVE : Fld := { reg := R.POOL_WMSTAT, hi := 0, lo := 0, acc := .ro }
def POOL_ERR_VALID : Fld := { reg := R.POOL_ERR, hi := 63, lo := 63, acc := .wc }
def POOL_ERR_CODE : Fld := { reg := R.POOL_ERR, hi := 62, lo := 60, acc := .ro }
def POOL_ERR_REQ : Fld := { reg := R.POOL_ERR, hi := 59, lo := 50, acc := .ro }
def POOL_ERR_COUNT : Fld := { reg := R.POOL_ERR, hi := 47, lo := 32, acc := .ro }
def POOL_ERR_CELL : Fld := { reg := R.POOL_ERR, hi := 15, lo := 0, acc := .ro }
def POOL_SELQ_QUEUE : Fld := { reg := R.POOL_SELQ, hi := 11, lo := 0 }
def POOL_ALLOC_OK : Fld := { reg := R.POOL_ALLOC, hi := 31, lo := 31, acc := .ro }
def POOL_ALLOC_CELL : Fld := { reg := R.POOL_ALLOC, hi := 15, lo := 0, acc := .ro }
def POOL_PUSH_LAST : Fld := { reg := R.POOL_PUSH, hi := 31, lo := 31, acc := .wt }
def POOL_PUSH_CELL : Fld := { reg := R.POOL_PUSH, hi := 15, lo := 0, acc := .wt }
def POOL_FREE_CELL : Fld := { reg := R.POOL_FREE, hi := 15, lo := 0, acc := .wt }
def POOL_POP_VALID : Fld := { reg := R.POOL_POP, hi := 31, lo := 31, acc := .ro }
def POOL_POP_LAST : Fld := { reg := R.POOL_POP, hi := 30, lo := 30, acc := .ro }
def POOL_POP_CELL : Fld := { reg := R.POOL_POP, hi := 15, lo := 0, acc := .ro }
def POOL_TRYPOP_VALID : Fld := { reg := R.POOL_TRYPOP, hi := 31, lo := 31, acc := .ro }
def POOL_TRYPOP_LAST : Fld := { reg := R.POOL_TRYPOP, hi := 30, lo := 30, acc := .ro }
def POOL_TRYPOP_CELL : Fld := { reg := R.POOL_TRYPOP, hi := 15, lo := 0, acc := .ro }
def POOL_QWORD_WORD : Fld := { reg := R.POOL_QWORD, hi := 39, lo := 0 }
def POOL_TAGSEL_CELL : Fld := { reg := R.POOL_TAGSEL, hi := 15, lo := 0 }
def POOL_TAG_TAG : Fld := { reg := R.POOL_TAG, hi := 31, lo := 0, acc := .ro }
def POOL_QIDX_Q : Fld := { reg := R.POOL_QIDX, hi := 11, lo := 0 }
def POOL_QCFG_EN : Fld := { reg := R.POOL_QCFG, hi := 63, lo := 63 }
def POOL_QCFG_KIND : Fld := { reg := R.POOL_QCFG, hi := 62, lo := 62 }
def POOL_QCFG_HOME : Fld := { reg := R.POOL_QCFG, hi := 61, lo := 60 }
def POOL_QCFG_STALL_LIM : Fld := { reg := R.POOL_QCFG, hi := 55, lo := 40 }
def POOL_QCFG_HYS : Fld := { reg := R.POOL_QCFG, hi := 39, lo := 32 }
def POOL_QCFG_HI : Fld := { reg := R.POOL_QCFG, hi := 31, lo := 16 }
def POOL_QCFG_RESV : Fld := { reg := R.POOL_QCFG, hi := 15, lo := 0 }
def POOL_QSTAT_BROKEN : Fld := { reg := R.POOL_QSTAT, hi := 63, lo := 63, acc := .ro }
def POOL_QSTAT_OVD : Fld := { reg := R.POOL_QSTAT, hi := 62, lo := 62, acc := .wc }
def POOL_QSTAT_CROSSED : Fld := { reg := R.POOL_QSTAT, hi := 61, lo := 61, acc := .wc }
def POOL_QSTAT_ABOVE : Fld := { reg := R.POOL_QSTAT, hi := 60, lo := 60, acc := .ro }
def POOL_QSTAT_DEPTH : Fld := { reg := R.POOL_QSTAT, hi := 47, lo := 32, acc := .ro }
def POOL_QSTAT_USED : Fld := { reg := R.POOL_QSTAT, hi := 31, lo := 16, acc := .ro }
def POOL_QSTAT_OVDCNT : Fld := { reg := R.POOL_QSTAT, hi := 15, lo := 0, acc := .wcCount }
def POOL_QHIGH_CROSSED : Fld := { reg := R.POOL_QHIGH, hi := 31, lo := 0, acc := .wc }
def POOL_LPORT_EN : Fld := { reg := R.POOL_LPORT, hi := 31, lo := 31, sh := true }
def POOL_LPORT_DIR : Fld := { reg := R.POOL_LPORT, hi := 30, lo := 30, sh := true }
def POOL_LPORT_QUEUE : Fld := { reg := R.POOL_LPORT, hi := 11, lo := 0, sh := true }
def ETH_PCFG_EN : Fld := { reg := R.ETH_PCFG, hi := 31, lo := 31 }
def ETH_PCFG_MODE : Fld := { reg := R.ETH_PCFG, hi := 30, lo := 29, unlisted := [3] }
def ETH_PCFG_FEC : Fld := { reg := R.ETH_PCFG, hi := 28, lo := 28 }
def ETH_PCFG_AN : Fld := { reg := R.ETH_PCFG, hi := 27, lo := 27 }
def ETH_PCFG_PCP : Fld := { reg := R.ETH_PCFG, hi := 15, lo := 13 }
def ETH_PCFG_PVID : Fld := { reg := R.ETH_PCFG, hi := 11, lo := 0 }
def ETH_PSTAT_LINKCHG : Fld := { reg := R.ETH_PSTAT, hi := 1, lo := 1, acc := .wc }
def ETH_PSTAT_LINK : Fld := { reg := R.ETH_PSTAT, hi := 0, lo := 0, acc := .ro }
def ETH_PQMAP_CLASS0 : Fld := { reg := R.ETH_PQMAP, hi := 1, lo := 0 }
def ETH_PQMAP_CLASS1 : Fld := { reg := R.ETH_PQMAP, hi := 3, lo := 2 }
def ETH_PQMAP_CLASS2 : Fld := { reg := R.ETH_PQMAP, hi := 5, lo := 4 }
def ETH_PQMAP_CLASS3 : Fld := { reg := R.ETH_PQMAP, hi := 7, lo := 6 }
def ETH_PQMAP_CLASS4 : Fld := { reg := R.ETH_PQMAP, hi := 9, lo := 8 }
def ETH_PQMAP_CLASS5 : Fld := { reg := R.ETH_PQMAP, hi := 11, lo := 10 }
def ETH_PQMAP_CLASS6 : Fld := { reg := R.ETH_PQMAP, hi := 13, lo := 12 }
def ETH_PQMAP_CLASS7 : Fld := { reg := R.ETH_PQMAP, hi := 15, lo := 14 }
def ETH_PQ_EGLIM : Fld := { reg := R.ETH_PQ, hi := 31, lo := 16 }
def ETH_PQ_RXQ : Fld := { reg := R.ETH_PQ, hi := 11, lo := 0 }
def ETH_PCNT_COUNT : Fld := { reg := R.ETH_PCNT, hi := 31, lo := 0, acc := .wcCount }
def ETH_P4RX_QUEUE : Fld := { reg := R.ETH_P4RX, hi := 11, lo := 0 }
def ETH_P4TX_QUEUE : Fld := { reg := R.ETH_P4TX, hi := 11, lo := 0 }
def ETH_SWCFG_GATE_EN : Fld := { reg := R.ETH_SWCFG, hi := 31, lo := 31 }
def ETH_SWCFG_MAXLEN : Fld := { reg := R.ETH_SWCFG, hi := 13, lo := 0 }
def ETH_GATE_CLOSE : Fld := { reg := R.ETH_GATE, hi := 31, lo := 16, sh := true }
def ETH_GATE_OPEN : Fld := { reg := R.ETH_GATE, hi := 15, lo := 0, sh := true }
def ETH_MAC_ADDR : Fld := { reg := R.ETH_MAC, hi := 47, lo := 0 }
def ETH_AT_KEY_VIDANY : Fld := { reg := R.ETH_AT_KEY, hi := 60, lo := 60 }
def ETH_AT_KEY_VID : Fld := { reg := R.ETH_AT_KEY, hi := 59, lo := 48 }
def ETH_AT_KEY_MAC : Fld := { reg := R.ETH_AT_KEY, hi := 47, lo := 0 }
def ETH_AT_MASK_MASK : Fld := { reg := R.ETH_AT_MASK, hi := 47, lo := 0 }
def ETH_AT_ACT_VALID : Fld := { reg := R.ETH_AT_ACT, hi := 31, lo := 31 }
def ETH_AT_ACT_PRIO : Fld := { reg := R.ETH_AT_ACT, hi := 30, lo := 28 }
def ETH_AT_ACT_ACTION : Fld := { reg := R.ETH_AT_ACT, hi := 24, lo := 24 }
def ETH_AT_ACT_PORTS : Fld := { reg := R.ETH_AT_ACT, hi := 4, lo := 0 }
def ETH_AT_CMD_OP : Fld := { reg := R.ETH_AT_CMD, hi := 31, lo := 30, acc := .wt }
def ETH_AT_CMD_INDEX : Fld := { reg := R.ETH_AT_CMD, hi := 7, lo := 0, acc := .wt }
def ETH_VLAN_EN : Fld := { reg := R.ETH_VLAN, hi := 31, lo := 31 }
def ETH_VLAN_FLOOD : Fld := { reg := R.ETH_VLAN, hi := 30, lo := 30 }
def ETH_VLAN_UNTAG : Fld := { reg := R.ETH_VLAN, hi := 28, lo := 24 }
def ETH_VLAN_MEMBER : Fld := { reg := R.ETH_VLAN, hi := 20, lo := 16 }
def ETH_VLAN_VID : Fld := { reg := R.ETH_VLAN, hi := 11, lo := 0 }
def ETH_WAKE_CFG_EN : Fld := { reg := R.ETH_WAKE_CFG, hi := 31, lo := 31 }
def ETH_WAKE_CFG_SRC : Fld := { reg := R.ETH_WAKE_CFG, hi := 30, lo := 30 }
def ETH_WAKE_CFG_CRC : Fld := { reg := R.ETH_WAKE_CFG, hi := 15, lo := 0 }
def ETH_WAKE_MASK_MASK : Fld := { reg := R.ETH_WAKE_MASK, hi := 127, lo := 0 }
def ETH_WAKE_STAT_LAST : Fld := { reg := R.ETH_WAKE_STAT, hi := 10, lo := 8, acc := .ro }
def ETH_WAKE_STAT_HIT : Fld := { reg := R.ETH_WAKE_STAT, hi := 7, lo := 0, acc := .wc }
def ETH_MGMT_EN : Fld := { reg := R.ETH_MGMT, hi := 31, lo := 31, lk := true }
def ETH_MGMT_VIDCHK : Fld := { reg := R.ETH_MGMT, hi := 30, lo := 30, lk := true }
def ETH_MGMT_VID : Fld := { reg := R.ETH_MGMT, hi := 27, lo := 16, lk := true }
def ETH_MGMT_ETYPE : Fld := { reg := R.ETH_MGMT, hi := 15, lo := 0, lk := true }
def ETH_MGMT_Q_TMO : Fld := { reg := R.ETH_MGMT_Q, hi := 31, lo := 16 }
def ETH_MGMT_Q_QUEUE : Fld := { reg := R.ETH_MGMT_Q, hi := 11, lo := 0 }
def ETH_MGMT_CNT_BAD : Fld := { reg := R.ETH_MGMT_CNT, hi := 31, lo := 16, acc := .wcCount }
def ETH_MGMT_CNT_DONE : Fld := { reg := R.ETH_MGMT_CNT, hi := 15, lo := 0, acc := .ro }
def T1S_CFG_EN : Fld := { reg := R.T1S_CFG, hi := 31, lo := 31 }
def T1S_CFG_PLCA : Fld := { reg := R.T1S_CFG, hi := 30, lo := 30 }
def T1S_CFG_NODECNT : Fld := { reg := R.T1S_CFG, hi := 13, lo := 8 }
def T1S_CFG_TO : Fld := { reg := R.T1S_CFG, hi := 7, lo := 0 }
def T1S_CNT_COUNT : Fld := { reg := R.T1S_CNT, hi := 31, lo := 0, acc := .wcCount }
def EZ_CFG_EN : Fld := { reg := R.EZ_CFG, hi := 31, lo := 31 }
def EZ_CFG_ETYPE : Fld := { reg := R.EZ_CFG, hi := 15, lo := 0 }
def EZ_TIME_POLL_MS : Fld := { reg := R.EZ_TIME, hi := 31, lo := 22 }
def EZ_TIME_TIMEOUT : Fld := { reg := R.EZ_TIME, hi := 21, lo := 8 }
def EZ_TIME_RETRY : Fld := { reg := R.EZ_TIME, hi := 7, lo := 4 }
def EZ_TIME_MISS : Fld := { reg := R.EZ_TIME, hi := 3, lo := 0 }
def EZ_Q_RPLQ : Fld := { reg := R.EZ_Q, hi := 27, lo := 16 }
def EZ_Q_CMDQ : Fld := { reg := R.EZ_Q, hi := 11, lo := 0 }
def EZ_PRESENT_PRESENT : Fld := { reg := R.EZ_PRESENT, hi := 31, lo := 0, acc := .ro }
def EZ_LOST_LOST : Fld := { reg := R.EZ_LOST, hi := 31, lo := 0, acc := .wc }
def EZ_CNT_EZ_STRAY : Fld := { reg := R.EZ_CNT, hi := 31, lo := 16, acc := .wcCount }
def EZ_CNT_EZ_BAD : Fld := { reg := R.EZ_CNT, hi := 15, lo := 0, acc := .wcCount }
def EZ_ELEM_EN : Fld := { reg := R.EZ_ELEM, hi := 31, lo := 31 }
def EZ_ELEM_LASTSEQ : Fld := { reg := R.EZ_ELEM, hi := 15, lo := 0, acc := .ro }
def CLT_CFG_BUFQ : Fld := { reg := R.CLT_CFG, hi := 27, lo := 16 }
def CLT_CFG_ETYPE : Fld := { reg := R.CLT_CFG, hi := 15, lo := 0 }
def CLT_UDP_PORT : Fld := { reg := R.CLT_UDP, hi := 15, lo := 0 }
def CLT_IP_ADDR : Fld := { reg := R.CLT_IP, hi := 31, lo := 0 }
def CLT_IPCFG_DSCP : Fld := { reg := R.CLT_IPCFG, hi := 13, lo := 8 }
def CLT_IPCFG_TTL : Fld := { reg := R.CLT_IPCFG, hi := 7, lo := 0 }
def CLT_ID_PAIR : Fld := { reg := R.CLT_ID, hi := 26, lo := 16, lk := true }
def CLT_ID_NODE : Fld := { reg := R.CLT_ID, hi := 10, lo := 0, lk := true }
def CLT_STAT_ACCEPT : Fld := { reg := R.CLT_STAT, hi := 0, lo := 0, acc := .ro }
def CLT_EARLY_COUNT : Fld := { reg := R.CLT_EARLY, hi := 31, lo := 0, acc := .wcCount }
def CLT_RXCFG_EN : Fld := { reg := R.CLT_RXCFG, hi := 63, lo := 63, sh := true }
def CLT_RXCFG_KIND : Fld := { reg := R.CLT_RXCFG, hi := 62, lo := 61, sh := true }
def CLT_RXCFG_POLICY : Fld := { reg := R.CLT_RXCFG, hi := 60, lo := 60, sh := true }
def CLT_RXCFG_WSZ : Fld := { reg := R.CLT_RXCFG, hi := 59, lo := 58, sh := true }
def CLT_RXCFG_SPP : Fld := { reg := R.CLT_RXCFG, hi := 57, lo := 49, sh := true }
def CLT_RXCFG_CHM1 : Fld := { reg := R.CLT_RXCFG, hi := 48, lo := 40, sh := true }
def CLT_RXCFG_BASE : Fld := { reg := R.CLT_RXCFG, hi := 39, lo := 30, sh := true }
def CLT_RXCFG_LAT : Fld := { reg := R.CLT_RXCFG, hi := 29, lo := 18, sh := true }
def CLT_TXCFG_EN : Fld := { reg := R.CLT_TXCFG, hi := 63, lo := 63, sh := true }
def CLT_TXCFG_KIND : Fld := { reg := R.CLT_TXCFG, hi := 62, lo := 61, sh := true }
def CLT_TXCFG_BOTH : Fld := { reg := R.CLT_TXCFG, hi := 60, lo := 60, sh := true }
def CLT_TXCFG_WSZ : Fld := { reg := R.CLT_TXCFG, hi := 59, lo := 58, sh := true }
def CLT_TXCFG_SPP : Fld := { reg := R.CLT_TXCFG, hi := 57, lo := 49, sh := true }
def CLT_TXCFG_CHM1 : Fld := { reg := R.CLT_TXCFG, hi := 48, lo := 40, sh := true }
def CLT_TXCFG_BASE : Fld := { reg := R.CLT_TXCFG, hi := 39, lo := 30, sh := true }
def CLT_TXCFG_T : Fld := { reg := R.CLT_TXCFG, hi := 29, lo := 26, sh := true }
def CLT_TXCFG_PRES : Fld := { reg := R.CLT_TXCFG, hi := 25, lo := 14, sh := true }
def CLT_RXKEY_KEY : Fld := { reg := R.CLT_RXKEY, hi := 63, lo := 0, sh := true }
def CLT_TXKEY_KEY : Fld := { reg := R.CLT_TXKEY, hi := 63, lo := 0, sh := true }
def CLT_RXAUX_SSRC : Fld := { reg := R.CLT_RXAUX, hi := 63, lo := 32, sh := true }
def CLT_RXAUX_ROFS : Fld := { reg := R.CLT_RXAUX, hi := 31, lo := 0, sh := true }
def CLT_TXAUX_SSRC : Fld := { reg := R.CLT_TXAUX, hi := 63, lo := 32, sh := true }
def CLT_TXAUX_ROFS : Fld := { reg := R.CLT_TXAUX, hi := 31, lo := 0, sh := true }
def CLT_RXCNT_COUNT : Fld := { reg := R.CLT_RXCNT, hi := 31, lo := 0, acc := .wcCount }
def CLT_RXSTAT_STATE : Fld := { reg := R.CLT_RXSTAT, hi := 1, lo := 0, acc := .ro }
def CLT_TXDST_TAG : Fld := { reg := R.CLT_TXDST, hi := 63, lo := 63, sh := true }
def CLT_TXDST_PCP : Fld := { reg := R.CLT_TXDST, hi := 62, lo := 60, sh := true }
def CLT_TXDST_VID : Fld := { reg := R.CLT_TXDST, hi := 59, lo := 48, sh := true }
def CLT_TXDST_MAC : Fld := { reg := R.CLT_TXDST, hi := 47, lo := 0, sh := true }
def CLT_TXCNT_COUNT : Fld := { reg := R.CLT_TXCNT, hi := 31, lo := 0, acc := .wcCount }
def CLT_POL_BURST : Fld := { reg := R.CLT_POL, hi := 31, lo := 16 }
def CLT_POL_RATE : Fld := { reg := R.CLT_POL, hi := 15, lo := 0 }
def CLT_POLDROP_COUNT : Fld := { reg := R.CLT_POLDROP, hi := 31, lo := 0, acc := .wcCount }
def PTP_TIME_FRAC_FRAC : Fld := { reg := R.PTP_TIME_FRAC, hi := 15, lo := 0 }
def PTP_TIME_NS_NS : Fld := { reg := R.PTP_TIME_NS, hi := 31, lo := 0 }
def PTP_TIME_SECLO_SECLO : Fld := { reg := R.PTP_TIME_SECLO, hi := 31, lo := 0 }
def PTP_TIME_SECHI_SECHI : Fld := { reg := R.PTP_TIME_SECHI, hi := 15, lo := 0 }
def PTP_CFG_EN : Fld := { reg := R.PTP_CFG, hi := 31, lo := 31, lk := true }
def PTP_CFG_PROFILE : Fld := { reg := R.PTP_CFG, hi := 30, lo := 29, lk := true, unlisted := [3] }
def PTP_CFG_UDP : Fld := { reg := R.PTP_CFG, hi := 28, lo := 28, lk := true }
def PTP_CFG_SLAVE_ONLY : Fld := { reg := R.PTP_CFG, hi := 27, lo := 27, lk := true }
def PTP_CFG_DOMAIN : Fld := { reg := R.PTP_CFG, hi := 7, lo := 0, lk := true }
def PTP_DS_PRIO1 : Fld := { reg := R.PTP_DS, hi := 31, lo := 24 }
def PTP_DS_PRIO2 : Fld := { reg := R.PTP_DS, hi := 23, lo := 16 }
def PTP_DS_CLASS : Fld := { reg := R.PTP_DS, hi := 15, lo := 8 }
def PTP_DS_ACCURACY : Fld := { reg := R.PTP_DS, hi := 7, lo := 0 }
def PTP_INTV_SYNC : Fld := { reg := R.PTP_INTV, hi := 31, lo := 24, lk := true }
def PTP_INTV_ANNOUNCE : Fld := { reg := R.PTP_INTV, hi := 23, lo := 16, lk := true }
def PTP_INTV_DELAY : Fld := { reg := R.PTP_INTV, hi := 15, lo := 8, lk := true }
def PTP_INTV_ANN_TO : Fld := { reg := R.PTP_INTV, hi := 7, lo := 4, lk := true }
def PTP_INTV_SYNC_TO : Fld := { reg := R.PTP_INTV, hi := 3, lo := 0, lk := true }
def PTP_QUAL_QUAL_MS : Fld := { reg := R.PTP_QUAL, hi := 31, lo := 16 }
def PTP_QUAL_QUAL_N : Fld := { reg := R.PTP_QUAL, hi := 15, lo := 8 }
def PTP_STEP_STEP_NS : Fld := { reg := R.PTP_STEP, hi := 31, lo := 0 }
def PTP_STAT_QUAL : Fld := { reg := R.PTP_STAT, hi := 31, lo := 31, acc := .ro }
def PTP_STAT_STEP_PEND : Fld := { reg := R.PTP_STAT, hi := 30, lo := 30, acc := .ro }
def PTP_STAT_GM : Fld := { reg := R.PTP_STAT, hi := 29, lo := 29, acc := .ro }
def PTP_STAT_SYNC_LOST : Fld := { reg := R.PTP_STAT, hi := 28, lo := 28, acc := .wc }
def PTP_STAT_GMCHG : Fld := { reg := R.PTP_STAT, hi := 27, lo := 27, acc := .wc }
def PTP_STAT_SLAVEPORT : Fld := { reg := R.PTP_STAT, hi := 2, lo := 0, acc := .ro }
def PTP_OFS_OFFSET : Fld := { reg := R.PTP_OFS, hi := 63, lo := 0, acc := .ro }
def PTP_MPD_DELAY : Fld := { reg := R.PTP_MPD, hi := 63, lo := 0, acc := .ro }
def PTP_GMID_ID : Fld := { reg := R.PTP_GMID, hi := 63, lo := 0, acc := .ro }
def PTP_STEPCNT_COUNT : Fld := { reg := R.PTP_STEPCNT, hi := 31, lo := 0, acc := .ro }
def PTP_PCFG_EN : Fld := { reg := R.PTP_PCFG, hi := 31, lo := 31 }
def PTP_PCFG_ONESTEP : Fld := { reg := R.PTP_PCFG, hi := 30, lo := 30 }
def PTP_PSTAT_STATE : Fld := { reg := R.PTP_PSTAT, hi := 3, lo := 0, acc := .ro }
def PTP_PCORR_EGR_PS : Fld := { reg := R.PTP_PCORR, hi := 63, lo := 32 }
def PTP_PCORR_ING_PS : Fld := { reg := R.PTP_PCORR, hi := 31, lo := 0 }
def PTP_PCNT_COUNT : Fld := { reg := R.PTP_PCNT, hi := 31, lo := 0, acc := .wcCount }
def PTP_EVT_CTRL_EN : Fld := { reg := R.PTP_EVT_CTRL, hi := 31, lo := 31 }
def PTP_EVT_CTRL_MODE : Fld := { reg := R.PTP_EVT_CTRL, hi := 30, lo := 30 }
def PTP_EVT_CTRL_POL : Fld := { reg := R.PTP_EVT_CTRL, hi := 29, lo := 29 }
def PTP_EVT_CTRL_LATE : Fld := { reg := R.PTP_EVT_CTRL, hi := 1, lo := 1, acc := .wc }
def PTP_EVT_CTRL_ACTIVE : Fld := { reg := R.PTP_EVT_CTRL, hi := 0, lo := 0, acc := .ro }
def PTP_EVT_SEC_SEC : Fld := { reg := R.PTP_EVT_SEC, hi := 47, lo := 0 }
def PTP_EVT_NS_NS : Fld := { reg := R.PTP_EVT_NS, hi := 29, lo := 0 }
def PTP_EVT_PER_PERIOD : Fld := { reg := R.PTP_EVT_PER, hi := 31, lo := 0 }
def PTP_EVT_WID_WIDTH : Fld := { reg := R.PTP_EVT_WID, hi := 29, lo := 0 }
def PTP_CAP_CFG_EN : Fld := { reg := R.PTP_CAP_CFG, hi := 31, lo := 31 }
def PTP_CAP_CFG_EDGE : Fld := { reg := R.PTP_CAP_CFG, hi := 30, lo := 29, unlisted := [0] }
def PTP_CAP_HEAD_VALID : Fld := { reg := R.PTP_CAP_HEAD, hi := 31, lo := 31, acc := .ro }
def PTP_CAP_HEAD_RISE : Fld := { reg := R.PTP_CAP_HEAD, hi := 30, lo := 30, acc := .ro }
def PTP_CAP_HEAD_LEVEL : Fld := { reg := R.PTP_CAP_HEAD, hi := 4, lo := 0, acc := .ro }
def PTP_CAP_TS_TS : Fld := { reg := R.PTP_CAP_TS, hi := 63, lo := 0, acc := .ro }
def PTP_CAP_OVF_COUNT : Fld := { reg := R.PTP_CAP_OVF, hi := 15, lo := 0, acc := .wcCount }
def CLK_CTRL_INSVC : Fld := { reg := R.CLK_CTRL, hi := 1, lo := 1 }
def CLK_CTRL_FREERUN : Fld := { reg := R.CLK_CTRL, hi := 0, lo := 0 }
def CLK_STAT_PLLOK : Fld := { reg := R.CLK_STAT, hi := 18, lo := 16, acc := .ro }
def CLK_STAT_HISTOK : Fld := { reg := R.CLK_STAT, hi := 12, lo := 12, acc := .ro }
def CLK_STAT_STEP : Fld := { reg := R.CLK_STAT, hi := 10, lo := 8, acc := .ro }
def CLK_STAT_REF : Fld := { reg := R.CLK_STAT, hi := 6, lo := 4, acc := .ro }
def CLK_STAT_STATE : Fld := { reg := R.CLK_STAT, hi := 2, lo := 0, acc := .ro }
def CLK_HIST_UNLOCK : Fld := { reg := R.CLK_HIST, hi := 18, lo := 16, acc := .wc }
def CLK_HIST_SWITCH : Fld := { reg := R.CLK_HIST, hi := 8, lo := 8, acc := .wc }
def CLK_HIST_ENTERED : Fld := { reg := R.CLK_HIST, hi := 4, lo := 0, acc := .wc }
def CLK_REFCFG_REVERT : Fld := { reg := R.CLK_REFCFG, hi := 31, lo := 31 }
def CLK_REFCFG_FORCE_EN : Fld := { reg := R.CLK_REFCFG, hi := 30, lo := 30 }
def CLK_REFCFG_FORCE : Fld := { reg := R.CLK_REFCFG, hi := 29, lo := 28 }
def CLK_REFCFG_WTR : Fld := { reg := R.CLK_REFCFG, hi := 15, lo := 0 }
def CLK_REFPRIO_PRIO0 : Fld := { reg := R.CLK_REFPRIO, hi := 3, lo := 0 }
def CLK_REFPRIO_PRIO1 : Fld := { reg := R.CLK_REFPRIO, hi := 7, lo := 4 }
def CLK_REFPRIO_PRIO2 : Fld := { reg := R.CLK_REFPRIO, hi := 11, lo := 8 }
def CLK_REFPRIO_PRIO3 : Fld := { reg := R.CLK_REFPRIO, hi := 15, lo := 12 }
def CLK_REFSTAT_LOST : Fld := { reg := R.CLK_REFSTAT, hi := 11, lo := 8, acc := .wc }
def CLK_REFSTAT_VALID : Fld := { reg := R.CLK_REFSTAT, hi := 3, lo := 0, acc := .ro }
def CLK_REF1_RATE : Fld := { reg := R.CLK_REF1, hi := 31, lo := 31 }
def CLK_REF1_REF1_OFS : Fld := { reg := R.CLK_REF1, hi := 23, lo := 0 }
def CLK_REF2_PORT : Fld := { reg := R.CLK_REF2, hi := 1, lo := 0 }
def CLK_REF3_TEN : Fld := { reg := R.CLK_REF3, hi := 31, lo := 31 }
def CLK_REF3_MULT : Fld := { reg := R.CLK_REF3, hi := 24, lo := 15 }
def CLK_REF3_REF3_OFS : Fld := { reg := R.CLK_REF3, hi := 14, lo := 0 }
def CLK_FRANGE_QMS : Fld := { reg := R.CLK_FRANGE, hi := 31, lo := 16 }
def CLK_FRANGE_FRANGE : Fld := { reg := R.CLK_FRANGE, hi := 15, lo := 0 }
def CLK_SLEW_PPM : Fld := { reg := R.CLK_SLEW, hi := 7, lo := 0 }
def CLK_Y_Y : Fld := { reg := R.CLK_Y, hi := 47, lo := 0, acc := .ro }
def CLK_PHERR_ERR : Fld := { reg := R.CLK_PHERR, hi := 63, lo := 0, acc := .ro }
def CLK_HOLD_DRIFT : Fld := { reg := R.CLK_HOLD, hi := 31, lo := 16 }
def CLK_HOLD_E0 : Fld := { reg := R.CLK_HOLD, hi := 15, lo := 0 }
def CLK_HOLDNS_HOLD_NS : Fld := { reg := R.CLK_HOLDNS, hi := 31, lo := 0 }
def CLK_HOLD_LEFT_MS : Fld := { reg := R.CLK_HOLD_LEFT, hi := 31, lo := 0, acc := .ro }
def CLK_FR_PPB : Fld := { reg := R.CLK_FR, hi := 31, lo := 0 }
def CLK_PLLA_FSEL : Fld := { reg := R.CLK_PLLA, hi := 0, lo := 0, lk := true }
def CLK_SEED_SEED : Fld := { reg := R.CLK_SEED, hi := 31, lo := 0 }
def CLK_DITHER_CTRL_EN : Fld := { reg := R.CLK_DITHER_CTRL, hi := 2, lo := 0 }
def CLK_ALIGN_OUT : Fld := { reg := R.CLK_ALIGN, hi := 7, lo := 0, acc := .wt }
def CLK_ALIGNPEND_PEND : Fld := { reg := R.CLK_ALIGNPEND, hi := 7, lo := 0, acc := .ro }
def CLK_OUT_EN : Fld := { reg := R.CLK_OUT, hi := 31, lo := 31 }
def CLK_OUT_POL : Fld := { reg := R.CLK_OUT, hi := 30, lo := 30 }
def CLK_OUT_LEVEL : Fld := { reg := R.CLK_OUT, hi := 29, lo := 28 }
def CLK_OUT_FMT : Fld := { reg := R.CLK_OUT, hi := 27, lo := 25, unlisted := [6, 7] }
def CLK_OUTMIS_MIS : Fld := { reg := R.CLK_OUTMIS, hi := 31, lo := 0, acc := .ro }
def PAIR_CFG_EN : Fld := { reg := R.PAIR_CFG, hi := 31, lo := 31, sh := true, lk := true }
def PAIR_CFG_TAKE_CHECK : Fld := { reg := R.PAIR_CFG, hi := 30, lo := 30, sh := true, lk := true }
def PAIR_CFG_PRST_EN : Fld := { reg := R.PAIR_CFG, hi := 29, lo := 29, sh := true, lk := true }
def PAIR_CFG_RESYNC_LIM : Fld := { reg := R.PAIR_CFG, hi := 23, lo := 16, sh := true, lk := true }
def PAIR_CFG_START_MS : Fld := { reg := R.PAIR_CFG, hi := 15, lo := 0, sh := true, lk := true }
def PAIR_CMD_PRESET : Fld := { reg := R.PAIR_CMD, hi := 4, lo := 4, acc := .wt }
def PAIR_CMD_HANDOVER : Fld := { reg := R.PAIR_CMD, hi := 3, lo := 3, acc := .wt }
def PAIR_CMD_JOIN_UPD : Fld := { reg := R.PAIR_CMD, hi := 2, lo := 2, acc := .wt }
def PAIR_CMD_JOIN : Fld := { reg := R.PAIR_CMD, hi := 1, lo := 1, acc := .wt }
def PAIR_CMD_OUT : Fld := { reg := R.PAIR_CMD, hi := 0, lo := 0, acc := .wt }
def PAIR_STAT_SIDE : Fld := { reg := R.PAIR_STAT, hi := 31, lo := 31, acc := .ro }
def PAIR_STAT_LINK : Fld := { reg := R.PAIR_STAT, hi := 30, lo := 30, acc := .ro }
def PAIR_STAT_OWN : Fld := { reg := R.PAIR_STAT, hi := 29, lo := 29, acc := .ro }
def PAIR_STAT_POWN : Fld := { reg := R.PAIR_STAT, hi := 28, lo := 28, acc := .ro }
def PAIR_STAT_PSTATE : Fld := { reg := R.PAIR_STAT, hi := 27, lo := 24, acc := .ro }
def PAIR_STAT_STATE : Fld := { reg := R.PAIR_STAT, hi := 3, lo := 0, acc := .ro }
def PAIR_HIST_BOTH_FAULT : Fld := { reg := R.PAIR_HIST, hi := 7, lo := 7, acc := .wc }
def PAIR_HIST_SUSPECT : Fld := { reg := R.PAIR_HIST, hi := 6, lo := 6, acc := .wc }
def PAIR_HIST_TAKEOVER : Fld := { reg := R.PAIR_HIST, hi := 5, lo := 5, acc := .wc }
def PAIR_HIST_RELEASE : Fld := { reg := R.PAIR_HIST, hi := 4, lo := 4, acc := .wc }
def PAIR_HIST_LEASE_LOST : Fld := { reg := R.PAIR_HIST, hi := 3, lo := 3, acc := .wc }
def PAIR_HIST_LINK_DOWN : Fld := { reg := R.PAIR_HIST, hi := 2, lo := 2, acc := .wc }
def PAIR_HIST_PATCH_LATE : Fld := { reg := R.PAIR_HIST, hi := 1, lo := 1, acc := .wc }
def PAIR_HIST_SYNCED : Fld := { reg := R.PAIR_HIST, hi := 0, lo := 0, acc := .wc }
def PAIR_PATCH_NS : Fld := { reg := R.PAIR_PATCH, hi := 15, lo := 0 }
def PAIR_CONV_CONV_T : Fld := { reg := R.PAIR_CONV, hi := 31, lo := 0, lk := true }
def PAIR_MATCH_RESYNC : Fld := { reg := R.PAIR_MATCH, hi := 31, lo := 24, acc := .ro }
def PAIR_MATCH_RUN : Fld := { reg := R.PAIR_MATCH, hi := 15, lo := 0, acc := .ro }
def PAIR_FLAGS_TICK : Fld := { reg := R.PAIR_FLAGS, hi := 63, lo := 32, acc := .ro }
def PAIR_FLAGS_PARTNER : Fld := { reg := R.PAIR_FLAGS, hi := 11, lo := 8, acc := .ro }
def PAIR_FLAGS_OWN : Fld := { reg := R.PAIR_FLAGS, hi := 3, lo := 0, acc := .ro }
def PAIR_DIG_DIGEST : Fld := { reg := R.PAIR_DIG, hi := 127, lo := 0, acc := .ro }
def PAIR_PDIG_DIGEST : Fld := { reg := R.PAIR_PDIG, hi := 127, lo := 0, acc := .ro }
def PAIR_MISMATCH_TICK : Fld := { reg := R.PAIR_MISMATCH, hi := 63, lo := 32, acc := .ro }
def PAIR_MISMATCH_VALID : Fld := { reg := R.PAIR_MISMATCH, hi := 31, lo := 31, acc := .wc }
def PAIR_MISMATCH_CHAMBERS : Fld := { reg := R.PAIR_MISMATCH, hi := 3, lo := 0, acc := .ro }
def PAIR_CNT_COUNT : Fld := { reg := R.PAIR_CNT, hi := 31, lo := 0, acc := .wcCount }
def GAL_FAULT_SLOT : Fld := { reg := R.GAL_FAULT, hi := 16, lo := 0, acc := .ro }
def GAL_SPARE_AUTO : Fld := { reg := R.GAL_SPARE, hi := 31, lo := 31, lk := true }
def GAL_SPARE_LANE : Fld := { reg := R.GAL_SPARE, hi := 7, lo := 4, acc := .ro }
def GAL_SPARE_STATE : Fld := { reg := R.GAL_SPARE, hi := 2, lo := 0, acc := .ro }
def GAL_SPARE_LAST_VALID : Fld := { reg := R.GAL_SPARE_LAST, hi := 63, lo := 63, acc := .wc }
def GAL_SPARE_LAST_SLOT : Fld := { reg := R.GAL_SPARE_LAST, hi := 62, lo := 58, acc := .ro }
def GAL_SPARE_LAST_LANE : Fld := { reg := R.GAL_SPARE_LAST, hi := 57, lo := 50, acc := .ro }
def GAL_SPARE_LAST_TICK : Fld := { reg := R.GAL_SPARE_LAST, hi := 23, lo := 0, acc := .ro }
def GAL_COPY_EN : Fld := { reg := R.GAL_COPY, hi := 63, lo := 63, sh := true, lk := true }
def GAL_COPY_BASE : Fld := { reg := R.GAL_COPY, hi := 40, lo := 22, sh := true, lk := true }
def GAL_STSET_XBASE : Fld := { reg := R.GAL_STSET, hi := 62, lo := 50, lk := true }
def GAL_STSET_XLEN : Fld := { reg := R.GAL_STSET, hi := 49, lo := 38, lk := true }
def GAL_STSET_YBASE : Fld := { reg := R.GAL_STSET, hi := 31, lo := 19, lk := true }
def GAL_STSET_YLEN : Fld := { reg := R.GAL_STSET, hi := 18, lo := 7, lk := true }
def SUMP_STAT_SELF : Fld := { reg := R.SUMP_STAT, hi := 15, lo := 15, acc := .ro }
def SUMP_STAT_CLEAR_REFUSED : Fld := { reg := R.SUMP_STAT, hi := 14, lo := 14, acc := .wc }
def SUMP_STAT_CHANNEL : Fld := { reg := R.SUMP_STAT, hi := 4, lo := 4, acc := .ro }
def SUMP_STAT_DEGRADED : Fld := { reg := R.SUMP_STAT, hi := 3, lo := 3, acc := .ro }
def SUMP_STAT_STATE : Fld := { reg := R.SUMP_STAT, hi := 1, lo := 0, acc := .ro }
def SUMP_CTRL_HCLR : Fld := { reg := R.SUMP_CTRL, hi := 1, lo := 1, acc := .wt }
def SUMP_CTRL_EXIT : Fld := { reg := R.SUMP_CTRL, hi := 0, lo := 0, acc := .wt }
def SUMP_REFUSED_COUNT : Fld := { reg := R.SUMP_REFUSED, hi := 31, lo := 16, acc := .ro }
def SUMP_REFUSED_EVENT : Fld := { reg := R.SUMP_REFUSED, hi := 7, lo := 0, acc := .ro }
def SUMP_HIST_STAT_OVF : Fld := { reg := R.SUMP_HIST_STAT, hi := 31, lo := 16, acc := .ro }
def SUMP_HIST_STAT_COUNT : Fld := { reg := R.SUMP_HIST_STAT, hi := 13, lo := 8, acc := .ro }
def SUMP_HIST_STAT_NEXT : Fld := { reg := R.SUMP_HIST_STAT, hi := 4, lo := 0, acc := .ro }
def SUMP_LOST_COUNT : Fld := { reg := R.SUMP_LOST, hi := 15, lo := 0, acc := .wcCount }
def SUMP_HIST_ENTRY : Fld := { reg := R.SUMP_HIST, hi := 127, lo := 0, acc := .ro }
def SUMP_EVSTAT_RAISED : Fld := { reg := R.SUMP_EVSTAT, hi := 31, lo := 0, acc := .wc }
def SUMP_EVCNT_COUNT : Fld := { reg := R.SUMP_EVCNT, hi := 31, lo := 0, acc := .wcCount }
def SUMP_EVCFG_LOG : Fld := { reg := R.SUMP_EVCFG, hi := 7, lo := 7, lk := true }
def SUMP_EVCFG_INT1 : Fld := { reg := R.SUMP_EVCFG, hi := 6, lo := 6, lk := true }
def SUMP_EVCFG_INT0 : Fld := { reg := R.SUMP_EVCFG, hi := 5, lo := 5, lk := true }
def SUMP_EVCFG_CLASS : Fld := { reg := R.SUMP_EVCFG, hi := 2, lo := 0, lk := true, unlisted := [5, 6, 7] }
def STRATA_STAT_LOCKED : Fld := { reg := R.STRATA_STAT, hi := 15, lo := 15, acc := .ro }
def STRATA_STAT_DEFAULT : Fld := { reg := R.STRATA_STAT, hi := 14, lo := 14, acc := .ro }
def STRATA_STAT_WARM : Fld := { reg := R.STRATA_STAT, hi := 13, lo := 13, acc := .ro }
def STRATA_STAT_CAUSE : Fld := { reg := R.STRATA_STAT, hi := 7, lo := 4, acc := .ro }
def STRATA_STAT_BOOT : Fld := { reg := R.STRATA_STAT, hi := 3, lo := 0, acc := .ro }
def STRATA_ICW_ICW : Fld := { reg := R.STRATA_ICW, hi := 31, lo := 0, acc := .ro }
def STRATA_OVL_BAD : Fld := { reg := R.STRATA_OVL, hi := 31, lo := 17, acc := .ro }
def STRATA_OVL_PRESENT : Fld := { reg := R.STRATA_OVL, hi := 15, lo := 1, acc := .ro }
def STRATA_MODE_XF : Fld := { reg := R.STRATA_MODE, hi := 31, lo := 16, acc := .ro }
def STRATA_MODE_SHAPE : Fld := { reg := R.STRATA_MODE, hi := 8, lo := 8, acc := .ro }
def STRATA_MODE_FSEL : Fld := { reg := R.STRATA_MODE, hi := 7, lo := 7, acc := .ro }
def STRATA_MODE_F : Fld := { reg := R.STRATA_MODE, hi := 6, lo := 4, acc := .ro }
def STRATA_MODE_FS : Fld := { reg := R.STRATA_MODE, hi := 2, lo := 0, acc := .ro }
def STRATA_SEL_SRC : Fld := { reg := R.STRATA_SEL, hi := 31, lo := 31 }
def STRATA_SEL_INDEX : Fld := { reg := R.STRATA_SEL, hi := 10, lo := 0 }
def STRATA_TRIG_MODE : Fld := { reg := R.STRATA_TRIG, hi := 31, lo := 30, unlisted := [3] }
def STRATA_TRIG_EVIN : Fld := { reg := R.STRATA_TRIG, hi := 29, lo := 28 }
def STRATA_AT_AT : Fld := { reg := R.STRATA_AT, hi := 63, lo := 0 }
def STRATA_CMD_DISARM : Fld := { reg := R.STRATA_CMD, hi := 2, lo := 2, acc := .wt, sh := true }
def STRATA_CMD_GO : Fld := { reg := R.STRATA_CMD, hi := 1, lo := 1, acc := .wt, sh := true }
def STRATA_CMD_ARM : Fld := { reg := R.STRATA_CMD, hi := 0, lo := 0, acc := .wt, sh := true }
def STRATA_SWSTAT_STATE : Fld := { reg := R.STRATA_SWSTAT, hi := 31, lo := 29, acc := .ro }
def STRATA_SWSTAT_RESULT : Fld := { reg := R.STRATA_SWSTAT, hi := 28, lo := 25, acc := .ro }
def STRATA_SWSTAT_REFCNT : Fld := { reg := R.STRATA_SWSTAT, hi := 19, lo := 12, acc := .wcCount }
def STRATA_SWSTAT_ASRC : Fld := { reg := R.STRATA_SWSTAT, hi := 11, lo := 11, acc := .ro }
def STRATA_SWSTAT_ACTIVE : Fld := { reg := R.STRATA_SWSTAT, hi := 10, lo := 0, acc := .ro }
def STRATA_GCMD_GO : Fld := { reg := R.STRATA_GCMD, hi := 31, lo := 31, acc := .wt, sh := true }
def STRATA_GCMD_GAL : Fld := { reg := R.STRATA_GCMD, hi := 27, lo := 24 }
def STRATA_GCMD_SRC : Fld := { reg := R.STRATA_GCMD, hi := 23, lo := 23 }
def STRATA_GCMD_RET_T : Fld := { reg := R.STRATA_GCMD, hi := 22, lo := 11 }
def STRATA_GCMD_INDEX : Fld := { reg := R.STRATA_GCMD, hi := 10, lo := 0 }
def STRATA_GSTAT_OUT : Fld := { reg := R.STRATA_GSTAT, hi := 31, lo := 16, acc := .ro }
def STRATA_GSTAT_GAL : Fld := { reg := R.STRATA_GSTAT, hi := 15, lo := 12, acc := .ro }
def STRATA_GSTAT_BUSY : Fld := { reg := R.STRATA_GSTAT, hi := 11, lo := 11, acc := .ro }
def STRATA_GSTAT_RESULT : Fld := { reg := R.STRATA_GSTAT, hi := 7, lo := 4, acc := .ro }
def SYS_ID_PART : Fld := { reg := R.SYS_ID, hi := 31, lo := 16, acc := .ro }
def SYS_ID_LETTER : Fld := { reg := R.SYS_ID, hi := 15, lo := 8, acc := .ro }
def SYS_ID_DIGIT : Fld := { reg := R.SYS_ID, hi := 7, lo := 4, acc := .ro }
def SYS_ID_GRADE : Fld := { reg := R.SYS_ID, hi := 3, lo := 2, acc := .ro }
def SYS_RSTCAUSE_SHUTDOWN : Fld := { reg := R.SYS_RSTCAUSE, hi := 4, lo := 4, acc := .ro }
def SYS_RSTCAUSE_WAKE : Fld := { reg := R.SYS_RSTCAUSE, hi := 3, lo := 3, acc := .ro }
def SYS_RSTCAUSE_CAUSE : Fld := { reg := R.SYS_RSTCAUSE, hi := 2, lo := 0, acc := .ro }
def SYS_SWRST_KEY : Fld := { reg := R.SYS_SWRST, hi := 31, lo := 16, acc := .wt }
def SYS_SWRST_GO : Fld := { reg := R.SYS_SWRST, hi := 0, lo := 0, acc := .wt }
def SYS_WDOG_EN : Fld := { reg := R.SYS_WDOG, hi := 31, lo := 31, lk := true }
def SYS_WDOG_TIMEOUT : Fld := { reg := R.SYS_WDOG, hi := 15, lo := 0, lk := true }
def SYS_WDOG_KICK_KEY : Fld := { reg := R.SYS_WDOG_KICK, hi := 15, lo := 0, acc := .wt }
def PWR_STAT_ABORTS : Fld := { reg := R.PWR_STAT, hi := 31, lo := 16, acc := .wcCount }
def PWR_STAT_MUTED : Fld := { reg := R.PWR_STAT, hi := 11, lo := 11, acc := .ro }
def PWR_STAT_SD : Fld := { reg := R.PWR_STAT, hi := 10, lo := 8, acc := .ro }
def PWR_STAT_PHASE : Fld := { reg := R.PWR_STAT, hi := 3, lo := 0, acc := .ro }
def PWR_BOOT_PTPWAIT : Fld := { reg := R.PWR_BOOT, hi := 31, lo := 16 }
def PWR_BOOT_EMIXSRC : Fld := { reg := R.PWR_BOOT, hi := 3, lo := 3, acc := .ro }
def PWR_BOOT_EMIXFMT : Fld := { reg := R.PWR_BOOT, hi := 2, lo := 2, acc := .ro }
def PWR_BOOT_EMIXSEL : Fld := { reg := R.PWR_BOOT, hi := 1, lo := 0, acc := .ro }
def PWR_MCFG_SD_EN : Fld := { reg := R.PWR_MCFG, hi := 63, lo := 63, lk := true }
def PWR_MCFG_DWELL : Fld := { reg := R.PWR_MCFG, hi := 55, lo := 48, lk := true }
def PWR_MCFG_NRET : Fld := { reg := R.PWR_MCFG, hi := 47, lo := 44, lk := true }
def PWR_MCFG_NLOW : Fld := { reg := R.PWR_MCFG, hi := 43, lo := 40, lk := true }
def PWR_MCFG_RET : Fld := { reg := R.PWR_MCFG, hi := 31, lo := 16, lk := true }
def PWR_MCFG_LOW : Fld := { reg := R.PWR_MCFG, hi := 15, lo := 0, lk := true }
def PWR_MSTAT_BELOW : Fld := { reg := R.PWR_MSTAT, hi := 31, lo := 31, acc := .ro }
def PWR_MSTAT_VPK : Fld := { reg := R.PWR_MSTAT, hi := 15, lo := 0, acc := .ro }
def PWR_MUTE_SW : Fld := { reg := R.PWR_MUTE, hi := 31, lo := 31, sh := true }
def PWR_MUTE_MRAMP : Fld := { reg := R.PWR_MUTE, hi := 15, lo := 0, sh := true }
def PWR_INCFG_POL : Fld := { reg := R.PWR_INCFG, hi := 31, lo := 31 }
def PWR_INCFG_WAKE : Fld := { reg := R.PWR_INCFG, hi := 30, lo := 30 }
def PWR_INCFG_STUCK : Fld := { reg := R.PWR_INCFG, hi := 29, lo := 16 }
def PWR_INCFG_DEB : Fld := { reg := R.PWR_INCFG, hi := 15, lo := 0 }
def PWR_INSTAT_STUCK : Fld := { reg := R.PWR_INSTAT, hi := 20, lo := 16, acc := .ro }
def PWR_INSTAT_ACTIVE : Fld := { reg := R.PWR_INSTAT, hi := 12, lo := 8, acc := .ro }
def PWR_INSTAT_RAW : Fld := { reg := R.PWR_INSTAT, hi := 4, lo := 0, acc := .ro }
def PWR_INOVF_COUNT : Fld := { reg := R.PWR_INOVF, hi := 15, lo := 0, acc := .wcCount }
def PWR_JHOST_HLEN : Fld := { reg := R.PWR_JHOST, hi := 46, lo := 32 }
def PWR_JHOST_HADDR : Fld := { reg := R.PWR_JHOST, hi := 31, lo := 0 }
def PWR_LP_LISTEN : Fld := { reg := R.PWR_LP, hi := 0, lo := 0, acc := .wt }
def PWR_KACFG_CLK : Fld := { reg := R.PWR_KACFG, hi := 31, lo := 31 }
def PWR_KACFG_TAMPER_EN : Fld := { reg := R.PWR_KACFG, hi := 30, lo := 30 }
def PWR_KACFG_MWAKE : Fld := { reg := R.PWR_KACFG, hi := 29, lo := 29 }
def PWR_KACFG_AWAKE : Fld := { reg := R.PWR_KACFG, hi := 28, lo := 28 }
def PWR_KALATCH_KAPOR : Fld := { reg := R.PWR_KALATCH, hi := 11, lo := 11, acc := .wc }
def PWR_KALATCH_ALARM : Fld := { reg := R.PWR_KALATCH, hi := 10, lo := 10, acc := .wc }
def PWR_KALATCH_MAINS : Fld := { reg := R.PWR_KALATCH, hi := 9, lo := 9, acc := .wc }
def PWR_KALATCH_TAMPER : Fld := { reg := R.PWR_KALATCH, hi := 8, lo := 8, acc := .wc }
def PWR_KALATCH_LWAKE : Fld := { reg := R.PWR_KALATCH, hi := 3, lo := 0, acc := .ro }
def PWR_KACNT_COUNT : Fld := { reg := R.PWR_KACNT, hi := 47, lo := 0, acc := .ro }
def PWR_KAALARM_ALARM : Fld := { reg := R.PWR_KAALARM, hi := 47, lo := 0 }
def HCP_CFG_INTOD : Fld := { reg := R.HCP_CFG, hi := 1, lo := 1 }
def HCP_CFG_QEN : Fld := { reg := R.HCP_CFG, hi := 0, lo := 0 }
def HCP_STAT_PEND : Fld := { reg := R.HCP_STAT, hi := 15, lo := 15, acc := .ro }
def HCP_STAT_CODE : Fld := { reg := R.HCP_STAT, hi := 11, lo := 8, acc := .ro }
def HCP_STAT_ERRSEEN : Fld := { reg := R.HCP_STAT, hi := 7, lo := 7, acc := .wc }
def HCP_STAT_INT1 : Fld := { reg := R.HCP_STAT, hi := 1, lo := 1, acc := .ro }
def HCP_STAT_INT0 : Fld := { reg := R.HCP_STAT, hi := 0, lo := 0, acc := .ro }
def HCP_CNT_ERRORS : Fld := { reg := R.HCP_CNT, hi := 31, lo := 16, acc := .wcCount }
def HCP_CNT_TRANS : Fld := { reg := R.HCP_CNT, hi := 15, lo := 0, acc := .ro }
def DRAM_CFG_SIZE : Fld := { reg := R.DRAM_CFG, hi := 10, lo := 8, lk := true, unlisted := [3, 4, 5, 6, 7] }
def DRAM_CFG_RANKS : Fld := { reg := R.DRAM_CFG, hi := 4, lo := 4, lk := true }
def DRAM_CFG_RATE : Fld := { reg := R.DRAM_CFG, hi := 2, lo := 0, lk := true, unlisted := [3, 4, 5, 6, 7] }
def DRAM_CTRL_INIT : Fld := { reg := R.DRAM_CTRL, hi := 0, lo := 0, acc := .wt }
def DRAM_STAT_SR : Fld := { reg := R.DRAM_STAT, hi := 3, lo := 3, acc := .ro }
def DRAM_STAT_FAIL : Fld := { reg := R.DRAM_STAT, hi := 2, lo := 2, acc := .ro }
def DRAM_STAT_BUSY : Fld := { reg := R.DRAM_STAT, hi := 1, lo := 1, acc := .ro }
def DRAM_STAT_READY : Fld := { reg := R.DRAM_STAT, hi := 0, lo := 0, acc := .ro }

end F

/-- Registers of the Tick window. -/
def regsTick : List RegEntry :=
  [⟨R.TICK_CFG, [F.TICK_CFG_F, F.TICK_CFG_FS]⟩,
   ⟨R.TICK_CYC, [F.TICK_CYC_CYC_INT]⟩,
   ⟨R.TICK_CYCFRAC, [F.TICK_CYCFRAC_FRAC]⟩,
   ⟨R.TICK_BUDGET, [F.TICK_BUDGET_LANE_CYC]⟩,
   ⟨R.TICK_CTRL, [F.TICK_CTRL_RUN]⟩,
   ⟨R.TICK_STAT, [F.TICK_STAT_ALIGN_LOST, F.TICK_STAT_ALIGNED, F.TICK_STAT_RUNNING]⟩,
   ⟨R.TICK_NUM, [F.TICK_NUM_NUM]⟩,
   ⟨R.TICK_NETMARGIN, [F.TICK_NETMARGIN_NS]⟩,
   ⟨R.TICK_TXEND, [F.TICK_TXEND_MAX, F.TICK_TXEND_LAST]⟩,
   ⟨R.TICK_LANEMAX, [F.TICK_LANEMAX_LAST]⟩,
   ⟨R.TICK_LANEPEAK, [F.TICK_LANEPEAK_LANE, F.TICK_LANEPEAK_PEAK]⟩,
   ⟨R.TICK_OVR_STAT, [F.TICK_OVR_STAT_OVR]⟩,
   ⟨R.TICK_OVR_CNT, [F.TICK_OVR_CNT_COUNT]⟩,
   ⟨R.TICK_OVR_CFG, [F.TICK_OVR_CFG_RUN_LIM]⟩,
   ⟨R.TICK_LAT_CNT, [F.TICK_LAT_CNT_COUNT]⟩,
   ⟨R.TICK_LAT, [F.TICK_LAT_LAT, F.TICK_LAT_DST, F.TICK_LAT_SRC]⟩]

/-- Registers of the Xbar window. -/
def regsXbar : List RegEntry :=
  [⟨R.XBAR_DERR, [F.XBAR_DERR_VALID, F.XBAR_DERR_WR, F.XBAR_DERR_MASTER, F.XBAR_DERR_COUNT, F.XBAR_DERR_ADDR]⟩,
   ⟨R.XBAR_ACCERR, [F.XBAR_ACCERR_VALID, F.XBAR_ACCERR_WR, F.XBAR_ACCERR_MASTER, F.XBAR_ACCERR_REASON, F.XBAR_ACCERR_COUNT, F.XBAR_ACCERR_ADDR]⟩,
   ⟨R.XBAR_ABORT, [F.XBAR_ABORT_VALID, F.XBAR_ABORT_WR, F.XBAR_ABORT_MASTER, F.XBAR_ABORT_BEATS, F.XBAR_ABORT_ADDR]⟩,
   ⟨R.XBAR_CONFLICT, [F.XBAR_CONFLICT_TIE, F.XBAR_CONFLICT_OVERWRITTEN]⟩,
   ⟨R.XBAR_CONFLICT_LAST, [F.XBAR_CONFLICT_LAST_LOSER, F.XBAR_CONFLICT_LAST_WINNER, F.XBAR_CONFLICT_LAST_TIE, F.XBAR_CONFLICT_LAST_ADDR]⟩,
   ⟨R.XBAR_AGE, [F.XBAR_AGE_LIMIT]⟩]

/-- Registers of the Gal window. -/
def regsGal : List RegEntry :=
  [⟨R.GAL_ID, [F.GAL_ID_CHAMBER, F.GAL_ID_GALLERY]⟩,
   ⟨R.GAL_SLICE, [F.GAL_SLICE_UPLINK, F.GAL_SLICE_PORT]⟩,
   ⟨R.GAL_SLOTMAP, [F.GAL_SLOTMAP_ACTIVE0, F.GAL_SLOTMAP_SLOT0, F.GAL_SLOTMAP_ACTIVE1, F.GAL_SLOTMAP_SLOT1, F.GAL_SLOTMAP_ACTIVE2, F.GAL_SLOTMAP_SLOT2, F.GAL_SLOTMAP_ACTIVE3, F.GAL_SLOTMAP_SLOT3]⟩,
   ⟨R.RAMP_CTRL, [F.RAMP_CTRL_EN]⟩,
   ⟨R.RAMP_STAT, [F.RAMP_STAT_WORDS, F.RAMP_STAT_ACTIVE]⟩,
   ⟨R.RAMP_IDX, [F.RAMP_IDX_P]⟩,
   ⟨R.RAMP_LIVE, [F.RAMP_LIVE_MODE, F.RAMP_LIVE_DUR, F.RAMP_LIVE_TARGET]⟩,
   ⟨R.RAMP_CUR, [F.RAMP_CUR_LEFT, F.RAMP_CUR_VALUE]⟩,
   ⟨R.RAMP_ACTIVE, [F.RAMP_ACTIVE_ACTIVE]⟩,
   ⟨R.RAMP_MAP, [F.RAMP_MAP_EN, F.RAMP_MAP_DELIV, F.RAMP_MAP_LANE, F.RAMP_MAP_ADDR]⟩,
   ⟨R.RAMP_TGT, [F.RAMP_TGT_MODE, F.RAMP_TGT_DUR, F.RAMP_TGT_TARGET]⟩,
   ⟨R.GDMA_CFG, [F.GDMA_CFG_EN, F.GDMA_CFG_QUEUE]⟩,
   ⟨R.GDMA_STAT, [F.GDMA_STAT_BUSY, F.GDMA_STAT_LATE, F.GDMA_STAT_DONE]⟩,
   ⟨R.GDMA_TAG, [F.GDMA_TAG_TAG]⟩,
   ⟨R.GDMA_SEL, [F.GDMA_SEL_BANK, F.GDMA_SEL_SHAPE, F.GDMA_SEL_FADE_T]⟩,
   ⟨R.GDMA_SEL_STAT, [F.GDMA_SEL_STAT_ACTIVE, F.GDMA_SEL_STAT_FADE, F.GDMA_SEL_STAT_PEND, F.GDMA_SEL_STAT_REMAIN]⟩,
   ⟨R.GAL_FAULT, [F.GAL_FAULT_SLOT]⟩,
   ⟨R.GAL_SPARE, [F.GAL_SPARE_AUTO, F.GAL_SPARE_LANE, F.GAL_SPARE_STATE]⟩,
   ⟨R.GAL_SPARE_LAST, [F.GAL_SPARE_LAST_VALID, F.GAL_SPARE_LAST_SLOT, F.GAL_SPARE_LAST_LANE, F.GAL_SPARE_LAST_TICK]⟩,
   ⟨R.GAL_COPY, [F.GAL_COPY_EN, F.GAL_COPY_BASE]⟩,
   ⟨R.GAL_STSET, [F.GAL_STSET_XBASE, F.GAL_STSET_XLEN, F.GAL_STSET_YBASE, F.GAL_STSET_YLEN]⟩]

/-- Registers of the Chm window. -/
def regsChm : List RegEntry :=
  [⟨R.CHM_WEIGHT, [F.CHM_WEIGHT_W4, F.CHM_WEIGHT_W3, F.CHM_WEIGHT_W2, F.CHM_WEIGHT_W1, F.CHM_WEIGHT_W0]⟩]

/-- Registers of the Lane window. -/
def regsLane : List RegEntry :=
  [⟨R.LANE_CTRL, [F.LANE_CTRL_FCLR, F.LANE_CTRL_STEP, F.LANE_CTRL_HALT]⟩,
   ⟨R.LANE_STAT, [F.LANE_STAT_AOV, F.LANE_STAT_SAT, F.LANE_STAT_LOOP, F.LANE_STAT_STATE]⟩,
   ⟨R.LANE_ENTRY, [F.LANE_ENTRY_ADDR]⟩,
   ⟨R.LANE_PC, [F.LANE_PC_PC]⟩,
   ⟨R.LANE_ENABLE, [F.LANE_ENABLE_ENABLE]⟩,
   ⟨R.LANE_FRAME, [F.LANE_FRAME_OUT_CH, F.LANE_FRAME_IN_CH]⟩,
   ⟨R.LANE_FAULT, [F.LANE_FAULT_VALID, F.LANE_FAULT_CODE, F.LANE_FAULT_PC, F.LANE_FAULT_ADDR, F.LANE_FAULT_TICK]⟩,
   ⟨R.LANE_CLIP, [F.LANE_CLIP_CLIP]⟩,
   ⟨R.LANE_CYC, [F.LANE_CYC_RUN]⟩,
   ⟨R.LANE_STALL, [F.LANE_STALL_STALL]⟩,
   ⟨R.LANE_D, [F.LANE_D_VALUE]⟩,
   ⟨R.LANE_ACC, [F.LANE_ACC_VALUE]⟩,
   ⟨R.LANE_A, [F.LANE_A_ADDR]⟩,
   ⟨R.LANE_M, [F.LANE_M_OFFSET]⟩,
   ⟨R.LANE_LEN, [F.LANE_LEN_LEN]⟩]

/-- Registers of the Sys window. -/
def regsSys : List RegEntry :=
  [⟨R.SYS_ECC_CECNT, [F.SYS_ECC_CECNT_COUNT]⟩,
   ⟨R.SYS_ECC_THRESH, [F.SYS_ECC_THRESH_LIMIT]⟩,
   ⟨R.SYS_ECC_CELOG, [F.SYS_ECC_CELOG_VALID, F.SYS_ECC_CELOG_BIT, F.SYS_ECC_CELOG_INST, F.SYS_ECC_CELOG_HITS, F.SYS_ECC_CELOG_ADDR]⟩,
   ⟨R.SYS_ECC_CELOST, [F.SYS_ECC_CELOST_COUNT]⟩,
   ⟨R.SYS_ECC_UE, [F.SYS_ECC_UE_VALID, F.SYS_ECC_UE_REQ, F.SYS_ECC_UE_INST, F.SYS_ECC_UE_ADDR]⟩,
   ⟨R.SYS_ECC_UECNT, [F.SYS_ECC_UECNT_COUNT]⟩,
   ⟨R.SYS_REMAP_CMD, [F.SYS_REMAP_CMD_ADD, F.SYS_REMAP_CMD_INST, F.SYS_REMAP_CMD_ADDR]⟩,
   ⟨R.SYS_REMAP_RES, [F.SYS_REMAP_RES_BUSY, F.SYS_REMAP_RES_CODE, F.SYS_REMAP_RES_FREE, F.SYS_REMAP_RES_LIST_BAD]⟩,
   ⟨R.SYS_JRNL_CFG, [F.SYS_JRNL_CFG_EN, F.SYS_JRNL_CFG_INTERVAL]⟩,
   ⟨R.SYS_JRNL_STAT, [F.SYS_JRNL_STAT_NEXT]⟩,
   ⟨R.SYS_JRNL_SEQ, [F.SYS_JRNL_SEQ_SEQ]⟩,
   ⟨R.SYS_ID, [F.SYS_ID_PART, F.SYS_ID_LETTER, F.SYS_ID_DIGIT, F.SYS_ID_GRADE]⟩,
   ⟨R.SYS_RSTCAUSE, [F.SYS_RSTCAUSE_SHUTDOWN, F.SYS_RSTCAUSE_WAKE, F.SYS_RSTCAUSE_CAUSE]⟩,
   ⟨R.SYS_SWRST, [F.SYS_SWRST_KEY, F.SYS_SWRST_GO]⟩,
   ⟨R.SYS_WDOG, [F.SYS_WDOG_EN, F.SYS_WDOG_TIMEOUT]⟩,
   ⟨R.SYS_WDOG_KICK, [F.SYS_WDOG_KICK_KEY]⟩]

/-- Registers of the Route window. -/
def regsRoute : List RegEntry :=
  [⟨R.ROUTE_PAGE, [F.ROUTE_PAGE_PAGE]⟩,
   ⟨R.ROUTE_OCLIP, [F.ROUTE_OCLIP_CLIP]⟩,
   ⟨R.ROUTE_SIL_CFG, [F.ROUTE_SIL_CFG_EN, F.ROUTE_SIL_CFG_BUS, F.ROUTE_SIL_CFG_HOLD, F.ROUTE_SIL_CFG_HYST, F.ROUTE_SIL_CFG_THR]⟩,
   ⟨R.ROUTE_SIL_STAT, [F.ROUTE_SIL_STAT_SILENT]⟩,
   ⟨R.ROUTE_SIL_CHG, [F.ROUTE_SIL_CHG_CHG]⟩,
   ⟨R.ROUTE_POLICY, [F.ROUTE_POLICY_HOLD]⟩,
   ⟨R.ROUTE_BUS, [F.ROUTE_BUS_VALID, F.ROUTE_BUS_LANE, F.ROUTE_BUS_CH]⟩,
   ⟨R.ROUTE_OUT, [F.ROUTE_OUT_VALID, F.ROUTE_OUT_SRC]⟩,
   ⟨R.ROUTE_TBL, [F.ROUTE_TBL_VALID, F.ROUTE_TBL_SRC]⟩]

/-- Registers of the Rope window. -/
def regsRope : List RegEntry :=
  [⟨R.ROPE_CTRL, [F.ROPE_CTRL_SRC]⟩,
   ⟨R.ROPE_STRAP, [F.ROPE_STRAP_HOLD, F.ROPE_STRAP_SEL]⟩,
   ⟨R.ROPE_STAT, [F.ROPE_STAT_STRAP_BAD, F.ROPE_STAT_SAFE_OFF, F.ROPE_STAT_CONFLICT]⟩,
   ⟨R.ROPE_MAP, [F.ROPE_MAP_EN, F.ROPE_MAP_CLK, F.ROPE_MAP_IN]⟩]

/-- Registers of the Dram window. -/
def regsDram : List RegEntry :=
  [⟨R.DRAM_DLY_CTRL, [F.DRAM_DLY_CTRL_EN]⟩,
   ⟨R.DRAM_DLY_STAT, [F.DRAM_DLY_STAT_LATE, F.DRAM_DLY_STAT_DONE]⟩,
   ⟨R.DRAM_DLY_PEAK, [F.DRAM_DLY_PEAK_PEAK]⟩,
   ⟨R.DRAM_DLY_LATECNT, [F.DRAM_DLY_LATECNT_COUNT]⟩,
   ⟨R.DRAM_DLY_LINE, [F.DRAM_DLY_LINE_EN, F.DRAM_DLY_LINE_GAL, F.DRAM_DLY_LINE_IN_ADDR, F.DRAM_DLY_LINE_BASE, F.DRAM_DLY_LINE_GROUPS]⟩,
   ⟨R.DRAM_DLY_TAP, [F.DRAM_DLY_TAP_EN, F.DRAM_DLY_TAP_LINE, F.DRAM_DLY_TAP_GAL, F.DRAM_DLY_TAP_OUT_ADDR, F.DRAM_DLY_TAP_DELAY]⟩,
   ⟨R.DRAM_CFG, [F.DRAM_CFG_SIZE, F.DRAM_CFG_RANKS, F.DRAM_CFG_RATE]⟩,
   ⟨R.DRAM_CTRL, [F.DRAM_CTRL_INIT]⟩,
   ⟨R.DRAM_STAT, [F.DRAM_STAT_SR, F.DRAM_STAT_FAIL, F.DRAM_STAT_BUSY, F.DRAM_STAT_READY]⟩]

/-- Registers of the Pdm window. -/
def regsPdm : List RegEntry :=
  [⟨R.PDM_CLK, [F.PDM_CLK_EN, F.PDM_CLK_DIV]⟩,
   ⟨R.PDM_LINE, [F.PDM_LINE_EN, F.PDM_LINE_CLK]⟩,
   ⟨R.DEC_MIC, [F.DEC_MIC_FINE_EN, F.DEC_MIC_FAST_EN, F.DEC_MIC_ORDER, F.DEC_MIC_RLOG, F.DEC_MIC_H, F.DEC_MIC_INV, F.DEC_MIC_GAIN, F.DEC_MIC_THR, F.DEC_MIC_HYST, F.DEC_MIC_TPATH, F.DEC_MIC_TEN, F.DEC_MIC_MUTE_MS]⟩,
   ⟨R.DEC_OVR, [F.DEC_OVR_OVR]⟩,
   ⟨R.DEC_THR, [F.DEC_THR_ABOVE]⟩,
   ⟨R.DEC_THR_CHG, [F.DEC_THR_CHG_CHG]⟩,
   ⟨R.DEC_MUTED, [F.DEC_MUTED_MUTED]⟩,
   ⟨R.DEC_GD, [F.DEC_GD_GD]⟩,
   ⟨R.DEC_ID_CFG, [F.DEC_ID_CFG_SHAPE, F.DEC_ID_CFG_MODE, F.DEC_ID_CFG_PQUEUE]⟩,
   ⟨R.DEC_ID_TIME, [F.DEC_ID_TIME_UPD_T, F.DEC_ID_TIME_FADE_T, F.DEC_ID_TIME_COMP_T]⟩,
   ⟨R.DEC_ID_LIMIT, [F.DEC_ID_LIMIT_BOUND, F.DEC_ID_LIMIT_STEP]⟩,
   ⟨R.DEC_ID_CMD, [F.DEC_ID_CMD_ZERO]⟩,
   ⟨R.DEC_ID_STAT, [F.DEC_ID_STAT_BADPROP]⟩,
   ⟨R.DEC_ID_CLAMP, [F.DEC_ID_CLAMP_CLAMP]⟩,
   ⟨R.DEC_ID_FRZ, [F.DEC_ID_FRZ_FRZ]⟩,
   ⟨R.DEC_ID_CH, [F.DEC_ID_CH_EN, F.DEC_ID_CH_MIC, F.DEC_ID_CH_GAL, F.DEC_ID_CH_SEL, F.DEC_ID_CH_BANDS, F.DEC_ID_CH_GQUEUE]⟩,
   ⟨R.DEC_ID_PROP, [F.DEC_ID_PROP_TRIM]⟩,
   ⟨R.DEC_ID_TRIM, [F.DEC_ID_TRIM_TRIM]⟩]

/-- Registers of the Sap window. -/
def regsSap : List RegEntry :=
  [⟨R.SAP_CLK, [F.SAP_CLK_MST, F.SAP_CLK_FMT, F.SAP_CLK_FSD, F.SAP_CLK_SCKINV, F.SAP_CLK_FSINV, F.SAP_CLK_SLOTW, F.SAP_CLK_NSLOT]⟩,
   ⟨R.SAP_RXCFG, [F.SAP_RXCFG_EN, F.SAP_RXCFG_ARM, F.SAP_RXCFG_MODE, F.SAP_RXCFG_POLICY, F.SAP_RXCFG_CKPORT, F.SAP_RXCFG_BASE]⟩,
   ⟨R.SAP_TXCFG, [F.SAP_TXCFG_EN, F.SAP_TXCFG_ARM, F.SAP_TXCFG_MODE, F.SAP_TXCFG_POLICY, F.SAP_TXCFG_TRI, F.SAP_TXCFG_CKPORT, F.SAP_TXCFG_BASE]⟩,
   ⟨R.SAP_RXSLOT, [F.SAP_RXSLOT_MASK]⟩,
   ⟨R.SAP_TXSLOT, [F.SAP_TXSLOT_MASK]⟩,
   ⟨R.SAP_ASRC, [F.SAP_ASRC_TXDLY, F.SAP_ASRC_RXDLY]⟩,
   ⟨R.SAP_STAT, [F.SAP_STAT_TXSTATE, F.SAP_STAT_TXRANGE, F.SAP_STAT_TXFRMERR, F.SAP_STAT_TXPHASE, F.SAP_STAT_TXEXC, F.SAP_STAT_TXUND, F.SAP_STAT_RXSTATE, F.SAP_STAT_RXRANGE, F.SAP_STAT_RXPHASE, F.SAP_STAT_RXFRMERR, F.SAP_STAT_RXEXC, F.SAP_STAT_RXUND]⟩,
   ⟨R.SAP_PHASE, [F.SAP_PHASE_TX, F.SAP_PHASE_RX]⟩,
   ⟨R.SAP_RXSTAMP, [F.SAP_RXSTAMP_TICK, F.SAP_RXSTAMP_OFS]⟩,
   ⟨R.SAP_TXSTAMP, [F.SAP_TXSTAMP_TICK, F.SAP_TXSTAMP_OFS]⟩,
   ⟨R.SAP_RXRATIO, [F.SAP_RXRATIO_RATIO]⟩,
   ⟨R.SAP_TXRATIO, [F.SAP_TXRATIO_RATIO]⟩,
   ⟨R.SAP_UNDCNT, [F.SAP_UNDCNT_TX, F.SAP_UNDCNT_RX]⟩,
   ⟨R.SAP_START_RX, [F.SAP_START_RX_PORTS]⟩,
   ⟨R.SAP_START_TX, [F.SAP_START_TX_PORTS]⟩,
   ⟨R.SAP_START_AT, [F.SAP_START_AT_AT]⟩,
   ⟨R.SAP_START_CMD, [F.SAP_START_CMD_ATEN, F.SAP_START_CMD_GO]⟩,
   ⟨R.SAP_START_STAT, [F.SAP_START_STAT_PEND, F.SAP_START_STAT_LATE, F.SAP_START_STAT_SKIP]⟩,
   ⟨R.SAP_START_LAST, [F.SAP_START_LAST_TICK]⟩,
   ⟨R.SAP_UND_RX, [F.SAP_UND_RX_UND]⟩,
   ⟨R.SAP_UND_TX, [F.SAP_UND_TX_UND]⟩]

/-- Registers of the Mod window. -/
def regsMod : List RegEntry :=
  [⟨R.MOD_CFG, [F.MOD_CFG_CAR, F.MOD_CFG_CARIN, F.MOD_CFG_NOC, F.MOD_CFG_MMAX]⟩,
   ⟨R.MOD_RAMP, [F.MOD_RAMP_DRAMP, F.MOD_RAMP_URAMP]⟩,
   ⟨R.MOD_DIAG, [F.MOD_DIAG_VTEST, F.MOD_DIAG_ILEAK, F.MOD_DIAG_ROPEN, F.MOD_DIAG_RSHORT]⟩,
   ⟨R.MOD_START, [F.MOD_START_CH]⟩,
   ⟨R.MOD_STOP, [F.MOD_STOP_CH]⟩,
   ⟨R.MOD_FCLR, [F.MOD_FCLR_CH]⟩,
   ⟨R.MOD_OCST, [F.MOD_OCST_CH]⟩,
   ⟨R.MOD_CLIPST, [F.MOD_CLIPST_CH]⟩,
   ⟨R.MOD_CH, [F.MOD_CH_SILEN, F.MOD_CH_SILDET, F.MOD_CH_DIAG_EN, F.MOD_CH_SLEW, F.MOD_CH_PHASE, F.MOD_CH_GROUP, F.MOD_CH_VFS, F.MOD_CH_IMAX]⟩,
   ⟨R.MOD_STAT, [F.MOD_STAT_DIAG, F.MOD_STAT_FCAUSE, F.MOD_STAT_STATE]⟩,
   ⟨R.RAIL_GCFG, [F.RAIL_GCFG_EN, F.RAIL_GCFG_MODE, F.RAIL_GCFG_LOOK, F.RAIL_GCFG_LEADBUS, F.RAIL_GCFG_RISE, F.RAIL_GCFG_FALL]⟩,
   ⟨R.RAIL_GV, [F.RAIL_GV_KV, F.RAIL_GV_VOFS, F.RAIL_GV_VFLOOR, F.RAIL_GV_VCEIL]⟩,
   ⟨R.RAIL_GV2, [F.RAIL_GV2_VPARK, F.RAIL_GV2_VDIAG, F.RAIL_GV2_VSAFE, F.RAIL_GV2_VSET]⟩,
   ⟨R.RAIL_STAT, [F.RAIL_STAT_DONE, F.RAIL_STAT_STATE, F.RAIL_STAT_TARGET, F.RAIL_STAT_VCMD, F.RAIL_STAT_MEAS]⟩]

/-- Registers of the Sense window. -/
def regsSense : List RegEntry :=
  [⟨R.SENSE_CTRL, [F.SENSE_CTRL_EN]⟩,
   ⟨R.SENSE_PT, [F.SENSE_PT_EN, F.SENSE_PT_KIND, F.SENSE_PT_OWNER, F.SENSE_PT_SCALE]⟩,
   ⟨R.SENSE_VAL, [F.SENSE_VAL_VALID, F.SENSE_VAL_CODE]⟩,
   ⟨R.SENSE_BAD, [F.SENSE_BAD_BAD]⟩]

/-- Registers of the Pool window. -/
def regsPool : List RegEntry :=
  [⟨R.POOL_STAT, [F.POOL_STAT_UNRES, F.POOL_STAT_FREE]⟩,
   ⟨R.POOL_WM, [F.POOL_WM_LO, F.POOL_WM_HYS]⟩,
   ⟨R.POOL_WMSTAT, [F.POOL_WMSTAT_CLOSED, F.POOL_WMSTAT_CROSSED, F.POOL_WMSTAT_ABOVE]⟩,
   ⟨R.POOL_ERR, [F.POOL_ERR_VALID, F.POOL_ERR_CODE, F.POOL_ERR_REQ, F.POOL_ERR_COUNT, F.POOL_ERR_CELL]⟩,
   ⟨R.POOL_SELQ, [F.POOL_SELQ_QUEUE]⟩,
   ⟨R.POOL_ALLOC, [F.POOL_ALLOC_OK, F.POOL_ALLOC_CELL]⟩,
   ⟨R.POOL_PUSH, [F.POOL_PUSH_LAST, F.POOL_PUSH_CELL]⟩,
   ⟨R.POOL_FREE, [F.POOL_FREE_CELL]⟩,
   ⟨R.POOL_POP, [F.POOL_POP_VALID, F.POOL_POP_LAST, F.POOL_POP_CELL]⟩,
   ⟨R.POOL_TRYPOP, [F.POOL_TRYPOP_VALID, F.POOL_TRYPOP_LAST, F.POOL_TRYPOP_CELL]⟩,
   ⟨R.POOL_QWORD, [F.POOL_QWORD_WORD]⟩,
   ⟨R.POOL_TAGSEL, [F.POOL_TAGSEL_CELL]⟩,
   ⟨R.POOL_TAG, [F.POOL_TAG_TAG]⟩,
   ⟨R.POOL_QIDX, [F.POOL_QIDX_Q]⟩,
   ⟨R.POOL_QCFG, [F.POOL_QCFG_EN, F.POOL_QCFG_KIND, F.POOL_QCFG_HOME, F.POOL_QCFG_STALL_LIM, F.POOL_QCFG_HYS, F.POOL_QCFG_HI, F.POOL_QCFG_RESV]⟩,
   ⟨R.POOL_QSTAT, [F.POOL_QSTAT_BROKEN, F.POOL_QSTAT_OVD, F.POOL_QSTAT_CROSSED, F.POOL_QSTAT_ABOVE, F.POOL_QSTAT_DEPTH, F.POOL_QSTAT_USED, F.POOL_QSTAT_OVDCNT]⟩,
   ⟨R.POOL_QHIGH, [F.POOL_QHIGH_CROSSED]⟩,
   ⟨R.POOL_LPORT, [F.POOL_LPORT_EN, F.POOL_LPORT_DIR, F.POOL_LPORT_QUEUE]⟩]

/-- Registers of the Eth window. -/
def regsEth : List RegEntry :=
  [⟨R.ETH_PCFG, [F.ETH_PCFG_EN, F.ETH_PCFG_MODE, F.ETH_PCFG_FEC, F.ETH_PCFG_AN, F.ETH_PCFG_PCP, F.ETH_PCFG_PVID]⟩,
   ⟨R.ETH_PSTAT, [F.ETH_PSTAT_LINKCHG, F.ETH_PSTAT_LINK]⟩,
   ⟨R.ETH_PQMAP, [F.ETH_PQMAP_CLASS0, F.ETH_PQMAP_CLASS1, F.ETH_PQMAP_CLASS2, F.ETH_PQMAP_CLASS3, F.ETH_PQMAP_CLASS4, F.ETH_PQMAP_CLASS5, F.ETH_PQMAP_CLASS6, F.ETH_PQMAP_CLASS7]⟩,
   ⟨R.ETH_PQ, [F.ETH_PQ_EGLIM, F.ETH_PQ_RXQ]⟩,
   ⟨R.ETH_PCNT, [F.ETH_PCNT_COUNT]⟩,
   ⟨R.ETH_P4RX, [F.ETH_P4RX_QUEUE]⟩,
   ⟨R.ETH_P4TX, [F.ETH_P4TX_QUEUE]⟩,
   ⟨R.ETH_SWCFG, [F.ETH_SWCFG_GATE_EN, F.ETH_SWCFG_MAXLEN]⟩,
   ⟨R.ETH_GATE, [F.ETH_GATE_CLOSE, F.ETH_GATE_OPEN]⟩,
   ⟨R.ETH_MAC, [F.ETH_MAC_ADDR]⟩,
   ⟨R.ETH_AT_KEY, [F.ETH_AT_KEY_VIDANY, F.ETH_AT_KEY_VID, F.ETH_AT_KEY_MAC]⟩,
   ⟨R.ETH_AT_MASK, [F.ETH_AT_MASK_MASK]⟩,
   ⟨R.ETH_AT_ACT, [F.ETH_AT_ACT_VALID, F.ETH_AT_ACT_PRIO, F.ETH_AT_ACT_ACTION, F.ETH_AT_ACT_PORTS]⟩,
   ⟨R.ETH_AT_CMD, [F.ETH_AT_CMD_OP, F.ETH_AT_CMD_INDEX]⟩,
   ⟨R.ETH_VLAN, [F.ETH_VLAN_EN, F.ETH_VLAN_FLOOD, F.ETH_VLAN_UNTAG, F.ETH_VLAN_MEMBER, F.ETH_VLAN_VID]⟩,
   ⟨R.ETH_WAKE_CFG, [F.ETH_WAKE_CFG_EN, F.ETH_WAKE_CFG_SRC, F.ETH_WAKE_CFG_CRC]⟩,
   ⟨R.ETH_WAKE_MASK, [F.ETH_WAKE_MASK_MASK]⟩,
   ⟨R.ETH_WAKE_STAT, [F.ETH_WAKE_STAT_LAST, F.ETH_WAKE_STAT_HIT]⟩,
   ⟨R.ETH_MGMT, [F.ETH_MGMT_EN, F.ETH_MGMT_VIDCHK, F.ETH_MGMT_VID, F.ETH_MGMT_ETYPE]⟩,
   ⟨R.ETH_MGMT_Q, [F.ETH_MGMT_Q_TMO, F.ETH_MGMT_Q_QUEUE]⟩,
   ⟨R.ETH_MGMT_CNT, [F.ETH_MGMT_CNT_BAD, F.ETH_MGMT_CNT_DONE]⟩]

/-- Registers of the T1s window. -/
def regsT1s : List RegEntry :=
  [⟨R.T1S_CFG, [F.T1S_CFG_EN, F.T1S_CFG_PLCA, F.T1S_CFG_NODECNT, F.T1S_CFG_TO]⟩,
   ⟨R.T1S_CNT, [F.T1S_CNT_COUNT]⟩,
   ⟨R.EZ_CFG, [F.EZ_CFG_EN, F.EZ_CFG_ETYPE]⟩,
   ⟨R.EZ_TIME, [F.EZ_TIME_POLL_MS, F.EZ_TIME_TIMEOUT, F.EZ_TIME_RETRY, F.EZ_TIME_MISS]⟩,
   ⟨R.EZ_Q, [F.EZ_Q_RPLQ, F.EZ_Q_CMDQ]⟩,
   ⟨R.EZ_PRESENT, [F.EZ_PRESENT_PRESENT]⟩,
   ⟨R.EZ_LOST, [F.EZ_LOST_LOST]⟩,
   ⟨R.EZ_CNT, [F.EZ_CNT_EZ_STRAY, F.EZ_CNT_EZ_BAD]⟩,
   ⟨R.EZ_ELEM, [F.EZ_ELEM_EN, F.EZ_ELEM_LASTSEQ]⟩]

/-- Registers of the Clt window. -/
def regsClt : List RegEntry :=
  [⟨R.CLT_CFG, [F.CLT_CFG_BUFQ, F.CLT_CFG_ETYPE]⟩,
   ⟨R.CLT_UDP, [F.CLT_UDP_PORT]⟩,
   ⟨R.CLT_IP, [F.CLT_IP_ADDR]⟩,
   ⟨R.CLT_IPCFG, [F.CLT_IPCFG_DSCP, F.CLT_IPCFG_TTL]⟩,
   ⟨R.CLT_ID, [F.CLT_ID_PAIR, F.CLT_ID_NODE]⟩,
   ⟨R.CLT_STAT, [F.CLT_STAT_ACCEPT]⟩,
   ⟨R.CLT_EARLY, [F.CLT_EARLY_COUNT]⟩,
   ⟨R.CLT_RXCFG, [F.CLT_RXCFG_EN, F.CLT_RXCFG_KIND, F.CLT_RXCFG_POLICY, F.CLT_RXCFG_WSZ, F.CLT_RXCFG_SPP, F.CLT_RXCFG_CHM1, F.CLT_RXCFG_BASE, F.CLT_RXCFG_LAT]⟩,
   ⟨R.CLT_TXCFG, [F.CLT_TXCFG_EN, F.CLT_TXCFG_KIND, F.CLT_TXCFG_BOTH, F.CLT_TXCFG_WSZ, F.CLT_TXCFG_SPP, F.CLT_TXCFG_CHM1, F.CLT_TXCFG_BASE, F.CLT_TXCFG_T, F.CLT_TXCFG_PRES]⟩,
   ⟨R.CLT_RXKEY, [F.CLT_RXKEY_KEY]⟩,
   ⟨R.CLT_TXKEY, [F.CLT_TXKEY_KEY]⟩,
   ⟨R.CLT_RXAUX, [F.CLT_RXAUX_SSRC, F.CLT_RXAUX_ROFS]⟩,
   ⟨R.CLT_TXAUX, [F.CLT_TXAUX_SSRC, F.CLT_TXAUX_ROFS]⟩,
   ⟨R.CLT_RXCNT, [F.CLT_RXCNT_COUNT]⟩,
   ⟨R.CLT_RXSTAT, [F.CLT_RXSTAT_STATE]⟩,
   ⟨R.CLT_TXDST, [F.CLT_TXDST_TAG, F.CLT_TXDST_PCP, F.CLT_TXDST_VID, F.CLT_TXDST_MAC]⟩,
   ⟨R.CLT_TXCNT, [F.CLT_TXCNT_COUNT]⟩,
   ⟨R.CLT_POL, [F.CLT_POL_BURST, F.CLT_POL_RATE]⟩,
   ⟨R.CLT_POLDROP, [F.CLT_POLDROP_COUNT]⟩]

/-- Registers of the Ptp window. -/
def regsPtp : List RegEntry :=
  [⟨R.PTP_TIME_FRAC, [F.PTP_TIME_FRAC_FRAC]⟩,
   ⟨R.PTP_TIME_NS, [F.PTP_TIME_NS_NS]⟩,
   ⟨R.PTP_TIME_SECLO, [F.PTP_TIME_SECLO_SECLO]⟩,
   ⟨R.PTP_TIME_SECHI, [F.PTP_TIME_SECHI_SECHI]⟩,
   ⟨R.PTP_CFG, [F.PTP_CFG_EN, F.PTP_CFG_PROFILE, F.PTP_CFG_UDP, F.PTP_CFG_SLAVE_ONLY, F.PTP_CFG_DOMAIN]⟩,
   ⟨R.PTP_DS, [F.PTP_DS_PRIO1, F.PTP_DS_PRIO2, F.PTP_DS_CLASS, F.PTP_DS_ACCURACY]⟩,
   ⟨R.PTP_INTV, [F.PTP_INTV_SYNC, F.PTP_INTV_ANNOUNCE, F.PTP_INTV_DELAY, F.PTP_INTV_ANN_TO, F.PTP_INTV_SYNC_TO]⟩,
   ⟨R.PTP_QUAL, [F.PTP_QUAL_QUAL_MS, F.PTP_QUAL_QUAL_N]⟩,
   ⟨R.PTP_STEP, [F.PTP_STEP_STEP_NS]⟩,
   ⟨R.PTP_STAT, [F.PTP_STAT_QUAL, F.PTP_STAT_STEP_PEND, F.PTP_STAT_GM, F.PTP_STAT_SYNC_LOST, F.PTP_STAT_GMCHG, F.PTP_STAT_SLAVEPORT]⟩,
   ⟨R.PTP_OFS, [F.PTP_OFS_OFFSET]⟩,
   ⟨R.PTP_MPD, [F.PTP_MPD_DELAY]⟩,
   ⟨R.PTP_GMID, [F.PTP_GMID_ID]⟩,
   ⟨R.PTP_STEPCNT, [F.PTP_STEPCNT_COUNT]⟩,
   ⟨R.PTP_PCFG, [F.PTP_PCFG_EN, F.PTP_PCFG_ONESTEP]⟩,
   ⟨R.PTP_PSTAT, [F.PTP_PSTAT_STATE]⟩,
   ⟨R.PTP_PCORR, [F.PTP_PCORR_EGR_PS, F.PTP_PCORR_ING_PS]⟩,
   ⟨R.PTP_PCNT, [F.PTP_PCNT_COUNT]⟩,
   ⟨R.PTP_EVT_CTRL, [F.PTP_EVT_CTRL_EN, F.PTP_EVT_CTRL_MODE, F.PTP_EVT_CTRL_POL, F.PTP_EVT_CTRL_LATE, F.PTP_EVT_CTRL_ACTIVE]⟩,
   ⟨R.PTP_EVT_SEC, [F.PTP_EVT_SEC_SEC]⟩,
   ⟨R.PTP_EVT_NS, [F.PTP_EVT_NS_NS]⟩,
   ⟨R.PTP_EVT_PER, [F.PTP_EVT_PER_PERIOD]⟩,
   ⟨R.PTP_EVT_WID, [F.PTP_EVT_WID_WIDTH]⟩,
   ⟨R.PTP_CAP_CFG, [F.PTP_CAP_CFG_EN, F.PTP_CAP_CFG_EDGE]⟩,
   ⟨R.PTP_CAP_HEAD, [F.PTP_CAP_HEAD_VALID, F.PTP_CAP_HEAD_RISE, F.PTP_CAP_HEAD_LEVEL]⟩,
   ⟨R.PTP_CAP_TS, [F.PTP_CAP_TS_TS]⟩,
   ⟨R.PTP_CAP_OVF, [F.PTP_CAP_OVF_COUNT]⟩]

/-- Registers of the Clk window. -/
def regsClk : List RegEntry :=
  [⟨R.CLK_CTRL, [F.CLK_CTRL_INSVC, F.CLK_CTRL_FREERUN]⟩,
   ⟨R.CLK_STAT, [F.CLK_STAT_PLLOK, F.CLK_STAT_HISTOK, F.CLK_STAT_STEP, F.CLK_STAT_REF, F.CLK_STAT_STATE]⟩,
   ⟨R.CLK_HIST, [F.CLK_HIST_UNLOCK, F.CLK_HIST_SWITCH, F.CLK_HIST_ENTERED]⟩,
   ⟨R.CLK_REFCFG, [F.CLK_REFCFG_REVERT, F.CLK_REFCFG_FORCE_EN, F.CLK_REFCFG_FORCE, F.CLK_REFCFG_WTR]⟩,
   ⟨R.CLK_REFPRIO, [F.CLK_REFPRIO_PRIO0, F.CLK_REFPRIO_PRIO1, F.CLK_REFPRIO_PRIO2, F.CLK_REFPRIO_PRIO3]⟩,
   ⟨R.CLK_REFSTAT, [F.CLK_REFSTAT_LOST, F.CLK_REFSTAT_VALID]⟩,
   ⟨R.CLK_REF1, [F.CLK_REF1_RATE, F.CLK_REF1_REF1_OFS]⟩,
   ⟨R.CLK_REF2, [F.CLK_REF2_PORT]⟩,
   ⟨R.CLK_REF3, [F.CLK_REF3_TEN, F.CLK_REF3_MULT, F.CLK_REF3_REF3_OFS]⟩,
   ⟨R.CLK_FRANGE, [F.CLK_FRANGE_QMS, F.CLK_FRANGE_FRANGE]⟩,
   ⟨R.CLK_SLEW, [F.CLK_SLEW_PPM]⟩,
   ⟨R.CLK_Y, [F.CLK_Y_Y]⟩,
   ⟨R.CLK_PHERR, [F.CLK_PHERR_ERR]⟩,
   ⟨R.CLK_HOLD, [F.CLK_HOLD_DRIFT, F.CLK_HOLD_E0]⟩,
   ⟨R.CLK_HOLDNS, [F.CLK_HOLDNS_HOLD_NS]⟩,
   ⟨R.CLK_HOLD_LEFT, [F.CLK_HOLD_LEFT_MS]⟩,
   ⟨R.CLK_FR, [F.CLK_FR_PPB]⟩,
   ⟨R.CLK_PLLA, [F.CLK_PLLA_FSEL]⟩,
   ⟨R.CLK_SEED, [F.CLK_SEED_SEED]⟩,
   ⟨R.CLK_DITHER_CTRL, [F.CLK_DITHER_CTRL_EN]⟩,
   ⟨R.CLK_ALIGN, [F.CLK_ALIGN_OUT]⟩,
   ⟨R.CLK_ALIGNPEND, [F.CLK_ALIGNPEND_PEND]⟩,
   ⟨R.CLK_OUT, [F.CLK_OUT_EN, F.CLK_OUT_POL, F.CLK_OUT_LEVEL, F.CLK_OUT_FMT]⟩,
   ⟨R.CLK_OUTMIS, [F.CLK_OUTMIS_MIS]⟩]

/-- Registers of the Pair window. -/
def regsPair : List RegEntry :=
  [⟨R.PAIR_CFG, [F.PAIR_CFG_EN, F.PAIR_CFG_TAKE_CHECK, F.PAIR_CFG_PRST_EN, F.PAIR_CFG_RESYNC_LIM, F.PAIR_CFG_START_MS]⟩,
   ⟨R.PAIR_CMD, [F.PAIR_CMD_PRESET, F.PAIR_CMD_HANDOVER, F.PAIR_CMD_JOIN_UPD, F.PAIR_CMD_JOIN, F.PAIR_CMD_OUT]⟩,
   ⟨R.PAIR_STAT, [F.PAIR_STAT_SIDE, F.PAIR_STAT_LINK, F.PAIR_STAT_OWN, F.PAIR_STAT_POWN, F.PAIR_STAT_PSTATE, F.PAIR_STAT_STATE]⟩,
   ⟨R.PAIR_HIST, [F.PAIR_HIST_BOTH_FAULT, F.PAIR_HIST_SUSPECT, F.PAIR_HIST_TAKEOVER, F.PAIR_HIST_RELEASE, F.PAIR_HIST_LEASE_LOST, F.PAIR_HIST_LINK_DOWN, F.PAIR_HIST_PATCH_LATE, F.PAIR_HIST_SYNCED]⟩,
   ⟨R.PAIR_PATCH, [F.PAIR_PATCH_NS]⟩,
   ⟨R.PAIR_CONV, [F.PAIR_CONV_CONV_T]⟩,
   ⟨R.PAIR_MATCH, [F.PAIR_MATCH_RESYNC, F.PAIR_MATCH_RUN]⟩,
   ⟨R.PAIR_FLAGS, [F.PAIR_FLAGS_TICK, F.PAIR_FLAGS_PARTNER, F.PAIR_FLAGS_OWN]⟩,
   ⟨R.PAIR_DIG, [F.PAIR_DIG_DIGEST]⟩,
   ⟨R.PAIR_PDIG, [F.PAIR_PDIG_DIGEST]⟩,
   ⟨R.PAIR_MISMATCH, [F.PAIR_MISMATCH_TICK, F.PAIR_MISMATCH_VALID, F.PAIR_MISMATCH_CHAMBERS]⟩,
   ⟨R.PAIR_CNT, [F.PAIR_CNT_COUNT]⟩]

/-- Registers of the Sump window. -/
def regsSump : List RegEntry :=
  [⟨R.SUMP_STAT, [F.SUMP_STAT_SELF, F.SUMP_STAT_CLEAR_REFUSED, F.SUMP_STAT_CHANNEL, F.SUMP_STAT_DEGRADED, F.SUMP_STAT_STATE]⟩,
   ⟨R.SUMP_CTRL, [F.SUMP_CTRL_HCLR, F.SUMP_CTRL_EXIT]⟩,
   ⟨R.SUMP_REFUSED, [F.SUMP_REFUSED_COUNT, F.SUMP_REFUSED_EVENT]⟩,
   ⟨R.SUMP_HIST_STAT, [F.SUMP_HIST_STAT_OVF, F.SUMP_HIST_STAT_COUNT, F.SUMP_HIST_STAT_NEXT]⟩,
   ⟨R.SUMP_LOST, [F.SUMP_LOST_COUNT]⟩,
   ⟨R.SUMP_HIST, [F.SUMP_HIST_ENTRY]⟩,
   ⟨R.SUMP_EVSTAT, [F.SUMP_EVSTAT_RAISED]⟩,
   ⟨R.SUMP_EVCNT, [F.SUMP_EVCNT_COUNT]⟩,
   ⟨R.SUMP_EVCFG, [F.SUMP_EVCFG_LOG, F.SUMP_EVCFG_INT1, F.SUMP_EVCFG_INT0, F.SUMP_EVCFG_CLASS]⟩]

/-- Registers of the Strata window. -/
def regsStrata : List RegEntry :=
  [⟨R.STRATA_STAT, [F.STRATA_STAT_LOCKED, F.STRATA_STAT_DEFAULT, F.STRATA_STAT_WARM, F.STRATA_STAT_CAUSE, F.STRATA_STAT_BOOT]⟩,
   ⟨R.STRATA_ICW, [F.STRATA_ICW_ICW]⟩,
   ⟨R.STRATA_OVL, [F.STRATA_OVL_BAD, F.STRATA_OVL_PRESENT]⟩,
   ⟨R.STRATA_MODE, [F.STRATA_MODE_XF, F.STRATA_MODE_SHAPE, F.STRATA_MODE_FSEL, F.STRATA_MODE_F, F.STRATA_MODE_FS]⟩,
   ⟨R.STRATA_SEL, [F.STRATA_SEL_SRC, F.STRATA_SEL_INDEX]⟩,
   ⟨R.STRATA_TRIG, [F.STRATA_TRIG_MODE, F.STRATA_TRIG_EVIN]⟩,
   ⟨R.STRATA_AT, [F.STRATA_AT_AT]⟩,
   ⟨R.STRATA_CMD, [F.STRATA_CMD_DISARM, F.STRATA_CMD_GO, F.STRATA_CMD_ARM]⟩,
   ⟨R.STRATA_SWSTAT, [F.STRATA_SWSTAT_STATE, F.STRATA_SWSTAT_RESULT, F.STRATA_SWSTAT_REFCNT, F.STRATA_SWSTAT_ASRC, F.STRATA_SWSTAT_ACTIVE]⟩,
   ⟨R.STRATA_GCMD, [F.STRATA_GCMD_GO, F.STRATA_GCMD_GAL, F.STRATA_GCMD_SRC, F.STRATA_GCMD_RET_T, F.STRATA_GCMD_INDEX]⟩,
   ⟨R.STRATA_GSTAT, [F.STRATA_GSTAT_OUT, F.STRATA_GSTAT_GAL, F.STRATA_GSTAT_BUSY, F.STRATA_GSTAT_RESULT]⟩]

/-- Registers of the Pwr window. -/
def regsPwr : List RegEntry :=
  [⟨R.PWR_STAT, [F.PWR_STAT_ABORTS, F.PWR_STAT_MUTED, F.PWR_STAT_SD, F.PWR_STAT_PHASE]⟩,
   ⟨R.PWR_BOOT, [F.PWR_BOOT_PTPWAIT, F.PWR_BOOT_EMIXSRC, F.PWR_BOOT_EMIXFMT, F.PWR_BOOT_EMIXSEL]⟩,
   ⟨R.PWR_MCFG, [F.PWR_MCFG_SD_EN, F.PWR_MCFG_DWELL, F.PWR_MCFG_NRET, F.PWR_MCFG_NLOW, F.PWR_MCFG_RET, F.PWR_MCFG_LOW]⟩,
   ⟨R.PWR_MSTAT, [F.PWR_MSTAT_BELOW, F.PWR_MSTAT_VPK]⟩,
   ⟨R.PWR_MUTE, [F.PWR_MUTE_SW, F.PWR_MUTE_MRAMP]⟩,
   ⟨R.PWR_INCFG, [F.PWR_INCFG_POL, F.PWR_INCFG_WAKE, F.PWR_INCFG_STUCK, F.PWR_INCFG_DEB]⟩,
   ⟨R.PWR_INSTAT, [F.PWR_INSTAT_STUCK, F.PWR_INSTAT_ACTIVE, F.PWR_INSTAT_RAW]⟩,
   ⟨R.PWR_INOVF, [F.PWR_INOVF_COUNT]⟩,
   ⟨R.PWR_JHOST, [F.PWR_JHOST_HLEN, F.PWR_JHOST_HADDR]⟩,
   ⟨R.PWR_LP, [F.PWR_LP_LISTEN]⟩,
   ⟨R.PWR_KACFG, [F.PWR_KACFG_CLK, F.PWR_KACFG_TAMPER_EN, F.PWR_KACFG_MWAKE, F.PWR_KACFG_AWAKE]⟩,
   ⟨R.PWR_KALATCH, [F.PWR_KALATCH_KAPOR, F.PWR_KALATCH_ALARM, F.PWR_KALATCH_MAINS, F.PWR_KALATCH_TAMPER, F.PWR_KALATCH_LWAKE]⟩,
   ⟨R.PWR_KACNT, [F.PWR_KACNT_COUNT]⟩,
   ⟨R.PWR_KAALARM, [F.PWR_KAALARM_ALARM]⟩]

/-- Registers of the Hcp window. -/
def regsHcp : List RegEntry :=
  [⟨R.HCP_CFG, [F.HCP_CFG_INTOD, F.HCP_CFG_QEN]⟩,
   ⟨R.HCP_STAT, [F.HCP_STAT_PEND, F.HCP_STAT_CODE, F.HCP_STAT_ERRSEEN, F.HCP_STAT_INT1, F.HCP_STAT_INT0]⟩,
   ⟨R.HCP_CNT, [F.HCP_CNT_ERRORS, F.HCP_CNT_TRANS]⟩]

/-- The register table of the window that an address lies in: the 64 KiB block of a chip peripheral (R10), the gallery
register window (R53), the chamber registers (R54) or the lane registers of a slot (R51). -/
def regTableAt (a : Nat) : List RegEntry :=
  if a < 0x10000000 then
    (if a % 0x1000000 < 0x440000 then regsLane else regsGal)
  else if a < 0x14000000 then regsChm
  else match a / 0x10000 with
    | 0x2001 => regsTick
    | 0x2004 => regsXbar
    | 0x2000 => regsSys
    | 0x2005 => regsRoute
    | 0x2006 => regsRope
    | 0x2012 => regsDram
    | 0x2008 => regsPdm
    | 0x2007 => regsSap
    | 0x2009 => regsMod
    | 0x200A => regsSense
    | 0x200B => regsPool
    | 0x200C => regsEth
    | 0x200D => regsT1s
    | 0x200E => regsClt
    | 0x200F => regsPtp
    | 0x2010 => regsClk
    | 0x2011 => regsPair
    | 0x2003 => regsSump
    | 0x2002 => regsStrata
    | 0x2014 => regsPwr
    | 0x2013 => regsHcp
    | _ => []

/-- Every register. -/
def regTable : List RegEntry :=
  regsTick ++ regsXbar ++ regsGal ++ regsChm ++ regsLane ++ regsSys ++ regsRoute ++ regsRope ++ regsDram ++ regsPdm ++ regsSap ++ regsMod ++ regsSense ++ regsPool ++ regsEth ++ regsT1s ++ regsClt ++ regsPtp ++ regsClk ++ regsPair ++ regsSump ++ regsStrata ++ regsPwr ++ regsHcp

end Sys2Proof.Machine
end

