-- ==== Sys2Proof/Machine/Maps.lean ====
section
/-! DEFINITION. Sparse maps: sorted lists of key and value, where a key that is not listed reads as a default.
Equal maps are equal lists, because a value equal to its default is never listed. -/

namespace Sys2Proof.Machine

/-- A sparse map: keys strictly rising. -/
abbrev SMap (α : Type) := List (Nat × α)

/-- The listed value of a key. -/
def smFind {α : Type} : SMap α → Nat → Option α
  | [], _ => none
  | (k, v) :: m, a => if a = k then some v else if a < k then none else smFind m a

/-- The value of a key, or its default. -/
def smGet {α : Type} (d : Nat → α) (m : SMap α) (a : Nat) : α := (smFind m a).getD (d a)

/-- Remove a key. -/
def smErase {α : Type} : SMap α → Nat → SMap α
  | [], _ => []
  | (k, v) :: m, a => if a = k then smErase m a else if a < k then (k, v) :: m else (k, v) :: smErase m a

/-- List a value at a key. -/
def smInsert {α : Type} : SMap α → Nat → α → SMap α
  | [], a, x => [(a, x)]
  | (k, v) :: m, a, x =>
    if a = k then (a, x) :: m else if a < k then (a, x) :: (k, v) :: m else (k, v) :: smInsert m a x

/-- Give a key a value; a value equal to the default of the key is not listed. -/
def smPut {α : Type} [DecidableEq α] (d : Nat → α) (m : SMap α) (a : Nat) (x : α) : SMap α :=
  if x = d a then smErase m a else smInsert m a x

/-- Every key of `m` is above `b`, and the keys rise strictly. -/
def smSortedAbove {α : Type} : Option Nat → SMap α → Bool
  | _, [] => true
  | none, (k, _) :: m => smSortedAbove (some k) m
  | some b, (k, _) :: m => decide (b < k) && smSortedAbove (some k) m

/-- The canonical form: keys strictly rising, and no value listed that equals its default. -/
def smWf {α : Type} [DecidableEq α] (d : Nat → α) (m : SMap α) : Bool :=
  smSortedAbove none m && m.all fun p => decide (p.2 ≠ d p.1)

/-- Change every listed value; a value that becomes its default is dropped. -/
def smMap {α : Type} [DecidableEq α] (d : Nat → α) (f : Nat → α → α) (m : SMap α) : SMap α :=
  m.foldl (fun acc p => smPut d acc p.1 (f p.1 p.2)) m

end Sys2Proof.Machine
end

