-- ==== Sys2Proof/Machine/State.lean ====
section
/-! DEFINITION. The state of the node as plain data, and the machine right after reset. -/

namespace Sys2Proof.Machine

/-! ### The matrices (02_hierarchy_and_matrices.md) -/

/-- A shadow write that waits for its edge (R27, R88): the element's address, the master that wrote it last, whether a
switch section holds it back until the switch edge (R556), whether it came in the edge cycle and is due one edge later, the
shadow value it then stands over that is due at the coming edge, with the master that wrote it, its number in the order of arrival (R28),
and the master of the waiting write that it overwrote, if any (R87). -/
structure ShWrite where
  addr : Nat
  master : Nat
  held : Bool
  late : Bool
  prev : Option (Nat × Nat)
  seq : Nat
  ousted : Option Nat
  deriving DecidableEq, Repr

/-- What the last read or write of a requester was answered with: the data words and whether it was an error response
(R74, R181). -/
structure Resp where
  data : List W64
  err : Bool
  deriving DecidableEq, Repr

/-- A lane-window access that waits until its lane is not released (R59, R60). -/
structure WaitAcc where
  who : Requester
  addr : Nat
  req : MatrixReq
  deriving DecidableEq, Repr

/-- State of the matrices. -/
structure BusState where
  /-- pair latches, keyed by requester ID × 2^32 + address of the latched word (R82) -/
  latch : SMap Word
  /-- pair write buffers, keyed alike by the low word (R83) -/
  wbuf : SMap Word
  /-- the master or port each matrix target is parked on, by the numbers of `chipTarget`, `chamberTarget` and `galleryTarget`;
  absent while unparked (R66) -/
  park : SMap Nat
  /-- the port each gallery-matrix target ranks highest; absent before its first grant (R61) -/
  rank : SMap Nat
  /-- suspended lane-window accesses, oldest first (R60) -/
  waiting : List WaitAcc
  /-- route writes stalled from the edge cycle until E1 ends, oldest first (R201) -/
  routeStall : List WaitAcc
  /-- the last answer to each requester, by requester ID -/
  resp : SMap Resp
  /-- the beats of that answer that were error responses, where there are any (R181) -/
  errBeats : SMap (List Nat)
  deriving DecidableEq, Repr

/-! ### Lanes (03_lane_datapath.md) -/

/-- The lane states of R130. -/
inductive LaneSt where
  | idle | wait | run | stall | halt | fault
  deriving DecidableEq, Repr

/-- Why a lane stalls beyond its own cycles: a gallery load, a gallery store, a queue read (R118). -/
inductive StallCause where
  | none | gld | gst | qrd
  deriving DecidableEq, Repr

/-- The registers a lane result can land in (R116). -/
inductive LaneDest where
  | d (i : Fin 16)
  | acc (i : Fin 4)
  | a (i : Fin 16)
  | m (i : Fin 16)
  | len (i : Fin 16)
  | flags
  deriving DecidableEq, Repr

/-- A result that has issued and is not yet visible everywhere (R116, R161): the issuing position, the first position that
reads it, and the first position that reads it as a multiply-accumulate operand. -/
structure PendRes where
  dest : LaneDest
  val : Nat
  issued : Nat
  at_ : Nat
  macAt : Nat
  deriving DecidableEq, Repr

/-- A store that a load at the next position does not see yet (R116). `y` selects Y memory. `old` is the word that this load still
reads, once a halt has written the store ahead of it. -/
structure PendStore where
  y : Bool
  addr : Nat
  val : W40
  issued : Nat
  old : Option W40
  deriving DecidableEq, Repr

/-- A level of the loop stack: first and last address of the body, the passes left, the current one included, and whether a pass
is complete (R119, R123). -/
structure RepLevel where
  first : Nat
  last : Nat
  left : Nat
  again : Bool
  deriving DecidableEq, Repr

/-- A lane slot: everything the program of the lane in it sees, and what the datapath holds (R92–R138). -/
structure Lane where
  st : LaneSt
  cause : StallCause
  /-- a step is in progress: the state to return to (R131) -/
  stepRet : Option LaneSt
  /-- address of the next instruction -/
  pc : Nat
  d : Vector W40 16
  acc : Vector W88 4
  a : Vector W18 16
  m : Vector W18 16
  len : Vector W18 16
  zf : Bool
  nf : Bool
  /-- issue position of the next instruction (R115) -/
  pos : Nat
  results : List PendRes
  stores : List PendStore
  reps : List RepLevel
  /-- loop cache: the address of each word it holds (R123) -/
  cache : List Nat
  rets : List Nat
  /-- cycles since the release, stall cycles since the release (R130) -/
  cyc : Nat
  stalls : Nat
  /-- the instruction issued last held an SX or SY store (R118, R160) -/
  lastStore : Bool
  /-- stopped in E0 of the edge in progress (R32) -/
  stopped : Bool
  /-- an accumulator wrapped since the last edge (R94) -/
  aov : Bool
  /-- LANE_CFG_ERR has been raised for the configuration in force (R136) -/
  cfgErr : Bool
  deriving DecidableEq, Repr

/-- A lane slot after reset. -/
def laneReset : Lane where
  st := .idle
  cause := .none
  stepRet := none
  pc := 0
  d := Vector.replicate 16 0
  acc := Vector.replicate 4 0
  a := Vector.replicate 16 0
  m := Vector.replicate 16 0
  len := Vector.replicate 16 0
  zf := false
  nf := false
  pos := 0
  results := []
  stores := []
  reps := []
  cache := []
  rets := []
  cyc := 0
  stalls := 0
  lastStore := false
  stopped := false
  aov := false
  cfgErr := false

/-! ### Memories (05_memories_and_ecc.md) -/

/-- What the code finds in a codeword (R166): one bit in error at a position of R174, or an uncorrectable pattern.
A stuck error returns after the word is written and leaves only with a remap. -/
structure EccMark where
  bit : Option Nat
  stuck : Bool
  deriving DecidableEq, Repr

/-- A remap entry: instance code, address unit, whether it comes from the fuses (R183), and the codewords of the replaced unit that
were in error. -/
structure RemapEntry where
  inst : Nat
  addr : Nat
  factory : Bool
  old : List (Nat × EccMark)
  deriving DecidableEq, Repr

/-- A correctable-error report in the capture queue (R174, R176). -/
structure CeReport where
  inst : Nat
  addr : Nat
  bit : Nat
  deriving DecidableEq, Repr

/-- State of the memories beside their contents. -/
structure EccState where
  /-- codewords in error, by `eccKey` -/
  marks : SMap EccMark
  remaps : List RemapEntry
  /-- correctable-error capture queue, oldest first (R176) -/
  queue : List CeReport
  /-- log entries in the order they were written, oldest first (R175) -/
  order : List Nat
  /-- classes whose limit has been reported since the count was cleared (R177) -/
  limited : List Nat
  /-- route-table entries whose uncorrectable error has been reported (R181) -/
  routeReported : List Nat
  /-- a remap command that waits for E2 (R184) -/
  remapPend : Option (Nat × Nat)
  /-- elapsed cycles at the last journal of R189 -/
  jrnlAt : Nat
  deriving DecidableEq, Repr

/-! ### The tick (01_tick_and_latency.md) -/

/-- What a lane output channel last delivered (R37): its last good frame, its last emitted sample and the ticks in a row
without a frame. -/
structure ChanHist where
  good : List W40
  last : W40
  miss : Nat
  deriving DecidableEq, Repr

/-- State of the tick. -/
structure TickState where
  /-- the rate and F in force, in the layout of `TICK_CFG` (R46) -/
  cfg : Nat
  /-- CCLK cycle within the tick in progress -/
  cycle : Nat
  /-- RUN has been written and the first edge has not come (R641) -/
  starting : Bool
  /-- substitution history of output channel 64 × lane + channel (R37) -/
  hist : SMap ChanHist
  /-- consecutive overruns of each logical lane (R36) -/
  runs : SMap Nat
  /-- lanes whose TICK_OVR_RUN has been raised since they last completed a tick on time (R36) -/
  runRaised : List Nat
  /-- edges that have collected frames since reset, up to 2, and the ticks without a frame of each lane that has delivered one in
  the last two ticks; every other lane has delivered none in `edges` ticks or more (R215) -/
  edges : Nat
  quiet : SMap Nat
  /-- frames collected at the last E0, by lane output channel (R24) -/
  frames : SMap (List W40)
  /-- frames delivered to each destination at the last E0 (R200) -/
  dests : SMap (List W40)
  /-- frames delivered to each destination at the E0 before the last, which are shifted out in the tick in progress (R30) -/
  destsPrev : SMap (List W40)
  /-- frames delivered by each source endpoint at the last E1 (R196) -/
  sources : SMap (List W40)
  deriving DecidableEq, Repr

/-! ### Sump (17_sump_faults.md) -/

/-- A raise in the capture queue (R536). -/
structure SumpRaise where
  ev : Nat
  src : Nat
  cls : Nat
  data : Nat
  tick : Nat
  deriving DecidableEq, Repr

/-- State of the Sump beside its registers. -/
structure SumpState where
  /-- capture queue, oldest first (R536) -/
  queue : List SumpRaise
  /-- sources of the events whose status bit is set, as event, D0 and D1: R532 judges the cause of each -/
  srcs : List (Nat × Nat × Nat)
  /-- NODE_FAULT has been entered and its falling gain is due at the next E0 (R529) -/
  fallPend : Bool
  /-- NODE_FAULT has been entered on an owner: the falling gain is due after the handover (R530) -/
  fallHo : Bool
  /-- destinations 0x000 to 0x5FF are held at zero (R529) -/
  zeroHold : Bool
  /-- the rising fade is due at the next edge (R534) -/
  risePend : Bool
  /-- an accepted EXIT waits for its edge (R533) -/
  exitPend : Option Nat
  /-- Sump registers with a parity error, by address (R535) -/
  parity : List Nat
  /-- flags of R500 since the last E3 -/
  flags : Nat
  deriving DecidableEq, Repr

/-! ### Routing, ramps, silence, ropes (06_routing_and_mixing.md) -/

/-- What the four words of a ramp parameter hold (R207–R211): the value the ramp started from, the applied target and mode,
its length D, the sample reached and the value at the last sample of the previous tick. -/
structure RampParam where
  v0 : W40
  target : W40
  db : Bool
  dur : Nat
  k : Nat
  cur : W40
  /-- the sample reached and the value at the last sample of the tick in progress -/
  kEnd : Nat
  endv : W40
  /-- holds 0 after an uncorrectable word until its next target is applied (R181) -/
  failed : Bool
  deriving DecidableEq, Repr

/-- A ramp parameter after reset; the spec leaves the words undefined (R169), DESIGN CHOICE, log 6. -/
def rampReset : RampParam :=
  { v0 := 0, target := 0, db := false, dur := 0, k := 0, cur := 0, kEnd := 0, endv := 0, failed := false }

/-- A silence detector (R217). -/
structure SilState where
  silent : Bool
  count : Nat
  deriving DecidableEq, Repr

/-- State of routing, ramps, detectors and ropes beside their registers. -/
structure RouteState where
  /-- the route table, by entry (R195) -/
  tbl : SMap Word
  /-- ramp parameters, by 4,096 × gallery + parameter -/
  ramps : SMap RampParam
  sil : SMap SilState
  /-- detectors whose state changed in the E0 in progress -/
  silChanged : List Nat
  /-- `RAMP_MAP` words as they were before a write in an edge cycle, which E2 of that edge does not see (R213) -/
  mapHeld : SMap Word
  deriving DecidableEq, Repr

/-- The clock pins of a port: SCK toggles or stands low, FS and SDO change on its rising edge instead of its falling one (R286), and the
level of FS in each bit period of a frame. -/
structure PortClk where
  sck : Bool
  inv : Bool
  fs : List Bool
  deriving DecidableEq, Repr

/-- State of the ropes, held in the I/O ring (R222–R227). -/
structure RopeState where
  /-- the ropes are live (R222) -/
  live : Bool
  /-- the map in force on the pins, by output port, in the layout of `ROPE_MAP` -/
  force : SMap Word
  /-- the map a change of which has not reached the pins yet (R225) -/
  pending : Bool
  /-- output ports that stand low since R227 removed their ropes; true where SCK and FS do too -/
  low : SMap Bool
  /-- what the SDI pin of a port last carried: its words, and the bits in the bit periods of that frame -/
  sdi : SMap (List (Option Nat) × List (Option Bool))
  /-- the clocks last seen on SCK and FS of a port that something outside drives -/
  clkIn : SMap PortClk
  deriving DecidableEq, Repr

/-! ### Delay engine and gallery DMA (07_array_delay_and_steering.md) -/

/-- A delay line: the tick from which its ring counts (R237) and the first sample not yet written to LPDDR5X (R234). -/
structure DlyLine where
  since : Nat
  next : Nat
  deriving DecidableEq, Repr

/-- State of the delay engine. -/
structure DlyState where
  lines : SMap DlyLine
  /-- taps found out of range and reported (R236) -/
  bad : List Nat
  /-- transfers of the tick in progress are under way (R234) -/
  busy : Bool
  /-- the cycle at which the latest transfers ended -/
  doneAt : Nat
  /-- the engine ran at the last edge (R242) -/
  was : Bool
  deriving DecidableEq, Repr

/-- A running gallery DMA job (R255). -/
structure GdmaJob where
  cell : Nat
  ext : Nat
  out : Bool
  gword : Nat
  count : Nat
  due : Nat
  tag : Nat
  late : Bool
  deriving DecidableEq, Repr

/-- State of a gallery DMA: the running job, the selectors of which an E2 has seen the applied BANK differ from ACTIVE, and the fade
length and shape each selector keeps for its switch (R248). -/
structure GdmaState where
  job : Option GdmaJob
  seen : List Nat
  fadeT : SMap Nat
  shape : SMap Nat
  deriving DecidableEq, Repr

/-- A gallery DMA after reset. -/
def gdmaReset : GdmaState := { job := none, seen := [], fadeT := [], shape := [] }

/-! ### Microphones and trim governor (08_microphones_and_calibration.md) -/

/-- Integrators and combs of a CIC, 40 bits each (R265, R267). -/
structure Cic where
  integ : List W40
  comb : List W40
  deriving DecidableEq, Repr

/-- A microphone (R260–R273). -/
structure MicState where
  fine : Cic
  fast : Cic
  /-- normalized CIC outputs of the fine path, newest first, the input of the stages after it -/
  hist : List Int
  /-- fine outputs since the last edge -/
  fineOut : List W40
  /-- the fast sample in force at each node sample since the last edge, by its index -/
  fastOut : SMap W40
  /-- the latest fast output -/
  fastLast : W40
  /-- the latest fine output -/
  fineLast : W40
  /-- 1 more than the ticks of the mute period that are left; 0 outside one (R264) -/
  mute : Nat
  /-- MUTE_MS of a mute period whose first tick has not begun: its ticks are taken at the edge that begins that tick (R264) -/
  muteMs : Option Nat
  /-- MIC_OVR raised in this tick: fine, fast (R271) -/
  ovrFine : Bool
  ovrFast : Bool
  /-- a sample at or above level(THR) in this tick; a sample at or above level(THR + HYST) (R273) -/
  hit : Bool
  loud : Bool
  /-- DEC_CFG_ERR raised for the configuration in force (R266) -/
  cfgErr : Bool
  deriving DecidableEq, Repr

/-- A microphone after reset or after a clear (R263). -/
def micReset : MicState :=
  { fine := ⟨[], []⟩, fast := ⟨[], []⟩, hist := [], fineOut := [], fastOut := [], fastLast := 0, fineLast := 0, mute := 0, muteMs := none
    ovrFine := false, ovrFast := false, hit := false, loud := false, cfgErr := false }

/-- The trim governor (R274–R283). -/
structure TrimState where
  /-- an update edge has come and its update is not done (R277), with the tick of that edge -/
  due : Bool
  tick : Nat
  /-- microphones that clipped on the fine path since the last update edge (R278) -/
  clipped : List Nat
  /-- channels enabled since the last update edge (R278) -/
  enabled : List Nat
  /-- selector writes to come: 16 × gallery + selector and tick of the edge (R280) -/
  sel : List (Nat × Nat)
  /-- a ZERO waits for E3 (R283) -/
  zero : Bool
  deriving DecidableEq, Repr

/-- State of the microphones. -/
structure DecState where
  mics : SMap MicState
  /-- clocks stopped by a change, restarting at the next edge (R262) -/
  stopped : List Nat
  trim : TrimState
  deriving DecidableEq, Repr

/-! ### Serial audio ports (09_serial_audio_ports.md) -/

/-- The states of a direction, as `SAP_STAT` codes them (R306). -/
inductive SapSt where
  | off | armed | placing | run | acquire | locked
  deriving DecidableEq, Repr

/-- A direction of a serial port (R297–R313). -/
structure SapDir where
  st : SapSt
  /-- starts at the next edge (R308, R311) -/
  starting : Bool
  /-- placed block counting: the grid point (k × F + i) that counting gives to the next frame (R300) -/
  next : Nat
  /-- samples of the block in assembly, oldest first, one list per frame -/
  block : List (List W40)
  /-- grid point of the first frame of the block -/
  first : Nat
  /-- completed blocks waiting for their edge: tick and frames -/
  ready : List (Nat × List (List W40))
  /-- substitution history of the direction's channels -/
  hist : SMap ChanHist
  /-- has delivered a complete block since its start or since R292 -/
  live : Bool
  /-- underrun or frame error already reported in this tick -/
  undTick : Bool
  errTick : Bool
  /-- ASRC: consecutive good blocks (R306), last ratio in Q8.24, out of range reported (R305) -/
  good : Nat
  ratio : Nat
  ranged : Bool
  /-- stamp of the last block and of the one before it, in 2^−16 node samples since the epoch (R312); 0 is none -/
  stamp : Nat
  prev : Nat
  /-- receive converter: the port samples it interpolates between, newest first, each with its sample instant (R304) -/
  past : List (Nat × List W40)
  /-- transmit: a substituted frame has been sent in this tick -/
  subTick : Bool
  /-- the words last put on the pin, by slot; none is high impedance -/
  lastTx : List (Option Nat)
  /-- the bits on SDO in the bit periods of the frame last started, by R284 -/
  bits : List (Option Bool)
  /-- receive: a frame of the block in assembly was discarded (R288, R301) -/
  hole : Bool
  /-- transmit: EN 0 has been applied, and the direction ends at the next edge (R311) -/
  ending : Bool
  /-- transmit converter: what it has sent in this tick, by channel, one word for each grid point -/
  sent : SMap (List W40)
  deriving DecidableEq, Repr

/-- A direction after reset. -/
def sapDirReset : SapDir :=
  { st := .off, starting := false, next := 0, block := [], first := 0, ready := [], hist := [], live := false
    undTick := false, errTick := false, good := 0, ratio := 0, ranged := false, stamp := 0, prev := 0, past := []
    subTick := false, lastTx := [], bits := [], hole := false, ending := false, sent := [] }

/-- State of the serial ports: receive direction of port n at 2 n, transmit at 2 n + 1. -/
structure SapState where
  dirs : SMap SapDir
  /-- clock ports stopped by a change, restarting at the next edge (R290) -/
  stopped : List Nat
  /-- a common start waits: the tick of its applying E2, or none for the next E2 (R308) -/
  startAt : Option Nat
  /-- a common start has been applied and its start edge is the next edge -/
  startEdge : Bool
  /-- stamps of side A received over Siphon, by direction (R313): the latest, and the one before it -/
  stampsA : SMap Nat
  stampsB : SMap Nat
  /-- what master ports put on SCK and FS, by port (R284, R290) -/
  clocks : SMap PortClk
  /-- the frames collected for local output channels, newest edge first, as far back as a converter's delay needs (R304) -/
  outs : List (Nat × SMap (List W40))
  deriving DecidableEq, Repr

/-! ### Modulators, rails and sense points (10_amplifier_modulators.md) -/

/-- The states of a modulator channel, in the order of their codes (R329). -/
inductive ModSt where
  | off | diag | wait | ramp | run | park | stop | fault
  deriving DecidableEq, Repr

/-- The diagnostic steps (R335). -/
inductive DiagStep where
  | s | d1 | d2 | d3 | e
  deriving DecidableEq, Repr

/-- A modulator channel (R323–R351). -/
structure ModChan where
  /-- ramp gain g as a fraction (R332); in a stop from D3 the level of the test drive at the stop -/
  gNum : Nat
  gDen : Nat
  /-- the BEN pin -/
  ben : Bool
  /-- modulation index of the last carrier period as a fraction (R323) -/
  mNum : Int
  mDen : Nat
  /-- the last MODA and MODB pulses: steps from the start of the period to the rising edge, and widths in steps (R321, R323) -/
  pa : Nat
  pb : Nat
  wa : Nat
  wb : Nat
  /-- errors of the last pulse edges in 2^−16 step, newest first: of MODA rising and falling, of MODB rising and falling (R326) -/
  errs : SMap (List Int)
  /-- diagnostics: waiting in its group, the running step, ticks left in it -/
  queued : Bool
  step : Option DiagStep
  stepLeft : Nat
  /-- values measured in the window of the running step, in units of 1/32,768 of 10 mA -/
  meas : List Int
  measBad : Bool
  /-- consecutive frames: CUR above IMAX, CUR invalid, IRAIL above 16 × ILEAK -/
  ocRun : Nat
  badRun : Nat
  leakRun : Nat
  /-- the start it belongs to, and the cycle from which it runs at 50% with BEN low (R331) -/
  startId : Nat
  lowAt : Nat
  /-- the stop that took it to STOP (R333) -/
  stopId : Nat
  /-- gain held at 0 through the tick of the release edge (R332) -/
  holdG : Bool
  /-- MOD_CLIP raised in this tick (R325) -/
  clipTick : Bool
  /-- samples replaced by zero (R344), or from the next edge on -/
  zero : Bool
  zeroDue : Bool
  /-- BEN falls at the next edge (R337, R350); BEN rises and samples resume there (R345) -/
  benFall : Bool
  benRise : Bool
  /-- the set it is being disabled with, 0 for none, and the periods begun at m = 0; once the set is ready, the number of the reference
  edge on which BEN falls (R328) -/
  dis : Nat
  disPer : Nat
  benAt : Option Nat
  /-- OFF: periods until MODA and MODB are low (R329) -/
  lowIn : Nat
  /-- this chip drove the pins in the last period (R351) -/
  drv : Bool
  deriving DecidableEq, Repr

/-- A channel after reset. -/
def modReset : ModChan :=
  { gNum := 0, gDen := 1, ben := false, mNum := 0, mDen := 1, pa := 0, pb := 0, wa := 0, wb := 0, errs := [], queued := false, step := none, stepLeft := 0
    meas := [], measBad := false, ocRun := 0, badRun := 0, leakRun := 0, startId := 0, lowAt := 0, stopId := 0, holdG := false
    clipTick := false, zero := false, zeroDue := false, benFall := false, benRise := false, dis := 0, disPer := 0
    benAt := none, lowIn := 0, drv := false }

/-- A sense point: consecutive invalid codes and the last valid code (R317, R324). -/
structure SensePt where
  bad : Nat
  last : Nat
  deriving DecidableEq, Repr

/-- A rail group (R339–R343). -/
structure RailState where
  /-- VRAIL below 7/8 of VCMD, consecutive frames, and reported (R343) -/
  low : Nat
  lowRaised : Bool
  /-- the last frame sent on RAILCMD, the levels it puts on the line in half bit times, and the elapsed cycle at which they begin; the
  line is high after them (R339) -/
  frame : Word
  line : List Bool
  sentAt : Nat
  /-- the group waits for its diagnostic rail (R336) -/
  diagWait : Bool
  /-- elapsed cycles at which that wait began (R336) -/
  diagAt : Nat
  /-- this chip drove RAILCMD with that frame (R351) -/
  drv : Bool
  deriving DecidableEq, Repr

/-- A rail group after reset. -/
def railReset : RailState :=
  { low := 0, lowRaised := false, frame := 0, line := [], sentAt := 0, diagWait := false, diagAt := 0, drv := false }

/-- A committed start or stop mask that waits for E2 (R330): stop, the mask, whether it was written in the edge cycle, and its
number in the order of arrival (R28). -/
structure ModMask where
  stop : Bool
  mask : Nat
  late : Bool
  seq : Nat
  deriving DecidableEq, Repr

/-- State of the modulators. -/
structure ModState where
  chans : SMap ModChan
  pts : SMap SensePt
  rails : SMap RailState
  /-- codes of the even points since the last edge, by endpoint offset and node sample index, and before that edge (R319) -/
  senseOut : SMap (SMap W40)
  senseLast : SMap W40
  /-- committed start and stop masks that wait for E2, oldest first (R330) -/
  masks : List ModMask
  /-- number of the latest start or stop command applied -/
  starts : Nat
  /-- the latest 128 samples of each bus that has carried any, newest first (R341) -/
  leads : SMap (List W40)
  deriving DecidableEq, Repr

/-! ### The pool (11_pool_and_queues.md) -/

/-- What a queue holds beside its registers (R356–R370): head and tail of its chain, cells charged and linked, for word
queues the read and write position inside the first and last cell. -/
structure PoolQ where
  cfg : W64
  head : Nat
  tail : Nat
  used : Nat
  depth : Nat
  rd : Nat
  wr : Nat
  above : Bool
  crossed : Bool
  ovd : Bool
  ovdCnt : Nat
  /-- POOL_OVERDRAW raised in this tick (R357) -/
  ovdTick : Bool
  broken : Bool
  deriving DecidableEq, Repr

/-- A queue after reset. -/
def poolQReset : PoolQ :=
  { cfg := 0, head := 0, tail := 0, used := 0, depth := 0, rd := 0, wr := 0, above := false, crossed := false
    ovd := false, ovdCnt := 0, ovdTick := false, broken := false }

/-- An item being built or taken by a requester (R359, R361): its queue, its cells in order. -/
structure OpenItem where
  queue : Nat
  cells : List Nat
  deriving DecidableEq, Repr

/-- A pop or word read that waits on an empty queue (R362): the requester, the queue, the cycle it began, and whether its
POOL_STALL has been raised. `word` marks a word read. -/
structure PoolWait where
  req : Nat
  queue : Nat
  word : Bool
  since : Nat
  raised : Bool
  deriving DecidableEq, Repr

/-- State of the pool engine. -/
structure PoolState where
  /-- tags that differ from their reset value (R352, R354) -/
  tags : SMap Word
  queues : SMap PoolQ
  /-- heads of the free lists of the four banks, where they differ from reset, and free cells taken -/
  freeHead : SMap Nat
  freeCnt : SMap Nat
  /-- items open at a requester (R359) -/
  opens : SMap OpenItem
  /-- the rest of an item a requester is popping (R361) -/
  popped : SMap OpenItem
  waits : List PoolWait
  /-- lanes and ports whose POOL_PORT_ERR was raised in this tick (R368) -/
  portErr : List (Nat × Nat)
  deriving DecidableEq, Repr

/-! ### Ethernet, T1S, Eztasia (12_ethernet_and_t1s.md) -/

/-- What an event message of the PTP engine needs as it leaves (R450, R451): its type (0 Sync, 1 Delay_Req, 2 Pdelay_Req, 3 Pdelay_Resp),
whether the port inserts its timestamp, its sequence number, and for a Pdelay_Resp the ingress time of the request in quarter-nanoseconds
and the requesting port identity. -/
structure PtpEvent where
  ty : Nat
  oneStep : Bool
  seq : Nat
  rx : Nat
  req : Nat
  deriving DecidableEq, Repr

/-- A frame that the switch holds (R382, R383). A frame of the node's own engines has no pool cells, since the spec charges it
to no queue (DESIGN CHOICE, log 21); its bytes stand in `bytes`. -/
structure EthItem where
  cells : List Nat
  bytes : List Byte
  /-- length in bytes, as its descriptor has it -/
  len : Nat
  cls : Nat
  vid : Nat
  pcp : Nat
  /-- a frame of the stream engine -/
  stream : Bool
  /-- MAXLEN by which the frame is judged: that in force when its first byte arrived (R381) -/
  maxLen : Nat
  /-- an event message of the PTP engine, whose timestamp is taken as it leaves -/
  event : Option PtpEvent
  /-- the egress ports that still hold it -/
  ports : List Nat
  deriving DecidableEq, Repr

/-- An egress port (R389): the numbers of the stored items in each class queue, the item being sent, whether it may go on. -/
structure EthPort where
  q0 : List Nat
  q1 : List Nat
  q2 : List Nat
  q3 : List Nat
  sending : Option Nat
  /-- the port has been disabled and stops at the frame boundary (R376) -/
  stopping : Bool
  /-- class 3 items counted as held (R390) -/
  held : List Nat
  /-- the last frame put on the line, and its egress timestamp in quarter-nanoseconds (R444) -/
  lastTx : List Byte
  stamp : Nat
  deriving DecidableEq, Repr

/-- A port after reset. -/
def ethPortReset : EthPort :=
  { q0 := [], q1 := [], q2 := [], q3 := [], sending := none, stopping := false, held := [], lastTx := [], stamp := 0 }

/-- An address table entry (R386). -/
structure AtEntry where
  key : W64
  mask : W64
  act : Word
  deriving DecidableEq, Repr

/-- A management request in progress (R396). -/
structure MgmtReq where
  cells : List Nat
  write : Bool
  seq : Nat
  addr : Nat
  count : Nat
  done : Nat
  data : List Word
  buserr : Bool
  src : List Byte
  tagged : Bool
  vid : Nat
  pcp : Nat
  /-- elapsed cycles at its first access (R399) -/
  since : Nat
  deriving DecidableEq, Repr

/-- State of the Ethernet ports and switch. -/
structure EthState where
  /-- items stored, by number -/
  items : SMap EthItem
  /-- number of the next item -/
  nextItem : Nat
  ports : SMap EthPort
  /-- the audio window is open (R390) -/
  window : Bool
  at_ : SMap AtEntry
  mgmt : Option MgmtReq
  /-- the last management response -/
  lastResp : List Byte
  /-- ns from the edge to the end of the last stream frame sent in this tick -/
  txEnd : Nat
  /-- recent values of MAXLEN as it acts, newest first: the cycle of the write that gave it, and the value (R381) -/
  maxLens : List (Nat × Nat)
  /-- by first cell, whether a management request delivered to the agent's queue came tagged (R388, R397) -/
  tagged : SMap Bool
  deriving DecidableEq, Repr

/-- A transaction outstanding at an element (R409, R410). -/
structure EzTrans where
  seq : Nat
  msg : List Byte
  /-- sent by the engine's poll rather than by the host -/
  poll : Bool
  /-- resends left -/
  left : Nat
  /-- elapsed cycles when its message left the port, none while it waits there (R409) -/
  sentAt : Option Nat
  /-- cells of the host's command item -/
  cells : List Nat
  deriving DecidableEq, Repr

/-- State of the T1S port and the Eztasia engine. -/
structure T1sState where
  /-- frames waiting for the medium, oldest first -/
  queue : List (List Byte)
  /-- collisions of the frame at the head (R404) -/
  colls : Nat
  /-- slot times of backoff left; none when not backing off -/
  backoff : Option Nat
  /-- elapsed cycles at which the backoff began (R404) -/
  backoffAt : Nat
  /-- elapsed cycles at which the transmit opportunity in progress began (R405) -/
  plcaAt : Nat
  /-- PLCA: the ID whose opportunity runs, none before the first BEACON (R405) -/
  plcaId : Option Nat
  lastTx : List Byte
  /-- SEQ counter (R409) -/
  seq : Nat
  out : SMap EzTrans
  /-- source MAC last seen from each element -/
  macs : SMap (BitVec 48)
  /-- fault flags of the last STATUS -/
  faults : SMap Nat
  /-- missed polls in a row -/
  missed : SMap Nat
  /-- SEQs of the DISCOVERs whose windows are open, oldest first, with the elapsed cycles when each left the port (R410) -/
  discover : List (Nat × Option Nat)
  /-- elapsed cycles at the last poll (R411) -/
  pollAt : Nat
  /-- host transactions taken from CMDQ and waiting for their element: cells and message -/
  waiting : List (List Nat × List Byte)
  /-- the MUTE of R531 has to be sent -/
  safeMute : Bool
  deriving DecidableEq, Repr

/-! ### Streams (13_coleel_transport.md) -/

/-- A receive entry (R425–R433). -/
structure CltRx where
  /-- accepted samples waiting for their E1: by the number of the edge that latches them, and there by sample × CH + channel -/
  buf : SMap (SMap W40)
  /-- cells that hold them: cell and the tick of the E1 after which it is freed (R431) -/
  cells : List (Nat × Nat)
  /-- substitution history of the entry's channels -/
  hist : SMap ChanHist
  /-- ticks in a row without a complete block -/
  miss : Nat
  /-- no block has been complete since the last change (R417) -/
  fresh : Bool
  /-- CLT_BAD, CLT_LATE raised in this tick -/
  badTick : Bool
  lateTick : Bool
  deriving DecidableEq, Repr

/-- A receive entry after reset. -/
def cltRxReset : CltRx :=
  { buf := [], cells := [], hist := [], miss := 0, fresh := true, badTick := false, lateTick := false }

/-- A transmit entry. -/
structure CltTx where
  /-- the last frame sent -/
  lastTx : List Byte
  deriving DecidableEq, Repr

/-- State of the stream engine. -/
structure CltState where
  rx : SMap CltRx
  tx : SMap CltTx
  /-- the last frame sent: tick, entry, and the place in the tick's samples behind its first, for a packet behind its last (R422, R436) -/
  sent : Nat × Nat × Nat
  /-- frames collected for the network output channels, newest tick first, as far back as one packet needs (R436) -/
  outs : List (Nat × SMap (List W40))
  /-- token buckets by 4 × port + class: level in 1/30,000 bit and the counter cycle it holds at (R434) -/
  pol : SMap (Nat × Nat)
  /-- buckets whose CLT_POLICE was raised in this tick (R435) -/
  polTick : List Nat
  /-- PAIR_PATCH_LATE raised in this tick (R494) -/
  patchTick : Bool
  /-- no stream frame in this tick (R509) -/
  suppress : Bool
  deriving DecidableEq, Repr

/-! ### PTP, event and capture pins (14_time_and_ptp.md) -/

/-- An event message that waits for its second step (R451): sequence, ingress time and correction. -/
structure TwoStep where
  seq : Nat
  rx : Nat
  corr : Int
  /-- for Pdelay_Resp: the request receipt time of the responder -/
  t2 : Nat
  deriving DecidableEq, Repr

/-- A PTP port. -/
structure PtpPort where
  /-- the best Announce heard since the last ANN_TO interval -/
  ann : Option AnnounceMsg
  /-- ANN_TO announce intervals have passed, or an Announce has come, since LISTENING was entered (R449) -/
  heard : Bool
  /-- elapsed cycles at the last Announce of its master, ANN_TO timeout or entry to LISTENING (R449) -/
  annAt : Nat
  /-- elapsed cycles at the last Sync or entry to the slave states (R454) -/
  syncAt : Nat
  /-- a Sync has been received as a slave (R449) -/
  synced : Bool
  sync : Option TwoStep
  pdel : Option TwoStep
  /-- sequence and egress time of the last Delay_Req or Pdelay_Req sent, in quarter-nanoseconds -/
  req : Option (Nat × Nat)
  /-- last Sync taken: t1 and t2 of the end-to-end mechanism -/
  t1 : Int
  t2 : Int
  /-- latest path delays, newest first, at most 8, in 2^−16 ns, and their mean (R452) -/
  delays : List Int
  mean : Int
  seqSync : Nat
  seqAnn : Nat
  seqDel : Nat
  /-- event messages sent with twoStepFlag 1 whose follow-up is due, oldest first: whether it is a Pdelay_Resp, sequence,
  egress time in quarter-nanoseconds, requesting port identity -/
  follow : List (Bool × Nat × Nat × Nat)
  lastTx : List Byte
  deriving DecidableEq, Repr

/-- A port after reset. -/
def ptpPortReset : PtpPort :=
  { ann := none, heard := false, annAt := 0, syncAt := 0, synced := false, sync := none, pdel := none, req := none, t1 := 0, t2 := 0
    delays := [], mean := 0, seqSync := 0, seqAnn := 0, seqDel := 0, follow := [], lastTx := [] }

/-- An event output (R456–R458). -/
structure EvtOut where
  /-- armed; a write of EN 1 waits for its arming -/
  armed : Bool
  arming : Bool
  /-- a pulse is on the pin -/
  active : Bool
  /-- schedule index of the next pulse -/
  k : Nat
  /-- elapsed cycles at which the pulse ends -/
  stop : Nat
  /-- edges of the latest pulse, in steps of 26.04 ps of the counter (R456) -/
  up : Nat
  down : Nat
  deriving DecidableEq, Repr

/-- An event output after reset. -/
def evtOutReset : EvtOut := { armed := false, arming := false, active := false, k := 0, stop := 0, up := 0, down := 0 }

/-- A capture input (R459). -/
structure CapIn where
  /-- entries, oldest first: T64 and whether the edge was rising -/
  fifo : List (W64 × Bool)
  ovfTick : Bool
  deriving DecidableEq, Repr

/-- State of the PTP engine, the event outputs and the capture inputs. -/
structure PtpState where
  ports : SMap PtpPort
  /-- counter latches, by master × 4 + word (R443) -/
  latch : SMap Word
  /-- counter write buffers, by master × 4 + word (R443) -/
  wbuf : SMap Word
  /-- elapsed cycles at the consecutive Syncs within 1,000 ns, newest first (R453) -/
  qual : List Nat
  /-- elapsed cycles at which the node became grandmaster (R453) -/
  gmAt : Nat
  /-- ports that have passed SYNC_TO intervals without a Sync (R454) -/
  lost : List Nat
  evts : SMap EvtOut
  caps : SMap CapIn
  /-- capture timestamps latched, by master × 4 + input (R460) -/
  capLatch : SMap W64
  deriving DecidableEq, Repr

/-! ### Clock unit (15_clocks_and_references.md) -/

/-- State of the clock unit beside its registers. -/
structure ClkState where
  lockA : Bool
  lockB : Bool
  lockC : Bool
  /-- PLL_A has locked once: the unit has left Reset (R475) -/
  up : Bool
  /-- FSEL in force; a written FSEL takes force when PLL_A has relocked (R463) -/
  fsel : Bool
  /-- a PLL change has been commanded and its lock is awaited: PLL_A, PLL_B -/
  relockA : Bool
  relockB : Bool
  /-- the counter is held: PLL_A has not locked yet, or relocks (R463) -/
  hold : Bool
  /-- the sample-clock phase is set against the counter (R466) -/
  phased : Bool
  /-- elapsed cycles at the last evaluation (R470) -/
  evalAt : Nat
  /-- the selected reference -/
  sel : Option Nat
  /-- ms the phase error has stayed within the threshold of the step in force (R472) -/
  dwell : Nat
  /-- consecutive ms REF1–REF3 have met, and have failed, their checks (R468) -/
  good : SMap Nat
  bad : SMap Nat
  /-- the candidate that is better than the selection, and the ms it has stayed so (R470) -/
  cand : Option Nat
  wtr : Nat
  /-- FORCE was written since the last evaluation -/
  forceNew : Bool
  /-- y of each past ms, newest first, absent below step 3 (R476) -/
  yHist : List (Option Int)
  /-- dither LFSR of each PLL: the value loaded at the start of its last lock, and the elapsed cycles then (R464) -/
  lfsr : SMap (Word × Nat)
  /-- outputs driven low by R479, reported once -/
  lowOut : List Nat
  deriving DecidableEq, Repr

/-! ### The pair (16_redundant_pair.md) -/

/-- A load of a spare slot (R519): the failed slot, the logical lane, and whether the load has ended. -/
structure SpareLoad where
  slot : Nat
  lane : Nat
  done : Bool
  deriving DecidableEq, Repr

/-- What a message on Siphon carries, by its type (R491). -/
inductive SipBody where
  | mark (m : MarkMsg)
  | rstreq
  | digest (d : DigestMsg)
  | write (w : WriteMsg)
  | modstate (cs : List ModRec) (rs : List RailRec)
  | stamp (ss : List (Nat × Nat))
  | patch (f : Frame) (ts : W64)
  deriving DecidableEq, Repr

/-- A message with the tick it refers to. -/
structure SipMsg where
  tick : BitVec 32
  body : SipBody
  deriving DecidableEq, Repr

/-- State of the pair logic beside its registers. -/
structure PairState where
  /-- the partner's OWN pin is high -/
  partnerOwn : Bool
  /-- elapsed cycles when the partner's OWN pin last changed (R511) -/
  ownAt : Nat
  /-- this chip drives its OWN pin and its local outputs -/
  own : Bool
  /-- an owner that came from FORM by a MARK drives its outputs from the next edge (R511) -/
  driveDue : Bool
  /-- the last MARK of the partner -/
  mark : Option MarkMsg
  /-- ticks of the MARKs that have arrived from a partner that owns, of the last edge and of the next (R502) -/
  arrived : List (BitVec 32)
  /-- the partner has been declared SUSPECT since its last MARK (R507) -/
  suspect : Bool
  /-- renewals or acknowledgements missing in a row (R503, R504) -/
  missing : Nat
  /-- own flags and digests of recent ticks, newest first -/
  ownDig : List DigestMsg
  /-- the partner's, newest first -/
  partnerDig : List DigestMsg
  /-- first tick whose digests are compared: the one in which the standby entered CHECK -/
  checkFrom : Nat
  /-- the edge at which a handover takes effect (R510); a handover is followed by OUT (R512) -/
  handover : Option Nat
  thenOut : Bool
  /-- HO goes into the MARK of the first edge at or after this one (R510) -/
  hoReq : Option Nat
  /-- joined by JOIN_UPD (R511) -/
  joinUpd : Bool
  /-- consecutive ticks in SYNCED (R512) -/
  syncedTicks : Nat
  /-- logical lanes not yet copied; edges left to CHECK once all have been (R511, R514) -/
  lanesLeft : List Nat
  convLeft : Nat
  /-- the image check word received differs from the own (R511) -/
  icwDiff : Bool
  /-- a REL 1 goes into the MARK of the edge (R504) -/
  relReq : Bool
  /-- the ENGINE record to install in the E2 of the edge it names (R515) -/
  engine : Option EngineRec
  /-- segments in a row that failed their check (R489) -/
  crcRun : Nat
  /-- messages that wait to be sent, and those sent since the last edge, oldest first (R491) -/
  waiting : List SipMsg
  sent : List SipMsg
  /-- what the last MODSTATE messages said of the channels and the rails (R351) -/
  modSent : List ModRec
  railSent : List RailRec
  /-- messages formed: the last MARK, the last DIGEST, RSTREQ, and since the last edge the WRITE messages and the stream frames
  forwarded as PATCH messages with their ingress times (R491, R494) -/
  lastMark : Option MarkMsg
  lastDigest : Option DigestMsg
  rstReq : Bool
  sentWrites : List WriteMsg
  sentPatches : List (Frame × W64)
  /-- loads of spare slots, by gallery -/
  spares : SMap SpareLoad
  /-- slots in FAULT that the spare logic has dealt with -/
  spareSeen : List Nat
  deriving DecidableEq, Repr

/-! ### Strata (18_strata_configuration.md) -/

/-- A route value a switch replaces, kept for the cross-fade (R557): table kind, index, old value. -/
structure OldRoute where
  kind : Nat
  idx : Nat
  old : Word
  deriving DecidableEq, Repr

/-- Commands of the loader that wait for their E2: the edge that applies them, or none while a switch section holds them, the bits
of `STRATA_CMD`, with bit 3 for the GO of `STRATA_GCMD`, and their number in the order of arrival (R28). -/
structure LoaderCmd where
  edge : Option Nat
  bits : Nat
  seq : Nat
  deriving DecidableEq, Repr

/-- State of the loader. A layer in play is the address of its next record and the address after its last. -/
structure StrataState where
  /-- commands that wait for their E2 -/
  cmds : List LoaderCmd
  /-- the header block of the image in NOR, as read at the last LOADER_START -/
  hdr : List Byte
  /-- the base layer, the layer being armed, the reload layer -/
  base : Option (Nat × Nat)
  arm : Option (Nat × Nat)
  rel : Option (Nat × Nat)
  /-- elapsed cycles on entry to DRAM (R546) -/
  dramAt : Nat
  /-- elapsed cycles at the base layer's END (R575) -/
  endAt : Nat
  /-- a base record has been played (R551) -/
  played : Bool
  /-- a warm load was asked for (R588); the journaled layer that waits for its ARM; GO follows when it is ARMED -/
  warmReq : Bool
  warmArm : Option (Bool × Nat)
  warmGo : Bool
  /-- layer being armed or armed: scene?, index; RESULT code of what arming has found wrong, or 0 -/
  armSrc : Bool
  armIdx : Nat
  armErr : Nat
  /-- pending route set: KIND, INDEX and value; and register words with their addresses, in order (R554) -/
  routes : List (Nat × Nat × Word)
  sect : List (List (Nat × Word))
  /-- the switch edge, once the section's last word has reached its shadow (R556) -/
  sectAt : Option Nat
  /-- fade of the switch (R557): ticks, shape, switch edge, old route values -/
  xf : Nat
  shape : Bool
  fadeFrom : Nat
  olds : List OldRoute
  /-- gallery reload (R561–R564): gallery, take-out edge, RET_T, end of play, RESULT code of what it has found wrong, or 0 -/
  rGal : Nat
  rEdge : Nat
  rRet : Nat
  rDone : Bool
  rErr : Nat
  /-- galleries out -/
  out : List Nat
  deriving DecidableEq, Repr

/-! ### Power, inputs, keep-alive (19_power_reset_bringup.md) -/

/-- A filtered input (R577–R579): whether the pin is low, the filtered state, the pin changes absorbed since it last changed, and the
elapsed cycles since which the pin holds its level and at which the filtered state last changed. -/
structure InState where
  low : Bool
  active : Bool
  absorbed : Nat
  since : Nat
  changed : Nat
  deriving DecidableEq, Repr

/-- An input whose pin is high and whose filtered state is inactive. -/
def inReset : InState := { low := false, active := false, absorbed := 0, since := 0, changed := 0 }

/-- A crosspoint of the early mix (R572): source, destination, gain in 0.5 dB. -/
structure MixTerm where
  src : Nat
  dst : Nat
  gain : Int
  deriving DecidableEq, Repr

/-- State of power, inputs and bring-up beside their registers. -/
structure PwrState where
  ins : SMap InState
  /-- mute gain of the destinations, as a fraction (R582) -/
  gNum : Nat
  gDen : Nat
  /-- peaks of the last 15 half-cycles, newest first (R585) -/
  vpks : List Nat
  /-- elapsed cycles at entry to S1, then to S2 (R586) -/
  sdAt : Nat
  /-- a return was recognised at or after S2 (R586) -/
  returned : Bool
  listen : Bool
  /-- early mix terms, running, fading: ticks of the fade gone -/
  mix : List MixTerm
  mixOn : Bool
  fade : Option Nat
  /-- full service was entered -/
  full : Bool
  /-- supplies other than VKA in range; PDREQ_N driven low -/
  vdd : Bool
  pdreq : Bool
  /-- elapsed cycles when the watchdog was last restarted -/
  wdogAt : Nat
  /-- the part of a cycle of the keep-alive crystal that has passed, in 1 / f of a cycle, f the frequency of CCLK in Hz (R591) -/
  kaFrac : Nat
  deriving DecidableEq, Repr

/-! ### Host control port (20_host_port_and_register_summary.md) -/

/-- State of the host control port. -/
structure HcpState where
  /-- HCP_CS_N is low -/
  open_ : Bool
  /-- the code decided so far in the transaction (R603) -/
  code : Nat
  /-- OP of its command byte -/
  op : Nat
  /-- QUAD of its command byte (R595) -/
  quad : Bool
  /-- reads of the transaction that have begun and not been answered: address and size, the one in progress first -/
  todo : List (Nat × Size)
  /-- an HCP_CFG write that waits for the end of its transaction (R606) -/
  cfg : Option Word
  /-- bytes driven in the last transaction, the status byte first -/
  out : List Byte
  deriving DecidableEq, Repr

/-! ### Pins -/

/-- Straps and pins the block samples. -/
structure PinState where
  sideB : Bool
  ropeSel : Nat
  ropeHold : Bool
  emixSel : Nat
  emixFmt : Bool
  deriving DecidableEq, Repr

/-! ### The machine -/

/-- The state of one node. Registers stand in `regs`, their applied copies (R27) in `live`, addressed memory in `mem`; the
other fields hold what no register shows. `pending` is the model's queue of commands, `free` the model's counter of free
values; neither is state of the spec. -/
structure State where
  /-- commands that wait, first in, first out -/
  pending : List Instr
  /-- the model's own: how many free values have been drawn -/
  free : Nat
  /-- the system counter, in whole CCLK periods since the epoch (R441) -/
  now : Nat
  /-- CCLK cycles since reset, which no counter step changes -/
  elapsed : Nat
  /-- the LOCK record has been played (R6, R547) -/
  lock : Bool
  /-- register words written since reset: by address, a master's own copy by address + 2^32 × (master + 1) -/
  regs : SMap Word
  /-- applied values of shadowed registers, by the address of the shadow -/
  live : SMap Word
  /-- shadow writes that wait for their edge, oldest first -/
  shPend : List ShWrite
  bus : BusState
  /-- lane slots that differ from reset, by number 17 g + s -/
  lanes : SMap Lane
  /-- memory, by byte address on the chip bus -/
  mem : List Host.Cell
  ecc : EccState
  tick : TickState
  sump : SumpState
  route : RouteState
  rope : RopeState
  dly : DlyState
  /-- gallery DMAs that differ from reset -/
  gdma : SMap GdmaState
  dec : DecState
  sap : SapState
  mods : ModState
  pool : PoolState
  eth : EthState
  t1s : T1sState
  clt : CltState
  ptp : PtpState
  clk : ClkState
  pair : PairState
  strata : StrataState
  pwr : PwrState
  hcp : HcpState
  pins : PinState
  deriving DecidableEq, Repr

/-- Faults. No command of the table ends in one: every command has an effect, or none in a state it cannot occur in. The
constructor is kept so that the type says why a run would stop; nobody raises it (safe). -/
inductive Fault where
  | none
  deriving DecidableEq, Repr

/-- Refusals. -/
inductive Refusal where
  /-- A command whose meaning has not been written; raised by `exec` alone. Safe: the run stops. -/
  | notModelled (mnemonic : String)
  deriving DecidableEq, Repr

/-- The matrices after reset. -/
def busReset : BusState :=
  { latch := [], wbuf := [], park := [], rank := [], waiting := [], routeStall := [], resp := [], errBeats := [] }

/-- The memories after reset. The fuses of the model's chip hold no factory remap entry (DESIGN CHOICE, log 4). -/
def eccReset : EccState :=
  { marks := [], remaps := [], queue := [], order := [], limited := [], routeReported := [], remapPend := none, jrnlAt := 0 }

/-- The tick after reset. -/
def tickReset : TickState :=
  { cfg := 0x21, cycle := 0, starting := false, hist := [], runs := [], runRaised := [], edges := 0, quiet := []
    frames := [], dests := []
    destsPrev := []
    sources := [] }

/-- The Sump after reset. -/
def sumpReset : SumpState :=
  { queue := [], srcs := [], fallPend := false, fallHo := false, zeroHold := false, risePend := false, exitPend := none
    parity := [], flags := 0 }

/-- The modulators after reset. -/
def modsReset : ModState :=
  { chans := [], pts := [], rails := [], senseOut := [], senseLast := [], masks := [], starts := 0, leads := [] }

/-- The pool after reset. -/
def poolReset : PoolState :=
  { tags := [], queues := [], freeHead := [], freeCnt := [], opens := [], popped := [], waits := [], portErr := [] }

/-- The Ethernet ports and switch after reset. -/
def ethReset : EthState :=
  { items := [], nextItem := 0, ports := [], window := false, at_ := [], mgmt := none, lastResp := []
    txEnd := 0, maxLens := [], tagged := [] }

/-- The T1S port after reset. -/
def t1sReset : T1sState :=
  { queue := [], colls := 0, backoff := none, backoffAt := 0, plcaAt := 0, plcaId := none, lastTx := [], seq := 0, out := []
    macs := [], faults := [], missed := [], discover := [], pollAt := 0, waiting := [], safeMute := false }

/-- The stream engine after reset. -/
def cltReset : CltState := { rx := [], tx := [], sent := (0, 0, 0), outs := [], pol := [], polTick := [], patchTick := false, suppress := false }

/-- The PTP engine after reset. -/
def ptpReset : PtpState :=
  { ports := [], latch := [], wbuf := [], qual := [], gmAt := 0, lost := [], evts := [], caps := [], capLatch := [] }

/-- The clock unit after reset. -/
def clkReset : ClkState :=
  { lockA := false, lockB := false, lockC := false, up := false, fsel := false, relockA := false, relockB := false, hold := true
    phased := false, evalAt := 0, sel := none, dwell := 0, good := [], bad := [], cand := none, wtr := 0, forceNew := false, yHist := []
    lfsr := [], lowOut := [] }

/-- The pair logic after reset: a side-A chip that reads OWN_B low owns its local outputs (R486). -/
def pairReset : PairState :=
  { partnerOwn := false, ownAt := 0, own := true, driveDue := false, mark := none, arrived := [], suspect := false, missing := 0, ownDig := []
    partnerDig := [], checkFrom := 0, handover := none, thenOut := false, hoReq := none, joinUpd := false
    syncedTicks := 0, lanesLeft := [], convLeft := 0, icwDiff := false, relReq := false, engine := none, crcRun := 0
    waiting := [], sent := [], modSent := [], railSent := []
    lastMark := none, lastDigest := none, rstReq := false, sentWrites := [], sentPatches := [], spares := [], spareSeen := [] }

/-- The loader after reset. -/
def strataReset : StrataState :=
  { cmds := [], hdr := [], base := none, arm := none, rel := none, dramAt := 0, endAt := 0, played := false, warmReq := false, warmArm := none, warmGo := false
    armSrc := false, armIdx := 0, armErr := 0, routes := [], sect := [], sectAt := none, xf := 0
    shape := false, fadeFrom := 0, olds := [], rGal := 0, rEdge := 0, rRet := 0, rDone := false, rErr := 0, out := [] }

/-- Power and inputs after reset. -/
def pwrReset : PwrState :=
  { ins := [], gNum := 1, gDen := 1, vpks := [], sdAt := 0, returned := false, listen := false, mix := []
    mixOn := false, fade := none, full := false, vdd := true, pdreq := false, wdogAt := 0, kaFrac := 0 }

/-- The host port after reset. -/
def hcpReset : HcpState := { open_ := false, code := 0, op := 0, quad := false, todo := [], cfg := none, out := [] }

/-- The straps of the model's node: side A, no rope strap, early mix off. The board sets them; log 4. -/
def pinReset : PinState := { sideB := false, ropeSel := 0, ropeHold := false, emixSel := 0, emixFmt := false }

/-- A node with every register at its reset value, no command waiting and every sparse map empty. -/
def State.blank : State where
  pending := []
  free := 0
  now := 0
  elapsed := 0
  lock := false
  regs := []
  live := []
  shPend := []
  bus := busReset
  lanes := []
  mem := []
  ecc := eccReset
  tick := tickReset
  sump := sumpReset
  route := { tbl := [], ramps := [], sil := [], silChanged := [], mapHeld := [] }
  rope := { live := false, force := [], pending := false, low := [], sdi := [], clkIn := [] }
  dly := { lines := [], bad := [], busy := false, doneAt := 0, was := false }
  gdma := []
  dec := { mics := [], stopped := []
           trim := { due := false, tick := 0, clipped := [], enabled := [], sel := [], zero := false } }
  sap := { dirs := [], stopped := [], startAt := none, startEdge := false, stampsA := [], stampsB := [], clocks := [], outs := [] }
  mods := modsReset
  pool := poolReset
  eth := ethReset
  t1s := t1sReset
  clt := cltReset
  ptp := ptpReset
  clk := clkReset
  pair := pairReset
  strata := strataReset
  pwr := pwrReset
  hcp := hcpReset
  pins := pinReset

/-- The machine after PORST_N (R568): as `State.blank`, but for the raise of SYS_RESET, which is the first entry the Sump will
log (R539, R569): its count, its status bit and its place in the capture queue. -/
def State.reset : State :=
  { State.blank with
    regs := [(0x20030300, 1), (0x20030400, 1)]
    sump := { sumpReset with queue := [⟨0, 0, 0, 0, 0⟩], srcs := [(0, 0, 0)] } }

end Sys2Proof.Machine
end

