-- ==== Sys2Proof/Machine/Ops.lean ====
section
/-! DEFINITION. What a command can do, said once: a meaning is an `Act`, a program of primitive updates of the state that
may look at the state before it goes on. Then the named operations over registers and memory that every meaning uses. -/

namespace Sys2Proof.Machine

/-! ### Primitive updates -/

/-- The primitive updates. Nothing changes the state in any other way. -/
inductive Upd where
  | free (n : Nat)
  | now (n : Nat)
  | elapsed (n : Nat)
  | lock (b : Bool)
  | reg (a : Nat) (v : Word)
  | live (a : Nat) (v : Word)
  | shPend (l : List ShWrite)
  | bus (b : BusState)
  | lane (i : Nat) (l : Lane)
  | mem (a : Nat) (b : Byte)
  | ecc (x : EccState)
  | tick (x : TickState)
  | sump (x : SumpState)
  | route (x : RouteState)
  | rope (x : RopeState)
  | dly (x : DlyState)
  | gdma (g : Nat) (x : GdmaState)
  | dec (x : DecState)
  | sap (x : SapState)
  | mods (x : ModState)
  | pool (x : PoolState)
  | eth (x : EthState)
  | t1s (x : T1sState)
  | clt (x : CltState)
  | ptp (x : PtpState)
  | clk (x : ClkState)
  | pair (x : PairState)
  | strata (x : StrataState)
  | pwr (x : PwrState)
  | hcp (x : HcpState)
  | pins (x : PinState)
  /-- a reset of the node (R568), by PORST_N or by another source -/
  | nodeReset (porst : Bool)

/-- Give a lane slot a state. A lane that is as after reset is not listed. -/
def lanePut (m : SMap Lane) (i : Nat) (l : Lane) : SMap Lane := smPut (fun _ => laneReset) m i l

/-- Give a gallery DMA a state. -/
def gdmaPut (m : SMap GdmaState) (g : Nat) (x : GdmaState) : SMap GdmaState := smPut (fun _ => gdmaReset) m g x

/-- Write a byte of memory. A byte that is 0 is not listed. -/
def memPut (m : List Host.Cell) (a : Nat) (b : Byte) : List Host.Cell := smPut (fun _ => 0) m a b

/-- A byte of memory; what nothing has written reads 0 (DESIGN CHOICE, log 5). -/
def memGet (m : List Host.Cell) (a : Nat) : Byte := smGet (fun _ => 0) m a

/-- Memory is in canonical form: addresses strictly rising, no entry 0. -/
def Memory.wf (m : List Host.Cell) : Bool := smWf (fun _ => (0 : Byte)) m

/-- A register word survives the reset: the keep-alive registers always (R591), `ROPE_STRAP` because it shows pins; `ROPE_CTRL`,
`ROPE_MAP` and the ramp words only where PORST_N is not the source (R224, R169). -/
def survives (porst : Bool) (a : Nat) : Bool :=
  (0x20140100 ≤ a && a < 0x20140118) || a = 0x20060004 ||
  (!porst && (a = 0x20060000 || (0x20060100 ≤ a && a < 0x20060180) ||
    (a < 0x10000000 && 0xF18000 ≤ a % 0x1000000 && a % 0x1000000 < 0xF20000)))

/-- `ROPE_STAT` after the reset: STRAP_BAD shows pins, SAFE_OFF is cleared by PORST_N alone (R227). -/
def ropeStatKept (porst : Bool) (s : State) : SMap Word :=
  match smFind s.regs 0x20060008 with
  | some w => [(0x20060008, if porst then w &&& 4 else w &&& 6)]
  | none => []

/-- The codewords in error after a reset. The words of the classes that the reset initializes, loop caches, pool tags, route and latency
tables, keep stuck errors only, and after PORST_N so do all but those of the scene store (R163, R169, R170). -/
def resetMarks (porst : Bool) (e : EccState) : SMap EccMark :=
  let lost := e.remaps.filter fun r => !r.factory
  let mine (k : Nat) : Bool := lost.any fun r => k / 2 ^ 29 = r.inst && k % 2 ^ 29 / 2 = r.addr
  let back := (lost.flatMap (·.old)).foldl (fun m p => smInsert m p.1 p.2) (e.marks.filter fun p => !mine p.1)
  back.filter fun p => p.2.stuck || p.1 / 2 ^ 41 = 0xA || (!porst && !([3, 7, 8, 9].contains (p.1 / 2 ^ 41)))

/-- The state after a reset of the node, before SYS_RESET is raised. What waits in the queue is outside the node and stays; the
scene store is non-volatile (R163); fuse remaps are loaded again, and with the loss of a field entry the word it replaced is back with
its errors (R170, R183); after PORST_N the memories read as if never written, after another source they keep their contents,
though the node gives no promise (R169). -/
def resetState (porst : Bool) (s : State) : State :=
  { State.blank with
    pending := s.pending
    free := s.free
    regs := (ropeStatKept porst s).foldl (fun m p => smInsert m p.1 p.2) (s.regs.filter fun p => survives porst p.1)
    live := s.live.filter fun p => survives porst p.1
    mem := if porst then s.mem.filter fun p => 0x30000000 ≤ p.1 && p.1 < 0x30800000 else s.mem
    ecc := { eccReset with
      marks := resetMarks porst s.ecc
      remaps := s.ecc.remaps.filter (·.factory) }
    route := { State.blank.route with ramps := if porst then [] else s.route.ramps }
    rope := if porst then { s.rope with force := [], pending := true, low := [] } else s.rope
    pins := s.pins
    pwr := { pwrReset with vdd := s.pwr.vdd, kaFrac := s.pwr.kaFrac, ins := s.pwr.ins.map fun p => (p.1, { p.2 with active := false, absorbed := 0, since := 0, changed := 0 }) }
    pair := { pairReset with partnerOwn := s.pair.partnerOwn, own := s.pwr.vdd && !s.pins.sideB && !s.pair.partnerOwn } }

/-- Apply a primitive update. -/
def Upd.apply (u : Upd) (s : State) : State :=
  match u with
  | .free n => { s with free := n }
  | .now n => { s with now := n }
  | .elapsed n => { s with elapsed := n }
  | .lock b => { s with lock := b }
  | .reg a v => { s with regs := smInsert s.regs a v }
  | .live a v => { s with live := smInsert s.live a v }
  | .shPend l => { s with shPend := l }
  | .bus b => { s with bus := b }
  | .lane i l => { s with lanes := lanePut s.lanes i l }
  | .mem a b => { s with mem := memPut s.mem a b }
  | .ecc x => { s with ecc := x }
  | .tick x => { s with tick := x }
  | .sump x => { s with sump := x }
  | .route x => { s with route := x }
  | .rope x => { s with rope := x }
  | .dly x => { s with dly := x }
  | .gdma g x => { s with gdma := gdmaPut s.gdma g x }
  | .dec x => { s with dec := x }
  | .sap x => { s with sap := x }
  | .mods x => { s with mods := x }
  | .pool x => { s with pool := x }
  | .eth x => { s with eth := x }
  | .t1s x => { s with t1s := x }
  | .clt x => { s with clt := x }
  | .ptp x => { s with ptp := x }
  | .clk x => { s with clk := x }
  | .pair x => { s with pair := x }
  | .strata x => { s with strata := x }
  | .pwr x => { s with pwr := x }
  | .hcp x => { s with hcp := x }
  | .pins x => { s with pins := x }
  | .nodeReset porst => resetState porst s

/-! ### Programs of updates -/

/-- An effect: nothing, a primitive update, one effect after another, or an effect that depends on the state it meets. -/
inductive Act where
  | done
  | upd (u : Upd)
  | seq (a b : Act)
  | look (k : State → Act)

/-- Run an effect. -/
def Act.run : Act → State → State
  | .done, s => s
  | .upd u, s => u.apply s
  | .seq a b, s => b.run (a.run s)
  | .look k, s => (k s).run s

/-- Effects one after another. -/
def acts : List Act → Act
  | [] => .done
  | [a] => a
  | a :: as => .seq a (acts as)

/-- The effect of each item in turn. -/
def forEach {α : Type} (xs : List α) (f : α → Act) : Act := acts (xs.map f)

/-- An effect under a condition. -/
def onlyIf (c : Bool) (a : Act) : Act := if c then a else .done

/-- The outcome of a command: every command of the table goes on. -/
def answer (a : Act) (s : State) : Host.Outcome State Fault Refusal := .next (a.run s)

/-- Draw a free value and go on with it. -/
def draw (k : Nat → Act) : Act :=
  .look fun s => .seq (.upd (.free (s.free + 1))) (k (Config.freeNat s.free))

/-- A quotient whose rounding the spec leaves open: the exact value, or one of the two nearest whole numbers. -/
def roundFree (num : Int) (den : Nat) (k : Int → Act) : Act :=
  if num % (den : Int) = 0 then k (num / den) else draw fun r => k (num / den + (r % 2 : Nat))

/-! ### Updates of one component -/

def setTick (f : TickState → TickState) : Act := .look fun s => .upd (.tick (f s.tick))
def setBus (f : BusState → BusState) : Act := .look fun s => .upd (.bus (f s.bus))
def setEcc (f : EccState → EccState) : Act := .look fun s => .upd (.ecc (f s.ecc))
def setSump (f : SumpState → SumpState) : Act := .look fun s => .upd (.sump (f s.sump))
def setRoute (f : RouteState → RouteState) : Act := .look fun s => .upd (.route (f s.route))
def setRope (f : RopeState → RopeState) : Act := .look fun s => .upd (.rope (f s.rope))
def setDly (f : DlyState → DlyState) : Act := .look fun s => .upd (.dly (f s.dly))
def setDec (f : DecState → DecState) : Act := .look fun s => .upd (.dec (f s.dec))
def setSap (f : SapState → SapState) : Act := .look fun s => .upd (.sap (f s.sap))
def setMods (f : ModState → ModState) : Act := .look fun s => .upd (.mods (f s.mods))
def setPool (f : PoolState → PoolState) : Act := .look fun s => .upd (.pool (f s.pool))
def setEth (f : EthState → EthState) : Act := .look fun s => .upd (.eth (f s.eth))
def setT1s (f : T1sState → T1sState) : Act := .look fun s => .upd (.t1s (f s.t1s))
def setClt (f : CltState → CltState) : Act := .look fun s => .upd (.clt (f s.clt))
def setPtp (f : PtpState → PtpState) : Act := .look fun s => .upd (.ptp (f s.ptp))
def setClk (f : ClkState → ClkState) : Act := .look fun s => .upd (.clk (f s.clk))
def setPair (f : PairState → PairState) : Act := .look fun s => .upd (.pair (f s.pair))
def setStrata (f : StrataState → StrataState) : Act := .look fun s => .upd (.strata (f s.strata))
def setPwr (f : PwrState → PwrState) : Act := .look fun s => .upd (.pwr (f s.pwr))
def setHcp (f : HcpState → HcpState) : Act := .look fun s => .upd (.hcp (f s.hcp))
def setPins (f : PinState → PinState) : Act := .look fun s => .upd (.pins (f s.pins))

/-- The lane slot `i`. -/
def laneAt (s : State) (i : Nat) : Lane := smGet (fun _ => laneReset) s.lanes i

/-- Change lane slot `i`. -/
def setLane (i : Nat) (f : Lane → Lane) : Act := .look fun s => .upd (.lane i (f (laneAt s i)))

/-- The gallery DMA of gallery `g`. -/
def gdmaAt (s : State) (g : Nat) : GdmaState := smGet (fun _ => gdmaReset) s.gdma g

/-- Change the gallery DMA of gallery `g`. -/
def setGdma (g : Nat) (f : GdmaState → GdmaState) : Act := .look fun s => .upd (.gdma g (f (gdmaAt s g)))

/-! ### Bit fields of numbers -/

/-- Bits [hi:lo] of a number. -/
def bitsOf (v hi lo : Nat) : Nat := v / 2 ^ lo % 2 ^ (hi + 1 - lo)

/-- Bit `i` of a number. -/
def bitOf (v i : Nat) : Bool := v / 2 ^ i % 2 == 1

/-- `v` with bits [hi:lo] replaced by `x`. -/
def putBits (v hi lo x : Nat) : Nat :=
  v - bitsOf v hi lo * 2 ^ lo + x % 2 ^ (hi + 1 - lo) * 2 ^ lo

/-- 1 for true, 0 for false. -/
def b2n (b : Bool) : Nat := if b then 1 else 0

/-- A two's complement field of `w` bits. -/
def toInt (w v : Nat) : Int := if v % 2 ^ w < 2 ^ (w - 1) then (v % 2 ^ w : Nat) else (v % 2 ^ w : Nat) - (2 ^ w : Nat)

/-- A number as a two's complement field of `w` bits. -/
def ofInt (w : Nat) (x : Int) : Nat := (x % (2 ^ w : Nat)).toNat

/-- Count up to a limit that holds (the counters of the spec hold at all ones). -/
def satInc (w v n : Nat) : Nat := min (v + n) (2 ^ w - 1)

/-! ### Registers -/

/-- Number of elements a list of dimensions has. -/
def dimsCount : List (Nat × Nat) → Nat
  | [] => 1
  | (c, _) :: ds => c * dimsCount ds

/-- Byte offset of element `i`. -/
def dimsOfs : List (Nat × Nat) → Nat → Nat
  | [], _ => 0
  | (_, st) :: ds, i => i / dimsCount ds * st + dimsOfs ds (i % dimsCount ds)

/-- Byte address of element `i` of a register. -/
def Reg.addr (r : Reg) (i : Nat) : Nat := r.base + dimsOfs r.dims i

/-- Key of word `w` of element `i` of a register, for a master's own copy where the register is held per master. -/
def Reg.key (r : Reg) (i w m : Nat) : Nat :=
  r.addr i + 4 * w + (if r.perMaster then 2 ^ 32 * (m + 1) else 0)

/-- Reset value of word `w` of element `i`. -/
def Reg.rstWord (r : Reg) (i w : Nat) : Word := BitVec.ofNat 32 (r.rst i / 2 ^ (32 * w))

/-- Word `w` of element `i` as it stands. -/
def Reg.word (r : Reg) (i w m : Nat) (s : State) : Nat :=
  (smGet (fun _ => r.rstWord i w) s.regs (r.key i w m)).toNat

/-- The words of an element together. -/
def joinWords : List Nat → Nat
  | [] => 0
  | w :: ws => w + 2 ^ 32 * joinWords ws

/-- Value of element `i` of a register. -/
def Reg.val (r : Reg) (i : Nat) (s : State) (m : Nat := 0) : Nat :=
  joinWords ((List.range r.words).map fun w => r.word i w m s)

/-- Applied value of element `i` of a shadowed register (R27). -/
def Reg.liveVal (r : Reg) (i : Nat) (s : State) : Nat :=
  joinWords ((List.range r.words).map fun w =>
    (smGet (fun _ => r.rstWord i w) s.live (r.addr i + 4 * w)).toNat)

/-- Store element `i` of a register. -/
def Reg.set (r : Reg) (i v : Nat) (m : Nat := 0) : Act :=
  forEach (List.range r.words) fun w => .upd (.reg (r.key i w m) (BitVec.ofNat 32 (v / 2 ^ (32 * w))))

/-- Store the applied value of element `i`. -/
def Reg.setLive (r : Reg) (i v : Nat) : Act :=
  forEach (List.range r.words) fun w => .upd (.live (r.addr i + 4 * w) (BitVec.ofNat 32 (v / 2 ^ (32 * w))))

/-- Value of a field in element `i`. -/
def Fld.get (f : Fld) (i : Nat) (s : State) (m : Nat := 0) : Nat := bitsOf (f.reg.val i s m) f.hi f.lo

/-- Applied value of a shadowed field. -/
def Fld.live (f : Fld) (i : Nat) (s : State) : Nat := bitsOf (f.reg.liveVal i s) f.hi f.lo

/-- Field of a value about to be written. -/
def Fld.of (f : Fld) (v : Nat) : Nat := bitsOf v f.hi f.lo

/-- A one-bit field. -/
def Fld.on (f : Fld) (i : Nat) (s : State) : Bool := f.get i s == 1

/-- An applied one-bit field. -/
def Fld.liveOn (f : Fld) (i : Nat) (s : State) : Bool := f.live i s == 1

/-- Store a field of element `i`; the other fields keep their values. -/
def Fld.set (f : Fld) (i x : Nat) (m : Nat := 0) : Act :=
  .look fun s => f.reg.set i (putBits (f.reg.val i s m) f.hi f.lo x) m

/-- Store an applied field. -/
def Fld.setLive (f : Fld) (i x : Nat) : Act :=
  .look fun s => f.reg.setLive i (putBits (f.reg.liveVal i s) f.hi f.lo x)

/-- Count up in a field that holds at all ones. -/
def Fld.inc (f : Fld) (i : Nat) (n : Nat := 1) : Act :=
  .look fun s => f.set i (satInc (f.hi + 1 - f.lo) (f.get i s) n)

/-- Width of a field. -/
def Fld.width (f : Fld) : Nat := f.hi + 1 - f.lo

/-- Indices of the elements that a sparse register map lists from `base`, `n` elements of `stride` bytes apart. -/
def listed (m : SMap Word) (base stride n : Nat) : List Nat :=
  (m.filterMap fun p => if base ≤ p.1 && p.1 < base + stride * n then some ((p.1 - base) / stride) else none).eraseDups

/-! ### Memory -/

/-- `n` bytes from address `a`, least significant first, as a number. -/
def memLe (m : List Host.Cell) (a : Nat) : Nat → Nat
  | 0 => 0
  | n + 1 => (memGet m a).toNat + 256 * memLe m (a + 1) n

/-- Write the low `n` bytes of `v` from address `a`, least significant first. -/
def memSetLe (a n v : Nat) : Act :=
  forEach (List.range n) fun i => .upd (.mem (a + i) (BitVec.ofNat 8 (v / 2 ^ (8 * i))))

/-- The 40-bit word in the slot at `a` (R84). -/
def word40 (s : State) (a : Nat) : W40 := BitVec.ofNat 40 (memLe s.mem a 5)

/-- Write the 40-bit word in the slot at `a`. -/
def setWord40 (a : Nat) (v : W40) : Act := memSetLe a 5 v.toNat

/-- The 64-bit word at `a`. -/
def word64 (s : State) (a : Nat) : Nat := memLe s.mem a 8

/-- Bytes from `a`. -/
def memBytes (m : List Host.Cell) (a n : Nat) : List Byte := (List.range n).map fun i => memGet m (a + i)

/-- Write bytes from `a`. -/
def memSetBytes (a : Nat) (bs : List Byte) : Act := forEach bs.zipIdx fun p => .upd (.mem (a + p.2) p.1)

/-- Base of gallery `g` (R10). -/
def galBase (g : Nat) : Nat := g * 0x1000000

/-- Base of the window of a lane slot (R11). -/
def slotBase (l : Nat) : Nat := galBase (l / 17) + l % 17 * 0x40000

/-- Address of an X or Y word of a lane slot (R51). -/
def xyAddr (l : Nat) (y : Bool) (w : Nat) : Nat := slotBase l + (if y then 0x10000 else 0) + 8 * (w % 8192)

/-- Address of a program word of a lane slot (R51). -/
def progAddr (l pc : Nat) : Nat := slotBase l + 0x20000 + 8 * (pc % 4096)

/-- Address of a gallery memory word (R52). -/
def galAddr (g w : Nat) : Nat := galBase g + 0x800000 + 8 * (w % 262144)

/-- Address of a pool cell (R54). -/
def cellAddr (c : Nat) : Nat := 0x10000000 + c / 16384 * 0x1000000 + 256 * (c % 16384)

/-! ### Placement of the lanes -/

/-- Physical slot of an active logical lane, by the slot map in force (R49). -/
def slotOf (s : State) (n : Nat) : Option Nat :=
  let v := R.GAL_SLOTMAP.liveVal (n / 4) s / 2 ^ (8 * (n % 4)) % 256
  if v ≥ 128 then some (17 * (n / 16) + v % 32) else none

/-- The active logical lane that a slot holds, by the slot map in force. -/
def laneIn (s : State) (l : Nat) : Option Nat :=
  ((List.range 16).map fun j => 16 * (l / 17) + j).find? fun n => slotOf s n == some l

/-- The tick number (R20). -/
def tickNum (s : State) : Nat := R.TICK_NUM.val 0 s

/-- Samples per tick, F, in force (R17, R46). -/
def spt (s : State) : Nat := 2 ^ F.TICK_CFG_F.of s.tick.cfg

/-- Sample rate fs in force, in Hz (R17, R46). -/
def fsHz (s : State) : Nat :=
  match F.TICK_CFG_FS.of s.tick.cfg with
  | 0 => 44100 | 1 => 48000 | 2 => 88200 | 3 => 96000 | 4 => 176400 | _ => 192000

/-- The tick is running. -/
def running (s : State) : Bool := F.TICK_STAT_RUNNING.on 0 s

/-- The state with the rate and F that register writes are judged by: those in force, and while the tick stands those written last,
which take force at the next start (R46, R547). -/
def rated (s : State) : State :=
  if running s || s.tick.starting then s else { s with tick := { s.tick with cfg := R.TICK_CFG.val 0 s } }

/-- f_B, the frequency of PLL_B in Hz, for the family that `TICK_CFG.FS` selects (R260, R461). -/
def fB (s : State) : Nat := if F.TICK_CFG_FS.get 0 s % 2 = 1 then 98304000 else 90316800

/-- Nominal CCLK frequency in MHz, by the FSEL in force (R461, R463). -/
def cclkMHz (s : State) : Nat := if s.clk.fsel then 1250 else 1200

/-- Counter cycle in which tick `n` begins: the largest at or below n × F / fs (R20, R441). -/
def edgePos (n : Nat) (s : State) : Nat := n * spt s * (cclkMHz s * 1000000) / fsHz s

/-- The tick that the next edge begins: the one after the tick in progress, or after a start the first whose edge has not
passed (R20, R641). -/
def nextTick (s : State) : Nat :=
  if s.tick.starting then
    let n := s.now * fsHz s / (spt s * (cclkMHz s * 1000000))
    if edgePos n s ≥ s.now then n else if edgePos (n + 1) s ≥ s.now then n + 1 else n + 2
  else tickNum s + 1

/-- The tick runs, or has been started, and the edge cycle of its next edge has come. -/
def edgeDue (s : State) : Bool := (running s || s.tick.starting) && edgePos (nextTick s) s ≤ s.now

/-- The edge cycle of an edge of the running tick: what arrives now is due at the edge after it (R27). While the tick stands there is
none (R28). -/
def inEdgeCycle (s : State) : Bool := running s && edgeDue s

/-- The tick in progress; in the edge cycle, the one that the edge begins (R20). -/
def tickHere (s : State) : Nat := if edgeDue s then nextTick s else tickNum s

/-- Cycles of CCLK in `us` microseconds. -/
def usCycles (us : Nat) (s : State) : Nat := us * cclkMHz s

/-- Cycles of CCLK in `ms` milliseconds. -/
def msCycles (ms : Nat) (s : State) : Nat := ms * cclkMHz s * 1000

/-- `n` cycles have passed since `t` had (log 45). -/
def passed (t n : Nat) (s : State) : Bool := t + n ≤ s.elapsed

/-- The matrices stand: in LISTEN (R589), and without the supplies (R586). -/
def asleep (s : State) : Bool := s.pwr.listen || !s.pwr.vdd

/-- The chip drives its local outputs: it owns them (R485), and LISTEN has not put them at high impedance (R589). -/
def drives (s : State) : Bool := s.pair.own && !asleep s

/-- Input `i`. -/
def inAt (s : State) (i : Nat) : InState := smGet (fun _ => inReset) s.pwr.ins i

/-- Whole nanoseconds of the system counter (R440). -/
def nowNs (s : State) : Nat := s.now * 1000 / cclkMHz s

end Sys2Proof.Machine
end

