-- ==== Sys2Proof/Machine/Sump.lean ====
section
/-! DEFINITION. The Sump: raising an event, the reactions of its class, the fault states and their exit
(17_sump_faults.md), with the safe-state actions of the blocks (R227, R348, R505, R531). -/

namespace Sys2Proof.Machine

/-- `SUMP_STAT.STATE` reads SAFE. -/
def inSafe (s : State) : Bool := F.SUMP_STAT_STATE.get 0 s == 2

/-- The states of a chip as `PAIR_STAT.STATE` codes them (R511). -/
def pairIs (c : Nat) (s : State) : Bool := F.PAIR_STAT_STATE.get 0 s == c

/-- A code of `PAIR_STAT` is one of the standby states COPY, CONVERGE, CHECK, SYNCED and READY. -/
def isStandby (c : Nat) : Bool := 3 ≤ c && c ≤ 7

/-! ### Rail command frames -/

/-- The 32-bit frame of R339: sync, group, state, voltage and CRC-8. -/
def railFrame (g st vcmd : Nat) : Word :=
  let hi := 5 * 2 ^ 29 + g * 2 ^ 26 + st * 2 ^ 24 + vcmd % 65536 * 256
  BitVec.ofNat 32 (hi + crc8 (bytesBe 3 (hi / 256)))

/-- A word in Manchester code, most significant bit first, two half bit times a bit: a 1 rises at mid-bit (R339). -/
def manchester (w : Word) : List Bool := (List.range 32).flatMap fun i =>
  let b := w.getLsbD (31 - i)
  [!b, b]

/-- Half bit times of RAILCMD that pass in `n` cycles: the bit rate is f_B / 16 (R339). -/
def railHalves (s : State) (n : Nat) : Nat := n * (fB s / 8) / (cclkMHz s * 1000000)

/-- Rail group `g` of the modulator block. -/
def railAt (s : State) (g : Nat) : RailState := smGet (fun _ => railReset) s.mods.rails g

/-- Channel `c` of the modulator block. -/
def chanAt (s : State) (c : Nat) : ModChan := smGet (fun _ => modReset) s.mods.chans c

/-- Change a channel. -/
def setChan (c : Nat) (f : ModChan → ModChan) : Act :=
  setMods fun m => { m with chans := smPut (fun _ => modReset) m.chans c (f (smGet (fun _ => modReset) m.chans c)) }

/-- Change a rail group. -/
def setRail (g : Nat) (f : RailState → RailState) : Act :=
  setMods fun m => { m with rails := smPut (fun _ => railReset) m.rails g (f (smGet (fun _ => railReset) m.rails g)) }

/-! ### The safe state -/

/-- A frame starts on RAILCMD of group `g`, after the levels `cut` of half bit times. -/
def railSend (g bits v : Nat) (cut : List Bool := []) : Act := .look fun s =>
  setRail g fun r => { r with
    frame := railFrame g bits v, line := cut ++ manchester (railFrame g bits v), sentAt := s.elapsed, drv := drives s }

/-- A channel is disabled in step with set `id`: m = 0, and BEN falls after a complete period (R328). -/
def chanDisable (c id : Nat) : Act :=
  setChan c fun m => { modReset with
    startId := m.startId, ben := m.ben, dis := if m.ben then id else 0, pa := m.pa, pb := m.pb, wa := m.wa, wb := m.wb
    errs := m.errs, lowIn := 2, lowAt := m.lowAt, drv := m.drv }

/-- A modulator channel enters the safe state: disabled, and OFF unless it is in FAULT; a channel in diagnostics ends with
the code ABORT (R348, R350). -/
def chanSafe (c : Nat) : Act := .look fun s =>
  let st := F.MOD_STAT_STATE.get c s
  if st = 0 then .done
  else acts [
    onlyIf (st = 1) (F.MOD_STAT_DIAG.set c 8),
    onlyIf (st ≠ 7) (F.MOD_STAT_STATE.set c 0),
    chanDisable c (8 * s.elapsed + 1)]

/-- A rail line enters the safe state: a frame in progress is cut short and the line high for one bit time, then it sends a frame with STATE
SAFE and VCMD VSAFE, on the line of a disabled group too (R348, R342). -/
def railSafe (g : Nat) : Act := .look fun s =>
  let v := F.RAIL_GV2_VSAFE.live g s
  let r := railAt s g
  acts [
    F.RAIL_STAT_VCMD.set g v,
    onlyIf (F.RAIL_GCFG_EN.liveOn g s)
      (acts [F.RAIL_STAT_STATE.set g 5, F.RAIL_STAT_TARGET.set g v, F.RAIL_STAT_DONE.set g 1]),
    railSend g 3 v (if railHalves s (s.elapsed - r.sentAt) < r.line.length then [true, true] else [])]

/-- The SDO pins of the transmitting directions carry zero in every carried slot from the next launching edge of SCK on: what is left of
the frame in progress is zeros (R531). -/
def sdoSilent : Act := setSap fun x => { x with dirs := (x.dirs.filter fun e => e.1 % 2 = 1).foldl (fun m e =>
  smPut (fun _ => sapDirReset) m e.1 { e.2 with
    lastTx := e.2.lastTx.map fun w => w.map fun _ => 0, bits := e.2.bits.map fun b => b.map fun _ => false }) x.dirs }

/-- ROPEHOLD 0 removes every rope, on entry to the safe state and when factory defaults are loaded, and their output pins are driven low
(R227). They stay so while SAFE_OFF is 1 (DEDUCED, log 96). -/
def ropesRemoved : Act := .look fun s =>
  if s.pins.ropeHold then .done
  else acts [
    F.ROPE_STAT_SAFE_OFF.set 0 1,
    setRope fun r => { r with
      force := [], pending := false, low := r.force.foldl (fun m e => smInsert m e.1 (e.2.getLsbD 30)) r.low }]

/-- The MARK a chip sends now; its tick and ACK are the caller's. -/
def markNow (rel ho : Bool) (s : State) : MarkMsg :=
  { tick := BitVec.ofNat 32 (tickNum s)
    owner := pairIs 2 s
    rel := rel
    ho := ho
    safe := inSafe s
    state := ⟨F.PAIR_STAT_STATE.get 0 s % 16, Nat.mod_lt _ (by decide)⟩
    ack := match s.pair.mark with | some m => m.tick | none => 0 }

/-- A message waits to be sent over Siphon; while the link is down there is nothing to send it over (R491). -/
def sipQueue (tick : Nat) (b : SipBody) : Act := .look fun s =>
  onlyIf (F.PAIR_STAT_LINK.on 0 s) (setPair fun p => { p with waiting := p.waiting ++ [⟨BitVec.ofNat 32 tick, b⟩] })

/-- The chip releases its local outputs and its OWN pin, and goes to the state `c`. A NODE_FAULT that waited for the handover
fades now (R530). -/
def releaseOwn (c : Nat) : Act := acts [
  F.PAIR_STAT_STATE.set 0 c,
  F.PAIR_HIST_RELEASE.set 0 1,
  setPair fun p => { p with own := false, driveDue := false, missing := 0, handover := none, thenOut := false, hoReq := none },
  .look fun s => onlyIf s.sump.fallHo (setSump fun x => { x with
    fallHo := false, fallPend := x.fallPend || !x.zeroHold, risePend := false })]

/-- An owner that enters the safe state releases its local outputs when its partner's last MARK showed a standby state and
the link is up (R505). -/
def pairSafe : Act := .look fun s =>
  if pairIs 2 s && F.PAIR_CFG_EN.liveOn 0 s && F.PAIR_STAT_LINK.on 0 s && isStandby (F.PAIR_STAT_PSTATE.get 0 s) then
    acts [
      releaseOwn 1,
      .look fun s => .seq (setPair fun p => { p with lastMark := some (markNow true false s) })
        (sipQueue (tickNum s) (.mark (markNow true false s)))]
  else .done

/-- Entry to the safe state (R531). -/
def enterSafe : Act := .look fun s =>
  if inSafe s then .done
  else acts [
    F.SUMP_STAT_STATE.set 0 2,
    forEach (List.range 64) chanSafe,
    forEach (List.range 8) railSafe,
    sdoSilent,
    ropesRemoved,
    onlyIf (F.EZ_CFG_EN.on 0 s) (setT1s fun t => { t with safeMute := true }),
    pairSafe]

/-! ### NODE_FAULT -/

/-- Entry to NODE_FAULT (R529). An owner whose partner is SYNCED hands over first (R530). -/
def enterNodeFault : Act := .look fun s =>
  if F.SUMP_STAT_STATE.get 0 s ≠ 0 then .done
  else .seq (F.SUMP_STAT_STATE.set 0 1)
    (if pairIs 2 s && F.PAIR_STAT_LINK.on 0 s && F.PAIR_STAT_PSTATE.get 0 s == 6 && !s.pair.suspect then
      .seq (setSump fun x => { x with fallHo := true }) (setPair fun p => { p with hoReq := some 0 })
    else if s.sump.zeroHold then .done
    else setSump fun x => { x with fallPend := true, risePend := false })

/-! ### Raising an event -/

/-- The fault flags of R500 that an event sets, whatever its class. -/
def flagOf : Ev → Nat
  | .ECC_UE_QRD | .ECC_UE_MASTER | .ECC_UE_DMA | .ECC_UE_RAMP | .ECC_UE_ROUTE | .ECC_UE_POOL | .ECC_UE_SCENE
  | .ECC_UE_LAT | .ECC_UE_SPARE => 1
  | .LANE_FAULT => 2
  | .TICK_OVR | .DLY_LATE | .GDMA_LATE => 4
  | .SUMP_SELF => 8
  | _ => 0

/-- What every class does with a raise: count, status bit, capture queue, flag of the tick (R525, R536, R500). The gallery is `g` where
the source of the event is one. The tick of the entry is the one that the edge cycle begins (R20, R538). -/
def note (e : Ev) (d0 d1 d2 g : Nat) : Act := .look fun s =>
  let n := evNum e
  let cls := F.SUMP_EVCFG_CLASS.get n s
  let src := match evSrc e with | some c => c | none => 0x40 + g
  let r : SumpRaise :=
    { ev := n, src := src, cls := cls, data := d0 % 65536 + d1 % 65536 * 2 ^ 16 + d2 % 65536 * 2 ^ 32
      tick := tickHere s }
  acts [
    F.SUMP_EVCNT_COUNT.inc n,
    R.SUMP_EVSTAT.set (n / 32) (R.SUMP_EVSTAT.val (n / 32) s ||| 2 ^ (n % 32)),
    setSump fun x => { x with
      srcs := if x.srcs.contains (n, d0, d1) then x.srcs else x.srcs ++ [(n, d0, d1)]
      flags := x.flags ||| flagOf e },
    onlyIf (F.SUMP_EVCFG_LOG.on n s)
      (if s.sump.queue.length < 64 then setSump fun x => { x with queue := x.queue ++ [r] }
       else F.SUMP_LOST_COUNT.inc 0)]

/-- A self-fault (R535): the safe state without consulting the class, SELF, and the raise of SUMP_SELF. -/
def selfFault : Act := acts [F.SUMP_STAT_SELF.set 0 1, enterSafe, note .SUMP_SELF 0 0 0 0]

/-- The Sump uses the words at `ws`: one with a parity error is a self-fault (R535). -/
def sumpUse (ws : List Nat) : Act := .look fun s =>
  onlyIf (ws.any fun a => s.sump.parity.contains a) selfFault

/-- The words of the Sump that a raise of event `n` uses: its configuration, count and status bit, and the state of the node. -/
def raiseWords (n : Nat) : List Nat :=
  [R.SUMP_EVCFG.addr n, R.SUMP_EVCNT.addr n, R.SUMP_EVSTAT.addr (n / 32), R.SUMP_STAT.addr 0]

/-- The node reactions of events raised in one cycle: SAFE comes first and overrides NODE; in the safe state neither changes anything
(R528). -/
def react (cs : List Nat) : Act :=
  if cs.contains 4 then enterSafe else onlyIf (cs.contains 3) enterNodeFault

/-- Raise an event with its data (R525). -/
def raise (e : Ev) (d0 : Nat := 0) (d1 : Nat := 0) (d2 : Nat := 0) (g : Nat := 0) : Act := .look fun s => acts [
  sumpUse (raiseWords (evNum e)),
  note e d0 d1 d2 g,
  react [F.SUMP_EVCFG_CLASS.get (evNum e) s]]

/-- An event with its data and its gallery. -/
structure RaiseReq where
  ev : Ev
  d0 : Nat
  d1 : Nat
  d2 : Nat
  g : Nat
  deriving DecidableEq, Repr

/-- Order of events raised in one cycle: by number, then by source (R536). -/
def RaiseReq.rank (r : RaiseReq) : Nat := 256 * evNum r.ev + (evSrc r.ev).getD (0x40 + r.g)

/-- Put an event in its place; those of one number and source keep their order. -/
def RaiseReq.insert (r : RaiseReq) : List RaiseReq → List RaiseReq
  | [] => [r]
  | x :: xs => if r.rank < x.rank then r :: x :: xs else x :: RaiseReq.insert r xs

/-- Events raised in one cycle are captured in ascending event number, then in ascending SRC, and take their reactions together
(R528, R536). -/
def raiseAll (rs : List RaiseReq) : Act := .look fun s =>
  let sorted := rs.foldl (fun l r => r.insert l) []
  acts [
    forEach sorted fun r => .seq (sumpUse (raiseWords (evNum r.ev))) (note r.ev r.d0 r.d1 r.d2 r.g),
    react (rs.map fun r => F.SUMP_EVCFG_CLASS.get (evNum r.ev) s)]

/-! ### Causes that hold a status bit -/

/-- The frame configuration of a logical lane breaks R103 in the slot that holds it. -/
def laneFrameBad (s : State) (l : Nat) : Bool :=
  let i := F.LANE_FRAME_IN_CH.live l s
  let o := F.LANE_FRAME_OUT_CH.live l s
  256 < i || 64 < o || 4096 < i * spt s

/-- The enabled point of a kind and owner (R316). -/
def pointOf (kind owner : Nat) (s : State) : Option Nat :=
  (List.range 128).find? fun p =>
    F.SENSE_PT_EN.liveOn p s && F.SENSE_PT_KIND.live p s == kind && F.SENSE_PT_OWNER.live p s == owner

/-- The magnitude of a channel's current exceeds IMAX (R346). -/
def curAbove (c : Nat) (s : State) : Bool :=
  match pointOf 0 c s with
  | some p =>
    F.SENSE_VAL_VALID.on p s && decide (32768 * F.MOD_CH_IMAX.live c s <
      (toInt 16 (F.SENSE_VAL_CODE.get p s) * F.SENSE_PT_SCALE.live p s).natAbs)
  | none => false

/-- The VRAIL value of group `g` lies below 7/8 of VCMD (R343). -/
def railLow (g : Nat) (s : State) : Bool :=
  match pointOf 1 g s with
  | some p => F.SENSE_VAL_VALID.on p s &&
      decide (8 * (toInt 16 (F.SENSE_VAL_CODE.get p s) * F.SENSE_PT_SCALE.live p s) < 7 * 32768 * F.RAIL_STAT_VCMD.get g s)
  | none => false

/-- The direction `d` (0 receive, 1 transmit) of port `n`. -/
def sapAt (s : State) (n d : Nat) : SapDir := smGet (fun _ => sapDirReset) s.sap.dirs (2 * n + d)

/-- The microphone `i`. -/
def micAt (s : State) (i : Nat) : MicState := smGet (fun _ => micReset) s.dec.mics i

/-- The cause of a raise is still held, by the last column of R540. -/
def causeHeld (n d0 d1 : Nat) (s : State) : Bool :=
  match n with
  | 0x09 | 0x15 | 0x18 => true
  | 0x10 => !F.TICK_STAT_ALIGNED.on 0 s
  | 0x12 => s.tick.runRaised.contains d0
  | 0x14 => F.STRATA_STAT_DEFAULT.on 0 s
  | 0x21 => let l := 17 * (d1 / 16) + d0
    (laneAt s l).st == .fault && (laneIn s l).isSome
  | 0x22 => (match slotOf s d0 with | some l => laneFrameBad s l | none => false)
  | 0x24 => (match slotOf s d1 with | some l => (laneAt s l).st == .fault | none => true)
  | 0x28 => s.dly.bad.contains d0
  | 0x34 => (sapAt s d0 d1).ranged
  | 0x3A => (micAt s d0).cfgErr
  | 0x42 => curAbove d0 s
  | 0x43 => !F.SENSE_VAL_VALID.on d1 s
  | 0x45 => railLow d0 s
  | 0x53 => !bitOf (F.EZ_PRESENT_PRESENT.get 0 s) d0
  | 0x61 => s.ptp.lost.contains d0
  | 0x68 => if d0 = 1 then !s.clk.lockB else !s.clk.lockC
  | 0x69 => !s.clk.lockA
  | 0x6D => F.CLK_STAT_STATE.get 0 s == 3
  | 0x6E => F.CLK_STAT_STATE.get 0 s == 4
  | 0x71 => s.clk.lowOut.contains d0
  | 0x79 => !F.PAIR_STAT_LINK.on 0 s
  | 0x82 => pairIs 8 s
  | 0x88 => decide (F.PWR_MSTAT_VPK.get 0 s < F.PWR_MCFG_LOW.get 0 s)
  | 0x8A => (inAt s d0).active
  | _ => false

/-- Some cause of event `n` is still held. -/
def evHeld (n : Nat) (s : State) : Bool := s.sump.srcs.any fun p => p.1 == n && causeHeld n p.2.1 p.2.2 s

/-! ### Pins and status bits that follow the status words (R525, R527) -/

/-- Events whose status bit is set. -/
def raisedEvents (s : State) : List Nat :=
  (List.range 256).filter fun n => bitOf (R.SUMP_EVSTAT.val (n / 32) s) (n % 32)

/-- INT0_N is low. -/
def int0Low (s : State) : Bool := F.SUMP_STAT_SELF.on 0 s || (raisedEvents s).any fun n => F.SUMP_EVCFG_INT0.on n s

/-- INT1_N is low. -/
def int1Low (s : State) : Bool := (raisedEvents s).any fun n => F.SUMP_EVCFG_INT1.on n s

/-- Level of INT0_N, or of INT1_N for `low` its condition: an open-drain pin with INTOD 1 is at high impedance while it is not low (R608). -/
def intPin (s : State) (low : Bool) : Option Bool := if low then some false else if F.HCP_CFG_INTOD.on 0 s then none else some true

/-- A set status bit has the class. -/
def classSet (c : Nat) (s : State) : Bool := (raisedEvents s).any fun n => F.SUMP_EVCFG_CLASS.get n s == c

/-- SAFE_N is low. -/
def safeLow (s : State) : Bool := inSafe s

/-! ### Clearing, exit, history -/

/-- A refused clear or exit (R532, R533). -/
def refuse (ev : Nat) : Act :=
  acts [F.SUMP_STAT_CLEAR_REFUSED.set 0 1, F.SUMP_REFUSED_EVENT.set 0 ev, F.SUMP_REFUSED_COUNT.inc 0]

/-- Clear one status bit, or refuse while its cause is held. -/
def clearEv (n : Nat) : Act := .look fun s =>
  .seq (sumpUse [R.SUMP_EVSTAT.addr (n / 32)])
    (if bitOf (R.SUMP_EVSTAT.val (n / 32) s) (n % 32) then
      if evHeld n s then refuse n
      else acts [
        R.SUMP_EVSTAT.set (n / 32) (putBits (R.SUMP_EVSTAT.val (n / 32) s) (n % 32) (n % 32) 0),
        setSump fun x => { x with srcs := x.srcs.filter fun p => p.1 ≠ n }]
    else .done)

/-- A write of `SUMP_EVSTAT`i: every bit named is cleared or refused, in ascending event number. -/
def clearEvents (i v : Nat) : Act :=
  forEach ((List.range 32).filter fun j => bitOf v j) fun j => clearEv (32 * i + j)

/-- The condition of an EXIT (R533). -/
def exitOk (s : State) : Bool :=
  !F.SUMP_STAT_SELF.on 0 s && !classSet 3 s && !classSet 4 s

/-- The words of the Sump that decide an EXIT: its state and the status bits. -/
def exitWords : List Nat := R.SUMP_STAT.addr 0 :: (List.range 8).map fun i => R.SUMP_EVSTAT.addr i

/-- A write of EXIT (R533). -/
def exitWrite : Act := .seq (sumpUse exitWords) <| .look fun s =>
  if F.SUMP_STAT_STATE.get 0 s = 0 then .done
  else if exitOk s then setSump fun x => { x with exitPend := some (if inEdgeCycle s then nextTick s + 1 else nextTick s) }
  else refuse 0xFF

/-- An accepted EXIT takes effect, or is refused when its condition has gone (R533, R534). -/
def exitApply : Act := .look fun s =>
  if s.sump.exitPend.isSome then acts [
    sumpUse exitWords,
    setSump fun x => { x with exitPend := none },
    .look fun s => (if F.SUMP_STAT_STATE.get 0 s = 0 then .done
       else if exitOk s then
        .seq (F.SUMP_STAT_STATE.set 0 0)
          (setSump fun x => { x with
            risePend := x.zeroHold || x.fallPend || x.fallHo || x.risePend
            zeroHold := false, fallPend := false, fallHo := false })
       else refuse 0xFF)]
  else .done

/-- The history entry of a raise (R538). -/
def histEntry (r : SumpRaise) : Nat :=
  r.data % 2 ^ 48 + r.cls % 8 * 2 ^ 61 + r.ev % 256 * 2 ^ 64 + r.src % 256 * 2 ^ 72 + r.tick % 2 ^ 48 * 2 ^ 80

/-- The Sump logs the raise at the front of its capture queue (R536, R537). -/
def logOne : Act := .look fun s =>
  match s.sump.queue with
  | [] => .done
  | r :: _ =>
    let i := F.SUMP_HIST_STAT_NEXT.get 0 s
    let c := F.SUMP_HIST_STAT_COUNT.get 0 s
    acts [
      sumpUse [R.SUMP_HIST_STAT.addr 0],
      setSump fun x => { x with queue := x.queue.drop 1 },
      R.SUMP_HIST.set i (histEntry r),
      F.SUMP_HIST_STAT_NEXT.set 0 ((i + 1) % 32),
      if c < 32 then F.SUMP_HIST_STAT_COUNT.set 0 (c + 1) else F.SUMP_HIST_STAT_OVF.inc 0]

/-- HCLR empties the history. -/
def histClear : Act :=
  .seq (forEach (List.range 32) fun i => R.SUMP_HIST.set i 0) (R.SUMP_HIST_STAT.set 0 0)

end Sys2Proof.Machine
end

