-- ==== Sys2Proof/Machine/Access.lean ====
section
/-! DEFINITION. What every register write has in common: the error logs (R12, R71–R73), the access codes (R6–R9), shadows and
their conflicts (R27, R86–R88), the drop of a standby's own writes and the forwarding of an owner's (R496, R498). -/

namespace Sys2Proof.Machine

/-- Requester ID, R55. -/
def reqId : Requester → Nat
  | .master m => m.val
  | .lane l => 0x100 + 32 * (l.val / 17) + l.val % 17
  | .gdma g => 0x100 + 32 * g.val + 17
  | .ramp g => 0x100 + 32 * g.val + 18

/-- Requester ID of a gallery DMA. -/
def dmaId (g : Nat) : Nat := 0x100 + 32 * g + 17

/-- A decode error: logged in `XBAR_DERR`, XBAR_DECODE raised (R12, R71). -/
def decodeErr (id : Nat) (wr : Bool) (a : Nat) : Act := acts [
  F.XBAR_DERR_VALID.set 0 1, F.XBAR_DERR_WR.set 0 (b2n wr), F.XBAR_DERR_MASTER.set 0 id, F.XBAR_DERR_COUNT.inc 0,
  F.XBAR_DERR_ADDR.set 0 a, raise .XBAR_DECODE id]

/-- An access error: recorded once in `XBAR_ACCERR` with its reason, XBAR_ACCESS raised (R73). -/
def accessErr (id a reason : Nat) (wr : Bool := true) : Act := acts [
  F.XBAR_ACCERR_VALID.set 0 1, F.XBAR_ACCERR_WR.set 0 (b2n wr), F.XBAR_ACCERR_MASTER.set 0 id,
  F.XBAR_ACCERR_REASON.set 0 reason, F.XBAR_ACCERR_COUNT.inc 0, F.XBAR_ACCERR_ADDR.set 0 a,
  raise .XBAR_ACCESS id reason]

/-- A write refused whole by a block's own rule, REASON 0b11. -/
def dropped (m : Nat) (a : Nat) : Act := accessErr m a 3

/-! ### Answers and pairs (R82, R83) -/

/-- Key of a latch or write buffer: requester and address. -/
def latchKey (id a : Nat) : Nat := id * 2 ^ 32 + a

/-- Answer requester `id`. -/
def respond (id : Nat) (vs : List Nat) (err : Bool := false) : Act :=
  setBus fun b => { b with resp := smInsert b.resp id ⟨vs.map (BitVec.ofNat 64), err⟩, errBeats := smErase b.errBeats id }

/-- Answer requester `id` beat by beat; `bad` are the beats that are error responses (R181). -/
def respondBeats (id : Nat) (vs bad : List Nat) : Act := .seq (respond id vs !bad.isEmpty)
  (onlyIf (!bad.isEmpty) (setBus fun b => { b with errBeats := smInsert b.errBeats id bad }))

/-- A read of the low word of the pair at `a` latches the high word for the requester (R82). -/
def latchHigh (id a v : Nat) : Act := setBus fun b => { b with latch := smInsert b.latch (latchKey id (a + 4)) (BitVec.ofNat 32 v) }

/-- The latch a requester holds for the word at `a`. -/
def latched (s : State) (id a : Nat) : Option Nat := (smFind s.bus.latch (latchKey id a)).map (·.toNat)

/-- Release a latch. -/
def unlatch (id a : Nat) : Act := setBus fun b => { b with latch := smErase b.latch (latchKey id a) }

/-- Hold a low word in the buffer of its writer (R83). -/
def bufLow (id a v : Nat) : Act := setBus fun b => { b with wbuf := smInsert b.wbuf (latchKey id a) (BitVec.ofNat 32 v) }

/-- The low word a requester has buffered. -/
def buffered (s : State) (id a : Nat) : Option Nat := (smFind s.bus.wbuf (latchKey id a)).map (·.toNat)

/-- Empty a write buffer. -/
def unbuf (id a : Nat) : Act := setBus fun b => { b with wbuf := smErase b.wbuf (latchKey id a) }

/-! ### Shadows -/

/-- The number of the next arrival among what waits for an edge (R28). -/
def nextSeq (s : State) : Nat :=
  (s.shPend.map (·.seq) ++ s.mods.masks.map (·.seq) ++ s.strata.cmds.map (·.seq)).foldl (fun m n => max m (n + 1)) 0

/-- The rank of a master among writes presented in the same cycle, highest first: M3, M1, M2, M0, M4 to M9 (R64). -/
def masterRank : Nat → Nat
  | 3 => 0 | 1 => 1 | 2 => 2 | 0 => 3 | m => m

/-- The edge in hand is the switch edge: it releases the held values (R556). -/
def switchDue (s : State) : Bool :=
  F.STRATA_SWSTAT_STATE.get 0 s = 3 && (match s.strata.sectAt with
    | some e => decide (e ≤ tickHere s)
    | none => false)

/-- The value that the applied copy of a shadowed element has after the coming E2 (R27). -/
def comingVal (r : Reg) (i : Nat) (s : State) : Nat :=
  match s.shPend.find? (·.addr = r.addr i) with
  | some w =>
    if w.held && !switchDue s then r.liveVal i s
    else if w.late then (match w.prev with | some p => p.1 | none => r.liveVal i s)
    else r.val i s
  | none => r.liveVal i s

/-- A target of a ramp engine. -/
def isRampTgt (w : ShWrite) : Bool :=
  w.addr < 0x10000000 && 0xF18000 ≤ w.addr % 0x1000000 && w.addr % 0x1000000 < 0xF20000

/-- A word of the slot map. -/
def isSlotmap (w : ShWrite) : Bool :=
  w.addr < 0x10000000 && 0xF00010 ≤ w.addr % 0x1000000 && w.addr % 0x1000000 < 0xF00020

/-- The edge in hand brings gallery `g` back (R563). -/
def returnDue (g : Nat) (s : State) : Bool :=
  let x := s.strata
  x.rDone && x.rErr = 0 && x.rGal = g && decide (x.rEdge + x.rRet ≤ tickHere s)

/-- A write that waits is applied at the edge in hand: one that a switch section holds only at the switch edge (R556), a ramp target only
where its engine then runs (R212), a slot map of a gallery that is out only where it returns (R562). -/
def dueNow (w : ShWrite) (s : State) : Bool :=
  if w.held then switchDue s
  else if isRampTgt w then F.RAMP_CTRL_EN.of (comingVal R.RAMP_CTRL (w.addr / 0x1000000) s) = 1
  else if isSlotmap w && s.strata.out.contains (w.addr / 0x1000000) then returnDue (w.addr / 0x1000000) s
  else true

/-- The write of another master that a write of master `m` to the shadow at `a` meets before its edge cycle (R88): in the edge cycle
one that came in it too or that waits on, since any other is due at the coming edge. -/
def rival (a m : Nat) (s : State) : Option ShWrite :=
  s.shPend.find? fun w => w.addr = a && w.master ≠ m && (!inEdgeCycle s || w.late || !dueNow w s)

/-- A write of master `m` that ties with that of a higher-ranked master at the shadow at `a` lands first, so that the other's
value stands (R87). -/
def tieLost (a m : Nat) (tie : Bool) (s : State) : Bool :=
  match rival a m s with
  | some w => tie && decide (masterRank w.master < masterRank m)
  | none => false

/-- Record that a write of `winner` has overwritten one of `loser` in the shadow at `a` (R88). -/
def noteConflict (a loser winner : Nat) (tie : Bool) : Act := .look fun s => acts [
  F.XBAR_CONFLICT_OVERWRITTEN.set 0 (F.XBAR_CONFLICT_OVERWRITTEN.get 0 s ||| 2 ^ loser),
  onlyIf tie (F.XBAR_CONFLICT_TIE.set 0 1),
  R.XBAR_CONFLICT_LAST.set 0 (a % 2 ^ 32 + b2n tie * 2 ^ 41 + winner * 2 ^ 42 + loser * 2 ^ 52),
  raise .XBAR_SH_CONFLICT loser winner]

/-- A write of master `m` has lost a tie against the waiting write `w`, so that it landed before it (R87). What `w` stands over was the
loser's to overwrite: a write of the winner is recorded now, one of the loser was recorded as the winner's came, and then the tie
is all that is new. -/
def noteTieLost (a m : Nat) (w : ShWrite) : Act := match w.ousted with
  | some x =>
    if x = m then acts [
      F.XBAR_CONFLICT_TIE.set 0 1,
      R.XBAR_CONFLICT_LAST.set 0 (a % 2 ^ 32 + 2 ^ 41 + w.master * 2 ^ 42 + m * 2 ^ 52)]
    else .seq (onlyIf (x = w.master) (noteConflict a x m false)) (noteConflict a m w.master true)
  | none => noteConflict a m w.master true

/-- A write that a standby performs for its owner comes before the owner's MARK of the edge that is due: the standby holds its E2 for it
(R497; log 55). -/
def heldForMark (m : Nat) (s : State) : Bool :=
  let st := F.PAIR_STAT_STATE.get 0 s
  3 ≤ st && st ≤ 6 && (m = 1 || m = 2 || m = 9) && !s.pair.arrived.contains (BitVec.ofNat 32 (nextTick s))

/-- A write reaches a shadow whose value was `old` (R27, R88): it waits for its edge in place of any earlier write to the same
element, and a write of another master that it overwrites is recorded. In the edge cycle it is due one edge later and
overwrites nothing that is due at the coming one. A write of the loader's switch section is held (R556). A write that loses a tie is the one
overwritten (R87). -/
def noteShadow (a old m : Nat) (tie held : Bool) : Act := .look fun s =>
  let late := inEdgeCycle s && !heldForMark m s
  if tieLost a m tie s then match rival a m s with
    | some w => noteTieLost a m w
    | none => .done
  else
    let was := s.shPend.find? (·.addr = a)
    let prev := match was with
      | some w => if late then (if w.late then w.prev else if dueNow w s then some (old, w.master) else none) else none
      | none => none
    let ousted := match was with
      | some w => if late && !w.late && dueNow w s then none else some w.master
      | none => none
    .seq (match rival a m s with
      | some w => noteConflict a w.master m tie
      | none => .done)
      (.look fun s => .upd (.shPend (s.shPend.filter (·.addr ≠ a) ++ [⟨a, m, held, late, prev, nextSeq s, ousted⟩])))

/-! ### Fields -/

/-- What a write does to one element: its new value, whether an lk field refused a change, whether an unlisted encoding was
refused, and whether a shadowed field took a value. -/
structure WrPlan where
  val : Nat
  lkHit : Bool
  unlisted : Bool
  sh : Bool
  deriving DecidableEq, Repr

/-- A field's part of a write of `v`, of which the bits of `mask` are written, by its access code (R6–R9). -/
def planField (locked : Bool) (old v mask : Nat) (p : WrPlan) (f : Fld) : WrPlan :=
  let m := f.of mask
  let w := f.of v &&& m
  let cur := f.of old
  let new := (cur - (cur &&& m)) + w
  if m = 0 then p
  else match f.acc with
    | .ro => p
    | .wt => { p with sh := p.sh }
    | .wc => { p with val := putBits p.val f.hi f.lo (cur - (cur &&& w)) }
    | .wcCount => if w = 2 ^ f.width - 1 then { p with val := putBits p.val f.hi f.lo 0 } else p
    | .rw =>
      if f.lk && locked then { p with lkHit := p.lkHit || new ≠ cur }
      else if f.unlisted.contains new then { p with unlisted := true }
      else { p with val := putBits p.val f.hi f.lo new, sh := p.sh || f.sh }

/-- The plan of a whole write. -/
def planWrite (locked : Bool) (old v mask : Nat) (fs : List Fld) : WrPlan :=
  fs.foldl (planField locked old v mask) ⟨old, false, false, false⟩

/-- All bits of a register of `n` words. -/
def fullMask (n : Nat) : Nat := 2 ^ (32 * n) - 1

/-- Store a write by the access codes of its fields, note a shadow, record a refused part (R6–R9, R73). `a` is the address of
the access that is recorded. -/
def storeWrite (e : RegEntry) (i m v mask a : Nat) (tie held : Bool := false) : Act := .look fun s =>
  let p := planWrite s.lock (e.reg.val i s m) v mask e.flds
  acts [
    onlyIf (!(p.sh && tieLost (e.reg.addr i) m tie s)) (e.reg.set i p.val m),
    onlyIf p.sh (noteShadow (e.reg.addr i) (e.reg.val i s m) m tie held),
    if p.lkHit then accessErr m a 1 else onlyIf p.unlisted (accessErr m a 2)]

/-- The value an element would have after a write, before any shadow is applied. -/
def afterWrite (e : RegEntry) (i m v mask : Nat) (s : State) : Nat :=
  (planWrite s.lock (e.reg.val i s m) v mask e.flds).val

/-- The value a write asks for, but for LOCK: a rule of the block comes before an lk field that refuses, so it judges the write as it
came (R73; DEDUCED, log 37). -/
def asWritten (e : RegEntry) (i m v mask : Nat) (s : State) : Nat :=
  (planWrite false (e.reg.val i s m) v mask e.flds).val

/-! ### The pair -/

/-- The address lies in a block whose writes an owner forwards: galleries, chambers, and peripheral blocks other than SYS, XBAR,
SUMP, HCP and PAIR (R496). -/
def forwardedBlock (a : Nat) : Bool :=
  a < 0x14000000 || (0x20010000 ≤ a && a < 0x20150000 && a / 0x10000 ≠ 0x2003 && a / 0x10000 ≠ 0x2004
    && a / 0x10000 ≠ 0x2011 && a / 0x10000 ≠ 0x2013)

/-- Masters whose writes are forwarded, and dropped at a standby: M1, M9 and M2 for the management agent (R496, R498). -/
def hostMaster (m : Nat) : Bool := m = 1 || m = 2 || m = 9

/-- A standby in COPY, CONVERGE, CHECK or SYNCED drops the write (R498); in READY one of its management agent (R398). -/
def standbyDrops (m a : Nat) (s : State) : Bool :=
  let st := F.PAIR_STAT_STATE.get 0 s
  3 ≤ st && (st ≤ 6 || (st = 7 && m = 2)) && hostMaster m && forwardedBlock a

/-- The data that an owner forwards for a write of `v` at `a`: its mute state stands for SW (R583). -/
def forwarded (a v : Nat) (s : State) : Nat :=
  if a = R.PWR_MUTE.addr 0 && ((smFind s.pwr.ins 0).map (·.active)).getD false then v ||| 2 ^ 31 else v

/-- A WRITE message is formed. -/
def writeSend (w : WriteMsg) : Act :=
  .seq (setPair fun p => { p with sentWrites := p.sentWrites ++ [w] }) (sipQueue w.tick.toNat (.write w))

/-- Send a WRITE message for a write of an owner whose partner is in a standby state (R496). -/
def forward (m a en v : Nat) : Act := .look fun s =>
  onlyIf (pairIs 2 s && isStandby (F.PAIR_STAT_PSTATE.get 0 s) && hostMaster m && forwardedBlock a) (writeSend
    { tick := BitVec.ofNat 32 (tickNum s), addr := BitVec.ofNat 32 a, en := BitVec.ofNat 8 en
      data := BitVec.ofNat 64 (forwarded a v s), master := ⟨m % 10, Nat.mod_lt _ (by decide)⟩ })

/-! ### The grants of the matrices (R61, R66) -/

/-- The chip-matrix target an address lies in, numbered 0 to 6 (R55, R66). -/
def chipTarget (a : Nat) : Option Nat :=
  if a < 0x10000000 then some (3 + a / 0x4000000)
  else if a < 0x14000000 then some (3 + a / 0x1000000 % 4)
  else if 0x20000000 ≤ a && a < 0x20150000 then some 0
  else if 0x30000000 ≤ a && a < 0x30800000 then some 1
  else if 0x80000000 ≤ a then some 2
  else none

/-- The target of the chamber matrix of `c` that an address below it lies in: the pool bank, the registers, the downlinks of the
four galleries (R54). -/
def chamberTarget (c a : Nat) : Option Nat :=
  let t := 0x100 + 16 * c
  if a < 0x10000000 then some (t + 2 + a / 0x1000000 % 4)
  else if a % 0x1000000 < 0x400000 then some t
  else if a % 0x1000000 / 0x1000 = 0xF00 then some (t + 1)
  else none

/-- The target of the gallery matrix of the gallery that `a` lies in: memory banks 0 to 7, the register window, the lane windows
(R51–R53). -/
def galleryTarget (a : Nat) : Option Nat :=
  let t := 0x1000 + 32 * (a / 0x1000000)
  let o := a % 0x1000000
  if o < 0x440000 then some (t + 9 + o / 0x40000)
  else if 0x800000 ≤ o && o < 0xA00000 then some (t + o / 8 % 8)
  else if 0xF00000 ≤ o then some (t + 8)
  else none

/-- The targets on the way of a request of requester `id` to the word at `a`, each with the port that it is granted there. A lane
and a ramp engine stay in their gallery; a gallery DMA goes on by the uplinks of its gallery and chamber. -/
def grantPath (id a : Nat) : List (Nat × Nat) :=
  let hop (t : Option Nat) (p : Nat) : List (Nat × Nat) := t.toList.map fun t => (t, p)
  let down (m : Nat) : List (Nat × Nat) :=
    hop (chipTarget a) m ++
      (if a < 0x14000000 then hop (chamberTarget (if a < 0x10000000 then a / 0x4000000 else a / 0x1000000 % 4) a) 4 else []) ++
      (if a < 0x10000000 then hop (galleryTarget a) 19 else [])
  if id < 0x100 then down id
  else
    let g := (id - 0x100) / 32
    let p := (id - 0x100) % 32
    let c := g / 4
    if a < 0x10000000 then (if a / 0x1000000 = g then hop (galleryTarget a) p else [])
    else if p ≠ 17 then []
    else (0x1000 + 32 * g + 26, 17) ::
      (if chipTarget a = some (3 + c) then hop (chamberTarget c a) (g % 4) else (0x100 + 16 * c + 6, g % 4) :: down (5 + c))

/-- Targets grant ports, one after another: each parks on its port (R66), and a gallery-matrix target ranks the next one highest
(R61). -/
def grantAt (ps : List (Nat × Nat)) : Act := setBus fun b => { b with
    park := ps.foldl (fun m p => smInsert m p.1 p.2) b.park
    rank := (ps.filter fun p => 0x1000 ≤ p.1).foldl (fun m p => smInsert m p.1 ((p.2 + 1) % 20)) b.rank }

/-- The targets on the way of requester `id` grant it, slot by slot. -/
def grant (id : Nat) (slots : List Nat) : Act := grantAt (slots.flatMap (grantPath id))

/-- The uplink of the gallery grants a lane slot, by which it reaches its pool queue ports (R56; DEDUCED, log 83). -/
def grantUplink (l : Nat) : Act := grantAt [(0x1000 + 32 * (l / 17) + 26, l % 17)]

/-- The targets grant an access of a master to the word at `a`. -/
def parkOn (m a : Nat) : Act := grant m [a]

/-- A read by a chip-matrix master. -/
def reads (m a : Nat) (act : Act) : Act := .look fun s => if asleep s then .done else .seq (parkOn m a) act

/-- A write of master `m` reaches address `a`: nothing while the matrices stand; dropped at a standby; else
forwarded where R496 says so, and performed. -/
def arrive (m a en v : Nat) (act : Act) : Act := .look fun s =>
  if asleep s then .done
  else .seq (parkOn m a)
    (if standbyDrops m a s then dropped m a else .seq (forward m a en v) act)

/-- A write of both words of the pair at `a` reaches it: the low word through the master's buffer, which the commit empties (R83,
R645). -/
def arrivePair (m a v : Nat) (act : Act) : Act := arrive m a 0xFF v (.seq (unbuf m a) act)

/-- A 32-bit write to element `i` of a one-word register. -/
def write32 (e : RegEntry) (m i v : Nat) (tie : Bool := false) : Act :=
  storeWrite e i m v (fullMask 1) (e.reg.addr i) tie

/-- The entry of a register in the register table. -/
def entryOf (r : Reg) : RegEntry :=
  match (regTableAt r.base).find? (fun e => decide (e.reg.name = r.name)) with
  | some e => e
  | none => ⟨r, []⟩

end Sys2Proof.Machine
end

