-- ==== Sys2Proof/Machine/Ecc.lean ====
section
/-! DEFINITION. On-die memories: instances and codeword errors, their logs, remapping, the journal, and the accesses of the
matrices to memory windows (05_memories_and_ecc.md, R80–R85, R518). -/

namespace Sys2Proof.Machine

/-! ### Codewords -/

/-- Key of a codeword: instance code, address unit, half of a 64-bit SRAM word (R164, R165). -/
def eccKey (inst unit half : Nat) : Nat := inst * 2 ^ 29 + unit * 2 + half

/-- Instance code of a key. -/
def eccInst (k : Nat) : Nat := k / 2 ^ 29

/-- Address unit of a key. -/
def eccUnit (k : Nat) : Nat := k % 2 ^ 29 / 2

/-- Bus address and length in bytes of the codeword of a key, for the memories that have a window. -/
def eccAddr (k : Nat) : Option (Nat × Nat) :=
  let inst := eccInst k
  let u := eccUnit k
  let g := inst / 256 % 16
  let l := 17 * g + inst % 32
  match inst / 4096 with
  | 0 => some (xyAddr l false u, 8)
  | 1 => some (xyAddr l true u, 8)
  | 2 => some (progAddr l u + 4 * (k % 2), 4)
  | 4 => some (galAddr g u, 8)
  | 6 => some (0x10000000 + g * 0x1000000 + 4 * u, 4)
  | 0xA => some (0x30000000 + 8 * u, 8)
  | 0xB => some (0x80000000 + 8 * u, 8)
  | _ => none

/-- The codeword of `k` overlaps the `n` bytes from `a`. -/
def eccOverlaps (a n k : Nat) : Bool := match eccAddr k with
  | some (b, len) => b < a + n && a < b + len
  | none => false

/-- The codeword of `k` lies wholly in the `n` bytes from `a`. -/
def eccInside (a n k : Nat) : Bool := match eccAddr k with
  | some (b, len) => a ≤ b && b + len ≤ a + n
  | none => false

/-- Codewords in error that an access to the `n` bytes from `a` touches, in ascending instance code and ADDR. -/
def marksIn (s : State) (a n : Nat) : List (Nat × EccMark) := s.ecc.marks.filter fun p => eccOverlaps a n p.1

/-- Report a correctable error (R174, R176). -/
def ceReport (k bit : Nat) : Act := .look fun s =>
  if s.ecc.queue.length < 16 then setEcc fun e => { e with queue := e.queue ++ [⟨eccInst k, eccUnit k, bit⟩] }
  else F.SYS_ECC_CELOST_COUNT.inc 0

/-- Count and record an uncorrectable error found by requester `req`, and raise the event of its row (R179–R181). Every
uncorrectable error is a fault flag of the tick; a lane's is raised as LANE_FAULT by the lane. -/
def ueNote (k req : Nat) (ev : Option Ev) : Act := .look fun s => acts [
  F.SYS_ECC_UECNT_COUNT.inc 0,
  onlyIf (!F.SYS_ECC_UE_VALID.on 0 s)
    (R.SYS_ECC_UE.set 0 (eccUnit k + eccInst k * 2 ^ 37 + req * 2 ^ 53 + 2 ^ 63)),
  setSump fun x => { x with flags := x.flags ||| 1 },
  match ev with
  | some e => raise e req (eccInst k) (eccUnit k)
  | none => .done]

/-- What the marks of one access come to: every correctable error is reported, every uncorrectable one noted; `k` goes on with
whether the data are good. -/
def eccJudge (ms : List (Nat × EccMark)) (req : Nat) (ev : Option Ev) (k : Bool → Act) : Act :=
  acts [
    forEach ms fun p => match p.2.bit with
      | some b => ceReport p.1 b
      | none => ueNote p.1 req ev,
    k (ms.all fun p => p.2.bit.isSome)]

/-- Check the codewords that a read of `n` bytes from `a` touches (R166). -/
def eccRead (a n req : Nat) (ev : Option Ev) (k : Bool → Act) : Act := .look fun s => eccJudge (marksIn s a n) req ev k

/-- Check one codeword by its key. -/
def eccReadKey (key req : Nat) (ev : Option Ev) (k : Bool → Act) : Act := .look fun s =>
  eccJudge (s.ecc.marks.filter fun p => p.1 = key) req ev k

/-- Codewords written whole are good again, unless a cell is stuck (R167, R168). -/
def eccFresh (p : Nat → Bool) : Act :=
  setEcc fun e => { e with marks := e.marks.filter fun x => x.2.stuck || !p x.1 }

/-- Codewords of `n` bytes from `a` are written whole. -/
def eccFull (a n : Nat) : Act := .look fun s =>
  if s.ecc.marks.isEmpty then .done else eccFresh (eccInside a n)

/-- Write the 40-bit word in the slot at `a` whole, with valid check bits (R167, R168). -/
def putWord40 (a : Nat) (v : W40) : Act := .seq (setWord40 a v) (eccFull a 8)

/-- Bytes from `a`, where those of an uncorrectable codeword read as zeros. -/
def cleanBytes (s : State) (a n : Nat) : List Byte :=
  let bad := (marksIn s a n).filter fun p => p.2.bit.isNone
  if bad.isEmpty then memBytes s.mem a n
  else (List.range n).map fun i => if bad.any fun p => eccOverlaps (a + i) 1 p.1 then 0 else memGet s.mem (a + i)

/-- A write that covers some codewords in part is a read-modify-write of those: dropped on an uncorrectable one, which
otherwise it repairs (R168). -/
def eccWrite (a n req : Nat) (ev : Option Ev) (k : Bool → Act) : Act := .look fun s =>
  eccJudge ((marksIn s a n).filter fun p => !eccInside a n p.1) req ev fun ok =>
    .seq (onlyIf ok (eccFresh (eccOverlaps a n))) (k ok)

/-! ### The correctable-error log -/

/-- Store element `i` of the log. -/
def ceEntry (r : CeReport) : Nat := r.addr % 2 ^ 28 + r.inst % 65536 * 2 ^ 40 + r.bit % 128 * 2 ^ 56 + 2 ^ 63

/-- The log takes the report at the front of the capture queue (R175–R177). A LIMIT written to or below the count as it stands is reported
with the next new report (DESIGN CHOICE, log 104). -/
def ceTake : Act := .look fun s =>
  match s.ecc.queue with
  | [] => .done
  | r :: rest =>
    let c := r.inst / 4096
    .seq (setEcc fun e => { e with queue := rest })
      (match (List.range 8).find? fun i => F.SYS_ECC_CELOG_VALID.on i s && F.SYS_ECC_CELOG_INST.get i s == r.inst
          && F.SYS_ECC_CELOG_ADDR.get i s == r.addr with
       | some i => F.SYS_ECC_CELOG_HITS.inc i
       | none =>
        let slot := match (List.range 8).find? fun i => !F.SYS_ECC_CELOG_VALID.on i s with
          | some i => i
          | none => s.ecc.order.headD 0
        acts [
          R.SYS_ECC_CELOG.set slot (ceEntry r),
          setEcc fun e => { e with order := (e.order.filter (· ≠ slot)) ++ [slot] },
          F.SYS_ECC_CECNT_COUNT.inc c,
          raise .ECC_CE r.inst (r.addr % 65536) (r.addr / 65536),
          .look fun s =>
            let n := F.SYS_ECC_CECNT_COUNT.get c s
            let lim := F.SYS_ECC_THRESH_LIMIT.get c s
            if lim ≠ 0 && lim ≤ n && !s.ecc.limited.contains c then
              .seq (setEcc fun e => { e with limited := e.limited ++ [c] }) (raise .ECC_CE_LIMIT c)
            else .done])

/-! ### Remapping -/

/-- Instances of a class, size in address units, remap entries (R163); nothing where the instance does not exist. -/
def remapSize (inst addr : Nat) : Option Nat :=
  let hi := inst / 256 % 16
  let lo := inst % 32
  if inst / 32 % 8 ≠ 0 then none
  else match inst / 4096 with
    | 0 | 1 => if lo ≤ 16 && addr < 8192 then some 4 else none
    | 2 => if lo ≤ 16 && addr < 4096 then some 4 else none
    | 4 => if lo < 8 && addr < 262144 && addr % 8 = lo then some 8 else none
    | 5 => if lo = 0 && addr < 16384 then some 4 else none
    | 6 => if lo = 0 && hi < 4 && addr < 1048576 then some 32 else none
    | 7 => if lo = 0 && hi < 4 && addr < 16384 then some 2 else none
    | 8 => if lo = 0 && hi = 0 && addr < 65536 then some 4 else none
    | 9 => if lo = 0 && hi = 0 && addr < 4096 then some 2 else none
    | _ => none

/-- Put zero into one of the four words of ramp parameter `i`: the target written, the applied target, the current value, the
remaining length, in the order in which chapter 06 names them (DEDUCED, log 88). -/
def zeroRampWord (i w : Nat) : Act :=
  let put (f : RampParam → RampParam) : Act := setRoute fun r => { r with
    ramps := smPut (fun _ => rampReset) r.ramps i (f (smGet (fun _ => rampReset) r.ramps i)) }
  match w with
  | 0 => R.RAMP_TGT.set i 0
  | 1 => put fun x => { x with target := 0, db := false }
  | 2 => put fun x => { x with cur := 0, endv := 0 }
  | _ => put fun x => { x with dur := 0, k := 0, kEnd := 0 }

/-- Put zeros into an address unit (the result COPY_UE). -/
def zeroUnit (inst addr : Nat) : Act :=
  let g := inst / 256 % 16
  match inst / 4096 with
  | 0 => memSetLe (xyAddr (17 * g + inst % 32) false addr) 8 0
  | 1 => memSetLe (xyAddr (17 * g + inst % 32) true addr) 8 0
  | 2 => memSetLe (progAddr (17 * g + inst % 32) addr) 8 0
  | 4 => memSetLe (galAddr g addr) 8 0
  | 5 => zeroRampWord (4096 * g + addr / 4) (addr % 4)
  | 6 => memSetLe (0x10000000 + g * 0x1000000 + 4 * addr) 4 0
  | 7 => setPool fun p => { p with tags := smInsert p.tags (16384 * g + addr) 0 }
  | 8 => setRoute fun r => { r with tbl := smErase r.tbl addr }
  | 9 => R.TICK_LAT.set addr 0
  | _ => .done

/-- Free remap entries of an instance. -/
def remapFree (s : State) (inst n : Nat) : Nat := n - (s.ecc.remaps.filter (·.inst = inst)).length

/-- Perform a remap (R184, R185): FREE shows what is left in the instance, also where only the ADDR does not exist. `host` says that
the command register shows the result. A unit that is remapped already is DUP even where no entry is free, and an uncorrectable read is
recorded with REQ 0 and raises no event but ECC_REMAP (DESIGN CHOICE, log 104). -/
def remapDo (inst addr : Nat) (host : Bool) : Act := .look fun s =>
  let finish (code free : Nat) : Act := onlyIf host (acts [
    F.SYS_REMAP_RES_BUSY.set 0 0, F.SYS_REMAP_RES_CODE.set 0 code, F.SYS_REMAP_RES_FREE.set 0 free,
    raise .ECC_REMAP inst (addr % 65536) (addr / 65536 % 4096 + code * 4096)])
  match remapSize inst addr with
  | none => finish 4 (match remapSize inst (inst % 32) with | some n => remapFree s inst n | none => 0)
  | some n =>
    let free := remapFree s inst n
    if s.ecc.remaps.any fun r => r.inst = inst && r.addr = addr then finish 3 free
    else if free = 0 then finish 2 0
    else
      let mine (k : Nat) : Bool := eccInst k = inst && eccUnit k = addr
      eccJudge (s.ecc.marks.filter fun p => mine p.1) 0 none fun ok => acts [
        onlyIf (!ok) (zeroUnit inst addr),
        setEcc fun e => { e with
          remaps := e.remaps ++ [⟨inst, addr, false, s.ecc.marks.filter fun p => mine p.1⟩]
          marks := e.marks.filter fun p => !mine p.1 },
        finish (if ok then 1 else 5) (free - 1)]

/-- The remap command that waits is performed. -/
def remapApply : Act := .look fun s =>
  match s.ecc.remapPend with
  | none => .done
  | some (inst, addr) => .seq (setEcc fun e => { e with remapPend := none }) (remapDo inst addr true)

/-- A committed write of `SYS_REMAP_CMD` (R184). One that comes in the edge cycle takes effect in E2 of that edge (DESIGN CHOICE,
log 104). -/
def wrRemap (m v mask : Nat) : Act := .look fun s =>
  let e := entryOf R.SYS_REMAP_CMD
  let add := F.SYS_REMAP_CMD_ADD.of (v &&& mask) = 1
  if add && F.SYS_REMAP_RES_BUSY.on 0 s then dropped m (R.SYS_REMAP_CMD.addr 0 + 4)
  else .seq (storeWrite e 0 m v mask (R.SYS_REMAP_CMD.addr 0 + 4))
    (onlyIf add (.look fun s => .seq (F.SYS_REMAP_RES_BUSY.set 0 1)
      (setEcc fun x => { x with
        remapPend := some (F.SYS_REMAP_CMD_INST.get 0 s, F.SYS_REMAP_CMD_ADDR.get 0 s) })))

/-- The boot ROM applies the remap list of the scene store (R183, R186). It reads the whole area of the list, so that an uncorrectable word
there that the list does not use makes it bad (DESIGN CHOICE, log 104). -/
def remapList : Act := .look fun s =>
  let w (i : Nat) : Nat := word64 s (0x30000000 + 8 * i)
  let n := w 0 / 2 ^ 16 % 65536
  let bytes := memBytes s.mem 0x30000000 (8 * n + 8)
  eccRead 0x30000000 4096 0x3F2 (some .ECC_UE_SCENE) fun ok =>
    if ok && w 0 / 2 ^ 32 = 0x524D4150 && w 0 % 65536 = 1 && n ≤ 510 && w (n + 1) = crc32c bytes then
      .seq (F.SYS_REMAP_RES_LIST_BAD.set 0 0)
        (forEach (List.range n) fun i => remapDo (w (i + 1) / 2 ^ 48) (w (i + 1) % 2 ^ 28) false)
    else F.SYS_REMAP_RES_LIST_BAD.set 0 1

/-! ### The journal -/

/-- Address of a journal slot (R187). -/
def jrnlSlot (j : Nat) : Nat := 0x30600000 + j % 64 * 0x8000

/-- The host bytes of a journal, as the writer reads them from LPDDR5X: a word that is uncorrectable gives zeros (DESIGN CHOICE,
log 89). -/
def jrnlHost (s : State) : List Byte := cleanBytes s (F.PWR_JHOST_HADDR.get 0 s) (F.PWR_JHOST_HLEN.get 0 s)

/-- The payload of a journal (R587). -/
def jrnlPayload (saved : Bool) (s : State) : List Byte :=
  bytesLe 4 (R.STRATA_ICW.val 0 s) ++ bytesLe 1 (b2n saved + 2 * b2n s.pwr.full) ++
  bytesLe 2 (F.STRATA_SWSTAT_ACTIVE.get 0 s + F.STRATA_SWSTAT_ASRC.get 0 s * 2 ^ 15) ++ bytesLe 1 0 ++
  bytesLe 4 (nowNs s / 1000000000) ++ bytesLe 4 (nowNs s % 1000000000) ++ bytesLe 16 0 ++ jrnlHost s

/-- The journal writer puts bytes from `a` into the scene store: whole words, and a read-modify-write of a last word that they cover
in part, dropped where that is uncorrectable (R168, R181). -/
def jrnlPut (a : Nat) (bs : List Byte) : Act :=
  let n := bs.length / 8 * 8
  acts [memSetBytes a (bs.take n), eccFull a n,
    onlyIf (decide (n < bs.length)) (eccWrite (a + n) (bs.length - n) 0x3F2 (some .ECC_UE_SCENE) fun ok =>
      onlyIf ok (memSetBytes (a + n) (bs.drop n)))]

/-- Write one journal to the next slot (R189, R190): the payload, bytes 0 to 15, the word with the CRC-32C. An uncorrectable word among the
host bytes is reported as the journal writer's reads are (DESIGN CHOICE, log 89). -/
def jrnlWrite (saved : Bool) : Act := .look fun s =>
  let pay := jrnlPayload saved s
  let seqn := (R.SYS_JRNL_SEQ.val 0 s + 1) % 2 ^ 32
  let j := F.SYS_JRNL_STAT_NEXT.get 0 s
  let head := bytesLe 4 seqn ++ bytesLe 4 pay.length ++ bytesLe 8 (tickNum s)
  acts [
    onlyIf (!s.ecc.marks.isEmpty)
      (eccRead (F.PWR_JHOST_HADDR.get 0 s) (F.PWR_JHOST_HLEN.get 0 s) 0x3F2 (some .ECC_UE_SCENE) fun _ => .done),
    jrnlPut (jrnlSlot j + 32) pay,
    jrnlPut (jrnlSlot j) (head ++ bytesLe 4 (crc32c (head ++ pay)) ++ bytesLe 12 0),
    R.SYS_JRNL_SEQ.set 0 seqn, F.SYS_JRNL_STAT_NEXT.set 0 ((j + 1) % 64)]

/-- The payload length that slot `j` gives, at most what a slot holds. -/
def jrnlLen (s : State) (j : Nat) : Nat := min (memLe s.mem (jrnlSlot j + 4) 4) 32736

/-- The boot ROM reads the journal slots: their errors are reported (R174, R179, R181). -/
def jrnlScan : Act := .look fun s =>
  onlyIf (!s.ecc.marks.isEmpty) (forEach (List.range 64) fun j => .look fun s =>
    eccRead (jrnlSlot j) (32 + jrnlLen s j) 0x3F2 (some .ECC_UE_SCENE) fun _ => .done)

/-- Slot `j` holds a journal with a correct CRC-32C; its sequence number (R191). -/
def jrnlValid (s : State) (j : Nat) : Option Nat :=
  let a := jrnlSlot j
  let len := memLe s.mem (a + 4) 4
  if len ≤ 32736 && memLe s.mem (a + 16) 4 = crc32c (memBytes s.mem a 16 ++ memBytes s.mem (a + 32) len)
    && !((marksIn s a (32 + len)).any fun p => p.2.bit.isNone) then some (memLe s.mem a 4) else none

/-- The valid journal: slot and sequence number of the greatest correct one, compared modulo 2^32 (R191). -/
def jrnlLatest (s : State) : Option (Nat × Nat) :=
  (List.range 64).foldl (fun best j => match jrnlValid s j, best with
    | some q, none => some (j, q)
    | some q, some (jb, b) => if 0 < (q + 2 ^ 32 - b) % 2 ^ 32 && (q + 2 ^ 32 - b) % 2 ^ 32 < 2 ^ 31 then some (j, q)
        else some (jb, b)
    | none, b => b) none

/-! ### Memory windows -/

/-- The windows of memory on the chip bus (R10, R11, R51–R54). -/
inductive Window where
  | x | y | prog | gal | pool | scene | dram
  deriving DecidableEq, Repr

/-- End of the usable LPDDR5X window (R635). -/
def dramEnd (s : State) : Nat := if F.DRAM_CFG_SIZE.get 0 s = 0 then 0xF0000000 else 0x100000000

/-- Usable size of LPDDR5X in bytes (R635). -/
def dramSize (s : State) : Nat := dramEnd s - 0x80000000

/-- The memory window an address lies in. -/
def windowOf (a : Nat) (s : State) : Option Window :=
  let o := a % 0x1000000
  if a < 0x10000000 then
    if o < 0x440000 then
      let p := o % 0x40000
      if p < 0x10000 then some .x else if p < 0x20000 then some .y else if p < 0x28000 then some .prog else none
    else if 0x800000 ≤ o && o < 0xA00000 then some .gal
    else none
  else if a < 0x14000000 then (if o < 0x400000 then some .pool else none)
  else if 0x30000000 ≤ a && a < 0x30800000 then some .scene
  else if 0x80000000 ≤ a && a < dramEnd s then some .dram
  else none

/-- Words of 40 bits in 64-bit slots. -/
def Window.is40 (w : Window) : Bool := w = .x || w = .y || w = .gal

/-- A 64-bit slot as a 64-bit read gives it: 40-bit words sign-extended (R84). -/
def slotRead (w : Window) (s : State) (a : Nat) : Nat :=
  if w.is40 then ofInt 64 (toInt 40 (word40 s a).toNat) else word64 s a

/-- The lane slot a lane window address lies in. -/
def slotAt (a : Nat) : Nat := 17 * (a / 0x1000000) + a % 0x1000000 / 0x40000

/-- A write of a chip-matrix master into lane memory also goes to the gallery copy while it is enabled, for a slot that holds an active logical
lane, or that would while its gallery is out (R518, R562). -/
def mirrorCopy (m a : Nat) (w : Window) : Act := .look fun s =>
  let l := slotAt a
  let g := l / 17
  let lane := if m = 0 && s.strata.out.contains g && l % 17 < 16 then some (16 * g + l % 17) else laneIn s l
  match lane with
  | none => .done
  | some n =>
    if m < 0x100 && F.GAL_COPY_EN.liveOn g s && (w = .x || w = .y || w = .prog) then
      let o := a % 0x40000 / 8 * 8
      let dst := 0x80000000 + 4096 * F.GAL_COPY_BASE.live g s + n % 16 * 0x28000 +
        (match w with | .prog => o - 0x20000 | .x => 0x8000 + o | _ => 0x18000 + (o - 0x10000))
      .seq (memSetLe dst 8 (slotRead w s (a / 8 * 8))) (eccFull dst 8)
    else .done

/-- Read `n` bytes at `a` in a memory window; `k` goes on with the value and whether it is an error response. -/
def memRead (w : Window) (id a n : Nat) (ev : Option Ev) (k : Nat → Bool → Act) : Act :=
  let b := a / 8 * 8
  eccRead (if w.is40 then b else a) (if w.is40 then 8 else n) id ev fun ok => .look fun s =>
    if ok then k (slotRead w s b / 2 ^ (8 * (a - b)) % 2 ^ (8 * n)) false else k 0 true

/-- One 64-bit slot of a write: its address, the bytes enabled, the data. -/
structure SlotWr where
  addr : Nat
  en : Nat
  data : Nat
  deriving DecidableEq, Repr

/-- The window refuses the write of a slot as narrow (R80): of a slot of 40 bits or of a program word, whole halves are written. -/
def SlotWr.narrow (w : Window) (x : SlotWr) : Bool :=
  (w.is40 || w = .prog) && !(x.en = 0 || x.en = 0xF || x.en = 0xF0 || x.en = 0xFF)

/-- What of a write of requester `id` comes to memory: a low half of a program word waits in its buffer, a high half commits both
(R83, R85). -/
def SlotWr.lands (w : Window) (id : Nat) (s : State) (x : SlotWr) : SlotWr :=
  if w = .prog then
    if x.en = 0xF then { x with en := 0 }
    else if x.en = 0xF0 then match buffered s id x.addr with
      | some lo => { x with en := 0xFF, data := lo + x.data / 2 ^ 32 * 2 ^ 32 }
      | none => x
    else x
  else x

/-- The write buffer of a program word after a write by requester `id`: a low half is held, any other write empties it. -/
def SlotWr.pair (w : Window) (id : Nat) (x : SlotWr) : Act :=
  if w = .prog && decide (x.en ≠ 0) then
    (if x.en = 0xF then bufLow id x.addr (x.data % 2 ^ 32) else unbuf id x.addr)
  else .done

/-- Store a slot by its enabled bytes; 40-bit words by the halves of R84. -/
def SlotWr.store (w : Window) (id : Nat) (x : SlotWr) : Act := .look fun s =>
  if x.en = 0 then .done
  else if w.is40 then
    let old := (word40 s x.addr).toNat
    let new := (if bitOf x.en 0 then x.data % 2 ^ 32 else old % 2 ^ 32) +
      (if bitOf x.en 4 then x.data / 2 ^ 32 % 256 else old / 2 ^ 32) * 2 ^ 32
    .seq (setWord40 x.addr (BitVec.ofNat 40 new)) (mirrorCopy id x.addr w)
  else .seq
    (forEach ((List.range 8).filter fun i => bitOf x.en i) fun i =>
      .upd (.mem (x.addr + i) (BitVec.ofNat 8 (x.data / 2 ^ (8 * i)))))
    (onlyIf (w = .prog) (mirrorCopy id x.addr w))

/-- Which bytes of the codeword of a key the slots write. -/
def slotsOn (xs : List SlotWr) (key : Nat) : List Bool := match eccAddr key with
  | some (c, len) => (List.range len).map fun i => xs.any fun x => x.addr ≤ c + i && c + i < x.addr + 8 && bitOf x.en (c + i - x.addr)
  | none => []

/-- Address of the first enabled byte of the slot at `b`: the byte address that a refused beat records (log 10). -/
def firstByte (b en : Nat) : Nat := b + ((List.range 8).find? fun i => bitOf en i).getD 0

/-- Write the slots of one beat in a memory window, all of its enabled bytes or none (R69): refused where one is narrow (R80), dropped
in full where a codeword that they cover in part is uncorrectable (R168). `k` goes on with whether it met one. -/
def slotsWrite (w : Window) (id : Nat) (xs : List SlotWr) (ev : Option Ev) (k : Bool → Act) : Act := .look fun s =>
  match xs.find? (·.narrow w) with
  | some x => .seq (accessErr id (firstByte x.addr x.en) 0) (k false)
  | none =>
    let ys := xs.map (·.lands w id s)
    eccJudge (s.ecc.marks.filter fun p => (slotsOn ys p.1).any (·) && !(slotsOn ys p.1).all (·)) id ev fun ok => acts [
      onlyIf ok (acts [
        forEach xs fun x => x.pair w id,
        forEach ys fun x => x.store w id,
        onlyIf (!s.ecc.marks.isEmpty) (eccFresh fun key => (slotsOn ys key).any (·))]),
      k !ok]

end Sys2Proof.Machine
end

