-- ==== Sys2Proof/Machine/Mix.lean ====
section
/-! DEFINITION. Fades, gain ramps, silence detectors, route writes and ropes (06_routing_and_mixing.md, R642). -/

namespace Sys2Proof.Machine

/-! ### Gains, R642 -/

/-- x / d to the nearest integer, ties to even. -/
def divEven (x : Int) (d : Nat) : Int :=
  let q := x / (d : Int)
  let r := x % (d : Int)
  if 2 * r < d then q else if 2 * r > d then q + 1 else if q % 2 = 0 then q else q + 1

/-- An exact value at the nearest 40-bit word. -/
def clampW40 (x : Int) : W40 := BitVec.ofInt 40 (max (-(2 ^ 39 : Int)) (min x (2 ^ 39 - 1)))

/-- A sample times a gain num / den (R642). -/
def scale (v : W40) (num den : Nat) : W40 := BitVec.ofInt 40 (divEven (v.toInt * num) den)

/-- A frame of F samples under the falling gain. -/
def fall (f : Nat) (xs : List W40) : List W40 := xs.zipIdx.map fun p => scale p.1 (f - (p.2 + 1)) f

/-- A frame of F samples under the rising gain. -/
def rise (f : Nat) (xs : List W40) : List W40 := xs.zipIdx.map fun p => scale p.1 (p.2 + 1) f

/-- A frame of zeros. -/
def zeros (f : Nat) : List W40 := List.replicate f 0

/-! ### Ramps, R205–R213 -/

/-- Parameter `p` of gallery `g`. -/
def rampAt (s : State) (g p : Nat) : RampParam := smGet (fun _ => rampReset) s.route.ramps (4096 * g + p)

/-- Change a parameter. -/
def setRamp (g p : Nat) (x : RampParam) : Act :=
  setRoute fun r => { r with ramps := smPut (fun _ => rampReset) r.ramps (4096 * g + p) x }

/-- A ramp by MODE 1 from v0 to T (R209): both signs agree or one end is 0. -/
def rampDb (x : RampParam) : Bool :=
  x.db && !(decide (x.v0 ≠ 0) && decide (x.target ≠ 0) && x.v0.msb != x.target.msb)

/-- The largest y below 2^n with y^d ≤ prod. -/
def rootFloor (prod d : Nat) : Nat → Nat
  | 0 => 0
  | n + 1 =>
    let hi := rootFloor (prod / 2 ^ d) d n
    if (2 * hi + 1) ^ d ≤ prod then 2 * hi + 1 else 2 * hi

/-- Magnitude of the curve of R209 at sample `k` in units of 2^−56, to the unit below. -/
def dbMag (x : RampParam) (k : Nat) : Nat :=
  let a := max x.v0.toInt.natAbs 4096
  let b := max x.target.toInt.natAbs 4096
  rootFloor (a ^ (x.dur - k) * b ^ k * 2 ^ (20 * x.dur)) x.dur 60

/-- The magnitudes in units of 2^−36 within ±0.001 dB of the curve at `y` (R209): the factors 10^±0.00005, rounded inward. Where no whole
number lies within them, the nearest one (DESIGN CHOICE, log 95). -/
def dbBounds (y : Nat) : Nat × Nat :=
  let lo := ((y + 1) * 999884877372468608310 + 1000000000000000000000 * 2 ^ 20 - 1) / (1000000000000000000000 * 2 ^ 20)
  let hi := y * 1000115135882276682526 / (1000000000000000000000 * 2 ^ 20)
  if lo ≤ hi then (lo, hi) else let r := (y + 2 ^ 19) / 2 ^ 20; (r, r)

/-- The value at sample `k` of a ramp (R207–R209); `n` is a free number that places a value of MODE 1 within ±0.001 dB of its
curve. -/
def rampValue (x : RampParam) (k n : Nat) : W40 :=
  if x.dur ≤ k then x.target
  else if rampDb x then
    let neg := if x.target = 0 then x.v0.msb else x.target.msb
    let cap := if neg then 2 ^ 39 else 2 ^ 39 - 1
    let (lo, hi) := dbBounds (dbMag x k)
    let mag : Nat := min lo cap + n % (min hi cap - min lo cap + 1)
    if neg then BitVec.ofInt 40 (-(mag : Int)) else BitVec.ofNat 40 mag
  else BitVec.ofInt 40 (x.v0.toInt + divEven ((x.target.toInt - x.v0.toInt) * k) x.dur)

/-- Values of `n` samples after sample `k`; samples that R209 leaves open within its bound draw free numbers. -/
def rampValues (x : RampParam) (k : Nat) : Nat → (List W40 → Act) → Act
  | 0, c => c []
  | n + 1, c =>
    let go (r : Nat) : Act := rampValues x (k + 1) n fun vs => c (rampValue x (k + 1) r :: vs)
    if rampDb x && decide (k + 1 < x.dur) then draw go else go 0

/-- Show or hide a parameter in `RAMP_ACTIVE` (R211). -/
def rampShow (g p : Nat) (on : Bool) : Act := .look fun s =>
  let i := 128 * g + p / 32
  let old := R.RAMP_ACTIVE.val i s
  if bitOf old (p % 32) = on then .done
  else .seq (R.RAMP_ACTIVE.set i (putBits old (p % 32) (p % 32) (b2n on)))
    (F.RAMP_STAT_ACTIVE.set g (if on then F.RAMP_STAT_ACTIVE.get g s + 1 else F.RAMP_STAT_ACTIVE.get g s - 1))

/-- A target is applied: a ramp of DUR + 1 samples from the value reached (R207, R210). Its four words are written whole. -/
def rampStart (g p : Nat) : Act := .look fun s =>
  let x := rampAt s g p
  let i := 4096 * g + p
  let v0 := if x.failed then 0 else x.endv
  acts [
    setRamp g p { v0 := v0, target := BitVec.ofNat 40 (F.RAMP_TGT_TARGET.live i s), db := F.RAMP_TGT_MODE.liveOn i s
                  dur := F.RAMP_TGT_DUR.live i s + 1, k := 0, cur := v0, kEnd := 0, endv := v0, failed := false },
    eccFresh fun k => eccInst k == 0x5000 + 256 * g && eccUnit k / 4 == p,
    rampShow g p true]

/-- Requester ID of the ramp engine of a gallery (R55). -/
def rampId (g : Nat) : Nat := reqId (.ramp ⟨g % 16, Nat.mod_lt _ (by decide)⟩)

/-- Words a map entry writes per edge. -/
def mapWords (f v : Nat) : Nat := if F.RAMP_MAP_DELIV.of v = 1 then f else 1

/-- The enabled map entries of a gallery: parameter and value. -/
def rampMap (g : Nat) (s : State) : List (Nat × Nat) :=
  let lo := R.RAMP_MAP.addr (4096 * g)
  s.regs.filterMap fun e => if lo ≤ e.1 && e.1 < lo + 16384 && bitOf e.2.toNat 31 then some ((e.1 - lo) / 4, e.2.toNat) else none

/-- The enabled map entries that E2 of an edge sees: a change in the edge cycle itself takes effect at the next edge (R213). -/
def rampMapDue (g : Nat) (s : State) : List (Nat × Nat) :=
  let held := s.route.mapHeld.filter fun e => e.1 / 4096 = g
  (held.foldl (fun m e => smInsert m (e.1 % 4096) e.2.toNat) (rampMap g s)).filter fun e => bitOf e.2 31

/-- Words per edge of the enabled map of a gallery (R206). -/
def rampWords (g : Nat) (s : State) : Nat := ((rampMap g s).map fun e => mapWords (spt s) e.2).sum

/-- A write to `RAMP_MAP` parameter `p` of gallery `g` (R206, R213): while EN is 1 only one that changes EN alone is accepted. -/
def wrRampMap (m g p v mask : Nat) : Act := .look fun s =>
  let i := 4096 * g + p
  let e := entryOf R.RAMP_MAP
  let old := R.RAMP_MAP.val i s
  let new := afterWrite e i m v mask s
  let f := spt (rated s)
  let rest := (rampMap g s).filter fun q => q.1 ≠ p
  let total := (rest.map fun q => mapWords f q.2).sum + mapWords f new
  let slot := ((rest.filter fun q => F.RAMP_MAP_LANE.of q.2 = F.RAMP_MAP_LANE.of new).map fun q => mapWords f q.2).sum
    + mapWords f new
  let bad := (bitOf old 31 && new ≠ old % 2 ^ 31) ||
    (bitOf new 31 && (4096 < total || 1024 < slot)) ||
    (F.RAMP_MAP_DELIV.of new = 1 && 8191 < F.RAMP_MAP_ADDR.of new + f - 1)
  if bad then dropped m (R.RAMP_MAP.addr i)
  else acts [
    onlyIf (inEdgeCycle s && (smFind s.route.mapHeld i).isNone)
      (setRoute fun r => { r with mapHeld := smInsert r.mapHeld i (BitVec.ofNat 32 old) }),
    storeWrite e i m v mask (R.RAMP_MAP.addr i),
    .look fun s => F.RAMP_STAT_WORDS.set g (rampWords g (rated s))]

/-- Words that each map entry writes at an edge, in parameter order (R206): a map that no longer fits, because F has risen since it was
written, is cut at 1,024 words for a local lane, at 4,096 words for the gallery and at the last Y word (DESIGN CHOICE, log 95). -/
def rampBudget (f : Nat) (mp : List (Nat × Nat)) : List (Nat × Nat) :=
  (mp.foldl (fun (acc : List (Nat × Nat) × List (Nat × Nat)) e =>
    let l := F.RAMP_MAP_LANE.of e.2
    let slot := ((acc.2.filter (·.1 = l)).map (·.2)).sum
    let all := (acc.2.map (·.2)).sum
    let n := min (min (mapWords f e.2) (8192 - F.RAMP_MAP_ADDR.of e.2)) (min (1024 - slot) (4096 - all))
    (acc.1 ++ [(e.1, n)], acc.2 ++ [(l, n)])) ([], [])).1

/-- Write the first `n` words of a parameter into Y memory of the slot that holds its lane (R205). -/
def rampDeliver (g v n : Nat) (vs : List W40) : Act := .look fun s =>
  match slotOf s (16 * g + F.RAMP_MAP_LANE.of v) with
  | none => .done
  | some l =>
    let ws := if F.RAMP_MAP_DELIV.of v = 1 then vs else vs.drop (vs.length - 1)
    let at_ (i : Nat) : Nat := xyAddr l true (F.RAMP_MAP_ADDR.of v + i)
    .seq (grant (rampId g) ((List.range (min n ws.length)).map at_))
      (forEach (ws.take n).zipIdx fun q => putWord40 (at_ q.2) q.1)

/-- One parameter at E2 of an edge: the tick that ends is counted, an uncorrectable word ends it, the values of the new tick are
computed and delivered (R181, R205, R211). `v` is its map entry, if enabled, with the words it may write. The words of the current value and
of the remaining length are written whole as the parameter advances (R167, log 88). -/
def rampEdge (g p : Nat) (v : Option (Nat × Nat)) : Act := .look fun s =>
  let x0 := rampAt s g p
  let x := { x0 with k := x0.kEnd, cur := x0.endv }
  let f := spt s
  let put (vs : List W40) : Act := match v with
    | some (w, n) => rampDeliver g w n vs
    | none => .done
  let close : Act := .seq (setRamp g p x) (onlyIf (decide (x.dur ≤ x.k)) (rampShow g p false))
  if !F.RAMP_CTRL_EN.liveOn g s then close
  else
    let ms := s.ecc.marks.filter fun e => eccInst e.1 = 0x5000 + 256 * g && eccUnit e.1 / 4 = p
    if x.failed then .seq (setRamp g p x) (put (zeros f))
    else eccJudge ms (rampId g) (some .ECC_UE_RAMP) fun ok =>
      if ok then acts [
        close,
        onlyIf (decide (x0.k < x0.dur)) (eccFresh fun k => eccInst k == 0x5000 + 256 * g && eccUnit k / 4 == p && decide (2 ≤ eccUnit k % 4)),
        rampValues x x.k f fun vs =>
          .seq (setRamp g p { x with kEnd := min (x.k + f) x.dur, endv := vs.getLastD x.cur }) (put vs)]
      else acts [
        setRamp g p { x with failed := true, target := 0, dur := 0, kEnd := 0, k := 0, endv := 0 },
        rampShow g p false,
        put (fall f (List.replicate f x.cur))]

/-- The ramp engine of a gallery at E2 (R205). -/
def rampGallery (g : Nat) : Act := .look fun s =>
  let mp := rampMapDue g s
  let ns := rampBudget (spt s) mp
  let ps := (s.route.ramps.filter fun e => e.1 / 4096 = g).map fun e => e.1 % 4096
  let all := (List.range 4096).filter fun p => mp.any (·.1 = p) || ps.contains p
  .seq
    (onlyIf (!(mp.isEmpty && ps.isEmpty)) (forEach all fun p =>
      rampEdge g p ((mp.find? (·.1 = p)).map fun e => (e.2, ((ns.find? (·.1 = p)).map (·.2)).getD 0))))
    (onlyIf (s.route.mapHeld.any fun e => e.1 / 4096 = g) <| setRoute fun r => { r with mapHeld := r.mapHeld.filter fun e => e.1 / 4096 ≠ g })

/-! ### Silence detectors, R217, R218 -/

/-- level(t): 2^32 × 10^(−t / 20), rounded to the integer below as in the worked example after R219 (R217; DEDUCED, log 38). -/
def levelOf (t : Nat) : Nat := rootFloor (2 ^ 640 / 10 ^ t) 20 33

/-- Detector `k`. -/
def silAt (s : State) (k : Nat) : SilState := smGet (fun _ => (⟨false, 0⟩ : SilState)) s.route.sil k

/-- Set a detector's state, with its bits. -/
def setSil (k : Nat) (x : SilState) (chg : Bool) : Act := .look fun s =>
  acts [
    setRoute fun r => { r with
      sil := smPut (fun _ => ⟨false, 0⟩) r.sil k x
      silChanged := if chg then r.silChanged ++ [k] else r.silChanged },
    F.ROUTE_SIL_STAT_SILENT.set (k / 32) (putBits (F.ROUTE_SIL_STAT_SILENT.get (k / 32) s) (k % 32) (k % 32) (b2n x.silent)),
    onlyIf chg (F.ROUTE_SIL_CHG_CHG.set (k / 32) (F.ROUTE_SIL_CHG_CHG.get (k / 32) s ||| 2 ^ (k % 32)))]

/-- A detector judges the frame just published on its bus (R217). -/
def silJudge (k : Nat) (frame : List W40) : Act := .look fun s =>
  let thr := min (F.ROUTE_SIL_CFG_THR.live k s) 191
  let exit := levelOf thr
  let enter := levelOf (thr + F.ROUTE_SIL_CFG_HYST.live k s)
  let hold := max 1 (F.ROUTE_SIL_CFG_HOLD.live k s)
  let x := silAt s k
  let below (l : Nat) : Bool := frame.all fun w => decide (w.toInt.natAbs < l)
  if x.silent then onlyIf (!below exit) (setSil k ⟨false, 0⟩ true)
  else if below enter then
    (if hold ≤ x.count + 1 then setSil k ⟨true, 0⟩ true else setSil k ⟨false, x.count + 1⟩ false)
  else setSil k ⟨false, 0⟩ false

/-! ### Route writes, R201, R202 -/

/-- The entry sets VALID and names a source from 0x6C0 to 0x7FF (R202). -/
def srcBad (v : Nat) : Bool := bitOf v 31 && 0x6C0 ≤ v % 4096 && v % 4096 ≤ 0x7FF

/-- Store a route table entry. -/
def putRoute (e v : Nat) : Act :=
  .seq (setRoute fun r => { r with tbl := smPut (fun _ => 0) r.tbl e (BitVec.ofNat 32 (v % 2 ^ 32 &&& 0x80000FFF)) })
    (.seq (eccFresh fun k => k == eccKey 0x8000 e 0)
      (setEcc fun x => { x with routeReported := x.routeReported.filter (· ≠ e) }))

/-- A host write to a route entry ends the fade of that entry: its old value no longer mixes (R559). -/
def fadeOff (kind i : Nat) : Act := .look fun s =>
  onlyIf (s.strata.olds.any fun o => o.kind = kind && o.idx = i)
    (setStrata fun x => { x with olds := x.olds.filter fun o => !(o.kind = kind && o.idx = i) })

/-- A write to word `i` of the route table window (R202). -/
def wrRouteTbl (m i v : Nat) : Act := .look fun s =>
  let e := 8192 * F.ROUTE_PAGE_PAGE.get 0 s m + i
  if srcBad v then dropped m (R.ROUTE_TBL.addr i) else .seq (fadeOff 0 e) (putRoute e v)

/-- A write to `ROUTE_OUT` (R202). -/
def wrRouteOut (m i v : Nat) : Act :=
  if srcBad v then dropped m (R.ROUTE_OUT.addr i) else .seq (fadeOff 2 i) (write32 (entryOf R.ROUTE_OUT) m i v)

/-- A write to `ROUTE_BUS`. -/
def wrRouteBus (m i v : Nat) : Act := .seq (fadeOff 1 i) (write32 (entryOf R.ROUTE_BUS) m i v)

/-- A route write stalls its master from the edge cycle until E1 has ended (R201). -/
def routeStalled (m a v : Nat) (act : Act) : Act := .look fun s =>
  if edgeDue s then setBus fun b => { b with
    routeStall := b.routeStall ++ [⟨.master ⟨m % 10, Nat.mod_lt _ (by decide)⟩, a, .write .b4 (BitVec.ofNat 64 v)⟩] }
  else act

/-- Perform a route write by its address. -/
def routeWriteAt (m a v : Nat) : Act :=
  if a < R.ROUTE_OUT.addr 0 then wrRouteBus m ((a - R.ROUTE_BUS.addr 0) / 4) v
  else if a < R.ROUTE_TBL.addr 0 then wrRouteOut m ((a - R.ROUTE_OUT.addr 0) / 4) v
  else wrRouteTbl m ((a - R.ROUTE_TBL.addr 0) / 4) v

/-- The stalled route writes complete once E1 has ended. -/
def routeRelease : Act := .look fun s =>
  if edgeDue s then .done
  else .seq (setBus fun b => { b with routeStall := [] })
    (forEach s.bus.routeStall fun w => match w.req with
      | .write _ v => routeWriteAt (reqId w.who) w.addr v.toNat
      | _ => .done)

/-! ### Ropes, R220–R227 -/

/-- Word of a rope: EN, CLK, IN. -/
def ropeWord (clk : Bool) (i : Nat) : Word := BitVec.ofNat 32 (2 ^ 31 + b2n clk * 2 ^ 30 + i % 32)

/-- The strap map for output port `o` (R223). -/
def strapRope (sel o : Nat) : Word :=
  match sel with
  | 1 => ropeWord false o
  | 2 => if 16 ≤ o then ropeWord true (o - 16) else 0
  | 3 => if o % 2 = 1 then ropeWord true (o - 1) else 0
  | 4 => if (8 ≤ o && o < 16) || (24 ≤ o && o < 32) then ropeWord true (o - 8) else 0
  | _ => 0

/-- The rope that output port `o` should have: none while the ropes are not live or after they were removed (R222, R227). -/
def ropeWanted (s : State) (o : Nat) : Word :=
  if !s.rope.live || F.ROPE_STAT_SAFE_OFF.on 0 s then 0
  else
    let w := if F.ROPE_CTRL_SRC.on 0 s then BitVec.ofNat 32 (R.ROPE_MAP.val o s) else strapRope s.pins.ropeSel o
    if w.msb then w else 0

/-- The map in force for output port `o`. -/
def ropeForce (s : State) (o : Nat) : Word := smGet (fun _ => 0) s.rope.force o

/-- A change of the map in force is due. -/
def ropeChanged : Act := .look fun s =>
  setRope fun r => { r with pending := (List.range 32).any fun o => decide (ropeWanted s o ≠ ropeForce s o) }

/-- A serial port drives a pin that a rope drives: as a transmitter, or as a clock master under a rope with clocks (R226). -/
def ropeClash (s : State) : Bool := (List.range 32).any fun o =>
  let w := ropeForce s o
  w.msb && (F.SAP_TXCFG_EN.liveOn o s || (bitOf w.toNat 30 && F.SAP_CLK_MST.liveOn o s))

/-- Set CONFLICT while a clash stands. -/
def ropeConflict : Act := .look fun s => onlyIf (ropeClash s) (F.ROPE_STAT_CONFLICT.set 0 1)

/-- The map reaches the pins (R225). -/
def ropeApply : Act := .look fun s =>
  if s.rope.pending then
    .seq (setRope fun r => { r with
        pending := false
        force := (List.range 32).foldl (fun m o => smPut (fun _ => 0) m o (ropeWanted s o)) [] })
      ropeConflict
  else .done

/-- A write to `ROPE_MAP` port `o` (R220). -/
def wrRopeMap (m o v mask : Nat) : Act := .look fun s =>
  let e := entryOf R.ROPE_MAP
  let new := afterWrite e o m v mask s
  if bitOf new 30 && new % 32 = o then dropped m (R.ROPE_MAP.addr o)
  else .seq (storeWrite e o m v mask (R.ROPE_MAP.addr o)) ropeChanged

/-- A write to `ROPE_CTRL`. -/
def wrRopeCtrl (m v mask : Nat) : Act :=
  .seq (storeWrite (entryOf R.ROPE_CTRL) 0 m v mask (R.ROPE_CTRL.addr 0)) ropeChanged

/-! ### Commands -/

/-- ROUTE_TBL_WRITE (R202). -/
def execRouteTblWrite (m : Master) (i : Fin 8192) (v : Word) (s : State) : Host.Outcome State Fault Refusal :=
  answer (arrive m (R.ROUTE_TBL.addr i) 0xF v.toNat
    (routeStalled m (R.ROUTE_TBL.addr i) v.toNat (wrRouteTbl m i v.toNat))) s

/-- ROUTE_OUT_WRITE (R202). -/
def execRouteOutWrite (m : Master) (i : Fin 1600) (v : Word) (s : State) : Host.Outcome State Fault Refusal :=
  answer (arrive m (R.ROUTE_OUT.addr i) 0xF v.toNat
    (routeStalled m (R.ROUTE_OUT.addr i) v.toNat (wrRouteOut m i v.toNat))) s

/-- ROUTE_BUS_WRITE (R201). -/
def execRouteBusWrite (m : Master) (i : Fin 2048) (v : Word) (s : State) : Host.Outcome State Fault Refusal :=
  answer (arrive m (R.ROUTE_BUS.addr i) 0xF v.toNat
    (routeStalled m (R.ROUTE_BUS.addr i) v.toNat (wrRouteBus m i v.toNat))) s

/-- RAMP_MAP_WRITE (R206, R213). -/
def execRampMapWrite (m : Master) (g : Fin 16) (i : Fin 4096) (v : Word) (s : State) : Host.Outcome State Fault Refusal :=
  answer (arrive m (R.RAMP_MAP.addr (4096 * g + i)) 0xF v.toNat (wrRampMap m g i v.toNat (fullMask 1))) s

/-- ROPE_MAP_WRITE (R220). -/
def execRopeMapWrite (m : Master) (i : Fin 32) (v : Word) (s : State) : Host.Outcome State Fault Refusal :=
  answer (arrive m (R.ROPE_MAP.addr i) 0xF v.toNat (wrRopeMap m i v.toNat (fullMask 1))) s

/-- ROPE_MAP_APPLY (R225). -/
def execRopeMapApply (s : State) : Host.Outcome State Fault Refusal := answer ropeApply s

/-- ROPE_STRAP_CHANGE (R223): the straps are read continuously. -/
def execRopeStrapChange (sel : Fin 8) (hold : Bool) (s : State) : Host.Outcome State Fault Refusal :=
  answer (acts [
    setPins fun p => { p with ropeSel := sel, ropeHold := hold },
    R.ROPE_STRAP.set 0 (b2n hold * 8 + sel),
    F.ROPE_STAT_STRAP_BAD.set 0 (b2n (5 ≤ sel.val)),
    ropeChanged]) s

/-- ROPES_LIVE (R222). -/
def execRopesLive (s : State) : Host.Outcome State Fault Refusal :=
  answer (.seq (setRope fun r => { r with live := true }) ropeChanged) s

end Sys2Proof.Machine
end

