-- ==== Sys2Proof/Machine/Pool.lean ====
section
/-! DEFINITION. The pool and its queues (11_pool_and_queues.md). -/

namespace Sys2Proof.Machine

/-! ### Tags, R352–R354 -/

/-- Owner of a cell linked into a chain (R353). -/
def poolEngine : Nat := 0x3F1

/-- A tag. -/
def mkTag (held last lnk : Bool) (owner link : Nat) : Word :=
  BitVec.ofNat 32 (b2n held * 2 ^ 31 + b2n last * 2 ^ 30 + b2n lnk * 2 ^ 29 + owner % 1024 * 2 ^ 16 + link % 65536)

/-- The tag of a cell after reset (R354). -/
def tagReset (c : Nat) : Word :=
  if c % 16384 < 512 then mkTag true false false 0x3F0 0
  else mkTag false false true 0 (if c % 16384 = 16383 then 0 else c + 1)

/-- The tag of cell `c`. -/
def tagOf (s : State) (c : Nat) : Nat := (smGet tagReset s.pool.tags c).toNat

def tagHeld (t : Nat) : Bool := bitOf t 31
def tagLast (t : Nat) : Bool := bitOf t 30
def tagLnk (t : Nat) : Bool := bitOf t 29
def tagOwner (t : Nat) : Nat := bitsOf t 25 16
def tagLink (t : Nat) : Nat := bitsOf t 15 0

/-- Key of the codeword of a tag. -/
def tagKey (c : Nat) : Nat := eccKey (0x7000 + c / 16384 * 256) (c % 16384) 0

/-- Store a tag; its codeword is good again. -/
def setTag (c : Nat) (t : Word) : Act :=
  .seq (setPool fun p => { p with tags := smPut tagReset p.tags c t }) (eccFresh fun k => k == tagKey c)

/-- Read a tag; `k` goes on with the tag and whether it is good (R373). -/
def readTag (c : Nat) (k : Nat → Bool → Act) : Act :=
  eccReadKey (tagKey c) poolEngine (some .ECC_UE_POOL) fun ok => .look fun s => k (tagOf s c) ok

/-! ### Queues -/

/-- Queue `q`. -/
def queueAt (s : State) (q : Nat) : PoolQ := smGet (fun _ => poolQReset) s.pool.queues q

/-- Change queue `q`. -/
def setQueue (q : Nat) (f : PoolQ → PoolQ) : Act :=
  setPool fun p => { p with queues := smPut (fun _ => poolQReset) p.queues q (f (smGet (fun _ => poolQReset) p.queues q)) }

def qEn (x : PoolQ) : Bool := F.POOL_QCFG_EN.of x.cfg.toNat = 1
def qWord (x : PoolQ) : Bool := F.POOL_QCFG_KIND.of x.cfg.toNat = 1
def qResv (x : PoolQ) : Nat := F.POOL_QCFG_RESV.of x.cfg.toNat
def qHome (x : PoolQ) : Nat := F.POOL_QCFG_HOME.of x.cfg.toNat

/-- An enabled item queue. -/
def isItemQ (x : PoolQ) : Bool := qEn x && !qWord x

/-- An enabled word queue. -/
def isWordQ (x : PoolQ) : Bool := qEn x && qWord x

/-- A word queue holds no unread word. -/
def wordEmpty (x : PoolQ) : Bool := x.head = 0 || (x.head = x.tail && x.rd = x.wr)

/-! ### Watermarks -/

/-- Judge the marks of a queue after an operation (R370). -/
def queueMark (q : Nat) : Act := .look fun s =>
  let x := queueAt s q
  let hi := F.POOL_QCFG_HI.of x.cfg.toNat
  let hys := min (F.POOL_QCFG_HYS.of x.cfg.toNat) (hi - 1)
  let above := hi ≠ 0 && (if x.above then hi - hys ≤ x.depth else hi ≤ x.depth)
  let rise := above && !x.above
  acts [
    setQueue q fun x => { x with above := above, crossed := x.crossed || rise },
    onlyIf rise (R.POOL_QHIGH.set (q / 32 % 128) (R.POOL_QHIGH.val (q / 32 % 128) s ||| 2 ^ (q % 32))),
    onlyIf (rise && !x.crossed) (raise .POOL_Q_HIGH q)]

/-- Judge the marks of the pool (R371). -/
def poolMark : Act := .look fun s =>
  let free := F.POOL_STAT_FREE.get 0 s
  let lo := F.POOL_WM_LO.get 0 s
  if F.POOL_WMSTAT_ABOVE.on 0 s then
    onlyIf (free ≤ lo) (acts [
      F.POOL_WMSTAT_ABOVE.set 0 0, F.POOL_WMSTAT_CROSSED.set 0 1,
      onlyIf (!F.POOL_WMSTAT_CROSSED.on 0 s) (raise .POOL_LOW free)])
  else onlyIf (lo + F.POOL_WM_HYS.get 0 s < free) (F.POOL_WMSTAT_ABOVE.set 0 1)

/-! ### Cells -/

/-- Head of the free list of a bank. -/
def freeHead (s : State) (b : Nat) : Nat := smGet (fun b => 16384 * b + 512) s.pool.freeHead b

/-- Free cells of a bank. -/
def freeCells (s : State) (b : Nat) : Nat := smGet (fun _ => 15872) s.pool.freeCnt b

/-- The bank is closed for allocation. -/
def bankClosed (s : State) (b : Nat) : Bool := bitOf (F.POOL_WMSTAT_CLOSED.get 0 s) b

/-- Set the free list of a bank. -/
def setFree (b head cnt : Nat) : Act := setPool fun p => { p with
  freeHead := smPut (fun b => 16384 * b + 512) p.freeHead b head
  freeCnt := smPut (fun _ => 15872) p.freeCnt b cnt }

/-- FREE of `POOL_STAT` counts the free cells of the banks that are not closed. -/
def countFree : Act := .look fun s =>
  .seq (F.POOL_STAT_FREE.set 0 (((List.range 4).map fun b => if bankClosed s b then 0 else freeCells s b).sum)) poolMark

/-- An overdraw (R357). -/
def overdraw (q req : Nat) : Act := .look fun s => acts [
  setQueue q fun x => { x with ovd := true, ovdCnt := satInc 16 x.ovdCnt 1, ovdTick := true },
  onlyIf (!(queueAt s q).ovdTick) (raise .POOL_OVERDRAW q req)]

/-- Break a queue (R373). -/
def breakQueue (q : Nat) : Act := setQueue q fun x => { x with broken := true }

/-- Allocate a cell for queue `q`, which only an enabled queue is granted (R356–R359): `owner` in its tag; linked at once when `lnk`. `k` goes on with the cell. -/
def allocCell (q req owner : Nat) (lnk : Bool) (k : Option Nat → Act) : Act := .look fun s =>
  let x := queueAt s q
  if x.broken || !qEn x then k none
  else if qResv x ≤ x.used then .seq (overdraw q req) (k none)
  else match ((List.range 4).map fun i => (qHome x + i) % 4).find? fun b => !bankClosed s b && freeHead s b ≠ 0 with
    | none => k none
    | some b =>
      let c := freeHead s b
      readTag c fun t ok =>
        if ok then acts [
          setFree b (tagLink t) (freeCells s b - 1),
          setTag c (mkTag true false lnk owner (if lnk then 0 else q)),
          setQueue q fun x => { x with used := x.used + 1 },
          countFree,
          k (some c)]
        else acts [
          F.POOL_WMSTAT_CLOSED.set 0 (F.POOL_WMSTAT_CLOSED.get 0 s ||| 2 ^ b), countFree, k none]

/-- Put a held cell back on its bank's free list and release the charge of queue `q` (R363, R358). -/
def releaseCell (c q : Nat) : Act := .look fun s => acts [
  setTag c (mkTag false false true 0 (freeHead s (c / 16384))),
  setFree (c / 16384) c (freeCells s (c / 16384) + 1),
  setQueue q fun x => { x with used := x.used - 1 },
  countFree]

/-- Record a refusal of R360 or R363. -/
def poolErr (code req c : Nat) : Act := acts [
  F.POOL_ERR_VALID.set 0 1, F.POOL_ERR_CODE.set 0 code, F.POOL_ERR_REQ.set 0 req, F.POOL_ERR_COUNT.inc 0,
  F.POOL_ERR_CELL.set 0 c,
  if code < 2 then raise .POOL_FREE_ERR c req code else raise .POOL_PUSH_ERR c req code]

/-- A free by a requester (R363). -/
def freeCell (req c : Nat) : Act := readTag c fun t ok =>
  if !ok then .done
  else if !tagHeld t then poolErr 1 req c
  else if tagLnk t || tagOwner t ≠ req then poolErr 0 req c
  else releaseCell c (tagLink t)

/-! ### Item queues -/

/-- Link the cells of a whole item to the tail of a queue (R359). -/
def linkItem (q : Nat) (cells : List Nat) : Act := .look fun s =>
  let x := queueAt s q
  match cells, cells.getLast? with
  | first :: _, some last => acts [
      onlyIf (x.tail ≠ 0) (setTag x.tail (mkTag true (tagLast (tagOf s x.tail)) true poolEngine first)),
      setQueue q fun x => { x with
        head := if x.head = 0 then first else x.head, tail := last, depth := x.depth + cells.length },
      queueMark q]
  | _, _ => .done

/-- The tag of the last cell of a queue's chain is read; an uncorrectable one breaks the queue and drops the operation `k` (R373). -/
def tailGood (q : Nat) (k : Act) : Act := .look fun s =>
  let x := queueAt s q
  if x.tail = 0 then k else readTag x.tail fun _ ok => if ok then k else breakQueue q

/-- A push by a requester (R359, R360). -/
def pushCell (req c : Nat) (last : Bool) : Act := readTag c fun t ok => .look fun s =>
  let q := tagLink t % 4096
  let opn := smFind s.pool.opens req
  if !ok then .done
  else if !tagHeld t || tagLnk t || tagOwner t ≠ req then poolErr 2 req c
  else if (match opn with | some o => decide (o.queue ≠ q) | none => false) then poolErr 3 req c
  else if (queueAt s q).broken then .done
  else
    let cells := (match opn with | some o => o.cells | none => []) ++ [c]
    (if last then tailGood q else id) <| acts [
      setTag c (mkTag true last true poolEngine 0),
      (match opn with
       | some o => (match o.cells.getLast? with
          | some p => setTag p (mkTag true false true poolEngine c)
          | none => .done)
       | none => .done),
      if last then .seq (setPool fun p => { p with opens := smErase p.opens req }) (linkItem q cells)
      else setPool fun p => { p with opens := smInsert p.opens req ⟨q, cells⟩ }]

/-- The cells of the item that begins at cell `c`, at most `n` of them. -/
def itemCells (s : State) : Nat → Nat → List Nat
  | 0, _ => []
  | n + 1, c => if c = 0 then [] else if tagLast (tagOf s c) then [c] else c :: itemCells s n (tagLink (tagOf s c))

/-- The cells linked from cell `c` on, at most `n` of them. -/
def chainCells (s : State) : Nat → Nat → List Nat
  | 0, _ => []
  | n + 1, c => if c = 0 then [] else c :: chainCells s n (tagLink (tagOf s c))

/-- Hand a cell of queue `q` to a requester (R361). `k` goes on with the value POOL_POP returns. -/
def takeCell (req q c : Nat) (rest : List Nat) (k : Nat → Act) : Act := readTag c fun t ok =>
  if ok then acts [
    setTag c (mkTag true (tagLast t) false req q),
    setQueue q fun x => { x with depth := x.depth - 1 },
    queueMark q,
    setPool fun p => { p with
      popped := if rest = [] then smErase p.popped req else smInsert p.popped req ⟨q, rest⟩ },
    k (2 ^ 31 + b2n (tagLast t) * 2 ^ 30 + c)]
  else acts [breakQueue q, setPool fun p => { p with popped := smErase p.popped req }, k 0]

/-- A pop by a requester for queue `q` (R361). `k` goes on with the value, or with nothing while the queue is empty. -/
def popCell (req q : Nat) (k : Option Nat → Act) : Act := .look fun s =>
  match smFind s.pool.popped req with
  | some ⟨pq, c :: rest⟩ => if (queueAt s pq).broken then k (some 0) else takeCell req pq c rest fun v => k (some v)
  | _ =>
    let x := queueAt s q
    if x.broken then k (some 0)
    else if x.head = 0 then k none
    else
      let cells := itemCells s x.depth x.head
      let last := match cells.getLast? with | some l => l | none => x.head
      .seq (setQueue q fun x => if last = x.tail then { x with head := 0, tail := 0 }
          else { x with head := tagLink (tagOf s last) })
        (takeCell req q x.head (cells.drop 1) fun v => k (some v))

/-- Pop a whole item for a private engine: its cells, none from an empty queue. -/
def popItem (req q : Nat) : Nat → (List Nat → Act) → Act
  | 0, k => k []
  | n + 1, k => popCell req q fun v => match v with
    | none => k []
    | some v => if v < 2 ^ 31 then k []
      else if bitOf v 30 then k [v % 65536] else popItem req q n fun cs => k (v % 65536 :: cs)

/-- Allocate `n` cells for a private engine; when not all are granted, those that were are freed. -/
def allocCells (q req : Nat) : Nat → (List Nat → Act) → (List Nat → Act) → Act
  | 0, k, _ => k []
  | n + 1, k, fail => allocCell q req req false fun c => match c with
    | none => fail []
    | some c => allocCells q req n (fun cs => k (c :: cs)) (fun cs => fail (c :: cs))

/-- Push the cells of an item, the last one closing it. -/
def pushItem (req : Nat) : List Nat → Act
  | [] => .done
  | [c] => pushCell req c true
  | c :: cs => .seq (pushCell req c false) (pushItem req cs)

/-! ### Word queues, R365 -/

/-- Append a word to a word queue. -/
def appendWord (q req : Nat) (w : W40) : Act := .look fun s =>
  let x := queueAt s q
  let put (c i : Nat) : Act := acts [
    memSetLe (cellAddr c + 8 * i) 8 (ofInt 64 w.toInt), eccFull (cellAddr c + 8 * i) 8, queueMark q]
  if x.broken then .done
  else if x.tail ≠ 0 && x.wr < 32 then
    .seq (setQueue q fun x => { x with depth := x.depth + b2n (wordEmpty x), wr := x.wr + 1 }) (put x.tail x.wr)
  else tailGood q (allocCell q req poolEngine true fun c => match c with
    | none => .done
    | some c => acts [
        onlyIf (x.tail ≠ 0) (setTag x.tail (mkTag true false true poolEngine c)),
        setQueue q fun x => { x with
          head := if x.head = 0 then c else x.head, rd := if x.head = 0 then 0 else x.rd, tail := c, wr := 1
          depth := x.depth + 1 },
        put c 0])

/-- Read the next word of a word queue; `k` goes on with the word and whether it is good, or with nothing while the queue is
empty. A broken queue gives 0 (R373). -/
def readWord (q id : Nat) (ev : Ev) (k : Option (W40 × Bool) → Act) : Act := .look fun s =>
  let x := queueAt s q
  if x.broken then k (some (0, true))
  else if wordEmpty x then k none
  else
    let a := cellAddr x.head + 8 * x.rd
    let give (step : Act) : Act := eccRead a 8 id (some ev) fun ok => acts [
      step, queueMark q, k (some (if ok then word40 s a else 0, ok))]
    if x.rd + 1 = 32 then readTag x.head fun t good =>
      if good then give (acts [
        setQueue q fun x => if x.head = x.tail then { x with head := 0, tail := 0, rd := 0, wr := 0, depth := x.depth - 1 }
          else { x with head := tagLink t, rd := 0, depth := x.depth - 1 },
        releaseCell x.head q])
      else .seq (breakQueue q) (k (some (0, true)))
    else give (setQueue q fun x => { x with
      rd := x.rd + 1, depth := x.depth - b2n (x.head = x.tail && x.rd + 1 = x.wr) })

/-! ### Lane ports, R367–R369 -/

/-- The applied binding of port `p` of a lane: the queue, where the port is bound in the direction asked for. -/
def laneBound (n p : Nat) (write : Bool) (s : State) : Option Nat :=
  let i := 16 * n + p
  if F.POOL_LPORT_EN.liveOn i s && F.POOL_LPORT_DIR.liveOn i s == write then some (F.POOL_LPORT_QUEUE.live i s) else none

/-- A use of a port without its binding (R368). -/
def portErr (n p : Nat) : Act := .look fun s =>
  if s.pool.portErr.any fun e => e.1 = n then .done
  else .seq (setPool fun x => { x with portErr := x.portErr ++ [(n, p)] }) (raise .POOL_PORT_ERR n p)

/-- An enabled binding of the shadows names the queue; `onlyRead` for read bindings, other than binding `but`. -/
def lportNames (s : State) (q : Nat) (onlyRead : Bool) (but : Nat) : Bool :=
  (List.range 4096).any fun i => i ≠ but && F.POOL_LPORT_EN.on i s && F.POOL_LPORT_QUEUE.get i s == q &&
    (!onlyRead || !F.POOL_LPORT_DIR.on i s)

/-- An enabled binding in force names the queue. -/
def lportLive (s : State) (q : Nat) : Bool :=
  (List.range 4096).any fun i => F.POOL_LPORT_EN.liveOn i s && F.POOL_LPORT_QUEUE.live i s == q

/-- A write to `POOL_LPORT` element `i` (R367). -/
def wrLport (m i v mask : Nat) (tie : Bool := false) : Act := .look fun s =>
  let e := entryOf R.POOL_LPORT
  let new := afterWrite e i m v mask s
  let q := F.POOL_LPORT_QUEUE.of new
  if F.POOL_LPORT_EN.of new = 1 && (!isWordQ (queueAt s q) ||
      (F.POOL_LPORT_DIR.of new = 0 && lportNames s q true i)) then dropped m (R.POOL_LPORT.addr i)
  else storeWrite e i m v mask (R.POOL_LPORT.addr i) tie

/-! ### Registers of the pool -/

/-- Queue `q` takes a configuration: the unreserved cells follow (R356). -/
def putQcfg (q new : Nat) : Act := .look fun s =>
  let resv (c : Nat) : Nat := if F.POOL_QCFG_EN.of c = 1 then F.POOL_QCFG_RESV.of c else 0
  acts [
    F.POOL_STAT_UNRES.set 0 (F.POOL_STAT_UNRES.get 0 s + resv (queueAt s q).cfg.toNat - resv new),
    setQueue q fun x => { x with cfg := BitVec.ofNat 64 new },
    queueMark q]

/-- A write to the queue configuration of queue `POOL_QIDX` (R374, R645). -/
def wrQcfg (m v mask : Nat) : Act := .look fun s =>
  let q := F.POOL_QIDX_Q.get 0 s m
  let x := queueAt s q
  let old := x.cfg.toNat
  let e := entryOf R.POOL_QCFG
  let new := (planWrite s.lock old v mask e.flds).val
  let on := F.POOL_QCFG_EN.of old = 1
  let on' := F.POOL_QCFG_EN.of new = 1
  let resv' := F.POOL_QCFG_RESV.of new
  let unres := F.POOL_STAT_UNRES.get 0 s
  let bad :=
    (on' && resv' = 0) || (on' && !on && unres < resv') ||
    (on && (F.POOL_QCFG_KIND.of new ≠ F.POOL_QCFG_KIND.of old || F.POOL_QCFG_HOME.of new ≠ F.POOL_QCFG_HOME.of old ||
      resv' ≠ F.POOL_QCFG_RESV.of old)) ||
    (on && !on' && (0 < x.used || lportNames s q false 4096 || lportLive s q))
  if bad then dropped m (R.POOL_QCFG.addr 0 + 4) else putQcfg q new

/-- The value of `POOL_QSTAT` for queue `q`. -/
def qstatVal (s : State) (q : Nat) : Nat :=
  let x := queueAt s q
  b2n x.broken * 2 ^ 63 + b2n x.ovd * 2 ^ 62 + b2n x.crossed * 2 ^ 61 + b2n x.above * 2 ^ 60 + x.depth % 65536 * 2 ^ 32 +
    x.used % 65536 * 2 ^ 16 + x.ovdCnt % 65536

/-- A write to `POOL_QSTAT` of queue `POOL_QIDX`: its sticky bits and its count clear (R372). -/
def wrQstat (m v mask : Nat) : Act := .look fun s =>
  let q := F.POOL_QIDX_Q.get 0 s m
  let w := v &&& mask
  acts [
    setQueue q fun x => { x with
      ovd := x.ovd && !bitOf w 62, crossed := x.crossed && !bitOf w 61
      ovdCnt := if w % 65536 = 65535 then 0 else x.ovdCnt },
    onlyIf (bitOf w 61) (R.POOL_QHIGH.set (q / 32) (putBits (R.POOL_QHIGH.val (q / 32) s) (q % 32) (q % 32) 0))]

/-- A write to `POOL_QHIGH` element `i` clears the same CROSSED bits (R370, R372). -/
def wrQhigh (m i v mask : Nat) : Act :=
  .seq (storeWrite (entryOf R.POOL_QHIGH) i m v mask (R.POOL_QHIGH.addr i))
    (forEach ((List.range 32).filter fun j => bitOf (v &&& mask) j) fun j =>
      setQueue (32 * i + j) fun x => { x with crossed := false })

/-- A write to `POOL_ERR`: VALID written 1 also clears COUNT. -/
def wrPoolErr (m v mask : Nat) : Act :=
  .seq (storeWrite (entryOf R.POOL_ERR) 0 m v mask (R.POOL_ERR.addr 0 + 4))
    (onlyIf (bitOf (v &&& mask) 63) (F.POOL_ERR_COUNT.set 0 0))

/-- An operation that does not fit its queue: a write, or a read (R643). -/
def misfit (m a : Nat) (wr : Bool) : Act := accessErr m a 3 wr

/-- A write to `POOL_WM`: the marks are judged by the new values (R371). -/
def wrPoolWm (m v mask : Nat) : Act :=
  .seq (storeWrite (entryOf R.POOL_WM) 0 m v mask (R.POOL_WM.addr 0)) poolMark

/-- A read of POOL_ALLOC by master `m`; `k` goes on with the value (R359, R643). -/
def readAlloc (m : Nat) (k : Nat → Act) : Act := .look fun s =>
  let q := F.POOL_SELQ_QUEUE.get 0 s m
  if !isItemQ (queueAt s q) && !(queueAt s q).broken then .seq (misfit m (R.POOL_ALLOC.addr 0) false) (k 0)
  else allocCell q m m false fun c => match c with
    | some c => k (2 ^ 31 + c)
    | none => k 0

/-- A read of requester `id` waits. -/
def waiting (s : State) (id : Nat) : Bool := s.pool.waits.any fun w => w.req = id

/-- A wait is over. -/
def endWait (id : Nat) : Act := setPool fun p => { p with waits := p.waits.filter (·.req ≠ id) }

/-- A read begins to wait (R362). -/
def beginWait (id q : Nat) (word : Bool) : Act := .look fun s =>
  setPool fun p => { p with waits := p.waits.filter (·.req ≠ id) ++ [⟨id, q, word, s.elapsed, false⟩] }

/-- A read of POOL_POP or, with `try_`, of POOL_TRYPOP (R361, R362, R643). -/
def readPop (m : Nat) (try_ : Bool) : Act := .look fun s =>
  let q := F.POOL_SELQ_QUEUE.get 0 s m
  let cont := (smFind s.pool.popped m).isSome
  if !cont && !isItemQ (queueAt s q) && !(queueAt s q).broken then
    .seq (misfit m ((if try_ then R.POOL_TRYPOP else R.POOL_POP).addr 0) false) (respond m [0])
  else popCell m q fun v => match v with
    | some v => respond m [v]
    | none => if try_ then respond m [0] else beginWait m q false

/-- A master receives a word of a word queue: the low word answers, the high word is latched (R365, R84). -/
def wordReply (m : Nat) (w : W40) (ok : Bool) : Act :=
  let v := ofInt 64 w.toInt
  acts [R.POOL_QWORD.set 0 (v % 2 ^ 40), latchHigh m (R.POOL_QWORD.addr 0) (v / 2 ^ 32), respond m [v % 2 ^ 32] (!ok)]

/-- A low-word read of POOL_QWORD. -/
def readQword (m : Nat) : Act := .look fun s =>
  let q := F.POOL_SELQ_QUEUE.get 0 s m
  if !isWordQ (queueAt s q) && !(queueAt s q).broken then
    .seq (misfit m (R.POOL_QWORD.addr 0) false) (respond m [0])
  else readWord q m .ECC_UE_MASTER fun r => match r with
    | some (w, ok) => wordReply m w ok
    | none => beginWait m q true

/-- A committed write of POOL_QWORD. -/
def wrQword (m v : Nat) : Act := .look fun s =>
  let q := F.POOL_SELQ_QUEUE.get 0 s m
  if !isWordQ (queueAt s q) && !(queueAt s q).broken then misfit m (R.POOL_QWORD.addr 0 + 4) true
  else .seq (R.POOL_QWORD.set 0 (v % 2 ^ 40)) (appendWord q m (BitVec.ofNat 40 v))

/-- A waiting read of requester `id` takes what has arrived. -/
def waitDone (id : Nat) : Act := .look fun s =>
  match s.pool.waits.find? (·.req = id) with
  | none => .done
  | some w =>
    let clear : Act := endWait id
    if w.word then readWord w.queue id .ECC_UE_MASTER fun r => match r with
      | some (v, ok) => .seq clear (wordReply id v ok)
      | none => .done
    else popCell id w.queue fun v => match v with
      | some v => .seq clear (respond id [v])
      | none => .done

/-! ### Commands -/

/-- POOL_ALLOC (R359). -/
def execPoolAlloc (m : Master) (s : State) : Host.Outcome State Fault Refusal :=
  answer (reads m (R.POOL_ALLOC.addr 0) (readAlloc m fun v => respond m [v])) s

/-- POOL_PUSH (R359, R360). -/
def execPoolPush (m : Master) (v : Word) (s : State) : Host.Outcome State Fault Refusal :=
  answer (arrive m (R.POOL_PUSH.addr 0) 0xF v.toNat (pushCell m (v.toNat % 65536) (bitOf v.toNat 31))) s

/-- POOL_FREE (R363). -/
def execPoolFree (m : Master) (v : Word) (s : State) : Host.Outcome State Fault Refusal :=
  answer (arrive m (R.POOL_FREE.addr 0) 0xF v.toNat (freeCell m (v.toNat % 65536))) s

/-- POOL_POP (R361). -/
def execPoolPop (m : Master) (s : State) : Host.Outcome State Fault Refusal := answer (reads m (R.POOL_POP.addr 0) (readPop m false)) s

/-- POOL_TRYPOP (R362). -/
def execPoolTrypop (m : Master) (s : State) : Host.Outcome State Fault Refusal := answer (reads m (R.POOL_TRYPOP.addr 0) (readPop m true)) s

/-- POOL_QWORD_WRITE (R365). -/
def execPoolQwordWrite (m : Master) (v : W64) (s : State) : Host.Outcome State Fault Refusal :=
  answer (arrivePair m (R.POOL_QWORD.addr 0) v.toNat (wrQword m v.toNat)) s

/-- POOL_QWORD_READ (R365). -/
def execPoolQwordRead (m : Master) (s : State) : Host.Outcome State Fault Refusal := answer (reads m (R.POOL_QWORD.addr 0) (readQword m)) s

/-- POOL_STALL (R362): the waited time has reached STALL_LIM × 1,024 cycles. -/
def execPoolStall (q : Requester) (s : State) : Host.Outcome State Fault Refusal :=
  answer (.look fun s =>
    match s.pool.waits.find? (·.req = reqId q) with
    | some w =>
      let lim := F.POOL_QCFG_STALL_LIM.of (queueAt s w.queue).cfg.toNat
      if !w.raised && lim ≠ 0 && w.since + 1024 * lim ≤ s.elapsed then
        .seq (setPool fun p => { p with
            waits := p.waits.map fun x => if x.req = reqId q then { x with raised := true } else x })
          (raise .POOL_STALL w.queue (reqId q))
      else .done
    | none => .done) s

/-- POOL_QCFG_WRITE (R374, R645). -/
def execPoolQcfgWrite (m : Master) (v : W64) (s : State) : Host.Outcome State Fault Refusal :=
  answer (arrivePair m (R.POOL_QCFG.addr 0) v.toNat (wrQcfg m v.toNat (fullMask 2))) s

/-- POOL_LPORT_WRITE (R367). -/
def execPoolLportWrite (m : Master) (i : Fin 4096) (v : Word) (s : State) : Host.Outcome State Fault Refusal :=
  answer (arrive m (R.POOL_LPORT.addr i) 0xF v.toNat (wrLport m i v.toNat (fullMask 1))) s

end Sys2Proof.Machine
end

