-- ==== Sys2Proof/Machine/Array.lean ====
section
/-! DEFINITION. The delay engine, the selectors and the gallery DMA (07_array_delay_and_steering.md). -/

namespace Sys2Proof.Machine

/-! ### Equal-power gains -/

/-- π × 2^160 to the unit below. -/
def piFix : Nat := 4591442807048218921384805199743311128454155024418

/-- The rest of the sine series after a term of order 2 k − 1, in units of 2^−160. -/
def sinRest (t2 : Int) : Nat → Nat → Int → Int
  | 0, _, _ => 0
  | n + 1, k, term =>
    let next := -(term * t2 / (2 ^ 160 : Nat)) / ((2 * k) * (2 * k + 1) : Nat)
    next + sinRest t2 n (k + 1) next

/-- sin(π x / 2) for x = num / den to the nearest word of Q3.36 (R249). -/
def sinQ36 (num den : Nat) : W40 :=
  if num = 0 then 0
  else if den ≤ num then 0x1000000000
  else
    let t : Int := (piFix * num / (2 * den) : Nat)
    let v := t + sinRest (t * t / (2 ^ 160 : Nat)) 40 1 t
    BitVec.ofInt 40 ((v + 2 ^ 123) / (2 ^ 124 : Nat))

/-- x = num / den as a linear gain in Q3.36, to the nearest with ties to even (R249). -/
def linQ36 (num den : Nat) : W40 := BitVec.ofInt 40 (divEven (num * 2 ^ 36 : Nat) den)

/-! ### Delay lines and taps -/

/-- LEN of a line (R233). -/
def lineLen (s : State) (j : Nat) : Nat := 8 * F.DRAM_DLY_LINE_GROUPS.live j s

/-- The tap's delay lies in its range (R236). -/
def tapInRange (s : State) (line delay : Nat) : Bool := 3 * spt s + 7 ≤ delay && delay ≤ lineLen s line

/-- Line `j`. -/
def lineAt (s : State) (j : Nat) : DlyLine := smGet (fun _ => (⟨0, 0⟩ : DlyLine)) s.dly.lines j

/-- Change line `j`. -/
def setLine (j : Nat) (x : DlyLine) : Act := setDly fun d => { d with lines := smPut (fun _ => ⟨0, 0⟩) d.lines j x }

/-- The ring of line `j` counts as empty from tick `n` (R237). -/
def lineEmpty (j n : Nat) : Act := .look fun s => setLine j ⟨n, n * spt s / 8 * 8⟩

/-- Enabled lines, by their applied registers. -/
def onLines (s : State) : List Nat :=
  (listed s.live (R.DRAM_DLY_LINE.addr 0) 8 1024).filter fun j => F.DRAM_DLY_LINE_EN.liveOn j s

/-- Enabled taps, by their applied registers. -/
def onTaps (s : State) : List Nat :=
  (listed s.live (R.DRAM_DLY_TAP.addr 0) 8 2048).filter fun t => F.DRAM_DLY_TAP_EN.liveOn t s

/-- Address of line sample `u` in LPDDR5X (R233). -/
def lineByte (s : State) (j u : Nat) : Nat :=
  0x80000000 + 4096 * F.DRAM_DLY_LINE_BASE.live j s + 40 * (u % lineLen s j / 8) + 5 * (u % 8)

/-- Write the group of line `j` that begins at sample `u` (R234). An uncorrectable gallery word gives zeros (R181). -/
def lineGroup (j u : Nat) : Act :=
  .seq (forEach (List.range 8) fun i => .look fun s =>
    let a := galAddr (F.DRAM_DLY_LINE_GAL.live j s) (F.DRAM_DLY_LINE_IN_ADDR.live j s + (u + i) % 32)
    .seq (grant 4 [a, lineByte s j (u + i)]) <| eccRead a 8 4 (some .ECC_UE_DMA) fun ok => .look fun s =>
      memSetLe (lineByte s j (u + i)) 5 (if ok then (word40 s a).toNat else 0))
    (.look fun s => .seq (eccFull (lineByte s j u) 40) (setLine j { lineAt s j with next := u + 8 }))

/-- First sample of each group of line `j` due by the end of tick `n` − 1 and not written (R234). -/
def groupsDue (s : State) (j n : Nat) : List Nat :=
  let nx := (lineAt s j).next
  let cnt := (n * spt s - nx) / 8
  (List.range cnt).map fun i => nx + 8 * i

/-- Write the block of tap `t` for tick `n`: `v` gives each sample. -/
def tapBlock (t n : Nat) (v : Nat → Act → Act) : Act := .look fun s =>
  forEach (List.range (spt s)) fun i =>
    let u := n * spt s + i
    let a := galAddr (F.DRAM_DLY_TAP_GAL.live t s) (F.DRAM_DLY_TAP_OUT_ADDR.live t s + u % 32)
    v u (eccFull a 8)

/-- Put a word of a tap's block. -/
def tapPut (t u : Nat) (w : W40) : Act := .look fun s =>
  let a := galAddr (F.DRAM_DLY_TAP_GAL.live t s) (F.DRAM_DLY_TAP_OUT_ADDR.live t s + u % 32)
  .seq (grant 4 [a]) (setWord40 a w)

/-- Zeros in the block of a tap for tick `n` (R236, R240, R242). -/
def tapZero (t n : Nat) : Act := tapBlock t n fun u fresh => .seq (tapPut t u 0) fresh

/-- Read the block of tap `t` for tick `n` from its line (R235, R237, R241). -/
def tapRead (t n : Nat) : Act := tapBlock t n fun u fresh => .look fun s =>
  let j := F.DRAM_DLY_TAP_LINE.live t s
  let d := F.DRAM_DLY_TAP_DELAY.live t s
  let l := lineAt s j
  if u < d || u - d < l.since * spt s || l.next ≤ u - d then .seq (tapPut t u 0) fresh
  else
    let a := lineByte s j (u - d)
    eccRead a 5 4 (some .ECC_UE_DMA) fun ok => .look fun s =>
      .seq (tapPut t u (if ok then BitVec.ofNat 40 (memLe s.mem a 5) else 0)) fresh

/-- The transfers of the tick in progress end `cyc` cycles after its edge (R234–R239). -/
def dlyEnd (cyc : Nat) : Act := .look fun s =>
  let n := tickNum s
  if s.dly.busy then acts [
    forEach (onLines s) fun j => forEach (groupsDue s j n) fun u => lineGroup j u,
    forEach (onTaps s) fun t => if s.dly.bad.contains t then tapZero t (n + 1) else tapRead t (n + 1),
    setDly fun d => { d with busy := false, doneAt := cyc % 2 ^ 19 }]
  else .done

/-- A late transfer (R240). -/
def dlyLateEv (t : Nat) : Act :=
  acts [F.DRAM_DLY_STAT_LATE.set 0 1, F.DRAM_DLY_LATECNT_COUNT.inc 0, raise .DLY_LATE t]

/-- The edge that begins tick `n` finds out how the transfers of the tick before it ended (R240); the applied registers are
still those of that tick. -/
def dlyJudge (n : Nat) (first : Bool) : Act := .look fun s =>
  if first || !s.dly.was then setDly fun d => { d with busy := false }
  else
    let late := s.dly.busy
    acts [
      onlyIf late (.seq
        (forEach (onTaps s) fun t => .seq (tapZero t n) (dlyLateEv t))
        (forEach (onLines s) fun j => forEach (groupsDue s j (n - 1)) fun _ => dlyLateEv 0xFFFF)),
      .look fun s =>
        let d := if late then 0x7FFFF else s.dly.doneAt
        .seq (F.DRAM_DLY_STAT_DONE.set 0 d)
          (F.DRAM_DLY_PEAK_PEAK.set 0 (max d (F.DRAM_DLY_PEAK_PEAK.get 0 s))),
      setDly fun d => { d with busy := false }]

/-- E3 of the edge that begins tick `n` (R236, R242): taps out of range are found, and the transfers of the tick start. -/
def dlyStart (n : Nat) : Act := .look fun s =>
  let bad := (onTaps s).filter fun t => !tapInRange s (F.DRAM_DLY_TAP_LINE.live t s) (F.DRAM_DLY_TAP_DELAY.live t s)
  acts [
    forEach (bad.filter fun t => !s.dly.bad.contains t) fun t => raise .DLY_CFG_ERR t,
    setDly fun d => { d with bad := bad },
    if F.DRAM_DLY_CTRL_EN.liveOn 0 s then
      .seq (onlyIf (!s.dly.was) (forEach (onLines s) fun j => lineEmpty j n))
        (setDly fun d => { d with busy := true, was := true })
    else
      .seq (forEach (onTaps s) fun t => tapZero t n) (setDly fun d => { d with busy := false, was := false })]

/-- A write to `DRAM_DLY_LINE` (R259). -/
def wrDlyLine (m j v mask : Nat) (tie : Bool := false) : Act := .look fun s =>
  let e := entryOf R.DRAM_DLY_LINE
  let new := afterWrite e j m v mask s
  let g := F.DRAM_DLY_LINE_GROUPS.of new
  let a := F.DRAM_DLY_LINE_IN_ADDR.of new
  if F.DRAM_DLY_LINE_EN.of new = 1 && (g = 0 || dramSize s < 4096 * F.DRAM_DLY_LINE_BASE.of new + 40 * g ||
      a % 32 ≠ 0 || 261088 < a) then dropped m (R.DRAM_DLY_LINE.addr j + 4)
  else storeWrite e j m v mask (R.DRAM_DLY_LINE.addr j + 4) tie

/-- A write to `DRAM_DLY_TAP` (R231, R236). -/
def wrDlyTap (m t v mask : Nat) (tie : Bool := false) : Act := .look fun s =>
  let e := entryOf R.DRAM_DLY_TAP
  let new := afterWrite e t m v mask s
  let a := F.DRAM_DLY_TAP_OUT_ADDR.of new
  if !tapInRange (rated s) (F.DRAM_DLY_TAP_LINE.of new) (F.DRAM_DLY_TAP_DELAY.of new) || a % 32 ≠ 0 || 261088 < a then
    dropped m (R.DRAM_DLY_TAP.addr t + 4)
  else storeWrite e t m v mask (R.DRAM_DLY_TAP.addr t + 4) tie

/-! ### Selectors, R245–R251 -/

/-- The applied BANK of selector `k` differs from ACTIVE. -/
def selDiffers (s : State) (k : Nat) : Bool := F.GDMA_SEL_BANK.live k s ≠ F.GDMA_SEL_STAT_ACTIVE.get k s

/-- PEND of a selector follows the applied BANK (R250); a BANK that is ACTIVE again cancels a switch to come. -/
def selPend (k : Nat) : Act := .look fun s => .seq
  (F.GDMA_SEL_STAT_PEND.set k (b2n (selDiffers s k)))
  (onlyIf (!selDiffers s k) (setGdma (k / 16) fun x => { x with seen := x.seen.filter (· ≠ k % 16) }))

/-- E2 has seen the applied BANK: a switch starts at the next edge where it differs from ACTIVE (R248). -/
def selSee (k : Nat) : Act := .look fun s => .seq (selPend k)
  (onlyIf (selDiffers s k) (setGdma (k / 16) fun x => { x with seen := (x.seen.filter (· ≠ k % 16)) ++ [k % 16] }))

/-- A selector at an edge, after E2: the countdown of a fade, the start of a switch (R248). -/
def selStep (g i : Nat) : Act := .look fun s =>
  let k := 16 * g + i
  let rem := F.GDMA_SEL_STAT_REMAIN.get k s
  if F.GDMA_SEL_STAT_FADE.on k s then
    (if 1 < rem then .seq (F.GDMA_SEL_STAT_REMAIN.set k (rem - 1)) (selPend k)
     else acts [F.GDMA_SEL_STAT_FADE.set k 0, F.GDMA_SEL_STAT_REMAIN.set k 0, selSee k])
  else if (gdmaAt s g).seen.contains i && selDiffers s k then
    let t := max 1 (F.GDMA_SEL_FADE_T.live k s)
    acts [
      F.GDMA_SEL_STAT_ACTIVE.set k (F.GDMA_SEL_BANK.live k s), F.GDMA_SEL_STAT_FADE.set k 1, F.GDMA_SEL_STAT_REMAIN.set k t,
      setGdma g fun x => { x with
        fadeT := smInsert x.fadeT i t, shape := smInsert x.shape i (F.GDMA_SEL_SHAPE.live k s) },
      selPend k]
  else selSee k

/-- g_new and g_old of sample `i` for a selector (R249). -/
def selGains (s : State) (g n i : Nat) : W40 × W40 :=
  let k := 16 * g + n
  let f := spt s
  if F.GDMA_SEL_STAT_FADE.on k s then
    let t := smGet (fun _ => 1) (gdmaAt s g).fadeT n
    let num := (t - F.GDMA_SEL_STAT_REMAIN.get k s) * f + i + 1
    let den := t * f
    if smGet (fun _ => 0) (gdmaAt s g).shape n = 1 then (sinQ36 num den, sinQ36 (den - num) den)
    else (linQ36 num den, linQ36 (den - num) den)
  else (0x1000000000, 0)

/-- The selector block of selector `n` for the tick that the edge begins (R245–R247). -/
def selBlock (g n tick : Nat) : Act := .look fun s =>
  let k := 16 * g + n
  let w (o : Nat) (v : W40) : Act :=
    let a := galAddr g (261120 + 64 * n + o)
    acts [grant (dmaId g) [a], putWord40 a v]
  let state := F.GDMA_SEL_STAT_ACTIVE.get k s + 2 * F.GDMA_SEL_STAT_FADE.get k s +
    4 * F.GDMA_SEL_STAT_REMAIN.get k s + tick % 256 * 2 ^ 32
  .seq (w 0 (BitVec.ofNat 40 state))
    (forEach (List.range (spt s)) fun i =>
      .seq (w (1 + i) (selGains s g n i).1) (w (17 + i) (selGains s g n i).2))

/-! ### Gallery DMA jobs, R255–R258 -/

/-- The `n` bytes from `a` lie in the scene store, a pool bank or LPDDR5X (R255). -/
def jobRegion (s : State) (a n : Nat) : Bool :=
  (0x30000000 ≤ a && a + n ≤ 0x30800000) ||
  (0x10000000 ≤ a && a + n ≤ 0x14000000 && a % 0x1000000 + n ≤ 0x400000) ||
  (0x80000000 ≤ a && a + n ≤ dramEnd s)

/-- The next descriptor is taken and its job begins, or it is skipped (R257). -/
def jobStart (g : Nat) : Act := .look fun s =>
  let q := F.GDMA_CFG_QUEUE.get g s
  if F.GDMA_CFG_EN.on g s && (gdmaAt s g).job.isNone && isItemQ (queueAt s q) then
    popCell (dmaId g) q fun v => match v with
    | none => onlyIf (!waiting s (dmaId g)) (beginWait (dmaId g) q false)
    | some v => .seq (onlyIf (waiting s (dmaId g)) (endWait (dmaId g))) <|
      if v < 2 ^ 31 then .done
      else
        let c := v % 65536
        .seq (grant (dmaId g) [cellAddr c]) <| eccRead (cellAddr c) 20 (dmaId g) (some .ECC_UE_DMA) fun ok => .look fun s =>
          let w (i : Nat) : Nat := if ok then memLe s.mem (cellAddr c + 4 * i) 4 else 0
          let ext := w 0 / 8 * 8
          let cnt := w 2 % 65536 + 1
          let gw := w 1 % 2 ^ 18
          if jobRegion s ext (8 * cnt) && gw + cnt ≤ 261120 then
            .seq (setGdma g fun x => { x with
                job := some ⟨c, ext, bitOf (w 1) 31, gw, cnt, w 3, w 4, false⟩ })
              (F.GDMA_STAT_BUSY.set g 1)
          else .seq (raise .GDMA_BAD (w 4) (w 4 / 65536) 0 g) (freeCell (dmaId g) c)
  else onlyIf (waiting s (dmaId g) && !F.GDMA_CFG_EN.on g s) (endWait (dmaId g))

/-- Copy one word of a job (R256). -/
def jobWord (g : Nat) (j : GdmaJob) (i : Nat) : Act :=
  let ga := galAddr g (j.gword + i)
  let ea := j.ext + 8 * i
  .seq (grant (dmaId g) [ga, ea]) <| eccRead (if j.out then ga else ea) 8 (dmaId g) (some .ECC_UE_DMA) fun ok => .look fun s =>
    if j.out then .seq (memSetLe ea 8 (if ok then ofInt 64 (word40 s ga).toInt else 0)) (eccFull ea 8)
    else putWord40 ga (if ok then word40 s ea else 0)

/-- The running job completes (R257). -/
def jobEnd (g : Nat) : Act := .look fun s =>
  match (gdmaAt s g).job with
  | none => .done
  | some j => acts [
      forEach (List.range j.count) fun i => jobWord g j i,
      setGdma g fun x => { x with job := none },
      F.GDMA_STAT_BUSY.set g 0,
      F.GDMA_STAT_DONE.set g ((F.GDMA_STAT_DONE.get g s + 1) % 65536),
      F.GDMA_TAG_TAG.set g j.tag,
      freeCell (dmaId g) j.cell]

/-- The jobs of a gallery that have not completed, as DUE and TAG: the running one, and those in its queue. Of galleries that take from
one queue the lowest answers for it (DESIGN CHOICE, log 94). -/
def jobsOpen (s : State) (g : Nat) : List (Nat × Nat) :=
  let q := F.GDMA_CFG_QUEUE.get g s
  let mine (h : Nat) : Bool := F.GDMA_CFG_EN.on h s && F.GDMA_CFG_QUEUE.get h s = q
  (match (gdmaAt s g).job with | some j => if j.late then [] else [(j.due, j.tag)] | none => []) ++
    (if mine g && isItemQ (queueAt s q) && !(List.range g).any mine then
      (chainCells s (queueAt s q).depth (queueAt s q).head).map fun c =>
        (memLe s.mem (cellAddr c + 12) 4, memLe s.mem (cellAddr c + 16) 4)
     else [])

/-- The edge that begins tick `n`: jobs whose DUE it is and that have not completed are late (R258). -/
def jobsLate (g n : Nat) : Act := .look fun s =>
  forEach ((jobsOpen s g).filter fun j => j.1 ≠ 0 && j.1 = n % 2 ^ 32) fun j => acts [
    setGdma g fun x => { x with job := x.job.map fun r => if r.due = j.1 then { r with late := true } else r },
    F.GDMA_STAT_LATE.set g 1,
    raise .GDMA_LATE j.2 (j.2 / 65536) 0 g]

/-! ### Commands -/

/-- DLY_TRANSFER_END (R239). -/
def execDlyTransferEnd (cyc : Nat) (s : State) : Host.Outcome State Fault Refusal := answer (dlyEnd cyc) s

/-- DLY_LINE_WRITE (R259). -/
def execDlyLineWrite (m : Master) (i : Fin 1024) (v : W64) (s : State) : Host.Outcome State Fault Refusal :=
  answer (arrivePair m (R.DRAM_DLY_LINE.addr i) v.toNat (wrDlyLine m i v.toNat (fullMask 2))) s

/-- DLY_TAP_WRITE (R236). -/
def execDlyTapWrite (m : Master) (i : Fin 2048) (v : W64) (s : State) : Host.Outcome State Fault Refusal :=
  answer (arrivePair m (R.DRAM_DLY_TAP.addr i) v.toNat (wrDlyTap m i v.toNat (fullMask 2))) s

/-- GDMA_JOB_START (R257). -/
def execGdmaJobStart (g : Fin 16) (s : State) : Host.Outcome State Fault Refusal := answer (jobStart g) s

/-- POOL_WAIT_COMPLETE (R362): the wait of a master ends when its queue holds an item or a word; that of a gallery DMA, when a descriptor
has come. -/
def execPoolWaitComplete (q : Requester) (s : State) : Host.Outcome State Fault Refusal :=
  answer (match q with
    | .gdma g => .look fun s => onlyIf (waiting s (dmaId g)) (jobStart g)
    | _ => waitDone (reqId q)) s

/-- GDMA_JOB_COMPLETE (R257). -/
def execGdmaJobComplete (g : Fin 16) (s : State) : Host.Outcome State Fault Refusal := answer (jobEnd g) s

end Sys2Proof.Machine
end

