-- ==== Sys2Proof/Machine/Subst.lean ====
section
/-! DEFINITION. Substitution of a channel that delivers no frame (R37, R642), the frames of sources and destinations, and the
conversion of samples to and from port and stream words (R196, R203). -/

namespace Sys2Proof.Machine

/-- A channel that has delivered no frame since reset (R37). -/
def chanNew : ChanHist := ⟨[], 0, 0⟩

/-- A kept frame as one of F samples. After a change of F the spec does not say what a kept frame is; missing samples read 0
(DESIGN CHOICE, log 17). -/
def fitFrame (f : Nat) (xs : List W40) : List W40 := (List.range f).map fun i => xs.getD i 0

/-- What a channel emits and keeps, for a frame it delivers or for none (R37). `hold` is its policy. -/
def subst (hold : Bool) (f : Nat) (h : ChanHist) (fr : Option (List W40)) : List W40 × ChanHist :=
  match fr with
  | some x =>
    let back := if hold then decide (2 ≤ h.miss) else decide (1 ≤ h.miss)
    let out := if back then rise f x else x
    (out, ⟨x, out.getLastD 0, 0⟩)
  | none =>
    let out :=
      if hold then
        (if h.miss = 0 then fitFrame f h.good else if h.miss = 1 then fall f (fitFrame f h.good) else zeros f)
      else if h.miss = 0 then fall f (List.replicate f h.last)
      else zeros f
    (out, ⟨h.good, out.getLastD 0, h.miss + 1⟩)

/-- A frame of zeros is not listed among sources and destinations. -/
def isZero (xs : List W40) : Bool := xs.all fun w => decide (w = 0)

/-- List a frame. -/
def putFrame (m : SMap (List W40)) (e : Nat) (xs : List W40) : SMap (List W40) :=
  if isZero xs then smErase m e else smInsert m e xs

/-- The frame latched for a source in E1 (R200). -/
def setSource (e : Nat) (xs : List W40) : Act := setTick fun t => { t with sources := putFrame t.sources e xs }

/-- The frame latched last for a source that is no bus. -/
def sourceFrame (s : State) (e : Nat) : List W40 := fitFrame (spt s) ((smFind s.tick.sources e).getD [])

/-- The frame collected last for a destination. -/
def destFrame (s : State) (d : Nat) : List W40 := fitFrame (spt s) ((smFind s.tick.dests d).getD [])

/-- The frame of a destination that is shifted out in the tick in progress (R30). -/
def destShown (s : State) (d : Nat) : List W40 := fitFrame (spt s) ((smFind s.tick.destsPrev d).getD [])

/-- A W-bit port or stream word as Q7.32 (R196). -/
def fromWord (w v : Nat) : W40 := BitVec.ofInt 40 (toInt w v * (2 ^ (33 - w) : Nat))

/-- A sample as a W-bit word, and whether it clips (R203). -/
def toWord (w : Nat) (x : W40) : Int × Bool :=
  let y := divEven x.toInt (2 ^ (33 - w))
  let hi : Int := (2 ^ (w - 1) : Nat) - 1
  let lo : Int := -((2 ^ (w - 1) : Nat) : Int)
  if hi < y then (hi, true) else if y < lo then (lo, true) else (y, false)

/-- A sample of destination `d` clips (R203). -/
def oclip (d : Nat) : Act := .look fun s =>
  R.ROUTE_OCLIP.set (d / 32) (R.ROUTE_OCLIP.val (d / 32) s ||| 2 ^ (d % 32))

/-- Address of sample `i` of the frame of bus `b` published at the edge of tick `n` (R644). -/
def busAddr (b n i : Nat) : Nat := 0x10000000 + b / 512 * 0x1000000 + 256 * (b % 512) + n % 2 * 128 + 8 * i

/-- The frame of bus `b` published at the edge of tick `n`, as its cell holds it; a sample in an uncorrectable word is zero
(R216). -/
def busFrame (s : State) (b n : Nat) : List W40 := (List.range (spt s)).map fun i =>
  if (marksIn s (busAddr b n i) 8).any fun p => p.2.bit.isNone then 0 else word40 s (busAddr b n i)

/-- The byte at `a` lies in the slot of a sample at or above F of a routing cell, which holds no defined value (R644). -/
def busHole (s : State) (a : Nat) : Bool :=
  0x10000000 ≤ a && a < 0x14000000 && a % 0x1000000 < 0x20000 && spt s ≤ a % 128 / 8

/-- Node mute is in force (R581). A standby ignores its own MUTE_N (R583). -/
def nodeMute (s : State) : Bool :=
  let sd := F.PWR_STAT_SD.get 0 s
  ((inAt s 0).active && !isStandby (F.PAIR_STAT_STATE.get 0 s)) ||
    F.PWR_MUTE_SW.liveOn 0 s || (1 ≤ sd && sd ≤ 4)

/-- A gain moves one step toward 1 or toward 0 and stops exactly there (R332, R582): up by 1 / up, down by 1 / down. -/
def gainStep (num den : Nat) (rise : Bool) (up down : Nat) : Nat × Nat :=
  let n := if rise then num * up + den else num * down - den
  let d := if rise then den * up else den * down
  if n = 0 then (0, 1) else if d ≤ n then (1, 1) else (n / Nat.gcd n d, d / Nat.gcd n d)

/-- Index of the node sample in progress in its tick. -/
def sampleIdx (s : State) : Nat := min (spt s - 1) (s.tick.cycle * fsHz s / (cclkMHz s * 1000000))

end Sys2Proof.Machine
end

