-- ==== Sys2Proof/Machine/Wire.lean ====
section
/-! DEFINITION. Ethernet frames as bytes: tags, IPv4 and UDP headers, FCS, and the tests of R384, R392, R394 and R425 on them. -/

namespace Sys2Proof.Machine

/-! ### Reading a frame -/

/-- EtherType of a tag. -/
def tagType : Nat := 0x8100

/-- The frame carries an 802.1Q tag (R384). -/
def frTagged (f : Frame) : Bool := fieldBe f 12 2 == tagType

/-- Bytes before the payload. -/
def frHead (f : Frame) : Nat := if frTagged f then 18 else 14

/-- EtherType, behind the tag when there is one. -/
def frType (f : Frame) : Nat := fieldBe f (frHead f - 2) 2

/-- Payload with its pad, without the FCS. -/
def frPayload (f : Frame) : List Byte := (f.take (f.length - 4)).drop (frHead f)

/-- The tag control information. -/
def frTci (f : Frame) : Nat := fieldBe f 14 2

/-- VID and PCP of a frame on a port with the given defaults (R384). -/
def frVlan (f : Frame) (pvid pcp : Nat) : Nat × Nat :=
  if frTagged f then (if frTci f % 4096 = 0 then pvid else frTci f % 4096, frTci f / 8192) else (pvid, pcp)

/-- The FCS is right: CRC-32 over the bytes before it, least significant byte first (R379). -/
def fcsOk (f : Frame) : Bool := fieldLe f (f.length - 4) 4 == crc32 (f.take (f.length - 4))

/-- Bytes with their FCS, padded to 64 bytes. -/
def withFcs (bs : List Byte) : Frame :=
  let b := bs ++ List.replicate (60 - bs.length) 0
  b ++ bytesLe 4 (crc32 b)

/-- An Ethernet II frame, padded and with its FCS. -/
def mkFrame (dst src : Nat) (tag : Option Nat) (etype : Nat) (payload : List Byte) : Frame :=
  withFcs (bytesBe 6 dst ++ bytesBe 6 src ++
    (match tag with | some tci => bytesBe 2 tagType ++ bytesBe 2 tci | none => []) ++ bytesBe 2 etype ++ payload)

/-! ### IPv4 and UDP -/

/-- One's complement sum of 16-bit words, folded to 16 bits (RFC 1071; PRESUMED, log 22). -/
def onesSum (bs : List Byte) : Nat :=
  let sum := ((List.range ((bs.length + 1) / 2)).map fun i => fieldBe (bs ++ [0]) (2 * i) 2).sum
  let s1 := sum % 65536 + sum / 65536
  s1 % 65536 + s1 / 65536

/-- Bytes of the header of an IPv4 packet: IHL counts words of 4 bytes. -/
def ipHead (p : List Byte) : Nat := fieldBe p 0 1 % 16 * 4

/-- An IPv4 packet that holds the head of a UDP datagram, with or without options: not a later fragment. -/
def ipUdp (p : List Byte) : Bool :=
  fieldBe p 0 1 / 16 == 4 && 20 ≤ ipHead p && fieldBe p 6 2 % 0x2000 == 0 && fieldBe p 9 1 == 17

/-- The packet has IHL 5 and is not fragmented, as Coleel asks (R425). -/
def ipPlain (p : List Byte) : Bool := ipHead p == 20 && fieldBe p 6 2 % 0x4000 == 0

/-- The IPv4 header checksum is right (R426). -/
def ipSumOk (p : List Byte) : Bool := onesSum (p.take (ipHead p)) == 0xFFFF

def ipDst (p : List Byte) : Nat := fieldBe p 16 4
def udpDst (p : List Byte) : Nat := fieldBe p (ipHead p + 2) 2

/-- Payload of the UDP datagram in an IPv4 packet, by the UDP length. -/
def udpPayload (p : List Byte) : List Byte := (p.drop (ipHead p + 8)).take (fieldBe p (ipHead p + 4) 2 - 8)

/-- An IPv4 packet of R418 with a UDP datagram. -/
def mkUdp (dscp ttl src dst sport dport : Nat) (payload : List Byte) : List Byte :=
  let len := 28 + payload.length
  let head (sum : Nat) : List Byte :=
    bytesBe 1 0x45 ++ bytesBe 1 (4 * dscp) ++ bytesBe 2 len ++ bytesBe 2 0 ++ bytesBe 2 0x4000 ++ bytesBe 1 ttl ++
      bytesBe 1 17 ++ bytesBe 2 sum ++ bytesBe 4 src ++ bytesBe 4 dst
  head (0xFFFF - onesSum (head 0)) ++ bytesBe 2 sport ++ bytesBe 2 dport ++ bytesBe 2 (8 + payload.length) ++
    bytesBe 2 0 ++ payload

/-! ### Where a frame for P4 goes, R392 -/

/-- A PTP frame. -/
def isPtp (f : Frame) : Bool :=
  frType f == 0x88F7 ||
    (frType f == 0x0800 && ipUdp (frPayload f) && (udpDst (frPayload f) == 319 || udpDst (frPayload f) == 320))

/-- A management frame (R394). -/
def isMgmt (s : State) (f : Frame) (vid : Nat) : Bool :=
  F.ETH_MGMT_EN.on 0 s && frType f == F.ETH_MGMT_ETYPE.get 0 s && fieldBe f 0 6 == F.ETH_MAC_ADDR.get 0 s &&
    (!F.ETH_MGMT_VIDCHK.on 0 s || vid == F.ETH_MGMT_VID.get 0 s)

/-! ### Matching of streams, R425 -/

/-- The Coleel header and what follows, when the frame is of an entry kind: 0 Ethernet II, 1 UDP. -/
def coleelOf (s : State) (kind : Nat) (f : Frame) : Option (List Byte) :=
  let p := frPayload f
  if kind = 0 then (if frType f = F.CLT_CFG_ETYPE.get 0 s then some p else none)
  else if frType f = 0x0800 && ipUdp p && ipPlain p && udpDst p = F.CLT_UDP_PORT.get 0 s then some (udpPayload p)
  else none

/-- Receive entry `e` takes the frame (R425). -/
def cltMatches (s : State) (e : Nat) (f : Frame) : Bool :=
  let key := R.CLT_RXKEY.liveVal e s
  let p := frPayload f
  let kind := F.CLT_RXCFG_KIND.live e s
  F.CLT_RXCFG_EN.liveOn e s &&
    if kind < 2 then match coleelOf s kind f with
      | some h => 24 ≤ h.length && fieldBe h 4 2 == bitsOf key 26 16 && fieldBe h 6 2 == bitsOf key 11 0
      | none => false
    else if kind = 2 then
      frType f == 0x0800 && ipUdp p && ipDst p == bitsOf key 63 32 && udpDst p == bitsOf key 31 16 &&
        fieldBe (udpPayload p) 1 1 % 128 == bitsOf key 6 0 &&
        (!bitOf key 15 || fieldBe (udpPayload p) 8 4 == F.CLT_RXAUX_SSRC.live e s)
    else frType f == 0x22F0 && fieldBe p 0 1 == 2 && fieldBe p 4 8 == key

/-- Receive entries whose applied configuration is not that of reset. -/
def cltEntries (s : State) : List Nat := listed s.live (R.CLT_RXCFG.addr 0) 16 256

/-- The lowest-numbered entry that a frame matches. -/
def cltMatch (s : State) (f : Frame) : Option Nat := (cltEntries s).find? fun e => cltMatches s e f

/-! ### Bytes in pool cells, R382 -/

/-- Write bytes from `a` in pool data: whole codewords of 4 bytes, and a read-modify-write of a last one that they cover in part, dropped
where that is uncorrectable (R168; log 89). -/
def poolPut (id a : Nat) (bs : List Byte) : Act :=
  let n := bs.length / 4 * 4
  acts [memSetBytes a (bs.take n), eccFull a n,
    onlyIf (decide (n < bs.length)) (eccWrite (a + n) (bs.length - n) id (some .ECC_UE_MASTER) fun ok =>
      onlyIf ok (memSetBytes (a + n) (bs.drop n)))]

/-- Requester `id` writes bytes over the cells of an item, 256 to a cell. -/
def cellsWrite (id : Nat) : List Nat → List Byte → Act
  | [], _ => .done
  | c :: cs, bs => .seq (poolPut id (cellAddr c) (bs.take 256)) (cellsWrite id cs (bs.drop 256))

/-- The bytes of the cells of an item. -/
def cellsRead (s : State) (cs : List Nat) : List Byte := cs.flatMap fun c => memBytes s.mem (cellAddr c) 256

/-- Requester `id` reads the cells of an item: every codeword is checked (R166), and `k` goes on with the bytes, zeros where one is
uncorrectable (R181; for the ports and the T1S engine DESIGN CHOICE, log 89). -/
def cellsTake (id : Nat) (cs : List Nat) (k : List Byte → Act) : Act := .look fun s =>
  if s.ecc.marks.isEmpty then k (cellsRead s cs)
  else .seq (forEach cs fun c => eccRead (cellAddr c) 256 id (some .ECC_UE_MASTER) fun _ => .done)
    (k (cs.flatMap fun c => cleanBytes s (cellAddr c) 256))

/-- The descriptor of a stored frame (R382). -/
def descriptor (len ingress cls vid pcp : Nat) (ts : Nat) : List Byte :=
  bytesLe 2 len ++ bytesLe 1 ingress ++ bytesLe 1 cls ++ bytesLe 2 (vid % 4096 + pcp % 8 * 8192) ++ bytesLe 2 0 ++ bytesLe 8 ts

/-- Free the cells of an item. -/
def freeCells_ (req : Nat) (cs : List Nat) : Act := forEach cs fun c => freeCell req c

/-- Store bytes as an item of queue `q` for requester `req`, `note` being told its cells; `k` goes on with whether they were granted. -/
def storeItemWith (q req : Nat) (bs : List Byte) (note : List Nat → Act) (k : Bool → Act) : Act := .look fun s =>
  if !isItemQ (queueAt s q) then k false
  else allocCells q req ((bs.length + 255) / 256)
    (fun cs => acts [cellsWrite req cs bs, note cs, pushItem req cs, k true])
    (fun cs => .seq (freeCells_ req cs) (k false))

/-- Store bytes as an item of queue `q` for requester `req`; `k` goes on with whether its cells were granted. -/
def storeItem (q req : Nat) (bs : List Byte) (k : Bool → Act) : Act := storeItemWith q req bs (fun _ => .done) k

/-! ### Policing, R434, R435 -/

/-- Level of a bucket now, in 1/30,000 bit: RATE Mb/s is RATE × 25 of them per cycle at 1.2 GHz and RATE × 24 at 1.25 GHz. -/
def polLevel (s : State) (p k : Nat) : Nat :=
  let i := 4 * p + k
  let (l, t) := (smFind s.clt.pol i).getD (0, 0)
  min (F.CLT_POL_BURST.get i s * 64 * 8 * 30000)
    (l + F.CLT_POL_RATE.get i s * (if cclkMHz s = 1250 then 24 else 25) * (s.elapsed - t))

/-- A frame of `len` bytes of class `k` from port `p` is judged; `c` goes on with whether it proceeds. -/
def police (p k len : Nat) (c : Bool → Act) : Act := .look fun s =>
  let i := 4 * p + k
  let l := polLevel s p k
  let need := len * 8 * 30000
  if F.CLT_POL_RATE.get i s = 0 then c true
  else if need ≤ l then
    .seq (setClt fun x => { x with pol := smInsert x.pol i (l - need, s.elapsed) }) (c true)
  else acts [
    F.CLT_POLDROP_COUNT.inc i,
    onlyIf (!s.clt.polTick.contains i)
      (.seq (setClt fun x => { x with polTick := x.polTick ++ [i] }) (raise .CLT_POLICE p k)),
    c false]

end Sys2Proof.Machine
end

