-- ==== Sys2Proof/Machine/Eth.lean ====
section
/-! DEFINITION. The Ethernet ports and the switch (12_ethernet_and_t1s.md, R375–R393, R400–R402, R413). -/

namespace Sys2Proof.Machine

/-! ### Counters and limits -/

/-- Count in a port's counter `k`: 0 RX_OK, 1 RX_RUNT, 2 RX_OVERSIZE, 3 RX_FCS, 4 RX_NOBUF, 5 RX_VLAN, 6 TX_OK, 7 TX_DROP,
8 TX_HELD. Port 4 is P4. -/
def pcnt (p k : Nat) : Act := F.ETH_PCNT_COUNT.inc (9 * p + k)

/-- MAXLEN as it acts (R379). -/
def maxLen (s : State) : Nat := min 9216 (max 1522 (F.ETH_SWCFG_MAXLEN.get 0 s))

/-- MAXLEN for a frame whose first byte arrived at cycle `t`: a new value acts from 1 µs after its write (R381). -/
def maxLenAt (s : State) (t : Nat) : Nat := ((s.eth.maxLens.find? fun w => w.1 + usCycles 1 s ≤ t).map (·.2)).getD 1522

/-- The values of MAXLEN that a frame in progress may still meet: no frame lasts for 10^6 cycles. -/
def maxLensKept (t : Nat) : List (Nat × Nat) → List (Nat × Nat)
  | [] => []
  | w :: ws => if w.1 + 1000000 ≤ t then [w] else w :: maxLensKept t ws

/-- Line rate of port `p` in Gb/s; in LISTEN P0 runs 1000BASE-X (R402). -/
def lineRate (s : State) (p : Nat) : Nat :=
  if s.pwr.listen && p = 0 then 1 else match F.ETH_PCFG_MODE.get p s with | 0 => 10 | 2 => 1 | _ => 25

/-- The cycle at which the first byte of a frame of `len` bytes arrived that ends now. -/
def frameStart (s : State) (p len : Nat) : Nat := s.elapsed - len * 8 * cclkMHz s / (1000 * lineRate s p)

/-- Requester ID of the ports and the switch (R353). -/
def swId : Nat := 0x3F4

/-- The link of a port is up; P4 always is. -/
def linkUp (s : State) (p : Nat) : Bool := p == 4 || F.ETH_PSTAT_LINK.on p s

/-- Port `p`. -/
def portAt (s : State) (p : Nat) : EthPort := smGet (fun _ => ethPortReset) s.eth.ports p

/-- Change a port. -/
def setPort (p : Nat) (f : EthPort → EthPort) : Act :=
  setEth fun x => { x with ports := smPut (fun _ => ethPortReset) x.ports p (f (smGet (fun _ => ethPortReset) x.ports p)) }

/-- Class queue of a port. -/
def classQ (x : EthPort) : Nat → List Nat
  | 0 => x.q0 | 1 => x.q1 | 2 => x.q2 | _ => x.q3

/-- Replace a class queue. -/
def setClassQ (x : EthPort) (k : Nat) (l : List Nat) : EthPort :=
  match k with
  | 0 => { x with q0 := l } | 1 => { x with q1 := l } | 2 => { x with q2 := l } | _ => { x with q3 := l }

/-- Stored item `i`. -/
def itemAt (s : State) (i : Nat) : Option EthItem := smFind s.eth.items i

/-- Bytes of a stored frame. -/
def itemBytes (s : State) (x : EthItem) : Frame :=
  if x.cells = [] then x.bytes else ((cellsRead s x.cells).drop 16).take x.len

/-- The bytes of a stored frame are read for transmission. -/
def itemTake (x : EthItem) (k : Frame → Act) : Act :=
  if x.cells = [] then k x.bytes else cellsTake swId x.cells fun bs => k ((bs.drop 16).take x.len)

/-- Pool cells that a frame of `len` bytes takes (R382). -/
def cellsFor (len : Nat) : Nat := (len + 16 + 255) / 256

/-- An item leaves a port; the switch frees its cells after the last (R383). -/
def itemLeave (i p : Nat) : Act := .look fun s =>
  match itemAt s i with
  | none => .done
  | some x =>
    let rest := x.ports.filter (· ≠ p)
    if rest = [] then .seq (setEth fun e => { e with items := smErase e.items i }) (freeCells_ swId x.cells)
    else setEth fun e => { e with items := smInsert e.items i { x with ports := rest } }

/-- Frames queued for a port are discarded and counted in TX_DROP (R376, R377). -/
def portFlush (p : Nat) : Act := .look fun s =>
  let x := portAt s p
  .seq (setPort p fun x => { x with q0 := [], q1 := [], q2 := [], q3 := [], held := [] })
    (forEach (x.q3 ++ x.q2 ++ x.q1 ++ x.q0) fun i => .seq (pcnt p 7) (itemLeave i p))

/-! ### VLANs and the address table -/

/-- The entry that a VID uses (R385). -/
def vlanOf (s : State) (vid : Nat) : Option Nat :=
  (List.range 64).find? fun i => F.ETH_VLAN_EN.on i s && F.ETH_VLAN_VID.get i s == vid

/-- The winning address table entry of a frame (R386): highest PRIO, then lowest index. -/
def atFind (s : State) (dst vid : Nat) : Option AtEntry :=
  let hits := s.eth.at_.filter fun e =>
    F.ETH_AT_ACT_VALID.of e.2.act.toNat = 1 &&
      ((dst ^^^ F.ETH_AT_KEY_MAC.of e.2.key.toNat) &&& F.ETH_AT_MASK_MASK.of e.2.mask.toNat) = 0 &&
      (F.ETH_AT_KEY_VIDANY.of e.2.key.toNat = 1 || F.ETH_AT_KEY_VID.of e.2.key.toNat = vid)
  let best := hits.foldl (fun b e => max b (F.ETH_AT_ACT_PRIO.of e.2.act.toNat)) 0
  (hits.find? fun e => F.ETH_AT_ACT_PRIO.of e.2.act.toNat = best).map (·.2)

/-! ### Forwarding -/

/-- The bytes that leave a port, P4 among them, or nothing when they would be too long (R388). -/
def egressBytes (s : State) (p : Nat) (x : EthItem) (f : Frame) : Option Frame :=
  let untag := match vlanOf s x.vid with | some v => bitOf (F.ETH_VLAN_UNTAG.get v s) p | none => false
  let body := f.take (f.length - 4)
  let out := if untag && frTagged f then withFcs (body.take 12 ++ body.drop 16)
    else if !untag && !frTagged f then
      withFcs (body.take 12 ++ bytesBe 2 tagType ++ bytesBe 2 (x.vid % 4096 + x.pcp % 8 * 8192) ++ body.drop 12)
    else if !untag && frTci f ≠ x.vid % 4096 + x.pcp % 8 * 8192 + bitsOf (frTci f) 12 12 * 4096 then
      withFcs (body.take 14 ++ bytesBe 2 (x.vid % 4096 + x.pcp % 8 * 8192) ++ body.drop 16)
    else f
  if x.maxLen < out.length then none else some out

/-- A management request keeps with its item whether it came tagged, for the tag of its response (R397; DEDUCED, log 100). -/
def noteTagged (tagged : Bool) (cells : List Nat) : Act :=
  setEth fun e => { e with tagged := smInsert e.tagged (cells.headD 0) tagged }

/-- A frame for the node is delivered (R388, R392): to the PTP or the stream engine, which take it by commands of their own, or to a
pool queue. Cells charged to that queue and held for P4 alone are pushed when the frame leaves as it was stored; otherwise the frame
is copied (DESIGN CHOICE, log 21). `k` goes on with whether the cells have been handed on. -/
def p4Deliver (x : EthItem) (ingress : Nat) (f : Frame) (ts : Nat) (alone : Bool) (k : Bool → Act) : Act := .look fun s =>
  match egressBytes s 4 x f with
  | none => .seq (pcnt 4 7) (k false)
  | some g =>
    if isPtp f || (cltMatch s f).isSome then .seq (pcnt 4 6) (k false)
    else
      let mg := isMgmt s f x.vid
      let q := if mg then F.ETH_MGMT_Q_QUEUE.get 0 s else F.ETH_P4RX_QUEUE.get 0 s
      if alone && g = f && x.cells ≠ [] && x.cells.all (fun c => tagLink (tagOf s c) = q) then
        acts [pcnt 4 6, onlyIf mg (noteTagged (frTagged f) x.cells), pushItem swId x.cells, k true]
      else storeItemWith q swId (descriptor g.length ingress x.cls x.vid x.pcp ts ++ g)
        (fun cs => onlyIf mg (noteTagged (frTagged f) cs))
        fun ok => .seq (pcnt 4 (if ok then 6 else 7)) (k false)

/-- The frame is enqueued to a port, or counts in TX_DROP when its queue is full (R389); `k` goes on with whether it was. -/
def enqueue (p i : Nat) (x : EthItem) (k : Bool → Act) : Act := .look fun s =>
  let port := portAt s p
  let used := ((classQ port x.cls).map fun j => match itemAt s j with | some y => cellsFor y.len | none => 0).sum
  if max 1 (F.ETH_PQ_EGLIM.get p s) ≤ used then .seq (pcnt p 7) (k false)
  else .seq (setPort p fun y => setClassQ y x.cls (classQ y x.cls ++ [i])) (k true)

/-- Enqueue to several ports; `k` goes on with those that took it. -/
def enqueueAll (i : Nat) (x : EthItem) : List Nat → (List Nat → Act) → Act
  | [], k => k []
  | p :: ps, k => enqueue p i x fun ok => enqueueAll i x ps fun rest => k (if ok then p :: rest else rest)

/-- The forwarding decision for a frame from `ingress` (R385, R386, R434); a PTP frame of P0 to P3 goes to P4 alone, whatever the
address table holds (R448). The frame's cells are freed where nothing keeps them. -/
def forwardFrame (ingress : Nat) (x : EthItem) (f : Frame) (ts : Nat) : Act := .look fun s =>
  let drop : Act := freeCells_ swId x.cells
  match vlanOf s x.vid with
  | none => .seq (pcnt ingress 5) drop
  | some v =>
    let members := F.ETH_VLAN_MEMBER.get v s
    if !bitOf members ingress then .seq (pcnt ingress 5) drop
    else .seq (pcnt ingress 0) (.look fun s =>
      let ptp := ingress < 4 && isPtp f
      let ent := if ptp then none else atFind s (fieldBe f 0 6) x.vid
      let ports := match ent with
        | some e => F.ETH_AT_ACT_PORTS.of e.act.toNat
        | none => if F.ETH_VLAN_FLOOD.on v s then members else 16
      let deny : Bool := match ent with | some e => F.ETH_AT_ACT_ACTION.of e.act.toNat == 1 | none => false
      let set := if ptp then [4] else (List.range 5).filter fun p => bitOf ports p && p ≠ ingress && bitOf members p && linkUp s p
      if deny then .seq (pcnt ingress 5) drop
      else if set = [] then drop
      else
        let go : Act := .look fun s =>
          let i := s.eth.nextItem
          let out := set.filter (· < 4)
          .seq (setEth fun e => { e with nextItem := i + 1, items := smInsert e.items i x })
            (enqueueAll i x out fun took =>
              let close (handed : Bool) : Act :=
                if took = [] then .seq (setEth fun e => { e with items := smErase e.items i }) (onlyIf (!handed) drop)
                else setEth fun e => { e with items := smInsert e.items i { x with ports := took } }
              if set.contains 4 then p4Deliver x ingress f ts (took.isEmpty) close else close false)
        if ingress < 4 then police ingress x.cls f.length fun ok => if ok then go else drop
        else go)

/-- The item of a frame that one of the node's own engines forms now (R392). -/
def ownItem (s : State) (f : Frame) (cls vid pcp : Nat) : EthItem :=
  { cells := [], bytes := f, len := f.length, cls := cls, vid := vid, pcp := pcp, stream := false
    maxLen := maxLenAt s s.elapsed, event := none, ports := [] }

/-- A frame of one of the node's own engines enters at P4 (R392, R397, R422). -/
def p4Send (f : Frame) (cls vid pcp : Nat) (stream : Bool) : Act := .look fun s =>
  forwardFrame 4 { ownItem s f cls vid pcp with stream := stream } f 0

/-! ### Wake patterns, R400–R402 -/

/-- CRC-16 of R400. -/
def crc16 (bs : List Byte) : Nat := crcL 16 0x1021 0xFFFF bs

/-- A frame from source `src` (0 P0, 1 T1S) matches pattern `w`. -/
def wakeMatch (s : State) (w src : Nat) (f : Frame) : Bool :=
  let mask := R.ETH_WAKE_MASK.val w s
  let sel := (List.range 128).filter fun b => bitOf mask b
  F.ETH_WAKE_CFG_EN.on w s && F.ETH_WAKE_CFG_SRC.get w s == src && !sel.isEmpty &&
    sel.all (fun b => decide (b < f.length)) && crc16 (sel.map fun b => f.getD b 0) == F.ETH_WAKE_CFG_CRC.get w s

/-- A frame that passed R380 up to its FCS check meets the patterns (R401); `k` goes on with whether one matched. -/
def wakeCheck (src : Nat) (f : Frame) (k : Bool → Act) : Act := .look fun s =>
  let hits := (List.range 8).filter fun w => wakeMatch s w src f
  match hits with
  | [] => k false
  | w :: _ => acts [
      F.ETH_WAKE_STAT_LAST.set 0 w,
      F.ETH_WAKE_STAT_HIT.set 0 (F.ETH_WAKE_STAT_HIT.get 0 s ||| (hits.map (2 ^ ·)).sum),
      forEach hits fun w => raise .ETH_WAKE w,
      k true]

/-! ### Reception, R380–R382 -/

/-- A frame of port `p` outside LISTEN. -/
def rxFrame (p : Nat) (f : Frame) (ts : Nat) : Act := .look fun s =>
  let q := F.ETH_PQ_RXQ.get p s
  let (vid, pcp) := frVlan f (F.ETH_PCFG_PVID.get p s) (F.ETH_PCFG_PCP.get p s)
  let cls := bitsOf (R.ETH_PQMAP.val p s) (2 * pcp + 1) (2 * pcp)
  let top := maxLenAt s (frameStart s p f.length)
  let judge (cells : List Nat) (granted : Bool) : Act :=
    let drop (k : Nat) : Act := .seq (pcnt p k) (freeCells_ swId cells)
    if f.length < 64 then drop 1
    else if top < f.length then drop 2
    else if !fcsOk f then drop 3
    else .seq (if p = 0 then wakeCheck 0 f fun _ => .done else .done)
      (if !granted then drop 4
       else if frType f = 0x8808 then drop 0
       else .seq (cellsWrite swId cells (descriptor f.length p cls vid pcp ts ++ f))
        (forwardFrame p { cells := cells, bytes := [], len := f.length, cls := cls, vid := vid, pcp := pcp, stream := false
                          maxLen := top, event := none, ports := [] } f ts))
  if isItemQ (queueAt s q) then
    allocCells q swId (cellsFor (min f.length (top + 1))) (fun cs => judge cs true) (fun cs => judge cs false)
  else judge [] false

/-- A frame in LISTEN: P0 alone receives, and a frame only meets the wake patterns (R402); `k` goes on after a match. -/
def rxListen (p : Nat) (f : Frame) (k : Act) : Act := .look fun s =>
  if p = 0 && 64 ≤ f.length && f.length ≤ maxLenAt s (frameStart s p f.length) && fcsOk f then wakeCheck 0 f fun hit => onlyIf hit k
  else .done

/-! ### Timestamps, R444, R445 -/

/-- A time in quarter-nanoseconds as a T64 (R445). -/
def t64 (q : Nat) : Nat := q / 4000000000 % 2 ^ 32 * 2 ^ 32 + q % 4000000000

/-- The time in quarter-nanoseconds that a T64 shows. -/
def t64Quarters (t : Nat) : Nat := t / 2 ^ 32 * 4000000000 + t % 2 ^ 32

/-- Quarter-nanoseconds as 2^−16 ns. -/
def quarters (q : Nat) : Int := (q : Int) * 16384

/-- Ingress timestamp of port `p` in quarter-nanoseconds for a ball time in ps (R444, R445). -/
def ingressQ (s : State) (p ps : Nat) : Nat := (((ps : Int) - toInt 32 (F.PTP_PCORR_ING_PS.get p s)) / 250).toNat

/-- The frame descriptor's timestamp for a ball time given as a T64 (R444, R445). -/
def ingressT64 (s : State) (p t : Nat) : Nat := t64 (ingressQ s p (t64Quarters t * 250))

/-- Egress timestamp in quarter-nanoseconds of a frame that leaves port `p` now: the counter moved by EGR_PS, then truncated (R444,
R445). -/
def egressQ (s : State) (p : Nat) : Nat :=
  (((s.now * 1000000 : Nat) + toInt 32 (F.PTP_PCORR_EGR_PS.get p s) * cclkMHz s) / (250 * cclkMHz s : Nat)).toNat

/-- The 10 bytes of a PTP timestamp: seconds and nanoseconds. -/
def ptpStamp (q : Nat) : List Byte := bytesBe 6 (q / 4000000000) ++ bytesBe 4 (q / 4 % 1000000000)

/-- Bytes of a frame replaced from `o` on. -/
def patchAt (f : List Byte) (o : Nat) (bs : List Byte) : List Byte := f.take o ++ bs ++ f.drop (o + bs.length)

/-- The port inserts the egress time `tx` into a one-step message as it leaves, behind any tag change: a Sync takes its originTimestamp and
the quarter-nanoseconds in correctionField, a Pdelay_Resp its turnaround time there; the UDP checksum is 0, and the FCS is computed anew
(R450). The places of the fields are those of IEEE 1588 (PRESUMED, log 26). -/
def oneStepInsert (x : PtpEvent) (tx : Nat) (f : Frame) : Frame :=
  let udp := frType f = 0x0800
  let o := frHead f + if udp then 28 else 0
  let corr : Int := (fieldBe f (o + 8) 8 : Int) + if x.ty = 0 then quarters (tx % 4) else quarters tx - quarters x.rx
  let g := patchAt (f.take (f.length - 4)) (o + 8) (bytesBe 8 (ofInt 64 corr))
  let h := if x.ty = 0 then patchAt g (o + 34) (ptpStamp tx) else g
  withFcs (if udp then patchAt h (o - 2) (bytesBe 2 0) else h)

/-- Change a PTP port. -/
def setPtpPort (p : Nat) (f : PtpPort → PtpPort) : Act :=
  setPtp fun x => { x with ports := smPut (fun _ => ptpPortReset) x.ports p (f (smGet (fun _ => ptpPortReset) x.ports p)) }

/-- What the PTP engine keeps of an event message that leaves port `p` at `tx`: the follow-up that is due, or the egress time of its own
request (R450, R451). -/
def eventLeft (p : Nat) (x : PtpEvent) (tx : Nat) : Act :=
  if x.ty = 1 || x.ty = 2 then setPtpPort p fun y => { y with req := some (x.seq, tx), pdel := none }
  else onlyIf (!x.oneStep) (setPtpPort p fun y => { y with follow := y.follow ++ [(x.ty == 3, x.seq, tx, x.req)] })

/-! ### Transmission, R388–R391 -/

/-- A frame of `len` bytes that starts now ends at or before the next OPEN (R390). Times are in 1/(MHz × rate) ns. -/
def guardFits (s : State) (p len : Nat) : Bool :=
  let mhz := cclkMHz s
  let r := lineRate s p
  let now := s.tick.cycle * 1000 * r
  let opn := F.ETH_GATE_OPEN.live 0 s * mhz * r
  let period := (edgePos (tickNum s + 1) s - edgePos (tickNum s) s) * 1000 * r
  let next := if now ≤ opn then opn else opn + period
  !running s || now + (len + 20) * 8 * mhz ≤ next

/-- Item `i` is a stream frame of the node that may not start: the node is in the safe state (R531). It keeps its place (DESIGN CHOICE,
log 106). -/
def safeHeld (s : State) (i : Nat) : Bool := inSafe s && (match itemAt s i with | some x => x.stream | none => false)

/-- The frame that port `p` may start now: its class and number (R390). -/
def nextFrame (s : State) (p : Nat) : Option (Nat × Nat) :=
  let x := portAt s p
  let head (k : Nat) : Option (Nat × Nat) := ((classQ x k).find? fun i => !safeHeld s i).map fun i => (k, i)
  if !F.ETH_SWCFG_GATE_EN.on 0 s then (head 3).or ((head 2).or ((head 1).or (head 0)))
  else if s.eth.window then head 3
  else match (head 2).or ((head 1).or (head 0)) with
    | some (k, i) => (match itemAt s i with
      | some y => if guardFits s p ((egressBytes s p y (itemBytes s y)).getD []).length then some (k, i) else none
      | none => some (k, i))
    | none => none

/-- Port `p` starts its next eligible frame and takes its egress timestamp, which a one-step message carries (R444, R450); one that would
be too long is dropped (R388). -/
def txStart (p : Nat) : Act := .look fun s =>
  let x := portAt s p
  if !F.ETH_PCFG_EN.on p s || !linkUp s p || x.sending.isSome || asleep s then .done
  else match nextFrame s p with
    | none => .done
    | some (k, i) =>
      .seq (setPort p fun y => { setClassQ y k ((classQ y k).filter (· ≠ i)) with held := y.held.filter (· ≠ i) })
        (match itemAt s i with
         | none => .done
         | some y => itemTake y fun f => match egressBytes s p y f with
           | some f =>
             let tx := egressQ s p
             let g := match y.event with | some x => if x.oneStep then oneStepInsert x tx f else f | none => f
             .seq (setPort p fun z => { z with sending := some i, lastTx := g, stamp := tx })
               (match y.event with | some x => eventLeft p x tx | none => .done)
           | none => .seq (pcnt p 7) (itemLeave i p))

/-- A transmission ends (R383). The end of a stream frame is kept for `TICK_TXEND`. -/
def txDone (p : Nat) : Act := .look fun s =>
  match (portAt s p).sending with
  | none => .done
  | some i => acts [
      pcnt p 6,
      onlyIf (match itemAt s i with | some x => x.stream | none => false)
        (setEth fun e => { e with txEnd := s.tick.cycle * 1000 / cclkMHz s }),
      setPort p fun x => { x with sending := none },
      itemLeave i p]

/-- The audio window opens, whatever GATE_EN holds (R390). -/
def gateOpen : Act := setEth fun e => { e with window := true }

/-- The audio window closes; with GATE_EN 1, class 3 frames still queued are held and counted once each (R390). -/
def gateClose : Act := .look fun s =>
  if !s.eth.window then .done
  else .seq (setEth fun e => { e with window := false })
    (onlyIf (F.ETH_SWCFG_GATE_EN.on 0 s) (forEach (List.range 4) fun p => .look fun s =>
      let x := portAt s p
      let new := x.q3.filter fun i => !x.held.contains i
      .seq (forEach new fun _ => pcnt p 8) (setPort p fun x => { x with held := x.held ++ new })))

/-- The link state of a port changes (R377). While PLL_C is out of lock the ports report LINK 0 (R465), and in LISTEN P1 to P3 have no
power (R402). -/
def linkChange (p : Nat) (up : Bool) : Act := .look fun s =>
  if F.ETH_PSTAT_LINK.on p s = up || (up && (!F.ETH_PCFG_EN.on p s || !s.clk.lockC || (s.pwr.listen && p ≠ 0))) then .done
  else acts [
    F.ETH_PSTAT_LINK.set p (b2n up),
    F.ETH_PSTAT_LINKCHG.set p 1,
    raise .ETH_LINK p (b2n up),
    onlyIf (!up) (portFlush p)]

/-- A disabled port has reached its frame boundary (R376). -/
def portStop (p : Nat) : Act := .look fun s =>
  let x := portAt s p
  onlyIf (x.stopping && x.sending.isNone) (.seq (portFlush p) (setPort p fun x => { x with stopping := false }))

/-! ### Writes -/

/-- A write to `ETH_PCFG` (R376); outside 25GBASE-R its bit FEC is reserved (R8). -/
def wrPcfg (m p v mask : Nat) : Act := .look fun s =>
  let e := entryOf R.ETH_PCFG
  let old := R.ETH_PCFG.val p s
  let v := if F.ETH_PCFG_MODE.of (afterWrite e p m v mask s) = 1 then v else putBits v 28 28 0
  let new := afterWrite e p m v mask s
  if bitOf old 31 && bitsOf new 30 27 ≠ bitsOf old 30 27 then dropped m (R.ETH_PCFG.addr p)
  else .seq (storeWrite e p m v mask (R.ETH_PCFG.addr p))
    (onlyIf (bitOf old 31 && !bitOf new 31) (setPort p fun x => { x with stopping := true }))

/-- A write to `ETH_SWCFG`: the MAXLEN that it leaves is kept with its time (R381). -/
def wrSwcfg (m v mask : Nat) : Act := .seq (storeWrite (entryOf R.ETH_SWCFG) 0 m v mask (R.ETH_SWCFG.addr 0))
  (.look fun s => setEth fun e => { e with maxLens := (s.elapsed, maxLen s) :: maxLensKept s.elapsed e.maxLens })

/-- A write to `ETH_GATE` (R391). -/
def wrGate (m v mask : Nat) (tie : Bool := false) : Act := .look fun s =>
  let e := entryOf R.ETH_GATE
  let new := afterWrite e 0 m v mask s
  let opn := F.ETH_GATE_OPEN.of new
  let cls := F.ETH_GATE_CLOSE.of new
  if cls ≤ opn || spt (rated s) * 1000000000 < cls * fsHz (rated s) then dropped m (R.ETH_GATE.addr 0)
  else storeWrite e 0 m v mask (R.ETH_GATE.addr 0) tie

/-- A write to `ETH_AT_CMD` (R413). -/
def wrAtCmd (m v : Nat) : Act := .look fun s =>
  let i := F.ETH_AT_CMD_INDEX.of v
  match F.ETH_AT_CMD_OP.of v with
  | 1 =>
    let x : AtEntry := ⟨BitVec.ofNat 64 (R.ETH_AT_KEY.val 0 s m), BitVec.ofNat 64 (R.ETH_AT_MASK.val 0 s m),
      BitVec.ofNat 32 (R.ETH_AT_ACT.val 0 s m)⟩
    setEth fun e => { e with at_ := smPut (fun _ => (⟨0, 0, 0⟩ : AtEntry)) e.at_ i x }
  | 2 =>
    let x := smGet (fun _ => (⟨0, 0, 0⟩ : AtEntry)) s.eth.at_ i
    acts [R.ETH_AT_KEY.set 0 x.key.toNat m, R.ETH_AT_MASK.set 0 x.mask.toNat m, R.ETH_AT_ACT.set 0 x.act.toNat m]
  | _ => .done

/-- A write to `ETH_MGMT` (R394). -/
def wrEthMgmt (m v mask : Nat) : Act := .look fun s =>
  let e := entryOf R.ETH_MGMT
  let new := asWritten e 0 m v mask s
  if F.ETH_MGMT_EN.of new = 1 && F.ETH_MGMT_ETYPE.of new = 0 then dropped m (R.ETH_MGMT.addr 0)
  else storeWrite e 0 m v mask (R.ETH_MGMT.addr 0)

/-- The switch takes the next frame that the host pushed (R393). -/
def p4TxItem : Act := .look fun s =>
  let q := F.ETH_P4TX_QUEUE.get 0 s
  if !isItemQ (queueAt s q) || asleep s then .done
  else popItem swId q 65536 fun cells => .look fun s =>
    if cells = [] then .done
    else cellsTake swId cells fun bs =>
      let len := fieldLe bs 0 2
      let f := (bs.drop 16).take len
      let drop (k : Nat) : Act := .seq (pcnt 4 k) (freeCells_ swId cells)
      if len < 64 then drop 1
      else if maxLenAt s s.elapsed < len || bs.length < len + 16 then drop 2
      else
        let (vid, pcp) := frVlan f (fieldLe bs 4 2 % 4096) (fieldLe bs 4 2 / 8192)
        forwardFrame 4 { ownItem s [] (fieldLe bs 3 1 % 4) vid pcp with cells := cells, len := len } f 0

/-! ### Commands -/

/-- ETH_TX_START (R390). -/
def execEthTxStart (p : Port) (s : State) : Host.Outcome State Fault Refusal := answer (txStart p) s

/-- ETH_TX_DONE (R383). -/
def execEthTxDone (p : Port) (s : State) : Host.Outcome State Fault Refusal := answer (txDone p) s

/-- GATE_WINDOW_OPEN (R390). -/
def execGateWindowOpen (s : State) : Host.Outcome State Fault Refusal := answer gateOpen s

/-- GATE_WINDOW_CLOSE (R390). -/
def execGateWindowClose (s : State) : Host.Outcome State Fault Refusal := answer gateClose s

/-- ETH_LINK (R377). -/
def execEthLink (p : Port) (up : Bool) (s : State) : Host.Outcome State Fault Refusal := answer (linkChange p up) s

/-- ETH_PCFG_WRITE (R376). -/
def execEthPcfgWrite (m : Master) (p : Port) (v : Word) (s : State) : Host.Outcome State Fault Refusal :=
  answer (arrive m (R.ETH_PCFG.addr p) 0xF v.toNat (wrPcfg m p v.toNat (fullMask 1))) s

/-- ETH_PORT_STOP (R376). -/
def execEthPortStop (p : Port) (s : State) : Host.Outcome State Fault Refusal := answer (portStop p) s

/-- ETH_GATE_WRITE (R391). -/
def execEthGateWrite (m : Master) (v : Word) (s : State) : Host.Outcome State Fault Refusal :=
  answer (arrive m (R.ETH_GATE.addr 0) 0xF v.toNat (wrGate m v.toNat (fullMask 1))) s

/-- AT_COPY_TO_ENTRY (R413). -/
def execAtCopyToEntry (m : Master) (i : Fin 256) (s : State) : Host.Outcome State Fault Refusal :=
  answer (arrive m (R.ETH_AT_CMD.addr 0) 0xF (2 ^ 30 + i) (wrAtCmd m (2 ^ 30 + i))) s

/-- AT_COPY_TO_STAGING (R413). -/
def execAtCopyToStaging (m : Master) (i : Fin 256) (s : State) : Host.Outcome State Fault Refusal :=
  answer (arrive m (R.ETH_AT_CMD.addr 0) 0xF (2 ^ 31 + i) (wrAtCmd m (2 ^ 31 + i))) s

/-- P4_TX_ITEM (R393). -/
def execP4TxItem (s : State) : Host.Outcome State Fault Refusal := answer p4TxItem s

/-- ETH_MGMT_WRITE (R394). -/
def execEthMgmtWrite (m : Master) (v : Word) (s : State) : Host.Outcome State Fault Refusal :=
  answer (arrive m (R.ETH_MGMT.addr 0) 0xF v.toNat (wrEthMgmt m v.toNat (fullMask 1))) s

end Sys2Proof.Machine
end

