-- ==== Sys2Proof/Machine/Clt.lean ====
section
/-! DEFINITION. The stream engine: Coleel, AES67 and AAF streams (13_coleel_transport.md). -/

namespace Sys2Proof.Machine

/-! ### Entries -/

/-- Receive entry `e`. -/
def cltRxAt (s : State) (e : Nat) : CltRx := smGet (fun _ => cltRxReset) s.clt.rx e

/-- Change receive entry `e`. -/
def setCltRx (e : Nat) (f : CltRx → CltRx) : Act :=
  setClt fun x => { x with rx := smPut (fun _ => cltRxReset) x.rx e (f (smGet (fun _ => cltRxReset) x.rx e)) }

/-- A transmit entry that has sent and collected nothing. -/
def cltTxNew : CltTx := ⟨[]⟩

/-- Transmit entry `t`. -/
def cltTxAt (s : State) (t : Nat) : CltTx := smGet (fun _ => cltTxNew) s.clt.tx t

/-- Change transmit entry `t`. -/
def setCltTx (t : Nat) (f : CltTx → CltTx) : Act :=
  setClt fun x => { x with tx := smPut (fun _ => cltTxNew) x.tx t (f (smGet (fun _ => cltTxNew) x.tx t)) }

/-- Word size in bits of a WSZ code (R414). -/
def wszBits : Nat → Nat
  | 0 => 16 | 1 => 24 | 2 => 32 | _ => 40

/-- What a configuration word says of a stream, in the fields that receive and transmit entries share. -/
structure StreamCfg where
  en : Bool
  kind : Nat
  flag : Bool
  wsz : Nat
  spp : Nat
  ch : Nat
  base : Nat
  deriving DecidableEq, Repr

/-- The shared fields of a configuration value. -/
def streamCfg (v : Nat) : StreamCfg :=
  { en := F.CLT_RXCFG_EN.of v = 1, kind := F.CLT_RXCFG_KIND.of v, flag := F.CLT_RXCFG_POLICY.of v = 1
    wsz := F.CLT_RXCFG_WSZ.of v, spp := F.CLT_RXCFG_SPP.of v, ch := F.CLT_RXCFG_CHM1.of v + 1
    base := F.CLT_RXCFG_BASE.of v }

/-- The applied configuration of receive entry `e`. -/
def rxCfg (s : State) (e : Nat) : StreamCfg := streamCfg (R.CLT_RXCFG.liveVal e s)

/-- The applied configuration of transmit entry `t`. -/
def txCfg (s : State) (t : Nat) : StreamCfg := streamCfg (R.CLT_TXCFG.liveVal t s)

/-- The configuration fits the table of R414 at the rate and F that `s` has. -/
def kindOk (s : State) (c : StreamCfg) : Bool :=
  match c.kind with
  | 0 | 1 => c.wsz ≠ 0 && [1, 2, 4, 8, 16].contains c.spp && spt s % c.spp == 0
  | 2 => c.wsz ≤ 1 && c.ch ≤ 8 && 1 ≤ c.spp && c.spp ≤ 256 && [44100, 48000, 96000].contains (fsHz s)
  | _ => c.wsz ≤ 2 && c.ch ≤ 8 && 1 ≤ c.spp && c.spp ≤ 256

/-- Frame length of an entry (R415). -/
def streamLen (c : StreamCfg) (tag : Nat) : Nat :=
  let u := if c.kind = 1 || c.kind = 2 then 28 else 0
  let h := if c.kind = 2 then 12 else 24
  max 64 (14 + 4 * tag + u + h + c.ch * c.spp * (wszBits c.wsz / 8) + 4)

/-- The last network channel at the rate in force (R194). -/
def lastNet (s : State) : Nat := if 176400 ≤ fsHz s then 511 else 1023

/-- Entries of one direction whose shadow is not that of reset. -/
def cfgListed (s : State) (r : Reg) : List Nat := listed s.regs (r.addr 0) 16 256

/-- The checks of R416 on the configuration an entry would have, `tag` being 1 for receive entries. -/
def entryOk (s : State) (rx : Bool) (i : Nat) (c : StreamCfg) (tag : Nat) : Bool :=
  let r := if rx then R.CLT_RXCFG else R.CLT_TXCFG
  let rest := ((cfgListed s r).filter (· ≠ i)).map fun j => streamCfg (r.val j s)
  let others := rest.filter (·.en)
  kindOk s c && streamLen c tag ≤ maxLen s && c.base + c.ch ≤ lastNet s + 1 &&
    (!rx || others.all fun o => decide (o.base + o.ch ≤ c.base || c.base + c.ch ≤ o.base)) &&
    (c.kind ≠ 2 || !c.en || (others.filter fun o => o.kind = 2).length < 64)

/-- The register that a stream register code names, and its own address step. -/
def cltReg : CltReg → Reg
  | .rxcfg => R.CLT_RXCFG | .rxkey => R.CLT_RXKEY | .rxaux => R.CLT_RXAUX | .txcfg => R.CLT_TXCFG
  | .txdst => R.CLT_TXDST | .txkey => R.CLT_TXKEY | .txaux => R.CLT_TXAUX

/-- The register belongs to a receive entry. -/
def cltIsRx : CltReg → Bool
  | .rxcfg | .rxkey | .rxaux => true
  | _ => false

/-- The bits that the map of a key register gives an entry of KIND `kind`; the others are reserved (R8). With KIND 0b01 a transmit key
holds the destination address too (R418; log 47). -/
def keyBits (rx : Bool) (kind : Nat) : Nat :=
  match kind with
  | 0 => 0x7FF0FFF
  | 1 => if rx then 0x7FF0FFF else 0xFFFFFFFF07FF0FFF
  | 2 => if rx then 0xFFFFFFFFFFFF807F else 0xFFFFFFFFFFFF007F
  | _ => 0xFFFFFFFFFFFFFFFF

/-- The bits of a value written to a register of an entry that are no reserved bits, for the KIND that its configuration holds. -/
def unreserved (q : CltReg) (i v : Nat) (s : State) : Nat :=
  match q with
  | .rxkey => v &&& keyBits true (F.CLT_RXCFG_KIND.get i s)
  | .txkey => v &&& keyBits false (F.CLT_TXCFG_KIND.get i s)
  | _ => v

/-- A write to a register of a stream entry (R8, R416). A write that enables the entry or changes an enabled one is judged, one that
clears EN too. -/
def wrCltEntry (q : CltReg) (m i v mask : Nat) (tie : Bool := false) : Act := .look fun s =>
  let r := cltReg q
  let e := entryOf r
  let v := unreserved q i v s
  let new := afterWrite e i m v mask s
  let rx := cltIsRx q
  let cfgReg := if rx then R.CLT_RXCFG else R.CLT_TXCFG
  let was := streamCfg (cfgReg.val i s)
  let c := if q = .rxcfg || q = .txcfg then streamCfg new else was
  let tag := if rx then 1 else if q = .txdst then F.CLT_TXDST_TAG.of new else F.CLT_TXDST_TAG.get i s
  let judged := (c.en && !was.en) || (was.en && new ≠ r.val i s)
  if judged && !entryOk (rated s) rx i c tag then dropped m (r.addr i + 4)
  else storeWrite e i m v mask (r.addr i + 4) tie

/-- A write to `CLT_POL`: the bucket is brought up to the present with the rate it had (R434). -/
def wrClPol (m i v mask : Nat) : Act := .look fun s =>
  let l := polLevel s (i / 4) (i % 4)
  .seq (setClt fun x => { x with pol := smInsert x.pol i (l, s.elapsed) })
    (storeWrite (entryOf R.CLT_POL) i m v mask (R.CLT_POL.addr i))

/-! ### Reception -/

/-- Requester ID of the stream engine (R353). -/
def cltId : Nat := 0x3F5

/-- Count in a receive counter: 0 OK, 1 LATE, 2 DUP, 3 MISS, 4 BAD, 5 AHEAD. -/
def rxCnt (e k : Nat) : Act := F.CLT_RXCNT_COUNT.inc (6 * e + k)

/-- `TICK_NETMARGIN.NS` as it acts. -/
def netMargin (s : State) : Nat := min 10000 (max 500 (F.TICK_NETMARGIN_NS.live 0 s))

/-- The instant lies at or before the edge of tick `d` minus `ns` nanoseconds (R428). -/
def beforeEdge (s : State) (d : Int) (ns : Nat) : Bool :=
  0 ≤ d && s.now * 1000 + ns * cclkMHz s ≤ edgePos d.toNat s * 1000

/-- The edge that latches the sample at position `q`, counted in node samples (R429). -/
def latchEdge (s : State) (q : Int) : Int := q / (spt s : Int) + 1

/-- Words of B bytes, most significant first, as samples (R420, R196). -/
def streamWords (w n : Nat) (bs : List Byte) : List W40 :=
  (List.range n).map fun i => fromWord w (fieldBe bs (w / 8 * i) (w / 8))

/-- A discarded frame that is malformed (R426). -/
def cltBad (e : Nat) : Act := .look fun s => acts [
  rxCnt e 4,
  onlyIf (!(cltRxAt s e).badTick) (.seq (setCltRx e fun x => { x with badTick := true }) (raise .CLT_BAD e))]

/-- A late frame: of a port (R428), or a late PATCH (R494). -/
def cltLate (e : Nat) (patch : Bool) : Act := .look fun s =>
  if patch then acts [F.PAIR_HIST_PATCH_LATE.set 0 1, F.PAIR_CNT_COUNT.inc 5,
    onlyIf (!s.clt.patchTick) (.seq (setClt fun x => { x with patchTick := true }) (raise .PAIR_PATCH_LATE))]
  else acts [
    rxCnt e 1,
    onlyIf (!(cltRxAt s e).lateTick) (.seq (setCltRx e fun x => { x with lateTick := true }) (raise .CLT_LATE e))]

/-- Fill sample positions from `q` on. -/
def fillBuf (s : State) (q : Nat) (ch : Nat) (ws : List W40) (b : SMap (SMap W40)) : SMap (SMap W40) :=
  ws.zipIdx.foldl (fun b p =>
    let pos := q + p.2 / ch
    let d := pos / spt s + 1
    smInsert b d (smInsert ((smFind b d).getD []) (pos % spt s * ch + p.2 % ch) p.1)) b

/-- A frame whose checks have passed, whose first sample stands at position `q` (R428–R431, R494). -/
def cltPlace (e : Nat) (c : StreamCfg) (q : Int) (ahead : Bool) (ws : List W40) (f : Frame) (ts : Nat) (patch : Bool) : Act :=
  .look fun s =>
    let d := latchEdge s q
    let margin := if patch then max 100 (F.PAIR_PATCH_NS.get 0 s) else netMargin s
    if q < 0 || !beforeEdge s d margin then cltLate e patch
    else if ahead then rxCnt e 5
    else
      let at_ := q.toNat
      let x := cltRxAt s e
      if (smFind ((smFind x.buf (at_ / spt s + 1)).getD []) (at_ % spt s * c.ch)).isSome then rxCnt e 2
      else
        let n := c.ch * c.spp
        let cells := (n + 50) / 51
        let store (cs : List Nat) : Act := acts [
          forEach cs fun cell => draw fun r => .seq (memSetLe (cellAddr cell) 256 r) (eccFull (cellAddr cell) 256),
          setCltRx e fun x => { x with
            buf := fillBuf s at_ c.ch ws x.buf
            cells := x.cells ++ cs.zipIdx.map fun p => (p.1, (at_ + (min n (51 * p.2 + 51) - 1) / c.ch) / spt s + 1) },
          rxCnt e 0,
          onlyIf (!patch && F.PAIR_CFG_EN.liveOn 0 s && F.PAIR_STAT_LINK.on 0 s)
            (acts [F.PAIR_CNT_COUNT.inc 3,
              setPair fun p => { p with sentPatches := p.sentPatches ++ [(f, BitVec.ofNat 64 ts)] },
              sipQueue (tickHere s) (.patch f (BitVec.ofNat 64 ts))])]
        let q := F.CLT_CFG_BUFQ.get 0 s
        if isItemQ (queueAt s q) then allocCells q cltId cells store (fun cs => freeCells_ cltId cs) else .done

/-- A Coleel frame of entry `e` (R426, R428). -/
def cltColeel (e : Nat) (f : Frame) (ts : Nat) (patch : Bool) : Act := .look fun s =>
  let c := rxCfg s e
  let h := (coleelOf s c.kind f).getD []
  let d := fieldBe h 12 8
  let ofs := fieldBe h 20 1
  let spp := max 1 c.spp
  let n := c.ch * c.spp
  let ok := fieldBe h 0 1 == 1 && fieldBe h 1 1 % 4 == c.wsz && fieldBe h 21 1 == c.spp && fieldBe h 22 2 == c.ch &&
    ofs % spp == 0 && ofs < spt s && fieldBe h 8 4 == (d * spt s / spp + ofs / spp) % 2 ^ 32 &&
    (c.kind ≠ 1 || ipSumOk (frPayload f)) && 24 + n * (wszBits c.wsz / 8) ≤ h.length
  if !ok then cltBad e
  else cltPlace e c (((d : Int) - 1) * spt s + ofs) (decide (s.now < edgePos (d - 16) s))
    (streamWords (wszBits c.wsz) n (h.drop 24)) f ts patch

/-- A count modulo `2^32` resolved to the full count nearest to `cur` (R429). -/
def nearest (cur v : Nat) : Int := (cur : Int) + toInt 32 (ofInt 32 ((v : Int) - cur))

/-- Whole node samples since the epoch. -/
def sampleNow (s : State) : Nat := s.now * fsHz s / (cclkMHz s * 1000000)

/-- Place a packet with media time `m` (R429). -/
def cltPacket (e : Nat) (c : StreamCfg) (m : Int) (ws : List W40) (f : Frame) (ts : Nat) (patch : Bool) : Act := .look fun s =>
  let q := m + F.CLT_RXCFG_LAT.live e s
  let lim : Nat := tickNum s + (4368 + spt s - 1) / spt s
  cltPlace e c q (decide ((lim : Int) < latchEdge s q)) ws f ts patch

/-- An AES67 packet of entry `e` (R426, R429). -/
def cltAes (e : Nat) (f : Frame) (ts : Nat) (patch : Bool) : Act := .look fun s =>
  let c := rxCfg s e
  let p := udpPayload (frPayload f)
  let n := c.ch * c.spp
  let ok := fieldBe p 0 1 / 64 == 2 && p.length == 12 + n * (wszBits c.wsz / 8) && ipSumOk (frPayload f)
  if !ok then cltBad e
  else cltPacket e c (nearest (sampleNow s) (fieldBe p 4 4 + 2 ^ 32 - F.CLT_RXAUX_ROFS.live e s))
    (streamWords (wszBits c.wsz) n (p.drop 12)) f ts patch

/-- nsr of R437 for the rate in force. -/
def aafNsr (s : State) : Nat := 4 + F.TICK_CFG_FS.of s.tick.cfg

/-- format of R437 for a word size. -/
def aafFormat (w : Nat) : Nat := if w = 16 then 4 else if w = 24 then 3 else 2

/-- An AAF packet of entry `e` (R426, R437). The places of its fields are those of IEEE 1722 (PRESUMED, log 25). -/
def cltAaf (e : Nat) (f : Frame) (ts : Nat) (patch : Bool) : Act := .look fun s =>
  let c := rxCfg s e
  let p := frPayload f
  let w := wszBits c.wsz
  let n := c.ch * c.spp
  let ok := fieldBe p 1 1 % 2 == 1 && fieldBe p 22 1 / 16 % 2 == 0 && fieldBe p 16 1 == aafFormat w &&
    fieldBe p 17 2 / 4096 == aafNsr s && fieldBe p 17 2 % 1024 == c.ch && fieldBe p 19 1 == w &&
    fieldBe p 20 2 == n * (w / 8) && 24 + n * (w / 8) ≤ p.length
  let t := nearest (nowNs s) (fieldBe p 12 4)
  if !ok then cltBad e
  else cltPacket e c ((2 * t * fsHz s + 1000000000) / 2000000000) (streamWords w n (p.drop 24)) f ts patch

/-- A stream frame that the switch delivers, or a copy of one from the partner, whose entry is of a kind in `kinds`
(R425, R427). -/
def cltTake (kinds : List Nat) (f : Frame) (ts : Nat) (patch : Bool) : Act := .look fun s =>
  match cltMatch s f with
  | none => .done
  | some e =>
    let k := F.CLT_RXCFG_KIND.live e s
    if !kinds.contains k then .done
    else if !F.CLT_STAT_ACCEPT.on 0 s then F.CLT_EARLY_COUNT.inc 0
    else if k < 2 then cltColeel e f ts patch
    else if k = 2 then cltAes e f ts patch
    else cltAaf e f ts patch

/-! ### The edge -/

/-- The frames of a complete block, by channel. -/
def blockFrames (s : State) (c : StreamCfg) (b : SMap W40) : List (List W40) :=
  (List.range c.ch).map fun k => (List.range (spt s)).map fun i => smGet (fun _ => (0 : W40)) b (i * c.ch + k)

/-- Emit on the channels of an entry: a block, or the substitution of a missing one (R37, R432). -/
def cltEmit (e : Nat) (hold : Bool) (chs : List (Nat × Option (List W40))) : Act := .look fun s =>
  let outs := chs.map fun p => (p.1, subst hold (spt s) (smGet (fun _ => chanNew) (cltRxAt s e).hist p.1) p.2)
  .seq (forEach outs fun o => setSource o.1 o.2.1)
    (setCltRx e fun x => { x with hist := outs.foldl (fun h o => smPut (fun _ => chanNew) h o.1 o.2.2) x.hist })

/-- A change of entry `e` is applied in the E2 of the edge in progress and leaves it enabled (R417). -/
def cltChanging (s : State) (e : Nat) : Bool :=
  bitOf (comingVal R.CLT_RXCFG e s) 63 &&
    (comingVal R.CLT_RXCFG e s ≠ R.CLT_RXCFG.liveVal e s || comingVal R.CLT_RXKEY e s ≠ R.CLT_RXKEY.liveVal e s ||
      comingVal R.CLT_RXAUX e s ≠ R.CLT_RXAUX.liveVal e s)

/-- E1 of the edge of tick `n` for receive entry `e` (R417, R432, R641). -/
def cltLatchEntry (n : Nat) (first : Bool) (e : Nat) : Act := .look fun s =>
  let c := rxCfg s e
  let x := cltRxAt s e
  let chs := (List.range c.ch).map (c.base + ·)
  let b := (smFind x.buf n).getD []
  let zero : Act := forEach chs fun k => setSource k (zeros (spt s))
  acts [
    if first then forEach (if c.en then chs else x.hist.map (·.1)) fun k => setSource k (zeros (spt s))
    else if !c.en then cltEmit e c.flag (x.hist.map fun p => (p.1, none))
    else if cltChanging s e then zero
    else if b.length = c.ch * spt s then acts [
      cltEmit e c.flag (chs.zip ((blockFrames s c b).map some)),
      setCltRx e fun x => { x with fresh := false, miss := 0 },
      F.CLT_RXSTAT_STATE.set e 2]
    else if x.fresh then .seq zero (F.CLT_RXSTAT_STATE.set e 1)
    else acts [
      cltEmit e c.flag (chs.map fun k => (k, none)),
      setCltRx e fun x => { x with miss := x.miss + 1 },
      F.CLT_RXSTAT_STATE.set e 3, rxCnt e 3, raise .CLT_MISS e],
    .look fun s => freeCells_ cltId (((cltRxAt s e).cells.filter fun p => p.2 ≤ n).map (·.1)),
    setCltRx e fun x => { x with
      buf := x.buf.filter fun p => n < p.1
      cells := x.cells.filter fun p => n < p.2
      hist := if !c.en && x.hist.all fun p => decide (3 ≤ p.2.miss) then [] else x.hist
      badTick := false, lateTick := false }]

/-- E1 of the edge of tick `n`: the entries that are off first, so that an enabled entry has the last word on a channel. -/
def cltLatch (n : Nat) (first : Bool) : Act := .look fun s =>
  let es := ((cltEntries s) ++ s.clt.rx.map (·.1)).eraseDups
  let on := es.filter fun e => (rxCfg s e).en
  let off := es.filter fun e => !(rxCfg s e).en
  .seq (forEach (off ++ on) (cltLatchEntry n first)) (setClt fun x => { x with polTick := [], patchTick := false })

/-- A register of receive entry `e` has been applied; its value was `old` and is `new` (R417). -/
def cltRxApplied (e old new : Nat) : Act := .look fun s =>
  if old = new then .done
  else
    let on := F.CLT_RXCFG_EN.liveOn e s
    acts [
      freeCells_ cltId ((cltRxAt s e).cells.map (·.1)),
      setCltRx e fun x => { x with
        buf := [], cells := [], fresh := true, miss := 0, hist := if on then [] else x.hist },
      F.CLT_RXSTAT_STATE.set e (b2n on)]

/-- The frames collected for network output channels at the edge of tick `n` are kept for the packets that span ticks (R436). -/
def cltCollect (n : Nat) : Act := .look fun s =>
  setClt fun x => { x with
    outs := ((n, s.tick.dests.filter fun d => d.1 < 1024) :: x.outs).take (256 / spt s + 2), sent := (n, 0, 0) }

/-! ### Transmission -/

/-- The node sends the stream frames of an entry (R406, R423, R424, R509, R531). -/
def cltSends (s : State) (c : StreamCfg) : Bool :=
  running s && c.en && F.CLT_STAT_ACCEPT.on 0 s && !inSafe s && !s.clt.suppress &&
    (pairIs 0 s || s.pair.own || (pairIs 6 s && c.flag))

/-- The samples sent on channel `d` of a `w`-bit stream clip (R203). -/
def cltClip (w d : Nat) (xs : List W40) : Act := onlyIf (xs.any fun x => (toWord w x).2) (oclip d)

/-- Words of samples, B bytes each, most significant first (R420, R203). -/
def wordsOut (w : Nat) (xs : List W40) : List Byte := xs.flatMap fun x => bytesBe (w / 8) (ofInt w (toWord w x).1)

/-- Hand a stream frame to the switch with class 3 (R422). -/
def cltSend (t : Nat) (etype : Nat) (payload : List Byte) : Act := .look fun s =>
  let v := R.CLT_TXDST.liveVal t s
  let tag := if F.CLT_TXDST_TAG.of v = 1 then some (F.CLT_TXDST_PCP.of v * 8192 + F.CLT_TXDST_VID.of v) else none
  let f := mkFrame (F.CLT_TXDST_MAC.of v) (F.ETH_MAC_ADDR.get 0 s) tag etype payload
  acts [
    F.CLT_TXCNT_COUNT.inc t,
    setCltTx t fun x => { x with lastTx := f },
    p4Send f 3 (F.CLT_TXDST_VID.of v) (F.CLT_TXDST_PCP.of v) true]

/-- The IPv4 packet of a stream (R418). -/
def cltIp (s : State) (dst port : Nat) (payload : List Byte) : List Byte :=
  mkUdp (F.CLT_IPCFG_DSCP.get 0 s) (max 1 (F.CLT_IPCFG_TTL.get 0 s)) (F.CLT_IP_ADDR.get 0 s) dst port port payload

/-- What transmit entry `t` may send next in this tick begins at place `ofs` or later: entries go in ascending number, and within an entry
samples in ascending order (R422). A frame that is passed over is not sent later in the tick. -/
def sentTo (s : State) (t : Nat) : Option Nat :=
  let (n, e, o) := s.clt.sent
  if n ≠ tickNum s || e < t then some 0 else if e = t then some o else none

/-- Note that entry `t` has sent up to place `o` of this tick. -/
def noteSent (t o : Nat) : Act := .look fun s => setClt fun x => { x with sent := (tickNum s, t, o) }

/-- The Coleel frame of entry `t` at offset `ofs` (R419–R422). -/
def cltTxFrame (t ofs : Nat) : Act := .look fun s =>
  let c := txCfg s t
  let key := R.CLT_TXKEY.liveVal t s
  let spp := max 1 c.spp
  let n := tickNum s
  let d := n + 1 + F.CLT_TXCFG_T.live t s
  let free := match sentTo s t with | some o => decide (o ≤ ofs) | none => false
  if !cltSends s c || 2 ≤ c.kind || ofs % spp ≠ 0 || spt s < ofs + c.spp || !free then .done
  else .seq (noteSent t (ofs + 1)) <|
    let solo := pairIs 0 s
    let node := F.CLT_ID_NODE.get 0 s
    let head := bytesBe 1 1 ++ bytesBe 1 (b2n (s.pins.sideB && !solo) * 128 + c.wsz) ++ bytesBe 2 node ++
      bytesBe 2 (if solo then node else F.CLT_ID_PAIR.get 0 s) ++ bytesBe 2 (bitsOf key 11 0) ++
      bytesBe 4 (d * spt s / spp + ofs / spp) ++ bytesBe 8 d ++ bytesBe 1 ofs ++ bytesBe 1 c.spp ++ bytesBe 2 c.ch
    let frames := (List.range c.ch).map fun k => destFrame s (c.base + k)
    let body := (List.range c.spp).flatMap fun j => wordsOut (wszBits c.wsz) (frames.map fun f => f.getD (ofs + j) 0)
    .seq (forEach frames.zipIdx fun f => cltClip (wszBits c.wsz) (c.base + f.2) ((f.1.drop ofs).take c.spp))
    (if c.kind = 0 then cltSend t (F.CLT_CFG_ETYPE.get 0 s) (head ++ body)
    else cltSend t 0x0800 (cltIp s (bitsOf key 63 32) (F.CLT_UDP_PORT.get 0 s) (head ++ body)))

/-- The sample of network output channel `d` with media time `m` (R436), where its frame has been collected. -/
def mediaSample (s : State) (d m : Nat) : Option W40 :=
  (s.clt.outs.find? fun p => p.1 + 1 = m / spt s).map fun p =>
    (fitFrame (spt s) ((smFind p.2 d).getD [])).getD (m % spt s) 0

/-- Samples of which some belong to ticks that no edge has begun: what a packet carries for those the spec leaves open. -/
def mediaWords : List (Option W40) → (List W40 → Act) → Act
  | [], k => k []
  | some x :: xs, k => mediaWords xs fun ys => k (x :: ys)
  | none :: xs, k => draw fun r => mediaWords xs fun ys => k (BitVec.ofNat 40 r :: ys)

/-- The packet that entry `t` sends next in this tick, if there is one: its first media time, a multiple of SPP whose last sample is of
the frame that the tick transmits (R436). -/
def packetDue (s : State) (t : Nat) : Option Nat :=
  let c := txCfg s t
  let spp := max 1 c.spp
  let lo := (tickNum s + 1) * spt s
  match sentTo s t with
  | none => none
  | some o =>
    let m := (lo + o + 1 - min (lo + o + 1) c.spp + spp - 1) / spp * spp
    if m + c.spp ≤ lo + spt s then some m else none

/-- An AES67 or AAF packet of entry `t`; `head` forms what stands before the words. -/
def cltTxPacket (t kind : Nat) (send : State → StreamCfg → Nat → List Byte → Act) : Act := .look fun s =>
  let c := txCfg s t
  if !cltSends s c || c.kind ≠ kind then .done
  else match packetDue s t with
    | none => .done
    | some m =>
      mediaWords ((List.range c.spp).flatMap fun j => (List.range c.ch).map fun k => mediaSample s (c.base + k) (m + j)) fun xs =>
        acts [
          noteSent t (m + c.spp - (tickNum s + 1) * spt s),
          forEach (List.range c.ch) fun k =>
            cltClip (wszBits c.wsz) (c.base + k) ((List.range c.spp).map fun j => xs.getD (j * c.ch + k) 0),
          send s c m (wordsOut (wszBits c.wsz) xs)]

/-! ### Commands -/

/-- CLT_RX_FRAME (R425): the stream engine takes a Coleel frame that the switch delivers to it. -/
def execCltRxFrame (p : Port) (f : Frame) (ts : W64) (s : State) : Host.Outcome State Fault Refusal :=
  answer (.look fun s => onlyIf (F.ETH_PCFG_EN.on p s && !asleep s) (cltTake [0, 1] f ts.toNat false)) s

/-- AES67_RX_PACKET (R429). -/
def execAes67RxPacket (p : Port) (f : Frame) (ts : W64) (s : State) : Host.Outcome State Fault Refusal :=
  answer (.look fun s => onlyIf (F.ETH_PCFG_EN.on p s && !asleep s) (cltTake [2] f ts.toNat false)) s

/-- AAF_RX_PACKET (R437). -/
def execAafRxPacket (p : Port) (f : Frame) (ts : W64) (s : State) : Host.Outcome State Fault Refusal :=
  answer (.look fun s => onlyIf (F.ETH_PCFG_EN.on p s && !asleep s) (cltTake [3] f ts.toNat false)) s

/-- CLT_ENTRY_WRITE (R416). -/
def execCltEntryWrite (m : Master) (r : CltReg) (i : Fin 256) (v : W64) (s : State) : Host.Outcome State Fault Refusal :=
  answer (arrivePair m ((cltReg r).addr i) v.toNat (wrCltEntry r m i v.toNat (fullMask 2))) s

/-- CLT_TX_FRAME (R422). -/
def execCltTxFrame (i : Fin 256) (ofs : Fin 16) (s : State) : Host.Outcome State Fault Refusal := answer (cltTxFrame i ofs) s

/-- AES67_TX_PACKET (R436). -/
def execAes67TxPacket (i : Fin 256) (s : State) : Host.Outcome State Fault Refusal :=
  answer (cltTxPacket i 2 fun s c m body =>
    let key := R.CLT_TXKEY.liveVal i s
    let rtp := bytesBe 1 0x80 ++ bytesBe 1 (bitsOf key 6 0) ++ bytesBe 2 (m / max 1 c.spp) ++
      bytesBe 4 (m + F.CLT_TXAUX_ROFS.live i s) ++ bytesBe 4 (F.CLT_TXAUX_SSRC.live i s)
    cltSend i 0x0800 (cltIp s (bitsOf key 63 32) (bitsOf key 31 16) (rtp ++ body))) s

/-- AAF_TX_PACKET (R437). -/
def execAafTxPacket (i : Fin 256) (s : State) : Host.Outcome State Fault Refusal :=
  answer (cltTxPacket i 3 fun s c m body =>
    let w := wszBits c.wsz
    let t := (2 * (m + F.CLT_TXCFG_PRES.live i s) * 1000000000 + fsHz s) / (2 * fsHz s)
    let head := bytesBe 1 2 ++ bytesBe 1 0x81 ++ bytesBe 1 (m / max 1 c.spp) ++ bytesBe 1 0 ++
      bytesBe 8 (R.CLT_TXKEY.liveVal i s) ++ bytesBe 4 t ++ bytesBe 1 (aafFormat w) ++
      bytesBe 2 (aafNsr s * 4096 + c.ch) ++ bytesBe 1 w ++ bytesBe 2 body.length ++ bytesBe 2 0
    cltSend i 0x22F0 (head ++ body)) s

end Sys2Proof.Machine
end

