-- ==== Sys2Proof/Machine/Dram.lean ====
section
/-! DEFINITION. The LPDDR5X controller: configuration, initialization, self-refresh (21_electrical_and_package.md,
R635–R637). -/

namespace Sys2Proof.Machine

/-- READY or BUSY. -/
def dramTaken (s : State) : Bool := F.DRAM_STAT_READY.on 0 s || F.DRAM_STAT_BUSY.on 0 s

/-- A write to `DRAM_CFG` (R637). -/
def wrDramCfg (m v mask : Nat) : Act := .look fun s =>
  if dramTaken s then dropped m (R.DRAM_CFG.addr 0)
  else storeWrite (entryOf R.DRAM_CFG) 0 m v mask (R.DRAM_CFG.addr 0)

/-- A write to `DRAM_CTRL` (R636): INIT starts initialization and training, which ends self-refresh. -/
def wrDramCtrl (m v mask : Nat) : Act := .look fun s =>
  if F.DRAM_CTRL_INIT.of (v &&& mask) = 0 then .done
  else if dramTaken s then dropped m (R.DRAM_CTRL.addr 0)
  else R.DRAM_STAT.set 0 2

/-- The devices are in self-refresh, and the window is not usable (R568, R586, R589). -/
def dramRefresh : Act := R.DRAM_STAT.set 0 8

/-! ### Commands -/

/-- DRAM_INIT (R636). -/
def execDramInit (m : Master) (s : State) : Host.Outcome State Fault Refusal :=
  answer (arrive m (R.DRAM_CTRL.addr 0) 0xF 1 (wrDramCtrl m 1 (fullMask 1))) s

/-- DRAM_CFG_WRITE (R637). -/
def execDramCfgWrite (m : Master) (v : Word) (s : State) : Host.Outcome State Fault Refusal :=
  answer (arrive m (R.DRAM_CFG.addr 0) 0xF v.toNat (wrDramCfg m v.toNat (fullMask 1))) s

end Sys2Proof.Machine
end

