-- ==== Sys2Proof/Machine/LaneCode.lean ====
section
/-! DEFINITION. The encoding of lane instruction words (R139–R155) and the conditions of R162 that the encoding alone shows. -/

namespace Sys2Proof.Machine

/-- A field as a number below 16. -/
def f16 (v : Nat) : Fin 16 := ⟨v % 16, Nat.mod_lt _ (by decide)⟩

/-- A field as a number below 4. -/
def f4 (v : Nat) : Fin 4 := ⟨v % 4, Nat.mod_lt _ (by decide)⟩

/-- A field as a number below 32. -/
def f32 (v : Nat) : Fin 32 := ⟨v % 32, Nat.mod_lt _ (by decide)⟩

/-- A field as a number below 256. -/
def f256 (v : Nat) : Fin 256 := ⟨v % 256, Nat.mod_lt _ (by decide)⟩

/-- A field as a number below 4,096. -/
def f4096 (v : Nat) : Fin 4096 := ⟨v % 4096, Nat.mod_lt _ (by decide)⟩

/-- A field as a number below 65,536. -/
def f65536 (v : Nat) : Fin 65536 := ⟨v % 65536, Nat.mod_lt _ (by decide)⟩

/-! ### Arithmetic slots (R145, R147) -/

/-- Code of a conversion. -/
def convCode : Conv → Nat
  | .cvS => 0 | .cvQ => 1 | .cvC => 2 | .cvI => 3

/-- The conversion of a code. -/
def convOf (c : Nat) : Conv := match c with
  | 0 => .cvS | 1 => .cvQ | 2 => .cvC | _ => .cvI

/-- Code of a rounding mode. -/
def rmCode : Rounding → Nat
  | .rnd => 0 | .trn => 1

/-- The rounding mode of a code. -/
def rmOf (c : Nat) : Rounding := if c = 0 then .rnd else .trn

/-- A multiply slot. -/
def encMul (op acc da db : Nat) : Nat := op * 2048 + acc * 512 + da * 32 + db * 2

/-- An ALU slot. -/
def encAlu (op dst src rm : Nat) : Nat := 16384 + op * 512 + dst * 32 + src * 2 + rm

/-- The 15 bits of a slot. -/
def encodeSlot : SlotOp → Nat
  | .nop => 0
  | .mac a x y => encMul 1 a x y
  | .msu a x y => encMul 2 a x y
  | .mpy a x y => encMul 3 a x y
  | .mpyn a x y => encMul 4 a x y
  | .mov d s => encAlu 0x00 d s 0
  | .add d s => encAlu 0x01 d s 0
  | .sub d s => encAlu 0x02 d s 0
  | .neg d s => encAlu 0x03 d s 0
  | .abs d s => encAlu 0x04 d s 0
  | .max d s => encAlu 0x05 d s 0
  | .min d s => encAlu 0x06 d s 0
  | .cmp d s => encAlu 0x07 d s 0
  | .and d s => encAlu 0x08 d s 0
  | .or d s => encAlu 0x09 d s 0
  | .xor d s => encAlu 0x0A d s 0
  | .asr d n => encAlu 0x0B d (n / 2) (n % 2)
  | .lsl d n => encAlu 0x0C d (n / 2) (n % 2)
  | .lsr d n => encAlu 0x0D d (n / 2) (n % 2)
  | .cv c d a rm => encAlu (0x10 + convCode c) d a (rmCode rm)
  | .lda a s => encAlu 0x14 a s 0
  | .clra a => encAlu 0x15 a 0 0
  | .adda a s => encAlu 0x16 a s 0
  | .suba a s => encAlu 0x17 a s 0
  | .tsta a => encAlu 0x18 0 a 0

/-- A multiply slot from its bits [13:0] (R145). -/
def decodeMul (v : Nat) : Option SlotOp :=
  let acc := f4 (bitsOf v 10 9)
  let da := f16 (bitsOf v 8 5)
  let db := f16 (bitsOf v 4 1)
  if v % 2 ≠ 0 then none
  else match bitsOf v 13 11 with
    | 0 => if v % 2048 = 0 then some .nop else none
    | 1 => some (.mac acc da db)
    | 2 => some (.msu acc da db)
    | 3 => some (.mpy acc da db)
    | 4 => some (.mpyn acc da db)
    | _ => none

/-- An ALU slot from its bits [13:0] (R147). -/
def decodeAlu (v : Nat) : Option SlotOp :=
  let d := bitsOf v 8 5
  let s := bitsOf v 4 1
  let rm := v % 2
  let dd (f : Fin 16 → Fin 16 → SlotOp) : Option SlotOp := if rm = 0 then some (f (f16 d) (f16 s)) else none
  let sh (f : Fin 16 → Fin 32 → SlotOp) : Option SlotOp := some (f (f16 d) (f32 (v % 32)))
  let cv (c : Conv) : Option SlotOp := if s < 4 then some (.cv c (f16 d) (f4 s) (rmOf rm)) else none
  match bitsOf v 13 9 with
  | 0x00 => dd .mov
  | 0x01 => dd .add
  | 0x02 => dd .sub
  | 0x03 => dd .neg
  | 0x04 => dd .abs
  | 0x05 => dd .max
  | 0x06 => dd .min
  | 0x07 => dd .cmp
  | 0x08 => dd .and
  | 0x09 => dd .or
  | 0x0A => dd .xor
  | 0x0B => sh .asr
  | 0x0C => sh .lsl
  | 0x0D => sh .lsr
  | 0x10 => cv .cvS
  | 0x11 => cv .cvQ
  | 0x12 => cv .cvC
  | 0x13 => cv .cvI
  | 0x14 => if d < 4 ∧ rm = 0 then some (.lda (f4 d) (f16 s)) else none
  | 0x15 => if d < 4 ∧ s = 0 ∧ rm = 0 then some (.clra (f4 d)) else none
  | 0x16 => if d < 4 ∧ s < 4 ∧ rm = 0 then some (.adda (f4 d) (f4 s)) else none
  | 0x17 => if d < 4 ∧ s < 4 ∧ rm = 0 then some (.suba (f4 d) (f4 s)) else none
  | 0x18 => if d = 0 ∧ s < 4 ∧ rm = 0 then some (.tsta (f4 s)) else none
  | _ => none

/-- A slot from its 15 bits; nothing where it is illegal. -/
def decodeSlot (v : Nat) : Option SlotOp := if bitOf v 14 then decodeAlu (v % 16384) else decodeMul (v % 16384)

/-! ### Memory operations (R150, R152) -/

/-- The bits of MOP, XP, YP, XD and YD together: bits [31:19] of the word. -/
def encMem (mop xp yp xd yd : Nat) : Nat := mop * 1024 + xp * 512 + yp * 256 + xd * 16 + yd

/-- XP and SRC of a store. -/
def encodeSrc : StoreSrc → Nat × Nat
  | .reg s => (0, s)
  | .pair s => (1, s)
  | .conv a c rm => (0, 128 + convCode c * 32 + rmCode rm * 16 + a)

/-- Bits [31:19] of a compute word. -/
def encodeMop : MemOp → Nat
  | .none => 0
  | .lx p d => encMem 1 (b2n p) 0 d 0
  | .ly p d => encMem 2 0 (b2n p) 0 d
  | .lxy px dx py dy => encMem 3 (b2n px) (b2n py) dx dy
  | .sx src => encMem 4 (encodeSrc src).1 0 ((encodeSrc src).2 / 16) ((encodeSrc src).2 % 16)
  | .sy src => encMem 5 (encodeSrc src).1 0 ((encodeSrc src).2 / 16) ((encodeSrc src).2 % 16)

/-- The source of a store from XP and the eight bits of SRC; nothing where a reserved bit is set, or a pair names an odd register
or a conversion (R152, R162). -/
def decodeSrc (xp src : Nat) : Option StoreSrc :=
  if src < 128 then
    if 16 ≤ src then none
    else if xp = 0 then some (.reg (f16 src))
    else if src % 2 = 0 then some (.pair (f16 src)) else none
  else if xp ≠ 0 ∨ bitsOf src 3 2 ≠ 0 then none
  else some (.conv (f4 src) (convOf (bitsOf src 6 5)) (rmOf (bitsOf src 4 4)))

/-- A first destination of a load: even for a pair (R162). -/
def pairEven (p : Bool) (d : Fin 16) : Bool := !p || d.val % 2 == 0

/-- The D registers a load writes. -/
def loadDests (p : Bool) (d : Fin 16) : List Nat := if p then [d.val, d.val + 1] else [d.val]

/-- A memory operation from bits [31:19]. -/
def decodeMop (v : Nat) : Option MemOp :=
  let xp := bitsOf v 9 9
  let yp := bitsOf v 8 8
  let xd := bitsOf v 7 4
  let yd := bitsOf v 3 0
  let px := decide (xp = 1)
  let py := decide (yp = 1)
  match bitsOf v 12 10 with
  | 0 => if v % 1024 = 0 then some .none else none
  | 1 => if yp = 0 ∧ yd = 0 ∧ pairEven px (f16 xd) then some (.lx px (f16 xd)) else none
  | 2 => if xp = 0 ∧ xd = 0 ∧ pairEven py (f16 yd) then some (.ly py (f16 yd)) else none
  | 3 => if pairEven px (f16 xd) ∧ pairEven py (f16 yd) ∧
        !((loadDests px (f16 xd)).any fun d => (loadDests py (f16 yd)).contains d)
      then some (.lxy px (f16 xd) py (f16 yd)) else none
  | 4 => if yp = 0 then (decodeSrc xp (xd * 16 + yd)).map .sx else none
  | 5 => if yp = 0 then (decodeSrc xp (xd * 16 + yd)).map .sy else none
  | _ => none

/-! ### What a word writes (R162) -/

/-- The D register an arithmetic slot writes. -/
def slotD : SlotOp → Option (Fin 16)
  | .mov d _ | .add d _ | .sub d _ | .neg d _ | .abs d _ | .max d _ | .min d _ | .and d _ | .or d _ | .xor d _ => some d
  | .asr d _ | .lsl d _ | .lsr d _ => some d
  | .cv _ d _ _ => some d
  | _ => none

/-- The accumulator an ALU slot writes. -/
def slotAluAcc : SlotOp → Option (Fin 4)
  | .lda a _ | .clra a | .adda a _ | .suba a _ => some a
  | _ => none

/-- The accumulator a slot writes. -/
def slotAcc : SlotOp → Option (Fin 4)
  | .mac a _ _ | .msu a _ _ | .mpy a _ _ | .mpyn a _ _ => some a
  | op => slotAluAcc op

/-- The D registers a memory operation loads. -/
def mopDests : MemOp → List Nat
  | .lx p d | .ly p d => loadDests p d
  | .lxy px dx py dy => loadDests px dx ++ loadDests py dy
  | _ => []

/-- Two slots of one word that R162 allows together, and beside its memory operation. -/
def slotsAgree (a b : SlotOp) (m : MemOp) : Bool :=
  !((slotD a).isSome && slotD a == slotD b) &&
  !((slotAluAcc a).isSome && slotAluAcc a == slotAcc b) &&
  !((slotAluAcc b).isSome && slotAluAcc b == slotAcc a) &&
  (match slotD a with | some d => !(mopDests m).contains d.val | none => true) &&
  (match slotD b with | some d => !(mopDests m).contains d.val | none => true)

/-- A store source that R162 allows. -/
def srcLegal : StoreSrc → Bool
  | .pair s => s.val % 2 == 0
  | _ => true

/-- A memory operation that R162 allows. -/
def mopLegal : MemOp → Bool
  | .none => true
  | .lx p d | .ly p d => pairEven p d
  | .lxy px dx py dy => pairEven px dx && pairEven py dy &&
      !((loadDests px dx).any fun d => (loadDests py dy).contains d)
  | .sx src | .sy src => srcLegal src

/-- A word that meets no condition of R162 that its encoding shows. -/
def laneLegal : LaneWord → Bool
  | .compute w => mopLegal w.mop && slotsAgree w.slot0 w.slot1 w.mop
  | .control _ => true

/-! ### Whole words -/

/-- Bits [18:10] or [9:1] of an address update: EN, AN, MM. -/
def encodeUpd (u : AddrUpd) : Nat := b2n u.en * 256 + u.an * 16 + u.mm

/-- An address update. -/
def decodeUpd (v : Nat) : AddrUpd := ⟨decide (bitsOf v 8 8 = 1), f16 (bitsOf v 7 4), f16 (bitsOf v 3 0)⟩

/-- A compute word (R143). -/
def encodeCompute (w : ComputeWord) : Nat :=
  encodeSlot w.slot0 * 2 ^ 47 + encodeSlot w.slot1 * 2 ^ 32 + encodeMop w.mop * 2 ^ 19 + encodeUpd w.u0 * 2 ^ 10 +
    encodeUpd w.u1 * 2

/-- Code of a condition (R155). -/
def condCode : Cond → Nat
  | .al => 0 | .eq => 1 | .ne => 2 | .lt => 3 | .ge => 4 | .gt => 5 | .le => 6

/-- The condition of a code. -/
def condOf : Nat → Option Cond
  | 0 => some .al | 1 => some .eq | 2 => some .ne | 3 => some .lt | 4 => some .ge | 5 => some .gt | 6 => some .le
  | _ => none

/-- Format and COP of a control word (R154). -/
def encCop (c : Nat) : Nat := 2 ^ 63 + c * 2 ^ 56

/-- A control word (R154). -/
def encodeControl : ControlWord → Nat
  | .jmp cc t => encCop 0x01 + condCode cc * 2 ^ 53 + t
  | .call cc t => encCop 0x02 + condCode cc * 2 ^ 53 + t
  | .ret cc => encCop 0x03 + condCode cc * 2 ^ 53
  | .repImm n k => encCop 0x04 + n * 2 ^ 32 + k
  | .repD s k => encCop 0x05 + s * 2 ^ 48 + k
  | .waitTick => encCop 0x06
  | .ldi d v => encCop 0x08 + d * 2 ^ 48 + v.toNat
  | .movaImm n v => encCop 0x09 + n * 2 ^ 48 + v.toNat
  | .movmImm n v => encCop 0x0A + n * 2 ^ 48 + v.toNat
  | .movlImm n v => encCop 0x0B + n * 2 ^ 48 + v.toNat
  | .movaD n s => encCop 0x0C + n * 2 ^ 48 + s * 2 ^ 44
  | .movmD n s => encCop 0x0D + n * 2 ^ 48 + s * 2 ^ 44
  | .movlD n s => encCop 0x0E + n * 2 ^ 48 + s * 2 ^ 44
  | .movd d n => encCop 0x0F + d * 2 ^ 48 + n * 2 ^ 44
  | .gld d n m en => encCop 0x10 + d * 2 ^ 48 + n * 2 ^ 44 + m * 2 ^ 40 + b2n en * 2 ^ 39
  | .gst s n m en => encCop 0x11 + s * 2 ^ 48 + n * 2 ^ 44 + m * 2 ^ 40 + b2n en * 2 ^ 39
  | .qrd d p => encCop 0x12 + d * 2 ^ 48 + p
  | .qwr p s => encCop 0x13 + s * 2 ^ 48 + p

/-- The 64-bit word of a lane instruction. -/
def encodeLane : LaneWord → Nat
  | .compute w => encodeCompute w
  | .control w => encodeControl w

/-- A compute word from its bits [61:0]. -/
def decodeCompute (v : Nat) : Option LaneWord :=
  match decodeSlot (bitsOf v 61 47), decodeSlot (bitsOf v 46 32), decodeMop (bitsOf v 31 19) with
  | some a, some b, some m =>
    if v % 2 = 0 ∧ slotsAgree a b m then
      some (.compute ⟨a, b, m, decodeUpd (bitsOf v 18 10), decodeUpd (bitsOf v 9 1)⟩) else none
  | _, _, _ => none

/-- A control word from its bits [61:0]: every bit that the operation does not name is 0 (R154). -/
def decodeControl (v : Nat) : Option LaneWord :=
  let r1 := f16 (bitsOf v 51 48)
  let r2 := f16 (bitsOf v 47 44)
  let r3 := f16 (bitsOf v 43 40)
  let im40 : W40 := BitVec.ofNat 40 (bitsOf v 39 0)
  let im18 : W18 := BitVec.ofNat 18 (bitsOf v 17 0)
  let tgt := f4096 (bitsOf v 11 0)
  let k := f256 (bitsOf v 7 0)
  let port := f16 (bitsOf v 3 0)
  let en := decide (bitsOf v 39 39 = 1)
  let cond (f : Cond → ControlWord) : Option LaneWord := (condOf (bitsOf v 55 53)).map fun c => .control (f c)
  let one (w : ControlWord) (z : Prop) [Decidable z] : Option LaneWord := if z then some (.control w) else none
  match bitsOf v 61 56 with
  | 0x01 => if bitsOf v 52 12 = 0 then cond fun c => .jmp c tgt else none
  | 0x02 => if bitsOf v 52 12 = 0 then cond fun c => .call c tgt else none
  | 0x03 => if bitsOf v 52 0 = 0 then cond fun c => .ret c else none
  | 0x04 => one (.repImm (f65536 (bitsOf v 47 32)) k) (bitsOf v 55 48 = 0 ∧ bitsOf v 31 8 = 0)
  | 0x05 => one (.repD r1 k) (bitsOf v 55 52 = 0 ∧ bitsOf v 47 8 = 0)
  | 0x06 => one .waitTick (bitsOf v 55 0 = 0)
  | 0x08 => one (.ldi r1 im40) (bitsOf v 55 52 = 0 ∧ bitsOf v 47 40 = 0)
  | 0x09 => one (.movaImm r1 im18) (bitsOf v 55 52 = 0 ∧ bitsOf v 47 18 = 0)
  | 0x0A => one (.movmImm r1 im18) (bitsOf v 55 52 = 0 ∧ bitsOf v 47 18 = 0)
  | 0x0B => one (.movlImm r1 im18) (bitsOf v 55 52 = 0 ∧ bitsOf v 47 18 = 0)
  | 0x0C => one (.movaD r1 r2) (bitsOf v 55 52 = 0 ∧ bitsOf v 43 0 = 0)
  | 0x0D => one (.movmD r1 r2) (bitsOf v 55 52 = 0 ∧ bitsOf v 43 0 = 0)
  | 0x0E => one (.movlD r1 r2) (bitsOf v 55 52 = 0 ∧ bitsOf v 43 0 = 0)
  | 0x0F => one (.movd r1 r2) (bitsOf v 55 52 = 0 ∧ bitsOf v 43 0 = 0)
  | 0x10 => one (.gld r1 r2 r3 en) (bitsOf v 55 52 = 0 ∧ bitsOf v 38 0 = 0)
  | 0x11 => one (.gst r1 r2 r3 en) (bitsOf v 55 52 = 0 ∧ bitsOf v 38 0 = 0)
  | 0x12 => one (.qrd r1 port) (bitsOf v 55 52 = 0 ∧ bitsOf v 47 4 = 0)
  | 0x13 => one (.qwr port r1) (bitsOf v 55 52 = 0 ∧ bitsOf v 47 4 = 0)
  | _ => none

/-- The instruction a program word holds; nothing where the word is illegal by its encoding (R139, R140). -/
def decodeLane (v : Nat) : Option LaneWord :=
  match bitsOf v 63 62 with
  | 0 => decodeCompute v
  | 2 => decodeControl v
  | _ => none

end Sys2Proof.Machine
end

