-- ==== Sys2Proof/Machine/Flags.lean ====
section
/-! DEFINITION. The arithmetic of the lane datapath: exact integers, narrowed once at the end, and the flags (R92–R101, R147,
R148). -/

namespace Sys2Proof.Machine

/-- What an operation of an arithmetic slot gives: a 40-bit result, whether it saturated, and the flags Z and N (R148). -/
structure AluRes where
  val : W40
  sat : Bool
  z : Bool
  n : Bool
  deriving DecidableEq, Repr

/-- A D register as a signed integer (R92). -/
def sint (v : W40) : Int := v.toInt

/-- An accumulator as a signed integer. -/
def aint (v : W88) : Int := v.toInt

/-- The nearest 40-bit value to an exact one (R97, R101). -/
def clamp40 (x : Int) : Int := max (-(2 ^ 39 : Int)) (min x (2 ^ 39 - 1))

/-- A saturated result: the value, SAT, and the flags of the value written. -/
def satRes (x : Int) : AluRes :=
  let y := clamp40 x
  ⟨BitVec.ofInt 40 y, decide (y ≠ x), decide (y = 0), decide (y < 0)⟩

/-- A result that never saturates. -/
def bitRes (v : W40) : AluRes := ⟨v, false, decide (v = 0), v.msb⟩

/-- The right shift of a conversion, R97. -/
def convShift : Conv → Nat
  | .cvS => 36 | .cvQ => 32 | .cvC => 36 | .cvI => 0

/-- Shift right by `n` places, discarding or rounding to nearest with an exact tie to even (R98). -/
def roundShift (rm : Rounding) (n : Nat) (x : Int) : Int :=
  let q := x / (2 ^ n : Int)
  let r := x % (2 ^ n : Int)
  match rm with
  | .trn => q
  | .rnd => if 2 * r < 2 ^ n then q else if 2 * r > 2 ^ n then q + 1 else if n = 0 || q % 2 = 0 then q else q + 1

/-- A conversion of an accumulator (R97). -/
def convert (c : Conv) (rm : Rounding) (acc : W88) : AluRes := satRes (roundShift rm (convShift c) (aint acc))

/-- The accumulator a D register loads: its value sign-extended at bits [75:36] (R96). -/
def loadAcc (v : W40) : W88 := BitVec.ofInt 88 (sint v * 2 ^ 36)

/-- An accumulator update: the wrapped value and whether it wrapped (R94). -/
def wrapAcc (x : Int) : W88 × Bool := (BitVec.ofInt 88 x, decide (x < -(2 ^ 87) ∨ 2 ^ 87 ≤ x))

/-- The flags of TSTA (R148). -/
def accFlags (v : W88) : Bool × Bool := (decide (v = 0), v.msb)

/-- An operation on D registers: the register it writes, if any, and its result, from the old destination and the source
(R147). -/
def dOp (op : SlotOp) (dst src : W40) : Option AluRes :=
  match op with
  | .mov _ _ => some (bitRes src)
  | .add _ _ => some (satRes (sint dst + sint src))
  | .sub _ _ => some (satRes (sint dst - sint src))
  | .neg _ _ => some (satRes (-sint src))
  | .abs _ _ => some (satRes (sint src).natAbs)
  | .max _ _ => some (bitRes (if sint dst < sint src then src else dst))
  | .min _ _ => some (bitRes (if sint src < sint dst then src else dst))
  | .and _ _ => some (bitRes (dst &&& src))
  | .or _ _ => some (bitRes (dst ||| src))
  | .xor _ _ => some (bitRes (dst ^^^ src))
  | .asr _ n => some (bitRes (dst.sshiftRight n.val))
  | .lsl _ n => some (bitRes (dst <<< n.val))
  | .lsr _ n => some (bitRes (dst >>> n.val))
  | _ => none

/-- The flags of CMP, from the exact difference (R148). -/
def cmpFlags (dst src : W40) : Bool × Bool :=
  (decide (sint dst - sint src = 0), decide (sint dst - sint src < 0))

/-- A condition of R155 on the flags Z and N. -/
def condHolds (c : Cond) (z n : Bool) : Bool :=
  match c with
  | .al => true
  | .eq => z
  | .ne => !z
  | .lt => n
  | .ge => !n
  | .gt => !n && !z
  | .le => n || z

end Sys2Proof.Machine
end

