-- ==== Sys2Proof/Machine/Operands.lean ====
section
/-! DEFINITION. Operand forms of the lane: what a register reads as at an issue position, results and stores in flight, and the
addresses of R111–R114 (R106–R116, R161). -/

namespace Sys2Proof.Machine

/-! ### Addresses -/

/-- The smallest power of two that is at least `n`, for lengths below 2^18 (R112). -/
def pow2Ge (n : Nat) : Nat := ((List.range 19).map (2 ^ ·)).find? (fun p => n ≤ p) |>.getD (2 ^ 18)

/-- Post-modification of an address by a signed amount under a length (R112). -/
def postMod (a : W18) (m : Int) (len : W18) : W18 :=
  let av : Int := a.toNat
  let l := len.toNat
  if l = 0 then BitVec.ofInt 18 (av + m)
  else
    let base := a.toNat - a.toNat % pow2Ge l
    if a.toNat - base < l then BitVec.ofInt 18 (base + ((a.toNat - base : Nat) + m) % (l : Int))
    else BitVec.ofInt 18 (av + m)

/-- The partner address of a pair (R107). -/
def partner (a len : W18) : W18 := postMod a 1 len

/-- Two words fall in one bank (R107). -/
def sameBank (a b : W18) : Bool := a.toNat % 2 == b.toNat % 2

/-! ### Results in flight -/

/-- Every part of the machine, operands of a multiply-accumulate too, reads the result at position `p`. -/
def PendRes.landed (r : PendRes) (p : Nat) : Bool := r.at_ ≤ p && r.macAt ≤ p

/-- The latest-issued result for a register that a reader at position `p` sees (R116, R161). -/
def seen (l : Lane) (d : LaneDest) (mac : Bool) : Option Nat :=
  ((l.results.filter fun r => decide (r.dest = d) && (if mac then r.macAt ≤ l.pos else r.at_ ≤ l.pos)).getLast?).map (·.val)

/-- D register `i` at the lane's position. -/
def rdD (l : Lane) (i : Fin 16) : W40 := match seen l (.d i) false with
  | some v => BitVec.ofNat 40 v
  | none => l.d[i.val]

/-- Accumulator `i` at the lane's position; `mac` for an operand of a multiply-accumulate. -/
def rdAcc (l : Lane) (i : Fin 4) (mac : Bool) : W88 := match seen l (.acc i) mac with
  | some v => BitVec.ofNat 88 v
  | none => l.acc[i.val]

/-- A register `i` at the lane's position. -/
def rdA (l : Lane) (i : Fin 16) : W18 := match seen l (.a i) false with
  | some v => BitVec.ofNat 18 v
  | none => l.a[i.val]

/-- M register `i` at the lane's position. -/
def rdM (l : Lane) (i : Fin 16) : W18 := match seen l (.m i) false with
  | some v => BitVec.ofNat 18 v
  | none => l.m[i.val]

/-- LEN register `i` at the lane's position. -/
def rdLen (l : Lane) (i : Fin 16) : W18 := match seen l (.len i) false with
  | some v => BitVec.ofNat 18 v
  | none => l.len[i.val]

/-- The flags Z and N at the lane's position. -/
def rdFlags (l : Lane) : Bool × Bool := match seen l .flags false with
  | some v => (v % 2 == 1, v / 2 % 2 == 1)
  | none => (l.zf, l.nf)

/-- Put a value into the register a result names. -/
def landRes (l : Lane) (d : LaneDest) (v : Nat) : Lane :=
  match d with
  | .d i => { l with d := l.d.set i.val (BitVec.ofNat 40 v) }
  | .acc i => { l with acc := l.acc.set i.val (BitVec.ofNat 88 v) }
  | .a i => { l with a := l.a.set i.val (BitVec.ofNat 18 v) }
  | .m i => { l with m := l.m.set i.val (BitVec.ofNat 18 v) }
  | .len i => { l with len := l.len.set i.val (BitVec.ofNat 18 v) }
  | .flags => { l with zf := v % 2 == 1, nf := v / 2 % 2 == 1 }

/-- Land every result that all readers see; one that a later-issued landed result to the same register follows is discarded
(R161). -/
def landAll (p : Nat) : List PendRes → Lane → Lane × List PendRes
  | [], l => (l, [])
  | r :: rs, l =>
    if rs.any fun q => decide (q.dest = r.dest) && q.landed p then landAll p rs l
    else if r.landed p then landAll p rs (landRes l r.dest r.val)
    else
      let (l', rest) := landAll p rs l
      (l', r :: rest)

/-- The lane after one more issue position. -/
def advancePos (l : Lane) : Lane :=
  let (l', rest) := landAll (l.pos + 1) l.results l
  { l' with results := rest, pos := l.pos + 1 }

/-- The lane with every result landed, as the window of a lane that is not released shows it. -/
def drained (l : Lane) : Lane := { l.results.foldl (fun x r => landRes x r.dest r.val) l with results := [] }

/-- A result issued now: readers see it from `lat` positions on, multiply-accumulates from `macLat`. -/
def putRes (d : LaneDest) (v lat macLat : Nat) (l : Lane) : Lane :=
  { l with results := l.results ++ [⟨d, v, l.pos, l.pos + lat, l.pos + macLat⟩] }

/-- Write D register `i`, visible after `lat` positions (R116). -/
def putD (i : Fin 16) (v : W40) (lat : Nat) : Lane → Lane := putRes (.d i) v.toNat lat lat

/-- A multiply-accumulate result (R116). -/
def putMac (i : Fin 4) (v : W88) : Lane → Lane := putRes (.acc i) v.toNat 3 1

/-- An accumulator result of an ALU operation or a load (R116). -/
def putAcc (i : Fin 4) (v : W88) : Lane → Lane := putRes (.acc i) v.toNat 2 2

/-- Flags of an operation (R148). -/
def putFlags (z n : Bool) : Lane → Lane := putRes .flags (b2n z + 2 * b2n n) 2 2

/-- A register after post-modification (R116). -/
def putA (i : Fin 16) (v : W18) (lat : Nat) : Lane → Lane := putRes (.a i) v.toNat lat lat

/-- A store issued now (R116). -/
def putStore (y : Bool) (a : W18) (v : W40) (l : Lane) : Lane :=
  { l with stores := l.stores ++ [⟨y, a.toNat % 8192, v, l.pos, none⟩] }

/-- The word that a load at the lane's position reads at an address of X or Y, where memory holds `v` (R116). -/
def loadWord (l : Lane) (y : Bool) (a : Nat) (v : W40) : W40 :=
  ((l.stores.find? fun x => x.y = y && x.addr = a && decide (l.pos < x.issued + 2)).bind (·.old)).getD v

/-- An address update with `m` as its amount when EN is 1; with EN 0 the register is unchanged (R151). -/
def addrUpd (l : Lane) (u : AddrUpd) : W18 := postMod (rdA l u.an) (rdM l u.mm).toInt (rdLen l u.an)

/-- The address updates of a compute word; the second is kept when both name one register (R114). `l0` is the lane before the
word. -/
def addrUpds (l0 : Lane) (u0 u1 : AddrUpd) (l : Lane) : Lane :=
  let l := if u0.en && decide (u0.an ≠ u1.an) then putA u0.an (addrUpd l0 u0) 1 l else l
  if u1.en then putA u1.an (addrUpd l0 u1) 1 l else l

end Sys2Proof.Machine
end

