-- ==== Sys2Proof/Machine/Lane.lean ====
section
/-! DEFINITION. The lanes at work: fetch, faults, compute words, control words, halt and step (03_lane_datapath.md,
04_lane_instructions.md). -/

namespace Sys2Proof.Machine

/-- Requester ID of a lane slot (R55). -/
def laneId (l : Nat) : Nat := 0x100 + 32 * (l / 17) + l % 17

/-- Instance code of a memory of a lane slot (R164). -/
def laneInst (cls l : Nat) : Nat := cls * 4096 + l / 17 * 256 + l % 17

/-- The lane in slot `l` is released (R59). The node stands in cycle 0 of a tick, where no lane is released, from the edge cycle until
it takes the edge (log 90). -/
def laneReleased (s : State) (l : Nat) : Bool :=
  ((laneAt s l).st == .run || (laneAt s l).st == .stall) && (laneIn s l).isSome && !edgeDue s

/-- The word at `a` is uncorrectable. -/
def wordBad (s : State) (a : Nat) : Bool := (marksIn s a 8).any fun p => p.2.bit.isNone

/-! ### Stores and faults -/

/-- Write the stores of a lane that `p` selects. -/
def landStores (l : Nat) (p : PendStore → Bool) : Act := .look fun s =>
  let L := laneAt s l
  .seq (forEach (L.stores.filter fun st => p st && st.old.isNone) fun st =>
      putWord40 (xyAddr l st.y st.addr) st.val)
    (setLane l fun L => { L with stores := L.stores.filter fun x => !p x })

/-- Stores in flight with the word that each replaces: what an earlier one of them writes there, or what memory holds, `mem`. -/
def oldWords (mem : PendStore → W40) (before : List PendStore) : List PendStore → List PendStore
  | [] => []
  | st :: rest =>
    let was := match before.find? fun x => x.y = st.y && x.addr = st.addr && x.old.isNone with
      | some x => x.val
      | none => mem st
    { st with old := some (st.old.getD was) } :: oldWords mem (st :: before) rest

/-- A lane that halts has its stores written; a load at the next position reads the word before (R116, R128). Results in flight keep
their positions, which count instructions and not time (R115). -/
def storesHalt (l : Nat) : Act := .look fun s =>
  let L := laneAt s l
  .seq (forEach (L.stores.filter (·.old.isNone)) fun st =>
      putWord40 (xyAddr l st.y st.addr) st.val)
    (setLane l fun L => { L with stores := oldWords (fun st => word40 s (xyAddr l st.y st.addr)) [] L.stores })

/-- Everything a lane has issued completes: stores are written, results land (R127, R128, R132). -/
def laneSettle (l : Nat) : Act := .seq (landStores l fun _ => true) (setLane l drained)

/-- A lane fault: earlier instructions complete, the stacks empty, `LANE_FAULT` is loaded and LANE_FAULT raised (R125, R132,
R135, R156). In a slot that holds no active lane it shows logical lane 0 (DESIGN CHOICE, log 87). -/
def laneFault (l code addr : Nat) : Act := .look fun s =>
  let n := match laneIn s l with | some n => n | none => 0
  acts [
    laneSettle l,
    setLane l fun L => { L with st := .fault, cause := .none, stepRet := none, reps := [], cache := [], rets := [] },
    R.LANE_FAULT.set l (tickNum s % 2 ^ 24 + addr % 2 ^ 18 * 2 ^ 24 + (laneAt s l).pc % 4096 * 2 ^ 44 + code % 16 * 2 ^ 56 + 2 ^ 63),
    F.GAL_FAULT_SLOT.set (l / 17) (F.GAL_FAULT_SLOT.get (l / 17) s ||| 2 ^ (l % 17)),
    raise .LANE_FAULT (l % 17) n code (l / 17)]

/-! ### Loops and the next address -/

/-- The level whose body the loop cache may hold: the outermost one of 32 instructions or fewer (R123). -/
def cacheLevel (reps : List RepLevel) : Option RepLevel := reps.reverse.find? fun r => r.last - r.first < 32

/-- The loop stack and the address after the instruction at `pc` (R119, R120). -/
def nextPc : List RepLevel → Nat → List RepLevel × Nat
  | [], pc => ([], pc + 1)
  | r :: rs, pc =>
    if pc = r.last then
      if 1 < r.left then ({ r with left := r.left - 1, again := true } :: rs, r.first) else nextPc rs pc
    else (r :: rs, pc + 1)

/-- After an instruction of a step: back to the state stepped from, once outside REP, and to WAIT after WAIT.TICK, from HALT too, where
the table of R130 names HALT alone (R131; DESIGN CHOICE, log 87). -/
def stepEnd (l : Nat) : Act := .look fun s =>
  let L := laneAt s l
  match L.stepRet with
  | some r =>
    if L.reps = [] && L.st ≠ .fault then
      .seq (storesHalt l) (setLane l fun L => { L with st := if L.st = .wait then .wait else r, stepRet := none })
    else .done
  | none => .done

/-- An instruction has executed: its cycles are counted, the issue position advances, and the lane goes on at `pc`; past 4,095
it faults, always with 4,095 as the PC, though the rule names it only for a word that stands there (R115, R132, R160; DESIGN
CHOICE, log 87). -/
def retire (l cost stall : Nat) (store : Bool) (reps : List RepLevel) (pc : Nat) : Act := acts [
  setLane l fun L => { advancePos L with
    st := if L.st = .stall then .run else L.st
    cause := .none
    reps := reps
    cache := if (cacheLevel reps).isSome then L.cache else []
    pc := min pc 4095
    cyc := L.cyc + cost + stall
    stalls := L.stalls + stall
    lastStore := store },
  onlyIf (4096 ≤ pc) (laneFault l 7 0),
  stepEnd l]

/-- An instruction without a change of flow has executed. -/
def retireNext (l cost stall : Nat) (store : Bool) : Act := .look fun s =>
  let L := laneAt s l
  let (reps, pc) := nextPc L.reps L.pc
  retire l cost stall store reps pc

/-! ### Compute words -/

/-- What one multiply slot adds to accumulator `a`, whose total so far is `t` (R145, R146). -/
def mulTerm (L : Lane) (a : Fin 4) (t : Int) : SlotOp → Int
  | .mac c x y => if c = a then t + sint (rdD L x) * sint (rdD L y) else t
  | .msu c x y => if c = a then t - sint (rdD L x) * sint (rdD L y) else t
  | .mpy c x y => if c = a then sint (rdD L x) * sint (rdD L y) else t
  | .mpyn c x y => if c = a then -(sint (rdD L x) * sint (rdD L y)) else t
  | _ => t

/-- The accumulator a multiply slot updates. -/
def mulAcc : SlotOp → Option (Fin 4)
  | .mac a _ _ | .msu a _ _ | .mpy a _ _ | .mpyn a _ _ => some a
  | _ => none

/-- What a step of a slot does to the lane, whether a result saturated, and whether an accumulator wrapped. -/
structure SlotEff where
  lane : Lane
  sat : Bool
  aov : Bool
  deriving DecidableEq, Repr

/-- The updates of accumulator `a` by the multiply slots of a word, one after the other, each wrapped (R94, R95, R146). -/
def macEff (L0 : Lane) (w : ComputeWord) (a : Fin 4) (x : SlotEff) : SlotEff :=
  let (u, o) := wrapAcc (mulTerm L0 a (aint (rdAcc L0 a true)) w.slot0)
  let (v, o') := wrapAcc (mulTerm L0 a (aint u) w.slot1)
  { x with lane := putMac a v x.lane, aov := x.aov || o || o' }

/-- Put a D result and its flags. -/
def putAlu (d : Fin 16) (r : AluRes) (x : SlotEff) : SlotEff :=
  { x with lane := putFlags r.z r.n (putD d r.val 2 x.lane), sat := x.sat || r.sat }

/-- An ALU slot; `L0` is the lane before the word (R144, R147). -/
def aluEff (L0 : Lane) (op : SlotOp) (x : SlotEff) : SlotEff :=
  let dd (d s : Fin 16) : SlotEff := match dOp op (rdD L0 d) (rdD L0 s) with
    | some r => putAlu d r x
    | none => x
  match op with
  | .mov d s | .add d s | .sub d s | .neg d s | .abs d s | .max d s | .min d s | .and d s | .or d s | .xor d s => dd d s
  | .asr d _ | .lsl d _ | .lsr d _ => dd d d
  | .cmp d s =>
    let f := cmpFlags (rdD L0 d) (rdD L0 s)
    { x with lane := putFlags f.1 f.2 x.lane }
  | .cv c d a rm => putAlu d (convert c rm (rdAcc L0 a false)) x
  | .lda a s => { x with lane := putAcc a (loadAcc (rdD L0 s)) x.lane }
  | .clra a => { x with lane := putAcc a 0 x.lane }
  | .adda a s =>
    let (v, o) := wrapAcc (aint (rdAcc L0 a false) + aint (rdAcc L0 s false))
    { x with lane := putAcc a v x.lane, aov := x.aov || o }
  | .suba a s =>
    let (v, o) := wrapAcc (aint (rdAcc L0 a false) - aint (rdAcc L0 s false))
    { x with lane := putAcc a v x.lane, aov := x.aov || o }
  | .tsta a =>
    let f := accFlags (rdAcc L0 a false)
    { x with lane := putFlags f.1 f.2 x.lane }
  | .nop | .mac _ _ _ | .msu _ _ _ | .mpy _ _ _ | .mpyn _ _ _ => x

/-- Both slots of a compute word. -/
def slotsEff (L0 : Lane) (w : ComputeWord) (x : SlotEff) : SlotEff :=
  let accs := match mulAcc w.slot0, mulAcc w.slot1 with
    | some a, some b => if a = b then [a] else [a, b]
    | some a, none => [a]
    | none, some b => [b]
    | none, none => []
  aluEff L0 w.slot1 (aluEff L0 w.slot0 (accs.foldl (fun x a => macEff L0 w a x) x))

/-- A load: Y memory?, address, destination. -/
abbrev LoadReq := Bool × W18 × Nat

/-- The loads of one side (R107, R111). -/
def sideLoads (L : Lane) (y p : Bool) (an d : Fin 16) : List LoadReq :=
  let a := rdA L an
  if p then [(y, a, d.val), (y, partner a (rdLen L an), d.val + 1)] else [(y, a, d.val)]

/-- The loads of a compute word, X before Y (R150). -/
def wordLoads (L : Lane) (w : ComputeWord) : List LoadReq :=
  match w.mop with
  | .lx p d => sideLoads L false p w.u0.an d
  | .ly p d => sideLoads L true p w.u1.an d
  | .lxy px dx py dy => sideLoads L false px w.u0.an dx ++ sideLoads L true py w.u1.an dy
  | .none | .sx _ | .sy _ => []

/-- A pair load of the word has both words in one bank (R107). -/
def pairStall (L : Lane) (w : ComputeWord) : Bool :=
  let same (an : Fin 16) : Bool := sameBank (rdA L an) (partner (rdA L an) (rdLen L an))
  match w.mop with
  | .lx p _ => p && same w.u0.an
  | .ly p _ => p && same w.u1.an
  | .lxy px _ py _ => (px && same w.u0.an) || (py && same w.u1.an)
  | .none | .sx _ | .sy _ => false

/-- The source of a store, if the word stores, and whether it stores to Y. -/
def wordStore (w : ComputeWord) : Option (Bool × StoreSrc) :=
  match w.mop with
  | .sx src => some (false, src)
  | .sy src => some (true, src)
  | _ => none

/-- A pair store with both words in one bank (R153). -/
def pairStoreBad (L : Lane) (w : ComputeWord) : Bool :=
  match wordStore w with
  | some (_, .pair _) => sameBank (rdA L w.u0.an) (partner (rdA L w.u0.an) (rdLen L w.u0.an))
  | _ => false

/-- The D register after `s`. -/
def nextD (s : Fin 16) : Fin 16 := f16 (s.val + 1)

/-- The stores of a word put in flight, and whether a conversion saturated (R152, R153). -/
def storeEff (L0 : Lane) (w : ComputeWord) (x : SlotEff) : SlotEff × Bool :=
  let a := rdA L0 w.u0.an
  match wordStore w with
  | some (y, .reg s) => ({ x with lane := putStore y a (rdD L0 s) x.lane }, false)
  | some (y, .pair s) =>
    ({ x with lane := putStore y (partner a (rdLen L0 w.u0.an)) (rdD L0 (nextD s)) (putStore y a (rdD L0 s) x.lane) }, false)
  | some (y, .conv acc c rm) =>
    let r := convert c rm (rdAcc L0 acc false)
    ({ x with lane := putStore y a r.val x.lane, sat := x.sat || r.sat }, r.sat)
  | none => (x, false)

/-- What a compute word does to the lane beside memory: loads, slots, stores in flight, address updates (R144). `vs` are the
words its loads deliver. The second part says that a conversion-store saturated. -/
def computeEff (L0 : Lane) (w : ComputeWord) (vs : List (Nat × W40)) : SlotEff × Bool :=
  let L1 := vs.foldl (fun L v => putD (f16 v.1) v.2 3 L) L0
  let (x, clip) := storeEff L0 w (slotsEff L0 w ⟨L1, false, false⟩)
  ({ x with lane := addrUpds L0 w.u0 w.u1 x.lane }, clip)

/-- The output channel that holds Y address `a` of the lane in slot `l` (R102, R149). -/
def clipChan (l : Nat) (a : W18) (s : State) : Option Nat :=
  let n := F.LANE_FRAME_OUT_CH.live l s * spt s
  let w := a.toNat % 8192
  if n ≠ 0 && 8192 ≤ w + n then some ((w + n - 8192) / spt s) else none

/-- The lowest address of the loads of a list that meet an uncorrectable word. -/
def lowestBad (bad : List LoadReq) : Option Nat := (bad.map fun q => q.2.1.toNat % 8192).min?

/-- A compute word executes (R143–R153). The errors its loads meet are those of one cycle (R176, R179). -/
def doCompute (l : Nat) (w : ComputeWord) : Act := .look fun s =>
  let L := laneAt s l
  let loads := wordLoads L w
  let at_ (q : LoadReq) : Nat := xyAddr l q.1 (q.2.1.toNat % 8192)
  let bad := loads.filter fun q => wordBad s (at_ q)
  eccJudge (s.ecc.marks.filter fun p => loads.any fun q => eccOverlaps (at_ q) 8 p.1) (laneId l) none fun _ =>
    (match lowestBad (bad.filter fun q => !q.1) with
     | some a => laneFault l 1 a
     | none => match lowestBad bad with
       | some a => laneFault l 2 a
       | none =>
         if pairStoreBad L w then laneFault l 5 0
         else
           let r := computeEff L w (loads.map fun q => (q.2.2, loadWord L q.1 (q.2.1.toNat % 8192) (word40 s (at_ q))))
           acts [
             setLane l fun _ => { r.1.lane with aov := r.1.lane.aov || r.1.aov },
             onlyIf r.1.sat (F.LANE_STAT_SAT.set l 1),
             onlyIf r.1.aov (F.LANE_STAT_AOV.set l 1),
             (match wordStore w, clipChan l (rdA L w.u0.an) s with
              | some (true, .conv _ _ _), some c =>
                onlyIf r.2 (R.LANE_CLIP.set l (R.LANE_CLIP.val l s ||| 2 ^ c))
              | _, _ => .done),
             retireNext l 1 (b2n (pairStall L w)) (wordStore w).isSome])

/-! ### Control words -/

/-- A jump, call or return: LOOP inside REP, after what makes it illegal (R122, R142). -/
def inRep (L : Lane) : Bool := L.reps ≠ []

/-- JMP, CALL or RET with the change of the return stack and the target it has when taken (R117, R155, R156). -/
def doFlow (l : Nat) (cc : Cond) (full : Lane → Bool) (rets : Lane → List Nat) (target : Lane → Nat) : Act := .look fun s =>
  let L := laneAt s l
  let f := rdFlags L
  let taken := condHolds cc f.1 f.2
  if taken && full L then laneFault l 5 0
  else if inRep L then laneFault l 6 0
  else if taken then
    .seq (setLane l fun L => { L with rets := rets L }) (retire l 3 0 false L.reps (target L))
  else retire l 1 0 false L.reps (L.pc + 1)

/-- REP with `n` passes over the next `k` instructions (R119–R121). -/
def doRep (l n k : Nat) : Act := .look fun s =>
  let L := laneAt s l
  let last := L.pc + k
  if 4 ≤ L.reps.length || (match L.reps with | r :: _ => decide (r.last < last) | [] => false) then laneFault l 6 0
  else if n = 0 then
    let (reps, pc) := nextPc L.reps last
    retire l 1 0 false reps pc
  else
    .seq (onlyIf (cacheLevel L.reps).isNone (setLane l fun L => { L with cache := [] }))
      (retire l 1 0 false (⟨L.pc + 1, last, n, false⟩ :: L.reps) (L.pc + 1))

/-- WAIT.TICK: every earlier store is written first (R127, R160). -/
def doWait (l : Nat) : Act := .look fun s =>
  let L := laneAt s l
  if inRep L then laneFault l 6 0
  else acts [
    landStores l fun _ => true,
    setLane l fun L => { L with st := .wait },
    retire l 0 (b2n L.lastStore) false [] (L.pc + 1)]

/-- A move that only writes a register of the lane. -/
def doMove (l : Nat) (f : Lane → Lane) : Act := .seq (setLane l f) (retireNext l 1 0 false)

/-- Register slices in force on the path of a lane slot's port to gallery memory (R62). -/
def galSlices (l : Nat) (s : State) : Nat := b2n (bitOf (F.GAL_SLICE_PORT.live (l / 17) s) (l % 17))

/-- The lane stalls. -/
def doStall (l : Nat) (c : StallCause) : Act := setLane l fun L => { L with st := .stall, cause := c }

/-- Post-modification of a gallery access. -/
def galPost (n m : Fin 16) (en : Bool) (L : Lane) : Lane :=
  if en then putA n (addrUpd L ⟨en, n, m⟩) 1 L else L

/-- Gallery load data returns (R109, R134). -/
def doGldReturn (l : Nat) (d n m : Fin 16) (en : Bool) : Act := .look fun s =>
  let L := laneAt s l
  let g := l / 17
  let w := (rdA L n).toNat
  .seq (grant (laneId l) [galAddr g w]) (eccRead (galAddr g w) 8 (laneId l) none fun ok =>
    if ok then acts [
      setLane l fun L => putD d (word40 s (galAddr g w)) 1 (galPost n m en L),
      retireNext l 1 (4 + galSlices l s) false]
    else laneFault l 4 w)

/-- A gallery store is granted (R109). -/
def doGstGrant (l : Nat) (src n m : Fin 16) (en : Bool) : Act := .look fun s =>
  let L := laneAt s l
  let g := l / 17
  let w := (rdA L n).toNat
  acts [grant (laneId l) [galAddr g w], putWord40 (galAddr g w) (rdD L src),
    setLane l (galPost n m en), retireNext l 1 0 false]

/-- QRD: the next word of a bound port, or a stall while there is none (R110, R159, R368). Ports are bound by logical lane: in a slot
that holds none it delivers 0 (DESIGN CHOICE, log 87). -/
def doQrd (l : Nat) (d p : Fin 16) : Act := .look fun s =>
  let done (v : W40) : Act := .seq (setLane l (putD d v 1)) (retireNext l 1 0 false)
  match laneIn s l with
  | none => done 0
  | some n => match laneBound n p false s with
    | none => .seq (portErr n p) (done 0)
    | some q => .seq (grantUplink l) <| readWord q (laneId l) .ECC_UE_QRD fun r => match r with
      | some (v, _) => done v
      | none => doStall l .qrd

/-- QWR: append a word, never a stall (R159, R368); in a slot that holds no logical lane it is discarded (DESIGN CHOICE, log 87). -/
def doQwr (l : Nat) (p src : Fin 16) : Act := .look fun s =>
  .seq (match laneIn s l with
    | none => .done
    | some n => match laneBound n p true s with
      | none => portErr n p
      | some q => .seq (grantUplink l) (appendWord q (laneId l) (rdD (laneAt s l) src)))
    (retireNext l 1 0 false)

/-- A control word executes (R154–R159). -/
def doControl (l : Nat) (w : ControlWord) : Act :=
  match w with
  | .jmp cc t => doFlow l cc (fun _ => false) (·.rets) fun _ => t.val
  | .call cc t => doFlow l cc (fun L => 8 ≤ L.rets.length) (fun L => L.rets ++ [L.pc + 1]) fun _ => t.val
  | .ret cc => doFlow l cc (fun L => L.rets = []) (fun L => L.rets.dropLast) fun L => L.rets.getLastD 0
  | .repImm n k => doRep l n.val (k.val + 1)
  | .repD d k => .look fun s => doRep l ((rdD (laneAt s l) d).toNat % 65536) (k.val + 1)
  | .waitTick => doWait l
  | .ldi d v => doMove l (putD d v 2)
  | .movaImm n v => doMove l (putA n v 2)
  | .movmImm n v => doMove l (putRes (.m n) v.toNat 2 2)
  | .movlImm n v => doMove l (putRes (.len n) v.toNat 2 2)
  | .movaD n r => doMove l fun L => putA n ((rdD L r).setWidth 18) 2 L
  | .movmD n r => doMove l fun L => putRes (.m n) ((rdD L r).toNat % 2 ^ 18) 2 2 L
  | .movlD n r => doMove l fun L => putRes (.len n) ((rdD L r).toNat % 2 ^ 18) 2 2 L
  | .movd d n => doMove l fun L => putD d ((rdA L n).setWidth 40) 2 L
  | .gld _ _ _ _ => doStall l .gld
  | .gst _ _ _ _ => doStall l .gst
  | .qrd d p => doQrd l d p
  | .qwr p r => doQwr l p r

/-- A word executes. -/
def doWord (l : Nat) : LaneWord → Act
  | .compute w => doCompute l w
  | .control w => doControl l w

/-! ### Issue -/

/-- Codewords of the word at the lane's pc that are in error: in program memory, or in the loop cache when that serves the word
(R123, R133). The cache holds an instruction at its place in the body (DESIGN CHOICE, log 87). -/
def fetchMarks (s : State) (l : Nat) : List (Nat × EccMark) :=
  let L := laneAt s l
  match cacheLevel L.reps with
  | some r =>
    if r.again && L.cache.contains L.pc then
      s.ecc.marks.filter fun p => eccInst p.1 = laneInst 3 l && eccUnit p.1 = L.pc - r.first
    else marksIn s (progAddr l L.pc) 8
  | none => marksIn s (progAddr l L.pc) 8

/-- The word fetched goes into the loop cache where a body is held there, and its entry is written whole (R123, R168). -/
def fillCache (l : Nat) : Act := .look fun s =>
  let L := laneAt s l
  match cacheLevel L.reps with
  | some r => onlyIf (!L.cache.contains L.pc) (.seq (setLane l fun L => { L with cache := L.cache ++ [L.pc] })
      (onlyIf (!s.ecc.marks.isEmpty) (eccFresh fun k => eccInst k = laneInst 3 l && eccUnit k = L.pc - r.first)))
  | none => .done

/-- The word at the lane's pc issues when it is the word `want`, or whatever it is; an uncorrectable or illegal word faults
(R132, R133, R140). An encoding that is illegal is code 5, whatever load its fields would name (R142; DESIGN CHOICE, log 87). -/
def issueWord (l : Nat) (want : Option LaneWord) : Act := .look fun s =>
  let L := laneAt s l
  let ms := fetchMarks s l
  if ms.any fun p => p.2.bit.isNone then eccJudge ms (laneId l) none fun _ => laneFault l 3 L.pc
  else match decodeLane (word64 s (progAddr l L.pc)) with
    | none => eccJudge ms (laneId l) none fun _ => laneFault l 5 0
    | some w =>
      if want.isNone || want = some w then
        eccJudge ms (laneId l) none fun _ => acts [
          fillCache l,
          landStores l fun st => st.issued + 2 ≤ L.pos,
          doWord l w]
      else .done

/-- A requested halt takes effect: at an instruction boundary outside REP the lane stops, and a stalled instruction is not issued
(R124, R130). -/
def laneHaltEnter (l : Nat) : Act := .look fun s =>
  let L := laneAt s l
  if F.LANE_CTRL_HALT.on l s && (L.st = .run || L.st = .stall) && L.reps = [] && L.stepRet.isNone then
    .seq (storesHalt l) (setLane l fun L => { L with st := .halt, cause := .none })
  else .done

/-- The lane stands at the boundary at which a requested halt takes effect. -/
def haltHere (L : Lane) (l : Nat) (s : State) : Bool := F.LANE_CTRL_HALT.on l s && L.reps = [] && L.stepRet.isNone

/-- A lane instruction comes to its turn: it issues in the RUN state when it is the word at the lane's pc and no halt comes
first. -/
def laneRun (l : LaneSlot) (w : LaneWord) : Act := .look fun s =>
  let L := laneAt s l
  if L.st = .run && L.stepRet = none then (if haltHere L l s then laneHaltEnter l else issueWord l (some w)) else .done

/-- Issue instructions of a step until it is over, or a stall ends it for now. -/
def stepOn (l : Nat) : Nat → Act
  | 0 => .done
  | n + 1 => .look fun s =>
    if (laneAt s l).st = .run && (laneAt s l).stepRet.isSome then .seq (issueWord l none) (stepOn l n) else .done

/-- More instructions than any nest of loops holds. -/
def stepFuel : Nat := 2 ^ 100

/-- A stall cause of a lane ends. -/
def stallEnds (l : LaneSlot) (c : StallCause) : Act := .look fun s =>
  let L := laneAt s l
  if L.st = .stall && L.cause = c then
    if haltHere L l s then laneHaltEnter l
    else .seq (match decodeLane (word64 s (progAddr l L.pc)) with
      | some (.control (.gld d n m en)) => doGldReturn l d n m en
      | some (.control (.gst r n m en)) => doGstGrant l r n m en
      | some (.control (.qrd d p)) => doQrd l d p
      | _ => .done)
      (stepOn l stepFuel)
  else .done

/-- The compute word a slot operation stands in. -/
def slotWord (h : Half) (op : SlotOp) (x : SlotCtx) : LaneWord :=
  match h with
  | .s0 => .compute ⟨op, x.other, x.mop, x.u0, x.u1⟩
  | .s1 => .compute ⟨x.other, op, x.mop, x.u0, x.u1⟩

/-- The compute word a memory operation stands in. -/
def memWord (op : MemOp) (x : MemCtx) : LaneWord := .compute ⟨x.slot0, x.slot1, op, x.u0, x.u1⟩

end Sys2Proof.Machine
end

