-- ==== Sys2Proof/Machine/LaneCtl.lean ====
section
/-! DEFINITION. Control of the lanes from the window: halt, step, fault clear, the PC and the frame sizes
(R124, R130, R131, R137). -/

namespace Sys2Proof.Machine

/-- A write of HALT: 1 requests a halt, 0 resumes a halted lane (R124, R130). A 0 written while a step from HALT is stalled does not end
the step, after which the lane stands in HALT, with HALT 0, until it is written again (DESIGN CHOICE, log 103). -/
def laneHaltBit (l v : Nat) : Act := .look fun s =>
  .seq (F.LANE_CTRL_HALT.set l v)
    (onlyIf (v = 0 && (laneAt s l).st = .halt) (setLane l fun L => { L with st := .run }))

/-- STEP is accepted (R131). -/
def stepTaken (l : Nat) (s : State) : Bool :=
  let L := laneAt s l
  L.st = .halt || ((L.st = .wait || L.st = .idle) && !running s)

/-- FCLR of a lane in FAULT (R130). -/
def laneFclr (l : Nat) : Act := .look fun s =>
  if (laneAt s l).st = .fault then acts [
    setLane l fun L => { L with st := .idle },
    F.LANE_FAULT_VALID.set l 0,
    F.GAL_FAULT_SLOT.set (l / 17) (putBits (F.GAL_FAULT_SLOT.get (l / 17) s) (l % 17) (l % 17) 0)]
  else .done

/-- A write of STEP 1 and FCLR 1, or of one of them: each acts or is dropped, and a drop makes one record (R73, R130, R131). -/
def laneActBits (m l : Nat) (step fclr : Bool) : Act := .look fun s =>
  let stepBad := step && !stepTaken l s
  let fclrBad := fclr && (laneIn s l).isSome
  acts [
    onlyIf (step && !stepBad)
      (.seq (setLane l fun L => { L with st := .run, stepRet := some L.st }) (.seq (issueWord l none) (stepOn l stepFuel))),
    onlyIf (fclr && !fclrBad) (laneFclr l),
    onlyIf (stepBad || fclrBad) (dropped m (R.LANE_CTRL.addr l))]

/-- A write of `LANE_CTRL` as a whole: its bits act from bit 0 up, so that a write of HALT 0 resumes the lane before its STEP is judged
(DESIGN CHOICE, log 87). -/
def wrLaneCtrl (m l v mask : Nat) : Act :=
  .seq (onlyIf (bitOf mask 0) (laneHaltBit l (v % 2))) (laneActBits m l (bitOf (v &&& mask) 1) (bitOf (v &&& mask) 2))

/-- A write of `LANE_PC` (R131): dropped in FAULT. -/
def wrLanePc (m l v : Nat) : Act := .look fun s =>
  let L := laneAt s l
  if L.st = .fault then dropped m (R.LANE_PC.addr l) else setLane l fun L => { L with pc := v % 4096 }

/-- A write of `LANE_FRAME` (R137). -/
def wrLaneFrame (m l v mask : Nat) (tie : Bool := false) : Act := .look fun s =>
  let e := entryOf R.LANE_FRAME
  let new := asWritten e l m v mask s
  let i := F.LANE_FRAME_IN_CH.of new
  if 64 < F.LANE_FRAME_OUT_CH.of new || 256 < i || 4096 < i * spt (rated s) then dropped m (R.LANE_FRAME.addr l)
  else storeWrite e l m v mask (R.LANE_FRAME.addr l) tie

/-- A lane-window access waits while its lane is released (R59, R60). -/
def whenNotReleased (q : Requester) (l a : Nat) (r : MatrixReq) (act : Act) : Act := .look fun s =>
  if laneReleased s l then setBus fun b => { b with waiting := b.waiting ++ [⟨q, a, r⟩] } else act

/-- LANE_HALT_REQUEST (R124). -/
def execLaneHaltRequest (m : Master) (l : LaneSlot) (s : State) : Host.Outcome State Fault Refusal :=
  answer (arrive m (R.LANE_CTRL.addr l) 0xF 1 (laneHaltBit l 1)) s

/-- LANE_HALT_ENTER (R124). -/
def execLaneHaltEnter (l : LaneSlot) (s : State) : Host.Outcome State Fault Refusal := answer (laneHaltEnter l) s

/-- LANE_RESUME (R130). -/
def execLaneResume (m : Master) (l : LaneSlot) (s : State) : Host.Outcome State Fault Refusal :=
  answer (arrive m (R.LANE_CTRL.addr l) 0xF 0 (laneHaltBit l 0)) s

/-- LANE_STEP (R131). HALT keeps its value in the write. -/
def execLaneStep (m : Master) (l : LaneSlot) (s : State) : Host.Outcome State Fault Refusal :=
  answer (arrive m (R.LANE_CTRL.addr l) 0xF (2 + F.LANE_CTRL_HALT.get l s) (laneActBits m l true false)) s

/-- LANE_FCLR (R130). HALT keeps its value in the write. -/
def execLaneFclr (m : Master) (l : LaneSlot) (s : State) : Host.Outcome State Fault Refusal :=
  answer (arrive m (R.LANE_CTRL.addr l) 0xF (4 + F.LANE_CTRL_HALT.get l s) (laneActBits m l false true)) s

/-- LANE_PC_WRITE (R131). -/
def execLanePcWrite (m : Master) (l : LaneSlot) (v : Word) (s : State) : Host.Outcome State Fault Refusal :=
  answer (arrive m (R.LANE_PC.addr l) 0xF v.toNat
    (whenNotReleased (.master m) l (R.LANE_PC.addr l) (.write .b4 (v.setWidth 64)) (wrLanePc m l v.toNat))) s

/-- LANE_FRAME_WRITE (R137). -/
def execLaneFrameWrite (m : Master) (l : LaneSlot) (v : Word) (s : State) : Host.Outcome State Fault Refusal :=
  answer (arrive m (R.LANE_FRAME.addr l) 0xF v.toNat
    (whenNotReleased (.master m) l (R.LANE_FRAME.addr l) (.write .b4 (v.setWidth 64))
      (wrLaneFrame m l v.toNat (fullMask 1)))) s

end Sys2Proof.Machine
end

