-- ==== Sys2Proof/Machine/Mic.lean ====
section
/-! DEFINITION. PDM microphones, their two paths, thresholds, and the trim governor (08_microphones_and_calibration.md). -/

namespace Sys2Proof.Machine

/-- Change microphone `i`. -/
def setMic (i : Nat) (f : MicState → MicState) : Act :=
  setDec fun d => { d with mics := smPut (fun _ => micReset) d.mics i (f (smGet (fun _ => micReset) d.mics i)) }

/-- fo is half of fs (R266). -/
def foHalf (s : State) : Bool := 176400 ≤ fsHz s

/-- The fine output rate (R266). -/
def foHz (s : State) : Nat := if foHalf s then fsHz s / 2 else fsHz s

/-- ORDER, decimation and half-band stages of a `DEC_MIC` value. -/
def micN (v : Nat) : Nat := F.DEC_MIC_ORDER.of v + 3
def micR (v : Nat) : Nat := 2 ^ (F.DEC_MIC_RLOG.of v + 3)
def micH (v : Nat) : Nat := F.DEC_MIC_H.of v

/-- The clock of microphone `i`'s line, as applied. -/
def micClk (s : State) (i : Nat) : Nat := F.PDM_LINE_CLK.live (i / 2) s

/-- What drives pin PDMCLK`k`. -/
inductive PdmDrive where
  /-- high impedance -/
  | highZ
  /-- low -/
  | low
  /-- a clock of f_B divided by `div` -/
  | clock (div : Nat)
  deriving DecidableEq, Repr

/-- Pin PDMCLK`k` (R260, R262): high impedance on a chip that does not own (R485) and in LISTEN (R589), low while the clock is off, stopped by a change or
without PLL_B (R465). -/
def pdmPin (s : State) (k : Nat) : PdmDrive :=
  if !drives s then .highZ
  else if !F.PDM_CLK_EN.liveOn k s || s.dec.stopped.contains k || !s.clk.lockB then .low
  else .clock (F.PDM_CLK_DIV.live k s)

/-- R266 holds for microphone `i` with the configuration value `v`. -/
def fineOk (s : State) (i v : Nat) : Bool :=
  fB s == F.PDM_CLK_DIV.live (micClk s i) s * foHz s * micR v * 2 ^ micH v

/-- Line and clock of microphone `i` run. -/
def micClocked (s : State) (i : Nat) : Bool :=
  F.PDM_LINE_EN.liveOn (i / 2) s && F.PDM_CLK_EN.liveOn (micClk s i) s && !s.dec.stopped.contains (micClk s i)

/-- Ticks of a mute period with the value `v` of MUTE_MS (R264). -/
def muteTicks (s : State) (v : Nat) : Nat :=
  let ms := min 1000 (max 4 v)
  (ms * fsHz s + 1000 * spt s - 1) / (1000 * spt s)

/-- The mute bit of a microphone. -/
def setMuted (i : Nat) (b : Bool) : Act := .look fun s =>
  R.DEC_MUTED.set 0 (putBits (R.DEC_MUTED.val 0 s) i i (b2n b))

/-- A microphone's filters are cleared and a mute period begins (R263). Its ticks are counted by the rate and F of the tick that the
edge begins (R264); until that edge they stand as by those in force. -/
def micClear (i : Nat) : Act := .look fun s =>
  let v := F.DEC_MIC_MUTE_MS.live i s
  .seq (setMic i fun x => { x with
      fine := ⟨[], []⟩, fast := ⟨[], []⟩, hist := [], fineLast := 0, fastLast := 0, mute := muteTicks (rated s) v + 1, muteMs := some v })
    (setMuted i true)

/-- End of E2: the mute periods that begin with the new tick get their ticks (R264). -/
def mutesTake : Act := .look fun s =>
  forEach (s.dec.mics.filterMap fun e => e.2.muteMs.map fun v => (e.1, v)) fun p =>
    setMic p.1 fun x => { x with mute := muteTicks s p.2 + 1, muteMs := none }

/-- A mute period ends. -/
def muteEnd (i : Nat) : Act := .seq (setMic i fun x => { x with mute := 0 }) (setMuted i false)

/-- Group delay of the applied configuration in 1/256 sample, rounded down, and whether that is exact (R268). -/
def groupDelay (v : Nat) : Nat × Bool :=
  let den := 2 * micR v * 2 ^ micH v
  let num := 256 * (micN v * (micR v - 1)) + 256 * 60 * den - 256 * 15 * 2 * micR v
  (num / den, num % den == 0)

/-- `DEC_GD` follows the applied configuration. Where G is no multiple of 1/256 the spec states no rounding. -/
def setGd (i : Nat) : Act := .look fun s =>
  let (g, exact) := groupDelay (R.DEC_MIC.liveVal i s)
  if exact then R.DEC_GD.set i g else draw fun r => R.DEC_GD.set i (g + r % 2)

/-- R266 is judged for microphone `i`: DEC_CFG_ERR once, until the configuration has met the equation again (R266). -/
def micJudge (i : Nat) : Act := .look fun s =>
  let ok := fineOk (rated s) i (R.DEC_MIC.liveVal i s)
  let x := micAt s i
  if F.DEC_MIC_FINE_EN.liveOn i s && !ok && !x.cfgErr then .seq (setMic i fun x => { x with cfgErr := true }) (raise .DEC_CFG_ERR i)
  else if ok && x.cfgErr then setMic i fun x => { x with cfgErr := false }
  else .done

/-- The fine paths are judged by what stands once an edge has applied everything (R266). -/
def micsJudge : Act := .look fun s => forEach (listed s.live (R.DEC_MIC.addr 0) 8 64) micJudge

/-- `DEC_MIC` of microphone `i` is applied; the value before was `old` (R263). What one E2 applies it applies together, so a period that
begins in it lasts by the new MUTE_MS. -/
def micApplied (i old : Nat) : Act := .look fun s =>
  let new := R.DEC_MIC.liveVal i s
  acts [
    onlyIf (decide (old / 2 ^ 54 ≠ new / 2 ^ 54)) (micClear i),
    onlyIf (running s) (setMic i fun x => { x with muteMs := x.muteMs.map fun _ => F.DEC_MIC_MUTE_MS.of new }),
    setGd i]

/-- `PDM_LINE` of line `n` is applied (R263). -/
def lineApplied (n old : Nat) : Act := .look fun s =>
  onlyIf (decide (old ≠ R.PDM_LINE.liveVal n s))
    (forEach [2 * n, 2 * n + 1] micClear)

/-- `PDM_CLK` of clock `k` is applied: it stops until the next edge (R262), and the microphones it clocks are cleared (R263). -/
def clockApplied (k old : Nat) : Act := .look fun s =>
  onlyIf (decide (old ≠ R.PDM_CLK.liveVal k s))
    (.seq (setDec fun d => { d with stopped := (d.stopped.filter (· ≠ k)) ++ [k] })
      (forEach ((List.range 64).filter fun i => micClk s i = k) micClear))

/-- A write to `PDM_CLK` (R260). -/
def wrPdmClk (m k v mask : Nat) (tie : Bool := false) : Act := .look fun s =>
  let e := entryOf R.PDM_CLK
  let d := F.PDM_CLK_DIV.of (afterWrite e k m v mask s)
  if d < 16 || 96 < d || fB s < 1024000 * d then dropped m (R.PDM_CLK.addr k)
  else storeWrite e k m v mask (R.PDM_CLK.addr k) tie

/-- A write to `DEC_MIC` (R266). -/
def wrDecMic (m i v mask : Nat) (tie : Bool := false) : Act := .look fun s =>
  let e := entryOf R.DEC_MIC
  let new := afterWrite e i m v mask s
  if F.DEC_MIC_FINE_EN.of new = 1 && !fineOk (rated s) i new then dropped m (R.DEC_MIC.addr i + 4)
  else storeWrite e i m v mask (R.DEC_MIC.addr i + 4) tie

/-! ### Filters, R265–R272 -/

/-- One input through `n` integrators modulo 2^40: the new integrators, and the last one's value. -/
def integrate (x : W40) : Nat → List W40 → List W40 × W40
  | 0, _ => ([], x)
  | n + 1, is =>
    let y := is.headD 0 + x
    let (rest, out) := integrate y n is.tail
    (y :: rest, out)

/-- One value through `n` combs of differential delay 1. -/
def combs (x : W40) : Nat → List W40 → List W40 × W40
  | 0, _ => ([], x)
  | n + 1, cs =>
    let (rest, out) := combs (x - cs.headD 0) n cs.tail
    (x :: rest, out)

/-- A sampled bit as it enters the filters (R261). -/
def pdmBit (inv b : Bool) : W40 := if b != inv then 1 else -1

/-- A CIC of order `n` takes input bits and gives one output after them (R265, R267). -/
def cicRun (n : Nat) (inv : Bool) (c : Cic) (bits : List Bool) : Cic × W40 :=
  let (is, last) := bits.foldl (fun (st : List W40 × W40) b => integrate (pdmBit inv b) n st.1) (c.integ, c.integ.getLastD 0)
  let (cs, out) := combs last n c.comb
  (⟨is, cs⟩, out)

/-- Split the bits of one fine output into those of each CIC output. -/
def chunks {α : Type} (r : Nat) : Nat → List α → List (List α)
  | 0, _ => []
  | n + 1, xs => xs.take r :: chunks r n (xs.drop r)

/-- The exact CIC output normalized by 2^(32 − N × log2 R) (R265). -/
def normalize (n r : Nat) (y : W40) : Int :=
  let e := n * Nat.log2 r
  if e ≤ 32 then y.toInt * (2 ^ (32 - e) : Nat) else divEven y.toInt (2 ^ (e - 32))

/-- A value after GAIN (R265): y × 10^(GAIN / 40), to the whole number below, and whether the exact value lies above that. -/
def gainRun (v : Nat) (y : Int) : Int × Bool :=
  let g := min 48 (F.DEC_MIC_GAIN.of v)
  let p := y.natAbs ^ 40 * 10 ^ g
  let m := rootFloor p 40 128
  let frac := decide (m ^ 40 ≠ p)
  (if 0 ≤ y then (m : Int) else -(m : Int) - (b2n frac : Nat), frac)

/-- The fine path takes the bits of one output: its state and the value after GAIN. -/
def fineRun (v : Nat) (x : MicState) (bits : List Bool) : MicState × Int × Bool :=
  let n := micN v
  let r := micR v
  let inv := F.DEC_MIC_INV.of v = 1
  let st := (chunks r (2 ^ micH v) bits).foldl (fun (st : Cic × List Int) b =>
    let (c, y) := cicRun n inv st.1 b
    (c, normalize n r y :: st.2)) (x.fine, x.hist)
  let hist := st.2.take 512
  ({ x with fine := st.1, hist := hist }, gainRun v (Config.fineFilter n (micH v) hist))

/-- The fast path takes the 16 bits of one output (R270). -/
def fastRun (v : Nat) (x : MicState) (bits : List Bool) : MicState × Int × Bool :=
  let (c, y) := cicRun 3 (F.DEC_MIC_INV.of v = 1) x.fast bits
  ({ x with fast := c }, gainRun v (normalize 3 16 y))

/-- Clip to −2^32 to 2^32 − 1 (R271). -/
def micClip (x : Int) : W40 := BitVec.ofInt 40 (max (-(2 ^ 32 : Int)) (min x (2 ^ 32 - 1)))

/-- The sample of an output whose value after GAIN is `y`: one of its two neighbours, as the free number `r` says, where it is no whole
number (the spec states no rounding, log 16), clipped (R271). -/
def micSample (y : Int × Bool) (r : Nat) : W40 := micClip (if y.2 && r % 2 = 1 then y.1 + 1 else y.1)

/-- The sample of an output goes to `k`. -/
def micRound (y : Int × Bool) (k : W40 → Act) : Act := if y.2 then draw fun r => k (micSample y r) else k (micSample y 0)

/-- A path's sample meets the thresholds (R273) and, by its exact value, the over-range rule (R271). -/
def micTake (i : Nat) (fastPath : Bool) (y : Int × Bool) (w : W40) : Act := .look fun s =>
  let clipped := decide (y.1 < -(2 ^ 32 : Int) ∨ (2 ^ 32 - 1 : Int) < y.1 + (b2n y.2 : Nat))
  let st := micAt s i
  let thr := F.DEC_MIC_THR.live i s
  let judged := F.DEC_MIC_TEN.liveOn i s && (F.DEC_MIC_TPATH.liveOn i s == fastPath)
  let at_ (t : Nat) : Bool := levelOf t ≤ w.toInt.natAbs
  let seen := if fastPath then st.ovrFast else st.ovrFine
  acts [
    onlyIf judged (setMic i fun y => { y with
      hit := y.hit || at_ thr, loud := y.loud || at_ (thr + F.DEC_MIC_HYST.live i s) }),
    onlyIf clipped (acts [
      R.DEC_OVR.set 0 (R.DEC_OVR.val 0 s ||| 2 ^ i),
      setMic i fun y => if fastPath then { y with ovrFast := true } else { y with ovrFine := true },
      onlyIf (!fastPath) (setDec fun d => { d with trim := { d.trim with
        clipped := d.trim.clipped.filter (· ≠ i) ++ [i] } }),
      onlyIf (!seen) (raise .MIC_OVR i (b2n fastPath))])]

/-- A fine output of microphone `i` (R265). -/
def fineOutput (i : Nat) (bits : List Bool) : Act := .look fun s =>
  let v := R.DEC_MIC.liveVal i s
  if micClocked s i && F.DEC_MIC_FINE_EN.liveOn i s && fineOk s i v then
    let (x, y) := fineRun v (micAt s i) bits
    micRound y fun w => .seq
      (setMic i fun _ => { x with fineOut := x.fineOut ++ [w], fineLast := w })
      (micTake i false y w)
  else .done

/-- A fast output of microphone `i`, the latest at node sample `k` of the tick (R270). -/
def fastOutput (i : Nat) (bits : List Bool) (k : Nat) : Act := .look fun s =>
  let v := R.DEC_MIC.liveVal i s
  if micClocked s i && F.DEC_MIC_FAST_EN.liveOn i s then
    let (x, y) := fastRun v (micAt s i) bits
    micRound y fun w => .seq
      (setMic i fun _ => { x with fastOut := smInsert x.fastOut k w })
      (micTake i true y w)
  else .done

/-! ### The edge -/

/-- The fine endpoint's frame of the tick `n` that ends (R269). -/
def fineFrame (s : State) (i n : Nat) : List W40 :=
  let x := micAt s i
  let f := spt s
  if 2 ≤ x.mute || !micClocked s i || !F.DEC_MIC_FINE_EN.liveOn i s || !fineOk s i (R.DEC_MIC.liveVal i s) then zeros f
  else (List.range f).map fun k =>
    if foHalf s then (if (n * f + k) % 2 = 1 && f = 1 then x.fineLast else x.fineOut.getD (k / 2) 0) else x.fineOut.getD k 0

/-- The fast endpoint's frame (R270). -/
def fastFrame (s : State) (i : Nat) : List W40 :=
  let x := micAt s i
  let f := spt s
  if 2 ≤ x.mute || !micClocked s i || !F.DEC_MIC_FAST_EN.liveOn i s then zeros f
  else (List.range f).map fun k =>
    ((x.fastOut.filter fun p => p.1 ≤ k).getLast?.map (·.2)).getD x.fastLast

/-- E0 of an edge: threshold states of the tick that ends (R273). -/
def micThr (i : Nat) : Act := .look fun s =>
  let x := micAt s i
  let above := bitOf (R.DEC_THR.val 0 s) i
  let new := if above then x.loud else x.hit
  if F.DEC_MIC_TEN.liveOn i s && new ≠ above then acts [
    R.DEC_THR.set 0 (putBits (R.DEC_THR.val 0 s) i i (b2n new)),
    R.DEC_THR_CHG.set 0 (R.DEC_THR_CHG.val 0 s ||| 2 ^ i),
    raise .MIC_THR i (b2n new)]
  else .done

/-- After E1: the samples of the tick are done with, and a mute period counts the tick that ends (R264). Its expiry is MUTE_PERIOD_END;
where that has not come, the next edge brings it (log 99). The first edge ends no tick (R641). -/
def micEdge (first : Bool) (i : Nat) : Act := .look fun s =>
  let x := micAt s i
  let last := (x.fastOut.getLast?.map (·.2)).getD x.fastLast
  .seq (setMic i fun x => { x with
      fineOut := [], fastOut := [], fastLast := last, ovrFine := false, ovrFast := false, hit := false, loud := false
      mute := if !first && 2 ≤ x.mute then x.mute - 1 else x.mute })
    (onlyIf (decide (x.mute = 1)) (muteEnd i))

/-! ### The trim governor, R274–R283 -/

/-- A proposal that the governor takes (R275): its element of `DEC_ID_PROP`. -/
def propKey (s : State) (w : W40) : Option Nat :=
  let v := w.toNat
  let c := bitsOf v 39 34
  let b := bitsOf v 33 30
  if F.DEC_ID_CH_EN.on c s && b ≤ F.DEC_ID_CH_BANDS.get c s && bitsOf v 29 20 = 0 then some (16 * c + b) else none

/-- All words of a word queue, at most `n`. -/
def drainWords (q : Nat) : Nat → List W40 → (List W40 → Act) → Act
  | 0, acc, k => k acc
  | n + 1, acc, k => readWord q poolEngine .ECC_UE_POOL fun r => match r with
    | some (w, ok) => .look fun s => if (queueAt s q).broken then k acc else drainWords q n (if ok then acc ++ [w] else acc) k
    | none => k acc

/-- Store the proposals of one element: the one nearest zero; two equally near of opposite signs leave open which (R276). -/
def storeProp (key : Nat) (vs : List Int) : Act :=
  match vs.map (·.natAbs) |>.min? with
  | none => .done
  | some a =>
    let put (x : Int) : Act := F.DEC_ID_PROP_TRIM.set key (ofInt 20 x)
    if a ≠ 0 && vs.contains (a : Int) && vs.contains (-(a : Int)) then
      draw fun r => put (if r % 2 = 0 then (a : Int) else -(a : Int))
    else put (if vs.contains (a : Int) then (a : Int) else -(a : Int))

/-- E3 of every edge: all proposals are taken, at most what a queue can hold, in OFF to be discarded (R274–R276), and a ZERO acts
(R283). -/
def trimTake : Act := .look fun s =>
  let q := F.DEC_ID_CFG_PQUEUE.get 0 s
  let mode := F.DEC_ID_CFG_MODE.get 0 s
  acts [
    onlyIf (isWordQ (queueAt s q) && !(queueAt s q).broken && !wordEmpty (queueAt s q))
      (drainWords q (2 ^ 21) [] fun ws =>
        let good := ws.filterMap fun w => (propKey s w).map fun k => (k, toInt 20 w.toNat)
        .seq (F.DEC_ID_STAT_BADPROP.inc 0 (ws.length - good.length))
          (onlyIf (mode ≠ 0) (forEach (good.map (·.1)).eraseDups fun k =>
            storeProp k ((good.filter fun p => p.1 = k).map (·.2))))),
    .look fun s => onlyIf s.dec.trim.zero (.seq
      (forEach (listed s.regs (R.DEC_ID_PROP.addr 0) 4 1024) fun k => R.DEC_ID_PROP.set k 0)
      (setDec fun d => { d with trim := { d.trim with zero := false } }))]

/-- The new applied trim of a band (R277). -/
def trimMove (p a bound step : Int) : Int :=
  let target := min (max p (-bound)) bound
  if a < target then min target (a + step) else max target (a - step)

/-- The channel is frozen at the update edge (R278). -/
def trimFrozen (s : State) (c : Nat) : Bool :=
  let k := 16 * F.DEC_ID_CH_GAL.get c s + F.DEC_ID_CH_SEL.get c s
  s.dec.trim.clipped.contains (F.DEC_ID_CH_MIC.get c s) || s.dec.trim.enabled.contains c ||
    F.GDMA_SEL_STAT_FADE.on k s || F.GDMA_SEL_STAT_PEND.on k s

/-- A channel at the update edge that begins tick `u`: frozen in any mode (R278), its trims moved in AUTO (R277, R280). The selector is the
one in force at that edge. -/
def trimChannel (c u : Nat) : Act := .look fun s =>
  if trimFrozen s c then R.DEC_ID_FRZ.set 0 (R.DEC_ID_FRZ.val 0 s ||| 2 ^ c)
  else if F.DEC_ID_CFG_MODE.get 0 s ≠ 2 then .done
  else
    let bound : Int := F.DEC_ID_LIMIT_BOUND.get 0 s
    let step : Int := F.DEC_ID_LIMIT_STEP.get 0 s
    let bands := (List.range (F.DEC_ID_CH_BANDS.get c s + 1)).map fun b =>
      let k := 16 * c + b
      let p := toInt 20 (F.DEC_ID_PROP_TRIM.get k s)
      let a := toInt 20 (F.DEC_ID_TRIM_TRIM.get k s)
      (k, p, a, trimMove p a bound step)
    let clamp := bands.any fun t => decide (bound < t.2.1 ∨ t.2.1 < -bound)
    acts [
      onlyIf (clamp && !bitOf (R.DEC_ID_CLAMP.val 0 s) c)
        (.seq (R.DEC_ID_CLAMP.set 0 (R.DEC_ID_CLAMP.val 0 s ||| 2 ^ c)) (raise .ID_BOUND c)),
      forEach bands fun t => onlyIf (decide (t.2.2.1 ≠ t.2.2.2)) (F.DEC_ID_TRIM_TRIM.set t.1 (ofInt 20 t.2.2.2)),
      onlyIf (bands.any fun t => decide (t.2.2.1 ≠ t.2.2.2)) (setDec fun d => { d with trim := { d.trim with
        sel := d.trim.sel ++
          [(16 * F.DEC_ID_CH_GAL.get c s + F.DEC_ID_CH_SEL.get c s, u + F.DEC_ID_TIME_COMP_T.get 0 s - 1)] } })]

/-- The grant words of a channel (R279); nothing takes them where GQUEUE is no enabled word queue (R643). -/
def trimGrant (c : Nat) : Act := .look fun s =>
  onlyIf (isWordQ (queueAt s (F.DEC_ID_CH_GQUEUE.get c s))) <| forEach (List.range (F.DEC_ID_CH_BANDS.get c s + 1)) fun b =>
    appendWord (F.DEC_ID_CH_GQUEUE.get c s) poolEngine
      (BitVec.ofNat 40 (c * 2 ^ 34 + b * 2 ^ 30 + F.DEC_ID_TRIM_TRIM.get (16 * c + b) s))

/-- The update of the update edge in progress (R277–R279). -/
def trimUpdate : Act := .look fun s =>
  let chans := (List.range 64).filter fun c => F.DEC_ID_CH_EN.on c s
  if s.dec.trim.due then acts [
    forEach chans fun c => trimChannel c s.dec.trim.tick,
    forEach chans trimGrant,
    setDec fun d => { d with trim := { d.trim with due := false, clipped := [], enabled := [] } }]
  else .done

/-- Selector writes whose edge has come are made in AUTO mode, and in no other (R274, R280). -/
def trimSelect : Act := .look fun s =>
  let now := s.dec.trim.sel.filter fun p => p.2 ≤ tickNum s
  .seq (setDec fun d => { d with trim := { d.trim with sel := d.trim.sel.filter fun p => tickNum s < p.2 } })
    (onlyIf (F.DEC_ID_CFG_MODE.get 0 s = 2) (forEach now fun p => .look fun s =>
      let k := p.1
      let v := (1 - F.GDMA_SEL_STAT_ACTIVE.get k s) * 2 ^ 31 + F.DEC_ID_CFG_SHAPE.get 0 s * 2 ^ 30 +
        F.DEC_ID_TIME_FADE_T.get 0 s
      write32 (entryOf R.GDMA_SEL) 2 k v))

/-- The edge that begins tick `n`: proposals, then an update edge falls due (R277). -/
def trimEdge (n : Nat) : Act := .seq trimTake (.look fun s =>
  onlyIf (n % F.DEC_ID_TIME_UPD_T.get 0 s = 0) (setDec fun d => { d with trim := { d.trim with due := true, tick := n } }))

/-- A write to `DEC_ID_TIME` (R281). -/
def wrIdTime (m v mask : Nat) : Act := .look fun s =>
  let e := entryOf R.DEC_ID_TIME
  let new := asWritten e 0 m v mask s
  let c := F.DEC_ID_TIME_COMP_T.of new
  let f := F.DEC_ID_TIME_FADE_T.of new
  if F.DEC_ID_TIME_UPD_T.of new < c + 1 + f || c = 0 || f = 0 then dropped m (R.DEC_ID_TIME.addr 0)
  else storeWrite e 0 m v mask (R.DEC_ID_TIME.addr 0)

/-- A write to `DEC_ID_CH`: a channel newly enabled is frozen at the next update edge (R278). -/
def wrIdCh (m c v mask : Nat) : Act := .look fun s =>
  let was := F.DEC_ID_CH_EN.on c s
  .seq (storeWrite (entryOf R.DEC_ID_CH) c m v mask (R.DEC_ID_CH.addr c))
    (.look fun s => onlyIf (!was && F.DEC_ID_CH_EN.on c s) (setDec fun d => { d with trim := { d.trim with
      enabled := d.trim.enabled.filter (· ≠ c) ++ [c] } }))

/-- A ZERO waits for E3 of the next edge (R283). -/
def idZero : Act := setDec fun d => { d with trim := { d.trim with zero := true } }

/-! ### Commands -/

/-- PDM_CLK_WRITE (R260). -/
def execPdmClkWrite (m : Master) (i : Fin 16) (v : Word) (s : State) : Host.Outcome State Fault Refusal :=
  answer (arrive m (R.PDM_CLK.addr i) 0xF v.toNat (wrPdmClk m i v.toNat (fullMask 1))) s

/-- DEC_MIC_WRITE (R266). -/
def execDecMicWrite (m : Master) (i : Fin 64) (v : W64) (s : State) : Host.Outcome State Fault Refusal :=
  answer (arrivePair m (R.DEC_MIC.addr i) v.toNat (wrDecMic m i v.toNat (fullMask 2))) s

/-- MUTE_PERIOD_END (R264): the ticks of the period have passed. -/
def execMutePeriodEnd (i : Fin 64) (s : State) : Host.Outcome State Fault Refusal :=
  answer (onlyIf ((micAt s i).mute = 1) (muteEnd i)) s

/-- FINE_OUTPUT (R265): `bits` are those sampled since the last fine output, oldest first. -/
def execFineOutput (i : Fin 64) (bits : List Bool) (s : State) : Host.Outcome State Fault Refusal :=
  answer (.look fun s => onlyIf s.clk.lockB (fineOutput i bits)) s

/-- FAST_OUTPUT (R270). The clocks stand while PLL_B is out of lock (R465). -/
def execFastOutput (i : Fin 64) (bits : List Bool) (k : Fin 32) (s : State) : Host.Outcome State Fault Refusal :=
  answer (.look fun s => onlyIf s.clk.lockB (fastOutput i bits k)) s

/-- TRIM_UPDATE (R277). -/
def execTrimUpdate (s : State) : Host.Outcome State Fault Refusal := answer trimUpdate s

/-- TRIM_SELECTOR_WRITE (R280). -/
def execTrimSelectorWrite (s : State) : Host.Outcome State Fault Refusal := answer trimSelect s

/-- DEC_ID_ZERO (R283). -/
def execDecIdZero (m : Master) (s : State) : Host.Outcome State Fault Refusal :=
  answer (arrive m (R.DEC_ID_CMD.addr 0) 0xF 1 idZero) s

/-- DEC_ID_TIME_WRITE (R281). -/
def execDecIdTimeWrite (m : Master) (v : Word) (s : State) : Host.Outcome State Fault Refusal :=
  answer (arrive m (R.DEC_ID_TIME.addr 0) 0xF v.toNat (wrIdTime m v.toNat (fullMask 1))) s

end Sys2Proof.Machine
end

