-- ==== Sys2Proof/Machine/Mod.lean ====
section
/-! DEFINITION. Sense points, modulators, load diagnostics and rail commands (10_amplifier_modulators.md). -/

namespace Sys2Proof.Machine

/-! ### Sense points -/

/-- A write to `SENSE_PT` (R318). -/
def wrSensePt (m p v mask : Nat) (tie : Bool := false) : Act := .look fun s =>
  let e := entryOf R.SENSE_PT
  let new := afterWrite e p m v mask s
  let kind := F.SENSE_PT_KIND.of new
  let owner := F.SENSE_PT_OWNER.of new
  let twin := (listed s.regs (R.SENSE_PT.addr 0) 4 128).any fun q =>
    decide (q ≠ p) && F.SENSE_PT_EN.on q s && F.SENSE_PT_KIND.get q s == kind && F.SENSE_PT_OWNER.get q s == owner
  if F.SENSE_PT_EN.of new = 1 && (twin || (kind ≠ 0 && 7 < owner)) then dropped m (R.SENSE_PT.addr p)
  else storeWrite e p m v mask (R.SENSE_PT.addr p) tie

/-- A write to `SENSE_CTRL`: the points of a disabled port read invalid. -/
def wrSenseCtrl (m v mask : Nat) : Act :=
  .seq (storeWrite (entryOf R.SENSE_CTRL) 0 m v mask (R.SENSE_CTRL.addr 0))
    (.look fun s => forEach ((List.range 128).filter fun p =>
        !bitOf (F.SENSE_CTRL_EN.get 0 s) (p / 32) && F.SENSE_VAL_VALID.on p s) fun p => F.SENSE_VAL_VALID.set p 0)

/-- SENSECK and SENSEFS of a port: 16 slots of 32 bits, FS high for one bit period, driven by the owner outside LISTEN and standing without
PLL_B (R315, R465, R485, R589). -/
def sensePins (s : State) : Option PortClk :=
  if !drives s then none
  else some (if s.clk.lockB then ⟨true, false, (List.range 512).map fun j => decide (j = 0)⟩ else ⟨false, false, [false]⟩)

/-- Sense point `p`. -/
def ptAt (s : State) (p : Nat) : SensePt := smGet (fun _ => (⟨0, 0⟩ : SensePt)) s.mods.pts p

/-- Change a sense point. -/
def setPt (p : Nat) (x : SensePt) : Act :=
  setMods fun m => { m with pts := smPut (fun _ => ⟨0, 0⟩) m.pts p x }

/-- A valid code of a point in units of 1/32,768 of its scale's unit (R317). -/
def codeVal (s : State) (p c : Nat) : Int := toInt 16 c * F.SENSE_PT_SCALE.live p s

/-- Point `p` receives a code (R317). -/
def takeCode (p c : Nat) : Act := .look fun s =>
  .seq (F.SENSE_VAL_CODE.set p c)
    (if c = 0x8000 then acts [
      F.SENSE_VAL_VALID.set p 0,
      R.SENSE_BAD.set (p / 32) (R.SENSE_BAD.val (p / 32) s ||| 2 ^ (p % 32)),
      setPt p { ptAt s p with bad := (ptAt s p).bad + 1 }]
    else .seq (F.SENSE_VAL_VALID.set p 1) (setPt p ⟨0, c⟩))

/-- First node sample at or after this moment, by its index in the tick (R319). -/
def nextIdx (s : State) : Nat :=
  let c := cclkMHz s * 1000000
  (s.tick.cycle * fsHz s + c - 1) / c

/-- A code enters source endpoint 0x680 + `k` (R319). While the tick stands it is the latest one before the next grid point. -/
def senseSample (k c : Nat) : Act := .look fun s =>
  let w : W40 := if c = 0x8000 then 0 else fromWord 16 c
  setMods fun m =>
    if running s then { m with
      senseOut := smInsert m.senseOut k (smInsert ((smFind m.senseOut k).getD []) (nextIdx s) w) }
    else { m with senseLast := smInsert m.senseLast k w }

/-- E1: the frames of the SENSE endpoints for the tick that ends (R319). -/
def senseLatch (first : Bool) : Act := .look fun s =>
  let f := spt s
  let last (k : Nat) : W40 := (smFind s.mods.senseLast k).getD 0
  .seq (forEach (List.range 64) fun k =>
      let m := (smFind s.mods.senseOut k).getD []
      onlyIf (!first) (setSource (0x680 + k) ((List.range f).map fun i =>
        ((m.filter fun e => e.1 ≤ i).getLast?.map (·.2)).getD (last k))))
    (setMods fun m => { m with
      senseLast := m.senseOut.foldl (fun acc e => smInsert acc e.1 ((e.2.getLast?.map (·.2)).getD (last e.1))) m.senseLast
      senseOut := [] })

/-! ### Channels and groups -/

/-- Rail group of a channel. -/
def chanGroup (s : State) (c : Nat) : Nat := F.MOD_CH_GROUP.live c s

/-- State code of a channel: 0 OFF, 1 DIAG, 2 WAIT, 3 RAMP, 4 RUN, 5 PARK, 6 STOP, 7 FAULT. -/
def chanSt (s : State) (c : Nat) : Nat := F.MOD_STAT_STATE.get c s

/-- Channels of a group. -/
def groupChans (s : State) (g : Nat) : List Nat := (List.range 64).filter fun c => chanGroup s c = g

/-- A standby takes its channel and rail states from the owner and makes none of its own (R351). -/
def modFollows (s : State) : Bool := isStandby (F.PAIR_STAT_STATE.get 0 s)

/-- NOC; 0 acts as 1. -/
def noc (s : State) : Nat := max 1 (F.MOD_CFG_NOC.get 0 s)

/-- 8 × f_S is in force (R320). -/
def car8 (s : State) : Bool := F.MOD_CFG_CAR.on 0 s || (spt s = 1 && 176400 ≤ fsHz s)

/-- SENSE frame rate in Hz (R315). -/
def senseHz (s : State) : Nat := if F.TICK_CFG_FS.of s.tick.cfg % 2 = 1 then 96000 else 88200

/-- f_C in Hz (R320). -/
def carrierHz (s : State) : Nat := (if car8 s then 8 else 4) * senseHz s

/-- A duration in ms as whole ticks, rounded up (R335). -/
def ticksOf (s : State) (ms : Nat) : Nat := (ms * fsHz s + 1000 * spt s - 1) / (1000 * spt s)

/-- Length of a diagnostic step in ticks (R335). -/
def stepTicks (s : State) : DiagStep → Nat
  | .s | .e => 1
  | .d1 | .d2 => ticksOf s 4
  | .d3 => ticksOf s 10

/-- A channel enters FAULT with a cause (R329). -/
def chanFault (c cause : Nat) : Act :=
  .seq (F.MOD_STAT_STATE.set c 7) (F.MOD_STAT_FCAUSE.set c cause)

/-- The step that a channel runs starts. -/
def stepStart (c : Nat) (st : DiagStep) : Act := .look fun s =>
  setChan c fun m => { m with step := some st, stepLeft := stepTicks s st, meas := [], measBad := false, leakRun := 0 }

/-- A channel begins its diagnostics (R335): BEN rises. -/
def diagStart (c : Nat) : Act :=
  .seq (setChan c fun m => { m with queued := false, ben := true, benAt := none }) (stepStart c .s)

/-- The lowest queued channel of a group. -/
def diagNext (s : State) (g : Nat) : Option Nat :=
  (groupChans s g).find? fun c => chanSt s c = 1 && (chanAt s c).queued

/-- The next queued channel of a group starts, if there is one. -/
def diagGo (g : Nat) : Act := .look fun s =>
  match diagNext s g with
  | some c => diagStart c
  | none => .done

/-- The group's rail is ready for diagnostics (R336). -/
def diagRailOk (s : State) (g : Nat) : Bool :=
  let v : Int := F.RAIL_GV2_VDIAG.live g s
  F.RAIL_STAT_VCMD.get g s == F.RAIL_GV2_VDIAG.live g s &&
    match pointOf 1 g s with
    | some p => F.SENSE_VAL_VALID.on p s &&
        (let x := codeVal s p (F.SENSE_VAL_CODE.get p s)
         decide (9 * 32768 * v ≤ 10 * x) && decide (10 * x ≤ 11 * 32768 * v))
    | none => false

/-- A tick edge: groups start their next channel (R336). -/
def diagGroups : Act := forEach (List.range 8) fun g => .look fun s =>
  let busy := (groupChans s g).any fun c => (chanAt s c).step.isSome
  if busy || (diagNext s g).isNone then .done
  else if (railAt s g).diagWait then
    onlyIf (diagRailOk s g) (.seq (setRail g fun r => { r with diagWait := false }) (diagGo g))
  else diagGo g

/-- First phase, in 1/64 carrier periods, at which channel `c` has run two complete periods that start in cycle `t` or later (R331). -/
def restedAt (s : State) (c t : Nat) : Nat :=
  let ph := F.MOD_CH_PHASE.live c s
  let u := (t * (carrierHz s * 64) + cclkMHz s * 1000000 - 1) / (cclkMHz s * 1000000)
  64 * ((u + 63 - ph) / 64 + 2) + ph

/-- Channel `c` has left DIAG and has run two complete carrier periods at 50% with BEN low at the edge that begins tick `n` (R331). -/
def rested (s : State) (c n : Nat) : Bool :=
  chanSt s c ≠ 1 && !(chanAt s c).ben &&
    decide (restedAt s c (chanAt s c).lowAt * (cclkMHz s * 1000000) ≤ (edgePos n s + 1) * (carrierHz s * 64))

/-- A step fails (R337, R338). -/
def diagFail (c code : Nat) : Act := .look fun s => acts [
  F.MOD_STAT_DIAG.set c code,
  chanFault c (if F.MOD_STAT_FCAUSE.get c s = 1 then 1 else 3),
  setChan c fun m => { m with step := none, queued := false, benFall := m.ben, meas := [] },
  raise .MOD_DIAG_FAIL c code]

/-- Sum of the measured values and their number. -/
def measSum (m : ModChan) : Int × Nat := (m.meas.foldl (· + ·) 0, m.meas.length)

/-- Result of a leakage step (R335): none when it passes. A window without a value gives SENSE_BAD (DESIGN CHOICE, log 20). -/
def judgeLeak (s : State) (c code : Nat) : Option Nat :=
  let m := chanAt s c
  let (sum, n) := measSum m
  if m.measBad || n = 0 then some 7
  else if (F.MOD_DIAG_ILEAK.get 0 s : Int) * 32768 * n < 10 * sum then some code
  else none

/-- Result of D3 (R335): R_load = VTEST / I in 1/16 Ω is 8 × VTEST / I for VTEST in 5 mV and I in 10 mA. -/
def judgeLoad (s : State) (c : Nat) : Option Nat :=
  let m := chanAt s c
  let (sum, n) := measSum m
  let v : Int := 8 * 32768 * F.MOD_DIAG_VTEST.get 0 s * n
  if m.measBad || n = 0 then some 7
  else if sum = 0 || (0 < sum && F.MOD_DIAG_ROPEN.get 0 s * sum < v) then some 4
  else if sum < 0 || v < F.MOD_DIAG_RSHORT.get 0 s * sum then some 5
  else none

/-- A diagnostic step ends once its ticks have passed, after the edge that ends the last (R335). -/
def diagStepEnd (c : Nat) : Act := .look fun s =>
  let m := chanAt s c
  let next (r : Option Nat) (st : DiagStep) : Act := match r with
    | some code => diagFail c code
    | none => stepStart c st
  if chanSt s c ≠ 1 || modFollows s || m.stepLeft ≠ 0 then .done
  else match m.step with
    | none => .done
    | some .s => stepStart c .d1
    | some .d1 => next (judgeLeak s c 2) .d2
    | some .d2 => next (judgeLeak s c 3) .d3
    | some .d3 => next (judgeLoad s c) .e
    | some .e => acts [
        F.MOD_STAT_DIAG.set c 1,
        F.MOD_STAT_STATE.set c 2,
        setChan c fun m => { m with step := none, ben := false, lowAt := edgePos (tickNum s) s },
        diagGo (chanGroup s c)]

/-- The diagnostic rail of a group was not ready in time (R336). -/
def diagTimeout (g : Nat) : Act := .look fun s =>
  onlyIf ((railAt s g).diagWait && !modFollows s && passed (railAt s g).diagAt (msCycles 50 s) s)
    (.seq (setRail g fun r => { r with diagWait := false })
      (forEach ((groupChans s g).filter fun c => chanSt s c = 1 && (chanAt s c).queued) fun c => diagFail c 6))

/-! ### Protection -/

/-- The code of an overcurrent in a step (R337). -/
def ocCode : DiagStep → Nat
  | .d1 => 2 | .d2 => 3 | _ => 5

/-- An overcurrent (R337, R346). -/
def modOc (c : Nat) : Act := .look fun s =>
  let m := chanAt s c
  let diag := chanSt s c = 1
  acts [
    chanFault c 1,
    R.MOD_OCST.set 0 (R.MOD_OCST.val 0 s ||| 2 ^ c),
    (match m.step with
     | some st =>
       if diag then .seq (F.MOD_STAT_DIAG.set c (ocCode st))
         (raiseAll [⟨.MOD_OC, c, 0, 0, 0⟩, ⟨.MOD_DIAG_FAIL, c, ocCode st, 0, 0⟩])
       else raise .MOD_OC c
     | none => raise .MOD_OC c),
    chanDisable c (8 * (64 * s.elapsed + c) + 2)]

/-- Sense loss of channels by point `p`; they are disabled as one set (R347). A channel with an invalid value in a measuring window shows
SENSE_BAD for it (R337), with the cause of R347 (DESIGN CHOICE, log 20). -/
def modLost (cs : List Nat) (p : Nat) : Act := .look fun s =>
  forEach cs fun c => .look fun r => acts [
    chanFault c 2,
    (if chanSt r c = 1 && (chanAt r c).measBad then .seq (F.MOD_STAT_DIAG.set c 7)
       (raiseAll [⟨.MOD_SENSE_LOST, c, p, 0, 0⟩, ⟨.MOD_DIAG_FAIL, c, 7, 0, 0⟩])
     else raise .MOD_SENSE_LOST c p),
    chanDisable c (8 * (128 * s.elapsed + p) + 3)]

/-- A channel is active: not in OFF or FAULT. -/
def chanActive (s : State) (c : Nat) : Bool := chanSt s c ≠ 0 && chanSt s c ≠ 7

/-- The running step is in its measuring window (R335): the second half of D1 and D2; 5 ms to 9 ms of D3. -/
def inWindow (s : State) (m : ModChan) : Bool :=
  match m.step with
  | some .d1 => 2 * m.stepLeft ≤ stepTicks s .d1
  | some .d2 => 2 * m.stepLeft ≤ stepTicks s .d2
  | some .d3 =>
    let t := ((stepTicks s .d3 - m.stepLeft) * spt s + sampleIdx s) * 1000
    5 * fsHz s ≤ t && t < 9 * fsHz s
  | _ => false

/-- A value falls into the measuring window of the running step of channel `c`, or an invalid one does (R335, R337). -/
def measure (c : Nat) (valid : Bool) (v : Int) : Act := .look fun s =>
  onlyIf (inWindow s (chanAt s c))
    (setChan c fun m => if valid then { m with meas := m.meas ++ [v] } else { m with measBad := true })

/-- A new value of the current point `p` of channel `c` (R335, R346, R347). A standby measures for the case that it becomes the owner, and
judges nothing (R351). -/
def curTaken (c p : Nat) : Act := .look fun s =>
  let valid := F.SENSE_VAL_VALID.on p s
  let v := codeVal s p (F.SENSE_VAL_CODE.get p s)
  let m := chanAt s c
  let taken : Act := onlyIf (decide (m.step = some .d3)) (measure c valid v)
  if !chanActive s c then .done
  else if modFollows s then taken
  else
    let oc := if curAbove c s then m.ocRun + 1 else 0
    let bad := if valid then 0 else m.badRun + 1
    acts [
      setChan c fun m => { m with ocRun := oc, badRun := bad },
      taken,
      if noc s ≤ oc then modOc c else onlyIf (noc s ≤ bad) (modLost [c] p)]

/-- A new value of the supply current point `p` of group `g` (R335, R337). -/
def irailTaken (g p : Nat) : Act := .look fun s =>
  forEach ((groupChans s g).filter fun c => chanSt s c = 1) fun c => .look fun s =>
    let m := chanAt s c
    let leak := decide (m.step = some .d1) || decide (m.step = some .d2)
    let valid := F.SENSE_VAL_VALID.on p s
    let v := codeVal s p (F.SENSE_VAL_CODE.get p s)
    let run := if valid && decide ((16 * F.MOD_DIAG_ILEAK.get 0 s : Int) * 32768 < 10 * v) then m.leakRun + 1 else 0
    onlyIf leak (acts [
      setChan c fun m => { m with leakRun := run },
      measure c valid v,
      onlyIf (noc s ≤ run && !modFollows s) (diagFail c (if m.step = some .d1 then 2 else 3))])

/-- A new value of the rail voltage point `p` of group `g` (R324, R343, R347). A value that is no whole number of 5 mV has no
stated rounding in `MEAS`. -/
def vrailTaken (g p : Nat) : Act := .look fun s =>
  let valid := F.SENSE_VAL_VALID.on p s
  let v := codeVal s p (F.SENSE_VAL_CODE.get p s)
  let low := if railLow g s && F.RAIL_STAT_DONE.on g s then (railAt s g).low + 1 else 0
  acts [
    onlyIf valid (if v % 32768 = 0 then F.RAIL_STAT_MEAS.set g (ofInt 16 (v / 32768))
      else draw fun r => F.RAIL_STAT_MEAS.set g (ofInt 16 (v / 32768 + r % 2))),
    setRail g fun r => { r with low := low, lowRaised := r.lowRaised && (railLow g s || !valid) },
    .look fun s => onlyIf (16 ≤ low && !(railAt s g).lowRaised)
      (.seq (setRail g fun r => { r with lowRaised := true }) (raise .RAIL_LOW g)),
    onlyIf (16 < (ptAt s p).bad && !modFollows s)
      (modLost ((groupChans s g).filter fun c => chanActive s c) p)]

/-- A SENSE frame of port `k` has been received (R316, R317). The points of a disabled port have no code and read invalid, frame by
frame. -/
def senseFrame (k : Nat) (ws : List Word) : Act := .look fun s =>
  let on := bitOf (F.SENSE_CTRL_EN.get 0 s) k
  forEach (List.range 32) fun i =>
    let p := 32 * k + i
    let w := (ws.getD (i / 2) 0).toNat
    let c := if !on then 0x8000 else if i % 2 = 0 then w / 65536 else w % 65536
    .seq (.seq (if on then takeCode p c else .look fun s => setPt p { ptAt s p with bad := (ptAt s p).bad + 1 })
        (onlyIf (i % 2 = 0) (senseSample (16 * k + i / 2) c)))
      (.look fun s =>
        let o := F.SENSE_PT_OWNER.live p s
        onlyIf (F.SENSE_PT_EN.liveOn p s) (match F.SENSE_PT_KIND.live p s with
          | 0 => curTaken o p
          | 1 => onlyIf (decide (o < 8)) (vrailTaken o p)
          | _ => irailTaken o p))

/-! ### Rail targets -/

/-- The row of R340 that applies to group `g`: 1 AUTO, 2 HOST, 3 PARK, 4 DIAG, 5 SAFE. A channel that wakes keeps its group in
PARK until the edge (R345). -/
def railRow (s : State) (g : Nat) : Nat :=
  let cs := groupChans s g
  if inSafe s then 5
  else if cs.any fun c => chanSt s c = 1 then 4
  else if cs.all fun c => chanSt s c = 0 || chanSt s c = 5 || chanSt s c = 7 || (chanAt s c).benRise then 3
  else if F.RAIL_GCFG_MODE.liveOn g s then 2
  else 1

/-- Largest magnitude of the lead bus samples that match output samples t to t + LOOK (R341, R252). -/
def leadPeak (s : State) (g : Nat) : Nat :=
  let from_ := 2 * spt s - 1 - sampleIdx s
  let look := min 64 (F.RAIL_GCFG_LOOK.live g s)
  let lead := (smFind s.mods.leads (F.RAIL_GCFG_LEADBUS.live g s)).getD []
  ((lead.drop from_).take (look + 1)).foldl (fun a w => max a w.toInt.natAbs) 0

/-- The AUTO target (R341). Where it is no whole unit the spec states no rounding. -/
def autoTarget (s : State) (g : Nat) : Nat :=
  let x := F.RAIL_GV_KV.live g s * leadPeak s g
  let t := F.RAIL_GV_VOFS.live g s + x / 2 ^ 32 + (if x % 2 ^ 32 = 0 then 0 else Config.railRound x % 2)
  min (F.RAIL_GV_VCEIL.live g s) (max (F.RAIL_GV_VFLOOR.live g s) t)

/-- The two state bits of a rail frame (R339). -/
def railBits (row : Nat) : Nat := match row with | 3 => 1 | 4 => 2 | 5 => 3 | _ => 0

/-- The target of group `g` by the row that applies (R340). -/
def railTarget (s : State) (g row : Nat) : Nat := match row with
  | 5 => F.RAIL_GV2_VSAFE.live g s
  | 4 => F.RAIL_GV2_VDIAG.live g s
  | 3 => F.RAIL_GV2_VPARK.live g s
  | 2 => F.RAIL_GV2_VSET.live g s
  | _ => autoTarget s g

/-- A group shows the target of a row, and whether VCMD equals it (R342). -/
def railShow (g row : Nat) : Act := .look fun s =>
  let t := railTarget s g row
  onlyIf (F.RAIL_GCFG_EN.liveOn g s && !modFollows s && F.RAIL_STAT_STATE.get g s ≠ 0)
    (.seq (F.RAIL_STAT_TARGET.set g t) (F.RAIL_STAT_DONE.set g (b2n (F.RAIL_STAT_VCMD.get g s = t))))

/-- After E2 a group shows its target in force; a standby shows its owner's (R351). An AUTO target is that of a carrier period. -/
def railAim (g : Nat) : Act := .look fun s => onlyIf (decide (railRow s g ≠ 1)) (railShow g (railRow s g))

/-- A carrier period of a channel of group `g` gives an AUTO target (R341). -/
def railAuto (g : Nat) : Act := .look fun s => onlyIf (decide (railRow s g = 1)) (railShow g 1)

/-! ### Carrier periods -/

/-- Number of the carrier period of a channel with PHASE `ph` that begins in this cycle: the last whose start does not lie behind the
cycle (R18, R321). -/
def periodNum (s : State) (ph : Nat) : Nat :=
  (((s.now + 1) * (carrierHz s * 64) - 1) / (cclkMHz s * 1000000) - ph) / 64

/-- Steps in carrier period `q` (R18, R321). -/
def periodSteps (s : State) (q : Nat) : Nat :=
  let fc := carrierHz s
  let cclk := cclkMHz s * 1000000
  (q + 1) * 32 * cclk / fc - q * 32 * cclk / fc

/-- Rail voltage V of a channel in units of 5 mV / 32,768 (R324). A channel without an enabled VRAIL point has no stated V;
`r` is free. -/
def railVolts (s : State) (c r : Nat) : Nat :=
  match pointOf 1 (chanGroup s c) s with
  | some p => max (200 * 32768) (toInt 16 (ptAt s p).last * F.SENSE_PT_SCALE.live p s).toNat
  | none => 200 * 32768 + r

/-- Level of the D3 test drive as a fraction of VTEST: it rises over the first ms and falls over the last ms of the step (R335). -/
def d3Level (s : State) (m : ModChan) : Nat × Nat :=
  let fs := fsHz s
  let t := ((stepTicks s .d3 - m.stepLeft) * spt s + sampleIdx s) * 1000
  let fall := stepTicks s .d3 * spt s * 1000 - t
  (min fs (min t fall), fs)

/-- The exact modulation index of the carrier period that channel `c` begins, before the clip of R325; `r` stands for a value
the spec leaves open. -/
def modIndex (s : State) (c r : Nat) : Int × Nat :=
  let m := chanAt s c
  let v := railVolts s c r
  let x : Int := if running s then ((destShown s (0x600 + c)).getD (sampleIdx s) 0).toInt else (r % 2 ^ 33 : Nat) - 2 ^ 32
  let test (num den : Nat) : Int × Nat := ((F.MOD_DIAG_VTEST.get 0 s * 32768 * num : Nat), v * den)
  if m.dis ≠ 0 || m.zero then (0, 1)
  else match chanSt s c with
    | 1 => if m.step = some .d3 then test (d3Level s m).1 (d3Level s m).2 else (0, 1)
    | 3 | 4 | 5 => (m.gNum * x * (F.MOD_CH_VFS.live c s * 32768 : Nat), m.gDen * 2 ^ 32 * v)
    | 6 =>
      if m.step = some .d3 then
        let gone := (ticksOf s 1 - m.stepLeft) * spt s + sampleIdx s
        test (m.gNum * (fsHz s - 1000 * gone)) (m.gDen * fsHz s)
      else (m.gNum * x * (F.MOD_CH_VFS.live c s * 32768 : Nat), m.gDen * 2 ^ 32 * v)
    | _ => (0, 1)

/-- Cycle of reference edge `q` (R321). -/
def refPos (s : State) (q : Nat) : Nat := q * (cclkMHz s * 1000000) / carrierHz s

/-- The first reference edge that does not lie before this cycle. -/
def refNext (s : State) : Nat :=
  let q := s.now * carrierHz s / (cclkMHz s * 1000000)
  if s.now ≤ refPos s q then q else q + 1

/-- BEN falls on the reference edges that have come (R328). -/
def refEdges : Act := .look fun s =>
  forEach ((s.mods.chans.filter fun e => match e.2.benAt with | some q => decide (refPos s q ≤ s.now) | none => false).map (·.1)) fun c =>
    setChan c fun m => { m with benAt := none, ben := false, lowAt := s.now }

/-- Channels disabled in one set lose BEN together, once each has completed a period at m = 0, on the reference edge that follows
(R328). -/
def disableEnd (id : Nat) : Act := .look fun s =>
  let cs := (s.mods.chans.filter fun e => e.2.dis = id).map (·.1)
  onlyIf (cs.all fun c => 2 ≤ (chanAt s c).disPer) (.seq
    (forEach cs fun c => setChan c fun m => { m with dis := 0, disPer := 0, zero := true, benAt := some (refNext s) })
    refEdges)

/-- A pulse edge quantized to a whole step of a period of `p`, with its history after it (R326). What the shaper feeds back keeps the edge
within 16 steps of its exact place (DESIGN CHOICE, log 78). `exact` is in 2^−16 step. -/
def shapeEdge (p : Nat) (errs : List Int) (exact : Int) : Nat × List Int :=
  let want := exact + max (-983040) (min (Config.shaperFeedback errs) 983040)
  let y := max 0 (min ((want + 32768) / 65536) p)
  (y.toNat, ((y * 65536 - exact) :: errs).take 5)

/-- The pulse of width `num` / `den` of a period of `p` steps, centered in it (R323): its two edges, which are the shaped edges `k` and
`k` + 1 of the channel, and the histories after it. -/
def shapedPulse (p k : Nat) (errs : SMap (List Int)) (num : Int) (den : Nat) : (Nat × Nat) × SMap (List Int) :=
  let edge (j : Nat) (n : Int) := shapeEdge p ((smFind errs j).getD []) (p * n * 65536 / (2 * den : Nat))
  let a := edge k (den - num)
  let b := edge (k + 1) (den + num)
  ((a.1, b.1 - a.1), smInsert (smInsert errs k a.2) (k + 1) b.2)

/-- A carrier period of channel `c` starts (R323, R325, R328): MODA is high for (1 + m) / 2 of it and MODB for (1 − m) / 2. -/
def carrierPeriod (c : Nat) : Act := .seq refEdges <| .look fun s =>
  let m := chanAt s c
  let ph := F.MOD_CH_PHASE.live c s
  let p := periodSteps s (periodNum s ph)
  let put (num : Int) (den : Nat) (a b : Nat × Nat) (errs : SMap (List Int)) : Act := setChan c fun m => { m with
    mNum := num, mDen := den, pa := a.1, pb := b.1, wa := a.2, wb := b.2, errs := errs, drv := drives s }
  let half := ((p + 2) / 4, p / 2)
  let rest : Act := put 0 1 half half m.errs
  let both (num den : Nat) : Act :=
    let x := shapedPulse p 0 m.errs num den
    put 0 1 x.1 x.1 x.2
  let drive : Act := draw fun r => .look fun s =>
    let (num, den) := modIndex s c r
    let mmax := F.MOD_CFG_MMAX.get 0 s
    let clip := decide (mmax * den < num.natAbs * 65536)
    let n := if clip then (if num < 0 then -(mmax : Int) else mmax) else num
    let d := if clip then 65536 else den
    let x := shapedPulse p 0 m.errs (d + n) (2 * d)
    let y := shapedPulse p 2 x.2 (d - n) (2 * d)
    acts [
      onlyIf clip (acts [
        R.MOD_CLIPST.set 0 (R.MOD_CLIPST.val 0 s ||| 2 ^ c),
        onlyIf (!m.clipTick) (.seq (setChan c fun m => { m with clipTick := true }) (raise .MOD_CLIP c))]),
      if n = 0 then rest else put n d x.1 y.1 y.2]
  acts [
    (match chanSt s c with
     | 0 => if m.ben || m.lowIn ≠ 0 then
         .seq rest (setChan c fun m => { m with lowIn := if m.ben then m.lowIn else m.lowIn - 1 })
       else put 0 1 (0, 0) (0, 0) m.errs
     | 1 => (match m.step with
       | some .d1 => both 9 10
       | some .d2 => both 1 10
       | _ => drive)
     | _ => drive),
    onlyIf (m.dis ≠ 0) (.seq (setChan c fun m => { m with disPer := m.disPer + 1 }) (disableEnd m.dis)),
    railAuto (chanGroup s c)]

/-- The MODA, MODB and BEN pins of channel `c`, the pulses by rising edge and width: at high impedance on a chip that does not own its
outputs (R351, R485) and in LISTEN (R589). -/
def modPins (s : State) (c : Nat) : Option ((Nat × Nat) × (Nat × Nat) × Bool) :=
  let m := chanAt s c
  if drives s then some ((m.pa, m.wa), (m.pb, m.wb), m.ben) else none

/-! ### Gains -/

/-- The gains of the modulators move toward 0: node mute, or NODE_FAULT (R332, R529). -/
def modMuted (s : State) : Bool := nodeMute s || s.sump.zeroHold || s.sump.fallPend

/-- The ramp gain of channel `c` moves by one node sample (R332, R333). -/
def modGain (c : Nat) : Act := .look fun s =>
  let m := chanAt s c
  let st := chanSt s c
  let up := F.MOD_RAMP_URAMP.live 0 s + 1
  let down := F.MOD_RAMP_DRAMP.live 0 s + 1
  let move (rise : Bool) : Nat × Nat := gainStep m.gNum m.gDen rise up down
  let put (g : Nat × Nat) : Act := setChan c fun m => { m with gNum := g.1, gDen := g.2 }
  if st = 3 then
    (if m.holdG then .done
     else
      let g := move (!modMuted s)
      .seq (put g) (onlyIf (g.1 = g.2 && !modFollows s) (F.MOD_STAT_STATE.set c 4)))
  else if st = 4 then put (move (!modMuted s))
  else if st = 6 && m.step.isNone then
    let g := move false
    .seq (put g) (onlyIf (g.1 = 0 && !modFollows s) (.seq (F.MOD_STAT_STATE.set c 0)
      (chanDisable c (8 * ((m.stopId * 2 ^ 64 + tickNum s) * 16 + sampleIdx s) + 4))))
  else .done

/-! ### Start and stop -/

/-- Sense is present for a start of channel `c` (R330). -/
def sensePresent (s : State) (c : Nat) : Bool :=
  let g := chanGroup s c
  (pointOf 0 c s).isSome && (pointOf 1 g s).isSome && (!F.MOD_CH_DIAG_EN.liveOn c s || (pointOf 2 g s).isSome)

/-- The group of a channel is free (R330). -/
def groupFree (s : State) (g : Nat) : Bool := (groupChans s g).all fun c => chanSt s c < 3 || chanSt s c = 7

/-- A start takes channel `c` out of OFF, or skips it (R329): `id` numbers the start. -/
def modStartOne (c id : Nat) : Act := .look fun s =>
  let g := chanGroup s c
  let skip (code : Nat) : Act := .seq (F.MOD_STAT_DIAG.set c code) (raise .MOD_START_SKIP c code)
  if chanSt s c ≠ 0 then .done
  else if !F.MOD_CH_DIAG_EN.liveOn c s && sensePresent s c then acts [
    F.MOD_STAT_DIAG.set c 0xB,
    F.MOD_STAT_STATE.set c 2,
    setChan c fun m => { modReset with
      ben := m.ben, dis := m.dis, disPer := m.disPer, benAt := m.benAt, errs := m.errs, startId := id, lowAt := s.now }]
  else if !groupFree s g then skip 9
  else if !sensePresent s c then skip 0xA
  else acts [
    onlyIf (!((groupChans s g).any fun k => chanSt s k = 1)) (setRail g fun r => { r with diagWait := true, diagAt := s.elapsed }),
    F.MOD_STAT_STATE.set c 1,
    setChan c fun m => { modReset with
      ben := m.ben, dis := m.dis, disPer := m.disPer, benAt := m.benAt, errs := m.errs, startId := id, lowAt := s.now, queued := true }]

/-- A stop of channel `c` (R329, R333, R350). -/
def modStopOne (c id : Nat) : Act := .look fun s =>
  let m := chanAt s c
  let st := chanSt s c
  let abort : Act := F.MOD_STAT_DIAG.set c 8
  let stop (f : ModChan → ModChan) : Act :=
    .seq (F.MOD_STAT_STATE.set c 6) (setChan c fun m => f { m with stopId := id, queued := false, benRise := false, zeroDue := false })
  if st = 1 then
    .seq abort (if m.step = some .d3 then
        stop fun m => { m with gNum := (d3Level s m).1, gDen := (d3Level s m).2, stepLeft := ticksOf s 1 }
      else stop fun m => { m with step := none })
  else if st = 2 then .seq (onlyIf (decide (F.MOD_STAT_DIAG.get c s ≠ 1)) abort) (stop id_)
  else onlyIf (st = 3 || st = 4 || st = 5) (stop id_)
where
  /-- a channel that keeps what it holds -/
  id_ (m : ModChan) : ModChan := m

/-- Committed masks act together (R330, R350). A channel that a start and a stop of one E2 name stays in OFF; no channel starts in the
safe state (R348). -/
def masksAct (due : List ModMask) : Act := .look fun s =>
  let stops := (due.filter (·.stop)).foldl (fun a m => a ||| m.mask) 0
  let id := s.mods.starts
  .seq (setMods fun m => { m with starts := m.starts + due.length })
    (onlyIf (!modFollows s) (forEach (due.zipIdx 1) fun e =>
      forEach ((List.range 64).filter fun c => bitOf e.1.mask c) fun c =>
        if e.1.stop then modStopOne c (id + e.2)
        else onlyIf (!bitOf stops c && !inSafe s) (modStartOne c (id + e.2))))

/-- One mask is applied while no edge occurs (R28). -/
def maskApply (x : ModMask) : Act :=
  .seq (setMods fun m => { m with masks := m.masks.filter fun e => e.seq ≠ x.seq }) (masksAct [x])

/-- E2 of an edge: the masks due act. -/
def modApply : Act := .look fun s =>
  let (late, due) := s.mods.masks.partition (·.late)
  if s.mods.masks.isEmpty then .done
  else .seq (setMods fun m => { m with masks := late.map fun e => { e with late := false } }) (masksAct due)

/-- A committed mask of `MOD_START` or `MOD_STOP` waits for its edge (R27, R330). -/
def modMask (stop : Bool) (mask : Nat) : Act := .look fun s =>
  setMods fun m => { m with masks := m.masks ++ [⟨stop, mask, inEdgeCycle s, nextSeq s⟩] }

/-- The fault cause of channel `c` is still present (R349). -/
def causePresent (s : State) (c : Nat) : Bool :=
  let lost (p : Option Nat) : Bool := match p with
    | some p => !F.SENSE_VAL_VALID.on p s
    | none => false
  match F.MOD_STAT_FCAUSE.get c s with
  | 1 => curAbove c s
  | 2 => lost (pointOf 0 c s) || lost (pointOf 1 (chanGroup s c) s)
  | _ => false

/-- A committed mask of `MOD_FCLR` (R329, R349): a bit whose cause is present is dropped. A channel of a standby leaves FAULT with the
owner's alone (R351). -/
def wrModFclr (m mask : Nat) : Act := .look fun s =>
  let named := (List.range 64).filter fun c => bitOf mask c && chanSt s c = 7 && !modFollows s
  .seq (forEach (named.filter fun c => !causePresent s c) fun c => acts [
      F.MOD_STAT_STATE.set c 0, F.MOD_STAT_FCAUSE.set c 0, setChan c fun m => { m with lowIn := 0 }])
    (onlyIf (named.any fun c => causePresent s c) (dropped m (R.MOD_FCLR.addr 0 + 4)))

/-- A write to `MOD_CH` (R334). -/
def wrModCh (m c v mask : Nat) (tie : Bool := false) : Act := .look fun s =>
  let e := entryOf R.MOD_CH
  let new := afterWrite e c m v mask s
  if (F.MOD_CH_GROUP.of new ≠ F.MOD_CH_GROUP.get c s || F.MOD_CH_PHASE.of new ≠ F.MOD_CH_PHASE.get c s) && chanActive s c then
    dropped m (R.MOD_CH.addr c + 4)
  else storeWrite e c m v mask (R.MOD_CH.addr c + 4) tie

/-! ### The edge -/

/-- A start whose channels have all left DIAG, also those that failed or were stopped, and have rested, is released at the edge that begins tick `n`
(R331). -/
def modRelease (n : Nat) : Act := .look fun s =>
  let cs := s.mods.chans.map (·.1)
  let blocked (id : Nat) : Bool := cs.any fun c => (chanAt s c).startId = id && !rested s c n
  forEach (cs.filter fun c => chanSt s c = 2 && !blocked (chanAt s c).startId) fun c =>
    .seq (F.MOD_STAT_STATE.set c 3)
      (setChan c fun m => { m with ben := true, dis := 0, disPer := 0, benAt := none, gNum := 0, gDen := 1, holdG := true })

/-- The edge that begins tick `n`, before its frames are judged: what waited for it happens (R332, R336, R337, R344, R345,
R350). -/
def modEdge (n : Nat) : Act := .seq refEdges <| .look fun s =>
  .seq (forEach (s.mods.chans.map (·.1)) fun c => .look fun s =>
      let m := chanAt s c
      let m1 := { m with
        clipTick := false, holdG := false, benFall := false, benRise := false, zeroDue := false
        ben := (m.ben && !m.benFall) || m.benRise
        zero := (m.zero || m.zeroDue) && !m.benRise
        lowAt := if m.benFall then edgePos n s else m.lowAt
        benAt := if m.benRise then none else m.benAt
        dis := if m.zeroDue then 8 * n + 5 else m.dis
        disPer := if m.zeroDue then 0 else m.disPer
        stepLeft := m.stepLeft - 1 }
      if chanSt s c = 6 && m.step.isSome && m.stepLeft ≤ 1 then
        .seq (F.MOD_STAT_STATE.set c 0) (setChan c fun m => { modReset with
          startId := m.startId, errs := m.errs, lowAt := edgePos n s, lowIn := 2 })
      else setChan c fun _ => m1)
    (onlyIf (!modFollows s) (.seq diagGroups (modRelease n)))

/-- E0, after the detectors have judged: channels park and wake (R344, R345, R350). -/
def modSilence : Act := .look fun s =>
  onlyIf (!modFollows s) (forEach (s.mods.chans.map (·.1)) fun c => .look fun s =>
    let silent := (smGet (fun _ => (⟨false, 0⟩ : SilState)) s.route.sil (F.MOD_CH_SILDET.live c s)).silent
    if chanSt s c = 4 && F.MOD_CH_SILEN.liveOn c s && silent then
      .seq (F.MOD_STAT_STATE.set c 5) (setChan c fun m => { m with zeroDue := true })
    else if chanSt s c = 5 && !silent then
      .seq (F.MOD_STAT_STATE.set c 4) (setChan c fun m => { m with
        benRise := true, zero := m.zero || m.zeroDue, zeroDue := false, dis := 0, disPer := 0 })
    else .done)

/-- E0: the samples of the buses are kept for the rail units, whichever bus leads (R341). -/
def railLead (n : Nat) : Act := .look fun s =>
  let on := (listed s.regs (R.ROUTE_BUS.addr 0) 4 2048).filter fun b => F.ROUTE_BUS_VALID.on b s
  let put (m : SMap (List W40)) (b : Nat) : SMap (List W40) :=
    putFrame m b (((busFrame s b n).reverse ++ (smFind m b).getD []).take 128)
  setMods fun m => { m with leads := (on ++ m.leads.map (·.1)).eraseDups.foldl put m.leads }

/-- E0: modulator frames that clip (R203), clipped to full scale. -/
def modClip (c : Nat) : Act := .look fun s =>
  let hi : Int := 2 ^ 32 - 1
  let lo : Int := -(2 ^ 32)
  let xs := destFrame s (0x600 + c)
  onlyIf (xs.any fun w => decide (hi < w.toInt) || decide (w.toInt < lo))
    (.seq (oclip (0x600 + c)) (setTick fun t => { t with
      dests := putFrame t.dests (0x600 + c) (xs.map fun w => BitVec.ofInt 40 (max lo (min w.toInt hi))) }))

/-! ### Rail commands -/

/-- A rail command frame of group `g` (R339, R340, R342). A standby computes none: its frame shows the rail state of the owner (R351). -/
def railcmdFrame (g : Nat) : Act := .look fun s =>
  if !F.RAIL_GCFG_EN.liveOn g s then .done
  else if modFollows s && !inSafe s then railSend g (railBits (F.RAIL_STAT_STATE.get g s)) (F.RAIL_STAT_VCMD.get g s)
  else
    let row := railRow s g
    let target := railTarget s g row
    let v := F.RAIL_STAT_VCMD.get g s
    let up := max 1 (F.RAIL_GCFG_RISE.live g s)
    let down := max 1 (F.RAIL_GCFG_FALL.live g s)
    let new := if row = 5 then target else if v < target then min target (v + up) else max target (v - down)
    acts [
      F.RAIL_STAT_STATE.set g row,
      F.RAIL_STAT_TARGET.set g target,
      F.RAIL_STAT_VCMD.set g new,
      F.RAIL_STAT_DONE.set g (b2n (new = target)),
      railSend g (railBits row) new]

/-- The levels on RAILCMD from the start of the frame last sent, in half bit times, high before and after it (R339); at high impedance on a
chip that does not own its outputs (R351) and in LISTEN (R589). -/
def railPin (s : State) (g : Nat) : Option (List Bool) := if drives s then some (railAt s g).line else none

/-- `RAIL_GCFG` of group `g` is applied: a disabled group sends nothing. -/
def railApplied (g : Nat) : Act := .look fun s =>
  onlyIf (!F.RAIL_GCFG_EN.liveOn g s) (.seq (F.RAIL_STAT_STATE.set g 0) (setRail g fun r => { r with low := 0, lowRaised := false }))

/-! ### Commands -/

/-- SENSE_FRAME (R317): the 16 slots of 32 bits. -/
def execSenseFrame (k : Fin 4) (ws : List Word) (s : State) : Host.Outcome State Fault Refusal := 
  answer (.look fun s => onlyIf s.clk.lockB (senseFrame k ws)) s

/-- SENSE_PT_WRITE (R318). -/
def execSensePtWrite (m : Master) (i : Fin 128) (v : Word) (s : State) : Host.Outcome State Fault Refusal :=
  answer (arrive m (R.SENSE_PT.addr i) 0xF v.toNat (wrSensePt m i v.toNat (fullMask 1))) s

/-- CARRIER_PERIOD (R323). -/
def execCarrierPeriod (c : Fin 64) (s : State) : Host.Outcome State Fault Refusal := answer (carrierPeriod c) s

/-- MOD_START (R330). -/
def execModStart (m : Master) (mask : W64) (s : State) : Host.Outcome State Fault Refusal :=
  answer (arrivePair m (R.MOD_START.addr 0) mask.toNat (modMask false mask.toNat)) s

/-- MOD_STOP (R330, R333). -/
def execModStop (m : Master) (mask : W64) (s : State) : Host.Outcome State Fault Refusal :=
  answer (arrivePair m (R.MOD_STOP.addr 0) mask.toNat (modMask true mask.toNat)) s

/-- MOD_FCLR (R349). -/
def execModFclr (m : Master) (mask : W64) (s : State) : Host.Outcome State Fault Refusal :=
  answer (arrivePair m (R.MOD_FCLR.addr 0) mask.toNat (wrModFclr m mask.toNat)) s

/-- MOD_CH_WRITE (R334). -/
def execModChWrite (m : Master) (c : Fin 64) (v : W64) (s : State) : Host.Outcome State Fault Refusal :=
  answer (arrivePair m (R.MOD_CH.addr c) v.toNat (wrModCh m c v.toNat (fullMask 2))) s

/-- DIAG_STEP_END (R335). -/
def execDiagStepEnd (c : Fin 64) (s : State) : Host.Outcome State Fault Refusal := answer (diagStepEnd c) s

/-- DIAG_RAIL_TIMEOUT (R336). -/
def execDiagRailTimeout (g : Fin 8) (s : State) : Host.Outcome State Fault Refusal := answer (diagTimeout g) s

/-- MOD_GAIN_SAMPLE (R332). -/
def execModGainSample (c : Fin 64) (s : State) : Host.Outcome State Fault Refusal := answer (modGain c) s

/-- RAILCMD_FRAME (R339). -/
def execRailcmdFrame (g : Fin 8) (s : State) : Host.Outcome State Fault Refusal := answer (railcmdFrame g) s

end Sys2Proof.Machine
end

