-- ==== Sys2Proof/Machine/Place.lean ====
section
/-! DEFINITION. Which register word a bus address names (R10–R12). -/

namespace Sys2Proof.Machine

/-- A register word: the register with its map, the element, the word in the element, and whether the address is that of the
`_LIVE` mirror. -/
structure Place where
  e : RegEntry
  i : Nat
  w : Nat
  live : Bool

/-- The element and the word at a byte offset from element 0 of a register of `n` words. -/
def dimsFind (n : Nat) : List (Nat × Nat) → Nat → Option (Nat × Nat)
  | [], o => if o < 4 * n then some (0, o / 4) else none
  | (c, st) :: ds, o =>
    if o / st < c then (dimsFind n ds (o % st)).map fun p => (o / st * dimsCount ds + p.1, p.2) else none

/-- Where an address falls in one register. -/
def placeIn (a : Nat) (e : RegEntry) : Option Place :=
  let at_ (b : Nat) (live : Bool) : Option Place :=
    if b ≤ a then (dimsFind e.reg.words e.reg.dims (a - b)).map fun p => ⟨e, p.1, p.2, live⟩ else none
  match at_ e.reg.base false with
  | some p => some p
  | none => e.reg.live.bind fun b => at_ b true

/-- The register word at an address; none where no register is assigned. -/
def placeOf (a : Nat) : Option Place := (regTableAt a).findSome? (placeIn a)

end Sys2Proof.Machine
end

