-- ==== Sys2Proof/Machine/Reset.lean ====
section
/-! DEFINITION. The reset of a node (19_power_reset_bringup.md, R568–R570, R539). -/

namespace Sys2Proof.Machine

/-- The node is reset with a cause (R568, R569): `SYS_RSTCAUSE` names it, SYS_RESET is the first raise, LPDDR5X is in
self-refresh after every source but PORST_N, which alone changes the map in force on the ropes (R224). -/
def sysReset (cause : Nat) (wake shutdown : Bool := false) : Act := acts [
  .upd (.nodeReset (cause == 0)),
  F.SYS_RSTCAUSE_CAUSE.set 0 cause,
  onlyIf (decide (cause ≠ 0)) dramRefresh,
  onlyIf wake (F.SYS_RSTCAUSE_WAKE.set 0 1),
  onlyIf shutdown (F.SYS_RSTCAUSE_SHUTDOWN.set 0 1),
  raise .SYS_RESET cause,
  onlyIf (decide (cause = 0)) ropeChanged]

end Sys2Proof.Machine
end

