-- ==== Sys2Proof/Machine/Sap.lean ====
section
/-! DEFINITION. The serial audio ports and their converters (09_serial_audio_ports.md). Direction 0 of a port is its receive
direction, direction 1 its transmit direction. -/

namespace Sys2Proof.Machine

/-! ### Frame structures and slots -/

/-- Change a direction. -/
def setSapDir (n d : Nat) (f : SapDir → SapDir) : Act :=
  setSap fun x => { x with
    dirs := smPut (fun _ => sapDirReset) x.dirs (2 * n + d) (f (smGet (fun _ => sapDirReset) x.dirs (2 * n + d))) }

/-- The configuration register of a direction. -/
def sapCfgReg (d : Nat) : Reg := if d = 0 then R.SAP_RXCFG else R.SAP_TXCFG

/-- The slot mask register of a direction. -/
def sapSlotReg (d : Nat) : Reg := if d = 0 then R.SAP_RXSLOT else R.SAP_TXSLOT

/-- Slot width in bits of a `SAP_CLK` value (R284). -/
def slotBits (v : Nat) : Nat := 16 + 8 * F.SAP_CLK_SLOTW.of v

/-- Number of slots of a `SAP_CLK` value. -/
def slotCount (v : Nat) : Nat := F.SAP_CLK_NSLOT.of v + 1

/-- The level of FS in each bit period of a frame of a `SAP_CLK` value (R284, R285). -/
def fsWave (v : Nat) : List Bool :=
  let w := slotBits v
  (List.range (slotCount v * w)).map fun j => (match F.SAP_CLK_FMT.of v with
    | 0 => decide (w ≤ j)
    | 1 => decide (j < w)
    | _ => decide (j = 0)) != (F.SAP_CLK_FSINV.of v == 1)

/-- Bit periods from the frame start to the first data bit of slot 0 (R284). -/
def dataDelay (v : Nat) : Nat := match F.SAP_CLK_FMT.of v with
  | 0 => 1
  | 1 => 0
  | _ => F.SAP_CLK_FSD.of v

/-- The bits of a slot, most significant first (R284). -/
def slotWave (w : Nat) : Option Nat → List (Option Bool)
  | none => List.replicate w none
  | some x => (List.range w).map fun j => some (bitOf x (w - 1 - j))

/-- SDO in the bit periods of a frame with the words `ws` that follows one with the words `old`: where the data come one bit period
late, its first carries the last bit of the frame before it (R284). -/
def sdoWave (v : Nat) (old ws : List (Option Nat)) : List (Option Bool) :=
  let bits := ws.flatMap (slotWave (slotBits v))
  if dataDelay v = 0 then bits
  else (old.flatMap (slotWave (slotBits v))).getLastD none :: bits.dropLast

/-- The applied configuration of a direction. Both directions share a layout. -/
def sapCfg (s : State) (n d : Nat) : Nat := (sapCfgReg d).liveVal n s

/-- The applied slot mask. -/
def sapMask (s : State) (n d : Nat) : Nat := (sapSlotReg d).liveVal n s

/-- The clock port of a direction (R291). -/
def sapClkPort (s : State) (n d : Nat) : Nat := F.SAP_RXCFG_CKPORT.of (sapCfg s n d)

/-- The frame structure that clocks a direction. -/
def sapClkVal (s : State) (n d : Nat) : Nat := R.SAP_CLK.liveVal (sapClkPort s n d) s

/-- Number of set bits below bit `b` of a mask. -/
def bitsBelow (mask b : Nat) : Nat := ((List.range b).filter fun i => bitOf mask i).length

/-- The slots a mask sets, each with its local channel (R293). -/
def slotChans (mask base : Nat) : List (Nat × Nat) :=
  ((List.range 32).filter fun b => bitOf mask b).map fun b => (b, base + bitsBelow mask b)

/-- Slots and channels of a direction. -/
def sapChans (s : State) (n d : Nat) : List (Nat × Nat) := slotChans (sapMask s n d) (F.SAP_RXCFG_BASE.of (sapCfg s n d))

/-- The direction runs in ASRC mode. -/
def sapAsrc (s : State) (n d : Nat) : Bool := F.SAP_RXCFG_MODE.of (sapCfg s n d) = 1

/-- The direction's policy is HOLD. -/
def sapHold (s : State) (n d : Nat) : Bool := F.SAP_RXCFG_POLICY.of (sapCfg s n d) = 1

/-- The word of a slot that carries none (R296). -/
def sapIdle (s : State) (n : Nat) : Option Nat := if F.SAP_TXCFG_TRI.liveOn n s then none else some 0

/-- The transmit direction of port `n` puts the words of a frame on SDO. -/
def sdoPut (n : Nat) (ws : List (Option Nat)) : Act := .look fun s =>
  setSapDir n 1 fun x => { x with lastTx := ws, bits := sdoWave (sapClkVal s n 1) (if x.lastTx = [] then [sapIdle s n] else x.lastTx) ws }

/-- The port whose clocks reach the clock pins of port `m` over ropes with clocks (R220), through at most `k` ropes; none where the pins
stand low since R227 or the ropes form a ring. -/
def clkFrom (s : State) : Nat → Nat → Option Nat
  | 0, _ => none
  | k + 1, m =>
    let w := ropeForce s m
    if smFind s.rope.low m = some true then none
    else if w.msb && bitOf w.toNat 30 then clkFrom s k (w.toNat % 32) else some m

/-- The port whose clocks reach the clock pins of port `m`. -/
def clkSource (s : State) (m : Nat) : Option Nat := clkFrom s 33 m

/-- Port `m` drives SCK and FS: a master, and no rope on them (R226, R289). -/
def clkDrives (s : State) (m : Nat) : Bool := F.SAP_CLK_MST.liveOn m s && clkSource s m == some m

/-- What the master ports put on SCK and FS: SCK low and FS inactive, at the level before a frame start, where one has been stopped or
PLL_B is out of lock (R290). -/
def clocksShow : Act := .look fun s =>
  forEach (List.range 32) fun m =>
    let w := fsWave (R.SAP_CLK.liveVal m s)
    let stop := s.sap.stopped.contains m || !s.clk.lockB
    let inv := F.SAP_CLK_SCKINV.liveOn m s
    let c : Option PortClk := if F.SAP_CLK_MST.liveOn m s then
      some (if stop then ⟨false, inv, [w.getLastD false]⟩ else ⟨true, inv, w⟩) else none
    onlyIf (decide (smFind s.sap.clocks m ≠ c)) (setSap fun x => { x with
      clocks := match c with | some c => smInsert x.clocks m c | none => smErase x.clocks m })

/-! ### Pins -/

/-- The clocks on the SCK and FS pins of port `m`: low since R227, those of the port that a rope names (R220, R226), what the port as a
master drives where the chip drives its outputs (R485, R589), or what was last seen to drive them. -/
def clkPin (s : State) (m : Nat) : Option PortClk := match clkSource s m with
  | none => some ⟨false, false, [false]⟩
  | some i => if F.SAP_CLK_MST.liveOn i s then (if drives s then smFind s.sap.clocks i else none) else smFind s.rope.clkIn i

/-- The bits on the SDO pin of port `n`, one for each bit period of a frame: low since R227, the bits on SDI of the port that a rope
names (R220, R226), high impedance where the chip does not own its outputs (R485) and in LISTEN (R589), by TRI while the direction is not
running (R296), and else what the direction sends. -/
def sdoPin (s : State) (n : Nat) : List (Option Bool) :=
  let w := ropeForce s n
  let x := smGet (fun _ => sapDirReset) s.sap.dirs (2 * n + 1)
  if (smFind s.rope.low n).isSome then [some false]
  else if w.msb then ((smFind s.rope.sdi (w.toNat % 32)).getD ([], [])).2
  else if !drives s then [none]
  else if x.st = .off || x.st = .armed || x.bits = [] then [(sapIdle s n).map fun _ => false]
  else x.bits

/-- A frame with the words `ws`, `len` bit periods long, ends on the SDI pin of port `n`, in the frame structure of the port that clocks
its receive direction (R291). -/
def sdiSeen (n len : Nat) (ws : List W40) : Act := .look fun s =>
  let v := sapClkVal s n 0
  let out := ws.map fun w => some (w.toNat % 2 ^ slotBits v)
  setRope fun r => { r with
    sdi := smInsert r.sdi n (out, (sdoWave v ((smFind r.sdi n).getD ([], [])).1 out).take len) }

/-- Frames come over the clock port of a direction: where no port drives its clocks, something outside does. -/
def clkSeen (n d : Nat) : Act := .look fun s => match clkSource s (sapClkPort s n d) with
  | none => .done
  | some i => onlyIf (!F.SAP_CLK_MST.liveOn i s)
    (setRope fun r => { r with clkIn := smInsert r.clkIn i ⟨true, F.SAP_CLK_SCKINV.liveOn i s, fsWave (R.SAP_CLK.liveVal i s)⟩ })

/-- The code of a state in `SAP_STAT`. -/
def sapStCode : SapSt → Nat
  | .off => 0 | .armed => 1 | .placing => 2 | .run => 3 | .acquire => 4 | .locked => 5

/-- Set the state of a direction, with what `SAP_STAT` and the ratio register show. -/
def sapTo (n d : Nat) (st : SapSt) : Act :=
  .look fun s => acts [
    setSapDir n d fun x => { x with st := st },
    if d = 0 then F.SAP_STAT_RXSTATE.set n (sapStCode st) else F.SAP_STAT_TXSTATE.set n (sapStCode st),
    let r := if st = .locked then (sapAt s n d).ratio else 0
    if d = 0 then R.SAP_RXRATIO.set n r else R.SAP_TXRATIO.set n r]

/-- Set a sticky bit of `SAP_STAT`. -/
def sapFlag (n d : Nat) (rx tx : Fld) : Act := if d = 0 then rx.set n 1 else tx.set n 1

/-- The direction is running: placed, placing itself, or converting. -/
def sapRuns (st : SapSt) : Bool := st != .off && st != .armed

/-- An EN 0 or a change of the clock port applies at the coming E2 (R314). -/
def sapExcused (s : State) (n d : Nat) : Bool :=
  F.SAP_RXCFG_EN.of (comingVal (sapCfgReg d) n s) = 0 ||
    decide (comingVal R.SAP_CLK (sapClkPort s n d) s ≠ sapClkVal s n d)

/-- A frame of the tick was substituted: SAP_UNDERRUN once per tick and direction, after the first complete block (R301, R302,
R309, R314). -/
def sapUnderrun (n d : Nat) : Act := .look fun s =>
  let x := sapAt s n d
  if x.live && !x.undTick && !sapExcused s n d then acts [
    setSapDir n d fun x => { x with undTick := true },
    sapFlag n d F.SAP_STAT_RXUND F.SAP_STAT_TXUND,
    (if d = 0 then F.SAP_UNDCNT_RX else F.SAP_UNDCNT_TX).inc n,
    (let r := if d = 0 then R.SAP_UND_RX else R.SAP_UND_TX
     r.set 0 (r.val 0 s ||| 2 ^ n)),
    raise .SAP_UNDERRUN n d]
  else .done

/-- An excess (R301). -/
def sapExcess (n d : Nat) : Act :=
  .seq (sapFlag n d F.SAP_STAT_RXEXC F.SAP_STAT_TXEXC) (raise .SAP_EXCESS n d)

/-- A synchronous direction goes out of step; it may place itself again at grid point `p` or later (R300, R301). -/
def sapOut (n d p : Nat) : Act :=
  .seq (sapTo n d .placing) (setSapDir n d fun x => { x with block := [], next := p, hole := false })

/-- A converter leaves LOCKED (R306). -/
def asrcUnlock (n d : Nat) (quiet : Bool) : Act := .look fun s => acts [
  sapTo n d .acquire,
  setSapDir n d fun x => { x with good := 0, block := [], stamp := 0, prev := 0 },
  onlyIf (!quiet && F.SAP_RXCFG_EN.of (comingVal (sapCfgReg d) n s) = 1) (raise .SAP_ASRC_UNLOCK n d)]

/-- A missing block or a frame error restarts the count of an acquiring converter and unlocks a locked one (R306). -/
def asrcBreak (n d : Nat) : Act := .look fun s =>
  if (sapAt s n d).st = .locked then asrcUnlock n d false
  else setSapDir n d fun x => { x with good := 0, block := [], stamp := 0, prev := 0 }

/-- A frame of the wrong length is discarded (R288). In a synchronous direction that is in step it counts as missing: the place of a
receive frame in its block stays empty; a transmit frame, which has left by then, does not count for its grid point (DEDUCED,
log 97). -/
def sapFrameErr (n d : Nat) : Act := .look fun s =>
  let x := sapAt s n d
  acts [
    sapFlag n d F.SAP_STAT_RXFRMERR F.SAP_STAT_TXFRMERR,
    onlyIf (!x.errTick) (.seq (setSapDir n d fun x => { x with errTick := true }) (raise .SAP_FRAME_ERR n d)),
    if sapAsrc s n d then asrcBreak n d
    else onlyIf (x.st = .run) (if d = 0
      then setSapDir n 0 fun x =>
        let b := x.block ++ [[]]
        { x with next := x.next + 1, hole := true, block := if b.length < spt s then b else [] }
      else setSapDir n 1 fun x => { x with next := x.next - 1 })]

/-- An instant as the system counter gives it, to the nearest CCLK cycle, in 2^−16 node samples (R312). -/
def stampOf (s : State) (t : Nat) : Nat :=
  let hz := cclkMHz s * 1000000
  let u := 65536 * fsHz s
  let cyc := (2 * t * hz + u) / (2 * u)
  (2 * cyc * u + hz) / (2 * hz)

/-- The stamp of a block whose first sample instant is `t`, in 2^−16 node samples since the epoch (R312). Side A of a pair sends it to
side B (R491, R493). -/
def sapStamp (n d t : Nat) : Act := .look fun s =>
  let span := 65536 * spt s
  let v := t / span % 2 ^ 32 * 2 ^ 32 + t % span
  .seq ((if d = 0 then R.SAP_RXSTAMP else R.SAP_TXSTAMP).set n v)
    (onlyIf (!s.pins.sideB && F.PAIR_CFG_EN.liveOn 0 s) (sipQueue (t / span) (.stamp [(2 * n + d, v)])))

/-- The instant of a stamp in the layout of its register: TICK is that of the tick nearest to the one in progress. -/
def stampInstant (s : State) (v : Nat) : Nat :=
  let tick := (tickNum s : Int) + toInt 32 (ofInt 32 ((v / 2 ^ 32 : Nat) - (tickNum s : Int)))
  tick.toNat * (65536 * spt s) + v % 2 ^ 32

/-- Phase of a block in 2^−16 frame (R298). -/
def sapPhase (n d : Nat) (th : Int) : Act := .look fun s =>
  let shown := if d = 0 then F.SAP_STAT_RXPHASE.on n s else F.SAP_STAT_TXPHASE.on n s
  .seq ((if d = 0 then F.SAP_PHASE_RX else F.SAP_PHASE_TX).set n (ofInt 16 th))
    (onlyIf (decide (24576 < th.natAbs) && !shown)
      (.seq (sapFlag n d F.SAP_STAT_RXPHASE F.SAP_STAT_TXPHASE) (raise .SAP_PHASE n d)))

/-- Side B of a pair uses the stamps of side A, while side A is in OWNER, CHECK or SYNCED and the link is up (R313, R493). -/
def usesA (s : State) : Bool :=
  let side := F.PAIR_STAT_PSTATE.get 0 s
  s.pins.sideB && F.PAIR_CFG_EN.liveOn 0 s && F.PAIR_STAT_LINK.on 0 s && (side == 2 || side == 5 || side == 6)

/-- Two instants are measurements of one frame start: less than 1/8 node sample apart (DESIGN CHOICE, log 98). No two frame starts of a
direction are so close (R304). -/
def sameFrame (t u : Nat) : Bool := decide (u < t + 8192 ∧ t < u + 8192)

/-- The instant a chip uses for a frame it measures at `t`: the stamp of side A for the same frame where one has come (R313), else its
own (DESIGN CHOICE, log 98). -/
def sapUse (s : State) (n d t : Nat) : Nat :=
  if usesA s then ((smFind s.sap.stampsA (2 * n + d)).toList ++ (smFind s.sap.stampsB (2 * n + d)).toList).find? (sameFrame t) |>.getD t
  else t

/-- The grid point nearest to an instant. -/
def gridOf (t : Nat) : Nat := (t + 32768) / 65536

/-! ### Converters -/

/-- Delay D of a converter (R304). -/
def asrcD (s : State) (n d : Nat) : Nat := if d = 0 then F.SAP_ASRC_RXDLY.live n s else F.SAP_ASRC_TXDLY.live n s

/-- F port frames that last `per` in 2^−16 node samples come at a rate in the range of R304. -/
def asrcRateOk (fs f per : Nat) : Bool :=
  let k := 65536 * f
  8000 * per ≤ fs * k && fs * k ≤ 216000 * per && per ≤ 8 * k && k ≤ 4 * per

/-- D is at least ceil(64 × max(1, fs / f_port)) (R305). -/
def asrcDOk (dly f per : Nat) : Bool := 64 ≤ dly && 64 * per ≤ dly * (65536 * f)

/-- A signal with samples of the given instants and values, interpolated at instant `t` (R304). The spec states the instants and the delay
alone; silence stays silence (log 79). -/
def interpAt (t : Int) (xs : List (Nat × W40)) : W40 := if xs.all fun e => e.2 = 0 then 0 else Config.asrcSample t xs

/-- Two ratio estimates lie within `ppm` of each other. -/
def within (ppm a b : Nat) : Bool := decide (((a : Int) - b).natAbs * 1000000 ≤ ppm * b)

/-- The first frame of a converter's block arrives at `t` (R305, R306). -/
def asrcBlock (n d t : Nat) : Act := .look fun s =>
  let x := sapAt s n d
  let f := spt s
  let per := t - x.stamp
  if x.stamp = 0 || per = 0 then .seq (sapStamp n d t) (setSapDir n d fun x => { x with stamp := t, prev := 0 })
  else
    let ratio := 65536 * f * 2 ^ 24 / per
    let rateOk := asrcRateOk (fsHz s) f per
    let bad := !(rateOk && asrcDOk (asrcD s n d) f per)
    acts [
      sapStamp n d t,
      setSapDir n d fun x => { x with stamp := t, prev := x.stamp, ratio := ratio, ranged := bad },
      onlyIf (bad && !x.ranged) (.seq (sapFlag n d F.SAP_STAT_RXRANGE F.SAP_STAT_TXRANGE) (raise .SAP_ASRC_RANGE n d)),
      if x.st = .locked then
        (if rateOk && within 1000 ratio x.ratio then sapTo n d .locked else asrcUnlock n d false)
      else if !rateOk then setSapDir n d fun x => { x with good := 0 }
      else
        let good := if x.good = 0 || within 20 ratio x.ratio then x.good + 1 else 1
        .seq (setSapDir n d fun x => { x with good := good }) (onlyIf (32 ≤ good) (sapTo n d .locked))]

/-- A frame of a converter. A receive converter keeps the samples of two delays before those of the last two ticks. -/
def asrcFrame (n d t : Nat) (ws : List W40) : Act := .look fun s =>
  .seq (onlyIf (sapAt s n d).block.isEmpty (asrcBlock n d t))
    (.look fun s => setSapDir n d fun x => { x with
      block := if x.block.length + 1 < spt s then x.block ++ [ws] else []
      past := if d = 0 then ((t, ws) :: x.past).takeWhile fun e => t ≤ e.1 + 131072 * (asrcD s n 0 + spt s) else [] })

/-! ### Synchronous directions -/

/-- The direction is one of a master port that uses that port's own clocks (R298). -/
def ownMaster (s : State) (n d : Nat) : Bool := sapClkPort s n d == n && clkDrives s n

/-- The first frame of a block, at grid point `p` by counting and used at instant `t` (R298, R312); θ of a master port's own direction
is 0. -/
def sapFirst (n d t p : Nat) : Act := .look fun s =>
  let th : Int := if ownMaster s n d then 0 else (t : Int) - (65536 * gridOf t : Nat)
  acts [
    setSapDir n d fun x => { x with stamp := t, first := p },
    sapStamp n d t,
    sapPhase n d th]

/-- The stamp of side A for a block of a direction comes (R313). For the block in progress it takes the place of the chip's own: the
direction is judged by it again, by R301 or by the ratio of R306. -/
def stampTaken (n d u : Nat) : Act := .look fun s =>
  let k := 2 * n + d
  let x := sapAt s n d
  let p := gridOf u
  let redo : Act :=
    if sapAsrc s n d then .seq (sapStamp n d u) (setSapDir n d fun x => { x with
      stamp := u, ratio := if x.prev = 0 || u ≤ x.prev then x.ratio else 65536 * spt s * 2 ^ 24 / (u - x.prev) })
    else if x.st = .placing then .done
    else if p = x.first then sapFirst n d u x.first
    else acts [
      sapFirst n d u x.first,
      if x.first < p then .done else if d = 0 then sapExcess n 0 else F.SAP_STAT_TXEXC.set n 1,
      sapOut n d x.next,
      onlyIf (x.first < p || d = 1) (sapUnderrun n d)]
  .seq (setSap fun x => { x with stampsA := smInsert x.stampsA k u, stampsB := match smFind x.stampsA k with
      | some v => smInsert x.stampsB k v
      | none => x.stampsB })
    (onlyIf (usesA s && sapRuns x.st && x.stamp ≠ 0 && sameFrame u x.stamp) redo)

/-- A receive frame counts into its block (R300). A block with a discarded frame is never complete (R288). -/
def rxCount (n : Nat) (ws : List W40) : Act := .look fun s =>
  let f := spt s
  setSapDir n 0 fun x =>
    let b := x.block ++ [ws]
    if b.length < f then { x with block := b, next := x.next + 1 }
    else { x with block := [], next := x.next + 1, ready := if x.hole then x.ready else x.ready ++ [(x.next / f, b)] }

/-- A frame of a synchronous receive direction with sample instant `t` (R297–R301). -/
def rxSync (n t : Nat) (ws : List W40) : Act := .look fun s =>
  let x := sapAt s n 0
  let f := spt s
  let p := gridOf t
  let place : Act := .look fun s =>
    if p % f = 0 && (sapAt s n 0).next ≤ p then acts [
      sapTo n 0 .run, setSapDir n 0 fun x => { x with next := p }, sapFirst n 0 t p, rxCount n ws]
    else .done
  if x.st = .placing then place
  else if !x.block.isEmpty then rxCount n ws
  else if p = x.next then .seq (sapFirst n 0 t p) (rxCount n ws)
  else if x.next < p then acts [sapOut n 0 x.next, sapUnderrun n 0, place]
  else .seq (sapExcess n 0) (sapOut n 0 x.next)

/-- History of a transmit channel as it stands for tick `k`: a frame may start before the edge of its tick. -/
def txHist (s : State) (n ch k : Nat) : ChanHist :=
  let x := sapAt s n 1
  let h := smGet (fun _ => chanNew) x.hist ch
  if k ≤ tickNum s then h
  else (subst (sapHold s n 1) (spt s) h (if x.subTick then none else some (destShown s (0x400 + ch)))).2

/-- The frame of a local output channel that is shifted out in tick `k` (R30, R297). -/
def txFrame (s : State) (ch k : Nat) : List W40 :=
  if k ≤ tickNum s then destShown s (0x400 + ch) else destFrame s (0x400 + ch)

/-- The sample of a local output channel for grid point `p`, or what R37 gives for it (R302). -/
def txSample (s : State) (n ch p : Nat) (sub : Bool) : W40 :=
  let f := spt s
  ((subst (sapHold s n 1) f (txHist s n ch (p / f)) (if sub then none else some (txFrame s ch (p / f)))).1).getD (p % f) 0

/-- The words of one transmit frame for grid point `p` (R293, R296, R302); zeros in the safe state (R531). -/
def txWords (s : State) (n p : Nat) (sub : Bool) : List (Option Nat) :=
  let v := sapClkVal s n 1
  let w := slotBits v
  let chans := sapChans s n 1
  (List.range (slotCount v)).map fun b => match chans.find? (·.1 = b) with
    | none => sapIdle s n
    | some (_, ch) => some (if inSafe s then 0 else ofInt w (toWord w (txSample s n ch p sub)).1)

/-- The words that clip on their way into slots below NSLOT set their bits (R203, R295). -/
def txClips (n : Nat) (f : Nat → W40) : Act := .look fun s =>
  let v := sapClkVal s n 1
  onlyIf (!inSafe s) (forEach ((sapChans s n 1).filter fun c => c.1 < slotCount v) fun c =>
    onlyIf (toWord (slotBits v) (f c.2)).2 (oclip (0x400 + c.2)))

/-- Put a frame on the pin. -/
def txSend (n p : Nat) (sub : Bool) : Act := .look fun s => acts [
  txClips n fun ch => txSample s n ch p sub,
  sdoPut n (txWords s n p sub),
  setSapDir n 1 fun x => { x with subTick := x.subTick || sub },
  onlyIf sub (sapUnderrun n 1)]

/-- A frame start of a synchronous transmit direction at instant `t` (R297–R301). -/
def txSync (n t : Nat) : Act := .look fun s =>
  let x := sapAt s n 1
  let f := spt s
  let p := gridOf t
  let step : Act := .look fun s => let q := (sapAt s n 1).next
    .seq (txSend n q false) (setSapDir n 1 fun x => { x with next := q + 1 })
  let place : Act := .look fun s =>
    if p % f = 0 && (sapAt s n 1).next ≤ p then acts [
      sapTo n 1 .run, setSapDir n 1 fun x => { x with next := p }, sapFirst n 1 t p, step]
    else txSend n p true
  if x.st = .placing then place
  else if x.next % f ≠ 0 then step
  else if p = x.next then .seq (sapFirst n 1 t p) step
  else if x.next < p then acts [sapExcess n 1, sapOut n 1 x.next, sapUnderrun n 1, place]
  else acts [F.SAP_STAT_TXEXC.set n 1, sapOut n 1 x.next, txSend n p true]

/-- The words of a frame that carries `f` of each channel. -/
def slotWords (s : State) (n : Nat) (f : Nat → W40) : List (Option Nat) :=
  let v := sapClkVal s n 1
  (List.range (slotCount v)).map fun b => match (sapChans s n 1).find? (·.1 = b) with
    | none => sapIdle s n
    | some (_, ch) => some (if inSafe s then 0 else ofInt (slotBits v) (toWord (slotBits v) (f ch)).1)

/-- The samples of a local output channel: sample i of the frame collected at edge e sits at grid point (e + 1, i) (R304). -/
def outSamples (s : State) (ch : Nat) : List (Nat × W40) :=
  let f := spt s
  s.sap.outs.flatMap fun e => (List.range f).map fun i =>
    (65536 * ((e.1 + 1) * f + i), ((smFind e.2 (0x400 + ch)).getD []).getD i 0)

/-- E0 of the edge that begins tick `n` has given the local output channels their frames: they are kept for the converters, two delays
and two ticks back. After a restart nothing before it counts. -/
def sapCollect (n : Nat) (first : Bool) : Act := .look fun s =>
  onlyIf (!s.sap.outs.isEmpty || s.sap.dirs.any fun e => e.1 % 2 = 1 && sapAsrc s (e.1 / 2) 1) (setSap fun x => { x with
    outs := ((n, s.tick.dests.filter fun e => 0x400 ≤ e.1 && e.1 < 0x600) ::
      (if first then [] else x.outs)).take (2048 / spt s + 3) })

/-- The words that a converter sends: out of range zeros (R305); while LOCKED the node output signal one delay ago (R304), faded in after ticks without a frame by the return row of R37 (R306); else those of R37. -/
def asrcSend (n t : Nat) : Act := .look fun s =>
  let x := sapAt s n 1
  let f := spt s
  let i := gridOf t % f
  let chans := (sapChans s n 1).map (·.2)
  let send (g : Nat → W40) : Act := .seq (txClips n g) (sdoPut n (slotWords s n g))
  if x.ranged then .seq (send fun _ => 0) (onlyIf (x.st != .locked) (setSapDir n 1 fun x => { x with subTick := true }))
  else if x.st = .locked && !x.ending then
    let raw (ch : Nat) : W40 := interpAt ((t : Int) - (65536 * asrcD s n 1 : Nat)) (outSamples s ch)
    let back (ch : Nat) : Bool :=
      let h := txHist s n ch (tickNum s)
      if sapHold s n 1 then decide (2 ≤ h.miss) else decide (1 ≤ h.miss)
    .seq (send fun ch => if back ch then scale (raw ch) (i + 1) f else raw ch)
      (setSapDir n 1 fun x => { x with sent := chans.foldl (fun m ch =>
        smInsert m ch ((fitFrame f ((smFind m ch).getD [])).set i (raw ch))) x.sent })
  else .seq (send fun ch => txSample s n ch (gridOf t) true) (setSapDir n 1 fun x => { x with subTick := true })

/-! ### Frames -/

/-- An instant given as a grid point and an offset from it in 2^−16 node samples. -/
def instantOf (q : Nat) (th : Int) : Nat := ((65536 * q : Nat) + th).toNat

/-- The clock pins of a direction's clock port carry frames: neither stopped by R290 or R227 nor the direction off. -/
def sapClocked (s : State) (n d : Nat) : Bool := match clkSource s (sapClkPort s n d) with
  | none => false
  | some m => running s && sapRuns (sapAt s n d).st && !s.sap.stopped.contains m && (!F.SAP_CLK_MST.liveOn m s || s.clk.lockB)

/-- The instant that a direction uses for a frame at grid point `q` with offset `th`: that of the counter, or that of side A (R312,
R313). On the own directions of a master port the frame starts stand on the grid (R290, R298). -/
def instantUsed (s : State) (n d q : Nat) (th : Int) : Nat :=
  if ownMaster s n d then sapUse s n d (65536 * q) else sapUse s n d (stampOf s (instantOf q th))

/-- A receive frame ends: sample instant, length in bit periods, the raw words of its slots (R288, R297, R304). -/
def sapRxFrame (n q : Nat) (th : Int) (len : Nat) (ws : List W40) : Act := .look fun s =>
  let v := sapClkVal s n 0
  if !sapClocked s n 0 then .done
  else if len ≠ slotCount v * slotBits v then sapFrameErr n 0
  else
    let t := instantUsed s n 0 q th
    let xs := (List.range (slotCount v)).map fun b => fromWord (slotBits v) (ws.getD b 0).toNat
    if sapAsrc s n 0 then asrcFrame n 0 t xs else rxSync n t xs

/-- A transmit frame starts: its instant and the length of the frame before it (R288, R297, R304). -/
def sapTxFrame (n q : Nat) (th : Int) (len : Nat) : Act := .look fun s =>
  let v := sapClkVal s n 1
  if !sapClocked s n 1 then .done
  else .seq (onlyIf (decide (len ≠ slotCount v * slotBits v)) (sapFrameErr n 1))
    (.look fun s =>
      let t := instantUsed s n 1 q th
      if sapAsrc s n 1 then .seq (asrcFrame n 1 t []) (asrcSend n t) else txSync n t)

/-! ### The edge -/

/-- What a receive direction that is off still gives its channels (R302, R311). Frames of zeros are not emitted, so that a direction that
has taken over its channels stands (R303). -/
def rxFade (n : Nat) : Act := .look fun s =>
  let x := sapAt s n 0
  let outs := x.hist.map fun e => (e.1, subst (sapHold s n 0) (spt s) e.2 none)
  .seq (setSapDir n 0 fun x => { x with hist := outs.foldl (fun m o => smPut (fun _ => chanNew) m o.1 o.2.2) x.hist })
    (forEach (outs.filter fun o => !isZero o.2.1) fun o => setSource (0x400 + o.1) o.2.1)

/-- Emit the frames of a receive direction's channels for the tick that ends: `fr` gives each channel's frame, or none. -/
def rxDeliver (n : Nat) (chans : List Nat) (fr : Nat → Option (List W40)) : Act := .look fun s =>
  let x := sapAt s n 0
  let outs := chans.map fun ch =>
    (ch, subst (sapHold s n 0) (spt s) (smGet (fun _ => chanNew) x.hist ch) (fr ch))
  .seq (setSapDir n 0 fun x => { x with hist := outs.foldl (fun m o => smPut (fun _ => chanNew) m o.1 o.2.2) x.hist })
    (forEach outs fun o => setSource (0x400 + o.1) o.2.1)

/-- E1 of the edge that begins tick `n`: the block of the tick before it enters the channels of receive direction `p`
(R297, R301, R302, R305, R306, R311). -/
def rxLatch (p n : Nat) : Act := .look fun s =>
  let x := sapAt s p 0
  let f := spt s
  let chans := sapChans s p 0
  let chs := chans.map (·.2)
  let slots := slotCount (sapClkVal s p 0)
  let missed : Act := rxDeliver p chs fun _ => none
  match x.st with
  | .off | .armed => rxFade p
  | .locked =>
    if x.ranged then rxDeliver p chs fun _ => some (zeros f)
    else
      let at_ (slot i : Nat) : W40 := interpAt ((65536 * ((n - 1) * f + i) : Nat) - (65536 * asrcD s p 0 : Nat))
        (x.past.map fun e => (e.1, e.2.getD slot 0))
      .seq (rxDeliver p chs fun c => some (match chans.find? (·.2 = c) with
          | some (slot, _) => if slot < slots then (List.range f).map (at_ slot) else zeros f
          | none => zeros f))
        (setSapDir p 0 fun x => { x with live := true })
  | .acquire => if x.ranged then .seq missed (forEach chs fun c => setSource (0x400 + c) (zeros f)) else missed
  | .placing | .run =>
    match x.ready.find? (·.1 = n - 1) with
    | some (_, b) =>
      .seq (rxDeliver p chs fun c => match chans.find? (·.2 = c) with
          | some (slot, _) => some (if slot < slots then b.map fun ws => ws.getD slot 0 else zeros f)
          | none => none)
        (setSapDir p 0 fun x => { x with live := true, ready := x.ready.filter fun r => n ≤ r.1 })
    | none => acts [
        sapUnderrun p 0,
        missed,
        if x.st = .run && (x.next < n * f || x.hole) then sapOut p 0 (n * f)
        else onlyIf (x.st = .placing) (setSapDir p 0 fun x => { x with next := max x.next (n * f) }),
        setSapDir p 0 fun x => { x with ready := x.ready.filter fun r => n ≤ r.1 }]

/-- The tick before tick `n` ends for transmit direction `p` (R301, R302); `old` are the frames that were shifted out in it. -/
def txLatch (old : SMap (List W40)) (p n : Nat) : Act := .look fun s =>
  let x := sapAt s p 1
  let f := spt s
  let late := x.st = .run && decide (x.next < n * f)
  let keep : Act := setSapDir p 1 fun x => { x with
    hist := (sapChans s p 1).foldl (fun m c =>
      let h := smGet (fun _ => chanNew) x.hist c.2
      smPut (fun _ => chanNew) m c.2
        (subst (sapHold s p 1) f h (if x.subTick then none
          else some (fitFrame f (if sapAsrc s p 1 then (smFind x.sent c.2).getD [] else (smFind old (0x400 + c.2)).getD [])))).2) x.hist
    live := x.live || (x.st = .run && !late && !x.subTick) || x.st = .locked }
  match x.st with
  | .off | .armed => .done
  | .placing => .seq keep (setSapDir p 1 fun x => { x with next := max x.next (n * f) })
  | .run => .seq keep (onlyIf late (.seq (sapExcess p 1) (sapOut p 1 (n * f))))
  | .acquire | .locked => keep

/-- A direction is off (R306, R311). -/
def sapEnd (n d : Nat) : Act := acts [
  sapTo n d .off,
  setSapDir n d fun x => { x with
    ending := false, block := [], ready := [], good := 0, stamp := 0, prev := 0, past := [], ranged := false, live := false, hole := false
    lastTx := [], bits := [] }]

/-- After E1 a direction that starts begins (R309, R311), and the marks of the tick are dropped. At the first edge after RUN
a synchronous direction places itself anew (R641; DESIGN CHOICE, log 18). -/
def sapEdge (p d n : Nat) (first : Bool) : Act := .look fun s =>
  let x := sapAt s p d
  let asrc := sapAsrc s p d
  acts [
    onlyIf (decide (x ≠ sapDirReset)) (setSapDir p d fun x => { x with
      undTick := false, errTick := false, subTick := false, sent := [] }),
    onlyIf x.ending (sapEnd p d),
    if x.starting then .seq (sapTo p d (if asrc then .acquire else .placing))
      (setSapDir p d fun x => { x with
        starting := false, next := n * spt s, block := [], ready := [], live := false, good := 0, stamp := 0, prev := 0
        past := [], ranged := false, hist := if d = 1 && asrc then [] else x.hist })
    else onlyIf (first && (x.st = .run || x.st = .placing))
      (.seq (sapOut p d (n * spt s)) (setSapDir p d fun x => { x with ready := [], live := false }))]

/-- E1 for all ports, then the starts and the clocks that restart (R290). `first` is R641, `old` the frames that were shifted out in the
tick that ends. -/
def sapEdges (old : SMap (List W40)) (n : Nat) (first : Bool) : Act := .look fun s =>
  let dirs := s.sap.dirs.map (·.1)
  let offs := dirs.filter fun k => !sapRuns (sapAt s (k / 2) (k % 2)).st
  let ons := dirs.filter fun k => sapRuns (sapAt s (k / 2) (k % 2)).st
  acts [
    onlyIf (!first) (forEach (offs ++ ons) fun k => if k % 2 = 0 then rxLatch (k / 2) n else txLatch old (k / 2) n),
    forEach dirs fun k => sapEdge (k / 2) (k % 2) n first,
    onlyIf s.sap.startEdge (F.SAP_START_LAST_TICK.set 0 (n % 2 ^ 32)),
    setSap fun x => { x with stopped := [], startEdge := false },
    clocksShow]

/-! ### Applied changes -/

/-- `SAP_CLK` of port `p` is applied; the value before was `old` (R290, R292). A master port stops until the next edge; the pins of a slave
port are inputs. -/
def sapClkApplied (p old : Nat) : Act := .look fun s =>
  onlyIf (decide (old ≠ R.SAP_CLK.liveVal p s)) (acts [
    onlyIf (F.SAP_CLK_MST.liveOn p s) (setSap fun x => { x with stopped := x.stopped.filter (· ≠ p) ++ [p] }),
    clocksShow,
    ropeConflict,
    forEach s.sap.dirs fun e => .look fun s =>
      let n := e.1 / 2
      let d := e.1 % 2
      let x := sapAt s n d
      onlyIf (decide (sapClkPort s n d = p) && sapRuns x.st) (.seq
        (if sapAsrc s n d then asrcUnlock n d true else sapOut n d x.next)
        (setSapDir n d fun x => { x with live := false, ready := [] }))])

/-- The configuration of a direction is applied (R306, R308, R311). A running direction whose MODE or CKPORT changes starts
placing itself or acquiring anew without an event (DESIGN CHOICE, log 19). -/
def sapCfgApplied (n d old : Nat) : Act := .seq (.look fun s => onlyIf (sapAt s n d).ending (sapEnd n d)) <| .look fun s =>
  let new := sapCfg s n d
  let x := sapAt s n d
  let asrc := sapAsrc s n d
  .seq (if F.SAP_RXCFG_EN.of new = 0 then
      onlyIf (x.st != .off || x.starting) (.seq (setSapDir n d fun x => { x with starting := false })
        (if d = 1 && running s && sapRuns x.st then
          acts [F.SAP_STAT_TXSTATE.set n 0, R.SAP_TXRATIO.set n 0, setSapDir n 1 fun x => { x with ending := true }]
        else sapEnd n d))
    else if sapRuns x.st then
      onlyIf (decide (F.SAP_RXCFG_MODE.of old ≠ F.SAP_RXCFG_MODE.of new) ||
          decide (F.SAP_RXCFG_CKPORT.of old ≠ F.SAP_RXCFG_CKPORT.of new))
        (.seq (if asrc then asrcUnlock n d true else sapOut n d (max x.next ((tickNum s + 1) * spt s)))
          (setSapDir n d fun x => { x with live := false, ready := [] }))
    else if F.SAP_RXCFG_ARM.of new = 1 then onlyIf (!x.starting) (sapTo n d .armed)
    else setSapDir n d fun x => { x with starting := true })
    ropeConflict

/-- The common start is applied: the named directions that may start do so at the next edge, every other one is skipped
(R308). -/
def sapStart : Act := .look fun s =>
  let named (d : Nat) : List (Nat × Nat) :=
    ((List.range 32).filter fun p => bitOf ((if d = 0 then R.SAP_START_RX else R.SAP_START_TX).val 0 s) p).map fun p => (p, d)
  acts [
    F.SAP_START_STAT_PEND.set 0 0,
    setSap fun x => { x with startAt := none, startEdge := true },
    forEach (named 0 ++ named 1) fun q =>
      let v := sapCfg s q.1 q.2
      let x := sapAt s q.1 q.2
      if F.SAP_RXCFG_EN.of v = 1 && F.SAP_RXCFG_ARM.of v = 1 && !sapRuns x.st && !x.starting then
        setSapDir q.1 q.2 fun x => { x with starting := true }
      else F.SAP_START_STAT_SKIP.set 0 1]

/-- E2 of the edge that begins tick `n` applies a common start whose edge it is (R308). -/
def sapStartEdge (n : Nat) : Act := .look fun s =>
  if F.SAP_START_STAT_PEND.on 0 s then
    match s.sap.startAt with
    | none => sapStart
    | some k => onlyIf (decide (k = n % 2 ^ 32)) sapStart
  else .done

/-! ### Writes -/

/-- A write to `SAP_CLK` (R285, R289). -/
def wrSapClk (m n v mask : Nat) (tie : Bool := false) : Act := .look fun s =>
  let e := entryOf R.SAP_CLK
  let new := afterWrite e n m v mask s
  let slots := slotCount new
  let ratio := fB s / fsHz (rated s)
  if (F.SAP_CLK_FMT.of new < 2 && slots ≠ 2) || slots < 2 ||
      (F.SAP_CLK_MST.of new = 1 && ratio % (2 * slots * slotBits new) ≠ 0) then dropped m (R.SAP_CLK.addr n)
  else storeWrite e n m v mask (R.SAP_CLK.addr n) tie

/-- The channels of two directions overlap (R294). -/
def chansOverlap (base1 mask1 base2 mask2 : Nat) : Bool :=
  let p1 := bitsBelow mask1 32
  let p2 := bitsBelow mask2 32
  p1 ≠ 0 && p2 ≠ 0 && base1 < base2 + p2 && base2 < base1 + p1

/-- A write to the configuration or slot mask of a direction (R294). -/
def wrSapCfg (m n : Nat) (r : SapReg) (v mask : Nat) (tie : Bool := false) : Act := .look fun s =>
  let reg := match r with | .rxcfg => R.SAP_RXCFG | .txcfg => R.SAP_TXCFG | .rxslot => R.SAP_RXSLOT | .txslot => R.SAP_TXSLOT
  let d := match r with | .rxcfg | .rxslot => 0 | .txcfg | .txslot => 1
  let e := entryOf reg
  let new := afterWrite e n m v mask s
  let cfg := match r with | .rxcfg | .txcfg => new | _ => (sapCfgReg d).val n s
  let slots := match r with | .rxslot | .txslot => new | _ => (sapSlotReg d).val n s
  let base := F.SAP_RXCFG_BASE.of cfg
  let clash := r = .rxcfg && F.SAP_RXCFG_EN.of new = 1 && (List.range 32).any fun q =>
    decide (q ≠ n) && F.SAP_RXCFG_EN.on q s && chansOverlap base slots (F.SAP_RXCFG_BASE.get q s) (R.SAP_RXSLOT.val q s)
  if 512 < base + bitsBelow slots 32 || clash then dropped m (reg.addr n)
  else storeWrite e n m v mask (reg.addr n) tie

/-- A write to `SAP_START_CMD` (R308, R310): ATEN means something only beside GO. -/
def wrSapStart (m v : Nat) : Act := .look fun s =>
  let a := R.SAP_START_CMD.addr 0
  if F.SAP_START_CMD_GO.of v = 0 then .done
  else if F.SAP_START_STAT_PEND.on 0 s then dropped m a
  else if F.SAP_START_CMD_ATEN.of v = 1 then
    let target := F.SAP_START_AT_AT.get 0 s
    let k := (target + 2 ^ 32 - tickHere s % 2 ^ 32) % 2 ^ 32
    if k < 2 || 2 ^ 31 < k then .seq (dropped m a) (F.SAP_START_STAT_LATE.set 0 1)
    else .seq (F.SAP_START_STAT_PEND.set 0 1)
      (setSap fun x => { x with startAt := some ((target + 2 ^ 32 - 1) % 2 ^ 32) })
  else .seq (F.SAP_START_STAT_PEND.set 0 1)
    (setSap fun x => { x with startAt := if edgeDue s then some ((nextTick s + 1) % 2 ^ 32) else none })

/-! ### Commands -/

/-- SAP_CLK_WRITE (R285, R289). -/
def execSapClkWrite (m : Master) (n : Fin 32) (v : Word) (s : State) : Host.Outcome State Fault Refusal :=
  answer (arrive m (R.SAP_CLK.addr n) 0xF v.toNat (wrSapClk m n v.toNat (fullMask 1))) s

/-- SAP_CFG_WRITE (R294). -/
def execSapCfgWrite (m : Master) (n : Fin 32) (r : SapReg) (v : Word) (s : State) : Host.Outcome State Fault Refusal :=
  let reg := match r with | .rxcfg => R.SAP_RXCFG | .txcfg => R.SAP_TXCFG | .rxslot => R.SAP_RXSLOT | .txslot => R.SAP_TXSLOT
  answer (arrive m (reg.addr n) 0xF v.toNat (wrSapCfg m n r v.toNat (fullMask 1))) s

/-- SAP_RX_FRAME (R288); ropes from the port carry the frame on (R220). -/
def execSapRxFrame (n : Fin 32) (q : Nat) (th : Int) (len : Nat) (ws : List W40) (s : State) :
    Host.Outcome State Fault Refusal := answer (acts [sdiSeen n len ws, clkSeen n 0, sapRxFrame n q th len ws]) s

/-- SAP_TX_FRAME (R297). -/
def execSapTxFrame (n : Fin 32) (q : Nat) (th : Int) (len : Nat) (s : State) : Host.Outcome State Fault Refusal :=
  answer (.seq (clkSeen n 1) (sapTxFrame n q th len)) s

/-- ASRC_BLOCK_LATE (R306). -/
def execAsrcBlockLate (n : Fin 32) (d : Dir) (s : State) : Host.Outcome State Fault Refusal :=
  let k := match d with | .rx => 0 | .tx => 1
  answer (onlyIf (sapAsrc s n k && sapRuns (sapAt s n k).st) (asrcBreak n k)) s

/-- SAP_START_GO (R308). -/
def execSapStartGo (m : Master) (s : State) : Host.Outcome State Fault Refusal :=
  answer (arrive m (R.SAP_START_CMD.addr 0) 0xF 1 (wrSapStart m 1)) s

/-- SAP_START_AT (R308, R310). -/
def execSapStartAtCmd (m : Master) (s : State) : Host.Outcome State Fault Refusal :=
  answer (arrive m (R.SAP_START_CMD.addr 0) 0xF 3 (wrSapStart m 3)) s

/-- SAP_START_APPLY (R308, R28): while the tick is stopped an unscheduled start is applied by itself; while it runs, E2 of the
edge applies it. -/
def execSapStartApply (s : State) : Host.Outcome State Fault Refusal :=
  answer (onlyIf (!running s && F.SAP_START_STAT_PEND.on 0 s && s.sap.startAt.isNone) sapStart) s

end Sys2Proof.Machine
end

