-- ==== Sys2Proof/Machine/Pair.lean ====
section
/-! DEFINITION. The redundant pair and Siphon: links, messages, leases, the decision rule, the pair states and the rejoin
(16_redundant_pair.md, R483–R517, R523). -/

namespace Sys2Proof.Machine

/-- The chip is on side A (R483). -/
def sideA (s : State) : Bool := !s.pins.sideB

/-- Siphon is up (R489). -/
def siphonUp (s : State) : Bool := F.PAIR_STAT_LINK.on 0 s

/-- State code of the chip (R511). -/
def pairSt (s : State) : Nat := F.PAIR_STAT_STATE.get 0 s

/-- State code of the partner by its last MARK (R511). -/
def partnerSt (s : State) : Nat := F.PAIR_STAT_PSTATE.get 0 s

/-- The partner is SYNCED or READY, and has not been declared SUSPECT since it said so (R507, R510, R512). -/
def partnerReady (s : State) : Bool := (partnerSt s == 6 || partnerSt s == 7) && !s.pair.suspect

/-- The number of the tick nearest to the one in progress with the given low bits. -/
def fullTick (s : State) (t : BitVec 32) : Nat := ((tickNum s : Int) + toInt 32 (ofInt 32 ((t.toNat : Int) - tickNum s))).toNat

/-- A state code is eligible (R503): SYNCED, or CHECK while TAKE_CHECK is 1. -/
def eligible (c : Nat) (s : State) : Bool := c == 6 || (c == 5 && F.PAIR_CFG_TAKE_CHECK.liveOn 0 s)

/-- The standby states whose digests are compared (R507). -/
def isCompared (c : Nat) : Bool := c == 5 || c == 6

/-! ### Changes of state -/

/-- The chip takes ownership and drives its local outputs (R503, R505, R507, R510). -/
def takeOwn : Act := acts [
  F.PAIR_STAT_STATE.set 0 2,
  F.PAIR_HIST_TAKEOVER.set 0 1,
  setPair fun p => { p with own := true, missing := 0, handover := none, engine := none }]

/-- FORM while the link is down and the partner's OWN pin is low: side A takes ownership at once (R511). `rs` are events of the same
cycle. -/
def formJudge (rs : List RaiseReq := []) : Act := .look fun s =>
  if pairIs 1 s && sideA s && !siphonUp s && !s.pair.partnerOwn then .seq takeOwn (raiseAll (rs ++ [⟨.PAIR_TAKEOVER, 0, 0, 0, 0⟩]))
  else raiseAll rs

/-- A standby loses its lease without being eligible (R503, R511). -/
def leaseLost : Act := acts [
  F.PAIR_STAT_STATE.set 0 1, F.PAIR_HIST_LEASE_LOST.set 0 1,
  setPair fun p => { p with missing := 0, handover := none, engine := none }, formJudge [⟨.PAIR_LEASE_LOST, 0, 0, 0, 0⟩]]

/-- The active logical lanes, ascending. -/
def activeLanes (s : State) : List Nat := (List.range 256).filter fun n => (slotOf s n).isSome

/-- CONV_T; 0 acts as 1. -/
def convT (s : State) : Nat := max 1 (F.PAIR_CONV_CONV_T.get 0 s)

/-- CONVERGE begins: every logical lane has to be copied. -/
def enterConverge : Act := .look fun s => acts [
  F.PAIR_STAT_STATE.set 0 4, F.PAIR_MATCH_RUN.set 0 0,
  setPair fun p => { p with lanesLeft := activeLanes s, convLeft := convT s + 1, syncedTicks := 0 }]

/-- COPY begins. -/
def enterCopy : Act := acts [
  F.PAIR_STAT_STATE.set 0 3, F.PAIR_MATCH_RUN.set 0 0,
  setPair fun p => { p with icwDiff := false, missing := 0, joinUpd := false, engine := none }]

/-- OUT: the chip drives no local output and keeps ticking (R512). -/
def enterOut : Act := acts [
  F.PAIR_STAT_STATE.set 0 8,
  setPair fun p => { p with own := false, driveDue := false, handover := none, thenOut := false, hoReq := none, engine := none }]

/-- This chip is declared SUSPECT (R507): RESYNC counts up, and at RESYNC_LIM the chip goes OUT (R511). `rs` are events of the same
cycle. -/
def goSuspect (rs : List RaiseReq) : Act := acts [
  F.PAIR_MATCH_RESYNC.inc 0, F.PAIR_HIST_SUSPECT.set 0 1,
  setPair fun p => { p with joinUpd := false },
  enterConverge,
  .look fun s =>
    let k := F.PAIR_MATCH_RESYNC.get 0 s
    let out := max 1 (F.PAIR_CFG_RESYNC_LIM.live 0 s) ≤ k
    .seq (onlyIf out enterOut)
      (raiseAll (rs ++ [⟨.PAIR_SUSPECT, k, 0, 0, 0⟩] ++ (if out then [⟨.PAIR_OUT, 0, 0, 0, 0⟩] else [])))]

/-- `PAIR_CFG` is applied in E2: EN 1 leaves SOLO, EN 0 returns to it (R486, R511). `old` is the value before. -/
def pairCfgApplied (old : Nat) : Act := .look fun s =>
  let en := F.PAIR_CFG_EN.liveOn 0 s
  if en = (F.PAIR_CFG_EN.of old == 1) then .done
  else if en then
    if sideA s && !s.pair.partnerOwn then F.PAIR_STAT_STATE.set 0 2
    else acts [F.PAIR_STAT_STATE.set 0 1, setPair fun p => { p with own := false }, formJudge]
  else .seq (F.PAIR_STAT_STATE.set 0 0) (setPair fun p => { pairReset with
    partnerOwn := p.partnerOwn, ownAt := p.ownAt, own := sideA s && !p.partnerOwn, mark := p.mark, spares := p.spares, spareSeen := p.spareSeen })

/-! ### The link (R489, R490) -/

/-- Siphon goes down. -/
def goLinkDown : Act := .look fun s =>
  if !siphonUp s then .done
  else acts [
    F.PAIR_STAT_LINK.set 0 0, F.PAIR_HIST_LINK_DOWN.set 0 1, raise .PAIR_LINK_DOWN,
    setPair fun p => { p with crcRun := 0, waiting := [] },
    .look fun s => onlyIf (isStandby (pairSt s) && !eligible (pairSt s) s) leaseLost,
    formJudge]

/-- Siphon becomes up. -/
def goLinkUp : Act := .look fun s =>
  if siphonUp s then .done
  else acts [F.PAIR_STAT_LINK.set 0 1, setPair fun p => { p with crcRun := 0 }, raise .PAIR_LINK_UP]

/-- TYPE and class of a message (R491). -/
def sipType : SipBody → Nat
  | .mark _ => 0x01 | .rstreq => 0x02 | .digest _ => 0x03 | .write _ => 0x10 | .modstate _ _ => 0x11 | .stamp _ => 0x12 | .patch _ _ => 0x20

def sipClass (b : SipBody) : Nat := match sipType b with
  | 0x01 | 0x02 => 0 | 0x03 => 1 | 0x10 | 0x11 | 0x12 => 2 | _ => 3

/-- A segment of type `ty` for tick `tick` (R490). -/
def segBytes (ty tick : Nat) (first last : Bool) (p : List Byte) : List Byte :=
  let b := bytesLe 1 ty ++ bytesLe 1 (b2n first * 128 + b2n last * 64) ++ bytesLe 2 p.length ++ bytesLe 4 tick ++ p
  b ++ bytesLe 4 (crc32c b)

/-- Payload of a message in pieces of up to 256 bytes, at most `n` of them. -/
def pieces : Nat → List Byte → List (List Byte)
  | 0, p => [p]
  | n + 1, p => if p.length ≤ 256 then [p] else p.take 256 :: pieces n (p.drop 256)

/-- The segments of a message (R490). -/
def segsOf (ty tick : Nat) (p : List Byte) : List (List Byte) :=
  let ps := pieces p.length p
  ps.zipIdx.map fun x => segBytes ty tick (x.2 = 0) (x.2 + 1 = ps.length) x.1

/-- A segment as received passes its check (R490). -/
def segOk (b : List Byte) : Bool :=
  let n := fieldLe b 2 2
  decide (n ≤ 256) && b.length == n + 12 && fieldLe b (8 + n) 4 == crc32c (b.take (8 + n))

/-- A segment arrives: discarded and counted when its check fails, and eight of those in a row take the link down. -/
def segTake (b : List Byte) : Act := .look fun s =>
  if !siphonUp s then .done
  else if segOk b then setPair fun p => { p with crcRun := 0 }
  else acts [F.PAIR_CNT_COUNT.inc 2, setPair fun p => { p with crcRun := p.crcRun + 1 },
    .look fun s => onlyIf (8 ≤ s.pair.crcRun) goLinkDown]

/-- TICK and payload of a message of type `ty` from its segments: each whole, of that type and tick, FIRST on the first alone and LAST on
the last alone (R490). A message that lacks one is none. -/
def segsBody (ty : Nat) (segs : List (List Byte)) : Option (Nat × List Byte) :=
  let tick := fieldLe (segs.headD []) 4 4
  if !segs.isEmpty && segs.zipIdx.all fun x => segOk x.1 && fieldLe x.1 0 1 == ty && fieldLe x.1 4 4 == tick &&
      fieldLe x.1 1 1 == b2n (x.2 = 0) * 128 + b2n (x.2 + 1 = segs.length) * 64
  then some (tick, segs.flatMap fun b => (b.drop 8).take (fieldLe b 2 2)) else none

/-- The segments of a message of type `ty` arrive: each is judged, and the message acts when all of it is there. -/
def message (ty : Nat) (segs : List (List Byte)) (act : Nat → List Byte → Act) : Act := .look fun s =>
  if !siphonUp s || asleep s then .done
  else .seq (forEach segs segTake) (.look fun s => match segsBody ty segs with
    | some (t, p) => if siphonUp s then act t p else .done
    | none => .done)

/-- Payload of a MARK and a MARK from its payload (R491). -/
def markBytes (m : MarkMsg) : List Byte :=
  bytesLe 1 (b2n m.owner + b2n m.rel * 2 + b2n m.ho * 4 + b2n m.safe * 8 + m.state.val * 16) ++ bytesLe 3 0 ++ bytesLe 4 m.ack.toNat

def markOf (tick : Nat) (p : List Byte) : MarkMsg :=
  let b := fieldLe p 0 1
  { tick := BitVec.ofNat 32 tick, owner := bitOf b 0, rel := bitOf b 1, ho := bitOf b 2, safe := bitOf b 3
    state := ⟨b / 16 % 16, Nat.mod_lt _ (by decide)⟩, ack := BitVec.ofNat 32 (fieldLe p 4 4) }

/-- Payload of a DIGEST and a DIGEST from its payload (R491). -/
def digestMsgBytes (d : DigestMsg) : List Byte :=
  d.flags :: bytesLe 3 0 ++ ([d.d0, d.d1, d.d2, d.d3].flatMap fun x => bytesLe 16 x.toNat)

def digestFrom (tick : Nat) (p : List Byte) : DigestMsg :=
  let d (k : Nat) : BitVec 128 := BitVec.ofNat 128 (fieldLe p (4 + 16 * k) 16)
  ⟨BitVec.ofNat 32 tick, p.headD 0, d 0, d 1, d 2, d 3⟩

/-- A message as segments on the link (R490): of a type whose payload the spec does not state (log 44), none. -/
def sipSegs (m : SipMsg) : Option (List (List Byte)) :=
  (match m.body with
   | .mark g => some (markBytes g)
   | .rstreq => some []
   | .digest d => some (digestMsgBytes d)
   | _ => none).map fun p => segsOf (sipType m.body) m.tick.toNat p

/-- The message that is sent next: the first of the highest class that waits (R491). -/
def sipNext (ms : List SipMsg) : Option SipMsg :=
  ([0, 1, 2, 3].map fun c => ms.find? fun m => sipClass m.body = c).findSome? id

/-- One message is handed to the link (DESIGN CHOICE, log 44). -/
def sipSend : Act := .look fun s => match sipNext s.pair.waiting with
  | some m => setPair fun p => { p with waiting := p.waiting.erase m, sent := p.sent ++ [m] }
  | none => .done

/-! ### MARK (R491, R502–R508, R510, R511) -/

/-- A standby receives REL 1: it takes ownership, in the safe state unless it is eligible (R505). -/
def relTakeover : Act := .look fun s => acts [
  onlyIf (!eligible (pairSt s) s) enterSafe,
  takeOwn, raise .PAIR_TAKEOVER]

/-- The partner's MARK is stored. -/
def takeMark (g : MarkMsg) : Act := .look fun s =>
  let was := partnerSt s
  acts [
    setPair fun p => { p with
      mark := some g, arrived := if g.owner then p.arrived ++ [g.tick] else p.arrived, suspect := false
      modSent := if g.state = 3 then [] else p.modSent, railSent := if g.state = 3 then [] else p.railSent
      checkFrom := if isCompared g.state && !isCompared was && was ≠ 2 then fullTick s g.tick else p.checkFrom },
    F.PAIR_STAT_PSTATE.set 0 g.state,
    if pairIs 1 s then
      if g.owner then enterCopy
      else onlyIf (sideA s) (acts [F.PAIR_STAT_STATE.set 0 2, F.PAIR_HIST_TAKEOVER.set 0 1,
        setPair fun p => { p with driveDue := true, missing := 0 }])
    else if pairIs 2 s then onlyIf g.owner (.seq (releaseOwn 1) (raise .PAIR_RELEASE))
    else if isStandby (pairSt s) then
      if g.rel then relTakeover else onlyIf g.ho (setPair fun p => { p with handover := some (fullTick s g.tick + 1) })
    else .done]

/-! ### Digests and flags (R499–R501, R509) -/

/-- Output channels of logical lane `l` that a digest covers: those below OUT_CH of its slot; of a lane without a slot, those of which the
edge has collected a substitute that is not zero (DESIGN CHOICE, log 93). -/
def digestChans (r : State) (l : Nat) : List Nat :=
  match slotOf r l with
  | some slot => List.range (F.LANE_FRAME_OUT_CH.live slot r)
  | none => (List.range 64).filter fun c => (smFind r.tick.frames (64 * l + c)).isSome

/-- The byte stream of chamber `k` for tick `n` (R499), from the state `r` at the end of E0 (R31). -/
def digestBytes (r : State) (n k : Nat) : List Byte :=
  bytesLe 8 n ++
  ((List.range 64).map (64 * k + ·)).flatMap (fun l => (digestChans r l).flatMap fun c =>
    (fitFrame (spt r) ((smFind r.tick.frames (64 * l + c)).getD [])).flatMap fun w => bytesLe 5 w.toNat) ++
  ((List.range 400).map (4 * · + k)).flatMap (fun d =>
    if F.ROUTE_OUT_VALID.on d r then (destFrame r d).flatMap fun w => bytesLe 5 w.toNat else [])

/-- The digest of a byte stream. -/
def digestOf (bs : List Byte) : BitVec 128 :=
  BitVec.ofNat 128 (crc64 0x42F0E1EBA9EA3693 0xFFFFFFFFFFFFFFFF 0xFFFFFFFFFFFFFFFF bs * 2 ^ 64
    + crc64 0xAD93D23594C935A9 0 0 bs)

/-- The digest a list holds for a tick. -/
def digestFor (ds : List DigestMsg) (n : Nat) : Option DigestMsg := ds.find? fun d => d.tick = BitVec.ofNat 32 n

/-- A chip with flags of the tick that ended sends no stream frame when, by cycle 2,048, it holds the partner's DIGEST without
flags and the partner is SYNCED (R509). -/
def suppressJudge : Act := .look fun s =>
  let n := tickNum s - 1
  match digestFor s.pair.ownDig n, digestFor s.pair.partnerDig n with
  | some a, some b => onlyIf (decide (a.flags ≠ 0) && decide (b.flags = 0) && partnerSt s == 6 && decide (s.tick.cycle ≤ 2048))
      (setClt fun c => { c with suppress := true })
  | _, _ => .done

/-- E3 of the edge that begins tick `n`: the digests and the flags of tick n − 1 are sealed and sent (R31, R499–R501). They are kept
while the pair logic runs, the only reader of them. -/
def sealDigests (r : State) (n : Nat) : Act := .look fun s => .seq
  (onlyIf (F.PAIR_CFG_EN.liveOn 0 s && decide (0 < n))
    (let d (k : Nat) : BitVec 128 := digestOf (digestBytes r (n - 1) k)
     let g : DigestMsg := ⟨BitVec.ofNat 32 (n - 1), BitVec.ofNat 8 s.sump.flags, d 0, d 1, d 2, d 3⟩
     acts [setPair fun p => { p with ownDig := (g :: p.ownDig).take 4, lastDigest := some g }, sipQueue (n - 1) (.digest g),
       suppressJudge]))
  (setSump fun x => { x with flags := 0 })

/-- The digests of a message. -/
def digestAt (g : DigestMsg) (k : Nat) : Nat :=
  match k with | 0 => g.d0.toNat | 1 => g.d1.toNat | 2 => g.d2.toNat | _ => g.d3.toNat

/-- The chambers whose digests differ, as a mask. -/
def digestDiff (a b : DigestMsg) : Nat :=
  ((List.range 4).map fun k => if digestAt a k = digestAt b k then 0 else 2 ^ k).sum

/-! ### The edge cycle -/

/-- A handover that was decided for the edge that begins tick `n` takes effect (R488, R510, R512). -/
def handoverNow (n : Nat) : Act := .look fun s =>
  if !(match s.pair.handover with | some e => decide (e ≤ n) | none => false) then .done
  else if pairIs 2 s then
    .seq (releaseOwn (if partnerSt s = 7 then 7 else 6)) (onlyIf s.pair.thenOut enterOut)
  else if isStandby (pairSt s) then takeOwn
  else setPair fun p => { p with handover := none }

/-- The registers that show the latest tick evaluated (R507). -/
def showDigests (a b : DigestMsg) : Act := acts [
  R.PAIR_FLAGS.set 0 (a.flags.toNat % 16 + b.flags.toNat % 16 * 2 ^ 8 + a.tick.toNat * 2 ^ 32),
  forEach (List.range 4) fun k => .seq (R.PAIR_DIG.set k (digestAt a k)) (R.PAIR_PDIG.set k (digestAt b k))]

/-- A mismatch is recorded. -/
def showMismatch (a b : DigestMsg) : Act := acts [
  F.PAIR_MISMATCH_TICK.set 0 a.tick.toNat, F.PAIR_MISMATCH_VALID.set 0 1, F.PAIR_MISMATCH_CHAMBERS.set 0 (digestDiff a b)]

/-- A further matching tick (R507, R511, R512). -/
def runUp : Act := .seq (F.PAIR_MATCH_RUN.inc 0) (.look fun s =>
  if pairIs 5 s && 64 ≤ F.PAIR_MATCH_RUN.get 0 s then
    acts [F.PAIR_STAT_STATE.set 0 6, F.PAIR_HIST_SYNCED.set 0 1, setPair fun p => { p with syncedTicks := 0 }, raise .PAIR_SYNCED]
  else .done)

/-- The decision rule for tick `k`, at the edge cycle of edge k + 2 (R507, R508). -/
def decideTick (k : Nat) : Act := .look fun s =>
  let owner := pairIs 2 s
  let st := if owner then partnerSt s else pairSt s
  if !owner && !isStandby (pairSt s) then .done
  else match digestFor s.pair.ownDig k, digestFor s.pair.partnerDig k with
  | some a, some b =>
    let mine := decide (a.flags ≠ 0)
    let theirs := decide (b.flags ≠ 0)
    let oFlag := if owner then mine else theirs
    let sFlag := if owner then theirs else mine
    .seq (showDigests a b)
      (if !isCompared st || k < s.pair.checkFrom then onlyIf oFlag (F.PAIR_MATCH_RUN.set 0 0)
       else
        let same := digestDiff a b = 0
        .seq (onlyIf (decide (¬same)) (showMismatch a b))
          (let both : RaiseReq := ⟨.PAIR_BOTH_FAULT, a.flags.toNat % 16, b.flags.toNat % 16, 0, 0⟩
           let suspect (rs : List RaiseReq) : Act :=
             if owner then .seq (setPair fun p => { p with suspect := true }) (raiseAll rs) else goSuspect rs
           if oFlag && sFlag then acts [F.PAIR_HIST_BOTH_FAULT.set 0 1, F.PAIR_MATCH_RUN.set 0 0, suspect [both]]
           else if oFlag then
             if st = 6 then
               if owner then acts [
                 releaseOwn 4, setPair fun p => { p with relReq := true }, goSuspect [⟨.PAIR_RELEASE, 0, 0, 0, 0⟩]]
               else .seq takeOwn (raise .PAIR_TAKEOVER)
             else F.PAIR_MATCH_RUN.set 0 0
           else if sFlag || !same then .seq (F.PAIR_MATCH_RUN.set 0 0) (suspect [])
           else runUp))
  | _, none => onlyIf (isStandby st) (.seq (F.PAIR_CNT_COUNT.inc 6) (F.PAIR_MATCH_RUN.set 0 0))
  | none, some _ => .done

/-- The leases at the edge that begins tick `n` (R502–R504). -/
def leaseJudge (n : Nat) : Act := .look fun s =>
  if isStandby (pairSt s) then
    if s.pair.arrived.contains (BitVec.ofNat 32 (n - 1)) then setPair fun p => { p with missing := 0 }
    else acts [
      F.PAIR_CNT_COUNT.inc 0, setPair fun p => { p with missing := p.missing + 1 },
      .look fun s => if s.pair.missing < 2 then .done
        else if eligible (pairSt s) s then acts [
          F.PAIR_HIST_LEASE_LOST.set 0 1, takeOwn,
          raiseAll [⟨.PAIR_LEASE_LOST, 0, 0, 0, 0⟩, ⟨.PAIR_TAKEOVER, 0, 0, 0, 0⟩]]
        else leaseLost]
  else if pairIs 2 s && isStandby (partnerSt s) then
    let ack := match s.pair.mark with | some m => m.ack.toNat | none => 0
    if toInt 32 (ofInt 32 ((ack : Int) - (n - 2 : Nat))) ≥ 0 then setPair fun p => { p with missing := 0 }
    else acts [
      F.PAIR_CNT_COUNT.inc 1, setPair fun p => { p with missing := p.missing + 1 },
      .look fun s => if s.pair.missing < 2 || !eligible (partnerSt s) s then .done
        else acts [releaseOwn 1, setPair fun p => { p with relReq := true }, formJudge [⟨.PAIR_RELEASE, 0, 0, 0, 0⟩]]]
  else .done

/-- CONVERGE ends when every lane has been copied and CONV_T edges have passed (R511); a long run in SYNCED clears RESYNC
(R512). `was`: the chip was SYNCED in the tick that ends. -/
def convergeEdge (n : Nat) (was : Bool) : Act := .look fun s =>
  if pairIs 4 s && s.pair.lanesLeft.isEmpty then
    if 1 < s.pair.convLeft then setPair fun p => { p with convLeft := p.convLeft - 1 }
    else acts [
      setPair fun p => { p with convLeft := 0, checkFrom := n },
      F.PAIR_STAT_STATE.set 0 (if s.pair.joinUpd then 7 else 5), F.PAIR_MATCH_RUN.set 0 0]
  else if pairIs 6 s && was then
    if 65536 ≤ s.pair.syncedTicks + 1 then
      .seq (F.PAIR_MATCH_RESYNC.set 0 0) (setPair fun p => { p with syncedTicks := 0 })
    else setPair fun p => { p with syncedTicks := p.syncedTicks + 1 }
  else setPair fun p => { p with syncedTicks := 0 }

/-- The MARK of the edge that begins tick `n` (R491, R510). -/
def sendMark (n : Nat) : Act := .look fun s =>
  let ho := pairIs 2 s && (match s.pair.hoReq with | some e => e ≤ n | none => false)
  let m : MarkMsg := { markNow s.pair.relReq ho s with tick := BitVec.ofNat 32 n }
  .seq (setPair fun p => { p with
      lastMark := some m
      relReq := false
      handover := if ho then some (n + 1) else p.handover
      hoReq := if ho then none else p.hoReq })
    (sipQueue n (.mark m))

/-- What the pair logic does in the edge cycle of the edge that begins tick `n`. -/
def pairEdge (n : Nat) : Act := .seq (setPair fun p => { p with sentWrites := [], sentPatches := [], sent := [] })
  (.look fun s => onlyIf (F.PAIR_CFG_EN.liveOn 0 s) (acts [
    onlyIf (s.pair.driveDue && pairIs 2 s) (setPair fun p => { p with own := true, driveDue := false }),
    handoverNow n,
    onlyIf (decide (2 ≤ n)) (decideTick (n - 2)),
    onlyIf (decide (2 ≤ n)) (leaseJudge n),
    setPair fun p => { p with arrived := p.arrived.filter (· = BitVec.ofNat 32 n) },
    .look fun s => onlyIf (isStandby (pairSt s) && !eligible (pairSt s) s && !siphonUp s) leaseLost,
    convergeEdge n (pairIs 6 s),
    sendMark n]))

/-! ### MODSTATE, R351 -/

/-- What a MODSTATE record names as the diagnostic step. -/
def stepCode : Option DiagStep → Fin 6
  | none => 0 | some .s => 1 | some .d1 => 2 | some .d2 => 3 | some .d3 => 4 | some .e => 5

/-- The record of a channel. -/
def modRec (s : State) (c : Nat) : ModRec :=
  let m := chanAt s c
  { ch := Fin.ofNat 64 c, st := Fin.ofNat 8 (chanSt s c), cause := Fin.ofNat 4 (F.MOD_STAT_FCAUSE.get c s)
    diag := Fin.ofNat 16 (F.MOD_STAT_DIAG.get c s), step := stepCode m.step, left := Fin.ofNat 65536 m.stepLeft, ben := m.ben }

/-- The record of a rail group. -/
def railRec (s : State) (g : Nat) : RailRec :=
  { g := Fin.ofNat 8 g, st := Fin.ofNat 6 (F.RAIL_STAT_STATE.get g s), target := Fin.ofNat 65536 (F.RAIL_STAT_TARGET.get g s)
    vcmd := Fin.ofNat 65536 (F.RAIL_STAT_VCMD.get g s), done := F.RAIL_STAT_DONE.on g s }

/-- An owner with a standby tells it of the channels and rails that have changed since it last did. The ticks left in a step are no change
of their own. -/
def modstateSend : Act := .look fun s =>
  let cs := (List.range 64).map (modRec s)
  let rs := (List.range 8).map (railRec s)
  let news := cs.filter fun r => !(s.pair.modSent.any fun q => { q with left := r.left } = r)
  let rails := rs.filter fun r => !s.pair.railSent.contains r
  onlyIf (pairIs 2 s && isStandby (partnerSt s) && siphonUp s && !(news.isEmpty && rails.isEmpty))
    (.seq (setPair fun p => { p with modSent := cs, railSent := rs }) (sipQueue (tickNum s) (.modstate news rails)))

/-- The link runs for `n` cycles: what has changed is told, and messages go out, one in a cycle (DESIGN CHOICE, log 44). -/
def siphonRun (n : Nat) : Act := .seq modstateSend (.look fun s =>
  forEach (List.range (min n s.pair.waiting.length)) fun _ => sipSend)

/-! ### Taking the owner's state -/

/-- The diagnostic step that a MODSTATE record names. -/
def stepOf (k : Fin 6) : Option DiagStep := match k with
  | 0 => none | 1 => some .s | 2 => some .d1 | 3 => some .d2 | 4 => some .d3 | 5 => some .e

/-- A modulator channel follows the owner into the state `st` (R351). -/
def followChan (r : ModRec) : Act := .look fun s =>
  let c := r.ch.val
  let old := chanSt s c
  acts [
    F.MOD_STAT_FCAUSE.set c r.cause, F.MOD_STAT_DIAG.set c r.diag, F.MOD_STAT_STATE.set c r.st,
    if old = r.st.val then .done
    else match r.st.val with
      | 0 | 7 => onlyIf (decide (old ≠ 0 ∧ old ≠ 7)) (chanDisable c (8 * tickNum s + 2))
      | 3 => setChan c fun m => { m with ben := true, dis := 0, disPer := 0, gNum := 0, gDen := 1, zero := false }
      | 4 => setChan c fun m =>
          let g : Nat × Nat := if old = 3 then (m.gNum, m.gDen) else (1, 1)
          { m with ben := true, zero := false, zeroDue := false, dis := 0, disPer := 0, gNum := g.1, gDen := g.2 }
      | 5 => setChan c fun m => { m with zeroDue := true }
      | _ => .done,
    onlyIf (decide (r.st.val = 1)) (setChan c fun m =>
      let st := stepOf r.step
      { m with
        ben := r.ben, step := st, stepLeft := r.left.val, queued := st.isNone
        meas := if m.step = st then m.meas else [], measBad := m.measBad && decide (m.step = st) }),
    onlyIf (decide (r.st.val = 2)) (setChan c fun m => { m with ben := r.ben, step := none, queued := false })]

/-- A rail group follows the owner (R351). -/
def followRail (r : RailRec) : Act := acts [
  F.RAIL_STAT_STATE.set r.g r.st, F.RAIL_STAT_TARGET.set r.g r.target, F.RAIL_STAT_VCMD.set r.g r.vcmd,
  F.RAIL_STAT_DONE.set r.g (b2n r.done)]

/-- The ENGINE record of the edge that begins tick `n` is installed in E2 (R515). -/
def installEngine (n : Nat) : Act := .look fun s =>
  match s.pair.engine with
  | none => .done
  | some g => .seq (setPair fun p => { p with engine := none })
    (onlyIf ((pairIs 3 s || pairIs 4 s) && decide (g.tick = BitVec.ofNat 32 n)) (acts [
      forEach g.sels fun e => .seq (R.GDMA_SEL_STAT.set e.1 e.2.1.toNat) (setGdma (e.1.val / 16) fun x => { x with
        fadeT := smInsert x.fadeT (e.1.val % 16) e.2.2.1, shape := smInsert x.shape (e.1.val % 16) e.2.2.2 }),
      forEach g.sils fun e => setSil e.1 ⟨e.2.1, e.2.2⟩ false,
      forEach g.props fun e => R.DEC_ID_PROP.set e.1 e.2.toNat,
      forEach g.trims fun e => R.DEC_ID_TRIM.set e.1 e.2.toNat,
      forEach g.mutes fun e => .seq (setDec fun d => { d with
          mics := smPut (fun _ => micReset) d.mics e.1 { smGet (fun _ => micReset) d.mics e.1 with mute := (if e.2 = 0 then 0 else e.2 + 1), muteMs := none } })
        (.look fun s => R.DEC_MUTED.set 0 (putBits (R.DEC_MUTED.val 0 s) e.1 e.1 (b2n (decide (0 < e.2))))),
      forEach g.asrcs fun e => .look fun s =>
        let n := e.1.val / 2
        let d := e.1.val % 2
        let take (st : SapSt) : Act := .seq (setSapDir n d fun x => { x with good := e.2.2.1, ratio := e.2.2.2 }) (sapTo n d st)
        if !(sapAsrc s n d && sapRuns (sapAt s n d).st) then .done
        else match e.2.1.val with
          | 4 => take .acquire
          | 5 => take .locked
          | _ => .done,
      forEach g.sapSubs fun e => setSapDir (e.1.val / 2) (e.1.val % 2) fun x => { x with
        hist := smPut (fun _ => chanNew) x.hist e.2.1 { smGet (fun _ => chanNew) x.hist e.2.1 with miss := e.2.2 } },
      forEach g.netSubs fun e => setCltRx e.1 fun x => { x with
        hist := smPut (fun _ => chanNew) x.hist e.2.1 { smGet (fun _ => chanNew) x.hist e.2.1 with miss := e.2.2 } },
      setTick fun t => { t with hist := g.subs.foldl (fun h e =>
        smPut (fun _ => chanNew) h e.1 { smGet (fun _ => chanNew) h e.1 with miss := e.2 }) t.hist }]))

/-! ### Commands of `PAIR_CMD` -/

/-- The edge at which a command written now is applied (R27). -/
def cmdEdge (s : State) : Nat := if inEdgeCycle s then nextTick s + 1 else nextTick s

/-- HANDOVER is dropped: this chip does not own, or has no partner in SYNCED or READY (R510). -/
def noHandover (s : State) : Bool := !(pairIs 2 s && partnerReady s)

/-- HANDOVER (R510). -/
def cmdHandover : Act := .look fun s => setPair fun p => { p with hoReq := some (cmdEdge s) }

/-- OUT is dropped: this chip owns and has no partner in SYNCED or READY (R512). -/
def noOut (s : State) : Bool := pairIs 2 s && !partnerReady s

/-- OUT (R511, R512). -/
def cmdOut : Act := .look fun s =>
  if pairIs 0 s then .done
  else if pairIs 2 s then setPair fun p => { p with hoReq := some (cmdEdge s), thenOut := true }
  else enterOut

/-- JOIN and JOIN_UPD (R511). -/
def cmdJoin (upd : Bool) : Act := .look fun s =>
  if !pairIs 8 s then .done
  else if !siphonUp s then .seq (F.PAIR_STAT_STATE.set 0 1) formJudge
  else if upd then .seq (setPair fun p => { p with joinUpd := true, missing := 0 }) enterConverge
  else enterCopy

/-- PRESET sends RSTREQ (R523). -/
def cmdPreset : Act := .look fun s =>
  onlyIf (siphonUp s) (.seq (setPair fun p => { p with rstReq := true }) (sipQueue (tickNum s) .rstreq))

/-- A write of `PAIR_CMD`; several commands in one write act in the order of their bits (DESIGN CHOICE, log 30). What is dropped makes one
record of the write (R73). -/
def wrPairCmd (m v mask : Nat) : Act := .look fun s =>
  let w := v &&& mask
  let d0 := bitOf w 0 && noOut s
  acts [
    onlyIf (bitOf w 0 && !d0) cmdOut, onlyIf (bitOf w 1) (cmdJoin false), onlyIf (bitOf w 2) (cmdJoin true),
    .look fun t =>
      let d3 := bitOf w 3 && noHandover t
      acts [onlyIf (bitOf w 3 && !d3) cmdHandover, onlyIf (bitOf w 4) cmdPreset, onlyIf (d0 || d3) (dropped m (R.PAIR_CMD.addr 0))]]

/-- A write to `PAIR_PATCH` (R495). -/
def wrPairPatch (m v mask : Nat) : Act := .look fun s =>
  let e := entryOf R.PAIR_PATCH
  if F.TICK_NETMARGIN_NS.live 0 s < F.PAIR_PATCH_NS.of (afterWrite e 0 m v mask s) + 400 then dropped m (R.PAIR_PATCH.addr 0)
  else storeWrite e 0 m v mask (R.PAIR_PATCH.addr 0)

/-! ### Commands -/

/-- PAIR_LINK_UP (R489). -/
def execPairLinkUp (s : State) : Host.Outcome State Fault Refusal := answer goLinkUp s

/-- PAIR_LINK_DOWN (R489). -/
def execPairLinkDown (s : State) : Host.Outcome State Fault Refusal := answer goLinkDown s

/-- SIPHON_MARK (R502): `seg` is the first segment of the message, `rest` are those after it. -/
def execSiphonMark (seg : List Byte) (rest : List (List Byte)) (s : State) : Host.Outcome State Fault Refusal :=
  answer (message 0x01 (seg :: rest) fun t p => onlyIf (p.length = 8) (takeMark (markOf t p))) s

/-- SIPHON_RSTREQ (R523). -/
def execSiphonRstreq (segs : List (List Byte)) (s : State) : Host.Outcome State Fault Refusal :=
  answer (message 0x02 segs fun _ _ => .look fun s => onlyIf (F.PAIR_CFG_PRST_EN.liveOn 0 s) (sysReset 4)) s

/-- SIPHON_DIGEST (R501), of segments as in SIPHON_MARK. -/
def execSiphonDigest (seg : List Byte) (rest : List (List Byte)) (s : State) : Host.Outcome State Fault Refusal :=
  answer (message 0x03 (seg :: rest) fun t p => onlyIf (p.length = 68)
    (.seq (setPair fun q => { q with partnerDig := (digestFrom t p :: q.partnerDig).take 4 }) suppressJudge)) s

/-- SIPHON_MODSTATE (R351): a standby takes the states of the owner. -/
def execSiphonModstate (cs : List ModRec) (rs : List RailRec) (segs : List (List Byte)) (s : State) :
    Host.Outcome State Fault Refusal :=
  answer (message 0x11 segs fun _ _ => .look fun s =>
    onlyIf (isStandby (pairSt s)) (.seq (forEach cs followChan) (forEach rs followRail))) s

/-- SIPHON_STAMP (R493): the stamps of side A, at side B. -/
def execSiphonStamp (ss : List (Fin 64 × W64)) (segs : List (List Byte)) (s : State) : Host.Outcome State Fault Refusal :=
  answer (message 0x12 segs fun _ _ => .look fun s =>
    forEach ss fun e => stampTaken (e.1.val / 2) (e.1.val % 2) (stampInstant s e.2.toNat)) s

/-- SIPHON_PATCH (R494): a further copy of a stream frame. -/
def execSiphonPatch (f : Frame) (ts : W64) (segs : List (List Byte)) (s : State) : Host.Outcome State Fault Refusal :=
  answer (message 0x20 segs fun _ _ => .look fun s => onlyIf (F.PAIR_CFG_EN.liveOn 0 s)
    (.seq (F.PAIR_CNT_COUNT.inc 4) (cltTake [0, 1, 2, 3] f ts.toNat true))) s

/-- SIPHON_ENGINE (R515). -/
def execSiphonEngine (g : EngineRec) (segs : List (List Byte)) (s : State) : Host.Outcome State Fault Refusal :=
  answer (message 0x31 segs fun _ _ => .look fun s => onlyIf (pairIs 3 s || pairIs 4 s) (setPair fun p => { p with engine := some g })) s

/-- FORM_TIMEOUT (R511): side B alone alone takes ownership once the partner's OWN pin has been low for START_MS,
with the link down. -/
def execFormTimeout (s : State) : Host.Outcome State Fault Refusal :=
  answer (.look fun s => onlyIf (pairIs 1 s && !sideA s && !siphonUp s && !s.pair.partnerOwn &&
      passed s.pair.ownAt (msCycles (F.PAIR_CFG_START_MS.live 0 s) s) s)
    (.seq takeOwn (raise .PAIR_TAKEOVER))) s

/-- OWN_PIN_CHANGE (R486): outside pair mode a side-A chip owns its outputs while it reads OWN_B low. -/
def execOwnPinChange (low : Bool) (s : State) : Host.Outcome State Fault Refusal :=
  answer (.look fun s => .seq (setPair fun p => { p with partnerOwn := !low, ownAt := if p.partnerOwn = low then s.elapsed else p.ownAt })
    (.look fun s => .seq (onlyIf (pairIs 0 s) (setPair fun p => { p with own := sideA s && low })) formJudge)) s

/-- PAIR_PRESET (R523). -/
def execPairPreset (m : Master) (s : State) : Host.Outcome State Fault Refusal :=
  answer (arrive m (R.PAIR_CMD.addr 0) 0xF 16 (wrPairCmd m 16 (fullMask 1))) s

/-- PAIR_HANDOVER (R510). -/
def execPairHandover (m : Master) (s : State) : Host.Outcome State Fault Refusal :=
  answer (arrive m (R.PAIR_CMD.addr 0) 0xF 8 (wrPairCmd m 8 (fullMask 1))) s

/-- PAIR_JOIN (R511). -/
def execPairJoin (m : Master) (s : State) : Host.Outcome State Fault Refusal :=
  answer (arrive m (R.PAIR_CMD.addr 0) 0xF 2 (wrPairCmd m 2 (fullMask 1))) s

/-- PAIR_JOIN_UPD (R511). -/
def execPairJoinUpd (m : Master) (s : State) : Host.Outcome State Fault Refusal :=
  answer (arrive m (R.PAIR_CMD.addr 0) 0xF 4 (wrPairCmd m 4 (fullMask 1))) s

/-- PAIR_CMD_OUT (R512). -/
def execPairCmdOut (m : Master) (s : State) : Host.Outcome State Fault Refusal :=
  answer (arrive m (R.PAIR_CMD.addr 0) 0xF 1 (wrPairCmd m 1 (fullMask 1))) s

/-- COPY_PASS_COMPLETE (R513): the image check words are judged. -/
def execCopyPassComplete (s : State) : Host.Outcome State Fault Refusal :=
  answer (.look fun s => onlyIf (pairIs 3 s)
    (if s.pair.icwDiff then .seq enterOut (raise .PAIR_IMAGE_DIFF) else enterConverge)) s

/-- PAIR_PATCH_WRITE (R495). -/
def execPairPatchWrite (m : Master) (v : Word) (s : State) : Host.Outcome State Fault Refusal :=
  answer (arrive m (R.PAIR_PATCH.addr 0) 0xF v.toNat (wrPairPatch m v.toNat (fullMask 1))) s

end Sys2Proof.Machine
end

