-- ==== Sys2Proof/Machine/Clk.lean ====
section
/-! DEFINITION. The clock unit: PLLs, reference selection, the loop's schedule, holdover and the clock outputs
(15_clocks_and_references.md). The loop filter itself is not stated, so y in ACQUIRE and LOCKED is a free value, within the bound of R473
about the frequency of the reference (log 29). -/

namespace Sys2Proof.Machine

/-! ### States -/

/-- Entry into a state (R475): 0 FREERUN, 1 ACQUIRE, 2 LOCKED, 3 HOLDOVER, 4 HOLD_EXPIRED. -/
def clkEnter (c : Nat) : Act := .look fun s => acts [
  F.CLK_STAT_STATE.set 0 c,
  F.CLK_HIST_ENTERED.set 0 (F.CLK_HIST_ENTERED.get 0 s ||| 2 ^ c),
  match c with
  | 0 => raise .CLK_FREERUN
  | 1 => raise .CLK_ACQUIRE
  | 2 => raise .CLK_LOCKED
  | 3 => raise .CLK_HOLDOVER
  | _ => raise .CLK_HOLD_EXPIRED]

/-- State code of the unit. -/
def clkSt (s : State) : Nat := F.CLK_STAT_STATE.get 0 s

/-- Limit of y, ±200 ppm in 2^−16 ppb (R462). -/
def yLimit : Int := 200000 * 65536

/-- Set the common correction; bits [63:48] of `CLK_Y` copy bit 47. -/
def setY (y : Int) : Act := R.CLK_Y.set 0 (ofInt 64 (min yLimit (max (-yLimit) y)))

/-- The common correction. -/
def yVal (s : State) : Int := toInt 48 (F.CLK_Y_Y.get 0 s)

/-- y in FREERUN (R475). -/
def setFreeY : Act := .look fun s => setY (min 200000 (max (-200000) (toInt 32 (F.CLK_FR_PPB.get 0 s))) * 65536)

/-- FREERUN is entered: nothing is selected. -/
def goFreerun : Act := acts [
  setClk fun c => { c with sel := none, dwell := 0, cand := none, wtr := 0 },
  F.CLK_STAT_REF.set 0 7, F.CLK_STAT_STEP.set 0 0, setFreeY, clkEnter 0]

/-! ### The schedule, R472 -/

/-- Dwell of a step in ms. -/
def stepDwell : Nat → Nat
  | 0 => 20 | 1 => 100 | 2 => 500 | 3 => 2000 | _ => 8000

/-- Threshold of a step in ns; the last step has none. -/
def stepThr : Nat → Option Nat
  | 0 => some 1000 | 1 => some 200 | 2 => some 100 | 3 => some 50 | 4 => some 20 | _ => none

/-- Reference `k` is shown valid. -/
def refValid (s : State) (k : Nat) : Bool := bitOf (F.CLK_REFSTAT_VALID.get 0 s) k

/-- Final step of a reference (R468). -/
def finalStep (s : State) (k : Nat) : Nat :=
  match k with
  | 0 => 5 | 1 => 3 | 2 => if refValid s 0 then 5 else 3 | _ => 4

/-- LOCKED is entered from ACQUIRE at the final step (R475). -/
def lockJudge : Act := .look fun s =>
  match s.clk.sel with
  | some k => onlyIf (clkSt s = 1 && finalStep s k ≤ F.CLK_STAT_STEP.get 0 s) (clkEnter 2)
  | none => .done

/-- The loop advances one step after its dwell (R472). -/
def stepAdvance : Act := .look fun s =>
  let n := F.CLK_STAT_STEP.get 0 s
  match s.clk.sel with
  | some k =>
    if n < finalStep s k && stepDwell n ≤ s.clk.dwell then acts [
      F.CLK_STAT_STEP.set 0 (n + 1), setClk fun c => { c with dwell := 0 }, lockJudge]
    else .done
  | none => .done

/-- Loop bandwidth of a step in tenths of a hertz. -/
def stepBw : Nat → Nat
  | 0 => 2000 | 1 => 500 | 2 => 100 | 3 => 20 | 4 => 5 | _ => 1

/-- Nominal frequency in Hz of REF1 and REF3 (`CLK_REF1.RATE`; `CLK_REF3.TEN` and MULT). -/
def refRate (s : State) (k : Nat) : Nat :=
  if k = 1 then
    (if !F.CLK_REF1_RATE.on 0 s then fsHz (rated s) else if fsHz (rated s) % 44100 = 0 then 44100 else 48000)
  else if F.CLK_REF3_TEN.on 0 s then 10000000 else min 512 (max 1 (F.CLK_REF3_MULT.get 0 s)) * 48000

/-- What is seen of the edges of REF1 or REF3: their frequency and the counter time of the latest. -/
def refEdge (o : RefObs) (k : Nat) : Nat × Nat := if k = 1 then (o.freq1, o.at1) else (o.freq3, o.at3)

/-- Phase error of REF1 or REF3 in 2^−16 ns, as a fraction: the time by which its latest edge, moved by the offset of the reference, lies
after the nearest counter time that R467 asks for, so at most half a period of the reference (R467, R469). -/
def edgeErr (s : State) (o : RefObs) (k : Nat) : Int × Nat :=
  let r := refRate s k
  let ofs := if k = 1 then toInt 24 (F.CLK_REF1_REF1_OFS.get 0 s) else toInt 15 (F.CLK_REF3_REF3_OFS.get 0 s)
  let per : Int := 1000000000 * 65536 * 1000
  let x := ((((refEdge o k).2 : Int) * 1000 + ofs * 65536) * r) % per
  (if per < 2 * x then x - per else x, 1000 * r)

/-- Frequency of reference `k` as a correction in 2^−16 ppb (R462, R473). -/
def refFreq (s : State) (o : RefObs) (k : Nat) : Int :=
  match k with
  | 0 => o.off0
  | 2 => o.off2
  | _ => (((refEdge o k).1 : Int) - refRate s k * 65536) * 1000000000 / refRate s k

/-- Take the phase error of this millisecond, where the reference gives one: REF0 and REF2 give the offset of PTP while REF0 is valid
(R474). -/
def takePherr (o : RefObs) (k : Nat) : Act := .look fun s =>
  if k = 0 || (k = 2 && refValid s 0) then R.CLK_PHERR.set 0 (R.PTP_OFS.val 0 s)
  else if k = 2 then .done
  else roundFree (edgeErr s o k).1 (edgeErr s o k).2 fun e => R.CLK_PHERR.set 0 (ofInt 64 e)

/-- The loop moves y: within ±PPM of the frequency of the reference, and there a free function of bandwidth, y, frequency and phase
error (R472, R473; log 29). -/
def loopMove (o : RefObs) (k : Nat) : Act := .look fun s =>
  let ppm : Int := max 1 (F.CLK_SLEW_PPM.get 0 s) * 1000 * 65536
  let f := refFreq s o k
  draw fun r => setY (min (f + ppm) (max (f - ppm)
    (Config.loopFilter (stepBw (F.CLK_STAT_STEP.get 0 s)) (yVal s) f (toInt 64 (R.CLK_PHERR.val 0 s)) r)))

/-- A millisecond of the loop: the phase error is judged by the step in force. While REF2 is selected and REF0 is not valid there is no
phase path: the schedule ends at step 3, no step falls back, and every millisecond counts toward the dwell (R472, R474; DESIGN CHOICE,
log 29). -/
def loopMs (o : RefObs) : Act := .look fun s =>
  match s.clk.sel with
  | none => .done
  | some k =>
    let noPhase := k = 2 && !refValid s 0
    .seq (takePherr o k) (.look fun s =>
      let mag := (toInt 64 (R.CLK_PHERR.val 0 s)).natAbs
      let n := min (F.CLK_STAT_STEP.get 0 s) (if noPhase then 3 else 5)
      let within := noPhase || (match stepThr n with | some t => decide (mag ≤ t * 65536) | none => false)
      let back := !noPhase && (match stepThr n with | some t => decide (4 * t * 65536 < mag) | none => false)
      acts [
        F.CLK_STAT_STEP.set 0 (if back then n - 1 else n),
        setClk fun c => { c with dwell := if within && !back then c.dwell + 1 else 0 },
        loopMove o k,
        lockJudge])

/-! ### History and holdover, R476, R477 -/

/-- The values of y that count: the 60 s that end 1 s ago. -/
def yCounted (s : State) : List Int := ((s.clk.yHist.drop 1000).take 60000).filterMap id

/-- One more millisecond of history. -/
def histMs : Act := .look fun s =>
  let y := if s.clk.sel.isSome && 3 ≤ F.CLK_STAT_STEP.get 0 s then some (yVal s) else none
  .seq (setClk fun c => { c with yHist := (y :: c.yHist).take 61000 })
    (.look fun s => F.CLK_STAT_HISTOK.set 0 (b2n (decide (10000 ≤ (yCounted s).length))))

/-- E0 × t + DRIFT × t² / 2 ≤ HOLD_NS for a time of `t` ms. -/
def holdFits (s : State) (t : Nat) : Bool :=
  2000000 * F.CLK_HOLD_E0.get 0 s * t + F.CLK_HOLD_DRIFT.get 0 s * t * t ≤ 2000000000 * F.CLK_HOLDNS_HOLD_NS.get 0 s

/-- The largest time in ms that fits, as far as the register holds it (R477). -/
def holdTime (s : State) : Nat :=
  (List.range 32).foldl (fun t i => if holdFits s (t + 2 ^ (31 - i)) then t + 2 ^ (31 - i) else t) 0

/-- HOLDOVER is entered (R475–R477). -/
def goHoldover : Act := .look fun s =>
  let ok := F.CLK_STAT_HISTOK.on 0 s
  let ys := yCounted s
  acts [
    onlyIf (ok && ys ≠ []) (roundFree ys.sum ys.length setY),
    F.CLK_HOLD_LEFT_MS.set 0 (if ok then holdTime s else 0),
    setClk fun c => { c with sel := none, dwell := 0, cand := none, wtr := 0 },
    F.CLK_STAT_REF.set 0 7,
    clkEnter 3]

/-! ### References, R468–R471 -/

/-- Edges of REF1 or REF3 are present at the set rate: no further from it than 1 kHz, one edge in the millisecond, or 200 ppm (DESIGN
CHOICE, log 29). -/
def refPresent (s : State) (o : RefObs) (k : Nat) : Bool :=
  let f := (refEdge o k).1
  let d := ((f : Int) - refRate s k * 65536).natAbs
  f ≠ 0 && (decide (d ≤ 1000 * 65536) || decide (d * 5000 ≤ refRate s k * 65536))

/-- REF1 to REF3 stay within ±FRANGE ppm, at most 200, of their nominal frequency (R468). -/
def refInRange (s : State) (o : RefObs) (k : Nat) : Bool :=
  decide ((refFreq s o k).natAbs ≤ min 200 (F.CLK_FRANGE_FRANGE.get 0 s) * 1000 * 65536)

/-- The condition of reference `k` that ends its validity at once, and the check that counts. -/
def refSeen (s : State) (o : RefObs) (k : Nat) : Bool × Bool :=
  match k with
  | 0 =>
    let slave := (List.range 4).find? fun p => F.PTP_PSTAT_STATE.get p s == 8 || F.PTP_PSTAT_STATE.get p s == 9
    let ok := F.PTP_CFG_EN.on 0 s && !F.PTP_STAT_GM.on 0 s &&
      (match slave with | some p => !s.ptp.lost.contains p | none => false)
    (ok, ok)
  | 2 => (F.ETH_PSTAT_LINK.on (F.CLK_REF2_PORT.get 0 s) s, refInRange s o 2)
  | _ => (refPresent s o k, refInRange s o k)

/-- Judge reference `k` for this millisecond (R468, R471). -/
def refJudge (o : RefObs) (k : Nat) : Act := .look fun s =>
  let (cond, chk) := refSeen s o k
  let ok := cond && chk
  let was := refValid s k
  let good := if ok then smGet (fun _ => 0) s.clk.good k + 1 else 0
  let bad := if ok then 0 else smGet (fun _ => 0) s.clk.bad k + 1
  let now := if k = 0 then ok
    else if was then cond && bad < 4
    else ok && F.CLK_FRANGE_QMS.get 0 s ≤ good
  let v := F.CLK_REFSTAT_VALID.get 0 s
  acts [
    setClk fun c => { c with good := smInsert c.good k good, bad := smInsert c.bad k bad },
    F.CLK_REFSTAT_VALID.set 0 (putBits v k k (b2n now)),
    onlyIf (was && !now) (.seq (F.CLK_REFSTAT_LOST.set 0 (F.CLK_REFSTAT_LOST.get 0 s ||| 2 ^ k)) (raise .CLK_REF_LOST k))]

/-- PRIO of reference `k`. -/
def refPrio (s : State) (k : Nat) : Nat := bitsOf (R.CLK_REFPRIO.val 0 s) (4 * k + 3) (4 * k)

/-- Reference `a` ranks above `b`. -/
def refAbove (s : State) (a b : Nat) : Bool :=
  let p (k : Nat) : Nat := if refPrio s k = 0 then 16 else refPrio s k
  p a < p b || (p a == p b && a < b)

/-- The candidate (R470). -/
def refCandidate (s : State) : Option Nat :=
  if F.CLK_REFCFG_FORCE_EN.on 0 s then
    (if refValid s (F.CLK_REFCFG_FORCE.get 0 s) then some (F.CLK_REFCFG_FORCE.get 0 s) else none)
  else ((List.range 4).filter fun k => refValid s k && refPrio s k ≠ 0).foldl
    (fun b k => match b with | some x => if refAbove s k x then some k else b | none => some k) none

/-- A reference is selected (R471, R475): ACQUIRE from step 0 out of FREERUN, else from step 1. -/
def refSelect (k : Nat) : Act := .look fun s => acts [
  F.CLK_STAT_STEP.set 0 (if clkSt s = 0 then 0 else 1),
  setClk fun c => { c with sel := some k, dwell := 0, cand := none, wtr := 0 },
  raise .CLK_REF_SWITCH (match s.clk.sel with | some r => r | none => 7) k,
  F.CLK_HIST_SWITCH.set 0 1,
  F.CLK_STAT_REF.set 0 k,
  clkEnter 1]

/-- The selection of one evaluation (R470). -/
def refChoose : Act := .look fun s =>
  let c := refCandidate s
  let keep : Act := setClk fun x => { x with cand := none, wtr := 0 }
  .seq (match s.clk.sel, c with
    | none, some k => refSelect k
    | none, none => .done
    | some r, _ =>
      if !refValid s r then goHoldover
      else match c with
        | none => keep
        | some k =>
          if k = r then keep
          else if s.clk.forceNew && F.CLK_REFCFG_FORCE_EN.on 0 s then refSelect k
          else if !F.CLK_REFCFG_REVERT.on 0 s || !refAbove s k r then keep
          else
            let n := if s.clk.cand = some k then s.clk.wtr + 1 else 0
            if F.CLK_REFCFG_WTR.get 0 s * 1000 ≤ n then refSelect k
            else setClk fun x => { x with cand := some k, wtr := n })
    (setClk fun x => { x with forceNew := false })

/-- One evaluation. While FREERUN is forced the selection stops, and references and history are judged on (R468, R475, R476). The loop
works on a reference from the evaluation after the one that selects it, so ACQUIRE is entered with the y in force (R472). -/
def refEvaluate (o : RefObs) : Act := .look fun s =>
  if !s.clk.up || !passed s.clk.evalAt (msCycles 1 s) s then .done
  else acts [
    setClk fun c => { c with evalAt := s.elapsed },
    forEach (List.range 4) (refJudge o),
    onlyIf (!F.CLK_CTRL_FREERUN.on 0 s) (acts [
      onlyIf (clkSt s = 3) (F.CLK_HOLD_LEFT_MS.set 0 (F.CLK_HOLD_LEFT_MS.get 0 s - 1)),
      refChoose,
      .look fun t => onlyIf (t.clk.sel = s.clk.sel) (loopMs o)]),
    histMs]

/-! ### Clock outputs, R478–R481 -/

/-- Frequency of format `f` as a fraction of Hz. -/
def outFreq (s : State) (f : Nat) : Nat × Nat :=
  match f with
  | 0 => (fsHz s, 1)
  | 1 => (256 * fsHz s, 1)
  | 2 => (512 * fsHz s, 1)
  | 3 => (if fsHz s % 44100 = 0 then 44100 else 48000, 1)
  | 4 => (fsHz s, spt s)
  | _ => (1, 1)

/-- A level and format past the limits of R479 at the rate in force. -/
def outPast (s : State) (level fmt : Nat) : Bool :=
  let (n, d) := outFreq s fmt
  100000000 * d < n || (level == 2 && 50000000 * d < n)

/-- Set the misalignment of output `n`, given as a fraction of ns, with its PEND bit (R480). -/
def setMis (n : Nat) (num : Int) (den : Nat) : Act := roundFree num den fun v => .look fun s => acts [
  F.CLK_OUTMIS_MIS.set n (ofInt 32 v),
  F.CLK_ALIGNPEND_PEND.set 0 (putBits (F.CLK_ALIGNPEND_PEND.get 0 s) n n (b2n (decide (den < num.natAbs))))]

/-- What drives the pins of a clock output (R479): `cmos` and `lvds` carry the format's edges. -/
inductive OutDrive where
  | highZ | low | cmos18 | cmos33 | lvds
  deriving DecidableEq, Repr

/-- The drive of CLKOUT`n`: high impedance while the output is off, the chip does not own or LISTEN
is in force, low while PLL_B is out of lock or the format
is past its limit (R465, R479, R482, R485, R589). -/
def outDrive (s : State) (n : Nat) : OutDrive :=
  if !drives s || !F.CLK_OUT_EN.on n s then .highZ
  else match F.CLK_OUT_LEVEL.get n s with
    | 0 => .highZ
    | l => if !s.clk.lockB || s.clk.lowOut.contains n then .low
      else if l = 1 then .cmos18 else if l = 2 then .cmos33 else .lvds

/-- Counter time in ns, as a fraction, of the `k`-th rising edge of the internal sample clock, once its phase has been set (R466). -/
def sampleEdge (s : State) (k : Nat) : Option (Nat × Nat) :=
  if s.clk.phased then some (k * 1000000000, fsHz s) else none

/-- Counter time in ns, as a fraction, of the `k`-th rising edge of CLKOUT`n` as the output runs, the falling one where `outRises` says so:
the nominal position of its format and the misalignment (R478, R480). The frame pulse has its nominal edges at tick edges (R20). -/
def outEdge (s : State) (n k : Nat) : Option (Int × Nat) :=
  let (f, d) := outFreq s (F.CLK_OUT_FMT.get n s)
  let mis := toInt 32 (F.CLK_OUTMIS_MIS.get n s)
  match outDrive s n with
  | .highZ | .low => none
  | _ =>
    if !s.clk.phased then none
    else if F.CLK_OUT_FMT.get n s = 4 then some ((edgePos k s * 1000 : Nat) + mis * cclkMHz s, cclkMHz s)
    else some ((k * 1000000000 * d : Nat) + mis * f, f)

/-- The edges at the nominal positions of CLKOUT`n` are rising: POL is 0 (R478). -/
def outRises (s : State) (n : Nat) : Bool := !F.CLK_OUT_POL.on n s

/-- Width in ns, as a fraction, of the pulses of format `f`: half a period, a sample period, or 100 ms (R478). -/
def outWidth (s : State) (f : Nat) : Nat × Nat :=
  match f with
  | 4 => (1000000000, fsHz s)
  | 5 => (100000000, 1)
  | _ => (1000000000 * (outFreq s f).2, 2 * (outFreq s f).1)

/-- Output `n` takes a phase that the spec leaves open, within half a period at the rate in force, or while the tick stands at the rate
written last. -/
def outUnset (n : Nat) : Act := .look fun s =>
  let (f, d) := outFreq (rated s) (F.CLK_OUT_FMT.get n s)
  let half := 1000000000 * d / (2 * max 1 f)
  draw fun r => setMis n ((r % (2 * half + 1) : Nat) - (half : Int)) 1

/-- A step of the counter by `cyc` cycles moves the nominal positions of the enabled outputs; a step of 0 takes each misalignment anew
within half the period that a new fs gives (R480). -/
def outStepped (cyc : Int) : Act := .look fun s =>
  forEach ((List.range 8).filter fun n => F.CLK_OUT_EN.on n s) fun n =>
    let (f, d) := outFreq (rated s) (F.CLK_OUT_FMT.get n s)
    let mhz := cclkMHz s
    -- in 1 / (f × MHz) ns, modulo the period
    let per : Int := 1000000000 * d * mhz
    let x := ((cyc * 1000 + toInt 32 (F.CLK_OUTMIS_MIS.get n s) * mhz) * f) % per
    setMis n (if per < 2 * x then x - per else x) (f * mhz)

/-- After a change of fs: outputs past their limit are driven low and reported once (R479). -/
def outLimits : Act := .look fun s =>
  let past := (List.range 8).filter fun n =>
    F.CLK_OUT_EN.on n s && outPast s (F.CLK_OUT_LEVEL.get n s) (F.CLK_OUT_FMT.get n s)
  .seq (setClk fun c => { c with lowOut := past })
    (forEach (past.filter fun n => !s.clk.lowOut.contains n) fun n => raise .CLKOUT_CFG_ERR n)

/-- A write to `CLK_OUT` (R479, R480). -/
def wrClkOut (m n v mask : Nat) : Act := .look fun s =>
  let e := entryOf R.CLK_OUT
  let old := R.CLK_OUT.val n s
  let new := afterWrite e n m v mask s
  let on := F.CLK_OUT_EN.of new = 1
  if outPast (rated s) (F.CLK_OUT_LEVEL.of new) (F.CLK_OUT_FMT.of new) then dropped m (R.CLK_OUT.addr n)
  else acts [
    storeWrite e n m v mask (R.CLK_OUT.addr n),
    setClk fun c => { c with lowOut := c.lowOut.filter (· ≠ n) },
    if !on then setMis n 0 1
    else onlyIf (F.CLK_OUT_EN.of old = 0 || F.CLK_OUT_FMT.of new ≠ F.CLK_OUT_FMT.of old) (outUnset n)]

/-- A write to `CLK_ALIGN` (R481). -/
def wrClkAlign (v : Nat) : Act := .look fun s =>
  forEach ((List.range 8).filter fun n => bitOf v n && F.CLK_OUT_EN.on n s) fun n => setMis n 0 1

/-! ### PLLs, R461–R466 -/

/-- Show the lock of PLL `p`. -/
def showLock (p : Nat) (b : Bool) : Act := .look fun s =>
  F.CLK_STAT_PLLOK.set 0 (putBits (F.CLK_STAT_PLLOK.get 0 s) p p (b2n b))

/-- PLL `p` is out of lock, and a new lock starts: its dither LFSR is loaded (R464). -/
def lockStart (p : Nat) : Act := .look fun s =>
  let v := max 1 (F.CLK_SEED_SEED.get p s)
  .seq (setClk fun c => { c with lfsr := smInsert c.lfsr p (BitVec.ofNat 32 v, s.elapsed) }) (showLock p false)

/-- One step of the dither LFSR, polynomial x^32 + x^22 + x^2 + x + 1 (R464). -/
def lfsrStep (v : Word) : Word := v <<< 1 ||| BitVec.ofNat 32 (b2n (v.getLsbD 31 ^^ v.getLsbD 21 ^^ v.getLsbD 1 ^^ v.getLsbD 0))

/-- The dither of the least significant fraction bit of PLL `p`: bit 0 of its LFSR, which steps once per CCLK cycle (R464; DESIGN CHOICE,
log 105). It changes nothing that the spec states. -/
def ditherBit (s : State) (p : Nat) : Bool :=
  let (v, at_) := smGet (fun _ => ((1 : Word), 0)) s.clk.lfsr p
  bitOf (F.CLK_DITHER_CTRL_EN.get 0 s) p && (Nat.repeat lfsrStep (s.elapsed - at_) v).getLsbD 0

/-- 10^6 × 2^32 times the cycles of a tick are divided by fs: C in units of 2^−32 cycle, rounded down (R16). -/
def tickCycles32 (s : State) : Nat := spt s * cclkMHz s * 1000000 * 2 ^ 32 / fsHz s

/-- What `TICK_CYC`, `TICK_CYCFRAC` and `TICK_BUDGET` show of the configuration in force (R16, R19). -/
def showBudget : Act := .look fun s =>
  let c := tickCycles32 s
  acts [
    F.TICK_CYC_CYC_INT.set 0 (c / 2 ^ 32), F.TICK_CYCFRAC_FRAC.set 0 (c % 2 ^ 32),
    F.TICK_BUDGET_LANE_CYC.set 0 (c / 2 ^ 32 - 2048)]

/-- The counter resumes on the grid of the FSEL now in force, nearest the value it held (R463), and C follows the new CCLK. -/
def gridResume : Act := .look fun s =>
  let new := F.CLK_PLLA_FSEL.on 0 s
  let mhz := if new then 1250 else 1200
  acts [
    .upd (.now ((2 * s.now * mhz + cclkMHz s) / (2 * cclkMHz s))),
    setClk fun c => { c with fsel := new, relockA := false, hold := false },
    showBudget]

/-- PLL `p` achieves lock. -/
def pllLock (p : Pll) : Act := .look fun s =>
  match p with
  | .a => if s.clk.lockA then .done else acts [
      setClk fun c => { c with lockA := true }, showLock 0 true,
      onlyIf s.clk.hold gridResume,
      onlyIf (!s.clk.up) (.seq (setClk fun c => { c with up := true }) goFreerun)]
  | .b => if s.clk.lockB then .done else acts [
      setClk fun c => { c with lockB := true, relockB := false, phased := false }, showLock 1 true,
      onlyIf s.clk.relockB (forEach ((List.range 8).filter fun n => F.CLK_OUT_EN.on n s) outUnset)]
  | .c => if s.clk.lockC then .done else acts [
      setClk fun c => { c with lockC := true }, showLock 2 true]

/-- PLL `p` has been out of lock for more than 10 µs (R465). -/
def pllUnlock (p : Pll) : Act := .look fun s =>
  let hist (i : Nat) : Act := F.CLK_HIST_UNLOCK.set 0 (F.CLK_HIST_UNLOCK.get 0 s ||| 2 ^ i)
  match p with
  | .a => if s.clk.lockA then acts [
      setClk fun c => { c with lockA := false }, lockStart 0, hist 0, raise .CLK_PLL_UNLOCK_A 0] else .done
  | .b => if s.clk.lockB then acts [
      setClk fun c => { c with lockB := false, phased := false }, lockStart 1, hist 1, raise .CLK_PLL_UNLOCK_BC 1] else .done
  | .c => if s.clk.lockC then acts [
      setClk fun c => { c with lockC := false }, lockStart 2, hist 2, raise .CLK_PLL_UNLOCK_BC 2,
      forEach (List.range 4) fun p => linkChange p false] else .done

/-- A change of the PLL_B family is commanded (R461, R463). -/
def familyRelock : Act := .seq (setClk fun c => { c with relockB := true, lockB := false, phased := false }) (lockStart 1)

/-- A write to `CLK_PLLA` (R463). -/
def wrClkPlla (m v mask : Nat) : Act := .look fun s =>
  if running s then dropped m (R.CLK_PLLA.addr 0)
  else .seq (storeWrite (entryOf R.CLK_PLLA) 0 m v mask (R.CLK_PLLA.addr 0)) (.look fun s =>
    onlyIf (F.CLK_PLLA_FSEL.on 0 s ≠ s.clk.fsel) (.seq
      (setClk fun c => { c with relockA := true, lockA := false, hold := true }) (lockStart 0)))

/-! ### Other writes -/

/-- A write to `CLK_CTRL` (R475). -/
def wrClkCtrl (m v mask : Nat) : Act := .look fun s =>
  .seq (storeWrite (entryOf R.CLK_CTRL) 0 m v mask (R.CLK_CTRL.addr 0)) (.look fun t =>
    onlyIf (F.CLK_CTRL_FREERUN.on 0 t && !F.CLK_CTRL_FREERUN.on 0 s && s.clk.up)
      (if clkSt s = 0 then setFreeY else goFreerun))

/-- A write to `CLK_REFCFG`; one with FORCE_EN 1 is a FORCE write (R470). -/
def wrClkRefcfg (m v mask : Nat) : Act :=
  .seq (storeWrite (entryOf R.CLK_REFCFG) 0 m v mask (R.CLK_REFCFG.addr 0)) (.look fun s =>
    onlyIf (F.CLK_REFCFG_FORCE_EN.on 0 s) (setClk fun c => { c with forceNew := true }))

/-- A write to `CLK_FR`: y follows it in FREERUN (R475). -/
def wrClkFr (m v mask : Nat) : Act :=
  .seq (storeWrite (entryOf R.CLK_FR) 0 m v mask (R.CLK_FR.addr 0)) (.look fun s =>
    onlyIf (s.clk.up && clkSt s = 0) setFreeY)

/-! ### Commands -/

/-- REF_EVALUATE (R470). -/
def execRefEvaluate (o : RefObs) (s : State) : Host.Outcome State Fault Refusal := answer (refEvaluate o) s

/-- LOOP_STEP_ADVANCE (R472). -/
def execLoopStepAdvance (s : State) : Host.Outcome State Fault Refusal := answer stepAdvance s

/-- CLK_HOLD_EXPIRED (R475, R454). -/
def execClkHoldExpired (s : State) : Host.Outcome State Fault Refusal :=
  answer (.look fun s => onlyIf (clkSt s = 3 && F.CLK_HOLD_LEFT_MS.get 0 s = 0)
    (.seq (clkEnter 4) (.seq (F.PTP_STAT_QUAL.set 0 0) (setPtp fun x => { x with qual := [] })))) s

/-- PLL_LOCK (R461). -/
def execPllLock (p : Pll) (s : State) : Host.Outcome State Fault Refusal := answer (pllLock p) s

/-- PLL_UNLOCK (R465). -/
def execPllUnlock (p : Pll) (s : State) : Host.Outcome State Fault Refusal := answer (pllUnlock p) s

/-- PLLB_PHASE_SET (R466). -/
def execPllbPhaseSet (s : State) : Host.Outcome State Fault Refusal :=
  answer (.look fun s => onlyIf s.clk.lockB (setClk fun c => { c with phased := true })) s

/-- CLK_FORCE_FREERUN (R475): a write of `CLK_CTRL` with FREERUN 1. -/
def execClkForceFreerun (m : Master) (s : State) : Host.Outcome State Fault Refusal :=
  answer (.look fun s =>
    let v := putBits (R.CLK_CTRL.val 0 s) 0 0 1
    arrive m (R.CLK_CTRL.addr 0) 0xF v (wrClkCtrl m v (fullMask 1))) s

/-- CLK_RELEASE_FREERUN (R475): a write of `CLK_CTRL` with FREERUN 0. -/
def execClkReleaseFreerun (m : Master) (s : State) : Host.Outcome State Fault Refusal :=
  answer (.look fun s =>
    let v := putBits (R.CLK_CTRL.val 0 s) 0 0 0
    arrive m (R.CLK_CTRL.addr 0) 0xF v (wrClkCtrl m v (fullMask 1))) s

/-- CLKOUT_REALIGN (R481). -/
def execClkoutRealign (m : Master) (mask : Byte) (s : State) : Host.Outcome State Fault Refusal :=
  answer (arrive m (R.CLK_ALIGN.addr 0) 0xF mask.toNat (wrClkAlign mask.toNat)) s

/-- CLK_OUT_WRITE (R479). -/
def execClkOutWrite (m : Master) (n : Fin 8) (v : Word) (s : State) : Host.Outcome State Fault Refusal :=
  answer (arrive m (R.CLK_OUT.addr n) 0xF v.toNat (wrClkOut m n v.toNat (fullMask 1))) s

/-- CLK_PLLA_WRITE (R463). -/
def execClkPllaWrite (m : Master) (v : Word) (s : State) : Host.Outcome State Fault Refusal :=
  answer (arrive m (R.CLK_PLLA.addr 0) 0xF v.toNat (wrClkPlla m v.toNat (fullMask 1))) s

/-- CLKOUT_SLEW_ALIGNED (R481): the slew ends within 1 ns of the nominal position; where within it the spec leaves open. -/
def execClkoutSlewAligned (n : Fin 8) (s : State) : Host.Outcome State Fault Refusal :=
  answer (.look fun s =>
    onlyIf (!F.CLK_CTRL_INSVC.on 0 s && bitOf (F.CLK_ALIGNPEND_PEND.get 0 s) n)
      (draw fun r => setMis n ((r % 3 : Nat) - 1) 1)) s

end Sys2Proof.Machine
end

