-- ==== Sys2Proof/Machine/Ptp.lean ====
section
/-! DEFINITION. The PTP engine, the system counter's steps, event outputs and capture inputs (14_time_and_ptp.md). The layout
of PTP messages, the data set comparison and the state decision are those of IEEE 1588 (PRESUMED, log 26). -/

namespace Sys2Proof.Machine

/-! ### Time -/

/-- The counter in quarter-nanoseconds. -/
def nowQ (s : State) : Nat := s.now * 4000 / cclkMHz s

/-! ### Event outputs -/

/-- Event output `e`. -/
def evtAt (s : State) (e : Nat) : EvtOut := smGet (fun _ => evtOutReset) s.ptp.evts e

/-- Change an event output. -/
def setEvt (e : Nat) (f : EvtOut → EvtOut) : Act :=
  setPtp fun x => { x with evts := smPut (fun _ => evtOutReset) x.evts e (f (smGet (fun _ => evtOutReset) x.evts e)) }

/-- START of output `e` in ns. -/
def evtStart (s : State) (e : Nat) : Nat := F.PTP_EVT_SEC_SEC.get e s * 1000000000 + F.PTP_EVT_NS_NS.get e s

/-- A time in ns is less than 2 µs ahead of the counter (R458). -/
def evtPast (s : State) (t : Nat) : Bool := t * cclkMHz s < s.now * 1000 + 2000 * cclkMHz s

/-- Schedule index of the first time of output `e` that is not past. -/
def evtFirst (s : State) (e : Nat) : Nat :=
  let t := evtStart s e
  let per := max 1 (F.PTP_EVT_PER_PERIOD.get e s)
  let lim := (s.now * 1000 + 2000 * cclkMHz s + cclkMHz s - 1) / cclkMHz s
  if lim ≤ t then 0 else (lim - t + per - 1) / per

/-- A step moves each periodic schedule to its first time that is not past; a single pulse whose START is past does not
appear (table after R460). -/
def evtStepped : Act := .look fun s =>
  forEach ((List.range 8).filter fun e => (evtAt s e).armed) fun e =>
    if F.PTP_EVT_CTRL_MODE.on e s then setEvt e fun x => { x with k := evtFirst s e }
    else onlyIf (evtPast s (evtStart s e)) (setEvt e fun x => { x with k := 1 })

/-! ### Steps of the counter -/

/-- The counter is stepped to the grid value nearest a target (R442), given as a time in 2^−16 ns times the CCLK frequency in MHz. -/
def counterStep (x : Int) : Act := .look fun s =>
  let n := ((x + 32768000) / 65536000).toNat
  acts [
  .upd (.now n),
  outStepped ((n : Int) - s.now),
  F.PTP_STEPCNT_COUNT.inc 0,
  raise .PTP_STEP,
  evtStepped]

/-! ### Ports -/

/-- PTP port `p`. -/
def ptpAt (s : State) (p : Nat) : PtpPort := smGet (fun _ => ptpPortReset) s.ptp.ports p

/-- State code of a port. -/
def ptpSt (s : State) (p : Nat) : Nat := F.PTP_PSTAT_STATE.get p s

/-- PTP runs on a port. -/
def ptpRuns (s : State) (p : Nat) : Bool := ptpSt s p ≠ 3 && !asleep s

/-- The port follows a master. -/
def ptpFollows (s : State) (p : Nat) : Bool := ptpSt s p == 8 || ptpSt s p == 9

/-- The peer delay mechanism is in use (R447). -/
def ptpPeer (s : State) : Bool := F.PTP_CFG_PROFILE.get 0 s ≠ 0

/-- Count in `PTP_PCNT` of port `p`: 0 received, 1 sent, 2 bad, 3 Sync timeouts. -/
def ptpCnt (p k : Nat) : Act := F.PTP_PCNT_COUNT.inc (4 * p + k)

/-- clockIdentity (R448). -/
def clockId (s : State) : Nat :=
  let a := F.ETH_MAC_ADDR.get 0 s
  a / 2 ^ 24 * 2 ^ 40 + 0xFFFE * 2 ^ 24 + a % 2 ^ 24

/-! ### Best master clock algorithm -/

/-- The node's own data set. -/
def ownSet (s : State) : AnnounceMsg :=
  { domain := Fin.ofNat 256 (F.PTP_CFG_DOMAIN.get 0 s), srcId := BitVec.ofNat 64 (clockId s), srcPort := 0, gmId := BitVec.ofNat 64 (clockId s)
    prio1 := Fin.ofNat 256 (F.PTP_DS_PRIO1.get 0 s), cls := Fin.ofNat 256 (F.PTP_DS_CLASS.get 0 s)
    acc := Fin.ofNat 256 (F.PTP_DS_ACCURACY.get 0 s), var := Fin.ofNat 65536 Config.ptpVariance
    prio2 := Fin.ofNat 256 (F.PTP_DS_PRIO2.get 0 s), steps := 0 }

/-- Lexicographic order of lists of the same length. -/
def lexLt : List Nat → List Nat → Bool
  | a :: as, b :: bs => a < b || (a == b && lexLt as bs)
  | _, _ => false

/-- Data set `a` is better than `b`: by the attributes of the grandmasters, and for one grandmaster by the path. -/
def better (a b : AnnounceMsg) : Bool :=
  if a.gmId = b.gmId then lexLt [a.steps, a.srcId.toNat, a.srcPort] [b.steps, b.srcId.toNat, b.srcPort]
  else lexLt [a.prio1, a.cls, a.acc, a.var, a.prio2, a.gmId.toNat] [b.prio1, b.cls, b.acc, b.var, b.prio2, b.gmId.toNat]

/-- The best of the Announces heard, with its port. -/
def bestHeard (s : State) : Option (Nat × AnnounceMsg) :=
  ((List.range 4).filterMap fun p => (ptpAt s p).ann.map fun a => (p, a)).foldl
    (fun b x => match b with
      | none => some x
      | some y => if better x.2 y.2 then some x else some y) none

/-- The best Announce `a` is better by topology than `y`, of another port, alone: both name one grandmaster, and the path of `y` is no
longer than that through this node (IEEE 1588 and 802.1AS; PRESUMED, log 26). -/
def topoOnly (s : State) (a y : AnnounceMsg) : Bool :=
  y.gmId == a.gmId && (y.steps ≤ a.steps || (y.steps.val == a.steps + 1 && y.srcId.toNat < clockId s))

/-- The state that the decision gives port `p`; a port in LISTENING stays there until R449 lets it out. gPTP knows neither the rule for
classes below 128 nor UNCALIBRATED (IEEE 802.1AS; PRESUMED, log 26). -/
def decide_ (s : State) (p : Nat) : Nat :=
  let own := ownSet s
  let x := ptpAt s p
  let gptp := F.PTP_CFG_PROFILE.get 0 s = 2
  let follow := if ptpSt s p = 9 || gptp then 9 else 8
  let lead := if F.PTP_CFG_SLAVE_ONLY.on 0 s then 4 else 6
  if !x.heard then 4
  else if own.cls < 128 && !gptp && !F.PTP_CFG_SLAVE_ONLY.on 0 s then
    (match x.ann with
     | some a => if better a own then 7 else 6
     | none => 6)
  else match bestHeard s with
    | none => lead
    | some (b, a) =>
      if better own a && !F.PTP_CFG_SLAVE_ONLY.on 0 s then 6
      else if b = p then follow
      else match x.ann with
        | some y => if topoOnly s a y then 7 else lead
        | none => lead

/-- What follows from the states of the ports: the slave port, whether the node is grandmaster, and its identity
(R453, R454). Syncs of another port do not count for a new slave port. The first identity is no change (DESIGN CHOICE, log 26). -/
def gmJudge : Act := .look fun s =>
  let slave := (List.range 4).find? (ptpFollows s)
  let gm := slave.isNone && (List.range 4).any fun p => ptpSt s p == 6
  let id := if gm then clockId s else match bestHeard s, slave with
    | some (_, a), some _ => a.gmId.toNat
    | _, _ => F.PTP_GMID_ID.get 0 s
  let old := F.PTP_GMID_ID.get 0 s
  acts [
    onlyIf (F.PTP_STAT_SLAVEPORT.get 0 s ≠ slave.getD 7) (setPtp fun x => { x with qual := [] }),
    F.PTP_STAT_SLAVEPORT.set 0 (slave.getD 7),
    onlyIf (F.PTP_STAT_GM.on 0 s && !gm && !(List.range 4).any fun p => ptpSt s p == 9)
      (.seq (F.PTP_STAT_QUAL.set 0 0) (setPtp fun x => { x with qual := [] })),
    onlyIf (gm && !F.PTP_STAT_GM.on 0 s) (setPtp fun x => { x with gmAt := s.elapsed }),
    F.PTP_STAT_GM.set 0 (b2n gm),
    onlyIf (id ≠ old) (.seq (F.PTP_GMID_ID.set 0 id)
      (onlyIf (old ≠ 0) (.seq (F.PTP_STAT_GMCHG.set 0 1) (raise .PTP_GM_CHANGE))))]

/-- The state decision on every running port. A port that enters LISTENING hears anew (R449). -/
def stateDecision : Act := .look fun s =>
  .seq (forEach ((List.range 4).filter fun p => ptpSt s p ≠ 3) fun p =>
      let st := decide_ s p
      acts [
        F.PTP_PSTAT_STATE.set p st,
        onlyIf ((st = 8 || st = 9) && !ptpFollows s p) (setPtpPort p fun x => { x with synced := false, sync := none, syncAt := s.elapsed }),
        onlyIf (st = 4 && ptpSt s p ≠ 4) (setPtpPort p fun x => { x with heard := false, annAt := s.elapsed })])
    gmJudge

/-- Ports start and stop with the two EN bits (R449). -/
def portsJudge : Act := .look fun s =>
  .seq (forEach (List.range 4) fun p =>
      let on := F.PTP_CFG_EN.on 0 s && F.PTP_PCFG_EN.on p s
      if on && ptpSt s p = 3 then .seq (setPtpPort p fun _ => { ptpPortReset with annAt := s.elapsed }) (F.PTP_PSTAT_STATE.set p 4)
      else onlyIf (!on && ptpSt s p ≠ 3) (.seq (setPtpPort p fun _ => ptpPortReset) (F.PTP_PSTAT_STATE.set p 3)))
    stateDecision

/-- A write to `PTP_CFG` or `PTP_PCFG`. -/
def wrPtpPort (r : Reg) (m p v mask : Nat) : Act :=
  .seq (storeWrite (entryOf r) p m v mask (r.addr p)) portsJudge

/-! ### Messages sent -/

/-- The header and body of a PTP message. -/
def ptpMsg (s : State) (p ty seq flags logIntv : Nat) (corr : Int) (body : List Byte) : List Byte :=
  bytesBe 1 ((if F.PTP_CFG_PROFILE.get 0 s = 2 then 16 else 0) + ty) ++ bytesBe 1 2 ++ bytesBe 2 (34 + body.length) ++
    bytesBe 1 (F.PTP_CFG_DOMAIN.get 0 s) ++ bytesBe 1 0 ++ bytesBe 2 flags ++ bytesBe 8 (ofInt 64 corr) ++ bytesBe 4 0 ++
    bytesBe 8 (clockId s) ++ bytesBe 2 (p + 1) ++ bytesBe 2 seq ++ bytesBe 1 (if ty = 0 then 0 else if ty = 1 then 1
      else if ty = 8 then 2 else if ty = 9 then 3 else 5) ++ bytesBe 1 logIntv ++ body

/-- Send a message on port `p` with class 2, over the transport of the profile (R447, R450, R451), an event message with what it needs as
it leaves. It leaves on `p` alone. -/
def ptpSend (p : Nat) (ev : Option PtpEvent) (msg : List Byte) : Act := .look fun s =>
  let event := ev.isSome
  let udp := F.PTP_CFG_UDP.on 0 s && F.PTP_CFG_PROFILE.get 0 s ≠ 2
  let src := F.ETH_MAC_ADDR.get 0 s
  let ip := if ptpPeer s then 0xE000006B else 0xE0000181
  let port := if event then 319 else 320
  let f := if udp then mkFrame (0x01005E000000 + ip % 2 ^ 23) src none 0x0800
      (mkUdp 0 1 (F.CLT_IP_ADDR.get 0 s) ip port port msg)
    else mkFrame (if ptpPeer s then 0x0180C200000E else 0x011B19000000) src none 0x88F7 msg
  let i := s.eth.nextItem
  let x : EthItem := { ownItem s f 2 (F.ETH_PCFG_PVID.get p s) (F.ETH_PCFG_PCP.get p s) with event := ev, ports := [p] }
  if !F.ETH_PCFG_EN.on p s || !linkUp s p then .done
  else acts [
    pcnt 4 0, ptpCnt p 1,
    setPtpPort p fun y => { y with lastTx := f },
    setEth fun e => { e with nextItem := i + 1, items := smInsert e.items i x },
    enqueue p i x fun ok => onlyIf (!ok) (setEth fun e => { e with items := smErase e.items i })]

/-- Announce of port `p` (R448, R449). -/
def announceBody (s : State) : List Byte :=
  let a := match bestHeard s, (List.range 4).find? (ptpFollows s) with
    | some (_, x), some _ => x
    | _, _ => ownSet s
  let steps : Nat := if a.srcId.toNat = clockId s then 0 else a.steps + 1
  bytesBe 10 0 ++ bytesBe 2 37 ++ bytesBe 1 0 ++ bytesBe 1 a.prio1 ++ bytesBe 1 a.cls ++ bytesBe 1 a.acc ++
    bytesBe 2 a.var ++ bytesBe 1 a.prio2 ++ bytesBe 8 a.gmId.toNat ++ bytesBe 2 steps ++ bytesBe 1 0xA0

/-- A field of `PTP_INTV` clamped to its range. -/
def ptpIntv (s : State) (f : Fld) (lo hi : Int) : Nat := ofInt 8 (min hi (max lo (toInt 8 (f.get 0 s))))

/-- CCLK cycles of `n` intervals of 2^`f` s, with `f` a field of `PTP_INTV` clamped to its range. -/
def ptpCycles (s : State) (f : Fld) (lo hi : Int) (n : Nat) : Nat :=
  n * cclkMHz s * 1000000 * 2 ^ (min hi (max lo (toInt 8 (f.get 0 s))) + 7).toNat / 128

/-- ANN_TO announce intervals have passed on port `p` (R449). -/
def annDue (s : State) (p : Nat) : Bool :=
  passed (ptpAt s p).annAt (ptpCycles s F.PTP_INTV_ANNOUNCE (-3) 3 (max 2 (F.PTP_INTV_ANN_TO.get 0 s))) s

/-- SYNC_TO sync intervals have passed on port `p` without a Sync (R454). -/
def syncDue (s : State) (p : Nat) : Bool :=
  passed (ptpAt s p).syncAt (ptpCycles s F.PTP_INTV_SYNC (-7) 1 (max 2 (F.PTP_INTV_SYNC_TO.get 0 s))) s

/-! ### Offsets -/

/-- A path-delay measurement in 2^−16 ns (R452). The rounding of the mean is free. -/
def delayTaken (p : Nat) (d : Int) : Act := .look fun s =>
  let ds := (d :: (ptpAt s p).delays).take 8
  roundFree ds.sum ds.length fun mean => acts [
    setPtpPort p fun x => { x with delays := ds, mean := mean },
    onlyIf (ptpFollows s p) (F.PTP_MPD_DELAY.set 0 (ofInt 64 mean))]

/-- The latest QUAL_N Syncs were all good and span QUAL_MS (R453). -/
def qualMet (s : State) (ts : List Nat) : Bool :=
  let n := max 1 (F.PTP_QUAL_QUAL_N.get 0 s)
  n ≤ ts.length && (match ts.head?, ts[n - 1]? with
    | some a, some b => decide (F.PTP_QUAL_QUAL_MS.get 0 s * 1000 * cclkMHz s ≤ a - b)
    | _, _ => false)

/-- A Sync gives the times t1 and t2 in 2^−16 ns on port `p`: the offset and what the node does (R452–R454). -/
def offsetTaken (p : Nat) (t1 t2 : Int) : Act := .look fun s =>
  let off := t2 - t1 - (ptpAt s p).mean
  let big := (F.PTP_STEP_STEP_NS.get 0 s : Int) * 65536 < off.natAbs
  let good := decide (off.natAbs ≤ 65536000)
  let ts := if good then (s.elapsed :: s.ptp.qual).take 256 else []
  acts [
    setPtpPort p fun x => { x with t1 := t1, t2 := t2, synced := true, syncAt := s.elapsed },
    F.PTP_PSTAT_STATE.set p 9,
    F.PTP_STAT_SLAVEPORT.set 0 p,
    F.PTP_OFS_OFFSET.set 0 (ofInt 64 off),
    setPtp fun x => { x with qual := ts, lost := x.lost.filter (· ≠ p) },
    onlyIf (!big) (F.PTP_STAT_STEP_PEND.set 0 0),
    onlyIf (decide big && running s) (F.PTP_STAT_STEP_PEND.set 0 1),
    onlyIf (decide big && !running s) (counterStep ((s.now : Int) * 65536000 - off * cclkMHz s)),
    onlyIf (!good) (F.PTP_STAT_QUAL.set 0 0),
    .look fun s => onlyIf (good && !F.PTP_STAT_STEP_PEND.on 0 s && qualMet s ts) (F.PTP_STAT_QUAL.set 0 1)]

/-- A message comes from the master that port `p` follows. -/
def fromMaster (s : State) (p : Nat) (g : PtpMsg) : Bool :=
  ptpFollows s p && (match (ptpAt s p).ann with | some a => a.srcId == g.srcId && a.srcPort == g.srcPort | none => false)

/-- A received message is counted; `k` goes on when PTP runs on the port and the message is of the domain of the instance. One of another
domain has no effect (DESIGN CHOICE, log 26). -/
def ptpRx (p : Nat) (domain : Nat) (k : State → Act) : Act := .look fun s => onlyIf (ptpRuns s p)
  (.seq (ptpCnt p 0) (onlyIf (domain = F.PTP_CFG_DOMAIN.get 0 s) (.look k)))

/-- Port identity of a sender. -/
def portIdOf (g : PtpMsg) : Nat := g.srcId.toNat * 65536 + g.srcPort

/-- Port identity of port `p` of the node. -/
def ownPortId (s : State) (p : Nat) : Nat := clockId s * 65536 + p + 1

/-- The answer `g` is to a request of port `p` (R447): its requesting port identity names the port. -/
def toPort (s : State) (p : Nat) (g : PtpMsg) : Bool := g.reqId.toNat * 65536 + g.reqPort == ownPortId s p

/-! ### Counter access -/

/-- The counter in 2^−16 ns. -/
def nowFrac (s : State) : Nat := s.now * 65536000 / cclkMHz s

/-- Word `w` of the counter: 0 FRAC, 1 NS, 2 SECLO, 3 SECHI (R439). -/
def timeWord (t w : Nat) : Nat :=
  match w with
  | 0 => t % 65536
  | 1 => t / 65536 % 1000000000
  | 2 => t / 65536000000000 % 2 ^ 32
  | _ => t / 65536000000000 / 2 ^ 32 % 65536

/-- A read of `PTP_TIME_FRAC` (R443). -/
def timeRead (m : Nat) : Act := .look fun s =>
  let t := nowFrac s
  .seq (setPtp fun x => { x with
      latch := [1, 2, 3].foldl (fun l w => smInsert l (4 * m + w) (BitVec.ofNat 32 (timeWord t w))) x.latch })
    (respond m [timeWord t 0])

/-- A read of another counter word: its latch, released, or the counter (R443, R82). -/
def timeWordRead (m w : Nat) : Act := .look fun s =>
  match smFind s.ptp.latch (4 * m + w) with
  | some v => .seq (setPtp fun x => { x with latch := smErase x.latch (4 * m + w) }) (respond m [v.toNat])
  | none => respond m [timeWord (nowFrac s) w]

/-- A write of a buffered counter word (R443). -/
def timeBuffer (m w v : Nat) : Act :=
  setPtp fun x => { x with wbuf := smInsert x.wbuf (4 * m + w) (BitVec.ofNat 32 v) }

/-- A write of `PTP_TIME_SECHI` commits a step (R443). A word that the master has not buffered keeps the counter's value
(DESIGN CHOICE, log 28). -/
def timeCommit (m v : Nat) : Act := .look fun s =>
  let w (i : Nat) : Nat := match smFind s.ptp.wbuf (4 * m + i) with
    | some x => x.toNat
    | none => timeWord (nowFrac s) i
  let bad := running s || (List.range 4).any (ptpFollows s) || 999999999 < w 1
  let t : Nat := (v % 65536 * 2 ^ 32 + w 2) * 65536000000000 + w 1 * 65536 + w 0 % 65536
  .seq (setPtp fun x => { x with wbuf := [0, 1, 2].foldl (fun l i => smErase l (4 * m + i)) x.wbuf })
    (if bad then dropped m (R.PTP_TIME_SECHI.addr 0) else counterStep ((t : Int) * cclkMHz s))

/-! ### Event outputs and capture inputs: writes and reads -/

/-- A write to `PTP_EVT_CTRL` (R457, R458). A change of MODE while EN is 1 is refused in that field alone. -/
def wrEvtCtrl (m e v mask : Nat) : Act := .look fun s =>
  let en := entryOf R.PTP_EVT_CTRL
  let a := R.PTP_EVT_CTRL.addr e
  let old := F.PTP_EVT_CTRL_EN.on e s
  let new := afterWrite en e m v mask s
  let on := F.PTP_EVT_CTRL_EN.of new = 1
  let wid := F.PTP_EVT_WID_WIDTH.get e s
  let per := F.PTP_EVT_PER_PERIOD.get e s
  let bad := 999999999 < F.PTP_EVT_NS_NS.get e s || wid < 10 ||
    (F.PTP_EVT_CTRL_MODE.of new = 1 && (per < 20 || per - 10 < wid))
  let modeHit := old && F.PTP_EVT_CTRL_MODE.of new ≠ F.PTP_EVT_CTRL_MODE.get e s
  if on && !old && bad then dropped m a
  else acts [
    storeWrite en e m v (if old then putBits mask 30 30 0 else mask) a,
    onlyIf modeHit (dropped m a),
    onlyIf (on && !old) (setEvt e fun x => { x with armed := false, arming := true, k := 0 }),
    onlyIf (!on) (setEvt e fun x => { x with armed := false, arming := false })]

/-- A write to the time, period or seconds of a schedule: dropped while EN is 1 (R457). -/
def wrEvtTime (r : Reg) (m e v mask : Nat) : Act := .look fun s =>
  let a := r.addr e + 4 * (r.words - 1)
  if F.PTP_EVT_CTRL_EN.on e s then dropped m a else storeWrite (entryOf r) e m v mask a

/-- The schedule of output `e` is armed (R458). -/
def evtArmed (e : Nat) : Act := .look fun s =>
  let past := evtPast s (evtStart s e)
  let late : Act := .seq (F.PTP_EVT_CTRL_LATE.set e 1) (raise .EVT_LATE e)
  if !(evtAt s e).arming then .done
  else if !F.PTP_EVT_CTRL_MODE.on e s && past then acts [
    setEvt e fun x => { x with arming := false }, F.PTP_EVT_CTRL_EN.set e 0, late]
  else acts [
    setEvt e fun x => { x with arming := false, armed := true, k := if past then evtFirst s e else 0 },
    onlyIf past late]

/-- Counter time in ns at which the next pulse of output `e` starts: START + k × PERIOD (R456). -/
def evtTime (s : State) (e : Nat) : Nat :=
  evtStart s e + if F.PTP_EVT_CTRL_MODE.on e s then (evtAt s e).k * F.PTP_EVT_PER_PERIOD.get e s else 0

/-- The edges of a pulse at `t` of `w` ns on the grid of 32 steps in a CCLK cycle (R321, R456); which neighbour of an exact time is taken
is free (DESIGN CHOICE, log 108). -/
def evtEdges (t w : Nat) (k : Nat → Nat → Act) : Act := .look fun s =>
  roundFree ((t * cclkMHz s * 32 : Nat) : Int) 1000 fun up =>
    roundFree (((t + w) * cclkMHz s * 32 : Nat) : Int) 1000 fun down => k up.toNat down.toNat

/-- A pulse starts once the counter has reached its time (R456). -/
def evtPulse (e : Nat) : Act := .look fun s =>
  let x := evtAt s e
  if !x.armed || x.active || (!F.PTP_EVT_CTRL_MODE.on e s && 0 < x.k) || s.now * 1000 < evtTime s e * cclkMHz s then .done
  else
    -- the width counts in CCLK cycles from the nominal start, so a step of the counter does not change it
    let lead := s.now * 1000 - evtTime s e * cclkMHz s
    let wid := F.PTP_EVT_WID_WIDTH.get e s
    let stop := s.elapsed + (wid * cclkMHz s + 999 - min (wid * cclkMHz s) lead) / 1000
    evtEdges (evtTime s e) wid fun up down =>
      .seq (setEvt e fun x => { x with active := true, k := x.k + 1, stop := stop, up := up, down := down })
        (F.PTP_EVT_CTRL_ACTIVE.set e 1)

/-- A pulse ends after its WIDTH (R456, R458). -/
def evtPulseEnd (e : Nat) : Act := .look fun s =>
  onlyIf ((evtAt s e).active && decide ((evtAt s e).stop ≤ s.elapsed))
    (.seq (setEvt e fun x => { x with active := false }) (F.PTP_EVT_CTRL_ACTIVE.set e 0))

/-- Level of pin EVT`e`: the active level of POL during a pulse; high impedance on a chip that does not own (R456, R458, R485)
and in LISTEN (R589). -/
def evtPin (s : State) (e : Nat) : Option Bool :=
  if drives s then some ((evtAt s e).active != F.PTP_EVT_CTRL_POL.on e s) else none

/-- Capture input `c`. -/
def capAt (s : State) (c : Nat) : CapIn := smGet (fun _ => ⟨[], false⟩) s.ptp.caps c

/-- Change a capture input. -/
def setCap (c : Nat) (f : CapIn → CapIn) : Act :=
  setPtp fun x => { x with caps := smPut (fun _ => ⟨[], false⟩) x.caps c (f (smGet (fun _ => ⟨[], false⟩) x.caps c)) }

/-- The T64 of an edge in this CCLK cycle: `ts` where it lies within the cycle, else the counter (R459; DESIGN CHOICE, log 108). -/
def capStamp (s : State) (ts : Nat) : Nat :=
  let q := t64Quarters ts
  let now := nowQ s % (2 ^ 32 * 4000000000)
  if now ≤ q && q * cclkMHz s ≤ now * cclkMHz s + 4000 && ts % 2 ^ 32 < 4000000000 then ts else t64 (nowQ s)

/-- An edge on a capture input (R459). -/
def capEdge (c : Nat) (rise : Bool) (ts : Nat) : Act := .look fun s =>
  let x := capAt s c
  let ts := capStamp s ts
  let sel := bitOf (F.PTP_CAP_CFG_EDGE.get c s) (if rise then 0 else 1)
  if !F.PTP_CAP_CFG_EN.on c s || !sel || asleep s then .done
  else if x.fifo.length < 16 then setCap c fun y => { y with fifo := y.fifo ++ [(BitVec.ofNat 64 ts, rise)] }
  else acts [
    F.PTP_CAP_OVF_COUNT.inc c,
    onlyIf (!x.ovfTick) (.seq (setCap c fun y => { y with ovfTick := true }) (raise .CAP_OVF c))]

/-- A read of `PTP_CAP_HEAD` (R460). -/
def capHead (m c : Nat) : Act := .look fun s =>
  match (capAt s c).fifo with
  | [] => respond m [0]
  | (t, rise) :: rest => acts [
      setCap c fun y => { y with fifo := rest },
      setPtp fun x => { x with capLatch := smInsert x.capLatch (4 * m + c) t },
      respond m [2 ^ 31 + b2n rise * 2 ^ 30 + rest.length]]

/-! ### Commands -/

/-- PTP_SYNC (R452): a one-step Sync gives its offset at once, a two-step one waits for its Follow_Up. -/
def execPtpSync (p : Port) (g : PtpMsg) (s : State) : Host.Outcome State Fault Refusal :=
  answer (ptpRx p g.domain fun s =>
    let rx := ingressQ s p g.rx
    if !fromMaster s p g then .done
    else if g.twoStep then setPtpPort p fun x => { x with sync := some ⟨g.seq, rx, g.corr, 0⟩, syncAt := s.elapsed }
    else offsetTaken p ((g.origin : Int) * 65536 + g.corr) (quarters rx)) s

/-- PTP_FOLLOW_UP (R451). -/
def execPtpFollowUp (p : Port) (g : PtpMsg) (s : State) : Host.Outcome State Fault Refusal :=
  answer (ptpRx p g.domain fun s => match (ptpAt s p).sync with
    | some y =>
      if fromMaster s p g && y.seq = g.seq then
        .seq (setPtpPort p fun x => { x with sync := none })
          (offsetTaken p ((g.origin : Int) * 65536 + y.corr + g.corr) (quarters y.rx))
      else .done
    | none => .done) s

/-- PTP_ANNOUNCE (R448). -/
def execPtpAnnounce (p : Port) (g : AnnounceMsg) (s : State) : Host.Outcome State Fault Refusal :=
  answer (ptpRx p g.domain fun s =>
    if g.srcId.toNat = clockId s || 255 ≤ g.steps.val then .done
    else
      let x := ptpAt s p
      let take := match x.ann with
        | none => true
        | some a => (a.srcId == g.srcId && a.srcPort == g.srcPort) || better g a
      .seq (setPtpPort p fun x => { x with heard := true, ann := if take then some g else x.ann, annAt := if take then s.elapsed else x.annAt }) stateDecision) s

/-- PTP_DELAY_REQ (R447): a master port answers with the receipt time. -/
def execPtpDelayReq (p : Port) (g : PtpMsg) (s : State) : Host.Outcome State Fault Refusal :=
  answer (ptpRx p g.domain fun s =>
    if ptpPeer s || ptpSt s p ≠ 6 then .done
    else ptpSend p none (ptpMsg s p 9 g.seq 0 (ptpIntv s F.PTP_INTV_DELAY (-7) 3) g.corr
      (ptpStamp (ingressQ s p g.rx) ++ bytesBe 10 (portIdOf g)))) s

/-- PTP_DELAY_RESP (R447). -/
def execPtpDelayResp (p : Port) (g : PtpMsg) (s : State) : Host.Outcome State Fault Refusal :=
  answer (ptpRx p g.domain fun s =>
    let x := ptpAt s p
    match x.req with
    | some (seq, t3) =>
      if !ptpPeer s && fromMaster s p g && toPort s p g && seq = g.seq then
        .seq (setPtpPort p fun x => { x with req := none })
          (roundFree (x.t2 - x.t1 + ((g.origin : Int) * 65536 - g.corr - quarters t3)) 2 (delayTaken p))
      else .done
    | none => .done) s

/-- PTP_PDELAY_REQ (R450, R451). -/
def execPtpPdelayReq (p : Port) (g : PtpMsg) (s : State) : Host.Outcome State Fault Refusal :=
  answer (ptpRx p g.domain fun s =>
    let rx := ingressQ s p g.rx
    let one := F.PTP_PCFG_ONESTEP.on p s
    if !ptpPeer s then .done
    else ptpSend p (some ⟨3, one, g.seq, rx, portIdOf g⟩)
      (ptpMsg s p 3 g.seq (if one then 0 else 0x200) 0x7F g.corr
        (ptpStamp (if one then 0 else rx) ++ bytesBe 10 (portIdOf g)))) s

/-- PTP_PDELAY_RESP (R450, R451). -/
def execPtpPdelayResp (p : Port) (g : PtpMsg) (s : State) : Host.Outcome State Fault Refusal :=
  answer (ptpRx p g.domain fun s =>
    let rx := ingressQ s p g.rx
    match (ptpAt s p).req with
    | some (seq, t1) =>
      if !ptpPeer s || !toPort s p g || seq ≠ g.seq then .done
      else if g.twoStep then setPtpPort p fun x => { x with pdel := some ⟨g.seq, rx, g.corr, g.origin⟩ }
      else .seq (setPtpPort p fun x => { x with req := none })
        (roundFree (quarters rx - quarters t1 - g.corr) 2 (delayTaken p))
    | none => .done) s

/-- PTP_PDELAY_RESP_FOLLOW_UP (R451). -/
def execPtpPdelayRespFollowUp (p : Port) (g : PtpMsg) (s : State) : Host.Outcome State Fault Refusal :=
  answer (ptpRx p g.domain fun s =>
    let x := ptpAt s p
    match x.req, x.pdel with
    | some (_, t1), some y =>
      if !ptpPeer s || !toPort s p g || y.seq ≠ g.seq then .done
      else .seq (setPtpPort p fun x => { x with req := none, pdel := none })
        (roundFree (quarters y.rx - quarters t1 - ((g.origin : Int) - y.t2) * 65536 - y.corr - g.corr) 2 (delayTaken p))
    | _, _ => .done) s

/-- PTP_MANAGEMENT_MSG (R447): discarded and counted as bad. -/
def execPtpManagementMsg (p : Port) (s : State) : Host.Outcome State Fault Refusal :=
  answer (.look fun s => ptpRx p (F.PTP_CFG_DOMAIN.get 0 s) fun _ => ptpCnt p 2) s

/-- PTP_SYNC_TX (R450, R451). -/
def execPtpSyncTx (p : Port) (s : State) : Host.Outcome State Fault Refusal :=
  answer (.look fun s =>
    let seq := (ptpAt s p).seqSync
    let one := F.PTP_PCFG_ONESTEP.on p s
    if !ptpRuns s p || ptpSt s p ≠ 6 then .done
    else .seq (setPtpPort p fun x => { x with seqSync := (x.seqSync + 1) % 65536 })
      (ptpSend p (some ⟨0, one, seq, 0, 0⟩)
        (ptpMsg s p 0 seq (if one then 0 else 0x200) (ptpIntv s F.PTP_INTV_SYNC (-7) 1) 0 (ptpStamp 0)))) s

/-- PTP_ANNOUNCE_TX (R449). -/
def execPtpAnnounceTx (p : Port) (s : State) : Host.Outcome State Fault Refusal :=
  answer (.look fun s =>
    if !ptpRuns s p || ptpSt s p ≠ 6 then .done
    else .seq (setPtpPort p fun x => { x with seqAnn := (x.seqAnn + 1) % 65536 })
      (ptpSend p none (ptpMsg s p 11 (ptpAt s p).seqAnn 0 (ptpIntv s F.PTP_INTV_ANNOUNCE (-3) 3) 0 (announceBody s)))) s

/-- PTP_DELAY_REQ_TX (R449): a slave port sends Delay_Req after its first Sync; in the peer profiles every running port sends
Pdelay_Req. -/
def execPtpDelayReqTx (p : Port) (s : State) : Host.Outcome State Fault Refusal :=
  answer (.look fun s =>
    let x := ptpAt s p
    let peer := ptpPeer s
    if !ptpRuns s p || (!peer && !(ptpFollows s p && x.synced)) then .done
    else .seq (setPtpPort p fun x => { x with seqDel := (x.seqDel + 1) % 65536 })
      (ptpSend p (some ⟨if peer then 2 else 1, false, x.seqDel, 0, 0⟩) (ptpMsg s p (if peer then 2 else 1) x.seqDel 0 0x7F 0
        (ptpStamp 0 ++ (if peer then bytesBe 10 0 else []))))) s

/-- PTP_FOLLOW_UP_TX (R451). -/
def execPtpFollowUpTx (p : Port) (s : State) : Host.Outcome State Fault Refusal :=
  answer (.look fun s => if !ptpRuns s p then .done else match (ptpAt s p).follow with
    | [] => .done
    | (pd, seq, tx, req) :: rest => .seq (setPtpPort p fun x => { x with follow := rest })
        (if pd then ptpSend p none (ptpMsg s p 10 seq 0 0x7F (quarters (tx % 4)) (ptpStamp tx ++ bytesBe 10 req))
         else ptpSend p none (ptpMsg s p 8 seq 0 (ptpIntv s F.PTP_INTV_SYNC (-7) 1) (quarters (tx % 4)) (ptpStamp tx)))) s

/-- PTP_ANNOUNCE_TIMEOUT (R449), once ANN_TO announce intervals have passed. -/
def execPtpAnnounceTimeout (p : Port) (s : State) : Host.Outcome State Fault Refusal :=
  answer (.look fun s => onlyIf (ptpRuns s p && annDue s p)
    (.seq (setPtpPort p fun x => { x with ann := none, heard := true, annAt := s.elapsed }) stateDecision)) s

/-- PTP_SYNC_LOSS (R454), once SYNC_TO sync intervals have passed; a loss is reported once. -/
def execPtpSyncLoss (p : Port) (s : State) : Host.Outcome State Fault Refusal :=
  answer (.look fun s => onlyIf (ptpRuns s p && ptpFollows s p && !s.ptp.lost.contains p && syncDue s p) (acts [
    F.PTP_STAT_SYNC_LOST.set 0 1, ptpCnt p 3,
    setPtp fun x => { x with lost := x.lost.filter (· ≠ (p : Nat)) ++ [(p : Nat)] },
    raise .PTP_SYNC_LOSS p])) s

/-- PTP_GM_QUAL (R453), once the node has been grandmaster for QUAL_MS ms. -/
def execPtpGmQual (s : State) : Host.Outcome State Fault Refusal :=
  answer (.look fun s => onlyIf (F.PTP_STAT_GM.on 0 s && !F.PTP_STAT_STEP_PEND.on 0 s &&
    passed s.ptp.gmAt (msCycles (F.PTP_QUAL_QUAL_MS.get 0 s) s) s) (F.PTP_STAT_QUAL.set 0 1)) s

/-- PTP_TIME_READ (R443). -/
def execPtpTimeRead (m : Master) (s : State) : Host.Outcome State Fault Refusal :=
  answer (reads m (R.PTP_TIME_FRAC.addr 0) (timeRead m)) s

/-- PTP_TIME_COMMIT (R443). -/
def execPtpTimeCommit (m : Master) (v : Word) (s : State) : Host.Outcome State Fault Refusal :=
  answer (arrive m (R.PTP_TIME_SECHI.addr 0) 0xF v.toNat (timeCommit m v.toNat)) s

/-- EVT_ARM (R457): a write of `PTP_EVT_CTRL` with EN 1. -/
def execEvtArm (m : Master) (e : Fin 8) (v : Word) (s : State) : Host.Outcome State Fault Refusal :=
  answer (let w := putBits v.toNat 31 31 1
    arrive m (R.PTP_EVT_CTRL.addr e) 0xF w (wrEvtCtrl m e w (fullMask 1))) s

/-- EVT_ARMED (R458). -/
def execEvtArmed (e : Fin 8) (s : State) : Host.Outcome State Fault Refusal := answer (evtArmed e) s

/-- EVT_DISARM (R458): a write of `PTP_EVT_CTRL` with EN 0. -/
def execEvtDisarm (m : Master) (e : Fin 8) (v : Word) (s : State) : Host.Outcome State Fault Refusal :=
  answer (let w := putBits v.toNat 31 31 0
    arrive m (R.PTP_EVT_CTRL.addr e) 0xF w (wrEvtCtrl m e w (fullMask 1))) s

/-- EVT_PULSE (R456). -/
def execEvtPulse (e : Fin 8) (s : State) : Host.Outcome State Fault Refusal := answer (evtPulse e) s

/-- EVT_PULSE_END (R456). -/
def execEvtPulseEnd (e : Fin 8) (s : State) : Host.Outcome State Fault Refusal := answer (evtPulseEnd e) s

/-- CAP_EDGE (R459). -/
def execCapEdge (c : Fin 4) (rise : Bool) (ts : W64) (s : State) : Host.Outcome State Fault Refusal :=
  answer (capEdge c rise ts.toNat) s

/-- CAP_HEAD_READ (R460). -/
def execCapHeadRead (m : Master) (c : Fin 4) (s : State) : Host.Outcome State Fault Refusal :=
  answer (reads m (R.PTP_CAP_HEAD.addr c) (capHead m c)) s

end Sys2Proof.Machine
end

