-- ==== Sys2Proof/Machine/Spare.lean ====
section
/-! DEFINITION. Spare lanes, slot maps, gallery copies and state set ranges (R89, R90, R518–R522, R524). -/

namespace Sys2Proof.Machine

/-! ### Register writes -/

/-- Slot and placement that field `b` of a slot map word names. -/
def mapSlot (v b : Nat) : Nat := v / 2 ^ (8 * b) % 32
def mapActive (v b : Nat) : Bool := bitOf v (8 * b + 7)

/-- Slots of the active lanes by four slot map words. -/
def mapSlots (vs : List Nat) : List Nat :=
  vs.flatMap fun v => ((List.range 4).filter (mapActive v)).map (mapSlot v)

/-- A write to `GAL_SLOTMAP` `i` of gallery `g` (R89). -/
def wrSlotmap (m g i v mask : Nat) (tie : Bool := false) : Act := .look fun s =>
  let e := entryOf R.GAL_SLOTMAP
  let k := 4 * g + i
  let new := asWritten e k m v mask s
  let words := (List.range 4).map fun j => if j = i then new else R.GAL_SLOTMAP.val (4 * g + j) s
  let slots := mapSlots words
  if (List.range 4).any (fun b => decide (16 < mapSlot new b)) || slots.eraseDups.length ≠ slots.length then
    dropped m (R.GAL_SLOTMAP.addr k)
  else storeWrite e k m v mask (R.GAL_SLOTMAP.addr k) tie

/-- A committed write to `GAL_STSET` of local lane `j` (R524). -/
def wrStset (m g j v mask : Nat) : Act := .look fun s =>
  let e := entryOf R.GAL_STSET
  let k := 16 * g + j
  let new := asWritten e k m v mask s
  let xb := F.GAL_STSET_XBASE.of new
  let xl := F.GAL_STSET_XLEN.of new
  let yb := F.GAL_STSET_YBASE.of new
  let yl := F.GAL_STSET_YLEN.of new
  if 8192 < xb + xl || 8192 < yb + yl || 2048 < xl + yl then dropped m (R.GAL_STSET.addr k + 4)
  else storeWrite e k m v mask (R.GAL_STSET.addr k + 4)

/-- A committed write to `GAL_COPY` (R518). -/
def wrGalCopy (m g v mask : Nat) (tie : Bool := false) : Act := .look fun s =>
  let e := entryOf R.GAL_COPY
  let new := asWritten e g m v mask s
  if F.GAL_COPY_EN.of new = 1 && dramSize s < 4096 * F.GAL_COPY_BASE.of new + 2621440 then dropped m (R.GAL_COPY.addr g + 4)
  else storeWrite e g m v mask (R.GAL_COPY.addr g + 4) tie

/-! ### The spare slot -/

/-- `GAL_SPARE` of gallery `g` follows the slot map in force: IN_USE while S16 holds a logical lane. -/
def spareJudge (g : Nat) : Act := .look fun s =>
  match laneIn s (17 * g + 16) with
  | some n => .seq (F.GAL_SPARE_STATE.set g 2) (F.GAL_SPARE_LANE.set g (n % 16))
  | none => onlyIf (F.GAL_SPARE_STATE.get g s == 2) (F.GAL_SPARE_STATE.set g 0)

/-- No spare for a logical lane (R522). -/
def noSpare (g n : Nat) : Act := raise .LANE_SPARE_NONE g n 0 g

/-- Logical lanes of gallery `g` in FAULT that the spare logic has not dealt with, ascending. -/
def newFaults (s : State) (g : Nat) : List (Nat × Nat) :=
  (List.range 16).filterMap fun j => match slotOf s (16 * g + j) with
    | some l => if (laneAt s l).st == .fault && !s.pair.spareSeen.contains l then some (16 * g + j, l) else none
    | none => none

/-- E3: the spare loader takes the lowest faulted lane of each gallery whose S16 is free, and reports the others (R519, R522). -/
def spareStart : Act := .seq
  (.look fun s => setPair fun p => { p with spareSeen := p.spareSeen.filter fun l => (laneAt s l).st == .fault })
  (forEach (List.range 16) fun g => .look fun s =>
    let fs := newFaults s g
    .seq (setPair fun p => { p with spareSeen := p.spareSeen ++ fs.map (·.2) })
      (match fs with
       | [] => .done
       | (n, l) :: rest =>
         let free := F.GAL_SPARE_AUTO.on g s && (smFind s.pair.spares g).isNone && (laneIn s (17 * g + 16)).isNone
         .seq (if free then acts [
              F.GAL_SPARE_STATE.set g 1, F.GAL_SPARE_LANE.set g (n % 16),
              setPair fun p => { p with spares := smInsert p.spares g ⟨l, n, false⟩ }]
            else noSpare g n)
           (forEach rest fun f => noSpare g f.1)))

/-- The bytes [src, src + n) are copied to `dst`, of the bytes that `keep` admits by their offset. -/
def copyBytes (src dst n : Nat) (keep : Nat → Bool) : Act := .look fun s =>
  .seq (forEach (s.mem.filter fun p => dst ≤ p.1 && p.1 < dst + n) fun p => .upd (.mem p.1 0))
    (forEach (s.mem.filter fun p => src ≤ p.1 && p.1 < src + n && keep (p.1 - src)) fun p => .upd (.mem (p.1 - src + dst) p.2))

/-- Copy the first `n` bytes of a lane's area of the gallery copy at `a` into S16 of gallery `g`: program, X, Y (R518, R519). -/
def loadArea (g a n : Nat) : Act :=
  let b := slotBase (17 * g + 16)
  acts [
    copyBytes a (b + 0x20000) (min n 0x8000) fun _ => true,
    copyBytes (a + 0x8000) b (min (n - 0x8000) 0x10000) fun o => o % 8 < 5,
    copyBytes (a + 0x18000) (b + 0x10000) (min (n - 0x18000) 0x10000) fun o => o % 8 < 5,
    eccFull (b + 0x20000) (min n 0x8000), eccFull b (min (n - 0x8000) 0x10000), eccFull (b + 0x10000) (min (n - 0x18000) 0x10000)]

/-- S16 takes the configuration of the failed slot; its other lane registers are 0 (R519). -/
def loadRegs (g l : Nat) : Act := .look fun s =>
  let t := 17 * g + 16
  acts [
    .upd (.lane t laneReset),
    R.LANE_CTRL.set t 0, R.LANE_STAT.set t 0, R.LANE_FAULT.set t 0, R.LANE_CLIP.set t 0, R.LANE_CYC.set t 0, R.LANE_STALL.set t 0,
    R.LANE_ENTRY.set t (R.LANE_ENTRY.val l s),
    R.LANE_FRAME.set t (R.LANE_FRAME.val l s), R.LANE_FRAME.setLive t (R.LANE_FRAME.liveVal l s),
    R.LANE_ENABLE.set t (R.LANE_ENABLE.val l s), R.LANE_ENABLE.setLive t (R.LANE_ENABLE.liveVal l s)]

/-- The load of gallery `g` ends (R519). An uncorrectable word is written as 0 and ends the load without a swap (R522). -/
def spareLoadEnd (g : Nat) : Act := .look fun s =>
  match smFind s.pair.spares g with
  | none => .done
  | some x =>
    let a := 0x80000000 + 4096 * F.GAL_COPY_BASE.live g s + x.lane % 16 * 0x28000
    let ms := marksIn s a 0x28000
    let bad := ms.filterMap fun p => if p.2.bit.isNone then (eccAddr p.1).map fun q => (q.1, p.1) else none
    if x.done then .done
    else .seq (grant (dmaId g) [a, slotBase (17 * g + 16)]) <| match bad with
    | [] => acts [
        forEach ms fun p => match p.2.bit with | some b => ceReport p.1 b | none => .done,
        loadArea g a 0x28000, loadRegs g x.slot,
        setPair fun p => { p with spares := smInsert p.spares g { x with done := true } }]
    | q :: qs =>
      let first := qs.foldl (fun m r => if r.1 < m.1 then r else m) q
      let k := first.1 - a
      acts [
        forEach ms fun p => match p.2.bit, eccAddr p.1 with
          | some b, some c => onlyIf (c.1 < first.1) (ceReport p.1 b)
          | _, _ => .done,
        loadArea g a k,
        (let dst := slotBase (17 * g + 16) + (if k < 0x8000 then 0x20000 + k else k - 0x8000)
         .seq (memSetLe dst 8 0) (eccFull dst 8)),
        ueNote first.2 (dmaId g) (some .ECC_UE_SPARE),
        F.GAL_SPARE_STATE.set g 3,
        setPair fun p => { p with spares := smErase p.spares g },
        noSpare g x.lane]

/-- The edge that begins tick `n` is a switch edge (R556). -/
def switchHere (n : Nat) (s : State) : Bool := F.STRATA_SWSTAT_STATE.get 0 s == 3 && (match s.strata.sectAt with
  | some e => decide (e ≤ n)
  | none => false)

/-- E2 of the edge that begins tick `n`: the lane of a load that has ended moves to S16 (R90, R521). Every write due at this edge for
the same register is dropped, one of a switch section at its switch edge included; the swap stands in shadow and live map. A
write due at a later edge stays over the swap's value: of one that came before the edge cycle and is held, the swap changes the
field of its lane alone (DESIGN CHOICE, log 92). A lane that is no longer in the failed slot is not moved, and S16 is free again; one whose
S16 a host write has given to another lane during the load is moved all the same, so that both lanes name S16 (DESIGN CHOICE, log 103). -/
def spareSwap (n g : Nat) : Act := .look fun s =>
  match smFind s.pair.spares g with
  | none => .done
  | some x =>
    if !x.done then .done
    else .seq (setPair fun p => { p with spares := smErase p.spares g })
      (if slotOf s x.lane ≠ some x.slot then
        .seq (F.GAL_SPARE_STATE.set g 0) (spareJudge g)
       else
        let j := x.lane % 16
        let k := 4 * g + j / 4
        let a := R.GAL_SLOTMAP.addr k
        let swap (v : Nat) : Nat := putBits v (8 * (j % 4) + 7) (8 * (j % 4)) 0x90
        let new := swap (R.GAL_SLOTMAP.liveVal k s)
        let put (l : List ShWrite) : Act := .upd (.shPend (s.shPend.filter (·.addr ≠ a) ++ l))
        acts [
          (match s.shPend.find? (·.addr = a) with
           | none => R.GAL_SLOTMAP.set k new
           | some w =>
             if w.late then .seq (put [{ w with prev := none }]) (match w.prev with
               | some p => dropped p.2 a
               | none => .done)
             else if w.held && !switchHere n s then R.GAL_SLOTMAP.set k (swap (R.GAL_SLOTMAP.val k s))
             else acts [put [], R.GAL_SLOTMAP.set k new, dropped w.master a]),
          R.GAL_SLOTMAP.setLive k new,
          spareJudge g,
          F.GAL_SPARE_LAST_VALID.set g 1, F.GAL_SPARE_LAST_SLOT.set g (x.slot % 17), F.GAL_SPARE_LAST_LANE.set g x.lane,
          F.GAL_SPARE_LAST_TICK.set g n,
          raise .LANE_SPARED (x.slot % 17) x.lane 0 g])

/-! ### Commands -/

/-- SPARE_LOAD_END (R519). -/
def execSpareLoadEnd (g : Fin 16) (s : State) : Host.Outcome State Fault Refusal := answer (spareLoadEnd g) s

/-- GAL_STSET_WRITE (R524). -/
def execGalStsetWrite (m : Master) (g : Fin 16) (i : Fin 16) (v : W64) (s : State) : Host.Outcome State Fault Refusal :=
  answer (arrivePair m (R.GAL_STSET.addr (16 * g + i)) v.toNat (wrStset m g i v.toNat (fullMask 2))) s

/-- GAL_COPY_WRITE (R518). -/
def execGalCopyWrite (m : Master) (g : Fin 16) (v : W64) (s : State) : Host.Outcome State Fault Refusal :=
  answer (arrivePair m (R.GAL_COPY.addr g) v.toNat (wrGalCopy m g v.toNat (fullMask 2))) s

/-- GAL_SLOTMAP_WRITE (R89). -/
def execGalSlotmapWrite (m : Master) (g : Fin 16) (i : Fin 4) (v : Word) (s : State) : Host.Outcome State Fault Refusal :=
  answer (arrive m (R.GAL_SLOTMAP.addr (4 * g + i)) 0xF v.toNat (wrSlotmap m g i v.toNat (fullMask 1))) s

end Sys2Proof.Machine
end

