-- ==== Sys2Proof/Machine/StrataCtl.lean ====
section
/-! DEFINITION. Layers and records of the image, and the commands of the loader: arming, triggers, the switch edge, the
take-out and return of a gallery (18_strata_configuration.md, R541–R544, R549, R553–R564). -/

namespace Sys2Proof.Machine

/-! ### Records (R543, R544) -/

def recTy (bs : List Byte) : Nat := fieldLe bs 0 1
def recCnt (bs : List Byte) : Nat := fieldLe bs 2 2
def recAddr (bs : List Byte) : Nat := fieldLe bs 4 4

/-- Payload bytes of a record of a type and count. -/
def recBody (ty cnt : Nat) : Nat :=
  match ty with
  | 1 => 16
  | 2 => 4 * cnt
  | 3 => 5 * cnt
  | 4 | 5 => 8 * cnt
  | 6 => 8
  | _ => 0

/-- Bytes of the record at the front, its padding included. -/
def recSize (bs : List Byte) : Nat := 8 + (recBody (recTy bs) (recCnt bs) + 7) / 8 * 8

/-- KIND, INDEX and value of entry `i` of a ROUTE record. -/
def recRoute (bs : List Byte) (i : Nat) : Nat × Nat × Word :=
  let w := fieldLe bs (8 + 8 * i) 4
  (w / 2 ^ 30, w % 65536, BitVec.ofNat 32 (fieldLe bs (12 + 8 * i) 4))

/-- Entries of the table of a KIND. -/
def routeKindSize (k : Nat) : Nat := match k with | 0 => 65536 | 1 => 2048 | 2 => 1600 | _ => 0

/-- The address lies in a register window (R51, R53, R54, R10). -/
def regWindow (a : Nat) : Bool :=
  (a < 0x10000000 && ((a % 0x1000000 < 0x440000 && 0x30000 ≤ a % 0x40000 && a % 0x40000 < 0x31000) ||
    0xF00000 ≤ a % 0x1000000)) ||
  (0x10000000 ≤ a && a < 0x14000000 && 0xF00000 ≤ a % 0x1000000) || (0x20000000 ≤ a && a < 0x20150000)

/-- The address is that of a ramp target, through which ramp memory is filled (R171). -/
def rampWindow (a : Nat) : Bool := a < 0x10000000 && 0xF18000 ≤ a % 0x1000000 && a % 0x1000000 < 0xF20000

/-- The record at the front is complete and well formed (R544). Padding that is not 0 counts as a reserved byte. -/
def recOk (s : State) (bs : List Byte) : Bool :=
  let ty := recTy bs
  let cnt := recCnt bs
  let a := recAddr bs
  let body := recBody ty cnt
  8 ≤ bs.length && recSize bs ≤ bs.length && fieldLe bs 1 1 = 0 &&
    ((bs.take (recSize bs)).drop (8 + body)).all (fun b => decide (b = 0)) &&
  match ty with
  | 0 | 7 => cnt = 0 && a = 0
  | 1 => cnt = 0 && a % 8 = 0 && (!regWindow a || rampWindow a) && 1 ≤ fieldLe bs 8 4 && fieldLe bs 12 4 = 0
  | 2 => 1 ≤ cnt && a % 4 = 0
  | 3 => 1 ≤ cnt && a % 8 = 0 && (match windowOf a s with | some w => w.is40 | none => false)
  | 4 => 1 ≤ cnt && cnt ≤ 4096 && a % 8 = 0 && windowOf a s == some .prog
  | 5 => 1 ≤ cnt && a = 0 && (List.range cnt).all fun i =>
      let (k, x, _) := recRoute bs i
      decide (x < routeKindSize k) && fieldLe bs (10 + 8 * i) 2 % 2 ^ 14 = 0
  | 6 => cnt = 0 && a = 0 && fieldLe bs 8 1 / 128 = 0 && fieldLe bs 8 1 / 8 % 2 = 0 && fieldLe bs 9 1 ≤ 1 &&
      fieldLe bs 12 1 ≤ 1 && fieldLe bs 13 3 = 0
  | _ => false

/-- A layer is well formed: records to its end, the last of them END and no other (R544). -/
def layerOk (s : State) : Nat → List Byte → Bool
  | 0, _ => false
  | n + 1, bs => recOk s bs && (if recTy bs = 0 then decide (bs.length = 8) else layerOk s n (bs.drop (recSize bs)))

/-- A layer of bytes is not malformed. -/
def layerGood (s : State) (bs : List Byte) : Bool := layerOk s (bs.length / 8 + 1) bs

/-! ### Image and layers -/

/-- A field of the header block (R541). -/
def hdrField (s : State) (ofs n : Nat) : Nat := fieldLe s.strata.hdr ofs n

/-- LPDDR5X address of the staged copy. -/
def stageAddr (s : State) : Nat := hdrField s 28 4

/-- Offset, length and check word of overlay `k`. -/
def ovlDir (s : State) (k : Nat) : Nat × Nat × Nat :=
  (hdrField s (64 + 16 * k) 4, hdrField s (68 + 16 * k) 4, hdrField s (72 + 16 * k) 4)

/-- An overlay is marked bad, and reported once (R549). -/
def ovlBad (k : Nat) : Act := .look fun s =>
  let b := F.STRATA_OVL_BAD.get 0 s
  -- BAD is bits [31:17]: bit 16 + k of the register is bit k − 1 of the field
  if bitOf b (k - 1) then .done
  else .seq (F.STRATA_OVL_BAD.set 0 (b + 2 ^ (k - 1))) (raise .STRATA_OVL_BAD k)

/-- Address of scene `k` (R553). -/
def sceneAddr (k : Nat) : Nat := 0x30001000 + k * 0x1000

/-- Find and check a layer (R553, R554): `k` goes on with a RESULT code of `STRATA_SWSTAT`, 0 when the layer can be played, and
with its first address and the address after its last. In DEFAULT no layer can (R551). A warm load reads no overlay for malformation
(R550), so it is checked here (R544, R549; DESIGN CHOICE, log 107). -/
def layerFind (scene : Bool) (idx : Nat) (k : Nat → Nat × Nat → Act) : Act := .look fun s =>
  if F.STRATA_STAT_DEFAULT.on 0 s then k 3 (0, 0)
  else if scene then
    let h := sceneAddr idx
    let len := memLe s.mem (h + 4) 4
    if 1534 < idx then k 3 (0, 0)
    else if memLe s.mem h 4 ≠ 0x454E4353 || 0x30600000 < h + 16 + len then
      eccRead h 16 0 (some .ECC_UE_MASTER) fun ok => k (if ok then 3 else 7) (0, 0)
    else eccRead h (16 + len) 0 (some .ECC_UE_MASTER) fun ok =>
      let bs := memBytes s.mem (h + 16) len
      if !ok then k 7 (0, 0)
      else if memLe s.mem (h + 8) 4 ≠ crc32c bs then k 3 (0, 0)
      else if memLe s.mem (h + 12) 4 ≠ R.STRATA_ICW.val 0 s then k 8 (0, 0)
      else if len % 8 ≠ 0 || !layerGood s bs then k 4 (0, 0)
      else k 0 (h + 16, h + 16 + len)
  else if 1 ≤ idx && idx ≤ 15 && bitOf (R.STRATA_OVL.val 0 s) idx && !bitOf (R.STRATA_OVL.val 0 s) (16 + idx) then
    let (ofs, len, _) := ovlDir s idx
    let a := stageAddr s + ofs
    if F.STRATA_STAT_WARM.on 0 s then eccRead a len 0 (some .ECC_UE_MASTER) fun ok => .look fun s =>
      if !ok then .seq (ovlBad idx) (k 7 (0, 0))
      else if layerGood s (memBytes s.mem a len) then k 0 (a, a + len)
      else .seq (ovlBad idx) (k 4 (0, 0))
    else k 0 (a, a + len)
  else k 3 (0, 0)

/-! ### Arming and triggers (R554, R555, R558, R559) -/

/-- `STRATA_SWSTAT.STATE`: 0 IDLE, 1 ARMING, 2 ARMED, 3 PLAYING, 4 FADING. -/
def swSt (s : State) : Nat := F.STRATA_SWSTAT_STATE.get 0 s

/-- A trigger of R555. -/
def strataTrigger : Act := .look fun s =>
  if swSt s = 2 then .seq (F.STRATA_SWSTAT_STATE.set 0 3) (setStrata fun x => { x with sectAt := none })
  else if swSt s = 3 then .done
  else .seq (F.STRATA_SWSTAT_RESULT.set 0 9) (F.STRATA_SWSTAT_REFCNT.inc 0)

/-- ARM is applied: the pending set is cleared and the layer of `STRATA_SEL` is checked (R554). A layer without MODE fades by the
base MODE's XF and SHAPE. -/
def armApply : Act := .look fun s =>
  if swSt s ≠ 0 then .done
  else
    let scene := F.STRATA_SEL_SRC.on 0 s
    let idx := F.STRATA_SEL_INDEX.get 0 s
    acts [
      F.STRATA_SWSTAT_STATE.set 0 1,
      layerFind scene idx fun code lay => setStrata fun x => { x with
        arm := if code = 0 then some lay else none, armSrc := scene, armIdx := idx, armErr := code
        routes := [], sect := [], sectAt := none
        xf := max 1 (F.STRATA_MODE_XF.get 0 s), shape := F.STRATA_MODE_SHAPE.on 0 s }]

/-- DISARM is applied. -/
def disarmApply : Act := .look fun s =>
  if swSt s = 2 then .seq (F.STRATA_SWSTAT_STATE.set 0 0) (setStrata fun x => { x with routes := [], sect := [], arm := none })
  else .done

/-! ### Galleries out of service (R561–R564) -/

/-- ACTIVE is cleared in the slot maps in force of gallery `g`. -/
def mapsCleared (g : Nat) : Act := forEach (List.range 4) fun i => .look fun s =>
  R.GAL_SLOTMAP.setLive (4 * g + i) (R.GAL_SLOTMAP.liveVal (4 * g + i) s &&& 0x7F7F7F7F)

/-- The RESULT code of `STRATA_GSTAT` for a code of `layerFind`. -/
def reloadCode (c : Nat) : Nat := match c with | 0 => 0 | 4 => 4 | 7 => 6 | _ => 3

/-- A reload runs: its layer plays, or has played and its gallery has not returned yet (R563, R564; DESIGN CHOICE, log 107). -/
def reloadRuns (s : State) : Bool := F.STRATA_GSTAT_BUSY.on 0 s || s.strata.rDone

/-- GO of `STRATA_GCMD` is applied in E2 of the edge that begins tick `n` (R561). -/
def reloadApply (n : Nat) : Act := .look fun s =>
  if reloadRuns s || swSt s = 1 then .done
  else
    let g := F.STRATA_GCMD_GAL.get 0 s
    acts [
      mapsCleared g,
      setStrata fun x => { x with
        rGal := g, rEdge := n, rRet := max 1 (F.STRATA_GCMD_RET_T.get 0 s), rDone := false, rErr := 0, rel := none
        out := x.out.filter (· ≠ g) ++ [g] },
      F.STRATA_GSTAT_OUT.set 0 (F.STRATA_GSTAT_OUT.get 0 s ||| 2 ^ g), F.STRATA_GSTAT_GAL.set 0 g, F.STRATA_GSTAT_BUSY.set 0 1,
      spareJudge g,
      raise .STRATA_RELOAD g 0,
      layerFind (F.STRATA_GCMD_SRC.on 0 s) (F.STRATA_GCMD_INDEX.get 0 s) fun code lay =>
        setStrata fun x => { x with rel := if code = 0 then some lay else none, rErr := reloadCode code }]

/-- E2 of the edge that begins tick `n`: the gallery returns once its layer has been played (R563). -/
def galleryReturn (n : Nat) : Act := .look fun s =>
  let x := s.strata
  let g := x.rGal
  if x.rDone && x.rErr = 0 && x.out.contains g && x.rEdge + x.rRet ≤ n then acts [
    forEach (List.range 4) fun i => R.GAL_SLOTMAP.setLive (4 * g + i) (R.GAL_SLOTMAP.val (4 * g + i) s),
    .upd (.shPend (s.shPend.filter fun w => !(R.GAL_SLOTMAP.addr (4 * g) ≤ w.addr && w.addr < R.GAL_SLOTMAP.addr (4 * g) + 16))),
    setStrata fun x => { x with out := x.out.filter (· ≠ g), rDone := false },
    F.STRATA_GSTAT_OUT.set 0 (putBits (F.STRATA_GSTAT_OUT.get 0 s) g g 0),
    F.STRATA_GSTAT_RESULT.set 0 (if n = x.rEdge + x.rRet then 1 else 2),
    spareJudge g,
    raise .STRATA_RELOAD g 1]
  else .done

/-! ### The switch edge (R556–R558) -/

/-- The value of a route entry by KIND and INDEX. -/
def routeVal (s : State) (k i : Nat) : Word :=
  match k with
  | 0 => smGet (fun _ => 0) s.route.tbl i
  | 1 => BitVec.ofNat 32 (R.ROUTE_BUS.val i s)
  | _ => BitVec.ofNat 32 (R.ROUTE_OUT.val i s)

/-- Address under which a route entry written by the loader is recorded. -/
def routeAddr (k i : Nat) : Nat :=
  match k with
  | 0 => R.ROUTE_TBL.addr (i % 8192)
  | 1 => R.ROUTE_BUS.addr i
  | _ => R.ROUTE_OUT.addr i

/-- The loader writes a route entry (R202, R547). -/
def putRouteKind (k i : Nat) (v : Word) : Act :=
  if k ≠ 1 && srcBad v.toNat then dropped 0 (routeAddr k i)
  else match k with
    | 0 => putRoute i v.toNat
    | 1 => write32 (entryOf R.ROUTE_BUS) 0 i v.toNat
    | _ => write32 (entryOf R.ROUTE_OUT) 0 i v.toNat

/-- An entry of the pending route set is written, and a value that changes is kept (R557). -/
def switchRoute (r : Nat × Nat × Word) : Act := .look fun s =>
  let old := match s.strata.olds.find? fun o => o.kind = r.1 && o.idx = r.2.1 with
    | some o => o.old
    | none => routeVal s r.1 r.2.1
  .seq (putRouteKind r.1 r.2.1 r.2.2) (.look fun s => setStrata fun x => { x with
    olds := (x.olds.filter fun o => !(o.kind = r.1 && o.idx = r.2.1)) ++
      (if routeVal s r.1 r.2.1 = old then [] else [⟨r.1, r.2.1, old⟩]) })

/-- E2 of the edge that begins tick `n` is a switch edge: the held values are released to this E2, the routes are written, ACTIVE
changes (R556–R558). -/
def switchEdge (n : Nat) : Act := .look fun s =>
  match s.strata.sectAt with
  | none => .done
  | some e =>
    if swSt s ≠ 3 || n < e then .done
    else
      let x := s.strata
      let was := F.STRATA_SWSTAT_ACTIVE.get 0 s
      acts [
        .upd (.shPend (s.shPend.map fun w => { w with held := false })),
        setStrata fun x => { x with
          olds := [], fadeFrom := n, sectAt := none
          cmds := x.cmds.map fun c => { c with edge := some (c.edge.getD n) } },
        forEach x.routes switchRoute,
        setStrata fun x => { x with routes := [], sect := [] },
        F.STRATA_SWSTAT_STATE.set 0 4, F.STRATA_SWSTAT_RESULT.set 0 2,
        F.STRATA_SWSTAT_ACTIVE.set 0 x.armIdx, F.STRATA_SWSTAT_ASRC.set 0 (b2n x.armSrc),
        raise .STRATA_SWITCH was x.armIdx]

/-- The edge that begins tick `n` ends the fade (R557). -/
def fadeEnds (n : Nat) : Act := .look fun s =>
  if swSt s = 4 && s.strata.fadeFrom + 1 + s.strata.xf ≤ n then
    .seq (F.STRATA_SWSTAT_STATE.set 0 0) (setStrata fun x => { x with olds := [] })
  else .done

/-- Commands of the loader act, in the order of their bits. -/
def cmdAct (n : Nat) (c : LoaderCmd) : Act := acts [
  onlyIf (bitOf c.bits 0) armApply, onlyIf (bitOf c.bits 1) strataTrigger, onlyIf (bitOf c.bits 2) disarmApply,
  onlyIf (bitOf c.bits 3) (reloadApply n)]

/-- Commands are applied while no edge occurs (R28). -/
def cmdApply (n : Nat) (c : LoaderCmd) : Act :=
  .seq (setStrata fun x => { x with cmds := x.cmds.filter fun e => e.seq ≠ c.seq }) (cmdAct n c)

/-- The commands due at E2 of the edge that begins tick `n` are applied in the order they were written. -/
def strataCmds (n : Nat) : Act := .look fun s =>
  let due (c : LoaderCmd) : Bool := match c.edge with | some e => decide (e ≤ n) | none => false
  .seq (setStrata fun x => { x with cmds := x.cmds.filter fun c => !due c }) (forEach (s.strata.cmds.filter due) (cmdAct n))

/-! ### Register writes -/

/-- Commands written by master `m` to the register at `a`, whose bits in a `LoaderCmd` are those of `own`, wait for their E2. A 0 written
has no effect (R6), so writes of one master before one edge all act; a write of another master takes the place of what it
overwrites (R88; DESIGN CHOICE, log 92). -/
def strataWait (m a own bits : Nat) (tie : Bool) : Act := .look fun s =>
  let due := cmdEdge s
  let same (c : LoaderCmd) : Bool := decide (c.bits &&& own ≠ 0) &&
    (c.edge == some due || (c.edge.isNone && !(inEdgeCycle s && switchDue s)))
  let kept := if (rival a m s).isSome then 0 else (s.strata.cmds.filter same).foldl (fun b c => b ||| c.bits) 0
  .seq (noteShadow a 0 m tie false)
    (onlyIf (!tieLost a m tie s) (.look fun t => setStrata fun x => { x with
      cmds := (x.cmds.filter fun c => !same c) ++ [⟨some due, bits ||| kept, nextSeq t⟩] }))

/-- A write to `STRATA_CMD` (R559). -/
def wrStrataCmd (m v mask : Nat) (tie : Bool := false) : Act := .look fun s =>
  let bits := (v &&& mask) % 8
  let a := R.STRATA_CMD.addr 0
  if bits = 0 then .done
  else if F.STRATA_STAT_BOOT.get 0 s ≠ 4 || (bitOf bits 0 && swSt s ≠ 0) then dropped m a
  else strataWait m a 7 bits tie

/-- A write to `STRATA_GCMD`: GO is dropped while a reload runs or a layer is armed (R564); the other fields are stored, unless the write
loses a tie (R87). -/
def wrGcmd (m v mask : Nat) (tie : Bool := false) : Act := .look fun s =>
  let a := R.STRATA_GCMD.addr 0
  .seq (onlyIf (!(bitOf (v &&& mask) 31 && tieLost a m tie s)) (storeWrite (entryOf R.STRATA_GCMD) 0 m v mask a))
    (if !bitOf (v &&& mask) 31 then .done
     else if reloadRuns s || swSt s = 1 then dropped m a
     else strataWait m a 8 8 tie)

/-! ### Commands -/

/-- STRATA_ARM (R554). -/
def execStrataArm (m : Master) (s : State) : Host.Outcome State Fault Refusal :=
  answer (arrive m (R.STRATA_CMD.addr 0) 0xF 1 (wrStrataCmd m 1 (fullMask 1))) s

/-- STRATA_GO (R555). -/
def execStrataGo (m : Master) (s : State) : Host.Outcome State Fault Refusal :=
  answer (arrive m (R.STRATA_CMD.addr 0) 0xF 2 (wrStrataCmd m 2 (fullMask 1))) s

/-- STRATA_DISARM (R558). -/
def execStrataDisarm (m : Master) (s : State) : Host.Outcome State Fault Refusal :=
  answer (arrive m (R.STRATA_CMD.addr 0) 0xF 4 (wrStrataCmd m 4 (fullMask 1))) s

/-- STRATA_AT_TRIGGER (R555): the tick AT − 1 has begun. -/
def execStrataAtTrigger (s : State) : Host.Outcome State Fault Refusal :=
  answer (.look fun s => onlyIf (running s && F.STRATA_TRIG_MODE.get 0 s == 2 && tickNum s + 1 == F.STRATA_AT_AT.get 0 s)
    strataTrigger) s

/-- GALLERY_RELOAD_GO (R561). -/
def execGalleryReloadGo (m : Master) (v : Word) (s : State) : Host.Outcome State Fault Refusal :=
  answer (arrive m (R.STRATA_GCMD.addr 0) 0xF v.toNat (wrGcmd m v.toNat (fullMask 1))) s

end Sys2Proof.Machine
end

