-- ==== Sys2Proof/Machine/TickCtl.lean ====
section
/-! DEFINITION. Configuration, start and stop of the tick (01_tick_and_latency.md, R28, R46, R641). The edge itself stands in
Tick.lean. -/

namespace Sys2Proof.Machine

/-- The checks and figures that depend on fs and F are taken again: `RAMP_STAT.WORDS`, clock outputs past their limit and their
misalignment (R479, R480), fine paths (R266), and the frame limits of the lanes (R136). -/
def rateTaken : Act := .look fun s => acts [
  forEach (List.range 16) fun g => F.RAMP_STAT_WORDS.set g (rampWords g s),
  outLimits, outStepped 0,
  micsJudge,
  forEach (s.lanes.map (·.1)) fun l => setLane l fun x => { x with cfgErr := false }]

/-- RUN is set while the tick stands (R641): the rate and F written last take force, and the next edge position that R20 allows
begins the first tick. -/
def tickBegin : Act := .look fun s =>
  if running s || s.tick.starting then .done
  else acts [
    setTick fun t => { t with cfg := R.TICK_CFG.val 0 s, starting := true },
    showBudget, rateTaken]

/-- A write to `TICK_CTRL`. RUN 0 stops the tick at its next edge (R28). -/
def wrTickCtrl (m v mask : Nat) : Act :=
  .seq (storeWrite (entryOf R.TICK_CTRL) 0 m v mask (R.TICK_CTRL.addr 0))
    (.look fun s => onlyIf (F.TICK_CTRL_RUN.on 0 s) tickBegin)

/-- A write to `TICK_CFG` (R46): the new values take force when RUN is next set. While the tick stands, later writes are judged by
the new rate and F (`rated`, R547); a change of family relocks PLL_B (R461). -/
def wrTickCfg (m v mask : Nat) : Act := .look fun s =>
  if running s then dropped m (R.TICK_CFG.addr 0)
  else .seq (storeWrite (entryOf R.TICK_CFG) 0 m v mask (R.TICK_CFG.addr 0)) (.look fun t =>
    let old := F.TICK_CFG_FS.get 0 s
    let new := F.TICK_CFG_FS.get 0 t
    onlyIf (decide (old % 2 ≠ new % 2)) familyRelock)

/-! ### Commands -/

/-- TICK_START (R641). -/
def execTickStart (m : Master) (s : State) : Host.Outcome State Fault Refusal :=
  answer (arrive m (R.TICK_CTRL.addr 0) 0xF 1 (wrTickCtrl m 1 (fullMask 1))) s

/-- TICK_STOP (R28). -/
def execTickStop (m : Master) (s : State) : Host.Outcome State Fault Refusal :=
  answer (arrive m (R.TICK_CTRL.addr 0) 0xF 0 (wrTickCtrl m 0 (fullMask 1))) s

/-- TICK_CFG_WRITE (R46). -/
def execTickCfgWrite (m : Master) (v : Word) (s : State) : Host.Outcome State Fault Refusal :=
  answer (arrive m (R.TICK_CFG.addr 0) 0xF v.toNat (wrTickCfg m v.toNat (fullMask 1))) s

end Sys2Proof.Machine
end

