-- ==== Sys2Proof/Machine/Pwr.lean ====
section
/-! DEFINITION. Reset sources, the watchdog, the inputs MUTE_N and EVIN0–3, mains supervision and shutdown, LISTEN, the
keep-alive domain (19_power_reset_bringup.md, R565–R571, R577–R592). -/

namespace Sys2Proof.Machine

/-! ### Reset sources, R568–R570 -/

/-- PORST_N: the supplies are in range when it is released (R566). -/
def porst : Act := .seq (setPwr fun p => { p with vdd := true }) (sysReset 0)

/-- A RESET_N pulse of `ns` ns resets the node from 1 µs on and never below 100 ns; between, the spec leaves it open (R569). -/
def resetPulse (ns : Nat) : Act := .look fun s =>
  if !s.pwr.vdd || ns < 100 then .done
  else if 1000 ≤ ns then sysReset 1
  else draw fun r => onlyIf (r % 2 == 1) (sysReset 1)

/-- A write to `SYS_SWRST` (R570). -/
def wrSwrst (m v mask : Nat) : Act :=
  let w := v &&& mask
  if F.SYS_SWRST_KEY.of w = 0x5AFE && F.SYS_SWRST_GO.of w = 1 then sysReset 2 else dropped m (R.SYS_SWRST.addr 0)

/-- The watchdog timer restarts. -/
def wdogRestart : Act := .look fun s => setPwr fun p => { p with wdogAt := s.elapsed }

/-- A write to `SYS_WDOG` (R570): one that LOCK refuses restarts nothing. -/
def wrWdog (m v mask : Nat) : Act := .look fun s =>
  .seq (storeWrite (entryOf R.SYS_WDOG) 0 m v mask (R.SYS_WDOG.addr 0))
    (.look fun t => onlyIf (!s.lock && F.SYS_WDOG_EN.on 0 t) wdogRestart)

/-- A write to `SYS_WDOG_KICK` (R570). -/
def wrKick (m v mask : Nat) : Act :=
  if F.SYS_WDOG_KICK_KEY.of (v &&& mask) = 0xCAFE then wdogRestart else dropped m (R.SYS_WDOG_KICK.addr 0)

/-- TIMEOUT ms have passed since the latest restart (R570). -/
def wdogDue (s : State) : Bool :=
  F.SYS_WDOG_EN.on 0 s && s.pwr.vdd && passed s.pwr.wdogAt (msCycles (max 1 (F.SYS_WDOG_TIMEOUT.get 0 s)) s) s

/-! ### LISTEN, R589, R590 -/

/-- A wake source ends LISTEN: the node resets itself and records the source. The spec gives the CAUSE of this reset no code;
software, as for R586 (DEDUCED, log 31). -/
def listenExit (src : Nat) : Act := .seq (F.PWR_KALATCH_LWAKE.set 0 src) (sysReset 2 (wake := true))

/-- The switch and P1 to P3 lose their power: what is queued or being sent is discarded, and the links fall. P0 goes to 1000BASE-X,
so its link falls too where its MODE is another (R402; DEDUCED, log 100). -/
def portsSleep : Act := acts [
  forEach (List.range 4) fun p => .look fun s => .seq (portFlush p)
    (match (portAt s p).sending with
     | some i => .seq (setPort p fun x => { x with sending := none }) (itemLeave i p)
     | none => .done),
  .look fun s => forEach ((List.range 4).filter fun p => p ≠ 0 || F.ETH_PCFG_MODE.get 0 s ≠ 2) fun p => linkChange p false]

/-- LISTEN is left without a reset: each port returns to its MODE and restarts its link (R402). -/
def portsWake : Act := forEach (List.range 4) fun p => linkChange p false

/-- A write to `PWR_LP` (R402, R589). -/
def wrLp (m v mask : Nat) : Act := .look fun s =>
  if F.PWR_LP_LISTEN.of (v &&& mask) = 0 then .done
  else if running s || F.PWR_STAT_SD.get 0 s ≠ 0 then dropped m (R.PWR_LP.addr 0)
  else acts [
    portsSleep,
    setPwr fun p => { p with listen := true },
    setClk fun c => { c with lockB := false, phased := false }, lockStart 1,
    dramRefresh]

/-! ### Inputs, R577–R583 -/

/-- Change input `i`. -/
def setIn (i : Nat) (x : InState) : Act := setPwr fun p => { p with ins := smPut (fun _ => inReset) p.ins i x }

/-- The pin of input `i` is at its active level; MUTE_N is active low. -/
def inActive (s : State) (i : Nat) : Bool :=
  let high := !(inAt s i).low
  if i ≠ 0 && F.PWR_INCFG_POL.on i s then high else !high

/-- A write to `PWR_INCFG`: POL of MUTE_N is read-only. -/
def wrIncfg (m i v mask : Nat) : Act :=
  storeWrite (entryOf R.PWR_INCFG) i m v (if i = 0 then mask % 2 ^ 31 else mask) (R.PWR_INCFG.addr i)

/-- An owner with a standby sends a WRITE message of its own to `a` (R560, R583). -/
def sendWrite (a v : Nat) : Act := .look fun s =>
  onlyIf (pairIs 2 s && isStandby (partnerSt s))
    (writeSend { tick := BitVec.ofNat 32 (tickNum s), addr := BitVec.ofNat 32 a, en := 0xF, data := BitVec.ofNat 64 v, master := 1 })

/-- The mute state of an owner, as the value of `PWR_MUTE` that its standby applies (R583). -/
def sendMute : Act := .look fun s =>
  sendWrite (R.PWR_MUTE.addr 0) (putBits (R.PWR_MUTE.val 0 s) 31 31 (b2n ((inAt s 0).active || F.PWR_MUTE_SW.on 0 s)))

/-- The activation of EVIN`n` (R555, R560, R580): a standby ignores its own; an owner sends the GO to its partner. -/
def evinTrigger (n : Nat) : Act := .look fun s =>
  if F.STRATA_TRIG_MODE.get 0 s = 1 && F.STRATA_TRIG_EVIN.get 0 s = n && !isStandby (pairSt s) then
    .seq (onlyIf (decide (swSt s = 2)) (sendWrite (R.STRATA_CMD.addr 0) 2)) strataTrigger
  else .done

/-- The action of a change of the filtered state. -/
def inAction (i : Nat) (act : Bool) : Act := .look fun s =>
  if act && s.pwr.listen && F.PWR_INCFG_WAKE.on i s then listenExit (9 + i)
  else if i = 0 then sendMute
  else onlyIf act (evinTrigger (i - 1))

/-- The filtered state of input `i` takes the level that the pin has held for DEB µs (R577–R579). -/
def inFilter (i : Nat) : Act := .look fun s =>
  let x := inAt s i
  let act := inActive s i
  if act = x.active || !s.pwr.vdd || !passed x.since (usCycles (max 10 (F.PWR_INCFG_DEB.get i s)) s) s then .done
  else acts [
    setIn i { x with active := act, absorbed := 0, changed := s.elapsed },
    onlyIf (!act) (F.PWR_INSTAT_STUCK.set 0 (putBits (F.PWR_INSTAT_STUCK.get 0 s) i i 0)),
    onlyIf (decide (0 < x.absorbed)) (raise .IN_COALESCE i x.absorbed),
    inAction i act]

/-- The level on the pin of input `i` changes, for good or to be undone before DEB has passed (R578). -/
def inPin (i : Nat) (undone : Bool) : Act := .look fun s =>
  let x := inAt s i
  if !undone then setIn i { x with low := !x.low, since := s.elapsed }
  else onlyIf s.pwr.vdd (.seq (setIn i { x with absorbed := x.absorbed + 1, since := s.elapsed }) (F.PWR_INOVF_COUNT.inc i))

/-- Input `i` has stayed active for STUCK ms (R579). -/
def inStuck (i : Nat) : Act := .look fun s =>
  let b := F.PWR_INSTAT_STUCK.get 0 s
  let ms := F.PWR_INCFG_STUCK.get i s
  if (inAt s i).active && ms ≠ 0 && !bitOf b i && s.pwr.vdd && passed (inAt s i).changed (msCycles ms s) s then
    .seq (F.PWR_INSTAT_STUCK.set 0 (b + 2 ^ i)) (raise .IN_STUCK i)
  else .done

/-! ### Mains, R584–R587 -/

/-- `PWR_STAT.SD`: 0 RUN, 1 to 4 for S1 to S4. -/
def sdSt (s : State) : Nat := F.PWR_STAT_SD.get 0 s

/-- A stage of the shutdown sequence is entered. -/
def sdEnter (k : Nat) : Act := .seq (F.PWR_STAT_SD.set 0 k) (raise .PWR_SHUTDOWN k)

/-- The last `n` half-cycles meet `p`. -/
def lastPeaks (s : State) (n : Nat) (p : Nat → Bool) : Bool := n ≤ s.pwr.vpks.length && (s.pwr.vpks.take n).all p

/-- A brown-out (R585, R586, R590). -/
def brownOut : Act := .look fun s => acts [
  F.PWR_MSTAT_BELOW.set 0 1, raise .MAINS_LOW 1,
  onlyIf s.pwr.listen portsWake,
  setPwr fun p => { p with listen := false },
  onlyIf (F.PWR_MCFG_SD_EN.on 0 s && sdSt s == 0) (.seq (setPwr fun p => { p with sdAt := s.elapsed, returned := false }) (sdEnter 1))]

/-- A return (R585, R586). -/
def mainsReturn : Act := .look fun s => .seq (F.PWR_MSTAT_BELOW.set 0 0)
  (match sdSt s with
   | 0 => .done
   | 1 => .seq (F.PWR_STAT_SD.set 0 0) (F.PWR_STAT_ABORTS.inc 0)
   | 4 => sysReset 2 (shutdown := true)
   | _ => setPwr fun p => { p with returned := true })

/-- The levels are judged over the last half-cycles (R585). -/
def mainsJudge : Act := .look fun s =>
  if F.PWR_MSTAT_BELOW.on 0 s then
    onlyIf (lastPeaks s (max 1 (F.PWR_MCFG_NRET.get 0 s)) fun v => F.PWR_MCFG_RET.get 0 s ≤ v) mainsReturn
  else onlyIf (lastPeaks s (max 1 (F.PWR_MCFG_NLOW.get 0 s)) fun v => v < F.PWR_MCFG_LOW.get 0 s) brownOut

/-- A half-cycle ends with its peak (R584). -/
def halfCycle (v : Nat) : Act := .look fun s =>
  if !s.pwr.vdd then .done
  else acts [F.PWR_MSTAT_VPK.set 0 v, setPwr fun p => { p with vpks := (v :: p.vpks).take 15 }, mainsJudge]

/-- A committed write to `PWR_MCFG` (R585). -/
def wrMcfg (m v mask : Nat) : Act := .look fun s =>
  let e := entryOf R.PWR_MCFG
  let new := asWritten e 0 m v mask s
  if F.PWR_MCFG_RET.of new ≤ F.PWR_MCFG_LOW.of new then dropped m (R.PWR_MCFG.addr 0 + 4)
  else .seq (storeWrite e 0 m v mask (R.PWR_MCFG.addr 0 + 4)) mainsJudge

/-- A committed write to `PWR_JHOST` (R587). -/
def wrJhost (m v mask : Nat) : Act := .look fun s =>
  let e := entryOf R.PWR_JHOST
  let new := afterWrite e 0 m v mask s
  let a := F.PWR_JHOST_HADDR.of new
  let n := F.PWR_JHOST_HLEN.of new
  if 32704 < n || a % 8 ≠ 0 || a < 0x80000000 || dramEnd s < a + n then dropped m (R.PWR_JHOST.addr 0 + 4)
  else storeWrite e 0 m v mask (R.PWR_JHOST.addr 0 + 4)

/-- Every mute gain and every modulator gain is at 0; while the tick stands they count as 0 (R586). -/
def gainsZero (s : State) : Bool :=
  !running s || (s.pwr.gNum == 0 && s.mods.chans.all fun c =>
    let st := F.MOD_STAT_STATE.get c.1 s
    !(st == 3 || st == 4 || st == 6) || c.2.gNum == 0)

/-- The commit point (R586). -/
def shutdown2 : Act := .look fun s =>
  if sdSt s = 1 && gainsZero s && passed s.pwr.sdAt (msCycles (F.PWR_MCFG_DWELL.get 0 s) s) s then
    let on := (List.range 64).filter fun c => let st := F.MOD_STAT_STATE.get c s; st ≠ 0 && st ≠ 7
    acts [setPwr fun p => { p with sdAt := s.elapsed }, sdEnter 2, modMask true ((on.map fun c => 2 ^ c).sum)]
  else .done

/-- CCLK cycles of the save of the final journal: 32 + 32 + HLEN bytes, 40 ns for each beat of 32 (R587). -/
def saveCycles (s : State) : Nat := (64 + F.PWR_JHOST_HLEN.get 0 s + 31) / 32 * 40 * cclkMHz s / 1000

/-- The final journal is written (R586, R587). -/
def shutdown3 : Act := .look fun s =>
  if sdSt s = 2 && passed s.pwr.sdAt (saveCycles s) s then acts [jrnlWrite true, sdEnter 3, F.TICK_CTRL_RUN.set 0 0] else .done

/-- Self-refresh is entered once the tick stands; PDREQ_N goes low in S4, or the node resets where a return came from S2 on (R586). -/
def shutdown4 : Act := .look fun s =>
  if sdSt s = 3 && !running s then acts [
    dramRefresh,
    if s.pwr.returned then sysReset 2 (shutdown := true)
    else .seq (sdEnter 4) (setPwr fun p => { p with pdreq := true })]
  else .done

/-- The supplies fail: only the keep-alive domain and the non-volatile store remain (R586, R591), no rope is driven without the I/O
supplies (R222), and without VDD the node drives neither its OWN pin nor a local output (R567). -/
def supplyFail : Act := acts [
  setPwr fun p => { p with vdd := false },
  .upd (.nodeReset true),
  setRope fun r => { r with live := false, force := [], pending := false, low := [] }]

/-! ### Keep-alive, R591, R592 -/

/-- `n` cycles of CCLK pass: with CLK 1 the counter counts cycles of 32,768 Hz, and sets ALARM where it comes to equal it (R591, R592). That
the crystal keeps this frequency exactly against CCLK is DESIGN CHOICE, log 102. -/
def kaRun (n : Nat) : Act := .look fun s =>
  let f := cclkMHz s * 1000000
  let sum := s.pwr.kaFrac + 32768 * n
  let c := (F.PWR_KACNT_COUNT.get 0 s + sum / f) % 2 ^ 48
  onlyIf (F.PWR_KACFG_CLK.on 0 s) (.seq (setPwr fun p => { p with kaFrac := sum % f })
    (onlyIf (decide (f ≤ sum)) (.seq (F.PWR_KACNT_COUNT.set 0 c)
      (onlyIf (c == F.PWR_KAALARM_ALARM.get 0 s) (F.PWR_KALATCH_ALARM.set 0 1)))))

/-- VKA below 1.6 V. -/
def vkaLoss : Act := acts [
  setPwr fun p => { p with kaFrac := 0 },
  R.PWR_KACFG.set 0 0, R.PWR_KALATCH.set 0 0x800, R.PWR_KACNT.set 0 0, R.PWR_KAALARM.set 0 0]

/-- The counter reaches ALARM while CLK is 1. -/
def kaAlarm : Act := .look fun s =>
  onlyIf (F.PWR_KACFG_CLK.on 0 s) (acts [setPwr fun p => { p with kaFrac := 0 },
    F.PWR_KACNT_COUNT.set 0 (F.PWR_KAALARM_ALARM.get 0 s), F.PWR_KALATCH_ALARM.set 0 1])

/-- WAKE is driven high (R592). -/
def wakeHigh (s : State) : Bool :=
  (F.PWR_KALATCH_MAINS.on 0 s && F.PWR_KACFG_MWAKE.on 0 s) || (F.PWR_KALATCH_ALARM.on 0 s && F.PWR_KACFG_AWAKE.on 0 s)

/-! ### Commands -/

/-- PORST (R568). -/
def execPorst (s : State) : Host.Outcome State Fault Refusal := answer porst s

/-- RESET_N_PULSE (R569). -/
def execResetNPulse (ns : Nat) (s : State) : Host.Outcome State Fault Refusal := answer (resetPulse ns) s

/-- SYS_SWRST (R570). -/
def execSysSwrst (m : Master) (v : Word) (s : State) : Host.Outcome State Fault Refusal :=
  answer (arrive m (R.SYS_SWRST.addr 0) 0xF v.toNat (wrSwrst m v.toNat (fullMask 1))) s

/-- SYS_WDOG_WRITE (R570). -/
def execSysWdogWrite (m : Master) (v : Word) (s : State) : Host.Outcome State Fault Refusal :=
  answer (arrive m (R.SYS_WDOG.addr 0) 0xF v.toNat (wrWdog m v.toNat (fullMask 1))) s

/-- WDOG_KICK (R570). -/
def execWdogKick (m : Master) (v : Word) (s : State) : Host.Outcome State Fault Refusal :=
  answer (arrive m (R.SYS_WDOG_KICK.addr 0) 0xF v.toNat (wrKick m v.toNat (fullMask 1))) s

/-- WATCHDOG_EXPIRY (R570). -/
def execWatchdogExpiry (s : State) : Host.Outcome State Fault Refusal :=
  answer (.look fun s => onlyIf (wdogDue s) (sysReset 3)) s

/-- INPUT_FILTER_CHANGE (R577). -/
def execInputFilterChange (i : InPin) (s : State) : Host.Outcome State Fault Refusal := answer (inFilter i) s

/-- INPUT_PIN_CHANGE (R578). -/
def execInputPinChange (i : InPin) (undone : Bool) (s : State) : Host.Outcome State Fault Refusal := answer (inPin i undone) s

/-- IN_STUCK (R579). -/
def execInStuck (i : InPin) (s : State) : Host.Outcome State Fault Refusal := answer (inStuck i) s

/-- HALF_CYCLE_END (R584). -/
def execHalfCycleEnd (vpk : Fin 65536) (s : State) : Host.Outcome State Fault Refusal := answer (halfCycle vpk) s

/-- SHUTDOWN_S2 (R586). -/
def execShutdownS2 (s : State) : Host.Outcome State Fault Refusal := answer shutdown2 s

/-- SHUTDOWN_S3 (R586). -/
def execShutdownS3 (s : State) : Host.Outcome State Fault Refusal := answer shutdown3 s

/-- SHUTDOWN_S4 (R586). -/
def execShutdownS4 (s : State) : Host.Outcome State Fault Refusal := answer shutdown4 s

/-- SUPPLY_FAIL (R586). -/
def execSupplyFail (s : State) : Host.Outcome State Fault Refusal := answer supplyFail s

/-- PWR_MCFG_WRITE (R585). -/
def execPwrMcfgWrite (m : Master) (v : W64) (s : State) : Host.Outcome State Fault Refusal :=
  answer (arrivePair m (R.PWR_MCFG.addr 0) v.toNat (wrMcfg m v.toNat (fullMask 2))) s

/-- PWR_JHOST_WRITE (R587). -/
def execPwrJhostWrite (m : Master) (v : W64) (s : State) : Host.Outcome State Fault Refusal :=
  answer (arrivePair m (R.PWR_JHOST.addr 0) v.toNat (wrJhost m v.toNat (fullMask 2))) s

/-- LISTEN_ENTER (R589). -/
def execListenEnter (m : Master) (s : State) : Host.Outcome State Fault Refusal :=
  answer (arrive m (R.PWR_LP.addr 0) 0xF 1 (wrLp m 1 (fullMask 1))) s

/-- TAMPER_LATCH (R592). -/
def execTamperLatch (s : State) : Host.Outcome State Fault Refusal :=
  answer (.look fun s => onlyIf (F.PWR_KACFG_TAMPER_EN.on 0 s) (F.PWR_KALATCH_TAMPER.set 0 1)) s

/-- MAINS_LATCH (R592). -/
def execMainsLatch (s : State) : Host.Outcome State Fault Refusal := answer (F.PWR_KALATCH_MAINS.set 0 1) s

/-- KA_ALARM (R592). -/
def execKaAlarm (s : State) : Host.Outcome State Fault Refusal := answer kaAlarm s

/-- VKA_LOSS (R591). -/
def execVkaLoss (s : State) : Host.Outcome State Fault Refusal := answer vkaLoss s

end Sys2Proof.Machine
end

