-- ==== Sys2Proof/Machine/SumpCmd.lean ====
section
/-! DEFINITION. Commands of the Sump and of the memory logs: clears, exit, history, event configuration, the
correctable-error log, remapping and the journal (17_sump_faults.md, 05_memories_and_ecc.md). -/

namespace Sys2Proof.Machine

/-- The event number stands in the event table (R540). -/
def evListed (n : Nat) : Bool := (evOfNum n).isSome

/-- A write to `SUMP_EVSTAT` element `i`: listed events are cleared or refused, a bit of an unlisted number is dropped (R532). -/
def wrEvstat (m i v mask : Nat) : Act :=
  let w := v &&& mask
  .seq (clearEvents i w)
    (onlyIf ((List.range 32).any fun j => bitOf w j && !evListed (32 * i + j)) (dropped m (R.SUMP_EVSTAT.addr i)))

/-- A write to `SUMP_EVCNT` element `e`. -/
def wrEvcnt (m e v mask : Nat) : Act :=
  if evListed e then storeWrite (entryOf R.SUMP_EVCNT) e m v mask (R.SUMP_EVCNT.addr e) else dropped m (R.SUMP_EVCNT.addr e)

/-- The event's class cannot be changed (R540). -/
def evIsFixed (n : Nat) : Bool := match evOfNum n with
  | some e => evFixed e
  | none => true

/-- A write to `SUMP_EVCFG` element `e` (R526). -/
def wrEvcfg (m e v mask : Nat) : Act := .look fun s =>
  let w := F.SUMP_EVCFG_CLASS.of (asWritten (entryOf R.SUMP_EVCFG) e m v mask s)
  let raised := bitOf (R.SUMP_EVSTAT.val (e / 32) s) (e % 32)
  if !evListed e then dropped m (R.SUMP_EVCFG.addr e)
  else if w ≠ F.SUMP_EVCFG_CLASS.get e s && (raised || evIsFixed e) then dropped m (R.SUMP_EVCFG.addr e)
  else storeWrite (entryOf R.SUMP_EVCFG) e m v mask (R.SUMP_EVCFG.addr e)

/-- A write to `SUMP_STAT`: CLEAR_REFUSED written 1 also clears the count of refusals. -/
def wrSumpStat (m v mask : Nat) : Act :=
  .seq (storeWrite (entryOf R.SUMP_STAT) 0 m v mask (R.SUMP_STAT.addr 0))
    (onlyIf (F.SUMP_STAT_CLEAR_REFUSED.of (v &&& mask) = 1) (F.SUMP_REFUSED_COUNT.set 0 0))

/-- A write to `SUMP_CTRL` (R533, R537). -/
def wrSumpCtrl (v mask : Nat) : Act :=
  .seq (onlyIf (bitOf (v &&& mask) 1) histClear) (onlyIf (bitOf (v &&& mask) 0) exitWrite)

/-- The word `w` of history entry `i`. -/
def histWord (s : State) (i w : Nat) : Nat := R.SUMP_HIST.word i w 0 s

/-- A read of the first word of history entry `i` latches the other three for the master. -/
def readHist (m i : Nat) : Act := .look fun s =>
  acts [
    sumpUse ((List.range 4).map fun w => R.SUMP_HIST.addr i + 4 * w),
    forEach [1, 2, 3] fun w => setBus fun b => { b with
      latch := smInsert b.latch (latchKey m (R.SUMP_HIST.addr 0 + 4 * w)) (BitVec.ofNat 32 (histWord s i w)) },
    respond m [histWord s i 0]]

/-- A read of another word of a history entry. -/
def readHistWord (m i w : Nat) : Act := .look fun s =>
  respond m [match latched s m (R.SUMP_HIST.addr 0 + 4 * w) with | some v => v | none => histWord s i w]

/-- The parity scan: a word in error is a self-fault (R535). -/
def sumpScan : Act := .look fun s => onlyIf (!s.sump.parity.isEmpty) selfFault

/-- A write to `SYS_ECC_CECNT` element `k`: the cleared class reports its limit again (R177). -/
def wrCecnt (m k v mask : Nat) : Act :=
  .seq (storeWrite (entryOf R.SYS_ECC_CECNT) k m v mask (R.SYS_ECC_CECNT.addr k))
    (.look fun s => onlyIf (F.SYS_ECC_CECNT_COUNT.get k s = 0)
      (setEcc fun e => { e with limited := e.limited.filter (· ≠ k) }))

/-- SUMP_LOG (R536). -/
def execSumpLog (s : State) : Host.Outcome State Fault Refusal := answer logOne s

/-- SUMP_SCAN (R535). -/
def execSumpScan (s : State) : Host.Outcome State Fault Refusal := answer sumpScan s

/-- SUMP_EVSTAT_CLEAR (R532). -/
def execSumpEvstatClear (m : Master) (i : Fin 8) (v : Word) (s : State) : Host.Outcome State Fault Refusal :=
  answer (arrive m (R.SUMP_EVSTAT.addr i) 0xF v.toNat (wrEvstat m i v.toNat (fullMask 1))) s

/-- SUMP_EXIT (R533). -/
def execSumpExit (m : Master) (s : State) : Host.Outcome State Fault Refusal :=
  answer (arrive m (R.SUMP_CTRL.addr 0) 0xF 1 exitWrite) s

/-- SUMP_EXIT_APPLY (R534): while the tick runs, the edge applies it. -/
def execSumpExitApply (s : State) : Host.Outcome State Fault Refusal :=
  answer (onlyIf (!running s) exitApply) s

/-- SUMP_HCLR (R537). -/
def execSumpHclr (m : Master) (s : State) : Host.Outcome State Fault Refusal :=
  answer (arrive m (R.SUMP_CTRL.addr 0) 0xF 2 histClear) s

/-- SUMP_EVCFG_WRITE (R526). -/
def execSumpEvcfgWrite (m : Master) (i : Fin 256) (v : Word) (s : State) : Host.Outcome State Fault Refusal :=
  answer (arrive m (R.SUMP_EVCFG.addr i) 0xF v.toNat (wrEvcfg m i v.toNat (fullMask 1))) s

/-- SUMP_HIST_READ (R538). -/
def execSumpHistRead (m : Master) (i : Fin 32) (s : State) : Host.Outcome State Fault Refusal :=
  answer (reads m (R.SUMP_HIST.addr i) (readHist m i)) s

/-- ECC_LOG_CAPTURE (R176). -/
def execEccLogCapture (s : State) : Host.Outcome State Fault Refusal := answer ceTake s

/-- REMAP_ADD (R184): a committed write of both words with ADD 1. -/
def execRemapAdd (m : Master) (v : W64) (s : State) : Host.Outcome State Fault Refusal :=
  answer (arrivePair m (R.SYS_REMAP_CMD.addr 0) v.toNat (wrRemap m v.toNat (fullMask 2))) s

/-- REMAP_APPLY (R184): while the tick runs, E2 applies it. -/
def execRemapApply (s : State) : Host.Outcome State Fault Refusal := answer (onlyIf (!running s) remapApply) s

/-- JOURNAL_WRITE (R189). -/
def execJournalWrite (s : State) : Host.Outcome State Fault Refusal :=
  answer (.look fun s =>
    onlyIf (F.SYS_JRNL_CFG_EN.on 0 s && passed s.ecc.jrnlAt (msCycles (max 10 (F.SYS_JRNL_CFG_INTERVAL.get 0 s)) s) s)
      (.seq (setEcc fun e => { e with jrnlAt := s.elapsed }) (jrnlWrite false))) s

end Sys2Proof.Machine
end

