-- ==== Sys2Proof/Machine/T1s.lean ====
section
/-! DEFINITION. The 10BASE-T1S port and the Eztasia engine (12_ethernet_and_t1s.md, R403–R412). -/

namespace Sys2Proof.Machine

/-! ### The port -/

/-- Count in `T1S_CNT` counter `k`: 0 RX_OK, 1 RX_RUNT, 2 RX_OVERSIZE, 3 RX_FCS, 4 RX_NOBUF, 5 TX_OK, 6 COLL, 7 T1S_EXCESS. -/
def t1sCnt (k : Nat) : Act := F.T1S_CNT_COUNT.inc k

/-- Requester ID of the T1S port (R403). -/
def t1sId : Nat := 0x3F6

/-- The port may transmit: enabled, on the chip that owns the local outputs, outside LISTEN (R402, R406). -/
def t1sOn (s : State) : Bool := F.T1S_CFG_EN.on 0 s && drives s

/-- IDs of a PLCA cycle (R405). -/
def nodeCount (s : State) : Nat :=
  let n := F.T1S_CFG_NODECNT.get 0 s
  if 2 ≤ n ∧ n ≤ 33 then n else 33

/-- A frame received on the port outside LISTEN (R403). It is stored for the engine, which takes it by commands of its own,
and its cells, charged to the reply queue, are freed (DESIGN CHOICE, log 23). -/
def t1sRx (f : Frame) (ts : Nat) : Act := .look fun s =>
  if !F.T1S_CFG_EN.on 0 s then .done
  else if f.length < 64 then t1sCnt 1
  else if 1522 < f.length then t1sCnt 2
  else if !fcsOk f then t1sCnt 3
  else .seq (wakeCheck 1 f fun _ => .done) (.look fun s =>
    let q := F.EZ_Q_RPLQ.get 0 s
    let (vid, pcp) := frVlan f 0 0
    if isItemQ (queueAt s q) then
      allocCells q t1sId (cellsFor f.length)
        (fun cs => acts [cellsWrite t1sId cs (descriptor f.length 5 0 vid pcp ts ++ f), t1sCnt 0, freeCells_ t1sId cs])
        (fun cs => .seq (t1sCnt 4) (freeCells_ t1sId cs))
    else t1sCnt 4)

/-- CCLK cycles of `n` bit times of 100 ns (R403). -/
def t1sBits (s : State) (n : Nat) : Nat := n * cclkMHz s / 10

/-- A frame has left the port, or been discarded there: the engine's wait for the answer to its message begins (R409, R410). -/
def ezLeft (f : Frame) : Act := .look fun s =>
  let seq := fieldBe f 16 2
  setT1s fun t => { t with
    out := t.out.map fun p => (p.1, if p.2.seq = seq && p.2.sentAt.isNone then { p.2 with sentAt := some s.elapsed } else p.2)
    discover := t.discover.map fun d => (d.1, if d.1 = seq && d.2.isNone then some s.elapsed else d.2) }

/-- The frame at the head has been sent. -/
def t1sSent : Act := .look fun s =>
  match s.t1s.queue with
  | [] => .done
  | f :: rest => .seq (.seq (t1sCnt 5) (setT1s fun t => { t with queue := rest, colls := 0, backoff := none, lastTx := f })) (ezLeft f)

/-- A collision of the frame at the head (R404). -/
def t1sCollide : Act := .look fun s =>
  match s.t1s.queue with
  | [] => .done
  | f :: rest =>
    if !t1sOn s || s.t1s.backoff.isSome then .done
    else
      let n := s.t1s.colls + 1
      .seq (t1sCnt 6)
        (if n = 16 then acts [
            setT1s fun t => { t with queue := rest, colls := 0 }, ezLeft f, t1sCnt 7, raise .T1S_EXCESS_COLL]
         else draw fun r => setT1s fun t => { t with colls := n, backoff := some (r % 2 ^ min n 10), backoffAt := s.elapsed })

/-- A write to `T1S_CFG` (R405). -/
def wrT1sCfg (m v mask : Nat) : Act := .look fun s =>
  let e := entryOf R.T1S_CFG
  let new := afterWrite e 0 m v mask s
  if F.T1S_CFG_EN.on 0 s && F.T1S_CFG_PLCA.of new ≠ F.T1S_CFG_PLCA.get 0 s then dropped m (R.T1S_CFG.addr 0)
  else .seq (storeWrite e 0 m v mask (R.T1S_CFG.addr 0))
    (onlyIf (F.T1S_CFG_EN.of new = 0) (setT1s fun t => { t with plcaId := none, backoff := none }))

/-! ### Eztasia messages, R407, R408 -/

/-- TYPE of a message. -/
def ezType (m : List Byte) : Nat := fieldBe m 1 1

/-- A message is valid (R408). -/
def ezValid (m : List Byte) : Bool :=
  8 ≤ m.length && fieldBe m 0 1 == 1 && fieldBe m 6 2 + 8 ≤ m.length &&
    [0x01, 0x02, 0x10, 0x11, 0x12, 0x13, 0x20, 0x21, 0x30, 0x40, 0x7F].contains (ezType m)

/-- A message of the controller with its SEQ, and the bytes of its length only. -/
def ezStamp (m : List Byte) (seq : Nat) : List Byte :=
  (m.take 2 ++ bytesBe 2 seq ++ (m.drop 4).take 1 ++ [0xFE] ++ m.drop 6).take (8 + fieldBe m 6 2)

/-- A message without payload bytes of its own. -/
def ezMsg (ty seq dst src : Nat) (payload : List Byte) : List Byte :=
  bytesBe 1 1 ++ bytesBe 1 ty ++ bytesBe 2 seq ++ bytesBe 1 dst ++ bytesBe 1 src ++ bytesBe 2 payload.length ++ payload

/-- The engine runs: enabled, on the chip that owns the local outputs (R406). -/
def ezOn (s : State) : Bool := F.EZ_CFG_EN.on 0 s && drives s

/-- The frame of a message for element `a`, or for all (R409). -/
def ezFrame (s : State) (a : Nat) (m : List Byte) : Frame :=
  let dst := match smFind s.t1s.macs a with
    | some x => if a < 32 then x.toNat else 0xFFFFFFFFFFFF
    | none => 0xFFFFFFFFFFFF
  mkFrame dst (F.ETH_MAC_ADDR.get 0 s) none (F.EZ_CFG_ETYPE.get 0 s) m

/-- Push a message to the reply queue. -/
def ezReply (m : List Byte) : Act := .look fun s => storeItem (F.EZ_Q_RPLQ.get 0 s) t1sId m fun _ => .done

/-- Assign the next SEQ to a message and hand it to the port; `k` goes on with the SEQ and the message. -/
def ezSend (a : Nat) (m : List Byte) (k : Nat → List Byte → Act) : Act := .look fun s =>
  let seq := s.t1s.seq
  let msg := ezStamp m seq
  .seq (setT1s fun t => { t with seq := (seq + 1) % 65536, queue := t.queue ++ [ezFrame s a msg] }) (k seq msg)

/-- Start a transaction with a free element. -/
def ezStart (a : Nat) (cells : List Nat) (m : List Byte) : Act := ezSend a m fun seq msg => .look fun s =>
  let x : EzTrans := {
    seq := seq, msg := msg, poll := cells.isEmpty, left := F.EZ_TIME_RETRY.get 0 s, sentAt := none, cells := cells }
  setT1s fun t => { t with out := smInsert t.out a x }

/-- A transaction with element `a` ends: its command item is freed and what waits for the element is sent, host transactions
before the poll (R410). -/
def ezEnd (a : Nat) : Act := .look fun s =>
  let cells := match smFind s.t1s.out a with | some x => x.cells | none => []
  let mine := s.t1s.waiting.filter fun w => fieldBe w.2 4 1 = a
  let next := (mine.find? fun w => !w.1.isEmpty).or mine.head?
  acts [
    setT1s fun t => { t with out := smErase t.out a },
    freeCells_ t1sId cells,
    match next with
    | some w => .seq (setT1s fun t => { t with waiting := t.waiting.erase w }) (ezStart a w.1 w.2)
    | none => .done]

/-- A transaction for element `a` starts, or waits while another is outstanding (R410). -/
def ezSubmit (a : Nat) (cells : List Nat) (m : List Byte) : Act := .look fun s =>
  if (smFind s.t1s.out a).isSome then
    (if s.t1s.waiting.any fun w => cells.isEmpty && w.1.isEmpty && decide (fieldBe w.2 4 1 = a) then .done
     else setT1s fun t => { t with waiting := t.waiting ++ [(cells, m)] })
  else ezStart a cells m

/-- The message at the head of the command queue. -/
def ezHead (s : State) : Option (List Byte) :=
  let x := queueAt s (F.EZ_Q_CMDQ.get 0 s)
  if isItemQ x && x.head ≠ 0 && !x.broken then some (memBytes s.mem (cellAddr x.head) 256) else none

/-- The engine takes a host transaction of TYPE `ty`; an item that is none of the four host commands is taken with any of
them (R408–R410). In the safe state the items stay in their queue (R531). -/
def ezHost (ty : Nat) : Act := .look fun s =>
  match ezHead s with
  | none => .done
  | some h =>
    if !ezOn s || inSafe s || ([0x01, 0x10, 0x12, 0x30].contains (ezType h) && ezType h ≠ ty) then .done
    else popItem t1sId (F.EZ_Q_CMDQ.get 0 s) 65536 fun cells =>
      if cells = [] then .done
      else cellsTake t1sId cells fun m =>
      let a := fieldBe m 4 1
      if !ezValid m || (32 ≤ a && a ≠ 255) then .seq (F.EZ_CNT_EZ_BAD.inc 0) (freeCells_ t1sId cells)
      else if a < 32 then ezSubmit a cells m
      else ezSend a m fun seq _ => .seq
        (onlyIf (ezType m = 1) (setT1s fun t => { t with discover := t.discover ++ [(seq, none)] }))
        (freeCells_ t1sId cells)

/-- The engine polls the enabled elements in ascending order, every POLL_MS ms (R411). -/
def ezPollAll : Act := .look fun s =>
  let ms := F.EZ_TIME_POLL_MS.get 0 s
  if !ezOn s || ms = 0 || !passed s.t1s.pollAt (msCycles ms s) s then .done
  else .seq (setT1s fun t => { t with pollAt := s.elapsed }) <| forEach ((List.range 32).filter fun a => F.EZ_ELEM_EN.on a s) fun a => ezSubmit a [] (ezMsg 0x20 0 a 0xFE [])

/-- An element counts as answering its polls (R411). -/
def ezPresent (a : Nat) : Act := .look fun s => .seq
  (F.EZ_PRESENT_PRESENT.set 0 (F.EZ_PRESENT_PRESENT.get 0 s ||| 2 ^ a))
  (setT1s fun t => { t with missed := smErase t.missed a })

/-- What every message of an element goes through: the check of R408, and the address it came from (R409). A source address
that is no element counts as an invalid message (DESIGN CHOICE, log 24). `k` goes on with the element and the SEQ. -/
def ezFrom (ty : Nat) (src : Nat) (m : List Byte) (k : Nat → Nat → Act) : Act := .look fun s =>
  if !ezOn s then .done
  else if !ezValid m || 32 ≤ fieldBe m 5 1 then F.EZ_CNT_EZ_BAD.inc 0
  else if ezType m ≠ ty then .done
  else .seq (setT1s fun t => { t with macs := smInsert t.macs (fieldBe m 5 1) (BitVec.ofNat 48 src) })
    (k (fieldBe m 5 1) (fieldBe m 2 2))

/-- An answer (R409–R412): an ANNOUNCE in the window of its DISCOVER is pushed; an answer with the SEQ outstanding at its
source ends the transaction; any other is stray. -/
def ezAnswer (ty src : Nat) (m : List Byte) : Act := ezFrom ty src m fun a seq => .look fun s =>
  let last : Act := F.EZ_ELEM_LASTSEQ.set a seq
  let msg := m.take (8 + fieldBe m 6 2)
  if ty = 0x02 && (s.t1s.discover.any fun d => d.1 = seq) then .seq last (ezReply msg)
  else match smFind s.t1s.out a with
    | none => F.EZ_CNT_EZ_STRAY.inc 0
    | some x =>
      if x.seq ≠ seq then F.EZ_CNT_EZ_STRAY.inc 0
      else
        let flags := fieldBe m 10 2
        acts [
          last,
          onlyIf (x.poll || ty = 0x21) (ezPresent a),
          onlyIf (!x.poll || (ty = 0x21 && smFind s.t1s.faults a ≠ some flags)) (ezReply msg),
          onlyIf (ty = 0x21) (setT1s fun t => { t with faults := smInsert t.faults a flags }),
          ezEnd a]

/-- Polls in a row that a lost element counts as. -/
def missedLost : Nat := 16

/-- A poll has gone unanswered with all its retries (R411). -/
def ezMissed (a : Nat) : Act := .look fun s =>
  let n := smGet (fun _ => 0) s.t1s.missed a + 1
  if missedLost < n then .done
  else if max 1 (F.EZ_TIME_MISS.get 0 s) ≤ n then acts [
    setT1s fun t => { t with missed := smInsert t.missed a missedLost },
    F.EZ_PRESENT_PRESENT.set 0 (putBits (F.EZ_PRESENT_PRESENT.get 0 s) a a 0),
    F.EZ_LOST_LOST.set 0 (F.EZ_LOST_LOST.get 0 s ||| 2 ^ a),
    raise .EZ_LOST a]
  else setT1s fun t => { t with missed := smInsert t.missed a n }

/-- TIMEOUT µs have passed since a message left the port (R409, R410). -/
def ezDue (s : State) (sent : Option Nat) : Bool := match sent with
  | some t => passed t (usCycles (max 200 (F.EZ_TIME_TIMEOUT.get 0 s)) s) s
  | none => false

/-- The answer wait of element `a` ends (R409). -/
def ezExpire (a : Nat) : Act := .look fun s =>
  match smFind s.t1s.out a with
  | none => .done
  | some x =>
    if !ezOn s || !ezDue s x.sentAt then .done
    else if 0 < x.left then
      let y : EzTrans := { x with left := x.left - 1, sentAt := none }
      setT1s fun t => { t with out := smInsert t.out a y, queue := t.queue ++ [ezFrame s a x.msg] }
    else acts [
      if x.poll then ezMissed a
      else ezReply (ezMsg 0x7F x.seq 0xFE 0xFE (bytesBe 1 (ezType x.msg) ++ [0xFF])),
      ezEnd a]

/-- The MUTE of the safe state goes ahead of what waits, behind a frame that is being retried (R531). -/
def muteFirst : Act := .look fun s =>
  if s.t1s.safeMute && ezOn s then
    let seq := s.t1s.seq
    let f := ezFrame s 255 (ezMsg 0x30 seq 0xFF 0xFE [1])
    let n := if s.t1s.colls = 0 then 0 else 1
    setT1s fun t => { t with
      safeMute := false, seq := (seq + 1) % 65536, queue := t.queue.take n ++ [f] ++ t.queue.drop n }
  else .done

/-! ### Commands -/

/-- T1S_TX_ATTEMPT (R404): an attempt that meets no collision. With PLCA 1 only a retry is an attempt of its own. -/
def execT1sTxAttempt (s : State) : Host.Outcome State Fault Refusal :=
  answer (.look fun s =>
    if t1sOn s && (!F.T1S_CFG_PLCA.on 0 s || 0 < s.t1s.colls) && s.t1s.backoff.isNone then .seq muteFirst t1sSent
    else .done) s

/-- T1S_COLLISION (R404). -/
def execT1sCollision (s : State) : Host.Outcome State Fault Refusal := answer t1sCollide s

/-- T1S_BACKOFF_END (R404): once the slot times of the backoff have passed, the frame may be retried. -/
def execT1sBackoffEnd (s : State) : Host.Outcome State Fault Refusal :=
  answer (.look fun s => onlyIf (passed s.t1s.backoffAt (t1sBits s (512 * s.t1s.backoff.getD 0)) s)
    (setT1s fun t => { t with backoff := none })) s

/-- PLCA_BEACON (R405): the BEACON opens a cycle when the previous one is over. -/
def execPlcaBeacon (s : State) : Host.Outcome State Fault Refusal :=
  answer (.look fun s => onlyIf (t1sOn s && F.T1S_CFG_PLCA.on 0 s && s.t1s.plcaId.isNone)
    (setT1s fun t => { t with plcaId := some 0, plcaAt := s.elapsed })) s

/-- PLCA_TRANSMIT_OPPORTUNITY (R405): in its own opportunity the node sends at most one frame; an opportunity in which it sends none lasts
TO bit times. Then the next ID has its turn. -/
def execPlcaTransmitOpportunity (s : State) : Host.Outcome State Fault Refusal :=
  answer (.look fun s => match s.t1s.plcaId with
    | none => .done
    | some k =>
      let sends := k = 0 && t1sOn s && s.t1s.backoff.isNone && (s.t1s.queue ≠ [] || (s.t1s.safeMute && ezOn s))
      if !sends && !passed s.t1s.plcaAt (t1sBits s (max 1 (F.T1S_CFG_TO.get 0 s))) s then .done
      else .seq (onlyIf sends (.seq muteFirst t1sSent))
        (setT1s fun t => { t with plcaId := if k + 1 < nodeCount s then some (k + 1) else none, plcaAt := s.elapsed })) s

/-- T1S_CFG_WRITE (R405). -/
def execT1sCfgWrite (m : Master) (v : Word) (s : State) : Host.Outcome State Fault Refusal :=
  answer (arrive m (R.T1S_CFG.addr 0) 0xF v.toNat (wrT1sCfg m v.toNat (fullMask 1))) s

/-- EZ_DISCOVER (R410). -/
def execEzDiscover (s : State) : Host.Outcome State Fault Refusal := answer (ezHost 0x01) s

/-- EZ_SET (R409). -/
def execEzSet (s : State) : Host.Outcome State Fault Refusal := answer (ezHost 0x10) s

/-- EZ_GET (R409). -/
def execEzGet (s : State) : Host.Outcome State Fault Refusal := answer (ezHost 0x12) s

/-- EZ_MUTE (R409). -/
def execEzMute (s : State) : Host.Outcome State Fault Refusal := answer (ezHost 0x30) s

/-- EZ_POLL (R411). -/
def execEzPoll (s : State) : Host.Outcome State Fault Refusal := answer ezPollAll s

/-- EZ_ANNOUNCE (R410). -/
def execEzAnnounce (src : BitVec 48) (msg : List Byte) (s : State) : Host.Outcome State Fault Refusal :=
  answer (ezAnswer 0x02 src.toNat msg) s

/-- EZ_ACK (R409). -/
def execEzAck (src : BitVec 48) (msg : List Byte) (s : State) : Host.Outcome State Fault Refusal :=
  answer (ezAnswer 0x11 src.toNat msg) s

/-- EZ_VALUE (R409). -/
def execEzValue (src : BitVec 48) (msg : List Byte) (s : State) : Host.Outcome State Fault Refusal :=
  answer (ezAnswer 0x13 src.toNat msg) s

/-- EZ_STATUS (R411). -/
def execEzStatus (src : BitVec 48) (msg : List Byte) (s : State) : Host.Outcome State Fault Refusal :=
  answer (ezAnswer 0x21 src.toNat msg) s

/-- EZ_FAULT (R412). -/
def execEzFault (src : BitVec 48) (msg : List Byte) (s : State) : Host.Outcome State Fault Refusal :=
  answer (ezFrom 0x40 src.toNat msg fun a _ =>
    .seq (ezReply (msg.take (8 + fieldBe msg 6 2))) (raise .EZ_FAULT a (fieldBe msg 8 2))) s

/-- EZ_NAK (R409). -/
def execEzNak (src : BitVec 48) (msg : List Byte) (s : State) : Host.Outcome State Fault Refusal :=
  answer (ezAnswer 0x7F src.toNat msg) s

/-- EZ_TIMEOUT (R409). -/
def execEzTimeout (e : Fin 32) (s : State) : Host.Outcome State Fault Refusal := answer (ezExpire e) s

/-- EZ_DISCOVER_WINDOW_END (R410): that of the oldest DISCOVER, for all last TIMEOUT. -/
def execEzDiscoverWindowEnd (s : State) : Host.Outcome State Fault Refusal :=
  answer (.look fun s => match s.t1s.discover with
    | d :: rest => onlyIf (ezDue s d.2) (setT1s fun t => { t with discover := rest })
    | [] => .done) s

end Sys2Proof.Machine
end

