-- ==== Sys2Proof/Machine/RegBus.lean ====
section
/-! DEFINITION. One access to one register: what a read shows and does, and what a write does, register by register
(R6–R9, R58, R79–R83, and the register's own rules in the chapter of its block). -/

namespace Sys2Proof.Machine

/-! ### What a read shows -/

/-- An access of requester `id` waits: for its lane or behind one that does (R60, R601), for E1 to end (R201), or for a queue to
fill (R362). -/
def accessPends (id : Nat) (s : State) : Bool :=
  (s.bus.waiting.any fun w => reqId w.who == id) || (s.bus.routeStall.any fun w => reqId w.who == id) ||
    s.pool.waits.any fun w => w.req == id

/-- Code of a lane state in `LANE_STAT`. -/
def laneStCode : LaneSt → Nat
  | .idle => 0 | .wait => 1 | .run => 2 | .stall => 3 | .halt => 4 | .fault => 5

/-- Value of a register that shows state held elsewhere; `v` is what is stored. `m` is the reading requester. -/
def showVal (n : RegName) (i m : Nat) (s : State) (v : Nat) : Nat :=
  match n with
  | .LANE_STAT =>
    let L := laneAt s i
    putBits (putBits v 2 0 (laneStCode L.st)) 5 3 L.reps.length
  | .LANE_PC => (laneAt s i).pc
  | .LANE_D => ofInt 64 ((drained (laneAt s (i / 16))).d[i % 16]'(Nat.mod_lt _ (by decide))).toInt
  | .LANE_ACC => ofInt 96 ((drained (laneAt s (i / 4))).acc[i % 4]'(Nat.mod_lt _ (by decide))).toInt
  | .LANE_A => ((drained (laneAt s (i / 16))).a[i % 16]'(Nat.mod_lt _ (by decide))).toNat
  | .LANE_M => ofInt 32 ((drained (laneAt s (i / 16))).m[i % 16]'(Nat.mod_lt _ (by decide))).toInt
  | .LANE_LEN => ((drained (laneAt s (i / 16))).len[i % 16]'(Nat.mod_lt _ (by decide))).toNat
  | .RAMP_LIVE =>
    let x := rampAt s i (F.RAMP_IDX_P.get i s m)
    b2n x.db * 2 ^ 56 + (x.dur - 1) * 2 ^ 40 + x.target.toNat
  | .RAMP_CUR =>
    let x := rampAt s i (F.RAMP_IDX_P.get i s m)
    (x.dur - x.k) * 2 ^ 40 + x.cur.toNat
  | .ROUTE_TBL => (smGet (fun _ => 0) s.route.tbl (8192 * F.ROUTE_PAGE_PAGE.get 0 s m + i)).toNat
  | .POOL_TAG => tagOf s (F.POOL_TAGSEL_CELL.get 0 s m)
  | .POOL_QCFG => (queueAt s (F.POOL_QIDX_Q.get 0 s m)).cfg.toNat
  | .POOL_QSTAT => qstatVal s (F.POOL_QIDX_Q.get 0 s m)
  | .PAIR_STAT =>
    putBits (putBits (putBits v 31 31 (b2n s.pins.sideB)) 29 29 (b2n s.pair.own)) 28 28 (b2n s.pair.partnerOwn)
  | .SUMP_STAT => putBits (putBits v 3 3 (b2n (classSet 1 s))) 4 4 (b2n (classSet 2 s))
  | .HCP_STAT => putBits (putBits (putBits v 0 0 (b2n (int0Low s))) 1 1 (b2n (int1Low s))) 15 15 (b2n (accessPends 1 s))
  | .MOD_CFG => putBits v 30 30 (b2n (car8 s))
  | .PWR_STAT => putBits v 11 11 (b2n (nodeMute s))
  | .PWR_INSTAT =>
    let bits (f : Nat → Bool) : Nat := ((List.range 5).map fun k => b2n (f k) * 2 ^ k).sum
    putBits (putBits v 4 0 (bits fun k => !(inAt s k).low)) 12 8 (bits fun k => (inAt s k).active)
  | .PWR_BOOT => putBits (putBits v 1 0 s.pins.emixSel) 2 2 (b2n s.pins.emixFmt)
  | .CLT_RXKEY => v &&& keyBits true (F.CLT_RXCFG_KIND.get i s)
  | .CLT_TXKEY => v &&& keyBits false (F.CLT_TXCFG_KIND.get i s)
  | .PTP_CAP_TS => (smGet (fun _ => (0 : W64)) s.ptp.capLatch (4 * m + i)).toNat
  | _ => v

/-- What a read of an element shows, all words together. -/
def regShow (p : Place) (m : Nat) (s : State) : Nat :=
  if p.live then
    match p.e.reg.name with
    | .ROPE_MAP => (ropeForce s p.i).toNat
    | .CLT_RXKEY => p.e.reg.liveVal p.i s &&& keyBits true (F.CLT_RXCFG_KIND.live p.i s)
    | .CLT_TXKEY => p.e.reg.liveVal p.i s &&& keyBits false (F.CLT_TXCFG_KIND.live p.i s)
    | _ => p.e.reg.liveVal p.i s
  else showVal p.e.reg.name p.i m s (p.e.reg.val p.i s m)

/-- A register of two words is a pair, but for the 40-bit `LANE_D` (R84). -/
def isPair (r : Reg) : Bool := r.words == 2 && decide (r.name ≠ .LANE_D)

/-- Go on with the answer that `act` gives requester `id`; a read that waits gives none (R362). -/
def viaResp (id : Nat) (act : Act) (k : Nat → Bool → Act) : Act := acts [
  setBus fun b => { b with resp := smErase b.resp id },
  act,
  .look fun s => match smFind s.bus.resp id with
    | some r => k (r.data.headD 0).toNat r.err
    | none => .done]

/-- Codeword of the target of ramp parameter `i`, the first of its four words in ramp memory (log 88). -/
def rampTgtKey (i : Nat) : Nat := eccKey (0x5000 + 256 * (i / 4096)) (4 * (i % 4096)) 0

/-- Codewords of the tables that a read of a register touches: the entry of the route or latency table, the tag, the target of a ramp
parameter or all its four words (R163; log 88). `i` is the element, `m` the reading requester. -/
def tableKeys (n : RegName) (i m : Nat) (s : State) : List Nat :=
  match n with
  | .ROUTE_TBL => [eccKey 0x8000 (8192 * F.ROUTE_PAGE_PAGE.get 0 s m + i) 0]
  | .TICK_LAT => [eccKey 0x9000 i 0, eccKey 0x9000 i 1]
  | .POOL_TAG =>
    let c := F.POOL_TAGSEL_CELL.get 0 s m
    [eccKey (0x7000 + 256 * (c / 16384)) (c % 16384) 0]
  | .RAMP_TGT => [rampTgtKey i]
  | .RAMP_LIVE | .RAMP_CUR =>
    (List.range 4).map fun w => eccKey (0x5000 + 256 * (i % 16)) (4 * F.RAMP_IDX_P.get i s m + w) 0
  | _ => []

/-- A read of a table checks the codewords it touches, and an uncorrectable one answers the master with an error response and zero
data (R166, R181). -/
def tableCheck (m : Nat) (keys : List Nat) (k : Nat → Bool → Act) (ok : Act) : Act := .look fun s =>
  let ms := s.ecc.marks.filter fun p => keys.contains p.1
  if ms.isEmpty then ok else eccJudge ms m (some .ECC_UE_MASTER) fun good => if good then ok else k 0 true

/-- An access uses the register word at `a`: the Sump checks the parity of its own (R535). -/
def blockUse (a : Nat) : Act := onlyIf (decide (0x20030000 ≤ a && a < 0x20040000)) (sumpUse [a])

/-- Read the register word at `a`, its place known; `k` goes on with the word and whether it is an error response. `low` says
that the read includes byte 0 of the word (R79, R82). -/
def regRead (m : Nat) (p : Place) (a : Nat) (low : Bool) (k : Nat → Bool → Act) : Act := .seq (blockUse a) <| .look fun s =>
  let v := regShow p m s
  let check := tableCheck m (if p.live then [] else tableKeys p.e.reg.name p.i m s) k
  match p.e.reg.name, p.live with
  | .POOL_ALLOC, false => readAlloc m fun v => k v false
  | .POOL_POP, false => viaResp m (readPop m false) k
  | .POOL_TRYPOP, false => viaResp m (readPop m true) k
  | .PTP_TIME_FRAC, false => viaResp m (timeRead m) k
  | .PTP_TIME_NS, false => viaResp m (timeWordRead m 1) k
  | .PTP_TIME_SECLO, false => viaResp m (timeWordRead m 2) k
  | .PTP_TIME_SECHI, false => viaResp m (timeWordRead m 3) k
  | .PTP_CAP_HEAD, false => viaResp m (capHead m p.i) k
  | .SUMP_HIST, false => if p.w = 0 then viaResp m (readHist m p.i) k else viaResp m (readHistWord m p.i p.w) k
  | n, _ =>
    if n = .POOL_QWORD && p.w = 0 then viaResp m (readQword m) k
    else if isPair p.e.reg then
      if p.w = 0 then check (.seq (onlyIf low (latchHigh m a (v / 2 ^ 32))) (k (v % 2 ^ 32) false))
      else match latched s m a with
        | some h => .seq (unlatch m a) (k h false)
        | none => check (k (v / 2 ^ 32 % 2 ^ 32) false)
    else check (k (v / 2 ^ (32 * p.w) % 2 ^ 32) false)

/-! ### What a write does -/

/-- Write a lane register that the datapath holds: its bits under `mask` change. The write comes after every result the lane has
issued to that register, and those in flight are discarded. -/
def laneRegWrite (n : RegName) (i v mask : Nat) : Act :=
  let mix (old : Nat) : Nat := (old - (old &&& mask)) + (v &&& mask)
  let k : Fin 16 := ⟨i % 16, Nat.mod_lt _ (by decide)⟩
  let c : Fin 4 := ⟨i % 4, Nat.mod_lt _ (by decide)⟩
  let put (L : Lane) (d : LaneDest) (old : Nat) : Lane :=
    { landRes L d (mix old) with results := L.results.filter fun r => r.dest ≠ d }
  setLane (match n with | .LANE_ACC => i / 4 | _ => i / 16) fun L =>
    let S := drained L
    match n with
    | .LANE_D => put L (.d k) S.d[k].toNat
    | .LANE_ACC => put L (.acc c) S.acc[c].toNat
    | .LANE_A => put L (.a k) S.a[k].toNat
    | .LANE_M => put L (.m k) S.m[k].toNat
    | .LANE_LEN => put L (.len k) S.len[k].toNat
    | _ => L

/-- A write of a pool word, of which the bits of `mask` are written. -/
def qwordWrite (m v mask : Nat) : Act := .look fun s =>
  let old := R.POOL_QWORD.val 0 s
  wrQword m ((old - (old &&& mask)) + (v &&& mask))

/-- Clear the count beside a VALID bit that a write of `XBAR_DERR` or `XBAR_ACCERR` clears. -/
def wrXbarLog (e : RegEntry) (count : Fld) (m v mask : Nat) : Act :=
  .seq (storeWrite e 0 m v mask (e.reg.addr 0 + 4)) (onlyIf (bitOf (v &&& mask) 63) (count.set 0 0))

/-- A write to `HCP_CFG`: one of the host port itself takes effect when its transaction ends (R606). -/
def wrHcpCfg (m v mask : Nat) : Act := .look fun s =>
  if m = 1 then
    let old := match s.hcp.cfg with | some w => w.toNat | none => R.HCP_CFG.val 0 s
    setHcp fun h => { h with cfg := some (BitVec.ofNat 32 ((old - (old &&& mask)) + (v &&& mask))) }
  else storeWrite (entryOf R.HCP_CFG) 0 m v mask (R.HCP_CFG.addr 0)

/-- A write to `RAMP_TGT` element `i`: whole, or a read-modify-write of the word in ramp memory, dropped where that is uncorrectable
(R168). -/
def wrRampTgt (e : RegEntry) (i m v mask : Nat) (tie : Bool) : Act := .look fun s =>
  let ms := if mask = fullMask 2 then [] else s.ecc.marks.filter fun p => p.1 = rampTgtKey i
  eccJudge ms m (some .ECC_UE_MASTER) fun ok => onlyIf ok
    (.seq (storeWrite e i m v mask (e.reg.addr i + 4) tie) (eccFresh fun k => k == rampTgtKey i))

/-- A write of the group at `b` alone is a read-modify-write of a ramp target that is uncorrectable, and is answered with an error
(R168). -/
def groupFails (m b en : Nat) (s : State) : Bool := en = 0xF && (match placeOf b with
  | some p => decide (p.e.reg.name = .RAMP_TGT) && p.w = 1 && (buffered s m (b - 4)).isNone &&
      s.ecc.marks.any fun q => q.1 = rampTgtKey p.i && q.2.bit.isNone
  | none => false)

/-- Write element `i` of a register by the rules of its block; of `v` the bits of `mask` are written. -/
def elemWrite (e : RegEntry) (i m v mask : Nat) (tie : Bool) : Act :=
  let w := v &&& mask
  match e.reg.name with
  | .TICK_CTRL => wrTickCtrl m v mask
  | .TICK_CFG => wrTickCfg m v mask
  | .XBAR_DERR => wrXbarLog e F.XBAR_DERR_COUNT m v mask
  | .XBAR_ACCERR => wrXbarLog e F.XBAR_ACCERR_COUNT m v mask
  | .GAL_SLOTMAP => wrSlotmap m (i / 4) (i % 4) v mask tie
  | .LANE_CTRL => wrLaneCtrl m i v mask
  | .LANE_PC => wrLanePc m i v
  | .LANE_FRAME => wrLaneFrame m i v mask tie
  | .LANE_D | .LANE_ACC | .LANE_A | .LANE_M | .LANE_LEN => laneRegWrite e.reg.name i v mask
  | .SYS_ECC_CECNT => wrCecnt m i v mask
  | .SYS_REMAP_CMD => wrRemap m v mask
  | .SYS_SWRST => wrSwrst m v mask
  | .SYS_WDOG => wrWdog m v mask
  | .SYS_WDOG_KICK => wrKick m v mask
  | .ROUTE_TBL => routeStalled m (e.reg.addr i) v (wrRouteTbl m i v)
  | .ROUTE_OUT => routeStalled m (e.reg.addr i) v (wrRouteOut m i v)
  | .ROUTE_BUS => routeStalled m (e.reg.addr i) v (wrRouteBus m i v)
  | .RAMP_TGT => wrRampTgt e i m v mask tie
  | .RAMP_MAP => wrRampMap m (i / 4096) (i % 4096) v mask
  | .ROPE_MAP => wrRopeMap m i v mask
  | .ROPE_CTRL => wrRopeCtrl m v mask
  | .DRAM_DLY_LINE => wrDlyLine m i v mask tie
  | .DRAM_DLY_TAP => wrDlyTap m i v mask tie
  | .DRAM_CFG => wrDramCfg m v mask
  | .DRAM_CTRL => wrDramCtrl m v mask
  | .PDM_CLK => wrPdmClk m i v mask tie
  | .DEC_MIC => wrDecMic m i v mask tie
  | .DEC_ID_TIME => wrIdTime m v mask
  | .DEC_ID_CH => wrIdCh m i v mask
  | .DEC_ID_CMD => onlyIf (bitOf w 0) idZero
  | .SAP_CLK => wrSapClk m i v mask tie
  | .SAP_RXCFG => wrSapCfg m i .rxcfg v mask tie
  | .SAP_TXCFG => wrSapCfg m i .txcfg v mask tie
  | .SAP_RXSLOT => wrSapCfg m i .rxslot v mask tie
  | .SAP_TXSLOT => wrSapCfg m i .txslot v mask tie
  | .SAP_START_CMD => wrSapStart m w
  | .MOD_START => modMask false w
  | .MOD_STOP => modMask true w
  | .MOD_FCLR => wrModFclr m w
  | .MOD_CH => wrModCh m i v mask tie
  | .SENSE_PT => wrSensePt m i v mask tie
  | .SENSE_CTRL => wrSenseCtrl m v mask
  | .POOL_PUSH => pushCell m (w % 65536) (bitOf w 31)
  | .POOL_FREE => freeCell m (w % 65536)
  | .POOL_QWORD => qwordWrite m v mask
  | .POOL_QCFG => wrQcfg m v mask
  | .POOL_QSTAT => wrQstat m v mask
  | .POOL_ERR => wrPoolErr m v mask
  | .POOL_WM => wrPoolWm m v mask
  | .POOL_QHIGH => wrQhigh m i v mask
  | .POOL_LPORT => wrLport m i v mask tie
  | .ETH_PCFG => wrPcfg m i v mask
  | .ETH_SWCFG => wrSwcfg m v mask
  | .ETH_GATE => wrGate m v mask tie
  | .ETH_AT_CMD => wrAtCmd m w
  | .ETH_MGMT => wrEthMgmt m v mask
  | .T1S_CFG => wrT1sCfg m v mask
  | .CLT_RXCFG => wrCltEntry .rxcfg m i v mask tie
  | .CLT_RXKEY => wrCltEntry .rxkey m i v mask tie
  | .CLT_RXAUX => wrCltEntry .rxaux m i v mask tie
  | .CLT_TXCFG => wrCltEntry .txcfg m i v mask tie
  | .CLT_TXDST => wrCltEntry .txdst m i v mask tie
  | .CLT_TXKEY => wrCltEntry .txkey m i v mask tie
  | .CLT_TXAUX => wrCltEntry .txaux m i v mask tie
  | .CLT_POL => wrClPol m i v mask
  | .PTP_TIME_FRAC => timeBuffer m 0 v
  | .PTP_TIME_NS => timeBuffer m 1 v
  | .PTP_TIME_SECLO => timeBuffer m 2 v
  | .PTP_TIME_SECHI => timeCommit m v
  | .PTP_CFG => wrPtpPort R.PTP_CFG m 0 v mask
  | .PTP_PCFG => wrPtpPort R.PTP_PCFG m i v mask
  | .PTP_EVT_CTRL => wrEvtCtrl m i v mask
  | .PTP_EVT_SEC => wrEvtTime R.PTP_EVT_SEC m i v mask
  | .PTP_EVT_NS => wrEvtTime R.PTP_EVT_NS m i v mask
  | .PTP_EVT_PER => wrEvtTime R.PTP_EVT_PER m i v mask
  | .CLK_CTRL => wrClkCtrl m v mask
  | .CLK_REFCFG => wrClkRefcfg m v mask
  | .CLK_FR => wrClkFr m v mask
  | .CLK_PLLA => wrClkPlla m v mask
  | .CLK_ALIGN => wrClkAlign w
  | .CLK_OUT => wrClkOut m i v mask
  | .PAIR_CMD => wrPairCmd m v mask
  | .PAIR_PATCH => wrPairPatch m v mask
  | .GAL_COPY => wrGalCopy m i v mask tie
  | .GAL_STSET => wrStset m (i / 16) (i % 16) v mask
  | .SUMP_STAT => wrSumpStat m v mask
  | .SUMP_CTRL => wrSumpCtrl v mask
  | .SUMP_EVSTAT => wrEvstat m i v mask
  | .SUMP_EVCNT => wrEvcnt m i v mask
  | .SUMP_EVCFG => wrEvcfg m i v mask
  | .STRATA_CMD => wrStrataCmd m v mask tie
  | .STRATA_GCMD => wrGcmd m v mask tie
  | .PWR_MCFG => wrMcfg m v mask
  | .PWR_INCFG => wrIncfg m i v mask
  | .PWR_JHOST => wrJhost m v mask
  | .PWR_LP => wrLp m v mask
  | .HCP_CFG => wrHcpCfg m v mask
  | _ => storeWrite e i m v mask (e.reg.addr i + 4 * (e.reg.words - 1)) tie

/-- Write the register word at `a`, its place known (R83): the low word of a pair is buffered, the high word commits both.
A `_LIVE` mirror has read-only fields alone. -/
def regWrite (m : Nat) (p : Place) (a v : Nat) (tie : Bool) : Act := .seq (blockUse a) <| .look fun s =>
  if p.live then .done
  else if isPair p.e.reg then
    if p.w = 0 then bufLow m a v
    else match buffered s m (a - 4) with
      | some lo => .seq (unbuf m (a - 4)) (elemWrite p.e p.i m (lo + v * 2 ^ 32) (fullMask 2) tie)
      | none => elemWrite p.e p.i m (v * 2 ^ 32) (2 ^ 64 - 2 ^ 32) tie
  else elemWrite p.e p.i m (v * 2 ^ (32 * p.w)) ((2 ^ 32 - 1) * 2 ^ (32 * p.w)) tie

end Sys2Proof.Machine
end

