-- ==== Sys2Proof/Machine/Bus.lean ====
section
/-! DEFINITION. The bus matrices: who reaches what, single accesses and bursts, memory windows and registers, waiting
lane-window accesses, aborted bursts (02_hierarchy_and_matrices.md, R55–R85). -/

namespace Sys2Proof.Machine

/-- Bytes of an access size. -/
def sizeBytes : Size → Nat
  | .b1 => 1 | .b2 => 2 | .b4 => 4 | .b8 => 8

/-! ### Reach, R56, R57 -/

/-- The lane slot in whose window an address lies. -/
def laneWindow (a : Nat) : Option Nat :=
  if a < 0x10000000 && a % 0x1000000 < 0x440000 then some (slotAt a) else none

/-- Requester `q` reaches the word at `a`. The gallery DMA reaches S16 only as the spare loader, which writes it while a load runs
(R519). -/
def reaches (q : Requester) (wr : Bool) (a : Nat) (s : State) : Bool :=
  match q with
  | .master _ => true
  | .lane l => windowOf a s == some .gal && a / 0x1000000 == l.val / 17
  | .gdma g => match windowOf a s with
    | some .gal => a / 0x1000000 == g.val
    | some .pool | some .scene | some .dram => true
    | _ => wr && laneWindow a == some (17 * g.val + 16) && (match smFind s.pair.spares g with
      | some x => !x.done
      | none => false)
  | .ramp g => wr && windowOf a s == some .y && a / 0x1000000 == g.val

/-- The event that reports an uncorrectable word to its requester (R181). -/
def ueEvent : Requester → Option Ev
  | .master _ => some .ECC_UE_MASTER
  | .gdma _ => some .ECC_UE_DMA
  | .ramp _ => some .ECC_UE_RAMP
  | .lane _ => none

/-! ### Memory windows -/

/-- LPDDR5X is out of use until it is READY: what an access then does the spec leaves open (DESIGN CHOICE, log 32). -/
def dramOut (w : Window) (s : State) : Bool := w = .dram && !F.DRAM_STAT_READY.on 0 s

/-- Read `n` bytes at `a` in a window; a program memory word is a pair for 32-bit accesses, and a read of it whole releases the latch
(R82, R85). -/
def windowRead (q : Requester) (w : Window) (a n : Nat) (k : Nat → Bool → Act) : Act := .look fun s =>
  let id := reqId q
  let ev := ueEvent q
  if dramOut w s || (w = .pool && busHole s a) then draw fun v => k (v % 2 ^ (8 * n)) false
  else if w = .prog && n < 8 then
    if a % 8 = 0 then memRead w id a 8 ev fun v err =>
      .seq (latchHigh id a (v / 2 ^ 32)) (k (v % 2 ^ (8 * n)) err)
    else if a % 8 < 4 then memRead w id a n ev k
    else match latched s id (a / 4 * 4) with
      | some h => .seq (unlatch id (a / 4 * 4)) (k (h / 2 ^ (8 * (a % 4)) % 2 ^ (8 * n)) false)
      | none => memRead w id a n ev k
  else .seq (onlyIf (w = .prog) (unlatch id (a + 4))) (memRead w id a n ev k)

/-- Write the slots of one beat in a window; `k` goes on with whether the write met an uncorrectable word. -/
def windowWrite (q : Requester) (w : Window) (xs : List SlotWr) (k : Bool → Act) : Act := .look fun s =>
  let go := slotsWrite w (reqId q) xs (ueEvent q) k
  if xs.all (·.en = 0) then k false
  else if dramOut w s then draw fun r => if r % 2 = 1 then go else k false
  else go

/-! ### Registers -/

/-- Read `n` ≤ 4 bytes at `a` of the registers (R79); an unassigned address reads zero (R12). `hush`: the decode error of the beat has
been noted (R71). -/
def groupRead (q : Requester) (a n : Nat) (hush : Bool) (k : Nat → Bool → Act) : Act :=
  let b := a / 4 * 4
  match placeOf b with
  | some p => regRead (reqId q) p b (a % 4 = 0) fun v err => k (v / 2 ^ (8 * (a - b)) % 2 ^ (8 * n)) err
  | none => .seq (onlyIf (!hush) (decodeErr (reqId q) false a)) (k 0 false)

/-- The enabled bytes of a 32-bit group are one, an aligned pair, or all four (R70). -/
def enWhole (en : Nat) : Bool := [0xF, 1, 2, 4, 8, 3, 0xC].contains en

/-- Write the enabled bytes of the 32-bit group at `b` of the registers (R70, R80). No register is byte-writable. An error records the
address of the first enabled byte (log 10). -/
def groupWrite (q : Requester) (b en v : Nat) (tie hush : Bool) : Act :=
  let id := reqId q
  if en = 0 then .done
  else match placeOf b with
    | none => onlyIf (!hush) (decodeErr id true (firstByte b en))
    | some p =>
      if en = 0xF then regWrite id p b v tie
      else if enWhole en then accessErr id (firstByte b en) 0
      else onlyIf (!hush) (decodeErr id true (firstByte b en))

/-- The slot at `b` lies in no target. The peripheral bridge judges its 32-bit groups one by one, every other matrix the slot (R68,
R71). -/
def slotBare (b : Nat) (s : State) : Bool :=
  chipTarget b ≠ some 0 && (windowOf b s).isNone && (placeOf b).isNone && (placeOf (b + 4)).isNone

/-- Read the 64-bit slot at `b` (R81). -/
def slotGet (q : Requester) (b : Nat) (hush : Bool) (k : Nat → Bool → Act) : Act := .look fun s =>
  if !reaches q false b s || slotBare b s then .seq (onlyIf (!hush) (decodeErr (reqId q) false b)) (k 0 false)
  else match windowOf b s with
    | some w => windowRead q w b 8 k
    | none => groupRead q b 4 hush fun lo e => groupRead q (b + 4) 4 hush fun hi e' => k (lo + hi * 2 ^ 32) (e || e')

/-- Write the enabled bytes of a 64-bit slot (R81). -/
def slotPut (q : Requester) (x : SlotWr) (tie hush : Bool) (k : Bool → Act) : Act := .look fun s =>
  let b := x.addr
  if x.en = 0 then k false
  else if !reaches q true b s || slotBare b s then .seq (onlyIf (!hush) (decodeErr (reqId q) true (firstByte b x.en))) (k false)
  else match windowOf b s with
    | some w => windowWrite q w [x] k
    | none => acts [groupWrite q b (x.en % 16) (x.data % 2 ^ 32) tie hush,
        .look fun t => .seq (groupWrite q (b + 4) (x.en / 16) (x.data / 2 ^ 32 % 2 ^ 32) tie hush)
          (k (groupFails (reqId q) (b + 4) (x.en / 16) t))]

/-! ### Single accesses and bursts -/

/-- A single read of `n` bytes (R72). -/
def oneRead (q : Requester) (a n : Nat) (k : Nat → Bool → Act) : Act := .look fun s =>
  if a % n ≠ 0 || !reaches q false a s then .seq (decodeErr (reqId q) false a) (k 0 false)
  else if n = 8 then slotGet q a false k
  else match windowOf a s with
    | some w => windowRead q w a n k
    | none => groupRead q a n false k

/-- A write of the slots of one beat meets the pair's rules of R496 and R498: dropped at a standby, with `skip` to go on, or forwarded
slot by slot and performed. Other requesters than the masters stand outside them. -/
def arrives (q : Requester) (a : Nat) (xs : List SlotWr) (act skip : Act) : Act := match q with
  | .master m => .look fun s =>
    if standbyDrops m a s then .seq (dropped m a) skip
    else .seq (forEach (xs.filter fun x => x.en ≠ 0) fun x => forward m (firstByte x.addr x.en)
      (x.en / 2 ^ (firstByte x.addr x.en - x.addr)) (x.data / 2 ^ (8 * (firstByte x.addr x.en - x.addr)))) act
  | _ => act

/-- A single write of `n` bytes. -/
def oneWrite (q : Requester) (a n v : Nat) (tie : Bool) (k : Bool → Act) : Act :=
  if a % n ≠ 0 then .seq (decodeErr (reqId q) true a) (k false)
  else
    let x : SlotWr := ⟨a / 8 * 8, (2 ^ n - 1) * 2 ^ (a % 8), v % 2 ^ (8 * n) * 2 ^ (8 * (a % 8))⟩
    arrives q a [x] (slotPut q x tie false k) (k false)

/-- Read the slots of a list one after another. -/
def slotsGet (q : Requester) (hush : Bool) : List Nat → (List Nat → Bool → Act) → Act
  | [], k => k [] false
  | b :: bs, k => slotGet q b hush fun v e => slotsGet q hush bs fun vs e' => k (v :: vs) (e || e')

/-- Write slots one after another. -/
def slotsPut (q : Requester) (hush : Bool) : List SlotWr → (Bool → Act) → Act
  | [], k => k false
  | x :: r, k => slotPut q x false hush fun e => slotsPut q hush r fun e' => k (e || e')

/-- Addresses of the slots of the beat at `a`. -/
def beatSlots (a : Nat) : List Nat := [a, a + 8, a + 16, a + 24]

/-- The slots that a beat at `a` writes. -/
def slotsOfBeat (a : Nat) (b : Beat) : List SlotWr := (List.range 4).map fun i =>
  ⟨a + 8 * i, b.en.toNat / 2 ^ (8 * i) % 256, b.data.toNat / 2 ^ (64 * i) % 2 ^ 64⟩

/-- The addresses at which enabled bytes of a slot make its beat a decode error: the slot out of reach or outside every target, a group
without a register, a pattern that is unaligned (R12, R68, R70, R72). -/
def slotFaults (q : Requester) (wr : Bool) (s : State) (x : SlotWr) : List Nat :=
  if x.en = 0 then []
  else if !reaches q wr x.addr s || slotBare x.addr s then [firstByte x.addr x.en]
  else if (windowOf x.addr s).isSome then []
  else ([(x.addr, x.en % 16), (x.addr + 4, x.en / 16)].filter fun g =>
    g.2 ≠ 0 && ((placeOf g.1).isNone || !enWhole g.2)).map fun g => firstByte g.1 g.2

/-- A beat is judged once at every level but the peripheral bridge, which judges its groups one by one: its decode error names the first
byte at fault (R71; log 10). `hush` tells the rest whether that has been done. -/
def beatJudge (q : Requester) (wr : Bool) (a : Nat) (xs : List SlotWr) (k : Bool → Act) : Act := .look fun s =>
  if chipTarget a = some 0 then k false
  else .seq (match xs.flatMap (slotFaults q wr s) with
    | b :: _ => decodeErr (reqId q) wr b
    | [] => .done) (k true)

/-- Read the beat at `a`: one in error answers with zero data (R181). -/
def beatGet (q : Requester) (a : Nat) (k : List Nat → Bool → Act) : Act :=
  beatJudge q false a ((beatSlots a).map fun b => ⟨b, 0xFF, 0⟩) fun hush =>
    slotsGet q hush (beatSlots a) fun vs e => k (if e then [0, 0, 0, 0] else vs) e

/-- Write the beat at `a`: in a memory window its enabled bytes together or not at all (R69). -/
def beatPut (q : Requester) (a : Nat) (b : Beat) (k : Bool → Act) : Act := .look fun s =>
  let xs := slotsOfBeat a b
  let first := ((xs.find? fun x => x.en ≠ 0).map fun x => firstByte x.addr x.en).getD a
  arrives q first xs
    (beatJudge q true a xs fun hush => match windowOf a s with
     | some w => if reaches q true a s then windowWrite q w xs k else k false
     | none => slotsPut q hush xs k)
    (k false)

/-- Read the beats of a burst from their addresses, `i` the number of the first; `k` goes on with the data and the beats in error. -/
def beatsGet (q : Requester) (i : Nat) : List Nat → (List Nat → List Nat → Act) → Act
  | [], k => k [] []
  | a :: r, k => beatGet q a fun vs e => beatsGet q (i + 1) r fun ws bad => k (vs ++ ws) (if e then i :: bad else bad)

/-- Write the beats of a burst. -/
def beatsPut (q : Requester) (i : Nat) : List (Nat × Beat) → (List Nat → Act) → Act
  | [], k => k []
  | (a, b) :: r, k => beatPut q a b fun e => beatsPut q (i + 1) r fun bad => k (if e then i :: bad else bad)

/-- A burst of `n` beats from `a` is a decode error in full: misaligned, or across a 4 KiB boundary (R68, R72). -/
def burstBad (a n : Nat) : Bool := a % 32 ≠ 0 || 4096 < a % 4096 + 32 * n

/-- Perform an access and answer its requester. `n` is how many beats of a burst are performed. -/
def perform (q : Requester) (a : Nat) (r : MatrixReq) (n : Nat) (tie : Bool) : Act :=
  let id := reqId q
  match r with
  | .read sz => .seq (grant id [a]) (oneRead q a (sizeBytes sz) fun v e => respond id [v] e)
  | .write sz v => .seq (grant id [a]) (oneWrite q a (sizeBytes sz) v.toNat tie fun e => respond id [] e)
  | .readBurst len =>
    let as := (List.range (min n len)).map fun i => a + 32 * i
    if burstBad a len then acts [grant id [a], decodeErr id false a, respond id (List.replicate (4 * len) 0)]
    else .seq (grant id (as.flatMap beatSlots)) (beatsGet q 0 as fun vs bad => respondBeats id vs bad)
  | .writeBurst bs =>
    let as := (bs.take n).zipIdx.map fun p => (a + 32 * p.2, p.1)
    if burstBad a bs.length then acts [grant id [a], decodeErr id true a, respond id []]
    else .seq (grant id (as.flatMap fun p => beatSlots p.1)) (beatsPut q 0 as fun bad => respondBeats id [] bad)

/-- Beats of a request. -/
def reqBeats : MatrixReq → Nat
  | .readBurst n => n
  | .writeBurst bs => bs.length
  | _ => 1

/-- A request that the matrices carry: 1 to 16 beats, and on the gallery matrix, where lanes, ramp engines and a gallery DMA at its own
gallery issue, one beat of a 64-bit slot (R68). -/
def issued (q : Requester) (a : Nat) (r : MatrixReq) : Bool :=
  reqBeats r ≠ 0 && reqBeats r ≤ 16 && (match q, r with
    | .master _, _ | _, .read _ | _, .write _ _ => true
    | .gdma _, _ => decide (0x10000000 ≤ a)
    | _, _ => false)

/-- The request is a decode error in full, whatever it addresses (R68, R72). -/
def illFormed (a : Nat) : MatrixReq → Bool
  | .read sz | .write sz _ => a % sizeBytes sz ≠ 0
  | .readBurst n => burstBad a n
  | .writeBurst bs => burstBad a bs.length

/-- The 32-bit groups that a request touches. -/
def reqGroups (a : Nat) : MatrixReq → List Nat
  | .read sz | .write sz _ => (List.range ((sizeBytes sz + 3) / 4)).map fun i => a / 4 * 4 + 4 * i
  | .readBurst n => (List.range (8 * n)).map fun i => a + 4 * i
  | .writeBurst bs => bs.zipIdx.flatMap fun p =>
      ((List.range 8).filter fun i => p.1.en.toNat / 2 ^ (4 * i) % 16 ≠ 0).map fun i => a + 32 * p.2 + 4 * i

/-- The group at `b` is in a memory of a released lane, or is a register of it other than `LANE_CTRL` and `LANE_STAT` (R59). -/
def groupBars (s : State) (b : Nat) : Bool :=
  match laneWindow b with
  | some l => laneReleased s l && (decide (b % 0x40000 < 0x28000) || (match placeOf b with
      | some p => decide (p.e.reg.name ≠ .LANE_CTRL) && decide (p.e.reg.name ≠ .LANE_STAT)
      | none => false))
  | none => false

/-- The access has to wait for a released lane (R59). It binds the accesses of the chamber downlink, P19, which are those of the chip
matrix. -/
def laneBars (q : Requester) (a : Nat) (r : MatrixReq) (s : State) : Bool :=
  match q with
  | .master _ => !illFormed a r && (reqGroups a r).any (groupBars s)
  | _ => false

/-- The access waits: for its lane, or, since the host port keeps issue order, behind an earlier access of M1 (R601). -/
def mustWait (q : Requester) (a : Nat) (r : MatrixReq) (s : State) : Bool :=
  laneBars q a r s || (reqId q == 1 && accessPends 1 s)

/-- An access on the matrices. -/
def busAccess (q : Requester) (a : Nat) (r : MatrixReq) (tie : Bool := false) : Act := .look fun s =>
  if asleep s || !issued q a r then .done
  else if mustWait q a r s then setBus fun b => { b with waiting := b.waiting ++ [⟨q, a, r⟩] }
  else perform q a r 16 tie

/-- Waiting accesses of the requesters that `p` names go on when their lane has ceased to be released, each requester's in order
(R60). -/
def resumeWaiting (p : Requester → Bool) : Act := .look fun s =>
  forEach (s.bus.waiting.filter fun w => p w.who) fun w => .look fun s =>
    let first := s.bus.waiting.find? fun x => x.who = w.who
    let route := s.bus.routeStall.any fun x => x.who = w.who
    if !asleep s && first = some w && !route && !laneBars w.who w.addr w.req s then
      .seq (setBus fun b => { b with waiting := b.waiting.erase w }) (perform w.who w.addr w.req 16 false)
    else .done

/-- What a master reset does to the accesses that wait: they end, and a pool read takes nothing (R75, R362). -/
def dropWaits (id : Nat) : Act := .seq
  (setBus fun b => { b with
    waiting := b.waiting.filter fun w => reqId w.who ≠ id
    routeStall := b.routeStall.filter fun w => reqId w.who ≠ id })
  (setPool fun p => { p with waits := p.waits.filter (·.req ≠ id) })

/-- Record a burst abort and leave its target unparked (R75, R77). -/
def noteAbort (id a n : Nat) (wr : Bool) : Act := acts [
  R.XBAR_ABORT.set 0 (2 ^ 63 + b2n wr * 2 ^ 62 + id * 2 ^ 52 + n * 2 ^ 32 + a),
  match grantPath id a with
    | t :: _ => setBus fun b => { b with park := smErase b.park t.1 }
    | [] => .done,
  raise .XBAR_BURST_ABORT id n]

/-- Address and direction of the access of a requester that waits. -/
def pendingAt (id : Nat) (s : State) : Option (Nat × Bool) :=
  let mine (l : List WaitAcc) : Option (Nat × Bool) := (l.find? fun w => reqId w.who == id).map fun w =>
    (w.addr, match w.req with | .write _ _ | .writeBurst _ => true | _ => false)
  ((mine s.bus.waiting).or (mine s.bus.routeStall)).or
    ((s.pool.waits.find? fun w => w.req == id).map fun w =>
      ((if w.word then R.POOL_QWORD else R.POOL_POP).addr 0, false))

/-- A master without bursts is reset: the access it waits for ends with no beat committed (R75; log 33). -/
def masterReset (id : Nat) : Act := .look fun s =>
  match pendingAt id s with
  | some (a, wr) => acts [dropWaits id, noteAbort id a 0 wr]
  | none => .done

/-- A master is reset in a burst of which the target has accepted `n` beats (R75–R77). -/
def burstAbort (m : Master) (a : Nat) (r : MatrixReq) (n : Nat) : Act := .look fun s =>
  let len := reqBeats r
  let wr := match r with | .write _ _ | .writeBurst _ => true | _ => false
  let k := min n len
  if asleep s || len = 0 || 16 < len then .done
  else acts [
    dropWaits m,
    onlyIf (decide (0 < k)) (perform (.master m) a r k false),
    setBus fun b => { b with resp := smErase b.resp m },
    noteAbort m a k wr]

/-! ### The standby, R497 -/

/-- A forwarded write is performed at the standby in the name of the master that made it. One that meets a released lane waits as
an access of the mirror, M3. -/
def mirrorWrite (g : WriteMsg) : Act := .look fun s =>
  let a := g.addr.toNat
  let sh := a % 8
  let en := g.en.toNat * 2 ^ sh % 256
  let v := g.data.toNat * 2 ^ (8 * sh) % 2 ^ 64
  let wait (b : Nat) (sz : Size) (v : Nat) : Act :=
    setBus fun x => { x with waiting := x.waiting ++ [⟨.master 3, b, .write sz (BitVec.ofNat 64 v)⟩] }
  let b := a - sh
  if !isStandby (F.PAIR_STAT_STATE.get 0 s) then .done
  else if laneBars (.master 3) b (.write .b8 0) s && (en = 0xFF || en = 0x0F || en = 0xF0) then
    if en = 0xFF then wait b .b8 v else if en = 0x0F then wait b .b4 v else wait (b + 4) .b4 (v / 2 ^ 32)
  else .seq (parkOn 3 a) (slotPut (.master g.master) ⟨b, en, v⟩ false false fun _ => .done)

/-! ### Rejoining, R513, R514 -/

/-- The mirror, M3, writes an X or Y word at `a` (R55, R518); a set that runs past its memory writes nothing there. -/
def mirrorPut (a : Nat) (w : W40) : Act := .look fun s => match windowOf a s with
  | some w0 => onlyIf w0.is40
      (.seq (grant 3 [a]) (windowWrite (.master 3) w0 [⟨a, 0xFF, ofInt 64 w.toInt⟩] fun _ => .done))
  | none => .done

/-- A lane state set is written where the lane waits (R514). -/
def putLaneSet (slot : Nat) (g : LaneSet) : Act := .look fun s =>
  let n := g.lane.val
  acts [
    forEach (g.xs.zipIdx.take (F.GAL_STSET_XLEN.get n s)) fun p => mirrorPut (xyAddr slot false (F.GAL_STSET_XBASE.get n s + p.2)) p.1,
    forEach (g.ys.zipIdx.take (F.GAL_STSET_YLEN.get n s)) fun p => mirrorPut (xyAddr slot true (F.GAL_STSET_YBASE.get n s + p.2)) p.1,
    setLane slot fun l => { l with
      d := Vector.ofFn fun i => g.ds.getD i.val 0
      acc := Vector.ofFn fun i => g.accs.getD i.val 0
      a := Vector.ofFn fun i => g.as_.getD i.val 0
      m := Vector.ofFn fun i => g.ms.getD i.val 0
      len := Vector.ofFn fun i => g.lens.getD i.val 0
      zf := g.zf, nf := g.nf, rets := g.rets.map (·.val), pc := g.pc.val, results := [], stores := [] }]

/-- A LANESTATE message (R514). -/
def takeLaneState (g : LaneSet) : Act := .look fun s =>
  if !pairIs 4 s then .done
  else match slotOf s g.lane with
  | none => F.PAIR_CNT_COUNT.inc 7
  | some slot =>
    if g.tick = BitVec.ofNat 32 (tickNum s) && (laneAt s slot).st == .wait && !edgeDue s then
      .seq (putLaneSet slot g) (.look fun s =>
        let left := s.pair.lanesLeft.filter (· ≠ g.lane.val)
        setPair fun p => { p with lanesLeft := left
                                  convLeft := if left.isEmpty && !p.lanesLeft.isEmpty then convT s + 1 else p.convLeft })
    else F.PAIR_CNT_COUNT.inc 7

/-- One item of background copy data (R513). A word of lane memory is an access of M3, which waits while its lane is released (R59). A
shadowed register word is applied at the next edge like any shadow
write, as one of the mirror M3, which is the master that makes it. -/
def takeCopy : CopyRec → Act
  | .icw w => .look fun s => setPair fun p => { p with icwDiff := decide (w.toNat ≠ R.STRATA_ICW.val 0 s) }
  | .slot a v => .look fun s => match windowOf a.toNat s with
    | some w => onlyIf (w.is40 || w = .prog) (busAccess (.master 3) (a.toNat / 8 * 8) (.write .b8 v))
    | none => .done
  | .reg a v => match placeOf a.toNat with
    | some p => if p.live then .done else .look fun s =>
        let old := p.e.reg.val p.i s
        .seq (.upd (.reg (p.e.reg.key p.i p.w 1) v))
          (onlyIf (p.e.flds.any (·.sh) && decide (p.e.reg.word p.i p.w 1 s ≠ v.toNat)) (noteShadow (p.e.reg.addr p.i) old 3 false false))
    | none => .done
  | .queue q v => putQcfg q v.toNat
  | .mac i key mask act => setEth fun e => { e with at_ := smPut (fun _ => (⟨0, 0, 0⟩ : AtEntry)) e.at_ i ⟨key, mask, act⟩ }
  | .route e v => putRoute e v.toNat
  | .ramp g p v0 target cur db dur k =>
    .seq (setRamp g p { v0 := v0, target := target, db := db, dur := dur, k := k, cur := cur, kEnd := k, endv := cur, failed := false })
      (.seq (eccFresh fun key => eccInst key == 0x5000 + 256 * g.val && eccUnit key / 4 == p.val) (rampShow g p (decide (k < dur))))

/-! ### Commands -/

/-- REGISTER_WRITE (R6). -/
def execRegisterWrite (m : Master) (a : Word) (sz : Size) (v : W64) (tie : Bool) (s : State) :
    Host.Outcome State Fault Refusal := answer (busAccess (.master m) a.toNat (.write sz v) tie) s

/-- MEMORY_ACCESS (R80). -/
def execMemoryAccess (q : Requester) (a : Word) (r : MatrixReq) (s : State) : Host.Outcome State Fault Refusal :=
  answer (busAccess q a.toNat r) s

/-- PAIR_LOW_READ (R82). -/
def execPairLowRead (m : Master) (a : Word) (s : State) : Host.Outcome State Fault Refusal :=
  answer (busAccess (.master m) a.toNat (.read .b4)) s

/-- PAIR_LOW_WRITE (R83). -/
def execPairLowWrite (m : Master) (a v : Word) (s : State) : Host.Outcome State Fault Refusal :=
  answer (busAccess (.master m) a.toNat (.write .b4 (v.setWidth 64))) s

/-- PAIR_HIGH_WRITE (R83). -/
def execPairHighWrite (m : Master) (a v : Word) (s : State) : Host.Outcome State Fault Refusal :=
  answer (busAccess (.master m) a.toNat (.write .b4 (v.setWidth 64))) s

/-- MASTER_RESET_ABORT (R75). -/
def execMasterResetAbort (m : Master) (a : Word) (r : MatrixReq) (n : Nat) (s : State) : Host.Outcome State Fault Refusal :=
  answer (burstAbort m a.toNat r n) s

/-- LANE_WINDOW_ACCESS_RESUME (R60). -/
def execLaneWindowAccessResume (s : State) : Host.Outcome State Fault Refusal := answer (resumeWaiting fun _ => true) s

/-- SIPHON_WRITE (R497). -/
def execSiphonWrite (g : WriteMsg) (segs : List (List Byte)) (s : State) : Host.Outcome State Fault Refusal :=
  answer (message 0x10 segs fun _ _ => mirrorWrite g) s

/-- SIPHON_LANESTATE (R514). -/
def execSiphonLanestate (g : LaneSet) (segs : List (List Byte)) (s : State) : Host.Outcome State Fault Refusal :=
  answer (message 0x30 segs fun _ _ => takeLaneState g) s

/-- SIPHON_COPY (R513). -/
def execSiphonCopy (rs : List CopyRec) (segs : List (List Byte)) (s : State) : Host.Outcome State Fault Refusal :=
  answer (message 0x40 segs fun _ _ => .look fun s => onlyIf (pairIs 3 s) (forEach rs takeCopy)) s

/-- ROUTE_WRITE_RELEASE (R201): what waits behind a route write of the host port goes on after it (R601). -/
def execRouteWriteRelease (s : State) : Host.Outcome State Fault Refusal := answer (.seq routeRelease (resumeWaiting fun _ => true)) s

end Sys2Proof.Machine
end

