-- ==== Sys2Proof/Machine/Hcp.lean ====
section
/-! DEFINITION. The host control port, master M1: transactions, their accesses and their codes (R593–R608). -/

namespace Sys2Proof.Machine

/-! ### The command byte, R595, R596 -/

/-- OP of a command byte: 0 READ, 1 WRITE, 2 STATUS, 3 ABORT. -/
def hcpOp (c : Nat) : Nat := c / 64 % 4

/-- The command byte is refused. STATUS and ABORT have no SIZE and no INC; STATUS may be quad (R604). -/
def hcpBad (s : State) (c : Nat) : Bool :=
  let quad := bitOf c 2
  c % 4 ≠ 0 || (quad && !F.HCP_CFG_QEN.on 0 s) ||
    (if hcpOp c < 2 then c / 16 % 4 = 3 else c / 8 % 8 ≠ 0 || (hcpOp c = 3 && quad))

/-- SIZE of a command byte. -/
def hcpSize (c : Nat) : Size := match c / 16 % 4 with | 0 => .b1 | 1 => .b2 | _ => .b4

/-- Address of word `k` (R597). -/
def hcpAddr (c a k : Nat) : Nat := if bitOf c 3 then (a + k * sizeBytes (hcpSize c)) % 2 ^ 32 else a

/-- The status byte (R596). -/
def hcpStatusByte (s : State) : Nat :=
  let v := showVal .HCP_STAT 0 1 s (R.HCP_STAT.val 0 s)
  let code := F.HCP_STAT_CODE.of v
  b2n (F.HCP_STAT_PEND.of v = 0) * 128 + b2n (decide (code ≠ 0)) * 64 + F.HCP_STAT_INT1.of v * 32 +
    F.HCP_STAT_INT0.of v * 16 + code

/-- The transaction meets the condition `c`; the first to occur stands (R603). -/
def hcpFail (c : Nat) : Act := .look fun s =>
  if s.hcp.code ≠ 0 then .done
  else .seq (setHcp fun h => { h with code := c }) (onlyIf (c ≠ 1) (raise .HCP_ERR c))

/-- Bytes driven to the host. -/
def hcpDrive (bs : List Byte) : Act := setHcp fun h => { h with out := h.out ++ bs }

/-- HCP_CS_N falls and the command byte is taken; `act` is what a command does that is not refused. READ and WRITE meet BUSY
while an access is pending and before PLL_A has locked (R600, R607). In LISTEN the port does not answer. -/
def hcpBegin (c op : Nat) (act : Act) : Act := .look fun s =>
  if asleep s || s.hcp.open_ || hcpOp c ≠ op then .done
  else .seq (setHcp fun h => { h with
      open_ := true, code := 0, op := op, quad := bitOf c 2, todo := [], out := bytesBe 1 (hcpStatusByte s) })
    (if hcpBad s c then hcpFail 2
     else if op < 2 && (accessPends 1 s || !s.clk.up) then hcpFail 6
     else act)

/-- What the node drives on HCP_IO0 to HCP_IO3 in one cycle of HCP_SCK. -/
abbrev HcpCycle := List (Option Bool)

/-- A cycle in which the node drives no line. -/
def hcpIdle : HcpCycle := [none, none, none, none]

/-- A byte on HCP_IO1, or as two nibbles on four lines, the most significant bits first (R593). -/
def hcpByte (quad : Bool) (b : Byte) : List HcpCycle :=
  if quad then [7, 3].map fun i => [i - 3, i - 2, i - 1, i].map fun j => some (b.getLsbD j)
  else (List.range 8).map fun i => [none, some (b.getLsbD (7 - i)), none, none]

/-- What the node drives in the transaction, cycle by cycle: the status byte, nothing during the turnaround and the address, and the bytes of
the data phase, which in a quad READ follow 2 cycles without a driver (R594, R596, R598, R604). The busy bytes are left out (log 109). -/
def hcpLines (s : State) : List HcpCycle :=
  let h := s.hcp
  let address := if 2 ≤ h.op then 0 else if h.quad then 8 else 32
  let gap := (if h.quad then if h.op = 0 then 3 else 1 else 0) + address
  match h.out with
  | [] => []
  | status :: data => hcpByte false status ++ List.replicate gap hcpIdle ++ data.flatMap (hcpByte h.quad)

/-! ### Words, R597–R602 -/

/-- The word read last goes out behind its token (R598). -/
def hcpTake (sz : Size) : Act := .look fun s =>
  match smFind s.bus.resp 1 with
  | some r =>
    if r.err then .seq (hcpDrive (bytesBe 1 0x5E ++ bytesBe (sizeBytes sz) 0)) (hcpFail 1)
    else hcpDrive (bytesBe 1 0x5A ++ bytesBe (sizeBytes sz) (r.data.headD 0).toNat)
  | none => .done

/-- The reads of a transaction, one after another; one that waits holds up the rest (R599). -/
def hcpReads : List (Nat × Size) → Act
  | [] => setHcp fun h => { h with todo := [] }
  | (a, sz) :: r => acts [
      setHcp fun h => { h with todo := (a, sz) :: r },
      setBus fun b => { b with resp := smErase b.resp 1 },
      busAccess (.master 1) a (.read sz),
      .look fun s => if accessPends 1 s then .done else .seq (hcpTake sz) (hcpReads r)]

/-- Words issued and waiting for the matrix (R601). -/
def hcpWaiting (s : State) : Nat :=
  (s.bus.waiting.filter fun w => reqId w.who = 1).length + (s.bus.routeStall.filter fun w => reqId w.who = 1).length

/-- The words of a WRITE in order; one that arrives while 16 wait ends the transaction's words (R601). -/
def hcpWrites (sz : Size) : List (Nat × W64) → Act
  | [] => .done
  | (a, v) :: r => .look fun s =>
    if 16 ≤ hcpWaiting s then hcpFail 4
    else acts [
      setBus fun b => { b with resp := smErase b.resp 1 },
      busAccess (.master 1) a (.write sz v),
      .look fun s => match smFind s.bus.resp 1 with
        | some x => onlyIf x.err (hcpFail 1)
        | none => .done,
      hcpWrites sz r]

/-! ### The end of a transaction, R600, R601, R603, R606 -/

/-- HCP_CS_N rises. `part` says that it rose inside a word, or inside the address phase. -/
def hcpRise (part : Bool) : Act := .look fun s =>
  if !s.hcp.open_ then .done
  else acts [
    (match s.hcp.todo with
     | [] => .done
     | (_, sz) :: r => if accessPends 1 s then .done else .seq (hcpTake sz) (hcpReads r)),
    .look fun s => onlyIf (s.hcp.todo ≠ []) (hcpFail 5),
    .look fun s => onlyIf (part && (s.hcp.op = 1 || (s.hcp.op = 0 && s.hcp.out.length = 1))) (hcpFail 3),
    .look fun s =>
      let c := s.hcp.code
      acts [
        onlyIf (s.hcp.op ≠ 2 || c ≠ 0) (F.HCP_STAT_CODE.set 0 c),
        onlyIf (c ≠ 0) (.seq (F.HCP_STAT_ERRSEEN.set 0 1) (F.HCP_CNT_ERRORS.inc 0)),
        F.HCP_CNT_TRANS.set 0 ((F.HCP_CNT_TRANS.get 0 s + 1) % 65536),
        match s.hcp.cfg with
          | some w => storeWrite (entryOf R.HCP_CFG) 0 1 w.toNat (fullMask 1) (R.HCP_CFG.addr 0)
          | none => .done,
        setHcp fun h => { h with open_ := false, todo := [], cfg := none }]]

/-- A read left pending completes, and its data is discarded (R600). -/
def hcpComplete : Act := .look fun s =>
  if s.hcp.open_ || asleep s then .done
  else acts [
    waitDone 1,
    resumeWaiting fun q => reqId q == 1,
    .look fun s => onlyIf (!accessPends 1 s) (setBus fun b => { b with resp := smErase b.resp 1 })]

/-! ### Commands -/

/-- HCP_READ (R598): `n` words have been clocked, the last at least begun. -/
def execHcpRead (cmd : HcpByte) (a : Word) (n : Nat) (s : State) : Host.Outcome State Fault Refusal :=
  let c := cmd.toNat
  answer (hcpBegin c 0 (hcpReads ((List.range n).map fun k => (hcpAddr c a.toNat k, hcpSize c)))) s

/-- HCP_WRITE (R601). -/
def execHcpWrite (cmd : HcpByte) (a : Word) (ws : List W64) (s : State) : Host.Outcome State Fault Refusal :=
  let c := cmd.toNat
  answer (hcpBegin c 1 (hcpWrites (hcpSize c) (ws.zipIdx.map fun p => (hcpAddr c a.toNat p.2, p.1)))) s

/-- HCP_STATUS (R604), answered from 2 ms after t0 (R607). -/
def execHcpStatus (cmd : HcpByte) (s : State) : Host.Outcome State Fault Refusal :=
  answer (.look fun s => onlyIf (passed 0 (msCycles 2 s) s)
    (hcpBegin cmd.toNat 2 (.look fun s => hcpDrive (bytesBe 4 (showVal .HCP_STAT 0 1 s (R.HCP_STAT.val 0 s)))))) s

/-- HCP_ABORT (R605). -/
def execHcpAbort (cmd : HcpByte) (s : State) : Host.Outcome State Fault Refusal :=
  answer (hcpBegin cmd.toNat 3 (acts [
    masterReset 1,
    setBus fun b => { b with resp := smErase b.resp 1 },
    hcpFail 5,
    F.HCP_STAT_CODE.set 0 5])) s

/-- HCP_CS_RISE (R600, R601). -/
def execHcpCsRise (part : Bool) (s : State) : Host.Outcome State Fault Refusal := answer (hcpRise part) s

/-- HCP_READ_COMPLETE (R600). -/
def execHcpReadComplete (s : State) : Host.Outcome State Fault Refusal := answer hcpComplete s

/-- HCP_CFG_WRITE (R606). -/
def execHcpCfgWrite (m : Master) (v : Word) (s : State) : Host.Outcome State Fault Refusal :=
  answer (busAccess (.master m) (R.HCP_CFG.addr 0) (.write .b4 (v.setWidth 64))) s

end Sys2Proof.Machine
end

