-- ==== Sys2Proof/Machine/LaneExec.lean ====
section
/-! DEFINITION. The commands of the lane instruction set: each issues its word when the lane has come to it
(04_lane_instructions.md). -/

namespace Sys2Proof.Machine

/-- NOP (R145). -/
def execNop (l : LaneSlot) (h : Half) (x : SlotCtx) (s : State) : Host.Outcome State Fault Refusal :=
  answer (laneRun l (slotWord h (.nop) x)) s

/-- MAC (R145). -/
def execMac (l : LaneSlot) (h : Half) (acc : Fin 4) (da : Fin 16) (db : Fin 16) (x : SlotCtx) (s : State) : Host.Outcome State Fault Refusal :=
  answer (laneRun l (slotWord h (.mac acc da db) x)) s

/-- MSU (R145). -/
def execMsu (l : LaneSlot) (h : Half) (acc : Fin 4) (da : Fin 16) (db : Fin 16) (x : SlotCtx) (s : State) : Host.Outcome State Fault Refusal :=
  answer (laneRun l (slotWord h (.msu acc da db) x)) s

/-- MPY (R145). -/
def execMpy (l : LaneSlot) (h : Half) (acc : Fin 4) (da : Fin 16) (db : Fin 16) (x : SlotCtx) (s : State) : Host.Outcome State Fault Refusal :=
  answer (laneRun l (slotWord h (.mpy acc da db) x)) s

/-- MPYN (R145). -/
def execMpyn (l : LaneSlot) (h : Half) (acc : Fin 4) (da : Fin 16) (db : Fin 16) (x : SlotCtx) (s : State) : Host.Outcome State Fault Refusal :=
  answer (laneRun l (slotWord h (.mpyn acc da db) x)) s

/-- MOV (R147). -/
def execOpMov (l : LaneSlot) (h : Half) (d : Fin 16) (r : Fin 16) (x : SlotCtx) (s : State) : Host.Outcome State Fault Refusal :=
  answer (laneRun l (slotWord h (.mov d r) x)) s

/-- ADD (R147). -/
def execOpAdd (l : LaneSlot) (h : Half) (d : Fin 16) (r : Fin 16) (x : SlotCtx) (s : State) : Host.Outcome State Fault Refusal :=
  answer (laneRun l (slotWord h (.add d r) x)) s

/-- SUB (R147). -/
def execOpSub (l : LaneSlot) (h : Half) (d : Fin 16) (r : Fin 16) (x : SlotCtx) (s : State) : Host.Outcome State Fault Refusal :=
  answer (laneRun l (slotWord h (.sub d r) x)) s

/-- NEG (R147). -/
def execOpNeg (l : LaneSlot) (h : Half) (d : Fin 16) (r : Fin 16) (x : SlotCtx) (s : State) : Host.Outcome State Fault Refusal :=
  answer (laneRun l (slotWord h (.neg d r) x)) s

/-- ABS (R147). -/
def execOpAbs (l : LaneSlot) (h : Half) (d : Fin 16) (r : Fin 16) (x : SlotCtx) (s : State) : Host.Outcome State Fault Refusal :=
  answer (laneRun l (slotWord h (.abs d r) x)) s

/-- MAX (R147). -/
def execOpMax (l : LaneSlot) (h : Half) (d : Fin 16) (r : Fin 16) (x : SlotCtx) (s : State) : Host.Outcome State Fault Refusal :=
  answer (laneRun l (slotWord h (.max d r) x)) s

/-- MIN (R147). -/
def execOpMin (l : LaneSlot) (h : Half) (d : Fin 16) (r : Fin 16) (x : SlotCtx) (s : State) : Host.Outcome State Fault Refusal :=
  answer (laneRun l (slotWord h (.min d r) x)) s

/-- CMP (R147). -/
def execCmp (l : LaneSlot) (h : Half) (d : Fin 16) (r : Fin 16) (x : SlotCtx) (s : State) : Host.Outcome State Fault Refusal :=
  answer (laneRun l (slotWord h (.cmp d r) x)) s

/-- AND (R147). -/
def execOpAnd (l : LaneSlot) (h : Half) (d : Fin 16) (r : Fin 16) (x : SlotCtx) (s : State) : Host.Outcome State Fault Refusal :=
  answer (laneRun l (slotWord h (.and d r) x)) s

/-- OR (R147). -/
def execOpOr (l : LaneSlot) (h : Half) (d : Fin 16) (r : Fin 16) (x : SlotCtx) (s : State) : Host.Outcome State Fault Refusal :=
  answer (laneRun l (slotWord h (.or d r) x)) s

/-- XOR (R147). -/
def execOpXor (l : LaneSlot) (h : Half) (d : Fin 16) (r : Fin 16) (x : SlotCtx) (s : State) : Host.Outcome State Fault Refusal :=
  answer (laneRun l (slotWord h (.xor d r) x)) s

/-- ASR (R147). -/
def execAsr (l : LaneSlot) (h : Half) (d : Fin 16) (n : Fin 32) (x : SlotCtx) (s : State) : Host.Outcome State Fault Refusal :=
  answer (laneRun l (slotWord h (.asr d n) x)) s

/-- LSL (R147). -/
def execLsl (l : LaneSlot) (h : Half) (d : Fin 16) (n : Fin 32) (x : SlotCtx) (s : State) : Host.Outcome State Fault Refusal :=
  answer (laneRun l (slotWord h (.lsl d n) x)) s

/-- LSR (R147). -/
def execLsr (l : LaneSlot) (h : Half) (d : Fin 16) (n : Fin 32) (x : SlotCtx) (s : State) : Host.Outcome State Fault Refusal :=
  answer (laneRun l (slotWord h (.lsr d n) x)) s

/-- CV_S (R97). -/
def execCvS (l : LaneSlot) (h : Half) (d : Fin 16) (acc : Fin 4) (rm : Rounding) (x : SlotCtx) (s : State) : Host.Outcome State Fault Refusal :=
  answer (laneRun l (slotWord h (.cv .cvS d acc rm) x)) s

/-- CV_Q (R97). -/
def execCvQ (l : LaneSlot) (h : Half) (d : Fin 16) (acc : Fin 4) (rm : Rounding) (x : SlotCtx) (s : State) : Host.Outcome State Fault Refusal :=
  answer (laneRun l (slotWord h (.cv .cvQ d acc rm) x)) s

/-- CV_C (R97). -/
def execCvC (l : LaneSlot) (h : Half) (d : Fin 16) (acc : Fin 4) (rm : Rounding) (x : SlotCtx) (s : State) : Host.Outcome State Fault Refusal :=
  answer (laneRun l (slotWord h (.cv .cvC d acc rm) x)) s

/-- CV_I (R97). -/
def execCvI (l : LaneSlot) (h : Half) (d : Fin 16) (acc : Fin 4) (rm : Rounding) (x : SlotCtx) (s : State) : Host.Outcome State Fault Refusal :=
  answer (laneRun l (slotWord h (.cv .cvI d acc rm) x)) s

/-- LDA (R96). -/
def execLda (l : LaneSlot) (h : Half) (acc : Fin 4) (r : Fin 16) (x : SlotCtx) (s : State) : Host.Outcome State Fault Refusal :=
  answer (laneRun l (slotWord h (.lda acc r) x)) s

/-- CLRA (R147). -/
def execClra (l : LaneSlot) (h : Half) (acc : Fin 4) (x : SlotCtx) (s : State) : Host.Outcome State Fault Refusal :=
  answer (laneRun l (slotWord h (.clra acc) x)) s

/-- ADDA (R147). -/
def execAdda (l : LaneSlot) (h : Half) (acc : Fin 4) (src : Fin 4) (x : SlotCtx) (s : State) : Host.Outcome State Fault Refusal :=
  answer (laneRun l (slotWord h (.adda acc src) x)) s

/-- SUBA (R147). -/
def execSuba (l : LaneSlot) (h : Half) (acc : Fin 4) (src : Fin 4) (x : SlotCtx) (s : State) : Host.Outcome State Fault Refusal :=
  answer (laneRun l (slotWord h (.suba acc src) x)) s

/-- TSTA (R148). -/
def execTsta (l : LaneSlot) (h : Half) (acc : Fin 4) (x : SlotCtx) (s : State) : Host.Outcome State Fault Refusal :=
  answer (laneRun l (slotWord h (.tsta acc) x)) s

/-- LX (R150). -/
def execLx (l : LaneSlot) (p : Bool) (d : Fin 16) (x : MemCtx) (s : State) : Host.Outcome State Fault Refusal :=
  answer (laneRun l (memWord (.lx p d) x)) s

/-- LY (R150). -/
def execLy (l : LaneSlot) (p : Bool) (d : Fin 16) (x : MemCtx) (s : State) : Host.Outcome State Fault Refusal :=
  answer (laneRun l (memWord (.ly p d) x)) s

/-- LXY (R150). -/
def execLxy (l : LaneSlot) (px : Bool) (dx : Fin 16) (py : Bool) (dy : Fin 16) (x : MemCtx) (s : State) : Host.Outcome State Fault Refusal :=
  answer (laneRun l (memWord (.lxy px dx py dy) x)) s

/-- SX (R152). -/
def execSx (l : LaneSlot) (src : StoreSrc) (x : MemCtx) (s : State) : Host.Outcome State Fault Refusal :=
  answer (laneRun l (memWord (.sx src) x)) s

/-- SY (R152). -/
def execSy (l : LaneSlot) (src : StoreSrc) (x : MemCtx) (s : State) : Host.Outcome State Fault Refusal :=
  answer (laneRun l (memWord (.sy src) x)) s

/-- JMP (R154). -/
def execJmp (l : LaneSlot) (cc : Cond) (t : Fin 4096) (s : State) : Host.Outcome State Fault Refusal :=
  answer (laneRun l (.control (.jmp cc t))) s

/-- CALL (R156). -/
def execOpCall (l : LaneSlot) (cc : Cond) (t : Fin 4096) (s : State) : Host.Outcome State Fault Refusal :=
  answer (laneRun l (.control (.call cc t))) s

/-- RET (R156). -/
def execOpRet (l : LaneSlot) (cc : Cond) (s : State) : Host.Outcome State Fault Refusal :=
  answer (laneRun l (.control (.ret cc))) s

/-- REP_IMM (R119). -/
def execRepImm (l : LaneSlot) (n : Fin 65536) (k : Fin 256) (s : State) : Host.Outcome State Fault Refusal :=
  answer (laneRun l (.control (.repImm n k))) s

/-- REP_D (R119). -/
def execRepD (l : LaneSlot) (d : Fin 16) (k : Fin 256) (s : State) : Host.Outcome State Fault Refusal :=
  answer (laneRun l (.control (.repD d k))) s

/-- WAIT_TICK (R127). -/
def execWaitTick (l : LaneSlot) (s : State) : Host.Outcome State Fault Refusal :=
  answer (laneRun l (.control (.waitTick))) s

/-- LDI (R154). -/
def execLdi (l : LaneSlot) (d : Fin 16) (v : W40) (s : State) : Host.Outcome State Fault Refusal :=
  answer (laneRun l (.control (.ldi d v))) s

/-- MOVA_IMM (R154). -/
def execMovaImm (l : LaneSlot) (n : Fin 16) (v : W18) (s : State) : Host.Outcome State Fault Refusal :=
  answer (laneRun l (.control (.movaImm n v))) s

/-- MOVM_IMM (R154). -/
def execMovmImm (l : LaneSlot) (n : Fin 16) (v : W18) (s : State) : Host.Outcome State Fault Refusal :=
  answer (laneRun l (.control (.movmImm n v))) s

/-- MOVL_IMM (R154). -/
def execMovlImm (l : LaneSlot) (n : Fin 16) (v : W18) (s : State) : Host.Outcome State Fault Refusal :=
  answer (laneRun l (.control (.movlImm n v))) s

/-- MOVA_D (R157). -/
def execMovaD (l : LaneSlot) (n : Fin 16) (r : Fin 16) (s : State) : Host.Outcome State Fault Refusal :=
  answer (laneRun l (.control (.movaD n r))) s

/-- MOVM_D (R157). -/
def execMovmD (l : LaneSlot) (n : Fin 16) (r : Fin 16) (s : State) : Host.Outcome State Fault Refusal :=
  answer (laneRun l (.control (.movmD n r))) s

/-- MOVL_D (R157). -/
def execMovlD (l : LaneSlot) (n : Fin 16) (r : Fin 16) (s : State) : Host.Outcome State Fault Refusal :=
  answer (laneRun l (.control (.movlD n r))) s

/-- MOVD (R157). -/
def execMovd (l : LaneSlot) (d : Fin 16) (n : Fin 16) (s : State) : Host.Outcome State Fault Refusal :=
  answer (laneRun l (.control (.movd d n))) s

/-- GLD (R158). -/
def execGld (l : LaneSlot) (d : Fin 16) (n : Fin 16) (m : Fin 16) (en : Bool) (s : State) : Host.Outcome State Fault Refusal :=
  answer (laneRun l (.control (.gld d n m en))) s

/-- GST (R158). -/
def execGst (l : LaneSlot) (r : Fin 16) (n : Fin 16) (m : Fin 16) (en : Bool) (s : State) : Host.Outcome State Fault Refusal :=
  answer (laneRun l (.control (.gst r n m en))) s

/-- QRD (R159). -/
def execQrd (l : LaneSlot) (d : Fin 16) (p : Fin 16) (s : State) : Host.Outcome State Fault Refusal :=
  answer (laneRun l (.control (.qrd d p))) s

/-- QWR (R159). -/
def execQwr (l : LaneSlot) (p : Fin 16) (r : Fin 16) (s : State) : Host.Outcome State Fault Refusal :=
  answer (laneRun l (.control (.qwr p r))) s

/-- GLD_DATA_RETURN (R109). -/
def execGldDataReturn (l : LaneSlot) (s : State) : Host.Outcome State Fault Refusal :=
  answer (stallEnds l .gld) s

/-- GST_GRANT (R109). -/
def execGstGrant (l : LaneSlot) (s : State) : Host.Outcome State Fault Refusal :=
  answer (stallEnds l .gst) s

/-- QRD_ITEM_ARRIVAL (R110). -/
def execQrdItemArrival (l : LaneSlot) (s : State) : Host.Outcome State Fault Refusal :=
  answer (stallEnds l .qrd) s

end Sys2Proof.Machine
end

