-- ==== Sys2Proof/Machine/Loader.lean ====
section
/-! DEFINITION. Loading the image and playing its layers, factory defaults, the early mix and the restart of the tick
(18_strata_configuration.md, R541–R556, R561–R564; 19_power_reset_bringup.md, R571–R576, R588). -/

namespace Sys2Proof.Machine

/-! ### Factory defaults, R551 -/

/-- `STRATA_STAT.BOOT`: 0 HEADER, 1 DRAM, 2 STAGE, 3 PLAY, 4 SERVICE, 5 DEFAULT. -/
def boot (s : State) : Nat := F.STRATA_STAT_BOOT.get 0 s

/-- `PWR_STAT.PHASE`. -/
def phase (s : State) : Nat := F.PWR_STAT_PHASE.get 0 s

/-- The boot ROM applies the remap list, scans the journal slots and takes up the journal (R183, R191). -/
def romStart : Act := acts [remapList, jrnlScan, .look fun s =>
  match jrnlLatest s with
  | some (j, q) => .seq (R.SYS_JRNL_SEQ.set 0 q) (F.SYS_JRNL_STAT_NEXT.set 0 ((j + 1) % 64))
  | none => .done]

/-- Every block but ROPE and STRATA returns to its state after RESET_N, and the ROM applies the remap list and takes up the journal
as after it (R183, R191). The record of the reset source, LOCK and the time since t0 stay (DEDUCED, log 35). -/
def blocksReset : Act := .look fun s => acts [
  .upd (.nodeReset false),
  forEach (s.regs.filter fun p => (0x20020000 ≤ p.1 && p.1 < 0x20030000) || p.1 = 0x20000004) fun p => .upd (.reg p.1 p.2),
  .upd (.strata s.strata),
  .upd (.lock s.lock),
  .upd (.elapsed s.elapsed),
  dramRefresh, romStart]

/-- A factory pool queue: an item queue with its reserve, in place of what it had reserved before. -/
def defaultQueue (q resv : Nat) : Act := .look fun s =>
  let old := if qEn (queueAt s q) then qResv (queueAt s q) else 0
  .seq (setQueue q fun x => { x with cfg := BitVec.ofNat 64 (2 ^ 63 + resv) })
    (F.POOL_STAT_UNRES.set 0 (F.POOL_STAT_UNRES.get 0 s + old - resv))

/-- The ROM establishes the factory defaults. SRC reads 0, while with ROPEHOLD 1 the map in force stays (R227, log 96). -/
def defaultsSet : Act := acts [
  F.ROPE_CTRL_SRC.set 0 0, ropesRemoved,
  forEach (List.range 4) fun p => acts [F.ETH_PCFG_MODE.set p 1, F.ETH_PCFG_EN.set p 1, F.ETH_PQ_RXQ.set p 0],
  R.ETH_VLAN.set 0 (R.ETH_VLAN.rst 0),
  defaultQueue 0 1024, defaultQueue 1 256,
  F.ETH_P4RX_QUEUE.set 0 0, F.ETH_P4TX_QUEUE.set 0 1,
  F.PTP_CFG_EN.set 0 1, F.PTP_CFG_PROFILE.set 0 0, F.PTP_CFG_UDP.set 0 0, F.PTP_CFG_SLAVE_ONLY.set 0 1,
  forEach (List.range 4) fun p => F.PTP_PCFG_EN.set p 1,
  portsJudge,
  .look fun s => acts [F.PAIR_CFG_EN.set 0 0, F.PAIR_CFG_EN.setLive 0 0, pairCfgApplied (R.PAIR_CFG.liveVal 0 s)]]

/-- The loader enters DEFAULT with a CAUSE (R546, R551). The early mix ends as in step 1 of R575 (R576). -/
def loadDefault (cause : Nat) : Act := .look fun s => acts [
  onlyIf s.strata.played blocksReset,
  F.STRATA_STAT_BOOT.set 0 5, F.STRATA_STAT_CAUSE.set 0 cause, F.STRATA_STAT_DEFAULT.set 0 1,
  R.STRATA_ICW.set 0 0, R.STRATA_OVL.set 0 0,
  setStrata fun x => { x with
    base := none, arm := none, rel := none, warmReq := false, warmArm := none, warmGo := false
    cmds := [], routes := [], sect := [], sectAt := none, rDone := false },
  defaultsSet,
  raise .STRATA_DEFAULT,
  F.PWR_STAT_PHASE.set 0 7,
  .look fun s => onlyIf s.pwr.mixOn (setPwr fun p => { p with fade := some 0 })]

/-! ### The header, R541, R542, R545 -/

/-- HLEN, the header block length. -/
def hdrLen (h : List Byte) : Nat := 320 + 8 * (fieldLe h 36 2 + fieldLe h 38 2)

/-- Offset and length of the layers an image names: the base and the overlays up to OVCNT. -/
def hdrLayers (h : List Byte) : List (Nat × Nat) :=
  (fieldLe h 16 4, fieldLe h 20 4) :: (List.range (fieldLe h 6 1)).map fun i =>
    (fieldLe h (80 + 16 * i) 4, fieldLe h (84 + 16 * i) 4)

/-- The layers keep R542 in an image of `len` bytes. -/
def layersPlaced (h : List Byte) (len : Nat) : Bool :=
  let ls := hdrLayers h
  (ls.all fun l => l.1 % 16 = 0 && hdrLen h ≤ l.1 && l.2 % 8 = 0 && l.1 + l.2 ≤ len) &&
    ls.zipIdx.all fun p => ls.zipIdx.all fun q =>
      p.2 == q.2 || p.1.2 = 0 || q.1.2 = 0 || p.1.1 + p.1.2 ≤ q.1.1 || q.1.1 + q.1.2 ≤ p.1.1

/-- The CAUSE with which a header block fails its checks, 0 when it passes (R545, R546). -/
def hdrCause (h : List Byte) : Nat :=
  let len := fieldLe h 8 4
  if fieldLe h 0 4 ≠ 0x41525453 || fieldLe h 4 2 ≠ 1 then 1
  else if len % 16 ≠ 0 || len < hdrLen h || 16777216 < len || !layersPlaced h len then 5
  else if crc32c (h.take 12 ++ bytesLe 4 0 ++ (h.drop 16).take (hdrLen h - 16)) ≠ fieldLe h 12 4 then 2
  else 0

/-- The DRAM preamble (R545): each entry a register write of the loader. -/
def preamble (h : List Byte) : Act := forEach (List.range (fieldLe h 36 2)) fun i =>
  busAccess (.master 0) (fieldLe h (320 + 8 * i) 4) (.write .b4 (BitVec.ofNat 64 (fieldLe h (324 + 8 * i) 4)))

/-- The warm load that the valid journal asks for (R588): none, or the layer to restore, if it names one. -/
def warmAsked (s : State) (icw : Nat) : Option (Option (Bool × Nat)) :=
  match jrnlLatest s with
  | none => none
  | some (j, _) =>
    let p := jrnlSlot j + 32
    let lay := memLe s.mem (p + 5) 2
    if memLe s.mem p 4 = icw && memLe s.mem (p + 4) 1 % 2 = 1 then
      some (if lay % 2048 = 0 && !bitOf lay 15 then none else some (bitOf lay 15, lay % 2048))
    else none

/-! ### The start of the early mix, R572–R574 -/

/-- The crosspoints: from the header entries, or from the straps (R572, R573). -/
def mixTerms (s : State) : List MixTerm :=
  let n := hdrField s 38 2
  let at0 := 320 + 8 * hdrField s 36 2
  if 0 < n then
    ((List.range n).map fun i =>
      let o := at0 + 8 * i
      (⟨hdrField s o 2, hdrField s (o + 2) 2, min 48 (max (-240) (toInt 16 (hdrField s (o + 4) 2)))⟩ : MixTerm)).filter
        fun t => 0x400 ≤ t.src && t.src ≤ 0x5FF && 0x400 ≤ t.dst && t.dst ≤ 0x5FF
  else match s.pins.emixSel with
    | 1 => (List.range 256).map fun c => ⟨0x400 + c, 0x400 + c, 0⟩
    | 2 => (List.range 256).map fun c => ⟨0x400 + c, 0x400 + c / 2, -12⟩
    | 3 => (List.range 256).map fun c => ⟨0x400 + c, 0x400 + c, -40⟩
    | _ => []

/-- Channels of a port in the early mix: 8, or 2 under I²S (R574). -/
def mixChans (s : State) : Nat := if s.pins.emixFmt then 2 else 8

/-- Port `n` carries a channel of the mix. -/
def mixPort (s : State) (ts : List MixTerm) (n : Nat) : Bool :=
  let mine (e : Nat) : Bool := 0x400 + 8 * n ≤ e && e < 0x400 + 8 * n + mixChans s
  ts.any fun t => mine t.src || mine t.dst

/-- Give both copies of a port register a value. -/
def setBoth (r : Reg) (n v : Nat) : Act := .seq (r.set n v) (r.setLive n v)

/-- Configure port `n`: its clocking, both directions, both slot masks, and whether the directions are enabled. -/
def mixSap (n clk dir slots : Nat) : Act := .look fun s =>
  let oldC := R.SAP_CLK.liveVal n s
  let oldR := sapCfg s n 0
  let oldT := sapCfg s n 1
  acts [
    setBoth R.SAP_CLK n clk, sapClkApplied n oldC,
    setBoth R.SAP_RXSLOT n slots, setBoth R.SAP_TXSLOT n slots,
    setBoth R.SAP_RXCFG n dir, sapCfgApplied n 0 oldR,
    setBoth R.SAP_TXCFG n dir, sapCfgApplied n 1 oldT]

/-- A ramp target word of the galleries G0 to G3. -/
def rampTgtC0 (a : Nat) : Bool := a < 0x4000000 && decide (0xF18000 ≤ a % 0x1000000) && decide (a % 0x1000000 < 0xF20000)

/-- The ROM fills the memories of chamber C0 and the ramps of G0 to G3 (R173). With what, the spec does not say: zeros
(DESIGN CHOICE, log 34). -/
def romFill : Act := .look fun s => acts [
  forEach (s.mem.filter fun c => c.1 < 0x4000000) fun c => .upd (.mem c.1 0),
  forEach (s.regs.filter fun p => rampTgtC0 p.1) fun p => .upd (.reg p.1 0),
  forEach (s.live.filter fun p => rampTgtC0 p.1) fun p => .upd (.live p.1 0),
  setRoute fun r => { r with ramps := r.ramps.filter fun x => 4 * 4096 ≤ x.1 },
  eccFresh fun k => (eccInst k / 4096 ≤ 2 || eccInst k / 4096 = 4 || eccInst k / 4096 = 5) && eccInst k / 256 % 16 < 4]

/-- The boot ROM starts the early mix once the header has passed. Without terms there is none, and the ports stay off. -/
def mixStart : Act := .look fun s =>
  let ts := mixTerms s
  if asleep s || !(boot s = 1 || boot s = 2) || s.strata.hdr = [] || phase s ≠ 0 || !s.clk.up || running s || s.pwr.mixOn then .done
  else .seq (onlyIf (hdrField s 38 2 = 0) (F.PWR_BOOT_EMIXSRC.set 0 1))
    (if ts = [] && hdrField s 38 2 = 0 then .done
     else acts [
      romFill,
      setPwr fun p => { p with mix := ts.filter fun t => decide (-240 < t.gain), mixOn := true, fade := none },
      forEach ((List.range 32).filter (mixPort s ts)) fun n =>
        mixSap n (if s.pins.emixFmt then 0x12080000 else 0x52380000) (2 ^ 31 + n * 2 ^ 20 + 8 * n) (2 ^ mixChans s - 1),
      F.TICK_CTRL_RUN.set 0 1, tickBegin,
      F.PWR_STAT_PHASE.set 0 1])

/-! ### Staging, R545, R546, R549, R550 -/

/-- The base is ready to play: the early mix fades first, if it runs (R575). It has been started by then (R571). -/
def toPlay : Act := .seq mixStart <| .look fun s => acts [
  F.STRATA_STAT_BOOT.set 0 3,
  setStrata fun x => { x with base := some (stageAddr s + hdrField s 16 4, stageAddr s + hdrField s 16 4 + hdrField s 20 4) },
  if s.pwr.mixOn then .seq (F.PWR_STAT_PHASE.set 0 2) (setPwr fun p => { p with fade := some 0 })
  else F.PWR_STAT_PHASE.set 0 3]

/-- The staged copy serves a warm load (R550). `k` goes on with whether it does. -/
def warmCheck (k : Bool → Act) : Act := .look fun s =>
  let a := stageAddr s
  let len := hdrField s 8 4
  eccRead a len 0 (some .ECC_UE_MASTER) fun ok => .look fun s =>
    let bytes (ofs n : Nat) : List Byte := memBytes s.mem (a + ofs) n
    k (ok && decide (bytes 0 s.strata.hdr.length = s.strata.hdr) &&
      crc32c (bytes (hdrField s 16 4) (hdrField s 20 4)) = hdrField s 24 4 &&
      (List.range (hdrField s 6 1)).all fun i =>
        let (o, n, c) := ovlDir s (i + 1)
        crc32c (bytes o n) = c)

/-- LPDDR5X has become ready in the DRAM state. -/
def dramReady : Act := .look fun s =>
  if dramEnd s < stageAddr s + hdrField s 8 4 || stageAddr s < 0x80000000 then loadDefault 3
  else if s.strata.warmReq then warmCheck fun ok =>
    if ok then .seq (F.STRATA_STAT_WARM.set 0 1) toPlay
    else .seq (setStrata fun x => { x with warmArm := none }) (F.STRATA_STAT_BOOT.set 0 2)
  else F.STRATA_STAT_BOOT.set 0 2

/-- The loader reads and checks the header block `hdr` and applies the preamble, once PLL_A is locked (R571). LPDDR5X that is ready already
needs no wait (R546). -/
def loaderStart (hdr : List Byte) : Act := .look fun s =>
  if !s.pwr.vdd || s.pwr.listen || !s.clk.up || boot s ≠ 0 || s.strata.hdr ≠ [] || hdr = [] then .done
  else .seq romStart (.look fun s =>
    let h := hdr.take (hdrLen hdr)
    let cause := hdrCause h
    if cause ≠ 0 then .seq (setStrata fun x => { x with hdr := h }) (loadDefault cause)
    else
      let icw := fieldLe h 12 4
      let ask := warmAsked s icw
      acts [
        setStrata fun x => { x with hdr := h, warmReq := ask.isSome, warmArm := ask.getD none },
        R.STRATA_ICW.set 0 icw,
        F.STRATA_OVL_PRESENT.set 0 (2 ^ fieldLe h 6 1 - 1),
        F.STRATA_STAT_BOOT.set 0 1, setStrata fun x => { x with dramAt := s.elapsed },
        preamble h,
        .look fun s => onlyIf (boot s = 1 && F.DRAM_STAT_READY.on 0 s) dramReady])

/-- Initialization and training end (R636). -/
def dramDone (ok : Bool) : Act := .look fun s =>
  if !F.DRAM_STAT_BUSY.on 0 s then .done
  else .seq (R.DRAM_STAT.set 0 (if ok then 1 else 4))
    (onlyIf (decide (boot s = 1) && s.strata.hdr ≠ []) (if ok then dramReady else loadDefault 3))

/-- The copy is complete: the image stands in LPDDR5X, and its check words are judged. -/
def stageDone (img : List Byte) : Act := .look fun s =>
  let len := hdrField s 8 4
  let a := stageAddr s
  if boot s ≠ 2 || img.length < len then .done
  else acts [
    memSetBytes a (img.take len), eccFull a len,
    let slice (ofs n : Nat) : List Byte := (img.drop ofs).take n
    if crc32c (slice (hdrField s 16 4) (hdrField s 20 4)) ≠ hdrField s 24 4 then loadDefault 4
    else .seq
      (forEach (List.range (hdrField s 6 1)) fun i =>
        let (o, n, c) := ovlDir s (i + 1)
        onlyIf (decide (crc32c (slice o n) ≠ c) || !layerGood s (slice o n)) (ovlBad (i + 1)))
      toPlay]

/-! ### Playing records, R543, R544, R547, R554, R562 -/

/-- The layers in play. -/
inductive Play where
  | base | arm | rel
  deriving DecidableEq, Repr

/-- The loader may play the base: the tick stands, the early mix is over, no relock is awaited (R547, R575). -/
def baseFree (s : State) : Bool :=
  boot s = 3 && phase s = 3 && !running s && !s.tick.starting && !s.clk.relockA && !s.clk.relockB

/-- The layer whose next record is played, with its place. A switch section comes before a reload (R559). -/
def inPlay (s : State) : Option (Play × Nat × Nat) :=
  match s.strata.base, s.strata.arm, s.strata.rel with
  | some (a, e), _, _ => if baseFree s then some (.base, a, e) else none
  | none, some (a, e), _ => if a < e && swSt s = 1 then some (.arm, a, e) else
      match s.strata.rel with
      | some (b, f) => if b < f && F.STRATA_GSTAT_BUSY.on 0 s && swSt s ≠ 3 then some (.rel, b, f) else none
      | none => none
  | none, none, some (a, e) => if a < e && F.STRATA_GSTAT_BUSY.on 0 s && swSt s ≠ 3 then some (.rel, a, e) else none
  | none, none, none => none

/-- The place of the next record. -/
def advance (p : Play) (a e : Nat) : Act := setStrata fun x => match p with
  | .base => { x with base := some (a, e), played := true }
  | .arm => { x with arm := some (a, e) }
  | .rel => { x with rel := some (a, e) }

/-- A read of the layer is uncorrectable, or a record is malformed (R546, R554, R564). -/
def playFails (p : Play) (ue : Bool) : Act := .look fun s => match p with
  | .base => loadDefault (if ue then 6 else 5)
  | .arm => .seq (onlyIf (ue && !s.strata.armSrc) (ovlBad s.strata.armIdx))
      (setStrata fun x => { x with arm := none, armErr := if ue then 7 else 4 })
  | .rel => setStrata fun x => { x with rel := none, rErr := if ue then 6 else 4 }

/-- Accesses that a memory or register record makes: address, size and value (R543). -/
def recAccesses (bs : List Byte) : List (Nat × Size × Nat) :=
  let a := recAddr bs
  let n := recCnt bs
  match recTy bs with
  | 1 => (List.range (fieldLe bs 8 4)).map fun i => (a + 8 * i, .b8, fieldLe bs 16 8)
  | 2 => (List.range n).map fun i => (a + 4 * i, .b4, fieldLe bs (8 + 4 * i) 4)
  | 3 => (List.range n).map fun i => (a + 8 * i, .b8, fieldLe bs (8 + 5 * i) 5)
  | 4 => (List.range n).flatMap fun i =>
      [(a + 8 * i, .b4, fieldLe bs (8 + 8 * i) 4), (a + 8 * i + 4, .b4, fieldLe bs (12 + 8 * i) 4)]
  | _ => []

/-- The loader makes an access. -/
def loaderWrite (x : Nat × Size × Nat) : Act :=
  busAccess (.master 0) x.1 (.write x.2.1 (BitVec.ofNat 64 x.2.2))

/-- An access of the record meets a released lane, so the record waits (R59). -/
def recWaits (xs : List (Nat × Size × Nat)) (s : State) : Bool := xs.any fun x => laneBars (.master 0) x.1 (.write x.2.1 0) s

/-- The operating point of a MODE record, in the layout of `STRATA_MODE`. -/
def recMode (bs : List Byte) : Nat :=
  fieldLe bs 8 1 + fieldLe bs 9 1 * 128 + fieldLe bs 12 1 * 256 + fieldLe bs 10 2 * 65536

/-- A base MODE is stored and applied; after LOCK it changes nothing (R547). -/
def modeApply (v : Nat) : Act := acts [
  .look fun s => onlyIf (!s.lock) (R.STRATA_MODE.set 0 v),
  busAccess (.master 0) (R.TICK_CFG.addr 0) (.write .b4 (BitVec.ofNat 64 (v % 128))),
  busAccess (.master 0) (R.CLK_PLLA.addr 0) (.write .b4 (BitVec.ofNat 64 (v / 128 % 2)))]

/-- The base is in service (R546, R575). -/
def baseEnds : Act := .look fun s => acts [
  setStrata fun x => { x with base := none, endAt := s.elapsed, played := true },
  F.STRATA_STAT_BOOT.set 0 4,
  F.PWR_STAT_PHASE.set 0 4]

/-- LOCK is played (R547). -/
def lockApply : Act := .seq (.upd (.lock true)) (F.STRATA_STAT_LOCKED.set 0 1)

/-- The address lies in the window of gallery `g`. -/
def inGallery (g a : Nat) : Bool := galBase g ≤ a && a < galBase g + 0x1000000

/-- What a well-formed record does in its layer. -/
def recPlay (p : Play) (bs : List Byte) (a e : Nat) : Act := .look fun s =>
  let ty := recTy bs
  let next := a + recSize bs
  let go (act : Act) : Act := .seq (advance p next e) act
  let xs := recAccesses bs
  match p, ty with
  | .base, 0 => baseEnds
  | .base, 5 => go (forEach (List.range (recCnt bs)) fun i =>
      let (k, x, v) := recRoute bs i
      putRouteKind k x v)
  | .base, 6 => go (modeApply (recMode bs))
  | .base, 7 => go lockApply
  | .base, _ => go (forEach xs loaderWrite)
  | .arm, 0 => advance p e e
  | .arm, 5 =>
    let rs := (List.range (recCnt bs)).map (recRoute bs)
    if 4096 < s.strata.routes.length + rs.length then setStrata fun x => { x with arm := none, armErr := 6 }
    else go (setStrata fun x => { x with routes := x.routes ++ rs })
  | .arm, 6 =>
    let v := recMode bs
    if v % 256 ≠ R.STRATA_MODE.val 0 s % 256 then setStrata fun x => { x with arm := none, armErr := 5 }
    else go (setStrata fun x => { x with xf := max 1 (v / 65536), shape := bitOf v 8 })
  | .arm, 7 => go lockApply
  | .arm, _ =>
    if ty = 2 && regWindow (recAddr bs) then
      go (setStrata fun x => { x with sect := x.sect ++ [xs.map fun y => (y.1, BitVec.ofNat 32 y.2.2)] })
    else if recWaits xs s then .done
    else go (forEach xs loaderWrite)
  | .rel, 0 => advance p e e
  | .rel, _ =>
    if 4 < ty then playFails .rel false
    else if !(xs.all fun x => inGallery s.strata.rGal x.1) then setStrata fun x => { x with rel := none, rErr := 5 }
    else if recWaits xs s then .done
    else go (forEach xs loaderWrite)

/-- The next record is played, if it has the type `ty`. An unlisted type is met by every record command. -/
def playRecord (ty : Nat) : Act := .look fun s =>
  match inPlay s with
  | none => .done
  | some (p, a, e) =>
    let n := min (e - a) (recSize (memBytes s.mem a 8))
    let t := recTy (memBytes s.mem a 8)
    if e ≤ a then playFails p false
    else if t ≠ ty && t ≤ 7 then .done
    else eccRead a n 0 (some .ECC_UE_MASTER) fun ok => .look fun s =>
      let bs := memBytes s.mem a n
      if !ok then playFails p true
      else if !recOk s bs || (t = 0 && a + 8 ≠ e) then playFails p false
      else recPlay p bs a e

/-! ### Arming, the switch section, the reload -/

/-- Arming ends (R554). After a warm load the ROM writes GO (R588). -/
def armingDone : Act := .look fun s =>
  let x := s.strata
  let atEnd := match x.arm with | some (a, e) => decide (e ≤ a) | none => false
  if swSt s ≠ 1 then .done
  else if x.armErr ≠ 0 then acts [
    F.STRATA_SWSTAT_STATE.set 0 0, F.STRATA_SWSTAT_RESULT.set 0 x.armErr,
    setStrata fun x => { x with arm := none, armErr := 0, warmGo := false }]
  else if atEnd then acts [
    F.STRATA_SWSTAT_STATE.set 0 2, F.STRATA_SWSTAT_RESULT.set 0 1,
    onlyIf x.warmGo (.seq (setStrata fun x => { x with warmGo := false }) (wrStrataCmd 0 2 (fullMask 1)))]
  else .done

/-- A word of the section is written, and the shadow it reaches is held (R556). A STRATA command in it waits for the switch edge. -/
def sectWrite (w : Nat × Word) : Act := .look fun s0 =>
  .seq (loaderWrite (w.1, .b4, w.2.toNat)) (.look fun s =>
    match placeOf w.1 with
    | none => .done
    | some p =>
      let a := p.e.reg.addr p.i
      .seq (.upd (.shPend (s.shPend.map fun x => if x.addr = a && x.master = 0 then { x with held := true } else x)))
        (setStrata fun x => { x with
          cmds := x.cmds.map fun c => if nextSeq s0 ≤ c.seq then { c with edge := none } else c }))

/-- The section has begun and still has words to write. -/
def sectionOn (s : State) : Bool := swSt s = 3 && s.strata.sectAt.isNone && !s.strata.sect.isEmpty

/-- The next record of the section is played, unless it meets a released lane (R59, R556). -/
def sectionRecord : Act := .look fun s => match s.strata.sect with
  | r :: rest =>
    if recWaits (r.map fun w => (w.1, .b4, 0)) s then .done
    else .seq (setStrata fun x => { x with sect := rest }) (forEach r sectWrite)
  | [] => .done

/-- The last word of the section reaches its shadow; the first edge whose edge cycle is still to come is the switch edge. Records not yet
played are played first. -/
def sectionDone : Act := .look fun s =>
  if swSt s ≠ 3 || s.strata.sectAt.isSome then .done
  else .seq (forEach s.strata.sect fun _ => sectionRecord) (.look fun s =>
    onlyIf s.strata.sect.isEmpty (setStrata fun x => { x with sectAt := some (cmdEdge s) }))

/-- The reload layer has been played, or its play has failed (R563, R564). -/
def reloadDone : Act := .look fun s =>
  let x := s.strata
  let atEnd := match x.rel with | some (a, e) => decide (e ≤ a) | none => false
  if !F.STRATA_GSTAT_BUSY.on 0 s then .done
  else if x.rErr ≠ 0 then acts [
    F.STRATA_GSTAT_BUSY.set 0 0, F.STRATA_GSTAT_RESULT.set 0 x.rErr, setStrata fun x => { x with rel := none }]
  else if atEnd then .seq (F.STRATA_GSTAT_BUSY.set 0 0) (setStrata fun x => { x with rel := none, rDone := true })
  else .done

/-! ### The end of the early mix, R575 -/

/-- The ports of the mix return to their reset values. -/
def mixPortsOff : Act := forEach (List.range 32) fun n => .look fun s =>
  onlyIf (F.SAP_RXCFG_EN.on n s || F.SAP_TXCFG_EN.on n s)
    (mixSap n (R.SAP_CLK.rst n) (R.SAP_RXCFG.rst n) (R.SAP_RXSLOT.rst n))

/-- The fade of 480 samples is complete: the mix ends, and on the way to the base layer the ROM clears RUN (R575, R576). -/
def mixEnd : Act := .look fun s =>
  let gone := match s.pwr.fade with | some t => decide (480 ≤ t * spt s) | none => false
  if !s.pwr.mixOn || !gone then .done
  else acts [
    setPwr fun p => { p with mixOn := false, fade := none, mix := [] },
    mixPortsOff,
    onlyIf (phase s = 2) (.seq (F.TICK_CTRL_RUN.set 0 0) (F.PWR_STAT_PHASE.set 0 3))]

/-- Step 4 of R575: one of its conditions holds, or PTPWAIT ms have passed. -/
def tickRestart (expired : Bool) : Act := .look fun s =>
  let synced := (List.range 4).any fun p => (ptpAt s p).synced
  let wait := F.PWR_BOOT_PTPWAIT.get 0 s
  if phase s = 4 && boot s = 4 && ((expired && passed s.strata.endAt (msCycles wait s) s) || synced || F.PTP_STAT_GM.on 0 s ||
      !F.PTP_CFG_EN.on 0 s || wait = 0) then acts [
    F.TICK_CTRL_RUN.set 0 1, tickBegin, F.PWR_STAT_PHASE.set 0 5]
  else .done

/-! ### Commands -/

/-- LOADER_START (R545). -/
def execLoaderStart (hdr : List Byte) (s : State) : Host.Outcome State Fault Refusal := answer (loaderStart hdr) s

/-- LOADER_DRAM_TIMEOUT (R546), 50 ms after DRAM was entered. -/
def execLoaderDramTimeout (s : State) : Host.Outcome State Fault Refusal :=
  answer (.look fun s => onlyIf (boot s = 1 && !F.DRAM_STAT_READY.on 0 s && !asleep s && passed s.strata.dramAt (msCycles 50 s) s) (loadDefault 3)) s

/-- STAGE_COMPLETE (R545). -/
def execStageComplete (img : List Byte) (s : State) : Host.Outcome State Fault Refusal := answer (stageDone img) s

/-- RECORD_END (R543). -/
def execRecordEnd (s : State) : Host.Outcome State Fault Refusal := answer (playRecord 0) s

/-- RECORD_FILL (R543). -/
def execRecordFill (s : State) : Host.Outcome State Fault Refusal := answer (playRecord 1) s

/-- RECORD_WRITE (R543); in PLAYING, of the switch section (R556). -/
def execRecordWrite (s : State) : Host.Outcome State Fault Refusal := answer (.look fun s => if sectionOn s then sectionRecord else playRecord 2) s

/-- RECORD_WRITE40 (R543). -/
def execRecordWrite40 (s : State) : Host.Outcome State Fault Refusal := answer (playRecord 3) s

/-- RECORD_PROG (R543). -/
def execRecordProg (s : State) : Host.Outcome State Fault Refusal := answer (playRecord 4) s

/-- RECORD_ROUTE (R547). -/
def execRecordRoute (s : State) : Host.Outcome State Fault Refusal := answer (playRecord 5) s

/-- RECORD_MODE (R547). -/
def execRecordMode (s : State) : Host.Outcome State Fault Refusal := answer (playRecord 6) s

/-- RECORD_LOCK (R547). -/
def execRecordLock (s : State) : Host.Outcome State Fault Refusal := answer (playRecord 7) s

/-- ARMING_COMPLETE (R554). -/
def execArmingComplete (s : State) : Host.Outcome State Fault Refusal := answer armingDone s

/-- SWITCH_PLAY_COMPLETE (R556). -/
def execSwitchPlayComplete (s : State) : Host.Outcome State Fault Refusal := answer sectionDone s

/-- RELOAD_PLAY_COMPLETE (R564). -/
def execReloadPlayComplete (s : State) : Host.Outcome State Fault Refusal := answer reloadDone s

/-- EARLY_MIX_START (R572). -/
def execEarlyMixStart (s : State) : Host.Outcome State Fault Refusal := answer mixStart s

/-- EARLY_MIX_FADE_END (R575). -/
def execEarlyMixFadeEnd (s : State) : Host.Outcome State Fault Refusal := answer mixEnd s

/-- BOOT_TICK_RESTART (R575). -/
def execBootTickRestart (expired : Bool) (s : State) : Host.Outcome State Fault Refusal := answer (tickRestart expired) s

/-- DRAM_INIT_DONE (R636). -/
def execDramInitDone (ok : Bool) (s : State) : Host.Outcome State Fault Refusal := answer (dramDone ok) s

end Sys2Proof.Machine
end

