-- ==== Sys2Proof/Machine/Mgmt.lean ====
section
/-! DEFINITION. The management agent, master M2 (R394–R399), and the receive side of the ports, in LISTEN and outside it
(R380, R402, R403). -/

namespace Sys2Proof.Machine

/-! ### Requests, R395, R396 -/

/-- Payload of a frame of which the first bytes are known. -/
def frBody (f : Frame) : List Byte := f.drop (frHead f)

/-- OP of the request at the head of the agent's queue. -/
def mgmtHead (s : State) : Option Nat :=
  let x := queueAt s (F.ETH_MGMT_Q_QUEUE.get 0 s)
  if isItemQ x && x.head ≠ 0 && !x.broken then
    some (fieldBe (frBody (memBytes s.mem (cellAddr x.head + 16) 240)) 1 1)
  else none

/-- The request that the bytes of an item hold, and whether it is well-formed. -/
def mgmtParse (cells : List Nat) (bs : List Byte) : MgmtReq × Bool :=
  let f := (bs.drop 16).take (fieldLe bs 0 2)
  let p := frPayload f
  let op := fieldBe p 1 1
  let count := fieldBe p 8 2
  let addr := fieldBe p 4 4
  let wr := op = 2
  let ok := fieldBe p 0 1 = 1 && (op = 1 || op = 2) && fieldBe p 10 2 = 0 && addr % 4 = 0 && 1 ≤ count && count ≤ 256
    && (!wr || 12 + 4 * count ≤ p.length)
  let words := if wr && ok then (List.range count).map fun i => BitVec.ofNat 32 (fieldBe p (12 + 4 * i) 4) else []
  ({ cells := cells, write := wr, seq := fieldBe p 2 2, addr := addr, count := count, done := 0, data := words
     buserr := false, src := (f.drop 6).take 6, tagged := frTagged f
     vid := fieldLe bs 4 2 % 4096, pcp := fieldLe bs 4 2 / 8192, since := 0 }, ok)

/-! ### Responses, R397, R399 -/

/-- Answer a request with a status and free its item. `op` is that of the request. -/
def mgmtAnswer (r : MgmtReq) (op status : Nat) : Act := .look fun s =>
  let data : List Byte := if status ≠ 2 && !r.write then
      (List.range r.count).flatMap fun i => bytesBe 4 (r.data.getD i 0).toNat
    else []
  let msg := bytesBe 1 1 ++ bytesBe 1 ((op + 0x80) % 256) ++ bytesBe 2 r.seq ++ bytesBe 4 r.addr ++ bytesBe 2 r.count ++
    bytesBe 1 status ++ bytesBe 1 0 ++ data
  let tag := if r.tagged then some (r.pcp * 8192 + r.vid) else none
  let f := mkFrame (fieldBe r.src 0 6) (F.ETH_MAC_ADDR.get 0 s) tag (F.ETH_MGMT_ETYPE.get 0 s) msg
  acts [
    setEth fun e => { e with mgmt := none, lastResp := f },
    p4Send f 2 r.vid r.pcp false,
    F.ETH_MGMT_CNT_DONE.set 0 ((F.ETH_MGMT_CNT_DONE.get 0 s + 1) % 65536),
    freeCells_ swId r.cells]

/-! ### Accesses -/

/-- Issue the next access of the request in progress. -/
def mgmtIssue : Act := .look fun s =>
  match s.eth.mgmt with
  | none => .done
  | some r =>
    let a := (r.addr + 4 * r.done) % 2 ^ 32
    .seq (setBus fun b => { b with resp := smErase b.resp 2 })
      (busAccess (.master 2) a (if r.write then .write .b4 ((r.data.getD r.done 0).setWidth 64) else .read .b4))

/-- The agent takes the next request, of operation `op`; one that is neither a READ nor a WRITE is taken with either. -/
def mgmtTake (op : Nat) : Act := .look fun s =>
  match mgmtHead s with
  | none => .done
  | some h =>
    if asleep s || s.eth.mgmt.isSome || !F.ETH_MGMT_EN.on 0 s || ((h = 1 || h = 2) && h ≠ op) then .done
    else popItem swId (F.ETH_MGMT_Q_QUEUE.get 0 s) 65536 fun cells =>
      if cells = [] then .done
      else cellsTake 2 cells fun bs =>
        let (r0, ok) := mgmtParse cells bs
        let r : MgmtReq := { r0 with tagged := (smFind s.eth.tagged (cells.headD 0)).getD r0.tagged, since := s.elapsed }
        .seq (setEth fun e => { e with tagged := smErase e.tagged (cells.headD 0) }) <| if ok then .seq (setEth fun e => { e with mgmt := some r }) mgmtIssue
        else .seq (F.ETH_MGMT_CNT_BAD.inc 0) (mgmtAnswer r h 2)

/-- An access completes: its answer is taken, and the next one starts or the request is answered. -/
def mgmtStep : Act := .look fun s =>
  match s.eth.mgmt with
  | none => .done
  | some r =>
    if asleep s || accessPends 2 s then .done
    else
      let (v, err) : Nat × Bool := match smFind s.bus.resp 2 with
        | some x => ((x.data.headD 0).toNat, x.err)
        | none => (0, false)
      let r' : MgmtReq := { r with
        done := r.done + 1, buserr := r.buserr || err
        data := if r.write then r.data else r.data ++ [BitVec.ofNat 32 (if err then 0 else v)] }
      if r'.done < r.count then .seq (setEth fun e => { e with mgmt := some r' }) mgmtIssue
      else mgmtAnswer r' (if r.write then 2 else 1) (if r'.buserr then 1 else 0)

/-- TMO ms have passed since the first access (R399). -/
def mgmtAbort : Act := .look fun s =>
  match s.eth.mgmt with
  | none => .done
  | some r => onlyIf (!asleep s && passed r.since (msCycles (max 1 (F.ETH_MGMT_Q_TMO.get 0 s)) s) s) (acts [
      masterReset 2,
      F.ETH_MGMT_CNT_BAD.inc 0,
      mgmtAnswer r (if r.write then 2 else 1) 3])

/-! ### Reception -/

/-- A match in LISTEN wakes the node with the number of its pattern (R401, R590). -/
def patternWake : Act := .look fun s => listenExit (F.ETH_WAKE_STAT_LAST.get 0 s + 1)

/-- A frame arrives on a port. -/
def ethArrives (p : Nat) (f : Frame) (ts : Nat) : Act := .look fun s =>
  if !s.pwr.vdd then .done
  else if s.pwr.listen then rxListen p f patternWake
  else onlyIf (F.ETH_PCFG_EN.on p s && linkUp s p) (rxFrame p f (ingressT64 s p ts))

/-- A frame arrives on the T1S port: in LISTEN it only meets the wake patterns (R402). -/
def t1sArrives (f : Frame) (ts : Nat) : Act := .look fun s =>
  if !s.pwr.vdd then .done
  else if s.pwr.listen then
    onlyIf (64 ≤ f.length && f.length ≤ 1522 && fcsOk f) (wakeCheck 1 f fun hit => onlyIf hit patternWake)
  else t1sRx f ts

/-! ### Commands -/

/-- ETH_RX_FRAME (R380). -/
def execEthRxFrame (p : Port) (f : Frame) (ts : W64) (s : State) : Host.Outcome State Fault Refusal :=
  answer (ethArrives p f ts.toNat) s

/-- T1S_RX_FRAME (R403). -/
def execT1sRxFrame (f : Frame) (ts : W64) (s : State) : Host.Outcome State Fault Refusal := answer (t1sArrives f ts.toNat) s

/-- MGMT_READ (R396). -/
def execMgmtRead (s : State) : Host.Outcome State Fault Refusal := answer (mgmtTake 1) s

/-- MGMT_WRITE (R396). -/
def execMgmtWrite (s : State) : Host.Outcome State Fault Refusal := answer (mgmtTake 2) s

/-- MGMT_ACCESS_COMPLETE (R396). -/
def execMgmtAccessComplete (s : State) : Host.Outcome State Fault Refusal := answer mgmtStep s

/-- MGMT_TIMEOUT (R399). -/
def execMgmtTimeout (s : State) : Host.Outcome State Fault Refusal := answer mgmtAbort s

end Sys2Proof.Machine
end

