-- ==== Sys2Proof/Machine/Shadow.lean ====
section
/-! DEFINITION. The application of shadowed writes, in E2 of an edge or, while the tick stands, within 1 µs (R27, R28), with what
each block's rules tie to it. -/

namespace Sys2Proof.Machine

/-- What the application of a register brings about: its element `i` had the applied value `old`; `n` is the tick that the edge
begins. -/
def appliedHook (e : RegEntry) (i old n : Nat) : Act := .look fun s =>
  let new := e.reg.liveVal i s
  match e.reg.name with
  | .RAMP_TGT => rampStart (i / 4096) (i % 4096)
  | .ROUTE_SIL_CFG => onlyIf (F.ROUTE_SIL_CFG_EN.of new = 0 || F.ROUTE_SIL_CFG_BUS.of new ≠ F.ROUTE_SIL_CFG_BUS.of old)
      (setSil i ⟨false, 0⟩ false)
  | .PDM_CLK => clockApplied i old
  | .PDM_LINE => lineApplied i old
  | .DEC_MIC => micApplied i old
  | .DRAM_DLY_LINE => onlyIf (decide (new ≠ old)) (lineEmpty i n)
  | .GDMA_SEL => onlyIf (!running s) (selPend i)
  | .SAP_CLK => .seq (sapClkApplied i old) ropeConflict
  | .SAP_RXCFG => sapCfgApplied i 0 old
  | .SAP_TXCFG => sapCfgApplied i 1 old
  | .RAIL_GCFG => railApplied i
  | .CLT_RXCFG | .CLT_RXKEY | .CLT_RXAUX => cltRxApplied i old new
  | .PAIR_CFG => pairCfgApplied old
  | .GAL_SLOTMAP => spareJudge (i / 4)
  | .LANE_FRAME => setLane i fun x => { x with cfgErr := false }
  | _ => .done

/-- A register with shadowed fields takes a value. The commands of `STRATA_CMD` and `STRATA_GCMD` have no applied copy. -/
def applyReg (a n : Nat) (v : RegEntry → Nat → Nat) : Act :=
  match placeOf a with
  | none => .done
  | some p =>
    let e := p.e
    if e.reg.name = .STRATA_CMD || e.reg.name = .STRATA_GCMD then .done
    else .look fun s => .seq (e.reg.setLive p.i (v e p.i)) (appliedHook e p.i (e.reg.liveVal p.i s) n)

/-- The write may not be applied at this edge: a switch section holds it (R556), it targets a ramp of a stopped engine (R212),
or the slot map of a gallery that is out (R562). -/
def shadowBlocked (s : State) (w : ShWrite) : Bool :=
  w.held ||
  (isRampTgt w && !F.RAMP_CTRL_EN.liveOn (w.addr / 0x1000000) s) ||
  (isSlotmap w && s.strata.out.contains (w.addr / 0x1000000))

/-- Apply one shadow write (R27, R86, R88): a write of the edge cycle stays for the next edge, and the write that it stands over
is applied now. -/
def applyWrite (n : Nat) (w : ShWrite) : Act := .look fun s =>
  let put (l : List ShWrite) : Act := .upd (.shPend ((s.shPend.filter (·.addr ≠ w.addr)) ++ l))
  if w.late then .seq (put [{ w with late := false, prev := none, ousted := none }])
    (match w.prev with
     | some v => onlyIf (!shadowBlocked s { w with held := false }) (applyReg w.addr n fun _ _ => v.1)
     | none => .done)
  else if shadowBlocked s w then .done
  else .seq (put []) (applyReg w.addr n fun e i => e.reg.val i s)

/-- `RAMP_CTRL` of a gallery. -/
def isRampCtrl (w : ShWrite) : Bool := w.addr < 0x10000000 && w.addr % 0x1000000 == 0xF10000

/-- A lane in WAIT that is disabled or has lost its place becomes idle (R130). -/
def lanesIdle : Act := .look fun s =>
  forEach (s.lanes.filter fun e => e.2.st == .wait && (!F.LANE_ENABLE_ENABLE.liveOn e.1 s || (laneIn s e.1).isNone))
    fun e => setLane e.1 fun L => { L with st := .idle }

/-- E2: every shadow write that is due is applied, together; a ramp engine that is enabled takes its targets at once (R27, R212). -/
def shadowApply (n : Nat) : Act := .look fun s => acts [
  forEach (s.shPend.filter isRampCtrl) (applyWrite n),
  forEach (s.shPend.filter fun w => !isRampCtrl w) (applyWrite n)]

/-- What arrives for an edge, in the order of arrival: each with its number. -/
def inOrder : List (Nat × Act) → List (Nat × Act)
  | [] => []
  | x :: xs =>
    let rec put : List (Nat × Act) → List (Nat × Act)
      | [] => [x]
      | y :: ys => if x.1 ≤ y.1 then x :: y :: ys else y :: put ys
    put (inOrder xs)

/-- While no edge occurs, shadow writes, masks and commands of the loader are applied within 1 µs, in the order in which they arrived,
and a ramp engine that this enables takes the targets that waited for it (R28, R212). -/
def shadowStopped : Act := .look fun s =>
  let n := nextTick s
  let waiting := (s.shPend.map fun w => (w.seq, applyWrite n w)) ++
    (s.mods.masks.map fun x => (x.seq, maskApply x)) ++
    ((s.strata.cmds.filter fun c => c.edge.isSome).map fun c => (c.seq, cmdApply n c))
  if running s then .done
  else acts [
    forEach (inOrder waiting) (·.2),
    forEach (s.shPend.filter isRampTgt) fun w => .look fun t => onlyIf (t.shPend.contains w) (applyWrite n w),
    lanesIdle, micsJudge, forEach (List.range 8) railAim]

/-- SHADOW_APPLY_STOPPED (R28). -/
def execShadowApplyStopped (s : State) : Host.Outcome State Fault Refusal := answer shadowStopped s

end Sys2Proof.Machine
end

