-- ==== Sys2Proof/Machine/Edge.lean ====
section
/-! DEFINITION. The parts of a tick edge that move frames: E0 stops lanes, collects and delivers; E1 fills the lane input areas
(01_tick_and_latency.md, 06_routing_and_mixing.md; R24, R32–R37, R194–R203, R214–R216, R529, R534, R557, R572, R582). -/

namespace Sys2Proof.Machine

/-! ### E0: the lanes -/

/-- The active logical lanes with their slots, by the slot map in force. -/
def placed (s : State) : List (Nat × Nat) := (List.range 256).filterMap fun n => (slotOf s n).map fun l => (n, l)

/-- The lane has not reached WAIT.TICK (R26, R130). -/
def shortOfWait (L : Lane) : Bool := L.st == .run || L.st == .stall || L.st == .halt

/-- The lane in slot `l` delivers a frame at this edge (R215). -/
def delivers (s : State) (l : Nat) : Bool :=
  (laneAt s l).st == .wait && F.LANE_ENABLE_ENABLE.liveOn l s && !laneFrameBad s l

/-- E0 stops the lane in slot `l`: its earlier writes complete, its stacks empty, and it stands at `LANE_ENTRY`, in HALT where
HALT is 1 (R32, R125, R128, R130, R156). -/
def laneStop (l : Nat) : Act := acts [
  dropWaits (laneId l), laneSettle l,
  .look fun s => setLane l fun L => { L with
    st := if F.LANE_CTRL_HALT.on l s then .halt else .idle
    cause := .none, stepRet := none, pc := F.LANE_ENTRY_ADDR.get l s, reps := [], cache := [], rets := []
    lastStore := false, stopped := true }]

/-- The overrun of logical lane `n` makes a run that is reported (R36). -/
def ovrRun (s : State) (n : Nat) : Bool :=
  let lim := F.TICK_OVR_CFG_RUN_LIM.get 0 s
  lim ≠ 0 && lim ≤ smGet (fun _ => 0) s.tick.runs n + 1 && !s.tick.runRaised.contains n

/-- Logical lane `n` in slot `l` overruns (R32, R36). A stop of the tick leaves the count of consecutive overruns as it is: the first edge
after a restart ends no tick (DESIGN CHOICE, log 91). -/
def laneOverrun (n l : Nat) : Act := .look fun s => acts [
  laneStop l,
  R.TICK_OVR_STAT.set (n / 32) (R.TICK_OVR_STAT.val (n / 32) s ||| 2 ^ (n % 32)),
  F.TICK_OVR_CNT_COUNT.inc 0,
  setTick fun t => { t with runs := smInsert t.runs n (smGet (fun _ => 0) t.runs n + 1) },
  onlyIf (ovrRun s n) (setTick fun t => { t with runRaised := t.runRaised ++ [n] })]

/-- The overruns of an edge are raised together (R36, R536), judged in the state before it counted them. -/
def overrunsRaise (r : State) (ns : List Nat) : Act :=
  raiseAll (ns.map (fun n => ⟨.TICK_OVR, n, 0, 0, 0⟩) ++ (ns.filter (ovrRun r)).map fun n => ⟨.TICK_OVR_RUN, n, 0, 0, 0⟩)

/-- Logical lane `n` has not overrun in this tick; `onTime` says that it has completed it (R36). -/
def laneOnTime (n : Nat) (onTime : Bool) : Act := setTick fun t => { t with
  runs := smErase t.runs n
  runRaised := if onTime then t.runRaised.filter (· ≠ n) else t.runRaised }

/-- Cycles from release to WAIT.TICK of a lane: the budget and one more after an overrun (`LANE_CYC`). -/
def cycOf (s : State) (L : Lane) : Nat := if shortOfWait L then F.TICK_BUDGET_LANE_CYC.get 0 s + 1 else L.cyc

/-- `LANE_CYC` and `LANE_STALL` of every slot are latched (R130). Of a lane that faulted on its way the spec states no
`LANE_CYC`. -/
def laneLatch (first : Bool) : Act := forEach (List.range 272) fun l => .look fun s =>
  let L := laneAt s l
  let put (r : Reg) (v : Nat) : Act := onlyIf (decide (r.val l s ≠ v)) (r.set l v)
  if first then .seq (put R.LANE_CYC 0) (put R.LANE_STALL 0)
  else .seq
    (if L.st = .fault && 0 < L.cyc then draw fun r => put R.LANE_CYC (r % 2 ^ 19) else put R.LANE_CYC (cycOf s L % 2 ^ 19))
    (put R.LANE_STALL (L.stalls % 2 ^ 19))

/-- `TICK_LANEMAX` and `TICK_LANEPEAK` for the tick that ends. Which of several lanes with the largest number PEAK names the spec
leaves open. -/
def laneMax (first : Bool) : Act := .look fun s =>
  let all := if first then [] else ((placed s).filter fun p => shortOfWait (laneAt s p.2) || (laneAt s p.2).st == .wait).map
    fun p => (p.1, cycOf s (laneAt s p.2) % 2 ^ 19)
  let last := (all.map (·.2)).foldl max 0
  let who := (all.filter fun p => p.2 = last).map (·.1)
  .seq (F.TICK_LANEMAX_LAST.set 0 last)
    (onlyIf (decide (F.TICK_LANEPEAK_PEAK.get 0 s < last)) (.seq (F.TICK_LANEPEAK_PEAK.set 0 last)
      (match who with
       | [n] => F.TICK_LANEPEAK_LANE.set 0 n
       | _ => draw fun r => F.TICK_LANEPEAK_LANE.set 0 (who.getD (r % who.length) 0))))

/-- The words at the addresses `as`, as the routing stage reads them: an uncorrectable one is zero (R181). -/
def readOut : List Nat → (List W40 → Act) → Act
  | [], k => k []
  | a :: as, k => eccRead a 8 0x3F0 (some .ECC_UE_ROUTE) fun ok => .look fun s =>
      readOut as fun xs => k ((if ok then word40 s a else 0) :: xs)

/-- Ticks in a row in which lane `n` has delivered no frame, as far as R37 tells them apart (R215). -/
def quietTicks (s : State) (n : Nat) : Nat := (smFind s.tick.quiet n).getD s.tick.edges

/-- The edge has collected the frames of the lanes `on`, and of no other (R215). -/
def quietCount (on : List Nat) : Act := setTick fun t => { t with
  edges := min 2 (t.edges + 1)
  quiet := on.foldl (fun m n => smInsert m n 0)
    (t.quiet.filterMap fun e => if on.contains e.1 || 1 ≤ e.2 then none else some (e.1, e.2 + 1)) }

/-- An output channel is collected: its frame, or the substitute of R37. A channel that has delivered none yet shares the ticks without a
frame of its lane (R215). -/
def collectChan (n c : Nat) (fr : Option (List W40)) : Act := .look fun s =>
  let k := 64 * n + c
  let h := (smFind s.tick.hist k).getD { chanNew with miss := quietTicks s n }
  let r := subst (bitOf (R.ROUTE_POLICY.liveVal n s) c) (spt s) h fr
  setTick fun t => { t with frames := putFrame t.frames k r.1, hist := smPut (fun _ => chanNew) t.hist k r.2 }

/-- The output channels of logical lane `n` in slot `l` (R102). -/
def collectLane (n l : Nat) (ok : Bool) : Act := .look fun s =>
  let f := spt s
  let o := F.LANE_FRAME_OUT_CH.live l s
  forEach (List.range o) fun c =>
    if ok then readOut ((List.range f).map fun i => xyAddr l true (8192 - o * f + c * f + i)) fun xs => collectChan n c (some xs)
    else collectChan n c none

/-- An accumulator that wrapped since the last edge is reported (R94); that of a slot without an active logical lane under lane 0 (DESIGN
CHOICE, log 103). -/
def laneWraps : Act := .look fun s =>
  forEach (s.lanes.filter fun e => e.2.aov) fun e =>
    .seq (raise .LANE_ACC_OVF (match laneIn s e.1 with | some n => n | none => 0) 0 0 (e.1 / 17))
      (setLane e.1 fun L => { L with aov := false })

/-- E0 for the lanes: the late ones are stopped, every output frame is collected (R24, R32–R37, R215). The first edge collects none
(R641). -/
def lanesCollect (first : Bool) : Act := .look fun s =>
  let ps := (placed s).map fun p => (p.1, p.2, delivers s p.2, shortOfWait (laneAt s p.2))
  let lost := (s.lanes.filter fun e => shortOfWait e.2 && !ps.any fun p => p.2.1 = e.1).map (·.1)
  let gone := (s.tick.hist.filter fun e => !ps.any fun p => p.1 = e.1 / 64).map (·.1)
  acts [
    laneLatch first, laneMax first, laneWraps,
    forEach lost laneStop,
    if first then .seq (forEach (ps.filter fun p => p.2.2.2) fun p => laneStop p.2.1) (setTick fun t => { t with frames := [] })
    else acts [
      forEach ps fun p => if p.2.2.2 then laneOverrun p.1 p.2.1 else laneOnTime p.1 p.2.2.1,
      overrunsRaise s ((ps.filter fun p => p.2.2.2).map (·.1)),
      setTick fun t => { t with frames := [] },
      forEach ps fun p => collectLane p.1 p.2.1 p.2.2.1,
      forEach gone fun k => collectChan (k / 64) (k % 64) none,
      quietCount ((ps.filter fun p => p.2.2.1).map (·.1)),
      setTick fun t => { t with runs := t.runs.filter fun e => ps.any fun p => p.1 = e.1 }],
    .look fun s => forEach (s.lanes.map (·.1)) fun l => setLane l fun L => { L with cyc := 0, stalls := 0 }]

/-! ### E0: buses and destinations -/

/-- The frame of the lane output channel that a value of `ROUTE_BUS` names; zeros with VALID 0 and for a channel that no lane has
(R198). -/
def chanFrame (s : State) (v : Nat) : List W40 :=
  if F.ROUTE_BUS_VALID.of v = 1 then
    fitFrame (spt s) ((smFind s.tick.frames (64 * F.ROUTE_BUS_LANE.of v + F.ROUTE_BUS_CH.of v)).getD [])
  else zeros (spt s)

/-- The byte at `a` belongs to a bus frame of the edge that begins tick `n` (R644). -/
def busByte (s : State) (n a : Nat) : Bool :=
  0x10000000 ≤ a && a < 0x14000000 && a % 0x1000000 < 0x20000 && a % 256 / 128 = n % 2 && a % 128 / 8 < spt s

/-- The buses are published (R198, R644). -/
def busPublish (n : Nat) : Act := .look fun s =>
  let bs := (listed s.regs (R.ROUTE_BUS.addr 0) 4 2048).filter fun b => F.ROUTE_BUS_VALID.on b s
  acts [
    forEach (s.mem.filter fun p => busByte s n p.1) fun p => .upd (.mem p.1 0),
    eccFresh fun k => match eccAddr k with | some (a, _) => busByte s n a | none => false,
    forEach bs fun b => forEach (chanFrame s (R.ROUTE_BUS.val b s)).zipIdx fun p =>
      memSetLe (busAddr b n p.2) 8 (ofInt 64 p.1.toInt)]

/-- The routing stage reads the frames of buses: words in error are reported (R216). -/
def busRead (n : Nat) (bs : List Nat) : Act := .look fun s =>
  if s.ecc.marks.isEmpty then .done
  else forEach bs.eraseDups fun b => forEach (List.range (spt s)) fun i =>
    eccRead (busAddr b n i) 8 0x3F0 (some .ECC_UE_ROUTE) fun _ => .done

/-- Network channels 512 and above are inactive at 176.4 and 192 kHz (R194). -/
def netOff (s : State) (e : Nat) : Bool := 0x200 ≤ e && e ≤ 0x3FF && 176400 ≤ fsHz s

/-- The frame of source endpoint `e` at the edge that begins tick `n` (R192, R194, R199, R200). -/
def srcFrame (s : State) (n e : Nat) : List W40 :=
  if netOff s e || (0x6C0 ≤ e && e ≤ 0x7FF) then zeros (spt s)
  else if 0x800 ≤ e then busFrame s (e - 0x800) n
  else sourceFrame s e

/-- The frame that a value of `ROUTE_OUT` or `ROUTE_TBL` gives (R196, R200). -/
def entryFrame (s : State) (n v : Nat) : List W40 := if bitOf v 31 then srcFrame s n (v % 4096) else zeros (spt s)

/-- The bus a route value names, if it names one. -/
def entryBus (v : Nat) : Option Nat := if bitOf v 31 && 0x800 ≤ v % 4096 then some (v % 4096 - 0x800) else none

/-- The value that a switch in its fade replaced (R557). -/
def oldRoute (s : State) (kind i : Nat) : Option Nat :=
  (s.strata.olds.find? fun o => o.kind = kind && o.idx = i).map fun o => o.old.toNat

/-- The frame that a route value gave before the switch, after any substitution (R557). -/
def entryOld (s : State) (n v : Nat) : List W40 :=
  match (entryBus v).bind (oldRoute s 1) with
  | some w => chanFrame s w
  | none => entryFrame s n v

/-- The cross-fade gains of sample `i` at the edge that begins tick `n`: new and old (R249, R557). -/
def xfGains (s : State) (n i : Nat) : W40 × W40 :=
  let num := (n - s.strata.fadeFrom - 1) * spt s + i + 1
  let den := s.strata.xf * spt s
  if s.strata.shape then (sinQ36 num den, sinQ36 (den - num) den) else (linQ36 num den, linQ36 (den - num) den)

/-- A sample times a gain in Q3.36 (R642). -/
def gain36 (x g : W40) : Int := divEven (x.toInt * g.toInt) (2 ^ 36)

/-- A route entry's frame, mixed with its old frame while a switch fades (R557, R642). -/
def fadedFrame (s : State) (n kind i v : Nat) : List W40 :=
  let o := oldRoute s kind i
  let changed := o.isSome || ((entryBus v).bind (oldRoute s 1)).isSome
  let new := entryFrame s n v
  if swSt s = 4 && s.strata.fadeFrom < n && changed then
    (new.zip (entryOld s n (o.getD v))).zipIdx.map fun p =>
      let g := xfGains s n p.2
      clampW40 (gain36 p.1.1 g.1 + gain36 p.1.2 g.2)
  else new

/-- Destinations that may be given anything but zeros: a valid entry, or one that fades. -/
def destsOn (s : State) : List Nat :=
  (((listed s.regs (R.ROUTE_OUT.addr 0) 4 1600).filter fun d => F.ROUTE_OUT_VALID.on d s) ++
    (s.strata.olds.filter fun o => o.kind = 2).map (·.idx)).eraseDups.filter fun d => !netOff s d

/-- Every destination is given its frame (R200). -/
def destsGive (n : Nat) : Act := .look fun s =>
  let ds := destsOn s
  .seq (busRead n (ds.filterMap fun d => entryBus (R.ROUTE_OUT.val d s)))
    (.look fun s => setTick fun t => { t with
      dests := ds.foldl (fun m d => putFrame m d (fadedFrame s n 2 d (R.ROUTE_OUT.val d s))) [] })

/-- One sample of an early-mix destination (R572, R575): the exact sum, faded, at 24 bits. How it is rounded the spec leaves
open. -/
def mixSample (ts : List MixTerm) (i : Nat) (k : W40 → Act) : Act := .look fun s =>
  let sum : Int := (ts.map fun t => ((sourceFrame s t.src).getD i 0).toInt * (Config.emixGain t.gain : Int)).sum
  let (num, den) : Int × Nat := match s.pwr.fade with
    | none => (sum, 2 ^ 29)
    | some t => (sum * ((480 - (t * spt s + i + 1) : Nat) : Int), 2 ^ 29 * 480)
  roundFree num den fun y => k (BitVec.ofInt 40 (max (-(2 ^ 23 : Int)) (min y (2 ^ 23 - 1)) * 512))

/-- The samples `i`, `i` + 1, … of an early-mix destination. -/
def mixFrame (ts : List MixTerm) (i : Nat) : Nat → (List W40 → Act) → Act
  | 0, k => k []
  | m + 1, k => mixSample ts i fun x => mixFrame ts (i + 1) m fun xs => k (x :: xs)

/-- The early mix forms its outputs (R572, R575). -/
def mixGive : Act := .look fun s =>
  if !s.pwr.mixOn then .done
  else .seq
    (forEach (s.pwr.mix.map (·.dst)).eraseDups fun d =>
      mixFrame (s.pwr.mix.filter fun t => t.dst = d) 0 (spt s) fun xs =>
        setTick fun t => { t with dests := putFrame t.dests d xs })
    (setPwr fun p => { p with fade := p.fade.map (· + 1) })

/-- The mute gains of the next samples, from the gain reached (R582). -/
def muteGains (up : Bool) (m : Nat) : Nat → Nat × Nat → List (Nat × Nat)
  | 0, _ => []
  | k + 1, g => let h := gainStep g.1 g.2 up m m; h :: muteGains up m k h

/-- A frame under a list of gains. -/
def gained (xs : List W40) (gs : List (Nat × Nat)) : List W40 := (xs.zip gs).map fun p => scale p.1 p.2.1 p.2.2

/-- The mute gain and the fades of NODE_FAULT act on the frames given to destinations 0x000 to 0x5FF (R529, R534, R582). Each
product is rounded (R642); which of two comes first the spec leaves open. `fall_` and `rise_` are the fades due at this E0. -/
def destsGain (fall_ rise_ : Bool) : Act := .look fun s =>
  let f := spt s
  let m := max (F.PWR_MUTE_MRAMP.live 0 s) (2 * f - 1) + 1
  let gs := muteGains (!nodeMute s) m f (s.pwr.gNum, s.pwr.gDen)
  let last := gs.getLastD (s.pwr.gNum, s.pwr.gDen)
  let one := gs.all fun g => g.1 = g.2
  let fade (xs : List W40) : List W40 := if fall_ then fall f xs else if rise_ then rise f xs else xs
  let ds := s.tick.dests.filter fun e => e.1 < 0x600
  acts [
    setPwr fun p => { p with gNum := last.1, gDen := last.2 },
    if s.sump.zeroHold then setTick fun t => { t with dests := t.dests.filter fun e => 0x600 ≤ e.1 }
    else if one && !fall_ && !rise_ then .done
    else forEach ds fun e =>
      let a := fade (gained e.2 gs)
      let b := gained (fade e.2) gs
      let put (xs : List W40) : Act := setTick fun t => { t with dests := putFrame t.dests e.1 xs }
      if a = b then put a else draw fun r => put (if r % 2 = 0 then a else b),
    onlyIf fall_ (setSump fun x => { x with zeroHold := true })]

/-- The modulators take the frames given to them in E0 at full scale (R203). -/
def modsClip : Act := .look fun s =>
  forEach ((s.tick.dests.filter fun e => 0x600 ≤ e.1).map fun e => e.1 - 0x600) modClip

/-- E0: buses, destinations, gains, detectors and what else looks at the frames of the edge that begins tick `n` (R198–R203, R217). In
the tick that the first edge after a restart begins, ports and modulators shift out the frames given before the stop (DESIGN CHOICE,
log 91). -/
def framesGive (n : Nat) (first fall_ rise_ : Bool) : Act := acts [
  setTick fun t => { t with destsPrev := t.dests, dests := [] },
  busPublish n,
  onlyIf (!first) (.seq (destsGive n) mixGive),
  destsGain fall_ rise_,
  .look fun s => forEach ((List.range 128).filter fun k => F.ROUTE_SIL_CFG_EN.liveOn k s) fun k => .look fun s =>
    silJudge k (busFrame s (F.ROUTE_SIL_CFG_BUS.live k s) n),
  modSilence,
  .look fun s => onlyIf (!first) (forEach (s.dec.mics.map (·.1)) micThr),
  railLead n,
  cltCollect n,
  sapCollect n first]

/-! ### E1 -/

/-- E1: the inputs of the edge that begins tick `n` are latched (R24, R196, R641); `old` are the frames that were shifted out in the
tick that ends. -/
def inputsLatch (old : SMap (List W40)) (n : Nat) (first : Bool) : Act := .look fun s =>
  let mics := ((listed s.live (R.DEC_MIC.addr 0) 8 64) ++ s.dec.mics.map (·.1)).eraseDups
  acts [
    setTick fun t => { t with sources := [] },
    cltLatch n first,
    senseLatch first,
    sapEdges old n first,
    onlyIf (!first) (forEach mics fun i => .look fun s =>
      .seq (setSource (0x600 + i) (fineFrame s i (n - 1))) (setSource (0x640 + i) (fastFrame s i))),
    forEach mics (micEdge first),
    onlyIf first (setTick fun t => { t with sources := [] })]

/-- Input channel `c` of logical lane `n`: its route entry is read, and the frame goes to `k` (R181, R195, R196). `t` is the tick
that the edge begins and `r` the state in which E1 reads. -/
def inputFrame (r : State) (t n c : Nat) (k : List W40 → Act) : Act := .look fun s =>
  let e := 256 * n + c
  let v := (smGet (fun _ => 0) r.route.tbl e).toNat
  let key := eccKey 0x8000 e 0
  eccReadKey key 0x3F0 (if s.ecc.routeReported.contains e then none else some .ECC_UE_ROUTE) fun ok =>
    if ok then k (fadedFrame r t 0 e v)
    else .seq (setEcc fun x => { x with routeReported := x.routeReported.filter (· ≠ e) ++ [e] }) (k (zeros (spt s)))

/-- The input areas of the lanes are filled, in the slots and with the frame sizes that hold at E4, from the route table and the
sources of E1 (R195–R197). `r` is the state at E1. -/
def inputsFill (r : State) (t : Nat) : Act := .look fun s =>
  let ps := (placed s).filter fun p => F.LANE_FRAME_IN_CH.live p.2 s ≠ 0
  let seen := (destsOn r).filterMap fun d => entryBus (R.ROUTE_OUT.val d r)
  let entry (n c : Nat) : Nat := (smGet (fun _ => 0) r.route.tbl (256 * n + c)).toNat
  .seq (onlyIf (!s.ecc.marks.isEmpty) (busRead t ((ps.flatMap fun p =>
      (List.range (F.LANE_FRAME_IN_CH.live p.2 s)).filterMap fun c => entryBus (entry p.1 c)).filter fun b => !seen.contains b)))
  (forEach ps fun p =>
    let f := spt s
    let ic := F.LANE_FRAME_IN_CH.live p.2 s
    forEach (List.range ic) fun c => inputFrame r t p.1 c fun xs =>
      forEach xs.zipIdx fun q =>
        let a := xyAddr p.2 false (8192 - ic * f + c * f + q.2)
        putWord40 a q.1)

end Sys2Proof.Machine
end

