-- ==== Sys2Proof/Machine/Tick.lean ====
section
/-! DEFINITION. The tick edge, E0 to E4 (01_tick_and_latency.md, R20–R45, R641), and the cycle of an idle node. -/

namespace Sys2Proof.Machine

/-! ### Before E0 -/

/-- What is counted or reported once per tick starts anew. -/
def tickFlags : Act := acts [
  setPool fun p => { p with
    queues := smMap (fun _ => poolQReset) (fun _ q => { q with ovdTick := false }) p.queues, portErr := [] },
  setPtp fun p => { p with caps := p.caps.map fun e => (e.1, { e.2 with ovfTick := false }) },
  setClt fun c => { c with suppress := false },
  setDec fun d => { d with stopped := [] }]

/-- `TICK_TXEND` shows the tick that ends. -/
def showTxEnd (first : Bool) : Act := .look fun s =>
  let last := if first then 0 else min s.eth.txEnd 65535
  acts [
    F.TICK_TXEND_LAST.set 0 last,
    F.TICK_TXEND_MAX.set 0 (max last (F.TICK_TXEND_MAX.get 0 s)),
    setEth fun e => { e with txEnd := 0 }]

/-- ALIGNED follows the qualification of the timebase (R22, R23). -/
def alignJudge : Act := .look fun s =>
  let q := F.PTP_STAT_QUAL.on 0 s
  if q then F.TICK_STAT_ALIGNED.set 0 1
  else onlyIf (F.TICK_STAT_ALIGNED.on 0 s) (acts [
    F.TICK_STAT_ALIGNED.set 0 0, F.TICK_STAT_ALIGN_LOST.set 0 1, raise .TICK_ALIGN_LOST])

/-- The edge that begins tick `n`: what stands before its collection. -/
def edgeBegin (n : Nat) (first : Bool) : Act := acts [
  .look fun s => .seq (.upd (.elapsed (s.elapsed + (edgePos n s - s.now)))) (.upd (.now (max s.now (edgePos n s)))),
  gateClose,
  R.TICK_NUM.set 0 n,
  F.TICK_STAT_RUNNING.set 0 1,
  setTick fun t => { t with starting := false, cycle := 0 },
  showTxEnd first, tickFlags, trimUpdate, alignJudge,
  fadeEnds n,
  .look fun s => onlyIf (match s.sump.exitPend with | some e => decide (e ≤ n) | none => false) exitApply,
  pairEdge n,
  modEdge n]

/-! ### E2 -/

/-- One published latency entry, of an external source and a destination (R228): the table is read back, and the entry is rewritten whole, both its codewords (R41, R45, R165, R181).
While the tick stands no entry changes; one whose path goes stays as it is, and the number of valid entries does not fall (DESIGN
CHOICE, log 91). -/
def latPublish (e : LatEntry) : Act := .look fun s =>
  let p := e.path.val
  let l := (3 * spt s + e.a + e.t * spt s) % 2 ^ 28
  let mine (k : Nat) : Bool := k == eccKey 0x9000 p 0 || k == eccKey 0x9000 p 1
  if 0x6C0 ≤ e.src.toNat || 0x640 ≤ e.dst.toNat then .done
  else eccJudge (s.ecc.marks.filter fun k => mine k.1) 0x3F3 (some .ECC_UE_LAT) fun _ => acts [
    R.TICK_LAT.set p (e.src.toNat + e.dst.toNat * 2 ^ 12 + l * 2 ^ 32),
    eccFresh mine,
    F.TICK_LAT_CNT_COUNT.set 0 (max (F.TICK_LAT_CNT_COUNT.get 0 s) (p + 1))]

/-- ACCEPT becomes 1 with the base layer in service and the timebase aligned, and the node enters full service (R427, R576). -/
def acceptJudge : Act := .look fun s =>
  if F.STRATA_STAT_BOOT.get 0 s = 4 && F.TICK_STAT_ALIGNED.on 0 s && !F.STRATA_STAT_DEFAULT.on 0 s &&
      !F.CLT_STAT_ACCEPT.on 0 s then acts [
    F.CLT_STAT_ACCEPT.set 0 1, F.PWR_STAT_PHASE.set 0 6, setPwr fun p => { p with full := true }]
  else .done

/-- E2 of the edge that begins tick `n` (R24, R27). -/
def parametersApply (n : Nat) (ls : List LatEntry) : Act := acts [
  installEngine n,
  .look fun s => forEach (s.pair.spares.map (·.1)) (spareSwap n),
  switchEdge n,
  shadowApply n,
  strataCmds n,
  galleryReturn n,
  lanesIdle,
  sapStartEdge n,
  modApply,
  forEach (List.range 16) rampGallery,
  mutesTake,
  micsJudge,
  forEach (List.range 8) railAim,
  remapApply,
  forEach ls latPublish,
  acceptJudge]

/-! ### E3 -/

/-- The selectors of gallery `g` (R246, R248). A selector that nothing has been written to stays as after reset. -/
def selectorsEdge (g n : Nat) : Act := .look fun s =>
  let a := R.GDMA_SEL.addr (16 * g)
  let b := R.GDMA_SEL_STAT.addr (16 * g)
  let used := (listed s.live a 4 16 ++ listed s.regs b 4 16).eraseDups
  .seq (forEach used (selStep g)) (forEach (List.range 16) fun i => selBlock g i n)

/-- E3 of the edge that begins tick `n`: digests of the frames of E0, with the flags up to here, transfers, selectors, spare loads (R31,
R234, R246, R258, R500, R519). `r` is the state at the end of E0. -/
def transfersStart (r : State) (n : Nat) : Act := acts [
  trimEdge n,
  forEach (List.range 16) fun g => jobsLate g n,
  sealDigests r n,
  spareStart,
  dlyStart n,
  forEach (List.range 16) fun g => selectorsEdge g n]

/-! ### E4 -/

/-- Logical lane `n` in slot `l` is released (R126, R130), or its frame sizes break R103 (R136). -/
def laneRelease (n l : Nat) : Act := .look fun s =>
  let L := laneAt s l
  if F.LANE_ENABLE_ENABLE.liveOn l s && (L.st == .wait || L.st == .idle) then
    if laneFrameBad s l then
      onlyIf (!L.cfgErr) (.seq (setLane l fun L => { L with cfgErr := true }) (raise .LANE_CFG_ERR n 0 0 (l / 17)))
    else setLane l fun L =>
      if L.st = .wait then { L with st := .run, cfgErr := false }
      else { L with st := .run, cfgErr := false, pc := F.LANE_ENTRY_ADDR.get l s, reps := [], cache := [], rets := [] }
  else .done

/-- E4: the lanes are released at cycle 2,048, unless the tick stops here (R17, R126). -/
def lanesRelease : Act := .look fun s => .seq
  (if F.TICK_CTRL_RUN.on 0 s then forEach (placed s) fun p => laneRelease p.1 p.2 else F.TICK_STAT_RUNNING.set 0 0)
  (.look fun s => forEach (s.lanes.map (·.1)) fun l => setLane l fun L => { L with stopped := false })

/-- The reserve has passed (R17). -/
def reservePass : Act := .look fun s => acts [
  .upd (.now (s.now + 2048)), .upd (.elapsed (s.elapsed + 2048)), setTick fun t => { t with cycle := 2048 }, kaRun 2048,
  siphonRun 2048]

/-! ### The edge -/

/-- At the first edge after a warm load the ROM selects and arms the layer that the journal names (R588). -/
def warmArm (first : Bool) : Act := .look fun s =>
  match s.strata.warmArm with
  | some (scene, idx) =>
    if first && F.STRATA_STAT_BOOT.get 0 s = 4 then acts [
      setStrata fun x => { x with warmArm := none, warmGo := true },
      F.STRATA_SEL_SRC.set 0 (b2n scene), F.STRATA_SEL_INDEX.set 0 idx,
      wrStrataCmd 0 1 (fullMask 1)]
    else .done
  | none => .done

/-- The steps E0 to E4 of the edge that begins tick `n`, and after E3 the accesses that waited for their lane (R60; log 90); `first` is the first edge of R641, `ls` the latencies that change. -/
def edgeSteps (n : Nat) (first : Bool) (ls : List LatEntry) : Act := .look fun s =>
  let fall_ := s.sump.fallPend && !s.sump.zeroHold
  let rise_ := s.sump.risePend
  acts [
    setSump fun x => { x with fallPend := false, risePend := false },
    dlyJudge n first,
    lanesCollect first,
    framesGive n first fall_ rise_,
    .look fun r0 => acts [
      modsClip,
      inputsLatch s.tick.destsPrev n first,
      .look fun r => acts [
        parametersApply n ls,
        inputsFill r n],
      transfersStart r0 n],
    warmArm first,
    resumeWaiting fun _ => true,
    lanesRelease,
    reservePass]

/-- The next tick edge, if the tick runs or has been started and the counter goes on. -/
def tickEdge (ls : List LatEntry) : Act := .look fun s =>
  if !(running s || s.tick.starting) || s.clk.hold then .done
  else .seq (edgeBegin (nextTick s) s.tick.starting) (edgeSteps (nextTick s) s.tick.starting ls)

/-- TICK_EDGE (R24). `ls` lists the paths whose published latency the edge changes, with A and T as Darloam declares them (R41). -/
def execTickEdge (ls : List LatEntry) (s : State) : Host.Outcome State Fault Refusal := answer (tickEdge ls) s

/-! ### A cycle with no command -/

/-- A CCLK cycle passes: the counters count, the system counter unless it is held, and a lane that waits for a queue word stalls. The node
stands in the edge cycle until the edge has been taken. -/
def idleCycle : Act := .look fun s =>
  if edgeDue s && !s.clk.hold then .done
  else acts [
    .upd (.elapsed (s.elapsed + 1)),
    onlyIf (!s.clk.hold) (.upd (.now (s.now + 1))),
    onlyIf (running s) (setTick fun t => { t with cycle := t.cycle + 1 }),
    refEdges,
    kaRun 1,
    siphonRun 1,
    forEach ((s.lanes.filter fun e => e.2.st == .stall && e.2.cause == .qrd).map (·.1)) fun l =>
      setLane l fun L => { L with cyc := L.cyc + 1, stalls := L.stalls + 1 }]

end Sys2Proof.Machine
end

