-- ==== Sys2Proof/Machine/Dispatch.lean ====
section
/-! DEFINITION. One arm for every command: a direct call of its meaning. -/

namespace Sys2Proof.Machine

/-- What a command does to everything but the queue. -/
def exec (i : Instr) (s : State) : Host.Outcome State Fault Refusal :=
  match i with
  | .tickEdge ls => Sys2Proof.Machine.execTickEdge ls s
  | .tickStart m => Sys2Proof.Machine.execTickStart m s
  | .tickStop m => Sys2Proof.Machine.execTickStop m s
  | .tickCfgWrite m v => Sys2Proof.Machine.execTickCfgWrite m v s
  | .registerWrite m a sz v tie => Sys2Proof.Machine.execRegisterWrite m a sz v tie s
  | .shadowApplyStopped => Sys2Proof.Machine.execShadowApplyStopped s
  | .memoryAccess q a r => Sys2Proof.Machine.execMemoryAccess q a r s
  | .pairLowRead m a => Sys2Proof.Machine.execPairLowRead m a s
  | .pairLowWrite m a v => Sys2Proof.Machine.execPairLowWrite m a v s
  | .pairHighWrite m a v => Sys2Proof.Machine.execPairHighWrite m a v s
  | .masterResetAbort m a r n => Sys2Proof.Machine.execMasterResetAbort m a r n s
  | .laneWindowAccessResume => Sys2Proof.Machine.execLaneWindowAccessResume s
  | .galSlotmapWrite m g j v => Sys2Proof.Machine.execGalSlotmapWrite m g j v s
  | .nop l h x => Sys2Proof.Machine.execNop l h x s
  | .mac l h acc da db x => Sys2Proof.Machine.execMac l h acc da db x s
  | .msu l h acc da db x => Sys2Proof.Machine.execMsu l h acc da db x s
  | .mpy l h acc da db x => Sys2Proof.Machine.execMpy l h acc da db x s
  | .mpyn l h acc da db x => Sys2Proof.Machine.execMpyn l h acc da db x s
  | .opMov l h d r x => Sys2Proof.Machine.execOpMov l h d r x s
  | .opAdd l h d r x => Sys2Proof.Machine.execOpAdd l h d r x s
  | .opSub l h d r x => Sys2Proof.Machine.execOpSub l h d r x s
  | .opNeg l h d r x => Sys2Proof.Machine.execOpNeg l h d r x s
  | .opAbs l h d r x => Sys2Proof.Machine.execOpAbs l h d r x s
  | .opMax l h d r x => Sys2Proof.Machine.execOpMax l h d r x s
  | .opMin l h d r x => Sys2Proof.Machine.execOpMin l h d r x s
  | .cmp l h d r x => Sys2Proof.Machine.execCmp l h d r x s
  | .opAnd l h d r x => Sys2Proof.Machine.execOpAnd l h d r x s
  | .opOr l h d r x => Sys2Proof.Machine.execOpOr l h d r x s
  | .opXor l h d r x => Sys2Proof.Machine.execOpXor l h d r x s
  | .asr l h d n x => Sys2Proof.Machine.execAsr l h d n x s
  | .lsl l h d n x => Sys2Proof.Machine.execLsl l h d n x s
  | .lsr l h d n x => Sys2Proof.Machine.execLsr l h d n x s
  | .cvS l h d acc rm x => Sys2Proof.Machine.execCvS l h d acc rm x s
  | .cvQ l h d acc rm x => Sys2Proof.Machine.execCvQ l h d acc rm x s
  | .cvC l h d acc rm x => Sys2Proof.Machine.execCvC l h d acc rm x s
  | .cvI l h d acc rm x => Sys2Proof.Machine.execCvI l h d acc rm x s
  | .lda l h acc r x => Sys2Proof.Machine.execLda l h acc r x s
  | .clra l h acc x => Sys2Proof.Machine.execClra l h acc x s
  | .adda l h acc src x => Sys2Proof.Machine.execAdda l h acc src x s
  | .suba l h acc src x => Sys2Proof.Machine.execSuba l h acc src x s
  | .tsta l h acc x => Sys2Proof.Machine.execTsta l h acc x s
  | .lx l p d x => Sys2Proof.Machine.execLx l p d x s
  | .ly l p d x => Sys2Proof.Machine.execLy l p d x s
  | .lxy l px dx py dy x => Sys2Proof.Machine.execLxy l px dx py dy x s
  | .sx l src x => Sys2Proof.Machine.execSx l src x s
  | .sy l src x => Sys2Proof.Machine.execSy l src x s
  | .jmp l cc t => Sys2Proof.Machine.execJmp l cc t s
  | .opCall l cc t => Sys2Proof.Machine.execOpCall l cc t s
  | .opRet l cc => Sys2Proof.Machine.execOpRet l cc s
  | .repImm l n k => Sys2Proof.Machine.execRepImm l n k s
  | .repD l d k => Sys2Proof.Machine.execRepD l d k s
  | .waitTick l => Sys2Proof.Machine.execWaitTick l s
  | .ldi l d v => Sys2Proof.Machine.execLdi l d v s
  | .movaImm l n v => Sys2Proof.Machine.execMovaImm l n v s
  | .movmImm l n v => Sys2Proof.Machine.execMovmImm l n v s
  | .movlImm l n v => Sys2Proof.Machine.execMovlImm l n v s
  | .movaD l n r => Sys2Proof.Machine.execMovaD l n r s
  | .movmD l n r => Sys2Proof.Machine.execMovmD l n r s
  | .movlD l n r => Sys2Proof.Machine.execMovlD l n r s
  | .movd l d n => Sys2Proof.Machine.execMovd l d n s
  | .gld l d n m en => Sys2Proof.Machine.execGld l d n m en s
  | .gst l r n m en => Sys2Proof.Machine.execGst l r n m en s
  | .qrd l d p => Sys2Proof.Machine.execQrd l d p s
  | .qwr l p r => Sys2Proof.Machine.execQwr l p r s
  | .gldDataReturn l => Sys2Proof.Machine.execGldDataReturn l s
  | .gstGrant l => Sys2Proof.Machine.execGstGrant l s
  | .qrdItemArrival l => Sys2Proof.Machine.execQrdItemArrival l s
  | .laneHaltRequest m l => Sys2Proof.Machine.execLaneHaltRequest m l s
  | .laneHaltEnter l => Sys2Proof.Machine.execLaneHaltEnter l s
  | .laneResume m l => Sys2Proof.Machine.execLaneResume m l s
  | .laneStep m l => Sys2Proof.Machine.execLaneStep m l s
  | .laneFclr m l => Sys2Proof.Machine.execLaneFclr m l s
  | .lanePcWrite m l v => Sys2Proof.Machine.execLanePcWrite m l v s
  | .laneFrameWrite m l v => Sys2Proof.Machine.execLaneFrameWrite m l v s
  | .eccLogCapture => Sys2Proof.Machine.execEccLogCapture s
  | .remapAdd m v => Sys2Proof.Machine.execRemapAdd m v s
  | .remapApply => Sys2Proof.Machine.execRemapApply s
  | .journalWrite => Sys2Proof.Machine.execJournalWrite s
  | .routeTblWrite m j v => Sys2Proof.Machine.execRouteTblWrite m j v s
  | .routeOutWrite m j v => Sys2Proof.Machine.execRouteOutWrite m j v s
  | .routeBusWrite m j v => Sys2Proof.Machine.execRouteBusWrite m j v s
  | .routeWriteRelease => Sys2Proof.Machine.execRouteWriteRelease s
  | .rampMapWrite m g j v => Sys2Proof.Machine.execRampMapWrite m g j v s
  | .ropeMapWrite m j v => Sys2Proof.Machine.execRopeMapWrite m j v s
  | .ropeMapApply => Sys2Proof.Machine.execRopeMapApply s
  | .ropeStrapChange sel hold => Sys2Proof.Machine.execRopeStrapChange sel hold s
  | .ropesLive => Sys2Proof.Machine.execRopesLive s
  | .dlyTransferEnd cyc => Sys2Proof.Machine.execDlyTransferEnd cyc s
  | .dlyLineWrite m j v => Sys2Proof.Machine.execDlyLineWrite m j v s
  | .dlyTapWrite m j v => Sys2Proof.Machine.execDlyTapWrite m j v s
  | .gdmaJobStart g => Sys2Proof.Machine.execGdmaJobStart g s
  | .gdmaJobComplete g => Sys2Proof.Machine.execGdmaJobComplete g s
  | .pdmClkWrite m j v => Sys2Proof.Machine.execPdmClkWrite m j v s
  | .decMicWrite m j v => Sys2Proof.Machine.execDecMicWrite m j v s
  | .mutePeriodEnd j => Sys2Proof.Machine.execMutePeriodEnd j s
  | .fineOutput j bits => Sys2Proof.Machine.execFineOutput j bits s
  | .fastOutput j bits k => Sys2Proof.Machine.execFastOutput j bits k s
  | .trimUpdate => Sys2Proof.Machine.execTrimUpdate s
  | .trimSelectorWrite => Sys2Proof.Machine.execTrimSelectorWrite s
  | .decIdZero m => Sys2Proof.Machine.execDecIdZero m s
  | .decIdTimeWrite m v => Sys2Proof.Machine.execDecIdTimeWrite m v s
  | .sapClkWrite m n v => Sys2Proof.Machine.execSapClkWrite m n v s
  | .sapCfgWrite m n r v => Sys2Proof.Machine.execSapCfgWrite m n r v s
  | .sapRxFrame n q th len ws => Sys2Proof.Machine.execSapRxFrame n q th len ws s
  | .sapTxFrame n q th len => Sys2Proof.Machine.execSapTxFrame n q th len s
  | .asrcBlockLate n d => Sys2Proof.Machine.execAsrcBlockLate n d s
  | .sapStartGo m => Sys2Proof.Machine.execSapStartGo m s
  | .sapStartAtCmd m => Sys2Proof.Machine.execSapStartAtCmd m s
  | .sapStartApply => Sys2Proof.Machine.execSapStartApply s
  | .senseFrame k ws => Sys2Proof.Machine.execSenseFrame k ws s
  | .sensePtWrite m j v => Sys2Proof.Machine.execSensePtWrite m j v s
  | .carrierPeriod c => Sys2Proof.Machine.execCarrierPeriod c s
  | .modStart m mask => Sys2Proof.Machine.execModStart m mask s
  | .modStop m mask => Sys2Proof.Machine.execModStop m mask s
  | .modFclr m mask => Sys2Proof.Machine.execModFclr m mask s
  | .modChWrite m c v => Sys2Proof.Machine.execModChWrite m c v s
  | .diagStepEnd c => Sys2Proof.Machine.execDiagStepEnd c s
  | .diagRailTimeout g => Sys2Proof.Machine.execDiagRailTimeout g s
  | .modGainSample c => Sys2Proof.Machine.execModGainSample c s
  | .railcmdFrame g => Sys2Proof.Machine.execRailcmdFrame g s
  | .poolAlloc m => Sys2Proof.Machine.execPoolAlloc m s
  | .poolPush m v => Sys2Proof.Machine.execPoolPush m v s
  | .poolFree m v => Sys2Proof.Machine.execPoolFree m v s
  | .poolPop m => Sys2Proof.Machine.execPoolPop m s
  | .poolTrypop m => Sys2Proof.Machine.execPoolTrypop m s
  | .poolQwordWrite m v => Sys2Proof.Machine.execPoolQwordWrite m v s
  | .poolQwordRead m => Sys2Proof.Machine.execPoolQwordRead m s
  | .poolWaitComplete q => Sys2Proof.Machine.execPoolWaitComplete q s
  | .poolStall q => Sys2Proof.Machine.execPoolStall q s
  | .poolQcfgWrite m v => Sys2Proof.Machine.execPoolQcfgWrite m v s
  | .poolLportWrite m j v => Sys2Proof.Machine.execPoolLportWrite m j v s
  | .ethRxFrame p f ts => Sys2Proof.Machine.execEthRxFrame p f ts s
  | .ethTxStart p => Sys2Proof.Machine.execEthTxStart p s
  | .ethTxDone p => Sys2Proof.Machine.execEthTxDone p s
  | .gateWindowOpen => Sys2Proof.Machine.execGateWindowOpen s
  | .gateWindowClose => Sys2Proof.Machine.execGateWindowClose s
  | .ethLink p up => Sys2Proof.Machine.execEthLink p up s
  | .ethPcfgWrite m p v => Sys2Proof.Machine.execEthPcfgWrite m p v s
  | .ethPortStop p => Sys2Proof.Machine.execEthPortStop p s
  | .ethGateWrite m v => Sys2Proof.Machine.execEthGateWrite m v s
  | .atCopyToEntry m j => Sys2Proof.Machine.execAtCopyToEntry m j s
  | .atCopyToStaging m j => Sys2Proof.Machine.execAtCopyToStaging m j s
  | .p4TxItem => Sys2Proof.Machine.execP4TxItem s
  | .ethMgmtWrite m v => Sys2Proof.Machine.execEthMgmtWrite m v s
  | .mgmtRead => Sys2Proof.Machine.execMgmtRead s
  | .mgmtWrite => Sys2Proof.Machine.execMgmtWrite s
  | .mgmtAccessComplete => Sys2Proof.Machine.execMgmtAccessComplete s
  | .mgmtTimeout => Sys2Proof.Machine.execMgmtTimeout s
  | .t1sRxFrame f ts => Sys2Proof.Machine.execT1sRxFrame f ts s
  | .t1sTxAttempt => Sys2Proof.Machine.execT1sTxAttempt s
  | .t1sCollision => Sys2Proof.Machine.execT1sCollision s
  | .t1sBackoffEnd => Sys2Proof.Machine.execT1sBackoffEnd s
  | .plcaBeacon => Sys2Proof.Machine.execPlcaBeacon s
  | .plcaTransmitOpportunity => Sys2Proof.Machine.execPlcaTransmitOpportunity s
  | .t1sCfgWrite m v => Sys2Proof.Machine.execT1sCfgWrite m v s
  | .ezDiscover => Sys2Proof.Machine.execEzDiscover s
  | .ezSet => Sys2Proof.Machine.execEzSet s
  | .ezGet => Sys2Proof.Machine.execEzGet s
  | .ezMute => Sys2Proof.Machine.execEzMute s
  | .ezPoll => Sys2Proof.Machine.execEzPoll s
  | .ezAnnounce src msg => Sys2Proof.Machine.execEzAnnounce src msg s
  | .ezAck src msg => Sys2Proof.Machine.execEzAck src msg s
  | .ezValue src msg => Sys2Proof.Machine.execEzValue src msg s
  | .ezStatus src msg => Sys2Proof.Machine.execEzStatus src msg s
  | .ezFault src msg => Sys2Proof.Machine.execEzFault src msg s
  | .ezNak src msg => Sys2Proof.Machine.execEzNak src msg s
  | .ezTimeout e => Sys2Proof.Machine.execEzTimeout e s
  | .ezDiscoverWindowEnd => Sys2Proof.Machine.execEzDiscoverWindowEnd s
  | .cltRxFrame p f ts => Sys2Proof.Machine.execCltRxFrame p f ts s
  | .aes67RxPacket p f ts => Sys2Proof.Machine.execAes67RxPacket p f ts s
  | .aafRxPacket p f ts => Sys2Proof.Machine.execAafRxPacket p f ts s
  | .cltEntryWrite m r j v => Sys2Proof.Machine.execCltEntryWrite m r j v s
  | .cltTxFrame j ofs => Sys2Proof.Machine.execCltTxFrame j ofs s
  | .aes67TxPacket j => Sys2Proof.Machine.execAes67TxPacket j s
  | .aafTxPacket j => Sys2Proof.Machine.execAafTxPacket j s
  | .ptpSync p g => Sys2Proof.Machine.execPtpSync p g s
  | .ptpFollowUp p g => Sys2Proof.Machine.execPtpFollowUp p g s
  | .ptpAnnounce p g => Sys2Proof.Machine.execPtpAnnounce p g s
  | .ptpDelayReq p g => Sys2Proof.Machine.execPtpDelayReq p g s
  | .ptpDelayResp p g => Sys2Proof.Machine.execPtpDelayResp p g s
  | .ptpPdelayReq p g => Sys2Proof.Machine.execPtpPdelayReq p g s
  | .ptpPdelayResp p g => Sys2Proof.Machine.execPtpPdelayResp p g s
  | .ptpPdelayRespFollowUp p g => Sys2Proof.Machine.execPtpPdelayRespFollowUp p g s
  | .ptpManagementMsg p => Sys2Proof.Machine.execPtpManagementMsg p s
  | .ptpSyncTx p => Sys2Proof.Machine.execPtpSyncTx p s
  | .ptpAnnounceTx p => Sys2Proof.Machine.execPtpAnnounceTx p s
  | .ptpDelayReqTx p => Sys2Proof.Machine.execPtpDelayReqTx p s
  | .ptpFollowUpTx p => Sys2Proof.Machine.execPtpFollowUpTx p s
  | .ptpAnnounceTimeout p => Sys2Proof.Machine.execPtpAnnounceTimeout p s
  | .ptpSyncLoss p => Sys2Proof.Machine.execPtpSyncLoss p s
  | .ptpGmQual => Sys2Proof.Machine.execPtpGmQual s
  | .ptpTimeRead m => Sys2Proof.Machine.execPtpTimeRead m s
  | .ptpTimeCommit m v => Sys2Proof.Machine.execPtpTimeCommit m v s
  | .evtArm m e v => Sys2Proof.Machine.execEvtArm m e v s
  | .evtArmed e => Sys2Proof.Machine.execEvtArmed e s
  | .evtDisarm m e v => Sys2Proof.Machine.execEvtDisarm m e v s
  | .evtPulse e => Sys2Proof.Machine.execEvtPulse e s
  | .evtPulseEnd e => Sys2Proof.Machine.execEvtPulseEnd e s
  | .capEdge c rise ts => Sys2Proof.Machine.execCapEdge c rise ts s
  | .capHeadRead m c => Sys2Proof.Machine.execCapHeadRead m c s
  | .refEvaluate o => Sys2Proof.Machine.execRefEvaluate o s
  | .loopStepAdvance => Sys2Proof.Machine.execLoopStepAdvance s
  | .clkHoldExpired => Sys2Proof.Machine.execClkHoldExpired s
  | .pllLock p => Sys2Proof.Machine.execPllLock p s
  | .pllUnlock p => Sys2Proof.Machine.execPllUnlock p s
  | .pllbPhaseSet => Sys2Proof.Machine.execPllbPhaseSet s
  | .clkForceFreerun m => Sys2Proof.Machine.execClkForceFreerun m s
  | .clkReleaseFreerun m => Sys2Proof.Machine.execClkReleaseFreerun m s
  | .clkoutRealign m mask => Sys2Proof.Machine.execClkoutRealign m mask s
  | .clkOutWrite m n v => Sys2Proof.Machine.execClkOutWrite m n v s
  | .clkPllaWrite m v => Sys2Proof.Machine.execClkPllaWrite m v s
  | .pairLinkUp => Sys2Proof.Machine.execPairLinkUp s
  | .pairLinkDown => Sys2Proof.Machine.execPairLinkDown s
  | .siphonMark seg rest => Sys2Proof.Machine.execSiphonMark seg rest s
  | .siphonRstreq segs => Sys2Proof.Machine.execSiphonRstreq segs s
  | .siphonDigest seg rest => Sys2Proof.Machine.execSiphonDigest seg rest s
  | .siphonWrite g segs => Sys2Proof.Machine.execSiphonWrite g segs s
  | .siphonModstate cs rs segs => Sys2Proof.Machine.execSiphonModstate cs rs segs s
  | .siphonStamp ss segs => Sys2Proof.Machine.execSiphonStamp ss segs s
  | .siphonPatch f ts segs => Sys2Proof.Machine.execSiphonPatch f ts segs s
  | .siphonLanestate g segs => Sys2Proof.Machine.execSiphonLanestate g segs s
  | .siphonEngine g segs => Sys2Proof.Machine.execSiphonEngine g segs s
  | .siphonCopy rs segs => Sys2Proof.Machine.execSiphonCopy rs segs s
  | .formTimeout => Sys2Proof.Machine.execFormTimeout s
  | .ownPinChange low => Sys2Proof.Machine.execOwnPinChange low s
  | .pairPreset m => Sys2Proof.Machine.execPairPreset m s
  | .pairHandover m => Sys2Proof.Machine.execPairHandover m s
  | .pairJoin m => Sys2Proof.Machine.execPairJoin m s
  | .pairJoinUpd m => Sys2Proof.Machine.execPairJoinUpd m s
  | .pairCmdOut m => Sys2Proof.Machine.execPairCmdOut m s
  | .copyPassComplete => Sys2Proof.Machine.execCopyPassComplete s
  | .pairPatchWrite m v => Sys2Proof.Machine.execPairPatchWrite m v s
  | .spareLoadEnd g => Sys2Proof.Machine.execSpareLoadEnd g s
  | .galStsetWrite m g j v => Sys2Proof.Machine.execGalStsetWrite m g j v s
  | .galCopyWrite m g v => Sys2Proof.Machine.execGalCopyWrite m g v s
  | .sumpLog => Sys2Proof.Machine.execSumpLog s
  | .sumpScan => Sys2Proof.Machine.execSumpScan s
  | .sumpEvstatClear m j v => Sys2Proof.Machine.execSumpEvstatClear m j v s
  | .sumpExit m => Sys2Proof.Machine.execSumpExit m s
  | .sumpExitApply => Sys2Proof.Machine.execSumpExitApply s
  | .sumpHclr m => Sys2Proof.Machine.execSumpHclr m s
  | .sumpEvcfgWrite m j v => Sys2Proof.Machine.execSumpEvcfgWrite m j v s
  | .sumpHistRead m j => Sys2Proof.Machine.execSumpHistRead m j s
  | .loaderStart hdr => Sys2Proof.Machine.execLoaderStart hdr s
  | .loaderDramTimeout => Sys2Proof.Machine.execLoaderDramTimeout s
  | .stageComplete img => Sys2Proof.Machine.execStageComplete img s
  | .recordEnd => Sys2Proof.Machine.execRecordEnd s
  | .recordFill => Sys2Proof.Machine.execRecordFill s
  | .recordWrite => Sys2Proof.Machine.execRecordWrite s
  | .recordWrite40 => Sys2Proof.Machine.execRecordWrite40 s
  | .recordProg => Sys2Proof.Machine.execRecordProg s
  | .recordRoute => Sys2Proof.Machine.execRecordRoute s
  | .recordMode => Sys2Proof.Machine.execRecordMode s
  | .recordLock => Sys2Proof.Machine.execRecordLock s
  | .strataArm m => Sys2Proof.Machine.execStrataArm m s
  | .armingComplete => Sys2Proof.Machine.execArmingComplete s
  | .strataGo m => Sys2Proof.Machine.execStrataGo m s
  | .strataDisarm m => Sys2Proof.Machine.execStrataDisarm m s
  | .strataAtTrigger => Sys2Proof.Machine.execStrataAtTrigger s
  | .switchPlayComplete => Sys2Proof.Machine.execSwitchPlayComplete s
  | .galleryReloadGo m v => Sys2Proof.Machine.execGalleryReloadGo m v s
  | .reloadPlayComplete => Sys2Proof.Machine.execReloadPlayComplete s
  | .porst => Sys2Proof.Machine.execPorst s
  | .resetNPulse ns => Sys2Proof.Machine.execResetNPulse ns s
  | .sysSwrst m v => Sys2Proof.Machine.execSysSwrst m v s
  | .sysWdogWrite m v => Sys2Proof.Machine.execSysWdogWrite m v s
  | .wdogKick m v => Sys2Proof.Machine.execWdogKick m v s
  | .watchdogExpiry => Sys2Proof.Machine.execWatchdogExpiry s
  | .earlyMixStart => Sys2Proof.Machine.execEarlyMixStart s
  | .earlyMixFadeEnd => Sys2Proof.Machine.execEarlyMixFadeEnd s
  | .bootTickRestart expired => Sys2Proof.Machine.execBootTickRestart expired s
  | .inputFilterChange j => Sys2Proof.Machine.execInputFilterChange j s
  | .inStuck j => Sys2Proof.Machine.execInStuck j s
  | .halfCycleEnd vpk => Sys2Proof.Machine.execHalfCycleEnd vpk s
  | .shutdownS2 => Sys2Proof.Machine.execShutdownS2 s
  | .shutdownS3 => Sys2Proof.Machine.execShutdownS3 s
  | .shutdownS4 => Sys2Proof.Machine.execShutdownS4 s
  | .supplyFail => Sys2Proof.Machine.execSupplyFail s
  | .pwrMcfgWrite m v => Sys2Proof.Machine.execPwrMcfgWrite m v s
  | .pwrJhostWrite m v => Sys2Proof.Machine.execPwrJhostWrite m v s
  | .listenEnter m => Sys2Proof.Machine.execListenEnter m s
  | .tamperLatch => Sys2Proof.Machine.execTamperLatch s
  | .mainsLatch => Sys2Proof.Machine.execMainsLatch s
  | .kaAlarm => Sys2Proof.Machine.execKaAlarm s
  | .vkaLoss => Sys2Proof.Machine.execVkaLoss s
  | .hcpRead cmd a n => Sys2Proof.Machine.execHcpRead cmd a n s
  | .hcpWrite cmd a ws => Sys2Proof.Machine.execHcpWrite cmd a ws s
  | .hcpStatus cmd => Sys2Proof.Machine.execHcpStatus cmd s
  | .hcpAbort cmd => Sys2Proof.Machine.execHcpAbort cmd s
  | .hcpCsRise part => Sys2Proof.Machine.execHcpCsRise part s
  | .hcpReadComplete => Sys2Proof.Machine.execHcpReadComplete s
  | .hcpCfgWrite m v => Sys2Proof.Machine.execHcpCfgWrite m v s
  | .dramInit m => Sys2Proof.Machine.execDramInit m s
  | .dramInitDone ok => Sys2Proof.Machine.execDramInitDone ok s
  | .dramCfgWrite m v => Sys2Proof.Machine.execDramCfgWrite m v s
  | .inputPinChange j undone => Sys2Proof.Machine.execInputPinChange j undone s
  | .clkoutSlewAligned n => Sys2Proof.Machine.execClkoutSlewAligned n s

end Sys2Proof.Machine
end

