-- ==== Sys2Proof/WellFormed.lean ====
section
/-! DEFINITION. Which commands the outside can send: the sizes that the operand types do not say (R68, R265, R270, R317, R379, R541,
R599). `exec` is total and does not ask; a statement that needs a size takes it from here. -/

namespace Sys2Proof

/-- A burst has 1 to 16 beats (R68). -/
def reqOk : MatrixReq → Bool
  | .read _ => true
  | .write _ _ => true
  | .readBurst n => decide (1 ≤ n) && decide (n ≤ 16)
  | .writeBurst bs => decide (1 ≤ bs.length) && decide (bs.length ≤ 16)

/-- A published latency fits its field for every F (R41, R44). -/
def latOk (e : LatEntry) : Bool :=
  decide (e.a + 16 * (e.t + 3) < 2 ^ 28) && decide (e.src.toNat < 0x6C0) && decide (e.dst.toNat < 0x640)

/-- A frame has at least the 18 bytes of its header and its FCS (R379). -/
def frameOk (f : Frame) : Bool := decide (18 ≤ f.length)

/-- An Eztasia message has its header (R408). -/
def msgOk (m : List Byte) : Bool := decide (4 ≤ m.length)

/-- The command has operands that the outside can send. -/
def Instr.wf : Instr → Bool
  | .tickEdge ls => ls.all latOk
  | .tickStart _ => true
  | .tickStop _ => true
  | .tickCfgWrite _ _ => true
  | .registerWrite _ _ _ _ _ => true
  | .shadowApplyStopped => true
  | .memoryAccess _ _ r => reqOk r
  | .pairLowRead _ _ => true
  | .pairLowWrite _ _ _ => true
  | .pairHighWrite _ _ _ => true
  | .masterResetAbort _ _ r n => reqOk r && decide (n ≤ 16)
  | .laneWindowAccessResume => true
  | .galSlotmapWrite _ _ _ _ => true
  | .nop _ _ _ => true
  | .mac _ _ _ _ _ _ => true
  | .msu _ _ _ _ _ _ => true
  | .mpy _ _ _ _ _ _ => true
  | .mpyn _ _ _ _ _ _ => true
  | .opMov _ _ _ _ _ => true
  | .opAdd _ _ _ _ _ => true
  | .opSub _ _ _ _ _ => true
  | .opNeg _ _ _ _ _ => true
  | .opAbs _ _ _ _ _ => true
  | .opMax _ _ _ _ _ => true
  | .opMin _ _ _ _ _ => true
  | .cmp _ _ _ _ _ => true
  | .opAnd _ _ _ _ _ => true
  | .opOr _ _ _ _ _ => true
  | .opXor _ _ _ _ _ => true
  | .asr _ _ _ _ _ => true
  | .lsl _ _ _ _ _ => true
  | .lsr _ _ _ _ _ => true
  | .cvS _ _ _ _ _ _ => true
  | .cvQ _ _ _ _ _ _ => true
  | .cvC _ _ _ _ _ _ => true
  | .cvI _ _ _ _ _ _ => true
  | .lda _ _ _ _ _ => true
  | .clra _ _ _ _ => true
  | .adda _ _ _ _ _ => true
  | .suba _ _ _ _ _ => true
  | .tsta _ _ _ _ => true
  | .lx _ _ _ _ => true
  | .ly _ _ _ _ => true
  | .lxy _ _ _ _ _ _ => true
  | .sx _ _ _ => true
  | .sy _ _ _ => true
  | .jmp _ _ _ => true
  | .opCall _ _ _ => true
  | .opRet _ _ => true
  | .repImm _ _ _ => true
  | .repD _ _ _ => true
  | .waitTick _ => true
  | .ldi _ _ _ => true
  | .movaImm _ _ _ => true
  | .movmImm _ _ _ => true
  | .movlImm _ _ _ => true
  | .movaD _ _ _ => true
  | .movmD _ _ _ => true
  | .movlD _ _ _ => true
  | .movd _ _ _ => true
  | .gld _ _ _ _ _ => true
  | .gst _ _ _ _ _ => true
  | .qrd _ _ _ => true
  | .qwr _ _ _ => true
  | .gldDataReturn _ => true
  | .gstGrant _ => true
  | .qrdItemArrival _ => true
  | .laneHaltRequest _ _ => true
  | .laneHaltEnter _ => true
  | .laneResume _ _ => true
  | .laneStep _ _ => true
  | .laneFclr _ _ => true
  | .lanePcWrite _ _ _ => true
  | .laneFrameWrite _ _ _ => true
  | .eccLogCapture => true
  | .remapAdd _ _ => true
  | .remapApply => true
  | .journalWrite => true
  | .routeTblWrite _ _ _ => true
  | .routeOutWrite _ _ _ => true
  | .routeBusWrite _ _ _ => true
  | .routeWriteRelease => true
  | .rampMapWrite _ _ _ _ => true
  | .ropeMapWrite _ _ _ => true
  | .ropeMapApply => true
  | .ropeStrapChange _ _ => true
  | .ropesLive => true
  | .dlyTransferEnd _ => true
  | .dlyLineWrite _ _ _ => true
  | .dlyTapWrite _ _ _ => true
  | .gdmaJobStart _ => true
  | .gdmaJobComplete _ => true
  | .pdmClkWrite _ _ _ => true
  | .decMicWrite _ _ _ => true
  | .mutePeriodEnd _ => true
  | .fineOutput _ bits => decide (0 < bits.length)
  | .fastOutput _ bits _ => decide (bits.length = 16)
  | .trimUpdate => true
  | .trimSelectorWrite => true
  | .decIdZero _ => true
  | .decIdTimeWrite _ _ => true
  | .sapClkWrite _ _ _ => true
  | .sapCfgWrite _ _ _ _ => true
  | .sapRxFrame _ _ _ _ ws => decide (ws.length ≤ 32)
  | .sapTxFrame _ _ _ _ => true
  | .asrcBlockLate _ _ => true
  | .sapStartGo _ => true
  | .sapStartAtCmd _ => true
  | .sapStartApply => true
  | .senseFrame _ ws => decide (ws.length = 16)
  | .sensePtWrite _ _ _ => true
  | .carrierPeriod _ => true
  | .modStart _ _ => true
  | .modStop _ _ => true
  | .modFclr _ _ => true
  | .modChWrite _ _ _ => true
  | .diagStepEnd _ => true
  | .diagRailTimeout _ => true
  | .modGainSample _ => true
  | .railcmdFrame _ => true
  | .poolAlloc _ => true
  | .poolPush _ _ => true
  | .poolFree _ _ => true
  | .poolPop _ => true
  | .poolTrypop _ => true
  | .poolQwordWrite _ _ => true
  | .poolQwordRead _ => true
  | .poolWaitComplete _ => true
  | .poolStall _ => true
  | .poolQcfgWrite _ _ => true
  | .poolLportWrite _ _ _ => true
  | .ethRxFrame _ f _ => frameOk f
  | .ethTxStart _ => true
  | .ethTxDone _ => true
  | .gateWindowOpen => true
  | .gateWindowClose => true
  | .ethLink _ _ => true
  | .ethPcfgWrite _ _ _ => true
  | .ethPortStop _ => true
  | .ethGateWrite _ _ => true
  | .atCopyToEntry _ _ => true
  | .atCopyToStaging _ _ => true
  | .p4TxItem => true
  | .ethMgmtWrite _ _ => true
  | .mgmtRead => true
  | .mgmtWrite => true
  | .mgmtAccessComplete => true
  | .mgmtTimeout => true
  | .t1sRxFrame f _ => frameOk f
  | .t1sTxAttempt => true
  | .t1sCollision => true
  | .t1sBackoffEnd => true
  | .plcaBeacon => true
  | .plcaTransmitOpportunity => true
  | .t1sCfgWrite _ _ => true
  | .ezDiscover => true
  | .ezSet => true
  | .ezGet => true
  | .ezMute => true
  | .ezPoll => true
  | .ezAnnounce _ msg => msgOk msg
  | .ezAck _ msg => msgOk msg
  | .ezValue _ msg => msgOk msg
  | .ezStatus _ msg => msgOk msg
  | .ezFault _ msg => msgOk msg
  | .ezNak _ msg => msgOk msg
  | .ezTimeout _ => true
  | .ezDiscoverWindowEnd => true
  | .cltRxFrame _ f _ => frameOk f
  | .aes67RxPacket _ f _ => frameOk f
  | .aafRxPacket _ f _ => frameOk f
  | .cltEntryWrite _ _ _ _ => true
  | .cltTxFrame _ _ => true
  | .aes67TxPacket _ => true
  | .aafTxPacket _ => true
  | .ptpSync _ _ => true
  | .ptpFollowUp _ _ => true
  | .ptpAnnounce _ _ => true
  | .ptpDelayReq _ _ => true
  | .ptpDelayResp _ _ => true
  | .ptpPdelayReq _ _ => true
  | .ptpPdelayResp _ _ => true
  | .ptpPdelayRespFollowUp _ _ => true
  | .ptpManagementMsg _ => true
  | .ptpSyncTx _ => true
  | .ptpAnnounceTx _ => true
  | .ptpDelayReqTx _ => true
  | .ptpFollowUpTx _ => true
  | .ptpAnnounceTimeout _ => true
  | .ptpSyncLoss _ => true
  | .ptpGmQual => true
  | .ptpTimeRead _ => true
  | .ptpTimeCommit _ _ => true
  | .evtArm _ _ _ => true
  | .evtArmed _ => true
  | .evtDisarm _ _ _ => true
  | .evtPulse _ => true
  | .evtPulseEnd _ => true
  | .capEdge _ _ _ => true
  | .capHeadRead _ _ => true
  | .refEvaluate _ => true
  | .loopStepAdvance => true
  | .clkHoldExpired => true
  | .pllLock _ => true
  | .pllUnlock _ => true
  | .pllbPhaseSet => true
  | .clkForceFreerun _ => true
  | .clkReleaseFreerun _ => true
  | .clkoutRealign _ _ => true
  | .clkOutWrite _ _ _ => true
  | .clkPllaWrite _ _ => true
  | .pairLinkUp => true
  | .pairLinkDown => true
  | .siphonMark _ _ => true
  | .siphonRstreq _ => true
  | .siphonDigest _ _ => true
  | .siphonWrite _ _ => true
  | .siphonModstate _ _ _ => true
  | .siphonStamp _ _ => true
  | .siphonPatch f _ _ => frameOk f
  | .siphonLanestate _ _ => true
  | .siphonEngine _ _ => true
  | .siphonCopy _ _ => true
  | .formTimeout => true
  | .ownPinChange _ => true
  | .pairPreset _ => true
  | .pairHandover _ => true
  | .pairJoin _ => true
  | .pairJoinUpd _ => true
  | .pairCmdOut _ => true
  | .copyPassComplete => true
  | .pairPatchWrite _ _ => true
  | .spareLoadEnd _ => true
  | .galStsetWrite _ _ _ _ => true
  | .galCopyWrite _ _ _ => true
  | .sumpLog => true
  | .sumpScan => true
  | .sumpEvstatClear _ _ _ => true
  | .sumpExit _ => true
  | .sumpExitApply => true
  | .sumpHclr _ => true
  | .sumpEvcfgWrite _ _ _ => true
  | .sumpHistRead _ _ => true
  | .loaderStart hdr => decide (320 ≤ hdr.length)
  | .loaderDramTimeout => true
  | .stageComplete img => decide (img.length ≤ 16777216)
  | .recordEnd => true
  | .recordFill => true
  | .recordWrite => true
  | .recordWrite40 => true
  | .recordProg => true
  | .recordRoute => true
  | .recordMode => true
  | .recordLock => true
  | .strataArm _ => true
  | .armingComplete => true
  | .strataGo _ => true
  | .strataDisarm _ => true
  | .strataAtTrigger => true
  | .switchPlayComplete => true
  | .galleryReloadGo _ _ => true
  | .reloadPlayComplete => true
  | .porst => true
  | .resetNPulse _ => true
  | .sysSwrst _ _ => true
  | .sysWdogWrite _ _ => true
  | .wdogKick _ _ => true
  | .watchdogExpiry => true
  | .earlyMixStart => true
  | .earlyMixFadeEnd => true
  | .bootTickRestart _ => true
  | .inputFilterChange _ => true
  | .inStuck _ => true
  | .halfCycleEnd _ => true
  | .shutdownS2 => true
  | .shutdownS3 => true
  | .shutdownS4 => true
  | .supplyFail => true
  | .pwrMcfgWrite _ _ => true
  | .pwrJhostWrite _ _ => true
  | .listenEnter _ => true
  | .tamperLatch => true
  | .mainsLatch => true
  | .kaAlarm => true
  | .vkaLoss => true
  | .hcpRead _ _ n => decide (0 < n)
  | .hcpWrite _ _ ws => decide (0 < ws.length)
  | .hcpStatus _ => true
  | .hcpAbort _ => true
  | .hcpCsRise _ => true
  | .hcpReadComplete => true
  | .hcpCfgWrite _ _ => true
  | .dramInit _ => true
  | .dramInitDone _ => true
  | .dramCfgWrite _ _ => true
  | .inputPinChange _ _ => true
  | .clkoutSlewAligned _ => true

/-- A well-formed command. -/
abbrev Instr.WellFormed (i : Instr) : Prop := i.wf = true

end Sys2Proof
end

