-- ==== Sys2Proof/Safety.lean ====
section
/-! DEFINITION. The terms claims are stated in: when a write or a read gets through, the form every state of a run keeps, and what the
outside sees of the node. -/

namespace Sys2Proof.Machine

/-- A write of master `m` to address `a` reaches its register: the matrices stand neither in LISTEN nor without supplies (R586,
R589), and the chip is no standby that drops it (R498). -/
abbrev WriteReaches (m a : Nat) (s : State) : Prop := asleep s = false ∧ standbyDrops m a s = false

/-- The form of the state that every step keeps: every sparse map is sorted by key, and memory, lane slots and gallery DMAs list
nothing that equals what an unlisted key reads as, so that equal contents are equal data. -/
abbrev State.Canonical (s : State) : Prop :=
  smSortedAbove none s.regs = true ∧ smSortedAbove none s.live = true ∧ Memory.wf s.mem = true ∧
  smWf (fun _ => laneReset) s.lanes = true ∧ smWf (fun _ => gdmaReset) s.gdma = true

/-- The lane in slot `l` has come to the word `w`: it runs outside a step, no halt is requested or a loop holds it off, its program memory holds `w` at its pc, no codeword of the node
is in error, no pair store of the word falls in one bank, and an address follows the word. -/
structure LaneAtWord (l : LaneSlot) (w : LaneWord) (s : State) : Prop where
  runs : (laneAt s l).st = .run
  noStep : (laneAt s l).stepRet = none
  noHalt : haltHere (laneAt s l) l s = false
  code : decodeLane (word64 s (progAddr l (laneAt s l).pc)) = some w
  legal : laneLegal w = true
  clean : s.ecc.marks = []
  banks : ∀ cw, w = .compute cw → pairStoreBad (laneAt s l) cw = false
  form : s.Canonical
  next : (nextPc (laneAt s l).reps (laneAt s l).pc).2 < 4096

/-- The lane in slot `l` as an instruction that issues `n` positions after the one at hand in `s` reads it (R115, R116). -/
def readsAfter (s t : State) (l : LaneSlot) (n : Nat) : Lane := { laneAt t l with pos := (laneAt s l).pos + n }

/-- What the slot holds at its turn, in the state the instruction meets. -/
abbrev laneNow (s : State) (l : LaneSlot) : Lane := laneAt s l

/-- The command of an arithmetic operation. -/
def slotInstr (l : LaneSlot) (h : Half) (x : SlotCtx) : SlotOp → Instr
  | .nop => .nop l h x
  | .mac a c d => .mac l h a c d x
  | .msu a c d => .msu l h a c d x
  | .mpy a c d => .mpy l h a c d x
  | .mpyn a c d => .mpyn l h a c d x
  | .mov d r => .opMov l h d r x
  | .add d r => .opAdd l h d r x
  | .sub d r => .opSub l h d r x
  | .neg d r => .opNeg l h d r x
  | .abs d r => .opAbs l h d r x
  | .max d r => .opMax l h d r x
  | .min d r => .opMin l h d r x
  | .cmp d r => .cmp l h d r x
  | .and d r => .opAnd l h d r x
  | .or d r => .opOr l h d r x
  | .xor d r => .opXor l h d r x
  | .asr d n => .asr l h d n x
  | .lsl d n => .lsl l h d n x
  | .lsr d n => .lsr l h d n x
  | .cv .cvS d a rm => .cvS l h d a rm x
  | .cv .cvQ d a rm => .cvQ l h d a rm x
  | .cv .cvC d a rm => .cvC l h d a rm x
  | .cv .cvI d a rm => .cvI l h d a rm x
  | .lda a r => .lda l h a r x
  | .clra a => .clra l h a x
  | .adda a b => .adda l h a b x
  | .suba a b => .suba l h a b x
  | .tsta a => .tsta l h a x

/-- The command of a memory operation, where the word has one. -/
def memInstr (l : LaneSlot) (x : MemCtx) : MemOp → Option Instr
  | .none => none
  | .lx p d => some (.lx l p d x)
  | .ly p d => some (.ly l p d x)
  | .lxy px dx py dy => some (.lxy l px dx py dy x)
  | .sx src => some (.sx l src x)
  | .sy src => some (.sy l src x)

/-- The status bit of an event is set (R525). -/
abbrev EvSet (e : Ev) (s : State) : Prop := bitOf (R.SUMP_EVSTAT.val (evNum e / 32) s) (evNum e % 32) = true

/-- An item queue grants its next cell, `c`, from its home bank (R356–R359). -/
structure GrantsCell (q c : Nat) (s : State) : Prop where
  item : isItemQ (queueAt s q) = true
  whole : (queueAt s q).broken = false
  room : (queueAt s q).used < qResv (queueAt s q)
  bank : bankClosed s (qHome (queueAt s q) % 4) = false
  head : freeHead s (qHome (queueAt s q) % 4) = c
  some : c ≠ 0
  clean : s.ecc.marks = []

/-- The oldest item of an item queue is the single cell `c`, and requester `req` has no item in hand (R361). -/
structure HoldsItem (req q c : Nat) (s : State) : Prop where
  item : isItemQ (queueAt s q) = true
  whole : (queueAt s q).broken = false
  free : smFind s.pool.popped req = none
  head : (queueAt s q).head = c
  some : c ≠ 0
  cell : c < 65536
  depth : 0 < (queueAt s q).depth
  last : tagLast (tagOf s c) = true
  clean : s.ecc.marks = []

/-- A Coleel frame passes the checks of R426 for an entry with configuration `c`. -/
abbrev ColeelWellFormed (s : State) (c : StreamCfg) (f : Frame) : Prop :=
  let h := (coleelOf s c.kind f).getD []
  fieldBe h 0 1 = 1 ∧ fieldBe h 1 1 % 4 = c.wsz ∧ fieldBe h 21 1 = c.spp ∧ fieldBe h 22 2 = c.ch ∧
    fieldBe h 20 1 % max 1 c.spp = 0 ∧ fieldBe h 20 1 < spt s ∧
    fieldBe h 8 4 = (fieldBe h 12 8 * spt s / max 1 c.spp + fieldBe h 20 1 / max 1 c.spp) % 2 ^ 32 ∧
    (c.kind = 1 → ipSumOk (frPayload f) = true) ∧ 24 + c.ch * c.spp * (wszBits c.wsz / 8) ≤ h.length

/-- An AES67 packet passes the checks of R426. -/
abbrev AesWellFormed (c : StreamCfg) (f : Frame) : Prop :=
  let p := udpPayload (frPayload f)
  fieldBe p 0 1 / 64 = 2 ∧ p.length = 12 + c.ch * c.spp * (wszBits c.wsz / 8) ∧ ipSumOk (frPayload f) = true

/-- An AAF packet passes the checks of R426 and R437. -/
abbrev AafWellFormed (s : State) (c : StreamCfg) (f : Frame) : Prop :=
  let p := frPayload f
  let w := wszBits c.wsz
  fieldBe p 1 1 % 2 = 1 ∧ fieldBe p 22 1 / 16 % 2 = 0 ∧ fieldBe p 16 1 = aafFormat w ∧ fieldBe p 17 2 / 4096 = aafNsr s ∧
    fieldBe p 17 2 % 1024 = c.ch ∧ fieldBe p 19 1 = w ∧ fieldBe p 20 2 = c.ch * c.spp * (w / 8) ∧
    24 + c.ch * c.spp * (w / 8) ≤ p.length

/-- Samples whose first stands at position `q` are in time for their edge, are no duplicate, and fit the one cell that the buffer queue
grants (R428, R430, R431). -/
abbrev StreamPlaced (s : State) (e cell : Nat) (q : Int) : Prop :=
  let c := rxCfg s e
  0 ≤ q ∧ beforeEdge s (latchEdge s q) (netMargin s) = true ∧ 0 < c.ch * c.spp ∧ c.ch * c.spp ≤ 51 ∧
    smFind ((smFind (cltRxAt s e).buf (q.toNat / spt s + 1)).getD []) (q.toNat % spt s * c.ch) = none ∧
    GrantsCell (F.CLT_CFG_BUFQ.get 0 s) cell s

/-- The loader is free to play a well-formed record of type `ty` of the base layer, which stands at `a` in a layer that ends at `e`
(R544, R547). -/
structure PlaysNext (ty a e : Nat) (s : State) : Prop where
  base : s.strata.base = some (a, e)
  free : baseFree s = true
  type : recTy (memBytes s.mem a 8) = ty
  room : a + recSize (memBytes s.mem a 8) ≤ e
  whole : recOk s (memBytes s.mem a (recSize (memBytes s.mem a 8))) = true
  clean : s.ecc.marks = []

/-- A command of the loader, bit `b` of its register, has come to wait for the edge at which it is applied, beside those that wait for
others (R559). -/
abbrev CommandWaits (b : Nat) (s t : State) : Prop :=
  (∃ c ∈ t.strata.cmds, c.edge = some (cmdEdge s) ∧ bitOf c.bits b = true) ∧
  ∀ c ∈ s.strata.cmds, c.edge.isSome = true → c.edge ≠ some (cmdEdge s) → c ∈ t.strata.cmds

/-- The state after the loader, M0, has made accesses one after another. -/
def loaderDoes : List (Nat × Size × Nat) → State → State
  | [], s => s
  | x :: r, s =>
    match exec (.memoryAccess (.master 0) (BitVec.ofNat 32 x.1) (.write x.2.1 (BitVec.ofNat 64 x.2.2))) s with
    | .next t => loaderDoes r t
    | _ => s

/-- A node after reset, a second of the counter later, whose tick has been started at rate `fs` with 2^`f` samples a tick. -/
def startedAt (fs : Fin 6) (f : Fin 5) : State :=
  let cfg := fs.val + f.val * 2 ^ F.TICK_CFG_F.lo
  let s := (F.TICK_CTRL_RUN.set 0 1).run ((R.TICK_CFG.set 0 cfg).run State.reset)
  { s with now := 1200000000, clk := { s.clk with hold := false }, tick := { s.tick with cfg := cfg, starting := true } }

/-! ### Frames -/

/-- A component of the state beside the register words. -/
inductive Part where
  | now | elapsed | lock | live | shPend | bus | lanes | mem | ecc | tick | sump | route | rope | dly | gdma | dec | sap
  | mods | pool | eth | t1s | clt | ptp | clk | pair | strata | pwr | hcp | pins | pending | free
  deriving DecidableEq, Repr

/-- The component is the same in both states. -/
def Part.same (p : Part) (s t : State) : Prop :=
  match p with
  | .now => t.now = s.now
  | .elapsed => t.elapsed = s.elapsed
  | .lock => t.lock = s.lock
  | .live => t.live = s.live
  | .shPend => t.shPend = s.shPend
  | .bus => t.bus = s.bus
  | .lanes => t.lanes = s.lanes
  | .mem => t.mem = s.mem
  | .ecc => t.ecc = s.ecc
  | .tick => t.tick = s.tick
  | .sump => t.sump = s.sump
  | .route => t.route = s.route
  | .rope => t.rope = s.rope
  | .dly => t.dly = s.dly
  | .gdma => t.gdma = s.gdma
  | .dec => t.dec = s.dec
  | .sap => t.sap = s.sap
  | .mods => t.mods = s.mods
  | .pool => t.pool = s.pool
  | .eth => t.eth = s.eth
  | .t1s => t.t1s = s.t1s
  | .clt => t.clt = s.clt
  | .ptp => t.ptp = s.ptp
  | .clk => t.clk = s.clk
  | .pair => t.pair = s.pair
  | .strata => t.strata = s.strata
  | .pwr => t.pwr = s.pwr
  | .hcp => t.hcp = s.hcp
  | .pins => t.pins = s.pins
  | .pending => t.pending = s.pending
  | .free => t.free = s.free

/-- Some registers: every element, or one. -/
inductive Where where
  | all (r : Reg)
  | one (r : Reg) (i : Nat)

/-- A key of a register word belongs to them. -/
def Where.has : Where → Nat → Prop
  | .all r, k => ∃ i < dimsCount r.dims, ∃ w < r.words, ∃ m, k = r.key i w m
  | .one r i, k => ∃ w < r.words, ∃ m, k = r.key i w m

/-- What an event, a recorded error or the safe state may reach whatever the command: the Sump, the modulators, the ropes and what their
outputs send, the T1S segment and the pair (R71–R73, R88, R227, R525–R531), and the counter of free values, which is the model's own. -/
def noticeParts : List Part := [.sump, .mods, .rope, .sap, .t1s, .pair, .free]

/-- The registers in which they are reported. -/
def noticeRegs : List Where := [
  .all R.XBAR_DERR, .all R.XBAR_ACCERR, .all R.XBAR_CONFLICT, .all R.XBAR_CONFLICT_LAST, .all R.SUMP_STAT, .all R.SUMP_LOST,
  .all R.SUMP_EVSTAT, .all R.SUMP_EVCNT, .all R.MOD_STAT, .all R.RAIL_STAT, .all R.ROPE_STAT, .all R.PAIR_STAT, .all R.PAIR_HIST]

/-- From `s` to `t` nothing changes but the components `ps`, the registers `rs`, and what a report may reach. -/
def OnlyChanges (ps : List Part) (rs : List Where) (s t : State) : Prop :=
  (∀ p : Part, p ∉ ps ++ noticeParts → p.same s t) ∧
  ∀ k, (∀ x ∈ rs ++ noticeRegs, ¬ x.has k) → smFind t.regs k = smFind s.regs k

/-- What a register write reaches: its element, the bus, and the shadows that wait, with what its own rule adds. -/
def writes (r : Reg) (i : Nat) (ps : List Part := []) (rs : List Where := []) : Option (List Part × List Where) :=
  some (.bus :: .shPend :: ps, .one r i :: rs)

/-- What an effect reaches that stores no register by a write. -/
def touches (ps : List Part) (rs : List Where) : Option (List Part × List Where) := some (ps, rs)

/-- The registers in which codewords that are read report (R176, R179). -/
def eccRegs : List Where := [.all R.SYS_ECC_CELOST, .all R.SYS_ECC_UE, .all R.SYS_ECC_UECNT]

/-- The registers in which the pool and the codewords it reads report (R355–R374, R161). -/
def poolRegs : List Where := .all R.POOL_STAT :: .all R.POOL_WMSTAT :: .all R.POOL_ERR :: .all R.POOL_QHIGH :: eccRegs

/-- The registers in which an instruction of the lane in slot `l` reports (R129–R142). -/
def laneRegs (l : LaneSlot) : List Where :=
  .one R.LANE_STAT l :: .one R.LANE_CLIP l :: .one R.LANE_FAULT l :: .one R.GAL_FAULT (l / 17) :: poolRegs

/-- An instruction of the lane in slot `l`: its own lane, memory, what a queue instruction does to the pool, and the
grants its accesses leave at the matrices (R61, R66). -/
def laneReach (l : LaneSlot) : Option (List Part × List Where) := touches [.bus, .lanes, .mem, .ecc, .pool] (laneRegs l)

/-- Both registers of a direction that a converter block keeps (R296–R304). -/
def sapRegs : List Where := [
  .all R.SAP_STAT, .all R.SAP_PHASE, .all R.SAP_UNDCNT, .all R.SAP_UND_RX, .all R.SAP_UND_TX, .all R.SAP_RXSTAMP, .all R.SAP_TXSTAMP,
  .all R.SAP_RXRATIO, .all R.SAP_TXRATIO]

/-- The registers in which the counter of the time reports a step (R455, R480). -/
def stepRegs : List Where := [.all R.PTP_STEPCNT, .all R.CLK_ALIGNPEND, .all R.CLK_OUTMIS]

/-- The components and registers beyond a report that a command may change; none where no frame is claimed. -/
def reach (c : Instr) : Option (List Part × List Where) :=
  match c with
  -- lanes
  | .nop l _ _ | .mac l _ _ _ _ _ | .msu l _ _ _ _ _ | .mpy l _ _ _ _ _ | .mpyn l _ _ _ _ _ | .opMov l _ _ _ _ | .opAdd l _ _ _ _
  | .opSub l _ _ _ _ | .opNeg l _ _ _ _ | .opAbs l _ _ _ _ | .opMax l _ _ _ _ | .opMin l _ _ _ _ | .cmp l _ _ _ _ | .opAnd l _ _ _ _
  | .opOr l _ _ _ _ | .opXor l _ _ _ _ | .asr l _ _ _ _ | .lsl l _ _ _ _ | .lsr l _ _ _ _ | .cvS l _ _ _ _ _ | .cvQ l _ _ _ _ _
  | .cvC l _ _ _ _ _ | .cvI l _ _ _ _ _ | .lda l _ _ _ _ | .clra l _ _ _ | .adda l _ _ _ _ | .suba l _ _ _ _ | .tsta l _ _ _
  | .lx l _ _ _ | .ly l _ _ _ | .lxy l _ _ _ _ _ | .sx l _ _ | .sy l _ _ | .jmp l _ _ | .opCall l _ _ | .opRet l _ | .repImm l _ _
  | .repD l _ _ | .waitTick l | .ldi l _ _ | .movaImm l _ _ | .movmImm l _ _ | .movlImm l _ _ | .movaD l _ _ | .movmD l _ _
  | .movlD l _ _ | .movd l _ _ | .gld l _ _ _ _ | .gst l _ _ _ _ | .qrd l _ _ | .qwr l _ _ => laneReach l
  | .laneHaltRequest _ l | .laneResume _ l => touches [.bus, .lanes] [.one R.LANE_CTRL l]
  | .laneHaltEnter _ => touches [.lanes, .mem, .ecc] []
  | .laneFclr _ l => touches [.bus, .lanes] [.one R.LANE_FAULT l, .one R.GAL_FAULT (l / 17)]
  | .lanePcWrite _ _ _ => touches [.bus, .lanes] []
  | .laneFrameWrite _ l _ => writes R.LANE_FRAME l
  -- routing, delay, galleries
  | .galSlotmapWrite _ g j _ => writes R.GAL_SLOTMAP (4 * g + j)
  | .routeTblWrite _ _ _ => touches [.bus, .ecc, .route, .strata] []
  | .routeOutWrite _ j _ => writes R.ROUTE_OUT j [.strata]
  | .routeBusWrite _ j _ => writes R.ROUTE_BUS j [.strata]
  | .rampMapWrite _ g j _ => writes R.RAMP_MAP (4096 * g + j) [.route] [.one R.RAMP_STAT g]
  | .ropeMapWrite _ j _ => writes R.ROPE_MAP j
  | .ropeMapApply | .ropesLive => touches [] []
  | .ropeStrapChange _ _ => touches [.pins] [.all R.ROPE_STRAP]
  | .dlyTransferEnd _ => touches [.bus, .dly, .mem, .ecc] poolRegs
  | .dlyLineWrite _ j _ => writes R.DRAM_DLY_LINE j
  | .dlyTapWrite _ j _ => writes R.DRAM_DLY_TAP j
  | .galStsetWrite _ g j _ => writes R.GAL_STSET (16 * g + j)
  | .galCopyWrite _ g _ => writes R.GAL_COPY g
  -- repair
  | .remapAdd _ _ => writes R.SYS_REMAP_CMD 0 [.ecc] [.all R.SYS_REMAP_RES]
  | .journalWrite => touches [.mem, .ecc] (.all R.SYS_JRNL_SEQ :: .all R.SYS_JRNL_STAT :: eccRegs)
  -- microphones
  | .pdmClkWrite _ j _ => writes R.PDM_CLK j
  | .decMicWrite _ j _ => writes R.DEC_MIC j
  | .mutePeriodEnd _ => touches [.dec] [.all R.DEC_MUTED]
  | .fineOutput _ _ | .fastOutput _ _ _ => touches [.dec] [.all R.DEC_OVR]
  | .trimSelectorWrite => touches [.shPend, .dec] [.all R.GDMA_SEL]
  | .decIdZero _ => touches [.bus, .dec] []
  | .decIdTimeWrite _ _ => writes R.DEC_ID_TIME 0
  -- serial ports
  | .sapClkWrite _ n _ => writes R.SAP_CLK n
  | .sapCfgWrite _ n r _ =>
    writes (match r with | .rxcfg => R.SAP_RXCFG | .txcfg => R.SAP_TXCFG | .rxslot => R.SAP_RXSLOT | .txslot => R.SAP_TXSLOT) n
  | .sapRxFrame _ _ _ _ _ | .asrcBlockLate _ _ => touches [.sap] sapRegs
  | .sapTxFrame _ _ _ _ => touches [.sap] (.all R.ROUTE_OCLIP :: sapRegs)
  | .sapStartGo _ | .sapStartAtCmd _ | .sapStartApply => touches [.bus, .sap] [.all R.SAP_START_STAT]
  -- modulators
  | .senseFrame _ _ => touches [] [.all R.MOD_OCST, .all R.SENSE_BAD, .all R.SENSE_VAL]
  | .sensePtWrite _ j _ => writes R.SENSE_PT j
  | .carrierPeriod _ => touches [] [.all R.MOD_CLIPST]
  | .modStart _ _ | .modStop _ _ | .modFclr _ _ => touches [.bus] []
  | .modChWrite _ c _ => writes R.MOD_CH c
  | .diagStepEnd _ | .diagRailTimeout _ | .modGainSample _ | .railcmdFrame _ => touches [] []
  -- pool
  | .poolAlloc _ | .poolPush _ _ | .poolFree _ _ | .poolPop _ | .poolTrypop _ => touches [.bus, .ecc, .pool] poolRegs
  | .poolQwordWrite _ _ | .poolQwordRead _ => touches [.bus, .mem, .ecc, .pool] (.all R.POOL_QWORD :: poolRegs)
  | .poolQcfgWrite _ _ => touches [.bus, .pool] [.all R.POOL_QHIGH, .all R.POOL_STAT]
  | .poolStall _ => touches [.pool] []
  | .poolLportWrite _ j _ => writes R.POOL_LPORT j
  -- Ethernet and T1S
  | .ethPcfgWrite _ p _ => writes R.ETH_PCFG p [.eth]
  | .ethGateWrite _ _ => writes R.ETH_GATE 0
  | .ethMgmtWrite _ _ => writes R.ETH_MGMT 0
  | .ethTxStart _ => touches [.eth, .ptp, .ecc, .pool] (.all R.ETH_PCNT :: poolRegs)
  | .ethTxDone _ | .ethPortStop _ => touches [.eth, .ecc, .pool] (.all R.ETH_PCNT :: poolRegs)
  | .ethLink _ _ => touches [.eth, .ecc, .pool] (.all R.ETH_PCNT :: .all R.ETH_PSTAT :: poolRegs)
  | .gateWindowOpen => touches [.eth] []
  | .gateWindowClose => touches [.eth] [.all R.ETH_PCNT]
  | .atCopyToEntry _ _ | .atCopyToStaging _ _ => touches [.bus, .eth] [.all R.ETH_AT_ACT, .all R.ETH_AT_KEY, .all R.ETH_AT_MASK]
  | .t1sTxAttempt | .t1sCollision | .plcaTransmitOpportunity => touches [] [.all R.T1S_CNT]
  | .t1sBackoffEnd | .plcaBeacon | .ezPoll | .ezDiscoverWindowEnd => touches [] []
  | .ezDiscover | .ezSet | .ezGet | .ezMute => touches [.ecc, .pool] (.all R.EZ_CNT :: poolRegs)
  | .t1sCfgWrite _ _ => writes R.T1S_CFG 0
  -- streams
  | .cltEntryWrite _ r j _ => writes (cltReg r) j
  -- time and clocks
  | .ptpSync _ _ | .ptpFollowUp _ _ =>
    touches [.now, .ptp] ([.all R.PTP_OFS, .all R.PTP_PCNT, .all R.PTP_PSTAT, .all R.PTP_STAT] ++ stepRegs)
  | .ptpAnnounce _ _ => touches [.ptp] [.all R.PTP_GMID, .all R.PTP_PCNT, .all R.PTP_PSTAT, .all R.PTP_STAT]
  | .ptpDelayReq _ _ | .ptpPdelayReq _ _ | .ptpSyncTx _ | .ptpAnnounceTx _ | .ptpDelayReqTx _ | .ptpFollowUpTx _ =>
    touches [.eth, .ptp] [.all R.ETH_PCNT, .all R.PTP_PCNT]
  | .ptpDelayResp _ _ | .ptpPdelayResp _ _ | .ptpPdelayRespFollowUp _ _ => touches [.ptp] [.all R.PTP_MPD, .all R.PTP_PCNT]
  | .ptpManagementMsg _ => touches [] [.all R.PTP_PCNT]
  | .ptpAnnounceTimeout _ => touches [.ptp] [.all R.PTP_GMID, .all R.PTP_PSTAT, .all R.PTP_STAT]
  | .ptpSyncLoss _ => touches [.ptp] [.all R.PTP_PCNT, .all R.PTP_STAT]
  | .ptpGmQual => touches [] [.all R.PTP_STAT]
  | .ptpTimeRead _ | .capHeadRead _ _ => touches [.bus, .ptp] []
  | .ptpTimeCommit _ _ => touches [.bus, .now, .ptp] stepRegs
  | .evtArm _ e _ | .evtDisarm _ e _ => writes R.PTP_EVT_CTRL e [.ptp]
  | .evtArmed e | .evtPulse e | .evtPulseEnd e => touches [.ptp] [.one R.PTP_EVT_CTRL e]
  | .capEdge c _ _ => touches [.ptp] [.one R.PTP_CAP_OVF c]
  | .refEvaluate _ => touches [.clk]
    [.all R.CLK_HIST, .all R.CLK_HOLD_LEFT, .all R.CLK_PHERR, .all R.CLK_REFSTAT, .all R.CLK_STAT, .all R.CLK_Y]
  | .loopStepAdvance => touches [.clk] [.all R.CLK_HIST, .all R.CLK_STAT]
  | .clkHoldExpired => touches [.ptp] [.all R.CLK_HIST, .all R.CLK_STAT, .all R.PTP_STAT]
  | .pllLock _ => touches [.now, .clk]
    [.all R.CLK_HIST, .all R.CLK_STAT, .all R.CLK_Y, .all R.CLK_ALIGNPEND, .all R.CLK_OUTMIS, .all R.TICK_BUDGET, .all R.TICK_CYC,
      .all R.TICK_CYCFRAC]
  | .pllbPhaseSet => touches [.clk] []
  | .clkForceFreerun _ | .clkReleaseFreerun _ => writes R.CLK_CTRL 0 [.clk] [.all R.CLK_HIST, .all R.CLK_STAT, .all R.CLK_Y]
  | .clkoutRealign _ _ => touches [.bus] [.all R.CLK_ALIGNPEND, .all R.CLK_OUTMIS]
  | .clkoutSlewAligned _ => touches [] [.all R.CLK_ALIGNPEND, .all R.CLK_OUTMIS]
  | .clkOutWrite _ n _ => writes R.CLK_OUT n [.clk] [.all R.CLK_ALIGNPEND, .all R.CLK_OUTMIS]
  | .clkPllaWrite _ _ => writes R.CLK_PLLA 0 [.clk] [.all R.CLK_STAT]
  | .tickCfgWrite _ _ => writes R.TICK_CFG 0 [.clk, .tick] [.all R.CLK_STAT]
  | .tickStart _ | .tickStop _ => writes R.TICK_CTRL 0 [.clk, .dec, .lanes, .tick]
    [.all R.TICK_BUDGET, .all R.TICK_CYC, .all R.TICK_CYCFRAC, .all R.RAMP_STAT, .all R.CLK_ALIGNPEND, .all R.CLK_OUTMIS]
  -- the pair
  | .pairLinkUp | .pairLinkDown | .formTimeout | .ownPinChange _ => touches [] []
  | .siphonMark _ _ => touches [] [.all R.PAIR_CNT, .all R.PAIR_MATCH]
  | .siphonEngine _ _ | .siphonModstate _ _ _ => touches [] [.all R.PAIR_CNT]
  | .siphonDigest _ _ => touches [.clt] [.all R.PAIR_CNT]
  | .siphonStamp _ _ => touches [.sap] (.all R.PAIR_CNT :: sapRegs)
  | .siphonLanestate _ _ => touches [.bus, .lanes, .mem, .ecc] (.all R.PAIR_CNT :: eccRegs)
  | .pairPreset _ | .pairHandover _ | .pairJoin _ | .pairJoinUpd _ | .pairCmdOut _ => touches [.bus] [.all R.PAIR_MATCH]
  | .copyPassComplete => touches [] [.all R.PAIR_MATCH]
  | .pairPatchWrite _ _ => writes R.PAIR_PATCH 0
  -- the Sump
  | .sumpLog => touches [] [.all R.SUMP_HIST, .all R.SUMP_HIST_STAT]
  | .sumpHclr _ => touches [.bus] [.all R.SUMP_HIST, .all R.SUMP_HIST_STAT]
  | .sumpScan => touches [] []
  | .sumpEvstatClear _ _ _ | .sumpExit _ => touches [.bus] [.all R.SUMP_REFUSED]
  | .sumpExitApply => touches [] [.all R.SUMP_REFUSED]
  | .sumpEvcfgWrite _ j _ => writes R.SUMP_EVCFG j
  | .sumpHistRead _ _ => touches [.bus] []
  -- Strata
  | .strataArm _ | .strataGo _ | .strataDisarm _ => touches [.bus, .shPend, .strata] []
  | .armingComplete => touches [.shPend, .strata] [.all R.STRATA_SWSTAT]
  | .strataAtTrigger => touches [.strata] [.all R.STRATA_SWSTAT]
  | .galleryReloadGo _ _ => writes R.STRATA_GCMD 0 [.strata]
  | .reloadPlayComplete => touches [.strata] [.all R.STRATA_GSTAT]
  -- reset, power, host port, DRAM
  | .sysWdogWrite _ _ => writes R.SYS_WDOG 0 [.pwr]
  | .wdogKick _ _ => touches [.bus, .pwr] []
  | .inStuck _ => touches [] [.all R.PWR_INSTAT]
  | .inputPinChange _ _ => touches [.pwr] [.all R.PWR_INOVF]
  | .shutdownS2 => touches [.pwr] [.all R.PWR_STAT]
  | .shutdownS3 => touches [.mem, .ecc]
    ([.all R.PWR_STAT, .all R.SYS_JRNL_SEQ, .all R.SYS_JRNL_STAT, .all R.TICK_CTRL] ++ eccRegs)
  | .pwrJhostWrite _ _ => writes R.PWR_JHOST 0
  | .listenEnter _ => touches [.bus, .clk, .pwr, .eth, .ecc, .pool]
    ([.all R.CLK_STAT, .all R.DRAM_STAT, .all R.ETH_PCNT, .all R.ETH_PSTAT] ++ poolRegs)
  | .tamperLatch | .mainsLatch => touches [] [.all R.PWR_KALATCH]
  | .kaAlarm => touches [.pwr] [.all R.PWR_KACNT, .all R.PWR_KALATCH]
  | .vkaLoss => touches [.pwr] [.all R.PWR_KAALARM, .all R.PWR_KACFG, .all R.PWR_KACNT, .all R.PWR_KALATCH]
  | .hcpStatus _ => touches [.hcp] []
  | .hcpAbort _ => touches [.bus, .hcp, .pool] [.all R.HCP_STAT, .all R.XBAR_ABORT]
  | .dramInit _ => touches [.bus] [.all R.DRAM_STAT]
  | .dramCfgWrite _ _ => writes R.DRAM_CFG 0
  | _ => none

/-- A run is safe while no step stops. -/
def Runs (s : State) : Prop := ∃ t, step s = .next t

end Sys2Proof.Machine
end

