-- ==== Sys2Proof/Certificates/Slice0/Obligations.lean ====
section
/-! DEFINITION. The statements about the node, one `def Obligations.<Name> : Prop` each; OBLIGATIONS.json lists them. -/

open Sys2Proof Sys2Proof.Machine

/-! ### The step -/

/-- A step takes the command at the front of the queue and performs it on the state with the rest of the queue; what it answers is what
the command answers. -/
def Obligations.StepRunsFrontCommand : Prop :=
  ∀ (c : Instr) (rest : List Instr) (s : State), s.pending = c :: rest → step s = exec c { s with pending := rest }

/-- With no command waiting a step is one cycle: the node stands in an edge cycle that is due, and otherwise the counters count, the
system counter unless it is held and the keep-alive counter while its CLK is 1; no other register changes where that stands. This is the
model's choice (logs 36 and 102). -/
def Obligations.IdleStepCountsOneCycle : Prop :=
  ∀ s : State, s.pending = [] →
    (edgeDue s = true → s.clk.hold = false → step s = .next s) ∧
    (edgeDue s = false ∨ s.clk.hold = true → ∃ t, step s = .next t ∧ t.elapsed = s.elapsed + 1 ∧
      t.now = (if s.clk.hold then s.now else s.now + 1) ∧ t.live = s.live ∧ t.mem = s.mem ∧
      t.tick.cycle = (if running s then s.tick.cycle + 1 else s.tick.cycle) ∧
      (F.PWR_KACFG_CLK.on 0 s = false → t.regs = s.regs) ∧
      (F.PWR_KACFG_CLK.on 0 s = true → F.PWR_KACNT_COUNT.get 0 t =
        (F.PWR_KACNT_COUNT.get 0 s + (s.pwr.kaFrac + 32768) / (cclkMHz s * 1000000)) % 2 ^ 48))

/-- No command stops the node, and none touches the queue: every command answers a next state with the queue it was given. -/
def Obligations.EveryCommandGoesOn : Prop :=
  ∀ (c : Instr) (s : State), ∃ t, exec c s = .next t ∧ t.pending = s.pending

/-! ### The tick, its control and its edge -/

/-- A write of RUN 1 to a tick that stands starts it with the rate and F written last, and one to a running or started tick changes nothing
of it; a write of RUN 0 leaves it to the next edge; the edge that finds RUN 0 stops it, and every edge ends with the lanes released at cycle
2,048. `TICK_CFG` takes its fields while the tick stands, with nothing in force before the next start, and a write while it runs is dropped
and recorded. A shadow write that waits while the tick stands reaches its live value. From a reset node that has been started at 48 kHz
with four samples a tick, the first edge begins the tick that the counter gives, and the node runs. That the edge is one command that
ends at cycle 2,048 is the model's choice (log 69). -/
def Obligations.TickCommandsComplete : Prop :=
  (∀ (m : Master) (s : State), WriteReaches m (R.TICK_CTRL.addr 0) s → running s = false → s.tick.starting = false →
    ∃ t, exec (.tickStart m) s = .next t ∧ F.TICK_CTRL_RUN.get 0 t = 1 ∧ t.tick.starting = true ∧
      t.tick.cfg = R.TICK_CFG.val 0 s) ∧
  (∀ (m : Master) (s : State), WriteReaches m (R.TICK_CTRL.addr 0) s → running s = true ∨ s.tick.starting = true →
    ∃ t, exec (.tickStart m) s = .next t ∧ F.TICK_CTRL_RUN.get 0 t = 1 ∧ t.tick = s.tick ∧ running t = running s) ∧
  (∀ (m : Master) (s : State), WriteReaches m (R.TICK_CTRL.addr 0) s →
    ∃ t, exec (.tickStop m) s = .next t ∧ F.TICK_CTRL_RUN.get 0 t = 0 ∧ t.tick = s.tick ∧ running t = running s) ∧
  (∀ (m : Master) (v : Word) (s : State), WriteReaches m (R.TICK_CFG.addr 0) s → running s = false → s.lock = false →
    F.TICK_CFG_FS.of v.toNat < 6 → F.TICK_CFG_F.of v.toNat < 5 →
    ∃ t, exec (.tickCfgWrite m v) s = .next t ∧ F.TICK_CFG_FS.get 0 t = F.TICK_CFG_FS.of v.toNat ∧
      F.TICK_CFG_F.get 0 t = F.TICK_CFG_F.of v.toNat ∧ t.tick = s.tick) ∧
  (∀ (m : Master) (v : Word) (s : State), WriteReaches m (R.TICK_CFG.addr 0) s → running s = true →
    ∃ t, exec (.tickCfgWrite m v) s = .next t ∧ R.TICK_CFG.val 0 t = R.TICK_CFG.val 0 s ∧ t.tick = s.tick ∧
      F.XBAR_ACCERR_VALID.get 0 t = 1 ∧ F.XBAR_ACCERR_WR.get 0 t = 1 ∧ F.XBAR_ACCERR_MASTER.get 0 t = m ∧
      F.XBAR_ACCERR_REASON.get 0 t = 3 ∧ F.XBAR_ACCERR_ADDR.get 0 t = R.TICK_CFG.addr 0) ∧
  (∀ (w : ShWrite) (p : Place) (s : State), running s = false → s.shPend = [w] → w.held = false → w.late = false →
    s.strata.cmds = [] → s.mods.masks = [] → placeOf w.addr = some p → p.e.reg.name = .TICK_NETMARGIN ∨ p.e.reg.name = .GAL_SLICE ∨
      p.e.reg.name = .LANE_ENABLE ∨ p.e.reg.name = .ROUTE_POLICY ∨ p.e.reg.name = .LANE_FRAME ∨ p.e.reg.name = .DRAM_DLY_LINE →
    ∃ t, exec .shadowApplyStopped s = .next t ∧ t.shPend = [] ∧ p.e.reg.liveVal p.i t = p.e.reg.val p.i s) ∧
  (∀ (ls : List LatEntry) (s : State), running s = true ∨ s.tick.starting = true → s.clk.hold = false →
    ∃ t, exec (.tickEdge ls) s = .next t ∧ t.tick.cycle = 2048 ∧ (F.TICK_CTRL_RUN.on 0 t = false → running t = false)) ∧
  (∀ s : State, s = startedAt 1 2 →
    ∃ t, exec (.tickEdge []) s = .next t ∧ R.TICK_NUM.val 0 t = nextTick s ∧ running t = true ∧ t.tick.starting = false ∧
      t.tick.cycle = 2048 ∧ t.now = edgePos (nextTick s) s + 2048)

/-! ### The matrices -/

/-- The accesses of the matrices complete with their own effect: a register write acts by the access codes, memory takes whole 40-bit
words, the words of a pair are latched and buffered per master, a reset master's burst is recorded, an access that waited for its lane is
performed, and a slot map is stored. -/
def Obligations.BusCommandsComplete : Prop :=
  (∀ (m : Master) (v : W64) (tie : Bool) (s : State), WriteReaches m (R.XBAR_AGE.addr 0) s →
    (m.val = 1 → accessPends 1 s = false) → s.lock = false →
    ∃ t, exec (.registerWrite m (BitVec.ofNat 32 (R.XBAR_AGE.addr 0)) .b4 v tie) s = .next t ∧
      F.XBAR_AGE_LIMIT.get 0 t = v.toNat % 256) ∧
  (∀ (m : Master) (g : Fin 16) (w : Fin 262144) (v : W64) (s : State), WriteReaches m (galAddr g w) s →
    (m.val = 1 → accessPends 1 s = false) → Memory.wf s.mem = true →
    ∃ t, exec (.memoryAccess (.master m) (BitVec.ofNat 32 (galAddr g w)) (.write .b8 v)) s = .next t ∧
      word40 t (galAddr g w) = v.setWidth 40) ∧
  (∀ (m : Master) (s : State), asleep s = false → (m.val = 1 → accessPends 1 s = false) →
    ∃ t, exec (.pairLowRead m (BitVec.ofNat 32 (R.TICK_NUM.addr 0))) s = .next t ∧
      smFind t.bus.resp m = some ⟨[BitVec.ofNat 64 (R.TICK_NUM.val 0 s % 2 ^ 32)], false⟩ ∧
      latched t m (R.TICK_NUM.addr 0 + 4) = some (R.TICK_NUM.val 0 s / 2 ^ 32)) ∧
  (∀ (m : Master) (i : Fin 256) (v : Word) (s : State), WriteReaches m (R.ROUTE_POLICY.addr i) s →
    (m.val = 1 → accessPends 1 s = false) →
    ∃ t, exec (.pairLowWrite m (BitVec.ofNat 32 (R.ROUTE_POLICY.addr i)) v) s = .next t ∧
      buffered t m (R.ROUTE_POLICY.addr i) = some v.toNat ∧ R.ROUTE_POLICY.val i t = R.ROUTE_POLICY.val i s) ∧
  (∀ (m : Master) (i : Fin 256) (lo : Nat) (v : Word) (s : State), WriteReaches m (R.ROUTE_POLICY.addr i + 4) s →
    (m.val = 1 → accessPends 1 s = false) → buffered s m (R.ROUTE_POLICY.addr i) = some lo →
    ∃ t, exec (.pairHighWrite m (BitVec.ofNat 32 (R.ROUTE_POLICY.addr i + 4)) v) s = .next t ∧
      R.ROUTE_POLICY.val i t = lo + v.toNat * 2 ^ 32) ∧
  (∀ (m : Master) (a : Word) (r : MatrixReq) (n : Nat) (s : State), asleep s = false → 1 ≤ reqBeats r → reqBeats r ≤ 16 →
    ∃ t, exec (.masterResetAbort m a r n) s = .next t ∧ F.XBAR_ABORT_VALID.get 0 t = 1 ∧ F.XBAR_ABORT_MASTER.get 0 t = m ∧
      F.XBAR_ABORT_BEATS.get 0 t = min n (reqBeats r) ∧ F.XBAR_ABORT_ADDR.get 0 t = a.toNat) ∧
  (∀ (m : Master) (l : LaneSlot) (k : Fin 8192) (v : W64) (s : State), WriteReaches m (xyAddr l false k) s →
    s.bus.waiting = [⟨.master m, xyAddr l false k, .write .b8 v⟩] → s.bus.routeStall = [] → laneReleased s l = false →
    F.GAL_COPY_EN.liveOn (l / 17) s = false → Memory.wf s.mem = true →
    ∃ t, exec .laneWindowAccessResume s = .next t ∧ t.bus.waiting = [] ∧ word40 t (xyAddr l false k) = v.setWidth 40) ∧
  (∀ (m : Master) (g : Fin 16) (i : Fin 4) (v : Word) (s : State), WriteReaches m (R.GAL_SLOTMAP.addr (4 * g + i)) s →
    s.lock = false → (∀ b < 4, mapSlot v.toNat b ≤ 16) →
    (mapSlots ((List.range 4).map fun j => if j = i.val then v.toNat else R.GAL_SLOTMAP.val (4 * g + j) s)).Nodup →
    ∃ t, exec (.galSlotmapWrite m g i v) s = .next t ∧
      (∀ b < 4, mapSlot (R.GAL_SLOTMAP.val (4 * g + i) t) b = mapSlot v.toNat b ∧
        mapActive (R.GAL_SLOTMAP.val (4 * g + i) t) b = mapActive v.toNat b) ∧
      R.GAL_SLOTMAP.liveVal (4 * g + i) t = R.GAL_SLOTMAP.liveVal (4 * g + i) s)

/-- A 64-bit write of gallery memory ignores bits [63:40] and changes the five bytes of its word alone: every other byte of memory, every
register, every lane and every applied value stays. -/
def Obligations.GalleryWriteFrame : Prop :=
  ∀ (m : Master) (g : Fin 16) (w : Fin 262144) (v : W64) (s t : State), WriteReaches m (galAddr g w) s →
    (m.val = 1 → accessPends 1 s = false) → Memory.wf s.mem = true →
    exec (.memoryAccess (.master m) (BitVec.ofNat 32 (galAddr g w)) (.write .b8 v)) s = .next t →
    (∀ b, b < galAddr g w ∨ galAddr g w + 5 ≤ b → memGet t.mem b = memGet s.mem b) ∧
    t.regs = s.regs ∧ t.live = s.live ∧ t.lanes = s.lanes ∧ t.shPend = s.shPend ∧ t.sump = s.sump ∧ t.pool = s.pool ∧
    t.tick = s.tick ∧ t.route = s.route

/-- A 40-bit word in a 64-bit slot, of gallery memory or of a lane that is not released: it reads sign-extended from bit 39, a 64-bit write
ignores bits [63:40], a 32-bit write to the low half sets bits [31:0] and keeps bits [39:32], and one to the high half sets bits [39:32] from
data bits [7:0] and ignores the rest. -/
def Obligations.FortyBitSlots : Prop :=
  ∀ (m : Master) (a : Nat) (v : W64) (s : State), (∃ (g : Fin 16) (w : Fin 262144), a = galAddr g w) ∨
    (∃ (l : LaneSlot) (y : Bool) (k : Fin 8192), a = xyAddr l y k ∧ laneReleased s l = false) →
  WriteReaches m a s → (m.val = 1 → accessPends 1 s = false) → s.ecc.marks = [] → Memory.wf s.mem = true →
  (∃ t, exec (.memoryAccess (.master m) (BitVec.ofNat 32 a) (.read .b8)) s = .next t ∧
    smFind t.bus.resp m = some ⟨[(word40 s a).signExtend 64], false⟩ ∧ t.mem = s.mem ∧ t.regs = s.regs) ∧
  (∃ t, exec (.memoryAccess (.master m) (BitVec.ofNat 32 a) (.write .b8 v)) s = .next t ∧ word40 t a = v.setWidth 40) ∧
  (∃ t, exec (.memoryAccess (.master m) (BitVec.ofNat 32 a) (.write .b4 v)) s = .next t ∧
    word40 t a = (word40 s a &&& 0xFF00000000) ||| (v.setWidth 32).setWidth 40) ∧
  (∃ t, exec (.memoryAccess (.master m) (BitVec.ofNat 32 (a + 4)) (.write .b4 v)) s = .next t ∧
    word40 t a = (word40 s a &&& 0x00FFFFFFFF) ||| (v.setWidth 8).setWidth 40 <<< 32)

/-- A slot map write that names a slot above 16, or places two active lanes in one slot, is dropped with REASON 0b11 and leaves the slot
map as it was. -/
def Obligations.SlotmapCollisionDropped : Prop :=
  ∀ (m : Master) (g : Fin 16) (i : Fin 4) (v : Word) (s : State), WriteReaches m (R.GAL_SLOTMAP.addr (4 * g + i)) s →
    ((∃ b < 4, 16 < mapSlot v.toNat b) ∨
      ¬ (mapSlots ((List.range 4).map fun j => if j = i.val then v.toNat else R.GAL_SLOTMAP.val (4 * g + j) s)).Nodup) →
    ∃ t, exec (.galSlotmapWrite m g i v) s = .next t ∧ R.GAL_SLOTMAP.val (4 * g + i) t = R.GAL_SLOTMAP.val (4 * g + i) s ∧
      F.XBAR_ACCERR_REASON.get 0 t = 3 ∧ F.XBAR_ACCERR_MASTER.get 0 t = m ∧
      F.XBAR_ACCERR_ADDR.get 0 t = R.GAL_SLOTMAP.addr (4 * g + i)

/-- Every step keeps the form of the state: the maps stay sorted, and memory, lanes and gallery DMAs stay canonical. -/
def Obligations.CanonicalKept : Prop :=
  ∀ s t : State, s.Canonical → step s = .next t → t.Canonical

/-- The form holds after reset. -/
def Obligations.CanonicalAtReset : Prop := State.reset.Canonical

/-! ### Lane instructions -/

/-- The ALU operations on D registers, in either slot and beside any other slot, memory operation and address update: the result is the
saturated exact value, read first by the second instruction after. -/
def Obligations.LaneAluDComplete : Prop :=
  ∀ (l : LaneSlot) (h : Half) (d r : Fin 16) (n : Fin 32) (x : SlotCtx) (s : State),
  let L := laneNow s l
  let dst := sint (rdD L d)
  let src := sint (rdD L r)
  let gives (i : Instr) (v : W40) : Prop := ∃ t, exec i s = .next t ∧ rdD (readsAfter s t l 2) d = v
  (LaneAtWord l (slotWord h (.mov d r) x) s → gives (.opMov l h d r x) (rdD L r)) ∧
  (LaneAtWord l (slotWord h (.add d r) x) s → gives (.opAdd l h d r x) (BitVec.ofInt 40 (clamp40 (dst + src)))) ∧
  (LaneAtWord l (slotWord h (.sub d r) x) s → gives (.opSub l h d r x) (BitVec.ofInt 40 (clamp40 (dst - src)))) ∧
  (LaneAtWord l (slotWord h (.neg d r) x) s → gives (.opNeg l h d r x) (BitVec.ofInt 40 (clamp40 (-src)))) ∧
  (LaneAtWord l (slotWord h (.abs d r) x) s → gives (.opAbs l h d r x) (BitVec.ofInt 40 (clamp40 src.natAbs))) ∧
  (LaneAtWord l (slotWord h (.max d r) x) s → gives (.opMax l h d r x) (BitVec.ofInt 40 (max dst src))) ∧
  (LaneAtWord l (slotWord h (.min d r) x) s → gives (.opMin l h d r x) (BitVec.ofInt 40 (min dst src))) ∧
  (LaneAtWord l (slotWord h (.and d r) x) s → gives (.opAnd l h d r x) (rdD L d &&& rdD L r)) ∧
  (LaneAtWord l (slotWord h (.or d r) x) s → gives (.opOr l h d r x) (rdD L d ||| rdD L r)) ∧
  (LaneAtWord l (slotWord h (.xor d r) x) s → gives (.opXor l h d r x) (rdD L d ^^^ rdD L r)) ∧
  (LaneAtWord l (slotWord h (.asr d n) x) s → gives (.asr l h d n x) (BitVec.ofInt 40 (dst / 2 ^ n.val))) ∧
  (LaneAtWord l (slotWord h (.lsl d n) x) s → gives (.lsl l h d n x) (BitVec.ofNat 40 ((rdD L d).toNat * 2 ^ n.val))) ∧
  (LaneAtWord l (slotWord h (.lsr d n) x) s → gives (.lsr l h d n x) (BitVec.ofNat 40 ((rdD L d).toNat / 2 ^ n.val)))

/-- CMP and TSTA set Z and N for the second instruction after, from the exact difference and from the accumulator; slot 1 prevails where
both slots set flags. -/
def Obligations.LaneFlagsComplete : Prop :=
  ∀ (l : LaneSlot) (h : Half) (d r : Fin 16) (acc : Fin 4) (x : SlotCtx) (s : State), h = .s1 ∨ x.other = .nop →
  let L := laneNow s l
  (LaneAtWord l (slotWord h (.cmp d r) x) s → ∃ t, exec (.cmp l h d r x) s = .next t ∧
    rdFlags (readsAfter s t l 2) = (decide (sint (rdD L d) = sint (rdD L r)), decide (sint (rdD L d) < sint (rdD L r)))) ∧
  (LaneAtWord l (slotWord h (.tsta acc) x) s → ∃ t, exec (.tsta l h acc x) s = .next t ∧
    rdFlags (readsAfter s t l 2) = (decide (rdAcc L acc false = 0), decide (aint (rdAcc L acc false) < 0)))

/-- The multiply operations, where the other slot multiplies into another accumulator or not at all: the accumulator takes the exact
product modulo 2^88, a multiply-accumulate of the next instruction reads it, and every other reader from the third instruction on. -/
def Obligations.LaneMultiplyComplete : Prop :=
  ∀ (l : LaneSlot) (h : Half) (acc : Fin 4) (a b : Fin 16) (x : SlotCtx) (s : State), mulAcc x.other ≠ some acc →
  let L := laneNow s l
  let old := aint (rdAcc L acc true)
  let prod := sint (rdD L a) * sint (rdD L b)
  let gives (i : Instr) (v : Int) : Prop := ∃ t, exec i s = .next t ∧ rdAcc (readsAfter s t l 1) acc true = BitVec.ofInt 88 v ∧
    rdAcc (readsAfter s t l 3) acc false = BitVec.ofInt 88 v
  (LaneAtWord l (slotWord h (.mac acc a b) x) s → gives (.mac l h acc a b x) (old + prod)) ∧
  (LaneAtWord l (slotWord h (.msu acc a b) x) s → gives (.msu l h acc a b x) (old - prod)) ∧
  (LaneAtWord l (slotWord h (.mpy acc a b) x) s → gives (.mpy l h acc a b x) prod) ∧
  (LaneAtWord l (slotWord h (.mpyn acc a b) x) s → gives (.mpyn l h acc a b x) (-prod))

/-- Where both multiply slots of a word name one accumulator, slot 0 acts first and slot 1 second: MAC and MSU in both give the sum of both
products, as two successive updates would, and MPY or MPYN in slot 1 discards the product of slot 0. -/
def Obligations.LaneTwoProducts : Prop :=
  ∀ (l : LaneSlot) (acc : Fin 4) (o0 o1 : SlotOp) (mop : MemOp) (u0 u1 : AddrUpd) (s : State),
  LaneAtWord l (.compute ⟨o0, o1, mop, u0, u1⟩) s → mulAcc o0 = some acc → mulAcc o1 = some acc →
  let L := laneNow s l
  let after (v : Int) : SlotOp → Int
    | .mac _ x y => v + sint (rdD L x) * sint (rdD L y)
    | .msu _ x y => v - sint (rdD L x) * sint (rdD L y)
    | .mpy _ x y => sint (rdD L x) * sint (rdD L y)
    | .mpyn _ x y => -(sint (rdD L x) * sint (rdD L y))
    | _ => v
  ∃ t, exec (slotInstr l .s0 ⟨o1, mop, u0, u1⟩ o0) s = .next t ∧ exec (slotInstr l .s1 ⟨o0, mop, u0, u1⟩ o1) s = .next t ∧
    rdAcc (readsAfter s t l 1) acc true = BitVec.ofInt 88 (after (after (aint (rdAcc L acc true)) o0) o1)

/-- Conversions and the ALU operations on accumulators: a conversion shifts, rounds and saturates; a load places the word at bits [75:36];
sums wrap modulo 2^88. -/
def Obligations.LaneAccumulatorComplete : Prop :=
  ∀ (l : LaneSlot) (h : Half) (d : Fin 16) (acc src : Fin 4) (rm : Rounding) (x : SlotCtx) (s : State),
  let L := laneNow s l
  let a := aint (rdAcc L acc false)
  let conv (i : Instr) (n : Nat) : Prop := ∃ t, exec i s = .next t ∧
    rdD (readsAfter s t l 2) d = BitVec.ofInt 40 (clamp40 (roundShift rm n a))
  let gives (i : Instr) (v : W88) : Prop := ∃ t, exec i s = .next t ∧ rdAcc (readsAfter s t l 2) acc false = v
  (LaneAtWord l (slotWord h (.cv .cvS d acc rm) x) s → conv (.cvS l h d acc rm x) 36) ∧
  (LaneAtWord l (slotWord h (.cv .cvQ d acc rm) x) s → conv (.cvQ l h d acc rm x) 32) ∧
  (LaneAtWord l (slotWord h (.cv .cvC d acc rm) x) s → conv (.cvC l h d acc rm x) 36) ∧
  (LaneAtWord l (slotWord h (.cv .cvI d acc rm) x) s → conv (.cvI l h d acc rm x) 0) ∧
  (LaneAtWord l (slotWord h (.lda acc d) x) s → gives (.lda l h acc d x) (BitVec.ofInt 88 (sint (rdD L d) * 2 ^ 36))) ∧
  (LaneAtWord l (slotWord h (.clra acc) x) s → gives (.clra l h acc x) 0) ∧
  (LaneAtWord l (slotWord h (.adda acc src) x) s → gives (.adda l h acc src x) (rdAcc L acc false + rdAcc L src false)) ∧
  (LaneAtWord l (slotWord h (.suba acc src) x) s → gives (.suba l h acc src x) (rdAcc L acc false - rdAcc L src false))

/-- Loads and stores of the lane memories: a load's words are read first by the third instruction after; a store is in flight with its
address and value. -/
def Obligations.LaneMemoryComplete : Prop :=
  ∀ (l : LaneSlot) (p q : Bool) (d e r : Fin 16) (acc : Fin 4) (c : Conv) (rm : Rounding) (x : MemCtx) (s : State),
  let L := laneNow s l
  let xw (a : W18) : W40 := word40 s (xyAddr l false (a.toNat % 8192))
  let yw (a : W18) : W40 := word40 s (xyAddr l true (a.toNat % 8192))
  let a0 := rdA L x.u0.an
  let a1 := rdA L x.u1.an
  let p0 := partner a0 (rdLen L x.u0.an)
  let p1 := partner a1 (rdLen L x.u1.an)
  let st (y : Bool) (v : W40) : PendStore := ⟨y, a0.toNat % 8192, v, L.pos, none⟩
  let cvd := BitVec.ofInt 40 (clamp40 (roundShift rm (convShift c) (aint (rdAcc L acc false))))
  L.stores = [] →
  (LaneAtWord l (memWord (.lx p d) x) s → ∃ t, exec (.lx l p d x) s = .next t ∧ rdD (readsAfter s t l 3) d = xw a0 ∧
    (p = true → rdD (readsAfter s t l 3) (nextD d) = xw p0)) ∧
  (LaneAtWord l (memWord (.ly p d) x) s → ∃ t, exec (.ly l p d x) s = .next t ∧ rdD (readsAfter s t l 3) d = yw a1 ∧
    (p = true → rdD (readsAfter s t l 3) (nextD d) = yw p1)) ∧
  (LaneAtWord l (memWord (.lxy p d q e) x) s → ∃ t, exec (.lxy l p d q e x) s = .next t ∧
    rdD (readsAfter s t l 3) d = xw a0 ∧ rdD (readsAfter s t l 3) e = yw a1 ∧
    (p = true → rdD (readsAfter s t l 3) (nextD d) = xw p0) ∧ (q = true → rdD (readsAfter s t l 3) (nextD e) = yw p1)) ∧
  (LaneAtWord l (memWord (.sx (.reg r)) x) s → ∃ t, exec (.sx l (.reg r) x) s = .next t ∧
    (laneAt t l).stores = [st false (rdD L r)]) ∧
  (LaneAtWord l (memWord (.sx (.conv acc c rm)) x) s → ∃ t, exec (.sx l (.conv acc c rm) x) s = .next t ∧
    (laneAt t l).stores = [st false cvd]) ∧
  (LaneAtWord l (memWord (.sx (.pair r)) x) s → sameBank a0 p0 = false → ∃ t, exec (.sx l (.pair r) x) s = .next t ∧
    (laneAt t l).stores = [st false (rdD L r), ⟨false, p0.toNat % 8192, rdD L (nextD r), L.pos, none⟩]) ∧
  (LaneAtWord l (memWord (.sy (.reg r)) x) s → ∃ t, exec (.sy l (.reg r) x) s = .next t ∧
    (laneAt t l).stores = [st true (rdD L r)]) ∧
  (LaneAtWord l (memWord (.sy (.conv acc c rm)) x) s → ∃ t, exec (.sy l (.conv acc c rm) x) s = .next t ∧
    (laneAt t l).stores = [st true cvd]) ∧
  (LaneAtWord l (memWord (.sy (.pair r)) x) s → sameBank a0 p0 = false → ∃ t, exec (.sy l (.pair r) x) s = .next t ∧
    (laneAt t l).stores = [st true (rdD L r), ⟨true, p0.toNat % 8192, rdD L (nextD r), L.pos, none⟩])

/-- Control words: flow outside REP, with the cycles of R117, the loop stack, WAIT.TICK, and the moves, whose results the second
instruction after reads first. -/
def Obligations.LaneControlComplete : Prop :=
  ∀ (l : LaneSlot) (cc : Cond) (tg : Fin 4096) (n : Fin 65536) (kk : Fin 256) (d r : Fin 16) (v : W40) (w : W18) (s : State),
  let L := laneNow s l
  let taken := condHolds cc (rdFlags L).1 (rdFlags L).2
  (LaneAtWord l (.control (.jmp cc tg)) s → L.reps = [] → ∃ t, exec (.jmp l cc tg) s = .next t ∧
    (laneAt t l).pc = (if taken then tg.val else L.pc + 1) ∧ (laneAt t l).cyc = L.cyc + (if taken then 3 else 1)) ∧
  (LaneAtWord l (.control (.call cc tg)) s → L.reps = [] → L.rets.length < 8 → ∃ t, exec (.opCall l cc tg) s = .next t ∧
    (laneAt t l).pc = (if taken then tg.val else L.pc + 1) ∧
    (laneAt t l).rets = (if taken then L.rets ++ [L.pc + 1] else L.rets)) ∧
  (∀ a, LaneAtWord l (.control (.ret cc)) s → L.reps = [] → L.rets.getLast? = some a → a < 4096 →
    ∃ t, exec (.opRet l cc) s = .next t ∧ (laneAt t l).pc = (if taken then a else L.pc + 1) ∧
    (laneAt t l).rets = (if taken then L.rets.dropLast else L.rets)) ∧
  (LaneAtWord l (.control (.repImm n kk)) s → n ≠ 0 → L.reps = [] → ∃ t, exec (.repImm l n kk) s = .next t ∧
    (laneAt t l).reps = [⟨L.pc + 1, L.pc + kk.val + 1, n.val, false⟩] ∧ (laneAt t l).pc = L.pc + 1) ∧
  (LaneAtWord l (.control (.repD d kk)) s → (rdD L d).toNat % 65536 ≠ 0 → L.reps = [] → ∃ t, exec (.repD l d kk) s = .next t ∧
    (laneAt t l).reps = [⟨L.pc + 1, L.pc + kk.val + 1, (rdD L d).toNat % 65536, false⟩] ∧ (laneAt t l).pc = L.pc + 1) ∧
  (LaneAtWord l (.control .waitTick) s → L.reps = [] → ∃ t, exec (.waitTick l) s = .next t ∧ (laneAt t l).st = .wait ∧
    (laneAt t l).pc = L.pc + 1 ∧ (laneAt t l).stores = []) ∧
  (LaneAtWord l (.control (.ldi d v)) s → ∃ t, exec (.ldi l d v) s = .next t ∧ rdD (readsAfter s t l 2) d = v) ∧
  (LaneAtWord l (.control (.movaImm d w)) s → ∃ t, exec (.movaImm l d w) s = .next t ∧ rdA (readsAfter s t l 2) d = w) ∧
  (LaneAtWord l (.control (.movmImm d w)) s → ∃ t, exec (.movmImm l d w) s = .next t ∧ rdM (readsAfter s t l 2) d = w) ∧
  (LaneAtWord l (.control (.movlImm d w)) s → ∃ t, exec (.movlImm l d w) s = .next t ∧ rdLen (readsAfter s t l 2) d = w) ∧
  (LaneAtWord l (.control (.movaD d r)) s → ∃ t, exec (.movaD l d r) s = .next t ∧
    rdA (readsAfter s t l 2) d = (rdD L r).setWidth 18) ∧
  (LaneAtWord l (.control (.movmD d r)) s → ∃ t, exec (.movmD l d r) s = .next t ∧
    rdM (readsAfter s t l 2) d = (rdD L r).setWidth 18) ∧
  (LaneAtWord l (.control (.movlD d r)) s → ∃ t, exec (.movlD l d r) s = .next t ∧
    rdLen (readsAfter s t l 2) d = (rdD L r).setWidth 18) ∧
  (LaneAtWord l (.control (.movd d r)) s → ∃ t, exec (.movd l d r) s = .next t ∧
    rdD (readsAfter s t l 2) d = (rdA L r).setWidth 40)

/-- The accesses of gallery memory: the lane stalls until data return or the grant comes; then the register or the word holds the value. A
NOP changes nothing that an instruction after it reads. -/
def Obligations.LaneGalleryComplete : Prop :=
  ∀ (l : LaneSlot) (h : Half) (d n m : Fin 16) (en : Bool) (u0 u1 : AddrUpd) (s : State),
  let L := laneNow s l
  let ga := galAddr (l / 17) (rdA L n).toNat
  (LaneAtWord l (.control (.gld d n m en)) s → ∃ t, exec (.gld l d n m en) s = .next t ∧
    (laneAt t l).st = .stall ∧ (laneAt t l).cause = .gld ∧ (laneAt t l).pc = L.pc) ∧
  (LaneAtWord l (.control (.gst d n m en)) s → ∃ t, exec (.gst l d n m en) s = .next t ∧
    (laneAt t l).st = .stall ∧ (laneAt t l).cause = .gst ∧ (laneAt t l).pc = L.pc) ∧
  (L.st = .stall → L.cause = .gld → L.stepRet = none → haltHere L l s = false → s.ecc.marks = [] →
    decodeLane (word64 s (progAddr l L.pc)) = some (.control (.gld d n m en)) → (nextPc L.reps L.pc).2 < 4096 →
    ∃ t, exec (.gldDataReturn l) s = .next t ∧ (laneAt t l).st = .run ∧ rdD (readsAfter s t l 1) d = word40 s ga) ∧
  (L.st = .stall → L.cause = .gst → L.stepRet = none → haltHere L l s = false → Memory.wf s.mem = true →
    decodeLane (word64 s (progAddr l L.pc)) = some (.control (.gst d n m en)) → (nextPc L.reps L.pc).2 < 4096 →
    ∃ t, exec (.gstGrant l) s = .next t ∧ (laneAt t l).st = .run ∧ word40 t ga = rdD L d) ∧
  (LaneAtWord l (slotWord h .nop ⟨.nop, .none, u0, u1⟩) s → u0.en = false → u1.en = false →
    ∃ t, exec (.nop l h ⟨.nop, .none, u0, u1⟩) s = .next t ∧ (laneAt t l).pc = (nextPc L.reps L.pc).2 ∧
      (laneAt t l).cyc = L.cyc + 1 ∧ ∀ k, 1 ≤ k →
        (∀ i, rdD (readsAfter s t l k) i = rdD (readsAfter s s l k) i) ∧
        (∀ i b, rdAcc (readsAfter s t l k) i b = rdAcc (readsAfter s s l k) i b) ∧
        (∀ i, rdA (readsAfter s t l k) i = rdA (readsAfter s s l k) i) ∧ rdFlags (readsAfter s t l k) = rdFlags (readsAfter s s l k))

/-- The frame of every compute word, by the command of any of its operations, with no store in flight: no byte of memory, no other lane,
no applied value, nothing of the pool, the Sump, the tick or the matrices, and no register but `LANE_STAT` and `LANE_CLIP` of its own slot. -/
def Obligations.LaneComputeFrame : Prop :=
  ∀ (l : LaneSlot) (w : ComputeWord) (i : Instr) (s t : State), LaneAtWord l (.compute w) s → (laneNow s l).stores = [] →
  (i = slotInstr l .s0 ⟨w.slot1, w.mop, w.u0, w.u1⟩ w.slot0 ∨ i = slotInstr l .s1 ⟨w.slot0, w.mop, w.u0, w.u1⟩ w.slot1 ∨
    some i = memInstr l ⟨w.slot0, w.slot1, w.u0, w.u1⟩ w.mop) →
  exec i s = .next t →
  t.mem = s.mem ∧ t.live = s.live ∧ t.shPend = s.shPend ∧ t.pool = s.pool ∧ t.sump = s.sump ∧ t.tick = s.tick ∧ t.bus = s.bus ∧
  t.route = s.route ∧ (∀ k, k ≠ l.val → laneAt t k = laneAt s k) ∧
  (∀ a, a ≠ R.LANE_STAT.addr l → a ≠ R.LANE_CLIP.addr l → a ≠ R.LANE_CLIP.addr l + 4 → smFind t.regs a = smFind s.regs a)

/-- A word that is illegal by its encoding faults the lane that comes to it, with code 5: the lane enters FAULT, `LANE_FAULT` shows the
code and the address of the word, and the lane's stacks are empty. -/
def Obligations.LaneIllegalWordFaults : Prop :=
  ∀ (l : LaneSlot) (cc : Cond) (tg : Fin 4096) (s : State), (laneNow s l).st = .run → (laneNow s l).stepRet = none →
  haltHere (laneNow s l) l s = false → s.ecc.marks = [] → decodeLane (word64 s (progAddr l (laneNow s l).pc)) = none → (laneNow s l).pc < 4096 →
  ∃ t, exec (.jmp l cc tg) s = .next t ∧ (laneAt t l).st = .fault ∧ (laneAt t l).reps = [] ∧ (laneAt t l).rets = [] ∧
    F.LANE_FAULT_VALID.get l t = 1 ∧ F.LANE_FAULT_CODE.get l t = 5 ∧ F.LANE_FAULT_PC.get l t = (laneNow s l).pc

/-- Decoding a lane word is right about every bit the encoding has: the word of every legal instruction decodes to that instruction. -/
def Obligations.LaneWordRoundTrip : Prop :=
  ∀ w : LaneWord, laneLegal w = true → decodeLane (encodeLane w) = some w ∧ encodeLane w < 2 ^ 64

/-- A word of the lanes that decodes has no other meaning: it is the word of what it decodes to, and that instruction is legal. -/
def Obligations.LaneWordUnique : Prop :=
  ∀ (v : W64) (w : LaneWord), decodeLane v.toNat = some w → encodeLane w = v.toNat ∧ laneLegal w = true

/-- Words written out from the encoding of the chapter decode to the instructions they stand for: ADD D3, D5 in slot 0; MAC ACC1, D2, D7 in
slot 1; LX D4 with A2 += M3; SY of CV.S of ACC2 with A1; JMP.EQ 0x123; REP 16 over 2 words; WAIT.TICK; LDI D6; GLD D1; QWR port 9. -/
def Obligations.LaneWordsDecode : Prop :=
  let u : AddrUpd := ⟨false, 0, 0⟩
  decodeLane 0x2135000000000000 = some (.compute ⟨.add 3 5, .nop, .none, u, u⟩) ∧
  decodeLane 0x00000A4E00000000 = some (.compute ⟨.nop, .mac 1 2 7, .none, u, u⟩) ∧
  decodeLane 0x0000000022048C00 = some (.compute ⟨.nop, .nop, .lx false 4, ⟨true, 2, 3⟩, u⟩) ∧
  decodeLane 0x00000000A4104000 = some (.compute ⟨.nop, .nop, .sy (.conv 2 .cvS .rnd), ⟨false, 1, 0⟩, u⟩) ∧
  decodeLane 0x8120000000000123 = some (.control (.jmp .eq 0x123)) ∧
  decodeLane 0x8400001000000001 = some (.control (.repImm 16 1)) ∧
  decodeLane 0x8600000000000000 = some (.control .waitTick) ∧
  decodeLane 0x880600123456789A = some (.control (.ldi 6 0x123456789A#40)) ∧
  decodeLane 0x9001238000000000 = some (.control (.gld 1 2 3 true)) ∧
  decodeLane 0x9304000000000009 = some (.control (.qwr 9 4))

/-! ### Control of the lanes, their queue ports, and the pool -/

/-- The window commands of the lanes complete: HALT is requested, and entered with the stores written and the results in flight kept, a
resumed lane runs, a step executes one instruction to its end and returns to HALT, FCLR ends a fault, and the PC and the frame sizes take
what is written. -/
def Obligations.LaneWindowCommandsComplete : Prop :=
  ∀ (m : Master) (l : LaneSlot) (s : State),
  (WriteReaches m (R.LANE_CTRL.addr l) s → ∃ t, exec (.laneHaltRequest m l) s = .next t ∧ F.LANE_CTRL_HALT.get l t = 1 ∧
    laneAt t l = laneAt s l) ∧
  (F.LANE_CTRL_HALT.on l s = true → (laneAt s l).st = .run ∨ (laneAt s l).st = .stall → (laneAt s l).reps = [] →
    (laneAt s l).stepRet = none → ∃ t, exec (.laneHaltEnter l) s = .next t ∧ (laneAt t l).st = .halt ∧
    (laneAt t l).pc = (laneAt s l).pc ∧ (laneAt t l).results = (laneAt s l).results ∧
    (∀ x ∈ (laneAt t l).stores, x.old.isSome = true) ∧
    ∀ x, (laneAt s l).stores = [x] → x.old = none → Memory.wf s.mem = true → word40 t (xyAddr l x.y x.addr) = x.val) ∧
  (WriteReaches m (R.LANE_CTRL.addr l) s → (laneAt s l).st = .halt → ∃ t, exec (.laneResume m l) s = .next t ∧
    F.LANE_CTRL_HALT.get l t = 0 ∧ (laneAt t l).st = .run ∧ (laneAt t l).pc = (laneAt s l).pc) ∧
  (∀ d v, WriteReaches m (R.LANE_CTRL.addr l) s → (laneAt s l).st = .halt → (laneAt s l).reps = [] → s.ecc.marks = [] →
    (laneAt s l).stores = [] → decodeLane (word64 s (progAddr l (laneAt s l).pc)) = some (.control (.ldi d v)) →
    (laneAt s l).pc < 4095 → ∃ t, exec (.laneStep m l) s = .next t ∧ (laneAt t l).st = .halt ∧
    (laneAt t l).stepRet = none ∧ (laneAt t l).pc = (laneAt s l).pc + 1 ∧ rdD (readsAfter s t l 2) d = v) ∧
  (WriteReaches m (R.LANE_CTRL.addr l) s → laneIn s l = none → (laneAt s l).st = .fault → ∃ t, exec (.laneFclr m l) s = .next t ∧
    (laneAt t l).st = .idle ∧ F.LANE_FAULT_VALID.get l t = 0 ∧ bitOf (F.GAL_FAULT_SLOT.get (l / 17) t) (l % 17) = false) ∧
  (∀ v : Word, WriteReaches m (R.LANE_PC.addr l) s → laneReleased s l = false → (laneAt s l).st ≠ .fault →
    ∃ t, exec (.lanePcWrite m l v) s = .next t ∧ (laneAt t l).pc = v.toNat % 4096) ∧
  (∀ v : Word, WriteReaches m (R.LANE_FRAME.addr l) s → laneReleased s l = false → s.lock = false →
    F.LANE_FRAME_OUT_CH.of v.toNat ≤ 64 → F.LANE_FRAME_IN_CH.of v.toNat ≤ 256 →
    F.LANE_FRAME_IN_CH.of v.toNat * spt (rated s) ≤ 4096 → ∃ t, exec (.laneFrameWrite m l v) s = .next t ∧
    F.LANE_FRAME_OUT_CH.get l t = F.LANE_FRAME_OUT_CH.of v.toNat ∧ F.LANE_FRAME_IN_CH.get l t = F.LANE_FRAME_IN_CH.of v.toNat ∧
    R.LANE_FRAME.liveVal l t = R.LANE_FRAME.liveVal l s)

/-- QRD of a bound port takes the next word of its queue, at once or when the word arrives; QWR of a bound port appends to its queue. -/
def Obligations.LaneQueuePortsComplete : Prop :=
  ∀ (l : LaneSlot) (d p : Fin 16) (n q : Nat) (s : State), laneIn s l = some n → s.ecc.marks = [] → (laneNow s l).stores = [] →
  (queueAt s q).broken = false →
  (LaneAtWord l (.control (.qrd d p)) s → laneBound n p false s = some q → wordEmpty (queueAt s q) = false →
    ∃ t, exec (.qrd l d p) s = .next t ∧
      rdD (readsAfter s t l 1) d = word40 s (cellAddr (queueAt s q).head + 8 * (queueAt s q).rd)) ∧
  (LaneAtWord l (.control (.qrd d p)) s → laneBound n p false s = some q → wordEmpty (queueAt s q) = true →
    ∃ t, exec (.qrd l d p) s = .next t ∧ (laneAt t l).st = .stall ∧ (laneAt t l).cause = .qrd ∧
      (laneAt t l).pc = (laneNow s l).pc) ∧
  ((laneNow s l).st = .stall → (laneNow s l).cause = .qrd → (laneNow s l).stepRet = none →
    haltHere (laneNow s l) l s = false →
    decodeLane (word64 s (progAddr l (laneNow s l).pc)) = some (.control (.qrd d p)) →
    (nextPc (laneNow s l).reps (laneNow s l).pc).2 < 4096 → laneBound n p false s = some q → wordEmpty (queueAt s q) = false →
    ∃ t, exec (.qrdItemArrival l) s = .next t ∧ (laneAt t l).st = .run ∧
      rdD (readsAfter s t l 1) d = word40 s (cellAddr (queueAt s q).head + 8 * (queueAt s q).rd)) ∧
  (LaneAtWord l (.control (.qwr p d)) s → laneBound n p true s = some q → (queueAt s q).tail ≠ 0 → (queueAt s q).wr < 32 →
    ∃ t, exec (.qwr l p d) s = .next t ∧ (queueAt t q).wr = (queueAt s q).wr + 1 ∧
      word40 t (cellAddr (queueAt s q).tail + 8 * (queueAt s q).wr) = rdD (laneNow s l) d)

/-- The cell operations of the pool complete: an allocation grants the first free cell of the home bank to its requester, a free returns a
cell to its bank and releases the charge, a push of a whole item links it to its queue, and a pop hands the oldest item over. -/
def Obligations.PoolCellCommandsComplete : Prop :=
  ∀ (m : Master) (v : Word) (c q : Nat) (s : State), asleep s = false → s.ecc.marks = [] →
  (queueAt s q).broken = false →
  (F.POOL_SELQ_QUEUE.get 0 s m = q → isItemQ (queueAt s q) = true → (queueAt s q).used < qResv (queueAt s q) →
    bankClosed s (qHome (queueAt s q) % 4) = false → freeHead s (qHome (queueAt s q) % 4) = c → c ≠ 0 →
    ∃ t, exec (.poolAlloc m) s = .next t ∧ smFind t.bus.resp m = some ⟨[BitVec.ofNat 64 (2 ^ 31 + c)], false⟩ ∧
      tagHeld (tagOf t c) = true ∧ tagLnk (tagOf t c) = false ∧ tagOwner (tagOf t c) = m ∧
      (queueAt t q).used = (queueAt s q).used + 1 ∧ freeHead t (qHome (queueAt s q) % 4) = tagLink (tagOf s c)) ∧
  (WriteReaches m (R.POOL_FREE.addr 0) s → c = v.toNat % 65536 → tagHeld (tagOf s c) = true → tagLnk (tagOf s c) = false →
    tagOwner (tagOf s c) = m → tagLink (tagOf s c) = q →
    ∃ t, exec (.poolFree m v) s = .next t ∧ tagHeld (tagOf t c) = false ∧ tagLink (tagOf t c) = freeHead s (c / 16384) % 65536 ∧
      freeHead t (c / 16384) = c ∧ freeCells t (c / 16384) = freeCells s (c / 16384) + 1 ∧
      (queueAt t q).used = (queueAt s q).used - 1) ∧
  (WriteReaches m (R.POOL_PUSH.addr 0) s → c = v.toNat % 65536 → bitOf v.toNat 31 = true → tagHeld (tagOf s c) = true →
    tagLnk (tagOf s c) = false → tagOwner (tagOf s c) = m → tagLink (tagOf s c) % 4096 = q → smFind s.pool.opens m = none →
    (queueAt s q).head = 0 → (queueAt s q).tail = 0 →
    ∃ t, exec (.poolPush m v) s = .next t ∧ tagLnk (tagOf t c) = true ∧ tagLast (tagOf t c) = true ∧
      (queueAt t q).head = c ∧ (queueAt t q).tail = c ∧ (queueAt t q).depth = (queueAt s q).depth + 1) ∧
  (∀ tryPop : Bool, F.POOL_SELQ_QUEUE.get 0 s m = q → isItemQ (queueAt s q) = true → smFind s.pool.popped m = none →
    (queueAt s q).head = c → c ≠ 0 → 0 < (queueAt s q).depth → tagLast (tagOf s c) = true →
    ∃ t, exec (if tryPop then .poolTrypop m else .poolPop m) s = .next t ∧
      smFind t.bus.resp m = some ⟨[BitVec.ofNat 64 (2 ^ 31 + 2 ^ 30 + c)], false⟩ ∧
      tagLnk (tagOf t c) = false ∧ tagOwner (tagOf t c) = m ∧ (queueAt t q).depth = (queueAt s q).depth - 1)

/-- The word queue, the waiting reads and the configuration of the pool: a word is appended and read with its sign, a waiting read is
answered when a word has arrived, a wait past its limit raises POOL_STALL once, and a queue and a lane port are configured. -/
def Obligations.PoolQueueCommandsComplete : Prop :=
  ∀ (m : Master) (q : Nat) (s : State),
  let x := queueAt s q
  let w := word40 s (cellAddr x.head + 8 * x.rd)
  let low : Resp := ⟨[BitVec.ofNat 64 ((w.signExtend 64).toNat % 2 ^ 32)], false⟩
  (∀ v : W64, WriteReaches m (R.POOL_QWORD.addr 0) s → F.POOL_SELQ_QUEUE.get 0 s m = q → isWordQ x = true → x.broken = false →
    x.tail ≠ 0 → x.wr < 32 → Memory.wf s.mem = true → ∃ t, exec (.poolQwordWrite m v) s = .next t ∧ (queueAt t q).wr = x.wr + 1 ∧
    word40 t (cellAddr x.tail + 8 * x.wr) = v.setWidth 40) ∧
  (asleep s = false → F.POOL_SELQ_QUEUE.get 0 s m = q → isWordQ x = true → x.broken = false → wordEmpty x = false →
    s.ecc.marks = [] → ∃ t, exec (.poolQwordRead m) s = .next t ∧ smFind t.bus.resp m = some low ∧
    latched t m (R.POOL_QWORD.addr 0 + 4) = some ((w.signExtend 64).toNat / 2 ^ 32)) ∧
  (∀ (r : Requester) (p : PoolWait), s.pool.waits = [p] → p.req = reqId r → p.queue = q → p.word = true → x.broken = false →
    wordEmpty x = false → s.ecc.marks = [] → ∃ t, exec (.poolWaitComplete r) s = .next t ∧ t.pool.waits = [] ∧
    smFind t.bus.resp (reqId r) = some low) ∧
  (∀ (r : Requester) (p : PoolWait), s.pool.waits = [p] → p.req = reqId r → p.queue = q → p.raised = false →
    F.POOL_QCFG_STALL_LIM.of x.cfg.toNat ≠ 0 → p.since + 1024 * F.POOL_QCFG_STALL_LIM.of x.cfg.toNat ≤ s.elapsed →
    ∃ t, exec (.poolStall r) s = .next t ∧
    t.pool.waits = [{ p with raised := true }] ∧ EvSet .POOL_STALL t) ∧
  (∀ v : W64, WriteReaches m (R.POOL_QCFG.addr 0) s → F.POOL_QIDX_Q.get 0 s m = q → qEn x = false →
    F.POOL_QCFG_EN.of v.toNat = 1 → F.POOL_QCFG_RESV.of v.toNat ≠ 0 →
    F.POOL_QCFG_RESV.of v.toNat ≤ F.POOL_STAT_UNRES.get 0 s → ∃ t, exec (.poolQcfgWrite m v) s = .next t ∧
    qEn (queueAt t q) = true ∧ qResv (queueAt t q) = F.POOL_QCFG_RESV.of v.toNat ∧
    F.POOL_STAT_UNRES.get 0 t = F.POOL_STAT_UNRES.get 0 s - F.POOL_QCFG_RESV.of v.toNat) ∧
  (∀ (i : Fin 4096) (v : Word), WriteReaches m (R.POOL_LPORT.addr i) s → F.POOL_LPORT_EN.of v.toNat = 1 →
    F.POOL_LPORT_DIR.of v.toNat = 1 → isWordQ (queueAt s (F.POOL_LPORT_QUEUE.of v.toNat)) = true →
    ∃ t, exec (.poolLportWrite m i v) s = .next t ∧ F.POOL_LPORT_EN.get i t = 1 ∧
      F.POOL_LPORT_QUEUE.get i t = F.POOL_LPORT_QUEUE.of v.toNat)

/-! ### Memories, routing, delay lines and spare lanes -/

/-- The commands of the memories complete: the log takes the oldest report, a remap command waits and is performed, and a journal goes to
the next slot with the next sequence number. -/
def Obligations.MemoryCommandsComplete : Prop :=
  ∀ s : State,
  (∀ (r : CeReport) (rest : List CeReport), s.ecc.queue = r :: rest → (∀ i < 8, F.SYS_ECC_CELOG_VALID.on i s = false) →
    ∃ t, exec .eccLogCapture s = .next t ∧ t.ecc.queue = rest ∧ R.SYS_ECC_CELOG.val 0 t = ceEntry r ∧ EvSet .ECC_CE t) ∧
  (∀ (m : Master) (v : W64), WriteReaches m (R.SYS_REMAP_CMD.addr 0) s → F.SYS_REMAP_RES_BUSY.on 0 s = false →
    F.SYS_REMAP_CMD_ADD.of v.toNat = 1 → ∃ t, exec (.remapAdd m v) s = .next t ∧ F.SYS_REMAP_RES_BUSY.get 0 t = 1 ∧
    t.ecc.remapPend = some (F.SYS_REMAP_CMD_INST.of v.toNat, F.SYS_REMAP_CMD_ADDR.of v.toNat)) ∧
  (∀ inst addr n, running s = false → s.ecc.remapPend = some (inst, addr) → remapSize inst addr = some n →
    (∀ r ∈ s.ecc.remaps, r.inst = inst → r.addr ≠ addr) → remapFree s inst n ≠ 0 → s.ecc.marks = [] →
    ∃ t, exec .remapApply s = .next t ∧ t.ecc.remapPend = none ∧ t.ecc.remaps = s.ecc.remaps ++ [⟨inst, addr, false, []⟩] ∧
      F.SYS_REMAP_RES_BUSY.get 0 t = 0 ∧ F.SYS_REMAP_RES_CODE.get 0 t = 1 ∧ EvSet .ECC_REMAP t) ∧
  (F.SYS_JRNL_CFG_EN.on 0 s = true → passed s.ecc.jrnlAt (msCycles (max 10 (F.SYS_JRNL_CFG_INTERVAL.get 0 s)) s) s = true → Memory.wf s.mem = true → ∃ t, exec .journalWrite s = .next t ∧
    R.SYS_JRNL_SEQ.val 0 t = (R.SYS_JRNL_SEQ.val 0 s + 1) % 2 ^ 32 ∧
    F.SYS_JRNL_STAT_NEXT.get 0 t = (F.SYS_JRNL_STAT_NEXT.get 0 s + 1) % 64 ∧
    memLe t.mem (jrnlSlot (F.SYS_JRNL_STAT_NEXT.get 0 s)) 4 = (R.SYS_JRNL_SEQ.val 0 s + 1) % 2 ^ 32)

/-- The commands of the spare lanes complete: a load that ends gives S16 the configuration of the failed slot, and a state set range and a
gallery copy are stored. -/
def Obligations.SpareCommandsComplete : Prop :=
  ∀ (m : Master) (g i : Fin 16) (v : W64) (s : State),
  (∀ x : SpareLoad, smFind s.pair.spares g = some x → x.done = false → s.ecc.marks = [] →
    ∃ t, exec (.spareLoadEnd g) s = .next t ∧ smFind t.pair.spares g = some { x with done := true } ∧
      R.LANE_ENTRY.val (17 * g + 16) t = R.LANE_ENTRY.val x.slot s ∧
      R.LANE_FRAME.liveVal (17 * g + 16) t = R.LANE_FRAME.liveVal x.slot s ∧ laneAt t (17 * g + 16) = laneReset) ∧
  (WriteReaches m (R.GAL_STSET.addr (16 * g + i)) s → s.lock = false →
    F.GAL_STSET_XBASE.of v.toNat + F.GAL_STSET_XLEN.of v.toNat ≤ 8192 →
    F.GAL_STSET_YBASE.of v.toNat + F.GAL_STSET_YLEN.of v.toNat ≤ 8192 →
    F.GAL_STSET_XLEN.of v.toNat + F.GAL_STSET_YLEN.of v.toNat ≤ 2048 →
    ∃ t, exec (.galStsetWrite m g i v) s = .next t ∧ F.GAL_STSET_XBASE.get (16 * g + i) t = F.GAL_STSET_XBASE.of v.toNat ∧
      F.GAL_STSET_XLEN.get (16 * g + i) t = F.GAL_STSET_XLEN.of v.toNat ∧
      F.GAL_STSET_YBASE.get (16 * g + i) t = F.GAL_STSET_YBASE.of v.toNat ∧
      F.GAL_STSET_YLEN.get (16 * g + i) t = F.GAL_STSET_YLEN.of v.toNat) ∧
  (WriteReaches m (R.GAL_COPY.addr g) s → s.lock = false →
    (F.GAL_COPY_EN.of v.toNat = 1 → 4096 * F.GAL_COPY_BASE.of v.toNat + 2621440 ≤ dramSize s) →
    ∃ t, exec (.galCopyWrite m g v) s = .next t ∧ F.GAL_COPY_EN.get g t = F.GAL_COPY_EN.of v.toNat ∧
      F.GAL_COPY_BASE.get g t = F.GAL_COPY_BASE.of v.toNat ∧ R.GAL_COPY.liveVal g t = R.GAL_COPY.liveVal g s)

/-- The commands of routing, ramps and ropes complete: entries are stored, stalled writes are performed once E1 has ended, and the map of
the ropes reaches the pins. -/
def Obligations.RoutingCommandsComplete : Prop :=
  ∀ (m : Master) (v : Word) (s : State),
  (∀ i : Fin 8192, WriteReaches m (R.ROUTE_TBL.addr i) s → edgeDue s = false → srcBad v.toNat = false →
    ∃ t, exec (.routeTblWrite m i v) s = .next t ∧
      smGet (fun _ => 0) t.route.tbl (8192 * F.ROUTE_PAGE_PAGE.get 0 s m + i) = v &&& 0x80000FFF#32) ∧
  (∀ i : Fin 1600, WriteReaches m (R.ROUTE_OUT.addr i) s → edgeDue s = false → srcBad v.toNat = false →
    ∃ t, exec (.routeOutWrite m i v) s = .next t ∧ F.ROUTE_OUT_VALID.get i t = F.ROUTE_OUT_VALID.of v.toNat ∧
      F.ROUTE_OUT_SRC.get i t = F.ROUTE_OUT_SRC.of v.toNat) ∧
  (∀ i : Fin 2048, WriteReaches m (R.ROUTE_BUS.addr i) s → edgeDue s = false →
    ∃ t, exec (.routeBusWrite m i v) s = .next t ∧ F.ROUTE_BUS_VALID.get i t = F.ROUTE_BUS_VALID.of v.toNat ∧
      F.ROUTE_BUS_LANE.get i t = F.ROUTE_BUS_LANE.of v.toNat ∧ F.ROUTE_BUS_CH.get i t = F.ROUTE_BUS_CH.of v.toNat) ∧
  (∀ (i : Fin 2048) (w : W64), edgeDue s = false → s.bus.routeStall = [⟨.master m, R.ROUTE_BUS.addr i, .write .b4 w⟩] →
    ∃ t, exec .routeWriteRelease s = .next t ∧ t.bus.routeStall = [] ∧ F.ROUTE_BUS_VALID.get i t = F.ROUTE_BUS_VALID.of w.toNat ∧
      F.ROUTE_BUS_LANE.get i t = F.ROUTE_BUS_LANE.of w.toNat ∧ F.ROUTE_BUS_CH.get i t = F.ROUTE_BUS_CH.of w.toNat) ∧
  (∀ (g : Fin 16) (i : Fin 4096), WriteReaches m (R.RAMP_MAP.addr (4096 * g + i)) s → rampMap g s = [] →
    F.RAMP_MAP_EN.on (4096 * g + i) s = false → F.RAMP_MAP_DELIV.of v.toNat = 0 →
    ∃ t, exec (.rampMapWrite m g i v) s = .next t ∧ F.RAMP_MAP_EN.get (4096 * g + i) t = F.RAMP_MAP_EN.of v.toNat ∧
      F.RAMP_MAP_LANE.get (4096 * g + i) t = F.RAMP_MAP_LANE.of v.toNat ∧
      F.RAMP_MAP_ADDR.get (4096 * g + i) t = F.RAMP_MAP_ADDR.of v.toNat) ∧
  (∀ i : Fin 32, WriteReaches m (R.ROPE_MAP.addr i) s → ¬ (F.ROPE_MAP_CLK.of v.toNat = 1 ∧ F.ROPE_MAP_IN.of v.toNat = i) →
    ∃ t, exec (.ropeMapWrite m i v) s = .next t ∧ F.ROPE_MAP_EN.get i t = F.ROPE_MAP_EN.of v.toNat ∧
      F.ROPE_MAP_CLK.get i t = F.ROPE_MAP_CLK.of v.toNat ∧ F.ROPE_MAP_IN.get i t = F.ROPE_MAP_IN.of v.toNat) ∧
  (s.rope.pending = true → ∃ t, exec .ropeMapApply s = .next t ∧ t.rope.pending = false ∧
    ∀ o < 32, ropeForce t o = ropeWanted s o) ∧
  (∀ (sel : Fin 8) (hold : Bool), ∃ t, exec (.ropeStrapChange sel hold) s = .next t ∧ F.ROPE_STRAP_SEL.get 0 t = sel ∧
    F.ROPE_STRAP_HOLD.get 0 t = b2n hold ∧ (F.ROPE_STAT_STRAP_BAD.get 0 t = 1 ↔ 5 ≤ sel.val)) ∧
  (∃ t, exec .ropesLive s = .next t ∧ t.rope.live = true ∧
    (t.rope.pending = true ↔ ∃ o < 32, ropeWanted t o ≠ ropeForce t o))

/-- The commands of the delay engine and the gallery DMA complete: transfers end at their cycle, lines and taps are configured in their
shadows, a job starts from its descriptor and completes. -/
def Obligations.DelayCommandsComplete : Prop :=
  ∀ (m : Master) (v : W64) (s : State),
  (∀ cyc, s.dly.busy = true → ∃ t, exec (.dlyTransferEnd cyc) s = .next t ∧ t.dly.busy = false ∧ t.dly.doneAt = cyc % 2 ^ 19) ∧
  (∀ i : Fin 1024, WriteReaches m (R.DRAM_DLY_LINE.addr i) s →
    (F.DRAM_DLY_LINE_EN.of v.toNat = 1 → 0 < F.DRAM_DLY_LINE_GROUPS.of v.toNat ∧
      4096 * F.DRAM_DLY_LINE_BASE.of v.toNat + 40 * F.DRAM_DLY_LINE_GROUPS.of v.toNat ≤ dramSize s ∧
      F.DRAM_DLY_LINE_IN_ADDR.of v.toNat % 32 = 0 ∧ F.DRAM_DLY_LINE_IN_ADDR.of v.toNat ≤ 261088) →
    ∃ t, exec (.dlyLineWrite m i v) s = .next t ∧ F.DRAM_DLY_LINE_EN.get i t = F.DRAM_DLY_LINE_EN.of v.toNat ∧
      F.DRAM_DLY_LINE_GROUPS.get i t = F.DRAM_DLY_LINE_GROUPS.of v.toNat ∧
      F.DRAM_DLY_LINE_BASE.get i t = F.DRAM_DLY_LINE_BASE.of v.toNat ∧
      F.DRAM_DLY_LINE_GAL.get i t = F.DRAM_DLY_LINE_GAL.of v.toNat ∧
      R.DRAM_DLY_LINE.liveVal i t = R.DRAM_DLY_LINE.liveVal i s) ∧
  (∀ i : Fin 2048, WriteReaches m (R.DRAM_DLY_TAP.addr i) s →
    tapInRange s (F.DRAM_DLY_TAP_LINE.of v.toNat) (F.DRAM_DLY_TAP_DELAY.of v.toNat) = true →
    F.DRAM_DLY_TAP_OUT_ADDR.of v.toNat % 32 = 0 → F.DRAM_DLY_TAP_OUT_ADDR.of v.toNat ≤ 261088 →
    ∃ t, exec (.dlyTapWrite m i v) s = .next t ∧ F.DRAM_DLY_TAP_EN.get i t = F.DRAM_DLY_TAP_EN.of v.toNat ∧
      F.DRAM_DLY_TAP_LINE.get i t = F.DRAM_DLY_TAP_LINE.of v.toNat ∧
      F.DRAM_DLY_TAP_DELAY.get i t = F.DRAM_DLY_TAP_DELAY.of v.toNat ∧ R.DRAM_DLY_TAP.liveVal i t = R.DRAM_DLY_TAP.liveVal i s) ∧
  (∀ (g : Fin 16) (q : Nat) (c : Fin 65536), F.GDMA_CFG_EN.on g s = true → F.GDMA_CFG_QUEUE.get g s = q →
    (gdmaAt s g).job = none → isItemQ (queueAt s q) = true → (queueAt s q).broken = false →
    smFind s.pool.popped (dmaId g) = none → (queueAt s q).head = c → c.val ≠ 0 → 0 < (queueAt s q).depth →
    tagLast (tagOf s c) = true → s.ecc.marks = [] →
    let w (i : Nat) := memLe s.mem (cellAddr c + 4 * i) 4
    jobRegion s (w 0 / 8 * 8) (8 * (w 2 % 65536 + 1)) = true → w 1 % 2 ^ 18 + (w 2 % 65536 + 1) ≤ 261120 →
    ∃ t, exec (.gdmaJobStart g) s = .next t ∧ F.GDMA_STAT_BUSY.get g t = 1 ∧
      (gdmaAt t g).job = some ⟨c, w 0 / 8 * 8, bitOf (w 1) 31, w 1 % 2 ^ 18, w 2 % 65536 + 1, w 3, w 4, false⟩) ∧
  (∀ (g : Fin 16) (j : GdmaJob), (gdmaAt s g).job = some j → s.ecc.marks = [] →
    ∃ t, exec (.gdmaJobComplete g) s = .next t ∧ (gdmaAt t g).job = none ∧ F.GDMA_STAT_BUSY.get g t = 0 ∧
      F.GDMA_STAT_DONE.get g t = (F.GDMA_STAT_DONE.get g s + 1) % 65536 ∧ F.GDMA_TAG_TAG.get g t = j.tag % 2 ^ 32)

/-! ### Microphones, serial ports, sense points and modulators -/

/-- The commands of the microphones and the trim governor complete: clocks and filters are configured, a mute period ends, an output of
either path is the filtered value after GAIN clipped to full scale, with free rounding where it is no whole number, applied trims move
toward the bounded proposals, and a selector write is made. What the filter stages compute that R265 leaves open is an opaque function (log
16). -/
def Obligations.MicCommandsComplete : Prop :=
  ∀ (m : Master) (s : State),
  (∀ (i : Fin 16) (v : Word), WriteReaches m (R.PDM_CLK.addr i) s → 16 ≤ F.PDM_CLK_DIV.of v.toNat →
    F.PDM_CLK_DIV.of v.toNat ≤ 96 → 1024000 * F.PDM_CLK_DIV.of v.toNat ≤ fB s →
    ∃ t, exec (.pdmClkWrite m i v) s = .next t ∧ F.PDM_CLK_EN.get i t = F.PDM_CLK_EN.of v.toNat ∧
      F.PDM_CLK_DIV.get i t = F.PDM_CLK_DIV.of v.toNat ∧ R.PDM_CLK.liveVal i t = R.PDM_CLK.liveVal i s) ∧
  (∀ (i : Fin 64) (v : W64), WriteReaches m (R.DEC_MIC.addr i) s → F.DEC_MIC_ORDER.of v.toNat < 3 →
    F.DEC_MIC_RLOG.of v.toNat < 5 → F.DEC_MIC_H.of v.toNat < 3 →
    (F.DEC_MIC_FINE_EN.of v.toNat = 1 → fineOk (rated s) i v.toNat = true) →
    ∃ t, exec (.decMicWrite m i v) s = .next t ∧ F.DEC_MIC_FINE_EN.get i t = F.DEC_MIC_FINE_EN.of v.toNat ∧
      F.DEC_MIC_ORDER.get i t = F.DEC_MIC_ORDER.of v.toNat ∧ F.DEC_MIC_RLOG.get i t = F.DEC_MIC_RLOG.of v.toNat ∧
      F.DEC_MIC_H.get i t = F.DEC_MIC_H.of v.toNat ∧ R.DEC_MIC.liveVal i t = R.DEC_MIC.liveVal i s) ∧
  (∀ i : Fin 64, (micAt s i).mute = 1 → ∃ t, exec (.mutePeriodEnd i) s = .next t ∧ (micAt t i).mute = 0 ∧
    bitOf (R.DEC_MUTED.val 0 t) i = false) ∧
  (∀ (i : Fin 64) (bits : List Bool), s.clk.lockB = true → micClocked s i = true → F.DEC_MIC_FINE_EN.liveOn i s = true →
    fineOk s i (R.DEC_MIC.liveVal i s) = true → ∃ t, exec (.fineOutput i bits) s = .next t ∧
    (micAt t i).fineLast = micSample (fineRun (R.DEC_MIC.liveVal i s) (micAt s i) bits).2 (Config.freeNat s.free) ∧
    (micAt t i).fine = (fineRun (R.DEC_MIC.liveVal i s) (micAt s i) bits).1.fine) ∧
  (∀ (i : Fin 64) (bits : List Bool) (k : Fin 32), s.clk.lockB = true → micClocked s i = true →
    F.DEC_MIC_FAST_EN.liveOn i s = true → ∃ t, exec (.fastOutput i bits k) s = .next t ∧
    smFind (micAt t i).fastOut k =
      some (micSample (fastRun (R.DEC_MIC.liveVal i s) (micAt s i) bits).2 (Config.freeNat s.free)) ∧
    (micAt t i).fast = (fastRun (R.DEC_MIC.liveVal i s) (micAt s i) bits).1.fast) ∧
  (s.dec.trim.due = true → F.DEC_ID_CFG_MODE.get 0 s = 2 → ∃ t, exec .trimUpdate s = .next t ∧ t.dec.trim.due = false ∧
    t.dec.trim.clipped = [] ∧ ∀ (c : Fin 64) (b : Nat), F.DEC_ID_CH_EN.on c s = true → trimFrozen s c = false →
      b ≤ F.DEC_ID_CH_BANDS.get c s → F.DEC_ID_TRIM_TRIM.get (16 * c + b) t =
        ofInt 20 (trimMove (toInt 20 (F.DEC_ID_PROP_TRIM.get (16 * c + b) s)) (toInt 20 (F.DEC_ID_TRIM_TRIM.get (16 * c + b) s))
          (F.DEC_ID_LIMIT_BOUND.get 0 s) (F.DEC_ID_LIMIT_STEP.get 0 s))) ∧
  (∀ (k : Fin 256) (e : Nat), s.dec.trim.sel = [(k.val, e)] → e ≤ tickNum s → F.DEC_ID_CFG_MODE.get 0 s = 2 →
    ∃ t, exec .trimSelectorWrite s = .next t ∧ t.dec.trim.sel = [] ∧
      F.GDMA_SEL_BANK.get k t = 1 - F.GDMA_SEL_STAT_ACTIVE.get k s ∧
      F.GDMA_SEL_SHAPE.get k t = F.DEC_ID_CFG_SHAPE.get 0 s ∧ F.GDMA_SEL_FADE_T.get k t = F.DEC_ID_TIME_FADE_T.get 0 s) ∧
  (WriteReaches m (R.DEC_ID_CMD.addr 0) s → ∃ t, exec (.decIdZero m) s = .next t ∧ t.dec.trim.zero = true) ∧
  (∀ v : Word, WriteReaches m (R.DEC_ID_TIME.addr 0) s → s.lock = false → F.DEC_ID_TIME_COMP_T.of v.toNat ≠ 0 →
    F.DEC_ID_TIME_FADE_T.of v.toNat ≠ 0 →
    F.DEC_ID_TIME_COMP_T.of v.toNat + 1 + F.DEC_ID_TIME_FADE_T.of v.toNat ≤ F.DEC_ID_TIME_UPD_T.of v.toNat →
    ∃ t, exec (.decIdTimeWrite m v) s = .next t ∧ F.DEC_ID_TIME_COMP_T.get 0 t = F.DEC_ID_TIME_COMP_T.of v.toNat ∧
      F.DEC_ID_TIME_FADE_T.get 0 t = F.DEC_ID_TIME_FADE_T.of v.toNat ∧ F.DEC_ID_TIME_UPD_T.get 0 t = F.DEC_ID_TIME_UPD_T.of v.toNat)

/-- The commands of the serial ports complete: frame structure and channels are configured, frames join their block or go out, a converter
that misses a block acquires anew, and a common start is ordered and applied. -/
def Obligations.SerialCommandsComplete : Prop :=
  ∀ (m : Master) (n : Fin 32) (s : State),
  (∀ v : Word, WriteReaches m (R.SAP_CLK.addr n) s → F.SAP_CLK_FMT.of v.toNat < 3 → F.SAP_CLK_SLOTW.of v.toNat < 3 →
    2 ≤ slotCount v.toNat → (F.SAP_CLK_FMT.of v.toNat < 2 → slotCount v.toNat = 2) →
    (F.SAP_CLK_MST.of v.toNat = 1 → fB s / fsHz (rated s) % (2 * slotCount v.toNat * slotBits v.toNat) = 0) →
    ∃ t, exec (.sapClkWrite m n v) s = .next t ∧ F.SAP_CLK_MST.get n t = F.SAP_CLK_MST.of v.toNat ∧
      F.SAP_CLK_FMT.get n t = F.SAP_CLK_FMT.of v.toNat ∧ slotCount (R.SAP_CLK.val n t) = slotCount v.toNat ∧
      slotBits (R.SAP_CLK.val n t) = slotBits v.toNat ∧ R.SAP_CLK.liveVal n t = R.SAP_CLK.liveVal n s) ∧
  (∀ (tx : Bool) (v : Word), WriteReaches m ((if tx then R.SAP_TXSLOT else R.SAP_RXSLOT).addr n) s →
    F.SAP_RXCFG_BASE.of ((if tx then R.SAP_TXCFG else R.SAP_RXCFG).val n s) + bitsBelow v.toNat 32 ≤ 512 →
    ∃ t, exec (.sapCfgWrite m n (if tx then .txslot else .rxslot) v) s = .next t ∧
      (if tx then R.SAP_TXSLOT else R.SAP_RXSLOT).val n t = v.toNat) ∧
  (∀ (tx : Bool) (v : Word), WriteReaches m ((if tx then R.SAP_TXCFG else R.SAP_RXCFG).addr n) s →
    F.SAP_RXCFG_BASE.of v.toNat + bitsBelow ((if tx then R.SAP_TXSLOT else R.SAP_RXSLOT).val n s) 32 ≤ 512 →
    (tx = false → F.SAP_RXCFG_EN.of v.toNat = 1 → ∀ q < 32, q ≠ n.val → F.SAP_RXCFG_EN.on q s = true →
      chansOverlap (F.SAP_RXCFG_BASE.of v.toNat) (R.SAP_RXSLOT.val n s) (F.SAP_RXCFG_BASE.get q s) (R.SAP_RXSLOT.val q s) = false) →
    ∃ t, exec (.sapCfgWrite m n (if tx then .txcfg else .rxcfg) v) s = .next t ∧
      F.SAP_RXCFG_EN.of ((if tx then R.SAP_TXCFG else R.SAP_RXCFG).val n t) = F.SAP_RXCFG_EN.of v.toNat ∧
      F.SAP_RXCFG_BASE.of ((if tx then R.SAP_TXCFG else R.SAP_RXCFG).val n t) = F.SAP_RXCFG_BASE.of v.toNat) ∧
  (∀ (q : Nat) (th : Int) (ws : List W40), let v := sapClkVal s n 0
    sapClocked s n 0 = true → sapAsrc s n 0 = false → (sapAt s n 0).st = .run → (sapAt s n 0).block ≠ [] →
    (sapAt s n 0).block.length + 1 < spt s → ∃ t, exec (.sapRxFrame n q th (slotCount v * slotBits v) ws) s = .next t ∧
    (sapAt t n 0).next = (sapAt s n 0).next + 1 ∧ (sapAt t n 0).block = (sapAt s n 0).block ++
      [(List.range (slotCount v)).map fun b => fromWord (slotBits v) (ws.getD b 0).toNat]) ∧
  (∀ (q : Nat) (th : Int), let v := sapClkVal s n 1
    sapClocked s n 1 = true → sapAsrc s n 1 = false → (sapAt s n 1).st = .run → (sapAt s n 1).next % spt s ≠ 0 →
    ∃ t, exec (.sapTxFrame n q th (slotCount v * slotBits v)) s = .next t ∧ (sapAt t n 1).next = (sapAt s n 1).next + 1 ∧
      (sapAt t n 1).lastTx = txWords s n (sapAt s n 1).next false) ∧
  (∀ d : Dir, let k := match d with | .rx => 0 | .tx => 1
    sapAsrc s n k = true → (sapAt s n k).st = .locked → ∃ t, exec (.asrcBlockLate n d) s = .next t ∧
    (sapAt t n k).st = .acquire ∧ (sapAt t n k).good = 0 ∧ (sapAt t n k).block = []) ∧
  (WriteReaches m (R.SAP_START_CMD.addr 0) s → F.SAP_START_STAT_PEND.on 0 s = false →
    ∃ t, exec (.sapStartGo m) s = .next t ∧ F.SAP_START_STAT_PEND.get 0 t = 1 ∧ (edgeDue s = false → t.sap.startAt = none)) ∧
  (WriteReaches m (R.SAP_START_CMD.addr 0) s → F.SAP_START_STAT_PEND.on 0 s = false →
    2 ≤ (F.SAP_START_AT_AT.get 0 s + 2 ^ 32 - tickHere s % 2 ^ 32) % 2 ^ 32 →
    (F.SAP_START_AT_AT.get 0 s + 2 ^ 32 - tickHere s % 2 ^ 32) % 2 ^ 32 ≤ 2 ^ 31 →
    ∃ t, exec (.sapStartAtCmd m) s = .next t ∧ F.SAP_START_STAT_PEND.get 0 t = 1 ∧
      t.sap.startAt = some ((F.SAP_START_AT_AT.get 0 s + 2 ^ 32 - 1) % 2 ^ 32)) ∧
  (running s = false → F.SAP_START_STAT_PEND.on 0 s = true → s.sap.startAt = none →
    ∃ t, exec .sapStartApply s = .next t ∧ F.SAP_START_STAT_PEND.get 0 t = 0 ∧ t.sap.startEdge = true ∧
      (bitOf (R.SAP_START_RX.val 0 s) n = true → F.SAP_RXCFG_EN.of (sapCfg s n 0) = 1 → F.SAP_RXCFG_ARM.of (sapCfg s n 0) = 1 →
        sapRuns (sapAt s n 0).st = false → (sapAt t n 0).starting = true))

/-- The commands of the sense points complete: a frame gives each point its code and validity, and a point is configured. -/
def Obligations.SenseCommandsComplete : Prop :=
  ∀ s : State,
  (∀ (k : Fin 4) (ws : List Word), s.clk.lockB = true → bitOf (F.SENSE_CTRL_EN.get 0 s) k = true →
    ∃ t, exec (.senseFrame k ws) s = .next t ∧ ∀ i < 32,
      let c := if i % 2 = 0 then (ws.getD (i / 2) 0).toNat / 65536 else (ws.getD (i / 2) 0).toNat % 65536
      F.SENSE_VAL_CODE.get (32 * k + i) t = c ∧ (F.SENSE_VAL_VALID.get (32 * k + i) t = 1 ↔ c ≠ 0x8000)) ∧
  (∀ (m : Master) (i : Fin 128) (v : Word), WriteReaches m (R.SENSE_PT.addr i) s → F.SENSE_PT_KIND.of v.toNat < 3 →
    (F.SENSE_PT_EN.of v.toNat = 1 → (F.SENSE_PT_KIND.of v.toNat ≠ 0 → F.SENSE_PT_OWNER.of v.toNat ≤ 7) ∧
      ∀ q < 128, q ≠ i.val → F.SENSE_PT_EN.on q s = true → ¬ (F.SENSE_PT_KIND.get q s = F.SENSE_PT_KIND.of v.toNat ∧
        F.SENSE_PT_OWNER.get q s = F.SENSE_PT_OWNER.of v.toNat)) →
    ∃ t, exec (.sensePtWrite m i v) s = .next t ∧ F.SENSE_PT_EN.get i t = F.SENSE_PT_EN.of v.toNat ∧
      F.SENSE_PT_KIND.get i t = F.SENSE_PT_KIND.of v.toNat ∧ F.SENSE_PT_OWNER.get i t = F.SENSE_PT_OWNER.of v.toNat ∧
      F.SENSE_PT_SCALE.get i t = F.SENSE_PT_SCALE.of v.toNat)

/-- The commands of the modulators complete: start and stop masks wait for their edge, a cleared fault leaves a channel OFF, diagnostics
proceed, gains move by one sample, a carrier period of an idle channel has no pulse and no other exceeds MMAX, and a rail frame moves
its voltage toward the target and puts its word on the line in Manchester code. How R326 shapes the pulse edges is an opaque function of
the errors before (log 78). -/
def Obligations.ModulatorCommandsComplete : Prop :=
  ∀ (m : Master) (c : Fin 64) (mask v : W64) (s : State),
  (chanSt s c = 0 → (chanAt s c).ben = false → (chanAt s c).lowIn = 0 → (chanAt s c).dis = 0 →
    ∃ t, exec (.carrierPeriod c) s = .next t ∧ (chanAt t c).wa = 0 ∧ (chanAt t c).wb = 0 ∧ (chanAt t c).mNum = 0) ∧
  (chanSt s c = 4 → (chanAt s c).dis = 0 → ∃ t, exec (.carrierPeriod c) s = .next t ∧
    (chanAt t c).mNum.natAbs * 65536 ≤ F.MOD_CFG_MMAX.get 0 s * (chanAt t c).mDen) ∧
  (WriteReaches m (R.MOD_START.addr 0) s → ∃ t, exec (.modStart m mask) s = .next t ∧
    t.mods.masks = s.mods.masks ++ [⟨false, mask.toNat, inEdgeCycle s, nextSeq s⟩]) ∧
  (WriteReaches m (R.MOD_STOP.addr 0) s → ∃ t, exec (.modStop m mask) s = .next t ∧
    t.mods.masks = s.mods.masks ++ [⟨true, mask.toNat, inEdgeCycle s, nextSeq s⟩]) ∧
  (WriteReaches m (R.MOD_FCLR.addr 0) s → bitOf mask.toNat c = true → chanSt s c = 7 → modFollows s = false →
    causePresent s c = false →
    ∃ t, exec (.modFclr m mask) s = .next t ∧ chanSt t c = 0 ∧ F.MOD_STAT_FCAUSE.get c t = 0) ∧
  (WriteReaches m (R.MOD_CH.addr c) s → chanActive s c = false ∨ (F.MOD_CH_GROUP.of v.toNat = F.MOD_CH_GROUP.get c s ∧
      F.MOD_CH_PHASE.of v.toNat = F.MOD_CH_PHASE.get c s) →
    ∃ t, exec (.modChWrite m c v) s = .next t ∧ F.MOD_CH_GROUP.get c t = F.MOD_CH_GROUP.of v.toNat ∧
      F.MOD_CH_PHASE.get c t = F.MOD_CH_PHASE.of v.toNat ∧ F.MOD_CH_VFS.get c t = F.MOD_CH_VFS.of v.toNat ∧
      F.MOD_CH_IMAX.get c t = F.MOD_CH_IMAX.of v.toNat ∧ R.MOD_CH.liveVal c t = R.MOD_CH.liveVal c s) ∧
  (chanSt s c = 1 → modFollows s = false → (chanAt s c).step = some .s → (chanAt s c).stepLeft = 0 →
    ∃ t, exec (.diagStepEnd c) s = .next t ∧
    (chanAt t c).step = some .d1 ∧ (chanAt t c).stepLeft = stepTicks s .d1) ∧
  (chanSt s c = 1 → modFollows s = false → (chanAt s c).step = some .e → (chanAt s c).stepLeft = 0 →
    ∃ t, exec (.diagStepEnd c) s = .next t ∧
    chanSt t c = 2 ∧ F.MOD_STAT_DIAG.get c t = 1) ∧
  (∀ g : Fin 8, (railAt s g).diagWait = true → passed (railAt s g).diagAt (msCycles 50 s) s = true → modFollows s = false → chanGroup s c = g → chanSt s c = 1 →
    (chanAt s c).queued = true → ∃ t, exec (.diagRailTimeout g) s = .next t ∧ (railAt t g).diagWait = false ∧ chanSt t c = 7 ∧
    F.MOD_STAT_DIAG.get c t = 6) ∧
  (chanSt s c = 4 → ∃ t, exec (.modGainSample c) s = .next t ∧
    ((chanAt t c).gNum, (chanAt t c).gDen) = gainStep (chanAt s c).gNum (chanAt s c).gDen (!modMuted s)
      (F.MOD_RAMP_URAMP.live 0 s + 1) (F.MOD_RAMP_DRAMP.live 0 s + 1)) ∧
  (∀ g : Fin 8, F.RAIL_GCFG_EN.liveOn g s = true → modFollows s = false → railRow s g = 3 →
    let v := F.RAIL_STAT_VCMD.get g s
    let tgt := F.RAIL_GV2_VPARK.live g s
    let new := if v < tgt then min tgt (v + max 1 (F.RAIL_GCFG_RISE.live g s)) else max tgt (v - max 1 (F.RAIL_GCFG_FALL.live g s))
    ∃ t, exec (.railcmdFrame g) s = .next t ∧ F.RAIL_STAT_STATE.get g t = 3 ∧ F.RAIL_STAT_TARGET.get g t = tgt ∧
      F.RAIL_STAT_VCMD.get g t = new ∧ (F.RAIL_STAT_DONE.get g t = 1 ↔ new = tgt) ∧ (railAt t g).frame = railFrame g 1 new ∧
      (railAt t g).line = manchester (railFrame g 1 new))

/-! ### Ethernet, the management agent, 10BASE-T1S and Eztasia -/

/-- The commands of the Ethernet ports and the switch complete: frames are received, started and sent, the audio window opens and closes,
links change, ports stop, and the address table is written and read through its staging registers. A message of PTP takes its egress time as
it leaves, which completes it or is kept for its follow-up. In the safe state a stream frame that waits stays queued (log 106). -/
def Obligations.EthernetCommandsComplete : Prop :=
  ∀ (m : Master) (p : Port) (s : State),
  (∀ (f : Frame) (ts : W64) (c v : Nat), s.pwr.vdd = true → s.pwr.listen = false → F.ETH_PCFG_EN.on p s = true → linkUp s p = true →
    GrantsCell (F.ETH_PQ_RXQ.get p s) c s → 64 ≤ f.length → f.length ≤ 240 →
    f.length ≤ maxLenAt s (frameStart s p f.length) → fcsOk f = true → frType f ≠ 0x8808 →
    vlanOf s (frVlan f (F.ETH_PCFG_PVID.get p s) (F.ETH_PCFG_PCP.get p s)).1 = some v →
    bitOf (F.ETH_VLAN_MEMBER.get v s) p = true →
    ∃ t, exec (.ethRxFrame p f ts) s = .next t ∧
      F.ETH_PCNT_COUNT.get (9 * p) t = satInc 32 (F.ETH_PCNT_COUNT.get (9 * p) s) 1) ∧
  (∀ i rest y f, F.ETH_PCFG_EN.on p s = true → linkUp s p = true → (portAt s p).sending = none → asleep s = false →
    F.ETH_SWCFG_GATE_EN.on 0 s = false → (portAt s p).q3 = i :: rest → itemAt s i = some y → (inSafe s = false ∨ y.stream = false) →
    s.ecc.marks = [] → egressBytes s p y (itemBytes s y) = some f → ∃ t, exec (.ethTxStart p) s = .next t ∧ (portAt t p).sending = some i ∧
    (portAt t p).lastTx = (match y.event with | some x => if x.oneStep then oneStepInsert x (egressQ s p) f else f | none => f) ∧
    (portAt t p).stamp = egressQ s p ∧ (portAt t p).q3 = rest.filter (· ≠ i) ∧
    (∀ x, y.event = some x → x.ty = 1 ∨ x.ty = 2 → (ptpAt t p).req = some (x.seq, egressQ s p)) ∧
    (∀ x, y.event = some x → x.ty = 0 ∨ x.ty = 3 → x.oneStep = false →
      (ptpAt t p).follow = (ptpAt s p).follow ++ [(x.ty == 3, x.seq, egressQ s p, x.req)])) ∧
  (∀ i rest, F.ETH_PCFG_EN.on p s = true → linkUp s p = true → (portAt s p).sending = none → asleep s = false →
    F.ETH_SWCFG_GATE_EN.on 0 s = false → inSafe s = true → (portAt s p).q3 = i :: rest → (portAt s p).q2 = [] → (portAt s p).q1 = [] →
    (portAt s p).q0 = [] → (∀ j ∈ i :: rest, ∃ y, itemAt s j = some y ∧ y.stream = true) →
    ∃ t, exec (.ethTxStart p) s = .next t ∧ (portAt t p).sending = none ∧ (portAt t p).q3 = i :: rest) ∧
  (∀ i, (portAt s p).sending = some i → ∃ t, exec (.ethTxDone p) s = .next t ∧ (portAt t p).sending = none ∧
    F.ETH_PCNT_COUNT.get (9 * p + 6) t = satInc 32 (F.ETH_PCNT_COUNT.get (9 * p + 6) s) 1) ∧
  (∃ t, exec .gateWindowOpen s = .next t ∧ t.eth.window = true) ∧
  (s.eth.window = true → ∃ t, exec .gateWindowClose s = .next t ∧ t.eth.window = false) ∧
  (F.ETH_PSTAT_LINK.on p s = false → F.ETH_PCFG_EN.on p s = true → s.clk.lockC = true → (s.pwr.listen = false ∨ p = 0) →
    ∃ t, exec (.ethLink p true) s = .next t ∧ F.ETH_PSTAT_LINK.get p t = 1 ∧ F.ETH_PSTAT_LINKCHG.get p t = 1 ∧ EvSet .ETH_LINK t) ∧
  (F.ETH_PSTAT_LINK.on p s = true → ∃ t, exec (.ethLink p false) s = .next t ∧ F.ETH_PSTAT_LINK.get p t = 0 ∧
    (portAt t p).q0 = [] ∧ (portAt t p).q1 = [] ∧ (portAt t p).q2 = [] ∧ (portAt t p).q3 = []) ∧
  (∀ v : Word, WriteReaches m (R.ETH_PCFG.addr p) s → F.ETH_PCFG_EN.on p s = false → F.ETH_PCFG_MODE.of v.toNat < 3 →
    ∃ t, exec (.ethPcfgWrite m p v) s = .next t ∧ F.ETH_PCFG_EN.get p t = F.ETH_PCFG_EN.of v.toNat ∧
      F.ETH_PCFG_MODE.get p t = F.ETH_PCFG_MODE.of v.toNat ∧ F.ETH_PCFG_PVID.get p t = F.ETH_PCFG_PVID.of v.toNat) ∧
  ((portAt s p).stopping = true → (portAt s p).sending = none → ∃ t, exec (.ethPortStop p) s = .next t ∧
    (portAt t p).stopping = false ∧ (portAt t p).q0 = [] ∧ (portAt t p).q1 = [] ∧ (portAt t p).q2 = [] ∧ (portAt t p).q3 = []) ∧
  (∀ v : Word, WriteReaches m (R.ETH_GATE.addr 0) s → F.ETH_GATE_OPEN.of v.toNat < F.ETH_GATE_CLOSE.of v.toNat →
    F.ETH_GATE_CLOSE.of v.toNat * fsHz (rated s) ≤ spt (rated s) * 1000000000 → ∃ t, exec (.ethGateWrite m v) s = .next t ∧
    F.ETH_GATE_OPEN.get 0 t = F.ETH_GATE_OPEN.of v.toNat ∧ F.ETH_GATE_CLOSE.get 0 t = F.ETH_GATE_CLOSE.of v.toNat ∧
    R.ETH_GATE.liveVal 0 t = R.ETH_GATE.liveVal 0 s) ∧
  (∀ i : Fin 256, WriteReaches m (R.ETH_AT_CMD.addr 0) s → ∃ t, exec (.atCopyToEntry m i) s = .next t ∧
    smGet (fun _ => (⟨0, 0, 0⟩ : AtEntry)) t.eth.at_ i = ⟨BitVec.ofNat 64 (R.ETH_AT_KEY.val 0 s m),
      BitVec.ofNat 64 (R.ETH_AT_MASK.val 0 s m), BitVec.ofNat 32 (R.ETH_AT_ACT.val 0 s m)⟩) ∧
  (∀ (i : Fin 256) (x : AtEntry), WriteReaches m (R.ETH_AT_CMD.addr 0) s → smFind s.eth.at_ i = some x →
    ∃ t, exec (.atCopyToStaging m i) s = .next t ∧ R.ETH_AT_KEY.val 0 t m = x.key.toNat ∧
      R.ETH_AT_MASK.val 0 t m = x.mask.toNat ∧ R.ETH_AT_ACT.val 0 t m = x.act.toNat) ∧
  (∀ c v, asleep s = false → HoldsItem swId (F.ETH_P4TX_QUEUE.get 0 s) c s →
    let bs := cellsRead s [c]
    64 ≤ fieldLe bs 0 2 → fieldLe bs 0 2 ≤ 240 →
    vlanOf s (frVlan ((bs.drop 16).take (fieldLe bs 0 2)) (fieldLe bs 4 2 % 4096) (fieldLe bs 4 2 / 8192)).1 = some v →
    bitOf (F.ETH_VLAN_MEMBER.get v s) 4 = true → ∃ t, exec .p4TxItem s = .next t ∧
    F.ETH_PCNT_COUNT.get 36 t = satInc 32 (F.ETH_PCNT_COUNT.get 36 s) 1 ∧
    (queueAt t (F.ETH_P4TX_QUEUE.get 0 s)).depth = (queueAt s (F.ETH_P4TX_QUEUE.get 0 s)).depth - 1) ∧
  (∀ v : Word, WriteReaches m (R.ETH_MGMT.addr 0) s → s.lock = false →
    (F.ETH_MGMT_EN.of v.toNat = 1 → F.ETH_MGMT_ETYPE.of v.toNat ≠ 0) → ∃ t, exec (.ethMgmtWrite m v) s = .next t ∧
    F.ETH_MGMT_EN.get 0 t = F.ETH_MGMT_EN.of v.toNat ∧ F.ETH_MGMT_ETYPE.get 0 t = F.ETH_MGMT_ETYPE.of v.toNat)

/-- The management agent takes a request, performs its accesses and answers it; a request that lasts too long is given up and counted. The
access is one of `XBAR_AGE`. -/
def Obligations.ManagementCommandsComplete : Prop :=
  ∀ s : State, asleep s = false →
  (∀ c r₀ r, s.eth.mgmt = none → F.ETH_MGMT_EN.on 0 s = true → HoldsItem swId (F.ETH_MGMT_Q_QUEUE.get 0 s) c s →
    mgmtParse [c] (cellsRead s [c]) = (r₀, true) → r = { r₀ with tagged := (smFind s.eth.tagged c).getD r₀.tagged, since := s.elapsed } → r.addr = R.XBAR_AGE.addr 0 →
    (mgmtHead s = some 1 → r.write = false → ∃ t, exec .mgmtRead s = .next t ∧ t.eth.mgmt = some r ∧
      smFind t.bus.resp 2 = some ⟨[BitVec.ofNat 64 (R.XBAR_AGE.val 0 s)], false⟩) ∧
    (mgmtHead s = some 2 → r.write = true → s.lock = false → standbyDrops 2 (R.XBAR_AGE.addr 0) s = false →
      ∃ t, exec .mgmtWrite s = .next t ∧ t.eth.mgmt = some r ∧
      F.XBAR_AGE_LIMIT.get 0 t = F.XBAR_AGE_LIMIT.of (r.data.getD 0 0).toNat)) ∧
  (∀ r, s.eth.mgmt = some r → accessPends 2 s = false → r.count ≤ r.done + 1 → ∃ t, exec .mgmtAccessComplete s = .next t ∧
    t.eth.mgmt = none ∧ F.ETH_MGMT_CNT_DONE.get 0 t = (F.ETH_MGMT_CNT_DONE.get 0 s + 1) % 65536) ∧
  (∀ r, s.eth.mgmt = some r → passed r.since (msCycles (max 1 (F.ETH_MGMT_Q_TMO.get 0 s)) s) s = true → ∃ t, exec .mgmtTimeout s = .next t ∧ t.eth.mgmt = none ∧
    F.ETH_MGMT_CNT_BAD.get 0 t = satInc 16 (F.ETH_MGMT_CNT_BAD.get 0 s) 1 ∧
    F.ETH_MGMT_CNT_DONE.get 0 t = (F.ETH_MGMT_CNT_DONE.get 0 s + 1) % 65536)

/-- The commands of the 10BASE-T1S port complete: frames are received and sent, a collision starts a backoff below 2^min(n, 10), PLCA gives
the node its opportunity, and the port is configured. The queue that a received frame is charged to is the model's choice (log 23). -/
def Obligations.T1sCommandsComplete : Prop :=
  ∀ (m : Master) (s : State),
  (∀ (f : Frame) (ts : W64) (c : Nat), s.pwr.vdd = true → s.pwr.listen = false → F.T1S_CFG_EN.on 0 s = true →
    GrantsCell (F.EZ_Q_RPLQ.get 0 s) c s → 64 ≤ f.length → f.length ≤ 240 → fcsOk f = true →
    ∃ t, exec (.t1sRxFrame f ts) s = .next t ∧ F.T1S_CNT_COUNT.get 0 t = satInc 32 (F.T1S_CNT_COUNT.get 0 s) 1) ∧
  (∀ f rest, t1sOn s = true → F.T1S_CFG_PLCA.on 0 s = false → s.t1s.backoff = none → s.t1s.safeMute = false →
    s.t1s.queue = f :: rest → ∃ t, exec .t1sTxAttempt s = .next t ∧ t.t1s.queue = rest ∧ t.t1s.lastTx = f ∧ t.t1s.colls = 0 ∧
    F.T1S_CNT_COUNT.get 5 t = satInc 32 (F.T1S_CNT_COUNT.get 5 s) 1) ∧
  (∀ f rest, t1sOn s = true → s.t1s.backoff = none → s.t1s.queue = f :: rest → s.t1s.colls ≠ 15 →
    ∃ t b, exec .t1sCollision s = .next t ∧ t.t1s.queue = s.t1s.queue ∧ t.t1s.colls = s.t1s.colls + 1 ∧
      t.t1s.backoff = some b ∧ b < 2 ^ min (s.t1s.colls + 1) 10) ∧
  (∀ f rest, t1sOn s = true → s.t1s.backoff = none → s.t1s.queue = f :: rest → s.t1s.colls = 15 →
    ∃ t, exec .t1sCollision s = .next t ∧ t.t1s.queue = rest ∧ t.t1s.colls = 0 ∧ EvSet .T1S_EXCESS_COLL t) ∧
  (passed s.t1s.backoffAt (t1sBits s (512 * s.t1s.backoff.getD 0)) s = true → ∃ t, exec .t1sBackoffEnd s = .next t ∧ t.t1s.backoff = none ∧ t.t1s.queue = s.t1s.queue) ∧
  (t1sOn s = true → F.T1S_CFG_PLCA.on 0 s = true → s.t1s.plcaId = none → ∃ t, exec .plcaBeacon s = .next t ∧
    t.t1s.plcaId = some 0) ∧
  (∀ f rest, t1sOn s = true → s.t1s.plcaId = some 0 → s.t1s.backoff = none → s.t1s.safeMute = false → s.t1s.queue = f :: rest →
    ∃ t, exec .plcaTransmitOpportunity s = .next t ∧ t.t1s.queue = rest ∧ t.t1s.lastTx = f ∧ t.t1s.plcaId = some 1) ∧
  (∀ k, s.t1s.plcaId = some (k + 1) → passed s.t1s.plcaAt (t1sBits s (max 1 (F.T1S_CFG_TO.get 0 s))) s = true →
    ∃ t, exec .plcaTransmitOpportunity s = .next t ∧ t.t1s.queue = s.t1s.queue ∧
    t.t1s.plcaId = if k + 2 < nodeCount s then some (k + 2) else none) ∧
  (∀ v : Word, WriteReaches m (R.T1S_CFG.addr 0) s → F.T1S_CFG_EN.on 0 s = false → ∃ t, exec (.t1sCfgWrite m v) s = .next t ∧
    F.T1S_CFG_EN.get 0 t = F.T1S_CFG_EN.of v.toNat ∧ F.T1S_CFG_PLCA.get 0 t = F.T1S_CFG_PLCA.of v.toNat ∧
    F.T1S_CFG_NODECNT.get 0 t = F.T1S_CFG_NODECNT.of v.toNat)

/-- The commands of the Eztasia engine complete: a host transaction or a poll takes the next SEQ and is outstanding at its element until the
answer with that SEQ comes; an expired one is sent again while retries are left; a FAULT is raised. What becomes of a host item that
addresses no element is the model's choice (log 24). -/
def Obligations.EztasiaCommandsComplete : Prop :=
  ∀ (a : Fin 32) (src : BitVec 48) (msg : List Byte) (s : State), ezOn s = true →
  (∀ (i : Instr) (ty c : Nat), (i, ty) ∈ [(Instr.ezDiscover, 0x01), (.ezSet, 0x10), (.ezGet, 0x12), (.ezMute, 0x30)] →
    inSafe s = false → HoldsItem t1sId (F.EZ_Q_CMDQ.get 0 s) c s → ezValid (cellsRead s [c]) = true → ezType (cellsRead s [c]) = ty →
    fieldBe (cellsRead s [c]) 4 1 = a → smFind s.t1s.out a = none →
    ∃ t, exec i s = .next t ∧ t.t1s.seq = (s.t1s.seq + 1) % 65536 ∧
      smFind t.t1s.out a = some ⟨s.t1s.seq, ezStamp (cellsRead s [c]) s.t1s.seq, false, F.EZ_TIME_RETRY.get 0 s, none, [c]⟩ ∧
      t.t1s.queue = s.t1s.queue ++ [ezFrame s a (ezStamp (cellsRead s [c]) s.t1s.seq)]) ∧
  (∀ c, inSafe s = false → HoldsItem t1sId (F.EZ_Q_CMDQ.get 0 s) c s → ezValid (cellsRead s [c]) = true →
    ezType (cellsRead s [c]) = 0x01 → fieldBe (cellsRead s [c]) 4 1 = 255 →
    ∃ t, exec .ezDiscover s = .next t ∧ t.t1s.discover = s.t1s.discover ++ [(s.t1s.seq, none)] ∧ t.t1s.seq = (s.t1s.seq + 1) % 65536) ∧
  (F.EZ_TIME_POLL_MS.get 0 s ≠ 0 → passed s.t1s.pollAt (msCycles (F.EZ_TIME_POLL_MS.get 0 s) s) s = true → F.EZ_ELEM_EN.on a s = true → smFind s.t1s.out a = none →
    ∃ t x, exec .ezPoll s = .next t ∧ smFind t.t1s.out a = some x ∧ x.poll = true ∧ ezType x.msg = 0x20) ∧
  (ezValid msg = true → fieldBe msg 5 1 = a → ezType msg = 0x02 → fieldBe msg 2 2 ∈ s.t1s.discover.map (·.1) →
    ∃ t, exec (.ezAnnounce src msg) s = .next t ∧ smFind t.t1s.macs a = some src ∧ F.EZ_ELEM_LASTSEQ.get a t = fieldBe msg 2 2) ∧
  (∀ (i : Instr) (ty : Nat) (x : EzTrans), (i, ty) ∈ [(Instr.ezAck src msg, 0x11), (.ezValue src msg, 0x13), (.ezNak src msg, 0x7F)] →
    ezValid msg = true → fieldBe msg 5 1 = a → ezType msg = ty → smFind s.t1s.out a = some x → x.seq = fieldBe msg 2 2 →
    s.t1s.waiting = [] → ∃ t, exec i s = .next t ∧ smFind t.t1s.out a = none ∧ smFind t.t1s.macs a = some src ∧
    F.EZ_ELEM_LASTSEQ.get a t = fieldBe msg 2 2) ∧
  (∀ x : EzTrans, ezValid msg = true → fieldBe msg 5 1 = a → ezType msg = 0x21 → smFind s.t1s.out a = some x →
    x.seq = fieldBe msg 2 2 → s.t1s.waiting = [] → ∃ t, exec (.ezStatus src msg) s = .next t ∧ smFind t.t1s.out a = none ∧
    bitOf (F.EZ_PRESENT_PRESENT.get 0 t) a = true ∧ smFind t.t1s.faults a = some (fieldBe msg 10 2)) ∧
  (ezValid msg = true → fieldBe msg 5 1 = a → ezType msg = 0x40 → ∃ t, exec (.ezFault src msg) s = .next t ∧
    smFind t.t1s.macs a = some src ∧ EvSet .EZ_FAULT t) ∧
  (∀ x : EzTrans, smFind s.t1s.out a = some x → ezDue s x.sentAt = true → 0 < x.left → ∃ t, exec (.ezTimeout a) s = .next t ∧
    smFind t.t1s.out a = some { x with left := x.left - 1, sentAt := none } ∧ t.t1s.queue = s.t1s.queue ++ [ezFrame s a x.msg]) ∧
  (∀ d rest, s.t1s.discover = d :: rest → ezDue s d.2 = true → ∃ t, exec .ezDiscoverWindowEnd s = .next t ∧ t.t1s.discover = rest ∧ t.t1s.out = s.t1s.out)

/-! ### The stream engine -/

/-- The commands of the stream engine complete: a frame of each kind that is matched, well-formed and in time is counted and its samples
wait for their edge; an entry is configured; and the frames of an entry are formed, counted and handed to the switch. The places of
fields in RTP and AAF packets are presumed (log 25). -/
def Obligations.StreamCommandsComplete : Prop :=
  ∀ (m : Master) (p : Port) (f : Frame) (ts : W64) (s : State),
  (∀ e cell, F.ETH_PCFG_EN.on p s = true → asleep s = false → F.CLT_STAT_ACCEPT.on 0 s = true → cltMatch s f = some e →
    let c := rxCfg s e
    let w := wszBits c.wsz
    let taken (i : Instr) (q : Int) (ws : List W40) : Prop := StreamPlaced s e cell q → ∃ t, exec i s = .next t ∧
      F.CLT_RXCNT_COUNT.get (6 * e) t = satInc 32 (F.CLT_RXCNT_COUNT.get (6 * e) s) 1 ∧
      (cltRxAt t e).buf = fillBuf s q.toNat c.ch ws (cltRxAt s e).buf
    let h := (coleelOf s c.kind f).getD []
    let media (x : Int) : Int := x + F.CLT_RXCFG_LAT.live e s
    let near (q : Int) : Prop := latchEdge s q ≤ ((tickNum s + (4368 + spt s - 1) / spt s : Nat) : Int)
    (c.kind < 2 → ColeelWellFormed s c f → edgePos (fieldBe h 12 8 - 16) s ≤ s.now →
      taken (.cltRxFrame p f ts) (((fieldBe h 12 8 : Int) - 1) * spt s + fieldBe h 20 1)
        (streamWords w (c.ch * c.spp) (h.drop 24))) ∧
    (let u := udpPayload (frPayload f)
      let q := media (nearest (sampleNow s) (fieldBe u 4 4 + 2 ^ 32 - F.CLT_RXAUX_ROFS.live e s))
      c.kind = 2 → AesWellFormed c f → near q → taken (.aes67RxPacket p f ts) q (streamWords w (c.ch * c.spp) (u.drop 12))) ∧
    (let u := frPayload f
      let q := media ((2 * nearest (nowNs s) (fieldBe u 12 4) * fsHz s + 1000000000) / 2000000000)
      c.kind = 3 → AafWellFormed s c f → near q →
        taken (.aafRxPacket p f ts) q (streamWords w (c.ch * c.spp) (u.drop 24)))) ∧
  (∀ (rx : Bool) (i : Fin 256) (v : W64), let r := if rx then CltReg.rxcfg else .txcfg
    WriteReaches m ((cltReg r).addr i) s → (streamCfg ((cltReg r).val i s)).en = false →
    ((streamCfg v.toNat).en = true →
      entryOk (rated s) rx i (streamCfg v.toNat) (if rx then 1 else F.CLT_TXDST_TAG.get i s) = true) →
    ∃ t, exec (.cltEntryWrite m r i v) s = .next t ∧ streamCfg ((cltReg r).val i t) = streamCfg v.toNat ∧
      (cltReg r).liveVal i t = (cltReg r).liveVal i s) ∧
  (∀ (r : CltReg) (i : Fin 256) (v : W64), r ∈ [CltReg.rxkey, .rxaux, .txkey, .txaux] → WriteReaches m ((cltReg r).addr i) s →
    (streamCfg ((if cltIsRx r then R.CLT_RXCFG else R.CLT_TXCFG).val i s)).en = false →
    ∃ t, exec (.cltEntryWrite m r i v) s = .next t ∧ (cltReg r).val i t = unreserved r i v.toNat s) ∧
  (∀ (i : Fin 256) (v : W64), WriteReaches m (R.CLT_TXDST.addr i) s → (streamCfg (R.CLT_TXCFG.val i s)).en = false →
    ∃ t, exec (.cltEntryWrite m .txdst i v) s = .next t ∧ F.CLT_TXDST_MAC.get i t = F.CLT_TXDST_MAC.of v.toNat ∧
      F.CLT_TXDST_VID.get i t = F.CLT_TXDST_VID.of v.toNat ∧ F.CLT_TXDST_TAG.get i t = F.CLT_TXDST_TAG.of v.toNat) ∧
  (∀ (i : Fin 256) (ofs : Fin 16), let c := txCfg s i
    let sent (etype : Nat) (body : List Byte) : Frame :=
      mkFrame (F.CLT_TXDST_MAC.live i s) (F.ETH_MAC_ADDR.get 0 s)
        (if F.CLT_TXDST_TAG.liveOn i s then some (F.CLT_TXDST_PCP.live i s * 8192 + F.CLT_TXDST_VID.live i s) else none) etype body
    cltSends s c = true → c.kind < 2 → ofs.val % max 1 c.spp = 0 → ofs.val + c.spp ≤ spt s → (∃ o, sentTo s i = some o ∧ o ≤ ofs.val) →
    ∃ t payload, exec (.cltTxFrame i ofs) s = .next t ∧
      F.CLT_TXCNT_COUNT.get i t = satInc 32 (F.CLT_TXCNT_COUNT.get i s) 1 ∧
      (cltTxAt t i).lastTx = (if c.kind = 0 then sent (F.CLT_CFG_ETYPE.get 0 s) payload
        else sent 0x0800 (cltIp s (bitsOf (R.CLT_TXKEY.liveVal i s) 63 32) (F.CLT_UDP_PORT.get 0 s) payload)) ∧
      fieldBe payload 4 2 = F.CLT_ID_NODE.get 0 s ∧
      fieldBe payload 6 2 = (if pairIs 0 s then F.CLT_ID_NODE.get 0 s else F.CLT_ID_PAIR.get 0 s) ∧
      fieldBe payload 12 8 = (tickNum s + 1 + F.CLT_TXCFG_T.live i s) % 2 ^ 64 ∧ fieldBe payload 20 1 = ofs ∧
      t.clt.sent = (tickNum s, i.val, ofs.val + 1)) ∧
  (∀ (i : Fin 256) (ofs : Fin 16), (∀ o, sentTo s i = some o → ofs.val < o) →
    ∃ t, exec (.cltTxFrame i ofs) s = .next t ∧ t.clt = s.clt ∧ F.CLT_TXCNT_COUNT.get i t = F.CLT_TXCNT_COUNT.get i s) ∧
  (∀ (i : Fin 256) (mt : Nat), cltSends s (txCfg s i) = true → packetDue s i = some mt →
    ((txCfg s i).kind = 2 → ∃ t, exec (.aes67TxPacket i) s = .next t ∧
      t.clt.sent = (tickNum s, i.val, mt + (txCfg s i).spp - (tickNum s + 1) * spt s) ∧
      F.CLT_TXCNT_COUNT.get i t = satInc 32 (F.CLT_TXCNT_COUNT.get i s) 1) ∧
    ((txCfg s i).kind = 3 → ∃ t, exec (.aafTxPacket i) s = .next t ∧
      t.clt.sent = (tickNum s, i.val, mt + (txCfg s i).spp - (tickNum s + 1) * spt s) ∧
      F.CLT_TXCNT_COUNT.get i t = satInc 32 (F.CLT_TXCNT_COUNT.get i s) 1))

/-! ### PTP, event outputs and capture inputs, and the clock unit -/

/-- The messages of PTP complete: a Sync with its Follow_Up gives the offset, an Announce is kept, requests are answered, delays are
measured, and what a port sends is counted and takes the next sequence number. A message of another domain is counted and does nothing else.
The layout of the messages, the comparison of data sets and that a domain of another number is ignored are presumed (log 26). An event
message keeps what its egress time completes, which `EthernetCommandsComplete` states. -/
def Obligations.PtpMessagesComplete : Prop :=
  ∀ (p : Port) (g : PtpMsg) (s : State), ptpRuns s p = true →
  let x := ptpAt s p
  let cnt (k : Nat) (t : State) : Prop := F.PTP_PCNT_COUNT.get (4 * p + k) t = satInc 32 (F.PTP_PCNT_COUNT.get (4 * p + k) s) 1
  let sends : Prop := F.ETH_PCFG_EN.on p s = true ∧ linkUp s p = true
  let offset (i : Instr) (t1 t2 : Int) : Prop := ∃ t, exec i s = .next t ∧ cnt 0 t ∧ ptpSt t p = 9 ∧
    F.PTP_OFS_OFFSET.get 0 t = ofInt 64 (t2 - t1 - x.mean)
  let measured (i : Instr) : Prop := ∃ t, exec i s = .next t ∧ cnt 0 t ∧ (ptpAt t p).req = none ∧
    (ptpAt t p).delays.length = min 8 (x.delays.length + 1)
  (g.domain = F.PTP_CFG_DOMAIN.get 0 s → fromMaster s p g = true → g.twoStep = false →
    offset (.ptpSync p g) ((g.origin : Int) * 65536 + g.corr) (quarters (ingressQ s p g.rx))) ∧
  (g.domain = F.PTP_CFG_DOMAIN.get 0 s → fromMaster s p g = true → g.twoStep = true → ∃ t, exec (.ptpSync p g) s = .next t ∧
    (ptpAt t p).sync = some ⟨g.seq, ingressQ s p g.rx, g.corr, 0⟩) ∧
  (∀ y, x.sync = some y → g.domain = F.PTP_CFG_DOMAIN.get 0 s → fromMaster s p g = true → y.seq = g.seq →
    offset (.ptpFollowUp p g) ((g.origin : Int) * 65536 + y.corr + g.corr) (quarters y.rx)) ∧
  (∀ a : AnnounceMsg, a.domain = F.PTP_CFG_DOMAIN.get 0 s → a.srcId.toNat ≠ clockId s → a.steps.val < 255 → x.ann = none →
    ∃ t, exec (.ptpAnnounce p a) s = .next t ∧ cnt 0 t ∧ (ptpAt t p).ann = some a ∧
      (ptpSt s p = 4 ∨ ptpSt t p ≠ 4 → (ptpAt t p).heard = true)) ∧
  (g.domain = F.PTP_CFG_DOMAIN.get 0 s → ptpPeer s = false → ptpSt s p = 6 → sends →
    ∃ t, exec (.ptpDelayReq p g) s = .next t ∧ cnt 0 t ∧ cnt 1 t) ∧
  (∀ seq t3, x.req = some (seq, t3) → g.domain = F.PTP_CFG_DOMAIN.get 0 s → ptpPeer s = false → fromMaster s p g = true → toPort s p g = true →
    seq = g.seq.val → measured (.ptpDelayResp p g)) ∧
  (g.domain = F.PTP_CFG_DOMAIN.get 0 s → ptpPeer s = true → sends → ∃ t, exec (.ptpPdelayReq p g) s = .next t ∧ cnt 0 t ∧ cnt 1 t) ∧
  (g.domain ≠ F.PTP_CFG_DOMAIN.get 0 s → ∀ i ∈ [Instr.ptpSync p g, .ptpFollowUp p g, .ptpDelayReq p g, .ptpDelayResp p g, .ptpPdelayReq p g,
      .ptpPdelayResp p g, .ptpPdelayRespFollowUp p g], ∃ t, exec i s = .next t ∧ cnt 0 t ∧ t.ptp = s.ptp) ∧
  (∀ seq t1, x.req = some (seq, t1) → g.domain = F.PTP_CFG_DOMAIN.get 0 s → ptpPeer s = true → toPort s p g = true → seq = g.seq.val →
    g.twoStep = true →
    ∃ t, exec (.ptpPdelayResp p g) s = .next t ∧ (ptpAt t p).pdel = some ⟨g.seq, ingressQ s p g.rx, g.corr, g.origin⟩) ∧
  (∀ seq t1, x.req = some (seq, t1) → g.domain = F.PTP_CFG_DOMAIN.get 0 s → ptpPeer s = true → toPort s p g = true → seq = g.seq.val →
    g.twoStep = false → measured (.ptpPdelayResp p g)) ∧
  (∀ seq t1 y, x.req = some (seq, t1) → x.pdel = some y → g.domain = F.PTP_CFG_DOMAIN.get 0 s → ptpPeer s = true → toPort s p g = true →
    y.seq = g.seq.val → measured (.ptpPdelayRespFollowUp p g)) ∧
  (∃ t, exec (.ptpManagementMsg p) s = .next t ∧ cnt 0 t ∧ cnt 2 t) ∧
  (ptpSt s p = 6 → ∃ t, exec (.ptpSyncTx p) s = .next t ∧ (ptpAt t p).seqSync = (x.seqSync + 1) % 65536 ∧ (sends → cnt 1 t)) ∧
  (ptpSt s p = 6 → ∃ t, exec (.ptpAnnounceTx p) s = .next t ∧ (ptpAt t p).seqAnn = (x.seqAnn + 1) % 65536 ∧ (sends → cnt 1 t)) ∧
  (ptpPeer s = true ∨ (ptpFollows s p = true ∧ x.synced = true) → ∃ t, exec (.ptpDelayReqTx p) s = .next t ∧
    (ptpAt t p).seqDel = (x.seqDel + 1) % 65536 ∧ (sends → cnt 1 t)) ∧
  (∀ h rest, x.follow = h :: rest → ∃ t, exec (.ptpFollowUpTx p) s = .next t ∧ (ptpAt t p).follow = rest ∧ (sends → cnt 1 t)) ∧
  (annDue s p = true → ∃ t, exec (.ptpAnnounceTimeout p) s = .next t ∧ (ptpAt t p).ann = none ∧
    (ptpSt s p = 4 ∨ ptpSt t p ≠ 4 → (ptpAt t p).heard = true)) ∧
  (ptpFollows s p = true → p.val ∉ s.ptp.lost → syncDue s p = true → ∃ t, exec (.ptpSyncLoss p) s = .next t ∧ F.PTP_STAT_SYNC_LOST.get 0 t = 1 ∧ cnt 3 t ∧
    p.val ∈ t.ptp.lost ∧ EvSet .PTP_SYNC_LOSS t)

/-- The system counter, the event outputs and the capture inputs: a grandmaster is qualified, the counter is read whole and stepped, a
schedule is armed and disarmed, pulses start and end, and captured edges are queued and read. -/
def Obligations.TimePinsComplete : Prop :=
  ∀ (m : Master) (e : Fin 8) (c : Fin 4) (s : State),
  (F.PTP_STAT_GM.on 0 s = true → F.PTP_STAT_STEP_PEND.on 0 s = false →
    passed s.ptp.gmAt (msCycles (F.PTP_QUAL_QUAL_MS.get 0 s) s) s = true → ∃ t, exec .ptpGmQual s = .next t ∧
    F.PTP_STAT_QUAL.get 0 t = 1) ∧
  (asleep s = false → ∃ t, exec (.ptpTimeRead m) s = .next t ∧
    smFind t.bus.resp m = some ⟨[BitVec.ofNat 64 (timeWord (nowFrac s) 0)], false⟩ ∧
    ∀ w ∈ [1, 2, 3], smFind t.ptp.latch (4 * m + w) = some (BitVec.ofNat 32 (timeWord (nowFrac s) w))) ∧
  (∀ (v a b d : Word), WriteReaches m (R.PTP_TIME_SECHI.addr 0) s → running s = false → (∀ q < 4, ptpFollows s q = false) →
    smFind s.ptp.wbuf (4 * m) = some a → smFind s.ptp.wbuf (4 * m + 1) = some b → smFind s.ptp.wbuf (4 * m + 2) = some d →
    b.toNat ≤ 999999999 → ∃ t, exec (.ptpTimeCommit m v) s = .next t ∧
    t.now = (((v.toNat % 65536 * 2 ^ 32 + d.toNat) * 65536000000000 + b.toNat * 65536 + a.toNat % 65536) * cclkMHz s + 32768000)
      / 65536000 ∧
    F.PTP_STEPCNT_COUNT.get 0 t = satInc 32 (F.PTP_STEPCNT_COUNT.get 0 s) 1 ∧ EvSet .PTP_STEP t) ∧
  (∀ v : Word, WriteReaches m (R.PTP_EVT_CTRL.addr e) s → F.PTP_EVT_CTRL_EN.on e s = false → F.PTP_EVT_NS_NS.get e s ≤ 999999999 →
    10 ≤ F.PTP_EVT_WID_WIDTH.get e s → (F.PTP_EVT_CTRL_MODE.of v.toNat = 1 → 20 ≤ F.PTP_EVT_PER_PERIOD.get e s ∧
      F.PTP_EVT_WID_WIDTH.get e s ≤ F.PTP_EVT_PER_PERIOD.get e s - 10) →
    ∃ t, exec (.evtArm m e v) s = .next t ∧ F.PTP_EVT_CTRL_EN.get e t = 1 ∧ (evtAt t e).arming = true ∧
      F.PTP_EVT_CTRL_MODE.get e t = F.PTP_EVT_CTRL_MODE.of v.toNat) ∧
  ((evtAt s e).arming = true → F.PTP_EVT_CTRL_MODE.on e s = true ∨ evtPast s (evtStart s e) = false →
    ∃ t, exec (.evtArmed e) s = .next t ∧ (evtAt t e).armed = true ∧ (evtAt t e).arming = false) ∧
  (∀ v : Word, WriteReaches m (R.PTP_EVT_CTRL.addr e) s → ∃ t, exec (.evtDisarm m e v) s = .next t ∧
    F.PTP_EVT_CTRL_EN.get e t = 0 ∧ (evtAt t e).armed = false ∧ (evtAt t e).arming = false) ∧
  ((evtAt s e).armed = true → (evtAt s e).active = false → F.PTP_EVT_CTRL_MODE.on e s = true ∨ (evtAt s e).k = 0 →
    evtTime s e * cclkMHz s ≤ s.now * 1000 → ∃ t, exec (.evtPulse e) s = .next t ∧ (evtAt t e).active = true ∧ F.PTP_EVT_CTRL_ACTIVE.get e t = 1 ∧
      (evtAt t e).k = (evtAt s e).k + 1) ∧
  ((evtAt s e).active = true → (evtAt s e).stop ≤ s.elapsed → ∃ t, exec (.evtPulseEnd e) s = .next t ∧
    (evtAt t e).active = false ∧ F.PTP_EVT_CTRL_ACTIVE.get e t = 0) ∧
  (∀ (rise : Bool) (ts : W64), F.PTP_CAP_CFG_EN.on c s = true → asleep s = false →
    bitOf (F.PTP_CAP_CFG_EDGE.get c s) (if rise then 0 else 1) = true → (capAt s c).fifo.length < 16 →
    ∃ t, exec (.capEdge c rise ts) s = .next t ∧ (capAt t c).fifo = (capAt s c).fifo ++ [(BitVec.ofNat 64 (capStamp s ts.toNat), rise)]) ∧
  (∀ ts rise rest, asleep s = false → (capAt s c).fifo = (ts, rise) :: rest → ∃ t, exec (.capHeadRead m c) s = .next t ∧
    (capAt t c).fifo = rest ∧ smFind t.ptp.capLatch (4 * m + c) = some ts ∧
    smFind t.bus.resp m = some ⟨[BitVec.ofNat 64 (2 ^ 31 + b2n rise * 2 ^ 30 + rest.length)], false⟩)

/-- The commands of the clock unit complete. Values of y and phases that the spec leaves open are free (logs 29 and 73). -/
def Obligations.ClockCommandsComplete : Prop :=
  ∀ (m : Master) (s : State),
  (∀ o : RefObs, s.clk.up = true → passed s.clk.evalAt (msCycles 1 s) s = true → F.CLK_CTRL_FREERUN.on 0 s = false → refValid s 1 = false → refSeen s o 1 = (true, true) →
    F.CLK_FRANGE_QMS.get 0 s ≤ smGet (fun _ => 0) s.clk.good 1 + 1 → ∃ t, exec (.refEvaluate o) s = .next t ∧
    refValid t 1 = true ∧ smGet (fun _ => 0) t.clk.good 1 = smGet (fun _ => 0) s.clk.good 1 + 1) ∧
  (∀ k, s.clk.sel = some k → F.CLK_STAT_STEP.get 0 s < finalStep s k → stepDwell (F.CLK_STAT_STEP.get 0 s) ≤ s.clk.dwell →
    ∃ t, exec .loopStepAdvance s = .next t ∧ F.CLK_STAT_STEP.get 0 t = F.CLK_STAT_STEP.get 0 s + 1 ∧ t.clk.dwell = 0) ∧
  (clkSt s = 3 → F.CLK_HOLD_LEFT_MS.get 0 s = 0 → ∃ t, exec .clkHoldExpired s = .next t ∧ clkSt t = 4 ∧
    F.PTP_STAT_QUAL.get 0 t = 0 ∧ EvSet .CLK_HOLD_EXPIRED t) ∧
  (∀ p : Pll, (match p with | .a => s.clk.lockA | .b => s.clk.lockB | .c => s.clk.lockC) = false →
    ∃ t, exec (.pllLock p) s = .next t ∧ (match p with | .a => t.clk.lockA | .b => t.clk.lockB | .c => t.clk.lockC) = true ∧
      bitOf (F.CLK_STAT_PLLOK.get 0 t) (match p with | .a => 0 | .b => 1 | .c => 2) = true ∧ (p = .a → t.clk.hold = false)) ∧
  (∀ p : Pll, (match p with | .a => s.clk.lockA | .b => s.clk.lockB | .c => s.clk.lockC) = true →
    ∃ t, exec (.pllUnlock p) s = .next t ∧ (match p with | .a => t.clk.lockA | .b => t.clk.lockB | .c => t.clk.lockC) = false ∧
      bitOf (F.CLK_STAT_PLLOK.get 0 t) (match p with | .a => 0 | .b => 1 | .c => 2) = false ∧
      bitOf (F.CLK_HIST_UNLOCK.get 0 t) (match p with | .a => 0 | .b => 1 | .c => 2) = true ∧
      EvSet (match p with | .a => .CLK_PLL_UNLOCK_A | _ => .CLK_PLL_UNLOCK_BC) t) ∧
  (s.clk.lockB = true → ∃ t, exec .pllbPhaseSet s = .next t ∧ t.clk.phased = true) ∧
  (WriteReaches m (R.CLK_CTRL.addr 0) s → s.clk.up = true → F.CLK_CTRL_FREERUN.on 0 s = false → clkSt s ≠ 0 →
    ∃ t, exec (.clkForceFreerun m) s = .next t ∧ F.CLK_CTRL_FREERUN.get 0 t = 1 ∧ clkSt t = 0 ∧ t.clk.sel = none ∧
      F.CLK_STAT_REF.get 0 t = 7 ∧ F.CLK_STAT_STEP.get 0 t = 0) ∧
  (WriteReaches m (R.CLK_CTRL.addr 0) s → ∃ t, exec (.clkReleaseFreerun m) s = .next t ∧ F.CLK_CTRL_FREERUN.get 0 t = 0 ∧
    clkSt t = clkSt s ∧ t.clk.sel = s.clk.sel) ∧
  (∀ (mask : Byte) (n : Fin 8), WriteReaches m (R.CLK_ALIGN.addr 0) s → bitOf mask.toNat n = true → F.CLK_OUT_EN.on n s = true →
    ∃ t, exec (.clkoutRealign m mask) s = .next t ∧ F.CLK_OUTMIS_MIS.get n t = 0 ∧ bitOf (F.CLK_ALIGNPEND_PEND.get 0 t) n = false) ∧
  (∀ (n : Fin 8) (v : Word), WriteReaches m (R.CLK_OUT.addr n) s → F.CLK_OUT_FMT.of v.toNat < 6 →
    outPast (rated s) (F.CLK_OUT_LEVEL.of v.toNat) (F.CLK_OUT_FMT.of v.toNat) = false → ∃ t, exec (.clkOutWrite m n v) s = .next t ∧
    F.CLK_OUT_EN.get n t = F.CLK_OUT_EN.of v.toNat ∧ F.CLK_OUT_FMT.get n t = F.CLK_OUT_FMT.of v.toNat ∧
    F.CLK_OUT_LEVEL.get n t = F.CLK_OUT_LEVEL.of v.toNat) ∧
  (∀ v : Word, WriteReaches m (R.CLK_PLLA.addr 0) s → running s = false → s.lock = false → ∃ t, exec (.clkPllaWrite m v) s = .next t ∧
    F.CLK_PLLA_FSEL.get 0 t = F.CLK_PLLA_FSEL.of v.toNat ∧
    (F.CLK_PLLA_FSEL.of v.toNat ≠ b2n s.clk.fsel → t.clk.lockA = false ∧ t.clk.hold = true)) ∧
  (∀ n : Fin 8, F.CLK_CTRL_INSVC.on 0 s = false → bitOf (F.CLK_ALIGNPEND_PEND.get 0 s) n = true →
    ∃ t, exec (.clkoutSlewAligned n) s = .next t ∧ (toInt 32 (F.CLK_OUTMIS_MIS.get n t)).natAbs ≤ 1 ∧
      bitOf (F.CLK_ALIGNPEND_PEND.get 0 t) n = false)

/-! ### The redundant pair -/

/-- The messages of Siphon and its link complete with their own effect: the link comes up and goes down, a MARK is kept and its REL obeyed,
a forwarded write is made, a standby takes the owner's states, and a segment that fails its check is counted and discarded. How the payloads
of all messages but MARK and DIGEST are coded the spec does not state: they stand beside their segments (log 44). -/
def Obligations.SiphonMessagesComplete : Prop :=
  ∀ s : State,
  (siphonUp s = false → ∃ t, exec .pairLinkUp s = .next t ∧ siphonUp t = true ∧ t.pair.crcRun = 0 ∧ EvSet .PAIR_LINK_UP t) ∧
  (siphonUp s = true → ∃ t, exec .pairLinkDown s = .next t ∧ siphonUp t = false ∧ F.PAIR_HIST_LINK_DOWN.get 0 t = 1 ∧
    EvSet .PAIR_LINK_DOWN t) ∧
  (siphonUp s = true → asleep s = false → ∀ (segs : List (List Byte)) (tk : Nat) (pl : List Byte),
    let whole (ty : Nat) : Prop := segsBody ty segs = some (tk, pl)
    (let g := markOf tk pl
     whole 0x01 → pl.length = 8 → ∃ t, exec (.siphonMark (segs.headD []) segs.tail) s = .next t ∧ t.pair.mark = some g ∧
      F.PAIR_STAT_PSTATE.get 0 t = g.state ∧ t.pair.crcRun = 0 ∧ (isStandby (pairSt s) = true → g.rel = false → g.ho = true → t.pair.handover = some (fullTick s g.tick + 1)) ∧
      (pairSt s = 1 → g.owner = true → pairSt t = 3) ∧
      (isStandby (pairSt s) = true → g.rel = true → isStandby g.state = false → pairSt t = 2 ∧ t.pair.own = true ∧
        F.PAIR_HIST_TAKEOVER.get 0 t = 1 ∧ EvSet .PAIR_TAKEOVER t)) ∧
    (whole 0x02 → F.PAIR_CFG_PRST_EN.liveOn 0 s = true → ∃ t, exec (.siphonRstreq segs) s = .next t ∧ F.SYS_RSTCAUSE_CAUSE.get 0 t = 4 ∧
      boot t = 0 ∧ running t = false ∧ EvSet .SYS_RESET t) ∧
    (whole 0x03 → pl.length = 68 → ∃ t, exec (.siphonDigest (segs.headD []) segs.tail) s = .next t ∧
      t.pair.partnerDig = (digestFrom tk pl :: s.pair.partnerDig).take 4) ∧
    (∀ (g : WriteMsg) (k : Fin 16) (w : Fin 262144), whole 0x10 → isStandby (pairSt s) = true → g.addr.toNat = galAddr k w → g.en = 0xFF →
      Memory.wf s.mem = true → ∃ t, exec (.siphonWrite g segs) s = .next t ∧ word40 t (galAddr k w) = g.data.setWidth 40) ∧
    (∀ (r : ModRec) (q : RailRec), whole 0x11 → isStandby (pairSt s) = true → ∃ t, exec (.siphonModstate [r] [q] segs) s = .next t ∧
      chanSt t r.ch = r.st ∧ F.MOD_STAT_FCAUSE.get r.ch t = r.cause ∧ F.MOD_STAT_DIAG.get r.ch t = r.diag ∧
      F.RAIL_STAT_STATE.get q.g t = q.st ∧ F.RAIL_STAT_TARGET.get q.g t = q.target ∧ F.RAIL_STAT_VCMD.get q.g t = q.vcmd ∧
      F.RAIL_STAT_DONE.get q.g t = b2n q.done) ∧
    (∀ (i : Fin 64) (x : W64), whole 0x12 → ∃ t, exec (.siphonStamp [(i, x)] segs) s = .next t ∧
      smFind t.sap.stampsA i = some (stampInstant s x.toNat)) ∧
    (∀ (f : Frame) (ts : W64) (e cell : Nat), let c := rxCfg s e
      let h := (coleelOf s c.kind f).getD []
      let q : Int := ((fieldBe h 12 8 : Int) - 1) * spt s + fieldBe h 20 1
      whole 0x20 → F.PAIR_CFG_EN.liveOn 0 s = true → F.CLT_STAT_ACCEPT.on 0 s = true → cltMatch s f = some e → c.kind < 2 →
      ColeelWellFormed s c f → edgePos (fieldBe h 12 8 - 16) s ≤ s.now → 0 ≤ q →
      beforeEdge s (latchEdge s q) (max 100 (F.PAIR_PATCH_NS.get 0 s)) = true → 0 < c.ch * c.spp → c.ch * c.spp ≤ 51 →
      smFind ((smFind (cltRxAt s e).buf (q.toNat / spt s + 1)).getD []) (q.toNat % spt s * c.ch) = none →
      GrantsCell (F.CLT_CFG_BUFQ.get 0 s) cell s → ∃ t, exec (.siphonPatch f ts segs) s = .next t ∧
      F.PAIR_CNT_COUNT.get 4 t = satInc 32 (F.PAIR_CNT_COUNT.get 4 s) 1 ∧
      (cltRxAt t e).buf = fillBuf s q.toNat c.ch (streamWords (wszBits c.wsz) (c.ch * c.spp) (h.drop 24)) (cltRxAt s e).buf) ∧
    (∀ (g : LaneSet) (slot : Nat), whole 0x30 → pairSt s = 4 → slotOf s g.lane = some slot → g.tick = BitVec.ofNat 32 (tickNum s) →
      (laneAt s slot).st = .wait → edgeDue s = false → ∃ t, exec (.siphonLanestate g segs) s = .next t ∧
      (laneAt t slot).pc = g.pc ∧ (laneAt t slot).zf = g.zf ∧ (laneAt t slot).nf = g.nf ∧
      (∀ i : Fin 16, (laneAt t slot).d[i] = g.ds.getD i 0 ∧ (laneAt t slot).a[i] = g.as_.getD i 0) ∧ g.lane.val ∉ t.pair.lanesLeft) ∧
    (∀ g : EngineRec, whole 0x31 → pairSt s = 3 ∨ pairSt s = 4 → ∃ t, exec (.siphonEngine g segs) s = .next t ∧ t.pair.engine = some g) ∧
    (whole 0x40 → pairSt s = 3 →
      (∀ w : Word, ∃ t, exec (.siphonCopy [.icw w] segs) s = .next t ∧ t.pair.icwDiff = decide (w.toNat ≠ R.STRATA_ICW.val 0 s)) ∧
      (∀ (k : Fin 16) (n : Fin 262144) (v : W64), Memory.wf s.mem = true →
        ∃ t, exec (.siphonCopy [.slot (BitVec.ofNat 32 (galAddr k n)) v] segs) s = .next t ∧
        word40 t (galAddr k n) = v.setWidth 40) ∧
      (∀ (i : Fin 1024) (key mask : W64) (act : Word), ∃ t, exec (.siphonCopy [.mac i key mask act] segs) s = .next t ∧
        smGet (fun _ => (⟨0, 0, 0⟩ : AtEntry)) t.eth.at_ i = ⟨key, mask, act⟩) ∧
      (∀ (e : Fin 65536) (v : Word), ∃ t, exec (.siphonCopy [.route e v] segs) s = .next t ∧
        smGet (fun _ => 0) t.route.tbl e = v &&& 0x80000FFF)) ∧
    (∀ b : List Byte, segOk b = false → s.pair.crcRun < 7 → ∃ t, exec (.siphonMark b []) s = .next t ∧ t.pair.crcRun = s.pair.crcRun + 1 ∧
      F.PAIR_CNT_COUNT.get 2 t = satInc 32 (F.PAIR_CNT_COUNT.get 2 s) 1 ∧ t.pair.mark = s.pair.mark))

/-- The commands and transitions of the pair complete: FORM ends for side B alone, the partner's OWN pin is followed, a handover waits for
the edge at which it is applied, a chip that is OUT rejoins, a copy pass is judged, and the patch margin is stored. Which ticks are
compared first is deduced (log 41). -/
def Obligations.PairCommandsComplete : Prop :=
  ∀ (m : Master) (s : State),
  (pairSt s = 1 → sideA s = false → siphonUp s = false → s.pair.partnerOwn = false →
    passed s.pair.ownAt (msCycles (F.PAIR_CFG_START_MS.live 0 s) s) s = true → ∃ t, exec .formTimeout s = .next t ∧
    pairSt t = 2 ∧ t.pair.own = true ∧ F.PAIR_HIST_TAKEOVER.get 0 t = 1 ∧ EvSet .PAIR_TAKEOVER t) ∧
  (∀ low, ∃ t, exec (.ownPinChange low) s = .next t ∧ t.pair.partnerOwn = !low ∧
    (pairSt s = 0 → t.pair.own = (sideA s && low) ∧ pairSt t = 0)) ∧
  (WriteReaches m (R.PAIR_CMD.addr 0) s →
    (siphonUp s = true → ∃ t, exec (.pairPreset m) s = .next t ∧ t.pair.rstReq = true) ∧
    (pairSt s = 2 → partnerReady s = true →
      (∃ t, exec (.pairHandover m) s = .next t ∧ t.pair.hoReq = some (cmdEdge s) ∧ t.pair.thenOut = s.pair.thenOut) ∧
      (∃ t, exec (.pairCmdOut m) s = .next t ∧ t.pair.hoReq = some (cmdEdge s) ∧ t.pair.thenOut = true)) ∧
    (pairSt s ≠ 0 → pairSt s ≠ 2 → ∃ t, exec (.pairCmdOut m) s = .next t ∧ pairSt t = 8 ∧ t.pair.own = false) ∧
    (pairSt s = 8 → siphonUp s = true →
      (∃ t, exec (.pairJoin m) s = .next t ∧ pairSt t = 3) ∧
      (∃ t, exec (.pairJoinUpd m) s = .next t ∧ pairSt t = 4 ∧ t.pair.joinUpd = true ∧ t.pair.lanesLeft = activeLanes s)) ∧
    (pairSt s ≠ 2 ∨ partnerReady s = false → ∃ t, exec (.pairHandover m) s = .next t ∧ F.XBAR_ACCERR_REASON.get 0 t = 3 ∧
      (F.SUMP_EVCFG_CLASS.get (evNum .XBAR_ACCESS) s < 3 → s.sump.parity = [] → t.pair.hoReq = s.pair.hoReq))) ∧
  (pairSt s = 3 → s.pair.icwDiff = false → ∃ t, exec .copyPassComplete s = .next t ∧ pairSt t = 4 ∧
    t.pair.lanesLeft = activeLanes s ∧ t.pair.convLeft = convT s + 1) ∧
  (pairSt s = 3 → s.pair.icwDiff = true → ∃ t, exec .copyPassComplete s = .next t ∧ pairSt t = 8 ∧ EvSet .PAIR_IMAGE_DIFF t) ∧
  (∀ v : Word, WriteReaches m (R.PAIR_PATCH.addr 0) s → F.PAIR_PATCH_NS.of v.toNat + 400 ≤ F.TICK_NETMARGIN_NS.live 0 s →
    ∃ t, exec (.pairPatchWrite m v) s = .next t ∧ F.PAIR_PATCH_NS.get 0 t = F.PAIR_PATCH_NS.of v.toNat)

/-! ### The Sump -/

/-- The commands of the Sump complete: the oldest raise is logged, a parity error is a self-fault, a status bit is cleared or its clear
refused, an EXIT is accepted and applied, the history is emptied and read, and an event is configured, where the words a command uses are
sound (R535). That EXIT acts at the start of its edge is deduced (log 63). -/
def Obligations.SumpCommandsComplete : Prop :=
  ∀ (m : Master) (s : State),
  let sound (ws : List Nat) : Prop := ∀ w ∈ ws, w ∉ s.sump.parity
  (∀ r rest, s.sump.queue = r :: rest → ∃ t, exec .sumpLog s = .next t ∧ (sound [R.SUMP_HIST_STAT.addr 0] → t.sump.queue = rest) ∧
    R.SUMP_HIST.val (F.SUMP_HIST_STAT_NEXT.get 0 s) t = histEntry r ∧
    F.SUMP_HIST_STAT_NEXT.get 0 t = (F.SUMP_HIST_STAT_NEXT.get 0 s + 1) % 32) ∧
  (s.sump.parity ≠ [] → ∃ t, exec .sumpScan s = .next t ∧ F.SUMP_STAT_SELF.get 0 t = 1 ∧ inSafe t = true ∧ EvSet .SUMP_SELF t) ∧
  (∀ (i : Fin 8) (j : Fin 32) (v : Word), WriteReaches m (R.SUMP_EVSTAT.addr i) s → v.toNat = 2 ^ j.val →
    evListed (32 * i + j) = true → bitOf (R.SUMP_EVSTAT.val i s) j = true → sound [R.SUMP_EVSTAT.addr i] →
    (evHeld (32 * i + j) s = false → ∃ t, exec (.sumpEvstatClear m i v) s = .next t ∧
      bitOf (R.SUMP_EVSTAT.val i t) j = false ∧ ∀ k, k < 32 → k ≠ j.val → bitOf (R.SUMP_EVSTAT.val i t) k = bitOf (R.SUMP_EVSTAT.val i s) k) ∧
    (evHeld (32 * i + j) s = true → ∃ t, exec (.sumpEvstatClear m i v) s = .next t ∧
      R.SUMP_EVSTAT.val i t = R.SUMP_EVSTAT.val i s ∧ F.SUMP_STAT_CLEAR_REFUSED.get 0 t = 1 ∧
      F.SUMP_REFUSED_EVENT.get 0 t = 32 * i + j ∧ F.SUMP_REFUSED_COUNT.get 0 t = satInc 16 (F.SUMP_REFUSED_COUNT.get 0 s) 1)) ∧
  (WriteReaches m (R.SUMP_CTRL.addr 0) s →
    (F.SUMP_STAT_STATE.get 0 s ≠ 0 → exitOk s = true → sound exitWords →
      ∃ t, exec (.sumpExit m) s = .next t ∧ t.sump.exitPend = some (cmdEdge s)) ∧
    (F.SUMP_STAT_STATE.get 0 s ≠ 0 → exitOk s = false → sound exitWords →
      ∃ t, exec (.sumpExit m) s = .next t ∧ t.sump.exitPend = s.sump.exitPend ∧ F.SUMP_STAT_CLEAR_REFUSED.get 0 t = 1 ∧
      F.SUMP_REFUSED_EVENT.get 0 t = 255) ∧
    (∃ t, exec (.sumpHclr m) s = .next t ∧ (∀ i < 32, R.SUMP_HIST.val i t = 0) ∧ F.SUMP_HIST_STAT_NEXT.get 0 t = 0 ∧
      F.SUMP_HIST_STAT_COUNT.get 0 t = 0 ∧ F.SUMP_HIST_STAT_OVF.get 0 t = 0)) ∧
  (running s = false → s.sump.exitPend.isSome = true → F.SUMP_STAT_STATE.get 0 s ≠ 0 → exitOk s = true → sound exitWords →
    ∃ t, exec .sumpExitApply s = .next t ∧ t.sump.exitPend = none ∧ F.SUMP_STAT_STATE.get 0 t = 0 ∧ t.sump.zeroHold = false) ∧
  (∀ (i : Fin 256) (v : Word), WriteReaches m (R.SUMP_EVCFG.addr i) s → s.lock = false → evListed i = true →
    F.SUMP_EVCFG_CLASS.of v.toNat < 5 → (F.SUMP_EVCFG_CLASS.of v.toNat = F.SUMP_EVCFG_CLASS.get i s ∨
      (evIsFixed i = false ∧ bitOf (R.SUMP_EVSTAT.val (i / 32) s) (i % 32) = false)) →
    ∃ t, exec (.sumpEvcfgWrite m i v) s = .next t ∧ F.SUMP_EVCFG_CLASS.get i t = F.SUMP_EVCFG_CLASS.of v.toNat ∧
      F.SUMP_EVCFG_INT0.get i t = F.SUMP_EVCFG_INT0.of v.toNat ∧ F.SUMP_EVCFG_INT1.get i t = F.SUMP_EVCFG_INT1.of v.toNat ∧
      F.SUMP_EVCFG_LOG.get i t = F.SUMP_EVCFG_LOG.of v.toNat) ∧
  (∀ i : Fin 32, asleep s = false → ∃ t, exec (.sumpHistRead m i) s = .next t ∧
    smFind t.bus.resp m = some ⟨[BitVec.ofNat 64 (histWord s i 0)], false⟩ ∧
    ∀ w ∈ [1, 2, 3], latched t m (R.SUMP_HIST.addr 0 + 4 * w) = some (histWord s i w))

/-! ### The loader and the layers -/

/-- Loading an image completes: a header block that passes its checks takes the loader to DRAM with its register writes made, one that fails
takes it to DEFAULT with its cause, and a copy whose base passes stands in LPDDR5X and is ready to play. -/
def Obligations.LoadingCompletes : Prop :=
  ∀ s : State,
  (∀ hdr : List Byte, s.pwr.vdd = true → s.pwr.listen = false → s.clk.up = true → boot s = 0 → s.strata.hdr = [] → hdr ≠ [] →
    let h := hdr.take (hdrLen hdr)
    (hdrCause h = 0 → F.DRAM_STAT_READY.on 0 s = false → (∀ i < fieldLe h 36 2, fieldLe h (320 + 8 * i) 4 = R.DRAM_CFG.addr 0 ∨
        fieldLe h (320 + 8 * i) 4 = R.DRAM_CTRL.addr 0) → ∃ t, exec (.loaderStart hdr) s = .next t ∧ t.strata.hdr = h ∧
      R.STRATA_ICW.val 0 t = fieldLe h 12 4 ∧ boot t = 1 ∧
      (fieldLe h 6 1 ≤ 15 → F.STRATA_OVL_PRESENT.get 0 t = 2 ^ fieldLe h 6 1 - 1) ∧
      (let v := fieldLe h 324 4
       fieldLe h 36 2 = 1 → fieldLe h 320 4 = R.DRAM_CFG.addr 0 → s.lock = false → dramTaken s = false → F.DRAM_CFG_SIZE.of v < 3 →
       F.DRAM_CFG_RATE.of v < 3 → F.DRAM_CFG_SIZE.get 0 t = F.DRAM_CFG_SIZE.of v ∧ F.DRAM_CFG_RATE.get 0 t = F.DRAM_CFG_RATE.of v)) ∧
    (hdrCause h ≠ 0 → ∃ t, exec (.loaderStart hdr) s = .next t ∧ boot t = 5 ∧ F.STRATA_STAT_CAUSE.get 0 t = hdrCause h ∧
      F.STRATA_STAT_DEFAULT.get 0 t = 1 ∧ phase t = 7 ∧ EvSet .STRATA_DEFAULT t)) ∧
  (boot s = 1 → F.DRAM_STAT_READY.on 0 s = false → asleep s = false → passed s.strata.dramAt (msCycles 50 s) s = true →
    ∃ t, exec .loaderDramTimeout s = .next t ∧ boot t = 5 ∧
    F.STRATA_STAT_CAUSE.get 0 t = 3 ∧ F.STRATA_STAT_DEFAULT.get 0 t = 1 ∧ EvSet .STRATA_DEFAULT t) ∧
  (∀ img : List Byte, boot s = 2 → hdrField s 8 4 ≤ img.length →
    (crc32c ((img.drop (hdrField s 16 4)).take (hdrField s 20 4)) = hdrField s 24 4 → Memory.wf s.mem = true → 0x80000000 ≤ stageAddr s →
      ∃ t, exec (.stageComplete img) s = .next t ∧ boot t = 3 ∧
        t.strata.base = some (stageAddr s + hdrField s 16 4, stageAddr s + hdrField s 16 4 + hdrField s 20 4) ∧
        memBytes t.mem (stageAddr s) (hdrField s 8 4) = img.take (hdrField s 8 4) ∧
        (phase t = 2 ∨ phase t = 3) ∧ (phase s ≠ 0 → phase t = if s.pwr.mixOn then 2 else 3)) ∧
    (crc32c ((img.drop (hdrField s 16 4)).take (hdrField s 20 4)) ≠ hdrField s 24 4 →
      ∃ t, exec (.stageComplete img) s = .next t ∧ boot t = 5 ∧ F.STRATA_STAT_CAUSE.get 0 t = 4))

/-- The records of a base layer complete: FILL, WRITE, WRITE40 and PROG make their accesses as the loader's, in order, and FILL fills gallery
memory; ROUTE writes the route table, MODE sets and stores the operating point, LOCK locks, and END puts the base in service. -/
def Obligations.RecordCommandsComplete : Prop :=
  ∀ (s : State) (a e : Nat), let bs := memBytes s.mem a (recSize (memBytes s.mem a 8))
  let next : State := { s with strata := { s.strata with base := some (a + recSize bs, e), played := true } }
  let writes (i : Instr) : Prop := (∀ x ∈ recAccesses bs, x.1 < 2 ^ 32) →
    ∃ t, exec i s = .next t ∧ exec i s = .next (loaderDoes (recAccesses bs) next)
  (PlaysNext 0 a e s → a + 8 = e → ∃ t, exec .recordEnd s = .next t ∧ boot t = 4 ∧ phase t = 4 ∧ t.strata.base = none) ∧
  (PlaysNext 1 a e s → writes .recordFill ∧ (∀ (g : Fin 16) (w : Fin 262144), asleep s = false → Memory.wf s.mem = true →
    recAddr bs = galAddr g w → w + fieldLe bs 8 4 ≤ 262144 → ∃ t, exec .recordFill s = .next t ∧
    ∀ i < fieldLe bs 8 4, word40 t (galAddr g (w + i)) = BitVec.ofNat 40 (fieldLe bs 16 8))) ∧
  (PlaysNext 2 a e s → writes .recordWrite) ∧
  (PlaysNext 3 a e s → writes .recordWrite40) ∧
  (PlaysNext 4 a e s → writes .recordProg) ∧
  (PlaysNext 5 a e s → recCnt bs = 1 → ∃ t, exec .recordRoute s = .next t ∧ t.strata.base = some (a + recSize bs, e) ∧
    ((recRoute bs 0).1 = 0 → srcBad (recRoute bs 0).2.2.toNat = false →
      smGet (fun _ => 0) t.route.tbl (recRoute bs 0).2.1 = (recRoute bs 0).2.2 &&& 0x80000FFF)) ∧
  (PlaysNext 6 a e s → asleep s = false → s.lock = false → F.TICK_CFG_FS.of (recMode bs) < 6 → F.TICK_CFG_F.of (recMode bs) < 5 →
    ∃ t, exec .recordMode s = .next t ∧ R.STRATA_MODE.val 0 t = recMode bs ∧ F.TICK_CFG_FS.get 0 t = F.TICK_CFG_FS.of (recMode bs) ∧
      F.TICK_CFG_F.get 0 t = F.TICK_CFG_F.of (recMode bs) ∧ F.CLK_PLLA_FSEL.get 0 t = F.STRATA_MODE_FSEL.of (recMode bs)) ∧
  (PlaysNext 7 a e s → ∃ t, exec .recordLock s = .next t ∧ t.lock = true ∧ F.STRATA_STAT_LOCKED.get 0 t = 1 ∧
    t.strata.base = some (a + recSize bs, e))

/-- Arming, switching and reloading complete: commands wait for their edge, a layer that has been played is armed and one that failed leaves
its result, the AT trigger starts the play of the switch section, whose end names the switch edge, and a reload is ordered and ends; a
second one is dropped until the gallery has returned (log 107). -/
def Obligations.StrataCommandsComplete : Prop :=
  ∀ (m : Master) (s : State),
  (WriteReaches m (R.STRATA_CMD.addr 0) s → boot s = 4 →
    (swSt s = 0 → ∃ t, exec (.strataArm m) s = .next t ∧ CommandWaits 0 s t) ∧
    (∃ t, exec (.strataGo m) s = .next t ∧ CommandWaits 1 s t) ∧
    (∃ t, exec (.strataDisarm m) s = .next t ∧ CommandWaits 2 s t) ∧
    (swSt s ≠ 0 → ∃ t, exec (.strataArm m) s = .next t ∧ t.strata.cmds = s.strata.cmds ∧ F.XBAR_ACCERR_REASON.get 0 t = 3)) ∧
  (∀ a e, swSt s = 1 → s.strata.armErr = 0 → s.strata.arm = some (a, e) → e ≤ a → s.strata.warmGo = false →
    ∃ t, exec .armingComplete s = .next t ∧ swSt t = 2 ∧ F.STRATA_SWSTAT_RESULT.get 0 t = 1) ∧
  (swSt s = 1 → s.strata.armErr ≠ 0 → s.strata.armErr < 16 → ∃ t, exec .armingComplete s = .next t ∧ swSt t = 0 ∧
    F.STRATA_SWSTAT_RESULT.get 0 t = s.strata.armErr ∧ t.strata.arm = none) ∧
  (running s = true → F.STRATA_TRIG_MODE.get 0 s = 2 → tickNum s + 1 = F.STRATA_AT_AT.get 0 s →
    (swSt s = 2 → ∃ t, exec .strataAtTrigger s = .next t ∧ swSt t = 3 ∧ t.strata.sectAt = none) ∧
    (swSt s ≠ 2 → swSt s ≠ 3 → ∃ t, exec .strataAtTrigger s = .next t ∧ swSt t = swSt s ∧ F.STRATA_SWSTAT_RESULT.get 0 t = 9 ∧
      F.STRATA_SWSTAT_REFCNT.get 0 t = satInc 8 (F.STRATA_SWSTAT_REFCNT.get 0 s) 1)) ∧
  (swSt s = 3 → s.strata.sectAt = none → s.strata.sect = [] → ∃ t, exec .switchPlayComplete s = .next t ∧
    t.strata.sectAt = some (cmdEdge s)) ∧
  (∀ v : Word, swSt s = 3 → s.strata.sectAt = none → asleep s = false → s.strata.cmds = [] →
    s.strata.sect = [[(R.TICK_NETMARGIN.addr 0, v)]] →
    ∃ t, exec .switchPlayComplete s = .next t ∧ t.strata.sectAt = some (cmdEdge s) ∧
      F.TICK_NETMARGIN_NS.get 0 t = F.TICK_NETMARGIN_NS.of v.toNat ∧ F.TICK_NETMARGIN_NS.live 0 t = F.TICK_NETMARGIN_NS.live 0 s ∧
      ∃ x ∈ t.shPend, x.addr = R.TICK_NETMARGIN.addr 0 ∧ x.held = true) ∧
  (∀ (v : Word) (r : List (Nat × Word)) (rest : List (List (Nat × Word))), swSt s = 3 → s.strata.sectAt = none → asleep s = false →
    s.strata.sect = [(R.TICK_NETMARGIN.addr 0, v)] :: r :: rest → ∃ t, exec .recordWrite s = .next t ∧ t.strata.sect = r :: rest ∧
      t.strata.sectAt = none ∧ F.TICK_NETMARGIN_NS.get 0 t = F.TICK_NETMARGIN_NS.of v.toNat) ∧
  (∀ v : Word, WriteReaches m (R.STRATA_GCMD.addr 0) s → bitOf v.toNat 31 = true → reloadRuns s = false → swSt s ≠ 1 →
    ∃ t, exec (.galleryReloadGo m v) s = .next t ∧ CommandWaits 3 s t ∧
      F.STRATA_GCMD_GAL.get 0 t = F.STRATA_GCMD_GAL.of v.toNat ∧ F.STRATA_GCMD_SRC.get 0 t = F.STRATA_GCMD_SRC.of v.toNat ∧
      F.STRATA_GCMD_RET_T.get 0 t = F.STRATA_GCMD_RET_T.of v.toNat ∧ F.STRATA_GCMD_INDEX.get 0 t = F.STRATA_GCMD_INDEX.of v.toNat) ∧
  (∀ v : Word, WriteReaches m (R.STRATA_GCMD.addr 0) s → bitOf v.toNat 31 = true → reloadRuns s = true →
    ∃ t, exec (.galleryReloadGo m v) s = .next t ∧ t.strata.cmds = s.strata.cmds ∧ F.XBAR_ACCERR_REASON.get 0 t = 3) ∧
  (F.STRATA_GSTAT_BUSY.on 0 s = true →
    (∀ a e, s.strata.rErr = 0 → s.strata.rel = some (a, e) → e ≤ a → ∃ t, exec .reloadPlayComplete s = .next t ∧
      F.STRATA_GSTAT_BUSY.get 0 t = 0 ∧ t.strata.rel = none ∧ t.strata.rDone = true) ∧
    (s.strata.rErr ≠ 0 → s.strata.rErr < 16 → ∃ t, exec .reloadPlayComplete s = .next t ∧ F.STRATA_GSTAT_BUSY.get 0 t = 0 ∧
      F.STRATA_GSTAT_RESULT.get 0 t = s.strata.rErr ∧ t.strata.out = s.strata.out))

/-! ### Reset, power and inputs -/

/-- Every source of a reset completes: it records its cause, raises SYS_RESET, stops the tick and starts the loader; a short pulse does
nothing, and the watchdog restarts by its key. -/
def Obligations.ResetCommandsComplete : Prop :=
  ∀ (m : Master) (s : State),
  let isReset (i : Instr) (c : Nat) : Prop := ∃ t, exec i s = .next t ∧ F.SYS_RSTCAUSE_CAUSE.get 0 t = c ∧ EvSet .SYS_RESET t ∧
    running t = false ∧ boot t = 0 ∧ F.SUMP_STAT_STATE.get 0 t = 0
  (isReset .porst 0 ∧ ∃ t, exec .porst s = .next t ∧ t.pwr.vdd = true) ∧
  (∀ ns, (ns < 100 → exec (.resetNPulse ns) s = .next s) ∧ (1000 ≤ ns → s.pwr.vdd = true → isReset (.resetNPulse ns) 1 ∧
    ∃ t, exec (.resetNPulse ns) s = .next t ∧ F.DRAM_STAT_SR.get 0 t = 1)) ∧
  (∀ v : Word, WriteReaches m (R.SYS_SWRST.addr 0) s →
    (F.SYS_SWRST_KEY.of v.toNat = 0x5AFE → F.SYS_SWRST_GO.of v.toNat = 1 → isReset (.sysSwrst m v) 2) ∧
    (F.SYS_SWRST_KEY.of v.toNat ≠ 0x5AFE → ∃ t, exec (.sysSwrst m v) s = .next t ∧ F.XBAR_ACCERR_REASON.get 0 t = 3 ∧
      F.SYS_RSTCAUSE_CAUSE.get 0 t = F.SYS_RSTCAUSE_CAUSE.get 0 s)) ∧
  (∀ v : Word, WriteReaches m (R.SYS_WDOG.addr 0) s → s.lock = false → ∃ t, exec (.sysWdogWrite m v) s = .next t ∧
    F.SYS_WDOG_EN.get 0 t = F.SYS_WDOG_EN.of v.toNat ∧ F.SYS_WDOG_TIMEOUT.get 0 t = F.SYS_WDOG_TIMEOUT.of v.toNat ∧
    (F.SYS_WDOG_EN.of v.toNat = 1 → t.pwr.wdogAt = s.elapsed)) ∧
  (∀ v : Word, WriteReaches m (R.SYS_WDOG_KICK.addr 0) s →
    (F.SYS_WDOG_KICK_KEY.of v.toNat = 0xCAFE → ∃ t, exec (.wdogKick m v) s = .next t ∧ t.pwr.wdogAt = s.elapsed) ∧
    (F.SYS_WDOG_KICK_KEY.of v.toNat ≠ 0xCAFE → ∃ t, exec (.wdogKick m v) s = .next t ∧ t.pwr.wdogAt = s.pwr.wdogAt ∧
      F.XBAR_ACCERR_REASON.get 0 t = 3)) ∧
  (wdogDue s = true → isReset .watchdogExpiry 3)

/-- The early mix and the restart of the tick complete. Gains and formats of the early mix that the spec leaves open are free (log 34). -/
def Obligations.BringUpCommandsComplete : Prop :=
  ∀ s : State,
  (asleep s = false → boot s = 1 ∨ boot s = 2 → s.strata.hdr ≠ [] → phase s = 0 → s.clk.up = true → running s = false →
    s.tick.starting = false → s.pwr.mixOn = false → mixTerms s ≠ [] → ∃ t, exec .earlyMixStart s = .next t ∧ t.pwr.mixOn = true ∧
    t.pwr.mix = (mixTerms s).filter (fun x => decide (-240 < x.gain)) ∧ t.tick.starting = true ∧ F.TICK_CTRL_RUN.get 0 t = 1 ∧
    phase t = 1) ∧
  (∀ k, s.pwr.mixOn = true → s.pwr.fade = some k → 480 ≤ k * spt s → ∃ t, exec .earlyMixFadeEnd s = .next t ∧ t.pwr.mixOn = false ∧
    t.pwr.mix = [] ∧ t.pwr.fade = none ∧ (phase s = 2 → F.TICK_CTRL_RUN.get 0 t = 0 ∧ phase t = 3) ∧ (phase s ≠ 2 → phase t = phase s)) ∧
  (phase s = 4 → boot s = 4 → running s = false → s.tick.starting = false →
    passed s.strata.endAt (msCycles (F.PWR_BOOT_PTPWAIT.get 0 s) s) s = true → ∃ t, exec (.bootTickRestart true) s = .next t ∧
    F.TICK_CTRL_RUN.get 0 t = 1 ∧ t.tick.starting = true ∧ phase t = 5)

/-- The inputs, the mains and the shutdown complete: levels and spikes are taken, a filtered change is acted on, a stuck input is raised,
half-cycles are judged, and the stages of the shutdown follow one another. The cause that a wake records is deduced (log 31). -/
def Obligations.PowerCommandsComplete : Prop :=
  ∀ (m : Master) (i : InPin) (s : State),
  (∃ t, exec (.inputPinChange i false) s = .next t ∧ (inAt t i).low = !(inAt s i).low ∧ (inAt t i).active = (inAt s i).active) ∧
  (s.pwr.vdd = true → ∃ t, exec (.inputPinChange i true) s = .next t ∧ (inAt t i).low = (inAt s i).low ∧
    (inAt t i).absorbed = (inAt s i).absorbed + 1 ∧ F.PWR_INOVF_COUNT.get i t = satInc 16 (F.PWR_INOVF_COUNT.get i s) 1) ∧
  (s.pwr.vdd = true → s.pwr.listen = false → inActive s i ≠ (inAt s i).active →
    passed (inAt s i).since (usCycles (max 10 (F.PWR_INCFG_DEB.get i s)) s) s = true → ∃ t, exec (.inputFilterChange i) s = .next t ∧
    (inAt t i).active = inActive s i ∧ (inAt t i).absorbed = 0 ∧ (0 < (inAt s i).absorbed → EvSet .IN_COALESCE t)) ∧
  (s.pwr.vdd = true → (inAt s i).active = true → F.PWR_INCFG_STUCK.get i s ≠ 0 → bitOf (F.PWR_INSTAT_STUCK.get 0 s) i = false →
    passed (inAt s i).changed (msCycles (F.PWR_INCFG_STUCK.get i s) s) s = true →
    ∃ t, exec (.inStuck i) s = .next t ∧ bitOf (F.PWR_INSTAT_STUCK.get 0 t) i = true ∧ EvSet .IN_STUCK t) ∧
  (∀ v : Fin 65536, s.pwr.vdd = true → sdSt s ≠ 4 → ∃ t, exec (.halfCycleEnd v) s = .next t ∧ F.PWR_MSTAT_VPK.get 0 t = v ∧
    t.pwr.vpks = (v.val :: s.pwr.vpks).take 15 ∧
    (F.PWR_MSTAT_BELOW.on 0 s = false → F.PWR_MCFG_NLOW.get 0 s = 1 → v < F.PWR_MCFG_LOW.get 0 s → F.PWR_MSTAT_BELOW.get 0 t = 1 ∧
      EvSet .MAINS_LOW t ∧ (F.PWR_MCFG_SD_EN.on 0 s = true → sdSt s = 0 → sdSt t = 1 ∧ EvSet .PWR_SHUTDOWN t)) ∧
    (F.PWR_MSTAT_BELOW.on 0 s = true → F.PWR_MCFG_NRET.get 0 s = 1 → F.PWR_MCFG_RET.get 0 s ≤ v → F.PWR_MSTAT_BELOW.get 0 t = 0 ∧
      (sdSt s = 1 → sdSt t = 0 ∧ F.PWR_STAT_ABORTS.get 0 t = satInc 16 (F.PWR_STAT_ABORTS.get 0 s) 1))) ∧
  (sdSt s = 1 → gainsZero s = true → passed s.pwr.sdAt (msCycles (F.PWR_MCFG_DWELL.get 0 s) s) s = true →
    ∃ t, exec .shutdownS2 s = .next t ∧ sdSt t = 2 ∧ EvSet .PWR_SHUTDOWN t) ∧
  (sdSt s = 2 → passed s.pwr.sdAt (saveCycles s) s = true → ∃ t, exec .shutdownS3 s = .next t ∧ sdSt t = 3 ∧ F.TICK_CTRL_RUN.get 0 t = 0 ∧ EvSet .PWR_SHUTDOWN t) ∧
  (sdSt s = 3 → running s = false →
    (s.pwr.returned = false → ∃ t, exec .shutdownS4 s = .next t ∧ sdSt t = 4 ∧ t.pwr.pdreq = true ∧ F.DRAM_STAT_SR.get 0 t = 1) ∧
    (s.pwr.returned = true → ∃ t, exec .shutdownS4 s = .next t ∧ F.SYS_RSTCAUSE_CAUSE.get 0 t = 2 ∧
      F.SYS_RSTCAUSE_SHUTDOWN.get 0 t = 1 ∧ EvSet .SYS_RESET t)) ∧
  (s.Canonical → ∃ t, exec .supplyFail s = .next t ∧ t.pwr.vdd = false ∧ t.rope.live = false ∧ t.pair.own = false ∧
    R.PWR_KALATCH.val 0 t = R.PWR_KALATCH.val 0 s ∧ R.PWR_KACFG.val 0 t = R.PWR_KACFG.val 0 s) ∧
  (∀ v : W64, WriteReaches m (R.PWR_MCFG.addr 0) s → s.lock = false → sdSt s ≠ 4 → F.PWR_MCFG_LOW.of v.toNat < F.PWR_MCFG_RET.of v.toNat →
    ∃ t, exec (.pwrMcfgWrite m v) s = .next t ∧ F.PWR_MCFG_SD_EN.get 0 t = F.PWR_MCFG_SD_EN.of v.toNat ∧
      F.PWR_MCFG_DWELL.get 0 t = F.PWR_MCFG_DWELL.of v.toNat ∧ F.PWR_MCFG_NRET.get 0 t = F.PWR_MCFG_NRET.of v.toNat ∧
      F.PWR_MCFG_NLOW.get 0 t = F.PWR_MCFG_NLOW.of v.toNat ∧ F.PWR_MCFG_RET.get 0 t = F.PWR_MCFG_RET.of v.toNat ∧
      F.PWR_MCFG_LOW.get 0 t = F.PWR_MCFG_LOW.of v.toNat) ∧
  (∀ v : W64, WriteReaches m (R.PWR_JHOST.addr 0) s → F.PWR_JHOST_HLEN.of v.toNat ≤ 32704 → F.PWR_JHOST_HADDR.of v.toNat % 8 = 0 →
    0x80000000 ≤ F.PWR_JHOST_HADDR.of v.toNat → F.PWR_JHOST_HADDR.of v.toNat + F.PWR_JHOST_HLEN.of v.toNat ≤ dramEnd s →
    ∃ t, exec (.pwrJhostWrite m v) s = .next t ∧ F.PWR_JHOST_HADDR.get 0 t = F.PWR_JHOST_HADDR.of v.toNat ∧
      F.PWR_JHOST_HLEN.get 0 t = F.PWR_JHOST_HLEN.of v.toNat) ∧
  (WriteReaches m (R.PWR_LP.addr 0) s → running s = false → sdSt s = 0 → ∃ t, exec (.listenEnter m) s = .next t ∧
    t.pwr.listen = true ∧ t.clk.lockB = false ∧ F.DRAM_STAT_SR.get 0 t = 1) ∧
  (F.PWR_KACFG_TAMPER_EN.on 0 s = true → ∃ t, exec .tamperLatch s = .next t ∧ F.PWR_KALATCH_TAMPER.get 0 t = 1) ∧
  (∃ t, exec .mainsLatch s = .next t ∧ F.PWR_KALATCH_MAINS.get 0 t = 1) ∧
  (F.PWR_KACFG_CLK.on 0 s = true → ∃ t, exec .kaAlarm s = .next t ∧ F.PWR_KALATCH_ALARM.get 0 t = 1 ∧
    F.PWR_KACNT_COUNT.get 0 t = F.PWR_KAALARM_ALARM.get 0 s) ∧
  (∃ t, exec .vkaLoss s = .next t ∧ F.PWR_KALATCH_KAPOR.get 0 t = 1 ∧ R.PWR_KACFG.val 0 t = 0 ∧ F.PWR_KAALARM_ALARM.get 0 t = 0)

/-! ### The host port and the LPDDR5X controller -/

/-- The transactions of the host port complete: a READ drives the status byte, then each word behind its token; a WRITE is made; STATUS
answers with `HCP_STAT`; an ABORT ends what M1 waits for; the end of a transaction keeps its code; and a configuration of another master
takes force at once. That a configuration of another master takes force at once is the model's choice (log 56). -/
def Obligations.HostPortCommandsComplete : Prop :=
  ∀ (cmd : HcpByte) (s : State),
  let fresh (op : Nat) : Prop := asleep s = false ∧ s.hcp.open_ = false ∧ hcpOp cmd.toNat = op ∧ hcpBad s cmd.toNat = false
  let status := bytesBe 1 (hcpStatusByte s)
  (∀ n, fresh 0 → accessPends 1 s = false → s.clk.up = true → hcpSize cmd.toNat = .b4 → bitOf cmd.toNat 3 = false →
    ∃ t, exec (.hcpRead cmd (BitVec.ofNat 32 (R.STRATA_ICW.addr 0)) n) s = .next t ∧ t.hcp.open_ = true ∧ t.hcp.code = 0 ∧
      t.hcp.out = status ++ (List.replicate n (bytesBe 1 0x5A ++ bytesBe 4 (R.STRATA_ICW.val 0 s))).flatten) ∧
  (∀ v : W64, fresh 1 → accessPends 1 s = false → s.clk.up = true → hcpSize cmd.toNat = .b4 →
    WriteReaches 1 (R.XBAR_AGE.addr 0) s → s.lock = false →
    ∃ t, exec (.hcpWrite cmd (BitVec.ofNat 32 (R.XBAR_AGE.addr 0)) [v]) s = .next t ∧ t.hcp.out = status ∧ t.hcp.code = 0 ∧
      F.XBAR_AGE_LIMIT.get 0 t = v.toNat % 256) ∧
  (∀ v : W64, fresh 1 → accessPends 1 s = false → s.clk.up = true → hcpSize cmd.toNat = .b4 → s.hcp.cfg = none →
    ∃ t w, exec (.hcpWrite cmd (BitVec.ofNat 32 (R.HCP_CFG.addr 0)) [v]) s = .next t ∧ t.hcp.cfg = some w ∧
      R.HCP_CFG.val 0 t = R.HCP_CFG.val 0 s ∧ F.HCP_CFG_QEN.of w.toNat = F.HCP_CFG_QEN.of v.toNat) ∧
  (fresh 2 → passed 0 (msCycles 2 s) s = true → ∃ t, exec (.hcpStatus cmd) s = .next t ∧
    t.hcp.out = status ++ bytesBe 4 (showVal .HCP_STAT 0 1 s (R.HCP_STAT.val 0 s)) ∧ t.hcp.open_ = true ∧ t.hcp.code = 0) ∧
  (fresh 3 → ∃ t, exec (.hcpAbort cmd) s = .next t ∧ t.hcp.code = 5 ∧ F.HCP_STAT_CODE.get 0 t = 5 ∧ EvSet .HCP_ERR t ∧
    accessPends 1 t = false) ∧
  (s.hcp.open_ = false → asleep s = false → accessPends 1 s = true → hcpOp cmd.toNat = 0 → hcpBad s cmd.toNat = false →
    ∀ a n, ∃ t, exec (.hcpRead cmd a n) s = .next t ∧ t.hcp.code = 6 ∧ t.hcp.out = status ∧ EvSet .HCP_ERR t) ∧
  (s.hcp.open_ = true → s.hcp.todo = [] → s.hcp.cfg = none →
    (s.hcp.code = 0 → s.hcp.op ≠ 2 → ∃ t, exec (.hcpCsRise false) s = .next t ∧ t.hcp.open_ = false ∧ F.HCP_STAT_CODE.get 0 t = 0 ∧
      F.HCP_CNT_TRANS.get 0 t = (F.HCP_CNT_TRANS.get 0 s + 1) % 65536 ∧ F.HCP_CNT_ERRORS.get 0 t = F.HCP_CNT_ERRORS.get 0 s) ∧
    (s.hcp.code = 0 → s.hcp.op = 1 → ∃ t, exec (.hcpCsRise true) s = .next t ∧ F.HCP_STAT_CODE.get 0 t = 3 ∧
      F.HCP_STAT_ERRSEEN.get 0 t = 1 ∧ F.HCP_CNT_ERRORS.get 0 t = satInc 16 (F.HCP_CNT_ERRORS.get 0 s) 1 ∧ EvSet .HCP_ERR t)) ∧
  (∀ (l : LaneSlot) (k : Fin 8192), s.hcp.open_ = false → asleep s = false → s.bus.routeStall = [] → s.pool.waits = [] →
    s.bus.waiting = [⟨.master 1, xyAddr l false k, .read .b4⟩] → laneReleased s l = false →
    ∃ t, exec .hcpReadComplete s = .next t ∧ t.bus.waiting = [] ∧ smFind t.bus.resp 1 = none) ∧
  (∀ (m : Master) (v : Word), m.val ≠ 1 → WriteReaches m (R.HCP_CFG.addr 0) s → ∃ t, exec (.hcpCfgWrite m v) s = .next t ∧
    F.HCP_CFG_QEN.get 0 t = F.HCP_CFG_QEN.of v.toNat ∧ F.HCP_CFG_INTOD.get 0 t = F.HCP_CFG_INTOD.of v.toNat)

/-- The commands of the LPDDR5X controller complete, and none of them acts while it is READY or BUSY. -/
def Obligations.DramCommandsComplete : Prop :=
  ∀ (m : Master) (v : Word) (s : State),
  (WriteReaches m (R.DRAM_CTRL.addr 0) s → dramTaken s = false → ∃ t, exec (.dramInit m) s = .next t ∧
    F.DRAM_STAT_BUSY.get 0 t = 1 ∧ F.DRAM_STAT_READY.get 0 t = 0 ∧ F.DRAM_STAT_SR.get 0 t = 0) ∧
  (∀ ok, F.DRAM_STAT_BUSY.on 0 s = true →
    (boot s ≠ 1 → ∃ t, exec (.dramInitDone ok) s = .next t ∧ F.DRAM_STAT_BUSY.get 0 t = 0 ∧ F.DRAM_STAT_READY.get 0 t = b2n ok ∧
      F.DRAM_STAT_FAIL.get 0 t = b2n (!ok)) ∧
    (boot s = 1 → s.strata.hdr ≠ [] → s.strata.warmReq = false → 0x80000000 ≤ stageAddr s → stageAddr s + hdrField s 8 4 ≤ dramEnd s →
      ∃ t, exec (.dramInitDone ok) s = .next t ∧ boot t = if ok then 2 else 5)) ∧
  (WriteReaches m (R.DRAM_CFG.addr 0) s → dramTaken s = false → s.lock = false → F.DRAM_CFG_SIZE.of v.toNat < 3 →
    F.DRAM_CFG_RATE.of v.toNat < 3 → ∃ t, exec (.dramCfgWrite m v) s = .next t ∧ F.DRAM_CFG_SIZE.get 0 t = F.DRAM_CFG_SIZE.of v.toNat ∧
    F.DRAM_CFG_RATE.get 0 t = F.DRAM_CFG_RATE.of v.toNat ∧ F.DRAM_CFG_RANKS.get 0 t = F.DRAM_CFG_RANKS.of v.toNat) ∧
  (WriteReaches m (R.DRAM_CFG.addr 0) s → dramTaken s = true → ∃ t, exec (.dramCfgWrite m v) s = .next t ∧
    R.DRAM_CFG.val 0 t = R.DRAM_CFG.val 0 s ∧ F.XBAR_ACCERR_REASON.get 0 t = 3)

/-! ### Rules and frames that span the blocks -/

/-- A 32-bit access of a master to an address that no memory window and no register takes is a decode error: the read answers zero and
the write is dropped, neither with a bus error; the address, the master and the direction are logged, XBAR_DECODE is raised, and nothing
else of the node changes. -/
def Obligations.DecodeErrors : Prop :=
  ∀ (m : Master) (a : Word) (v : W64) (s : State), a.toNat % 4 = 0 → windowOf a.toNat s = none → windowOf (a.toNat / 8 * 8) s = none →
    placeOf a.toNat = none → (∀ r ∈ [MatrixReq.read .b4, .write .b4 v], mustWait (.master m) a.toNat r s = false) → WriteReaches m a.toNat s →
    let logged (wr : Nat) (t : State) : Prop := F.XBAR_DERR_VALID.get 0 t = 1 ∧ F.XBAR_DERR_WR.get 0 t = wr ∧
      F.XBAR_DERR_MASTER.get 0 t = m ∧ F.XBAR_DERR_ADDR.get 0 t = a.toNat ∧
      F.XBAR_DERR_COUNT.get 0 t = satInc 16 (F.XBAR_DERR_COUNT.get 0 s) 1 ∧ EvSet .XBAR_DECODE t ∧ OnlyChanges [.bus] [] s t
    (∃ t, exec (.memoryAccess (.master m) a (.read .b4)) s = .next t ∧ smFind t.bus.resp m = some ⟨[0], false⟩ ∧ logged 0 t) ∧
    (∃ t, exec (.memoryAccess (.master m) a (.write .b4 v)) s = .next t ∧ smFind t.bus.resp m = some ⟨[], false⟩ ∧ logged 1 t)

/-- Writes that a rule of the register's own refuses are dropped in full: a lane frame with too many channels, trim times that do not fit
the update period or are zero, a sense point that another enabled point holds or whose rail does not exist, a state set beyond its lane's
memories, and a DRAM configuration while the controller is ready or busy. Nothing is stored, the record names the master and REASON 0b11,
and nothing else of the node changes. -/
def Obligations.RefusedWrites : Prop :=
  ∀ (m : Master) (s : State),
  let refused (i : Instr) : Prop := ∃ t, exec i s = .next t ∧ F.XBAR_ACCERR_VALID.get 0 t = 1 ∧ F.XBAR_ACCERR_MASTER.get 0 t = m ∧
    F.XBAR_ACCERR_REASON.get 0 t = 3 ∧ OnlyChanges [.bus] [] s t
  (∀ (l : LaneSlot) (v : Word), WriteReaches m (R.LANE_FRAME.addr l) s → laneReleased s l = false → s.lock = false →
    64 < F.LANE_FRAME_OUT_CH.of v.toNat ∨ 256 < F.LANE_FRAME_IN_CH.of v.toNat ∨ 4096 < F.LANE_FRAME_IN_CH.of v.toNat * spt (rated s) →
    refused (.laneFrameWrite m l v)) ∧
  (∀ v : Word, WriteReaches m (R.DEC_ID_TIME.addr 0) s → s.lock = false →
    F.DEC_ID_TIME_UPD_T.of v.toNat < F.DEC_ID_TIME_COMP_T.of v.toNat + 1 + F.DEC_ID_TIME_FADE_T.of v.toNat ∨
      F.DEC_ID_TIME_COMP_T.of v.toNat = 0 ∨ F.DEC_ID_TIME_FADE_T.of v.toNat = 0 → refused (.decIdTimeWrite m v)) ∧
  (∀ (p : Fin 128) (v : Word), WriteReaches m (R.SENSE_PT.addr p) s → F.SENSE_PT_KIND.of v.toNat < 3 → F.SENSE_PT_EN.of v.toNat = 1 →
    (∃ q < 128, q ≠ p.val ∧ F.SENSE_PT_EN.on q s = true ∧ F.SENSE_PT_KIND.get q s = F.SENSE_PT_KIND.of v.toNat ∧
      F.SENSE_PT_OWNER.get q s = F.SENSE_PT_OWNER.of v.toNat) ∨
      (F.SENSE_PT_KIND.of v.toNat ≠ 0 ∧ 7 < F.SENSE_PT_OWNER.of v.toNat) → refused (.sensePtWrite m p v)) ∧
  (∀ (g j : Fin 16) (v : W64), WriteReaches m (R.GAL_STSET.addr (16 * g + j)) s → s.lock = false →
    8192 < F.GAL_STSET_XBASE.of v.toNat + F.GAL_STSET_XLEN.of v.toNat ∨ 8192 < F.GAL_STSET_YBASE.of v.toNat + F.GAL_STSET_YLEN.of v.toNat ∨
      2048 < F.GAL_STSET_XLEN.of v.toNat + F.GAL_STSET_YLEN.of v.toNat → refused (.galStsetWrite m g j v)) ∧
  (∀ v : Word, WriteReaches m (R.DRAM_CFG.addr 0) s → F.DRAM_STAT_READY.on 0 s = true ∨ F.DRAM_STAT_BUSY.on 0 s = true →
    refused (.dramCfgWrite m v))

/-- A write to a shadow that holds a write of another master overwrites it before its edge cycle: the loser's bit is set, winner, loser,
address and tie are recorded, and XBAR_SH_CONFLICT is raised. The later write stands, and of two presented in the same cycle that of the
master that ranks higher, which has then overwritten the other's (a pair already recorded only gains its tie). In the edge cycle a write
that is due at the coming edge is not overwritten: it keeps its value for that edge, and the later value is stored for the next. Over a
write of its own nothing is recorded. That a standby holds its edge for a forwarded write is the model's order (log 55). -/
def Obligations.ShadowConflicts : Prop :=
  ∀ (m : Master) (v : W64) (tie : Bool) (w : ShWrite) (s : State), WriteReaches m (R.TICK_NETMARGIN.addr 0) s →
    (m.val = 1 → accessPends 1 s = false) → s.shPend.filter (·.addr = R.TICK_NETMARGIN.addr 0) = [w] → w.late = false → w.master < 10 →
    let late : Bool := inEdgeCycle s && !heldForMark m s
    let due : Bool := dueNow w s
    let met : Bool := w.master ≠ m && (!inEdgeCycle s || !due)
    let lost : Bool := met && tie && decide (masterRank w.master < masterRank m)
    let again : Bool := lost && w.ousted == some m.val
    let also : Bool := lost && w.ousted == some w.master
    let winner : Nat := if lost then w.master else m.val
    let loser : Nat := if lost then m.val else w.master
    ∃ t q, exec (.registerWrite m (BitVec.ofNat 32 (R.TICK_NETMARGIN.addr 0)) .b4 v tie) s = .next t ∧
      (∀ x ∈ s.shPend, x.seq < q) ∧ R.XBAR_ACCERR.val 0 t = R.XBAR_ACCERR.val 0 s ∧
      (lost = true → R.TICK_NETMARGIN.val 0 t = R.TICK_NETMARGIN.val 0 s ∧ t.shPend = s.shPend) ∧
      (lost = false → F.TICK_NETMARGIN_NS.get 0 t = v.toNat % 2 ^ 14 ∧
        t.shPend = s.shPend.filter (·.addr ≠ R.TICK_NETMARGIN.addr 0) ++ [⟨R.TICK_NETMARGIN.addr 0, m, false, late,
          if late && due then some (R.TICK_NETMARGIN.val 0 s, w.master) else none, q, if late && due then none else some w.master⟩]) ∧
      (met = true →
        (again = false → EvSet .XBAR_SH_CONFLICT t ∧ ∀ i < 10, bitOf (F.XBAR_CONFLICT_OVERWRITTEN.get 0 t) i =
          (i == loser || (also && i == winner) || bitOf (F.XBAR_CONFLICT_OVERWRITTEN.get 0 s) i)) ∧
        (again = true → F.XBAR_CONFLICT_OVERWRITTEN.get 0 t = F.XBAR_CONFLICT_OVERWRITTEN.get 0 s ∧ t.sump = s.sump) ∧
        F.XBAR_CONFLICT_TIE.on 0 t = (tie || F.XBAR_CONFLICT_TIE.on 0 s) ∧
        F.XBAR_CONFLICT_LAST_ADDR.get 0 t = R.TICK_NETMARGIN.addr 0 ∧ F.XBAR_CONFLICT_LAST_TIE.on 0 t = tie ∧
        F.XBAR_CONFLICT_LAST_WINNER.get 0 t = winner ∧ F.XBAR_CONFLICT_LAST_LOSER.get 0 t = loser) ∧
      (met = false → R.XBAR_CONFLICT.val 0 t = R.XBAR_CONFLICT.val 0 s ∧
        R.XBAR_CONFLICT_LAST.val 0 t = R.XBAR_CONFLICT_LAST.val 0 s ∧ t.sump = s.sump)

/-- The history is a ring of 32: a logged raise is written at NEXT, which then advances modulo 32, so that the newest entry stands at
(NEXT − 1) mod 32; COUNT rises to at most 32; a write into a full ring replaces the entry there and increments OVF; the other 31 entries
stay. -/
def Obligations.HistoryRing : Prop :=
  ∀ (r : SumpRaise) (rest : List SumpRaise) (s : State), s.sump.queue = r :: rest →
    ∃ t, exec .sumpLog s = .next t ∧ (R.SUMP_HIST_STAT.addr 0 ∉ s.sump.parity → t.sump.queue = rest) ∧
      R.SUMP_HIST.val (F.SUMP_HIST_STAT_NEXT.get 0 s) t = histEntry r ∧
      F.SUMP_HIST_STAT_NEXT.get 0 t = (F.SUMP_HIST_STAT_NEXT.get 0 s + 1) % 32 ∧
      R.SUMP_HIST.val ((F.SUMP_HIST_STAT_NEXT.get 0 t + 31) % 32) t = histEntry r ∧
      (∀ i < 32, i ≠ F.SUMP_HIST_STAT_NEXT.get 0 s → R.SUMP_HIST.val i t = R.SUMP_HIST.val i s) ∧
      (F.SUMP_HIST_STAT_COUNT.get 0 s < 32 → F.SUMP_HIST_STAT_COUNT.get 0 t = F.SUMP_HIST_STAT_COUNT.get 0 s + 1 ∧
        F.SUMP_HIST_STAT_OVF.get 0 t = F.SUMP_HIST_STAT_OVF.get 0 s) ∧
      (32 ≤ F.SUMP_HIST_STAT_COUNT.get 0 s → F.SUMP_HIST_STAT_COUNT.get 0 t = F.SUMP_HIST_STAT_COUNT.get 0 s ∧
        F.SUMP_HIST_STAT_OVF.get 0 t = satInc 16 (F.SUMP_HIST_STAT_OVF.get 0 s) 1)

/-- A register write of a configuration command changes the element it addresses, what waits for an edge, the bus, and what the register's
own rule names; a dropped or conflicting write may be reported. Every other register, every lane, all of memory and every other component
of the state stay. -/
def Obligations.ConfigurationFrame : Prop :=
  ∀ (c : Instr) (ps : List Part) (rs : List Where) (s t : State), reach c = some (ps, rs) → Part.shPend ∈ ps → exec c s = .next t →
    OnlyChanges ps rs s t

/-- Every other command that `reach` lists (lane instructions, engines, frames, messages, clocks, the Sump, power) changes the components
and registers listed for it and what a report may reach, and nothing else. -/
def Obligations.CommandFrame : Prop :=
  ∀ (c : Instr) (ps : List Part) (rs : List Where) (s t : State), reach c = some (ps, rs) → Part.shPend ∉ ps → exec c s = .next t →
    OnlyChanges ps rs s t
end

