-- ==== Sys2Proof/Laws/State.lean ====
section
/-! SUPPORT. What each primitive update does to each field of the state, one lemma for each, and what running an effect does. No later
proof needs to unfold a record update or `Act.run`. -/

namespace Sys2Proof.Machine

/-! ### Primitive updates, field by field -/

@[simp] theorem upd_free_pending (n : Nat) (s : State) : ((Upd.free n).apply s).pending = s.pending := rfl
@[simp] theorem upd_free_free (n : Nat) (s : State) : ((Upd.free n).apply s).free = n := rfl
@[simp] theorem upd_free_now (n : Nat) (s : State) : ((Upd.free n).apply s).now = s.now := rfl
@[simp] theorem upd_free_elapsed (n : Nat) (s : State) : ((Upd.free n).apply s).elapsed = s.elapsed := rfl
@[simp] theorem upd_free_lock (n : Nat) (s : State) : ((Upd.free n).apply s).lock = s.lock := rfl
@[simp] theorem upd_free_regs (n : Nat) (s : State) : ((Upd.free n).apply s).regs = s.regs := rfl
@[simp] theorem upd_free_live (n : Nat) (s : State) : ((Upd.free n).apply s).live = s.live := rfl
@[simp] theorem upd_free_shPend (n : Nat) (s : State) : ((Upd.free n).apply s).shPend = s.shPend := rfl
@[simp] theorem upd_free_bus (n : Nat) (s : State) : ((Upd.free n).apply s).bus = s.bus := rfl
@[simp] theorem upd_free_lanes (n : Nat) (s : State) : ((Upd.free n).apply s).lanes = s.lanes := rfl
@[simp] theorem upd_free_mem (n : Nat) (s : State) : ((Upd.free n).apply s).mem = s.mem := rfl
@[simp] theorem upd_free_ecc (n : Nat) (s : State) : ((Upd.free n).apply s).ecc = s.ecc := rfl
@[simp] theorem upd_free_tick (n : Nat) (s : State) : ((Upd.free n).apply s).tick = s.tick := rfl
@[simp] theorem upd_free_sump (n : Nat) (s : State) : ((Upd.free n).apply s).sump = s.sump := rfl
@[simp] theorem upd_free_route (n : Nat) (s : State) : ((Upd.free n).apply s).route = s.route := rfl
@[simp] theorem upd_free_rope (n : Nat) (s : State) : ((Upd.free n).apply s).rope = s.rope := rfl
@[simp] theorem upd_free_dly (n : Nat) (s : State) : ((Upd.free n).apply s).dly = s.dly := rfl
@[simp] theorem upd_free_gdma (n : Nat) (s : State) : ((Upd.free n).apply s).gdma = s.gdma := rfl
@[simp] theorem upd_free_dec (n : Nat) (s : State) : ((Upd.free n).apply s).dec = s.dec := rfl
@[simp] theorem upd_free_sap (n : Nat) (s : State) : ((Upd.free n).apply s).sap = s.sap := rfl
@[simp] theorem upd_free_mods (n : Nat) (s : State) : ((Upd.free n).apply s).mods = s.mods := rfl
@[simp] theorem upd_free_pool (n : Nat) (s : State) : ((Upd.free n).apply s).pool = s.pool := rfl
@[simp] theorem upd_free_eth (n : Nat) (s : State) : ((Upd.free n).apply s).eth = s.eth := rfl
@[simp] theorem upd_free_t1s (n : Nat) (s : State) : ((Upd.free n).apply s).t1s = s.t1s := rfl
@[simp] theorem upd_free_clt (n : Nat) (s : State) : ((Upd.free n).apply s).clt = s.clt := rfl
@[simp] theorem upd_free_ptp (n : Nat) (s : State) : ((Upd.free n).apply s).ptp = s.ptp := rfl
@[simp] theorem upd_free_clk (n : Nat) (s : State) : ((Upd.free n).apply s).clk = s.clk := rfl
@[simp] theorem upd_free_pair (n : Nat) (s : State) : ((Upd.free n).apply s).pair = s.pair := rfl
@[simp] theorem upd_free_strata (n : Nat) (s : State) : ((Upd.free n).apply s).strata = s.strata := rfl
@[simp] theorem upd_free_pwr (n : Nat) (s : State) : ((Upd.free n).apply s).pwr = s.pwr := rfl
@[simp] theorem upd_free_hcp (n : Nat) (s : State) : ((Upd.free n).apply s).hcp = s.hcp := rfl
@[simp] theorem upd_free_pins (n : Nat) (s : State) : ((Upd.free n).apply s).pins = s.pins := rfl

@[simp] theorem upd_now_pending (n : Nat) (s : State) : ((Upd.now n).apply s).pending = s.pending := rfl
@[simp] theorem upd_now_free (n : Nat) (s : State) : ((Upd.now n).apply s).free = s.free := rfl
@[simp] theorem upd_now_now (n : Nat) (s : State) : ((Upd.now n).apply s).now = n := rfl
@[simp] theorem upd_now_elapsed (n : Nat) (s : State) : ((Upd.now n).apply s).elapsed = s.elapsed := rfl
@[simp] theorem upd_now_lock (n : Nat) (s : State) : ((Upd.now n).apply s).lock = s.lock := rfl
@[simp] theorem upd_now_regs (n : Nat) (s : State) : ((Upd.now n).apply s).regs = s.regs := rfl
@[simp] theorem upd_now_live (n : Nat) (s : State) : ((Upd.now n).apply s).live = s.live := rfl
@[simp] theorem upd_now_shPend (n : Nat) (s : State) : ((Upd.now n).apply s).shPend = s.shPend := rfl
@[simp] theorem upd_now_bus (n : Nat) (s : State) : ((Upd.now n).apply s).bus = s.bus := rfl
@[simp] theorem upd_now_lanes (n : Nat) (s : State) : ((Upd.now n).apply s).lanes = s.lanes := rfl
@[simp] theorem upd_now_mem (n : Nat) (s : State) : ((Upd.now n).apply s).mem = s.mem := rfl
@[simp] theorem upd_now_ecc (n : Nat) (s : State) : ((Upd.now n).apply s).ecc = s.ecc := rfl
@[simp] theorem upd_now_tick (n : Nat) (s : State) : ((Upd.now n).apply s).tick = s.tick := rfl
@[simp] theorem upd_now_sump (n : Nat) (s : State) : ((Upd.now n).apply s).sump = s.sump := rfl
@[simp] theorem upd_now_route (n : Nat) (s : State) : ((Upd.now n).apply s).route = s.route := rfl
@[simp] theorem upd_now_rope (n : Nat) (s : State) : ((Upd.now n).apply s).rope = s.rope := rfl
@[simp] theorem upd_now_dly (n : Nat) (s : State) : ((Upd.now n).apply s).dly = s.dly := rfl
@[simp] theorem upd_now_gdma (n : Nat) (s : State) : ((Upd.now n).apply s).gdma = s.gdma := rfl
@[simp] theorem upd_now_dec (n : Nat) (s : State) : ((Upd.now n).apply s).dec = s.dec := rfl
@[simp] theorem upd_now_sap (n : Nat) (s : State) : ((Upd.now n).apply s).sap = s.sap := rfl
@[simp] theorem upd_now_mods (n : Nat) (s : State) : ((Upd.now n).apply s).mods = s.mods := rfl
@[simp] theorem upd_now_pool (n : Nat) (s : State) : ((Upd.now n).apply s).pool = s.pool := rfl
@[simp] theorem upd_now_eth (n : Nat) (s : State) : ((Upd.now n).apply s).eth = s.eth := rfl
@[simp] theorem upd_now_t1s (n : Nat) (s : State) : ((Upd.now n).apply s).t1s = s.t1s := rfl
@[simp] theorem upd_now_clt (n : Nat) (s : State) : ((Upd.now n).apply s).clt = s.clt := rfl
@[simp] theorem upd_now_ptp (n : Nat) (s : State) : ((Upd.now n).apply s).ptp = s.ptp := rfl
@[simp] theorem upd_now_clk (n : Nat) (s : State) : ((Upd.now n).apply s).clk = s.clk := rfl
@[simp] theorem upd_now_pair (n : Nat) (s : State) : ((Upd.now n).apply s).pair = s.pair := rfl
@[simp] theorem upd_now_strata (n : Nat) (s : State) : ((Upd.now n).apply s).strata = s.strata := rfl
@[simp] theorem upd_now_pwr (n : Nat) (s : State) : ((Upd.now n).apply s).pwr = s.pwr := rfl
@[simp] theorem upd_now_hcp (n : Nat) (s : State) : ((Upd.now n).apply s).hcp = s.hcp := rfl
@[simp] theorem upd_now_pins (n : Nat) (s : State) : ((Upd.now n).apply s).pins = s.pins := rfl

@[simp] theorem upd_elapsed_pending (n : Nat) (s : State) : ((Upd.elapsed n).apply s).pending = s.pending := rfl
@[simp] theorem upd_elapsed_free (n : Nat) (s : State) : ((Upd.elapsed n).apply s).free = s.free := rfl
@[simp] theorem upd_elapsed_now (n : Nat) (s : State) : ((Upd.elapsed n).apply s).now = s.now := rfl
@[simp] theorem upd_elapsed_elapsed (n : Nat) (s : State) : ((Upd.elapsed n).apply s).elapsed = n := rfl
@[simp] theorem upd_elapsed_lock (n : Nat) (s : State) : ((Upd.elapsed n).apply s).lock = s.lock := rfl
@[simp] theorem upd_elapsed_regs (n : Nat) (s : State) : ((Upd.elapsed n).apply s).regs = s.regs := rfl
@[simp] theorem upd_elapsed_live (n : Nat) (s : State) : ((Upd.elapsed n).apply s).live = s.live := rfl
@[simp] theorem upd_elapsed_shPend (n : Nat) (s : State) : ((Upd.elapsed n).apply s).shPend = s.shPend := rfl
@[simp] theorem upd_elapsed_bus (n : Nat) (s : State) : ((Upd.elapsed n).apply s).bus = s.bus := rfl
@[simp] theorem upd_elapsed_lanes (n : Nat) (s : State) : ((Upd.elapsed n).apply s).lanes = s.lanes := rfl
@[simp] theorem upd_elapsed_mem (n : Nat) (s : State) : ((Upd.elapsed n).apply s).mem = s.mem := rfl
@[simp] theorem upd_elapsed_ecc (n : Nat) (s : State) : ((Upd.elapsed n).apply s).ecc = s.ecc := rfl
@[simp] theorem upd_elapsed_tick (n : Nat) (s : State) : ((Upd.elapsed n).apply s).tick = s.tick := rfl
@[simp] theorem upd_elapsed_sump (n : Nat) (s : State) : ((Upd.elapsed n).apply s).sump = s.sump := rfl
@[simp] theorem upd_elapsed_route (n : Nat) (s : State) : ((Upd.elapsed n).apply s).route = s.route := rfl
@[simp] theorem upd_elapsed_rope (n : Nat) (s : State) : ((Upd.elapsed n).apply s).rope = s.rope := rfl
@[simp] theorem upd_elapsed_dly (n : Nat) (s : State) : ((Upd.elapsed n).apply s).dly = s.dly := rfl
@[simp] theorem upd_elapsed_gdma (n : Nat) (s : State) : ((Upd.elapsed n).apply s).gdma = s.gdma := rfl
@[simp] theorem upd_elapsed_dec (n : Nat) (s : State) : ((Upd.elapsed n).apply s).dec = s.dec := rfl
@[simp] theorem upd_elapsed_sap (n : Nat) (s : State) : ((Upd.elapsed n).apply s).sap = s.sap := rfl
@[simp] theorem upd_elapsed_mods (n : Nat) (s : State) : ((Upd.elapsed n).apply s).mods = s.mods := rfl
@[simp] theorem upd_elapsed_pool (n : Nat) (s : State) : ((Upd.elapsed n).apply s).pool = s.pool := rfl
@[simp] theorem upd_elapsed_eth (n : Nat) (s : State) : ((Upd.elapsed n).apply s).eth = s.eth := rfl
@[simp] theorem upd_elapsed_t1s (n : Nat) (s : State) : ((Upd.elapsed n).apply s).t1s = s.t1s := rfl
@[simp] theorem upd_elapsed_clt (n : Nat) (s : State) : ((Upd.elapsed n).apply s).clt = s.clt := rfl
@[simp] theorem upd_elapsed_ptp (n : Nat) (s : State) : ((Upd.elapsed n).apply s).ptp = s.ptp := rfl
@[simp] theorem upd_elapsed_clk (n : Nat) (s : State) : ((Upd.elapsed n).apply s).clk = s.clk := rfl
@[simp] theorem upd_elapsed_pair (n : Nat) (s : State) : ((Upd.elapsed n).apply s).pair = s.pair := rfl
@[simp] theorem upd_elapsed_strata (n : Nat) (s : State) : ((Upd.elapsed n).apply s).strata = s.strata := rfl
@[simp] theorem upd_elapsed_pwr (n : Nat) (s : State) : ((Upd.elapsed n).apply s).pwr = s.pwr := rfl
@[simp] theorem upd_elapsed_hcp (n : Nat) (s : State) : ((Upd.elapsed n).apply s).hcp = s.hcp := rfl
@[simp] theorem upd_elapsed_pins (n : Nat) (s : State) : ((Upd.elapsed n).apply s).pins = s.pins := rfl

@[simp] theorem upd_lock_pending (b : Bool) (s : State) : ((Upd.lock b).apply s).pending = s.pending := rfl
@[simp] theorem upd_lock_free (b : Bool) (s : State) : ((Upd.lock b).apply s).free = s.free := rfl
@[simp] theorem upd_lock_now (b : Bool) (s : State) : ((Upd.lock b).apply s).now = s.now := rfl
@[simp] theorem upd_lock_elapsed (b : Bool) (s : State) : ((Upd.lock b).apply s).elapsed = s.elapsed := rfl
@[simp] theorem upd_lock_lock (b : Bool) (s : State) : ((Upd.lock b).apply s).lock = b := rfl
@[simp] theorem upd_lock_regs (b : Bool) (s : State) : ((Upd.lock b).apply s).regs = s.regs := rfl
@[simp] theorem upd_lock_live (b : Bool) (s : State) : ((Upd.lock b).apply s).live = s.live := rfl
@[simp] theorem upd_lock_shPend (b : Bool) (s : State) : ((Upd.lock b).apply s).shPend = s.shPend := rfl
@[simp] theorem upd_lock_bus (b : Bool) (s : State) : ((Upd.lock b).apply s).bus = s.bus := rfl
@[simp] theorem upd_lock_lanes (b : Bool) (s : State) : ((Upd.lock b).apply s).lanes = s.lanes := rfl
@[simp] theorem upd_lock_mem (b : Bool) (s : State) : ((Upd.lock b).apply s).mem = s.mem := rfl
@[simp] theorem upd_lock_ecc (b : Bool) (s : State) : ((Upd.lock b).apply s).ecc = s.ecc := rfl
@[simp] theorem upd_lock_tick (b : Bool) (s : State) : ((Upd.lock b).apply s).tick = s.tick := rfl
@[simp] theorem upd_lock_sump (b : Bool) (s : State) : ((Upd.lock b).apply s).sump = s.sump := rfl
@[simp] theorem upd_lock_route (b : Bool) (s : State) : ((Upd.lock b).apply s).route = s.route := rfl
@[simp] theorem upd_lock_rope (b : Bool) (s : State) : ((Upd.lock b).apply s).rope = s.rope := rfl
@[simp] theorem upd_lock_dly (b : Bool) (s : State) : ((Upd.lock b).apply s).dly = s.dly := rfl
@[simp] theorem upd_lock_gdma (b : Bool) (s : State) : ((Upd.lock b).apply s).gdma = s.gdma := rfl
@[simp] theorem upd_lock_dec (b : Bool) (s : State) : ((Upd.lock b).apply s).dec = s.dec := rfl
@[simp] theorem upd_lock_sap (b : Bool) (s : State) : ((Upd.lock b).apply s).sap = s.sap := rfl
@[simp] theorem upd_lock_mods (b : Bool) (s : State) : ((Upd.lock b).apply s).mods = s.mods := rfl
@[simp] theorem upd_lock_pool (b : Bool) (s : State) : ((Upd.lock b).apply s).pool = s.pool := rfl
@[simp] theorem upd_lock_eth (b : Bool) (s : State) : ((Upd.lock b).apply s).eth = s.eth := rfl
@[simp] theorem upd_lock_t1s (b : Bool) (s : State) : ((Upd.lock b).apply s).t1s = s.t1s := rfl
@[simp] theorem upd_lock_clt (b : Bool) (s : State) : ((Upd.lock b).apply s).clt = s.clt := rfl
@[simp] theorem upd_lock_ptp (b : Bool) (s : State) : ((Upd.lock b).apply s).ptp = s.ptp := rfl
@[simp] theorem upd_lock_clk (b : Bool) (s : State) : ((Upd.lock b).apply s).clk = s.clk := rfl
@[simp] theorem upd_lock_pair (b : Bool) (s : State) : ((Upd.lock b).apply s).pair = s.pair := rfl
@[simp] theorem upd_lock_strata (b : Bool) (s : State) : ((Upd.lock b).apply s).strata = s.strata := rfl
@[simp] theorem upd_lock_pwr (b : Bool) (s : State) : ((Upd.lock b).apply s).pwr = s.pwr := rfl
@[simp] theorem upd_lock_hcp (b : Bool) (s : State) : ((Upd.lock b).apply s).hcp = s.hcp := rfl
@[simp] theorem upd_lock_pins (b : Bool) (s : State) : ((Upd.lock b).apply s).pins = s.pins := rfl

@[simp] theorem upd_reg_pending (a : Nat) (v : Word) (s : State) : ((Upd.reg a v).apply s).pending = s.pending := rfl
@[simp] theorem upd_reg_free (a : Nat) (v : Word) (s : State) : ((Upd.reg a v).apply s).free = s.free := rfl
@[simp] theorem upd_reg_now (a : Nat) (v : Word) (s : State) : ((Upd.reg a v).apply s).now = s.now := rfl
@[simp] theorem upd_reg_elapsed (a : Nat) (v : Word) (s : State) : ((Upd.reg a v).apply s).elapsed = s.elapsed := rfl
@[simp] theorem upd_reg_lock (a : Nat) (v : Word) (s : State) : ((Upd.reg a v).apply s).lock = s.lock := rfl
@[simp] theorem upd_reg_regs (a : Nat) (v : Word) (s : State) : ((Upd.reg a v).apply s).regs = smInsert s.regs a v := rfl
@[simp] theorem upd_reg_live (a : Nat) (v : Word) (s : State) : ((Upd.reg a v).apply s).live = s.live := rfl
@[simp] theorem upd_reg_shPend (a : Nat) (v : Word) (s : State) : ((Upd.reg a v).apply s).shPend = s.shPend := rfl
@[simp] theorem upd_reg_bus (a : Nat) (v : Word) (s : State) : ((Upd.reg a v).apply s).bus = s.bus := rfl
@[simp] theorem upd_reg_lanes (a : Nat) (v : Word) (s : State) : ((Upd.reg a v).apply s).lanes = s.lanes := rfl
@[simp] theorem upd_reg_mem (a : Nat) (v : Word) (s : State) : ((Upd.reg a v).apply s).mem = s.mem := rfl
@[simp] theorem upd_reg_ecc (a : Nat) (v : Word) (s : State) : ((Upd.reg a v).apply s).ecc = s.ecc := rfl
@[simp] theorem upd_reg_tick (a : Nat) (v : Word) (s : State) : ((Upd.reg a v).apply s).tick = s.tick := rfl
@[simp] theorem upd_reg_sump (a : Nat) (v : Word) (s : State) : ((Upd.reg a v).apply s).sump = s.sump := rfl
@[simp] theorem upd_reg_route (a : Nat) (v : Word) (s : State) : ((Upd.reg a v).apply s).route = s.route := rfl
@[simp] theorem upd_reg_rope (a : Nat) (v : Word) (s : State) : ((Upd.reg a v).apply s).rope = s.rope := rfl
@[simp] theorem upd_reg_dly (a : Nat) (v : Word) (s : State) : ((Upd.reg a v).apply s).dly = s.dly := rfl
@[simp] theorem upd_reg_gdma (a : Nat) (v : Word) (s : State) : ((Upd.reg a v).apply s).gdma = s.gdma := rfl
@[simp] theorem upd_reg_dec (a : Nat) (v : Word) (s : State) : ((Upd.reg a v).apply s).dec = s.dec := rfl
@[simp] theorem upd_reg_sap (a : Nat) (v : Word) (s : State) : ((Upd.reg a v).apply s).sap = s.sap := rfl
@[simp] theorem upd_reg_mods (a : Nat) (v : Word) (s : State) : ((Upd.reg a v).apply s).mods = s.mods := rfl
@[simp] theorem upd_reg_pool (a : Nat) (v : Word) (s : State) : ((Upd.reg a v).apply s).pool = s.pool := rfl
@[simp] theorem upd_reg_eth (a : Nat) (v : Word) (s : State) : ((Upd.reg a v).apply s).eth = s.eth := rfl
@[simp] theorem upd_reg_t1s (a : Nat) (v : Word) (s : State) : ((Upd.reg a v).apply s).t1s = s.t1s := rfl
@[simp] theorem upd_reg_clt (a : Nat) (v : Word) (s : State) : ((Upd.reg a v).apply s).clt = s.clt := rfl
@[simp] theorem upd_reg_ptp (a : Nat) (v : Word) (s : State) : ((Upd.reg a v).apply s).ptp = s.ptp := rfl
@[simp] theorem upd_reg_clk (a : Nat) (v : Word) (s : State) : ((Upd.reg a v).apply s).clk = s.clk := rfl
@[simp] theorem upd_reg_pair (a : Nat) (v : Word) (s : State) : ((Upd.reg a v).apply s).pair = s.pair := rfl
@[simp] theorem upd_reg_strata (a : Nat) (v : Word) (s : State) : ((Upd.reg a v).apply s).strata = s.strata := rfl
@[simp] theorem upd_reg_pwr (a : Nat) (v : Word) (s : State) : ((Upd.reg a v).apply s).pwr = s.pwr := rfl
@[simp] theorem upd_reg_hcp (a : Nat) (v : Word) (s : State) : ((Upd.reg a v).apply s).hcp = s.hcp := rfl
@[simp] theorem upd_reg_pins (a : Nat) (v : Word) (s : State) : ((Upd.reg a v).apply s).pins = s.pins := rfl

@[simp] theorem upd_live_pending (a : Nat) (v : Word) (s : State) : ((Upd.live a v).apply s).pending = s.pending := rfl
@[simp] theorem upd_live_free (a : Nat) (v : Word) (s : State) : ((Upd.live a v).apply s).free = s.free := rfl
@[simp] theorem upd_live_now (a : Nat) (v : Word) (s : State) : ((Upd.live a v).apply s).now = s.now := rfl
@[simp] theorem upd_live_elapsed (a : Nat) (v : Word) (s : State) : ((Upd.live a v).apply s).elapsed = s.elapsed := rfl
@[simp] theorem upd_live_lock (a : Nat) (v : Word) (s : State) : ((Upd.live a v).apply s).lock = s.lock := rfl
@[simp] theorem upd_live_regs (a : Nat) (v : Word) (s : State) : ((Upd.live a v).apply s).regs = s.regs := rfl
@[simp] theorem upd_live_live (a : Nat) (v : Word) (s : State) : ((Upd.live a v).apply s).live = smInsert s.live a v := rfl
@[simp] theorem upd_live_shPend (a : Nat) (v : Word) (s : State) : ((Upd.live a v).apply s).shPend = s.shPend := rfl
@[simp] theorem upd_live_bus (a : Nat) (v : Word) (s : State) : ((Upd.live a v).apply s).bus = s.bus := rfl
@[simp] theorem upd_live_lanes (a : Nat) (v : Word) (s : State) : ((Upd.live a v).apply s).lanes = s.lanes := rfl
@[simp] theorem upd_live_mem (a : Nat) (v : Word) (s : State) : ((Upd.live a v).apply s).mem = s.mem := rfl
@[simp] theorem upd_live_ecc (a : Nat) (v : Word) (s : State) : ((Upd.live a v).apply s).ecc = s.ecc := rfl
@[simp] theorem upd_live_tick (a : Nat) (v : Word) (s : State) : ((Upd.live a v).apply s).tick = s.tick := rfl
@[simp] theorem upd_live_sump (a : Nat) (v : Word) (s : State) : ((Upd.live a v).apply s).sump = s.sump := rfl
@[simp] theorem upd_live_route (a : Nat) (v : Word) (s : State) : ((Upd.live a v).apply s).route = s.route := rfl
@[simp] theorem upd_live_rope (a : Nat) (v : Word) (s : State) : ((Upd.live a v).apply s).rope = s.rope := rfl
@[simp] theorem upd_live_dly (a : Nat) (v : Word) (s : State) : ((Upd.live a v).apply s).dly = s.dly := rfl
@[simp] theorem upd_live_gdma (a : Nat) (v : Word) (s : State) : ((Upd.live a v).apply s).gdma = s.gdma := rfl
@[simp] theorem upd_live_dec (a : Nat) (v : Word) (s : State) : ((Upd.live a v).apply s).dec = s.dec := rfl
@[simp] theorem upd_live_sap (a : Nat) (v : Word) (s : State) : ((Upd.live a v).apply s).sap = s.sap := rfl
@[simp] theorem upd_live_mods (a : Nat) (v : Word) (s : State) : ((Upd.live a v).apply s).mods = s.mods := rfl
@[simp] theorem upd_live_pool (a : Nat) (v : Word) (s : State) : ((Upd.live a v).apply s).pool = s.pool := rfl
@[simp] theorem upd_live_eth (a : Nat) (v : Word) (s : State) : ((Upd.live a v).apply s).eth = s.eth := rfl
@[simp] theorem upd_live_t1s (a : Nat) (v : Word) (s : State) : ((Upd.live a v).apply s).t1s = s.t1s := rfl
@[simp] theorem upd_live_clt (a : Nat) (v : Word) (s : State) : ((Upd.live a v).apply s).clt = s.clt := rfl
@[simp] theorem upd_live_ptp (a : Nat) (v : Word) (s : State) : ((Upd.live a v).apply s).ptp = s.ptp := rfl
@[simp] theorem upd_live_clk (a : Nat) (v : Word) (s : State) : ((Upd.live a v).apply s).clk = s.clk := rfl
@[simp] theorem upd_live_pair (a : Nat) (v : Word) (s : State) : ((Upd.live a v).apply s).pair = s.pair := rfl
@[simp] theorem upd_live_strata (a : Nat) (v : Word) (s : State) : ((Upd.live a v).apply s).strata = s.strata := rfl
@[simp] theorem upd_live_pwr (a : Nat) (v : Word) (s : State) : ((Upd.live a v).apply s).pwr = s.pwr := rfl
@[simp] theorem upd_live_hcp (a : Nat) (v : Word) (s : State) : ((Upd.live a v).apply s).hcp = s.hcp := rfl
@[simp] theorem upd_live_pins (a : Nat) (v : Word) (s : State) : ((Upd.live a v).apply s).pins = s.pins := rfl

@[simp] theorem upd_shPend_pending (l : List ShWrite) (s : State) : ((Upd.shPend l).apply s).pending = s.pending := rfl
@[simp] theorem upd_shPend_free (l : List ShWrite) (s : State) : ((Upd.shPend l).apply s).free = s.free := rfl
@[simp] theorem upd_shPend_now (l : List ShWrite) (s : State) : ((Upd.shPend l).apply s).now = s.now := rfl
@[simp] theorem upd_shPend_elapsed (l : List ShWrite) (s : State) : ((Upd.shPend l).apply s).elapsed = s.elapsed := rfl
@[simp] theorem upd_shPend_lock (l : List ShWrite) (s : State) : ((Upd.shPend l).apply s).lock = s.lock := rfl
@[simp] theorem upd_shPend_regs (l : List ShWrite) (s : State) : ((Upd.shPend l).apply s).regs = s.regs := rfl
@[simp] theorem upd_shPend_live (l : List ShWrite) (s : State) : ((Upd.shPend l).apply s).live = s.live := rfl
@[simp] theorem upd_shPend_shPend (l : List ShWrite) (s : State) : ((Upd.shPend l).apply s).shPend = l := rfl
@[simp] theorem upd_shPend_bus (l : List ShWrite) (s : State) : ((Upd.shPend l).apply s).bus = s.bus := rfl
@[simp] theorem upd_shPend_lanes (l : List ShWrite) (s : State) : ((Upd.shPend l).apply s).lanes = s.lanes := rfl
@[simp] theorem upd_shPend_mem (l : List ShWrite) (s : State) : ((Upd.shPend l).apply s).mem = s.mem := rfl
@[simp] theorem upd_shPend_ecc (l : List ShWrite) (s : State) : ((Upd.shPend l).apply s).ecc = s.ecc := rfl
@[simp] theorem upd_shPend_tick (l : List ShWrite) (s : State) : ((Upd.shPend l).apply s).tick = s.tick := rfl
@[simp] theorem upd_shPend_sump (l : List ShWrite) (s : State) : ((Upd.shPend l).apply s).sump = s.sump := rfl
@[simp] theorem upd_shPend_route (l : List ShWrite) (s : State) : ((Upd.shPend l).apply s).route = s.route := rfl
@[simp] theorem upd_shPend_rope (l : List ShWrite) (s : State) : ((Upd.shPend l).apply s).rope = s.rope := rfl
@[simp] theorem upd_shPend_dly (l : List ShWrite) (s : State) : ((Upd.shPend l).apply s).dly = s.dly := rfl
@[simp] theorem upd_shPend_gdma (l : List ShWrite) (s : State) : ((Upd.shPend l).apply s).gdma = s.gdma := rfl
@[simp] theorem upd_shPend_dec (l : List ShWrite) (s : State) : ((Upd.shPend l).apply s).dec = s.dec := rfl
@[simp] theorem upd_shPend_sap (l : List ShWrite) (s : State) : ((Upd.shPend l).apply s).sap = s.sap := rfl
@[simp] theorem upd_shPend_mods (l : List ShWrite) (s : State) : ((Upd.shPend l).apply s).mods = s.mods := rfl
@[simp] theorem upd_shPend_pool (l : List ShWrite) (s : State) : ((Upd.shPend l).apply s).pool = s.pool := rfl
@[simp] theorem upd_shPend_eth (l : List ShWrite) (s : State) : ((Upd.shPend l).apply s).eth = s.eth := rfl
@[simp] theorem upd_shPend_t1s (l : List ShWrite) (s : State) : ((Upd.shPend l).apply s).t1s = s.t1s := rfl
@[simp] theorem upd_shPend_clt (l : List ShWrite) (s : State) : ((Upd.shPend l).apply s).clt = s.clt := rfl
@[simp] theorem upd_shPend_ptp (l : List ShWrite) (s : State) : ((Upd.shPend l).apply s).ptp = s.ptp := rfl
@[simp] theorem upd_shPend_clk (l : List ShWrite) (s : State) : ((Upd.shPend l).apply s).clk = s.clk := rfl
@[simp] theorem upd_shPend_pair (l : List ShWrite) (s : State) : ((Upd.shPend l).apply s).pair = s.pair := rfl
@[simp] theorem upd_shPend_strata (l : List ShWrite) (s : State) : ((Upd.shPend l).apply s).strata = s.strata := rfl
@[simp] theorem upd_shPend_pwr (l : List ShWrite) (s : State) : ((Upd.shPend l).apply s).pwr = s.pwr := rfl
@[simp] theorem upd_shPend_hcp (l : List ShWrite) (s : State) : ((Upd.shPend l).apply s).hcp = s.hcp := rfl
@[simp] theorem upd_shPend_pins (l : List ShWrite) (s : State) : ((Upd.shPend l).apply s).pins = s.pins := rfl

@[simp] theorem upd_bus_pending (x : BusState) (s : State) : ((Upd.bus x).apply s).pending = s.pending := rfl
@[simp] theorem upd_bus_free (x : BusState) (s : State) : ((Upd.bus x).apply s).free = s.free := rfl
@[simp] theorem upd_bus_now (x : BusState) (s : State) : ((Upd.bus x).apply s).now = s.now := rfl
@[simp] theorem upd_bus_elapsed (x : BusState) (s : State) : ((Upd.bus x).apply s).elapsed = s.elapsed := rfl
@[simp] theorem upd_bus_lock (x : BusState) (s : State) : ((Upd.bus x).apply s).lock = s.lock := rfl
@[simp] theorem upd_bus_regs (x : BusState) (s : State) : ((Upd.bus x).apply s).regs = s.regs := rfl
@[simp] theorem upd_bus_live (x : BusState) (s : State) : ((Upd.bus x).apply s).live = s.live := rfl
@[simp] theorem upd_bus_shPend (x : BusState) (s : State) : ((Upd.bus x).apply s).shPend = s.shPend := rfl
@[simp] theorem upd_bus_bus (x : BusState) (s : State) : ((Upd.bus x).apply s).bus = x := rfl
@[simp] theorem upd_bus_lanes (x : BusState) (s : State) : ((Upd.bus x).apply s).lanes = s.lanes := rfl
@[simp] theorem upd_bus_mem (x : BusState) (s : State) : ((Upd.bus x).apply s).mem = s.mem := rfl
@[simp] theorem upd_bus_ecc (x : BusState) (s : State) : ((Upd.bus x).apply s).ecc = s.ecc := rfl
@[simp] theorem upd_bus_tick (x : BusState) (s : State) : ((Upd.bus x).apply s).tick = s.tick := rfl
@[simp] theorem upd_bus_sump (x : BusState) (s : State) : ((Upd.bus x).apply s).sump = s.sump := rfl
@[simp] theorem upd_bus_route (x : BusState) (s : State) : ((Upd.bus x).apply s).route = s.route := rfl
@[simp] theorem upd_bus_rope (x : BusState) (s : State) : ((Upd.bus x).apply s).rope = s.rope := rfl
@[simp] theorem upd_bus_dly (x : BusState) (s : State) : ((Upd.bus x).apply s).dly = s.dly := rfl
@[simp] theorem upd_bus_gdma (x : BusState) (s : State) : ((Upd.bus x).apply s).gdma = s.gdma := rfl
@[simp] theorem upd_bus_dec (x : BusState) (s : State) : ((Upd.bus x).apply s).dec = s.dec := rfl
@[simp] theorem upd_bus_sap (x : BusState) (s : State) : ((Upd.bus x).apply s).sap = s.sap := rfl
@[simp] theorem upd_bus_mods (x : BusState) (s : State) : ((Upd.bus x).apply s).mods = s.mods := rfl
@[simp] theorem upd_bus_pool (x : BusState) (s : State) : ((Upd.bus x).apply s).pool = s.pool := rfl
@[simp] theorem upd_bus_eth (x : BusState) (s : State) : ((Upd.bus x).apply s).eth = s.eth := rfl
@[simp] theorem upd_bus_t1s (x : BusState) (s : State) : ((Upd.bus x).apply s).t1s = s.t1s := rfl
@[simp] theorem upd_bus_clt (x : BusState) (s : State) : ((Upd.bus x).apply s).clt = s.clt := rfl
@[simp] theorem upd_bus_ptp (x : BusState) (s : State) : ((Upd.bus x).apply s).ptp = s.ptp := rfl
@[simp] theorem upd_bus_clk (x : BusState) (s : State) : ((Upd.bus x).apply s).clk = s.clk := rfl
@[simp] theorem upd_bus_pair (x : BusState) (s : State) : ((Upd.bus x).apply s).pair = s.pair := rfl
@[simp] theorem upd_bus_strata (x : BusState) (s : State) : ((Upd.bus x).apply s).strata = s.strata := rfl
@[simp] theorem upd_bus_pwr (x : BusState) (s : State) : ((Upd.bus x).apply s).pwr = s.pwr := rfl
@[simp] theorem upd_bus_hcp (x : BusState) (s : State) : ((Upd.bus x).apply s).hcp = s.hcp := rfl
@[simp] theorem upd_bus_pins (x : BusState) (s : State) : ((Upd.bus x).apply s).pins = s.pins := rfl

@[simp] theorem upd_lane_pending (i : Nat) (l : Lane) (s : State) : ((Upd.lane i l).apply s).pending = s.pending := rfl
@[simp] theorem upd_lane_free (i : Nat) (l : Lane) (s : State) : ((Upd.lane i l).apply s).free = s.free := rfl
@[simp] theorem upd_lane_now (i : Nat) (l : Lane) (s : State) : ((Upd.lane i l).apply s).now = s.now := rfl
@[simp] theorem upd_lane_elapsed (i : Nat) (l : Lane) (s : State) : ((Upd.lane i l).apply s).elapsed = s.elapsed := rfl
@[simp] theorem upd_lane_lock (i : Nat) (l : Lane) (s : State) : ((Upd.lane i l).apply s).lock = s.lock := rfl
@[simp] theorem upd_lane_regs (i : Nat) (l : Lane) (s : State) : ((Upd.lane i l).apply s).regs = s.regs := rfl
@[simp] theorem upd_lane_live (i : Nat) (l : Lane) (s : State) : ((Upd.lane i l).apply s).live = s.live := rfl
@[simp] theorem upd_lane_shPend (i : Nat) (l : Lane) (s : State) : ((Upd.lane i l).apply s).shPend = s.shPend := rfl
@[simp] theorem upd_lane_bus (i : Nat) (l : Lane) (s : State) : ((Upd.lane i l).apply s).bus = s.bus := rfl
@[simp] theorem upd_lane_lanes (i : Nat) (l : Lane) (s : State) : ((Upd.lane i l).apply s).lanes = lanePut s.lanes i l := rfl
@[simp] theorem upd_lane_mem (i : Nat) (l : Lane) (s : State) : ((Upd.lane i l).apply s).mem = s.mem := rfl
@[simp] theorem upd_lane_ecc (i : Nat) (l : Lane) (s : State) : ((Upd.lane i l).apply s).ecc = s.ecc := rfl
@[simp] theorem upd_lane_tick (i : Nat) (l : Lane) (s : State) : ((Upd.lane i l).apply s).tick = s.tick := rfl
@[simp] theorem upd_lane_sump (i : Nat) (l : Lane) (s : State) : ((Upd.lane i l).apply s).sump = s.sump := rfl
@[simp] theorem upd_lane_route (i : Nat) (l : Lane) (s : State) : ((Upd.lane i l).apply s).route = s.route := rfl
@[simp] theorem upd_lane_rope (i : Nat) (l : Lane) (s : State) : ((Upd.lane i l).apply s).rope = s.rope := rfl
@[simp] theorem upd_lane_dly (i : Nat) (l : Lane) (s : State) : ((Upd.lane i l).apply s).dly = s.dly := rfl
@[simp] theorem upd_lane_gdma (i : Nat) (l : Lane) (s : State) : ((Upd.lane i l).apply s).gdma = s.gdma := rfl
@[simp] theorem upd_lane_dec (i : Nat) (l : Lane) (s : State) : ((Upd.lane i l).apply s).dec = s.dec := rfl
@[simp] theorem upd_lane_sap (i : Nat) (l : Lane) (s : State) : ((Upd.lane i l).apply s).sap = s.sap := rfl
@[simp] theorem upd_lane_mods (i : Nat) (l : Lane) (s : State) : ((Upd.lane i l).apply s).mods = s.mods := rfl
@[simp] theorem upd_lane_pool (i : Nat) (l : Lane) (s : State) : ((Upd.lane i l).apply s).pool = s.pool := rfl
@[simp] theorem upd_lane_eth (i : Nat) (l : Lane) (s : State) : ((Upd.lane i l).apply s).eth = s.eth := rfl
@[simp] theorem upd_lane_t1s (i : Nat) (l : Lane) (s : State) : ((Upd.lane i l).apply s).t1s = s.t1s := rfl
@[simp] theorem upd_lane_clt (i : Nat) (l : Lane) (s : State) : ((Upd.lane i l).apply s).clt = s.clt := rfl
@[simp] theorem upd_lane_ptp (i : Nat) (l : Lane) (s : State) : ((Upd.lane i l).apply s).ptp = s.ptp := rfl
@[simp] theorem upd_lane_clk (i : Nat) (l : Lane) (s : State) : ((Upd.lane i l).apply s).clk = s.clk := rfl
@[simp] theorem upd_lane_pair (i : Nat) (l : Lane) (s : State) : ((Upd.lane i l).apply s).pair = s.pair := rfl
@[simp] theorem upd_lane_strata (i : Nat) (l : Lane) (s : State) : ((Upd.lane i l).apply s).strata = s.strata := rfl
@[simp] theorem upd_lane_pwr (i : Nat) (l : Lane) (s : State) : ((Upd.lane i l).apply s).pwr = s.pwr := rfl
@[simp] theorem upd_lane_hcp (i : Nat) (l : Lane) (s : State) : ((Upd.lane i l).apply s).hcp = s.hcp := rfl
@[simp] theorem upd_lane_pins (i : Nat) (l : Lane) (s : State) : ((Upd.lane i l).apply s).pins = s.pins := rfl

@[simp] theorem upd_mem_pending (a : Nat) (b : Byte) (s : State) : ((Upd.mem a b).apply s).pending = s.pending := rfl
@[simp] theorem upd_mem_free (a : Nat) (b : Byte) (s : State) : ((Upd.mem a b).apply s).free = s.free := rfl
@[simp] theorem upd_mem_now (a : Nat) (b : Byte) (s : State) : ((Upd.mem a b).apply s).now = s.now := rfl
@[simp] theorem upd_mem_elapsed (a : Nat) (b : Byte) (s : State) : ((Upd.mem a b).apply s).elapsed = s.elapsed := rfl
@[simp] theorem upd_mem_lock (a : Nat) (b : Byte) (s : State) : ((Upd.mem a b).apply s).lock = s.lock := rfl
@[simp] theorem upd_mem_regs (a : Nat) (b : Byte) (s : State) : ((Upd.mem a b).apply s).regs = s.regs := rfl
@[simp] theorem upd_mem_live (a : Nat) (b : Byte) (s : State) : ((Upd.mem a b).apply s).live = s.live := rfl
@[simp] theorem upd_mem_shPend (a : Nat) (b : Byte) (s : State) : ((Upd.mem a b).apply s).shPend = s.shPend := rfl
@[simp] theorem upd_mem_bus (a : Nat) (b : Byte) (s : State) : ((Upd.mem a b).apply s).bus = s.bus := rfl
@[simp] theorem upd_mem_lanes (a : Nat) (b : Byte) (s : State) : ((Upd.mem a b).apply s).lanes = s.lanes := rfl
@[simp] theorem upd_mem_mem (a : Nat) (b : Byte) (s : State) : ((Upd.mem a b).apply s).mem = memPut s.mem a b := rfl
@[simp] theorem upd_mem_ecc (a : Nat) (b : Byte) (s : State) : ((Upd.mem a b).apply s).ecc = s.ecc := rfl
@[simp] theorem upd_mem_tick (a : Nat) (b : Byte) (s : State) : ((Upd.mem a b).apply s).tick = s.tick := rfl
@[simp] theorem upd_mem_sump (a : Nat) (b : Byte) (s : State) : ((Upd.mem a b).apply s).sump = s.sump := rfl
@[simp] theorem upd_mem_route (a : Nat) (b : Byte) (s : State) : ((Upd.mem a b).apply s).route = s.route := rfl
@[simp] theorem upd_mem_rope (a : Nat) (b : Byte) (s : State) : ((Upd.mem a b).apply s).rope = s.rope := rfl
@[simp] theorem upd_mem_dly (a : Nat) (b : Byte) (s : State) : ((Upd.mem a b).apply s).dly = s.dly := rfl
@[simp] theorem upd_mem_gdma (a : Nat) (b : Byte) (s : State) : ((Upd.mem a b).apply s).gdma = s.gdma := rfl
@[simp] theorem upd_mem_dec (a : Nat) (b : Byte) (s : State) : ((Upd.mem a b).apply s).dec = s.dec := rfl
@[simp] theorem upd_mem_sap (a : Nat) (b : Byte) (s : State) : ((Upd.mem a b).apply s).sap = s.sap := rfl
@[simp] theorem upd_mem_mods (a : Nat) (b : Byte) (s : State) : ((Upd.mem a b).apply s).mods = s.mods := rfl
@[simp] theorem upd_mem_pool (a : Nat) (b : Byte) (s : State) : ((Upd.mem a b).apply s).pool = s.pool := rfl
@[simp] theorem upd_mem_eth (a : Nat) (b : Byte) (s : State) : ((Upd.mem a b).apply s).eth = s.eth := rfl
@[simp] theorem upd_mem_t1s (a : Nat) (b : Byte) (s : State) : ((Upd.mem a b).apply s).t1s = s.t1s := rfl
@[simp] theorem upd_mem_clt (a : Nat) (b : Byte) (s : State) : ((Upd.mem a b).apply s).clt = s.clt := rfl
@[simp] theorem upd_mem_ptp (a : Nat) (b : Byte) (s : State) : ((Upd.mem a b).apply s).ptp = s.ptp := rfl
@[simp] theorem upd_mem_clk (a : Nat) (b : Byte) (s : State) : ((Upd.mem a b).apply s).clk = s.clk := rfl
@[simp] theorem upd_mem_pair (a : Nat) (b : Byte) (s : State) : ((Upd.mem a b).apply s).pair = s.pair := rfl
@[simp] theorem upd_mem_strata (a : Nat) (b : Byte) (s : State) : ((Upd.mem a b).apply s).strata = s.strata := rfl
@[simp] theorem upd_mem_pwr (a : Nat) (b : Byte) (s : State) : ((Upd.mem a b).apply s).pwr = s.pwr := rfl
@[simp] theorem upd_mem_hcp (a : Nat) (b : Byte) (s : State) : ((Upd.mem a b).apply s).hcp = s.hcp := rfl
@[simp] theorem upd_mem_pins (a : Nat) (b : Byte) (s : State) : ((Upd.mem a b).apply s).pins = s.pins := rfl

@[simp] theorem upd_gdma_pending (g : Nat) (x : GdmaState) (s : State) : ((Upd.gdma g x).apply s).pending = s.pending := rfl
@[simp] theorem upd_gdma_free (g : Nat) (x : GdmaState) (s : State) : ((Upd.gdma g x).apply s).free = s.free := rfl
@[simp] theorem upd_gdma_now (g : Nat) (x : GdmaState) (s : State) : ((Upd.gdma g x).apply s).now = s.now := rfl
@[simp] theorem upd_gdma_elapsed (g : Nat) (x : GdmaState) (s : State) : ((Upd.gdma g x).apply s).elapsed = s.elapsed := rfl
@[simp] theorem upd_gdma_lock (g : Nat) (x : GdmaState) (s : State) : ((Upd.gdma g x).apply s).lock = s.lock := rfl
@[simp] theorem upd_gdma_regs (g : Nat) (x : GdmaState) (s : State) : ((Upd.gdma g x).apply s).regs = s.regs := rfl
@[simp] theorem upd_gdma_live (g : Nat) (x : GdmaState) (s : State) : ((Upd.gdma g x).apply s).live = s.live := rfl
@[simp] theorem upd_gdma_shPend (g : Nat) (x : GdmaState) (s : State) : ((Upd.gdma g x).apply s).shPend = s.shPend := rfl
@[simp] theorem upd_gdma_bus (g : Nat) (x : GdmaState) (s : State) : ((Upd.gdma g x).apply s).bus = s.bus := rfl
@[simp] theorem upd_gdma_lanes (g : Nat) (x : GdmaState) (s : State) : ((Upd.gdma g x).apply s).lanes = s.lanes := rfl
@[simp] theorem upd_gdma_mem (g : Nat) (x : GdmaState) (s : State) : ((Upd.gdma g x).apply s).mem = s.mem := rfl
@[simp] theorem upd_gdma_ecc (g : Nat) (x : GdmaState) (s : State) : ((Upd.gdma g x).apply s).ecc = s.ecc := rfl
@[simp] theorem upd_gdma_tick (g : Nat) (x : GdmaState) (s : State) : ((Upd.gdma g x).apply s).tick = s.tick := rfl
@[simp] theorem upd_gdma_sump (g : Nat) (x : GdmaState) (s : State) : ((Upd.gdma g x).apply s).sump = s.sump := rfl
@[simp] theorem upd_gdma_route (g : Nat) (x : GdmaState) (s : State) : ((Upd.gdma g x).apply s).route = s.route := rfl
@[simp] theorem upd_gdma_rope (g : Nat) (x : GdmaState) (s : State) : ((Upd.gdma g x).apply s).rope = s.rope := rfl
@[simp] theorem upd_gdma_dly (g : Nat) (x : GdmaState) (s : State) : ((Upd.gdma g x).apply s).dly = s.dly := rfl
@[simp] theorem upd_gdma_gdma (g : Nat) (x : GdmaState) (s : State) : ((Upd.gdma g x).apply s).gdma = gdmaPut s.gdma g x := rfl
@[simp] theorem upd_gdma_dec (g : Nat) (x : GdmaState) (s : State) : ((Upd.gdma g x).apply s).dec = s.dec := rfl
@[simp] theorem upd_gdma_sap (g : Nat) (x : GdmaState) (s : State) : ((Upd.gdma g x).apply s).sap = s.sap := rfl
@[simp] theorem upd_gdma_mods (g : Nat) (x : GdmaState) (s : State) : ((Upd.gdma g x).apply s).mods = s.mods := rfl
@[simp] theorem upd_gdma_pool (g : Nat) (x : GdmaState) (s : State) : ((Upd.gdma g x).apply s).pool = s.pool := rfl
@[simp] theorem upd_gdma_eth (g : Nat) (x : GdmaState) (s : State) : ((Upd.gdma g x).apply s).eth = s.eth := rfl
@[simp] theorem upd_gdma_t1s (g : Nat) (x : GdmaState) (s : State) : ((Upd.gdma g x).apply s).t1s = s.t1s := rfl
@[simp] theorem upd_gdma_clt (g : Nat) (x : GdmaState) (s : State) : ((Upd.gdma g x).apply s).clt = s.clt := rfl
@[simp] theorem upd_gdma_ptp (g : Nat) (x : GdmaState) (s : State) : ((Upd.gdma g x).apply s).ptp = s.ptp := rfl
@[simp] theorem upd_gdma_clk (g : Nat) (x : GdmaState) (s : State) : ((Upd.gdma g x).apply s).clk = s.clk := rfl
@[simp] theorem upd_gdma_pair (g : Nat) (x : GdmaState) (s : State) : ((Upd.gdma g x).apply s).pair = s.pair := rfl
@[simp] theorem upd_gdma_strata (g : Nat) (x : GdmaState) (s : State) : ((Upd.gdma g x).apply s).strata = s.strata := rfl
@[simp] theorem upd_gdma_pwr (g : Nat) (x : GdmaState) (s : State) : ((Upd.gdma g x).apply s).pwr = s.pwr := rfl
@[simp] theorem upd_gdma_hcp (g : Nat) (x : GdmaState) (s : State) : ((Upd.gdma g x).apply s).hcp = s.hcp := rfl
@[simp] theorem upd_gdma_pins (g : Nat) (x : GdmaState) (s : State) : ((Upd.gdma g x).apply s).pins = s.pins := rfl

@[simp] theorem upd_ecc_pending (x : EccState) (s : State) : ((Upd.ecc x).apply s).pending = s.pending := rfl
@[simp] theorem upd_ecc_free (x : EccState) (s : State) : ((Upd.ecc x).apply s).free = s.free := rfl
@[simp] theorem upd_ecc_now (x : EccState) (s : State) : ((Upd.ecc x).apply s).now = s.now := rfl
@[simp] theorem upd_ecc_elapsed (x : EccState) (s : State) : ((Upd.ecc x).apply s).elapsed = s.elapsed := rfl
@[simp] theorem upd_ecc_lock (x : EccState) (s : State) : ((Upd.ecc x).apply s).lock = s.lock := rfl
@[simp] theorem upd_ecc_regs (x : EccState) (s : State) : ((Upd.ecc x).apply s).regs = s.regs := rfl
@[simp] theorem upd_ecc_live (x : EccState) (s : State) : ((Upd.ecc x).apply s).live = s.live := rfl
@[simp] theorem upd_ecc_shPend (x : EccState) (s : State) : ((Upd.ecc x).apply s).shPend = s.shPend := rfl
@[simp] theorem upd_ecc_bus (x : EccState) (s : State) : ((Upd.ecc x).apply s).bus = s.bus := rfl
@[simp] theorem upd_ecc_lanes (x : EccState) (s : State) : ((Upd.ecc x).apply s).lanes = s.lanes := rfl
@[simp] theorem upd_ecc_mem (x : EccState) (s : State) : ((Upd.ecc x).apply s).mem = s.mem := rfl
@[simp] theorem upd_ecc_ecc (x : EccState) (s : State) : ((Upd.ecc x).apply s).ecc = x := rfl
@[simp] theorem upd_ecc_tick (x : EccState) (s : State) : ((Upd.ecc x).apply s).tick = s.tick := rfl
@[simp] theorem upd_ecc_sump (x : EccState) (s : State) : ((Upd.ecc x).apply s).sump = s.sump := rfl
@[simp] theorem upd_ecc_route (x : EccState) (s : State) : ((Upd.ecc x).apply s).route = s.route := rfl
@[simp] theorem upd_ecc_rope (x : EccState) (s : State) : ((Upd.ecc x).apply s).rope = s.rope := rfl
@[simp] theorem upd_ecc_dly (x : EccState) (s : State) : ((Upd.ecc x).apply s).dly = s.dly := rfl
@[simp] theorem upd_ecc_gdma (x : EccState) (s : State) : ((Upd.ecc x).apply s).gdma = s.gdma := rfl
@[simp] theorem upd_ecc_dec (x : EccState) (s : State) : ((Upd.ecc x).apply s).dec = s.dec := rfl
@[simp] theorem upd_ecc_sap (x : EccState) (s : State) : ((Upd.ecc x).apply s).sap = s.sap := rfl
@[simp] theorem upd_ecc_mods (x : EccState) (s : State) : ((Upd.ecc x).apply s).mods = s.mods := rfl
@[simp] theorem upd_ecc_pool (x : EccState) (s : State) : ((Upd.ecc x).apply s).pool = s.pool := rfl
@[simp] theorem upd_ecc_eth (x : EccState) (s : State) : ((Upd.ecc x).apply s).eth = s.eth := rfl
@[simp] theorem upd_ecc_t1s (x : EccState) (s : State) : ((Upd.ecc x).apply s).t1s = s.t1s := rfl
@[simp] theorem upd_ecc_clt (x : EccState) (s : State) : ((Upd.ecc x).apply s).clt = s.clt := rfl
@[simp] theorem upd_ecc_ptp (x : EccState) (s : State) : ((Upd.ecc x).apply s).ptp = s.ptp := rfl
@[simp] theorem upd_ecc_clk (x : EccState) (s : State) : ((Upd.ecc x).apply s).clk = s.clk := rfl
@[simp] theorem upd_ecc_pair (x : EccState) (s : State) : ((Upd.ecc x).apply s).pair = s.pair := rfl
@[simp] theorem upd_ecc_strata (x : EccState) (s : State) : ((Upd.ecc x).apply s).strata = s.strata := rfl
@[simp] theorem upd_ecc_pwr (x : EccState) (s : State) : ((Upd.ecc x).apply s).pwr = s.pwr := rfl
@[simp] theorem upd_ecc_hcp (x : EccState) (s : State) : ((Upd.ecc x).apply s).hcp = s.hcp := rfl
@[simp] theorem upd_ecc_pins (x : EccState) (s : State) : ((Upd.ecc x).apply s).pins = s.pins := rfl

@[simp] theorem upd_tick_pending (x : TickState) (s : State) : ((Upd.tick x).apply s).pending = s.pending := rfl
@[simp] theorem upd_tick_free (x : TickState) (s : State) : ((Upd.tick x).apply s).free = s.free := rfl
@[simp] theorem upd_tick_now (x : TickState) (s : State) : ((Upd.tick x).apply s).now = s.now := rfl
@[simp] theorem upd_tick_elapsed (x : TickState) (s : State) : ((Upd.tick x).apply s).elapsed = s.elapsed := rfl
@[simp] theorem upd_tick_lock (x : TickState) (s : State) : ((Upd.tick x).apply s).lock = s.lock := rfl
@[simp] theorem upd_tick_regs (x : TickState) (s : State) : ((Upd.tick x).apply s).regs = s.regs := rfl
@[simp] theorem upd_tick_live (x : TickState) (s : State) : ((Upd.tick x).apply s).live = s.live := rfl
@[simp] theorem upd_tick_shPend (x : TickState) (s : State) : ((Upd.tick x).apply s).shPend = s.shPend := rfl
@[simp] theorem upd_tick_bus (x : TickState) (s : State) : ((Upd.tick x).apply s).bus = s.bus := rfl
@[simp] theorem upd_tick_lanes (x : TickState) (s : State) : ((Upd.tick x).apply s).lanes = s.lanes := rfl
@[simp] theorem upd_tick_mem (x : TickState) (s : State) : ((Upd.tick x).apply s).mem = s.mem := rfl
@[simp] theorem upd_tick_ecc (x : TickState) (s : State) : ((Upd.tick x).apply s).ecc = s.ecc := rfl
@[simp] theorem upd_tick_tick (x : TickState) (s : State) : ((Upd.tick x).apply s).tick = x := rfl
@[simp] theorem upd_tick_sump (x : TickState) (s : State) : ((Upd.tick x).apply s).sump = s.sump := rfl
@[simp] theorem upd_tick_route (x : TickState) (s : State) : ((Upd.tick x).apply s).route = s.route := rfl
@[simp] theorem upd_tick_rope (x : TickState) (s : State) : ((Upd.tick x).apply s).rope = s.rope := rfl
@[simp] theorem upd_tick_dly (x : TickState) (s : State) : ((Upd.tick x).apply s).dly = s.dly := rfl
@[simp] theorem upd_tick_gdma (x : TickState) (s : State) : ((Upd.tick x).apply s).gdma = s.gdma := rfl
@[simp] theorem upd_tick_dec (x : TickState) (s : State) : ((Upd.tick x).apply s).dec = s.dec := rfl
@[simp] theorem upd_tick_sap (x : TickState) (s : State) : ((Upd.tick x).apply s).sap = s.sap := rfl
@[simp] theorem upd_tick_mods (x : TickState) (s : State) : ((Upd.tick x).apply s).mods = s.mods := rfl
@[simp] theorem upd_tick_pool (x : TickState) (s : State) : ((Upd.tick x).apply s).pool = s.pool := rfl
@[simp] theorem upd_tick_eth (x : TickState) (s : State) : ((Upd.tick x).apply s).eth = s.eth := rfl
@[simp] theorem upd_tick_t1s (x : TickState) (s : State) : ((Upd.tick x).apply s).t1s = s.t1s := rfl
@[simp] theorem upd_tick_clt (x : TickState) (s : State) : ((Upd.tick x).apply s).clt = s.clt := rfl
@[simp] theorem upd_tick_ptp (x : TickState) (s : State) : ((Upd.tick x).apply s).ptp = s.ptp := rfl
@[simp] theorem upd_tick_clk (x : TickState) (s : State) : ((Upd.tick x).apply s).clk = s.clk := rfl
@[simp] theorem upd_tick_pair (x : TickState) (s : State) : ((Upd.tick x).apply s).pair = s.pair := rfl
@[simp] theorem upd_tick_strata (x : TickState) (s : State) : ((Upd.tick x).apply s).strata = s.strata := rfl
@[simp] theorem upd_tick_pwr (x : TickState) (s : State) : ((Upd.tick x).apply s).pwr = s.pwr := rfl
@[simp] theorem upd_tick_hcp (x : TickState) (s : State) : ((Upd.tick x).apply s).hcp = s.hcp := rfl
@[simp] theorem upd_tick_pins (x : TickState) (s : State) : ((Upd.tick x).apply s).pins = s.pins := rfl

@[simp] theorem upd_sump_pending (x : SumpState) (s : State) : ((Upd.sump x).apply s).pending = s.pending := rfl
@[simp] theorem upd_sump_free (x : SumpState) (s : State) : ((Upd.sump x).apply s).free = s.free := rfl
@[simp] theorem upd_sump_now (x : SumpState) (s : State) : ((Upd.sump x).apply s).now = s.now := rfl
@[simp] theorem upd_sump_elapsed (x : SumpState) (s : State) : ((Upd.sump x).apply s).elapsed = s.elapsed := rfl
@[simp] theorem upd_sump_lock (x : SumpState) (s : State) : ((Upd.sump x).apply s).lock = s.lock := rfl
@[simp] theorem upd_sump_regs (x : SumpState) (s : State) : ((Upd.sump x).apply s).regs = s.regs := rfl
@[simp] theorem upd_sump_live (x : SumpState) (s : State) : ((Upd.sump x).apply s).live = s.live := rfl
@[simp] theorem upd_sump_shPend (x : SumpState) (s : State) : ((Upd.sump x).apply s).shPend = s.shPend := rfl
@[simp] theorem upd_sump_bus (x : SumpState) (s : State) : ((Upd.sump x).apply s).bus = s.bus := rfl
@[simp] theorem upd_sump_lanes (x : SumpState) (s : State) : ((Upd.sump x).apply s).lanes = s.lanes := rfl
@[simp] theorem upd_sump_mem (x : SumpState) (s : State) : ((Upd.sump x).apply s).mem = s.mem := rfl
@[simp] theorem upd_sump_ecc (x : SumpState) (s : State) : ((Upd.sump x).apply s).ecc = s.ecc := rfl
@[simp] theorem upd_sump_tick (x : SumpState) (s : State) : ((Upd.sump x).apply s).tick = s.tick := rfl
@[simp] theorem upd_sump_sump (x : SumpState) (s : State) : ((Upd.sump x).apply s).sump = x := rfl
@[simp] theorem upd_sump_route (x : SumpState) (s : State) : ((Upd.sump x).apply s).route = s.route := rfl
@[simp] theorem upd_sump_rope (x : SumpState) (s : State) : ((Upd.sump x).apply s).rope = s.rope := rfl
@[simp] theorem upd_sump_dly (x : SumpState) (s : State) : ((Upd.sump x).apply s).dly = s.dly := rfl
@[simp] theorem upd_sump_gdma (x : SumpState) (s : State) : ((Upd.sump x).apply s).gdma = s.gdma := rfl
@[simp] theorem upd_sump_dec (x : SumpState) (s : State) : ((Upd.sump x).apply s).dec = s.dec := rfl
@[simp] theorem upd_sump_sap (x : SumpState) (s : State) : ((Upd.sump x).apply s).sap = s.sap := rfl
@[simp] theorem upd_sump_mods (x : SumpState) (s : State) : ((Upd.sump x).apply s).mods = s.mods := rfl
@[simp] theorem upd_sump_pool (x : SumpState) (s : State) : ((Upd.sump x).apply s).pool = s.pool := rfl
@[simp] theorem upd_sump_eth (x : SumpState) (s : State) : ((Upd.sump x).apply s).eth = s.eth := rfl
@[simp] theorem upd_sump_t1s (x : SumpState) (s : State) : ((Upd.sump x).apply s).t1s = s.t1s := rfl
@[simp] theorem upd_sump_clt (x : SumpState) (s : State) : ((Upd.sump x).apply s).clt = s.clt := rfl
@[simp] theorem upd_sump_ptp (x : SumpState) (s : State) : ((Upd.sump x).apply s).ptp = s.ptp := rfl
@[simp] theorem upd_sump_clk (x : SumpState) (s : State) : ((Upd.sump x).apply s).clk = s.clk := rfl
@[simp] theorem upd_sump_pair (x : SumpState) (s : State) : ((Upd.sump x).apply s).pair = s.pair := rfl
@[simp] theorem upd_sump_strata (x : SumpState) (s : State) : ((Upd.sump x).apply s).strata = s.strata := rfl
@[simp] theorem upd_sump_pwr (x : SumpState) (s : State) : ((Upd.sump x).apply s).pwr = s.pwr := rfl
@[simp] theorem upd_sump_hcp (x : SumpState) (s : State) : ((Upd.sump x).apply s).hcp = s.hcp := rfl
@[simp] theorem upd_sump_pins (x : SumpState) (s : State) : ((Upd.sump x).apply s).pins = s.pins := rfl

@[simp] theorem upd_route_pending (x : RouteState) (s : State) : ((Upd.route x).apply s).pending = s.pending := rfl
@[simp] theorem upd_route_free (x : RouteState) (s : State) : ((Upd.route x).apply s).free = s.free := rfl
@[simp] theorem upd_route_now (x : RouteState) (s : State) : ((Upd.route x).apply s).now = s.now := rfl
@[simp] theorem upd_route_elapsed (x : RouteState) (s : State) : ((Upd.route x).apply s).elapsed = s.elapsed := rfl
@[simp] theorem upd_route_lock (x : RouteState) (s : State) : ((Upd.route x).apply s).lock = s.lock := rfl
@[simp] theorem upd_route_regs (x : RouteState) (s : State) : ((Upd.route x).apply s).regs = s.regs := rfl
@[simp] theorem upd_route_live (x : RouteState) (s : State) : ((Upd.route x).apply s).live = s.live := rfl
@[simp] theorem upd_route_shPend (x : RouteState) (s : State) : ((Upd.route x).apply s).shPend = s.shPend := rfl
@[simp] theorem upd_route_bus (x : RouteState) (s : State) : ((Upd.route x).apply s).bus = s.bus := rfl
@[simp] theorem upd_route_lanes (x : RouteState) (s : State) : ((Upd.route x).apply s).lanes = s.lanes := rfl
@[simp] theorem upd_route_mem (x : RouteState) (s : State) : ((Upd.route x).apply s).mem = s.mem := rfl
@[simp] theorem upd_route_ecc (x : RouteState) (s : State) : ((Upd.route x).apply s).ecc = s.ecc := rfl
@[simp] theorem upd_route_tick (x : RouteState) (s : State) : ((Upd.route x).apply s).tick = s.tick := rfl
@[simp] theorem upd_route_sump (x : RouteState) (s : State) : ((Upd.route x).apply s).sump = s.sump := rfl
@[simp] theorem upd_route_route (x : RouteState) (s : State) : ((Upd.route x).apply s).route = x := rfl
@[simp] theorem upd_route_rope (x : RouteState) (s : State) : ((Upd.route x).apply s).rope = s.rope := rfl
@[simp] theorem upd_route_dly (x : RouteState) (s : State) : ((Upd.route x).apply s).dly = s.dly := rfl
@[simp] theorem upd_route_gdma (x : RouteState) (s : State) : ((Upd.route x).apply s).gdma = s.gdma := rfl
@[simp] theorem upd_route_dec (x : RouteState) (s : State) : ((Upd.route x).apply s).dec = s.dec := rfl
@[simp] theorem upd_route_sap (x : RouteState) (s : State) : ((Upd.route x).apply s).sap = s.sap := rfl
@[simp] theorem upd_route_mods (x : RouteState) (s : State) : ((Upd.route x).apply s).mods = s.mods := rfl
@[simp] theorem upd_route_pool (x : RouteState) (s : State) : ((Upd.route x).apply s).pool = s.pool := rfl
@[simp] theorem upd_route_eth (x : RouteState) (s : State) : ((Upd.route x).apply s).eth = s.eth := rfl
@[simp] theorem upd_route_t1s (x : RouteState) (s : State) : ((Upd.route x).apply s).t1s = s.t1s := rfl
@[simp] theorem upd_route_clt (x : RouteState) (s : State) : ((Upd.route x).apply s).clt = s.clt := rfl
@[simp] theorem upd_route_ptp (x : RouteState) (s : State) : ((Upd.route x).apply s).ptp = s.ptp := rfl
@[simp] theorem upd_route_clk (x : RouteState) (s : State) : ((Upd.route x).apply s).clk = s.clk := rfl
@[simp] theorem upd_route_pair (x : RouteState) (s : State) : ((Upd.route x).apply s).pair = s.pair := rfl
@[simp] theorem upd_route_strata (x : RouteState) (s : State) : ((Upd.route x).apply s).strata = s.strata := rfl
@[simp] theorem upd_route_pwr (x : RouteState) (s : State) : ((Upd.route x).apply s).pwr = s.pwr := rfl
@[simp] theorem upd_route_hcp (x : RouteState) (s : State) : ((Upd.route x).apply s).hcp = s.hcp := rfl
@[simp] theorem upd_route_pins (x : RouteState) (s : State) : ((Upd.route x).apply s).pins = s.pins := rfl

@[simp] theorem upd_rope_pending (x : RopeState) (s : State) : ((Upd.rope x).apply s).pending = s.pending := rfl
@[simp] theorem upd_rope_free (x : RopeState) (s : State) : ((Upd.rope x).apply s).free = s.free := rfl
@[simp] theorem upd_rope_now (x : RopeState) (s : State) : ((Upd.rope x).apply s).now = s.now := rfl
@[simp] theorem upd_rope_elapsed (x : RopeState) (s : State) : ((Upd.rope x).apply s).elapsed = s.elapsed := rfl
@[simp] theorem upd_rope_lock (x : RopeState) (s : State) : ((Upd.rope x).apply s).lock = s.lock := rfl
@[simp] theorem upd_rope_regs (x : RopeState) (s : State) : ((Upd.rope x).apply s).regs = s.regs := rfl
@[simp] theorem upd_rope_live (x : RopeState) (s : State) : ((Upd.rope x).apply s).live = s.live := rfl
@[simp] theorem upd_rope_shPend (x : RopeState) (s : State) : ((Upd.rope x).apply s).shPend = s.shPend := rfl
@[simp] theorem upd_rope_bus (x : RopeState) (s : State) : ((Upd.rope x).apply s).bus = s.bus := rfl
@[simp] theorem upd_rope_lanes (x : RopeState) (s : State) : ((Upd.rope x).apply s).lanes = s.lanes := rfl
@[simp] theorem upd_rope_mem (x : RopeState) (s : State) : ((Upd.rope x).apply s).mem = s.mem := rfl
@[simp] theorem upd_rope_ecc (x : RopeState) (s : State) : ((Upd.rope x).apply s).ecc = s.ecc := rfl
@[simp] theorem upd_rope_tick (x : RopeState) (s : State) : ((Upd.rope x).apply s).tick = s.tick := rfl
@[simp] theorem upd_rope_sump (x : RopeState) (s : State) : ((Upd.rope x).apply s).sump = s.sump := rfl
@[simp] theorem upd_rope_route (x : RopeState) (s : State) : ((Upd.rope x).apply s).route = s.route := rfl
@[simp] theorem upd_rope_rope (x : RopeState) (s : State) : ((Upd.rope x).apply s).rope = x := rfl
@[simp] theorem upd_rope_dly (x : RopeState) (s : State) : ((Upd.rope x).apply s).dly = s.dly := rfl
@[simp] theorem upd_rope_gdma (x : RopeState) (s : State) : ((Upd.rope x).apply s).gdma = s.gdma := rfl
@[simp] theorem upd_rope_dec (x : RopeState) (s : State) : ((Upd.rope x).apply s).dec = s.dec := rfl
@[simp] theorem upd_rope_sap (x : RopeState) (s : State) : ((Upd.rope x).apply s).sap = s.sap := rfl
@[simp] theorem upd_rope_mods (x : RopeState) (s : State) : ((Upd.rope x).apply s).mods = s.mods := rfl
@[simp] theorem upd_rope_pool (x : RopeState) (s : State) : ((Upd.rope x).apply s).pool = s.pool := rfl
@[simp] theorem upd_rope_eth (x : RopeState) (s : State) : ((Upd.rope x).apply s).eth = s.eth := rfl
@[simp] theorem upd_rope_t1s (x : RopeState) (s : State) : ((Upd.rope x).apply s).t1s = s.t1s := rfl
@[simp] theorem upd_rope_clt (x : RopeState) (s : State) : ((Upd.rope x).apply s).clt = s.clt := rfl
@[simp] theorem upd_rope_ptp (x : RopeState) (s : State) : ((Upd.rope x).apply s).ptp = s.ptp := rfl
@[simp] theorem upd_rope_clk (x : RopeState) (s : State) : ((Upd.rope x).apply s).clk = s.clk := rfl
@[simp] theorem upd_rope_pair (x : RopeState) (s : State) : ((Upd.rope x).apply s).pair = s.pair := rfl
@[simp] theorem upd_rope_strata (x : RopeState) (s : State) : ((Upd.rope x).apply s).strata = s.strata := rfl
@[simp] theorem upd_rope_pwr (x : RopeState) (s : State) : ((Upd.rope x).apply s).pwr = s.pwr := rfl
@[simp] theorem upd_rope_hcp (x : RopeState) (s : State) : ((Upd.rope x).apply s).hcp = s.hcp := rfl
@[simp] theorem upd_rope_pins (x : RopeState) (s : State) : ((Upd.rope x).apply s).pins = s.pins := rfl

@[simp] theorem upd_dly_pending (x : DlyState) (s : State) : ((Upd.dly x).apply s).pending = s.pending := rfl
@[simp] theorem upd_dly_free (x : DlyState) (s : State) : ((Upd.dly x).apply s).free = s.free := rfl
@[simp] theorem upd_dly_now (x : DlyState) (s : State) : ((Upd.dly x).apply s).now = s.now := rfl
@[simp] theorem upd_dly_elapsed (x : DlyState) (s : State) : ((Upd.dly x).apply s).elapsed = s.elapsed := rfl
@[simp] theorem upd_dly_lock (x : DlyState) (s : State) : ((Upd.dly x).apply s).lock = s.lock := rfl
@[simp] theorem upd_dly_regs (x : DlyState) (s : State) : ((Upd.dly x).apply s).regs = s.regs := rfl
@[simp] theorem upd_dly_live (x : DlyState) (s : State) : ((Upd.dly x).apply s).live = s.live := rfl
@[simp] theorem upd_dly_shPend (x : DlyState) (s : State) : ((Upd.dly x).apply s).shPend = s.shPend := rfl
@[simp] theorem upd_dly_bus (x : DlyState) (s : State) : ((Upd.dly x).apply s).bus = s.bus := rfl
@[simp] theorem upd_dly_lanes (x : DlyState) (s : State) : ((Upd.dly x).apply s).lanes = s.lanes := rfl
@[simp] theorem upd_dly_mem (x : DlyState) (s : State) : ((Upd.dly x).apply s).mem = s.mem := rfl
@[simp] theorem upd_dly_ecc (x : DlyState) (s : State) : ((Upd.dly x).apply s).ecc = s.ecc := rfl
@[simp] theorem upd_dly_tick (x : DlyState) (s : State) : ((Upd.dly x).apply s).tick = s.tick := rfl
@[simp] theorem upd_dly_sump (x : DlyState) (s : State) : ((Upd.dly x).apply s).sump = s.sump := rfl
@[simp] theorem upd_dly_route (x : DlyState) (s : State) : ((Upd.dly x).apply s).route = s.route := rfl
@[simp] theorem upd_dly_rope (x : DlyState) (s : State) : ((Upd.dly x).apply s).rope = s.rope := rfl
@[simp] theorem upd_dly_dly (x : DlyState) (s : State) : ((Upd.dly x).apply s).dly = x := rfl
@[simp] theorem upd_dly_gdma (x : DlyState) (s : State) : ((Upd.dly x).apply s).gdma = s.gdma := rfl
@[simp] theorem upd_dly_dec (x : DlyState) (s : State) : ((Upd.dly x).apply s).dec = s.dec := rfl
@[simp] theorem upd_dly_sap (x : DlyState) (s : State) : ((Upd.dly x).apply s).sap = s.sap := rfl
@[simp] theorem upd_dly_mods (x : DlyState) (s : State) : ((Upd.dly x).apply s).mods = s.mods := rfl
@[simp] theorem upd_dly_pool (x : DlyState) (s : State) : ((Upd.dly x).apply s).pool = s.pool := rfl
@[simp] theorem upd_dly_eth (x : DlyState) (s : State) : ((Upd.dly x).apply s).eth = s.eth := rfl
@[simp] theorem upd_dly_t1s (x : DlyState) (s : State) : ((Upd.dly x).apply s).t1s = s.t1s := rfl
@[simp] theorem upd_dly_clt (x : DlyState) (s : State) : ((Upd.dly x).apply s).clt = s.clt := rfl
@[simp] theorem upd_dly_ptp (x : DlyState) (s : State) : ((Upd.dly x).apply s).ptp = s.ptp := rfl
@[simp] theorem upd_dly_clk (x : DlyState) (s : State) : ((Upd.dly x).apply s).clk = s.clk := rfl
@[simp] theorem upd_dly_pair (x : DlyState) (s : State) : ((Upd.dly x).apply s).pair = s.pair := rfl
@[simp] theorem upd_dly_strata (x : DlyState) (s : State) : ((Upd.dly x).apply s).strata = s.strata := rfl
@[simp] theorem upd_dly_pwr (x : DlyState) (s : State) : ((Upd.dly x).apply s).pwr = s.pwr := rfl
@[simp] theorem upd_dly_hcp (x : DlyState) (s : State) : ((Upd.dly x).apply s).hcp = s.hcp := rfl
@[simp] theorem upd_dly_pins (x : DlyState) (s : State) : ((Upd.dly x).apply s).pins = s.pins := rfl

@[simp] theorem upd_dec_pending (x : DecState) (s : State) : ((Upd.dec x).apply s).pending = s.pending := rfl
@[simp] theorem upd_dec_free (x : DecState) (s : State) : ((Upd.dec x).apply s).free = s.free := rfl
@[simp] theorem upd_dec_now (x : DecState) (s : State) : ((Upd.dec x).apply s).now = s.now := rfl
@[simp] theorem upd_dec_elapsed (x : DecState) (s : State) : ((Upd.dec x).apply s).elapsed = s.elapsed := rfl
@[simp] theorem upd_dec_lock (x : DecState) (s : State) : ((Upd.dec x).apply s).lock = s.lock := rfl
@[simp] theorem upd_dec_regs (x : DecState) (s : State) : ((Upd.dec x).apply s).regs = s.regs := rfl
@[simp] theorem upd_dec_live (x : DecState) (s : State) : ((Upd.dec x).apply s).live = s.live := rfl
@[simp] theorem upd_dec_shPend (x : DecState) (s : State) : ((Upd.dec x).apply s).shPend = s.shPend := rfl
@[simp] theorem upd_dec_bus (x : DecState) (s : State) : ((Upd.dec x).apply s).bus = s.bus := rfl
@[simp] theorem upd_dec_lanes (x : DecState) (s : State) : ((Upd.dec x).apply s).lanes = s.lanes := rfl
@[simp] theorem upd_dec_mem (x : DecState) (s : State) : ((Upd.dec x).apply s).mem = s.mem := rfl
@[simp] theorem upd_dec_ecc (x : DecState) (s : State) : ((Upd.dec x).apply s).ecc = s.ecc := rfl
@[simp] theorem upd_dec_tick (x : DecState) (s : State) : ((Upd.dec x).apply s).tick = s.tick := rfl
@[simp] theorem upd_dec_sump (x : DecState) (s : State) : ((Upd.dec x).apply s).sump = s.sump := rfl
@[simp] theorem upd_dec_route (x : DecState) (s : State) : ((Upd.dec x).apply s).route = s.route := rfl
@[simp] theorem upd_dec_rope (x : DecState) (s : State) : ((Upd.dec x).apply s).rope = s.rope := rfl
@[simp] theorem upd_dec_dly (x : DecState) (s : State) : ((Upd.dec x).apply s).dly = s.dly := rfl
@[simp] theorem upd_dec_gdma (x : DecState) (s : State) : ((Upd.dec x).apply s).gdma = s.gdma := rfl
@[simp] theorem upd_dec_dec (x : DecState) (s : State) : ((Upd.dec x).apply s).dec = x := rfl
@[simp] theorem upd_dec_sap (x : DecState) (s : State) : ((Upd.dec x).apply s).sap = s.sap := rfl
@[simp] theorem upd_dec_mods (x : DecState) (s : State) : ((Upd.dec x).apply s).mods = s.mods := rfl
@[simp] theorem upd_dec_pool (x : DecState) (s : State) : ((Upd.dec x).apply s).pool = s.pool := rfl
@[simp] theorem upd_dec_eth (x : DecState) (s : State) : ((Upd.dec x).apply s).eth = s.eth := rfl
@[simp] theorem upd_dec_t1s (x : DecState) (s : State) : ((Upd.dec x).apply s).t1s = s.t1s := rfl
@[simp] theorem upd_dec_clt (x : DecState) (s : State) : ((Upd.dec x).apply s).clt = s.clt := rfl
@[simp] theorem upd_dec_ptp (x : DecState) (s : State) : ((Upd.dec x).apply s).ptp = s.ptp := rfl
@[simp] theorem upd_dec_clk (x : DecState) (s : State) : ((Upd.dec x).apply s).clk = s.clk := rfl
@[simp] theorem upd_dec_pair (x : DecState) (s : State) : ((Upd.dec x).apply s).pair = s.pair := rfl
@[simp] theorem upd_dec_strata (x : DecState) (s : State) : ((Upd.dec x).apply s).strata = s.strata := rfl
@[simp] theorem upd_dec_pwr (x : DecState) (s : State) : ((Upd.dec x).apply s).pwr = s.pwr := rfl
@[simp] theorem upd_dec_hcp (x : DecState) (s : State) : ((Upd.dec x).apply s).hcp = s.hcp := rfl
@[simp] theorem upd_dec_pins (x : DecState) (s : State) : ((Upd.dec x).apply s).pins = s.pins := rfl

@[simp] theorem upd_sap_pending (x : SapState) (s : State) : ((Upd.sap x).apply s).pending = s.pending := rfl
@[simp] theorem upd_sap_free (x : SapState) (s : State) : ((Upd.sap x).apply s).free = s.free := rfl
@[simp] theorem upd_sap_now (x : SapState) (s : State) : ((Upd.sap x).apply s).now = s.now := rfl
@[simp] theorem upd_sap_elapsed (x : SapState) (s : State) : ((Upd.sap x).apply s).elapsed = s.elapsed := rfl
@[simp] theorem upd_sap_lock (x : SapState) (s : State) : ((Upd.sap x).apply s).lock = s.lock := rfl
@[simp] theorem upd_sap_regs (x : SapState) (s : State) : ((Upd.sap x).apply s).regs = s.regs := rfl
@[simp] theorem upd_sap_live (x : SapState) (s : State) : ((Upd.sap x).apply s).live = s.live := rfl
@[simp] theorem upd_sap_shPend (x : SapState) (s : State) : ((Upd.sap x).apply s).shPend = s.shPend := rfl
@[simp] theorem upd_sap_bus (x : SapState) (s : State) : ((Upd.sap x).apply s).bus = s.bus := rfl
@[simp] theorem upd_sap_lanes (x : SapState) (s : State) : ((Upd.sap x).apply s).lanes = s.lanes := rfl
@[simp] theorem upd_sap_mem (x : SapState) (s : State) : ((Upd.sap x).apply s).mem = s.mem := rfl
@[simp] theorem upd_sap_ecc (x : SapState) (s : State) : ((Upd.sap x).apply s).ecc = s.ecc := rfl
@[simp] theorem upd_sap_tick (x : SapState) (s : State) : ((Upd.sap x).apply s).tick = s.tick := rfl
@[simp] theorem upd_sap_sump (x : SapState) (s : State) : ((Upd.sap x).apply s).sump = s.sump := rfl
@[simp] theorem upd_sap_route (x : SapState) (s : State) : ((Upd.sap x).apply s).route = s.route := rfl
@[simp] theorem upd_sap_rope (x : SapState) (s : State) : ((Upd.sap x).apply s).rope = s.rope := rfl
@[simp] theorem upd_sap_dly (x : SapState) (s : State) : ((Upd.sap x).apply s).dly = s.dly := rfl
@[simp] theorem upd_sap_gdma (x : SapState) (s : State) : ((Upd.sap x).apply s).gdma = s.gdma := rfl
@[simp] theorem upd_sap_dec (x : SapState) (s : State) : ((Upd.sap x).apply s).dec = s.dec := rfl
@[simp] theorem upd_sap_sap (x : SapState) (s : State) : ((Upd.sap x).apply s).sap = x := rfl
@[simp] theorem upd_sap_mods (x : SapState) (s : State) : ((Upd.sap x).apply s).mods = s.mods := rfl
@[simp] theorem upd_sap_pool (x : SapState) (s : State) : ((Upd.sap x).apply s).pool = s.pool := rfl
@[simp] theorem upd_sap_eth (x : SapState) (s : State) : ((Upd.sap x).apply s).eth = s.eth := rfl
@[simp] theorem upd_sap_t1s (x : SapState) (s : State) : ((Upd.sap x).apply s).t1s = s.t1s := rfl
@[simp] theorem upd_sap_clt (x : SapState) (s : State) : ((Upd.sap x).apply s).clt = s.clt := rfl
@[simp] theorem upd_sap_ptp (x : SapState) (s : State) : ((Upd.sap x).apply s).ptp = s.ptp := rfl
@[simp] theorem upd_sap_clk (x : SapState) (s : State) : ((Upd.sap x).apply s).clk = s.clk := rfl
@[simp] theorem upd_sap_pair (x : SapState) (s : State) : ((Upd.sap x).apply s).pair = s.pair := rfl
@[simp] theorem upd_sap_strata (x : SapState) (s : State) : ((Upd.sap x).apply s).strata = s.strata := rfl
@[simp] theorem upd_sap_pwr (x : SapState) (s : State) : ((Upd.sap x).apply s).pwr = s.pwr := rfl
@[simp] theorem upd_sap_hcp (x : SapState) (s : State) : ((Upd.sap x).apply s).hcp = s.hcp := rfl
@[simp] theorem upd_sap_pins (x : SapState) (s : State) : ((Upd.sap x).apply s).pins = s.pins := rfl

@[simp] theorem upd_mods_pending (x : ModState) (s : State) : ((Upd.mods x).apply s).pending = s.pending := rfl
@[simp] theorem upd_mods_free (x : ModState) (s : State) : ((Upd.mods x).apply s).free = s.free := rfl
@[simp] theorem upd_mods_now (x : ModState) (s : State) : ((Upd.mods x).apply s).now = s.now := rfl
@[simp] theorem upd_mods_elapsed (x : ModState) (s : State) : ((Upd.mods x).apply s).elapsed = s.elapsed := rfl
@[simp] theorem upd_mods_lock (x : ModState) (s : State) : ((Upd.mods x).apply s).lock = s.lock := rfl
@[simp] theorem upd_mods_regs (x : ModState) (s : State) : ((Upd.mods x).apply s).regs = s.regs := rfl
@[simp] theorem upd_mods_live (x : ModState) (s : State) : ((Upd.mods x).apply s).live = s.live := rfl
@[simp] theorem upd_mods_shPend (x : ModState) (s : State) : ((Upd.mods x).apply s).shPend = s.shPend := rfl
@[simp] theorem upd_mods_bus (x : ModState) (s : State) : ((Upd.mods x).apply s).bus = s.bus := rfl
@[simp] theorem upd_mods_lanes (x : ModState) (s : State) : ((Upd.mods x).apply s).lanes = s.lanes := rfl
@[simp] theorem upd_mods_mem (x : ModState) (s : State) : ((Upd.mods x).apply s).mem = s.mem := rfl
@[simp] theorem upd_mods_ecc (x : ModState) (s : State) : ((Upd.mods x).apply s).ecc = s.ecc := rfl
@[simp] theorem upd_mods_tick (x : ModState) (s : State) : ((Upd.mods x).apply s).tick = s.tick := rfl
@[simp] theorem upd_mods_sump (x : ModState) (s : State) : ((Upd.mods x).apply s).sump = s.sump := rfl
@[simp] theorem upd_mods_route (x : ModState) (s : State) : ((Upd.mods x).apply s).route = s.route := rfl
@[simp] theorem upd_mods_rope (x : ModState) (s : State) : ((Upd.mods x).apply s).rope = s.rope := rfl
@[simp] theorem upd_mods_dly (x : ModState) (s : State) : ((Upd.mods x).apply s).dly = s.dly := rfl
@[simp] theorem upd_mods_gdma (x : ModState) (s : State) : ((Upd.mods x).apply s).gdma = s.gdma := rfl
@[simp] theorem upd_mods_dec (x : ModState) (s : State) : ((Upd.mods x).apply s).dec = s.dec := rfl
@[simp] theorem upd_mods_sap (x : ModState) (s : State) : ((Upd.mods x).apply s).sap = s.sap := rfl
@[simp] theorem upd_mods_mods (x : ModState) (s : State) : ((Upd.mods x).apply s).mods = x := rfl
@[simp] theorem upd_mods_pool (x : ModState) (s : State) : ((Upd.mods x).apply s).pool = s.pool := rfl
@[simp] theorem upd_mods_eth (x : ModState) (s : State) : ((Upd.mods x).apply s).eth = s.eth := rfl
@[simp] theorem upd_mods_t1s (x : ModState) (s : State) : ((Upd.mods x).apply s).t1s = s.t1s := rfl
@[simp] theorem upd_mods_clt (x : ModState) (s : State) : ((Upd.mods x).apply s).clt = s.clt := rfl
@[simp] theorem upd_mods_ptp (x : ModState) (s : State) : ((Upd.mods x).apply s).ptp = s.ptp := rfl
@[simp] theorem upd_mods_clk (x : ModState) (s : State) : ((Upd.mods x).apply s).clk = s.clk := rfl
@[simp] theorem upd_mods_pair (x : ModState) (s : State) : ((Upd.mods x).apply s).pair = s.pair := rfl
@[simp] theorem upd_mods_strata (x : ModState) (s : State) : ((Upd.mods x).apply s).strata = s.strata := rfl
@[simp] theorem upd_mods_pwr (x : ModState) (s : State) : ((Upd.mods x).apply s).pwr = s.pwr := rfl
@[simp] theorem upd_mods_hcp (x : ModState) (s : State) : ((Upd.mods x).apply s).hcp = s.hcp := rfl
@[simp] theorem upd_mods_pins (x : ModState) (s : State) : ((Upd.mods x).apply s).pins = s.pins := rfl

@[simp] theorem upd_pool_pending (x : PoolState) (s : State) : ((Upd.pool x).apply s).pending = s.pending := rfl
@[simp] theorem upd_pool_free (x : PoolState) (s : State) : ((Upd.pool x).apply s).free = s.free := rfl
@[simp] theorem upd_pool_now (x : PoolState) (s : State) : ((Upd.pool x).apply s).now = s.now := rfl
@[simp] theorem upd_pool_elapsed (x : PoolState) (s : State) : ((Upd.pool x).apply s).elapsed = s.elapsed := rfl
@[simp] theorem upd_pool_lock (x : PoolState) (s : State) : ((Upd.pool x).apply s).lock = s.lock := rfl
@[simp] theorem upd_pool_regs (x : PoolState) (s : State) : ((Upd.pool x).apply s).regs = s.regs := rfl
@[simp] theorem upd_pool_live (x : PoolState) (s : State) : ((Upd.pool x).apply s).live = s.live := rfl
@[simp] theorem upd_pool_shPend (x : PoolState) (s : State) : ((Upd.pool x).apply s).shPend = s.shPend := rfl
@[simp] theorem upd_pool_bus (x : PoolState) (s : State) : ((Upd.pool x).apply s).bus = s.bus := rfl
@[simp] theorem upd_pool_lanes (x : PoolState) (s : State) : ((Upd.pool x).apply s).lanes = s.lanes := rfl
@[simp] theorem upd_pool_mem (x : PoolState) (s : State) : ((Upd.pool x).apply s).mem = s.mem := rfl
@[simp] theorem upd_pool_ecc (x : PoolState) (s : State) : ((Upd.pool x).apply s).ecc = s.ecc := rfl
@[simp] theorem upd_pool_tick (x : PoolState) (s : State) : ((Upd.pool x).apply s).tick = s.tick := rfl
@[simp] theorem upd_pool_sump (x : PoolState) (s : State) : ((Upd.pool x).apply s).sump = s.sump := rfl
@[simp] theorem upd_pool_route (x : PoolState) (s : State) : ((Upd.pool x).apply s).route = s.route := rfl
@[simp] theorem upd_pool_rope (x : PoolState) (s : State) : ((Upd.pool x).apply s).rope = s.rope := rfl
@[simp] theorem upd_pool_dly (x : PoolState) (s : State) : ((Upd.pool x).apply s).dly = s.dly := rfl
@[simp] theorem upd_pool_gdma (x : PoolState) (s : State) : ((Upd.pool x).apply s).gdma = s.gdma := rfl
@[simp] theorem upd_pool_dec (x : PoolState) (s : State) : ((Upd.pool x).apply s).dec = s.dec := rfl
@[simp] theorem upd_pool_sap (x : PoolState) (s : State) : ((Upd.pool x).apply s).sap = s.sap := rfl
@[simp] theorem upd_pool_mods (x : PoolState) (s : State) : ((Upd.pool x).apply s).mods = s.mods := rfl
@[simp] theorem upd_pool_pool (x : PoolState) (s : State) : ((Upd.pool x).apply s).pool = x := rfl
@[simp] theorem upd_pool_eth (x : PoolState) (s : State) : ((Upd.pool x).apply s).eth = s.eth := rfl
@[simp] theorem upd_pool_t1s (x : PoolState) (s : State) : ((Upd.pool x).apply s).t1s = s.t1s := rfl
@[simp] theorem upd_pool_clt (x : PoolState) (s : State) : ((Upd.pool x).apply s).clt = s.clt := rfl
@[simp] theorem upd_pool_ptp (x : PoolState) (s : State) : ((Upd.pool x).apply s).ptp = s.ptp := rfl
@[simp] theorem upd_pool_clk (x : PoolState) (s : State) : ((Upd.pool x).apply s).clk = s.clk := rfl
@[simp] theorem upd_pool_pair (x : PoolState) (s : State) : ((Upd.pool x).apply s).pair = s.pair := rfl
@[simp] theorem upd_pool_strata (x : PoolState) (s : State) : ((Upd.pool x).apply s).strata = s.strata := rfl
@[simp] theorem upd_pool_pwr (x : PoolState) (s : State) : ((Upd.pool x).apply s).pwr = s.pwr := rfl
@[simp] theorem upd_pool_hcp (x : PoolState) (s : State) : ((Upd.pool x).apply s).hcp = s.hcp := rfl
@[simp] theorem upd_pool_pins (x : PoolState) (s : State) : ((Upd.pool x).apply s).pins = s.pins := rfl

@[simp] theorem upd_eth_pending (x : EthState) (s : State) : ((Upd.eth x).apply s).pending = s.pending := rfl
@[simp] theorem upd_eth_free (x : EthState) (s : State) : ((Upd.eth x).apply s).free = s.free := rfl
@[simp] theorem upd_eth_now (x : EthState) (s : State) : ((Upd.eth x).apply s).now = s.now := rfl
@[simp] theorem upd_eth_elapsed (x : EthState) (s : State) : ((Upd.eth x).apply s).elapsed = s.elapsed := rfl
@[simp] theorem upd_eth_lock (x : EthState) (s : State) : ((Upd.eth x).apply s).lock = s.lock := rfl
@[simp] theorem upd_eth_regs (x : EthState) (s : State) : ((Upd.eth x).apply s).regs = s.regs := rfl
@[simp] theorem upd_eth_live (x : EthState) (s : State) : ((Upd.eth x).apply s).live = s.live := rfl
@[simp] theorem upd_eth_shPend (x : EthState) (s : State) : ((Upd.eth x).apply s).shPend = s.shPend := rfl
@[simp] theorem upd_eth_bus (x : EthState) (s : State) : ((Upd.eth x).apply s).bus = s.bus := rfl
@[simp] theorem upd_eth_lanes (x : EthState) (s : State) : ((Upd.eth x).apply s).lanes = s.lanes := rfl
@[simp] theorem upd_eth_mem (x : EthState) (s : State) : ((Upd.eth x).apply s).mem = s.mem := rfl
@[simp] theorem upd_eth_ecc (x : EthState) (s : State) : ((Upd.eth x).apply s).ecc = s.ecc := rfl
@[simp] theorem upd_eth_tick (x : EthState) (s : State) : ((Upd.eth x).apply s).tick = s.tick := rfl
@[simp] theorem upd_eth_sump (x : EthState) (s : State) : ((Upd.eth x).apply s).sump = s.sump := rfl
@[simp] theorem upd_eth_route (x : EthState) (s : State) : ((Upd.eth x).apply s).route = s.route := rfl
@[simp] theorem upd_eth_rope (x : EthState) (s : State) : ((Upd.eth x).apply s).rope = s.rope := rfl
@[simp] theorem upd_eth_dly (x : EthState) (s : State) : ((Upd.eth x).apply s).dly = s.dly := rfl
@[simp] theorem upd_eth_gdma (x : EthState) (s : State) : ((Upd.eth x).apply s).gdma = s.gdma := rfl
@[simp] theorem upd_eth_dec (x : EthState) (s : State) : ((Upd.eth x).apply s).dec = s.dec := rfl
@[simp] theorem upd_eth_sap (x : EthState) (s : State) : ((Upd.eth x).apply s).sap = s.sap := rfl
@[simp] theorem upd_eth_mods (x : EthState) (s : State) : ((Upd.eth x).apply s).mods = s.mods := rfl
@[simp] theorem upd_eth_pool (x : EthState) (s : State) : ((Upd.eth x).apply s).pool = s.pool := rfl
@[simp] theorem upd_eth_eth (x : EthState) (s : State) : ((Upd.eth x).apply s).eth = x := rfl
@[simp] theorem upd_eth_t1s (x : EthState) (s : State) : ((Upd.eth x).apply s).t1s = s.t1s := rfl
@[simp] theorem upd_eth_clt (x : EthState) (s : State) : ((Upd.eth x).apply s).clt = s.clt := rfl
@[simp] theorem upd_eth_ptp (x : EthState) (s : State) : ((Upd.eth x).apply s).ptp = s.ptp := rfl
@[simp] theorem upd_eth_clk (x : EthState) (s : State) : ((Upd.eth x).apply s).clk = s.clk := rfl
@[simp] theorem upd_eth_pair (x : EthState) (s : State) : ((Upd.eth x).apply s).pair = s.pair := rfl
@[simp] theorem upd_eth_strata (x : EthState) (s : State) : ((Upd.eth x).apply s).strata = s.strata := rfl
@[simp] theorem upd_eth_pwr (x : EthState) (s : State) : ((Upd.eth x).apply s).pwr = s.pwr := rfl
@[simp] theorem upd_eth_hcp (x : EthState) (s : State) : ((Upd.eth x).apply s).hcp = s.hcp := rfl
@[simp] theorem upd_eth_pins (x : EthState) (s : State) : ((Upd.eth x).apply s).pins = s.pins := rfl

@[simp] theorem upd_t1s_pending (x : T1sState) (s : State) : ((Upd.t1s x).apply s).pending = s.pending := rfl
@[simp] theorem upd_t1s_free (x : T1sState) (s : State) : ((Upd.t1s x).apply s).free = s.free := rfl
@[simp] theorem upd_t1s_now (x : T1sState) (s : State) : ((Upd.t1s x).apply s).now = s.now := rfl
@[simp] theorem upd_t1s_elapsed (x : T1sState) (s : State) : ((Upd.t1s x).apply s).elapsed = s.elapsed := rfl
@[simp] theorem upd_t1s_lock (x : T1sState) (s : State) : ((Upd.t1s x).apply s).lock = s.lock := rfl
@[simp] theorem upd_t1s_regs (x : T1sState) (s : State) : ((Upd.t1s x).apply s).regs = s.regs := rfl
@[simp] theorem upd_t1s_live (x : T1sState) (s : State) : ((Upd.t1s x).apply s).live = s.live := rfl
@[simp] theorem upd_t1s_shPend (x : T1sState) (s : State) : ((Upd.t1s x).apply s).shPend = s.shPend := rfl
@[simp] theorem upd_t1s_bus (x : T1sState) (s : State) : ((Upd.t1s x).apply s).bus = s.bus := rfl
@[simp] theorem upd_t1s_lanes (x : T1sState) (s : State) : ((Upd.t1s x).apply s).lanes = s.lanes := rfl
@[simp] theorem upd_t1s_mem (x : T1sState) (s : State) : ((Upd.t1s x).apply s).mem = s.mem := rfl
@[simp] theorem upd_t1s_ecc (x : T1sState) (s : State) : ((Upd.t1s x).apply s).ecc = s.ecc := rfl
@[simp] theorem upd_t1s_tick (x : T1sState) (s : State) : ((Upd.t1s x).apply s).tick = s.tick := rfl
@[simp] theorem upd_t1s_sump (x : T1sState) (s : State) : ((Upd.t1s x).apply s).sump = s.sump := rfl
@[simp] theorem upd_t1s_route (x : T1sState) (s : State) : ((Upd.t1s x).apply s).route = s.route := rfl
@[simp] theorem upd_t1s_rope (x : T1sState) (s : State) : ((Upd.t1s x).apply s).rope = s.rope := rfl
@[simp] theorem upd_t1s_dly (x : T1sState) (s : State) : ((Upd.t1s x).apply s).dly = s.dly := rfl
@[simp] theorem upd_t1s_gdma (x : T1sState) (s : State) : ((Upd.t1s x).apply s).gdma = s.gdma := rfl
@[simp] theorem upd_t1s_dec (x : T1sState) (s : State) : ((Upd.t1s x).apply s).dec = s.dec := rfl
@[simp] theorem upd_t1s_sap (x : T1sState) (s : State) : ((Upd.t1s x).apply s).sap = s.sap := rfl
@[simp] theorem upd_t1s_mods (x : T1sState) (s : State) : ((Upd.t1s x).apply s).mods = s.mods := rfl
@[simp] theorem upd_t1s_pool (x : T1sState) (s : State) : ((Upd.t1s x).apply s).pool = s.pool := rfl
@[simp] theorem upd_t1s_eth (x : T1sState) (s : State) : ((Upd.t1s x).apply s).eth = s.eth := rfl
@[simp] theorem upd_t1s_t1s (x : T1sState) (s : State) : ((Upd.t1s x).apply s).t1s = x := rfl
@[simp] theorem upd_t1s_clt (x : T1sState) (s : State) : ((Upd.t1s x).apply s).clt = s.clt := rfl
@[simp] theorem upd_t1s_ptp (x : T1sState) (s : State) : ((Upd.t1s x).apply s).ptp = s.ptp := rfl
@[simp] theorem upd_t1s_clk (x : T1sState) (s : State) : ((Upd.t1s x).apply s).clk = s.clk := rfl
@[simp] theorem upd_t1s_pair (x : T1sState) (s : State) : ((Upd.t1s x).apply s).pair = s.pair := rfl
@[simp] theorem upd_t1s_strata (x : T1sState) (s : State) : ((Upd.t1s x).apply s).strata = s.strata := rfl
@[simp] theorem upd_t1s_pwr (x : T1sState) (s : State) : ((Upd.t1s x).apply s).pwr = s.pwr := rfl
@[simp] theorem upd_t1s_hcp (x : T1sState) (s : State) : ((Upd.t1s x).apply s).hcp = s.hcp := rfl
@[simp] theorem upd_t1s_pins (x : T1sState) (s : State) : ((Upd.t1s x).apply s).pins = s.pins := rfl

@[simp] theorem upd_clt_pending (x : CltState) (s : State) : ((Upd.clt x).apply s).pending = s.pending := rfl
@[simp] theorem upd_clt_free (x : CltState) (s : State) : ((Upd.clt x).apply s).free = s.free := rfl
@[simp] theorem upd_clt_now (x : CltState) (s : State) : ((Upd.clt x).apply s).now = s.now := rfl
@[simp] theorem upd_clt_elapsed (x : CltState) (s : State) : ((Upd.clt x).apply s).elapsed = s.elapsed := rfl
@[simp] theorem upd_clt_lock (x : CltState) (s : State) : ((Upd.clt x).apply s).lock = s.lock := rfl
@[simp] theorem upd_clt_regs (x : CltState) (s : State) : ((Upd.clt x).apply s).regs = s.regs := rfl
@[simp] theorem upd_clt_live (x : CltState) (s : State) : ((Upd.clt x).apply s).live = s.live := rfl
@[simp] theorem upd_clt_shPend (x : CltState) (s : State) : ((Upd.clt x).apply s).shPend = s.shPend := rfl
@[simp] theorem upd_clt_bus (x : CltState) (s : State) : ((Upd.clt x).apply s).bus = s.bus := rfl
@[simp] theorem upd_clt_lanes (x : CltState) (s : State) : ((Upd.clt x).apply s).lanes = s.lanes := rfl
@[simp] theorem upd_clt_mem (x : CltState) (s : State) : ((Upd.clt x).apply s).mem = s.mem := rfl
@[simp] theorem upd_clt_ecc (x : CltState) (s : State) : ((Upd.clt x).apply s).ecc = s.ecc := rfl
@[simp] theorem upd_clt_tick (x : CltState) (s : State) : ((Upd.clt x).apply s).tick = s.tick := rfl
@[simp] theorem upd_clt_sump (x : CltState) (s : State) : ((Upd.clt x).apply s).sump = s.sump := rfl
@[simp] theorem upd_clt_route (x : CltState) (s : State) : ((Upd.clt x).apply s).route = s.route := rfl
@[simp] theorem upd_clt_rope (x : CltState) (s : State) : ((Upd.clt x).apply s).rope = s.rope := rfl
@[simp] theorem upd_clt_dly (x : CltState) (s : State) : ((Upd.clt x).apply s).dly = s.dly := rfl
@[simp] theorem upd_clt_gdma (x : CltState) (s : State) : ((Upd.clt x).apply s).gdma = s.gdma := rfl
@[simp] theorem upd_clt_dec (x : CltState) (s : State) : ((Upd.clt x).apply s).dec = s.dec := rfl
@[simp] theorem upd_clt_sap (x : CltState) (s : State) : ((Upd.clt x).apply s).sap = s.sap := rfl
@[simp] theorem upd_clt_mods (x : CltState) (s : State) : ((Upd.clt x).apply s).mods = s.mods := rfl
@[simp] theorem upd_clt_pool (x : CltState) (s : State) : ((Upd.clt x).apply s).pool = s.pool := rfl
@[simp] theorem upd_clt_eth (x : CltState) (s : State) : ((Upd.clt x).apply s).eth = s.eth := rfl
@[simp] theorem upd_clt_t1s (x : CltState) (s : State) : ((Upd.clt x).apply s).t1s = s.t1s := rfl
@[simp] theorem upd_clt_clt (x : CltState) (s : State) : ((Upd.clt x).apply s).clt = x := rfl
@[simp] theorem upd_clt_ptp (x : CltState) (s : State) : ((Upd.clt x).apply s).ptp = s.ptp := rfl
@[simp] theorem upd_clt_clk (x : CltState) (s : State) : ((Upd.clt x).apply s).clk = s.clk := rfl
@[simp] theorem upd_clt_pair (x : CltState) (s : State) : ((Upd.clt x).apply s).pair = s.pair := rfl
@[simp] theorem upd_clt_strata (x : CltState) (s : State) : ((Upd.clt x).apply s).strata = s.strata := rfl
@[simp] theorem upd_clt_pwr (x : CltState) (s : State) : ((Upd.clt x).apply s).pwr = s.pwr := rfl
@[simp] theorem upd_clt_hcp (x : CltState) (s : State) : ((Upd.clt x).apply s).hcp = s.hcp := rfl
@[simp] theorem upd_clt_pins (x : CltState) (s : State) : ((Upd.clt x).apply s).pins = s.pins := rfl

@[simp] theorem upd_ptp_pending (x : PtpState) (s : State) : ((Upd.ptp x).apply s).pending = s.pending := rfl
@[simp] theorem upd_ptp_free (x : PtpState) (s : State) : ((Upd.ptp x).apply s).free = s.free := rfl
@[simp] theorem upd_ptp_now (x : PtpState) (s : State) : ((Upd.ptp x).apply s).now = s.now := rfl
@[simp] theorem upd_ptp_elapsed (x : PtpState) (s : State) : ((Upd.ptp x).apply s).elapsed = s.elapsed := rfl
@[simp] theorem upd_ptp_lock (x : PtpState) (s : State) : ((Upd.ptp x).apply s).lock = s.lock := rfl
@[simp] theorem upd_ptp_regs (x : PtpState) (s : State) : ((Upd.ptp x).apply s).regs = s.regs := rfl
@[simp] theorem upd_ptp_live (x : PtpState) (s : State) : ((Upd.ptp x).apply s).live = s.live := rfl
@[simp] theorem upd_ptp_shPend (x : PtpState) (s : State) : ((Upd.ptp x).apply s).shPend = s.shPend := rfl
@[simp] theorem upd_ptp_bus (x : PtpState) (s : State) : ((Upd.ptp x).apply s).bus = s.bus := rfl
@[simp] theorem upd_ptp_lanes (x : PtpState) (s : State) : ((Upd.ptp x).apply s).lanes = s.lanes := rfl
@[simp] theorem upd_ptp_mem (x : PtpState) (s : State) : ((Upd.ptp x).apply s).mem = s.mem := rfl
@[simp] theorem upd_ptp_ecc (x : PtpState) (s : State) : ((Upd.ptp x).apply s).ecc = s.ecc := rfl
@[simp] theorem upd_ptp_tick (x : PtpState) (s : State) : ((Upd.ptp x).apply s).tick = s.tick := rfl
@[simp] theorem upd_ptp_sump (x : PtpState) (s : State) : ((Upd.ptp x).apply s).sump = s.sump := rfl
@[simp] theorem upd_ptp_route (x : PtpState) (s : State) : ((Upd.ptp x).apply s).route = s.route := rfl
@[simp] theorem upd_ptp_rope (x : PtpState) (s : State) : ((Upd.ptp x).apply s).rope = s.rope := rfl
@[simp] theorem upd_ptp_dly (x : PtpState) (s : State) : ((Upd.ptp x).apply s).dly = s.dly := rfl
@[simp] theorem upd_ptp_gdma (x : PtpState) (s : State) : ((Upd.ptp x).apply s).gdma = s.gdma := rfl
@[simp] theorem upd_ptp_dec (x : PtpState) (s : State) : ((Upd.ptp x).apply s).dec = s.dec := rfl
@[simp] theorem upd_ptp_sap (x : PtpState) (s : State) : ((Upd.ptp x).apply s).sap = s.sap := rfl
@[simp] theorem upd_ptp_mods (x : PtpState) (s : State) : ((Upd.ptp x).apply s).mods = s.mods := rfl
@[simp] theorem upd_ptp_pool (x : PtpState) (s : State) : ((Upd.ptp x).apply s).pool = s.pool := rfl
@[simp] theorem upd_ptp_eth (x : PtpState) (s : State) : ((Upd.ptp x).apply s).eth = s.eth := rfl
@[simp] theorem upd_ptp_t1s (x : PtpState) (s : State) : ((Upd.ptp x).apply s).t1s = s.t1s := rfl
@[simp] theorem upd_ptp_clt (x : PtpState) (s : State) : ((Upd.ptp x).apply s).clt = s.clt := rfl
@[simp] theorem upd_ptp_ptp (x : PtpState) (s : State) : ((Upd.ptp x).apply s).ptp = x := rfl
@[simp] theorem upd_ptp_clk (x : PtpState) (s : State) : ((Upd.ptp x).apply s).clk = s.clk := rfl
@[simp] theorem upd_ptp_pair (x : PtpState) (s : State) : ((Upd.ptp x).apply s).pair = s.pair := rfl
@[simp] theorem upd_ptp_strata (x : PtpState) (s : State) : ((Upd.ptp x).apply s).strata = s.strata := rfl
@[simp] theorem upd_ptp_pwr (x : PtpState) (s : State) : ((Upd.ptp x).apply s).pwr = s.pwr := rfl
@[simp] theorem upd_ptp_hcp (x : PtpState) (s : State) : ((Upd.ptp x).apply s).hcp = s.hcp := rfl
@[simp] theorem upd_ptp_pins (x : PtpState) (s : State) : ((Upd.ptp x).apply s).pins = s.pins := rfl

@[simp] theorem upd_clk_pending (x : ClkState) (s : State) : ((Upd.clk x).apply s).pending = s.pending := rfl
@[simp] theorem upd_clk_free (x : ClkState) (s : State) : ((Upd.clk x).apply s).free = s.free := rfl
@[simp] theorem upd_clk_now (x : ClkState) (s : State) : ((Upd.clk x).apply s).now = s.now := rfl
@[simp] theorem upd_clk_elapsed (x : ClkState) (s : State) : ((Upd.clk x).apply s).elapsed = s.elapsed := rfl
@[simp] theorem upd_clk_lock (x : ClkState) (s : State) : ((Upd.clk x).apply s).lock = s.lock := rfl
@[simp] theorem upd_clk_regs (x : ClkState) (s : State) : ((Upd.clk x).apply s).regs = s.regs := rfl
@[simp] theorem upd_clk_live (x : ClkState) (s : State) : ((Upd.clk x).apply s).live = s.live := rfl
@[simp] theorem upd_clk_shPend (x : ClkState) (s : State) : ((Upd.clk x).apply s).shPend = s.shPend := rfl
@[simp] theorem upd_clk_bus (x : ClkState) (s : State) : ((Upd.clk x).apply s).bus = s.bus := rfl
@[simp] theorem upd_clk_lanes (x : ClkState) (s : State) : ((Upd.clk x).apply s).lanes = s.lanes := rfl
@[simp] theorem upd_clk_mem (x : ClkState) (s : State) : ((Upd.clk x).apply s).mem = s.mem := rfl
@[simp] theorem upd_clk_ecc (x : ClkState) (s : State) : ((Upd.clk x).apply s).ecc = s.ecc := rfl
@[simp] theorem upd_clk_tick (x : ClkState) (s : State) : ((Upd.clk x).apply s).tick = s.tick := rfl
@[simp] theorem upd_clk_sump (x : ClkState) (s : State) : ((Upd.clk x).apply s).sump = s.sump := rfl
@[simp] theorem upd_clk_route (x : ClkState) (s : State) : ((Upd.clk x).apply s).route = s.route := rfl
@[simp] theorem upd_clk_rope (x : ClkState) (s : State) : ((Upd.clk x).apply s).rope = s.rope := rfl
@[simp] theorem upd_clk_dly (x : ClkState) (s : State) : ((Upd.clk x).apply s).dly = s.dly := rfl
@[simp] theorem upd_clk_gdma (x : ClkState) (s : State) : ((Upd.clk x).apply s).gdma = s.gdma := rfl
@[simp] theorem upd_clk_dec (x : ClkState) (s : State) : ((Upd.clk x).apply s).dec = s.dec := rfl
@[simp] theorem upd_clk_sap (x : ClkState) (s : State) : ((Upd.clk x).apply s).sap = s.sap := rfl
@[simp] theorem upd_clk_mods (x : ClkState) (s : State) : ((Upd.clk x).apply s).mods = s.mods := rfl
@[simp] theorem upd_clk_pool (x : ClkState) (s : State) : ((Upd.clk x).apply s).pool = s.pool := rfl
@[simp] theorem upd_clk_eth (x : ClkState) (s : State) : ((Upd.clk x).apply s).eth = s.eth := rfl
@[simp] theorem upd_clk_t1s (x : ClkState) (s : State) : ((Upd.clk x).apply s).t1s = s.t1s := rfl
@[simp] theorem upd_clk_clt (x : ClkState) (s : State) : ((Upd.clk x).apply s).clt = s.clt := rfl
@[simp] theorem upd_clk_ptp (x : ClkState) (s : State) : ((Upd.clk x).apply s).ptp = s.ptp := rfl
@[simp] theorem upd_clk_clk (x : ClkState) (s : State) : ((Upd.clk x).apply s).clk = x := rfl
@[simp] theorem upd_clk_pair (x : ClkState) (s : State) : ((Upd.clk x).apply s).pair = s.pair := rfl
@[simp] theorem upd_clk_strata (x : ClkState) (s : State) : ((Upd.clk x).apply s).strata = s.strata := rfl
@[simp] theorem upd_clk_pwr (x : ClkState) (s : State) : ((Upd.clk x).apply s).pwr = s.pwr := rfl
@[simp] theorem upd_clk_hcp (x : ClkState) (s : State) : ((Upd.clk x).apply s).hcp = s.hcp := rfl
@[simp] theorem upd_clk_pins (x : ClkState) (s : State) : ((Upd.clk x).apply s).pins = s.pins := rfl

@[simp] theorem upd_pair_pending (x : PairState) (s : State) : ((Upd.pair x).apply s).pending = s.pending := rfl
@[simp] theorem upd_pair_free (x : PairState) (s : State) : ((Upd.pair x).apply s).free = s.free := rfl
@[simp] theorem upd_pair_now (x : PairState) (s : State) : ((Upd.pair x).apply s).now = s.now := rfl
@[simp] theorem upd_pair_elapsed (x : PairState) (s : State) : ((Upd.pair x).apply s).elapsed = s.elapsed := rfl
@[simp] theorem upd_pair_lock (x : PairState) (s : State) : ((Upd.pair x).apply s).lock = s.lock := rfl
@[simp] theorem upd_pair_regs (x : PairState) (s : State) : ((Upd.pair x).apply s).regs = s.regs := rfl
@[simp] theorem upd_pair_live (x : PairState) (s : State) : ((Upd.pair x).apply s).live = s.live := rfl
@[simp] theorem upd_pair_shPend (x : PairState) (s : State) : ((Upd.pair x).apply s).shPend = s.shPend := rfl
@[simp] theorem upd_pair_bus (x : PairState) (s : State) : ((Upd.pair x).apply s).bus = s.bus := rfl
@[simp] theorem upd_pair_lanes (x : PairState) (s : State) : ((Upd.pair x).apply s).lanes = s.lanes := rfl
@[simp] theorem upd_pair_mem (x : PairState) (s : State) : ((Upd.pair x).apply s).mem = s.mem := rfl
@[simp] theorem upd_pair_ecc (x : PairState) (s : State) : ((Upd.pair x).apply s).ecc = s.ecc := rfl
@[simp] theorem upd_pair_tick (x : PairState) (s : State) : ((Upd.pair x).apply s).tick = s.tick := rfl
@[simp] theorem upd_pair_sump (x : PairState) (s : State) : ((Upd.pair x).apply s).sump = s.sump := rfl
@[simp] theorem upd_pair_route (x : PairState) (s : State) : ((Upd.pair x).apply s).route = s.route := rfl
@[simp] theorem upd_pair_rope (x : PairState) (s : State) : ((Upd.pair x).apply s).rope = s.rope := rfl
@[simp] theorem upd_pair_dly (x : PairState) (s : State) : ((Upd.pair x).apply s).dly = s.dly := rfl
@[simp] theorem upd_pair_gdma (x : PairState) (s : State) : ((Upd.pair x).apply s).gdma = s.gdma := rfl
@[simp] theorem upd_pair_dec (x : PairState) (s : State) : ((Upd.pair x).apply s).dec = s.dec := rfl
@[simp] theorem upd_pair_sap (x : PairState) (s : State) : ((Upd.pair x).apply s).sap = s.sap := rfl
@[simp] theorem upd_pair_mods (x : PairState) (s : State) : ((Upd.pair x).apply s).mods = s.mods := rfl
@[simp] theorem upd_pair_pool (x : PairState) (s : State) : ((Upd.pair x).apply s).pool = s.pool := rfl
@[simp] theorem upd_pair_eth (x : PairState) (s : State) : ((Upd.pair x).apply s).eth = s.eth := rfl
@[simp] theorem upd_pair_t1s (x : PairState) (s : State) : ((Upd.pair x).apply s).t1s = s.t1s := rfl
@[simp] theorem upd_pair_clt (x : PairState) (s : State) : ((Upd.pair x).apply s).clt = s.clt := rfl
@[simp] theorem upd_pair_ptp (x : PairState) (s : State) : ((Upd.pair x).apply s).ptp = s.ptp := rfl
@[simp] theorem upd_pair_clk (x : PairState) (s : State) : ((Upd.pair x).apply s).clk = s.clk := rfl
@[simp] theorem upd_pair_pair (x : PairState) (s : State) : ((Upd.pair x).apply s).pair = x := rfl
@[simp] theorem upd_pair_strata (x : PairState) (s : State) : ((Upd.pair x).apply s).strata = s.strata := rfl
@[simp] theorem upd_pair_pwr (x : PairState) (s : State) : ((Upd.pair x).apply s).pwr = s.pwr := rfl
@[simp] theorem upd_pair_hcp (x : PairState) (s : State) : ((Upd.pair x).apply s).hcp = s.hcp := rfl
@[simp] theorem upd_pair_pins (x : PairState) (s : State) : ((Upd.pair x).apply s).pins = s.pins := rfl

@[simp] theorem upd_strata_pending (x : StrataState) (s : State) : ((Upd.strata x).apply s).pending = s.pending := rfl
@[simp] theorem upd_strata_free (x : StrataState) (s : State) : ((Upd.strata x).apply s).free = s.free := rfl
@[simp] theorem upd_strata_now (x : StrataState) (s : State) : ((Upd.strata x).apply s).now = s.now := rfl
@[simp] theorem upd_strata_elapsed (x : StrataState) (s : State) : ((Upd.strata x).apply s).elapsed = s.elapsed := rfl
@[simp] theorem upd_strata_lock (x : StrataState) (s : State) : ((Upd.strata x).apply s).lock = s.lock := rfl
@[simp] theorem upd_strata_regs (x : StrataState) (s : State) : ((Upd.strata x).apply s).regs = s.regs := rfl
@[simp] theorem upd_strata_live (x : StrataState) (s : State) : ((Upd.strata x).apply s).live = s.live := rfl
@[simp] theorem upd_strata_shPend (x : StrataState) (s : State) : ((Upd.strata x).apply s).shPend = s.shPend := rfl
@[simp] theorem upd_strata_bus (x : StrataState) (s : State) : ((Upd.strata x).apply s).bus = s.bus := rfl
@[simp] theorem upd_strata_lanes (x : StrataState) (s : State) : ((Upd.strata x).apply s).lanes = s.lanes := rfl
@[simp] theorem upd_strata_mem (x : StrataState) (s : State) : ((Upd.strata x).apply s).mem = s.mem := rfl
@[simp] theorem upd_strata_ecc (x : StrataState) (s : State) : ((Upd.strata x).apply s).ecc = s.ecc := rfl
@[simp] theorem upd_strata_tick (x : StrataState) (s : State) : ((Upd.strata x).apply s).tick = s.tick := rfl
@[simp] theorem upd_strata_sump (x : StrataState) (s : State) : ((Upd.strata x).apply s).sump = s.sump := rfl
@[simp] theorem upd_strata_route (x : StrataState) (s : State) : ((Upd.strata x).apply s).route = s.route := rfl
@[simp] theorem upd_strata_rope (x : StrataState) (s : State) : ((Upd.strata x).apply s).rope = s.rope := rfl
@[simp] theorem upd_strata_dly (x : StrataState) (s : State) : ((Upd.strata x).apply s).dly = s.dly := rfl
@[simp] theorem upd_strata_gdma (x : StrataState) (s : State) : ((Upd.strata x).apply s).gdma = s.gdma := rfl
@[simp] theorem upd_strata_dec (x : StrataState) (s : State) : ((Upd.strata x).apply s).dec = s.dec := rfl
@[simp] theorem upd_strata_sap (x : StrataState) (s : State) : ((Upd.strata x).apply s).sap = s.sap := rfl
@[simp] theorem upd_strata_mods (x : StrataState) (s : State) : ((Upd.strata x).apply s).mods = s.mods := rfl
@[simp] theorem upd_strata_pool (x : StrataState) (s : State) : ((Upd.strata x).apply s).pool = s.pool := rfl
@[simp] theorem upd_strata_eth (x : StrataState) (s : State) : ((Upd.strata x).apply s).eth = s.eth := rfl
@[simp] theorem upd_strata_t1s (x : StrataState) (s : State) : ((Upd.strata x).apply s).t1s = s.t1s := rfl
@[simp] theorem upd_strata_clt (x : StrataState) (s : State) : ((Upd.strata x).apply s).clt = s.clt := rfl
@[simp] theorem upd_strata_ptp (x : StrataState) (s : State) : ((Upd.strata x).apply s).ptp = s.ptp := rfl
@[simp] theorem upd_strata_clk (x : StrataState) (s : State) : ((Upd.strata x).apply s).clk = s.clk := rfl
@[simp] theorem upd_strata_pair (x : StrataState) (s : State) : ((Upd.strata x).apply s).pair = s.pair := rfl
@[simp] theorem upd_strata_strata (x : StrataState) (s : State) : ((Upd.strata x).apply s).strata = x := rfl
@[simp] theorem upd_strata_pwr (x : StrataState) (s : State) : ((Upd.strata x).apply s).pwr = s.pwr := rfl
@[simp] theorem upd_strata_hcp (x : StrataState) (s : State) : ((Upd.strata x).apply s).hcp = s.hcp := rfl
@[simp] theorem upd_strata_pins (x : StrataState) (s : State) : ((Upd.strata x).apply s).pins = s.pins := rfl

@[simp] theorem upd_pwr_pending (x : PwrState) (s : State) : ((Upd.pwr x).apply s).pending = s.pending := rfl
@[simp] theorem upd_pwr_free (x : PwrState) (s : State) : ((Upd.pwr x).apply s).free = s.free := rfl
@[simp] theorem upd_pwr_now (x : PwrState) (s : State) : ((Upd.pwr x).apply s).now = s.now := rfl
@[simp] theorem upd_pwr_elapsed (x : PwrState) (s : State) : ((Upd.pwr x).apply s).elapsed = s.elapsed := rfl
@[simp] theorem upd_pwr_lock (x : PwrState) (s : State) : ((Upd.pwr x).apply s).lock = s.lock := rfl
@[simp] theorem upd_pwr_regs (x : PwrState) (s : State) : ((Upd.pwr x).apply s).regs = s.regs := rfl
@[simp] theorem upd_pwr_live (x : PwrState) (s : State) : ((Upd.pwr x).apply s).live = s.live := rfl
@[simp] theorem upd_pwr_shPend (x : PwrState) (s : State) : ((Upd.pwr x).apply s).shPend = s.shPend := rfl
@[simp] theorem upd_pwr_bus (x : PwrState) (s : State) : ((Upd.pwr x).apply s).bus = s.bus := rfl
@[simp] theorem upd_pwr_lanes (x : PwrState) (s : State) : ((Upd.pwr x).apply s).lanes = s.lanes := rfl
@[simp] theorem upd_pwr_mem (x : PwrState) (s : State) : ((Upd.pwr x).apply s).mem = s.mem := rfl
@[simp] theorem upd_pwr_ecc (x : PwrState) (s : State) : ((Upd.pwr x).apply s).ecc = s.ecc := rfl
@[simp] theorem upd_pwr_tick (x : PwrState) (s : State) : ((Upd.pwr x).apply s).tick = s.tick := rfl
@[simp] theorem upd_pwr_sump (x : PwrState) (s : State) : ((Upd.pwr x).apply s).sump = s.sump := rfl
@[simp] theorem upd_pwr_route (x : PwrState) (s : State) : ((Upd.pwr x).apply s).route = s.route := rfl
@[simp] theorem upd_pwr_rope (x : PwrState) (s : State) : ((Upd.pwr x).apply s).rope = s.rope := rfl
@[simp] theorem upd_pwr_dly (x : PwrState) (s : State) : ((Upd.pwr x).apply s).dly = s.dly := rfl
@[simp] theorem upd_pwr_gdma (x : PwrState) (s : State) : ((Upd.pwr x).apply s).gdma = s.gdma := rfl
@[simp] theorem upd_pwr_dec (x : PwrState) (s : State) : ((Upd.pwr x).apply s).dec = s.dec := rfl
@[simp] theorem upd_pwr_sap (x : PwrState) (s : State) : ((Upd.pwr x).apply s).sap = s.sap := rfl
@[simp] theorem upd_pwr_mods (x : PwrState) (s : State) : ((Upd.pwr x).apply s).mods = s.mods := rfl
@[simp] theorem upd_pwr_pool (x : PwrState) (s : State) : ((Upd.pwr x).apply s).pool = s.pool := rfl
@[simp] theorem upd_pwr_eth (x : PwrState) (s : State) : ((Upd.pwr x).apply s).eth = s.eth := rfl
@[simp] theorem upd_pwr_t1s (x : PwrState) (s : State) : ((Upd.pwr x).apply s).t1s = s.t1s := rfl
@[simp] theorem upd_pwr_clt (x : PwrState) (s : State) : ((Upd.pwr x).apply s).clt = s.clt := rfl
@[simp] theorem upd_pwr_ptp (x : PwrState) (s : State) : ((Upd.pwr x).apply s).ptp = s.ptp := rfl
@[simp] theorem upd_pwr_clk (x : PwrState) (s : State) : ((Upd.pwr x).apply s).clk = s.clk := rfl
@[simp] theorem upd_pwr_pair (x : PwrState) (s : State) : ((Upd.pwr x).apply s).pair = s.pair := rfl
@[simp] theorem upd_pwr_strata (x : PwrState) (s : State) : ((Upd.pwr x).apply s).strata = s.strata := rfl
@[simp] theorem upd_pwr_pwr (x : PwrState) (s : State) : ((Upd.pwr x).apply s).pwr = x := rfl
@[simp] theorem upd_pwr_hcp (x : PwrState) (s : State) : ((Upd.pwr x).apply s).hcp = s.hcp := rfl
@[simp] theorem upd_pwr_pins (x : PwrState) (s : State) : ((Upd.pwr x).apply s).pins = s.pins := rfl

@[simp] theorem upd_hcp_pending (x : HcpState) (s : State) : ((Upd.hcp x).apply s).pending = s.pending := rfl
@[simp] theorem upd_hcp_free (x : HcpState) (s : State) : ((Upd.hcp x).apply s).free = s.free := rfl
@[simp] theorem upd_hcp_now (x : HcpState) (s : State) : ((Upd.hcp x).apply s).now = s.now := rfl
@[simp] theorem upd_hcp_elapsed (x : HcpState) (s : State) : ((Upd.hcp x).apply s).elapsed = s.elapsed := rfl
@[simp] theorem upd_hcp_lock (x : HcpState) (s : State) : ((Upd.hcp x).apply s).lock = s.lock := rfl
@[simp] theorem upd_hcp_regs (x : HcpState) (s : State) : ((Upd.hcp x).apply s).regs = s.regs := rfl
@[simp] theorem upd_hcp_live (x : HcpState) (s : State) : ((Upd.hcp x).apply s).live = s.live := rfl
@[simp] theorem upd_hcp_shPend (x : HcpState) (s : State) : ((Upd.hcp x).apply s).shPend = s.shPend := rfl
@[simp] theorem upd_hcp_bus (x : HcpState) (s : State) : ((Upd.hcp x).apply s).bus = s.bus := rfl
@[simp] theorem upd_hcp_lanes (x : HcpState) (s : State) : ((Upd.hcp x).apply s).lanes = s.lanes := rfl
@[simp] theorem upd_hcp_mem (x : HcpState) (s : State) : ((Upd.hcp x).apply s).mem = s.mem := rfl
@[simp] theorem upd_hcp_ecc (x : HcpState) (s : State) : ((Upd.hcp x).apply s).ecc = s.ecc := rfl
@[simp] theorem upd_hcp_tick (x : HcpState) (s : State) : ((Upd.hcp x).apply s).tick = s.tick := rfl
@[simp] theorem upd_hcp_sump (x : HcpState) (s : State) : ((Upd.hcp x).apply s).sump = s.sump := rfl
@[simp] theorem upd_hcp_route (x : HcpState) (s : State) : ((Upd.hcp x).apply s).route = s.route := rfl
@[simp] theorem upd_hcp_rope (x : HcpState) (s : State) : ((Upd.hcp x).apply s).rope = s.rope := rfl
@[simp] theorem upd_hcp_dly (x : HcpState) (s : State) : ((Upd.hcp x).apply s).dly = s.dly := rfl
@[simp] theorem upd_hcp_gdma (x : HcpState) (s : State) : ((Upd.hcp x).apply s).gdma = s.gdma := rfl
@[simp] theorem upd_hcp_dec (x : HcpState) (s : State) : ((Upd.hcp x).apply s).dec = s.dec := rfl
@[simp] theorem upd_hcp_sap (x : HcpState) (s : State) : ((Upd.hcp x).apply s).sap = s.sap := rfl
@[simp] theorem upd_hcp_mods (x : HcpState) (s : State) : ((Upd.hcp x).apply s).mods = s.mods := rfl
@[simp] theorem upd_hcp_pool (x : HcpState) (s : State) : ((Upd.hcp x).apply s).pool = s.pool := rfl
@[simp] theorem upd_hcp_eth (x : HcpState) (s : State) : ((Upd.hcp x).apply s).eth = s.eth := rfl
@[simp] theorem upd_hcp_t1s (x : HcpState) (s : State) : ((Upd.hcp x).apply s).t1s = s.t1s := rfl
@[simp] theorem upd_hcp_clt (x : HcpState) (s : State) : ((Upd.hcp x).apply s).clt = s.clt := rfl
@[simp] theorem upd_hcp_ptp (x : HcpState) (s : State) : ((Upd.hcp x).apply s).ptp = s.ptp := rfl
@[simp] theorem upd_hcp_clk (x : HcpState) (s : State) : ((Upd.hcp x).apply s).clk = s.clk := rfl
@[simp] theorem upd_hcp_pair (x : HcpState) (s : State) : ((Upd.hcp x).apply s).pair = s.pair := rfl
@[simp] theorem upd_hcp_strata (x : HcpState) (s : State) : ((Upd.hcp x).apply s).strata = s.strata := rfl
@[simp] theorem upd_hcp_pwr (x : HcpState) (s : State) : ((Upd.hcp x).apply s).pwr = s.pwr := rfl
@[simp] theorem upd_hcp_hcp (x : HcpState) (s : State) : ((Upd.hcp x).apply s).hcp = x := rfl
@[simp] theorem upd_hcp_pins (x : HcpState) (s : State) : ((Upd.hcp x).apply s).pins = s.pins := rfl

@[simp] theorem upd_pins_pending (x : PinState) (s : State) : ((Upd.pins x).apply s).pending = s.pending := rfl
@[simp] theorem upd_pins_free (x : PinState) (s : State) : ((Upd.pins x).apply s).free = s.free := rfl
@[simp] theorem upd_pins_now (x : PinState) (s : State) : ((Upd.pins x).apply s).now = s.now := rfl
@[simp] theorem upd_pins_elapsed (x : PinState) (s : State) : ((Upd.pins x).apply s).elapsed = s.elapsed := rfl
@[simp] theorem upd_pins_lock (x : PinState) (s : State) : ((Upd.pins x).apply s).lock = s.lock := rfl
@[simp] theorem upd_pins_regs (x : PinState) (s : State) : ((Upd.pins x).apply s).regs = s.regs := rfl
@[simp] theorem upd_pins_live (x : PinState) (s : State) : ((Upd.pins x).apply s).live = s.live := rfl
@[simp] theorem upd_pins_shPend (x : PinState) (s : State) : ((Upd.pins x).apply s).shPend = s.shPend := rfl
@[simp] theorem upd_pins_bus (x : PinState) (s : State) : ((Upd.pins x).apply s).bus = s.bus := rfl
@[simp] theorem upd_pins_lanes (x : PinState) (s : State) : ((Upd.pins x).apply s).lanes = s.lanes := rfl
@[simp] theorem upd_pins_mem (x : PinState) (s : State) : ((Upd.pins x).apply s).mem = s.mem := rfl
@[simp] theorem upd_pins_ecc (x : PinState) (s : State) : ((Upd.pins x).apply s).ecc = s.ecc := rfl
@[simp] theorem upd_pins_tick (x : PinState) (s : State) : ((Upd.pins x).apply s).tick = s.tick := rfl
@[simp] theorem upd_pins_sump (x : PinState) (s : State) : ((Upd.pins x).apply s).sump = s.sump := rfl
@[simp] theorem upd_pins_route (x : PinState) (s : State) : ((Upd.pins x).apply s).route = s.route := rfl
@[simp] theorem upd_pins_rope (x : PinState) (s : State) : ((Upd.pins x).apply s).rope = s.rope := rfl
@[simp] theorem upd_pins_dly (x : PinState) (s : State) : ((Upd.pins x).apply s).dly = s.dly := rfl
@[simp] theorem upd_pins_gdma (x : PinState) (s : State) : ((Upd.pins x).apply s).gdma = s.gdma := rfl
@[simp] theorem upd_pins_dec (x : PinState) (s : State) : ((Upd.pins x).apply s).dec = s.dec := rfl
@[simp] theorem upd_pins_sap (x : PinState) (s : State) : ((Upd.pins x).apply s).sap = s.sap := rfl
@[simp] theorem upd_pins_mods (x : PinState) (s : State) : ((Upd.pins x).apply s).mods = s.mods := rfl
@[simp] theorem upd_pins_pool (x : PinState) (s : State) : ((Upd.pins x).apply s).pool = s.pool := rfl
@[simp] theorem upd_pins_eth (x : PinState) (s : State) : ((Upd.pins x).apply s).eth = s.eth := rfl
@[simp] theorem upd_pins_t1s (x : PinState) (s : State) : ((Upd.pins x).apply s).t1s = s.t1s := rfl
@[simp] theorem upd_pins_clt (x : PinState) (s : State) : ((Upd.pins x).apply s).clt = s.clt := rfl
@[simp] theorem upd_pins_ptp (x : PinState) (s : State) : ((Upd.pins x).apply s).ptp = s.ptp := rfl
@[simp] theorem upd_pins_clk (x : PinState) (s : State) : ((Upd.pins x).apply s).clk = s.clk := rfl
@[simp] theorem upd_pins_pair (x : PinState) (s : State) : ((Upd.pins x).apply s).pair = s.pair := rfl
@[simp] theorem upd_pins_strata (x : PinState) (s : State) : ((Upd.pins x).apply s).strata = s.strata := rfl
@[simp] theorem upd_pins_pwr (x : PinState) (s : State) : ((Upd.pins x).apply s).pwr = s.pwr := rfl
@[simp] theorem upd_pins_hcp (x : PinState) (s : State) : ((Upd.pins x).apply s).hcp = s.hcp := rfl
@[simp] theorem upd_pins_pins (x : PinState) (s : State) : ((Upd.pins x).apply s).pins = x := rfl

@[simp] theorem upd_nodeReset_pending (p : Bool) (s : State) : ((Upd.nodeReset p).apply s).pending = s.pending := rfl
@[simp] theorem upd_nodeReset_free (p : Bool) (s : State) : ((Upd.nodeReset p).apply s).free = s.free := rfl
@[simp] theorem upd_nodeReset_pins (p : Bool) (s : State) : ((Upd.nodeReset p).apply s).pins = s.pins := rfl
@[simp] theorem upd_nodeReset_now (p : Bool) (s : State) : ((Upd.nodeReset p).apply s).now = State.blank.now := rfl
@[simp] theorem upd_nodeReset_elapsed (p : Bool) (s : State) : ((Upd.nodeReset p).apply s).elapsed = State.blank.elapsed := rfl
@[simp] theorem upd_nodeReset_lock (p : Bool) (s : State) : ((Upd.nodeReset p).apply s).lock = State.blank.lock := rfl
@[simp] theorem upd_nodeReset_shPend (p : Bool) (s : State) : ((Upd.nodeReset p).apply s).shPend = State.blank.shPend := rfl
@[simp] theorem upd_nodeReset_bus (p : Bool) (s : State) : ((Upd.nodeReset p).apply s).bus = State.blank.bus := rfl
@[simp] theorem upd_nodeReset_lanes (p : Bool) (s : State) : ((Upd.nodeReset p).apply s).lanes = State.blank.lanes := rfl
@[simp] theorem upd_nodeReset_tick (p : Bool) (s : State) : ((Upd.nodeReset p).apply s).tick = State.blank.tick := rfl
@[simp] theorem upd_nodeReset_sump (p : Bool) (s : State) : ((Upd.nodeReset p).apply s).sump = State.blank.sump := rfl
@[simp] theorem upd_nodeReset_dly (p : Bool) (s : State) : ((Upd.nodeReset p).apply s).dly = State.blank.dly := rfl
@[simp] theorem upd_nodeReset_gdma (p : Bool) (s : State) : ((Upd.nodeReset p).apply s).gdma = State.blank.gdma := rfl
@[simp] theorem upd_nodeReset_dec (p : Bool) (s : State) : ((Upd.nodeReset p).apply s).dec = State.blank.dec := rfl
@[simp] theorem upd_nodeReset_sap (p : Bool) (s : State) : ((Upd.nodeReset p).apply s).sap = State.blank.sap := rfl
@[simp] theorem upd_nodeReset_mods (p : Bool) (s : State) : ((Upd.nodeReset p).apply s).mods = State.blank.mods := rfl
@[simp] theorem upd_nodeReset_pool (p : Bool) (s : State) : ((Upd.nodeReset p).apply s).pool = State.blank.pool := rfl
@[simp] theorem upd_nodeReset_eth (p : Bool) (s : State) : ((Upd.nodeReset p).apply s).eth = State.blank.eth := rfl
@[simp] theorem upd_nodeReset_t1s (p : Bool) (s : State) : ((Upd.nodeReset p).apply s).t1s = State.blank.t1s := rfl
@[simp] theorem upd_nodeReset_clt (p : Bool) (s : State) : ((Upd.nodeReset p).apply s).clt = State.blank.clt := rfl
@[simp] theorem upd_nodeReset_ptp (p : Bool) (s : State) : ((Upd.nodeReset p).apply s).ptp = State.blank.ptp := rfl
@[simp] theorem upd_nodeReset_clk (p : Bool) (s : State) : ((Upd.nodeReset p).apply s).clk = State.blank.clk := rfl
@[simp] theorem upd_nodeReset_strata (p : Bool) (s : State) : ((Upd.nodeReset p).apply s).strata = State.blank.strata := rfl
@[simp] theorem upd_nodeReset_hcp (p : Bool) (s : State) : ((Upd.nodeReset p).apply s).hcp = State.blank.hcp := rfl

/-! ### Running an effect -/

@[simp] theorem run_done (s : State) : Act.done.run s = s := rfl
@[simp] theorem run_upd (u : Upd) (s : State) : (Act.upd u).run s = u.apply s := rfl
@[simp] theorem run_seq (a b : Act) (s : State) : (Act.seq a b).run s = b.run (a.run s) := rfl
@[simp] theorem run_look (k : State → Act) (s : State) : (Act.look k).run s = (k s).run s := rfl
@[simp] theorem run_acts_nil (s : State) : (acts []).run s = s := rfl

@[simp] theorem run_acts_cons (a : Act) (as : List Act) (s : State) : (acts (a :: as)).run s = (acts as).run (a.run s) := by
  cases as <;> rfl

@[simp] theorem run_forEach_nil {α : Type} (f : α → Act) (s : State) : (forEach [] f).run s = s := rfl

@[simp] theorem run_forEach_cons {α : Type} (x : α) (xs : List α) (f : α → Act) (s : State) :
    (forEach (x :: xs) f).run s = (forEach xs f).run ((f x).run s) := run_acts_cons ..

@[simp] theorem onlyIf_true (a : Act) : onlyIf true a = a := rfl
@[simp] theorem onlyIf_false (a : Act) : onlyIf false a = .done := rfl

@[simp] theorem run_draw (k : Nat → Act) (s : State) :
    (draw k).run s = (k (Config.freeNat s.free)).run ((Upd.free (s.free + 1)).apply s) := rfl

/-- A command's outcome is the state its effect leads to. -/
@[simp] theorem answer_eq (a : Act) (s : State) : answer a s = .next (a.run s) := rfl

/-! ### What holds through an effect -/

/-- An effect that keeps `I` in every primitive update keeps `I`: induction over effects, said once. -/
theorem run_induction (I : State → Prop) (h : ∀ u s, I s → I (Upd.apply u s)) (a : Act) : ∀ s, I s → I (a.run s) := by
  induction a with
  | done => exact fun s hs => hs
  | upd u => exact fun s hs => h u s hs
  | seq a b iha ihb => exact fun s hs => ihb _ (iha s hs)
  | look k ih => exact fun s hs => ih s s hs

/-- An effect keeps what `f` shows of the state. -/
def Keeps {β : Type} (f : State → β) (a : Act) : Prop := ∀ s, f (a.run s) = f s

theorem Keeps.done {β : Type} (f : State → β) : Keeps f .done := fun _ => rfl

theorem Keeps.upd {β : Type} {f : State → β} {u : Upd} (h : ∀ s, f (u.apply s) = f s) : Keeps f (.upd u) := h

theorem Keeps.seq {β : Type} {f : State → β} {a b : Act} (ha : Keeps f a) (hb : Keeps f b) : Keeps f (.seq a b) :=
  fun s => (hb _).trans (ha s)

theorem Keeps.look {β : Type} {f : State → β} {k : State → Act} (h : ∀ s, Keeps f (k s)) : Keeps f (.look k) := fun s => h s s

theorem Keeps.acts {β : Type} {f : State → β} {as : List Act} (h : ∀ a ∈ as, Keeps f a) : Keeps f (acts as) := by
  induction as with
  | nil => exact fun _ => rfl
  | cons a as ih =>
    intro s
    rw [run_acts_cons, ih (fun b hb => h b (List.mem_cons_of_mem _ hb))]
    exact h a List.mem_cons_self s

theorem Keeps.forEach {α β : Type} {f : State → β} {xs : List α} {g : α → Act} (h : ∀ x ∈ xs, Keeps f (g x)) :
    Keeps f (forEach xs g) :=
  Keeps.acts fun _ ha => by
    obtain ⟨x, hx, rfl⟩ := List.mem_map.mp ha
    exact h x hx

theorem Keeps.onlyIf {β : Type} {f : State → β} {c : Bool} {a : Act} (h : c = true → Keeps f a) : Keeps f (onlyIf c a) := by
  cases c with
  | false => exact Keeps.done f
  | true => exact h rfl

theorem Keeps.draw {β : Type} {f : State → β} {k : Nat → Act} (hf : ∀ n s, f ((Upd.free n).apply s) = f s)
    (h : ∀ n, Keeps f (k n)) : Keeps f (draw k) := fun s => (h _ _).trans (hf _ s)

end Sys2Proof.Machine
end

