-- ==== Sys2Proof/Laws/Footprint.lean ====
section
/-! SUPPORT. What an effect can touch: the kinds of primitive update it is made of. An operation's footprint is said once, and every
field of the state outside it then stays. -/

namespace Sys2Proof.Machine

/-- Every primitive update of an effect satisfies `p`, whatever state it meets. -/
def Act.Within (p : Upd → Prop) : Act → Prop
  | .done => True
  | .upd u => p u
  | .seq a b => a.Within p ∧ b.Within p
  | .look k => ∀ s, (k s).Within p

/-- The kinds of primitive update. -/
inductive Kind where
  | free | now | elapsed | lock | reg | live | shPend | bus | lane | mem | ecc | tick | sump | route | rope | dly | gdma
  | dec | sap | mods | pool | eth | t1s | clt | ptp | clk | pair | strata | pwr | hcp | pins | nodeReset
  deriving DecidableEq, Repr

/-- The kind of a primitive update. -/
def Upd.kind : Upd → Kind
  | .free _ => .free
  | .now _ => .now
  | .elapsed _ => .elapsed
  | .lock _ => .lock
  | .reg _ _ => .reg
  | .live _ _ => .live
  | .shPend _ => .shPend
  | .bus _ => .bus
  | .lane _ _ => .lane
  | .mem _ _ => .mem
  | .ecc _ => .ecc
  | .tick _ => .tick
  | .sump _ => .sump
  | .route _ => .route
  | .rope _ => .rope
  | .dly _ => .dly
  | .gdma _ _ => .gdma
  | .dec _ => .dec
  | .sap _ => .sap
  | .mods _ => .mods
  | .pool _ => .pool
  | .eth _ => .eth
  | .t1s _ => .t1s
  | .clt _ => .clt
  | .ptp _ => .ptp
  | .clk _ => .clk
  | .pair _ => .pair
  | .strata _ => .strata
  | .pwr _ => .pwr
  | .hcp _ => .hcp
  | .pins _ => .pins
  | .nodeReset _ => .nodeReset

/-- An effect is made of updates of the kinds listed. -/
def Act.Touches (ks : List Kind) (a : Act) : Prop := a.Within fun u => u.kind ∈ ks

section Within
variable {p q : Upd → Prop}

@[simp] theorem within_done : Act.done.Within p := trivial
@[simp] theorem within_upd (u : Upd) : (Act.upd u).Within p ↔ p u := Iff.rfl
@[simp] theorem within_seq (a b : Act) : (Act.seq a b).Within p ↔ a.Within p ∧ b.Within p := Iff.rfl
@[simp] theorem within_look (k : State → Act) : (Act.look k).Within p ↔ ∀ s, (k s).Within p := Iff.rfl
@[simp] theorem within_acts_nil : (acts []).Within p := trivial

@[simp] theorem within_acts_cons (a : Act) (as : List Act) : (acts (a :: as)).Within p ↔ a.Within p ∧ (acts as).Within p := by
  cases as with
  | nil => simp [acts]
  | cons b bs => rfl

theorem within_acts {as : List Act} : (acts as).Within p ↔ ∀ a ∈ as, a.Within p := by
  induction as with
  | nil => simp
  | cons a as ih => simp [ih]

theorem within_forEach {α : Type} {xs : List α} {f : α → Act} : (forEach xs f).Within p ↔ ∀ x ∈ xs, (f x).Within p := by
  unfold forEach
  rw [within_acts]
  simp

/-- What holds of the effect of every item holds of the effect of all. -/
theorem within_forEach_of {α : Type} {xs : List α} {f : α → Act} (h : ∀ x, (f x).Within p) : (forEach xs f).Within p :=
  within_forEach.mpr fun x _ => h x

@[simp] theorem within_onlyIf (c : Bool) (a : Act) : (onlyIf c a).Within p ↔ (c = true → a.Within p) := by
  cases c <;> simp

theorem within_ite {c : Prop} [Decidable c] {a b : Act} (ha : a.Within p) (hb : b.Within p) : (if c then a else b).Within p := by
  split <;> assumption

@[simp] theorem within_draw (k : Nat → Act) : (draw k).Within p ↔ ∀ s : State, p (.free (s.free + 1)) ∧ (k (Config.freeNat s.free)).Within p :=
  Iff.rfl

theorem within_draw_of {k : Nat → Act} (hf : ∀ n, p (.free n)) (h : ∀ n, (k n).Within p) : (draw k).Within p :=
  fun _ => ⟨hf _, h _⟩

theorem within_mono {a : Act} (h : ∀ u, p u → q u) (ha : a.Within p) : a.Within q := by
  induction a with
  | done => trivial
  | upd u => exact h u ha
  | seq a b iha ihb => exact ⟨iha ha.1, ihb ha.2⟩
  | look k ih => exact fun s => ih s (ha s)

/-- What every update within `p` leaves, the effect leaves. -/
theorem within_keeps {β : Type} {f : State → β} {a : Act} (ha : a.Within p) (h : ∀ u s, p u → f (u.apply s) = f s) : Keeps f a := by
  induction a with
  | done => exact Keeps.done f
  | upd u => exact fun s => h u s ha
  | seq a b iha ihb => exact Keeps.seq (iha ha.1) (ihb ha.2)
  | look k ih => exact fun s => ih s (ha s) s

end Within

section Touches
variable {ks : List Kind}

@[simp] theorem touches_done : Act.done.Touches ks := trivial
@[simp] theorem touches_upd (u : Upd) : (Act.upd u).Touches ks ↔ u.kind ∈ ks := Iff.rfl
@[simp] theorem touches_seq (a b : Act) : (Act.seq a b).Touches ks ↔ a.Touches ks ∧ b.Touches ks := Iff.rfl
@[simp] theorem touches_look (k : State → Act) : (Act.look k).Touches ks ↔ ∀ s, (k s).Touches ks := Iff.rfl
@[simp] theorem touches_acts_nil : (acts []).Touches ks := trivial
@[simp] theorem touches_acts_cons (a : Act) (as : List Act) : (acts (a :: as)).Touches ks ↔ a.Touches ks ∧ (acts as).Touches ks :=
  within_acts_cons a as
theorem touches_acts {as : List Act} : (acts as).Touches ks ↔ ∀ a ∈ as, a.Touches ks := within_acts
theorem touches_forEach {α : Type} {xs : List α} {f : α → Act} : (forEach xs f).Touches ks ↔ ∀ x ∈ xs, (f x).Touches ks :=
  within_forEach
theorem touches_forEach_of {α : Type} {xs : List α} {f : α → Act} (h : ∀ x, (f x).Touches ks) : (forEach xs f).Touches ks :=
  within_forEach_of h
@[simp] theorem touches_onlyIf (c : Bool) (a : Act) : (onlyIf c a).Touches ks ↔ (c = true → a.Touches ks) := within_onlyIf c a
theorem touches_ite {c : Prop} [Decidable c] {a b : Act} (ha : a.Touches ks) (hb : b.Touches ks) : (if c then a else b).Touches ks :=
  within_ite ha hb
theorem touches_draw {k : Nat → Act} (hf : Kind.free ∈ ks) (h : ∀ n, (k n).Touches ks) : (draw k).Touches ks :=
  within_draw_of (fun _ => hf) h
theorem touches_mono {ks ks' : List Kind} {a : Act} (ha : a.Touches ks) (h : ∀ k ∈ ks, k ∈ ks') : a.Touches ks' :=
  within_mono (fun _ hu => h _ hu) ha

/-- The kind of each update. -/
@[simp] theorem kind_free (x) : (Upd.free x).kind = .free := rfl
@[simp] theorem kind_now (x) : (Upd.now x).kind = .now := rfl
@[simp] theorem kind_elapsed (x) : (Upd.elapsed x).kind = .elapsed := rfl
@[simp] theorem kind_lock (x) : (Upd.lock x).kind = .lock := rfl
@[simp] theorem kind_reg (a : Nat) (v : Word) : (Upd.reg a v).kind = .reg := rfl
@[simp] theorem kind_live (a : Nat) (v : Word) : (Upd.live a v).kind = .live := rfl
@[simp] theorem kind_shPend (x) : (Upd.shPend x).kind = .shPend := rfl
@[simp] theorem kind_bus (x) : (Upd.bus x).kind = .bus := rfl
@[simp] theorem kind_lane (i : Nat) (l : Lane) : (Upd.lane i l).kind = .lane := rfl
@[simp] theorem kind_mem (a : Nat) (b : Byte) : (Upd.mem a b).kind = .mem := rfl
@[simp] theorem kind_ecc (x) : (Upd.ecc x).kind = .ecc := rfl
@[simp] theorem kind_tick (x) : (Upd.tick x).kind = .tick := rfl
@[simp] theorem kind_sump (x) : (Upd.sump x).kind = .sump := rfl
@[simp] theorem kind_route (x) : (Upd.route x).kind = .route := rfl
@[simp] theorem kind_rope (x) : (Upd.rope x).kind = .rope := rfl
@[simp] theorem kind_dly (x) : (Upd.dly x).kind = .dly := rfl
@[simp] theorem kind_gdma (g : Nat) (x : GdmaState) : (Upd.gdma g x).kind = .gdma := rfl
@[simp] theorem kind_dec (x) : (Upd.dec x).kind = .dec := rfl
@[simp] theorem kind_sap (x) : (Upd.sap x).kind = .sap := rfl
@[simp] theorem kind_mods (x) : (Upd.mods x).kind = .mods := rfl
@[simp] theorem kind_pool (x) : (Upd.pool x).kind = .pool := rfl
@[simp] theorem kind_eth (x) : (Upd.eth x).kind = .eth := rfl
@[simp] theorem kind_t1s (x) : (Upd.t1s x).kind = .t1s := rfl
@[simp] theorem kind_clt (x) : (Upd.clt x).kind = .clt := rfl
@[simp] theorem kind_ptp (x) : (Upd.ptp x).kind = .ptp := rfl
@[simp] theorem kind_clk (x) : (Upd.clk x).kind = .clk := rfl
@[simp] theorem kind_pair (x) : (Upd.pair x).kind = .pair := rfl
@[simp] theorem kind_strata (x) : (Upd.strata x).kind = .strata := rfl
@[simp] theorem kind_pwr (x) : (Upd.pwr x).kind = .pwr := rfl
@[simp] theorem kind_hcp (x) : (Upd.hcp x).kind = .hcp := rfl
@[simp] theorem kind_pins (x) : (Upd.pins x).kind = .pins := rfl
@[simp] theorem kind_nodeReset (x) : (Upd.nodeReset x).kind = .nodeReset := rfl

end Touches

/-! ### Fields that an effect leaves -/

theorem run_pending (a : Act) (s : State) : (a.run s).pending = s.pending :=
  run_induction (fun t => t.pending = s.pending) (fun u t h => by cases u <;> exact h) a s rfl

theorem touches_free {ks : List Kind} {a : Act} (ha : a.Touches ks) (h : Kind.free ∉ ks) (s : State) : (a.run s).free = s.free :=
  within_keeps (f := (·.free)) ha (fun u s hu => by cases u <;> simp_all) s

theorem touches_now {ks : List Kind} {a : Act} (ha : a.Touches ks) (h : Kind.now ∉ ks) (hr : Kind.nodeReset ∉ ks) (s : State) : (a.run s).now = s.now :=
  within_keeps (f := (·.now)) ha (fun u s hu => by cases u <;> simp_all) s

theorem touches_elapsed {ks : List Kind} {a : Act} (ha : a.Touches ks) (h : Kind.elapsed ∉ ks) (hr : Kind.nodeReset ∉ ks) (s : State) : (a.run s).elapsed = s.elapsed :=
  within_keeps (f := (·.elapsed)) ha (fun u s hu => by cases u <;> simp_all) s

theorem touches_lock {ks : List Kind} {a : Act} (ha : a.Touches ks) (h : Kind.lock ∉ ks) (hr : Kind.nodeReset ∉ ks) (s : State) : (a.run s).lock = s.lock :=
  within_keeps (f := (·.lock)) ha (fun u s hu => by cases u <;> simp_all) s

theorem touches_regs {ks : List Kind} {a : Act} (ha : a.Touches ks) (h : Kind.reg ∉ ks) (hr : Kind.nodeReset ∉ ks) (s : State) : (a.run s).regs = s.regs :=
  within_keeps (f := (·.regs)) ha (fun u s hu => by cases u <;> simp_all) s

theorem touches_live {ks : List Kind} {a : Act} (ha : a.Touches ks) (h : Kind.live ∉ ks) (hr : Kind.nodeReset ∉ ks) (s : State) : (a.run s).live = s.live :=
  within_keeps (f := (·.live)) ha (fun u s hu => by cases u <;> simp_all) s

theorem touches_shPend {ks : List Kind} {a : Act} (ha : a.Touches ks) (h : Kind.shPend ∉ ks) (hr : Kind.nodeReset ∉ ks) (s : State) : (a.run s).shPend = s.shPend :=
  within_keeps (f := (·.shPend)) ha (fun u s hu => by cases u <;> simp_all) s

theorem touches_bus {ks : List Kind} {a : Act} (ha : a.Touches ks) (h : Kind.bus ∉ ks) (hr : Kind.nodeReset ∉ ks) (s : State) : (a.run s).bus = s.bus :=
  within_keeps (f := (·.bus)) ha (fun u s hu => by cases u <;> simp_all) s

theorem touches_lanes {ks : List Kind} {a : Act} (ha : a.Touches ks) (h : Kind.lane ∉ ks) (hr : Kind.nodeReset ∉ ks) (s : State) : (a.run s).lanes = s.lanes :=
  within_keeps (f := (·.lanes)) ha (fun u s hu => by cases u <;> simp_all) s

theorem touches_mem {ks : List Kind} {a : Act} (ha : a.Touches ks) (h : Kind.mem ∉ ks) (hr : Kind.nodeReset ∉ ks) (s : State) : (a.run s).mem = s.mem :=
  within_keeps (f := (·.mem)) ha (fun u s hu => by cases u <;> simp_all) s

theorem touches_ecc {ks : List Kind} {a : Act} (ha : a.Touches ks) (h : Kind.ecc ∉ ks) (hr : Kind.nodeReset ∉ ks) (s : State) : (a.run s).ecc = s.ecc :=
  within_keeps (f := (·.ecc)) ha (fun u s hu => by cases u <;> simp_all) s

theorem touches_tick {ks : List Kind} {a : Act} (ha : a.Touches ks) (h : Kind.tick ∉ ks) (hr : Kind.nodeReset ∉ ks) (s : State) : (a.run s).tick = s.tick :=
  within_keeps (f := (·.tick)) ha (fun u s hu => by cases u <;> simp_all) s

theorem touches_sump {ks : List Kind} {a : Act} (ha : a.Touches ks) (h : Kind.sump ∉ ks) (hr : Kind.nodeReset ∉ ks) (s : State) : (a.run s).sump = s.sump :=
  within_keeps (f := (·.sump)) ha (fun u s hu => by cases u <;> simp_all) s

theorem touches_route {ks : List Kind} {a : Act} (ha : a.Touches ks) (h : Kind.route ∉ ks) (hr : Kind.nodeReset ∉ ks) (s : State) : (a.run s).route = s.route :=
  within_keeps (f := (·.route)) ha (fun u s hu => by cases u <;> simp_all) s

theorem touches_rope {ks : List Kind} {a : Act} (ha : a.Touches ks) (h : Kind.rope ∉ ks) (hr : Kind.nodeReset ∉ ks) (s : State) : (a.run s).rope = s.rope :=
  within_keeps (f := (·.rope)) ha (fun u s hu => by cases u <;> simp_all) s

theorem touches_dly {ks : List Kind} {a : Act} (ha : a.Touches ks) (h : Kind.dly ∉ ks) (hr : Kind.nodeReset ∉ ks) (s : State) : (a.run s).dly = s.dly :=
  within_keeps (f := (·.dly)) ha (fun u s hu => by cases u <;> simp_all) s

theorem touches_gdma {ks : List Kind} {a : Act} (ha : a.Touches ks) (h : Kind.gdma ∉ ks) (hr : Kind.nodeReset ∉ ks) (s : State) : (a.run s).gdma = s.gdma :=
  within_keeps (f := (·.gdma)) ha (fun u s hu => by cases u <;> simp_all) s

theorem touches_dec {ks : List Kind} {a : Act} (ha : a.Touches ks) (h : Kind.dec ∉ ks) (hr : Kind.nodeReset ∉ ks) (s : State) : (a.run s).dec = s.dec :=
  within_keeps (f := (·.dec)) ha (fun u s hu => by cases u <;> simp_all) s

theorem touches_sap {ks : List Kind} {a : Act} (ha : a.Touches ks) (h : Kind.sap ∉ ks) (hr : Kind.nodeReset ∉ ks) (s : State) : (a.run s).sap = s.sap :=
  within_keeps (f := (·.sap)) ha (fun u s hu => by cases u <;> simp_all) s

theorem touches_mods {ks : List Kind} {a : Act} (ha : a.Touches ks) (h : Kind.mods ∉ ks) (hr : Kind.nodeReset ∉ ks) (s : State) : (a.run s).mods = s.mods :=
  within_keeps (f := (·.mods)) ha (fun u s hu => by cases u <;> simp_all) s

theorem touches_pool {ks : List Kind} {a : Act} (ha : a.Touches ks) (h : Kind.pool ∉ ks) (hr : Kind.nodeReset ∉ ks) (s : State) : (a.run s).pool = s.pool :=
  within_keeps (f := (·.pool)) ha (fun u s hu => by cases u <;> simp_all) s

theorem touches_eth {ks : List Kind} {a : Act} (ha : a.Touches ks) (h : Kind.eth ∉ ks) (hr : Kind.nodeReset ∉ ks) (s : State) : (a.run s).eth = s.eth :=
  within_keeps (f := (·.eth)) ha (fun u s hu => by cases u <;> simp_all) s

theorem touches_t1s {ks : List Kind} {a : Act} (ha : a.Touches ks) (h : Kind.t1s ∉ ks) (hr : Kind.nodeReset ∉ ks) (s : State) : (a.run s).t1s = s.t1s :=
  within_keeps (f := (·.t1s)) ha (fun u s hu => by cases u <;> simp_all) s

theorem touches_clt {ks : List Kind} {a : Act} (ha : a.Touches ks) (h : Kind.clt ∉ ks) (hr : Kind.nodeReset ∉ ks) (s : State) : (a.run s).clt = s.clt :=
  within_keeps (f := (·.clt)) ha (fun u s hu => by cases u <;> simp_all) s

theorem touches_ptp {ks : List Kind} {a : Act} (ha : a.Touches ks) (h : Kind.ptp ∉ ks) (hr : Kind.nodeReset ∉ ks) (s : State) : (a.run s).ptp = s.ptp :=
  within_keeps (f := (·.ptp)) ha (fun u s hu => by cases u <;> simp_all) s

theorem touches_clk {ks : List Kind} {a : Act} (ha : a.Touches ks) (h : Kind.clk ∉ ks) (hr : Kind.nodeReset ∉ ks) (s : State) : (a.run s).clk = s.clk :=
  within_keeps (f := (·.clk)) ha (fun u s hu => by cases u <;> simp_all) s

theorem touches_pair {ks : List Kind} {a : Act} (ha : a.Touches ks) (h : Kind.pair ∉ ks) (hr : Kind.nodeReset ∉ ks) (s : State) : (a.run s).pair = s.pair :=
  within_keeps (f := (·.pair)) ha (fun u s hu => by cases u <;> simp_all) s

theorem touches_strata {ks : List Kind} {a : Act} (ha : a.Touches ks) (h : Kind.strata ∉ ks) (hr : Kind.nodeReset ∉ ks) (s : State) : (a.run s).strata = s.strata :=
  within_keeps (f := (·.strata)) ha (fun u s hu => by cases u <;> simp_all) s

theorem touches_pwr {ks : List Kind} {a : Act} (ha : a.Touches ks) (h : Kind.pwr ∉ ks) (hr : Kind.nodeReset ∉ ks) (s : State) : (a.run s).pwr = s.pwr :=
  within_keeps (f := (·.pwr)) ha (fun u s hu => by cases u <;> simp_all) s

theorem touches_hcp {ks : List Kind} {a : Act} (ha : a.Touches ks) (h : Kind.hcp ∉ ks) (hr : Kind.nodeReset ∉ ks) (s : State) : (a.run s).hcp = s.hcp :=
  within_keeps (f := (·.hcp)) ha (fun u s hu => by cases u <;> simp_all) s

theorem touches_pins {ks : List Kind} {a : Act} (ha : a.Touches ks) (h : Kind.pins ∉ ks) (s : State) : (a.run s).pins = s.pins :=
  within_keeps (f := (·.pins)) ha (fun u s hu => by cases u <;> simp_all) s

end Sys2Proof.Machine
end

