-- ==== Sys2Proof/Laws/Maps.lean ====
section
/-! SUPPORT. The laws of sparse maps: what a key reads as after each operation, and that each keeps the canonical form. -/

namespace Sys2Proof.Machine

variable {α : Type}

/-! ### The order of the keys -/

theorem sortedAbove_mono {m : SMap α} {a b : Nat} (h : smSortedAbove (some b) m = true) (hab : a ≤ b) :
    smSortedAbove (some a) m = true := by
  cases m with
  | nil => rfl
  | cons p m =>
    simp only [smSortedAbove, Bool.and_eq_true, decide_eq_true_eq] at h ⊢
    exact ⟨by omega, h.2⟩

theorem sortedAbove_none {m : SMap α} {b : Nat} (h : smSortedAbove (some b) m = true) : smSortedAbove none m = true := by
  cases m with
  | nil => rfl
  | cons p m =>
    simp only [smSortedAbove, Bool.and_eq_true] at h ⊢
    exact h.2

/-- The keys of a map sorted above a bound are above it. -/
theorem sortedAbove_lt {m : SMap α} {b : Nat} (h : smSortedAbove (some b) m = true) : ∀ p ∈ m, b < p.1 := by
  induction m generalizing b with
  | nil => simp
  | cons q m ih =>
    simp only [smSortedAbove, Bool.and_eq_true, decide_eq_true_eq] at h
    intro p hp
    rcases List.mem_cons.mp hp with rfl | hp
    · exact h.1
    · exact Nat.lt_trans h.1 (ih h.2 p hp)

/-- The lower bound of a sorted map: none, or some key below all. -/
theorem sortedAbove_insert {m : SMap α} {b : Option Nat} {a : Nat} {x : α} (h : smSortedAbove b m = true)
    (hb : ∀ c, b = some c → c < a) : smSortedAbove b (smInsert m a x) = true := by
  induction m generalizing b with
  | nil => cases b <;> simp_all [smInsert, smSortedAbove]
  | cons q m ih =>
    obtain ⟨k, v⟩ := q
    have hm : smSortedAbove (some k) m = true := by cases b <;> simp_all [smSortedAbove]
    simp only [smInsert]
    split
    · subst_vars; cases b <;> simp_all [smSortedAbove]
    · split
      · cases b <;> simp_all [smSortedAbove]
      · have := ih (b := some k) hm (by intro c hc; cases hc; omega)
        cases b <;> simp_all [smSortedAbove]

theorem sortedAbove_erase {m : SMap α} {b : Option Nat} {a : Nat} (h : smSortedAbove b m = true) :
    smSortedAbove b (smErase m a) = true := by
  induction m generalizing b with
  | nil => exact h
  | cons q m ih =>
    obtain ⟨k, v⟩ := q
    have hm : smSortedAbove (some k) m = true := by cases b <;> simp_all [smSortedAbove]
    simp only [smErase]
    split
    · have := ih hm
      cases b with
      | none => exact sortedAbove_none this
      | some c =>
        simp only [smSortedAbove, Bool.and_eq_true, decide_eq_true_eq] at h
        exact sortedAbove_mono this (by omega)
    · split
      · exact h
      · have := ih (b := some k) hm
        cases b <;> simp_all [smSortedAbove]

theorem sortedAbove_filter {m : SMap α} {b : Option Nat} (p : Nat × α → Bool) (h : smSortedAbove b m = true) :
    smSortedAbove b (m.filter p) = true := by
  induction m generalizing b with
  | nil => exact h
  | cons q m ih =>
    obtain ⟨k, v⟩ := q
    have hm : smSortedAbove (some k) m = true := by cases b <;> simp_all [smSortedAbove]
    by_cases hq : p (k, v) = true
    · rw [List.filter_cons_of_pos hq]
      have := ih (b := some k) hm
      cases b <;> simp_all [smSortedAbove]
    · rw [List.filter_cons_of_neg hq]
      cases b with
      | none => exact ih (sortedAbove_none hm)
      | some c =>
        simp only [smSortedAbove, Bool.and_eq_true, decide_eq_true_eq] at h
        exact ih (sortedAbove_mono hm (by omega))

/-! ### Reading -/

/-- Below every key a sorted map lists nothing. -/
theorem find_of_sortedAbove {m : SMap α} {b a : Nat} (h : smSortedAbove (some b) m = true) (hab : a ≤ b) : smFind m a = none := by
  cases m with
  | nil => rfl
  | cons p m =>
    simp only [smSortedAbove, Bool.and_eq_true, decide_eq_true_eq] at h
    simp only [smFind]
    rw [if_neg (by omega), if_pos (by omega)]

/-- A key that has been listed reads as listed. -/
@[simp] theorem find_insert_self (m : SMap α) (a : Nat) (x : α) : smFind (smInsert m a x) a = some x := by
  induction m with
  | nil => simp [smInsert, smFind]
  | cons q m ih =>
    obtain ⟨k, v⟩ := q
    simp only [smInsert]
    split
    · simp [smFind]
    · split <;> simp_all [smFind]

/-- Every other key reads as before. -/
theorem find_insert_ne (m : SMap α) {a c : Nat} (x : α) (h : c ≠ a) : smFind (smInsert m a x) c = smFind m c := by
  induction m with
  | nil => simp [smInsert, smFind, h]
  | cons q m ih =>
    obtain ⟨k, v⟩ := q
    simp only [smInsert]
    split
    · subst_vars; simp [smFind, h]
    · split
      · rename_i h1 h2
        simp only [smFind, if_neg h]
        by_cases hc : c < a
        · rw [if_pos hc, if_neg (by omega), if_pos (by omega)]
        · rw [if_neg hc]
      · simp only [smFind, ih]

/-- A key that has been removed is not listed. -/
@[simp] theorem find_erase_self (m : SMap α) (a : Nat) : smFind (smErase m a) a = none := by
  induction m with
  | nil => rfl
  | cons q m ih =>
    obtain ⟨k, v⟩ := q
    simp only [smErase]
    split
    · exact ih
    · split
      · simp_all [smFind]
      · simp_all [smFind]

theorem find_erase_ne {m : SMap α} (hm : smSortedAbove none m = true) {a c : Nat} (h : c ≠ a) :
    smFind (smErase m a) c = smFind m c := by
  induction m with
  | nil => rfl
  | cons q m ih =>
    obtain ⟨k, v⟩ := q
    simp only [smSortedAbove] at hm
    simp only [smErase]
    split
    · subst_vars
      rw [ih (sortedAbove_none hm)]
      simp only [smFind, if_neg h]
      split
      · exact find_of_sortedAbove hm (by omega)
      · rfl
    · split
      · rfl
      · simp only [smFind, ih (sortedAbove_none hm)]

@[simp] theorem get_insert_self (d : Nat → α) (m : SMap α) (a : Nat) (x : α) : smGet d (smInsert m a x) a = x := by simp [smGet]

theorem get_insert_ne (d : Nat → α) (m : SMap α) {a c : Nat} (x : α) (h : c ≠ a) : smGet d (smInsert m a x) c = smGet d m c := by
  simp [smGet, find_insert_ne m x h]

@[simp] theorem get_nil (d : Nat → α) (a : Nat) : smGet d [] a = d a := rfl

/-- The value given to a key is read back. -/
@[simp] theorem get_put_self [DecidableEq α] (d : Nat → α) (m : SMap α) (a : Nat) (x : α) : smGet d (smPut d m a x) a = x := by
  unfold smPut
  split
  · simp_all [smGet]
  · simp

/-- Every other key keeps its value. -/
theorem get_put_ne [DecidableEq α] (d : Nat → α) {m : SMap α} (hm : smSortedAbove none m = true) {a c : Nat} (x : α)
    (h : c ≠ a) : smGet d (smPut d m a x) c = smGet d m c := by
  unfold smPut
  split
  · simp [smGet, find_erase_ne hm h]
  · exact get_insert_ne d m x h

/-! ### The canonical form -/

theorem wf_sorted [DecidableEq α] {d : Nat → α} {m : SMap α} (h : smWf d m = true) : smSortedAbove none m = true := by
  simp only [smWf, Bool.and_eq_true] at h; exact h.1

theorem mem_insert {m : SMap α} {a : Nat} {x : α} {p : Nat × α} (h : p ∈ smInsert m a x) : p = (a, x) ∨ p ∈ m := by
  induction m with
  | nil => simpa [smInsert] using h
  | cons q m ih =>
    obtain ⟨k, v⟩ := q
    simp only [smInsert] at h
    split at h
    · rcases List.mem_cons.mp h with h | h
      · exact .inl h
      · exact .inr (List.mem_cons_of_mem _ h)
    · split at h
      · exact List.mem_cons.mp h
      · rcases List.mem_cons.mp h with h | h
        · exact .inr (h ▸ List.mem_cons_self)
        · exact (ih h).imp id (List.mem_cons_of_mem _)

theorem mem_erase {m : SMap α} {a : Nat} {p : Nat × α} (h : p ∈ smErase m a) : p ∈ m := by
  induction m with
  | nil => exact h
  | cons q m ih =>
    obtain ⟨k, v⟩ := q
    simp only [smErase] at h
    split at h
    · exact List.mem_cons_of_mem _ (ih h)
    · split at h
      · exact h
      · rcases List.mem_cons.mp h with h | h
        · exact h ▸ List.mem_cons_self
        · exact List.mem_cons_of_mem _ (ih h)

/-- Giving a key a value keeps the canonical form. -/
theorem wf_put [DecidableEq α] {d : Nat → α} {m : SMap α} (h : smWf d m = true) (a : Nat) (x : α) : smWf d (smPut d m a x) = true := by
  simp only [smWf, Bool.and_eq_true, List.all_eq_true, decide_eq_true_eq] at h ⊢
  unfold smPut
  split
  · exact ⟨sortedAbove_erase h.1, fun p hp => h.2 p (mem_erase hp)⟩
  · rename_i hx
    refine ⟨sortedAbove_insert h.1 (by simp), fun p hp => ?_⟩
    rcases mem_insert hp with rfl | hp
    · exact hx
    · exact h.2 p hp

/-- Dropping entries keeps it. -/
theorem wf_filter [DecidableEq α] {d : Nat → α} {m : SMap α} (p : Nat × α → Bool) (h : smWf d m = true) :
    smWf d (m.filter p) = true := by
  simp only [smWf, Bool.and_eq_true, List.all_eq_true, decide_eq_true_eq] at h ⊢
  exact ⟨sortedAbove_filter p h.1, fun q hq => h.2 q (List.mem_of_mem_filter hq)⟩

/-- Changing every listed value keeps it. -/
theorem wf_map [DecidableEq α] {d : Nat → α} (f : Nat → α → α) {m : SMap α} (h : smWf d m = true) : smWf d (smMap d f m) = true := by
  unfold smMap
  suffices ∀ (l acc : SMap α), smWf d acc = true → smWf d (l.foldl (fun acc p => smPut d acc p.1 (f p.1 p.2)) acc) = true from
    this m m h
  intro l
  induction l with
  | nil => exact fun _ h => h
  | cons p l ih => exact fun acc h => ih _ (wf_put h _ _)

end Sys2Proof.Machine
end

