-- ==== Sys2Proof/Laws/Memory.lean ====
section
/-! SUPPORT. The laws of memory: a byte written is read back, every other byte stays, and every operation keeps the canonical
form. -/

namespace Sys2Proof.Machine

@[simp] theorem memGet_nil (a : Nat) : memGet [] a = 0 := rfl

/-- A byte written is read back. -/
@[simp] theorem memGet_put_self (m : List Host.Cell) (a : Nat) (b : Byte) : memGet (memPut m a b) a = b := get_put_self _ m a b

/-- Every other byte stays. -/
theorem memGet_put_ne {m : List Host.Cell} (h : Memory.wf m = true) {a c : Nat} (b : Byte) (hc : c ≠ a) :
    memGet (memPut m a b) c = memGet m c := get_put_ne _ (wf_sorted h) b hc

theorem memory_wf_nil : Memory.wf [] = true := rfl

/-- A byte write keeps the canonical form. -/
theorem memory_wf_put {m : List Host.Cell} (h : Memory.wf m = true) (a : Nat) (b : Byte) : Memory.wf (memPut m a b) = true :=
  wf_put h a b

/-- So does every primitive update. -/
theorem memory_wf_upd (u : Upd) (s : State) (h : Memory.wf s.mem = true) : Memory.wf (u.apply s).mem = true := by
  cases u with
  | mem a b => exact memory_wf_put h a b
  | nodeReset p =>
    show Memory.wf (if p then _ else _) = true
    split
    · exact wf_filter _ h
    · exact h
  | _ => exact h

/-- And every effect: no command leaves memory in another form. -/
theorem memory_wf_run (a : Act) (s : State) (h : Memory.wf s.mem = true) : Memory.wf (a.run s).mem = true :=
  run_induction (fun s => Memory.wf s.mem = true) memory_wf_upd a s h

/-- After reset memory lists nothing. -/
theorem memory_wf_reset : Memory.wf State.reset.mem = true := rfl

/-- Bytes outside the `n` from `a` stay through a write of `n` bytes. -/
theorem memGet_memSetLe {s : State} (h : Memory.wf s.mem = true) {a n v c : Nat} (hc : c < a ∨ a + n ≤ c) :
    memGet ((memSetLe a n v).run s).mem c = memGet s.mem c := by
  unfold memSetLe
  have hx : ∀ i ∈ List.range n, c ≠ a + i := fun i hi => by have := List.mem_range.mp hi; omega
  generalize List.range n = xs at hx
  induction xs generalizing s with
  | nil => rfl
  | cons i xs ih =>
    rw [run_forEach_cons, ih (memory_wf_put h _ _) (fun j hj => hx j (List.mem_cons_of_mem _ hj))]
    exact memGet_put_ne h _ (hx i List.mem_cons_self)

/-- The `n` bytes read from where `n` bytes have been written are what was written. -/
theorem memGet_memSetLe_in {s : State} (h : Memory.wf s.mem = true) {a n v i : Nat} (hi : i < n) :
    memGet ((memSetLe a n v).run s).mem (a + i) = BitVec.ofNat 8 (v / 2 ^ (8 * i)) := by
  unfold memSetLe
  have hn : (List.range n).Nodup := List.nodup_range
  have hm : i ∈ List.range n := List.mem_range.mpr hi
  generalize List.range n = xs at hn hm
  induction xs generalizing s with
  | nil => cases hm
  | cons j xs ih =>
    rw [run_forEach_cons]
    have hw : Memory.wf ((Act.upd (.mem (a + j) (BitVec.ofNat 8 (v / 2 ^ (8 * j))))).run s).mem = true := memory_wf_put h _ _
    obtain ⟨hj, hn⟩ := List.nodup_cons.mp hn
    rcases List.mem_cons.mp hm with rfl | hm
    · have : ∀ (ys : List Nat) (t : State), Memory.wf t.mem = true → (∀ k ∈ ys, k ≠ i) →
          memGet ((forEach ys fun i => .upd (.mem (a + i) (BitVec.ofNat 8 (v / 2 ^ (8 * i))))).run t).mem (a + i) =
            memGet t.mem (a + i) := by
        intro ys
        induction ys with
        | nil => exact fun _ _ _ => rfl
        | cons k ys ihk =>
          intro t ht hk
          rw [run_forEach_cons, ihk _ (memory_wf_put ht _ _) (fun l hl => hk l (List.mem_cons_of_mem _ hl))]
          exact memGet_put_ne ht _ (by have := hk k List.mem_cons_self; omega)
      rw [this xs _ hw (fun k hk hki => hj (hki ▸ hk))]
      exact memGet_put_self _ _ _
    · exact ih hw hn hm

/-- A write of bytes changes nothing but memory. -/
theorem memSetLe_keeps {β : Type} {f : State → β} (hf : ∀ a b s, f ((Upd.mem a b).apply s) = f s) (a n v : Nat) :
    Keeps f (memSetLe a n v) := Keeps.forEach fun _ _ => Keeps.upd fun s => hf _ _ s

end Sys2Proof.Machine
end

