-- ==== Sys2Proof/Laws/Regs.lean ====
section
/-! SUPPORT. The laws of registers and their fields: a value stored is read back, every other register stays. -/

namespace Sys2Proof.Machine

/-! ### Bit fields -/

theorem split_at (v lo w : Nat) : ∃ c, c < 2 ^ lo ∧ v = v / 2 ^ (lo + w) * 2 ^ (lo + w) + v / 2 ^ lo % 2 ^ w * 2 ^ lo + c := by
  refine ⟨v % 2 ^ lo, Nat.mod_lt _ (Nat.two_pow_pos _), ?_⟩
  have h1 := Nat.div_add_mod v (2 ^ lo)
  have h2 := Nat.div_add_mod (v / 2 ^ lo) (2 ^ w)
  rw [Nat.div_div_eq_div_mul, ← Nat.pow_add] at h2
  have h3 : v / 2 ^ lo * 2 ^ lo = v / 2 ^ (lo + w) * 2 ^ (lo + w) + v / 2 ^ lo % 2 ^ w * 2 ^ lo := by
    conv => lhs; rw [← h2]
    rw [Nat.add_mul, Nat.mul_comm (2 ^ w), Nat.mul_assoc, ← Nat.pow_add, Nat.add_comm w lo]
  rw [← h3, Nat.mul_comm]
  exact h1.symm

theorem bitsOf_lt (v hi lo : Nat) : bitsOf v hi lo < 2 ^ (hi + 1 - lo) := Nat.mod_lt _ (Nat.two_pow_pos _)

/-- A number with a field replaced, taken apart. -/
theorem putBits_eq (v x : Nat) {hi lo : Nat} (h : lo ≤ hi + 1) : ∃ c, c < 2 ^ lo ∧
    v = v / 2 ^ (hi + 1) * 2 ^ (hi + 1) + bitsOf v hi lo * 2 ^ lo + c ∧
    putBits v hi lo x = v / 2 ^ (hi + 1) * 2 ^ (hi + 1) + x % 2 ^ (hi + 1 - lo) * 2 ^ lo + c := by
  obtain ⟨c, hc, hv⟩ := split_at v lo (hi + 1 - lo)
  rw [Nat.add_sub_cancel' h] at hv
  refine ⟨c, hc, hv, ?_⟩
  unfold putBits
  have : bitsOf v hi lo = v / 2 ^ lo % 2 ^ (hi + 1 - lo) := rfl
  rw [this]
  omega

/-- Bits of a number taken apart at a field: the field. -/
theorem bitsOf_mid {a b c hi lo : Nat} (h : lo ≤ hi + 1) (hc : c < 2 ^ lo) (hb : b < 2 ^ (hi + 1 - lo)) :
    bitsOf (a * 2 ^ (hi + 1) + b * 2 ^ lo + c) hi lo = b := by
  unfold bitsOf
  have e : 2 ^ (hi + 1) = 2 ^ (hi + 1 - lo) * 2 ^ lo := by rw [← Nat.pow_add]; congr 1; omega
  rw [e, ← Nat.mul_assoc, ← Nat.add_mul, Nat.add_comm, Nat.add_mul_div_right _ _ (Nat.two_pow_pos _), Nat.div_eq_of_lt hc,
    Nat.zero_add, Nat.mul_add_mod_of_lt' hb]
where
  Nat.mul_add_mod_of_lt' {a b n : Nat} (h : b < n) : (a * n + b) % n = b := by
    rw [Nat.add_comm, Nat.add_mul_mod_self_right, Nat.mod_eq_of_lt h]

/-- The field replaced reads as what was put there. -/
theorem bitsOf_putBits (v x : Nat) {hi lo : Nat} (h : lo ≤ hi + 1) : bitsOf (putBits v hi lo x) hi lo = x % 2 ^ (hi + 1 - lo) := by
  obtain ⟨c, hc, -, hp⟩ := putBits_eq v x h
  rw [hp]
  exact bitsOf_mid h hc (Nat.mod_lt _ (Nat.two_pow_pos _))

/-- A field above the one replaced stays. -/
theorem bitsOf_putBits_above (v x : Nat) {hi lo hi' lo' : Nat} (h : lo ≤ hi + 1) (hd : hi < lo') :
    bitsOf (putBits v hi lo x) hi' lo' = bitsOf v hi' lo' := by
  obtain ⟨c, hc, hv, hp⟩ := putBits_eq v x h
  have e : 2 ^ (hi + 1) = 2 ^ (hi + 1 - lo) * 2 ^ lo := by rw [← Nat.pow_add]; congr 1; omega
  have bound : ∀ b, b < 2 ^ (hi + 1 - lo) → b * 2 ^ lo + c < 2 ^ (hi + 1) := fun b hb => by
    have : (b + 1) * 2 ^ lo ≤ 2 ^ (hi + 1 - lo) * 2 ^ lo := Nat.mul_le_mul_right _ hb
    rw [e]; rw [Nat.add_mul] at this; omega
  have quot : ∀ b, b < 2 ^ (hi + 1 - lo) → (v / 2 ^ (hi + 1) * 2 ^ (hi + 1) + b * 2 ^ lo + c) / 2 ^ (hi + 1) = v / 2 ^ (hi + 1) :=
    fun b hb => by
      rw [Nat.add_assoc, Nat.add_comm, Nat.add_mul_div_right _ _ (Nat.two_pow_pos _), Nat.div_eq_of_lt (bound b hb), Nat.zero_add]
  unfold bitsOf
  have e' : 2 ^ lo' = 2 ^ (hi + 1) * 2 ^ (lo' - (hi + 1)) := by rw [← Nat.pow_add]; congr 1; omega
  rw [e', ← Nat.div_div_eq_div_mul, ← Nat.div_div_eq_div_mul, hp, quot _ (Nat.mod_lt _ (Nat.two_pow_pos _))]

/-- A field below the one replaced stays. -/
theorem bitsOf_putBits_below (v x : Nat) {hi lo hi' lo' : Nat} (h : lo ≤ hi + 1) (hd : hi' < lo) (hl : lo' ≤ hi' + 1) :
    bitsOf (putBits v hi lo x) hi' lo' = bitsOf v hi' lo' := by
  obtain ⟨c, hc, hv, hp⟩ := putBits_eq v x h
  have key : ∀ a b, bitsOf (a * 2 ^ (hi + 1) + b * 2 ^ lo + c) hi' lo' = bitsOf c hi' lo' := fun a b => by
    have e1 : 2 ^ (hi + 1) = 2 ^ (hi + 1 - (hi' + 1)) * 2 ^ (hi' + 1) := by rw [← Nat.pow_add]; congr 1; omega
    have e2 : 2 ^ lo = 2 ^ (lo - (hi' + 1)) * 2 ^ (hi' + 1) := by rw [← Nat.pow_add]; congr 1; omega
    have e3 : 2 ^ (hi' + 1) = 2 ^ (hi' + 1 - lo') * 2 ^ lo' := by rw [← Nat.pow_add]; congr 1; omega
    unfold bitsOf
    have := Nat.div_add_mod c (2 ^ (hi' + 1))
    rw [e1, e2, ← Nat.mul_assoc, ← Nat.mul_assoc, ← Nat.add_mul, e3, ← Nat.mul_assoc, Nat.add_comm,
      Nat.add_mul_div_right _ _ (Nat.two_pow_pos _), Nat.add_mul_mod_self_right]
  rw [hp, key]
  conv => rhs; rw [hv]
  rw [key]

/-! ### Words of a register -/

/-- Numbers from their 32-bit words. -/
theorem joinWords_split (v : Nat) : ∀ n k, joinWords ((List.range' k n).map fun w => v / 2 ^ (32 * w) % 2 ^ 32) =
    v / 2 ^ (32 * k) % 2 ^ (32 * n)
  | 0, k => by simp [joinWords, Nat.mod_one]
  | n + 1, k => by
    rw [List.range'_succ, List.map_cons, joinWords, joinWords_split v n (k + 1)]
    have e : 32 * (k + 1) = 32 * k + 32 := by omega
    rw [e, Nat.pow_add, ← Nat.div_div_eq_div_mul]
    generalize v / 2 ^ (32 * k) = u
    have : 2 ^ (32 * (n + 1)) = 2 ^ 32 * 2 ^ (32 * n) := by rw [← Nat.pow_add]; congr 1; omega
    rw [this, Nat.mod_mul]

@[simp] theorem set_keeps {β : Type} {f : State → β} (hf : ∀ a v s, f ((Upd.reg a v).apply s) = f s) (r : Reg) (i v m : Nat) :
    Keeps f (r.set i v m) := Keeps.forEach fun _ _ => Keeps.upd fun s => hf _ _ s

/-- Words stored in turn: a key that none of them has stays. -/
theorem find_regs_forEach (xs : List Nat) (k : Nat → Nat) (v : Nat → Word) (s : State) {a : Nat} (h : ∀ w ∈ xs, a ≠ k w) :
    smFind ((forEach xs fun w => .upd (.reg (k w) (v w))).run s).regs a = smFind s.regs a := by
  induction xs generalizing s with
  | nil => rfl
  | cons w xs ih =>
    rw [run_forEach_cons, ih _ (fun x hx => h x (List.mem_cons_of_mem _ hx))]
    exact find_insert_ne _ _ (h w List.mem_cons_self)

/-- A key that one of them has holds its word. -/
theorem find_regs_forEach_mem (xs : List Nat) (k : Nat → Nat) (v : Nat → Word) (s : State) (hk : ∀ x y, k x = k y → x = y)
    (hn : xs.Nodup) {w : Nat} (hw : w ∈ xs) :
    smFind ((forEach xs fun w => .upd (.reg (k w) (v w))).run s).regs (k w) = some (v w) := by
  induction xs generalizing s with
  | nil => cases hw
  | cons x xs ih =>
    obtain ⟨hx, hn⟩ := List.nodup_cons.mp hn
    rw [run_forEach_cons]
    rcases List.mem_cons.mp hw with rfl | hw
    · rw [find_regs_forEach xs k v _ (fun y hy hyw => hx (by rw [hk w y hyw]; exact hy))]
      exact find_insert_self _ _ _
    · exact ih _ hn hw

theorem key_inj (r : Reg) (i m w w' : Nat) (h : r.key i w m = r.key i w' m) : w = w' := by unfold Reg.key at h; omega

/-- A register reads as the value stored in it. -/
theorem val_set (r : Reg) (i v m : Nat) (s : State) : r.val i ((r.set i v m).run s) m = v % 2 ^ (32 * r.words) := by
  unfold Reg.val
  have : ((List.range r.words).map fun w => r.word i w m ((r.set i v m).run s)) =
      (List.range r.words).map fun w => v / 2 ^ (32 * w) % 2 ^ 32 := by
    refine List.map_congr_left fun w hw => ?_
    unfold Reg.word Reg.set smGet
    rw [find_regs_forEach_mem _ (fun w => r.key i w m) (fun w => BitVec.ofNat 32 (v / 2 ^ (32 * w))) s
      (key_inj r i m) List.nodup_range hw]
    simp
  rw [this, List.range_eq_range', joinWords_split v r.words 0]
  simp

/-- The words of two register elements do not meet. -/
def Apart (r : Reg) (i m : Nat) (r' : Reg) (j n : Nat) : Prop :=
  ∀ w < r.words, ∀ w' < r'.words, r.key i w m ≠ r'.key j w' n

/-- A register apart from the one stored stays. -/
theorem val_set_apart {r r' : Reg} {i j m n : Nat} (h : Apart r i m r' j n) (v : Nat) (s : State) :
    r.val i ((r'.set j v n).run s) m = r.val i s m := by
  unfold Reg.val
  congr 1
  refine List.map_congr_left fun w hw => ?_
  unfold Reg.word Reg.set smGet
  rw [find_regs_forEach _ (fun w => r'.key j w n) _ s fun w' hw' => h w (List.mem_range.mp hw) w' (List.mem_range.mp hw')]

/-! ### Fields -/

/-- A field of a number that is cut to the words of its register. -/
theorem bitsOf_mod (u : Nat) {hi lo n : Nat} (h : lo ≤ hi + 1) (hw : hi < 32 * n) : bitsOf (u % 2 ^ (32 * n)) hi lo = bitsOf u hi lo := by
  unfold bitsOf
  have e : 2 ^ (32 * n) = 2 ^ lo * (2 ^ (hi + 1 - lo) * 2 ^ (32 * n - (hi + 1))) := by
    rw [← Nat.pow_add, ← Nat.pow_add]; congr 1; omega
  rw [e, Nat.mod_mul_right_div_self, Nat.mod_mul_right_mod]

/-- A field reads as the value stored in it. -/
theorem get_set (f : Fld) (i x m : Nat) (s : State) (h : f.lo ≤ f.hi + 1) (hw : f.hi < 32 * f.reg.words) :
    f.get i ((f.set i x m).run s) m = x % 2 ^ (f.hi + 1 - f.lo) := by
  show bitsOf (f.reg.val i ((f.reg.set i _ m).run s) m) f.hi f.lo = _
  rw [val_set, bitsOf_mod _ h hw, bitsOf_putBits _ _ h]

/-- A field of a register apart from the one stored stays. -/
theorem get_set_apart (f g : Fld) {i j m n : Nat} (h : Apart f.reg i m g.reg j n) (x : Nat) (s : State) :
    f.get i ((g.set j x n).run s) m = f.get i s m := by
  show bitsOf (f.reg.val i ((g.reg.set j _ n).run s) m) f.hi f.lo = _
  rw [val_set_apart h]
  rfl

/-- Another field of the same register stays. -/
theorem get_set_beside (f g : Fld) (i x m : Nat) (s : State) (hr : f.reg = g.reg) (hg : g.lo ≤ g.hi + 1) (hf : f.lo ≤ f.hi + 1)
    (hw : f.hi < 32 * f.reg.words) (hd : g.hi < f.lo ∨ f.hi < g.lo) : f.get i ((g.set i x m).run s) m = f.get i s m := by
  show bitsOf (f.reg.val i ((g.reg.set i _ m).run s) m) f.hi f.lo = bitsOf (f.reg.val i s m) f.hi f.lo
  rw [hr, val_set, bitsOf_mod _ hf (hr ▸ hw)]
  rcases hd with hd | hd
  · exact bitsOf_putBits_above _ _ hg hd
  · exact bitsOf_putBits_below _ _ hg hd hf

/-- Storing a field changes registers only. -/
theorem fset_keeps {β : Type} {f : State → β} (hf : ∀ a v s, f ((Upd.reg a v).apply s) = f s) (g : Fld) (i v m : Nat) :
    Keeps f (g.set i v m) := Keeps.look fun _ => set_keeps hf g.reg i _ m

/-- Counting changes registers only. -/
theorem inc_keeps {β : Type} {f : State → β} (hf : ∀ a v s, f ((Upd.reg a v).apply s) = f s) (g : Fld) (i n : Nat) :
    Keeps f (g.inc i n) := Keeps.look fun _ => fset_keeps hf g i _ 0

end Sys2Proof.Machine
end

