-- ==== Sys2Proof/Laws/Ops.lean ====
section
/-! SUPPORT. The footprints of the shared operations: storing registers, changing one component, raising an event, recording an access,
storing a write. -/

namespace Sys2Proof.Machine

variable {ks : List Kind}

/-! ### Registers and components -/

theorem within_set {p : Upd → Prop} {r : Reg} {i v m : Nat} (h : ∀ w x, w < r.words → p (.reg (r.key i w m) x)) :
    (r.set i v m).Within p := within_forEach.mpr fun w hw => h w _ (List.mem_range.mp hw)

@[simp] theorem touches_rset (h : Kind.reg ∈ ks) (r : Reg) (i v m : Nat) : (r.set i v m).Touches ks := within_set fun _ _ _ => h
@[simp] theorem touches_fset (h : Kind.reg ∈ ks) (f : Fld) (i v m : Nat) : (f.set i v m).Touches ks := fun _ => touches_rset h ..
@[simp] theorem touches_inc (h : Kind.reg ∈ ks) (f : Fld) (i n : Nat) : (f.inc i n).Touches ks := fun _ => touches_fset h _ _ _ _

@[simp] theorem touches_setLive (h : Kind.live ∈ ks) (r : Reg) (i v : Nat) : (r.setLive i v).Touches ks :=
  within_forEach.mpr fun _ _ => h

@[simp] theorem touches_fsetLive (h : Kind.live ∈ ks) (f : Fld) (i v : Nat) : (f.setLive i v).Touches ks := fun _ => touches_setLive h ..
@[simp] theorem touches_memSetLe (h : Kind.mem ∈ ks) (a n v : Nat) : (memSetLe a n v).Touches ks := within_forEach.mpr fun _ _ => h
@[simp] theorem touches_setWord40 (h : Kind.mem ∈ ks) (a : Nat) (v : W40) : (setWord40 a v).Touches ks := touches_memSetLe h ..
@[simp] theorem touches_memSetBytes (h : Kind.mem ∈ ks) (a : Nat) (bs : List Byte) : (memSetBytes a bs).Touches ks :=
  within_forEach.mpr fun _ _ => h

@[simp] theorem touches_setTick (h : Kind.tick ∈ ks) (f : TickState → TickState) : (setTick f).Touches ks := fun _ => h
@[simp] theorem touches_setBus (h : Kind.bus ∈ ks) (f : BusState → BusState) : (setBus f).Touches ks := fun _ => h
@[simp] theorem touches_setEcc (h : Kind.ecc ∈ ks) (f : EccState → EccState) : (setEcc f).Touches ks := fun _ => h
@[simp] theorem touches_setSump (h : Kind.sump ∈ ks) (f : SumpState → SumpState) : (setSump f).Touches ks := fun _ => h
@[simp] theorem touches_setRoute (h : Kind.route ∈ ks) (f : RouteState → RouteState) : (setRoute f).Touches ks := fun _ => h
@[simp] theorem touches_setRope (h : Kind.rope ∈ ks) (f : RopeState → RopeState) : (setRope f).Touches ks := fun _ => h
@[simp] theorem touches_setDly (h : Kind.dly ∈ ks) (f : DlyState → DlyState) : (setDly f).Touches ks := fun _ => h
@[simp] theorem touches_setDec (h : Kind.dec ∈ ks) (f : DecState → DecState) : (setDec f).Touches ks := fun _ => h
@[simp] theorem touches_setSap (h : Kind.sap ∈ ks) (f : SapState → SapState) : (setSap f).Touches ks := fun _ => h
@[simp] theorem touches_setMods (h : Kind.mods ∈ ks) (f : ModState → ModState) : (setMods f).Touches ks := fun _ => h
@[simp] theorem touches_setPool (h : Kind.pool ∈ ks) (f : PoolState → PoolState) : (setPool f).Touches ks := fun _ => h
@[simp] theorem touches_setEth (h : Kind.eth ∈ ks) (f : EthState → EthState) : (setEth f).Touches ks := fun _ => h
@[simp] theorem touches_setT1s (h : Kind.t1s ∈ ks) (f : T1sState → T1sState) : (setT1s f).Touches ks := fun _ => h
@[simp] theorem touches_setClt (h : Kind.clt ∈ ks) (f : CltState → CltState) : (setClt f).Touches ks := fun _ => h
@[simp] theorem touches_setPtp (h : Kind.ptp ∈ ks) (f : PtpState → PtpState) : (setPtp f).Touches ks := fun _ => h
@[simp] theorem touches_setClk (h : Kind.clk ∈ ks) (f : ClkState → ClkState) : (setClk f).Touches ks := fun _ => h
@[simp] theorem touches_setPair (h : Kind.pair ∈ ks) (f : PairState → PairState) : (setPair f).Touches ks := fun _ => h
@[simp] theorem touches_setStrata (h : Kind.strata ∈ ks) (f : StrataState → StrataState) : (setStrata f).Touches ks := fun _ => h
@[simp] theorem touches_setPwr (h : Kind.pwr ∈ ks) (f : PwrState → PwrState) : (setPwr f).Touches ks := fun _ => h
@[simp] theorem touches_setHcp (h : Kind.hcp ∈ ks) (f : HcpState → HcpState) : (setHcp f).Touches ks := fun _ => h
@[simp] theorem touches_setPins (h : Kind.pins ∈ ks) (f : PinState → PinState) : (setPins f).Touches ks := fun _ => h
@[simp] theorem touches_setLane (h : Kind.lane ∈ ks) (i : Nat) (f : Lane → Lane) : (setLane i f).Touches ks := fun _ => h
@[simp] theorem touches_setGdma (h : Kind.gdma ∈ ks) (g : Nat) (f : GdmaState → GdmaState) : (setGdma g f).Touches ks := fun _ => h
@[simp] theorem touches_setChan (h : Kind.mods ∈ ks) (c : Nat) (f : ModChan → ModChan) : (setChan c f).Touches ks := fun _ => h
@[simp] theorem touches_setRail (h : Kind.mods ∈ ks) (g : Nat) (f : RailState → RailState) : (setRail g f).Touches ks := fun _ => h

/-! ### Events -/

/-- What raising an event can touch: registers, the Sump, and what the reactions of NODE and SAFE reach (R528–R531). -/
abbrev raiseKinds : List Kind := [.reg, .sump, .mods, .rope, .sap, .t1s, .pair]

theorem touches_chanSafe (c : Nat) : (chanSafe c).Touches raiseKinds := by
  rw [chanSafe, touches_look]
  intro s
  dsimp only
  split <;> simp [chanDisable]

theorem touches_railSafe (g : Nat) : (railSafe g).Touches raiseKinds := by
  simp [railSafe, railSend]

/-- The silenced SDO pins are state of the audio ports alone. -/
theorem touches_sdoSilent : sdoSilent.Touches raiseKinds := by simp [sdoSilent]

/-- A waiting Siphon message is state of the pair alone. -/
@[simp] theorem touches_sipQueue (h : Kind.pair ∈ ks) (n : Nat) (b : SipBody) : (sipQueue n b).Touches ks := by
  simp [sipQueue, h]

theorem touches_ropesRemoved : ropesRemoved.Touches raiseKinds := by
  rw [ropesRemoved, touches_look]
  intro s
  split <;> simp

theorem touches_releaseOwn (c : Nat) : (releaseOwn c).Touches raiseKinds := by simp [releaseOwn]

theorem touches_pairSafe : pairSafe.Touches raiseKinds := by
  rw [pairSafe, touches_look]
  intro s
  split <;> simp [touches_releaseOwn]

/-- Entry to the safe state. -/
theorem touches_enterSafe : enterSafe.Touches raiseKinds := by
  rw [enterSafe, touches_look]
  intro s
  split
  · simp
  · simp [touches_sdoSilent, touches_ropesRemoved, touches_pairSafe, touches_forEach_of touches_chanSafe, touches_forEach_of touches_railSafe]

/-- Entry to NODE_FAULT. -/
theorem touches_enterNodeFault : enterNodeFault.Touches raiseKinds := by
  rw [enterNodeFault, touches_look]
  intro s
  split
  · simp
  · rw [touches_seq]
    refine ⟨by simp, ?_⟩
    split
    · simp
    · split <;> simp

/-- What every class does with a raise. -/
theorem touches_note (e : Ev) (d0 d1 d2 g : Nat) : (note e d0 d1 d2 g).Touches raiseKinds := by
  rw [note, touches_look]
  intro s
  simp only [touches_acts_cons, touches_acts_nil, and_true]
  refine ⟨by simp, by simp, by simp, ?_⟩
  rw [touches_onlyIf]
  intro _
  split <;> simp

/-- The reactions of the classes. -/
theorem touches_react (cs : List Nat) : (react cs).Touches raiseKinds := by
  rw [react]
  split
  · exact touches_enterSafe
  · simp [touches_enterNodeFault]

theorem touches_selfFault : selfFault.Touches raiseKinds := by simp [selfFault, touches_enterSafe, touches_note]

/-- The Sump's use of its words. -/
theorem touches_sumpUse (ws : List Nat) : (sumpUse ws).Touches raiseKinds := by simp [sumpUse, touches_selfFault]

/-- Raising an event. -/
theorem touches_raise (e : Ev) (d0 d1 d2 g : Nat) : (raise e d0 d1 d2 g).Touches raiseKinds := by
  simp [raise, touches_sumpUse, touches_note, touches_react]

/-- Raising the events of one cycle. -/
theorem touches_raiseAll (rs : List RaiseReq) : (raiseAll rs).Touches raiseKinds := by
  rw [raiseAll, touches_look]
  intro s
  simp only [touches_acts_cons, touches_acts_nil, and_true]
  refine ⟨?_, touches_react _⟩
  exact touches_forEach_of fun r => by simp [touches_sumpUse, touches_note]

@[simp] theorem touches_raise_of (h : ∀ k ∈ raiseKinds, k ∈ ks) (e : Ev) (d0 d1 d2 g : Nat) : (raise e d0 d1 d2 g).Touches ks :=
  touches_mono (touches_raise e d0 d1 d2 g) h

/-! ### Accesses -/

theorem touches_decodeErr (id : Nat) (wr : Bool) (a : Nat) : (decodeErr id wr a).Touches raiseKinds := by simp [decodeErr]

theorem touches_accessErr (id a reason : Nat) (wr : Bool) : (accessErr id a reason wr).Touches raiseKinds := by simp [accessErr]

theorem touches_dropped (m a : Nat) : (dropped m a).Touches raiseKinds := touches_accessErr ..

@[simp] theorem touches_accessErr_of (h : ∀ k ∈ raiseKinds, k ∈ ks) (id a reason : Nat) (wr : Bool) :
    (accessErr id a reason wr).Touches ks := touches_mono (touches_accessErr id a reason wr) h

@[simp] theorem touches_dropped_of (h : ∀ k ∈ raiseKinds, k ∈ ks) (m a : Nat) : (dropped m a).Touches ks :=
  touches_mono (touches_dropped m a) h

@[simp] theorem touches_respond (h : Kind.bus ∈ ks) (id : Nat) (vs : List Nat) (err : Bool) : (respond id vs err).Touches ks :=
  touches_setBus h _

/-- What storing a register write can touch. -/
abbrev storeKinds : List Kind := .shPend :: raiseKinds

theorem touches_noteConflict (a loser winner : Nat) (tie : Bool) : (noteConflict a loser winner tie).Touches storeKinds := by
  simp [noteConflict]

theorem touches_noteTieLost (a m : Nat) (w : ShWrite) : (noteTieLost a m w).Touches storeKinds := by
  rw [noteTieLost]
  split
  · split <;> simp [touches_noteConflict]
  · apply touches_noteConflict

theorem touches_noteShadow (a old m : Nat) (tie held : Bool) : (noteShadow a old m tie held).Touches storeKinds := by
  rw [noteShadow, touches_look]
  intro s
  dsimp only
  split
  · split
    · apply touches_noteTieLost
    · simp
  · rw [touches_seq]
    refine ⟨?_, by simp⟩
    split
    · apply touches_noteConflict
    · simp

theorem touches_storeWrite (e : RegEntry) (i m v mask a : Nat) (tie held : Bool) :
    (storeWrite e i m v mask a tie held).Touches storeKinds := by
  rw [storeWrite, touches_look]
  intro s
  simp only [touches_acts_cons, touches_acts_nil, and_true]
  refine ⟨by simp, by simp [touches_noteShadow], ?_⟩
  split <;> simp

@[simp] theorem touches_storeWrite_of (h : ∀ k ∈ storeKinds, k ∈ ks) (e : RegEntry) (i m v mask a : Nat) (tie held : Bool) :
    (storeWrite e i m v mask a tie held).Touches ks := touches_mono (touches_storeWrite e i m v mask a tie held) h

end Sys2Proof.Machine
end

