-- ==== Sys2Proof/Laws/RegFoot.lean ====
section
/-! SUPPORT. Which registers an effect can store: every register outside them keeps its value. -/

namespace Sys2Proof.Machine

/-- The register words an effect stores all lie in `A`; it resets nothing. -/
def Act.Stores (A : Nat → Bool) (a : Act) : Prop :=
  a.Within fun u => match u with
    | .reg k _ => A k = true
    | .nodeReset _ => False
    | _ => True

variable {A : Nat → Bool}

@[simp] theorem stores_done : Act.done.Stores A := trivial
@[simp] theorem stores_seq (a b : Act) : (Act.seq a b).Stores A ↔ a.Stores A ∧ b.Stores A := Iff.rfl
@[simp] theorem stores_look (k : State → Act) : (Act.look k).Stores A ↔ ∀ s, (k s).Stores A := Iff.rfl
@[simp] theorem stores_acts_nil : (acts []).Stores A := trivial
@[simp] theorem stores_acts_cons (a : Act) (as : List Act) : (acts (a :: as)).Stores A ↔ a.Stores A ∧ (acts as).Stores A :=
  within_acts_cons a as
theorem stores_forEach {α : Type} {xs : List α} {f : α → Act} : (forEach xs f).Stores A ↔ ∀ x ∈ xs, (f x).Stores A := within_forEach
theorem stores_forEach_of {α : Type} {xs : List α} {f : α → Act} (h : ∀ x, (f x).Stores A) : (forEach xs f).Stores A :=
  within_forEach_of h
@[simp] theorem stores_onlyIf (c : Bool) (a : Act) : (onlyIf c a).Stores A ↔ (c = true → a.Stores A) := within_onlyIf c a
theorem stores_ite {c : Prop} [Decidable c] {a b : Act} (ha : a.Stores A) (hb : b.Stores A) : (if c then a else b).Stores A :=
  within_ite ha hb
theorem stores_draw {k : Nat → Act} (h : ∀ n, (k n).Stores A) : (draw k).Stores A := within_draw_of (fun _ => trivial) h

theorem stores_mono {B : Nat → Bool} {a : Act} (ha : a.Stores A) (h : ∀ k, A k = true → B k = true) : a.Stores B :=
  within_mono (fun u hu => by cases u <;> first | exact h _ hu | exact hu) ha

/-- An effect that touches no register word stores none. -/
theorem stores_of_touches {ks : List Kind} {a : Act} (ha : a.Touches ks) (h : Kind.reg ∉ ks) (hr : Kind.nodeReset ∉ ks) :
    a.Stores A :=
  within_mono (fun u hu => by cases u <;> trivial) ha

@[simp] theorem stores_free (n : Nat) : (Act.upd (.free n)).Stores A := trivial
@[simp] theorem stores_now (n : Nat) : (Act.upd (.now n)).Stores A := trivial
@[simp] theorem stores_elapsed (n : Nat) : (Act.upd (.elapsed n)).Stores A := trivial
@[simp] theorem stores_lock (b : Bool) : (Act.upd (.lock b)).Stores A := trivial
@[simp] theorem stores_shPend (l : List ShWrite) : (Act.upd (.shPend l)).Stores A := trivial
@[simp] theorem stores_live (a : Nat) (v : Word) : (Act.upd (.live a v)).Stores A := trivial
@[simp] theorem stores_mem (a : Nat) (b : Byte) : (Act.upd (.mem a b)).Stores A := trivial
@[simp] theorem stores_reg (a : Nat) (v : Word) : (Act.upd (.reg a v)).Stores A ↔ A a = true := Iff.rfl

@[simp] theorem stores_setEcc (f : EccState → EccState) : (setEcc f).Stores A := fun _ => trivial
@[simp] theorem stores_setTick (f : TickState → TickState) : (setTick f).Stores A := fun _ => trivial
@[simp] theorem stores_setSump (f : SumpState → SumpState) : (setSump f).Stores A := fun _ => trivial
@[simp] theorem stores_setRoute (f : RouteState → RouteState) : (setRoute f).Stores A := fun _ => trivial
@[simp] theorem stores_setRope (f : RopeState → RopeState) : (setRope f).Stores A := fun _ => trivial
@[simp] theorem stores_setDly (f : DlyState → DlyState) : (setDly f).Stores A := fun _ => trivial
@[simp] theorem stores_setDec (f : DecState → DecState) : (setDec f).Stores A := fun _ => trivial
@[simp] theorem stores_setSap (f : SapState → SapState) : (setSap f).Stores A := fun _ => trivial
@[simp] theorem stores_setMods (f : ModState → ModState) : (setMods f).Stores A := fun _ => trivial
@[simp] theorem stores_setPool (f : PoolState → PoolState) : (setPool f).Stores A := fun _ => trivial
@[simp] theorem stores_setEth (f : EthState → EthState) : (setEth f).Stores A := fun _ => trivial
@[simp] theorem stores_setT1s (f : T1sState → T1sState) : (setT1s f).Stores A := fun _ => trivial
@[simp] theorem stores_setClt (f : CltState → CltState) : (setClt f).Stores A := fun _ => trivial
@[simp] theorem stores_setPtp (f : PtpState → PtpState) : (setPtp f).Stores A := fun _ => trivial
@[simp] theorem stores_setClk (f : ClkState → ClkState) : (setClk f).Stores A := fun _ => trivial
@[simp] theorem stores_setPair (f : PairState → PairState) : (setPair f).Stores A := fun _ => trivial
@[simp] theorem stores_setStrata (f : StrataState → StrataState) : (setStrata f).Stores A := fun _ => trivial
@[simp] theorem stores_setPwr (f : PwrState → PwrState) : (setPwr f).Stores A := fun _ => trivial
@[simp] theorem stores_setHcp (f : HcpState → HcpState) : (setHcp f).Stores A := fun _ => trivial
@[simp] theorem stores_setPins (f : PinState → PinState) : (setPins f).Stores A := fun _ => trivial
@[simp] theorem stores_setBus (f : BusState → BusState) : (setBus f).Stores A := fun _ => trivial
@[simp] theorem stores_setLane (i : Nat) (f : Lane → Lane) : (setLane i f).Stores A := fun _ => trivial
@[simp] theorem stores_setGdma (g : Nat) (f : GdmaState → GdmaState) : (setGdma g f).Stores A := fun _ => trivial
@[simp] theorem stores_setChan (c : Nat) (f : ModChan → ModChan) : (setChan c f).Stores A := fun _ => trivial
@[simp] theorem stores_setRail (g : Nat) (f : RailState → RailState) : (setRail g f).Stores A := fun _ => trivial
@[simp] theorem stores_respond (id : Nat) (vs : List Nat) (err : Bool) : (respond id vs err).Stores A := fun _ => trivial
@[simp] theorem stores_setLive (r : Reg) (i v : Nat) : (r.setLive i v).Stores A := within_forEach.mpr fun _ _ => trivial
@[simp] theorem stores_fsetLive (f : Fld) (i v : Nat) : (f.setLive i v).Stores A := fun _ => stores_setLive ..
@[simp] theorem stores_memSetLe (a n v : Nat) : (memSetLe a n v).Stores A := within_forEach.mpr fun _ _ => trivial
@[simp] theorem stores_setWord40 (a : Nat) (v : W40) : (setWord40 a v).Stores A := stores_memSetLe ..
@[simp] theorem stores_memSetBytes (a : Nat) (bs : List Byte) : (memSetBytes a bs).Stores A := within_forEach.mpr fun _ _ => trivial

/-- The words of an element lie in `A`. -/
def WordsIn (A : Nat → Bool) (r : Reg) (i m : Nat) : Prop := ∀ w < r.words, A (r.key i w m) = true

/-- No word of an element lies in `A`. -/
def WordsOut (A : Nat → Bool) (r : Reg) (i m : Nat) : Prop := ∀ w < r.words, A (r.key i w m) = false

theorem stores_rset {r : Reg} {i m : Nat} (h : WordsIn A r i m) (v : Nat) : (r.set i v m).Stores A :=
  within_set fun w _ hw => h w hw

theorem stores_fset {f : Fld} {i m : Nat} (h : WordsIn A f.reg i m) (v : Nat) : (f.set i v m).Stores A := fun _ => stores_rset h _

theorem stores_inc {f : Fld} {i : Nat} (h : WordsIn A f.reg i 0) (n : Nat) : (f.inc i n).Stores A := fun _ => stores_fset h _

/-- A register outside what an effect stores keeps its value. -/
theorem val_stores {a : Act} (ha : a.Stores A) {r : Reg} {i m : Nat} (h : WordsOut A r i m) (s : State) :
    r.val i (a.run s) m = r.val i s m := by
  refine within_keeps (f := fun s => r.val i s m) ha (fun u s hu => ?_) s
  cases u with
  | reg k v =>
    unfold Reg.val
    congr 1
    refine List.map_congr_left fun w hw => ?_
    unfold Reg.word
    rw [upd_reg_regs, get_insert_ne]
    intro hk
    have := h w (List.mem_range.mp hw)
    rw [hk] at this
    exact absurd hu (by simp [this])
  | nodeReset p => exact hu.elim
  | _ => rfl

/-- So does each of its fields. -/
theorem get_stores {a : Act} (ha : a.Stores A) {f : Fld} {i m : Nat} (h : WordsOut A f.reg i m) (s : State) :
    f.get i (a.run s) m = f.get i s m := by
  unfold Fld.get
  rw [val_stores ha h]

/-! ### Events and accesses -/

/-- The register words that raising an event can store: those of the Sump, and the states and records that the safe state
changes (R525–R531). -/
def raiseRegs (k : Nat) : Bool :=
  (0x20030000 ≤ k && k < 0x20040000) || (0x20090500 ≤ k && k < 0x20090600) || (0x20098800 ≤ k && k < 0x20098840) ||
    k = R.ROPE_STAT.base || k = R.PAIR_STAT.base || (R.PAIR_HIST.base ≤ k && k < R.PAIR_HIST.base + 4)

theorem evNum_lt (e : Ev) : evNum e < 256 := by cases e <;> decide

theorem evSrc_bound (e : Ev) : evNum e / 32 < 8 := by have := evNum_lt e; omega

/-- A word of a one-dimensional register. -/
theorem key_one {r : Reg} {n st : Nat} (hd : r.dims = [(n, st)]) (hp : r.perMaster = false) (i w m : Nat) :
    r.key i w m = r.base + i * st + 4 * w := by simp [Reg.key, Reg.addr, hd, hp, dimsOfs, dimsCount]

/-- A word of a single register. -/
theorem key_zero {r : Reg} (hd : r.dims = []) (hp : r.perMaster = false) (i w m : Nat) : r.key i w m = r.base + 4 * w := by
  simp [Reg.key, Reg.addr, hd, hp, dimsOfs]

theorem raiseRegs_sump {k : Nat} (h : 0x20030000 ≤ k) (h' : k < 0x20040000) : raiseRegs k = true := by simp [raiseRegs, h, h']

theorem raiseRegs_mod {c : Nat} (h : c < 64) : WordsIn raiseRegs R.MOD_STAT c 0 := fun w hw => by
  have : w = 0 := Nat.lt_one_iff.mp hw
  have h1 : 0x20090500 ≤ 0x20090500 + c * 4 + 4 * 0 := by omega
  have h2 : 0x20090500 + c * 4 + 4 * 0 < 0x20090600 := by omega
  rw [this, key_one rfl rfl]
  simp only [raiseRegs, show R.MOD_STAT.base = 0x20090500 from rfl, h1, h2, decide_true, Bool.and_self, Bool.or_true, Bool.true_or]

theorem raiseRegs_rail {g : Nat} (h : g < 8) : WordsIn raiseRegs R.RAIL_STAT g 0 := fun w hw => by
  have hw : w < 2 := hw
  have h1 : 0x20098800 ≤ 0x20098800 + g * 8 + 4 * w := by omega
  have h2 : 0x20098800 + g * 8 + 4 * w < 0x20098840 := by omega
  rw [key_one rfl rfl]
  simp only [raiseRegs, show R.RAIL_STAT.base = 0x20098800 from rfl, h1, h2, decide_true, Bool.and_self, Bool.or_true, Bool.true_or]

theorem stores_chanSafe {c : Nat} (h : c < 64) : (chanSafe c).Stores raiseRegs := by
  rw [chanSafe, stores_look]
  intro s
  dsimp only
  have := raiseRegs_mod h
  split
  · simp
  · simp [chanDisable, stores_fset (f := F.MOD_STAT_DIAG) this, stores_fset (f := F.MOD_STAT_STATE) this]

theorem stores_railSafe {g : Nat} (h : g < 8) : (railSafe g).Stores raiseRegs := by
  have := raiseRegs_rail h
  simp [railSafe, railSend, stores_fset (f := F.RAIL_STAT_STATE) this, stores_fset (f := F.RAIL_STAT_TARGET) this,
    stores_fset (f := F.RAIL_STAT_VCMD) this, stores_fset (f := F.RAIL_STAT_DONE) this]

theorem stores_sdoSilent : sdoSilent.Stores raiseRegs := by simp [sdoSilent]

theorem stores_sipQueue (n : Nat) (b : SipBody) : (sipQueue n b).Stores raiseRegs := by simp [sipQueue]

theorem stores_ropesRemoved : ropesRemoved.Stores raiseRegs := by
  rw [ropesRemoved, stores_look]
  intro s
  split
  · simp
  · simp [stores_fset (f := F.ROPE_STAT_SAFE_OFF) (A := raiseRegs) (i := 0) (m := 0) (by unfold WordsIn; decide)]

theorem stores_releaseOwn (c : Nat) : (releaseOwn c).Stores raiseRegs := by
  simp [releaseOwn, stores_fset (f := F.PAIR_STAT_STATE) (A := raiseRegs) (i := 0) (m := 0) (by unfold WordsIn; decide),
    stores_fset (f := F.PAIR_HIST_RELEASE) (A := raiseRegs) (i := 0) (m := 0) (by unfold WordsIn; decide)]

theorem stores_pairSafe : pairSafe.Stores raiseRegs := by
  rw [pairSafe, stores_look]
  intro s
  split <;> simp [stores_releaseOwn, stores_sipQueue]

theorem stores_sumpState (x : Nat) : (F.SUMP_STAT_STATE.set 0 x).Stores raiseRegs := stores_fset (by unfold WordsIn; decide) x

theorem stores_enterSafe : enterSafe.Stores raiseRegs := by
  rw [enterSafe, stores_look]
  intro s
  split
  · simp
  · simp only [stores_acts_cons, stores_acts_nil, and_true, stores_onlyIf]
    exact ⟨stores_sumpState _, stores_forEach.mpr fun c hc => stores_chanSafe (List.mem_range.mp hc),
      stores_forEach.mpr fun g hg => stores_railSafe (List.mem_range.mp hg), stores_sdoSilent, stores_ropesRemoved, by simp,
      stores_pairSafe⟩

theorem stores_enterNodeFault : enterNodeFault.Stores raiseRegs := by
  rw [enterNodeFault, stores_look]
  intro s
  split
  · simp
  · rw [stores_seq]
    refine ⟨stores_sumpState _, ?_⟩
    split
    · simp
    · split <;> simp

/-- What every class does with a raise stores nothing beyond `raiseRegs`. -/
theorem stores_note (e : Ev) (d0 d1 d2 g : Nat) : (note e d0 d1 d2 g).Stores raiseRegs := by
  have hn := evNum_lt e
  rw [note, stores_look]
  intro s
  simp only [stores_acts_cons, stores_acts_nil, and_true, stores_onlyIf]
  refine ⟨stores_inc (fun w hw => ?_) _, stores_rset (fun w hw => ?_) _, by simp, fun _ => ?_⟩
  · have hw : w < 1 := hw
    rw [key_one (r := F.SUMP_EVCNT_COUNT.reg) rfl rfl]
    have hb : F.SUMP_EVCNT_COUNT.reg.base = 0x20030400 := rfl
    exact raiseRegs_sump (by omega) (by omega)
  · have hw : w < 1 := hw
    rw [key_one rfl rfl]
    have hb : R.SUMP_EVSTAT.base = 0x20030300 := rfl
    exact raiseRegs_sump (by omega) (by omega)
  · split
    · simp
    · exact stores_inc (f := F.SUMP_LOST_COUNT) (by unfold WordsIn; decide) _

theorem stores_react (cs : List Nat) : (react cs).Stores raiseRegs := by
  rw [react]
  split
  · exact stores_enterSafe
  · simp [stores_enterNodeFault]

theorem stores_sumpUse (ws : List Nat) : (sumpUse ws).Stores raiseRegs := by
  simp [sumpUse, selfFault, stores_enterSafe, stores_note,
    stores_fset (f := F.SUMP_STAT_SELF) (A := raiseRegs) (i := 0) (m := 0) (by unfold WordsIn; decide)]

/-- Raising an event stores nothing beyond `raiseRegs`. -/
theorem stores_raise (e : Ev) (d0 d1 d2 g : Nat) : (raise e d0 d1 d2 g).Stores raiseRegs := by
  simp [raise, stores_sumpUse, stores_note, stores_react]

/-- The register words that a recorded access can store besides. -/
def errRegs (k : Nat) : Bool := raiseRegs k || (0x20040000 ≤ k && k < 0x20040028)

theorem errRegs_of_raise {k : Nat} (h : raiseRegs k = true) : errRegs k = true := by simp [errRegs, h]

theorem stores_raise_err (e : Ev) (d0 d1 d2 g : Nat) : (raise e d0 d1 d2 g).Stores errRegs :=
  stores_mono (stores_raise e d0 d1 d2 g) fun _ => errRegs_of_raise

/-- A recorded access error. -/
theorem stores_accessErr (id a reason : Nat) (wr : Bool) : (accessErr id a reason wr).Stores errRegs := by
  have h : WordsIn errRegs R.XBAR_ACCERR 0 0 := by unfold WordsIn; decide
  simp [accessErr, stores_raise_err, stores_fset (f := F.XBAR_ACCERR_VALID) h, stores_fset (f := F.XBAR_ACCERR_WR) h,
    stores_fset (f := F.XBAR_ACCERR_MASTER) h, stores_fset (f := F.XBAR_ACCERR_REASON) h, stores_inc (f := F.XBAR_ACCERR_COUNT) h,
    stores_fset (f := F.XBAR_ACCERR_ADDR) h]

theorem stores_dropped (m a : Nat) : (dropped m a).Stores errRegs := stores_accessErr ..

/-- A recorded decode error. -/
theorem stores_decodeErr (id : Nat) (wr : Bool) (a : Nat) : (decodeErr id wr a).Stores errRegs := by
  have h : WordsIn errRegs R.XBAR_DERR 0 0 := by unfold WordsIn; decide
  simp [decodeErr, stores_raise_err, stores_fset (f := F.XBAR_DERR_VALID) h, stores_fset (f := F.XBAR_DERR_WR) h,
    stores_fset (f := F.XBAR_DERR_MASTER) h, stores_inc (f := F.XBAR_DERR_COUNT) h, stores_fset (f := F.XBAR_DERR_ADDR) h]

/-- A recorded conflict. -/
theorem stores_noteConflict (a loser winner : Nat) (tie : Bool) : (noteConflict a loser winner tie).Stores errRegs := by
  have h : WordsIn errRegs R.XBAR_CONFLICT 0 0 := by unfold WordsIn; decide
  have h' : WordsIn errRegs R.XBAR_CONFLICT_LAST 0 0 := by unfold WordsIn; decide
  simp [noteConflict, stores_raise_err, stores_fset (f := F.XBAR_CONFLICT_OVERWRITTEN) h,
    stores_fset (f := F.XBAR_CONFLICT_TIE) h, stores_rset h']

/-- A tie that is lost. -/
theorem stores_noteTieLost (a m : Nat) (w : ShWrite) : (noteTieLost a m w).Stores errRegs := by
  have h : WordsIn errRegs R.XBAR_CONFLICT 0 0 := by unfold WordsIn; decide
  have h' : WordsIn errRegs R.XBAR_CONFLICT_LAST 0 0 := by unfold WordsIn; decide
  rw [noteTieLost]
  split
  · split <;> simp [stores_noteConflict, stores_fset (f := F.XBAR_CONFLICT_TIE) h, stores_rset h']
  · apply stores_noteConflict

/-- A shadow that is noted. -/
theorem stores_noteShadow (a old m : Nat) (tie held : Bool) : (noteShadow a old m tie held).Stores errRegs := by
  rw [noteShadow, stores_look]
  intro s
  dsimp only
  split
  · split
    · apply stores_noteTieLost
    · simp
  · rw [stores_seq]
    refine ⟨?_, by simp⟩
    split
    · apply stores_noteConflict
    · simp

/-- A write loses no tie unless one is presented. -/
theorem tieLost_none (a m : Nat) (s : State) : tieLost a m false s = false := by
  unfold tieLost
  split <;> simp

/-- A stored write: the words of its element, and what a recorded error stores. -/
theorem stores_storeWrite (e : RegEntry) (i m v mask a : Nat) (tie held : Bool) (B : Nat → Bool) (h : WordsIn B e.reg i m)
    (hB : ∀ k, errRegs k = true → B k = true) : (storeWrite e i m v mask a tie held).Stores B := by
  rw [storeWrite, stores_look]
  intro s
  simp only [stores_acts_cons, stores_acts_nil, and_true, stores_onlyIf]
  refine ⟨fun _ => stores_rset h _, fun _ => stores_mono (stores_noteShadow _ _ _ _ _) hB, ?_⟩
  split
  · exact stores_mono (stores_accessErr ..) hB
  · rw [stores_onlyIf]
    exact fun _ => stores_mono (stores_accessErr ..) hB

/-- After a stored write that loses no tie the element holds what its access codes make of the write. -/
theorem storeWrite_val (e : RegEntry) (i m v mask a : Nat) (tie held : Bool) (s : State) (h : WordsOut errRegs e.reg i m)
    (ht : tieLost (e.reg.addr i) m tie s = false) :
    e.reg.val i ((storeWrite e i m v mask a tie held).run s) m = afterWrite e i m v mask s % 2 ^ (32 * e.reg.words) := by
  unfold storeWrite afterWrite
  simp only [run_look, run_acts_cons, run_acts_nil]
  rw [val_stores (A := errRegs) ?_ h, val_stores (A := errRegs) ?_ h, ht, Bool.and_false, Bool.not_false, onlyIf_true, val_set]
  · rw [stores_onlyIf]; exact fun _ => stores_noteShadow _ _ _ _ _
  · split
    · exact stores_accessErr ..
    · rw [stores_onlyIf]; exact fun _ => stores_accessErr ..

end Sys2Proof.Machine
end

