-- ==== Sys2Proof/Laws/Access.lean ====
section
/-! SUPPORT. What a register access does around its effect: a write that reaches its register is performed on a state that differs only in
what the matrices and the link to the partner keep of it. -/

namespace Sys2Proof.Machine

/-- Forwarding adds at most a message to the partner (R496). -/
theorem forward_run (m a en v : Nat) (s : State) :
    ∃ l w, (forward m a en v).run s = { s with pair := { s.pair with sentWrites := l, waiting := w } } := by
  unfold forward
  rw [run_look]
  unfold onlyIf writeSend
  split
  · rw [run_seq]
    unfold sipQueue
    rw [run_look]
    unfold onlyIf
    split
    · exact ⟨_, _, rfl⟩
    · exact ⟨_, _, rfl⟩
  · exact ⟨s.pair.sentWrites, s.pair.waiting, rfl⟩

/-- A grant changes only where the targets of the matrices park and whom they rank highest (R61, R66). -/
theorem parkOn_run (m a : Nat) (s : State) :
    ∃ b r, (parkOn m a).run s = { s with bus := { s.bus with park := b, rank := r } } := ⟨_, _, rfl⟩

/-- A write that reaches its register is performed. -/
theorem arrive_run {m a : Nat} {s : State} (h : WriteReaches m a s) (en v : Nat) (act : Act) : ∃ b r l w,
    (arrive m a en v act).run s =
      act.run { s with bus := { s.bus with park := b, rank := r }, pair := { s.pair with sentWrites := l, waiting := w } } := by
  obtain ⟨b, r, hb⟩ := parkOn_run m a s
  obtain ⟨l, w, hl⟩ := forward_run m a en v ((parkOn m a).run s)
  refine ⟨b, r, l, w, ?_⟩
  unfold arrive
  rw [run_look, if_neg (by simp [h.1]), if_neg (by simp [h.2])]
  simp only [run_seq]
  rw [hl, hb]

/-- A read while the matrices go is performed. -/
theorem reads_run {s : State} (h : asleep s = false) (m a : Nat) (act : Act) : ∃ b r,
    (reads m a act).run s = act.run { s with bus := { s.bus with park := b, rank := r } } := by
  obtain ⟨b, r, hb⟩ := parkOn_run m a s
  refine ⟨b, r, ?_⟩
  unfold reads
  rw [run_look, if_neg (by simp [h]), run_seq, hb]

/-- A write while the matrices stand has no effect. -/
theorem arrive_asleep {s : State} (h : asleep s = true) (m a en v : Nat) (act : Act) : (arrive m a en v act).run s = s := by
  unfold arrive
  rw [run_look, if_pos h, run_done]

/-- A standby drops the write and records it (R498). -/
theorem arrive_standby {m a : Nat} {s : State} (ha : asleep s = false) (h : standbyDrops m a s = true) (en v : Nat) (act : Act) :
    ∃ b r, (arrive m a en v act).run s = (dropped m a).run { s with bus := { s.bus with park := b, rank := r } } := by
  obtain ⟨b, r, hb⟩ := parkOn_run m a s
  refine ⟨b, r, ?_⟩
  unfold arrive
  rw [run_look, if_neg (by simp [ha]), if_pos h, run_seq, hb]

end Sys2Proof.Machine
end

