-- ==== Sys2Proof/Laws/Exec.lean ====
section
/-! SUPPORT. What is true of every command: its meaning is one effect. -/

namespace Sys2Proof.Machine

/-- Every command's meaning is an effect, and its outcome the state the effect leads to. -/
theorem exec_effect (c : Instr) (s : State) : ∃ a : Act, exec c s = .next (a.run s) := by
  cases c <;> exact ⟨_, rfl⟩

/-- What no primitive update changes, no command changes. -/
theorem exec_keeps {β : Type} (f : State → β) (h : ∀ u s, f (Upd.apply u s) = f s) {c : Instr} {s t : State}
    (ht : exec c s = .next t) : f t = f s := by
  obtain ⟨a, ha⟩ := exec_effect c _
  rw [ha] at ht
  cases ht
  exact run_induction (fun x => f x = f s) (fun u x hx => (h u x).trans hx) a s rfl

/-- What every primitive update keeps, every step keeps, once it does not rest on the queue. -/
theorem step_induction (I : State → Prop) (hu : ∀ u s, I s → I (Upd.apply u s))
    (hp : ∀ s l, I s → I { s with pending := l }) {s t : State} (hs : I s) (ht : step s = .next t) : I t := by
  unfold step at ht
  split at ht
  · rename_i c rest hc
    obtain ⟨a, ha⟩ := exec_effect c _
    rw [ha] at ht
    cases ht
    exact run_induction I hu a _ (hp s rest hs)
  · cases ht
    exact run_induction I hu _ s hs

end Sys2Proof.Machine
end

