-- ==== Sys2Proof/Laws/Fields.lean ====
section
/-! SUPPORT. What a register write makes of each field, by its access code (R6–R9). -/

namespace Sys2Proof.Machine

/-- What a write of the whole field makes of it: by its access code, LOCK, and the encodings it may not take. -/
def fieldAfter (locked : Bool) (f : Fld) (old v : Nat) : Nat :=
  match f.acc with
  | .ro => old
  | .wt => old
  | .wc => old - (old &&& v)
  | .wcCount => if v = 2 ^ f.width - 1 then 0 else old
  | .rw => if f.lk && locked then old else if f.unlisted.contains v then old else v

/-- Two fields share no bit. -/
def Fld.apart (f g : Fld) : Bool := f.hi < g.lo || g.hi < f.lo

/-- Fields of a register of `n` words: each within the register, no two sharing a bit. -/
def FldsOk (n : Nat) (fs : List Fld) : Prop :=
  (∀ f ∈ fs, f.lo ≤ f.hi ∧ f.hi < 32 * n) ∧ fs.Pairwise fun f g => f.apart g = true

theorem of_lt (f : Fld) (v : Nat) : f.of v < 2 ^ f.width := bitsOf_lt ..

/-- A whole write writes every bit of a field. -/
theorem of_fullMask {f : Fld} {n : Nat} (h : f.lo ≤ f.hi) (hn : f.hi < 32 * n) : f.of (fullMask n) = 2 ^ f.width - 1 := by
  have e : 2 ^ (32 * n) - 1 = (2 ^ (32 * n - (f.hi + 1)) - 1) * 2 ^ (f.hi + 1) + (2 ^ (f.hi + 1 - f.lo) - 1) * 2 ^ f.lo + (2 ^ f.lo - 1) := by
    have e1 : 2 ^ (32 * n) = 2 ^ (32 * n - (f.hi + 1)) * 2 ^ (f.hi + 1) := by rw [← Nat.pow_add]; congr 1; omega
    have e2 : 2 ^ (f.hi + 1) = 2 ^ (f.hi + 1 - f.lo) * 2 ^ f.lo := by rw [← Nat.pow_add]; congr 1; omega
    have p1 := Nat.two_pow_pos (32 * n - (f.hi + 1))
    have p2 := Nat.two_pow_pos (f.hi + 1 - f.lo)
    have p3 := Nat.two_pow_pos f.lo
    rw [e1, Nat.sub_mul, Nat.sub_mul, Nat.one_mul, Nat.one_mul, ← e2]
    have l1 : 2 ^ (f.hi + 1) ≤ 2 ^ (32 * n - (f.hi + 1)) * 2 ^ (f.hi + 1) := Nat.le_mul_of_pos_left _ p1
    have l2 : 2 ^ f.lo ≤ 2 ^ (f.hi + 1) := Nat.pow_le_pow_right (by decide) (by omega)
    omega
  show bitsOf (2 ^ (32 * n) - 1) f.hi f.lo = _
  rw [e]
  have p2 := Nat.two_pow_pos (f.hi + 1 - f.lo)
  have p3 := Nat.two_pow_pos f.lo
  exact bitsOf_mid (by omega) (by omega) (by omega)

/-- A field keeps what another field's part of the write does. -/
theorem of_planField_apart (locked : Bool) (old v mask : Nat) (p : WrPlan) {f g : Fld} (h : f.apart g = true)
    (hf : f.lo ≤ f.hi) (hg : g.lo ≤ g.hi) : f.of (planField locked old v mask p g).val = f.of p.val := by
  have key : ∀ x, f.of (putBits p.val g.hi g.lo x) = f.of p.val := fun x => by
    unfold Fld.apart at h
    simp only [Bool.or_eq_true, decide_eq_true_eq] at h
    rcases h with h | h
    · exact bitsOf_putBits_below _ _ (by omega) h (by omega)
    · exact bitsOf_putBits_above _ _ (by omega) h
  unfold planField
  dsimp only
  split
  · rfl
  · split
    · rfl
    · rfl
    · exact key _
    · split
      · exact key _
      · rfl
    · split
      · rfl
      · split
        · rfl
        · exact key _

theorem and_mask {x w : Nat} (h : x < 2 ^ w) : x &&& (2 ^ w - 1) = x := by
  rw [Nat.and_two_pow_sub_one_eq_mod, Nat.mod_eq_of_lt h]

/-- A field takes what its own part of the write makes of it. -/
theorem of_planField_self (locked : Bool) (old v n : Nat) (p : WrPlan) {f : Fld} (hf : f.lo ≤ f.hi) (hn : f.hi < 32 * n)
    (hp : f.of p.val = f.of old) : f.of (planField locked old v (fullMask n) p f).val = fieldAfter locked f (f.of old) (f.of v) := by
  have hm := of_fullMask hf hn
  have hpos : f.of (fullMask n) ≠ 0 := by
    rw [hm]
    have : 2 ^ 1 ≤ 2 ^ f.width := Nat.pow_le_pow_right (by decide) (by unfold Fld.width; omega)
    omega
  have hw : f.of v &&& f.of (fullMask n) = f.of v := by rw [hm]; exact and_mask (of_lt f v)
  have hc : f.of old - (f.of old &&& f.of (fullMask n)) + f.of v = f.of v := by rw [hm, and_mask (of_lt f old)]; omega
  have put : ∀ x, x < 2 ^ f.width → f.of (putBits p.val f.hi f.lo x) = x := fun x hx => by
    show bitsOf _ _ _ = _
    rw [bitsOf_putBits _ _ (by omega)]
    exact Nat.mod_eq_of_lt hx
  unfold planField fieldAfter
  dsimp only
  rw [if_neg hpos, hw, hc]
  cases hacc : f.acc <;> dsimp only
  case ro => exact hp
  case wt => exact hp
  case wc => exact put _ (Nat.lt_of_le_of_lt (Nat.sub_le _ _) (of_lt f old))
  case wcCount =>
    by_cases hv : f.of v = 2 ^ f.width - 1
    · rw [if_pos hv, if_pos hv]; exact put _ (Nat.two_pow_pos _)
    · rw [if_neg hv, if_neg hv]; exact hp
  case rw =>
    by_cases hl : (f.lk && locked) = true
    · rw [if_pos hl, if_pos hl]; exact hp
    · rw [if_neg hl, if_neg hl]
      by_cases hu : f.unlisted.contains (f.of v) = true
      · rw [if_pos hu, if_pos hu]; exact hp
      · rw [if_neg hu, if_neg hu]; exact put _ (of_lt f v)

/-- A whole write leaves each field as its access code says. -/
theorem of_planWrite (locked : Bool) (old v n : Nat) {fs : List Fld} (h : FldsOk n fs) {f : Fld} (hf : f ∈ fs) :
    f.of (planWrite locked old v (fullMask n) fs).val = fieldAfter locked f (f.of old) (f.of v) := by
  unfold planWrite
  generalize hp : (⟨old, false, false, false⟩ : WrPlan) = p
  have hpv : f.of p.val = f.of old := by rw [← hp]
  clear hp
  induction fs generalizing p with
  | nil => cases hf
  | cons g gs ih =>
    obtain ⟨hg, hgs⟩ := List.pairwise_cons.mp h.2
    have hb := h.1 g List.mem_cons_self
    have rest : FldsOk n gs := ⟨fun x hx => h.1 x (List.mem_cons_of_mem _ hx), hgs⟩
    rw [List.foldl_cons]
    rcases List.mem_cons.mp hf with rfl | hm
    · have keep : ∀ (l : List Fld) (q : WrPlan), (∀ x ∈ l, f.apart x = true ∧ x.lo ≤ x.hi) →
          f.of (l.foldl (planField locked old v (fullMask n)) q).val = f.of q.val := by
        intro l
        induction l with
        | nil => exact fun _ _ => rfl
        | cons x l ihl =>
          intro q hx
          rw [List.foldl_cons, ihl _ fun y hy => hx y (List.mem_cons_of_mem _ hy)]
          exact of_planField_apart locked old v _ q (hx x List.mem_cons_self).1 hb.1 (hx x List.mem_cons_self).2
      rw [keep gs _ fun x hx => ⟨hg x hx, (h.1 x (List.mem_cons_of_mem _ hx)).1⟩]
      exact of_planField_self locked old v n p hb.1 hb.2 hpv
    · refine ih rest hm _ ?_
      have hfb := h.1 f (List.mem_cons_of_mem _ hm)
      have hap : f.apart g = true := by
        have := hg f hm
        unfold Fld.apart at this ⊢
        rw [Bool.or_comm]; exact this
      rw [of_planField_apart locked old v _ p hap hfb.1 hb.1, hpv]

/-- A stored whole write that loses no tie leaves each field of the register as its access code says. -/
theorem storeWrite_field (e : RegEntry) (i m v a : Nat) (tie held : Bool) (s : State) (h : WordsOut errRegs e.reg i m)
    (ht : tieLost (e.reg.addr i) m tie s = false) (hok : FldsOk e.reg.words e.flds) {f : Fld} (hf : f ∈ e.flds) (hr : f.reg = e.reg) :
    f.get i ((storeWrite e i m v (fullMask e.reg.words) a tie held).run s) m = fieldAfter s.lock f (f.get i s m) (f.of v) := by
  unfold Fld.get
  rw [hr, storeWrite_val e i m v _ a tie held s h ht, bitsOf_mod _ (by have := hok.1 f hf; omega) (hok.1 f hf).2]
  exact of_planWrite s.lock _ v _ hok hf

/-! ### Words of registers -/

/-- A register that masters do not hold apart is the same for all of them. -/
theorem val_master {r : Reg} (h : r.perMaster = false) (i m : Nat) (s : State) : r.val i s m = r.val i s 0 := by
  unfold Reg.val Reg.word Reg.key
  simp [h]

theorem get_master {f : Fld} (h : f.reg.perMaster = false) (i m : Nat) (s : State) : f.get i s m = f.get i s 0 := by
  unfold Fld.get; rw [val_master h]

/-- The words of a single register lie outside `A`. -/
theorem out_zero {A : Nat → Bool} {r : Reg} (hd : r.dims = []) (hp : r.perMaster = false)
    (h : ∀ w < r.words, A (r.base + 4 * w) = false) (i m : Nat) : WordsOut A r i m := fun w hw => by
  rw [key_zero hd hp]; exact h w hw

/-- The words of an element of a set of registers lie outside `A`. -/
theorem out_one {A : Nat → Bool} {r : Reg} {n st : Nat} (hd : r.dims = [(n, st)]) (hp : r.perMaster = false) {i : Nat}
    (h : ∀ w < r.words, A (r.base + i * st + 4 * w) = false) (m : Nat) : WordsOut A r i m := fun w hw => by
  rw [key_one hd hp]; exact h w hw

/-- Outside the windows of the Sump, of the matrices and of the states that events change. -/
theorem errRegs_off {k : Nat} (h : k < 0x20030000 ∨ 0x20040028 ≤ k) (h1 : k < 0x20090500 ∨ 0x20090600 ≤ k)
    (h2 : k < 0x20098800 ∨ 0x20098840 ≤ k) (h3 : k ≠ 0x20060008) (h4 : k ≠ 0x20110008)
    (h5 : k < 0x2011000C ∨ 0x20110010 ≤ k) : errRegs k = false := by
  have b1 : R.ROPE_STAT.base = 0x20060008 := rfl
  have b2 : R.PAIR_STAT.base = 0x20110008 := rfl
  have b3 : R.PAIR_HIST.base = 0x2011000C := rfl
  unfold errRegs raiseRegs
  rw [b1, b2, b3]
  simp only [Bool.or_eq_false_iff, Bool.and_eq_false_iff, decide_eq_false_iff_not]
  omega

/-- What a stored whole write that loses no tie does: each field as its access code says, every register apart from it and from the error records as it
was, and nothing touched but registers, pending shadows and what an event reaches. -/
theorem storeWrite_spec (e : RegEntry) (i m v a : Nat) (tie held : Bool) (s : State) (h : WordsOut errRegs e.reg i m)
    (ht : tieLost (e.reg.addr i) m tie s = false) (hok : FldsOk e.reg.words e.flds) :
    (∀ f ∈ e.flds, f.reg = e.reg →
      f.get i ((storeWrite e i m v (fullMask e.reg.words) a tie held).run s) m = fieldAfter s.lock f (f.get i s m) (f.of v)) ∧
    (∀ (r : Reg) (j n : Nat), WordsOut errRegs r j n → Apart r j n e.reg i m →
      r.val j ((storeWrite e i m v (fullMask e.reg.words) a tie held).run s) n = r.val j s n) := by
  refine ⟨fun f hf hr => storeWrite_field e i m v a tie held s h ht hok hf hr, fun r j n ho hap => ?_⟩
  unfold storeWrite
  simp only [run_look, run_acts_cons, run_acts_nil]
  rw [val_stores (A := errRegs) ?_ ho, val_stores (A := errRegs) ?_ ho, ht, Bool.and_false, Bool.not_false, onlyIf_true,
    val_set_apart hap]
  · rw [stores_onlyIf]; exact fun _ => stores_noteShadow _ _ _ _ _
  · split
    · exact stores_accessErr ..
    · rw [stores_onlyIf]; exact fun _ => stores_accessErr ..

end Sys2Proof.Machine
end

