-- ==== Sys2Proof/Tests/Slice0.lean ====
section
/-! SUPPORT. Tests: the checks of `WellFormed` refuse, the numbers of the spec's worked examples come out, and for every statement that
  has
hypotheses one theorem shows, clause by clause, a state and operands that meet them together. -/

namespace Sys2Proof.Tests

open Sys2Proof Sys2Proof.Machine

set_option Elab.async false

/-! ### Helpers -/

/-- What a next state is. -/
def nextOf : Host.Outcome State Fault Refusal → State
  | .next t => t
  | _ => State.reset
/-- The outcome is a next state. -/
def goesOn : Host.Outcome State Fault Refusal → Bool
  | .next _ => true
  | _ => false

theorem next_of {o : Host.Outcome State Fault Refusal} (h : goesOn o = true) : o = .next (nextOf o) := by
  cases o <;> first | rfl | cases h

/-- `LaneAtWord` as a check that evaluates. -/
abbrev laneAtWordCheck (l : LaneSlot) (w : LaneWord) (s : State) : Prop :=
  ((laneAt s l).st = .run ∧ (laneAt s l).stepRet = none ∧ haltHere (laneAt s l) l s = false) ∧
  (decodeLane (word64 s (progAddr l (laneAt s l).pc)) = some w ∧ laneLegal w = true ∧ s.ecc.marks = []) ∧
  (match w with | .compute cw => pairStoreBad (laneAt s l) cw | _ => false) = false ∧ s.Canonical ∧
  (nextPc (laneAt s l).reps (laneAt s l).pc).2 < 4096
theorem laneAtWord_of {l : LaneSlot} {w : LaneWord} {s : State} (h : laneAtWordCheck l w s) : LaneAtWord l w s :=
  ⟨h.1.1, h.1.2.1, h.1.2.2, h.2.1.1, h.2.1.2.1, h.2.1.2.2, by rintro cw rfl; exact h.2.2.1, h.2.2.2.1, h.2.2.2.2⟩

theorem grantsCell_of {q c : Nat} {s : State}
    (h : (isItemQ (queueAt s q) = true ∧ (queueAt s q).broken = false ∧ (queueAt s q).used < qResv (queueAt s q)) ∧
      bankClosed s (qHome (queueAt s q) % 4) = false ∧ freeHead s (qHome (queueAt s q) % 4) = c ∧ c ≠ 0 ∧ s.ecc.marks = []) :
    GrantsCell q c s :=
  ⟨h.1.1, h.1.2.1, h.1.2.2, h.2.1, h.2.2.1, h.2.2.2.1, h.2.2.2.2⟩

theorem holdsItem_of {req q c : Nat} {s : State}
    (h : (isItemQ (queueAt s q) = true ∧ (queueAt s q).broken = false ∧ smFind s.pool.popped req = none ∧ (queueAt s q).head = c) ∧
      c ≠ 0 ∧ c < 65536 ∧ 0 < (queueAt s q).depth ∧ tagLast (tagOf s c) = true ∧ s.ecc.marks = []) : HoldsItem req q c s :=
  ⟨h.1.1, h.1.2.1, h.1.2.2.1, h.1.2.2.2, h.2.1, h.2.2.1, h.2.2.2.1, h.2.2.2.2.1, h.2.2.2.2.2⟩

theorem playsNext_of {ty a e : Nat} {s : State}
    (h : (s.strata.base = some (a, e) ∧ baseFree s = true ∧ recTy (memBytes s.mem a 8) = ty) ∧ a + recSize (memBytes s.mem a 8) ≤ e ∧
      recOk s (memBytes s.mem a (recSize (memBytes s.mem a 8))) = true ∧ s.ecc.marks = []) : PlaysNext ty a e s :=
  ⟨h.1.1, h.1.2.1, h.1.2.2, h.2.1, h.2.2.1, h.2.2.2⟩

theorem some_getD {α : Type} {o : Option α} {x : α} (h : o.isSome = true) : o = some (o.getD x) := by
  cases o with
  | none => cases h
  | some _ => rfl

/-- Store a register element. -/
def put (r : Reg) (i v : Nat) (s : State) : State := (r.set i v).run s

/-- Store a field. -/
def putF (f : Fld) (i v : Nat) (s : State) : State := (f.set i v).run s

/-- Store an applied register element. -/
def putL (r : Reg) (i v : Nat) (s : State) : State := (r.setLive i v).run s

/-- Store an applied field. -/
def putLF (f : Fld) (i v : Nat) (s : State) : State := (f.setLive i v).run s

/-- The node with its supplies up and nothing waiting, long after its reset. -/
def up : State :=
  { State.blank with
    pwr := { State.blank.pwr with vdd := true }
    clk := { State.blank.clk with up := true, hold := false }
    elapsed := 1000000000000 }

/-- The tick runs. -/
def ticking : State := putF F.TICK_STAT_RUNNING 0 1 up

/-- Lane slot 20 at pc 5, with values in its registers. -/
def lane20 : Lane :=
  { laneReset with
    st := .run, pc := 5, pos := 100, cyc := 40
    d := Vector.ofFn fun i => BitVec.ofInt 40 ((i.val : Int) * 68719476735 - 500000000000)
    acc := #v[5, -7, 0x123456789ABCDEF012345#88, -0x123456789ABCDEF012345#88]
    a := Vector.ofFn fun i => BitVec.ofNat 18 (i.val * 24593 + 11)
    m := Vector.ofFn fun i => BitVec.ofNat 18 (i.val + 1)
    len := Vector.ofFn fun i => BitVec.ofNat 18 (if i.val % 2 = 0 then 0 else 32) }

/-- The word stands at the pc of lane slot 20, and memory cells that it may load hold a value. -/
def atWord (w : LaneWord) (x : Lane := lane20) : State :=
  (memSetLe (progAddr 20 5) 8 (encodeLane w)).run { up with lanes := [(20, x)] }

/-- The rest of a word that does nothing else. -/
def sc0 : SlotCtx := ⟨.nop, .none, ⟨false, 0, 0⟩, ⟨false, 0, 0⟩⟩

/-- A rest of a word that does much else. -/
def sc1 : SlotCtx := ⟨.add 3 9, .lx false 4, ⟨true, 2, 3⟩, ⟨true, 5, 1⟩⟩

/-- The rest of a memory word. -/
def mc0 : MemCtx := ⟨.nop, .nop, ⟨true, 2, 3⟩, ⟨true, 5, 1⟩⟩

/-- A word with one field. -/
def fv (f : Fld) (x : Nat) : Nat := x * 2 ^ f.lo

/-- Store a field that each master has for itself. -/
def putFM (f : Fld) (i v m : Nat) (s : State) : State := (f.set i v m).run s

/-- Store bytes. -/
def putBytes (a : Nat) (bs : List Byte) (s : State) : State :=
  (acts (bs.zipIdx.map fun p => memSetLe (a + p.2) 1 p.1.toNat)).run s

/-- An item queue with configuration, at reset. -/
def iq : PoolQ := { poolQReset with cfg := 0x8000000000000010#64 }

/-- Queue `q` of the pool. -/
def withQ (q : Nat) (x : PoolQ) (s : State) : State := { s with pool := { s.pool with queues := [(q, x)] } }

/-- Tag of cell `c`. -/
def withTag (c : Nat) (t : Word) (s : State) : State := { s with pool := { s.pool with tags := [(c, t)] } }

/-- Item queue 7 holds cell 700 with these bytes. -/
def itemS (bs : List Byte) (s : State) : State :=
  putBytes (cellAddr 700) bs (withTag 700 (mkTag true true true 0 0) (withQ 7 { iq with used := 3, head := 700, tail := 700, depth := 1 }
    s))

/-- The chip owns the node. -/
def owns (s : State) : State := { s with pair := { s.pair with own := true } }

/-! ### Which commands the outside can send -/

theorem test_wf_tickEdge : (Instr.tickEdge [⟨0, 0x00C, 0x0C8, 2 ^ 28, 0⟩]).wf = false := by decide +kernel
theorem test_wf_memoryAccess : (Instr.memoryAccess (.master 1) 0x11002000 (.readBurst 17)).wf = false := by decide +kernel
theorem test_wf_masterResetAbort : (Instr.masterResetAbort 3 0x11002000 (.readBurst 16) 17).wf = false := by decide +kernel
theorem test_wf_fineOutput : (Instr.fineOutput 9 []).wf = false := by decide +kernel
theorem test_wf_fastOutput : (Instr.fastOutput 9 [true] 0).wf = false := by decide +kernel
theorem test_wf_sapRxFrame : (Instr.sapRxFrame 4 0 0 256 (List.replicate 33 0)).wf = false := by decide +kernel
theorem test_wf_senseFrame : (Instr.senseFrame 0 []).wf = false := by decide +kernel
theorem test_wf_frames : [Instr.ethRxFrame 0 [] 0, .t1sRxFrame [] 0, .cltRxFrame 0 [] 0, .aes67RxPacket 0 [] 0, .aafRxPacket 0 [] 0,
    .siphonPatch [] 0 []].all (fun i => !i.wf) = true := by decide +kernel
theorem test_wf_messages : [Instr.ezAnnounce 0 [], .ezAck 0 [], .ezValue 0 [], .ezStatus 0 [], .ezFault 0 [], .ezNak 0 []].all
    (fun i => !i.wf) = true := by decide +kernel
theorem test_wf_loaderStart : (Instr.loaderStart []).wf = false := by decide +kernel
theorem test_wf_hcpRead : (Instr.hcpRead 0x2C 0x20010018 0).wf = false := by decide +kernel
theorem test_wf_hcpWrite : (Instr.hcpWrite 0x60 0x20010018 []).wf = false := by decide +kernel

/-- An image longer than 16 MiB (R541): the check by a length, since no evaluation lists one. -/
theorem test_wf_stageComplete (img : List Byte) (h : img.length = 16777217) : (Instr.stageComplete img).wf = false := by
  simp [Instr.wf, h]

/-! ### Numbers of the spec's worked examples -/

/-- The addresses after R14. -/
theorem test_addresses : xyAddr 118 false 0 = 0x06400000 ∧ R.GAL_SLOTMAP.addr 24 / 0x10000 = 0x06F0 ∧ R.SAP_CLK.addr 5 = 0x20071400 := by
  decide +kernel

/-- Ticks at 44.1 kHz with F = 4 last 108,843, 108,844 and 108,843 cycles (after R18). -/
theorem test_tick_lengths :
    let s : State := { up with tick := { up.tick with cfg := fv F.TICK_CFG_F 2 } }
    edgePos 1 s = 108843 ∧ edgePos 2 s = 217687 ∧ edgePos 3 s = 326530 := by decide +kernel

/-- 11 of 16 beats of a burst of M3 were taken (after R77). -/
theorem test_abort :
    let t := nextOf (exec (.masterResetAbort 3 0x11002000 (.writeBurst (List.replicate 16 ⟨0, 0xFFFFFFFF⟩)) 11) up)
    F.XBAR_ABORT_ADDR.get 0 t = 0x11002000 ∧ F.XBAR_ABORT_MASTER.get 0 t = 3 ∧ F.XBAR_ABORT_WR.get 0 t = 1 ∧
      F.XBAR_ABORT_BEATS.get 0 t = 11 := by decide +kernel

/-- CV.S of 1.25 × 2^68, and of 150 × 2^68, which saturates (after R105). -/
theorem test_conversion : (convert .cvS .rnd (BitVec.ofNat 88 (5 * 2 ^ 66))).val = 0x0140000000#40 ∧
    (convert .cvS .rnd (BitVec.ofNat 88 (150 * 2 ^ 68))).val = 0x7FFFFFFFFF#40 ∧
    (convert .cvS .rnd (BitVec.ofNat 88 (150 * 2 ^ 68))).sat = true := by decide +kernel

/-- The circular line of 100 words, and the one of 99 (after R113). -/
theorem test_circular : partner 1122 100 = 1123 ∧ postMod 1122 2 100 = 1024 ∧ partner 1123 100 = 1024 ∧ postMod 1123 2 100 = 1025 ∧
    sameBank 1122 (partner 1122 100) = false ∧ sameBank 1122 (partner 1122 99) = true := by decide +kernel

/-- The inner word of the FIR kernel, and REP #1,539, 1 (after R153 and R154). -/
theorem test_lane_words :
    decodeLane 0x0402082678140222 =
      some (.compute ⟨.mac 0 0 2, .mac 0 1 3, .lxy true 0 true 2, ⟨true, 0, 0⟩, ⟨true, 1, 1⟩⟩) ∧
    decodeLane 0x8400060300000000 = some (.control (.repImm 1539 0)) := by decide +kernel

/-- 0.5 and 1.25 sent to a 24-bit word (after R203). -/
theorem test_conversion_out : toWord 24 0x0080000000#40 = (0x400000, false) ∧ toWord 24 0x0140000000#40 = (0x7FFFFF, true) := by
  decide +kernel

/-- Levels of a silence detector (after R219). -/
theorem test_levels : levelOf 90 = 135818 ∧ levelOf 96 = 68070 := by decide +kernel

/-- The first step of a trim, and the last of 154 (after R283). -/
theorem test_trim : trimMove 8192 0 6144 40 = 40 ∧ trimMove 8192 6120 6144 40 = 6144 := by decide +kernel

/-- The first cell of bank 1 after the routing cells (after R374). -/
theorem test_first_cell : freeHead up 1 = 16896 ∧ cellAddr 16896 = 0x11020000 := by decide +kernel

/-- The newest history entry of an overrun run (after R540). -/
theorem test_history_entry : histEntry ⟨0x12, 1, 3, 90, 0x10000010⟩ = 0x0000100000100112600000000000005A := by decide +kernel

/-- The command byte 0x2C is a quad READ of 32-bit words with INC, and the status byte after a transaction that ended OK is 0x80 (after
R603). -/
theorem test_hcp : hcpOp 0x2C = 0 ∧ hcpSize 0x2C = .b4 ∧ hcpAddr 0x2C 0x20010018 1 = 0x2001001C ∧ hcpStatusByte up = 0x80 := by
  decide +kernel

/-! ### States of the witnesses -/

/-- A lane slot in a state of its own. -/
def withLane (l : Nat) (x : Lane) (s : State) : State := { s with lanes := [(l, x)] }

/-- Configuration of an enabled word queue of 16 cells. -/
def wordCfg : W64 := 0xC000000000000010#64

/-- A word queue with two cells and 36 words. -/
def wq : PoolQ := { poolQReset with cfg := wordCfg, head := 600, tail := 601, used := 2, depth := 36, rd := 3, wr := 7 }

/-- A word of `POOL_LPORT` that binds a port to queue `q`. -/
def lport (_n _p q d : Nat) : Nat := 2 ^ 31 + d * 2 ^ 30 + q

/-- Lane slot 20 at word `w`, one of its ports bound to queue 7, with the queue as given. -/
def qlane (w : LaneWord) (x : Lane := lane20) (q : PoolQ := wq) (dir : Nat) (port : Nat) : State :=
  ((setWord40 (cellAddr 600 + 24) 0x12345#40).run (withQ 7 q (putL R.POOL_LPORT (16*19+port) (lport 19 port 7 dir) (atWord w x))))

/-- A line configuration: base, groups, input ring. -/
def line (b gr a : Nat) : Nat := fv F.DRAM_DLY_LINE_EN 1 + fv F.DRAM_DLY_LINE_GROUPS gr + fv F.DRAM_DLY_LINE_BASE b + fv
  F.DRAM_DLY_LINE_IN_ADDR a

/-- A tap configuration: line, delay, output ring. -/
def tap (l d a : Nat) : Nat := fv F.DRAM_DLY_TAP_EN 1 + fv F.DRAM_DLY_TAP_LINE l + fv F.DRAM_DLY_TAP_DELAY d + fv F.DRAM_DLY_TAP_OUT_ADDR
  a

/-- Gallery 3 is enabled and a job descriptor waits in queue 7. -/
def jobS (e w1 n : Nat) : State :=
  acts [memSetLe (cellAddr 700) 4 e, memSetLe (cellAddr 700 + 4) 4 w1, memSetLe (cellAddr 700 + 8) 4 n, memSetLe (cellAddr 700 + 12) 4 9,
    memSetLe (cellAddr 700 + 16) 4 0x55] |>.run
   (withTag 700 (mkTag true true true 0 0) (withQ 7 { iq with used := 3, head := 700, tail := 700, depth := 1 } (putF F.GDMA_CFG_EN 3 1
     (putF F.GDMA_CFG_QUEUE 3 7 up))))

/-- PLL_B is locked. -/
def lb (s : State) : State := { s with clk := { s.clk with lockB := true } }

/-- A microphone whose clock runs, with field `f` set and its filter sizes. -/
def micS (f : Fld) (rl h o : Nat) : State := putLF F.DEC_MIC_ORDER 37 o (putLF F.DEC_MIC_RLOG 37 rl (putLF F.DEC_MIC_H 37 h (putLF f 37 1
  (putLF F.PDM_LINE_EN 18 1 (putLF F.PDM_CLK_EN 0 1 (lb up))))))

/-- A microphone configuration: order, RLOG, H. -/
def mv (o rl h : Nat) : Nat := fv F.DEC_MIC_FINE_EN 1 + fv F.DEC_MIC_ORDER o + fv F.DEC_MIC_RLOG rl + fv F.DEC_MIC_H h

/-- The trim governor in a state of its own. -/
def trimS (t : TrimState) (s : State) : State := { s with dec := { s.dec with trim := t } }

/-- Direction `d` of port `n` in a state of its own. -/
def sapS (n d : Nat) (x : SapDir) (s : State) : State := { s with sap := { s.sap with dirs := [(2*n+d, x)] } }

/-- A modulator channel in a state of its own. -/
def chS (c : Nat) (x : ModChan) (s : State) : State := { s with mods := { s.mods with chans := [(c, x)] } }

/-- A rail group in a state of its own. -/
def raS (c : Nat) (x : RailState) (s : State) : State := { s with mods := { s.mods with rails := [(c, x)] } }

/-- An Ethernet frame with `n` payload bytes. -/
def fr (n : Nat) : Frame := mkFrame 0x0102030405 0x0A0B0C none 0x88B5 (List.replicate n 7)

/-- Port 2 is up and enabled, in a VLAN of all ports. -/
def net (s : State) : State := putF F.ETH_VLAN_EN 63 1 (putF F.ETH_VLAN_VID 63 5 (putF F.ETH_VLAN_MEMBER 63 0x1F (putF F.ETH_PCFG_PVID 2 5
  (putF F.ETH_PCFG_EN 2 1 (putF F.ETH_PSTAT_LINK 2 1 s)))))

/-- Ethernet port 2 in a state of its own. -/
def ethP (x : EthPort) (s : State) : State := { s with eth := { s.eth with ports := [(2, x)] } }

/-- An item of the switch with such a frame, to port 2. -/
def itm (n : Nat) :
  EthItem := { cells := [], bytes := fr n, len := (fr n).length, cls := 3, vid := 5, pcp := 2, stream := false, maxLen := 2000, event := none, ports := [2] }

/-- A management request as an item: operation, address, word count, words. -/
def mreq (op addr n : Nat) (ws : List Byte) : List Byte :=
  let f := mkFrame 0x0102030405 0x0A0B0C none 0x88B5 (bytesBe 1 1 ++ bytesBe 1 op ++ bytesBe 2 0x77 ++ bytesBe 4 addr ++ bytesBe 2 n ++
    bytesBe 2 0 ++ ws)
  bytesLe 2 f.length ++ List.replicate 14 0 ++ f

/-- The agent is enabled and the item waits in its queue. -/
def mg (bs : List Byte) : State := itemS bs (putF F.ETH_MGMT_Q_QUEUE 0 7 (putF F.ETH_MGMT_EN 0 1 up))

/-- A request whose first access of two is done. -/
def q2 :
  MgmtReq := { cells := [700], write := false, seq := 7, addr := 0x100, count := 2, done := 1, data := [1], buserr := false, src := [1,2,3,4,5,6], tagged := false, vid := 0, pcp := 0, since := 5 }

/-- The T1S port is enabled on the owner. -/
def t1 (s : State) : State := owns (putF F.T1S_CFG_EN 0 1 s)

/-- Two frames wait at the T1S port. -/
def t1q (s : State) : State := { t1 s with t1s := { s.t1s with queue := [fr 50, fr 60] } }

/-- An Eztasia message. -/
def ezv (ty seq a src : Nat) (p : List Byte) : List Byte := ezMsg ty seq a src p

/-- Eztasia is enabled with three retries. -/
def ez (s : State) : State := owns (putF F.EZ_CFG_EN 0 1 (putF F.EZ_TIME_RETRY 0 3 s))

/-- A host transaction waits in the command queue. -/
def ezi (m : List Byte) : State := itemS m (putF F.EZ_Q_CMDQ 0 7 (ez up))

/-- A transaction that is outstanding. -/
def tr (sq : Nat) (p : Bool) :
  EzTrans := { seq := sq, msg := ezv 0x10 sq 31 0xFE [9], poll := p, left := 3, sentAt := some 9, cells := [] }

/-- Element 31 has a transaction outstanding. -/
def ezo (p : Bool) : State := let s := ez up; { s with t1s := { s.t1s with out := [(31, tr 5 p)] } }

/-- A stream configuration: kind, word size, SPP, channels. -/
def cv (k w spp ch : Nat) : Nat := fv F.CLT_RXCFG_EN 1 + fv F.CLT_RXCFG_KIND k + fv F.CLT_RXCFG_WSZ w + fv F.CLT_RXCFG_SPP spp + fv
  F.CLT_RXCFG_CHM1 (ch-1) + fv F.CLT_RXCFG_BASE 100

/-- Receive entry 9 is enabled with a key, and the engine accepts. -/
def rxS (k w spp ch key : Nat) : State :=
  putF F.CLT_STAT_ACCEPT 0 1 (putF F.CLT_CFG_BUFQ 0 7 (withQ 7 { iq with used := 3 } (putL R.CLT_RXKEY 9 key (putL R.CLT_RXCFG 9 (cv k w
    spp ch) (putF F.ETH_PCFG_EN 2 1 up)))))

/-- A Coleel header and payload: due tick, offset, SPP, channels, word size. -/
def ch (d ofs spp ch w : Nat) : List Byte := bytesBe 1 1 ++ bytesBe 1 w ++ bytesBe 2 3 ++ bytesBe 2 5 ++ bytesBe 2 6 ++ bytesBe 4 (d * 4 /
  spp + ofs / spp) ++ bytesBe 8 d ++ bytesBe 1 ofs ++ bytesBe 1 spp ++ bytesBe 2 ch ++ (List.range (ch*spp*(wszBits w/8))).map
  fun i => BitVec.ofNat 8 (i*37+200)

/-- Key of the Coleel stream. -/
def ckey : Nat := 5 * 65536 + 6

/-- A Coleel frame on Ethernet. -/
def fr0 : Frame := mkFrame 0x1 0x2 none (F.CLT_CFG_ETYPE.get 0 up) (ch 3 2 2 3 1)

/-- An RTP packet of L24 samples. -/
def rtp : List Byte := bytesBe 1 0x80 ++ bytesBe 1 97 ++ bytesBe 2 1 ++ bytesBe 4 20 ++ bytesBe 4 0 ++ (List.range 18).map
  fun i => BitVec.ofNat 8 (i*37+200)

/-- An AES67 packet. -/
def fr2 : Frame := mkFrame 0x1 0x2 none 0x0800 (mkUdp 3 4 0x0A000001 0xEF000001 9 5004 rtp)

/-- Key of the AES67 stream. -/
def akey : Nat := 0xEF000001 * 2^32 + 5004 * 65536 + 97

/-- An AAF packet. -/
def aaf : List Byte := bytesBe 1 2 ++ bytesBe 1 0x81 ++ bytesBe 1 0 ++ bytesBe 1 0 ++ bytesBe 8 0x77 ++ bytesBe 4 500000 ++ bytesBe 1
  (aafFormat 16) ++ bytesBe 2 (aafNsr up * 4096 + 3) ++ bytesBe 1 16 ++ bytesBe 2 12 ++ bytesBe 2 0 ++ (List.range 12).map
  fun i => BitVec.ofNat 8 (i*37+200)

/-- An AAF frame. -/
def fr3 : Frame := mkFrame 0x1 0x2 none 0x22F0 aaf

/-- Transmit entry 9 of kind `k` is enabled on an owner whose tick runs. -/
def txS (k : Nat) : State := putF F.CLT_STAT_ACCEPT 0 1 (putL R.CLT_TXKEY 9 (0xEF000001 * 2^32 + 5 * 65536 + 6) (putL R.CLT_TXCFG 9 (cv k
  1 2 3) (putL R.CLT_TXDST 9 0xB005000000123456 (owns ticking))))

/-- A PTP message. -/
def msg (ts : Bool) :
  PtpMsg := { domain := 0, reqId := BitVec.ofNat 64 (clockId up), reqPort := 3, srcId := 0x55, srcPort := 3, seq := 77, twoStep := ts, corr := -300, origin := 5000000000, rx := 123456789 }

/-- An Announce message. -/
def ann :
  AnnounceMsg := { domain := 0, srcId := 0x55, srcPort := 3, gmId := 0x44, prio1 := 1, cls := 6, acc := 0x21, var := 0x4E5D, prio2 := 9, steps := 2 }

/-- PTP port 2 in a state, with a profile and its data. -/
def pp (st prof : Nat) (x : PtpPort) : State :=
  let s := putF F.ETH_PCFG_EN 2 1 (putF F.ETH_PSTAT_LINK 2 1 (putF F.PTP_PSTAT_STATE 2 st (putF F.PTP_CFG_PROFILE 0 prof up)))
  { s with ptp := { s.ptp with ports := [(2, x)] } }

/-- A PTP port that has an Announce and eight delays. -/
def px : PtpPort := { ptpPortReset with ann := some ann, mean := -5, delays := [1,2,3,4,5,6,7,8], synced := true }

/-- A Sync that waits for its Follow_Up. -/
def two : TwoStep := ⟨77, 999, -5, 0⟩

/-- Event output 7 in a state of its own. -/
def evS (x : EvtOut) (s : State) : State := { s with ptp := { s.ptp with evts := [(7, x)] } }

/-- Capture input 3 in a state of its own. -/
def capS (x : CapIn) (s : State) : State := { s with ptp := { s.ptp with caps := [(3, x)] } }

/-- The clock unit in a state of its own. -/
def ckS (f : ClkState → ClkState) : State := { up with clk := f up.clk }

/-- The pair in state `st` with its link up. -/
def su (st : Nat) (s : State) : State := putF F.PAIR_STAT_STATE 0 st (putF F.PAIR_STAT_LINK 0 1 s)

/-- A MARK of the partner. -/
def mk (o r h : Bool) (st : Fin 16) : MarkMsg := { tick := 5, owner := o, rel := r, ho := h, safe := false, state := st, ack := 4 }

/-- A DIGEST of the partner. -/
def dg : DigestMsg := { tick := 5, flags := 0, d0 := 1, d1 := 2, d2 := 3, d3 := 4 }

/-- The strap selects side B. -/
def sideb (s : State) : State := { s with pins := { s.pins with sideB := true } }

/-- A state set of lane 19. -/
def lset :
  LaneSet := { lane := 19, tick := 0, xs := (List.range 4).map (BitVec.ofNat 40), ys := [1], ds := (List.range 16).map fun i => BitVec.ofNat 40 (i * 0x123456789), accs := [1,2,3,4], as_ := (List.range 16).map fun i => BitVec.ofNat 18 (i * 0x1234), ms := [1], lens := [2], zf := true, nf := true, rets := [3], pc := 99 }

/-- The bits of event word `n / 32` are set, with sources. -/
def evs (n : Nat) (srcs : List (Nat × Nat × Nat)) : State := let s := put R.SUMP_EVSTAT (n/32) 0xFFFFFFFF up;
  { s with sump := { s.sump with srcs := srcs } }

/-- The base layer in the staged copy consists of the record `bs`. -/
def recS (bs : List Byte) (s : State) : State :=
  let s := putBytes 0x80000000 bs (putF F.STRATA_STAT_BOOT 0 3 (putF F.PWR_STAT_PHASE 0 3 s))
  { s with strata := { s.strata with base := some (0x80000000, 0x80000000 + bs.length) } }

/-- A record: type, count, address, body. -/
def rec_ (ty cnt a : Nat) (body : List Byte) : List Byte := bytesLe 1 ty ++ bytesLe 1 0 ++ bytesLe 2 cnt ++ bytesLe 4 a ++ body

/-- A header block of an image of 1,024 bytes. -/
def hdr_ (ovc n : Nat) (pre : List Byte) (dof dlen crcv : Nat) (bad : Nat) : List Byte :=
  let f (icw : Nat) : List Byte := bytesLe 4 0x41525453 ++ bytesLe 2 1 ++ bytesLe 1 ovc ++ bytesLe 1 0 ++ bytesLe 4 1024 ++ bytesLe 4 icw
    ++ bytesLe 4 dof ++ bytesLe 4 dlen ++ bytesLe 4 crcv ++ bytesLe 4 0x80001000 ++ bytesLe 4 0 ++ bytesLe 2 n ++ bytesLe 2 0 ++
    List.replicate 280 0 ++ pre
  f ((crc32c (f 0) + bad) % 2 ^ 32)

/-- An image whose base layer is an END record. -/
def img : List Byte := List.replicate 512 3 ++ rec_ 0 0 0 [] ++ List.replicate 504 9

/-- The loader is in state `b` with a header block taken. -/
def bootS (b : Nat) (h : List Byte) (s : State) : State := let s := putF F.STRATA_STAT_BOOT 0 b s;
  { s with strata := { s.strata with hdr := h } }

/-- The base layer is in service and the switch is in state `n`. -/
def sw (n : Nat) (s : State) : State := putF F.STRATA_STAT_BOOT 0 4 (putF F.STRATA_SWSTAT_STATE 0 n s)

/-- The loader in a state of its own. -/
def stS (f : StrataState → StrataState) (s : State) : State := { s with strata := f s.strata }

/-- An early register write of a header block. -/
def pre1 (a v : Nat) : List Byte := bytesLe 4 a ++ bytesLe 4 v

/-- The power unit in a state of its own. -/
def pw (f : PwrState → PwrState) (s : State) : State := { s with pwr := f s.pwr }

/-- Input `i` in a state of its own. -/
def inS (i : Nat) (x : InState) (s : State) : State := pw (fun p => { p with ins := [(i, x)] }) s

/-- The shutdown stands at stage `n`. -/
def sd (n : Nat) (s : State) : State := putF F.PWR_STAT_SD 0 n s

/-- The host port in a state of its own. -/
def hc (f : HcpState → HcpState) (s : State) : State := { s with hcp := f s.hcp }

/-- A read of M1 waits for the matrix. -/
def wt (a : Nat) (s : State) : State := { s with bus := { s.bus with waiting := [⟨.master 1, a, .read .b4⟩] } }

/-- A shadow write waits among others. -/
def pend (w : ShWrite) (s : State) :
  State := { s with shPend := [⟨5, 3, false, false, none, 3, none⟩, w, ⟨6, 3, false, false, none, 5, none⟩] }

/-- A CRC whose value is computed after each byte: an evaluation need not nest. -/
def crcEager (poly : Nat) : Nat → List Byte → Nat
  | c, [] => c
  | c, b :: r =>
    match iter (crcBitR poly) 8 (c ^^^ b.toNat) with
    | 0 => crcEager poly 0 r
    | n + 1 => crcEager poly (n + 1) r

theorem crcEager_eq (poly init xorOut : Nat) (bs : List Byte) : crcR poly init xorOut bs = crcEager poly init bs ^^^ xorOut := by
  unfold crcR
  congr 1
  induction bs generalizing init with
  | nil => rfl
  | cons b r ih =>
    have h : ∀ x, crcEager poly x r = (match x with | 0 => crcEager poly 0 r | n + 1 => crcEager poly (n + 1) r) := by
      intro x; cases x <;> rfl
    exact (ih _).trans (h _)

/-- A header block of an image of 1,024 bytes with no overlay and one early register write, `DRAM_CFG`; its base layer has 8 bytes. -/
def goodHdr : List Byte :=
  bytesLe 4 0x41525453 ++ bytesLe 2 1 ++ bytesLe 2 0 ++ bytesLe 4 1024 ++ bytesLe 4 0x796D003B ++ bytesLe 4 512 ++ bytesLe 4 8 ++
    bytesLe 4 7 ++ bytesLe 4 0x80001000 ++ bytesLe 4 0 ++ bytesLe 2 1 ++ bytesLe 2 0 ++ List.replicate 280 0 ++
    bytesLe 4 (R.DRAM_CFG.addr 0) ++ bytesLe 4 18

theorem goodHdr_crc :
    crc32c (goodHdr.take 12 ++ bytesLe 4 0 ++ (goodHdr.drop 16).take (hdrLen goodHdr - 16)) = fieldLe goodHdr 12 4 := by
  rw [crc32c, crcEager_eq]; decide +kernel

theorem goodHdr_cause : hdrCause (goodHdr.take (hdrLen goodHdr)) = 0 := by
  rw [show goodHdr.take (hdrLen goodHdr) = goodHdr by decide +kernel, hdrCause, if_neg (by decide +kernel), if_neg (by decide +kernel),
    if_neg (not_not.mpr goodHdr_crc)]

/-! ### Witnesses: what each statement assumes can be met -/

theorem witness_StepRunsFrontCommand :
    ∃ c : Instr, ∃ rest : List Instr, ∃ s : State, s.pending = c :: rest :=
  ⟨.tickStart 0, [.porst], { up with pending := [.tickStart 0, .porst] }, by decide +kernel⟩

theorem witness_IdleStepCountsOneCycle :
    (∃ s : State, s.pending = [] ∧ edgeDue s = true ∧ s.clk.hold = false) ∧
    (∃ s : State, s.pending = [] ∧ (edgeDue s = false ∨ s.clk.hold = true)) :=
  ⟨⟨{ ticking with tick := { ticking.tick with starting := false }, now := 10^9, pending := [] }, by decide +kernel⟩,
   ⟨ticking, by decide +kernel⟩⟩

theorem witness_TickCommandsComplete :
    (∃ m : Master, ∃ s : State, WriteReaches m (R.TICK_CTRL.addr 0) s ∧ running s = false ∧ s.tick.starting = false) ∧
    (∃ m : Master, ∃ s : State, WriteReaches m (R.TICK_CTRL.addr 0) s ∧ (running s = true ∨ s.tick.starting = true)) ∧
    (∃ m : Master, ∃ s : State, WriteReaches m (R.TICK_CTRL.addr 0) s) ∧
    (∃ m : Master, ∃ v : Word, ∃ s : State, WriteReaches m (R.TICK_CFG.addr 0) s ∧ running s = false ∧ s.lock = false ∧ F.TICK_CFG_FS.of
      v.toNat < 6 ∧ F.TICK_CFG_F.of v.toNat < 5) ∧
    (∃ m : Master, ∃ s : State, WriteReaches m (R.TICK_CFG.addr 0) s ∧ running s = true) ∧
    (∃ w : ShWrite, ∃ p : Place, ∃ s : State, running s = false ∧ s.shPend = [w] ∧ w.held = false ∧ w.late = false ∧ s.strata.cmds = [] ∧
      s.mods.masks = [] ∧ placeOf w.addr = some p ∧ (p.e.reg.name = .TICK_NETMARGIN ∨ p.e.reg.name = .GAL_SLICE ∨ p.e.reg.name =
      .LANE_ENABLE ∨ p.e.reg.name = .ROUTE_POLICY ∨ p.e.reg.name = .LANE_FRAME ∨ p.e.reg.name = .DRAM_DLY_LINE)) ∧
    (∃ s : State, (running s = true ∨ s.tick.starting = true) ∧ s.clk.hold = false) :=
  ⟨⟨1, putF F.TICK_CFG_FS 0 1 up, by decide +kernel⟩,
   ⟨1, ticking, by decide +kernel⟩,
   ⟨1, up, by decide +kernel⟩,
   ⟨1, 0x12, up, by decide +kernel⟩,
   ⟨1, ticking, by decide +kernel⟩,
   ⟨⟨0x20010020, 1, false, false, none, 0, none⟩, (placeOf 0x20010020).getD ⟨entryOf R.TICK_NUM,0,0,false⟩, put R.TICK_NETMARGIN 0 77
     { up with shPend := [⟨0x20010020, 1, false, false, none, 0, none⟩] }, and_assoc.mp ⟨by decide +kernel, and_assoc.mp
     ⟨by decide +kernel, and_assoc.mp ⟨by decide +kernel, ⟨some_getD (by decide +kernel), by decide +kernel⟩⟩⟩⟩⟩,
   ⟨ticking, by decide +kernel⟩⟩

theorem witness_BusCommandsComplete :
    (∃ m : Master, ∃ s : State, WriteReaches m (R.XBAR_AGE.addr 0) s ∧ ((m.val = 1 → accessPends 1 s = false)) ∧ s.lock = false) ∧
    (∃ m : Master, ∃ g : Fin 16, ∃ w : Fin 262144, ∃ s : State, WriteReaches m (galAddr g w) s ∧ ((m.val = 1 → accessPends 1 s = false)) ∧
      Memory.wf s.mem = true) ∧
    (∃ m : Master, ∃ s : State, asleep s = false ∧ ((m.val = 1 → accessPends 1 s = false))) ∧
    (∃ m : Master, ∃ i : Fin 256, ∃ s : State, WriteReaches m (R.ROUTE_POLICY.addr i) s ∧ ((m.val = 1 → accessPends 1 s = false))) ∧
    (∃ m : Master, ∃ i : Fin 256, ∃ lo : Nat, ∃ s : State, WriteReaches m (R.ROUTE_POLICY.addr i + 4) s ∧ ((m.val = 1 → accessPends 1 s =
      false)) ∧ buffered s m (R.ROUTE_POLICY.addr i) = some lo) ∧
    (∃ r : MatrixReq, ∃ s : State, asleep s = false ∧ 1 ≤ reqBeats r ∧ reqBeats r ≤ 16) ∧
    (∃ m : Master, ∃ l : LaneSlot, ∃ k : Fin 8192, ∃ v : W64, ∃ s : State, WriteReaches m (xyAddr l false k) s ∧ s.bus.waiting = [⟨.master
      m, xyAddr l false k, .write .b8 v⟩] ∧ s.bus.routeStall = [] ∧ laneReleased s l = false ∧ F.GAL_COPY_EN.liveOn (l / 17) s = false ∧
      Memory.wf s.mem = true) ∧
    (∃ m : Master, ∃ g : Fin 16, ∃ i : Fin 4, ∃ v : Word, ∃ s : State, WriteReaches m (R.GAL_SLOTMAP.addr (4 * g + i)) s ∧ s.lock = false
      ∧ ((∀ b < 4, mapSlot v.toNat b ≤ 16)) ∧ (mapSlots ((List.range 4).map fun j => if j = i.val then v.toNat else R.GAL_SLOTMAP.val (4 *
      g + j) s)).Nodup) :=
  ⟨⟨1, up, by decide +kernel⟩,
   ⟨1, 15, 262143, up, by decide +kernel⟩,
   ⟨1, put R.TICK_NUM 0 0x500000007 up, by decide +kernel⟩,
   ⟨1, 255, up, by decide +kernel⟩,
   ⟨1, 255, 5, { up with bus := { up.bus with wbuf := [(latchKey 1 (R.ROUTE_POLICY.addr 255), 5)] } }, by decide +kernel⟩,
   ⟨.readBurst 4, up, by decide +kernel⟩,
   ⟨1, 20, 8191, 0x1234567890, { up with bus := { up.bus with waiting := [⟨.master 1, xyAddr 20 false 8191, .write .b8 0x1234567890⟩] } },
     by decide +kernel⟩,
   ⟨1, 15, 3, 0x908F8E8C, up, by decide +kernel⟩⟩

theorem witness_GalleryWriteFrame :
    ∃ m : Master, ∃ g : Fin 16, ∃ w : Fin 262144, ∃ v : W64, ∃ s t : State, WriteReaches m (galAddr g w) s ∧ ((m.val = 1 → accessPends 1 s
      = false)) ∧ Memory.wf s.mem = true ∧ exec (.memoryAccess (.master m) (BitVec.ofNat 32 (galAddr g w)) (.write .b8 v)) s = .next t ∧ ∃
      b, (b < galAddr g w ∨ galAddr g w + 5 ≤ b) :=
  ⟨1, 3, 5, 0x123456789ABCDEF0, up, nextOf (exec (.memoryAccess (.master 1) (BitVec.ofNat 32 (galAddr 3 5)) (.write .b8
    0x123456789ABCDEF0)) up), and_assoc.mp ⟨by decide +kernel, ⟨by decide +kernel, next_of (by decide +kernel), 0, by decide +kernel⟩⟩⟩

theorem witness_FortyBitSlots :
    ∃ m : Master, ∃ a : Nat, ∃ s : State, ((∃ (g : Fin 16) (w : Fin 262144), a = galAddr g w) ∨ (∃ (l : LaneSlot) (y : Bool) (k : Fin
      8192), a = xyAddr l y k ∧ laneReleased s l = false)) ∧ WriteReaches m a s ∧ ((m.val = 1 → accessPends 1 s = false)) ∧ s.ecc.marks =
      [] ∧ Memory.wf s.mem = true :=
  ⟨1, galAddr 15 262143, (setWord40 (galAddr 15 262143) 0x8123456789).run up, .inl ⟨15, 262143, rfl⟩, by decide +kernel⟩

theorem witness_SlotmapCollisionDropped :
    ∃ m : Master, ∃ g : Fin 16, ∃ i : Fin 4, ∃ v : Word, ∃ s : State, WriteReaches m (R.GAL_SLOTMAP.addr (4 * g + i)) s ∧ (((∃ b < 4, 16 <
      mapSlot v.toNat b) ∨ ¬ (mapSlots ((List.range 4).map fun j => if j = i.val then v.toNat else R.GAL_SLOTMAP.val (4 * g + j)
      s)).Nodup)) :=
  ⟨1, 15, 3, 0x91, up, by decide +kernel⟩

theorem witness_LaneAluDComplete :
    (∃ l : LaneSlot, ∃ h : Half, ∃ d r : Fin 16, ∃ x : SlotCtx, ∃ s : State, LaneAtWord l (slotWord h (.mov d r) x) s) ∧
    (∃ l : LaneSlot, ∃ h : Half, ∃ d r : Fin 16, ∃ x : SlotCtx, ∃ s : State, LaneAtWord l (slotWord h (.add d r) x) s) ∧
    (∃ l : LaneSlot, ∃ h : Half, ∃ d r : Fin 16, ∃ x : SlotCtx, ∃ s : State, LaneAtWord l (slotWord h (.sub d r) x) s) ∧
    (∃ l : LaneSlot, ∃ h : Half, ∃ d r : Fin 16, ∃ x : SlotCtx, ∃ s : State, LaneAtWord l (slotWord h (.neg d r) x) s) ∧
    (∃ l : LaneSlot, ∃ h : Half, ∃ d r : Fin 16, ∃ x : SlotCtx, ∃ s : State, LaneAtWord l (slotWord h (.abs d r) x) s) ∧
    (∃ l : LaneSlot, ∃ h : Half, ∃ d r : Fin 16, ∃ x : SlotCtx, ∃ s : State, LaneAtWord l (slotWord h (.max d r) x) s) ∧
    (∃ l : LaneSlot, ∃ h : Half, ∃ d r : Fin 16, ∃ x : SlotCtx, ∃ s : State, LaneAtWord l (slotWord h (.min d r) x) s) ∧
    (∃ l : LaneSlot, ∃ h : Half, ∃ d r : Fin 16, ∃ x : SlotCtx, ∃ s : State, LaneAtWord l (slotWord h (.and d r) x) s) ∧
    (∃ l : LaneSlot, ∃ h : Half, ∃ d r : Fin 16, ∃ x : SlotCtx, ∃ s : State, LaneAtWord l (slotWord h (.or d r) x) s) ∧
    (∃ l : LaneSlot, ∃ h : Half, ∃ d r : Fin 16, ∃ x : SlotCtx, ∃ s : State, LaneAtWord l (slotWord h (.xor d r) x) s) ∧
    (∃ l : LaneSlot, ∃ h : Half, ∃ d : Fin 16, ∃ n : Fin 32, ∃ x : SlotCtx, ∃ s : State, LaneAtWord l (slotWord h (.asr d n) x) s) ∧
    (∃ l : LaneSlot, ∃ h : Half, ∃ d : Fin 16, ∃ n : Fin 32, ∃ x : SlotCtx, ∃ s : State, LaneAtWord l (slotWord h (.lsl d n) x) s) ∧
    (∃ l : LaneSlot, ∃ h : Half, ∃ d : Fin 16, ∃ n : Fin 32, ∃ x : SlotCtx, ∃ s : State, LaneAtWord l (slotWord h (.lsr d n) x) s) :=
  ⟨⟨20, .s0, 7, 2, sc0, atWord (slotWord .s0 (.mov 7 2) sc0), laneAtWord_of (by decide +kernel)⟩,
   ⟨20, .s0, 7, 2, sc0, atWord (slotWord .s0 (.add 7 2) sc0), laneAtWord_of (by decide +kernel)⟩,
   ⟨20, .s0, 7, 2, sc0, atWord (slotWord .s0 (.sub 7 2) sc0), laneAtWord_of (by decide +kernel)⟩,
   ⟨20, .s0, 7, 2, sc0, atWord (slotWord .s0 (.neg 7 2) sc0), laneAtWord_of (by decide +kernel)⟩,
   ⟨20, .s0, 7, 2, sc0, atWord (slotWord .s0 (.abs 7 2) sc0), laneAtWord_of (by decide +kernel)⟩,
   ⟨20, .s0, 7, 2, sc0, atWord (slotWord .s0 (.max 7 2) sc0), laneAtWord_of (by decide +kernel)⟩,
   ⟨20, .s0, 7, 2, sc0, atWord (slotWord .s0 (.min 7 2) sc0), laneAtWord_of (by decide +kernel)⟩,
   ⟨20, .s0, 7, 2, sc0, atWord (slotWord .s0 (.and 7 2) sc0), laneAtWord_of (by decide +kernel)⟩,
   ⟨20, .s0, 7, 2, sc0, atWord (slotWord .s0 (.or 7 2) sc0), laneAtWord_of (by decide +kernel)⟩,
   ⟨20, .s0, 7, 2, sc0, atWord (slotWord .s0 (.xor 7 2) sc0), laneAtWord_of (by decide +kernel)⟩,
   ⟨20, .s0, 7, 31, sc0, atWord (slotWord .s0 (.asr 7 31) sc0), laneAtWord_of (by decide +kernel)⟩,
   ⟨20, .s0, 7, 31, sc0, atWord (slotWord .s0 (.lsl 7 31) sc0), laneAtWord_of (by decide +kernel)⟩,
   ⟨20, .s0, 7, 31, sc0, atWord (slotWord .s0 (.lsr 7 31) sc0), laneAtWord_of (by decide +kernel)⟩⟩

theorem witness_LaneFlagsComplete :
    (∃ l : LaneSlot, ∃ h : Half, ∃ d r : Fin 16, ∃ x : SlotCtx, ∃ s : State, (h = .s1 ∨ x.other = .nop) ∧ LaneAtWord l (slotWord h (.cmp d
      r) x) s) ∧
    (∃ l : LaneSlot, ∃ h : Half, ∃ acc : Fin 4, ∃ x : SlotCtx, ∃ s : State, (h = .s1 ∨ x.other = .nop) ∧ LaneAtWord l (slotWord h (.tsta
      acc) x) s) :=
  ⟨⟨20, .s0, 7, 2, sc0, atWord (slotWord .s0 (.cmp 7 2) sc0), by decide +kernel, laneAtWord_of (by decide +kernel)⟩,
   ⟨20, .s0, 3, sc0, atWord (slotWord .s0 (.tsta 3) sc0), by decide +kernel, laneAtWord_of (by decide +kernel)⟩⟩

theorem witness_LaneMultiplyComplete :
    (∃ l : LaneSlot, ∃ h : Half, ∃ acc : Fin 4, ∃ a b : Fin 16, ∃ x : SlotCtx, ∃ s : State, mulAcc x.other ≠ some acc ∧ LaneAtWord l
      (slotWord h (.mac acc a b) x) s) ∧
    (∃ l : LaneSlot, ∃ h : Half, ∃ acc : Fin 4, ∃ a b : Fin 16, ∃ x : SlotCtx, ∃ s : State, mulAcc x.other ≠ some acc ∧ LaneAtWord l
      (slotWord h (.msu acc a b) x) s) ∧
    (∃ l : LaneSlot, ∃ h : Half, ∃ acc : Fin 4, ∃ a b : Fin 16, ∃ x : SlotCtx, ∃ s : State, mulAcc x.other ≠ some acc ∧ LaneAtWord l
      (slotWord h (.mpy acc a b) x) s) ∧
    (∃ l : LaneSlot, ∃ h : Half, ∃ acc : Fin 4, ∃ a b : Fin 16, ∃ x : SlotCtx, ∃ s : State, mulAcc x.other ≠ some acc ∧ LaneAtWord l
      (slotWord h (.mpyn acc a b) x) s) :=
  ⟨⟨20, .s0, 1, 14, 0, sc0, atWord (slotWord .s0 (.mac 1 14 0) sc0), by decide +kernel, laneAtWord_of (by decide +kernel)⟩,
   ⟨20, .s0, 1, 14, 0, sc0, atWord (slotWord .s0 (.msu 1 14 0) sc0), by decide +kernel, laneAtWord_of (by decide +kernel)⟩,
   ⟨20, .s0, 1, 14, 0, sc0, atWord (slotWord .s0 (.mpy 1 14 0) sc0), by decide +kernel, laneAtWord_of (by decide +kernel)⟩,
   ⟨20, .s0, 1, 14, 0, sc0, atWord (slotWord .s0 (.mpyn 1 14 0) sc0), by decide +kernel, laneAtWord_of (by decide +kernel)⟩⟩

theorem witness_LaneTwoProducts :
    ∃ l : LaneSlot, ∃ acc : Fin 4, ∃ o0 o1 : SlotOp, ∃ mop : MemOp, ∃ u0 u1 : AddrUpd, ∃ s : State, LaneAtWord l (.compute ⟨o0, o1, mop,
      u0, u1⟩) s ∧ mulAcc o0 = some acc ∧ mulAcc o1 = some acc :=
  ⟨20, 1, .mac 1 14 0, .mac 1 15 1, .none, ⟨false,0,0⟩, ⟨false,0,0⟩, atWord (.compute ⟨.mac 1 14 0, .mac 1 15 1, .none, ⟨false,0,0⟩,
    ⟨false,0,0⟩⟩), laneAtWord_of (by decide +kernel), by decide +kernel⟩

theorem witness_LaneAccumulatorComplete :
    (∃ l : LaneSlot, ∃ h : Half, ∃ d : Fin 16, ∃ acc : Fin 4, ∃ rm : Rounding, ∃ x : SlotCtx, ∃ s : State, LaneAtWord l (slotWord h (.cv
      .cvS d acc rm) x) s) ∧
    (∃ l : LaneSlot, ∃ h : Half, ∃ d : Fin 16, ∃ acc : Fin 4, ∃ rm : Rounding, ∃ x : SlotCtx, ∃ s : State, LaneAtWord l (slotWord h (.cv
      .cvQ d acc rm) x) s) ∧
    (∃ l : LaneSlot, ∃ h : Half, ∃ d : Fin 16, ∃ acc : Fin 4, ∃ rm : Rounding, ∃ x : SlotCtx, ∃ s : State, LaneAtWord l (slotWord h (.cv
      .cvC d acc rm) x) s) ∧
    (∃ l : LaneSlot, ∃ h : Half, ∃ d : Fin 16, ∃ acc : Fin 4, ∃ rm : Rounding, ∃ x : SlotCtx, ∃ s : State, LaneAtWord l (slotWord h (.cv
      .cvI d acc rm) x) s) ∧
    (∃ l : LaneSlot, ∃ h : Half, ∃ d : Fin 16, ∃ acc : Fin 4, ∃ x : SlotCtx, ∃ s : State, LaneAtWord l (slotWord h (.lda acc d) x) s) ∧
    (∃ l : LaneSlot, ∃ h : Half, ∃ acc : Fin 4, ∃ x : SlotCtx, ∃ s : State, LaneAtWord l (slotWord h (.clra acc) x) s) ∧
    (∃ l : LaneSlot, ∃ h : Half, ∃ acc src : Fin 4, ∃ x : SlotCtx, ∃ s : State, LaneAtWord l (slotWord h (.adda acc src) x) s) ∧
    (∃ l : LaneSlot, ∃ h : Half, ∃ acc src : Fin 4, ∃ x : SlotCtx, ∃ s : State, LaneAtWord l (slotWord h (.suba acc src) x) s) :=
  ⟨⟨20, .s0, 7, 2, .rnd, sc0, atWord (slotWord .s0 (.cv .cvS 7 2 .rnd) sc0), laneAtWord_of (by decide +kernel)⟩,
   ⟨20, .s0, 7, 3, .trn, sc0, atWord (slotWord .s0 (.cv .cvQ 7 3 .trn) sc0), laneAtWord_of (by decide +kernel)⟩,
   ⟨20, .s0, 7, 2, .trn, sc0, atWord (slotWord .s0 (.cv .cvC 7 2 .trn) sc0), laneAtWord_of (by decide +kernel)⟩,
   ⟨20, .s0, 7, 1, .rnd, sc0, atWord (slotWord .s0 (.cv .cvI 7 1 .rnd) sc0), laneAtWord_of (by decide +kernel)⟩,
   ⟨20, .s0, 7, 2, sc0, atWord (slotWord .s0 (.lda 2 7) sc0), laneAtWord_of (by decide +kernel)⟩,
   ⟨20, .s0, 2, sc0, atWord (slotWord .s0 (.clra 2) sc0), laneAtWord_of (by decide +kernel)⟩,
   ⟨20, .s0, 2, 3, sc0, atWord (slotWord .s0 (.adda 2 3) sc0), laneAtWord_of (by decide +kernel)⟩,
   ⟨20, .s0, 2, 3, sc0, atWord (slotWord .s0 (.suba 2 3) sc0), laneAtWord_of (by decide +kernel)⟩⟩

theorem witness_LaneMemoryComplete :
    (∃ l : LaneSlot, ∃ p : Bool, ∃ d : Fin 16, ∃ x : MemCtx, ∃ s : State,
        let L := laneNow s l;
        L.stores = [] ∧ LaneAtWord l (memWord (.lx p d) x) s) ∧
    (∃ l : LaneSlot, ∃ p : Bool, ∃ d : Fin 16, ∃ x : MemCtx, ∃ s : State,
        let L := laneNow s l;
        L.stores = [] ∧ LaneAtWord l (memWord (.ly p d) x) s) ∧
    (∃ l : LaneSlot, ∃ p q : Bool, ∃ d e : Fin 16, ∃ x : MemCtx, ∃ s : State,
        let L := laneNow s l;
        L.stores = [] ∧ LaneAtWord l (memWord (.lxy p d q e) x) s) ∧
    (∃ l : LaneSlot, ∃ r : Fin 16, ∃ x : MemCtx, ∃ s : State,
        let L := laneNow s l;
        L.stores = [] ∧ LaneAtWord l (memWord (.sx (.reg r)) x) s) ∧
    (∃ l : LaneSlot, ∃ acc : Fin 4, ∃ c : Conv, ∃ rm : Rounding, ∃ x : MemCtx, ∃ s : State,
        let L := laneNow s l;
        L.stores = [] ∧ LaneAtWord l (memWord (.sx (.conv acc c rm)) x) s) ∧
    (∃ l : LaneSlot, ∃ r : Fin 16, ∃ x : MemCtx, ∃ s : State,
        let L := laneNow s l;
        let a0 := rdA L x.u0.an;
        let p0 := partner a0 (rdLen L x.u0.an);
        L.stores = [] ∧ LaneAtWord l (memWord (.sx (.pair r)) x) s ∧ sameBank a0 p0 = false) ∧
    (∃ l : LaneSlot, ∃ r : Fin 16, ∃ x : MemCtx, ∃ s : State,
        let L := laneNow s l;
        L.stores = [] ∧ LaneAtWord l (memWord (.sy (.reg r)) x) s) ∧
    (∃ l : LaneSlot, ∃ acc : Fin 4, ∃ c : Conv, ∃ rm : Rounding, ∃ x : MemCtx, ∃ s : State,
        let L := laneNow s l;
        L.stores = [] ∧ LaneAtWord l (memWord (.sy (.conv acc c rm)) x) s) ∧
    (∃ l : LaneSlot, ∃ r : Fin 16, ∃ x : MemCtx, ∃ s : State,
        let L := laneNow s l;
        let a0 := rdA L x.u0.an;
        let p0 := partner a0 (rdLen L x.u0.an);
        L.stores = [] ∧ LaneAtWord l (memWord (.sy (.pair r)) x) s ∧ sameBank a0 p0 = false) :=
  ⟨⟨20, true, 6, mc0, atWord (memWord (.lx true 6) mc0), by decide +kernel, laneAtWord_of (by decide +kernel)⟩,
   ⟨20, true, 6, mc0, atWord (memWord (.ly true 6) mc0), by decide +kernel, laneAtWord_of (by decide +kernel)⟩,
   ⟨20, true, true, 6, 8, mc0, atWord (memWord (.lxy true 6 true 8) mc0), by decide +kernel, laneAtWord_of (by decide +kernel)⟩,
   ⟨20, 6, mc0, atWord (memWord (.sx (.reg 6)) mc0), by decide +kernel, laneAtWord_of (by decide +kernel)⟩,
   ⟨20, 2, .cvS, .rnd, mc0, atWord (memWord (.sx (.conv 2 .cvS .rnd)) mc0), by decide +kernel, laneAtWord_of (by decide +kernel)⟩,
   ⟨20, 6, mc0, atWord (memWord (.sx (.pair 6)) mc0), by decide +kernel, laneAtWord_of (by decide +kernel), by decide +kernel⟩,
   ⟨20, 6, mc0, atWord (memWord (.sy (.reg 6)) mc0), by decide +kernel, laneAtWord_of (by decide +kernel)⟩,
   ⟨20, 2, .cvS, .rnd, mc0, atWord (memWord (.sy (.conv 2 .cvS .rnd)) mc0), by decide +kernel, laneAtWord_of (by decide +kernel)⟩,
   ⟨20, 6, mc0, atWord (memWord (.sy (.pair 6)) mc0), by decide +kernel, laneAtWord_of (by decide +kernel), by decide +kernel⟩⟩

theorem witness_LaneControlComplete :
    (∃ l : LaneSlot, ∃ cc : Cond, ∃ tg : Fin 4096, ∃ s : State,
        let L := laneNow s l;
        LaneAtWord l (.control (.jmp cc tg)) s ∧ L.reps = []) ∧
    (∃ l : LaneSlot, ∃ cc : Cond, ∃ tg : Fin 4096, ∃ s : State,
        let L := laneNow s l;
        LaneAtWord l (.control (.call cc tg)) s ∧ L.reps = [] ∧ L.rets.length < 8) ∧
    (∃ l : LaneSlot, ∃ cc : Cond, ∃ s : State,
        let L := laneNow s l;
        ∃ a, LaneAtWord l (.control (.ret cc)) s ∧ L.reps = [] ∧ L.rets.getLast? = some a ∧ a < 4096) ∧
    (∃ l : LaneSlot, ∃ n : Fin 65536, ∃ kk : Fin 256, ∃ s : State,
        let L := laneNow s l;
        LaneAtWord l (.control (.repImm n kk)) s ∧ n ≠ 0 ∧ L.reps = []) ∧
    (∃ l : LaneSlot, ∃ kk : Fin 256, ∃ d : Fin 16, ∃ s : State,
        let L := laneNow s l;
        LaneAtWord l (.control (.repD d kk)) s ∧ (rdD L d).toNat % 65536 ≠ 0 ∧ L.reps = []) ∧
    (∃ l : LaneSlot, ∃ s : State,
        let L := laneNow s l;
        LaneAtWord l (.control .waitTick) s ∧ L.reps = []) ∧
    (∃ l : LaneSlot, ∃ d : Fin 16, ∃ v : W40, ∃ s : State, LaneAtWord l (.control (.ldi d v)) s) ∧
    (∃ l : LaneSlot, ∃ d : Fin 16, ∃ w : W18, ∃ s : State, LaneAtWord l (.control (.movaImm d w)) s) ∧
    (∃ l : LaneSlot, ∃ d : Fin 16, ∃ w : W18, ∃ s : State, LaneAtWord l (.control (.movmImm d w)) s) ∧
    (∃ l : LaneSlot, ∃ d : Fin 16, ∃ w : W18, ∃ s : State, LaneAtWord l (.control (.movlImm d w)) s) ∧
    (∃ l : LaneSlot, ∃ d r : Fin 16, ∃ s : State, LaneAtWord l (.control (.movaD d r)) s) ∧
    (∃ l : LaneSlot, ∃ d r : Fin 16, ∃ s : State, LaneAtWord l (.control (.movmD d r)) s) ∧
    (∃ l : LaneSlot, ∃ d r : Fin 16, ∃ s : State, LaneAtWord l (.control (.movlD d r)) s) ∧
    (∃ l : LaneSlot, ∃ d r : Fin 16, ∃ s : State, LaneAtWord l (.control (.movd d r)) s) :=
  ⟨⟨20, .lt, 0x123, atWord (.control (.jmp .lt 0x123)), laneAtWord_of (by decide +kernel), by decide +kernel⟩,
   ⟨20, .al, 0xFFF, atWord (.control (.call .al 0xFFF)), laneAtWord_of (by decide +kernel), by decide +kernel⟩,
   ⟨20, .al, atWord (.control (.ret .al)) { lane20 with rets := [4, 77] }, 77, laneAtWord_of (by decide +kernel), by decide +kernel⟩,
   ⟨20, 65535, 255, atWord (.control (.repImm 65535 255)), laneAtWord_of (by decide +kernel), by decide +kernel⟩,
   ⟨20, 1, 3, atWord (.control (.repD 3 1)), laneAtWord_of (by decide +kernel), by decide +kernel⟩,
   ⟨20, atWord (.control (.waitTick)), laneAtWord_of (by decide +kernel), by decide +kernel⟩,
   ⟨20, 15, 0x8000000001, atWord (.control (.ldi 15 0x8000000001)), laneAtWord_of (by decide +kernel)⟩,
   ⟨20, 15, 0x3FFFF, atWord (.control (.movaImm 15 0x3FFFF)), laneAtWord_of (by decide +kernel)⟩,
   ⟨20, 15, 0x3FFFF, atWord (.control (.movmImm 15 0x3FFFF)), laneAtWord_of (by decide +kernel)⟩,
   ⟨20, 15, 0x3FFFF, atWord (.control (.movlImm 15 0x3FFFF)), laneAtWord_of (by decide +kernel)⟩,
   ⟨20, 15, 3, atWord (.control (.movaD 15 3)), laneAtWord_of (by decide +kernel)⟩,
   ⟨20, 15, 3, atWord (.control (.movmD 15 3)), laneAtWord_of (by decide +kernel)⟩,
   ⟨20, 15, 3, atWord (.control (.movlD 15 3)), laneAtWord_of (by decide +kernel)⟩,
   ⟨20, 15, 3, atWord (.control (.movd 15 3)), laneAtWord_of (by decide +kernel)⟩⟩

theorem witness_LaneGalleryComplete :
    (∃ l : LaneSlot, ∃ d n m : Fin 16, ∃ en : Bool, ∃ s : State, LaneAtWord l (.control (.gld d n m en)) s) ∧
    (∃ l : LaneSlot, ∃ d n m : Fin 16, ∃ en : Bool, ∃ s : State, LaneAtWord l (.control (.gst d n m en)) s) ∧
    (∃ l : LaneSlot, ∃ d n m : Fin 16, ∃ en : Bool, ∃ s : State,
        let L := laneNow s l;
        L.st = .stall ∧ L.cause = .gld ∧ L.stepRet = none ∧ haltHere L l s = false ∧ s.ecc.marks = [] ∧ decodeLane (word64 s (progAddr l
          L.pc)) = some (.control (.gld d n m en)) ∧ (nextPc L.reps L.pc).2 < 4096) ∧
    (∃ l : LaneSlot, ∃ d n m : Fin 16, ∃ en : Bool, ∃ s : State,
        let L := laneNow s l;
        L.st = .stall ∧ L.cause = .gst ∧ L.stepRet = none ∧ haltHere L l s = false ∧ Memory.wf s.mem = true ∧ decodeLane (word64 s
          (progAddr l L.pc)) = some (.control (.gst d n m en)) ∧ (nextPc L.reps L.pc).2 < 4096) ∧
    (∃ l : LaneSlot, ∃ h : Half, ∃ u0 u1 : AddrUpd, ∃ s : State, LaneAtWord l (slotWord h .nop ⟨.nop, .none, u0, u1⟩) s ∧ u0.en = false ∧
      u1.en = false) :=
  ⟨⟨20, 1, 2, 3, true, atWord (.control (.gld 1 2 3 true)), laneAtWord_of (by decide +kernel)⟩,
   ⟨20, 1, 2, 3, true, atWord (.control (.gst 1 2 3 true)), laneAtWord_of (by decide +kernel)⟩,
   ⟨20, 1, 2, 3, true, (setWord40 (galAddr 1 (rdA lane20 2).toNat) 0x77).run (atWord (.control (.gld 1 2 3 true))
     { lane20 with st := .stall, cause := .gld }), by decide +kernel⟩,
   ⟨20, 1, 2, 3, true, atWord (.control (.gst 1 2 3 true)) { lane20 with st := .stall, cause := .gst }, by decide +kernel⟩,
   ⟨20, .s0, ⟨false,0,0⟩, ⟨false,0,0⟩, atWord (slotWord .s0 .nop ⟨.nop, .none, ⟨false,0,0⟩, ⟨false,0,0⟩⟩), laneAtWord_of
     (by decide +kernel), by decide +kernel⟩⟩

theorem witness_LaneComputeFrame :
    ∃ l : LaneSlot, ∃ w : ComputeWord, ∃ i : Instr, ∃ s t : State, LaneAtWord l (.compute w) s ∧ (laneNow s l).stores = [] ∧ ((i =
      slotInstr l .s0 ⟨w.slot1, w.mop, w.u0, w.u1⟩ w.slot0 ∨ i = slotInstr l .s1 ⟨w.slot0, w.mop, w.u0, w.u1⟩ w.slot1 ∨ some i = memInstr
      l ⟨w.slot0, w.slot1, w.u0, w.u1⟩ w.mop)) ∧ exec i s = .next t :=
  ⟨20, ⟨.add 7 2, .nop, .none, ⟨false,0,0⟩, ⟨false,0,0⟩⟩, .opAdd 20 .s0 7 2 sc0, atWord (.compute ⟨.add 7 2, .nop, .none, ⟨false,0,0⟩,
    ⟨false,0,0⟩⟩), nextOf (exec (.opAdd 20 .s0 7 2 sc0) (atWord (.compute ⟨.add 7 2, .nop, .none, ⟨false,0,0⟩, ⟨false,0,0⟩⟩))),
    laneAtWord_of (by decide +kernel), by decide +kernel, by decide +kernel, next_of (by decide +kernel)⟩

theorem witness_LaneIllegalWordFaults :
    ∃ l : LaneSlot, ∃ s : State, (laneNow s l).st = .run ∧ (laneNow s l).stepRet = none ∧ haltHere (laneNow s l) l s = false ∧ s.ecc.marks
      = [] ∧ decodeLane (word64 s (progAddr l (laneNow s l).pc)) = none ∧ (laneNow s l).pc < 4096 :=
  ⟨20, (memSetLe (progAddr 20 5) 8 0xFF00000000000000).run (atWord (.control .waitTick)), by decide +kernel⟩

theorem witness_LaneWindowCommandsComplete :
    (∃ m : Master, ∃ l : LaneSlot, ∃ s : State, WriteReaches m (R.LANE_CTRL.addr l) s) ∧
    (∃ l : LaneSlot, ∃ s : State, F.LANE_CTRL_HALT.on l s = true ∧ ((laneAt s l).st = .run ∨ (laneAt s l).st = .stall) ∧ (laneAt s l).reps
      = [] ∧ (laneAt s l).stepRet = none) ∧
    (∃ m : Master, ∃ l : LaneSlot, ∃ s : State, WriteReaches m (R.LANE_CTRL.addr l) s ∧ (laneAt s l).st = .halt) ∧
    (∃ m : Master, ∃ l : LaneSlot, ∃ s : State, ∃ d, ∃ v, WriteReaches m (R.LANE_CTRL.addr l) s ∧ (laneAt s l).st = .halt ∧ (laneAt s
      l).reps = [] ∧ s.ecc.marks = [] ∧ (laneAt s l).stores = [] ∧ decodeLane (word64 s (progAddr l (laneAt s l).pc)) = some (.control
      (.ldi d v)) ∧ (laneAt s l).pc < 4095) ∧
    (∃ m : Master, ∃ l : LaneSlot, ∃ s : State, WriteReaches m (R.LANE_CTRL.addr l) s ∧ laneIn s l = none ∧ (laneAt s l).st = .fault) ∧
    (∃ m : Master, ∃ l : LaneSlot, ∃ s : State, WriteReaches m (R.LANE_PC.addr l) s ∧ laneReleased s l = false ∧ (laneAt s l).st ≠ .fault)
      ∧
    (∃ m : Master, ∃ l : LaneSlot, ∃ s : State, ∃ v : Word, WriteReaches m (R.LANE_FRAME.addr l) s ∧ laneReleased s l = false ∧ s.lock =
      false ∧ F.LANE_FRAME_OUT_CH.of v.toNat ≤ 64 ∧ F.LANE_FRAME_IN_CH.of v.toNat ≤ 256 ∧ F.LANE_FRAME_IN_CH.of v.toNat * spt (rated s) ≤
      4096) :=
  ⟨⟨1, 20, withLane 20 { lane20 with st := .run } up, by decide +kernel⟩,
   ⟨20, withLane 20 { lane20 with st := .run, results := [] } (putF F.LANE_CTRL_HALT 20 1 up), by decide +kernel⟩,
   ⟨1, 20, withLane 20 { lane20 with st := .halt } (putF F.LANE_CTRL_HALT 20 1 up), by decide +kernel⟩,
   ⟨1, 20, atWord (.control (.ldi 15 0x8000000001)) { lane20 with st := .halt }, 15, 0x8000000001, by decide +kernel⟩,
   ⟨1, 16, withLane 16 { lane20 with st := .fault } (putF F.LANE_FAULT_VALID 16 1 up), by decide +kernel⟩,
   ⟨1, 20, withLane 20 { lane20 with st := .idle } up, by decide +kernel⟩,
   ⟨1, 20, withLane 20 { lane20 with st := .idle } up, (BitVec.ofNat 32 (fv F.LANE_FRAME_OUT_CH 64 + fv F.LANE_FRAME_IN_CH 32)),
     by decide +kernel⟩⟩

theorem witness_LaneQueuePortsComplete :
    (∃ l : LaneSlot, ∃ d p : Fin 16, ∃ n q : Nat, ∃ s : State, laneIn s l = some n ∧ s.ecc.marks = [] ∧ (laneNow s l).stores = [] ∧
      (queueAt s q).broken = false ∧ LaneAtWord l (.control (.qrd d p)) s ∧ laneBound n p false s = some q ∧ wordEmpty (queueAt s q) =
      false) ∧
    (∃ l : LaneSlot, ∃ d p : Fin 16, ∃ n q : Nat, ∃ s : State, laneIn s l = some n ∧ s.ecc.marks = [] ∧ (laneNow s l).stores = [] ∧
      (queueAt s q).broken = false ∧ LaneAtWord l (.control (.qrd d p)) s ∧ laneBound n p false s = some q ∧ wordEmpty (queueAt s q) =
      true) ∧
    (∃ l : LaneSlot, ∃ d p : Fin 16, ∃ n q : Nat, ∃ s : State, laneIn s l = some n ∧ s.ecc.marks = [] ∧ (laneNow s l).stores = [] ∧
      (queueAt s q).broken = false ∧ (laneNow s l).st = .stall ∧ (laneNow s l).cause = .qrd ∧ (laneNow s l).stepRet = none ∧ haltHere
      (laneNow s l) l s = false ∧ decodeLane (word64 s (progAddr l (laneNow s l).pc)) = some (.control (.qrd d p)) ∧ (nextPc (laneNow s
      l).reps (laneNow s l).pc).2 < 4096 ∧ laneBound n p false s = some q ∧ wordEmpty (queueAt s q) = false) ∧
    (∃ l : LaneSlot, ∃ d p : Fin 16, ∃ n q : Nat, ∃ s : State, laneIn s l = some n ∧ s.ecc.marks = [] ∧ (laneNow s l).stores = [] ∧
      (queueAt s q).broken = false ∧ LaneAtWord l (.control (.qwr p d)) s ∧ laneBound n p true s = some q ∧ (queueAt s q).tail ≠ 0 ∧
      (queueAt s q).wr < 32) :=
  ⟨⟨20, 3, 15, 19, 7, qlane (.control (.qrd 3 15)) lane20 wq 0 15, and_assoc.mp ⟨by decide +kernel, and_assoc.mp ⟨by decide +kernel,
    ⟨laneAtWord_of (by decide +kernel), by decide +kernel⟩⟩⟩⟩,
   ⟨20, 3, 15, 19, 7, qlane (.control (.qrd 3 15)) lane20 { wq with tail := 600, rd := 3, wr := 3 } 0 15, and_assoc.mp ⟨by decide +kernel,
     and_assoc.mp ⟨by decide +kernel, ⟨laneAtWord_of (by decide +kernel), by decide +kernel⟩⟩⟩⟩,
   ⟨20, 3, 15, 19, 7, qlane (.control (.qrd 3 15)) { lane20 with st := .stall, cause := .qrd } wq 0 15, by decide +kernel⟩,
   ⟨20, 3, 15, 19, 7, qlane (.control (.qwr 15 3)) lane20 wq 1 15, and_assoc.mp ⟨by decide +kernel, and_assoc.mp ⟨by decide +kernel,
     ⟨laneAtWord_of (by decide +kernel), by decide +kernel⟩⟩⟩⟩⟩

theorem witness_PoolCellCommandsComplete :
    (∃ m : Master, ∃ c q : Nat, ∃ s : State, asleep s = false ∧ s.ecc.marks = [] ∧ (queueAt s q).broken = false ∧ F.POOL_SELQ_QUEUE.get 0
      s m = q ∧ isItemQ (queueAt s q) = true ∧ (queueAt s q).used < qResv (queueAt s q) ∧ bankClosed s (qHome (queueAt s q) % 4) = false ∧
      freeHead s (qHome (queueAt s q) % 4) = c ∧ c ≠ 0) ∧
    (∃ m : Master, ∃ v : Word, ∃ c q : Nat, ∃ s : State, asleep s = false ∧ s.ecc.marks = [] ∧ (queueAt s q).broken = false ∧ WriteReaches
      m (R.POOL_FREE.addr 0) s ∧ c = v.toNat % 65536 ∧ tagHeld (tagOf s c) = true ∧ tagLnk (tagOf s c) = false ∧ tagOwner (tagOf s c) = m
      ∧ tagLink (tagOf s c) = q) ∧
    (∃ m : Master, ∃ v : Word, ∃ c q : Nat, ∃ s : State, asleep s = false ∧ s.ecc.marks = [] ∧ (queueAt s q).broken = false ∧ WriteReaches
      m (R.POOL_PUSH.addr 0) s ∧ c = v.toNat % 65536 ∧ bitOf v.toNat 31 = true ∧ tagHeld (tagOf s c) = true ∧ tagLnk (tagOf s c) = false ∧
      tagOwner (tagOf s c) = m ∧ tagLink (tagOf s c) % 4096 = q ∧ smFind s.pool.opens m = none ∧ (queueAt s q).head = 0 ∧ (queueAt s
      q).tail = 0) ∧
    (∃ m : Master, ∃ c q : Nat, ∃ s : State, asleep s = false ∧ s.ecc.marks = [] ∧ (queueAt s q).broken = false ∧ F.POOL_SELQ_QUEUE.get 0
      s m = q ∧ isItemQ (queueAt s q) = true ∧ smFind s.pool.popped m = none ∧ (queueAt s q).head = c ∧ c ≠ 0 ∧ 0 < (queueAt s q).depth ∧
      tagLast (tagOf s c) = true) :=
  ⟨⟨1, 512, 7, withQ 7 { iq with used := 3 } (putFM F.POOL_SELQ_QUEUE 0 7 1 up), by decide +kernel⟩,
   ⟨1, 700, 700, 7, withTag 700 (mkTag true true false 1 7) (withQ 7 { iq with used := 3 } (putFM F.POOL_SELQ_QUEUE 0 7 1 up)),
     by decide +kernel⟩,
   ⟨1, 0x800002BC, 700, 7, withTag 700 (mkTag true true false 1 7) (withQ 7 { iq with used := 3 } (putFM F.POOL_SELQ_QUEUE 0 7 1 up)),
     by decide +kernel⟩,
   ⟨1, 700, 7, withTag 700 (mkTag true true true 0 0) (withQ 7 { iq with used := 3, head := 700, tail := 700, depth := 1 } (putFM
     F.POOL_SELQ_QUEUE 0 7 1 up)), by decide +kernel⟩⟩

theorem witness_PoolQueueCommandsComplete :
    (∃ m : Master, ∃ q : Nat, ∃ s : State,
        let x := queueAt s q;
        WriteReaches m (R.POOL_QWORD.addr 0) s ∧ F.POOL_SELQ_QUEUE.get 0 s m = q ∧ isWordQ x = true ∧ x.broken = false ∧ x.tail ≠ 0 ∧ x.wr
          < 32 ∧ Memory.wf s.mem = true) ∧
    (∃ m : Master, ∃ q : Nat, ∃ s : State,
        let x := queueAt s q;
        asleep s = false ∧ F.POOL_SELQ_QUEUE.get 0 s m = q ∧ isWordQ x = true ∧ x.broken = false ∧ wordEmpty x = false ∧ s.ecc.marks = [])
          ∧
    (∃ q : Nat, ∃ s : State,
        let x := queueAt s q;
        ∃ r : Requester, ∃ p : PoolWait, s.pool.waits = [p] ∧ p.req = reqId r ∧ p.queue = q ∧ p.word = true ∧ x.broken = false ∧ wordEmpty
          x = false ∧ s.ecc.marks = []) ∧
    (∃ q : Nat, ∃ s : State,
        let x := queueAt s q;
        ∃ r : Requester, ∃ p : PoolWait, s.pool.waits = [p] ∧ p.req = reqId r ∧ p.queue = q ∧ p.raised = false ∧ F.POOL_QCFG_STALL_LIM.of
          x.cfg.toNat ≠ 0 ∧ p.since + 1024 * F.POOL_QCFG_STALL_LIM.of x.cfg.toNat ≤ s.elapsed) ∧
    (∃ m : Master, ∃ q : Nat, ∃ s : State,
        let x := queueAt s q;
        ∃ v : W64, WriteReaches m (R.POOL_QCFG.addr 0) s ∧ F.POOL_QIDX_Q.get 0 s m = q ∧ qEn x = false ∧ F.POOL_QCFG_EN.of v.toNat = 1 ∧
          F.POOL_QCFG_RESV.of v.toNat ≠ 0 ∧ F.POOL_QCFG_RESV.of v.toNat ≤ F.POOL_STAT_UNRES.get 0 s) ∧
    (∃ m : Master, ∃ s : State, ∃ i : Fin 4096, ∃ v : Word, WriteReaches m (R.POOL_LPORT.addr i) s ∧ F.POOL_LPORT_EN.of v.toNat = 1 ∧
      F.POOL_LPORT_DIR.of v.toNat = 1 ∧ isWordQ (queueAt s (F.POOL_LPORT_QUEUE.of v.toNat)) = true) :=
  ⟨⟨1, 7, withQ 7 wq (putFM F.POOL_SELQ_QUEUE 0 7 1 up), by decide +kernel⟩,
   ⟨1, 7, (setWord40 (cellAddr 600 + 24) 0xFFFFFFFFFF#40).run (withQ 7 wq (putFM F.POOL_SELQ_QUEUE 0 7 1 up)), by decide +kernel⟩,
   ⟨7, let x := withQ 7 wq up; { x with pool := { x.pool with waits := [⟨reqId (.lane 3), 7, true, 0, false⟩] } }, .lane 3, ⟨reqId (.lane
     3), 7, true, 0, false⟩, by decide +kernel⟩,
   ⟨7, let x := withQ 7 { wq with cfg := 0xC000050000000010#64 } up;
     { x with elapsed := 10000000, pool := { x.pool with waits := [⟨reqId (.lane 3), 7, true, 0, false⟩] } }, .lane 3, ⟨reqId (.lane 3),
     7, true, 0, false⟩, by decide +kernel⟩,
   ⟨1, 7, putFM F.POOL_QIDX_Q 0 7 1 up, 0x8000000000000010#64, by decide +kernel⟩,
   ⟨1, withQ 7 wq up, 4095, 0xC0000007#32, by decide +kernel⟩⟩

theorem witness_MemoryCommandsComplete :
    (∃ s : State, ∃ r : CeReport, ∃ rest : List CeReport, s.ecc.queue = r :: rest ∧ ((∀ i < 8, F.SYS_ECC_CELOG_VALID.on i s = false))) ∧
    (∃ s : State, ∃ m : Master, ∃ v : W64, WriteReaches m (R.SYS_REMAP_CMD.addr 0) s ∧ F.SYS_REMAP_RES_BUSY.on 0 s = false ∧
      F.SYS_REMAP_CMD_ADD.of v.toNat = 1) ∧
    (∃ s : State, ∃ inst, ∃ addr, ∃ n, running s = false ∧ s.ecc.remapPend = some (inst, addr) ∧ remapSize inst addr = some n ∧ ((∀ r ∈
      s.ecc.remaps, r.inst = inst → r.addr ≠ addr)) ∧ remapFree s inst n ≠ 0 ∧ s.ecc.marks = []) ∧
    (∃ s : State, F.SYS_JRNL_CFG_EN.on 0 s = true ∧ passed s.ecc.jrnlAt (msCycles (max 10 (F.SYS_JRNL_CFG_INTERVAL.get 0 s)) s) s = true ∧
      Memory.wf s.mem = true) :=
  ⟨⟨{ up with ecc := { up.ecc with queue := [⟨0x6000, 77, 5⟩, ⟨0x6000, 78, 5⟩] } }, ⟨0x6000, 77, 5⟩, [⟨0x6000, 78, 5⟩],
    by decide +kernel⟩,
   ⟨up, 1, (BitVec.ofNat 64 (fv F.SYS_REMAP_CMD_ADD 1 + fv F.SYS_REMAP_CMD_INST 0x6100 + fv F.SYS_REMAP_CMD_ADDR 0xFFFFF)),
     by decide +kernel⟩,
   ⟨{ up with ecc := { up.ecc with remapPend := some (0x6100, 0xFFFFF) } }, 0x6100, 0xFFFFF, 32, by decide +kernel⟩,
   ⟨putF F.SYS_JRNL_CFG_EN 0 1 up, by decide +kernel⟩⟩

theorem witness_SpareCommandsComplete :
    (∃ g : Fin 16, ∃ s : State, ∃ x : SpareLoad, smFind s.pair.spares g = some x ∧ x.done = false ∧ s.ecc.marks = []) ∧
    (∃ m : Master, ∃ g i : Fin 16, ∃ v : W64, ∃ s : State, WriteReaches m (R.GAL_STSET.addr (16 * g + i)) s ∧ s.lock = false ∧
      F.GAL_STSET_XBASE.of v.toNat + F.GAL_STSET_XLEN.of v.toNat ≤ 8192 ∧ F.GAL_STSET_YBASE.of v.toNat + F.GAL_STSET_YLEN.of v.toNat ≤
      8192 ∧ F.GAL_STSET_XLEN.of v.toNat + F.GAL_STSET_YLEN.of v.toNat ≤ 2048) ∧
    (∃ m : Master, ∃ g : Fin 16, ∃ v : W64, ∃ s : State, WriteReaches m (R.GAL_COPY.addr g) s ∧ s.lock = false ∧ ((F.GAL_COPY_EN.of
      v.toNat = 1 → 4096 * F.GAL_COPY_BASE.of v.toNat + 2621440 ≤ dramSize s))) :=
  ⟨⟨3, put R.LANE_ENTRY 54 0x123 (putL R.LANE_FRAME 54 0x20005
    { up with pair := { up.pair with spares := [(3, ⟨54, 51, false⟩)] }, lanes := [(67, lane20)] }), ⟨54, 51, false⟩, by decide +kernel⟩,
   ⟨1, 15, 15, (BitVec.ofNat 64 (fv F.GAL_STSET_XBASE 7168 + fv F.GAL_STSET_XLEN 1024 + fv F.GAL_STSET_YBASE 7168 + fv F.GAL_STSET_YLEN
     1024)), up, by decide +kernel⟩,
   ⟨1, 15, (BitVec.ofNat 64 (fv F.GAL_COPY_EN 1 + fv F.GAL_COPY_BASE 100)), up, by decide +kernel⟩⟩

theorem witness_RoutingCommandsComplete :
    (∃ m : Master, ∃ v : Word, ∃ s : State, ∃ i : Fin 8192, WriteReaches m (R.ROUTE_TBL.addr i) s ∧ edgeDue s = false ∧ srcBad v.toNat =
      false) ∧
    (∃ m : Master, ∃ v : Word, ∃ s : State, ∃ i : Fin 1600, WriteReaches m (R.ROUTE_OUT.addr i) s ∧ edgeDue s = false ∧ srcBad v.toNat =
      false) ∧
    (∃ m : Master, ∃ s : State, ∃ i : Fin 2048, WriteReaches m (R.ROUTE_BUS.addr i) s ∧ edgeDue s = false) ∧
    (∃ m : Master, ∃ s : State, ∃ i : Fin 2048, ∃ w : W64, edgeDue s = false ∧ s.bus.routeStall = [⟨.master m, R.ROUTE_BUS.addr i, .write
      .b4 w⟩]) ∧
    (∃ m : Master, ∃ v : Word, ∃ s : State, ∃ g : Fin 16, ∃ i : Fin 4096, WriteReaches m (R.RAMP_MAP.addr (4096 * g + i)) s ∧ rampMap g s
      = [] ∧ F.RAMP_MAP_EN.on (4096 * g + i) s = false ∧ F.RAMP_MAP_DELIV.of v.toNat = 0) ∧
    (∃ m : Master, ∃ v : Word, ∃ s : State, ∃ i : Fin 32, WriteReaches m (R.ROPE_MAP.addr i) s ∧ (¬ (F.ROPE_MAP_CLK.of v.toNat = 1 ∧
      F.ROPE_MAP_IN.of v.toNat = i))) ∧
    (∃ s : State, s.rope.pending = true) :=
  ⟨⟨1, 0x800006BF, putFM F.ROUTE_PAGE_PAGE 0 7 1 up, 8191, by decide +kernel⟩,
   ⟨1, 0x80000FFF, up, 1599, by decide +kernel⟩,
   ⟨1, up, 2047, by decide +kernel⟩,
   ⟨1, { up with bus := { up.bus with routeStall := [⟨.master 1, R.ROUTE_BUS.addr 2047, .write .b4 0xFFFFFFFF⟩] } }, 2047, 0xFFFFFFFF,
     by decide +kernel⟩,
   ⟨1, (BitVec.ofNat 32 (fv F.RAMP_MAP_EN 1 + fv F.RAMP_MAP_LANE 255 + fv F.RAMP_MAP_ADDR 4095)), up, 15, 4095, by decide +kernel⟩,
   ⟨1, (BitVec.ofNat 32 (fv F.ROPE_MAP_EN 1 + fv F.ROPE_MAP_CLK 1 + fv F.ROPE_MAP_IN 30)), up, 31, by decide +kernel⟩,
   ⟨{ up with rope := { up.rope with live := true, pending := true } }, by decide +kernel⟩⟩

theorem witness_DelayCommandsComplete :
    (∃ s : State, s.dly.busy = true) ∧
    (∃ m : Master, ∃ v : W64, ∃ s : State, ∃ i : Fin 1024, WriteReaches m (R.DRAM_DLY_LINE.addr i) s ∧ ((F.DRAM_DLY_LINE_EN.of v.toNat = 1
      → 0 < F.DRAM_DLY_LINE_GROUPS.of v.toNat ∧ 4096 * F.DRAM_DLY_LINE_BASE.of v.toNat + 40 * F.DRAM_DLY_LINE_GROUPS.of v.toNat ≤ dramSize
      s ∧ F.DRAM_DLY_LINE_IN_ADDR.of v.toNat % 32 = 0 ∧ F.DRAM_DLY_LINE_IN_ADDR.of v.toNat ≤ 261088))) ∧
    (∃ m : Master, ∃ v : W64, ∃ s : State, ∃ i : Fin 2048, WriteReaches m (R.DRAM_DLY_TAP.addr i) s ∧ tapInRange s (F.DRAM_DLY_TAP_LINE.of
      v.toNat) (F.DRAM_DLY_TAP_DELAY.of v.toNat) = true ∧ F.DRAM_DLY_TAP_OUT_ADDR.of v.toNat % 32 = 0 ∧ F.DRAM_DLY_TAP_OUT_ADDR.of v.toNat
      ≤ 261088) ∧
    (∃ s : State, ∃ g : Fin 16, ∃ q : Nat, ∃ c : Fin 65536, F.GDMA_CFG_EN.on g s = true ∧ F.GDMA_CFG_QUEUE.get g s = q ∧ (gdmaAt s g).job
        = none ∧ isItemQ (queueAt s q) = true ∧ (queueAt s q).broken = false ∧ smFind s.pool.popped (dmaId g) = none ∧ (queueAt s q).head
        = c ∧ c.val ≠ 0 ∧ 0 < (queueAt s q).depth ∧ tagLast (tagOf s c) = true ∧ s.ecc.marks = [] ∧
        let w (i : Nat) := memLe s.mem (cellAddr c + 4 * i) 4;
        jobRegion s (w 0 / 8 * 8) (8 * (w 2 % 65536 + 1)) = true ∧ w 1 % 2 ^ 18 + (w 2 % 65536 + 1) ≤ 261120) ∧
    (∃ s : State, ∃ g : Fin 16, ∃ j : GdmaJob, (gdmaAt s g).job = some j ∧ s.ecc.marks = []) :=
  ⟨⟨{ up with dly := { up.dly with busy := true } }, by decide +kernel⟩,
   ⟨1, (BitVec.ofNat 64 (line 0 1 261088)), up, 1023, by decide +kernel⟩,
   ⟨1, (BitVec.ofNat 64 (tap 5 (3 * 32 + 7) 261088)), putL R.DRAM_DLY_LINE 5 (line 0 100 0) up, 2047, by decide +kernel⟩,
   ⟨jobS 0x30000005 0x80000010 0x30F, 3, 7, 700, by decide +kernel⟩,
   ⟨{ jobS 0x30000005 0x80000010 0x30F with gdma := [(3, { gdmaReset with job := some ⟨700, 0x30000000, true, 16, 784, 9, 0x55, false⟩ })] },
     3, ⟨700, 0x30000000, true, 16, 784, 9, 0x55, false⟩, by decide +kernel⟩⟩

theorem witness_MicCommandsComplete :
    (∃ m : Master, ∃ s : State, ∃ i : Fin 16, ∃ v : Word, WriteReaches m (R.PDM_CLK.addr i) s ∧ 16 ≤ F.PDM_CLK_DIV.of v.toNat ∧
      F.PDM_CLK_DIV.of v.toNat ≤ 96 ∧ 1024000 * F.PDM_CLK_DIV.of v.toNat ≤ fB s) ∧
    (∃ m : Master, ∃ s : State, ∃ i : Fin 64, ∃ v : W64, WriteReaches m (R.DEC_MIC.addr i) s ∧ F.DEC_MIC_ORDER.of v.toNat < 3 ∧
      F.DEC_MIC_RLOG.of v.toNat < 5 ∧ F.DEC_MIC_H.of v.toNat < 3 ∧ ((F.DEC_MIC_FINE_EN.of v.toNat = 1 → fineOk (rated s) i v.toNat =
      true))) ∧
    (∃ s : State, ∃ i : Fin 64, (micAt s i).mute = 1) ∧
    (∃ s : State, ∃ i : Fin 64, s.clk.lockB = true ∧ micClocked s i = true ∧ F.DEC_MIC_FINE_EN.liveOn i s = true ∧ fineOk s i
      (R.DEC_MIC.liveVal i s) = true) ∧
    (∃ s : State, ∃ i : Fin 64, s.clk.lockB = true ∧ micClocked s i = true ∧ F.DEC_MIC_FAST_EN.liveOn i s = true) ∧
    (∃ s : State, s.dec.trim.due = true ∧ F.DEC_ID_CFG_MODE.get 0 s = 2) ∧
    (∃ s : State, ∃ k : Fin 256, ∃ e : Nat, s.dec.trim.sel = [(k.val, e)] ∧ e ≤ tickNum s ∧ F.DEC_ID_CFG_MODE.get 0 s = 2) ∧
    (∃ m : Master, ∃ s : State, WriteReaches m (R.DEC_ID_CMD.addr 0) s) ∧
    (∃ m : Master, ∃ s : State, ∃ v : Word, WriteReaches m (R.DEC_ID_TIME.addr 0) s ∧ s.lock = false ∧ F.DEC_ID_TIME_COMP_T.of v.toNat ≠ 0
      ∧ F.DEC_ID_TIME_FADE_T.of v.toNat ≠ 0 ∧ F.DEC_ID_TIME_COMP_T.of v.toNat + 1 + F.DEC_ID_TIME_FADE_T.of v.toNat ≤
      F.DEC_ID_TIME_UPD_T.of v.toNat) :=
  ⟨⟨1, up, 15, (BitVec.ofNat 32 (fv F.PDM_CLK_EN 1 + 16)), by decide +kernel⟩,
   ⟨1, up, 63, (BitVec.ofNat 64 (mv 2 3 0)), by decide +kernel⟩,
   ⟨put R.DEC_MUTED 0 0xC000000000000000 { up with dec := { up.dec with mics := [(63, { micReset with mute := 1 })] } }, 63,
     by decide +kernel⟩,
   ⟨micS F.DEC_MIC_FINE_EN 3 0 2, 37, by decide +kernel⟩,
   ⟨micS F.DEC_MIC_FAST_EN 3 0 2, 37, by decide +kernel⟩,
   ⟨putF F.DEC_ID_CH_BANDS 5 15 (putF F.DEC_ID_CH_EN 5 1 (putF F.DEC_ID_PROP_TRIM 95 0x7FFFF (putF F.DEC_ID_TRIM_TRIM 95 0xFFFF0 (putF
     F.DEC_ID_CFG_MODE 0 2 (trimS { up.dec.trim with due := true, clipped := [3], enabled := [0] } up))))), by decide +kernel⟩,
   ⟨putF F.DEC_ID_CFG_MODE 0 2 (putF F.DEC_ID_TIME_FADE_T 0 77 (trimS { up.dec.trim with sel := [(255,0)] } up)), 255, 0,
     by decide +kernel⟩,
   ⟨1, up, by decide +kernel⟩,
   ⟨1, up, (BitVec.ofNat 32 (fv F.DEC_ID_TIME_COMP_T 1 + fv F.DEC_ID_TIME_FADE_T 3 + fv F.DEC_ID_TIME_UPD_T 5)), by decide +kernel⟩⟩

theorem witness_SerialCommandsComplete :
    (∃ m : Master, ∃ n : Fin 32, ∃ s : State, ∃ v : Word, WriteReaches m (R.SAP_CLK.addr n) s ∧ F.SAP_CLK_FMT.of v.toNat < 3 ∧
      F.SAP_CLK_SLOTW.of v.toNat < 3 ∧ 2 ≤ slotCount v.toNat ∧ ((F.SAP_CLK_FMT.of v.toNat < 2 → slotCount v.toNat = 2)) ∧
      ((F.SAP_CLK_MST.of v.toNat = 1 → fB s / fsHz (rated s) % (2 * slotCount v.toNat * slotBits v.toNat) = 0))) ∧
    (∃ m : Master, ∃ n : Fin 32, ∃ s : State, ∃ tx : Bool, ∃ v : Word, WriteReaches m ((if tx then R.SAP_TXSLOT else R.SAP_RXSLOT).addr n)
      s ∧ F.SAP_RXCFG_BASE.of ((if tx then R.SAP_TXCFG else R.SAP_RXCFG).val n s) + bitsBelow v.toNat 32 ≤ 512) ∧
    (∃ m : Master, ∃ n : Fin 32, ∃ s : State, ∃ tx : Bool, ∃ v : Word, WriteReaches m ((if tx then R.SAP_TXCFG else R.SAP_RXCFG).addr n) s
      ∧ F.SAP_RXCFG_BASE.of v.toNat + bitsBelow ((if tx then R.SAP_TXSLOT else R.SAP_RXSLOT).val n s) 32 ≤ 512 ∧ ((tx = false →
      F.SAP_RXCFG_EN.of v.toNat = 1 → ∀ q < 32, q ≠ n.val → F.SAP_RXCFG_EN.on q s = true → chansOverlap (F.SAP_RXCFG_BASE.of v.toNat)
      (R.SAP_RXSLOT.val n s) (F.SAP_RXCFG_BASE.get q s) (R.SAP_RXSLOT.val q s) = false))) ∧
    (∃ n : Fin 32, ∃ s : State, sapClocked s n 0 = true ∧ sapAsrc s n 0 = false ∧ (sapAt s n 0).st = .run ∧ (sapAt s n 0).block ≠ [] ∧
      (sapAt s n 0).block.length + 1 < spt s) ∧
    (∃ n : Fin 32, ∃ s : State, sapClocked s n 1 = true ∧ sapAsrc s n 1 = false ∧ (sapAt s n 1).st = .run ∧ (sapAt s n 1).next % spt s ≠
      0) ∧
    (∃ n : Fin 32, ∃ s : State, ∃ d : Dir,
        let k := match d with | .rx => 0 | .tx => 1;
        sapAsrc s n k = true ∧ (sapAt s n k).st = .locked) ∧
    (∃ m : Master, ∃ s : State, WriteReaches m (R.SAP_START_CMD.addr 0) s ∧ F.SAP_START_STAT_PEND.on 0 s = false) ∧
    (∃ m : Master, ∃ s : State, WriteReaches m (R.SAP_START_CMD.addr 0) s ∧ F.SAP_START_STAT_PEND.on 0 s = false ∧ 2 ≤
      (F.SAP_START_AT_AT.get 0 s + 2 ^ 32 - tickHere s % 2 ^ 32) % 2 ^ 32 ∧ (F.SAP_START_AT_AT.get 0 s + 2 ^ 32 - tickHere s % 2 ^ 32) % 2
      ^ 32 ≤ 2 ^ 31) ∧
    (∃ s : State, running s = false ∧ F.SAP_START_STAT_PEND.on 0 s = true ∧ s.sap.startAt = none) :=
  ⟨⟨1, 31, up, (BitVec.ofNat 32 (fv F.SAP_CLK_MST 1 + fv F.SAP_CLK_FMT 0 + fv F.SAP_CLK_SLOTW 2 + fv F.SAP_CLK_NSLOT 1)),
    by decide +kernel⟩,
   ⟨1, 31, putF F.SAP_TXCFG_BASE 31 480 up, true, 0xFFFFFFFF#32, by decide +kernel⟩,
   ⟨1, 31, put R.SAP_TXSLOT 31 0xFFFFFFFF (putF F.SAP_RXCFG_EN 3 1 up), true, (BitVec.ofNat 32 (fv F.SAP_RXCFG_EN 1 + 480)),
     by decide +kernel⟩,
   ⟨31, sapS 31 0 { sapDirReset with st := .run, block := [[3,4]], next := 9 } (putLF F.SAP_RXCFG_CKPORT 31 2 (lb ticking)),
     by decide +kernel⟩,
   ⟨31, sapS 31 1 { sapDirReset with st := .run, next := 9 } (lb ticking), by decide +kernel⟩,
   ⟨31, putLF F.SAP_RXCFG_MODE 31 1 (sapS 31 0 { sapDirReset with st := .locked, block := [[3,4]], good := 9 } (lb ticking)), .rx,
     by decide +kernel⟩,
   ⟨1, up, by decide +kernel⟩,
   ⟨1, putF F.SAP_START_AT_AT 0 2 up, by decide +kernel⟩,
   ⟨putF F.SAP_START_STAT_PEND 0 1 (put R.SAP_START_RX 0 0xFFFFFFFF (putLF F.SAP_RXCFG_EN 31 1 (putLF F.SAP_RXCFG_ARM 31 1 (sapS 31 0
     { sapDirReset with st := .armed } up)))), by decide +kernel⟩⟩

theorem witness_SenseCommandsComplete :
    (∃ s : State, ∃ k : Fin 4, s.clk.lockB = true ∧ bitOf (F.SENSE_CTRL_EN.get 0 s) k = true) ∧
    (∃ s : State, ∃ m : Master, ∃ i : Fin 128, ∃ v : Word, WriteReaches m (R.SENSE_PT.addr i) s ∧ F.SENSE_PT_KIND.of v.toNat < 3 ∧
      ((F.SENSE_PT_EN.of v.toNat = 1 → (F.SENSE_PT_KIND.of v.toNat ≠ 0 → F.SENSE_PT_OWNER.of v.toNat ≤ 7) ∧ ∀ q < 128, q ≠ i.val →
      F.SENSE_PT_EN.on q s = true → ¬ (F.SENSE_PT_KIND.get q s = F.SENSE_PT_KIND.of v.toNat ∧ F.SENSE_PT_OWNER.get q s =
      F.SENSE_PT_OWNER.of v.toNat)))) :=
  ⟨⟨putF F.SENSE_CTRL_EN 0 15 (lb up), 3, by decide +kernel⟩,
   ⟨up, 1, 127, (BitVec.ofNat 32 (fv F.SENSE_PT_EN 1 + fv F.SENSE_PT_KIND 2 + fv F.SENSE_PT_OWNER 7 + fv F.SENSE_PT_SCALE 5)),
     by decide +kernel⟩⟩

theorem witness_ModulatorCommandsComplete :
    (∃ c : Fin 64, ∃ s : State, chanSt s c = 0 ∧ (chanAt s c).ben = false ∧ (chanAt s c).lowIn = 0 ∧ (chanAt s c).dis = 0) ∧
    (∃ c : Fin 64, ∃ s : State, chanSt s c = 4 ∧ (chanAt s c).dis = 0) ∧
    (∃ m : Master, ∃ s : State, WriteReaches m (R.MOD_START.addr 0) s) ∧
    (∃ m : Master, ∃ s : State, WriteReaches m (R.MOD_STOP.addr 0) s) ∧
    (∃ m : Master, ∃ c : Fin 64, ∃ mask : W64, ∃ s : State, WriteReaches m (R.MOD_FCLR.addr 0) s ∧ bitOf mask.toNat c = true ∧ chanSt s c
      = 7 ∧ modFollows s = false ∧ causePresent s c = false) ∧
    (∃ m : Master, ∃ c : Fin 64, ∃ v : W64, ∃ s : State, WriteReaches m (R.MOD_CH.addr c) s ∧ (chanActive s c = false ∨ (F.MOD_CH_GROUP.of
      v.toNat = F.MOD_CH_GROUP.get c s ∧ F.MOD_CH_PHASE.of v.toNat = F.MOD_CH_PHASE.get c s))) ∧
    (∃ c : Fin 64, ∃ s : State, chanSt s c = 1 ∧ modFollows s = false ∧ (chanAt s c).step = some .s ∧ (chanAt s c).stepLeft = 0) ∧
    (∃ c : Fin 64, ∃ s : State, chanSt s c = 1 ∧ modFollows s = false ∧ (chanAt s c).step = some .e ∧ (chanAt s c).stepLeft = 0) ∧
    (∃ c : Fin 64, ∃ s : State, ∃ g : Fin 8, (railAt s g).diagWait = true ∧ passed (railAt s g).diagAt (msCycles 50 s) s = true ∧
      modFollows s = false ∧ chanGroup s c = g ∧ chanSt s c = 1 ∧ (chanAt s c).queued = true) ∧
    (∃ c : Fin 64, ∃ s : State, chanSt s c = 4) ∧
    (∃ s : State, ∃ g : Fin 8, F.RAIL_GCFG_EN.liveOn g s = true ∧ modFollows s = false ∧ railRow s g = 3) :=
  ⟨⟨63, up, by decide +kernel⟩,
   ⟨63, putF F.MOD_STAT_STATE 63 4 (chS 63 { modReset with gNum := 1, gDen := 2, ben := true } up), by decide +kernel⟩,
   ⟨1, up, by decide +kernel⟩,
   ⟨1, up, by decide +kernel⟩,
   ⟨1, 63, 0xFFFFFFFFFFFFFFFF, putF F.MOD_STAT_FCAUSE 63 0 (putF F.MOD_STAT_STATE 63 7 (chS 63 modReset up)), by decide +kernel⟩,
   ⟨1, 63, 0xFFFFFFFFFFFFFFFF, up, by decide +kernel⟩,
   ⟨63, putF F.MOD_STAT_STATE 63 1 (chS 63 { modReset with step := some .s } up), by decide +kernel⟩,
   ⟨63, putF F.MOD_STAT_STATE 63 1 (chS 63 { modReset with step := some .e } up), by decide +kernel⟩,
   ⟨63, putLF F.MOD_CH_GROUP 63 0 <| raS 0 { railReset with diagWait := true } (putF F.MOD_STAT_STATE 63 1 (chS 63
     { modReset with queued := true } up)), 0, by decide +kernel⟩,
   ⟨63, putF F.MOD_STAT_STATE 63 4 (chS 63 { modReset with gNum := 1, gDen := 2, ben := true } up), by decide +kernel⟩,
   ⟨putLF F.RAIL_GCFG_EN 7 1 (putLF F.RAIL_GV2_VPARK 7 500 (putLF F.RAIL_GCFG_RISE 7 3 (putF F.RAIL_STAT_VCMD 7 490 up))), 7,
     by decide +kernel⟩⟩

theorem witness_EthernetCommandsComplete :
    (∃ p : Port, ∃ s : State, ∃ f : Frame, ∃ c v : Nat, s.pwr.vdd = true ∧ s.pwr.listen = false ∧ F.ETH_PCFG_EN.on p s = true ∧ linkUp s p
      = true ∧ GrantsCell (F.ETH_PQ_RXQ.get p s) c s ∧ 64 ≤ f.length ∧ f.length ≤ 240 ∧ f.length ≤ maxLenAt s (frameStart s p f.length) ∧
      fcsOk f = true ∧ frType f ≠ 0x8808 ∧ vlanOf s (frVlan f (F.ETH_PCFG_PVID.get p s) (F.ETH_PCFG_PCP.get p s)).1 = some v ∧ bitOf
      (F.ETH_VLAN_MEMBER.get v s) p = true) ∧
    (∃ p : Port, ∃ s : State, ∃ i, ∃ rest, ∃ y, ∃ f, F.ETH_PCFG_EN.on p s = true ∧ linkUp s p = true ∧ (portAt s p).sending = none ∧
      asleep s = false ∧ F.ETH_SWCFG_GATE_EN.on 0 s = false ∧ (portAt s p).q3 = i :: rest ∧ itemAt s i = some y ∧ ((inSafe s = false ∨
      y.stream = false)) ∧ s.ecc.marks = [] ∧ egressBytes s p y (itemBytes s y) = some f) ∧
    (∃ p : Port, ∃ s : State, ∃ i, ∃ rest, F.ETH_PCFG_EN.on p s = true ∧ linkUp s p = true ∧ (portAt s p).sending = none ∧ asleep s =
      false ∧ F.ETH_SWCFG_GATE_EN.on 0 s = false ∧ inSafe s = true ∧ (portAt s p).q3 = i :: rest ∧ (portAt s p).q2 = [] ∧ (portAt s p).q1
      = [] ∧ (portAt s p).q0 = [] ∧ ((∀ j ∈ i :: rest, ∃ y, itemAt s j = some y ∧ y.stream = true))) ∧
    (∃ p : Port, ∃ s : State, ∃ i, (portAt s p).sending = some i) ∧
    (∃ s : State, s.eth.window = true) ∧
    (∃ p : Port, ∃ s : State, F.ETH_PSTAT_LINK.on p s = false ∧ F.ETH_PCFG_EN.on p s = true ∧ s.clk.lockC = true ∧ ((s.pwr.listen = false
      ∨ p = 0))) ∧
    (∃ p : Port, ∃ s : State, F.ETH_PSTAT_LINK.on p s = true) ∧
    (∃ m : Master, ∃ p : Port, ∃ s : State, ∃ v : Word, WriteReaches m (R.ETH_PCFG.addr p) s ∧ F.ETH_PCFG_EN.on p s = false ∧
      F.ETH_PCFG_MODE.of v.toNat < 3) ∧
    (∃ p : Port, ∃ s : State, (portAt s p).stopping = true ∧ (portAt s p).sending = none) ∧
    (∃ m : Master, ∃ s : State, ∃ v : Word, WriteReaches m (R.ETH_GATE.addr 0) s ∧ F.ETH_GATE_OPEN.of v.toNat < F.ETH_GATE_CLOSE.of
      v.toNat ∧ F.ETH_GATE_CLOSE.of v.toNat * fsHz (rated s) ≤ spt (rated s) * 1000000000) ∧
    (∃ m : Master, ∃ s : State, WriteReaches m (R.ETH_AT_CMD.addr 0) s) ∧
    (∃ m : Master, ∃ s : State, ∃ i : Fin 256, ∃ x : AtEntry, WriteReaches m (R.ETH_AT_CMD.addr 0) s ∧ smFind s.eth.at_ i = some x) ∧
    (∃ s : State, ∃ c, ∃ v, asleep s = false ∧ HoldsItem swId (F.ETH_P4TX_QUEUE.get 0 s) c s ∧
        let bs := cellsRead s [c];
        64 ≤ fieldLe bs 0 2 ∧ fieldLe bs 0 2 ≤ 240 ∧ vlanOf s (frVlan ((bs.drop 16).take (fieldLe bs 0 2)) (fieldLe bs 4 2 % 4096)
          (fieldLe bs 4 2 / 8192)).1 = some v ∧ bitOf (F.ETH_VLAN_MEMBER.get v s) 4 = true) ∧
    (∃ m : Master, ∃ s : State, ∃ v : Word, WriteReaches m (R.ETH_MGMT.addr 0) s ∧ s.lock = false ∧ ((F.ETH_MGMT_EN.of v.toNat = 1 →
      F.ETH_MGMT_ETYPE.of v.toNat ≠ 0))) :=
  ⟨⟨2, putF F.ETH_PQ_RXQ 2 7 (withQ 7 { iq with used := 3 } (net up)), (fr 46), 512, 63, and_assoc.mp ⟨by decide +kernel, and_assoc.mp
    ⟨by decide +kernel, ⟨grantsCell_of (by decide +kernel), by decide +kernel⟩⟩⟩⟩,
   ⟨2, let x := ethP { ethPortReset with q3 := [4, 5] } (net up); { x with eth := { x.eth with items := [(4, itm 50), (5, itm 60)] } }, 4,
     [5], (itm 50), ((egressBytes (let x := ethP { ethPortReset with q3 := [4, 5] } (net up);
     { x with eth := { x.eth with items := [(4, itm 50), (5, itm 60)] } }) 2 (itm 50) (fr 50)).getD []), by decide +kernel⟩,
   ⟨2, putF F.SUMP_STAT_STATE 0 2 (let x := ethP { ethPortReset with q3 := [4] } (net up);
     { x with eth := { x.eth with items := [(4, { itm 50 with stream := true })] } }), 4, [], by decide +kernel⟩,
   ⟨2, let x := ethP { ethPortReset with sending := some 4 } (net up); { x with eth := { x.eth with items := [(4, itm 50)] } }, 4,
     by decide +kernel⟩,
   ⟨{ up with eth := { up.eth with window := true } }, by decide +kernel⟩,
   ⟨2, putF F.ETH_PSTAT_LINK 2 0 (net { up with clk := { up.clk with lockC := true } }), by decide +kernel⟩,
   ⟨2, let x := ethP { ethPortReset with sending := some 4, q3 := [5] } (net up);
     { x with eth := { x.eth with items := [(4, itm 50), (5, itm 60)] } }, by decide +kernel⟩,
   ⟨1, 2, up, (BitVec.ofNat 32 (fv F.ETH_PCFG_EN 1 + fv F.ETH_PCFG_MODE 2 + fv F.ETH_PCFG_PVID 4095)), by decide +kernel⟩,
   ⟨2, let x := ethP { ethPortReset with stopping := true, q3 := [5] } (net up); { x with eth := { x.eth with items := [(5, itm 60)] } },
     by decide +kernel⟩,
   ⟨1, up, (BitVec.ofNat 32 (fv F.ETH_GATE_OPEN 5 + fv F.ETH_GATE_CLOSE 6)), by decide +kernel⟩,
   ⟨1, (R.ETH_AT_KEY.set 0 0x123 1).run ((R.ETH_AT_ACT.set 0 0x80000003 1).run up), by decide +kernel⟩,
   ⟨1, { up with eth := { up.eth with at_ := [(255, ⟨0x55, 0xFFFFFFFFFFFF, 0x80000003⟩)] } }, 255, ⟨0x55, 0xFFFFFFFFFFFF, 0x80000003⟩,
     by decide +kernel⟩,
   ⟨itemS (bytesLe 2 64 ++ bytesLe 2 0 ++ bytesLe 2 0x6005 ++ List.replicate 10 0 ++ fr 46) (putF F.ETH_P4TX_QUEUE 0 7 (net up)), 700, 63,
     by decide +kernel, holdsItem_of (by decide +kernel), by decide +kernel⟩,
   ⟨1, up, (BitVec.ofNat 32 (fv F.ETH_MGMT_EN 1 + fv F.ETH_MGMT_ETYPE 0x88B6)), by decide +kernel⟩⟩

theorem witness_ManagementCommandsComplete :
    (∃ s : State, asleep s = false ∧ ∃ c, ∃ r₀, ∃ r, s.eth.mgmt = none ∧ F.ETH_MGMT_EN.on 0 s = true ∧ HoldsItem swId
      (F.ETH_MGMT_Q_QUEUE.get 0 s) c s ∧ mgmtParse [c] (cellsRead s [c]) = (r₀, true) ∧ (r =
      { r₀ with tagged := (smFind s.eth.tagged c).getD r₀.tagged, since := s.elapsed }) ∧ r.addr = R.XBAR_AGE.addr 0 ∧ mgmtHead s = some 1
      ∧ r.write = false) ∧
    (∃ s : State, asleep s = false ∧ ∃ c, ∃ r₀, ∃ r, s.eth.mgmt = none ∧ F.ETH_MGMT_EN.on 0 s = true ∧ HoldsItem swId
      (F.ETH_MGMT_Q_QUEUE.get 0 s) c s ∧ mgmtParse [c] (cellsRead s [c]) = (r₀, true) ∧ (r =
      { r₀ with tagged := (smFind s.eth.tagged c).getD r₀.tagged, since := s.elapsed }) ∧ r.addr = R.XBAR_AGE.addr 0 ∧ mgmtHead s = some 2
      ∧ r.write = true ∧ s.lock = false ∧ standbyDrops 2 (R.XBAR_AGE.addr 0) s = false) ∧
    (∃ s : State, asleep s = false ∧ ∃ r, s.eth.mgmt = some r ∧ accessPends 2 s = false ∧ r.count ≤ r.done + 1) ∧
    (∃ s : State, asleep s = false ∧ ∃ r, s.eth.mgmt = some r ∧ passed r.since (msCycles (max 1 (F.ETH_MGMT_Q_TMO.get 0 s)) s) s = true)
      :=
  ⟨⟨mg (mreq 1 (R.XBAR_AGE.addr 0) 1 []), by decide +kernel, 700, (mgmtParse [700] (cellsRead (mg (mreq 1 (R.XBAR_AGE.addr 0) 1 []))
    [700])).1,
    ({ (mgmtParse [700] (cellsRead (mg (mreq 1 (R.XBAR_AGE.addr 0) 1 [])) [700])).1 with tagged := (smFind (mg (mreq 1 (R.XBAR_AGE.addr 0) 1 [])).eth.tagged 700).getD (mgmtParse [700] (cellsRead (mg (mreq 1 (R.XBAR_AGE.addr 0) 1 [])) [700])).1.tagged, since := (mg (mreq 1 (R.XBAR_AGE.addr 0) 1 [])).elapsed }),
    by decide +kernel, by decide +kernel, holdsItem_of (by decide +kernel), by decide +kernel⟩,
   ⟨mg (mreq 2 (R.XBAR_AGE.addr 0) 2 [0,0,0,0x33,0,0,0,4]), by decide +kernel, 700, (mgmtParse [700] (cellsRead (mg (mreq 2
     (R.XBAR_AGE.addr 0) 2 [0,0,0,0x33,0,0,0,4])) [700])).1,
     ({ (mgmtParse [700] (cellsRead (mg (mreq 2 (R.XBAR_AGE.addr 0) 2 [0,0,0,0x33,0,0,0,4])) [700])).1 with tagged := (smFind (mg (mreq 2 (R.XBAR_AGE.addr 0) 2 [0,0,0,0x33,0,0,0,4])).eth.tagged 700).getD (mgmtParse [700] (cellsRead (mg (mreq 2 (R.XBAR_AGE.addr 0) 2 [0,0,0,0x33,0,0,0,4])) [700])).1.tagged, since := (mg (mreq 2 (R.XBAR_AGE.addr 0) 2 [0,0,0,0x33,0,0,0,4])).elapsed }),
     by decide +kernel, by decide +kernel, holdsItem_of (by decide +kernel), by decide +kernel⟩,
   ⟨let x := mg []; { x with eth := { x.eth with mgmt := some q2 } }, by decide +kernel, q2, by decide +kernel⟩,
   ⟨let x := mg []; { x with eth := { x.eth with mgmt := some q2 } }, by decide +kernel, q2, by decide +kernel⟩⟩

theorem witness_T1sCommandsComplete :
    (∃ s : State, ∃ f : Frame, ∃ c : Nat, s.pwr.vdd = true ∧ s.pwr.listen = false ∧ F.T1S_CFG_EN.on 0 s = true ∧ GrantsCell
      (F.EZ_Q_RPLQ.get 0 s) c s ∧ 64 ≤ f.length ∧ f.length ≤ 240 ∧ fcsOk f = true) ∧
    (∃ s : State, ∃ f, ∃ rest, t1sOn s = true ∧ F.T1S_CFG_PLCA.on 0 s = false ∧ s.t1s.backoff = none ∧ s.t1s.safeMute = false ∧
      s.t1s.queue = f :: rest) ∧
    (∃ s : State, ∃ f, ∃ rest, t1sOn s = true ∧ s.t1s.backoff = none ∧ s.t1s.queue = f :: rest ∧ s.t1s.colls ≠ 15) ∧
    (∃ s : State, ∃ f, ∃ rest, t1sOn s = true ∧ s.t1s.backoff = none ∧ s.t1s.queue = f :: rest ∧ s.t1s.colls = 15) ∧
    (∃ s : State, passed s.t1s.backoffAt (t1sBits s (512 * s.t1s.backoff.getD 0)) s = true) ∧
    (∃ s : State, t1sOn s = true ∧ F.T1S_CFG_PLCA.on 0 s = true ∧ s.t1s.plcaId = none) ∧
    (∃ s : State, ∃ f, ∃ rest, t1sOn s = true ∧ s.t1s.plcaId = some 0 ∧ s.t1s.backoff = none ∧ s.t1s.safeMute = false ∧ s.t1s.queue = f ::
      rest) ∧
    (∃ s : State, ∃ k, s.t1s.plcaId = some (k + 1) ∧ passed s.t1s.plcaAt (t1sBits s (max 1 (F.T1S_CFG_TO.get 0 s))) s = true) ∧
    (∃ m : Master, ∃ s : State, WriteReaches m (R.T1S_CFG.addr 0) s ∧ F.T1S_CFG_EN.on 0 s = false) :=
  ⟨⟨putF F.EZ_Q_RPLQ 0 7 (withQ 7 { iq with used := 3 } (t1 up)), (fr 46), 512, and_assoc.mp ⟨by decide +kernel, ⟨by decide +kernel,
    grantsCell_of (by decide +kernel), by decide +kernel⟩⟩⟩,
   ⟨t1q up, (fr 50), [fr 60], by decide +kernel⟩,
   ⟨let x := t1q up; { x with t1s := { x.t1s with colls := 0 } }, (fr 50), [fr 60], by decide +kernel⟩,
   ⟨let x := t1q up; { x with t1s := { x.t1s with colls := 15 } }, (fr 50), [fr 60], by decide +kernel⟩,
   ⟨let x := t1q up; { x with t1s := { x.t1s with backoff := some 3 } }, by decide +kernel⟩,
   ⟨putF F.T1S_CFG_PLCA 0 1 (t1q up), by decide +kernel⟩,
   ⟨let x := putF F.T1S_CFG_PLCA 0 1 (t1q up); { x with t1s := { x.t1s with plcaId := some 0 } }, (fr 50), [fr 60], by decide +kernel⟩,
   ⟨let x := putF F.T1S_CFG_PLCA 0 1 (t1q up); { x with t1s := { x.t1s with plcaId := some 4 } }, 3, by decide +kernel⟩,
   ⟨1, up, by decide +kernel⟩⟩

theorem witness_EztasiaCommandsComplete :
    (∃ a : Fin 32, ∃ s : State, ezOn s = true ∧ ∃ i : Instr, ∃ ty c : Nat, (i, ty) ∈ [(Instr.ezDiscover, 0x01), (.ezSet, 0x10), (.ezGet,
      0x12), (.ezMute, 0x30)] ∧ inSafe s = false ∧ HoldsItem t1sId (F.EZ_Q_CMDQ.get 0 s) c s ∧ ezValid (cellsRead s [c]) = true ∧ ezType
      (cellsRead s [c]) = ty ∧ fieldBe (cellsRead s [c]) 4 1 = a ∧ smFind s.t1s.out a = none) ∧
    (∃ s : State, ezOn s = true ∧ ∃ c, inSafe s = false ∧ HoldsItem t1sId (F.EZ_Q_CMDQ.get 0 s) c s ∧ ezValid (cellsRead s [c]) = true ∧
      ezType (cellsRead s [c]) = 0x01 ∧ fieldBe (cellsRead s [c]) 4 1 = 255) ∧
    (∃ a : Fin 32, ∃ s : State, ezOn s = true ∧ F.EZ_TIME_POLL_MS.get 0 s ≠ 0 ∧ passed s.t1s.pollAt (msCycles (F.EZ_TIME_POLL_MS.get 0 s)
      s) s = true ∧ F.EZ_ELEM_EN.on a s = true ∧ smFind s.t1s.out a = none) ∧
    (∃ a : Fin 32, ∃ msg : List Byte, ∃ s : State, ezOn s = true ∧ ezValid msg = true ∧ fieldBe msg 5 1 = a ∧ ezType msg = 0x02 ∧ fieldBe
      msg 2 2 ∈ s.t1s.discover.map (·.1)) ∧
    (∃ a : Fin 32, ∃ src : BitVec 48, ∃ msg : List Byte, ∃ s : State, ezOn s = true ∧ ∃ i : Instr, ∃ ty : Nat, ∃ x : EzTrans, (i, ty) ∈
      [(Instr.ezAck src msg, 0x11), (.ezValue src msg, 0x13), (.ezNak src msg, 0x7F)] ∧ ezValid msg = true ∧ fieldBe msg 5 1 = a ∧ ezType
      msg = ty ∧ smFind s.t1s.out a = some x ∧ x.seq = fieldBe msg 2 2 ∧ s.t1s.waiting = []) ∧
    (∃ a : Fin 32, ∃ msg : List Byte, ∃ s : State, ezOn s = true ∧ ∃ x : EzTrans, ezValid msg = true ∧ fieldBe msg 5 1 = a ∧ ezType msg =
      0x21 ∧ smFind s.t1s.out a = some x ∧ x.seq = fieldBe msg 2 2 ∧ s.t1s.waiting = []) ∧
    (∃ a : Fin 32, ∃ msg : List Byte, ∃ s : State, ezOn s = true ∧ ezValid msg = true ∧ fieldBe msg 5 1 = a ∧ ezType msg = 0x40) ∧
    (∃ a : Fin 32, ∃ s : State, ezOn s = true ∧ ∃ x : EzTrans, smFind s.t1s.out a = some x ∧ ezDue s x.sentAt = true ∧ 0 < x.left) ∧
    (∃ s : State, ezOn s = true ∧ ∃ d, ∃ rest, s.t1s.discover = d :: rest ∧ ezDue s d.2 = true) :=
  ⟨⟨31, ezi (ezv 1 0 31 0xFE [1,2,3]), by decide +kernel, .ezDiscover, 1, 700, by decide +kernel, by decide +kernel, holdsItem_of
    (by decide +kernel), by decide +kernel⟩,
   ⟨ezi (ezv 1 0 255 0xFE []), by decide +kernel, 700, by decide +kernel, holdsItem_of (by decide +kernel), by decide +kernel⟩,
   ⟨31, putF F.EZ_TIME_POLL_MS 0 5 (putF F.EZ_ELEM_EN 31 1 (putF F.EZ_ELEM_EN 3 1 (ez up))), by decide +kernel⟩,
   ⟨31, (ezv 2 9 0xFE 31 [1]), let x := ez up; { x with t1s := { x.t1s with discover := [(9, some 9)] } }, by decide +kernel⟩,
   ⟨31, 0xA1B2C3, (ezv 17 5 0xFE 31 [1]), ezo false, by decide +kernel, (.ezAck 0xA1B2C3 (ezv 17 5 0xFE 31 [1])), 17, (tr 5 false),
     by decide +kernel⟩,
   ⟨31, (ezv 0x21 5 0xFE 31 [0,0,0,7,0,0]), ezo true, by decide +kernel, (tr 5 true), by decide +kernel⟩,
   ⟨31, (ezv 0x40 5 0xFE 31 [0,0,0,7,0,0]), ez up, by decide +kernel⟩,
   ⟨31, ezo true, by decide +kernel, (tr 5 true), by decide +kernel⟩,
   ⟨let x := ezo true; { x with t1s := { x.t1s with discover := [(5, some 9), (6, none)] } }, by decide +kernel, (5, some 9), [(6, none)],
     by decide +kernel⟩⟩

theorem witness_StreamCommandsComplete :
    (∃ p : Port, ∃ f : Frame, ∃ s : State, ∃ e, ∃ cell, F.ETH_PCFG_EN.on p s = true ∧ asleep s = false ∧ F.CLT_STAT_ACCEPT.on 0 s = true ∧
        cltMatch s f = some e ∧
        let c := rxCfg s e;
        let h := (coleelOf s c.kind f).getD [];
        c.kind < 2 ∧ ColeelWellFormed s c f ∧ edgePos (fieldBe h 12 8 - 16) s ≤ s.now ∧ StreamPlaced s e cell (((fieldBe h 12 8 : Int) -
          1) * spt s + fieldBe h 20 1)) ∧
    (∃ p : Port, ∃ f : Frame, ∃ s : State, ∃ e, ∃ cell, F.ETH_PCFG_EN.on p s = true ∧ asleep s = false ∧ F.CLT_STAT_ACCEPT.on 0 s = true ∧
        cltMatch s f = some e ∧
        let c := rxCfg s e;
        let media (x : Int) : Int := x + F.CLT_RXCFG_LAT.live e s;
        let near (q : Int) : Prop := latchEdge s q ≤ ((tickNum s + (4368 + spt s - 1) / spt s : Nat) : Int);
        let u := udpPayload (frPayload f);
        let q := media (nearest (sampleNow s) (fieldBe u 4 4 + 2 ^ 32 - F.CLT_RXAUX_ROFS.live e s));
        c.kind = 2 ∧ AesWellFormed c f ∧ near q ∧ StreamPlaced s e cell q) ∧
    (∃ p : Port, ∃ f : Frame, ∃ s : State, ∃ e, ∃ cell, F.ETH_PCFG_EN.on p s = true ∧ asleep s = false ∧ F.CLT_STAT_ACCEPT.on 0 s = true ∧
        cltMatch s f = some e ∧
        let c := rxCfg s e;
        let media (x : Int) : Int := x + F.CLT_RXCFG_LAT.live e s;
        let near (q : Int) : Prop := latchEdge s q ≤ ((tickNum s + (4368 + spt s - 1) / spt s : Nat) : Int);
        let u := frPayload f;
        let q := media ((2 * nearest (nowNs s) (fieldBe u 12 4) * fsHz s + 1000000000) / 2000000000);
        c.kind = 3 ∧ AafWellFormed s c f ∧ near q ∧ StreamPlaced s e cell q) ∧
    (∃ m : Master, ∃ s : State, ∃ rx : Bool, ∃ i : Fin 256, ∃ v : W64,
        let r := if rx then CltReg.rxcfg else .txcfg;
        WriteReaches m ((cltReg r).addr i) s ∧ (streamCfg ((cltReg r).val i s)).en = false ∧ (((streamCfg v.toNat).en = true → entryOk
          (rated s) rx i (streamCfg v.toNat) (if rx then 1 else F.CLT_TXDST_TAG.get i s) = true))) ∧
    (∃ m : Master, ∃ s : State, ∃ r : CltReg, ∃ i : Fin 256, r ∈ [CltReg.rxkey, .rxaux, .txkey, .txaux] ∧ WriteReaches m ((cltReg r).addr
      i) s ∧ (streamCfg ((if cltIsRx r then R.CLT_RXCFG else R.CLT_TXCFG).val i s)).en = false) ∧
    (∃ m : Master, ∃ s : State, ∃ i : Fin 256, WriteReaches m (R.CLT_TXDST.addr i) s ∧ (streamCfg (R.CLT_TXCFG.val i s)).en = false) ∧
    (∃ s : State, ∃ i : Fin 256, ∃ ofs : Fin 16,
        let c := txCfg s i;
        cltSends s c = true ∧ c.kind < 2 ∧ ofs.val % max 1 c.spp = 0 ∧ ofs.val + c.spp ≤ spt s ∧ ((∃ o, sentTo s i = some o ∧ o ≤
          ofs.val))) ∧
    (∃ s : State, ∃ i : Fin 256, ∃ ofs : Fin 16, ((∀ o, sentTo s i = some o → ofs.val < o))) ∧
    (∃ s : State, ∃ i : Fin 256, ∃ mt : Nat, cltSends s (txCfg s i) = true ∧ packetDue s i = some mt ∧ (txCfg s i).kind = 2) ∧
    (∃ s : State, ∃ i : Fin 256, ∃ mt : Nat, cltSends s (txCfg s i) = true ∧ packetDue s i = some mt ∧ (txCfg s i).kind = 3) :=
  ⟨⟨2, fr0, rxS 0 1 2 3 ckey, 9, 512, and_assoc.mp ⟨by decide +kernel, and_assoc.mp ⟨by decide +kernel, and_assoc.mp ⟨by decide +kernel,
    ⟨by decide +kernel, ⟨by decide +kernel, by decide +kernel, by decide +kernel, by decide +kernel, by decide +kernel, grantsCell_of
    (by decide +kernel)⟩⟩⟩⟩⟩⟩,
   ⟨2, fr2, rxS 2 1 2 3 akey, 9, 512, and_assoc.mp ⟨by decide +kernel, and_assoc.mp ⟨by decide +kernel, and_assoc.mp ⟨by decide +kernel,
     ⟨by beta_reduce; decide +kernel, ⟨by decide +kernel, by decide +kernel, by decide +kernel, by decide +kernel, by decide +kernel,
     grantsCell_of (by decide +kernel)⟩⟩⟩⟩⟩⟩,
   ⟨2, fr3, rxS 3 0 2 3 0x77, 9, 512, and_assoc.mp ⟨by decide +kernel, and_assoc.mp ⟨by decide +kernel, and_assoc.mp ⟨by decide +kernel,
     ⟨by beta_reduce; decide +kernel, ⟨by decide +kernel, by decide +kernel, by decide +kernel, by decide +kernel, by decide +kernel,
     grantsCell_of (by decide +kernel)⟩⟩⟩⟩⟩⟩,
   ⟨1, up, true, 255, (BitVec.ofNat 64 (cv 0 1 2 3)), by decide +kernel⟩,
   ⟨1, up, .rxkey, 255, by decide +kernel⟩,
   ⟨1, up, 255, by decide +kernel⟩,
   ⟨txS 0, 9, 2, by decide +kernel⟩,
   ⟨{ txS 0 with clt := { (txS 0).clt with sent := (0, 10, 0) } }, 9, 2, by decide +kernel⟩,
   ⟨txS 2, 9, 4, by decide +kernel⟩,
   ⟨txS 3, 9, 4, by decide +kernel⟩⟩

theorem witness_PtpMessagesComplete :
    (∃ p : Port, ∃ g : PtpMsg, ∃ s : State, ptpRuns s p = true ∧ g.domain = F.PTP_CFG_DOMAIN.get 0 s ∧ fromMaster s p g = true ∧ g.twoStep
      = false) ∧
    (∃ p : Port, ∃ g : PtpMsg, ∃ s : State, ptpRuns s p = true ∧ g.domain = F.PTP_CFG_DOMAIN.get 0 s ∧ fromMaster s p g = true ∧ g.twoStep
      = true) ∧
    (∃ p : Port, ∃ g : PtpMsg, ∃ s : State, ptpRuns s p = true ∧
        let x := ptpAt s p;
        ∃ y, x.sync = some y ∧ g.domain = F.PTP_CFG_DOMAIN.get 0 s ∧ fromMaster s p g = true ∧ y.seq = g.seq) ∧
    (∃ p : Port, ∃ s : State, ptpRuns s p = true ∧
        let x := ptpAt s p;
        ∃ a : AnnounceMsg, a.domain = F.PTP_CFG_DOMAIN.get 0 s ∧ a.srcId.toNat ≠ clockId s ∧ a.steps.val < 255 ∧ x.ann = none) ∧
    (∃ p : Port, ∃ g : PtpMsg, ∃ s : State, ptpRuns s p = true ∧
        let sends : Prop := F.ETH_PCFG_EN.on p s = true ∧ linkUp s p = true;
        g.domain = F.PTP_CFG_DOMAIN.get 0 s ∧ ptpPeer s = false ∧ ptpSt s p = 6 ∧ sends) ∧
    (∃ p : Port, ∃ g : PtpMsg, ∃ s : State, ptpRuns s p = true ∧
        let x := ptpAt s p;
        ∃ seq, ∃ t3, x.req = some (seq, t3) ∧ g.domain = F.PTP_CFG_DOMAIN.get 0 s ∧ ptpPeer s = false ∧ fromMaster s p g = true ∧ toPort s
          p g = true ∧ seq = g.seq.val) ∧
    (∃ p : Port, ∃ g : PtpMsg, ∃ s : State, ptpRuns s p = true ∧
        let sends : Prop := F.ETH_PCFG_EN.on p s = true ∧ linkUp s p = true;
        g.domain = F.PTP_CFG_DOMAIN.get 0 s ∧ ptpPeer s = true ∧ sends) ∧
    (∃ p : Port, ∃ g : PtpMsg, ∃ s : State, ptpRuns s p = true ∧ g.domain ≠ F.PTP_CFG_DOMAIN.get 0 s ∧ ∃ i, i ∈ [Instr.ptpSync p g,
      .ptpFollowUp p g, .ptpDelayReq p g, .ptpDelayResp p g, .ptpPdelayReq p g, .ptpPdelayResp p g, .ptpPdelayRespFollowUp p g]) ∧
    (∃ p : Port, ∃ g : PtpMsg, ∃ s : State, ptpRuns s p = true ∧
        let x := ptpAt s p;
        ∃ seq, ∃ t1, x.req = some (seq, t1) ∧ g.domain = F.PTP_CFG_DOMAIN.get 0 s ∧ ptpPeer s = true ∧ toPort s p g = true ∧ seq =
          g.seq.val ∧ g.twoStep = true) ∧
    (∃ p : Port, ∃ g : PtpMsg, ∃ s : State, ptpRuns s p = true ∧
        let x := ptpAt s p;
        ∃ seq, ∃ t1, x.req = some (seq, t1) ∧ g.domain = F.PTP_CFG_DOMAIN.get 0 s ∧ ptpPeer s = true ∧ toPort s p g = true ∧ seq =
          g.seq.val ∧ g.twoStep = false) ∧
    (∃ p : Port, ∃ g : PtpMsg, ∃ s : State, ptpRuns s p = true ∧
        let x := ptpAt s p;
        ∃ seq, ∃ t1, ∃ y, x.req = some (seq, t1) ∧ x.pdel = some y ∧ g.domain = F.PTP_CFG_DOMAIN.get 0 s ∧ ptpPeer s = true ∧ toPort s p g
          = true ∧ y.seq = g.seq.val) ∧
    (∃ p : Port, ∃ s : State, ptpRuns s p = true) ∧
    (∃ p : Port, ∃ s : State, ptpRuns s p = true ∧ ptpSt s p = 6) ∧
    (∃ p : Port, ∃ s : State, ptpRuns s p = true ∧ ptpSt s p = 6) ∧
    (∃ p : Port, ∃ s : State, ptpRuns s p = true ∧
        let x := ptpAt s p;
        (ptpPeer s = true ∨ (ptpFollows s p = true ∧ x.synced = true))) ∧
    (∃ p : Port, ∃ s : State, ptpRuns s p = true ∧
        let x := ptpAt s p;
        ∃ h, ∃ rest, x.follow = h :: rest) ∧
    (∃ p : Port, ∃ s : State, ptpRuns s p = true ∧ annDue s p = true) ∧
    (∃ p : Port, ∃ s : State, ptpRuns s p = true ∧ ptpFollows s p = true ∧ p.val ∉ s.ptp.lost ∧ syncDue s p = true) :=
  ⟨⟨2, (msg false), pp 8 0 px, by decide +kernel⟩,
   ⟨2, (msg true), pp 8 0 px, by decide +kernel⟩,
   ⟨2, (msg true), pp 8 0 { px with sync := some two }, by decide +kernel, two, by decide +kernel⟩,
   ⟨2, pp 4 0 { ptpPortReset with heard := false }, by decide +kernel, ann, by decide +kernel⟩,
   ⟨2, (msg false), pp 6 0 px, by decide +kernel⟩,
   ⟨2, (msg false), pp 9 0 { px with req := some (77, 9) }, by decide +kernel, 77, 9, by decide +kernel⟩,
   ⟨2, (msg false), pp 6 2 { px with follow := [(false,1,2,3)] }, by decide +kernel⟩,
   ⟨2, { msg true with domain := 9 }, pp 9 0 { px with req := some (77, 9), pdel := some two, sync := some two }, by decide +kernel,
     by decide +kernel, (.ptpSync 2 { msg true with domain := 9 }), by decide +kernel⟩,
   ⟨2, (msg true), pp 9 2 { px with req := some (77, 9) }, by decide +kernel, 77, 9, by decide +kernel⟩,
   ⟨2, (msg false), pp 6 1 { px with req := some (77, 9), delays := [] }, by decide +kernel, 77, 9, by decide +kernel⟩,
   ⟨2, (msg true), pp 6 1 { px with req := some (77, 9), pdel := some two }, by decide +kernel, 77, 9, two, by decide +kernel⟩,
   ⟨2, pp 9 0 px, by decide +kernel⟩,
   ⟨2, pp 6 0 { px with seqSync := 65535 }, by decide +kernel⟩,
   ⟨2, pp 6 2 { px with seqAnn := 65535 }, by decide +kernel⟩,
   ⟨2, pp 9 0 px, by decide +kernel⟩,
   ⟨2, pp 6 1 { px with follow := [(true,1,2,3), (true,1,2,3)] }, by decide +kernel, (true,1,2,3), [(true,1,2,3)], by decide +kernel⟩,
   ⟨2, pp 4 0 px, by decide +kernel⟩,
   ⟨2, pp 9 0 px, by decide +kernel⟩⟩

theorem witness_TimePinsComplete :
    (∃ s : State, F.PTP_STAT_GM.on 0 s = true ∧ F.PTP_STAT_STEP_PEND.on 0 s = false ∧ passed s.ptp.gmAt (msCycles (F.PTP_QUAL_QUAL_MS.get
      0 s) s) s = true) ∧
    (∃ s : State, asleep s = false) ∧
    (∃ m : Master, ∃ s : State, ∃ a b d : Word, WriteReaches m (R.PTP_TIME_SECHI.addr 0) s ∧ running s = false ∧ ((∀ q < 4, ptpFollows s q
      = false)) ∧ smFind s.ptp.wbuf (4 * m) = some a ∧ smFind s.ptp.wbuf (4 * m + 1) = some b ∧ smFind s.ptp.wbuf (4 * m + 2) = some d ∧
      b.toNat ≤ 999999999) ∧
    (∃ m : Master, ∃ e : Fin 8, ∃ s : State, ∃ v : Word, WriteReaches m (R.PTP_EVT_CTRL.addr e) s ∧ F.PTP_EVT_CTRL_EN.on e s = false ∧
      F.PTP_EVT_NS_NS.get e s ≤ 999999999 ∧ 10 ≤ F.PTP_EVT_WID_WIDTH.get e s ∧ ((F.PTP_EVT_CTRL_MODE.of v.toNat = 1 → 20 ≤
      F.PTP_EVT_PER_PERIOD.get e s ∧ F.PTP_EVT_WID_WIDTH.get e s ≤ F.PTP_EVT_PER_PERIOD.get e s - 10))) ∧
    (∃ e : Fin 8, ∃ s : State, (evtAt s e).arming = true ∧ (F.PTP_EVT_CTRL_MODE.on e s = true ∨ evtPast s (evtStart s e) = false)) ∧
    (∃ m : Master, ∃ e : Fin 8, ∃ s : State, WriteReaches m (R.PTP_EVT_CTRL.addr e) s) ∧
    (∃ e : Fin 8, ∃ s : State, (evtAt s e).armed = true ∧ (evtAt s e).active = false ∧ (F.PTP_EVT_CTRL_MODE.on e s = true ∨ (evtAt s e).k
      = 0) ∧ evtTime s e * cclkMHz s ≤ s.now * 1000) ∧
    (∃ e : Fin 8, ∃ s : State, (evtAt s e).active = true ∧ (evtAt s e).stop ≤ s.elapsed) ∧
    (∃ c : Fin 4, ∃ s : State, ∃ rise : Bool, F.PTP_CAP_CFG_EN.on c s = true ∧ asleep s = false ∧ bitOf (F.PTP_CAP_CFG_EDGE.get c s) (if
      rise then 0 else 1) = true ∧ (capAt s c).fifo.length < 16) ∧
    (∃ c : Fin 4, ∃ s : State, ∃ ts, ∃ rise, ∃ rest, asleep s = false ∧ (capAt s c).fifo = (ts, rise) :: rest) :=
  ⟨⟨putF F.PTP_STAT_GM 0 1 up, by decide +kernel⟩,
   ⟨{ up with now := 123456789012345 }, by decide +kernel⟩,
   ⟨1, { up with ptp := { up.ptp with wbuf := [(4, 0xFFFF8000), (5, 999999999), (6, 7)] } }, 0xFFFF8000, 999999999, 7, by decide +kernel⟩,
   ⟨1, 7, putF F.PTP_EVT_WID_WIDTH 7 10 (putF F.PTP_EVT_PER_PERIOD 7 20 (putF F.PTP_EVT_NS_NS 7 999999999 up)), (BitVec.ofNat 32 (fv
     F.PTP_EVT_CTRL_EN 1 + fv F.PTP_EVT_CTRL_MODE 1)), by decide +kernel⟩,
   ⟨7, putF F.PTP_EVT_CTRL_MODE 7 1 (evS { evtOutReset with arming := true } up), by decide +kernel⟩,
   ⟨1, 7, putF F.PTP_EVT_CTRL_EN 7 1 (evS { evtOutReset with armed := true, active := true, k := 5 } up), by decide +kernel⟩,
   ⟨7, evS { evtOutReset with armed := true } up, by decide +kernel⟩,
   ⟨7, evS { evtOutReset with armed := true, active := true, k := 5 } up, by decide +kernel⟩,
   ⟨3, putF F.PTP_CAP_CFG_EN 3 1 (putF F.PTP_CAP_CFG_EDGE 3 3 (capS ⟨List.replicate 15 (5, true), false⟩ up)), true, by decide +kernel⟩,
   ⟨3, capS ⟨(5, true) :: List.replicate 15 (6, false), false⟩ up, 5, true, (List.replicate 15 (6, false)), by decide +kernel⟩⟩

theorem witness_ClockCommandsComplete :
    (∃ s : State, ∃ o : RefObs, s.clk.up = true ∧ passed s.clk.evalAt (msCycles 1 s) s = true ∧ F.CLK_CTRL_FREERUN.on 0 s = false ∧
      refValid s 1 = false ∧ refSeen s o 1 = (true, true) ∧ F.CLK_FRANGE_QMS.get 0 s ≤ smGet (fun _ => 0) s.clk.good 1 + 1) ∧
    (∃ s : State, ∃ k, s.clk.sel = some k ∧ F.CLK_STAT_STEP.get 0 s < finalStep s k ∧ stepDwell (F.CLK_STAT_STEP.get 0 s) ≤ s.clk.dwell) ∧
    (∃ s : State, clkSt s = 3 ∧ F.CLK_HOLD_LEFT_MS.get 0 s = 0) ∧
    (∃ s : State, ∃ p : Pll, (match p with | .a => s.clk.lockA | .b => s.clk.lockB | .c => s.clk.lockC) = false) ∧
    (∃ s : State, ∃ p : Pll, (match p with | .a => s.clk.lockA | .b => s.clk.lockB | .c => s.clk.lockC) = true) ∧
    (∃ s : State, s.clk.lockB = true) ∧
    (∃ m : Master, ∃ s : State, WriteReaches m (R.CLK_CTRL.addr 0) s ∧ s.clk.up = true ∧ F.CLK_CTRL_FREERUN.on 0 s = false ∧ clkSt s ≠ 0)
      ∧
    (∃ m : Master, ∃ s : State, WriteReaches m (R.CLK_CTRL.addr 0) s) ∧
    (∃ m : Master, ∃ s : State, ∃ mask : Byte, ∃ n : Fin 8, WriteReaches m (R.CLK_ALIGN.addr 0) s ∧ bitOf mask.toNat n = true ∧
      F.CLK_OUT_EN.on n s = true) ∧
    (∃ m : Master, ∃ s : State, ∃ n : Fin 8, ∃ v : Word, WriteReaches m (R.CLK_OUT.addr n) s ∧ F.CLK_OUT_FMT.of v.toNat < 6 ∧ outPast
      (rated s) (F.CLK_OUT_LEVEL.of v.toNat) (F.CLK_OUT_FMT.of v.toNat) = false) ∧
    (∃ m : Master, ∃ s : State, WriteReaches m (R.CLK_PLLA.addr 0) s ∧ running s = false ∧ s.lock = false) ∧
    (∃ s : State, ∃ n : Fin 8, F.CLK_CTRL_INSVC.on 0 s = false ∧ bitOf (F.CLK_ALIGNPEND_PEND.get 0 s) n = true) :=
  ⟨⟨putF F.CLK_FRANGE_FRANGE 0 0 (putF F.CLK_FRANGE_QMS 0 1 up), ⟨3145728000, 0, 5, 0, 0, 0⟩, by decide +kernel⟩,
   ⟨ckS fun c => { c with sel := some 2, dwell := 100000 }, 2, by decide +kernel⟩,
   ⟨putF F.CLK_HOLD_LEFT_MS 0 0 (putF F.CLK_STAT_STATE 0 3 up), by decide +kernel⟩,
   ⟨ckS fun c => { c with lockA := false, lockB := false, lockC := false, hold := true }, .a, by decide +kernel⟩,
   ⟨ckS fun c => { c with lockA := true, lockB := true, lockC := true }, .a, by decide +kernel⟩,
   ⟨ckS fun c => { c with lockB := true }, by decide +kernel⟩,
   ⟨1, putF F.CLK_STAT_STATE 0 2 (ckS fun c => { c with sel := some 2 }), by decide +kernel⟩,
   ⟨1, up, by decide +kernel⟩,
   ⟨1, putF F.CLK_OUT_EN 7 1 (putF F.CLK_OUTMIS_MIS 7 99 up), 0x83, 7, by decide +kernel⟩,
   ⟨1, up, 7, (BitVec.ofNat 32 (fv F.CLK_OUT_EN 1 + fv F.CLK_OUT_FMT 5)), by decide +kernel⟩,
   ⟨1, ckS fun c => { c with lockA := true, hold := false }, by decide +kernel⟩,
   ⟨putF F.CLK_OUTMIS_MIS 7 99 (put R.CLK_ALIGNPEND 0 0x80 up), 7, by decide +kernel⟩⟩

theorem witness_SiphonMessagesComplete :
    (∃ s : State, siphonUp s = false) ∧
    (∃ s : State, siphonUp s = true) ∧
    (∃ s : State, siphonUp s = true ∧ asleep s = false ∧ ∃ segs : List (List Byte), ∃ tk : Nat, ∃ pl : List Byte,
        let whole (ty : Nat) : Prop := segsBody ty segs = some (tk, pl);
        whole 0x01 ∧ pl.length = 8) ∧
    (∃ s : State, siphonUp s = true ∧ asleep s = false ∧ ∃ segs : List (List Byte), ∃ tk : Nat, ∃ pl : List Byte,
        let whole (ty : Nat) : Prop := segsBody ty segs = some (tk, pl);
        whole 0x02 ∧ F.PAIR_CFG_PRST_EN.liveOn 0 s = true) ∧
    (∃ s : State, siphonUp s = true ∧ asleep s = false ∧ ∃ segs : List (List Byte), ∃ tk : Nat, ∃ pl : List Byte,
        let whole (ty : Nat) : Prop := segsBody ty segs = some (tk, pl);
        whole 0x03 ∧ pl.length = 68) ∧
    (∃ s : State, siphonUp s = true ∧ asleep s = false ∧ ∃ segs : List (List Byte), ∃ tk : Nat, ∃ pl : List Byte,
        let whole (ty : Nat) : Prop := segsBody ty segs = some (tk, pl);
        ∃ g : WriteMsg, ∃ k : Fin 16, ∃ w : Fin 262144, whole 0x10 ∧ isStandby (pairSt s) = true ∧ g.addr.toNat = galAddr k w ∧ g.en =
          0xFF ∧ Memory.wf s.mem = true) ∧
    (∃ s : State, siphonUp s = true ∧ asleep s = false ∧ ∃ segs : List (List Byte), ∃ tk : Nat, ∃ pl : List Byte,
        let whole (ty : Nat) : Prop := segsBody ty segs = some (tk, pl);
        whole 0x11 ∧ isStandby (pairSt s) = true) ∧
    (∃ s : State, siphonUp s = true ∧ asleep s = false ∧ ∃ segs : List (List Byte), ∃ tk : Nat, ∃ pl : List Byte,
        let whole (ty : Nat) : Prop := segsBody ty segs = some (tk, pl);
        whole 0x12) ∧
    (∃ s : State, siphonUp s = true ∧ asleep s = false ∧ ∃ segs : List (List Byte), ∃ tk : Nat, ∃ pl : List Byte,
        let whole (ty : Nat) : Prop := segsBody ty segs = some (tk, pl);
        ∃ f : Frame, ∃ e cell : Nat,
        let c := rxCfg s e;
        let h := (coleelOf s c.kind f).getD [];
        let q : Int := ((fieldBe h 12 8 : Int) - 1) * spt s + fieldBe h 20 1;
        whole 0x20 ∧ F.PAIR_CFG_EN.liveOn 0 s = true ∧ F.CLT_STAT_ACCEPT.on 0 s = true ∧ cltMatch s f = some e ∧ c.kind < 2 ∧
          ColeelWellFormed s c f ∧ edgePos (fieldBe h 12 8 - 16) s ≤ s.now ∧ 0 ≤ q ∧ beforeEdge s (latchEdge s q) (max 100
          (F.PAIR_PATCH_NS.get 0 s)) = true ∧ 0 < c.ch * c.spp ∧ c.ch * c.spp ≤ 51 ∧ smFind ((smFind (cltRxAt s e).buf (q.toNat / spt s +
          1)).getD []) (q.toNat % spt s * c.ch) = none ∧ GrantsCell (F.CLT_CFG_BUFQ.get 0 s) cell s) ∧
    (∃ s : State, siphonUp s = true ∧ asleep s = false ∧ ∃ segs : List (List Byte), ∃ tk : Nat, ∃ pl : List Byte,
        let whole (ty : Nat) : Prop := segsBody ty segs = some (tk, pl);
        ∃ g : LaneSet, ∃ slot : Nat, whole 0x30 ∧ pairSt s = 4 ∧ slotOf s g.lane = some slot ∧ g.tick = BitVec.ofNat 32 (tickNum s) ∧
          (laneAt s slot).st = .wait ∧ edgeDue s = false) ∧
    (∃ s : State, siphonUp s = true ∧ asleep s = false ∧ ∃ segs : List (List Byte), ∃ tk : Nat, ∃ pl : List Byte,
        let whole (ty : Nat) : Prop := segsBody ty segs = some (tk, pl);
        whole 0x31 ∧ (pairSt s = 3 ∨ pairSt s = 4)) ∧
    (∃ s : State, siphonUp s = true ∧ asleep s = false ∧ ∃ segs : List (List Byte), ∃ tk : Nat, ∃ pl : List Byte,
        let whole (ty : Nat) : Prop := segsBody ty segs = some (tk, pl);
        whole 0x40 ∧ pairSt s = 3) ∧
    (∃ s : State, siphonUp s = true ∧ asleep s = false ∧ ∃ segs : List (List Byte), ∃ tk : Nat, ∃ pl : List Byte,
        let whole (ty : Nat) : Prop := segsBody ty segs = some (tk, pl);
        whole 0x40 ∧ pairSt s = 3 ∧ Memory.wf s.mem = true) ∧
    (∃ s : State, siphonUp s = true ∧ asleep s = false ∧ ∃ b : List Byte, segOk b = false ∧ s.pair.crcRun < 7) :=
  ⟨⟨up, by decide +kernel⟩,
   ⟨su 0 up, by decide +kernel⟩,
   ⟨su 0 up, by decide +kernel, by decide +kernel, (segsOf 1 5 (markBytes (mk true true true 1))), 5, (markBytes (mk true true true 1)),
     by decide +kernel⟩,
   ⟨putLF F.PAIR_CFG_PRST_EN 0 1 (su 2 up), by decide +kernel, by decide +kernel, (segsOf 2 5 []), 5, [], by decide +kernel⟩,
   ⟨let x := su 2 up; { x with pair := { x.pair with partnerDig := List.replicate 4 dg } }, by decide +kernel, by decide +kernel, (segsOf
     3 5 (digestMsgBytes dg)), 5, (digestMsgBytes dg), by decide +kernel⟩,
   ⟨su 6 up, by decide +kernel, by decide +kernel, (segsOf 16 5 []), 5, [],
     { tick := 3, addr := BitVec.ofNat 32 (galAddr 15 261119), en := 255, data := 0xFFFFFFEE12345678, master := 1 }, 15, 261119,
     by decide +kernel⟩,
   ⟨su 6 up, by decide +kernel, by decide +kernel, (segsOf 17 5 (List.replicate 0 9)), 5, (List.replicate 0 9), by decide +kernel⟩,
   ⟨su 6 up, by decide +kernel, by decide +kernel, (segsOf 18 5 []), 5, [], by decide +kernel⟩,
   ⟨putLF F.PAIR_CFG_EN 0 1 (putF F.PAIR_STAT_LINK 0 1 (rxS 0 1 2 3 ckey)), by decide +kernel, by decide +kernel, (segsOf 32 5 []), 5, [],
     fr0, 9, 512, and_assoc.mp ⟨by decide +kernel, and_assoc.mp ⟨by decide +kernel, and_assoc.mp ⟨by decide +kernel, and_assoc.mp
     ⟨by decide +kernel, and_assoc.mp ⟨by decide +kernel, and_assoc.mp ⟨by decide +kernel, grantsCell_of (by decide +kernel)⟩⟩⟩⟩⟩⟩⟩,
   ⟨let x := su 4 ticking; { x with lanes := [(20, { lane20 with st := .wait })], pair := { x.pair with lanesLeft := [18,19] } },
     by decide +kernel, by decide +kernel, (segsOf 48 5 []), 5, [], lset, 20, by decide +kernel⟩,
   ⟨su 3 up, by decide +kernel, by decide +kernel, (segsOf 49 5 []), 5, [], by decide +kernel⟩,
   ⟨su 3 up, by decide +kernel, by decide +kernel, (segsOf 64 5 []), 5, [], by decide +kernel⟩,
   ⟨su 3 up, by decide +kernel, by decide +kernel, (segsOf 64 5 []), 5, [], by decide +kernel⟩,
   ⟨let x := su 6 up; { x with pair := { x.pair with crcRun := 6 } }, by decide +kernel, by decide +kernel, [], by decide +kernel⟩⟩

theorem witness_PairCommandsComplete :
    (∃ s : State, pairSt s = 1 ∧ sideA s = false ∧ siphonUp s = false ∧ s.pair.partnerOwn = false ∧ passed s.pair.ownAt (msCycles
      (F.PAIR_CFG_START_MS.live 0 s) s) s = true) ∧
    (∃ m : Master, ∃ s : State, WriteReaches m (R.PAIR_CMD.addr 0) s ∧ siphonUp s = true) ∧
    (∃ m : Master, ∃ s : State, WriteReaches m (R.PAIR_CMD.addr 0) s ∧ pairSt s = 2 ∧ partnerReady s = true) ∧
    (∃ m : Master, ∃ s : State, WriteReaches m (R.PAIR_CMD.addr 0) s ∧ pairSt s ≠ 0 ∧ pairSt s ≠ 2) ∧
    (∃ m : Master, ∃ s : State, WriteReaches m (R.PAIR_CMD.addr 0) s ∧ pairSt s = 8 ∧ siphonUp s = true) ∧
    (∃ m : Master, ∃ s : State, WriteReaches m (R.PAIR_CMD.addr 0) s ∧ (pairSt s ≠ 2 ∨ partnerReady s = false)) ∧
    (∃ s : State, pairSt s = 3 ∧ s.pair.icwDiff = false) ∧
    (∃ s : State, pairSt s = 3 ∧ s.pair.icwDiff = true) ∧
    (∃ m : Master, ∃ s : State, ∃ v : Word, WriteReaches m (R.PAIR_PATCH.addr 0) s ∧ F.PAIR_PATCH_NS.of v.toNat + 400 ≤
      F.TICK_NETMARGIN_NS.live 0 s) :=
  ⟨⟨sideb (putF F.PAIR_STAT_STATE 0 1 up), by decide +kernel⟩,
   ⟨1, su 2 up, by decide +kernel⟩,
   ⟨1, putF F.PAIR_STAT_PSTATE 0 6 (su 2 up), by decide +kernel⟩,
   ⟨1, owns (su 1 up), by decide +kernel⟩,
   ⟨1, su 8 up, by decide +kernel⟩,
   ⟨1, putF F.PAIR_STAT_PSTATE 0 0 (su 2 up), by decide +kernel⟩,
   ⟨putF F.PAIR_CONV_CONV_T 0 9 (su 3 up), by decide +kernel⟩,
   ⟨let x := su 3 up; { x with pair := { x.pair with icwDiff := true } }, by decide +kernel⟩,
   ⟨1, putLF F.TICK_NETMARGIN_NS 0 500 up, 100, by decide +kernel⟩⟩

theorem witness_SumpCommandsComplete :
    (∃ s : State, ∃ r, ∃ rest, s.sump.queue = r :: rest) ∧
    (∃ s : State, s.sump.parity ≠ []) ∧
    (∃ m : Master, ∃ s : State,
        let sound (ws : List Nat) : Prop := ∀ w ∈ ws, w ∉ s.sump.parity;
        ∃ i : Fin 8, ∃ j : Fin 32, ∃ v : Word, WriteReaches m (R.SUMP_EVSTAT.addr i) s ∧ v.toNat = 2 ^ j.val ∧ evListed (32 * i + j) =
          true ∧ bitOf (R.SUMP_EVSTAT.val i s) j = true ∧ sound [R.SUMP_EVSTAT.addr i] ∧ evHeld (32 * i + j) s = false) ∧
    (∃ m : Master, ∃ s : State,
        let sound (ws : List Nat) : Prop := ∀ w ∈ ws, w ∉ s.sump.parity;
        ∃ i : Fin 8, ∃ j : Fin 32, ∃ v : Word, WriteReaches m (R.SUMP_EVSTAT.addr i) s ∧ v.toNat = 2 ^ j.val ∧ evListed (32 * i + j) =
          true ∧ bitOf (R.SUMP_EVSTAT.val i s) j = true ∧ sound [R.SUMP_EVSTAT.addr i] ∧ evHeld (32 * i + j) s = true) ∧
    (∃ m : Master, ∃ s : State,
        let sound (ws : List Nat) : Prop := ∀ w ∈ ws, w ∉ s.sump.parity;
        WriteReaches m (R.SUMP_CTRL.addr 0) s ∧ F.SUMP_STAT_STATE.get 0 s ≠ 0 ∧ exitOk s = true ∧ sound exitWords) ∧
    (∃ m : Master, ∃ s : State,
        let sound (ws : List Nat) : Prop := ∀ w ∈ ws, w ∉ s.sump.parity;
        WriteReaches m (R.SUMP_CTRL.addr 0) s ∧ F.SUMP_STAT_STATE.get 0 s ≠ 0 ∧ exitOk s = false ∧ sound exitWords) ∧
    (∃ m : Master, ∃ s : State, WriteReaches m (R.SUMP_CTRL.addr 0) s) ∧
    (∃ s : State,
        let sound (ws : List Nat) : Prop := ∀ w ∈ ws, w ∉ s.sump.parity;
        running s = false ∧ s.sump.exitPend.isSome = true ∧ F.SUMP_STAT_STATE.get 0 s ≠ 0 ∧ exitOk s = true ∧ sound exitWords) ∧
    (∃ m : Master, ∃ s : State, ∃ i : Fin 256, ∃ v : Word, WriteReaches m (R.SUMP_EVCFG.addr i) s ∧ s.lock = false ∧ evListed i = true ∧
      F.SUMP_EVCFG_CLASS.of v.toNat < 5 ∧ ((F.SUMP_EVCFG_CLASS.of v.toNat = F.SUMP_EVCFG_CLASS.get i s ∨ (evIsFixed i = false ∧ bitOf
      (R.SUMP_EVSTAT.val (i / 32) s) (i % 32) = false)))) ∧
    (∃ s : State, asleep s = false) :=
  ⟨⟨putF F.SUMP_HIST_STAT_NEXT 0 31 { up with sump := { up.sump with queue := [⟨0x7C, 3, 1, 9, 2⟩] } }, ⟨0x7C, 3, 1, 9, 2⟩, [],
    by decide +kernel⟩,
   ⟨{ up with sump := { up.sump with parity := [5] } }, by decide +kernel⟩,
   ⟨1, evs 1 [], 0, 1, 2, by decide +kernel⟩,
   ⟨1, evs 9 [(9, 0, 0)], 0, 9, 512, by decide +kernel⟩,
   ⟨1, putF F.SUMP_STAT_STATE 0 2 up, by decide +kernel⟩,
   ⟨1, putF F.SUMP_STAT_STATE 0 2 (putF F.SUMP_STAT_SELF 0 1 up), by decide +kernel⟩,
   ⟨1, put R.SUMP_HIST 31 5 (put R.SUMP_HIST 0 7 (putF F.SUMP_HIST_STAT_COUNT 0 5 (putF F.SUMP_HIST_STAT_NEXT 0 3 (putF
     F.SUMP_HIST_STAT_OVF 0 1 up)))), by decide +kernel⟩,
   ⟨putF F.SUMP_STAT_STATE 0 2 { up with sump := { up.sump with exitPend := some 4, zeroHold := true } }, by decide +kernel⟩,
   ⟨1, up, 1, (BitVec.ofNat 32 (fv F.SUMP_EVCFG_CLASS 4 + fv F.SUMP_EVCFG_LOG 1 + fv F.SUMP_EVCFG_INT1 1)), by decide +kernel⟩,
   ⟨put R.SUMP_HIST 31 0x123456789ABCDEF0123456789ABCDEF up, by decide +kernel⟩⟩

theorem witness_LoadingCompletes :
    (∃ s : State, ∃ hdr : List Byte, s.pwr.vdd = true ∧ s.pwr.listen = false ∧ s.clk.up = true ∧ boot s = 0 ∧ s.strata.hdr = [] ∧ hdr ≠ []
        ∧
        let h := hdr.take (hdrLen hdr);
        hdrCause h = 0 ∧ F.DRAM_STAT_READY.on 0 s = false ∧ ((∀ i < fieldLe h 36 2, fieldLe h (320 + 8 * i) 4 = R.DRAM_CFG.addr 0 ∨
          fieldLe h (320 + 8 * i) 4 = R.DRAM_CTRL.addr 0))) ∧
    (∃ s : State, ∃ hdr : List Byte, s.pwr.vdd = true ∧ s.pwr.listen = false ∧ s.clk.up = true ∧ boot s = 0 ∧ s.strata.hdr = [] ∧ hdr ≠ []
        ∧
        let h := hdr.take (hdrLen hdr);
        hdrCause h ≠ 0) ∧
    (∃ s : State, boot s = 1 ∧ F.DRAM_STAT_READY.on 0 s = false ∧ asleep s = false ∧ passed s.strata.dramAt (msCycles 50 s) s = true) ∧
    (∃ s : State, ∃ img : List Byte, boot s = 2 ∧ hdrField s 8 4 ≤ img.length ∧ crc32c ((img.drop (hdrField s 16 4)).take (hdrField s 20
      4)) = hdrField s 24 4 ∧ Memory.wf s.mem = true ∧ 0x80000000 ≤ stageAddr s) ∧
    (∃ s : State, ∃ img : List Byte, boot s = 2 ∧ hdrField s 8 4 ≤ img.length ∧ crc32c ((img.drop (hdrField s 16 4)).take (hdrField s 20
      4)) ≠ hdrField s 24 4) :=
  ⟨⟨up, goodHdr, and_assoc.mp ⟨by decide +kernel, and_assoc.mp ⟨by decide +kernel, and_assoc.mp ⟨by decide +kernel, ⟨goodHdr_cause,
    by decide +kernel⟩⟩⟩⟩⟩,
   ⟨up, List.replicate 328 0, by decide +kernel⟩,
   ⟨bootS 1 [1] up, by decide +kernel⟩,
   ⟨bootS 2 (hdr_ 0 1 (pre1 (R.DRAM_CFG.addr 0) 9) 512 8 (crc32c ((img.drop 512).take 8) + 0) 0) up, img, by decide +kernel⟩,
   ⟨bootS 2 (hdr_ 0 1 (pre1 (R.DRAM_CFG.addr 0) 9) 512 8 (crc32c ((img.drop 512).take 8) + 1) 0) up, img, by decide +kernel⟩⟩

theorem witness_RecordCommandsComplete :
    (∃ s : State, ∃ a e : Nat, PlaysNext 0 a e s ∧ a + 8 = e) ∧
    (∃ s : State, ∃ a e : Nat,
        let bs := memBytes s.mem a (recSize (memBytes s.mem a 8));
        PlaysNext 1 a e s ∧ (∀ x ∈ recAccesses bs, x.1 < 2 ^ 32)) ∧
    (∃ s : State, ∃ a e : Nat,
        let bs := memBytes s.mem a (recSize (memBytes s.mem a 8));
        PlaysNext 1 a e s ∧ ∃ g : Fin 16, ∃ w : Fin 262144, asleep s = false ∧ Memory.wf s.mem = true ∧ recAddr bs = galAddr g w ∧ w +
          fieldLe bs 8 4 ≤ 262144) ∧
    (∃ s : State, ∃ a e : Nat,
        let bs := memBytes s.mem a (recSize (memBytes s.mem a 8));
        PlaysNext 2 a e s ∧ (∀ x ∈ recAccesses bs, x.1 < 2 ^ 32)) ∧
    (∃ s : State, ∃ a e : Nat,
        let bs := memBytes s.mem a (recSize (memBytes s.mem a 8));
        PlaysNext 3 a e s ∧ (∀ x ∈ recAccesses bs, x.1 < 2 ^ 32)) ∧
    (∃ s : State, ∃ a e : Nat,
        let bs := memBytes s.mem a (recSize (memBytes s.mem a 8));
        PlaysNext 4 a e s ∧ (∀ x ∈ recAccesses bs, x.1 < 2 ^ 32)) ∧
    (∃ s : State, ∃ a e : Nat,
        let bs := memBytes s.mem a (recSize (memBytes s.mem a 8));
        PlaysNext 5 a e s ∧ recCnt bs = 1) ∧
    (∃ s : State, ∃ a e : Nat,
        let bs := memBytes s.mem a (recSize (memBytes s.mem a 8));
        PlaysNext 6 a e s ∧ asleep s = false ∧ s.lock = false ∧ F.TICK_CFG_FS.of (recMode bs) < 6 ∧ F.TICK_CFG_F.of (recMode bs) < 5) ∧
    (∃ s : State, ∃ a e : Nat, PlaysNext 7 a e s) :=
  ⟨⟨recS (rec_ 0 0 0 []) up, 0x80000000, (0x80000000 + (rec_ 0 0 0 []).length), playsNext_of (by decide +kernel), by decide +kernel⟩,
   ⟨recS (rec_ 1 0 (galAddr 15 5) (bytesLe 4 3 ++ bytesLe 4 0 ++ bytesLe 8 0x8123456789ABCDEF) ++ rec_ 0 0 0 []) up, 0x80000000,
     (0x80000000 + (rec_ 1 0 (galAddr 15 5) (bytesLe 4 3 ++ bytesLe 4 0 ++ bytesLe 8 0x8123456789ABCDEF) ++ rec_ 0 0 0 []).length),
     playsNext_of (by decide +kernel), by decide +kernel⟩,
   ⟨recS (rec_ 1 0 (galAddr 15 5) (bytesLe 4 3 ++ bytesLe 4 0 ++ bytesLe 8 0x8123456789ABCDEF) ++ rec_ 0 0 0 []) up, 0x80000000,
     (0x80000000 + (rec_ 1 0 (galAddr 15 5) (bytesLe 4 3 ++ bytesLe 4 0 ++ bytesLe 8 0x8123456789ABCDEF) ++ rec_ 0 0 0 []).length),
     playsNext_of (by decide +kernel), 15, 5, by decide +kernel⟩,
   ⟨recS (rec_ 2 2 (R.TICK_NETMARGIN.addr 0) (bytesLe 4 600 ++ bytesLe 4 7) ++ rec_ 0 0 0 []) up, 0x80000000, (0x80000000 + (rec_ 2 2
     (R.TICK_NETMARGIN.addr 0) (bytesLe 4 600 ++ bytesLe 4 7) ++ rec_ 0 0 0 []).length), playsNext_of (by decide +kernel),
     by decide +kernel⟩,
   ⟨recS (rec_ 3 2 (galAddr 3 9) (bytesLe 5 0x8123456789 ++ bytesLe 5 7 ++ bytesLe 6 0) ++ rec_ 0 0 0 []) up, 0x80000000, (0x80000000 +
     (rec_ 3 2 (galAddr 3 9) (bytesLe 5 0x8123456789 ++ bytesLe 5 7 ++ bytesLe 6 0) ++ rec_ 0 0 0 []).length), playsNext_of
     (by decide +kernel), by decide +kernel⟩,
   ⟨recS (rec_ 4 2 (progAddr 20 9) (bytesLe 8 0x8123456789 ++ bytesLe 8 7) ++ rec_ 0 0 0 []) up, 0x80000000, (0x80000000 + (rec_ 4 2
     (progAddr 20 9) (bytesLe 8 0x8123456789 ++ bytesLe 8 7) ++ rec_ 0 0 0 []).length), playsNext_of (by decide +kernel),
     by decide +kernel⟩,
   ⟨recS (rec_ 5 1 0 (bytesLe 4 0xFFFF ++ bytesLe 4 0xFFFF06BF) ++ rec_ 0 0 0 []) up, 0x80000000, (0x80000000 + (rec_ 5 1 0 (bytesLe 4
     0xFFFF ++ bytesLe 4 0xFFFF06BF) ++ rec_ 0 0 0 []).length), playsNext_of (by decide +kernel), by decide +kernel⟩,
   ⟨recS (rec_ 6 0 0 (bytesLe 1 (fv F.TICK_CFG_FS 5 + fv F.TICK_CFG_F 4) ++ bytesLe 1 1 ++ bytesLe 2 300 ++ bytesLe 1 1 ++ bytesLe 3 0) ++
     rec_ 0 0 0 []) up, 0x80000000, (0x80000000 + (rec_ 6 0 0 (bytesLe 1 (fv F.TICK_CFG_FS 5 + fv F.TICK_CFG_F 4) ++ bytesLe 1 1 ++
     bytesLe 2 300 ++ bytesLe 1 1 ++ bytesLe 3 0) ++ rec_ 0 0 0 []).length), playsNext_of (by decide +kernel), by decide +kernel⟩,
   ⟨recS (rec_ 7 0 0 [] ++ rec_ 0 0 0 []) up, 0x80000000, (0x80000000 + (rec_ 7 0 0 [] ++ rec_ 0 0 0 []).length), playsNext_of
     (by decide +kernel)⟩⟩

theorem witness_StrataCommandsComplete :
    (∃ m : Master, ∃ s : State, WriteReaches m (R.STRATA_CMD.addr 0) s ∧ boot s = 4 ∧ swSt s = 0) ∧
    (∃ m : Master, ∃ s : State, WriteReaches m (R.STRATA_CMD.addr 0) s ∧ boot s = 4) ∧
    (∃ m : Master, ∃ s : State, WriteReaches m (R.STRATA_CMD.addr 0) s ∧ boot s = 4 ∧ swSt s ≠ 0) ∧
    (∃ s : State, ∃ a, ∃ e, swSt s = 1 ∧ s.strata.armErr = 0 ∧ s.strata.arm = some (a, e) ∧ e ≤ a ∧ s.strata.warmGo = false) ∧
    (∃ s : State, swSt s = 1 ∧ s.strata.armErr ≠ 0 ∧ s.strata.armErr < 16) ∧
    (∃ s : State, running s = true ∧ F.STRATA_TRIG_MODE.get 0 s = 2 ∧ tickNum s + 1 = F.STRATA_AT_AT.get 0 s ∧ swSt s = 2) ∧
    (∃ s : State, running s = true ∧ F.STRATA_TRIG_MODE.get 0 s = 2 ∧ tickNum s + 1 = F.STRATA_AT_AT.get 0 s ∧ swSt s ≠ 2 ∧ swSt s ≠ 3) ∧
    (∃ s : State, swSt s = 3 ∧ s.strata.sectAt = none ∧ s.strata.sect = []) ∧
    (∃ s : State, ∃ v : Word, swSt s = 3 ∧ s.strata.sectAt = none ∧ asleep s = false ∧ s.strata.cmds = [] ∧ s.strata.sect =
      [[(R.TICK_NETMARGIN.addr 0, v)]]) ∧
    (∃ s : State, ∃ v : Word, ∃ r : List (Nat × Word), ∃ rest : List (List (Nat × Word)), swSt s = 3 ∧ s.strata.sectAt = none ∧ asleep s =
      false ∧ s.strata.sect = [(R.TICK_NETMARGIN.addr 0, v)] :: r :: rest) ∧
    (∃ m : Master, ∃ s : State, ∃ v : Word, WriteReaches m (R.STRATA_GCMD.addr 0) s ∧ bitOf v.toNat 31 = true ∧ reloadRuns s = false ∧
      swSt s ≠ 1) ∧
    (∃ m : Master, ∃ s : State, ∃ v : Word, WriteReaches m (R.STRATA_GCMD.addr 0) s ∧ bitOf v.toNat 31 = true ∧ reloadRuns s = true) ∧
    (∃ s : State, F.STRATA_GSTAT_BUSY.on 0 s = true ∧ ∃ a, ∃ e, s.strata.rErr = 0 ∧ s.strata.rel = some (a, e) ∧ e ≤ a) ∧
    (∃ s : State, F.STRATA_GSTAT_BUSY.on 0 s = true ∧ s.strata.rErr ≠ 0 ∧ s.strata.rErr < 16) :=
  ⟨⟨1, sw 0 up, by decide +kernel⟩,
   ⟨1, sw 0 up, by decide +kernel⟩,
   ⟨1, sw 1 up, by decide +kernel⟩,
   ⟨stS (fun x => { x with arm := some (100, 100) }) (sw 1 up), 100, 100, by decide +kernel⟩,
   ⟨stS (fun x => { x with arm := some (100, 200), armErr := 15 }) (sw 1 up), by decide +kernel⟩,
   ⟨putF F.STRATA_TRIG_MODE 0 2 (putF F.STRATA_AT_AT 0 1 (sw 2 ticking)), by decide +kernel⟩,
   ⟨putF F.STRATA_TRIG_MODE 0 2 (putF F.STRATA_AT_AT 0 1 (sw 0 ticking)), by decide +kernel⟩,
   ⟨sw 3 ticking, by decide +kernel⟩,
   ⟨stS (fun x => { x with sect := [[(R.TICK_NETMARGIN.addr 0, 700)]] }) (sw 3 ticking), 700, by decide +kernel⟩,
   ⟨stS (fun x => { x with sect := [[(R.TICK_NETMARGIN.addr 0, 0xFFFFFFFF)], [(5, 6)]] ++ [] }) (sw 3 up), 0xFFFFFFFF, [(5, 6)], [],
     by decide +kernel⟩,
   ⟨1, sw 0 up, 0x80000000, by decide +kernel⟩,
   ⟨1, putF F.STRATA_GSTAT_BUSY 0 1 (sw 0 up), 0x80000000, by decide +kernel⟩,
   ⟨stS (fun x => { x with rel := some (100, 100) }) (putF F.STRATA_GSTAT_BUSY 0 1 (sw 0 up)), by decide +kernel, 100, 100,
     by decide +kernel⟩,
   ⟨stS (fun x => { x with rel := some (100, 200), rErr := 5, out := [3], rGal := 3 }) (putF F.STRATA_GSTAT_BUSY 0 1 (sw 0 up)),
     by decide +kernel⟩⟩

theorem witness_ResetCommandsComplete :
    (∃ ns, ns < 100) ∧
    (∃ s : State, ∃ ns, 1000 ≤ ns ∧ s.pwr.vdd = true) ∧
    (∃ m : Master, ∃ s : State, ∃ v : Word, WriteReaches m (R.SYS_SWRST.addr 0) s ∧ F.SYS_SWRST_KEY.of v.toNat = 0x5AFE ∧
      F.SYS_SWRST_GO.of v.toNat = 1) ∧
    (∃ m : Master, ∃ s : State, ∃ v : Word, WriteReaches m (R.SYS_SWRST.addr 0) s ∧ F.SYS_SWRST_KEY.of v.toNat ≠ 0x5AFE) ∧
    (∃ m : Master, ∃ s : State, WriteReaches m (R.SYS_WDOG.addr 0) s ∧ s.lock = false) ∧
    (∃ m : Master, ∃ s : State, ∃ v : Word, WriteReaches m (R.SYS_WDOG_KICK.addr 0) s ∧ F.SYS_WDOG_KICK_KEY.of v.toNat = 0xCAFE) ∧
    (∃ m : Master, ∃ s : State, ∃ v : Word, WriteReaches m (R.SYS_WDOG_KICK.addr 0) s ∧ F.SYS_WDOG_KICK_KEY.of v.toNat ≠ 0xCAFE) ∧
    (∃ s : State, wdogDue s = true) :=
  ⟨⟨99, by decide +kernel⟩,
   ⟨putF F.SUMP_STAT_STATE 0 2 { ticking with lanes := [(20, lane20)] }, 1000, by decide +kernel⟩,
   ⟨1, putF F.SUMP_STAT_STATE 0 2 { ticking with lanes := [(20, lane20)] }, (BitVec.ofNat 32 (fv F.SYS_SWRST_KEY 0x5AFE + fv
     F.SYS_SWRST_GO 1)), by decide +kernel⟩,
   ⟨1, putF F.SUMP_STAT_STATE 0 2 { ticking with lanes := [(20, lane20)] }, (BitVec.ofNat 32 (fv F.SYS_SWRST_KEY 0x5AFF + fv
     F.SYS_SWRST_GO 1)), by decide +kernel⟩,
   ⟨1, { up with elapsed := 77 }, by decide +kernel⟩,
   ⟨1, { up with elapsed := 77 }, (BitVec.ofNat 32 (fv F.SYS_WDOG_KICK_KEY 0xCAFE)), by decide +kernel⟩,
   ⟨1, { up with elapsed := 77 }, 0, by decide +kernel⟩,
   ⟨putF F.SYS_WDOG_EN 0 1 (putF F.SYS_WDOG_TIMEOUT 0 1 { up with elapsed := 100000000000 }), by decide +kernel⟩⟩

theorem witness_BringUpCommandsComplete :
    (∃ s : State, asleep s = false ∧ (boot s = 1 ∨ boot s = 2) ∧ s.strata.hdr ≠ [] ∧ phase s = 0 ∧ s.clk.up = true ∧ running s = false ∧
      s.tick.starting = false ∧ s.pwr.mixOn = false ∧ mixTerms s ≠ []) ∧
    (∃ s : State, ∃ k, s.pwr.mixOn = true ∧ s.pwr.fade = some k ∧ 480 ≤ k * spt s) ∧
    (∃ s : State, phase s = 4 ∧ boot s = 4 ∧ running s = false ∧ s.tick.starting = false ∧ passed s.strata.endAt (msCycles
      (F.PWR_BOOT_PTPWAIT.get 0 s) s) s = true) :=
  ⟨⟨bootS 1 (List.replicate 336 0) { up with pins := { up.pins with emixSel := 1 } }, by decide +kernel⟩,
   ⟨putF F.PWR_STAT_PHASE 0 1 (pw (fun p => { p with mixOn := true, fade := some 120 }) ticking), 120, by decide +kernel⟩,
   ⟨putF F.PWR_STAT_PHASE 0 4 (putF F.STRATA_STAT_BOOT 0 4 up), by decide +kernel⟩⟩

theorem witness_PowerCommandsComplete :
    (∃ s : State, s.pwr.vdd = true) ∧
    (∃ i : InPin, ∃ s : State, s.pwr.vdd = true ∧ s.pwr.listen = false ∧ inActive s i ≠ (inAt s i).active ∧ passed (inAt s i).since
      (usCycles (max 10 (F.PWR_INCFG_DEB.get i s)) s) s = true) ∧
    (∃ i : InPin, ∃ s : State, s.pwr.vdd = true ∧ (inAt s i).active = true ∧ F.PWR_INCFG_STUCK.get i s ≠ 0 ∧ bitOf (F.PWR_INSTAT_STUCK.get
      0 s) i = false ∧ passed (inAt s i).changed (msCycles (F.PWR_INCFG_STUCK.get i s) s) s = true) ∧
    (∃ s : State, s.pwr.vdd = true ∧ sdSt s ≠ 4) ∧
    (∃ s : State, sdSt s = 1 ∧ gainsZero s = true ∧ passed s.pwr.sdAt (msCycles (F.PWR_MCFG_DWELL.get 0 s) s) s = true) ∧
    (∃ s : State, sdSt s = 2 ∧ passed s.pwr.sdAt (saveCycles s) s = true) ∧
    (∃ s : State, sdSt s = 3 ∧ running s = false ∧ s.pwr.returned = false) ∧
    (∃ s : State, sdSt s = 3 ∧ running s = false ∧ s.pwr.returned = true) ∧
    (∃ s : State, s.Canonical) ∧
    (∃ m : Master, ∃ s : State, ∃ v : W64, WriteReaches m (R.PWR_MCFG.addr 0) s ∧ s.lock = false ∧ sdSt s ≠ 4 ∧ F.PWR_MCFG_LOW.of v.toNat
      < F.PWR_MCFG_RET.of v.toNat) ∧
    (∃ m : Master, ∃ s : State, ∃ v : W64, WriteReaches m (R.PWR_JHOST.addr 0) s ∧ F.PWR_JHOST_HLEN.of v.toNat ≤ 32704 ∧
      F.PWR_JHOST_HADDR.of v.toNat % 8 = 0 ∧ 0x80000000 ≤ F.PWR_JHOST_HADDR.of v.toNat ∧ F.PWR_JHOST_HADDR.of v.toNat +
      F.PWR_JHOST_HLEN.of v.toNat ≤ dramEnd s) ∧
    (∃ m : Master, ∃ s : State, WriteReaches m (R.PWR_LP.addr 0) s ∧ running s = false ∧ sdSt s = 0) ∧
    (∃ s : State, F.PWR_KACFG_TAMPER_EN.on 0 s = true) ∧
    (∃ s : State, F.PWR_KACFG_CLK.on 0 s = true) :=
  ⟨⟨inS 0 ⟨true, false, 3, 7, 8⟩ up, by decide +kernel⟩,
   ⟨0, inS 0 ⟨true, false, 3, 7, 8⟩ (putF F.PWR_INCFG_POL 0 0 up), by decide +kernel⟩,
   ⟨0, putF F.PWR_INCFG_STUCK 0 5 (inS 0 ⟨true, true, 3, 7, 8⟩ up), by decide +kernel⟩,
   ⟨putF F.PWR_MSTAT_BELOW 0 0 (putF F.PWR_MCFG_SD_EN 0 1 (putF F.PWR_MCFG_NLOW 0 1 (putF F.PWR_MCFG_NRET 0 1 (putF F.PWR_MCFG_LOW 0 100
     (putF F.PWR_MCFG_RET 0 200 (sd 0 up)))))), by decide +kernel⟩,
   ⟨pw (fun p => { p with gNum := 0, gDen := 1, sdAt := 0 }) (sd 1 { up with elapsed := 10000000000 }), by decide +kernel⟩,
   ⟨sd 2 ticking, by decide +kernel⟩,
   ⟨sd 3 up, by decide +kernel⟩,
   ⟨sd 3 (pw (fun p => { p with returned := true }) up), by decide +kernel⟩,
   ⟨put R.PWR_KALATCH 0 5 (put R.PWR_KACFG 0 3 up), by decide +kernel⟩,
   ⟨1, sd 0 up, (BitVec.ofNat 64 (fv F.PWR_MCFG_SD_EN 1 + fv F.PWR_MCFG_DWELL 9 + fv F.PWR_MCFG_NRET 15 + fv F.PWR_MCFG_NLOW 15 + fv
     F.PWR_MCFG_RET 1 + fv F.PWR_MCFG_LOW 0)), by decide +kernel⟩,
   ⟨1, up, (BitVec.ofNat 64 (fv F.PWR_JHOST_HADDR 0x80000000 + fv F.PWR_JHOST_HLEN 32704)), by decide +kernel⟩,
   ⟨1, up, by decide +kernel⟩,
   ⟨putF F.PWR_KACFG_TAMPER_EN 0 1 up, by decide +kernel⟩,
   ⟨putF F.PWR_KAALARM_ALARM 0 99 (putF F.PWR_KACFG_CLK 0 1 up), by decide +kernel⟩⟩

theorem witness_HostPortCommandsComplete :
    (∃ cmd : HcpByte, ∃ s : State,
        let fresh (op : Nat) : Prop := asleep s = false ∧ s.hcp.open_ = false ∧ hcpOp cmd.toNat = op ∧ hcpBad s cmd.toNat = false;
        fresh 0 ∧ accessPends 1 s = false ∧ s.clk.up = true ∧ hcpSize cmd.toNat = .b4 ∧ bitOf cmd.toNat 3 = false) ∧
    (∃ cmd : HcpByte, ∃ s : State,
        let fresh (op : Nat) : Prop := asleep s = false ∧ s.hcp.open_ = false ∧ hcpOp cmd.toNat = op ∧ hcpBad s cmd.toNat = false;
        fresh 1 ∧ accessPends 1 s = false ∧ s.clk.up = true ∧ hcpSize cmd.toNat = .b4 ∧ WriteReaches 1 (R.XBAR_AGE.addr 0) s ∧ s.lock =
          false) ∧
    (∃ cmd : HcpByte, ∃ s : State,
        let fresh (op : Nat) : Prop := asleep s = false ∧ s.hcp.open_ = false ∧ hcpOp cmd.toNat = op ∧ hcpBad s cmd.toNat = false;
        fresh 1 ∧ accessPends 1 s = false ∧ s.clk.up = true ∧ hcpSize cmd.toNat = .b4 ∧ s.hcp.cfg = none) ∧
    (∃ cmd : HcpByte, ∃ s : State,
        let fresh (op : Nat) : Prop := asleep s = false ∧ s.hcp.open_ = false ∧ hcpOp cmd.toNat = op ∧ hcpBad s cmd.toNat = false;
        fresh 2 ∧ passed 0 (msCycles 2 s) s = true) ∧
    (∃ cmd : HcpByte, ∃ s : State,
        let fresh (op : Nat) : Prop := asleep s = false ∧ s.hcp.open_ = false ∧ hcpOp cmd.toNat = op ∧ hcpBad s cmd.toNat = false;
        fresh 3) ∧
    (∃ cmd : HcpByte, ∃ s : State, s.hcp.open_ = false ∧ asleep s = false ∧ accessPends 1 s = true ∧ hcpOp cmd.toNat = 0 ∧ hcpBad s
      cmd.toNat = false) ∧
    (∃ s : State, s.hcp.open_ = true ∧ s.hcp.todo = [] ∧ s.hcp.cfg = none ∧ s.hcp.code = 0 ∧ s.hcp.op ≠ 2) ∧
    (∃ s : State, s.hcp.open_ = true ∧ s.hcp.todo = [] ∧ s.hcp.cfg = none ∧ s.hcp.code = 0 ∧ s.hcp.op = 1) ∧
    (∃ s : State, ∃ l : LaneSlot, ∃ k : Fin 8192, s.hcp.open_ = false ∧ asleep s = false ∧ s.bus.routeStall = [] ∧ s.pool.waits = [] ∧
      s.bus.waiting = [⟨.master 1, xyAddr l false k, .read .b4⟩] ∧ laneReleased s l = false) ∧
    (∃ s : State, ∃ m : Master, m.val ≠ 1 ∧ WriteReaches m (R.HCP_CFG.addr 0) s) :=
  ⟨⟨0x20, put R.STRATA_ICW 0 0x12345678 up, by decide +kernel⟩,
   ⟨0x60, up, by decide +kernel⟩,
   ⟨0x60, up, by decide +kernel⟩,
   ⟨0x80, up, by decide +kernel⟩,
   ⟨0xC0, up, by decide +kernel⟩,
   ⟨0x20, wt (xyAddr 20 false 9) { up with lanes := [(20, lane20)] }, by decide +kernel⟩,
   ⟨hc (fun h => { h with open_ := true, op := 0, out := [1,2] }) (putF F.HCP_STAT_CODE 0 5 up), by decide +kernel⟩,
   ⟨hc (fun h => { h with open_ := true, op := 1, out := [1] }) (putF F.HCP_STAT_CODE 0 5 up), by decide +kernel⟩,
   ⟨wt (xyAddr 20 false 9) { up with lanes := [(20, { lane20 with st := .idle })] }, 20, 9, by decide +kernel⟩,
   ⟨up, 2, by decide +kernel⟩⟩

theorem witness_DramCommandsComplete :
    (∃ m : Master, ∃ s : State, WriteReaches m (R.DRAM_CTRL.addr 0) s ∧ dramTaken s = false) ∧
    (∃ s : State, F.DRAM_STAT_BUSY.on 0 s = true ∧ boot s ≠ 1) ∧
    (∃ s : State, F.DRAM_STAT_BUSY.on 0 s = true ∧ boot s = 1 ∧ s.strata.hdr ≠ [] ∧ s.strata.warmReq = false ∧ 0x80000000 ≤ stageAddr s ∧
      stageAddr s + hdrField s 8 4 ≤ dramEnd s) ∧
    (∃ m : Master, ∃ v : Word, ∃ s : State, WriteReaches m (R.DRAM_CFG.addr 0) s ∧ dramTaken s = false ∧ s.lock = false ∧
      F.DRAM_CFG_SIZE.of v.toNat < 3 ∧ F.DRAM_CFG_RATE.of v.toNat < 3) ∧
    (∃ m : Master, ∃ s : State, WriteReaches m (R.DRAM_CFG.addr 0) s ∧ dramTaken s = true) :=
  ⟨⟨1, up, by decide +kernel⟩,
   ⟨putF F.DRAM_STAT_BUSY 0 1 (bootS 0 [1] up), by decide +kernel⟩,
   ⟨putF F.DRAM_STAT_BUSY 0 1 (bootS 1 (hdr_ 0 1 (pre1 (R.DRAM_CFG.addr 0) 9) 512 8 5 0) up), by decide +kernel⟩,
   ⟨1, (BitVec.ofNat 32 (fv F.DRAM_CFG_SIZE 2 + fv F.DRAM_CFG_RATE 2 + fv F.DRAM_CFG_RANKS 1)), up, by decide +kernel⟩,
   ⟨1, putF F.DRAM_STAT_READY 0 1 up, by decide +kernel⟩⟩

theorem witness_DecodeErrors :
    ∃ m : Master, ∃ a : Word, ∃ v : W64, ∃ s : State, a.toNat % 4 = 0 ∧ windowOf a.toNat s = none ∧ windowOf (a.toNat / 8 * 8) s = none ∧
      placeOf a.toNat = none ∧ ((∀ r ∈ [MatrixReq.read .b4, .write .b4 v], mustWait (.master m) a.toNat r s = false)) ∧ WriteReaches m
      a.toNat s :=
  ⟨0, 0x20150000, 5, up, by decide +kernel⟩

theorem witness_RefusedWrites :
    (∃ m : Master, ∃ s : State, ∃ l : LaneSlot, ∃ v : Word, WriteReaches m (R.LANE_FRAME.addr l) s ∧ laneReleased s l = false ∧ s.lock =
      false ∧ (64 < F.LANE_FRAME_OUT_CH.of v.toNat ∨ 256 < F.LANE_FRAME_IN_CH.of v.toNat ∨ 4096 < F.LANE_FRAME_IN_CH.of v.toNat * spt
      (rated s))) ∧
    (∃ m : Master, ∃ s : State, ∃ v : Word, WriteReaches m (R.DEC_ID_TIME.addr 0) s ∧ s.lock = false ∧ (F.DEC_ID_TIME_UPD_T.of v.toNat <
      F.DEC_ID_TIME_COMP_T.of v.toNat + 1 + F.DEC_ID_TIME_FADE_T.of v.toNat ∨ F.DEC_ID_TIME_COMP_T.of v.toNat = 0 ∨
      F.DEC_ID_TIME_FADE_T.of v.toNat = 0)) ∧
    (∃ m : Master, ∃ s : State, ∃ p : Fin 128, ∃ v : Word, WriteReaches m (R.SENSE_PT.addr p) s ∧ F.SENSE_PT_KIND.of v.toNat < 3 ∧
      F.SENSE_PT_EN.of v.toNat = 1 ∧ ((∃ q < 128, q ≠ p.val ∧ F.SENSE_PT_EN.on q s = true ∧ F.SENSE_PT_KIND.get q s = F.SENSE_PT_KIND.of
      v.toNat ∧ F.SENSE_PT_OWNER.get q s = F.SENSE_PT_OWNER.of v.toNat) ∨ (F.SENSE_PT_KIND.of v.toNat ≠ 0 ∧ 7 < F.SENSE_PT_OWNER.of
      v.toNat))) ∧
    (∃ m : Master, ∃ s : State, ∃ g j : Fin 16, ∃ v : W64, WriteReaches m (R.GAL_STSET.addr (16 * g + j)) s ∧ s.lock = false ∧ (8192 <
      F.GAL_STSET_XBASE.of v.toNat + F.GAL_STSET_XLEN.of v.toNat ∨ 8192 < F.GAL_STSET_YBASE.of v.toNat + F.GAL_STSET_YLEN.of v.toNat ∨
      2048 < F.GAL_STSET_XLEN.of v.toNat + F.GAL_STSET_YLEN.of v.toNat)) ∧
    (∃ m : Master, ∃ s : State, WriteReaches m (R.DRAM_CFG.addr 0) s ∧ (F.DRAM_STAT_READY.on 0 s = true ∨ F.DRAM_STAT_BUSY.on 0 s = true))
      :=
  ⟨⟨0, up, 20, 0x410040, by decide +kernel⟩,
   ⟨0, up, 0x00140A0A, by decide +kernel⟩,
   ⟨0, putF F.SENSE_PT_EN 6 1 (putF F.SENSE_PT_OWNER 6 0 up), 5, 0x80000007, by decide +kernel⟩,
   ⟨0, up, 15, 15, 0x6d67ffc000000000, by decide +kernel⟩,
   ⟨0, putF F.DRAM_STAT_READY 0 1 up, by decide +kernel⟩⟩

theorem witness_ShadowConflicts :
    ∃ m : Master, ∃ w : ShWrite, ∃ s : State, WriteReaches m (R.TICK_NETMARGIN.addr 0) s ∧ ((m.val = 1 → accessPends 1 s = false)) ∧
      s.shPend.filter (·.addr = R.TICK_NETMARGIN.addr 0) = [w] ∧ w.late = false ∧ w.master < 10 :=
  ⟨0, ⟨R.TICK_NETMARGIN.addr 0, 1, true, false, none, 4, none⟩, pend ⟨R.TICK_NETMARGIN.addr 0, 1, true, false, none, 4, none⟩ (up),
    by decide +kernel⟩

theorem witness_HistoryRing :
    ∃ r : SumpRaise, ∃ rest : List SumpRaise, ∃ s : State, s.sump.queue = r :: rest :=
  ⟨⟨0x7C, 3, 1, 9, 2⟩, [], putF F.SUMP_HIST_STAT_NEXT 0 0 (putF F.SUMP_HIST_STAT_COUNT 0 0
    { up with sump := { up.sump with queue := [⟨0x7C, 3, 1, 9, 2⟩] } }), by decide +kernel⟩

end Sys2Proof.Tests
end

