-- ==== Sys2Proof/Proofs/Words.lean ====
section
/-! SUPPORT. What a report stores, word by word: the records of a decode error and of an access error, the status bit of the event, and the
registers that the reactions to it change. -/

namespace Sys2Proof.Machine

/-! ### Sets of register words -/

/-- A register word outside what an effect stores keeps its value. -/
theorem find_stores {A : Nat → Bool} {a : Act} (ha : a.Stores A) {k : Nat} (h : A k = false) (s : State) :
    smFind (a.run s).regs k = smFind s.regs k := by
  refine within_keeps (f := fun s => smFind s.regs k) ha (fun u s hu => ?_) s
  cases u with
  | reg j v => exact find_insert_ne _ _ (by rintro rfl; exact absurd hu (by simp [h]))
  | nodeReset p => exact hu.elim
  | _ => rfl

open Classical in
/-- The words of some registers, as a set that an effect may store. -/
noncomputable def wordsOf (xs : List Where) (k : Nat) : Bool := decide (∃ x ∈ xs, x.has k)

theorem wordsOf_eq_true {xs : List Where} {k : Nat} : wordsOf xs k = true ↔ ∃ x ∈ xs, x.has k := by simp [wordsOf]

theorem wordsOf_eq_false {xs : List Where} {k : Nat} : wordsOf xs k = false ↔ ∀ x ∈ xs, ¬ x.has k := by simp [wordsOf]

theorem wordsOf_mono {xs ys : List Where} (h : ∀ x ∈ xs, x ∈ ys) {k : Nat} (hk : wordsOf xs k = true) : wordsOf ys k = true := by
  obtain ⟨x, hx, hxk⟩ := wordsOf_eq_true.mp hk
  exact wordsOf_eq_true.mpr ⟨x, h x hx, hxk⟩

/-- The words of a listed register lie in the set. -/
theorem wordsIn_wordsOf {xs : List Where} {r : Reg} (h : Where.all r ∈ xs) {i : Nat} (hi : i < dimsCount r.dims) (m : Nat) :
    WordsIn (wordsOf xs) r i m := fun w hw => wordsOf_eq_true.mpr ⟨_, h, i, hi, w, hw, m, rfl⟩

/-! ### The reactions to an event -/

/-- The registers that the reactions of the classes store (R528–R531). -/
def reactRegs : List Where :=
  [.all R.SUMP_STAT, .all R.MOD_STAT, .all R.RAIL_STAT, .all R.ROPE_STAT, .all R.PAIR_STAT, .all R.PAIR_HIST]

theorem reactRegs_notice : ∀ x ∈ reactRegs, x ∈ noticeRegs := by simp [reactRegs, noticeRegs]

theorem chanSafe_storesOnly {c : Nat} (h : c < 64) : (chanSafe c).Stores (wordsOf reactRegs) := by
  have hw := wordsIn_wordsOf (xs := reactRegs) (r := R.MOD_STAT) (by simp [reactRegs]) (i := c) h 0
  rw [chanSafe, stores_look]
  intro s
  dsimp only
  split
  · simp
  · simp [chanDisable, stores_fset (f := F.MOD_STAT_DIAG) hw, stores_fset (f := F.MOD_STAT_STATE) hw]

theorem railSafe_storesOnly {g : Nat} (h : g < 8) : (railSafe g).Stores (wordsOf reactRegs) := by
  have hw := wordsIn_wordsOf (xs := reactRegs) (r := R.RAIL_STAT) (by simp [reactRegs]) (i := g) h 0
  simp [railSafe, railSend, stores_fset (f := F.RAIL_STAT_STATE) hw, stores_fset (f := F.RAIL_STAT_TARGET) hw,
    stores_fset (f := F.RAIL_STAT_VCMD) hw, stores_fset (f := F.RAIL_STAT_DONE) hw]

theorem ropesRemoved_storesOnly : ropesRemoved.Stores (wordsOf reactRegs) := by
  have hw := wordsIn_wordsOf (xs := reactRegs) (r := R.ROPE_STAT) (by simp [reactRegs]) (i := 0) (by decide) 0
  rw [ropesRemoved, stores_look]
  intro s
  split
  · simp
  · simp [stores_fset (f := F.ROPE_STAT_SAFE_OFF) hw]

theorem pairSafe_storesOnly : pairSafe.Stores (wordsOf reactRegs) := by
  have hs := wordsIn_wordsOf (xs := reactRegs) (r := R.PAIR_STAT) (by simp [reactRegs]) (i := 0) (by decide) 0
  have hh := wordsIn_wordsOf (xs := reactRegs) (r := R.PAIR_HIST) (by simp [reactRegs]) (i := 0) (by decide) 0
  rw [pairSafe, stores_look]
  intro s
  split
  · simp [releaseOwn, sipQueue, stores_fset (f := F.PAIR_STAT_STATE) hs, stores_fset (f := F.PAIR_HIST_RELEASE) hh]
  · simp

theorem sumpState_storesOnly (x : Nat) : (F.SUMP_STAT_STATE.set 0 x).Stores (wordsOf reactRegs) :=
  stores_fset (wordsIn_wordsOf (r := R.SUMP_STAT) (by simp [reactRegs]) (by decide) 0) x

theorem enterSafe_storesOnly : enterSafe.Stores (wordsOf reactRegs) := by
  rw [enterSafe, stores_look]
  intro s
  split
  · simp
  · simp only [stores_acts_cons, stores_acts_nil, and_true, stores_onlyIf]
    exact ⟨sumpState_storesOnly _, stores_forEach.mpr fun c hc => chanSafe_storesOnly (List.mem_range.mp hc),
      stores_forEach.mpr fun g hg => railSafe_storesOnly (List.mem_range.mp hg), by simp [sdoSilent], ropesRemoved_storesOnly,
      by simp, pairSafe_storesOnly⟩

theorem enterNodeFault_storesOnly : enterNodeFault.Stores (wordsOf reactRegs) := by
  rw [enterNodeFault, stores_look]
  intro s
  split
  · simp
  · rw [stores_seq]
    refine ⟨sumpState_storesOnly _, ?_⟩
    split
    · simp
    · split <;> simp

/-- The reactions of the classes store the registers of the safe state and of NODE_FAULT alone. -/
theorem react_storesOnly (cs : List Nat) : (react cs).Stores (wordsOf reactRegs) := by
  rw [react]
  split
  · exact enterSafe_storesOnly
  · simp [enterNodeFault_storesOnly]

theorem enterSafe_notice : enterSafe.Stores (wordsOf noticeRegs) :=
  stores_mono enterSafe_storesOnly fun _ => wordsOf_mono reactRegs_notice

theorem note_notice (e : Ev) (d0 d1 d2 g : Nat) : (note e d0 d1 d2 g).Stores (wordsOf noticeRegs) := by
  have hn := evNum_lt e
  have hc := wordsIn_wordsOf (xs := noticeRegs) (r := R.SUMP_EVCNT) (by simp [noticeRegs]) (i := evNum e) hn 0
  have hs := wordsIn_wordsOf (xs := noticeRegs) (r := R.SUMP_EVSTAT) (by simp [noticeRegs]) (i := evNum e / 32)
    (evSrc_bound e) 0
  have hl := wordsIn_wordsOf (xs := noticeRegs) (r := R.SUMP_LOST) (by simp [noticeRegs]) (i := 0) (by decide) 0
  rw [note, stores_look]
  intro s
  simp only [stores_acts_cons, stores_acts_nil, and_true, stores_onlyIf]
  refine ⟨stores_inc hc _, stores_rset hs _, by simp, fun _ => ?_⟩
  split
  · simp
  · exact stores_inc (f := F.SUMP_LOST_COUNT) hl _

/-- Raising an event stores the registers of a report alone. -/
theorem raise_notice (e : Ev) (d0 d1 d2 g : Nat) : (raise e d0 d1 d2 g).Stores (wordsOf noticeRegs) := by
  have hs : (F.SUMP_STAT_SELF.set 0 1).Stores (wordsOf noticeRegs) :=
    stores_fset (wordsIn_wordsOf (r := R.SUMP_STAT) (by simp [noticeRegs]) (by decide) 0) 1
  have hr : ∀ cs, (react cs).Stores (wordsOf noticeRegs) := fun cs =>
    stores_mono (react_storesOnly cs) fun _ => wordsOf_mono reactRegs_notice
  simp [raise, sumpUse, selfFault, enterSafe_notice, note_notice, hs, hr]

/-- A decode error stores its record and the registers of a report alone. -/
theorem decodeErr_notice (id : Nat) (wr : Bool) (a : Nat) : (decodeErr id wr a).Stores (wordsOf noticeRegs) := by
  have hd := wordsIn_wordsOf (xs := noticeRegs) (r := R.XBAR_DERR) (by simp [noticeRegs]) (i := 0) (by decide) 0
  simp [decodeErr, raise_notice, stores_fset (f := F.XBAR_DERR_VALID) hd, stores_fset (f := F.XBAR_DERR_WR) hd,
    stores_fset (f := F.XBAR_DERR_MASTER) hd, stores_inc (f := F.XBAR_DERR_COUNT) hd, stores_fset (f := F.XBAR_DERR_ADDR) hd]

end Sys2Proof.Machine
end

