-- ==== Sys2Proof/Proofs/Records.lean ====
section
/-! SUPPORT. What a report leaves to be read: the status bit of its event, and records of several fields. -/

namespace Sys2Proof.Machine

/-! ### The status bit of an event -/

theorem bitOf_orPow (x : Nat) {k : Nat} (hk : k < 32) : bitOf ((x ||| 2 ^ k) % 2 ^ 32) k = true := by
  have h : ((x ||| 2 ^ k) % 2 ^ 32).testBit k = true := by
    rw [Nat.testBit_mod_two_pow, Nat.testBit_or, Nat.testBit_two_pow_self]; simp [hk]
  rw [Nat.testBit_eq_decide_div_mod_eq] at h
  simpa [bitOf] using h

/-- The words of the status bits and of the enables stand apart from those of the reactions. -/
theorem evstat_out {i : Nat} (hi : i < 8) : WordsOut (wordsOf reactRegs) R.SUMP_EVSTAT i 0 := fun w hw => by
  have hw : w < 1 := hw
  refine wordsOf_eq_false.mpr ?_
  rw [key_one rfl rfl]
  simp only [reactRegs, List.forall_mem_cons, List.not_mem_nil, false_imp_iff, implies_true, and_true]
  have base : R.SUMP_EVSTAT.base = 0x20030300 := rfl
  refine ⟨?_, ?_, ?_, ?_, ?_, ?_⟩ <;> rintro ⟨j, hj, v, hv, m, hk⟩
  · have : R.SUMP_STAT.base = 0x20030000 := rfl
    have hv : v < 1 := hv
    rw [key_zero rfl rfl] at hk; omega
  · have : R.MOD_STAT.base = 0x20090500 := rfl
    rw [key_one rfl rfl] at hk; omega
  · have : R.RAIL_STAT.base = 0x20098800 := rfl
    rw [key_one rfl rfl] at hk; omega
  · have : R.ROPE_STAT.base = 0x20060008 := rfl
    rw [key_zero rfl rfl] at hk; omega
  · have : R.PAIR_STAT.base = 0x20110008 := rfl
    rw [key_zero rfl rfl] at hk; omega
  · have : R.PAIR_HIST.base = 0x2011000C := rfl
    rw [key_zero rfl rfl] at hk; omega

/-- A full capture queue counts what it loses beside the status bits. -/
theorem evstat_out_lost {i : Nat} (hi : i < 8) : WordsOut (wordsOf [.all R.SUMP_LOST]) R.SUMP_EVSTAT i 0 := fun w hw => by
  have hw : w < 1 := hw
  refine wordsOf_eq_false.mpr fun x hx => ?_
  obtain rfl := List.mem_singleton.mp hx
  rintro ⟨j, hj, v, hv, m, hk⟩
  rw [key_one rfl rfl, key_zero rfl rfl] at hk
  have base : R.SUMP_EVSTAT.base = 0x20030300 := rfl
  have base' : R.SUMP_LOST.base < 0x20030200 := by decide
  have hv : v < 1 := hv
  omega

/-- What every class does with a raise sets the status bit. -/
theorem note_sets (e : Ev) (d0 d1 d2 g : Nat) (s : State) : EvSet e ((note e d0 d1 d2 g).run s) := by
  have out := evstat_out_lost (evSrc_bound e)
  have lost : (F.SUMP_LOST_COUNT.inc 0).Stores (wordsOf [.all R.SUMP_LOST]) :=
    stores_inc (f := F.SUMP_LOST_COUNT) (wordsIn_wordsOf (r := R.SUMP_LOST) (by simp) (by decide) 0) 1
  unfold EvSet note
  simp only [run_look, run_acts_cons, run_acts_nil]
  rw [val_stores (A := wordsOf [.all R.SUMP_LOST]) ?_ out, val_stores (A := wordsOf [.all R.SUMP_LOST]) (stores_setSump _) out, val_set]
  · exact bitOf_orPow _ (Nat.mod_lt _ (by decide))
  · rw [stores_onlyIf]
    intro _
    split
    · simp
    · exact lost

/-- A raise sets the status bit of its event, and its reactions leave it. -/
theorem raise_sets (e : Ev) (d0 d1 d2 g : Nat) (s : State) : EvSet e ((raise e d0 d1 d2 g).run s) := by
  unfold raise
  simp only [run_look, run_acts_cons, run_acts_nil]
  show bitOf _ _ = true
  rw [val_stores (react_storesOnly _) (evstat_out (evSrc_bound e))]
  exact note_sets ..

/-! ### Records of several fields -/

/-- Fields of a register stored one after another. -/
def storeFlds (i : Nat) (l : List (Fld × Nat)) : Act := forEach l fun p => p.1.set i p.2

theorem run_storeFlds_cons (i : Nat) (p : Fld × Nat) (l : List (Fld × Nat)) (s : State) :
    (storeFlds i (p :: l)).run s = (storeFlds i l).run ((p.1.set i p.2).run s) := run_forEach_cons ..

/-- A field apart from all those stored stays. -/
theorem get_storeFlds_apart {r : Reg} {i : Nat} {f : Fld} (hr : f.reg = r) (hf : f.lo ≤ f.hi ∧ f.hi < 32 * r.words) :
    ∀ {l : List (Fld × Nat)}, (∀ p ∈ l, p.1.reg = r ∧ p.1.lo ≤ p.1.hi ∧ f.apart p.1 = true) → ∀ s : State,
      f.get i ((storeFlds i l).run s) = f.get i s
  | [], _, _ => rfl
  | p :: l, h, s => by
    obtain ⟨hp, hl⟩ := List.forall_mem_cons.mp h
    obtain ⟨hpr, hpl, hap⟩ := hp
    rw [run_storeFlds_cons]
    refine (get_storeFlds_apart hr hf hl _).trans (get_set_beside f p.1 i p.2 0 s (hr.trans hpr.symm) (by omega) (by omega) (hr ▸ hf.2) ?_)
    simpa [Fld.apart, or_comm] using hap

/-- Each of them reads as the value stored in it. -/
theorem get_storeFlds {r : Reg} {i : Nat} : ∀ {l : List (Fld × Nat)}, (∀ p ∈ l, p.1.reg = r) → FldsOk r.words (l.map (·.1)) →
    ∀ s : State, ∀ p ∈ l, p.2 < 2 ^ p.1.width → p.1.get i ((storeFlds i l).run s) = p.2
  | [], _, _, _, _, hp => by cases hp
  | q :: l, hr, hok, s, p, hp => by
    intro hlt
    obtain ⟨hqr, hrl⟩ := List.forall_mem_cons.mp hr
    obtain ⟨hb, hd⟩ := hok
    obtain ⟨hq, hbl⟩ := List.forall_mem_cons.mp hb
    obtain ⟨hqd, hdl⟩ := List.pairwise_cons.mp hd
    rw [run_storeFlds_cons]
    rcases List.mem_cons.mp hp with rfl | hp
    · rw [get_storeFlds_apart hqr hq fun x hx => ⟨hrl x hx, (hbl _ (List.mem_map_of_mem hx)).1, hqd _ (List.mem_map_of_mem hx)⟩]
      have hle : p.1.lo ≤ p.1.hi + 1 := Nat.le_succ_of_le hq.1
      exact (get_set _ _ _ _ _ hle (hqr ▸ hq.2)).trans (Nat.mod_eq_of_lt hlt)
    · exact get_storeFlds hrl ⟨hbl, hdl⟩ _ p hp hlt

/-- Counting up in a field after others of its register have been stored is storing it. -/
theorem inc_after_storeFlds {r : Reg} {i n : Nat} {f : Fld} (hr : f.reg = r) (hf : f.lo ≤ f.hi ∧ f.hi < 32 * r.words)
    {l : List (Fld × Nat)} (h : ∀ p ∈ l, p.1.reg = r ∧ p.1.lo ≤ p.1.hi ∧ f.apart p.1 = true) (s : State) :
    (f.inc i n).run ((storeFlds i l).run s) = (f.set i (satInc f.width (f.get i s) n)).run ((storeFlds i l).run s) := by
  show (f.set i (satInc f.width (f.get i ((storeFlds i l).run s)) n)).run _ = _
  rw [get_storeFlds_apart hr hf h]

/-- The record of a decode error. -/
def derrFlds (id a : Nat) (wr : Bool) (s : State) : List (Fld × Nat) :=
  [(F.XBAR_DERR_VALID, 1), (F.XBAR_DERR_WR, b2n wr), (F.XBAR_DERR_MASTER, id),
    (F.XBAR_DERR_COUNT, satInc 16 (F.XBAR_DERR_COUNT.get 0 s) 1), (F.XBAR_DERR_ADDR, a)]

theorem decodeErr_run (id a : Nat) (wr : Bool) (s : State) :
    (decodeErr id wr a).run s = (raise .XBAR_DECODE id).run ((storeFlds 0 (derrFlds id a wr s)).run s) := by
  have h := inc_after_storeFlds (r := R.XBAR_DERR) (i := 0) (n := 1) (f := F.XBAR_DERR_COUNT) rfl (by decide)
    (l := [(F.XBAR_DERR_VALID, 1), (F.XBAR_DERR_WR, b2n wr), (F.XBAR_DERR_MASTER, id)])
    (by simp only [List.forall_mem_cons, List.not_mem_nil, false_imp_iff, implies_true, and_true]
        exact ⟨⟨rfl, by decide, by decide⟩, ⟨rfl, by decide, by decide⟩, ⟨rfl, by decide, by decide⟩⟩) s
  exact congrArg (fun t => (raise .XBAR_DECODE id).run ((F.XBAR_DERR_ADDR.set 0 a).run t)) h

/-- A decode error is logged whole. -/
theorem decodeErr_logs {id a : Nat} (hid : id < 1024) (ha : a < 2 ^ 32) (wr : Bool) (s : State) :
    let t := (decodeErr id wr a).run s
    F.XBAR_DERR_VALID.get 0 t = 1 ∧ F.XBAR_DERR_WR.get 0 t = b2n wr ∧ F.XBAR_DERR_MASTER.get 0 t = id ∧
      F.XBAR_DERR_ADDR.get 0 t = a ∧ F.XBAR_DERR_COUNT.get 0 t = satInc 16 (F.XBAR_DERR_COUNT.get 0 s) 1 ∧ EvSet .XBAR_DECODE t := by
  have out : WordsOut raiseRegs R.XBAR_DERR 0 0 := by unfold WordsOut; decide
  have stored := get_storeFlds (r := R.XBAR_DERR) (i := 0) (l := derrFlds id a wr s)
    (by simp only [derrFlds, List.forall_mem_cons, List.not_mem_nil, false_imp_iff, implies_true, and_true]
        exact ⟨rfl, rfl, rfl, rfl, rfl⟩)
    (show FldsOk 2 [F.XBAR_DERR_VALID, F.XBAR_DERR_WR, F.XBAR_DERR_MASTER, F.XBAR_DERR_COUNT, F.XBAR_DERR_ADDR] by
      unfold FldsOk; decide) s
  simp only [derrFlds, List.forall_mem_cons, List.not_mem_nil, false_imp_iff, implies_true, and_true] at stored
  have keep : ∀ f : Fld, f.reg = R.XBAR_DERR → f.get 0 ((decodeErr id wr a).run s) = f.get 0 ((storeFlds 0 (derrFlds id a wr s)).run s) :=
    fun f hf => by rw [decodeErr_run, get_stores (stores_raise _ _ _ _ _) (hf ▸ out)]
  have hwr : b2n wr < 2 := by cases wr <;> decide
  have hc : satInc 16 (F.XBAR_DERR_COUNT.get 0 s) 1 < 2 ^ 16 := by unfold satInc; omega
  obtain ⟨hv, hw, hm, hn, hd⟩ := stored
  refine ⟨(keep _ rfl).trans (hv (by decide)), (keep _ rfl).trans (hw hwr), (keep _ rfl).trans (hm hid), (keep _ rfl).trans (hd ha),
    (keep _ rfl).trans (hn hc), ?_⟩
  rw [decodeErr_run]
  exact raise_sets ..

end Sys2Proof.Machine
end

