-- ==== Sys2Proof/Proofs/Targets.lean ====
section
/-! SUPPORT. Frames by the kinds of update of an effect, and accesses of a master that reach their target. -/

namespace Sys2Proof.Machine

/-! ### Frames -/

/-- The kind of update that changes a component; none changes the queue. -/
def Part.kind : Part → Option Kind
  | .now => some .now | .elapsed => some .elapsed | .lock => some .lock | .live => some .live | .shPend => some .shPend
  | .bus => some .bus | .lanes => some .lane | .mem => some .mem | .ecc => some .ecc | .tick => some .tick | .sump => some .sump
  | .route => some .route | .rope => some .rope | .dly => some .dly | .gdma => some .gdma | .dec => some .dec | .sap => some .sap
  | .mods => some .mods | .pool => some .pool | .eth => some .eth | .t1s => some .t1s | .clt => some .clt | .ptp => some .ptp
  | .clk => some .clk | .pair => some .pair | .strata => some .strata | .pwr => some .pwr | .hcp => some .hcp | .pins => some .pins
  | .pending => none | .free => some .free

/-- A component that an effect does not touch is the same after it. -/
theorem same_of_touches {ks : List Kind} {a : Act} (ha : a.Touches ks) (hr : Kind.nodeReset ∉ ks) {p : Part}
    (hp : ∀ k, p.kind = some k → k ∉ ks) (s : State) : p.same s (a.run s) := by
  cases p with
  | now => exact touches_now ha (hp _ rfl) hr s
  | elapsed => exact touches_elapsed ha (hp _ rfl) hr s
  | lock => exact touches_lock ha (hp _ rfl) hr s
  | live => exact touches_live ha (hp _ rfl) hr s
  | shPend => exact touches_shPend ha (hp _ rfl) hr s
  | bus => exact touches_bus ha (hp _ rfl) hr s
  | lanes => exact touches_lanes ha (hp _ rfl) hr s
  | mem => exact touches_mem ha (hp _ rfl) hr s
  | ecc => exact touches_ecc ha (hp _ rfl) hr s
  | tick => exact touches_tick ha (hp _ rfl) hr s
  | sump => exact touches_sump ha (hp _ rfl) hr s
  | route => exact touches_route ha (hp _ rfl) hr s
  | rope => exact touches_rope ha (hp _ rfl) hr s
  | dly => exact touches_dly ha (hp _ rfl) hr s
  | gdma => exact touches_gdma ha (hp _ rfl) hr s
  | dec => exact touches_dec ha (hp _ rfl) hr s
  | sap => exact touches_sap ha (hp _ rfl) hr s
  | mods => exact touches_mods ha (hp _ rfl) hr s
  | pool => exact touches_pool ha (hp _ rfl) hr s
  | eth => exact touches_eth ha (hp _ rfl) hr s
  | t1s => exact touches_t1s ha (hp _ rfl) hr s
  | clt => exact touches_clt ha (hp _ rfl) hr s
  | ptp => exact touches_ptp ha (hp _ rfl) hr s
  | clk => exact touches_clk ha (hp _ rfl) hr s
  | pair => exact touches_pair ha (hp _ rfl) hr s
  | strata => exact touches_strata ha (hp _ rfl) hr s
  | pwr => exact touches_pwr ha (hp _ rfl) hr s
  | hcp => exact touches_hcp ha (hp _ rfl) hr s
  | pins => exact touches_pins ha (hp _ rfl) s
  | pending => exact run_pending a s
  | free => exact touches_free ha (hp _ rfl) s

theorem Part.same_trans {p : Part} {s t u : State} (h : p.same s t) (h' : p.same t u) : p.same s u := by
  cases p <;> exact Eq.trans h' h

/-- The kinds of update of a report beside an access. -/
abbrev reportKinds : List Kind := .bus :: raiseKinds

/-- A component that neither an access nor a report reaches has none of their kinds. -/
theorem kind_not_report {p : Part} (hp : p ∉ Part.bus :: noticeParts) : ∀ k, p.kind = some k → k ∉ reportKinds := by
  cases p <;> simp_all [Part.kind, noticeParts]

/-! ### An access that reaches its target -/

/-- The state in which an access is performed: the targets have granted it, and it may have been forwarded to the partner (R61, R66,
R496). -/
def atTarget (b r : SMap Nat) (l : List WriteMsg) (w : List SipMsg) (s : State) : State :=
  { s with bus := { s.bus with park := b, rank := r }, pair := { s.pair with sentWrites := l, waiting := w } }

/-- Nothing but the bus and the pair differs there. -/
theorem same_atTarget {p : Part} (hp : p ∉ Part.bus :: noticeParts) (b r : SMap Nat) (l : List WriteMsg) (w : List SipMsg) (s : State) :
    p.same s (atTarget b r l w s) := by
  cases p <;> first | rfl | simp [noticeParts] at hp

/-- A report after an access changes nothing else of the node. -/
theorem onlyChanges_report {a : Act} (ht : a.Touches reportKinds) (hs : a.Stores (wordsOf noticeRegs)) (b r : SMap Nat)
    (l : List WriteMsg) (w : List SipMsg) (s : State) : OnlyChanges [.bus] [] s (a.run (atTarget b r l w s)) := by
  refine ⟨fun p hp => ?_, fun k hk => ?_⟩
  · exact Part.same_trans (same_atTarget hp b r l w s) (same_of_touches ht (by decide) (kind_not_report hp) _)
  · exact find_stores hs (wordsOf_eq_false.mpr hk) (atTarget b r l w s)

theorem atTarget_self (s : State) : atTarget s.bus.park s.bus.rank s.pair.sentWrites s.pair.waiting s = s := rfl

/-- A command that writes a register is performed there where the write reaches it. -/
theorem arrive_atTarget {m a : Nat} {s : State} (h : WriteReaches m a s) (en v : Nat) (act : Act) :
    ∃ b r l w, (arrive m a en v act).run s = act.run (atTarget b r l w s) := arrive_run h en v act

/-- A grant changes only where the targets of the matrices park and whom they rank highest. -/
theorem grant_run (id : Nat) (as : List Nat) (s : State) :
    ∃ b r, (grant id as).run s = atTarget b r s.pair.sentWrites s.pair.waiting s := ⟨_, _, rfl⟩

/-- An access that need not wait is performed. -/
theorem busAccess_run {m : Master} {a : Nat} {r : MatrixReq} {s : State} (h : asleep s = false) (h1 : reqBeats r ≠ 0)
    (h16 : reqBeats r ≤ 16) (hw : mustWait (.master m) a r s = false) (tie : Bool) :
    (busAccess (.master m) a r tie).run s = (perform (.master m) a r 16 tie).run s := by
  have hi : issued (.master m) a r = true := by simp [issued, h1, h16]
  simp [busAccess, h, hi, hw]

/-- The slot that a single write of a master presents to its target. -/
def slotOfWrite (a n v : Nat) : SlotWr := ⟨a / 8 * 8, (2 ^ n - 1) * 2 ^ (a % 8), v % 2 ^ (8 * n) * 2 ^ (8 * (a % 8))⟩

/-- A single read of a master is performed at its target, and the answer is the master's. -/
theorem busAccess_read {m : Master} {a : Nat} {sz : Size} {s : State} (h : asleep s = false)
    (hw : mustWait (.master m) a (.read sz) s = false) : ∃ b r, (busAccess (.master m) a (.read sz)).run s =
      (oneRead (.master m) a (sizeBytes sz) fun v e => respond m [v] e).run (atTarget b r s.pair.sentWrites s.pair.waiting s) := by
  obtain ⟨b, r, hg⟩ := grant_run m [a] s
  refine ⟨b, r, ?_⟩
  rw [busAccess_run h (by simp [reqBeats]) (by simp [reqBeats]) hw, ← hg]
  rfl

/-- A single write of a master that reaches its target is performed there, and the answer is the master's. -/
theorem perform_write {m : Master} {a : Nat} {sz : Size} {v : W64} {s : State} (h : standbyDrops m a s = false)
    (ha : a % sizeBytes sz = 0) (tie : Bool) : ∃ b r l w, (perform (.master m) a (.write sz v) 16 tie).run s =
      (slotPut (.master m) (slotOfWrite a (sizeBytes sz) v.toNat) tie false fun e => respond m [] e).run (atTarget b r l w s) := by
  obtain ⟨b, r, hg⟩ := grant_run m [a] s
  let x := slotOfWrite a (sizeBytes sz) v.toNat
  have hen : x.en ≠ 0 := by
    have : 0 < (2 ^ sizeBytes sz - 1) * 2 ^ (a % 8) := Nat.mul_pos (by cases sz <;> decide) (Nat.two_pow_pos _)
    exact Nat.pos_iff_ne_zero.mp this
  obtain ⟨l, w, hf⟩ := forward_run m (firstByte x.addr x.en) (x.en / 2 ^ (firstByte x.addr x.en - x.addr))
    (x.data / 2 ^ (8 * (firstByte x.addr x.en - x.addr))) (atTarget b r s.pair.sentWrites s.pair.waiting s)
  refine ⟨b, r, l, w, ?_⟩
  have hd : standbyDrops m a (atTarget b r s.pair.sentWrites s.pair.waiting s) = false := h
  have hx : ([x].filter fun x => x.en ≠ 0) = [x] := by simp [hen]
  show (oneWrite (.master m) a (sizeBytes sz) v.toNat tie fun e => respond m [] e).run ((grant m [a]).run s) = _
  rw [hg, oneWrite, if_neg (by simp [ha])]
  show (arrives (.master m) a [x] _ _).run _ = _
  rw [arrives, run_look, if_neg (by simp [hd]), run_seq, hx, run_forEach_cons, run_forEach_nil, hf]
  rfl

/-- So is one that need not wait. -/
theorem busAccess_write {m : Master} {a : Nat} {sz : Size} {v : W64} {s : State} (h : WriteReaches m a s)
    (hw : mustWait (.master m) a (.write sz v) s = false) (ha : a % sizeBytes sz = 0) (tie : Bool) : ∃ b r l w,
    (busAccess (.master m) a (.write sz v) tie).run s =
      (slotPut (.master m) (slotOfWrite a (sizeBytes sz) v.toNat) tie false fun e => respond m [] e).run (atTarget b r l w s) := by
  rw [busAccess_run h.1 (by simp [reqBeats]) (by simp [reqBeats]) hw]
  exact perform_write h.2 ha tie

end Sys2Proof.Machine
end

