-- ==== Sys2Proof/Proofs/DecodeErrors.lean ====
section
/-! SUPPORT. Accesses to words that no window and no register takes. -/

namespace Sys2Proof.Machine

/-! ### Decode errors (R12, R71) -/

/-- An answer leaves the registers. -/
theorem respond_regs (id : Nat) (vs : List Nat) (err : Bool) (s : State) : ((respond id vs err).run s).regs = s.regs := rfl

theorem respond_answers (id : Nat) (vs : List Nat) (err : Bool) (s : State) :
    smFind ((respond id vs err).run s).bus.resp id = some ⟨vs.map (BitVec.ofNat 64), err⟩ := find_insert_self _ _ _

/-- A decode error that is answered: the record, the event, the answer, and nothing else. -/
theorem decodeErr_answered {m : Master} {a : Nat} (ha : a < 2 ^ 32) (wr : Bool) (vs : List Nat) (s : State) (b r : SMap Nat)
    (l : List WriteMsg) (w : List SipMsg) :
    let t := (Act.seq (decodeErr m wr a) (respond m vs)).run (atTarget b r l w s)
    smFind t.bus.resp m = some ⟨vs.map (BitVec.ofNat 64), false⟩ ∧ F.XBAR_DERR_VALID.get 0 t = 1 ∧ F.XBAR_DERR_WR.get 0 t = b2n wr ∧
      F.XBAR_DERR_MASTER.get 0 t = m ∧ F.XBAR_DERR_ADDR.get 0 t = a ∧
      F.XBAR_DERR_COUNT.get 0 t = satInc 16 (F.XBAR_DERR_COUNT.get 0 s) 1 ∧ EvSet .XBAR_DECODE t ∧ OnlyChanges [.bus] [] s t := by
  have hm : m.val < 1024 := by omega
  have hframe : (Act.seq (decodeErr m wr a) (respond m vs)).Touches reportKinds :=
    ⟨touches_mono (touches_decodeErr ..) fun _ => List.mem_cons_of_mem _, touches_respond (ks := reportKinds) (by decide) _ _ _⟩
  have hwords : (Act.seq (decodeErr m wr a) (respond m vs)).Stores (wordsOf noticeRegs) := ⟨decodeErr_notice m wr a, stores_respond _ _ _⟩
  obtain ⟨hv, hw, hi, had, hc, he⟩ := decodeErr_logs hm ha wr (atTarget b r l w s)
  exact ⟨respond_answers .., hv, hw, hi, had, hc, he, onlyChanges_report hframe hwords b r l w s⟩

/-- A 32-bit read of a word that no window and no register takes is a decode error. -/
theorem oneRead_unassigned {m : Master} {a : Nat} {s : State} (h4 : a % 4 = 0) (hw : windowOf a s = none) (hp : placeOf a = none)
    (k : Nat → Bool → Act) : (oneRead (.master m) a 4 k).run s = (Act.seq (decodeErr m false a) (k 0 false)).run s := by
  have hb : a / 4 * 4 = a := by omega
  unfold oneRead groupRead
  simp [h4, reaches, hw, hb, hp, reqId]

/-- The first byte of a 32-bit write is at its address. -/
theorem firstByte_slotOfWrite {a : Nat} (h4 : a % 4 = 0) (v : Nat) :
    firstByte (slotOfWrite a 4 v).addr (slotOfWrite a 4 v).en = a := by
  have h : a % 8 = 0 ∨ a % 8 = 4 := by omega
  unfold slotOfWrite firstByte
  dsimp only
  rcases h with h | h <;> rw [h]
  · rw [show ((List.range 8).find? fun i => bitOf ((2 ^ 4 - 1) * 2 ^ 0) i).getD 0 = 0 by decide]; omega
  · rw [show ((List.range 8).find? fun i => bitOf ((2 ^ 4 - 1) * 2 ^ 4) i).getD 0 = 4 by decide]; omega

/-- A group of which no byte is enabled is not written. -/
theorem groupWrite_none (q : Requester) (b v : Nat) (tie hush : Bool) : groupWrite q b 0 v tie hush = .done := by simp [groupWrite]

/-- A 32-bit write of a word that no register takes is a decode error. -/
theorem groupWrite_unassigned {m : Master} {a : Nat} (hp : placeOf a = none) (v : Nat) :
    groupWrite (.master m) a 0xF v false false = decodeErr m true a := by
  have hf : firstByte a 0xF = a := by
    rw [firstByte, show ((List.range 8).find? fun i => bitOf 0xF i).getD 0 = 0 by decide]; rfl
  simp [groupWrite, hp, hf, reqId]

theorem groupFails_none (m b : Nat) (s : State) : groupFails m b 0 s = false := by simp [groupFails]

theorem groupFails_unassigned {b : Nat} (hp : placeOf b = none) (m en : Nat) (s : State) : groupFails m b en s = false := by
  simp [groupFails, hp]

/-- A 32-bit write enables one half of its slot: the low one at a multiple of 8, else the high one. -/
theorem slotOfWrite_half {a : Nat} (h4 : a % 4 = 0) (v : Nat) :
    (a / 8 * 8 = a ∧ slotOfWrite a 4 v = ⟨a, 0xF, v % 2 ^ 32⟩) ∨
      (a / 8 * 8 + 4 = a ∧ slotOfWrite a 4 v = ⟨a / 8 * 8, 0xF0, v % 2 ^ 32 * 2 ^ 32⟩) := by
  unfold slotOfWrite
  have h : a % 8 = 0 ∨ a % 8 = 4 := by omega
  rcases h with h | h
  · left
    have ha : a / 8 * 8 = a := by omega
    exact ⟨ha, by rw [ha, h]; simp⟩
  · right
    exact ⟨by omega, by simp [h]⟩

/-- A 32-bit write to a word that no window and no register takes is a decode error. -/
theorem slotPut_unassigned {m : Master} {a : Nat} {s : State} (h4 : a % 4 = 0) (hw : windowOf (a / 8 * 8) s = none)
    (hp : placeOf a = none) (v : Nat) (k : Bool → Act) :
    (slotPut (.master m) (slotOfWrite a 4 v) false false k).run s = (Act.seq (decodeErr m true a) (k false)).run s := by
  have hfirst := firstByte_slotOfWrite h4 v
  have hen : (slotOfWrite a 4 v).en ≠ 0 := by
    rcases slotOfWrite_half h4 v with ⟨-, h⟩ | ⟨-, h⟩ <;> simp [h]
  by_cases hb : slotBare (slotOfWrite a 4 v).addr s = true
  · unfold slotPut
    simp [hen, hb, hfirst, reqId]
  · unfold slotPut
    rw [run_look]
    dsimp only
    rw [if_neg hen, if_neg (by simp [reaches, hb]), show (slotOfWrite a 4 v).addr = a / 8 * 8 from rfl, hw]
    rcases slotOfWrite_half h4 v with ⟨ha, h⟩ | ⟨ha, h⟩
    · simp [h, ha, groupWrite_none, groupWrite_unassigned hp, groupFails_none]
    · simp [h, ha, groupWrite_none, groupWrite_unassigned hp, groupFails_unassigned hp]

/-- Settles O55: neither window nor register takes the word, so the read and the write both come to `decodeErr`. -/
theorem decodeErrors : Obligations.DecodeErrors := by
  intro m a v s h4 hw hslot hp hwait hreach
  have ha : a.toNat < 2 ^ 32 := a.isLt
  refine ⟨⟨_, rfl, ?_⟩, ⟨_, rfl, ?_⟩⟩
  · obtain ⟨b, r, h⟩ := busAccess_read (sz := .b4) hreach.1 (hwait _ (by simp))
    rw [h]
    have hr := oneRead_unassigned (m := m) (s := atTarget b r s.pair.sentWrites s.pair.waiting s) h4 hw hp fun v e => respond m [v] e
    rw [show sizeBytes .b4 = 4 from rfl, hr]
    exact decodeErr_answered ha false [0] s b r _ _
  · obtain ⟨b, r, l, w, h⟩ := busAccess_write (sz := .b4) (v := v) hreach (hwait _ (by simp)) h4 false
    rw [h]
    have hr := slotPut_unassigned (m := m) (s := atTarget b r l w s) h4 hslot hp v.toNat fun e => respond m [] e
    rw [show sizeBytes .b4 = 4 from rfl, hr]
    exact decodeErr_answered ha true [] s b r l w

end Sys2Proof.Machine
end

