-- ==== Sys2Proof/Proofs/Places.lean ====
section
/-! SUPPORT. Where an address falls: the one register of its window that holds it. -/

namespace Sys2Proof.Machine

/-! ### Where an address falls -/

/-- Bytes from element 0 of a register to the end of its last element. -/
def Reg.span (r : Reg) : Nat := match r.dims with
  | [] => 4 * r.words
  | (c, st) :: _ => c * st

/-- A register and its mirror have no word in [lo, hi). -/
def RegEntry.away (e : RegEntry) (lo hi : Nat) : Bool :=
  let clear (b : Nat) : Bool := hi ≤ b || b + e.reg.span ≤ lo
  e.reg.dims.all (fun d => decide (0 < d.2)) && clear e.reg.base && e.reg.live.all clear

/-- A byte offset beyond the span of a register is in none of its elements. -/
theorem dimsFind_none {r : Reg} (hs : r.dims.all (fun d => decide (0 < d.2)) = true) {o : Nat} (h : r.span ≤ o) :
    dimsFind r.words r.dims o = none := by
  unfold Reg.span at h
  split at h
  · rename_i hd
    rw [hd, dimsFind, if_neg (by omega)]
  · rename_i c st ds hd
    rw [hd] at hs
    have hst : 0 < st := by simp only [List.all_cons, Bool.and_eq_true, decide_eq_true_eq] at hs; exact hs.1
    have hq : c ≤ o / st := (Nat.le_div_iff_mul_le hst).mpr h
    rw [hd, dimsFind, if_neg (by omega)]

/-- An address in a range that a register is away from falls in no word of it. -/
theorem placeIn_away {e : RegEntry} {lo hi a : Nat} (h : e.away lo hi = true) (hlo : lo ≤ a) (hhi : a < hi) : placeIn a e = none := by
  unfold RegEntry.away at h
  simp only [Bool.and_eq_true] at h
  obtain ⟨⟨hs, hb⟩, hl⟩ := h
  have off : ∀ b, (decide (hi ≤ b) || decide (b + e.reg.span ≤ lo)) = true → b ≤ a → dimsFind e.reg.words e.reg.dims (a - b) = none :=
    fun b hb hba => by
      simp only [Bool.or_eq_true, decide_eq_true_eq] at hb
      exact dimsFind_none hs (by omega)
  unfold placeIn
  dsimp only
  have hbase : (if e.reg.base ≤ a then (dimsFind e.reg.words e.reg.dims (a - e.reg.base)).map fun p => (⟨e, p.1, p.2, false⟩ : Place)
      else none) = none := by
    split
    · rw [off _ hb ‹_›]; rfl
    · rfl
  rw [hbase]
  cases hlive : e.reg.live with
  | none => rfl
  | some b =>
    rw [hlive] at hl
    dsimp only [Option.bind_some]
    split
    · rw [off _ hl ‹_›]; rfl
    · rfl

/-- The place of an address in a register, away from its mirror. -/
theorem placeIn_base {e : RegEntry} {a i w : Nat} (h : e.reg.base ≤ a) (hf : dimsFind e.reg.words e.reg.dims (a - e.reg.base) = some (i, w)) :
    placeIn a e = some ⟨e, i, w, false⟩ := by
  unfold placeIn
  simp [h, hf]

/-- The place of an address is its place in the one register of its table that the others are away from. -/
theorem placeOf_split {a lo hi : Nat} {pre post : List RegEntry} {e : RegEntry} {p : Place} (ht : regTableAt a = pre ++ e :: post)
    (hpre : pre.all (·.away lo hi) = true) (hlo : lo ≤ a) (hhi : a < hi) (hp : placeIn a e = some p) : placeOf a = some p := by
  have hnone : pre.findSome? (placeIn a) = none := List.findSome?_eq_none_iff.mpr fun x hx =>
    placeIn_away (List.all_eq_true.mp hpre x hx) hlo hhi
  rw [placeOf, ht, List.findSome?_append, hnone, List.findSome?_cons, hp]
  rfl

theorem routePolicy_addr (i : Nat) : R.ROUTE_POLICY.addr i = 0x20052000 + 8 * i := by
  show 0x20052000 + dimsOfs [(256, 0x8)] i = _
  simp [dimsOfs, dimsCount]
  omega

/-- Word `w` of element `i` of the route policies. -/
theorem placeOf_routePolicy (i : Fin 256) (w : Fin 2) :
    placeOf (R.ROUTE_POLICY.addr i + 4 * w) = some ⟨⟨R.ROUTE_POLICY, [F.ROUTE_POLICY_HOLD]⟩, i, w, false⟩ := by
  have ha := routePolicy_addr i
  have hi := i.isLt
  have hw := w.isLt
  have htab : regTableAt (R.ROUTE_POLICY.addr i + 4 * w) = regsRoute := by
    rw [ha]
    unfold regTableAt
    rw [if_neg (by omega), if_neg (by omega), show (0x20052000 + 8 * i.val + 4 * w.val) / 0x10000 = 0x2005 by omega]
    rfl
  refine placeOf_split (lo := 0x20052000) (hi := 0x20052800) (pre := regsRoute.take 5) (post := regsRoute.drop 6)
    (e := ⟨R.ROUTE_POLICY, [F.ROUTE_POLICY_HOLD]⟩) (htab.trans rfl) (by decide) (by omega) (by omega) ?_
  rw [ha]
  refine placeIn_base (show 0x20052000 ≤ _ by omega) (show dimsFind 2 [(256, 0x8)] (_ - 0x20052000) = _ from ?_)
  rw [show 0x20052000 + 8 * i.val + 4 * w.val - 0x20052000 = 8 * i.val + 4 * w.val by omega]
  simp [dimsFind, dimsCount]
  omega

end Sys2Proof.Machine
end

