-- ==== Sys2Proof/Proofs/RegisterWords.lean ====
section
/-! SUPPORT. What a single access of a master to a register word comes to. -/

namespace Sys2Proof.Machine

/-! ### The peripheral bridge -/

/-- The address lies in a peripheral block (R10). -/
def peripheral (a : Nat) : Prop := 0x20000000 ≤ a ∧ a < 0x20150000

theorem windowOf_peripheral {a : Nat} (h : peripheral a) (s : State) : windowOf a s = none := by
  obtain ⟨h1, h2⟩ := h
  unfold windowOf
  simp (disch := omega) only [if_neg]
  rw [if_neg (by simp; omega), if_neg (by simp; omega)]

theorem slotBare_peripheral {b : Nat} (h : peripheral b) (s : State) : slotBare b s = false := by
  obtain ⟨h1, h2⟩ := h
  have : chipTarget b = some 0 := by
    unfold chipTarget
    rw [if_neg (by omega), if_neg (by omega), if_pos (by simp [h1, h2])]
  simp [slotBare, this]

theorem laneWindow_none {a : Nat} (h : 0x10000000 ≤ a ∨ 0x440000 ≤ a % 0x1000000) : laneWindow a = none := by
  unfold laneWindow
  rw [if_neg (by simp; omega)]

theorem groupBars_none {a : Nat} (h : 0x10000000 ≤ a ∨ 0x440000 ≤ a % 0x1000000) (s : State) : groupBars s a = false := by
  unfold groupBars
  rw [laneWindow_none h]

/-- The words that a single access touches. -/
theorem mem_reqGroups {a b : Nat} {r : MatrixReq} (hr : ∃ sz, r = .read sz ∨ ∃ v, r = .write sz v) (hb : b ∈ reqGroups a r) :
    b = a / 4 * 4 ∨ b = a / 4 * 4 + 4 := by
  have key : ∀ sz, b ∈ ((List.range ((sizeBytes sz + 3) / 4)).map fun i => a / 4 * 4 + 4 * i) → b = a / 4 * 4 ∨ b = a / 4 * 4 + 4 := by
    intro sz h
    obtain ⟨i, hi, rfl⟩ := List.mem_map.mp h
    have hi := List.mem_range.mp hi
    have : (sizeBytes sz + 3) / 4 ≤ 2 := by cases sz <;> decide
    omega
  obtain ⟨sz, rfl | ⟨v, rfl⟩⟩ := hr
  · exact key sz hb
  · exact key sz hb

/-- A single access of a master outside the lane windows waits for no lane: only behind an earlier access of the host port (R59, R601). -/
theorem mustWait_off {m : Master} {a : Nat} {r : MatrixReq} {s : State} (hr : ∃ sz, r = .read sz ∨ ∃ v, r = .write sz v)
    (ha : 0x10000000 ≤ a / 4 * 4 ∨ 0x440000 ≤ a / 4 * 4 % 0x1000000 ∧ a / 4 * 4 % 0x1000000 + 4 < 0x1000000)
    (hm : m.val = 1 → accessPends 1 s = false) : mustWait (.master m) a r s = false := by
  have hbars : (reqGroups a r).any (groupBars s) = false := List.any_eq_false.mpr fun b hb => by
    have := mem_reqGroups hr hb
    rw [groupBars_none (by omega)]
    decide
  by_cases h1 : m.val = 1
  · simp [mustWait, laneBars, hbars, hm h1]
  · simp [mustWait, laneBars, hbars, reqId, h1]

/-- A 32-bit write of a register word of a peripheral block comes to the write of the register. -/
theorem slotPut_reg {m : Master} {a v : Nat} {p : Place} (h4 : a % 4 = 0) (ha : peripheral a) (hp : placeOf a = some p) (tie : Bool)
    (k : Bool → Act) (s : State) : ∃ e,
      (slotPut (.master m) (slotOfWrite a 4 v) tie false k).run s = (Act.seq (regWrite m p a (v % 2 ^ 32) tie) (k e)).run s := by
  have hb : peripheral (a / 8 * 8) := ⟨by have := ha.1; omega, by have := ha.2; omega⟩
  have hen : (slotOfWrite a 4 v).en ≠ 0 := by
    rcases slotOfWrite_half h4 v with ⟨-, h⟩ | ⟨-, h⟩ <;> simp [h]
  have hgo : ∀ u, groupWrite (.master m) a 0xF u tie false = regWrite m p a u tie := fun u => by simp [groupWrite, hp, reqId]
  refine ⟨groupFails m (a / 8 * 8 + 4) ((slotOfWrite a 4 v).en / 16)
    ((groupWrite (.master m) (a / 8 * 8) ((slotOfWrite a 4 v).en % 16) ((slotOfWrite a 4 v).data % 2 ^ 32) tie false).run s), ?_⟩
  unfold slotPut
  rw [run_look]
  dsimp only
  rw [if_neg hen, if_neg (by simp [reaches, show (slotOfWrite a 4 v).addr = a / 8 * 8 from rfl, slotBare_peripheral hb]),
    show (slotOfWrite a 4 v).addr = a / 8 * 8 from rfl, windowOf_peripheral hb]
  rcases slotOfWrite_half h4 v with ⟨he, h⟩ | ⟨he, h⟩
  · rw [h, he]
    simp [groupWrite_none, hgo, reqId]
  · rw [h, he]
    simp [groupWrite_none, hgo, reqId]

/-- A 32-bit read of a register word of a peripheral block comes to the read of the register. -/
theorem oneRead_reg {m : Master} {a : Nat} {p : Place} (h4 : a % 4 = 0) (ha : peripheral a) (hp : placeOf a = some p)
    (k : Nat → Bool → Act) (s : State) :
    (oneRead (.master m) a 4 k).run s = (regRead m p a true fun v e => k (v % 2 ^ 32) e).run s := by
  have hb : a / 4 * 4 = a := by omega
  unfold oneRead groupRead
  simp [h4, reaches, windowOf_peripheral ha, hb, hp, reqId]

/-! ### Register words -/

/-- Outside the Sump an access checks no parity. -/
theorem blockUse_off {a : Nat} (h : a < 0x20030000 ∨ 0x20040000 ≤ a) : blockUse a = .done := by
  unfold blockUse
  rw [decide_eq_false (by omega : ¬(0x20030000 ≤ a ∧ a < 0x20040000)) |> fun h => (Bool.decide_and _ _).symm.trans h]
  rfl

/-- A write of a register of one word. -/
theorem regWrite_word {p : Place} {a : Nat} (h : a < 0x20030000 ∨ 0x20040000 ≤ a) (hl : p.live = false) (hp : isPair p.e.reg = false)
    (hw : p.w = 0) (m v : Nat) (tie : Bool) (s : State) :
    (regWrite m p a v tie).run s = (elemWrite p.e p.i m v (fullMask 1) tie).run s := by
  simp [regWrite, blockUse_off h, hl, hp, hw, fullMask]

/-- A write of the low word of a pair is buffered (R83). -/
theorem regWrite_low {p : Place} {a : Nat} (h : a < 0x20030000 ∨ 0x20040000 ≤ a) (hl : p.live = false) (hp : isPair p.e.reg = true)
    (hw : p.w = 0) (m v : Nat) (tie : Bool) (s : State) : (regWrite m p a v tie).run s = (bufLow m a v).run s := by
  simp [regWrite, blockUse_off h, hl, hp, hw]

/-- A write of the high word commits both (R83). -/
theorem regWrite_high {p : Place} {a lo m : Nat} {s : State} (h : a < 0x20030000 ∨ 0x20040000 ≤ a) (hl : p.live = false)
    (hp : isPair p.e.reg = true) (hw : p.w = 1) (hb : buffered s m (a - 4) = some lo) (v : Nat) (tie : Bool) :
    (regWrite m p a v tie).run s =
      (elemWrite p.e p.i m (lo + v * 2 ^ 32) (fullMask 2) tie).run ((unbuf m (a - 4)).run s) := by
  simp [regWrite, blockUse_off h, hl, hp, hw, hb]

/-- A write that touches no shadowed field leaves the element as its access codes say, whatever it ties with. -/
theorem storeWrite_unshadowed (e : RegEntry) (i m v a : Nat) (tie held : Bool) (s : State) (h : WordsOut errRegs e.reg i m)
    (hs : (planWrite s.lock (e.reg.val i s m) v (fullMask e.reg.words) e.flds).sh = false) (hok : FldsOk e.reg.words e.flds) {f : Fld}
    (hf : f ∈ e.flds) (hr : f.reg = e.reg) :
    f.get i ((storeWrite e i m v (fullMask e.reg.words) a tie held).run s) m = fieldAfter s.lock f (f.get i s m) (f.of v) := by
  have hval : e.reg.val i ((storeWrite e i m v (fullMask e.reg.words) a tie held).run s) m =
      afterWrite e i m v (fullMask e.reg.words) s % 2 ^ (32 * e.reg.words) := by
    unfold storeWrite afterWrite
    simp only [run_look, run_acts_cons, run_acts_nil, hs, Bool.false_and, Bool.not_false, onlyIf_true, onlyIf_false, run_done]
    rw [val_stores (A := errRegs) ?_ h, val_set]
    split
    · exact stores_accessErr ..
    · rw [stores_onlyIf]; exact fun _ => stores_accessErr ..
  unfold Fld.get
  rw [hr, hval, bitsOf_mod _ (by have := hok.1 f hf; omega) (hok.1 f hf).2]
  exact of_planWrite s.lock _ v _ hok hf

end Sys2Proof.Machine
end

