-- ==== Sys2Proof/Proofs/BusRegisters.lean ====
section
/-! SUPPORT. The general commands on registers: a whole write, the words of a pair, and the record of an aborted burst. -/

namespace Sys2Proof.Machine

/-- A 32-bit write to a register word of a peripheral block is the write of the register, answered. -/
theorem busAccess_writeReg {m : Master} {a : Nat} {v : W64} {p : Place} {s : State} (h : WriteReaches m a s)
    (hm : m.val = 1 → accessPends 1 s = false) (h4 : a % 4 = 0) (ha : peripheral a) (hp : placeOf a = some p) (tie : Bool) :
    ∃ b r l w e, (busAccess (.master m) a (.write .b4 v) tie).run s =
      (respond m [] e).run ((regWrite m p a (v.toNat % 2 ^ 32) tie).run (atTarget b r l w s)) := by
  have hw : mustWait (.master m) a (.write .b4 v) s = false := mustWait_off ⟨_, .inr ⟨_, rfl⟩⟩ (.inl (by have := ha.1; omega)) hm
  obtain ⟨b, r, l, w, hgo⟩ := busAccess_write (sz := .b4) (v := v) h hw h4 tie
  obtain ⟨e, he⟩ := slotPut_reg h4 ha hp tie (fun e => respond m [] e) (atTarget b r l w s)
  exact ⟨b, r, l, w, e, hgo.trans he⟩

theorem placeOf_xbarAge : placeOf (R.XBAR_AGE.addr 0) = some ⟨⟨R.XBAR_AGE, [F.XBAR_AGE_LIMIT]⟩, 0, 0, false⟩ := rfl

/-- A write of the aging limit stores it. -/
theorem registerWrite_xbarAge {m : Master} {v : W64} {s : State} (h : WriteReaches m (R.XBAR_AGE.addr 0) s)
    (hm : m.val = 1 → accessPends 1 s = false) (hl : s.lock = false) (tie : Bool) :
    ∃ t, exec (.registerWrite m (BitVec.ofNat 32 (R.XBAR_AGE.addr 0)) .b4 v tie) s = .next t ∧
      F.XBAR_AGE_LIMIT.get 0 t = v.toNat % 256 := by
  refine ⟨_, rfl, ?_⟩
  obtain ⟨b, r, l, w, e, hrun⟩ := busAccess_writeReg (v := v) h hm (by decide) (by unfold peripheral; decide) placeOf_xbarAge tie
  rw [show (BitVec.ofNat 32 (R.XBAR_AGE.addr 0)).toNat = R.XBAR_AGE.addr 0 by decide, hrun,
    regWrite_word (by decide) rfl (by decide) rfl]
  have hsh : ∀ old u, (planWrite false old u (fullMask 1) [F.XBAR_AGE_LIMIT]).sh = false := fun old u => by
    simp [planWrite, planField, F.XBAR_AGE_LIMIT, Fld.of, bitsOf, fullMask]
  have hget := storeWrite_unshadowed ⟨R.XBAR_AGE, [F.XBAR_AGE_LIMIT]⟩ 0 m (v.toNat % 2 ^ 32) (R.XBAR_AGE.addr 0) tie false
    (atTarget b r l w s) (out_zero rfl rfl (by decide) 0 m)
    (by rw [show (atTarget b r l w s).lock = false from hl]; exact hsh ..) (by unfold FldsOk; decide) (List.mem_singleton.mpr rfl) rfl
  have hof : F.XBAR_AGE_LIMIT.of (v.toNat % 2 ^ 32) = v.toNat % 256 := by
    show v.toNat % 2 ^ 32 / 2 ^ 0 % 2 ^ (7 + 1 - 0) = _
    omega
  have hafter : ∀ old, fieldAfter false F.XBAR_AGE_LIMIT old (v.toNat % 256) = v.toNat % 256 := fun old => by
    simp [fieldAfter, F.XBAR_AGE_LIMIT]
  rw [get_master rfl, hof, show (atTarget b r l w s).lock = false from hl, hafter] at hget
  exact hget

/-- A register value has no more bits than its words. -/
theorem joinWords_lt : ∀ {ws : List Nat}, (∀ w ∈ ws, w < 2 ^ 32) → joinWords ws < 2 ^ (32 * ws.length)
  | [], _ => by decide
  | w :: ws, h => by
    obtain ⟨hw, hws⟩ := List.forall_mem_cons.mp h
    have ih := joinWords_lt hws
    rw [joinWords, List.length_cons, Nat.mul_succ, Nat.pow_add]
    omega

theorem val_lt (r : Reg) (i m : Nat) (s : State) : r.val i s m < 2 ^ (32 * r.words) := by
  have h := joinWords_lt (ws := (List.range r.words).map fun w => r.word i w m s) fun w hw => by
    obtain ⟨j, -, rfl⟩ := List.mem_map.mp hw
    exact (smGet _ s.regs _).isLt
  rw [List.length_map, List.length_range] at h
  exact h

/-! ### Pairs (R82, R83) -/

/-- An answer leaves every register. -/
theorem respond_val (r : Reg) (i id : Nat) (vs : List Nat) (err : Bool) (s : State) :
    r.val i ((respond id vs err).run s) = r.val i s := rfl

/-- The words of the route policies lie in a peripheral block. -/
theorem peripheral_routePolicy (i : Fin 256) (w : Fin 2) : peripheral (R.ROUTE_POLICY.addr i + 4 * w) := by
  rw [routePolicy_addr]
  exact ⟨by omega, by omega⟩

/-- A write of a low word waits in the buffer of its master, and the element stands. -/
theorem pairLowWrite_routePolicy {m : Master} {i : Fin 256} {v : Word} {s : State} (h : WriteReaches m (R.ROUTE_POLICY.addr i) s)
    (hm : m.val = 1 → accessPends 1 s = false) :
    ∃ t, exec (.pairLowWrite m (BitVec.ofNat 32 (R.ROUTE_POLICY.addr i)) v) s = .next t ∧
      buffered t m (R.ROUTE_POLICY.addr i) = some v.toNat ∧ R.ROUTE_POLICY.val i t = R.ROUTE_POLICY.val i s := by
  have hper := peripheral_routePolicy i 0
  have haddr := routePolicy_addr i
  rw [show R.ROUTE_POLICY.addr i + 4 * ((0 : Fin 2) : Nat) = R.ROUTE_POLICY.addr i from rfl] at hper
  obtain ⟨b, r, l, w, e, hrun⟩ := busAccess_writeReg (v := v.setWidth 64) h hm (by omega) hper (placeOf_routePolicy i 0) false
  have ha : (BitVec.ofNat 32 (R.ROUTE_POLICY.addr i)).toNat = R.ROUTE_POLICY.addr i := by rw [BitVec.toNat_ofNat]; omega
  have hv : (v.setWidth 64).toNat % 2 ^ 32 = v.toNat := by rw [BitVec.toNat_setWidth]; omega
  refine ⟨_, rfl, ?_⟩
  rw [ha, hrun, regWrite_low (by omega) rfl rfl rfl, hv]
  refine ⟨?_, rfl⟩
  show (smFind (smInsert s.bus.wbuf (latchKey m (R.ROUTE_POLICY.addr i)) (BitVec.ofNat 32 v.toNat)) _).map _ = _
  rw [find_insert_self]
  simp

/-- The route policies have no rule of their own. -/
theorem elemWrite_routePolicy (fs : List Fld) (i m v mask : Nat) (tie : Bool) : elemWrite ⟨R.ROUTE_POLICY, fs⟩ i m v mask tie =
    storeWrite ⟨R.ROUTE_POLICY, fs⟩ i m v mask (R.ROUTE_POLICY.addr i + 4) tie := rfl

/-- A write of a whole element of the route policies stores it. -/
theorem storeWrite_routePolicy (i m v a : Nat) (hi : i < 256) (s : State) :
    R.ROUTE_POLICY.val i ((storeWrite ⟨R.ROUTE_POLICY, [F.ROUTE_POLICY_HOLD]⟩ i m v (fullMask 2) a).run s) = v % 2 ^ 64 := by
  have hout : WordsOut errRegs R.ROUTE_POLICY i m := out_one rfl rfl (fun w hw => by
    have hw : w < 2 := hw
    have hb : R.ROUTE_POLICY.base = 0x20052000 := rfl
    exact errRegs_off (by omega) (by omega) (by omega) (by omega) (by omega) (by omega)) m
  have hget : F.ROUTE_POLICY_HOLD.get i ((storeWrite ⟨R.ROUTE_POLICY, [F.ROUTE_POLICY_HOLD]⟩ i m v (fullMask 2) a).run s) m =
      fieldAfter s.lock F.ROUTE_POLICY_HOLD (F.ROUTE_POLICY_HOLD.get i s m) (F.ROUTE_POLICY_HOLD.of v) :=
    storeWrite_field ⟨R.ROUTE_POLICY, [F.ROUTE_POLICY_HOLD]⟩ i m v a false false s hout (tieLost_none ..)
      (by unfold FldsOk; decide) (List.mem_singleton.mpr rfl) rfl
  have hof : ∀ x, F.ROUTE_POLICY_HOLD.of x = x % 2 ^ 64 := fun x => by simp [Fld.of, bitsOf, F.ROUTE_POLICY_HOLD]
  have hafter : ∀ old u, fieldAfter s.lock F.ROUTE_POLICY_HOLD old u = u := fun old u => by simp [fieldAfter, F.ROUTE_POLICY_HOLD]
  generalize (storeWrite ⟨R.ROUTE_POLICY, [F.ROUTE_POLICY_HOLD]⟩ i m v (fullMask 2) a).run s = t at hget ⊢
  have hlt : R.ROUTE_POLICY.val i t < 2 ^ 64 := val_lt ..
  rw [hafter, hof, get_master rfl] at hget
  exact (Nat.mod_eq_of_lt hlt).symm.trans ((hof _).symm.trans hget)

/-- A write of the high word commits both words of the element. -/
theorem pairHighWrite_routePolicy {m : Master} {i : Fin 256} {lo : Nat} {v : Word} {s : State}
    (h : WriteReaches m (R.ROUTE_POLICY.addr i + 4) s) (hm : m.val = 1 → accessPends 1 s = false)
    (hb : buffered s m (R.ROUTE_POLICY.addr i) = some lo) :
    ∃ t, exec (.pairHighWrite m (BitVec.ofNat 32 (R.ROUTE_POLICY.addr i + 4)) v) s = .next t ∧
      R.ROUTE_POLICY.val i t = lo + v.toNat * 2 ^ 32 := by
  have hper := peripheral_routePolicy i 1
  have haddr := routePolicy_addr i
  rw [show R.ROUTE_POLICY.addr i + 4 * ((1 : Fin 2) : Nat) = R.ROUTE_POLICY.addr i + 4 from rfl] at hper
  obtain ⟨b, r, l, w, e, hrun⟩ := busAccess_writeReg (v := v.setWidth 64) h hm (by omega) hper (placeOf_routePolicy i 1) false
  have ha : (BitVec.ofNat 32 (R.ROUTE_POLICY.addr i + 4)).toNat = R.ROUTE_POLICY.addr i + 4 := by rw [BitVec.toNat_ofNat]; omega
  have hv : (v.setWidth 64).toNat % 2 ^ 32 = v.toNat := by rw [BitVec.toNat_setWidth]; omega
  have hlo : lo < 2 ^ 32 := by
    obtain ⟨x, -, rfl⟩ := Option.map_eq_some_iff.mp hb
    exact x.isLt
  refine ⟨_, rfl, ?_⟩
  rw [ha, hrun, regWrite_high (by omega) rfl rfl rfl (lo := lo) hb, hv, respond_val, elemWrite_routePolicy,
    storeWrite_routePolicy _ _ _ _ i.isLt]
  exact Nat.mod_eq_of_lt (by omega)

theorem placeOf_tickNum : placeOf (R.TICK_NUM.addr 0) = some ⟨⟨R.TICK_NUM, [F.TICK_NUM_NUM]⟩, 0, 0, false⟩ := rfl

/-- A read that touches no codeword of a table goes on. -/
theorem tableCheck_nil (m : Nat) (k : Nat → Bool → Act) (ok : Act) (s : State) : (tableCheck m [] k ok).run s = ok.run s := by
  simp [tableCheck]

/-- A read of a low word answers it and latches the high word for its master. -/
theorem regRead_tickNum (m : Nat) (k : Nat → Bool → Act) (s : State) :
    (regRead m ⟨⟨R.TICK_NUM, [F.TICK_NUM_NUM]⟩, 0, 0, false⟩ (R.TICK_NUM.addr 0) true k).run s =
      (k (R.TICK_NUM.val 0 s % 2 ^ 32) false).run ((latchHigh m (R.TICK_NUM.addr 0) (R.TICK_NUM.val 0 s / 2 ^ 32)).run s) := by
  have hv : regShow ⟨⟨R.TICK_NUM, [F.TICK_NUM_NUM]⟩, 0, 0, false⟩ m s = R.TICK_NUM.val 0 s := val_master rfl 0 m s
  rw [← hv]
  unfold regRead
  rw [blockUse_off (by decide)]
  exact tableCheck_nil m k _ s

/-- So does the command. -/
theorem pairLowRead_tickNum {m : Master} {s : State} (h : asleep s = false) (hm : m.val = 1 → accessPends 1 s = false) :
    ∃ t, exec (.pairLowRead m (BitVec.ofNat 32 (R.TICK_NUM.addr 0))) s = .next t ∧
      smFind t.bus.resp m = some ⟨[BitVec.ofNat 64 (R.TICK_NUM.val 0 s % 2 ^ 32)], false⟩ ∧
      latched t m (R.TICK_NUM.addr 0 + 4) = some (R.TICK_NUM.val 0 s / 2 ^ 32) := by
  refine ⟨_, rfl, ?_⟩
  obtain ⟨b, r, hrun⟩ := busAccess_read (a := R.TICK_NUM.addr 0) (sz := .b4) h (mustWait_off ⟨_, .inl rfl⟩ (.inl (by decide)) hm)
  have hlt : R.TICK_NUM.val 0 s < 2 ^ 64 := val_lt R.TICK_NUM 0 0 s
  rw [show (BitVec.ofNat 32 (R.TICK_NUM.addr 0)).toNat = R.TICK_NUM.addr 0 by decide, hrun, show sizeBytes .b4 = 4 from rfl,
    oneRead_reg (by decide) (by unfold peripheral; decide) placeOf_tickNum, regRead_tickNum, Nat.mod_mod]
  refine ⟨respond_answers .., ?_⟩
  show (smFind (smInsert s.bus.latch (latchKey m (R.TICK_NUM.addr 0 + 4)) (BitVec.ofNat 32 (R.TICK_NUM.val 0 s / 2 ^ 32))) _).map _ = _
  rw [find_insert_self, Option.map_some, BitVec.toNat_ofNat, Nat.mod_eq_of_lt (by omega)]

/-! ### Aborted bursts (R75–R77) -/

/-- The record that an abort leaves, whatever came before it. -/
theorem noteAbort_record {id a n : Nat} (hid : id < 1024) (ha : a < 2 ^ 32) (hn : n < 32) (wr : Bool) (s : State) :
    let t := (noteAbort id a n wr).run s
    F.XBAR_ABORT_VALID.get 0 t = 1 ∧ F.XBAR_ABORT_MASTER.get 0 t = id ∧ F.XBAR_ABORT_BEATS.get 0 t = n ∧ F.XBAR_ABORT_ADDR.get 0 t = a := by
  have out : WordsOut raiseRegs R.XBAR_ABORT 0 0 := by unfold WordsOut; decide
  have hwr : b2n wr < 2 := by cases wr <;> decide
  have park : ∀ u, R.XBAR_ABORT.val 0 ((match grantPath id a with
      | t :: _ => setBus fun b => { b with park := smErase b.park t.1 }
      | [] => .done).run u) = R.XBAR_ABORT.val 0 u := fun u => by split <;> rfl
  have hval : R.XBAR_ABORT.val 0 ((noteAbort id a n wr).run s) = 2 ^ 63 + b2n wr * 2 ^ 62 + id * 2 ^ 52 + n * 2 ^ 32 + a := by
    unfold noteAbort
    simp only [run_acts_cons, run_acts_nil]
    rw [val_stores (stores_raise _ _ _ _ _) out]
    refine ((park _).trans (val_set ..)).trans (Nat.mod_eq_of_lt ?_)
    show _ < 2 ^ 64
    omega
  refine ⟨?_, ?_, ?_, ?_⟩
  · show bitsOf (R.XBAR_ABORT.val 0 _) 63 63 = 1
    rw [hval]; unfold bitsOf; omega
  · show bitsOf (R.XBAR_ABORT.val 0 _) 61 52 = id
    rw [hval]; unfold bitsOf; omega
  · show bitsOf (R.XBAR_ABORT.val 0 _) 36 32 = n
    rw [hval]; unfold bitsOf; omega
  · show bitsOf (R.XBAR_ABORT.val 0 _) 31 0 = a
    rw [hval]; unfold bitsOf; omega

/-- The burst of a reset master is recorded with the beats that its target has accepted. -/
theorem masterResetAbort_records (m : Master) (a : Word) {r : MatrixReq} (n : Nat) {s : State} (h : asleep s = false) (h1 : 1 ≤ reqBeats r)
    (h16 : reqBeats r ≤ 16) :
    ∃ t, exec (.masterResetAbort m a r n) s = .next t ∧ F.XBAR_ABORT_VALID.get 0 t = 1 ∧ F.XBAR_ABORT_MASTER.get 0 t = m ∧
      F.XBAR_ABORT_BEATS.get 0 t = min n (reqBeats r) ∧ F.XBAR_ABORT_ADDR.get 0 t = a.toNat := by
  refine ⟨_, rfl, ?_⟩
  unfold burstAbort
  rw [run_look, if_neg (by simp [h]; omega)]
  simp only [run_acts_cons, run_acts_nil]
  exact noteAbort_record (by omega) a.isLt (by omega) _ _

end Sys2Proof.Machine
end

