-- ==== Sys2Proof/Proofs/BusMemory.lean ====
section
/-! SUPPORT. Whole 64-bit writes of 40-bit memory words, at once and after a wait for a lane. -/

namespace Sys2Proof.Machine

/-! ### 40-bit words -/

/-- Bytes that are those of a number read as it. -/
theorem memLe_of_bytes (mem : List Host.Cell) : ∀ (n a v : Nat), (∀ i < n, memGet mem (a + i) = BitVec.ofNat 8 (v / 2 ^ (8 * i))) →
    memLe mem a n = v % 2 ^ (8 * n)
  | 0, _, _, _ => by simp [memLe, Nat.mod_one]
  | n + 1, a, v, h => by
    have h0 := h 0 (Nat.succ_pos n)
    have ih := memLe_of_bytes mem n (a + 1) (v / 2 ^ 8) fun i hi => by
      have := h (i + 1) (by omega)
      rw [show a + (i + 1) = a + 1 + i by omega, show 8 * (i + 1) = 8 + 8 * i by omega, Nat.pow_add, ← Nat.div_div_eq_div_mul] at this
      exact this
    rw [memLe, ih, show a = a + 0 from rfl, h0, show 8 * (n + 1) = 8 + 8 * n by omega, Nat.pow_add, Nat.mod_mul]
    simp

/-- A 40-bit word written is read back. -/
theorem word40_setWord40 {s : State} (h : Memory.wf s.mem = true) (a : Nat) (v : W40) : word40 ((setWord40 a v).run s) a = v := by
  have hv : memLe ((setWord40 a v).run s).mem a 5 = v.toNat % 2 ^ (8 * 5) :=
    memLe_of_bytes _ 5 a v.toNat fun i hi => memGet_memSetLe_in h hi
  rw [word40, hv]
  exact BitVec.eq_of_toNat_eq (by rw [BitVec.toNat_ofNat]; have := v.isLt; omega)

/-! ### Codewords -/

/-- Codewords lie whole in aligned 64-bit words. -/
theorem eccAddr_aligned {k c len : Nat} (h : eccAddr k = some (c, len)) : len = 8 ∧ c % 8 = 0 ∨ len = 4 ∧ c % 4 = 0 := by
  unfold eccAddr at h
  dsimp only at h
  split at h <;> simp only [Option.some.injEq, Prod.mk.injEq, reduceCtorEq] at h <;> obtain ⟨rfl, rfl⟩ := h
  · left; unfold xyAddr slotBase galBase; simp; omega
  · left; unfold xyAddr slotBase galBase; simp; omega
  · right; unfold progAddr slotBase galBase; omega
  · left; unfold galAddr galBase; omega
  · right; omega
  · left; omega
  · left; omega

theorem bitOf_255 {j : Nat} (h : j < 8) : bitOf 0xFF j = true := by
  interval_cases j <;> decide

/-- A write of a whole slot covers no codeword in part. -/
theorem slotsOn_whole {a d : Nat} (ha : a % 8 = 0) (key : Nat) :
    ((slotsOn [⟨a, 0xFF, d⟩] key).any (·) && !(slotsOn [⟨a, 0xFF, d⟩] key).all (·)) = false := by
  unfold slotsOn
  cases hk : eccAddr key with
  | none => rfl
  | some q =>
    obtain ⟨c, len⟩ := q
    have hal := eccAddr_aligned hk
    have hbyte : ∀ i, (decide (a ≤ c + i) && decide (c + i < a + 8) && bitOf 0xFF (c + i - a)) = decide (a ≤ c + i ∧ c + i < a + 8) :=
      fun i => by
        by_cases h : a ≤ c + i ∧ c + i < a + 8
        · simp [h.1, h.2, bitOf_255 (show c + i - a < 8 by omega)]
        · rw [decide_eq_false h]
          simp only [Bool.and_eq_false_iff, decide_eq_false_iff_not]
          omega
    simp only [List.any_cons, List.any_nil, Bool.or_false, hbyte]
    by_cases hin : a ≤ c ∧ c < a + 8
    · have : ((List.range len).map fun i => decide (a ≤ c + i ∧ c + i < a + 8)).all (·) = true := by
        simp only [List.all_map, List.all_eq_true, List.mem_range, Function.comp, decide_eq_true_eq]
        intro i hi; omega
      rw [this]; simp
    · have : ((List.range len).map fun i => decide (a ≤ c + i ∧ c + i < a + 8)).any (·) = false := by
        simp only [List.any_map, List.any_eq_false, List.mem_range, Function.comp, decide_eq_true_eq]
        intro i hi; omega
      rw [this]; simp

/-! ### Whole writes -/

/-- A write of a gallery word has no copy (R518). -/
theorem mirrorCopy_gal (m a : Nat) (s : State) : (mirrorCopy m a .gal).run s = s := by
  unfold mirrorCopy
  rw [run_look]
  dsimp only
  split <;> simp

/-- Applied elements rest on the applied words alone. -/
theorem liveVal_congr {s t : State} (h : t.live = s.live) (r : Reg) (i : Nat) : r.liveVal i t = r.liveVal i s := by
  unfold Reg.liveVal
  rw [h]

theorem liveOn_congr {s t : State} (h : t.live = s.live) (f : Fld) (i : Nat) : f.liveOn i t = f.liveOn i s := by
  unfold Fld.liveOn Fld.live
  rw [liveVal_congr h]

/-- While the copy of a gallery is off, a write of a lane word goes to no copy (R518). -/
theorem mirrorCopy_off {a : Nat} {s : State} (h : F.GAL_COPY_EN.liveOn (slotAt a / 17) s = false) (m : Nat) (w : Window) :
    (mirrorCopy m a w).run s = s := by
  unfold mirrorCopy
  rw [run_look]
  dsimp only
  split <;> simp [h]

/-- A whole 40-bit word stores both halves of its slot (R84). -/
theorem store_whole {w : Window} (hw : w.is40 = true) (id a d : Nat) (s : State) :
    ((⟨a, 0xFF, d⟩ : SlotWr).store w id).run s = (mirrorCopy id a w).run ((setWord40 a (BitVec.ofNat 40 d)).run s) := by
  have hnew : BitVec.ofNat 40 (d % 2 ^ 32 + d / 2 ^ 32 % 256 * 2 ^ 32) = BitVec.ofNat 40 d :=
    BitVec.eq_of_toNat_eq (by rw [BitVec.toNat_ofNat, BitVec.toNat_ofNat]; omega)
  unfold SlotWr.store
  rw [run_look, if_neg (by simp), if_pos hw]
  dsimp only
  rw [bitOf_255 (by decide), bitOf_255 (by decide), if_pos rfl, if_pos rfl, hnew, run_seq]

/-- A whole 40-bit word is written, its codeword made anew, and no error met (R84, R167). -/
theorem slotsWrite_whole {w : Window} (hw : w.is40 = true) {a d : Nat} (ha : a % 8 = 0) (id : Nat) (ev : Option Ev) (k : Bool → Act)
    (s : State) : ∃ fresh : Act, fresh.Touches [.ecc] ∧ (slotsWrite w id [⟨a, 0xFF, d⟩] ev k).run s =
      (k false).run (fresh.run ((mirrorCopy id a w).run ((setWord40 a (BitVec.ofNat 40 d)).run s))) := by
  have hprog : w ≠ .prog := by rintro rfl; cases hw
  have hnarrow : ([⟨a, 0xFF, d⟩] : List SlotWr).find? (·.narrow w) = none := by simp [SlotWr.narrow]
  have hlands : ([⟨a, 0xFF, d⟩] : List SlotWr).map (·.lands w id s) = [⟨a, 0xFF, d⟩] := by simp [SlotWr.lands, hprog]
  have hpair : (⟨a, 0xFF, d⟩ : SlotWr).pair w id = .done := by simp [SlotWr.pair, hprog]
  have hmarks : (s.ecc.marks.filter fun p => (slotsOn [⟨a, 0xFF, d⟩] p.1).any (·) && !(slotsOn [⟨a, 0xFF, d⟩] p.1).all (·)) = [] :=
    List.filter_eq_nil_iff.mpr fun p _ => by rw [slotsOn_whole ha]; decide
  refine ⟨onlyIf (!s.ecc.marks.isEmpty) (eccFresh fun key => (slotsOn [⟨a, 0xFF, d⟩] key).any (·)), by simp [eccFresh], ?_⟩
  unfold slotsWrite
  rw [run_look, hnarrow]
  dsimp only
  rw [hlands, hmarks, ← store_whole hw]
  simp [eccJudge, hpair]

/-- A whole write of a slot in a window of 40-bit words comes to that window. -/
theorem slotPut_window {m : Master} {a d : Nat} {w : Window} {s : State} (hwin : windowOf a s = some w) (hw : w.is40 = true)
    (tie : Bool) (k : Bool → Act) : (slotPut (.master m) ⟨a, 0xFF, d⟩ tie false k).run s =
      (slotsWrite w m [⟨a, 0xFF, d⟩] (ueEvent (.master m)) k).run s := by
  have hdram : dramOut w s = false := by
    have : w ≠ .dram := by rintro rfl; cases hw
    simp [dramOut, this]
  simp [slotPut, slotBare, reaches, hwin, windowWrite, hdram, reqId]

/-- A whole 64-bit write of a master to a 40-bit word that has no copy stores the word, and nothing new waits. -/
theorem perform_whole {m : Master} {a : Nat} {w : Window} {s : State} (h : standbyDrops m a s = false) (hwin : windowOf a s = some w)
    (hw : w.is40 = true) (ha : a % 8 = 0) (hcopy : ∀ u : State, u.live = s.live → (mirrorCopy m a w).run u = u)
    (hwf : Memory.wf s.mem = true) (v : W64) : let t := (perform (.master m) a (.write .b8 v) 16 false).run s
    word40 t a = v.setWidth 40 ∧ t.bus.waiting = s.bus.waiting := by
  obtain ⟨b, r, l, q, hrun⟩ := perform_write (sz := .b8) (v := v) h (show a % 8 = 0 from ha) false
  have hslot : slotOfWrite a (sizeBytes .b8) v.toNat = ⟨a, 0xFF, v.toNat⟩ := by
    have hv := v.isLt
    unfold slotOfWrite
    simp only [sizeBytes, ha, SlotWr.mk.injEq]
    omega
  obtain ⟨fresh, hf, hput⟩ := slotsWrite_whole hw (d := v.toNat) ha m (ueEvent (.master m)) (fun e => respond m [] e) (atTarget b r l q s)
  let u := (setWord40 a (BitVec.ofNat 40 v.toNat)).run (atTarget b r l q s)
  have hset : (setWord40 a (BitVec.ofNat 40 v.toNat)).Touches [.mem] := touches_setWord40 (by decide) _ _
  have hlive : u.live = s.live := touches_live hset (by decide) (by decide) _
  rw [hcopy u hlive] at hput
  have hword : word40 (fresh.run u) a = v.setWidth 40 := by
    unfold word40
    rw [touches_mem hf (by decide) (by decide)]
    refine (word40_setWord40 (s := atTarget b r l q s) hwf a _).trans ?_
    exact BitVec.eq_of_toNat_eq (by simp)
  have hwait : (fresh.run u).bus.waiting = s.bus.waiting := by
    rw [touches_bus hf (by decide) (by decide), touches_bus hset (by decide) (by decide)]
    rfl
  show word40 ((perform (.master m) a (.write .b8 v) 16 false).run s) a = _ ∧ _
  rw [hrun, hslot, slotPut_window (s := atTarget b r l q s) hwin hw, hput]
  exact ⟨hword, hwait⟩

/-! ### Gallery memory -/

theorem galAddr_eq (g : Fin 16) (w : Fin 262144) : galAddr g w = g.val * 0x1000000 + 0x800000 + 8 * w.val := by
  unfold galAddr galBase
  rw [Nat.mod_eq_of_lt w.isLt]

theorem windowOf_galAddr (g : Fin 16) (w : Fin 262144) (s : State) : windowOf (galAddr g w) s = some .gal := by
  have hg := g.isLt
  have hw := w.isLt
  have ho : (g.val * 0x1000000 + 0x800000 + 8 * w.val) % 0x1000000 = 0x800000 + 8 * w.val := by omega
  rw [galAddr_eq]
  unfold windowOf
  dsimp only
  rw [ho, if_pos (by omega), if_neg (by omega), if_pos (by simp; omega)]

/-- A whole write of a gallery word by a master stores it. -/
theorem memoryAccess_galWrite {m : Master} {g : Fin 16} {w : Fin 262144} {s : State} (h : WriteReaches m (galAddr g w) s)
    (hm : m.val = 1 → accessPends 1 s = false) (hwf : Memory.wf s.mem = true) (v : W64) :
    ∃ t, exec (.memoryAccess (.master m) (BitVec.ofNat 32 (galAddr g w)) (.write .b8 v)) s = .next t ∧
      word40 t (galAddr g w) = v.setWidth 40 := by
  have hg := g.isLt
  have hw := w.isLt
  have hgal := galAddr_eq g w
  have ha : (BitVec.ofNat 32 (galAddr g w)).toNat = galAddr g w := by rw [BitVec.toNat_ofNat]; omega
  refine ⟨_, rfl, ?_⟩
  rw [ha, busAccess_run h.1 (by simp [reqBeats]) (by simp [reqBeats]) (mustWait_off ⟨_, .inr ⟨_, rfl⟩⟩ (.inr (by omega)) hm)]
  exact (perform_whole h.2 (windowOf_galAddr g w s) rfl (by omega) (fun u _ => mirrorCopy_gal m _ u) hwf v).1

/-! ### Lane memory after a wait -/

theorem xAddr_eq (l : LaneSlot) (k : Fin 8192) :
    xyAddr l false k = l.val / 17 * 0x1000000 + l.val % 17 * 0x40000 + 8 * k.val := by
  unfold xyAddr slotBase galBase
  rw [Nat.mod_eq_of_lt k.isLt]
  simp

/-- A word within a lane window lies in the window of that lane. -/
theorem laneWindow_slot (l : LaneSlot) {o : Nat} (ho : o < 0x40000) :
    laneWindow (l.val / 17 * 0x1000000 + l.val % 17 * 0x40000 + o) = some l.val := by
  have hl := l.isLt
  have hr := Nat.mod_lt l.val (show 17 > 0 by decide)
  have hd := Nat.div_add_mod l.val 17
  generalize l.val / 17 = q at *
  generalize l.val % 17 = r at *
  have hmod : (q * 0x1000000 + r * 0x40000 + o) % 0x1000000 = r * 0x40000 + o := by omega
  unfold laneWindow
  rw [hmod, if_pos (by simp; omega)]
  unfold slotAt
  rw [hmod]
  simp only [Option.some.injEq]
  omega

theorem windowOf_xAddr (l : LaneSlot) (k : Fin 8192) (s : State) : windowOf (xyAddr l false k) s = some .x := by
  have hl := l.isLt
  have hk := k.isLt
  have hr := Nat.mod_lt l.val (show 17 > 0 by decide)
  have hq : l.val / 17 < 16 := by omega
  rw [xAddr_eq]
  generalize l.val / 17 = q at *
  generalize l.val % 17 = r at *
  have hmod : (q * 0x1000000 + r * 0x40000 + 8 * k.val) % 0x1000000 = r * 0x40000 + 8 * k.val := by omega
  unfold windowOf
  dsimp only
  rw [hmod, if_pos (by omega), if_pos (by omega), if_pos (by omega)]

/-- An access to a lane that is not released waits for no lane (R59). -/
theorem laneBars_idle {m : Master} {l : LaneSlot} {k : Fin 8192} {v : W64} {s : State} (h : laneReleased s l = false) :
    laneBars (.master m) (xyAddr l false k) (.write .b8 v) s = false := by
  have hx := xAddr_eq l k
  have hk := k.isLt
  have hbars : (reqGroups (xyAddr l false k) (.write .b8 v)).any (groupBars s) = false := List.any_eq_false.mpr fun b hb => by
    have hg : laneWindow b = some l.val := by
      rcases mem_reqGroups ⟨_, .inr ⟨_, rfl⟩⟩ hb with hb | hb
      · rw [show b = l.val / 17 * 0x1000000 + l.val % 17 * 0x40000 + 8 * k.val by omega]
        exact laneWindow_slot l (by omega)
      · rw [show b = l.val / 17 * 0x1000000 + l.val % 17 * 0x40000 + (8 * k.val + 4) by omega]
        exact laneWindow_slot l (by omega)
    simp [groupBars, hg, h]
  simp [laneBars, hbars]

/-- The node with no lane-window access waiting. -/
def noneWaiting (s : State) : State := { s with bus := { s.bus with waiting := [] } }

/-- The one access that waits is taken out of the queue and performed once its lane is not released (R60). -/
theorem resumeWaiting_one {m : Master} {a : Nat} {r : MatrixReq} {s : State} (h : asleep s = false)
    (hwait : s.bus.waiting = [⟨.master m, a, r⟩]) (hroute : s.bus.routeStall = []) (hbars : laneBars (.master m) a r s = false) :
    (resumeWaiting fun _ => true).run s = (perform (.master m) a r 16 false).run (noneWaiting s) := by
  have herase : (setBus fun b => { b with waiting := b.waiting.erase ⟨.master m, a, r⟩ }).run s = noneWaiting s := by
    have he : s.bus.waiting.erase ⟨.master m, a, r⟩ = [] := by rw [hwait, List.erase_cons_head]
    exact congrArg (fun l => ({ s with bus := { s.bus with waiting := l } } : State)) he
  unfold resumeWaiting
  rw [run_look, hwait, List.filter_cons_of_pos rfl, List.filter_nil, run_forEach_cons, run_forEach_nil, run_look]
  dsimp only
  rw [hwait, hroute, List.find?_cons_of_pos (by simp), h, hbars, ← herase]
  simp

/-- The access that waits goes on when its lane has ceased to be released (R60). -/
theorem laneWindowAccessResume_performs {m : Master} {l : LaneSlot} {k : Fin 8192} {v : W64} {s : State}
    (h : WriteReaches m (xyAddr l false k) s) (hwait : s.bus.waiting = [⟨.master m, xyAddr l false k, .write .b8 v⟩])
    (hroute : s.bus.routeStall = []) (hrel : laneReleased s l = false) (hcopy : F.GAL_COPY_EN.liveOn (l / 17) s = false)
    (hwf : Memory.wf s.mem = true) :
    ∃ t, exec .laneWindowAccessResume s = .next t ∧ t.bus.waiting = [] ∧ word40 t (xyAddr l false k) = v.setWidth 40 := by
  have hx := xAddr_eq l k
  have hk := k.isLt
  have hslot : slotAt (xyAddr l false k) = l.val := by
    have hwin := laneWindow_slot l (o := 8 * k.val) (by omega)
    rw [← hx] at hwin
    unfold laneWindow at hwin
    split at hwin
    · exact Option.some.inj hwin
    · cases hwin
  have hoff : ∀ u : State, u.live = s.live → (mirrorCopy m (xyAddr l false k) .x).run u = u := fun u hu =>
    mirrorCopy_off (by rw [hslot, liveOn_congr hu]; exact hcopy) m .x
  obtain ⟨hword, hnone⟩ := perform_whole (s := noneWaiting s) h.2 (windowOf_xAddr l k _) rfl (by omega) hoff hwf v
  refine ⟨_, rfl, ?_⟩
  rw [resumeWaiting_one h.1 hwait hroute (laneBars_idle hrel)]
  exact ⟨hnone, hword⟩

end Sys2Proof.Machine
end

