-- ==== Sys2Proof/Proofs/BusCommands.lean ====
section
/-! SUPPORT. A write of a slot map word (R89), and the accesses of the matrices together. -/

namespace Sys2Proof.Machine

/-! ### Slot maps -/

/-- The fields of a slot map word. -/
def slotmapFlds : List Fld :=
  [F.GAL_SLOTMAP_ACTIVE0, F.GAL_SLOTMAP_SLOT0, F.GAL_SLOTMAP_ACTIVE1, F.GAL_SLOTMAP_SLOT1, F.GAL_SLOTMAP_ACTIVE2,
    F.GAL_SLOTMAP_SLOT2, F.GAL_SLOTMAP_ACTIVE3, F.GAL_SLOTMAP_SLOT3]

theorem entryOf_slotmap : entryOf R.GAL_SLOTMAP = ⟨R.GAL_SLOTMAP, slotmapFlds⟩ := rfl

theorem slotmapFlds_ok : FldsOk 1 slotmapFlds := by unfold FldsOk; decide

/-- What a slot map word says of its four lanes. -/
def sameMap (x v : Nat) : Prop := ∀ b < 4, mapSlot x b = mapSlot v b ∧ mapActive x b = mapActive v b

/-- A whole write leaves in a slot map word what it says of the lanes. -/
theorem planWrite_slotmap (old v : Nat) : sameMap (planWrite false old v (fullMask 1) slotmapFlds).val v := by
  have hfld : ∀ f ∈ slotmapFlds, f.of (planWrite false old v (fullMask 1) slotmapFlds).val = f.of v := fun f hf => by
    have hrw : f.acc = .rw ∧ f.unlisted = [] := by
      simp only [slotmapFlds, List.mem_cons, List.not_mem_nil, or_false] at hf
      rcases hf with rfl | rfl | rfl | rfl | rfl | rfl | rfl | rfl <;> exact ⟨rfl, rfl⟩
    rw [of_planWrite false old v 1 slotmapFlds_ok hf]
    simp [fieldAfter, hrw]
  generalize (planWrite false old v (fullMask 1) slotmapFlds).val = x at hfld
  simp only [slotmapFlds, List.forall_mem_cons, List.not_mem_nil, false_imp_iff, implies_true, and_true] at hfld
  obtain ⟨a0, s0, a1, s1, a2, s2, a3, s3⟩ := hfld
  have active : ∀ b, bitsOf x (8 * b + 7) (8 * b + 7) = bitsOf v (8 * b + 7) (8 * b + 7) → mapActive x b = mapActive v b := fun b h => by
    unfold bitsOf at h
    rw [show 8 * b + 7 + 1 - (8 * b + 7) = 1 by omega, Nat.pow_one] at h
    simp only [mapActive, bitOf, h]
  intro b hb
  obtain rfl | rfl | rfl | rfl : b = 0 ∨ b = 1 ∨ b = 2 ∨ b = 3 := by omega
  · exact ⟨s0, active 0 a0⟩
  · exact ⟨s1, active 1 a1⟩
  · exact ⟨s2, active 2 a2⟩
  · exact ⟨s3, active 3 a3⟩

/-- Bits beyond the word say nothing. -/
theorem sameMap_mod (x : Nat) : sameMap (x % 2 ^ 32) x := by
  intro b hb
  unfold mapSlot mapActive bitOf
  obtain rfl | rfl | rfl | rfl : b = 0 ∨ b = 1 ∨ b = 2 ∨ b = 3 := by omega
  all_goals refine ⟨by omega, congrArg (· == 1) (by omega)⟩

/-- Words that say the same place the same lanes. -/
theorem mapSlots_congr {x v : Nat} (h : sameMap x v) :
    ((List.range 4).filter (mapActive x)).map (mapSlot x) = ((List.range 4).filter (mapActive v)).map (mapSlot v) := by
  have hf : (List.range 4).filter (mapActive x) = (List.range 4).filter (mapActive v) :=
    List.filter_congr fun b hb => (h b (List.mem_range.mp hb)).2
  rw [hf]
  exact List.map_congr_left fun b hb => (h b (List.mem_range.mp (List.mem_of_mem_filter hb))).1

theorem slotmap_addr (k : Nat) : R.GAL_SLOTMAP.addr k = 0xF00010 + k / 4 * 0x1000000 + k % 4 * 4 := by
  show 0xF00010 + dimsOfs [(16, 0x1000000), (4, 0x4)] k = _
  simp [dimsOfs, dimsCount]
  omega

theorem slotmap_out {k : Nat} (hk : k < 64) (m : Nat) : WordsOut errRegs R.GAL_SLOTMAP k m := fun w hw => by
  have hw : w < 1 := hw
  have hkey : R.GAL_SLOTMAP.key k w m = R.GAL_SLOTMAP.addr k + 4 * w := by
    unfold Reg.key
    rw [if_neg (by decide)]; rfl
  rw [hkey, slotmap_addr]
  exact errRegs_off (by omega) (by omega) (by omega) (by omega) (by omega) (by omega)

/-- A list without duplicates loses none. -/
theorem eraseDups_of_nodup : ∀ {l : List Nat}, l.Nodup → l.eraseDups = l
  | [], _ => rfl
  | x :: l, h => by
    obtain ⟨hx, hl⟩ := List.nodup_cons.mp h
    have hf : l.filter (fun y => !y == x) = l := List.filter_eq_self.mpr fun y hy => by
      simp only [Bool.not_eq_true', beq_eq_false_iff_ne]
      rintro rfl
      exact hx hy
    rw [List.eraseDups_cons, hf, eraseDups_of_nodup hl]

/-- A word of the same map in its place gives the gallery the same slots. -/
theorem mapSlots_replaced {x y : Nat} (h : sameMap x y) (i : Nat) (f : Nat → Nat) :
    mapSlots ((List.range 4).map fun j => if j = i then x else f j) = mapSlots ((List.range 4).map fun j => if j = i then y else f j) := by
  unfold mapSlots
  rw [List.flatMap_map, List.flatMap_map]
  refine List.flatMap_congr fun j _ => ?_
  by_cases hj : j = i
  · rw [if_pos hj, if_pos hj, mapSlots_congr h]
  · rw [if_neg hj, if_neg hj]

/-- The word that a write of a slot map word of a gallery would store. -/
abbrev newSlotmap (m : Master) (g : Fin 16) (i : Fin 4) (v : Word) (s : State) : Nat :=
  asWritten (entryOf R.GAL_SLOTMAP) (4 * g + i) m v.toNat (fullMask 1) s

theorem newSlotmap_same (m : Master) (g : Fin 16) (i : Fin 4) (v : Word) (s : State) : sameMap (newSlotmap m g i v s) v.toNat :=
  planWrite_slotmap (R.GAL_SLOTMAP.val (4 * g + i) s m) v.toNat

/-- A write whose slots are in range and differ is not dropped. -/
theorem wrSlotmap_run {m : Master} {g : Fin 16} {i : Fin 4} {v : Word} {s : State} (hslot : ∀ b < 4, mapSlot v.toNat b ≤ 16)
    (hn : (mapSlots ((List.range 4).map fun j => if j = i.val then v.toNat else R.GAL_SLOTMAP.val (4 * g + j) s)).Nodup) :
    (wrSlotmap m g i v.toNat (fullMask 1)).run s =
      (storeWrite (entryOf R.GAL_SLOTMAP) (4 * g + i) m v.toNat (fullMask 1) (R.GAL_SLOTMAP.addr (4 * g + i))).run s := by
  have hnew := newSlotmap_same m g i v s
  have hrange : (List.range 4).any (fun b => decide (16 < mapSlot (newSlotmap m g i v s) b)) = false :=
    List.any_eq_false.mpr fun b hb => by
      have hb := List.mem_range.mp hb
      have := hslot b hb
      rw [(hnew b hb).1]
      simpa using this
  unfold wrSlotmap
  rw [run_look, if_neg]
  show ¬((List.range 4).any (fun b => decide (16 < mapSlot (newSlotmap m g i v s) b)) || _) = true
  rw [hrange, mapSlots_replaced hnew, eraseDups_of_nodup hn]
  simp

/-- What a write of a slot map word leaves in it while LOCK is 0. -/
theorem storeWrite_slotmap (m : Master) (g : Fin 16) (i : Fin 4) (v : Word) {s : State} (hl : s.lock = false) :
    R.GAL_SLOTMAP.val (4 * g + i)
        ((storeWrite (entryOf R.GAL_SLOTMAP) (4 * g + i) m v.toNat (fullMask 1) (R.GAL_SLOTMAP.addr (4 * g + i))).run s) =
      newSlotmap m g i v s % 2 ^ 32 := by
  have hstored := storeWrite_val ⟨R.GAL_SLOTMAP, slotmapFlds⟩ (4 * g + i) m v.toNat (fullMask 1) (R.GAL_SLOTMAP.addr (4 * g + i)) false
    false s (slotmap_out (by omega) m) (tieLost_none ..)
  have hafter : afterWrite ⟨R.GAL_SLOTMAP, slotmapFlds⟩ (4 * g + i) m v.toNat (fullMask 1) s = newSlotmap m g i v s := by
    unfold afterWrite
    rw [hl]
    rfl
  rw [← val_master rfl (4 * g.val + i.val) m]
  exact hafter ▸ hstored

/-- A write that places each active lane in a slot of its own is stored, and the slot map in force stays (R89). -/
theorem galSlotmapWrite_stores {m : Master} {g : Fin 16} {i : Fin 4} {v : Word} {s : State}
    (h : WriteReaches m (R.GAL_SLOTMAP.addr (4 * g + i)) s) (hl : s.lock = false) (hslot : ∀ b < 4, mapSlot v.toNat b ≤ 16)
    (hn : (mapSlots ((List.range 4).map fun j => if j = i.val then v.toNat else R.GAL_SLOTMAP.val (4 * g + j) s)).Nodup) :
    ∃ t, exec (.galSlotmapWrite m g i v) s = .next t ∧
      (∀ b < 4, mapSlot (R.GAL_SLOTMAP.val (4 * g + i) t) b = mapSlot v.toNat b ∧
        mapActive (R.GAL_SLOTMAP.val (4 * g + i) t) b = mapActive v.toNat b) ∧
      R.GAL_SLOTMAP.liveVal (4 * g + i) t = R.GAL_SLOTMAP.liveVal (4 * g + i) s := by
  obtain ⟨b, r, l, w, hrun⟩ := arrive_atTarget h 0xF v.toNat (wrSlotmap m g i v.toNat (fullMask 1))
  let u := atTarget b r l w s
  refine ⟨_, rfl, ?_⟩
  rw [hrun, wrSlotmap_run (s := u) hslot hn, storeWrite_slotmap m g i v (s := u) hl]
  refine ⟨fun b hb => ?_, liveVal_congr (touches_live (touches_storeWrite ..) (by decide) (by decide) u) ..⟩
  obtain ⟨hs, ha⟩ := sameMap_mod (newSlotmap m g i v u) b hb
  obtain ⟨hs', ha'⟩ := newSlotmap_same m g i v u b hb
  exact ⟨hs.trans hs', ha.trans ha'⟩

/-- Settles O5: each clause is one access at its target. -/
theorem busCommandsComplete : Obligations.BusCommandsComplete :=
  ⟨fun _ _ tie _ h hm hl => registerWrite_xbarAge h hm hl tie,
   fun _ _ _ v _ h hm hwf => memoryAccess_galWrite h hm hwf v,
   fun _ _ h hm => pairLowRead_tickNum h hm,
   fun _ _ _ _ h hm => pairLowWrite_routePolicy h hm,
   fun _ _ _ _ _ h hm hb => pairHighWrite_routePolicy h hm hb,
   fun m a _ n _ h h1 h16 => masterResetAbort_records m a n h h1 h16,
   fun _ _ _ _ _ h hwait hroute hrel hcopy hwf => laneWindowAccessResume_performs h hwait hroute hrel hcopy hwf,
   fun _ _ _ _ _ h hl hslot hn => galSlotmapWrite_stores h hl hslot hn⟩

end Sys2Proof.Machine
end

