-- ==== Sys2Proof/Proofs/TickWords.lean ====
section
/-! SUPPORT. The control and configuration of the tick (R28, R46, R641), and the record of an access error (R73). -/

namespace Sys2Proof.Machine

/-! ### The record of an access error -/

/-- The record of an access error. -/
def accerrFlds (id a reason : Nat) (wr : Bool) (s : State) : List (Fld × Nat) :=
  [(F.XBAR_ACCERR_VALID, 1), (F.XBAR_ACCERR_WR, b2n wr), (F.XBAR_ACCERR_MASTER, id), (F.XBAR_ACCERR_REASON, reason),
    (F.XBAR_ACCERR_COUNT, satInc 16 (F.XBAR_ACCERR_COUNT.get 0 s) 1), (F.XBAR_ACCERR_ADDR, a)]

theorem accessErr_run (id a reason : Nat) (wr : Bool) (s : State) : (accessErr id a reason wr).run s =
    (raise .XBAR_ACCESS id reason).run ((storeFlds 0 (accerrFlds id a reason wr s)).run s) := by
  have h := inc_after_storeFlds (r := R.XBAR_ACCERR) (i := 0) (n := 1) (f := F.XBAR_ACCERR_COUNT) rfl (by decide)
    (l := [(F.XBAR_ACCERR_VALID, 1), (F.XBAR_ACCERR_WR, b2n wr), (F.XBAR_ACCERR_MASTER, id), (F.XBAR_ACCERR_REASON, reason)])
    (by simp only [List.forall_mem_cons, List.not_mem_nil, false_imp_iff, implies_true, and_true]
        exact ⟨⟨rfl, by decide, by decide⟩, ⟨rfl, by decide, by decide⟩, ⟨rfl, by decide, by decide⟩, ⟨rfl, by decide, by decide⟩⟩) s
  exact congrArg (fun t => (raise .XBAR_ACCESS id reason).run ((F.XBAR_ACCERR_ADDR.set 0 a).run t)) h

/-- An access error is recorded with its master, its reason and its address. -/
theorem accessErr_logs {id a reason : Nat} (hid : id < 1024) (ha : a < 2 ^ 32) (hr : reason < 4) (wr : Bool) (s : State) :
    let t := (accessErr id a reason wr).run s
    F.XBAR_ACCERR_VALID.get 0 t = 1 ∧ F.XBAR_ACCERR_WR.get 0 t = b2n wr ∧ F.XBAR_ACCERR_MASTER.get 0 t = id ∧
      F.XBAR_ACCERR_REASON.get 0 t = reason ∧ F.XBAR_ACCERR_ADDR.get 0 t = a := by
  have out : WordsOut raiseRegs R.XBAR_ACCERR 0 0 := by unfold WordsOut; decide
  have stored := get_storeFlds (r := R.XBAR_ACCERR) (i := 0) (l := accerrFlds id a reason wr s)
    (by simp only [accerrFlds, List.forall_mem_cons, List.not_mem_nil, false_imp_iff, implies_true, and_true]
        exact ⟨rfl, rfl, rfl, rfl, rfl, rfl⟩)
    (show FldsOk 2 [F.XBAR_ACCERR_VALID, F.XBAR_ACCERR_WR, F.XBAR_ACCERR_MASTER, F.XBAR_ACCERR_REASON, F.XBAR_ACCERR_COUNT,
      F.XBAR_ACCERR_ADDR] by unfold FldsOk; decide) s
  simp only [accerrFlds, List.forall_mem_cons, List.not_mem_nil, false_imp_iff, implies_true, and_true] at stored
  have keep : ∀ f : Fld, f.reg = R.XBAR_ACCERR →
      f.get 0 ((accessErr id a reason wr).run s) = f.get 0 ((storeFlds 0 (accerrFlds id a reason wr s)).run s) :=
    fun f hf => by rw [accessErr_run, get_stores (stores_raise _ _ _ _ _) (hf ▸ out)]
  have hwr : b2n wr < 2 := by cases wr <;> decide
  obtain ⟨hv, hw, hm, hre, -, hd⟩ := stored
  exact ⟨(keep _ rfl).trans (hv (by decide)), (keep _ rfl).trans (hw hwr), (keep _ rfl).trans (hm hid), (keep _ rfl).trans (hre hr),
    (keep _ rfl).trans (hd ha)⟩

/-! ### Writes of RUN -/

/-- Single registers that do not overlap. -/
theorem apart_zero {r r' : Reg} (hd : r.dims = []) (hp : r.perMaster = false) (hd' : r'.dims = []) (hp' : r'.perMaster = false)
    (h : r.base + 4 * r.words ≤ r'.base ∨ r'.base + 4 * r'.words ≤ r.base) (m n : Nat) : Apart r 0 m r' 0 n := fun w hw w' hw' => by
  rw [key_zero hd hp, key_zero hd' hp']
  omega

theorem entryOf_tickCtrl : entryOf R.TICK_CTRL = ⟨R.TICK_CTRL, [F.TICK_CTRL_RUN]⟩ := rfl
theorem entryOf_tickCfg : entryOf R.TICK_CFG = ⟨R.TICK_CFG, [F.TICK_CFG_F, F.TICK_CFG_FS]⟩ := rfl

/-- A register of the tick lies outside the records of errors and events. -/
theorem tick_out {r : Reg} (hd : r.dims = []) (hp : r.perMaster = false) (hw : r.words = 1) (hb : 0x20010000 ≤ r.base)
    (hb' : r.base < 0x20020000) (m : Nat) : WordsOut errRegs r 0 m := out_zero hd hp (fun w hw' => by
  exact errRegs_off (by omega) (by omega) (by omega) (by omega) (by omega) (by omega)) 0 m

theorem tickCtrl_out (m : Nat) : WordsOut errRegs R.TICK_CTRL 0 m := tick_out rfl rfl rfl (by decide) (by decide) m
theorem tickStat_out (m : Nat) : WordsOut errRegs R.TICK_STAT 0 m := tick_out rfl rfl rfl (by decide) (by decide) m
theorem tickCfg_out (m : Nat) : WordsOut errRegs R.TICK_CFG 0 m := tick_out rfl rfl rfl (by decide) (by decide) m

/-- What a write of `TICK_CTRL` stores: RUN, and nothing of the tick, its status and its configuration. -/
theorem storeWrite_tickCtrl (m v : Nat) (s : State) :
    let t := (storeWrite (entryOf R.TICK_CTRL) 0 m v (fullMask 1) (R.TICK_CTRL.addr 0)).run s
    F.TICK_CTRL_RUN.get 0 t = v % 2 ∧ running t = running s ∧ R.TICK_CFG.val 0 t = R.TICK_CFG.val 0 s ∧ t.tick = s.tick := by
  obtain ⟨hfld, hapart⟩ := storeWrite_spec ⟨R.TICK_CTRL, [F.TICK_CTRL_RUN]⟩ 0 m v (R.TICK_CTRL.addr 0) false false s (tickCtrl_out m)
    (tieLost_none ..) (by unfold FldsOk; decide)
  have hrun := hfld F.TICK_CTRL_RUN (List.mem_singleton.mpr rfl) rfl
  have hafter : ∀ l old u, fieldAfter l F.TICK_CTRL_RUN old u = u := fun l old u => by simp [fieldAfter, F.TICK_CTRL_RUN]
  rw [get_master rfl, hafter] at hrun
  have hof : F.TICK_CTRL_RUN.of v = v % 2 := by simp [Fld.of, bitsOf, F.TICK_CTRL_RUN]
  have hstat := hapart R.TICK_STAT 0 0 (tickStat_out 0) (apart_zero rfl rfl rfl rfl (by decide) _ _)
  have hcfg := hapart R.TICK_CFG 0 0 (tickCfg_out 0) (apart_zero rfl rfl rfl rfl (by decide) _ _)
  refine ⟨hrun.trans hof, ?_, hcfg, touches_tick (touches_storeWrite ..) (by decide) (by decide) s⟩
  unfold running Fld.on Fld.get
  rw [show F.TICK_STAT_RUNNING.reg = R.TICK_STAT from rfl]
  exact congrArg (fun v => bitsOf v _ _ == 1) hstat

/-! ### What leaves the tick alone -/

/-- The words of `TICK_CFG`, `TICK_CTRL` and `TICK_STAT`. -/
def tickWord (k : Nat) : Bool := k == R.TICK_CFG.base || k == R.TICK_CTRL.base || k == R.TICK_STAT.base

/-- The update changes neither the tick nor its configuration, its control and its status. -/
def Upd.sparesTick : Upd → Prop
  | .reg k _ => tickWord k = false
  | .tick _ | .nodeReset _ => False
  | _ => True

theorem tickWord_off {k : Nat} (h : k < 0x20010000 ∨ 0x20010018 ≤ k) : tickWord k = false := by
  simp only [tickWord, Bool.or_eq_false_iff, beq_eq_false_iff_ne]
  have h1 : R.TICK_CFG.base = 0x20010000 := rfl
  have h2 : R.TICK_CTRL.base = 0x20010010 := rfl
  have h3 : R.TICK_STAT.base = 0x20010014 := rfl
  omega

/-- Two footprints of an effect hold of each of its updates. -/
theorem within_and {p q : Upd → Prop} {a : Act} (hp : a.Within p) (hq : a.Within q) : a.Within fun u => p u ∧ q u := by
  induction a with
  | done => trivial
  | upd u => exact ⟨hp, hq⟩
  | seq a b iha ihb => exact ⟨iha hp.1 hq.1, ihb hp.2 hq.2⟩
  | look k ih => exact fun s => ih s (hp s) (hq s)

/-- Raising an event stores no register of the tick. -/
theorem tickWord_of_raise {k : Nat} (h : raiseRegs k = true) : tickWord k = false := by
  by_contra ht
  have off : raiseRegs R.TICK_CFG.base = false ∧ raiseRegs R.TICK_CTRL.base = false ∧ raiseRegs R.TICK_STAT.base = false := by decide
  obtain ⟨h1, h2, h3⟩ := off
  simp only [tickWord, Bool.not_eq_false, Bool.or_eq_true, beq_iff_eq] at ht
  rcases ht with (rfl | rfl) | rfl
  · exact absurd h (by simp [h1])
  · exact absurd h (by simp [h2])
  · exact absurd h (by simp [h3])

theorem spares_raise (e : Ev) (d0 d1 d2 g : Nat) : (raise e d0 d1 d2 g).Within Upd.sparesTick :=
  within_mono (fun u hu => by
    obtain ⟨hk, hs⟩ := hu
    cases u with
    | reg k v => exact tickWord_of_raise hs
    | tick x => exact absurd hk (show Kind.tick ∉ raiseKinds by decide)
    | nodeReset p => exact hs
    | _ => trivial) (within_and (touches_raise e d0 d1 d2 g) (stores_raise e d0 d1 d2 g))

/-- Storing a register elsewhere leaves the tick. -/
theorem spares_set {r : Reg} {i m : Nat} (h : ∀ w < r.words, tickWord (r.key i w m) = false) (v : Nat) :
    (r.set i v m).Within Upd.sparesTick := within_set fun w _ hw => h w hw

theorem spares_fset {f : Fld} {i m : Nat} (h : ∀ w < f.reg.words, tickWord (f.reg.key i w m) = false) (v : Nat) :
    (f.set i v m).Within Upd.sparesTick := fun _ => spares_set h _

/-- What an effect that leaves the tick leaves: the tick, and the values of its three registers. -/
theorem spares_tick {a : Act} (h : a.Within Upd.sparesTick) (s : State) : (a.run s).tick = s.tick :=
  within_keeps (f := (·.tick)) h (fun u s hu => by
    cases u with
    | tick | nodeReset => exact hu.elim
    | _ => rfl) s

theorem spares_val {a : Act} (h : a.Within Upd.sparesTick) {r : Reg} (hd : r.dims = []) (hp : r.perMaster = false) (hw : r.words = 1)
    (hr : tickWord r.base = true) (s : State) : r.val 0 (a.run s) = r.val 0 s := by
  have hs : a.Stores fun k => !tickWord k := within_mono (fun u hu => by
    cases u with
    | reg k v => simpa [Upd.sparesTick] using hu
    | nodeReset p => exact hu.elim
    | _ => trivial) h
  refine val_stores hs (fun w hw' => ?_) s
  rw [key_zero hd hp, show w = 0 by omega]
  simpa using hr

theorem spares_running {a : Act} (h : a.Within Upd.sparesTick) (s : State) : running (a.run s) = running s := by
  have := spares_val h (r := R.TICK_STAT) rfl rfl rfl (by decide) s
  unfold running Fld.on Fld.get
  rw [show F.TICK_STAT_RUNNING.reg = R.TICK_STAT from rfl, this]

theorem spares_run {a : Act} (h : a.Within Upd.sparesTick) (s : State) : F.TICK_CTRL_RUN.get 0 (a.run s) = F.TICK_CTRL_RUN.get 0 s := by
  have := spares_val h (r := R.TICK_CTRL) rfl rfl rfl (by decide) s
  unfold Fld.get
  rw [show F.TICK_CTRL_RUN.reg = R.TICK_CTRL from rfl, this]

/-! ### What a start of the tick takes anew -/

theorem spares_micJudge (i : Nat) : (micJudge i).Within Upd.sparesTick := by
  rw [micJudge, within_look]
  intro s
  dsimp only
  split
  · exact ⟨fun _ => trivial, spares_raise _ _ _ _ _⟩
  · split
    · exact fun _ => trivial
    · trivial

theorem spares_micsJudge : micsJudge.Within Upd.sparesTick := fun _ => within_forEach_of spares_micJudge

theorem spares_clk {f : Fld} (hd : f.reg.dims = []) (hp : f.reg.perMaster = false) (hb : 0x20020000 ≤ f.reg.base) (v : Nat) :
    (f.set 0 v).Within Upd.sparesTick := spares_fset (fun w _ => by rw [key_zero hd hp]; exact tickWord_off (by omega)) v

/-- A misalignment of a clock output may draw a rounding, and shows in registers of the clock unit. -/
theorem spares_setMis (n : Nat) (num : Int) (den : Nat) : (setMis n num den).Within Upd.sparesTick := by
  have mis : ∀ v, (F.CLK_OUTMIS_MIS.set n v).Within Upd.sparesTick := spares_fset fun w _ => by
    rw [key_one (r := F.CLK_OUTMIS_MIS.reg) rfl rfl]
    have : F.CLK_OUTMIS_MIS.reg.base ≥ 0x20020000 := by decide
    exact tickWord_off (by omega)
  have align : ∀ v, (F.CLK_ALIGNPEND_PEND.set 0 v).Within Upd.sparesTick := spares_clk rfl rfl (by decide)
  have both : ∀ x : Int, (Act.look fun s => acts [F.CLK_OUTMIS_MIS.set n (ofInt 32 x),
      F.CLK_ALIGNPEND_PEND.set 0 (putBits (F.CLK_ALIGNPEND_PEND.get 0 s) n n (b2n (decide (den < num.natAbs))))]).Within Upd.sparesTick :=
    fun x s => ⟨mis _, align _⟩
  unfold setMis roundFree
  split
  · exact both _
  · exact within_draw_of (fun _ => trivial) fun _ => both _

theorem spares_outLimits : outLimits.Within Upd.sparesTick := fun _ =>
  ⟨fun _ => trivial, within_forEach_of fun _ => spares_raise _ _ _ _ _⟩

theorem spares_outStepped (c : Int) : (outStepped c).Within Upd.sparesTick := fun _ => within_forEach_of fun _ => spares_setMis ..

theorem spares_rateTaken : rateTaken.Within Upd.sparesTick := by
  rw [rateTaken, within_look]
  intro s
  simp only [within_acts_cons, within_acts_nil, and_true]
  refine ⟨within_forEach.mpr fun g hg => ?_, spares_outLimits, spares_outStepped _, spares_micsJudge,
    within_forEach_of fun _ _ => trivial⟩
  have hg := List.mem_range.mp hg
  refine spares_fset (fun w hw => ?_) _
  rw [key_one (r := F.RAMP_STAT_WORDS.reg) rfl rfl]
  have hb : F.RAMP_STAT_WORDS.reg.base = 0xF10008 := rfl
  have hw : w < 1 := hw
  exact tickWord_off (by omega)

theorem spares_showBudget : showBudget.Within Upd.sparesTick := by
  have shown : ∀ (f : Fld) v, f.reg.dims = [] → f.reg.perMaster = false → f.reg.words = 1 → tickWord f.reg.base = false →
      (f.set 0 v).Within Upd.sparesTick := fun f v hd hp hw hb => spares_fset (fun w hw' => by
    rw [key_zero hd hp, show w = 0 by omega]; exact hb) v
  exact fun _ => ⟨shown _ _ rfl rfl rfl (by decide), shown _ _ rfl rfl rfl (by decide), shown _ _ rfl rfl rfl (by decide)⟩

theorem spares_familyRelock : familyRelock.Within Upd.sparesTick :=
  ⟨fun _ => trivial, fun _ => ⟨fun _ => trivial, fun _ => spares_clk rfl rfl (by decide) _⟩⟩

end Sys2Proof.Machine
end

