-- ==== Sys2Proof/Proofs/TickControl.lean ====
section
/-! SUPPORT. The commands of the tick while no edge is taken. -/

namespace Sys2Proof.Machine

/-! ### Start and stop -/

/-- A start of a tick that stands takes the configuration written last, and the first edge is to come. -/
theorem tickBegin_starts {s : State} (hr : running s = false) (hs : s.tick.starting = false) :
    (tickBegin.run s).tick = { s.tick with cfg := R.TICK_CFG.val 0 s, starting := true } ∧
      F.TICK_CTRL_RUN.get 0 (tickBegin.run s) = F.TICK_CTRL_RUN.get 0 s := by
  have hrest : (acts [showBudget, rateTaken]).Within Upd.sparesTick := ⟨spares_showBudget, spares_rateTaken⟩
  have hrun : tickBegin.run s = (acts [showBudget, rateTaken]).run
      ((setTick fun t => { t with cfg := R.TICK_CFG.val 0 s, starting := true }).run s) := by
    unfold tickBegin
    rw [run_look, hr, hs]
    rfl
  rw [hrun, spares_tick hrest, spares_run hrest]
  exact ⟨rfl, rfl⟩

/-- A tick that runs or has been started is not started again. -/
theorem tickBegin_again {s : State} (h : running s = true ∨ s.tick.starting = true) : tickBegin.run s = s := by
  unfold tickBegin
  rw [run_look, if_pos (by simpa using h)]
  rfl

/-- A write of RUN comes to what it stores, and where it is 1 to a start. -/
theorem wrTickCtrl_run (m v : Nat) (s : State) : let t := (storeWrite (entryOf R.TICK_CTRL) 0 m v (fullMask 1) (R.TICK_CTRL.addr 0)).run s
    (wrTickCtrl m v (fullMask 1)).run s = (onlyIf (F.TICK_CTRL_RUN.on 0 t) tickBegin).run t := rfl

theorem tickStart_begins {m : Master} {s : State} (h : WriteReaches m (R.TICK_CTRL.addr 0) s) (hr : running s = false)
    (hs : s.tick.starting = false) : ∃ t, exec (.tickStart m) s = .next t ∧ F.TICK_CTRL_RUN.get 0 t = 1 ∧ t.tick.starting = true ∧
      t.tick.cfg = R.TICK_CFG.val 0 s := by
  obtain ⟨b, r, l, w, hrun⟩ := arrive_atTarget h 0xF 1 (wrTickCtrl m 1 (fullMask 1))
  obtain ⟨hctrl, hstat, hcfg, htick⟩ := storeWrite_tickCtrl m 1 (atTarget b r l w s)
  refine ⟨_, rfl, ?_⟩
  rw [hrun, wrTickCtrl_run]
  generalize (storeWrite (entryOf R.TICK_CTRL) 0 m 1 (fullMask 1) (R.TICK_CTRL.addr 0)).run (atTarget b r l w s) = u at *
  have hon : F.TICK_CTRL_RUN.on 0 u = true := by unfold Fld.on; rw [hctrl]; rfl
  obtain ⟨htick', hctrl'⟩ := tickBegin_starts (hstat.trans hr) (show u.tick.starting = false by rw [htick]; exact hs)
  rw [hon, onlyIf_true, htick', hctrl']
  exact ⟨hctrl, rfl, hcfg⟩

theorem tickStart_again {m : Master} {s : State} (h : WriteReaches m (R.TICK_CTRL.addr 0) s)
    (hr : running s = true ∨ s.tick.starting = true) : ∃ t, exec (.tickStart m) s = .next t ∧ F.TICK_CTRL_RUN.get 0 t = 1 ∧
      t.tick = s.tick ∧ running t = running s := by
  obtain ⟨b, r, l, w, hrun⟩ := arrive_atTarget h 0xF 1 (wrTickCtrl m 1 (fullMask 1))
  obtain ⟨hctrl, hstat, -, htick⟩ := storeWrite_tickCtrl m 1 (atTarget b r l w s)
  refine ⟨_, rfl, ?_⟩
  rw [hrun, wrTickCtrl_run]
  generalize (storeWrite (entryOf R.TICK_CTRL) 0 m 1 (fullMask 1) (R.TICK_CTRL.addr 0)).run (atTarget b r l w s) = u at *
  have hon : F.TICK_CTRL_RUN.on 0 u = true := by unfold Fld.on; rw [hctrl]; rfl
  have hagain : tickBegin.run u = u := tickBegin_again (by rw [hstat, htick]; exact hr)
  rw [hon, onlyIf_true, hagain]
  exact ⟨hctrl, htick, hstat⟩

theorem tickStop_waits {m : Master} {s : State} (h : WriteReaches m (R.TICK_CTRL.addr 0) s) :
    ∃ t, exec (.tickStop m) s = .next t ∧ F.TICK_CTRL_RUN.get 0 t = 0 ∧ t.tick = s.tick ∧ running t = running s := by
  obtain ⟨b, r, l, w, hrun⟩ := arrive_atTarget h 0xF 0 (wrTickCtrl m 0 (fullMask 1))
  obtain ⟨hctrl, hstat, -, htick⟩ := storeWrite_tickCtrl m 0 (atTarget b r l w s)
  refine ⟨_, rfl, ?_⟩
  rw [hrun, wrTickCtrl_run]
  generalize (storeWrite (entryOf R.TICK_CTRL) 0 m 0 (fullMask 1) (R.TICK_CTRL.addr 0)).run (atTarget b r l w s) = u at *
  have hon : F.TICK_CTRL_RUN.on 0 u = false := by unfold Fld.on; rw [hctrl]; rfl
  rw [hon, onlyIf_false]
  exact ⟨hctrl, htick, hstat⟩

/-! ### Configuration -/

/-- What a write of `TICK_CFG` stores while LOCK is 0. -/
theorem storeWrite_tickCfg {m v : Nat} {s : State} (hl : s.lock = false) (hfs : F.TICK_CFG_FS.of v < 6) (hf : F.TICK_CFG_F.of v < 5) :
    let t := (storeWrite (entryOf R.TICK_CFG) 0 m v (fullMask 1) (R.TICK_CFG.addr 0)).run s
    F.TICK_CFG_FS.get 0 t = F.TICK_CFG_FS.of v ∧ F.TICK_CFG_F.get 0 t = F.TICK_CFG_F.of v ∧ t.tick = s.tick := by
  obtain ⟨hfld, -⟩ := storeWrite_spec ⟨R.TICK_CFG, [F.TICK_CFG_F, F.TICK_CFG_FS]⟩ 0 m v (R.TICK_CFG.addr 0) false false s (tickCfg_out m)
    (tieLost_none ..) (by unfold FldsOk; decide)
  have hgetfs := hfld F.TICK_CFG_FS (by simp) rfl
  have hgetf := hfld F.TICK_CFG_F (by simp) rfl
  have listedFs : ∀ old u, u < 6 → fieldAfter false F.TICK_CFG_FS old u = u := fun old u hu => by
    simp [fieldAfter, F.TICK_CFG_FS]; omega
  have listedF : ∀ old u, u < 5 → fieldAfter false F.TICK_CFG_F old u = u := fun old u hu => by
    simp [fieldAfter, F.TICK_CFG_F]; omega
  rw [get_master rfl, hl, listedFs _ _ hfs] at hgetfs
  rw [get_master rfl, hl, listedF _ _ hf] at hgetf
  exact ⟨hgetfs, hgetf, touches_tick (touches_storeWrite ..) (by decide) (by decide) s⟩

theorem tickCfgWrite_stores {m : Master} {v : Word} {s : State} (h : WriteReaches m (R.TICK_CFG.addr 0) s) (hr : running s = false)
    (hl : s.lock = false) (hfs : F.TICK_CFG_FS.of v.toNat < 6) (hf : F.TICK_CFG_F.of v.toNat < 5) :
    ∃ t, exec (.tickCfgWrite m v) s = .next t ∧ F.TICK_CFG_FS.get 0 t = F.TICK_CFG_FS.of v.toNat ∧
      F.TICK_CFG_F.get 0 t = F.TICK_CFG_F.of v.toNat ∧ t.tick = s.tick := by
  obtain ⟨b, r, l, w, hrun⟩ := arrive_atTarget h 0xF v.toNat (wrTickCfg m v.toNat (fullMask 1))
  obtain ⟨hgetfs, hgetf, htick⟩ := storeWrite_tickCfg (m := m) (s := atTarget b r l w s) hl hfs hf
  let u := (storeWrite (entryOf R.TICK_CFG) 0 m v.toNat (fullMask 1) (R.TICK_CFG.addr 0)).run (atTarget b r l w s)
  have hwr : (wrTickCfg m v.toNat (fullMask 1)).run (atTarget b r l w s) = (onlyIf (decide
      (F.TICK_CFG_FS.get 0 (atTarget b r l w s) % 2 ≠ F.TICK_CFG_FS.get 0 u % 2)) familyRelock).run u := by
    unfold wrTickCfg
    rw [run_look, show running (atTarget b r l w s) = false from hr]
    rfl
  have hrest : (onlyIf (decide (F.TICK_CFG_FS.get 0 (atTarget b r l w s) % 2 ≠ F.TICK_CFG_FS.get 0 u % 2)) familyRelock).Within
      Upd.sparesTick := (within_onlyIf ..).mpr fun _ => spares_familyRelock
  have hval := spares_val hrest (r := R.TICK_CFG) rfl rfl rfl (by decide) u
  have hget : ∀ f : Fld, f.reg = R.TICK_CFG → f.get 0 ((wrTickCfg m v.toNat (fullMask 1)).run (atTarget b r l w s)) = f.get 0 u := fun f hf => by
    unfold Fld.get
    rw [hf, hwr, hval]
  refine ⟨_, rfl, ?_⟩
  rw [hrun]
  refine ⟨(hget _ rfl).trans hgetfs, (hget _ rfl).trans hgetf, ?_⟩
  rw [hwr, spares_tick hrest]
  exact htick

theorem tickCfgWrite_dropped {m : Master} {v : Word} {s : State} (h : WriteReaches m (R.TICK_CFG.addr 0) s) (hr : running s = true) :
    ∃ t, exec (.tickCfgWrite m v) s = .next t ∧ R.TICK_CFG.val 0 t = R.TICK_CFG.val 0 s ∧ t.tick = s.tick ∧
      F.XBAR_ACCERR_VALID.get 0 t = 1 ∧ F.XBAR_ACCERR_WR.get 0 t = 1 ∧ F.XBAR_ACCERR_MASTER.get 0 t = m ∧
      F.XBAR_ACCERR_REASON.get 0 t = 3 ∧ F.XBAR_ACCERR_ADDR.get 0 t = R.TICK_CFG.addr 0 := by
  obtain ⟨b, r, l, w, hrun⟩ := arrive_atTarget h 0xF v.toNat (wrTickCfg m v.toNat (fullMask 1))
  have hwr : (wrTickCfg m v.toNat (fullMask 1)).run (atTarget b r l w s) = (accessErr m (R.TICK_CFG.addr 0) 3).run (atTarget b r l w s) := by
    unfold wrTickCfg
    rw [run_look, if_pos (show running (atTarget b r l w s) = true from hr)]
    rfl
  refine ⟨_, rfl, ?_⟩
  rw [hrun, hwr]
  exact ⟨val_stores (stores_accessErr _ _ _ _) (tickCfg_out 0) _, touches_tick (touches_accessErr _ _ _ _) (by decide) (by decide) _,
    accessErr_logs (by omega) (by decide) (by decide) true _⟩

end Sys2Proof.Machine
end

