-- ==== Sys2Proof/Proofs/TickShadows.lean ====
section
/-! SUPPORT. The application of a shadow write while the tick stands (R28). -/

namespace Sys2Proof.Machine

/-! ### Applied values -/

/-- Applied words stored in turn: a key that one of them has holds its word. -/
theorem find_live_forEach (xs : List Nat) (k : Nat → Nat) (v : Nat → Word) (s : State) (hk : ∀ x y, k x = k y → x = y) {w : Nat}
    (h : w ∈ xs ∨ smFind s.live (k w) = some (v w)) :
    smFind ((forEach xs fun w => .upd (.live (k w) (v w))).run s).live (k w) = some (v w) := by
  induction xs generalizing s with
  | nil => exact h.resolve_left List.not_mem_nil
  | cons x xs ih =>
    rw [run_forEach_cons]
    refine ih _ ?_
    by_cases hx : w = x
    · exact .inr (hx ▸ find_insert_self _ _ _)
    · rcases h with h | h
      · exact .inl ((List.mem_cons.mp h).resolve_left hx)
      · exact .inr ((find_insert_ne _ _ fun e => hx (hk _ _ e)).trans h)

/-- An applied element reads as the value stored in it. -/
theorem liveVal_setLive (r : Reg) (i v : Nat) (s : State) : r.liveVal i ((r.setLive i v).run s) = v % 2 ^ (32 * r.words) := by
  unfold Reg.liveVal
  have : ((List.range r.words).map fun w => (smGet (fun _ => r.rstWord i w) ((r.setLive i v).run s).live (r.addr i + 4 * w)).toNat) =
      (List.range r.words).map fun w => v / 2 ^ (32 * w) % 2 ^ 32 := by
    refine List.map_congr_left fun w hw => ?_
    unfold Reg.setLive smGet
    rw [find_live_forEach _ (fun w => r.addr i + 4 * w) (fun w => BitVec.ofNat 32 (v / 2 ^ (32 * w))) s (fun x y h => by omega) (.inl hw)]
    simp
  rw [this, List.range_eq_range', joinWords_split v r.words 0]
  simp

/-! ### Where a shadow stands -/

/-- The place of an address is in a register of its window, at its base or at its mirror. -/
theorem placeOf_mem {a : Nat} {p : Place} (h : placeOf a = some p) : p.e ∈ regTableAt a ∧
    ∃ b, (b = p.e.reg.base ∨ p.e.reg.live = some b) ∧ b ≤ a ∧ (dimsFind p.e.reg.words p.e.reg.dims (a - b)).isSome := by
  obtain ⟨e, he, hp⟩ := List.exists_of_findSome?_eq_some h
  have at_ : ∀ b live, (if b ≤ a then (dimsFind e.reg.words e.reg.dims (a - b)).map fun p => (⟨e, p.1, p.2, live⟩ : Place) else none) = some p →
      p.e = e ∧ b ≤ a ∧ (dimsFind e.reg.words e.reg.dims (a - b)).isSome := fun b live hb => by
    split at hb
    · obtain ⟨q, hq, rfl⟩ := Option.map_eq_some_iff.mp hb
      exact ⟨rfl, ‹_›, by simp [hq]⟩
    · cases hb
  unfold placeIn at hp
  dsimp only at hp
  split at hp
  · rename_i q hq
    cases hp
    obtain ⟨rfl, hle, hf⟩ := at_ _ _ hq
    exact ⟨he, _, .inl rfl, hle, hf⟩
  · obtain ⟨b, hb, hq⟩ := Option.bind_eq_some_iff.mp hp
    obtain ⟨rfl, hle, hf⟩ := at_ _ _ hq
    exact ⟨he, b, .inr hb, hle, hf⟩

/-- The registers of the statement whose shadows have no rule that holds their application back. -/
def freeShadows : List RegName := [.TICK_NETMARGIN, .GAL_SLICE, .LANE_ENABLE, .ROUTE_POLICY, .LANE_FRAME, .DRAM_DLY_LINE]

/-- Of the gallery registers only `GAL_SLICE` is one of them. -/
theorem freeShadows_gallery : regsGal.all (fun e => !freeShadows.contains e.reg.name || (e.reg.dims == [(16, 0x1000000)] && e.reg.words == 1 &&
    e.reg.base == 0xF00004 && e.reg.live == some 0xF00008)) = true := by decide

/-- None of them is a ramp target or a slot map word (R212, R562). -/
theorem freeShadow_notBlocked {w : ShWrite} {p : Place} (hp : placeOf w.addr = some p) (hn : p.e.reg.name ∈ freeShadows) :
    isRampTgt w = false ∧ isSlotmap w = false := by
  by_cases hg : w.addr < 0x10000000 ∧ 0x440000 ≤ w.addr % 0x1000000
  · obtain ⟨hmem, b, hb, hle, hf⟩ := placeOf_mem hp
    have htab : regTableAt w.addr = regsGal := by unfold regTableAt; rw [if_pos hg.1, if_neg (by omega)]
    have hslice := List.all_eq_true.mp freeShadows_gallery _ (htab ▸ hmem)
    simp only [List.contains_iff_mem.mpr hn, Bool.not_true, Bool.false_or, Bool.and_eq_true, beq_iff_eq] at hslice
    obtain ⟨⟨⟨hd, hw⟩, hbase⟩, hlive⟩ := hslice
    have hb' : b = 0xF00004 ∨ b = 0xF00008 := by
      rw [hbase, hlive] at hb
      exact hb.imp id fun h => (Option.some.inj h).symm
    have hoff : (w.addr - b) % 0x1000000 < 4 := by
      by_contra hc
      rw [hd, hw] at hf
      simp [dimsFind, hc] at hf
    simp only [isRampTgt, isSlotmap, Bool.and_eq_false_iff, decide_eq_false_iff_not]
    omega
  · simp only [isRampTgt, isSlotmap, Bool.and_eq_false_iff, decide_eq_false_iff_not]
    omega

/-! ### Its application -/

/-- What the application of one of them, and what follows it, can touch. -/
abbrev hookKinds : List Kind := [.lane, .dly, .dec] ++ raiseKinds

/-- The rules of their blocks change lanes and delay lines alone. -/
theorem appliedHook_touches {e : RegEntry} (hn : e.reg.name ∈ freeShadows) (i old n : Nat) : (appliedHook e i old n).Touches hookKinds := by
  rw [appliedHook, touches_look]
  intro s
  dsimp only
  simp only [freeShadows, List.mem_cons, List.not_mem_nil, or_false] at hn
  rcases hn with h | h | h | h | h | h <;> rw [h]
  · trivial
  · trivial
  · trivial
  · trivial
  · exact touches_setLane (by decide) _ _
  · exact (touches_onlyIf ..).mpr fun _ _ => touches_setDly (by decide) _

theorem micJudge_touches (i : Nat) : (micJudge i).Touches hookKinds := by
  rw [micJudge, touches_look]
  intro s
  dsimp only
  split
  · exact ⟨touches_setDec (by decide) _, touches_mono (touches_raise _ _ _ _ _) fun _ h => List.mem_append_right _ h⟩
  · split
    · exact touches_setDec (by decide) _
    · trivial

theorem railAim_touches (g : Nat) : (railAim g).Touches hookKinds := fun s => by
  have hset : ∀ (f : Fld) v, (f.set g v).Touches hookKinds := fun f v => touches_fset (by decide) f g v 0
  refine (touches_onlyIf ..).mpr fun _ t => (touches_onlyIf ..).mpr fun _ => ⟨hset _ _, hset _ _⟩

/-- What follows the application while the tick stands leaves the applied values and the waiting shadows. -/
theorem afterStopped_touches : (acts [lanesIdle, micsJudge, forEach (List.range 8) railAim]).Touches hookKinds :=
  ⟨fun _ => touches_forEach_of fun _ => touches_setLane (by decide) _ _, fun _ => touches_forEach_of micJudge_touches,
    touches_forEach_of railAim_touches⟩

/-- A shadow that nothing holds back takes its value, and waits no more. -/
theorem applyWrite_free {w : ShWrite} {p : Place} {s : State} (hpend : s.shPend = [w]) (hh : w.held = false) (hl : w.late = false)
    (hp : placeOf w.addr = some p) (hn : p.e.reg.name ∈ freeShadows) (n : Nat) :
    ((applyWrite n w).run s).shPend = [] ∧ p.e.reg.liveVal p.i ((applyWrite n w).run s) = p.e.reg.val p.i s := by
  obtain ⟨htgt, hmap⟩ := freeShadow_notBlocked hp hn
  have hblocked : shadowBlocked s w = false := by simp [shadowBlocked, hh, htgt, hmap]
  have hname : (decide (p.e.reg.name = .STRATA_CMD) || decide (p.e.reg.name = .STRATA_GCMD)) = false := by
    simp only [freeShadows, List.mem_cons, List.not_mem_nil, or_false] at hn
    rcases hn with h | h | h | h | h | h <;> rw [h] <;> decide
  let u : State := (Act.upd (.shPend [])).run s
  let old := p.e.reg.liveVal p.i u
  have hrun : (applyWrite n w).run s = (appliedHook p.e p.i old n).run ((p.e.reg.setLive p.i (p.e.reg.val p.i s)).run u) := by
    unfold applyWrite applyReg
    rw [run_look, hl, hblocked, hp]
    simp [hpend, hname, u, old]
  have hhook := appliedHook_touches hn p.i old n
  have hset : (p.e.reg.setLive p.i (p.e.reg.val p.i s)).Touches [.live] := touches_setLive (by decide) _ _ _
  rw [hrun]
  refine ⟨?_, ?_⟩
  · rw [touches_shPend hhook (by decide) (by decide), touches_shPend hset (by decide) (by decide)]
    rfl
  · rw [liveVal_congr (touches_live hhook (by decide) (by decide) _), liveVal_setLive]
    exact Nat.mod_eq_of_lt (val_lt ..)

/-- While the tick stands, one waiting shadow is applied by the command (R28). -/
theorem shadowApplyStopped_applies {w : ShWrite} {p : Place} {s : State} (hr : running s = false) (hpend : s.shPend = [w])
    (hh : w.held = false) (hl : w.late = false) (hc : s.strata.cmds = []) (hm : s.mods.masks = []) (hp : placeOf w.addr = some p)
    (hn : p.e.reg.name ∈ freeShadows) :
    ∃ t, exec .shadowApplyStopped s = .next t ∧ t.shPend = [] ∧ p.e.reg.liveVal p.i t = p.e.reg.val p.i s := by
  obtain ⟨hnone, hval⟩ := applyWrite_free hpend hh hl hp hn (nextTick s)
  have hrun : shadowStopped.run s =
      (acts [lanesIdle, micsJudge, forEach (List.range 8) railAim]).run ((applyWrite (nextTick s) w).run s) := by
    unfold shadowStopped
    rw [run_look, hr, hpend, hc, hm]
    simp [inOrder, inOrder.put, (freeShadow_notBlocked hp hn).1]
  refine ⟨_, rfl, ?_⟩
  rw [hrun]
  refine ⟨?_, ?_⟩
  · rw [touches_shPend afterStopped_touches (by decide) (by decide)]
    exact hnone
  · rw [liveVal_congr (touches_live afterStopped_touches (by decide) (by decide) _)]
    exact hval

end Sys2Proof.Machine
end

