-- ==== Sys2Proof/Proofs/TickCommands.lean ====
section
/-! SUPPORT. The edge of the tick (R17, R24, R27), and the commands of the tick together. -/

namespace Sys2Proof.Machine

/-! ### The keep-alive counter and the siphon leave the tick -/

theorem spares_kaRun (n : Nat) : (kaRun n).Within Upd.sparesTick := by
  have counter : ∀ v, (F.PWR_KACNT_COUNT.set 0 v).Within Upd.sparesTick := spares_clk rfl rfl (by decide)
  have alarm : ∀ v, (F.PWR_KALATCH_ALARM.set 0 v).Within Upd.sparesTick := spares_clk rfl rfl (by decide)
  rw [kaRun, within_look]
  intro s
  simp only [within_onlyIf, within_seq]
  exact fun _ => ⟨fun _ => trivial, fun _ => ⟨counter _, fun _ => alarm _⟩⟩

theorem spares_sipSend : sipSend.Within Upd.sparesTick := by
  rw [sipSend, within_look]
  intro s
  split
  · exact fun _ => trivial
  · trivial

theorem spares_modstateSend : modstateSend.Within Upd.sparesTick := by
  rw [modstateSend, within_look]
  intro s
  simp only [within_onlyIf, within_seq]
  exact fun _ => ⟨fun _ => trivial, fun _ => (within_onlyIf ..).mpr fun _ _ => trivial⟩

theorem spares_siphonRun (n : Nat) : (siphonRun n).Within Upd.sparesTick :=
  ⟨spares_modstateSend, fun _ => within_forEach_of fun _ => spares_sipSend⟩

/-! ### The end of the edge -/

theorem spares_runOn {a : Act} (h : a.Within Upd.sparesTick) (s : State) :
    F.TICK_CTRL_RUN.on 0 (a.run s) = F.TICK_CTRL_RUN.on 0 s := congrArg (· == 1) (spares_run h s)

/-- The reserve passes: the cycle is 2,048, and the tick stands or runs as it did. -/
theorem reservePass_ends (s : State) : let t := reservePass.run s
    t.tick.cycle = 2048 ∧ running t = running s ∧ F.TICK_CTRL_RUN.on 0 t = F.TICK_CTRL_RUN.on 0 s := by
  have hrest : (acts [kaRun 2048, siphonRun 2048]).Within Upd.sparesTick := ⟨spares_kaRun _, spares_siphonRun _⟩
  have hrun : reservePass.run s = (acts [kaRun 2048, siphonRun 2048]).run { s with
      now := s.now + 2048, elapsed := s.elapsed + 2048, tick := { s.tick with cycle := 2048 } } := rfl
  dsimp only
  rw [hrun, spares_tick hrest, spares_running hrest, spares_runOn hrest]
  exact ⟨rfl, rfl, rfl⟩

theorem spares_laneRelease (n l : Nat) : (laneRelease n l).Within Upd.sparesTick := by
  rw [laneRelease, within_look]
  intro s
  dsimp only
  split
  · split
    · exact (within_onlyIf ..).mpr fun _ => ⟨fun _ => trivial, spares_raise _ _ _ _ _⟩
    · exact fun _ => trivial
  · trivial

/-- Where RUN is 0 when the lanes would be released, the tick stops there (R28). -/
theorem lanesRelease_stops (s : State) (h : F.TICK_CTRL_RUN.on 0 (lanesRelease.run s) = false) : running (lanesRelease.run s) = false := by
  have hclear : (Act.look fun s => forEach (s.lanes.map (·.1)) fun l => setLane l fun L => { L with stopped := false }).Within
      Upd.sparesTick := fun _ => within_forEach_of fun _ _ => trivial
  have hrelease : (forEach (placed s) fun p => laneRelease p.1 p.2).Within Upd.sparesTick :=
    within_forEach_of fun p : Nat × Nat => spares_laneRelease p.1 p.2
  unfold lanesRelease at h ⊢
  rw [run_look, run_seq] at h ⊢
  rw [spares_runOn hclear] at h
  rw [spares_running hclear]
  by_cases hon : F.TICK_CTRL_RUN.on 0 s = true
  · rw [if_pos hon, spares_runOn hrelease, hon] at h
    cases h
  · rw [if_neg hon]
    unfold running Fld.on
    rw [get_set _ _ _ _ _ (by decide) (by decide)]
    rfl

/-- Every edge ends with the release of the lanes and the reserve. -/
theorem edgeSteps_ends (n : Nat) (first : Bool) (ls : List LatEntry) (s : State) :
    ∃ u, (edgeSteps n first ls).run s = reservePass.run (lanesRelease.run u) := by
  unfold edgeSteps
  rw [run_look]
  iterate 8 rw [run_acts_cons]
  exact ⟨_, rfl⟩

/-- An edge ends at cycle 2,048, and the one that finds RUN 0 stops the tick. -/
theorem tickEdge_ends (ls : List LatEntry) {s : State} (h : running s = true ∨ s.tick.starting = true) (hh : s.clk.hold = false) :
    ∃ t, exec (.tickEdge ls) s = .next t ∧ t.tick.cycle = 2048 ∧ (F.TICK_CTRL_RUN.on 0 t = false → running t = false) := by
  obtain ⟨u, hu⟩ := edgeSteps_ends (nextTick s) s.tick.starting ls ((edgeBegin (nextTick s) s.tick.starting).run s)
  have hrun : (tickEdge ls).run s = reservePass.run (lanesRelease.run u) := by
    unfold tickEdge
    rw [run_look, if_neg (by rcases h with h | h <;> simp [h, hh]), run_seq, hu]
  obtain ⟨hcycle, hstat, hctrl⟩ := reservePass_ends (lanesRelease.run u)
  refine ⟨_, rfl, ?_⟩
  rw [hrun]
  exact ⟨hcycle, fun hoff => hstat.trans (lanesRelease_stops u (hctrl.symm.trans hoff))⟩

/-! ### The first edge -/

/-- The node `t` runs in the tick that the counter of `s` gives, at the end of its edge. -/
def tickBegun (s t : State) : Bool :=
  R.TICK_NUM.val 0 t == nextTick s && running t && !t.tick.starting && t.tick.cycle == 2048 && t.now == edgePos (nextTick s) s + 2048

set_option maxRecDepth 100000 in
/-- The first edge after a start from reset at 48 kHz with four samples a tick. -/
theorem tickBegun_first : tickBegun (startedAt 1 2) ((tickEdge []).run (startedAt 1 2)) = true := by
  decide +kernel

theorem tickEdge_first {s : State} (h : s = startedAt 1 2) :
    ∃ t, exec (.tickEdge []) s = .next t ∧ R.TICK_NUM.val 0 t = nextTick s ∧ running t = true ∧ t.tick.starting = false ∧
      t.tick.cycle = 2048 ∧ t.now = edgePos (nextTick s) s + 2048 := by
  have hfirst := tickBegun_first
  rw [← h] at hfirst
  simp only [tickBegun, Bool.and_eq_true, beq_iff_eq, Bool.not_eq_true', and_assoc] at hfirst
  exact ⟨_, rfl, hfirst⟩

/-! ### The commands of the tick -/

/-- Settles O4: the writes of `TICK_CTRL` and `TICK_CFG`, the shadow applied while the tick stands, the end of every edge, and the first
edge of one started node. -/
theorem tickCommandsComplete : Obligations.TickCommandsComplete :=
  ⟨fun _ _ h hr hs => tickStart_begins h hr hs,
   fun _ _ h hr => tickStart_again h hr,
   fun _ _ h => tickStop_waits h,
   fun _ _ _ h hr hl hfs hf => tickCfgWrite_stores h hr hl hfs hf,
   fun _ _ _ h hr => tickCfgWrite_dropped h hr,
   fun _ _ _ hr hpend hh hl hc hm hp hn => shadowApplyStopped_applies hr hpend hh hl hc hm hp (by simpa [freeShadows] using hn),
   fun ls _ h hh => tickEdge_ends ls h hh,
   fun _ h => tickEdge_first h⟩

end Sys2Proof.Machine
end

