-- ==== Sys2Proof/Proofs/GalleryWrites.lean ====
section
/-! SUPPORT. Accesses to 40-bit words in 64-bit slots, of gallery memory and of lanes that are not released (R69, R84). -/

namespace Sys2Proof.Machine

/-! ### Whole writes of gallery memory -/

/-- A 64-bit write of a gallery word writes its 40 bits; what else changes is the check of the word and the answer (R52, R84). -/
theorem galWrite_run {m : Master} {g : Fin 16} {w : Fin 262144} {s : State} (h : WriteReaches m (galAddr g w) s)
    (hm : m.val = 1 → accessPends 1 s = false) (v : W64) :
    ∃ b r l q, ∃ fresh : Act, fresh.Touches [.ecc] ∧ (busAccess (.master m) (galAddr g w) (.write .b8 v)).run s =
      (respond m [] false).run (fresh.run ((setWord40 (galAddr g w) (BitVec.ofNat 40 v.toNat)).run (atTarget b r l q s))) := by
  have hg := g.isLt
  have hw := w.isLt
  have hgal := galAddr_eq g w
  have h8 : galAddr g w % 8 = 0 := by omega
  have hslot : slotOfWrite (galAddr g w) (sizeBytes .b8) v.toNat = ⟨galAddr g w, 0xFF, v.toNat⟩ := by
    have hv := v.isLt
    unfold slotOfWrite
    simp only [sizeBytes, h8, SlotWr.mk.injEq]
    omega
  obtain ⟨b, r, l, q, hrun⟩ := busAccess_write (sz := .b8) (v := v) h (mustWait_off ⟨_, .inr ⟨_, rfl⟩⟩ (.inr (by omega)) hm) h8 false
  obtain ⟨fresh, hf, hput⟩ := slotsWrite_whole (w := .gal) rfl (d := v.toNat) h8 m (ueEvent (.master m)) (fun e => respond m [] e)
    (atTarget b r l q s)
  rw [mirrorCopy_gal] at hput
  refine ⟨b, r, l, q, fresh, hf, ?_⟩
  rw [hrun, hslot, slotPut_window (windowOf_galAddr g w _) rfl, hput]

/-- Settles O6: the write comes to the bytes of its word, the check of the word, the bus and the link to the partner. -/
theorem galleryWriteFrame : Obligations.GalleryWriteFrame := by
  intro m g w v s t h hm hwf ht
  have ha : (BitVec.ofNat 32 (galAddr g w)).toNat = galAddr g w := by
    have := galAddr_eq g w
    rw [BitVec.toNat_ofNat]; omega
  obtain ⟨b, r, l, q, fresh, hf, hrun⟩ := galWrite_run h hm v
  let write := setWord40 (galAddr g w) (BitVec.ofNat 40 v.toNat)
  have hact : (Act.seq (.seq write fresh) (respond m [] false)).Touches [.mem, .ecc, .bus] :=
    ⟨⟨touches_setWord40 (by decide) _ _, touches_mono hf (by decide)⟩, touches_respond (by decide) _ _ _⟩
  have hstate : t = (Act.seq (.seq write fresh) (respond m [] false)).run (atTarget b r l q s) := by
    have ht : .next ((busAccess (.master m) (BitVec.ofNat 32 (galAddr g w)).toNat (.write .b8 v)).run s) = Host.Outcome.next t := ht
    rw [ha, hrun] at ht
    exact (Host.Outcome.next.inj ht).symm
  subst hstate
  refine ⟨fun c hc => ?_, touches_regs hact (by decide) (by decide) _, touches_live hact (by decide) (by decide) _,
    touches_lanes hact (by decide) (by decide) _, touches_shPend hact (by decide) (by decide) _,
    touches_sump hact (by decide) (by decide) _, touches_pool hact (by decide) (by decide) _,
    touches_tick hact (by decide) (by decide) _, touches_route hact (by decide) (by decide) _⟩
  show memGet (fresh.run (write.run (atTarget b r l q s))).mem c = memGet s.mem c
  rw [touches_mem hf (by decide) (by decide)]
  exact memGet_memSetLe (s := atTarget b r l q s) hwf hc

end Sys2Proof.Machine
end

