-- ==== Sys2Proof/Proofs/WordAccess.lean ====
section
/-! SUPPORT. Accesses to 40-bit words in 64-bit slots, of gallery memory and of lanes that are not released (R84). -/

namespace Sys2Proof.Machine

/-! ### Words that a master reaches at once -/

/-- A 40-bit word at `a`, below the memories of the chip, in a window `w` that no released lane bars (R59, R84). -/
structure OpenWord (a : Nat) (w : Window) (s : State) : Prop where
  aligned : a % 8 = 0
  low : a + 8 ≤ 0x10000000
  window : ∀ u, windowOf a u = some w
  is40 : w.is40 = true
  openLow : groupBars s a = false
  openHigh : groupBars s (a + 4) = false

theorem openWord_gal (g : Fin 16) (w : Fin 262144) (s : State) : OpenWord (galAddr g w) .gal s := by
  have hgal := galAddr_eq g w
  have hg := g.isLt
  have hw := w.isLt
  exact ⟨by omega, by omega, windowOf_galAddr g w, rfl, groupBars_none (by omega) s, groupBars_none (by omega) s⟩

/-- The offset of a word of X or Y memory in the window of its lane. -/
def xyOffset (y : Bool) (k : Fin 8192) : Nat := (if y then 0x10000 else 0) + 8 * k.val

theorem xyOffset_bounds (y : Bool) (k : Fin 8192) :
    xyOffset y k % 8 = 0 ∧ xyOffset y k + 8 ≤ 0x20000 ∧ (if y then 0x10000 ≤ xyOffset y k else xyOffset y k < 0x10000) := by
  have hk := k.isLt
  cases y <;> simp [xyOffset] <;> omega

theorem xyAddr_eq (l : LaneSlot) (y : Bool) (k : Fin 8192) :
    xyAddr l y k = l.val / 17 * 0x1000000 + l.val % 17 * 0x40000 + xyOffset y k := by
  unfold xyAddr slotBase galBase xyOffset
  rw [Nat.mod_eq_of_lt k.isLt, Nat.add_assoc _ _ (8 * k.val)]

theorem windowOf_xyAddr (l : LaneSlot) (y : Bool) (k : Fin 8192) (s : State) :
    windowOf (xyAddr l y k) s = some (if y then .y else .x) := by
  have hl := l.isLt
  have hr := Nat.mod_lt l.val (show 17 > 0 by decide)
  have hq : l.val / 17 < 16 := by omega
  obtain ⟨-, hlt, hside⟩ := xyOffset_bounds y k
  rw [xyAddr_eq]
  generalize l.val / 17 = q at *
  generalize l.val % 17 = r at *
  generalize xyOffset y k = o at *
  have hmod : (q * 0x1000000 + r * 0x40000 + o) % 0x1000000 = r * 0x40000 + o := by omega
  have hoff : (r * 0x40000 + o) % 0x40000 = o := by rw [Nat.mul_add_mod_self_right]; exact Nat.mod_eq_of_lt (by omega)
  unfold windowOf
  dsimp only
  rw [hmod, hoff, if_pos (by omega), if_pos (by omega)]
  cases y with
  | false =>
    have hside : o < 0x10000 := by simpa using hside
    simp [hside]
  | true =>
    have hside : 0x10000 ≤ o := by simpa using hside
    simp [hside.not_gt, show o < 0x20000 by omega]

/-- Nothing in the window of a lane that is not released is barred (R59). -/
theorem groupBars_idle {l b : Nat} {s : State} (hb : laneWindow b = some l) (h : laneReleased s l = false) : groupBars s b = false := by
  simp [groupBars, hb, h]

/-- The memories of a lane that is not released are open (R59). -/
theorem openWord_xy {l : LaneSlot} {s : State} (h : laneReleased s l = false) (y : Bool) (k : Fin 8192) :
    OpenWord (xyAddr l y k) (if y then .y else .x) s := by
  have hl := l.isLt
  have hx := xyAddr_eq l y k
  obtain ⟨h8, hlt, -⟩ := xyOffset_bounds y k
  refine ⟨by omega, by omega, windowOf_xyAddr l y k, by cases y <;> rfl, groupBars_idle ?_ h, groupBars_idle ?_ h⟩
  · rw [hx]; exact laneWindow_slot l (by omega)
  · rw [hx, Nat.add_assoc]; exact laneWindow_slot l (by omega)

section OpenWord

variable {m : Master} {a : Nat} {w : Window} {s : State}

/-- An access to words of an open slot does not wait. -/
theorem OpenWord.mustWait (h : OpenWord a w s) (hm : m.val = 1 → accessPends 1 s = false) {c : Nat} {r : MatrixReq}
    (hg : ∀ b ∈ reqGroups c r, b = a ∨ b = a + 4) : mustWait (.master m) c r s = false := by
  have hbars : (reqGroups c r).any (groupBars s) = false := List.any_eq_false.mpr fun b hb => by
    rcases hg b hb with rfl | rfl
    · simp [h.openLow]
    · simp [h.openHigh]
  by_cases h1 : m.val = 1
  · simp [Machine.mustWait, laneBars, hbars, hm h1]
  · simp [Machine.mustWait, laneBars, hbars, reqId, h1]

/-! ### Reads -/

/-- A read of a memory window in which no codeword is in error gives its bytes. -/
theorem memRead_clean {v : Window} {id c n : Nat} {ev : Option Ev} (hc : s.ecc.marks = []) (k : Nat → Bool → Act) :
    (memRead v id c n ev k).run s = (k (slotRead v s (c / 8 * 8) / 2 ^ (8 * (c - c / 8 * 8)) % 2 ^ (8 * n)) false).run s := by
  simp [memRead, eccRead, marksIn, eccJudge, hc]

/-- A slot of 40 bits is read sign-extended from bit 39 (R84). -/
theorem slotRead_word40 (hw : w.is40 = true) (a : Nat) (s : State) : slotRead w s a % 2 ^ 64 = ((word40 s a).signExtend 64).toNat := by
  have hint : toInt 40 (word40 s a).toNat = (word40 s a).toInt := by
    have hlt := (word40 s a).isLt
    unfold toInt
    rw [BitVec.toInt_eq_toNat_cond, Nat.mod_eq_of_lt hlt]
    split <;> split <;> omega
  unfold slotRead
  rw [if_pos hw, hint, BitVec.signExtend, BitVec.toNat_ofInt]
  exact Nat.mod_eq_of_lt (by unfold ofInt; omega)

/-- A 64-bit read of an open 40-bit word gives it sign-extended. -/
theorem OpenWord.oneRead_run (h : OpenWord a w s) (hc : s.ecc.marks = []) (k : Nat → Bool → Act) :
    (oneRead (.master m) a 8 k).run s = (k ((word40 s a).signExtend 64).toNat false).run s := by
  have hbase : a / 8 * 8 = a := by have := h.aligned; omega
  have hval : slotRead w s a % 2 ^ 64 = ((word40 s a).signExtend 64).toNat := slotRead_word40 h.is40 a s
  have hprog : w ≠ .prog := by rintro rfl; cases h.is40
  have hpool : w ≠ .pool := by rintro rfl; cases h.is40
  have hdram : dramOut w s = false := by
    have : w ≠ .dram := by rintro rfl; cases h.is40
    simp [dramOut, this]
  have hbare : slotBare a s = false := by simp [slotBare, h.window s]
  have hread : (windowRead (.master m) w a 8 k).run s = (k (slotRead w s a % 2 ^ 64) false).run s := by
    simp [windowRead, hdram, hprog, hpool, memRead_clean hc, hbase]
  rw [← hval, ← hread]
  simp [oneRead, slotGet, h.aligned, reaches, hbare, h.window s]

/-- So does the command, and nothing of memory and of the registers changes. -/
theorem OpenWord.read (h : OpenWord a w s) (hs : asleep s = false) (hm : m.val = 1 → accessPends 1 s = false) (hc : s.ecc.marks = []) :
    ∃ t, exec (.memoryAccess (.master m) (BitVec.ofNat 32 a) (.read .b8)) s = .next t ∧
      smFind t.bus.resp m = some ⟨[(word40 s a).signExtend 64], false⟩ ∧ t.mem = s.mem ∧ t.regs = s.regs := by
  have ha : (BitVec.ofNat 32 a).toNat = a := by have := h.low; rw [BitVec.toNat_ofNat]; omega
  have hbase : a / 4 * 4 = a := by have := h.aligned; omega
  have hwait : Machine.mustWait (.master m) a (.read .b8) s = false := h.mustWait hm fun b hb => by
    rcases mem_reqGroups ⟨_, .inl rfl⟩ hb with hb | hb <;> omega
  obtain ⟨b, r, hrun⟩ := busAccess_read hs hwait
  let u := atTarget b r s.pair.sentWrites s.pair.waiting s
  have hu : OpenWord a w u := ⟨h.aligned, h.low, h.window, h.is40, h.openLow, h.openHigh⟩
  refine ⟨_, rfl, ?_⟩
  rw [ha, hrun, show sizeBytes .b8 = 8 from rfl, hu.oneRead_run hc]
  refine ⟨?_, rfl, rfl⟩
  rw [respond_answers, List.map_singleton, BitVec.ofNat_toNat, BitVec.setWidth_eq]
  rfl

end OpenWord

/-! ### Writes -/

theorem touches_eccFull {ks : List Kind} (h : Kind.ecc ∈ ks) (a n : Nat) : (eccFull a n).Touches ks := fun s => by
  dsimp only
  split
  · trivial
  · exact touches_setEcc h _

/-- What memory below the LPDDR5X holds, a gallery copy leaves (R518). -/
theorem mirrorCopy_low {s : State} (hwf : Memory.wf s.mem = true) {c : Nat} (hc : c < 0x80000000) (m a : Nat) (w : Window) :
    memGet ((mirrorCopy m a w).run s).mem c = memGet s.mem c := by
  unfold mirrorCopy
  rw [run_look]
  dsimp only
  split
  · rfl
  · split
    · rw [run_seq, touches_mem (ks := [.ecc]) (touches_eccFull (by decide) _ 8) (by decide) (by decide)]
      exact memGet_memSetLe hwf (.inl (by omega))
    · rfl

/-- Numbers in memory rest on their bytes. -/
theorem memLe_congr {m m' : List Host.Cell} : ∀ {n a : Nat}, (∀ c, a ≤ c → c < a + n → memGet m c = memGet m' c) → memLe m a n = memLe m' a n
  | 0, _, _ => rfl
  | n + 1, a, h => by
    rw [memLe, memLe, h a (Nat.le_refl a) (by omega), memLe_congr fun c hc hc' => h c (by omega) (by omega)]

/-- A 40-bit word below the LPDDR5X stands through a gallery copy. -/
theorem word40_mirrorCopy {s : State} (hwf : Memory.wf s.mem = true) {b : Nat} (hb : b + 8 ≤ 0x10000000) (m a : Nat) (w : Window) :
    word40 ((mirrorCopy m a w).run s) b = word40 s b :=
  congrArg (BitVec.ofNat 40) (memLe_congr fun _ _ hc => mirrorCopy_low hwf (by omega) m a w)

/-- The 40 bits that a write of a slot makes of `old` (R84). -/
def SlotWr.merge (x : SlotWr) (old : Nat) : Nat :=
  (if bitOf x.en 0 then x.data % 2 ^ 32 else old % 2 ^ 32) + (if bitOf x.en 4 then x.data / 2 ^ 32 % 256 else old / 2 ^ 32) * 2 ^ 32

/-- A write of a slot of 40 bits stores them, whatever its copy. -/
theorem store_word40 {w : Window} {x : SlotWr} {s : State} (hw : w.is40 = true) (hx : x.en ≠ 0) (hlow : x.addr + 8 ≤ 0x10000000)
    (hwf : Memory.wf s.mem = true) (id : Nat) :
    word40 ((x.store w id).run s) x.addr = BitVec.ofNat 40 (x.merge (word40 s x.addr).toNat) := by
  have hrun : (x.store w id).run s =
      (mirrorCopy id x.addr w).run ((setWord40 x.addr (BitVec.ofNat 40 (x.merge (word40 s x.addr).toNat))).run s) := by
    unfold SlotWr.store
    rw [run_look, if_neg hx, if_pos hw]
    dsimp only
    rw [run_seq, SlotWr.merge]
  rw [hrun, word40_mirrorCopy (memory_wf_run _ s hwf) hlow, word40_setWord40 hwf]

/-- A write of halves of a slot of 40 bits is performed where no codeword is in error (R80). -/
theorem slotPut_word40 {m : Master} {w : Window} {x : SlotWr} {s : State} (hwin : windowOf x.addr s = some w) (hw : w.is40 = true)
    (hen : x.en = 0xF ∨ x.en = 0xF0 ∨ x.en = 0xFF) (hlow : x.addr + 8 ≤ 0x10000000) (hc : s.ecc.marks = [])
    (hwf : Memory.wf s.mem = true) (tie : Bool) :
    word40 ((slotPut (.master m) x tie false fun e => respond m [] e).run s) x.addr =
      BitVec.ofNat 40 (x.merge (word40 s x.addr).toNat) := by
  have hne : x.en ≠ 0 := by omega
  have hprog : w ≠ .prog := by rintro rfl; cases hw
  have hdram : dramOut w s = false := by
    have : w ≠ .dram := by rintro rfl; cases hw
    simp [dramOut, this]
  have hnarrow : x.narrow w = false := by rcases hen with h | h | h <;> simp [SlotWr.narrow, h]
  have hlands : x.lands w m s = x := by simp [SlotWr.lands, hprog]
  have hpair : x.pair w m = .done := by simp [SlotWr.pair, hprog]
  have hrun : (slotPut (.master m) x tie false fun e => respond m [] e).run s = (respond m [] false).run ((x.store w m).run s) := by
    simp [slotPut, slotBare, reaches, hwin, windowWrite, hdram, hne, reqId, slotsWrite, hnarrow, hlands, hpair, hc, eccJudge]
  rw [hrun, ← store_word40 hw hne hlow hwf m]
  rfl

/-! ### Halves -/

/-- A master's write of halves of an open 40-bit word stores them. -/
theorem OpenWord.write {m : Master} {a c : Nat} {w : Window} {s : State} {sz : Size} {v : W64} {en d : Nat} (h : OpenWord a w s)
    (hreach : WriteReaches m a s) (hm : m.val = 1 → accessPends 1 s = false) (hc : s.ecc.marks = []) (hwf : Memory.wf s.mem = true)
    (ha : c % sizeBytes sz = 0) (hlow : c < 0x10000000) (hg : ∀ b ∈ reqGroups c (.write sz v), b = a ∨ b = a + 4)
    (hslot : slotOfWrite c (sizeBytes sz) v.toNat = ⟨a, en, d⟩) (hen : en = 0xF ∨ en = 0xF0 ∨ en = 0xFF) :
    ∃ t, exec (.memoryAccess (.master m) (BitVec.ofNat 32 c) (.write sz v)) s = .next t ∧
      word40 t a = BitVec.ofNat 40 ((⟨a, en, d⟩ : SlotWr).merge (word40 s a).toNat) := by
  have hc32 : (BitVec.ofNat 32 c).toNat = c := by rw [BitVec.toNat_ofNat]; omega
  have hblock : ∀ b, b < 0x10000000 → forwardedBlock b = true := fun b hb => by simp [forwardedBlock, show b < 0x14000000 by omega]
  have hstand : standbyDrops m c s = false := by
    have hdrop := hreach.2
    unfold standbyDrops at hdrop ⊢
    rwa [hblock c hlow, ← hblock a (by have := h.low; omega)]
  obtain ⟨b, r, l, q, hrun⟩ := busAccess_write ⟨hreach.1, hstand⟩ (h.mustWait hm hg) ha false
  refine ⟨_, rfl, ?_⟩
  rw [hc32, hrun, hslot]
  exact slotPut_word40 (s := atTarget b r l q s) (h.window _) h.is40 hen h.low hc hwf false

/-- A whole write of 64 bits ignores bits [63:40]. -/
theorem merge_whole (a : Nat) (v : W64) (old : Nat) : BitVec.ofNat 40 ((⟨a, 0xFF, v.toNat⟩ : SlotWr).merge old) = v.setWidth 40 := by
  refine BitVec.eq_of_toNat_eq ?_
  simp only [SlotWr.merge, show bitOf 0xFF 0 = true from rfl, show bitOf 0xFF 4 = true from rfl, if_true, BitVec.toNat_ofNat,
    BitVec.toNat_setWidth]
  omega

theorem toNat_and_high (x : W40) : (x &&& 0xFF00000000).toNat = x.toNat / 2 ^ 32 * 2 ^ 32 := by
  have hx := x.isLt
  rw [show (0xFF00000000 : W40) = BitVec.allOnes 40 <<< 32 by decide, ← BitVec.shiftLeft_ushiftRight, BitVec.toNat_shiftLeft,
    BitVec.toNat_ushiftRight, Nat.shiftLeft_eq, Nat.shiftRight_eq_div_pow]
  omega

theorem toNat_and_low (x : W40) : (x &&& ((0x00FFFFFFFF : Nat) : W40)).toNat = x.toNat % 2 ^ 32 := by
  rw [BitVec.toNat_and, BitVec.natCast_eq_ofNat, BitVec.toNat_ofNat]
  exact Nat.and_two_pow_sub_one_eq_mod x.toNat 32

/-- A high and a low part that share no bit, together. -/
theorem high_or_low (x y : Nat) (hy : y < 2 ^ 32) : x * 2 ^ 32 ||| y = x * 2 ^ 32 + y := by
  rw [Nat.mul_comm]
  exact (Nat.two_pow_add_eq_or_of_lt hy x).symm

/-- A write of the low half keeps bits [39:32]. -/
theorem merge_low (a : Nat) (v : W64) (old : W40) : BitVec.ofNat 40 ((⟨a, 0xF, v.toNat % 2 ^ 32⟩ : SlotWr).merge old.toNat) =
    (old &&& 0xFF00000000) ||| (v.setWidth 32).setWidth 40 := by
  have hold := old.isLt
  refine BitVec.eq_of_toNat_eq ?_
  rw [BitVec.toNat_or, toNat_and_high, BitVec.toNat_setWidth, BitVec.toNat_setWidth, high_or_low _ _ (by omega), BitVec.toNat_ofNat]
  simp only [SlotWr.merge, show bitOf 0xF 0 = true from rfl, show bitOf 0xF 4 = false from rfl, if_true, Bool.false_eq_true, if_false]
  omega

/-- A write of the high half sets bits [39:32] from its bits [7:0]. -/
theorem merge_high (a : Nat) (v : W64) (old : W40) :
    BitVec.ofNat 40 ((⟨a, 0xF0, v.toNat % 2 ^ 32 * 2 ^ 32⟩ : SlotWr).merge old.toNat) =
      (old &&& 0x00FFFFFFFF) ||| (v.setWidth 8).setWidth 40 <<< 32 := by
  have hold := old.isLt
  refine BitVec.eq_of_toNat_eq ?_
  rw [BitVec.toNat_or, toNat_and_low, BitVec.toNat_shiftLeft, Nat.shiftLeft_eq, BitVec.toNat_setWidth, BitVec.toNat_setWidth,
    BitVec.toNat_ofNat, show v.toNat % 2 ^ 8 % 2 ^ 40 * 2 ^ 32 % 2 ^ 40 = v.toNat % 2 ^ 8 * 2 ^ 32 by omega, Nat.or_comm,
    high_or_low _ _ (by omega)]
  simp only [SlotWr.merge, show bitOf 0xF0 0 = false from rfl, show bitOf 0xF0 4 = true from rfl, if_true, Bool.false_eq_true, if_false]
  omega

/-- Settles O7: each access comes to the one open slot of the word. -/
theorem fortyBitSlots : Obligations.FortyBitSlots := by
  intro m a v s hword h hm hc hwf
  obtain ⟨w, hopen⟩ : ∃ w, OpenWord a w s := by
    rcases hword with ⟨g, w, rfl⟩ | ⟨l, y, k, rfl, hrel⟩
    · exact ⟨_, openWord_gal g w s⟩
    · exact ⟨_, openWord_xy hrel y k⟩
  have h8 := hopen.aligned
  have hlow := hopen.low
  have hv := v.isLt
  refine ⟨hopen.read h.1 hm hc, ?_, ?_, ?_⟩
  · rw [← merge_whole a v (word40 s a).toNat]
    refine hopen.write h hm hc hwf h8 (by omega) (fun b hb => ?_) ?_ (by simp)
    · have := mem_reqGroups ⟨_, .inr ⟨_, rfl⟩⟩ hb
      omega
    · unfold slotOfWrite
      simp only [sizeBytes, h8, SlotWr.mk.injEq]
      omega
  · rw [← merge_low a v]
    refine hopen.write h hm hc hwf (show a % 4 = 0 by omega) (by omega) (fun b hb => ?_) ?_ (by simp)
    · have hb : b = a / 4 * 4 := by simpa [reqGroups, sizeBytes] using hb
      omega
    · exact ((slotOfWrite_half (a := a) (by omega) v.toNat).resolve_right (by omega)).2
  · rw [← merge_high a v]
    refine hopen.write h hm hc hwf (show (a + 4) % 4 = 0 by omega) (by omega) (fun b hb => ?_) ?_ (by simp)
    · have hb : b = (a + 4) / 4 * 4 := by simpa [reqGroups, sizeBytes] using hb
      omega
    · have hhalf := ((slotOfWrite_half (a := a + 4) (by omega) v.toNat).resolve_left (by omega)).2
      rwa [show (a + 4) / 8 * 8 = a by omega] at hhalf

end Sys2Proof.Machine
end

