-- ==== Sys2Proof/Proofs/SlotmapDrops.lean ====
section
/-! SUPPORT. Writes of a slot map word that are dropped (R89). -/

namespace Sys2Proof.Machine

/-- Dropping duplicates does not lengthen a list. -/
theorem length_eraseDups_le : ∀ l : List Nat, l.eraseDups.length ≤ l.length
  | [] => Nat.le_refl 0
  | x :: l => by
    have hf : (l.filter fun y => !y == x).length ≤ l.length := List.length_filter_le ..
    have ih := length_eraseDups_le (l.filter fun y => !y == x)
    rw [List.eraseDups_cons, List.length_cons, List.length_cons]
    omega
termination_by l => l.length

/-- A list that keeps its length without its duplicates has none. -/
theorem nodup_of_length_eraseDups : ∀ {l : List Nat}, l.eraseDups.length = l.length → l.Nodup
  | [], _ => List.nodup_nil
  | x :: l, h => by
    rw [List.eraseDups_cons, List.length_cons, List.length_cons, Nat.add_right_cancel_iff] at h
    have hf : l.filter (fun y => !y == x) = l := List.filter_sublist.eq_of_length_le (h ▸ length_eraseDups_le _)
    rw [hf] at h
    have hx : x ∉ l := fun hx => by simpa using List.filter_eq_self.mp hf x hx
    exact List.nodup_cons.mpr ⟨hx, nodup_of_length_eraseDups h⟩
/-- A write that names a slot above 16 or places two active lanes in one slot is dropped. -/
theorem wrSlotmap_drops {m : Master} {g : Fin 16} {i : Fin 4} {v : Word} {s : State} (h : (∃ b < 4, 16 < mapSlot v.toNat b) ∨
      ¬ (mapSlots ((List.range 4).map fun j => if j = i.val then v.toNat else R.GAL_SLOTMAP.val (4 * g + j) s)).Nodup) :
    (wrSlotmap m g i v.toNat (fullMask 1)).run s = (dropped m (R.GAL_SLOTMAP.addr (4 * g + i))).run s := by
  have hnew := newSlotmap_same m g i v s
  unfold wrSlotmap
  rw [run_look, if_pos]
  show ((List.range 4).any (fun b => decide (16 < mapSlot (newSlotmap m g i v s) b)) || _) = true
  rw [mapSlots_replaced hnew, Bool.or_eq_true]
  rcases h with ⟨b, hb, hslot⟩ | hdup
  · exact .inl (List.any_eq_true.mpr ⟨b, List.mem_range.mpr hb, by simpa [(hnew b hb).1] using hslot⟩)
  · exact .inr (by simpa using fun hlen => hdup (nodup_of_length_eraseDups hlen))

/-- Settles O8: the write comes to its record, and a record stores no slot map word. -/
theorem slotmapCollisionDropped : Obligations.SlotmapCollisionDropped := by
  intro m g i v s h hbad
  obtain ⟨b, r, l, w, hrun⟩ := arrive_atTarget h 0xF v.toNat (wrSlotmap m g i v.toNat (fullMask 1))
  have haddr : R.GAL_SLOTMAP.addr (4 * g + i) < 2 ^ 32 := by rw [slotmap_addr]; omega
  obtain ⟨-, -, hmaster, hreason, hlast⟩ := accessErr_logs (id := m) (by omega) haddr (show 3 < 4 by decide) true (atTarget b r l w s)
  refine ⟨_, rfl, ?_⟩
  rw [hrun, wrSlotmap_drops (s := atTarget b r l w s) hbad]
  exact ⟨val_stores (stores_dropped ..) (slotmap_out (by omega) 0) _, hreason, hmaster, hlast⟩

end Sys2Proof.Machine
end

