-- ==== Sys2Proof/Proofs/ConflictRecords.lean ====
section
/-! SUPPORT. What a recorded conflict of shadow writes stores (R88). -/

namespace Sys2Proof.Machine

/-! ### The words of a record -/

/-- The register words that a recorded conflict can store. -/
def conflictRegs (k : Nat) : Bool := raiseRegs k || (0x20040018 ≤ k && k < 0x20040028)

theorem stores_raise_conflict (e : Ev) (d0 d1 d2 g : Nat) : (raise e d0 d1 d2 g).Stores conflictRegs :=
  stores_mono (stores_raise e d0 d1 d2 g) fun k hk => by simp [conflictRegs, hk]

theorem conflict_in : WordsIn conflictRegs R.XBAR_CONFLICT 0 0 := by unfold WordsIn; decide
theorem conflictLast_in : WordsIn conflictRegs R.XBAR_CONFLICT_LAST 0 0 := by unfold WordsIn; decide
theorem conflict_out_raise : WordsOut raiseRegs R.XBAR_CONFLICT 0 0 := by unfold WordsOut; decide
theorem conflictLast_out_raise : WordsOut raiseRegs R.XBAR_CONFLICT_LAST 0 0 := by unfold WordsOut; decide
theorem accerr_out_conflict : WordsOut conflictRegs R.XBAR_ACCERR 0 0 := by unfold WordsOut; decide
theorem netMargin_out_conflict : WordsOut conflictRegs R.TICK_NETMARGIN 0 0 := by unfold WordsOut; decide

theorem noteConflict_stores (a loser winner : Nat) (tie : Bool) : (noteConflict a loser winner tie).Stores conflictRegs := by
  simp [noteConflict, stores_raise_conflict, stores_fset (f := F.XBAR_CONFLICT_OVERWRITTEN) conflict_in,
    stores_fset (f := F.XBAR_CONFLICT_TIE) conflict_in, stores_rset conflictLast_in]

theorem noteTieLost_stores (a m : Nat) (w : ShWrite) : (noteTieLost a m w).Stores conflictRegs := by
  unfold noteTieLost
  split
  · split
    · exact ⟨stores_fset (f := F.XBAR_CONFLICT_TIE) conflict_in 1, stores_rset conflictLast_in _⟩
    · exact ⟨(stores_onlyIf ..).mpr fun _ => noteConflict_stores _ _ _ _, noteConflict_stores _ _ _ _⟩
  · exact noteConflict_stores _ _ _ _

theorem noteConflict_touches (a loser winner : Nat) (tie : Bool) : (noteConflict a loser winner tie).Touches raiseKinds := by
  simp [noteConflict]

theorem noteTieLost_touches (a m : Nat) (w : ShWrite) : (noteTieLost a m w).Touches raiseKinds := by
  unfold noteTieLost
  split
  · split
    · exact ⟨touches_fset (ks := raiseKinds) (by decide) _ _ _ _, touches_rset (ks := raiseKinds) (by decide) _ _ _ _⟩
    · exact ⟨(touches_onlyIf ..).mpr fun _ => noteConflict_touches _ _ _ _, noteConflict_touches _ _ _ _⟩
  · exact noteConflict_touches _ _ _ _

/-! ### The last conflict -/

/-- `XBAR_CONFLICT_LAST` reads as a conflict at `a` that `winner` won over `loser`. -/
def LastConflict (a winner loser : Nat) (tie : Bool) (t : State) : Prop :=
  F.XBAR_CONFLICT_LAST_ADDR.get 0 t = a ∧ F.XBAR_CONFLICT_LAST_TIE.on 0 t = tie ∧
    F.XBAR_CONFLICT_LAST_WINNER.get 0 t = winner ∧ F.XBAR_CONFLICT_LAST_LOSER.get 0 t = loser

/-- The word that a conflict leaves there. -/
def lastConflictWord (a winner loser : Nat) (tie : Bool) : Nat := a % 2 ^ 32 + b2n tie * 2 ^ 41 + winner * 2 ^ 42 + loser * 2 ^ 52

theorem lastConflict_of_val {a winner loser : Nat} {tie : Bool} {t : State} (ha : a < 2 ^ 32) (hw : winner < 10) (hl : loser < 10)
    (h : R.XBAR_CONFLICT_LAST.val 0 t = lastConflictWord a winner loser tie) : LastConflict a winner loser tie t := by
  have htie : b2n tie < 2 := by cases tie <;> decide
  have hon : F.XBAR_CONFLICT_LAST_TIE.get 0 t = b2n tie := by
    show bitsOf (R.XBAR_CONFLICT_LAST.val 0 t) 41 41 = _
    rw [h, lastConflictWord]; unfold bitsOf; omega
  refine ⟨?_, ?_, ?_, ?_⟩
  · show bitsOf (R.XBAR_CONFLICT_LAST.val 0 t) 31 0 = _
    rw [h, lastConflictWord]; unfold bitsOf; omega
  · unfold Fld.on
    rw [hon]
    cases tie <;> rfl
  · show bitsOf (R.XBAR_CONFLICT_LAST.val 0 t) 51 42 = _
    rw [h, lastConflictWord]; unfold bitsOf; omega
  · show bitsOf (R.XBAR_CONFLICT_LAST.val 0 t) 61 52 = _
    rw [h, lastConflictWord]; unfold bitsOf; omega

/-- Storing that word makes it read so. -/
theorem lastConflict_set {a winner loser : Nat} (ha : a < 2 ^ 32) (hw : winner < 10) (hl : loser < 10) (tie : Bool) (s : State) :
    LastConflict a winner loser tie ((R.XBAR_CONFLICT_LAST.set 0 (lastConflictWord a winner loser tie)).run s) := by
  have htie : b2n tie < 2 := by cases tie <;> decide
  refine lastConflict_of_val ha hw hl ((val_set ..).trans (Nat.mod_eq_of_lt ?_))
  show _ < 2 ^ 64
  unfold lastConflictWord
  omega

/-- A raise leaves the last conflict. -/
theorem lastConflict_raise {a winner loser : Nat} {tie : Bool} {s : State} (h : LastConflict a winner loser tie s) (e : Ev)
    (d0 d1 d2 g : Nat) : LastConflict a winner loser tie ((raise e d0 d1 d2 g).run s) := by
  have keep := val_stores (stores_raise e d0 d1 d2 g) conflictLast_out_raise s
  unfold LastConflict Fld.on Fld.get at h ⊢
  exact keep ▸ h

/-! ### A record -/

/-- The bits of a number with one more set. -/
theorem bitOf_or_two_pow (x k i : Nat) : bitOf (x ||| 2 ^ k) i = (i == k || bitOf x i) := by
  have htest : ∀ y, bitOf y i = y.testBit i := fun y => by
    rw [Nat.testBit_eq_decide_div_mod_eq]
    unfold bitOf
    exact beq_eq_decide _ 1
  rw [htest, htest, Nat.testBit_or, Nat.testBit_two_pow, Bool.or_comm]
  congr 1
  rw [beq_eq_decide]
  exact decide_eq_decide.mpr eq_comm

theorem overwritten_set {x : Nat} (hx : x < 2 ^ 10) (s : State) :
    F.XBAR_CONFLICT_OVERWRITTEN.get 0 ((F.XBAR_CONFLICT_OVERWRITTEN.set 0 x).run s) = x :=
  (get_set _ _ _ _ _ (by decide) (by decide)).trans (Nat.mod_eq_of_lt hx)

theorem tie_set (s : State) : F.XBAR_CONFLICT_TIE.get 0 ((F.XBAR_CONFLICT_TIE.set 0 1).run s) = 1 :=
  get_set _ _ _ _ _ (by decide) (by decide)

theorem overwritten_tie_set (s : State) :
    F.XBAR_CONFLICT_OVERWRITTEN.get 0 ((F.XBAR_CONFLICT_TIE.set 0 1).run s) = F.XBAR_CONFLICT_OVERWRITTEN.get 0 s :=
  get_set_beside _ _ _ _ _ _ rfl (by decide) (by decide) (by decide) (by decide)

theorem tie_overwritten_set (x : Nat) (s : State) :
    F.XBAR_CONFLICT_TIE.get 0 ((F.XBAR_CONFLICT_OVERWRITTEN.set 0 x).run s) = F.XBAR_CONFLICT_TIE.get 0 s :=
  get_set_beside _ _ _ _ _ _ rfl (by decide) (by decide) (by decide) (by decide)

/-- The word of the last conflict stands apart from the bits of the masters and of the tie. -/
theorem conflict_last_set (v : Nat) (s : State) : R.XBAR_CONFLICT.val 0 ((R.XBAR_CONFLICT_LAST.set 0 v).run s) = R.XBAR_CONFLICT.val 0 s :=
  val_set_apart (apart_zero rfl rfl rfl rfl (by decide) 0 0) _ _

/-- The bits of the masters and of the tie after the loser's bit is set, and the tie's where there is one. -/
theorem conflict_bits {loser : Nat} (hl : loser < 10) (tie : Bool) (s : State) :
    let u := (F.XBAR_CONFLICT_OVERWRITTEN.set 0 (F.XBAR_CONFLICT_OVERWRITTEN.get 0 s ||| 2 ^ loser)).run s
    let t := (onlyIf tie (F.XBAR_CONFLICT_TIE.set 0 1)).run u
    F.XBAR_CONFLICT_OVERWRITTEN.get 0 t = F.XBAR_CONFLICT_OVERWRITTEN.get 0 s ||| 2 ^ loser ∧
      F.XBAR_CONFLICT_TIE.on 0 t = (tie || F.XBAR_CONFLICT_TIE.on 0 s) := by
  have hlt : F.XBAR_CONFLICT_OVERWRITTEN.get 0 s ||| 2 ^ loser < 2 ^ 10 :=
    Nat.or_lt_two_pow (bitsOf_lt ..) (Nat.pow_lt_pow_right (by decide) hl)
  unfold Fld.on
  cases tie with
  | false =>
    simp only [onlyIf_false, run_done, Bool.false_or]
    exact ⟨overwritten_set hlt s, congrArg (· == 1) (tie_overwritten_set _ s)⟩
  | true =>
    simp only [onlyIf_true, Bool.true_or]
    exact ⟨(overwritten_tie_set _).trans (overwritten_set hlt s), congrArg (· == 1) (tie_set _)⟩

/-- A recorded conflict: the loser's bit, the tie, the last conflict and the event; what else was overwritten stands. -/
theorem noteConflict_records {a loser winner : Nat} (ha : a < 2 ^ 32) (hl : loser < 10) (hw : winner < 10) (tie : Bool) (s : State) :
    let t := (noteConflict a loser winner tie).run s
    EvSet .XBAR_SH_CONFLICT t ∧ F.XBAR_CONFLICT_OVERWRITTEN.get 0 t = F.XBAR_CONFLICT_OVERWRITTEN.get 0 s ||| 2 ^ loser ∧
      F.XBAR_CONFLICT_TIE.on 0 t = (tie || F.XBAR_CONFLICT_TIE.on 0 s) ∧ LastConflict a winner loser tie t := by
  obtain ⟨hover, htie⟩ := conflict_bits hl tie s
  have hrun : (noteConflict a loser winner tie).run s = (raise .XBAR_SH_CONFLICT loser winner).run
      ((R.XBAR_CONFLICT_LAST.set 0 (lastConflictWord a winner loser tie)).run ((onlyIf tie (F.XBAR_CONFLICT_TIE.set 0 1)).run
        ((F.XBAR_CONFLICT_OVERWRITTEN.set 0 (F.XBAR_CONFLICT_OVERWRITTEN.get 0 s ||| 2 ^ loser)).run s))) := rfl
  generalize (onlyIf tie (F.XBAR_CONFLICT_TIE.set 0 1)).run _ = u at hover htie hrun
  have keep : R.XBAR_CONFLICT.val 0 ((noteConflict a loser winner tie).run s) = R.XBAR_CONFLICT.val 0 u := by
    rw [hrun, val_stores (stores_raise _ _ _ _ _) conflict_out_raise]
    exact conflict_last_set _ u
  refine ⟨hrun ▸ raise_sets .., ?_, ?_, hrun ▸ lastConflict_raise (lastConflict_set ha hw hl tie u) ..⟩
  · exact (congrArg (fun v => bitsOf v 9 0) keep).trans hover
  · exact (congrArg (fun v => bitsOf v 16 16 == 1) keep).trans htie

/-- A lost tie: the tie is recorded as the last conflict. A pair of masters already recorded gains nothing else; otherwise the loser's bit
is set, the winner's where the write that it stands over was its own, and the event is raised (R87, R88). -/
theorem noteTieLost_records {a m : Nat} {w : ShWrite} (ha : a < 2 ^ 32) (hm : m < 10) (hw : w.master < 10) (s : State) :
    let t := (noteTieLost a m w).run s
    F.XBAR_CONFLICT_TIE.on 0 t = true ∧ LastConflict a w.master m true t ∧
      (w.ousted ≠ some m → EvSet .XBAR_SH_CONFLICT t ∧ ∀ i, bitOf (F.XBAR_CONFLICT_OVERWRITTEN.get 0 t) i =
        (i == m || (w.ousted == some w.master && i == w.master) || bitOf (F.XBAR_CONFLICT_OVERWRITTEN.get 0 s) i)) ∧
      (w.ousted = some m → F.XBAR_CONFLICT_OVERWRITTEN.get 0 t = F.XBAR_CONFLICT_OVERWRITTEN.get 0 s ∧ t.sump = s.sump) := by
  have tied := noteConflict_records (tie := true) ha hm hw
  by_cases hagain : w.ousted = some m
  · have hrun : (noteTieLost a m w).run s =
        (R.XBAR_CONFLICT_LAST.set 0 (lastConflictWord a w.master m true)).run ((F.XBAR_CONFLICT_TIE.set 0 1).run s) := by
      have hword : lastConflictWord a w.master m true = a % 2 ^ 32 + 2 ^ 41 + w.master * 2 ^ 42 + m * 2 ^ 52 := by
        rw [lastConflictWord, show b2n true = 1 from rfl, Nat.one_mul]
      unfold noteTieLost
      rw [hagain, hword]
      dsimp only
      rw [if_pos rfl, run_acts_cons, run_acts_cons, run_acts_nil]
    have keep : R.XBAR_CONFLICT.val 0 ((noteTieLost a m w).run s) = R.XBAR_CONFLICT.val 0 ((F.XBAR_CONFLICT_TIE.set 0 1).run s) := by
      rw [hrun]
      exact conflict_last_set ..
    refine ⟨?_, hrun ▸ lastConflict_set ha hw hm true _, fun h => absurd hagain h, fun _ => ⟨?_, ?_⟩⟩
    · exact (congrArg (fun v => bitsOf v 16 16 == 1) keep).trans (congrArg (· == 1) (tie_set s))
    · exact (congrArg (fun v => bitsOf v 9 0) keep).trans (overwritten_tie_set s)
    · rw [hrun]
      exact (set_keeps (f := (·.sump)) (fun _ _ _ => rfl) _ 0 _ 0 _).trans (fset_keeps (f := (·.sump)) (fun _ _ _ => rfl) _ 0 1 0 s)
  · have hrun : (noteTieLost a m w).run s = (noteConflict a m w.master true).run
        ((onlyIf (w.ousted == some w.master) (noteConflict a w.master m false)).run s) := by
      unfold noteTieLost
      cases hx : w.ousted with
      | none => rfl
      | some x =>
        have hxm : x ≠ m := fun h => hagain (hx.trans (congrArg some h))
        dsimp only
        rw [if_neg hxm, run_seq]
        by_cases hxw : x = w.master
        · subst hxw
          simp
        · have hne : (some x == some w.master) = false := by simpa using hxw
          rw [hne, decide_eq_false hxw, onlyIf_false, onlyIf_false]
    obtain ⟨hev, hover, htie, hlast⟩ := tied ((onlyIf (w.ousted == some w.master) (noteConflict a w.master m false)).run s)
    rw [hrun]
    refine ⟨htie, hlast, fun _ => ⟨hev, fun i => ?_⟩, fun h => absurd h hagain⟩
    rw [hover, bitOf_or_two_pow, Bool.or_assoc]
    congr 1
    cases w.ousted == some w.master with
    | false => rfl
    | true =>
      obtain ⟨-, hfirst, -⟩ := noteConflict_records (tie := false) ha hw hm s
      rw [onlyIf_true, hfirst, bitOf_or_two_pow]
      rfl

end Sys2Proof.Machine
end

