-- ==== Sys2Proof/Proofs/ShadowWrites.lean ====
section
/-! SUPPORT. A write of a shadow that already holds one (R27, R86–R88). -/

namespace Sys2Proof.Machine

/-! ### What decides about an edge -/

/-- Two states stand alike towards the coming edge: the counter, the tick and its status, the pair, and the loader's switch. -/
structure SameEdge (s t : State) : Prop where
  now : t.now = s.now
  tick : t.tick = s.tick
  clk : t.clk = s.clk
  strata : t.strata = s.strata
  arrived : t.pair.arrived = s.pair.arrived
  num : R.TICK_NUM.val 0 t = R.TICK_NUM.val 0 s
  stat : R.TICK_STAT.val 0 t = R.TICK_STAT.val 0 s
  pairStat : R.PAIR_STAT.val 0 t = R.PAIR_STAT.val 0 s
  switch : R.STRATA_SWSTAT.val 0 t = R.STRATA_SWSTAT.val 0 s

section SameEdge

variable {s t : State} (h : SameEdge s t)
include h

theorem SameEdge.running : running t = running s := congrArg (fun v => bitsOf v _ _ == 1) h.stat

theorem SameEdge.tickNum : tickNum t = tickNum s := h.num

theorem SameEdge.spt : spt t = spt s := by rw [Machine.spt, h.tick, Machine.spt]

theorem SameEdge.fsHz : fsHz t = fsHz s := by rw [Machine.fsHz, h.tick, Machine.fsHz]

theorem SameEdge.cclkMHz : cclkMHz t = cclkMHz s := by rw [Machine.cclkMHz, h.clk, Machine.cclkMHz]

theorem SameEdge.edgePos (n : Nat) : edgePos n t = edgePos n s := by
  rw [Machine.edgePos, h.spt, h.cclkMHz, h.fsHz, Machine.edgePos]

theorem SameEdge.nextTick : nextTick t = nextTick s := by
  rw [Machine.nextTick, h.tick, h.now, h.spt, h.cclkMHz, h.fsHz, h.tickNum]
  simp only [h.edgePos, Machine.nextTick]

theorem SameEdge.edgeDue : edgeDue t = edgeDue s := by
  simp only [Machine.edgeDue, h.running, h.tick, h.edgePos, h.nextTick, h.now]

theorem SameEdge.tickHere : tickHere t = tickHere s := by
  rw [Machine.tickHere, h.edgeDue, h.nextTick, h.tickNum, Machine.tickHere]

theorem SameEdge.inEdgeCycle : inEdgeCycle t = inEdgeCycle s := by
  simp only [Machine.inEdgeCycle, h.running, h.edgeDue]

theorem SameEdge.heldForMark (m : Nat) : heldForMark m t = heldForMark m s := by
  have hst : F.PAIR_STAT_STATE.get 0 t = F.PAIR_STAT_STATE.get 0 s := congrArg (fun v => bitsOf v _ _) h.pairStat
  simp only [Machine.heldForMark, hst, h.arrived, h.nextTick]

theorem SameEdge.switchDue : switchDue t = switchDue s := by
  have hst : F.STRATA_SWSTAT_STATE.get 0 t = F.STRATA_SWSTAT_STATE.get 0 s := congrArg (fun v => bitsOf v _ _) h.switch
  rw [Machine.switchDue, hst, h.strata, h.tickHere, Machine.switchDue]

/-- A write that is neither a ramp target nor a slot map word is due alike in both (R556). -/
theorem SameEdge.dueNow {w : ShWrite} (hr : isRampTgt w = false) (hm : isSlotmap w = false) : dueNow w t = dueNow w s := by
  simp [Machine.dueNow, hr, hm, h.switchDue]

end SameEdge

/-! ### The write that a shadow holds -/

section Held

variable {a m : Nat} {w : ShWrite} {s : State}

/-- A write of master `m` meets the waiting write `w` of another before its edge cycle (R88). -/
def meets (m : Nat) (w : ShWrite) (s : State) : Bool := w.master ≠ m && (!inEdgeCycle s || !dueNow w s)

/-- A write of the edge cycle is due at the edge after the coming one (R27). -/
def comesLate (m : Nat) (s : State) : Bool := inEdgeCycle s && !heldForMark m s

variable (hw : s.shPend.filter (·.addr = a) = [w])
include hw

theorem find_shadow : s.shPend.find? (·.addr = a) = some w := by
  rw [← List.head?_filter, hw]
  rfl

theorem rival_shadow (hl : w.late = false) : rival a m s = if meets m w s then some w else none := by
  have hsplit : rival a m s = (s.shPend.filter (·.addr = a)).find? fun w => w.master ≠ m && (!inEdgeCycle s || w.late || !dueNow w s) := by
    rw [List.find?_filter]
    unfold rival
    simp only [Bool.and_assoc]
    simp
  rw [hsplit, hw]
  simp only [List.find?_cons, List.find?_nil, hl, Bool.or_false]
  unfold meets
  split <;> simp_all

theorem tieLost_shadow (hl : w.late = false) (tie : Bool) :
    tieLost a m tie s = (meets m w s && tie && decide (masterRank w.master < masterRank m)) := by
  unfold tieLost
  rw [rival_shadow hw hl]
  cases meets m w s <;> simp

/-- A write that loses its tie is noted as the one that landed first. -/
theorem noteShadow_lost (hl : w.late = false) {tie : Bool} (ht : tieLost a m tie s = true) (old : Nat) (held : Bool) :
    (noteShadow a old m tie held).run s = (noteTieLost a m w).run s := by
  have hmeets : meets m w s = true := by
    rw [tieLost_shadow hw hl, Bool.and_eq_true, Bool.and_eq_true] at ht
    exact ht.1.1
  unfold noteShadow
  rw [run_look]
  dsimp only
  rw [if_pos ht, rival_shadow hw hl, if_pos hmeets]

/-- What a write that stands leaves waiting at its address: the value it must keep for the coming edge is that of the earlier
write, which it has overwritten otherwise. -/
def standing (a m old : Nat) (held : Bool) (w : ShWrite) (s : State) (q : Nat) : ShWrite :=
  ⟨a, m, held, comesLate m s, if comesLate m s && dueNow w s then some (old, w.master) else none, q,
    if comesLate m s && dueNow w s then none else some w.master⟩

/-- A write that stands waits in place of the earlier one, and a conflict that it makes is recorded. -/
theorem noteShadow_stands (hl : w.late = false) {tie : Bool} (ht : tieLost a m tie s = false) (old : Nat) (held : Bool) :
    (noteShadow a old m tie held).run s =
      let t := (onlyIf (meets m w s) (noteConflict a w.master m tie)).run s
      (Act.upd (.shPend (t.shPend.filter (·.addr ≠ a) ++ [standing a m old held w s (nextSeq t)]))).run t := by
  have hprev : (if comesLate m s then (if dueNow w s then some (old, w.master) else none) else none) =
      if comesLate m s && dueNow w s then some (old, w.master) else none := by
    cases comesLate m s <;> cases dueNow w s <;> rfl
  unfold noteShadow
  rw [run_look]
  dsimp only
  rw [ht, if_neg (by decide), find_shadow hw, rival_shadow hw hl]
  simp only [hl, if_false, Bool.false_eq_true, Bool.not_false, Bool.and_true, standing, ← hprev]
  cases meets m w s with
  | false => rfl
  | true => rfl

end Held

/-! ### Arrivals -/

/-- A fold that rises above every number of a list. -/
theorem lt_foldl_max : ∀ {l : List Nat} {b n : Nat}, n < b ∨ n ∈ l → n < l.foldl (fun m n => max m (n + 1)) b
  | [], _, _, h => h.resolve_right List.not_mem_nil
  | x :: l, b, n, h => by
    rw [List.foldl_cons]
    refine lt_foldl_max ?_
    rcases h with h | h
    · exact .inl (by omega)
    · rcases List.mem_cons.mp h with rfl | h
      · exact .inl (by omega)
      · exact .inr h

/-- A new arrival comes after every write that waits (R28). -/
theorem lt_nextSeq {s : State} {x : ShWrite} (h : x ∈ s.shPend) : x.seq < nextSeq s :=
  lt_foldl_max (.inr (List.mem_append_left _ (List.mem_append_left _ (List.mem_map_of_mem h))))

end Sys2Proof.Machine
end

