-- ==== Sys2Proof/Proofs/ShadowConflicts.lean ====
section
/-! SUPPORT. A write of the network margin over one that waits there (R86–R88). -/

namespace Sys2Proof.Machine

/-! ### The write of the register -/

/-- The entry of `TICK_NETMARGIN`. -/
abbrev netMarginEntry : RegEntry := ⟨R.TICK_NETMARGIN, [F.TICK_NETMARGIN_NS]⟩

theorem placeOf_netMargin : placeOf (R.TICK_NETMARGIN.addr 0) = some ⟨netMarginEntry, 0, 0, false⟩ := rfl

/-- The register has no rule of its own. -/
theorem elemWrite_netMargin (m v : Nat) (tie : Bool) : elemWrite netMarginEntry 0 m v (fullMask 1) tie =
    storeWrite netMarginEntry 0 m v (fullMask 1) (R.TICK_NETMARGIN.addr 0) tie := rfl

theorem netMargin_of (v : Nat) : F.TICK_NETMARGIN_NS.of v = v % 2 ^ 14 := by simp [Fld.of, bitsOf, F.TICK_NETMARGIN_NS]

/-- A whole write gives the margin its value, refuses nothing, and is a shadow write. -/
theorem planWrite_netMargin (locked : Bool) (old v : Nat) : ∃ x, F.TICK_NETMARGIN_NS.of x = v % 2 ^ 14 ∧
    planWrite locked old v (fullMask 1) [F.TICK_NETMARGIN_NS] = ⟨x, false, false, true⟩ := by
  have hof := of_planWrite locked old v 1 (fs := [F.TICK_NETMARGIN_NS]) (by unfold FldsOk; decide) (List.mem_singleton.mpr rfl)
  have hafter : fieldAfter locked F.TICK_NETMARGIN_NS (F.TICK_NETMARGIN_NS.of old) (F.TICK_NETMARGIN_NS.of v) = v % 2 ^ 14 := by
    simp [fieldAfter, F.TICK_NETMARGIN_NS, Fld.of, bitsOf]
  have hmask : F.TICK_NETMARGIN_NS.of (fullMask 1) ≠ 0 := by decide
  refine ⟨_, hof.trans hafter, ?_⟩
  simp only [planWrite, List.foldl_cons, List.foldl_nil, planField, if_neg hmask]
  rfl

/-- A write of the register is noted as a shadow write, after its value where it loses no tie (R87). -/
theorem storeWrite_netMargin (m v : Nat) (tie : Bool) (s : State) : ∃ x, F.TICK_NETMARGIN_NS.of x = v % 2 ^ 14 ∧
    (storeWrite netMarginEntry 0 m v (fullMask 1) (R.TICK_NETMARGIN.addr 0) tie).run s =
      (noteShadow (R.TICK_NETMARGIN.addr 0) (R.TICK_NETMARGIN.val 0 s) m tie false).run
        ((onlyIf (!tieLost (R.TICK_NETMARGIN.addr 0) m tie s) (R.TICK_NETMARGIN.set 0 x m)).run s) := by
  obtain ⟨x, hx, hplan⟩ := planWrite_netMargin s.lock (R.TICK_NETMARGIN.val 0 s m) v
  refine ⟨x, hx, ?_⟩
  unfold storeWrite
  simp only [run_look, hplan, run_acts_cons, run_acts_nil, Bool.true_and, onlyIf_true, onlyIf_false, Bool.false_eq_true, if_false, run_done]
  rw [val_master rfl 0 m s]

/-! ### What it leaves -/

section NetMargin

variable {m : Nat} {x : Nat} {s : State}

theorem netMargin_apart {r : Reg} (hd : r.dims = []) (hp : r.perMaster = false)
    (hb : r.base + 4 * r.words ≤ R.TICK_NETMARGIN.base ∨ R.TICK_NETMARGIN.base + 4 ≤ r.base) :
    r.val 0 ((R.TICK_NETMARGIN.set 0 x m).run s) = r.val 0 s :=
  val_set_apart (apart_zero hd hp rfl rfl hb 0 m) _ _

/-- The margin has no part in what decides about an edge. -/
theorem netMargin_sameEdge : SameEdge s ((R.TICK_NETMARGIN.set 0 x m).run s) where
  now := set_keeps (f := (·.now)) (fun _ _ _ => rfl) ..
  tick := set_keeps (f := (·.tick)) (fun _ _ _ => rfl) ..
  clk := set_keeps (f := (·.clk)) (fun _ _ _ => rfl) ..
  strata := set_keeps (f := (·.strata)) (fun _ _ _ => rfl) ..
  arrived := set_keeps (f := (·.pair.arrived)) (fun _ _ _ => rfl) ..
  num := netMargin_apart rfl rfl (by decide)
  stat := netMargin_apart rfl rfl (by decide)
  pairStat := netMargin_apart rfl rfl (by decide)
  switch := netMargin_apart rfl rfl (by decide)

theorem netMargin_get {n : Nat} (hx : F.TICK_NETMARGIN_NS.of x = n) : F.TICK_NETMARGIN_NS.get 0 ((R.TICK_NETMARGIN.set 0 x m).run s) = n := by
  rw [← get_master (f := F.TICK_NETMARGIN_NS) rfl 0 m, ← hx]
  show bitsOf (R.TICK_NETMARGIN.val 0 ((R.TICK_NETMARGIN.set 0 x m).run s) m) 13 0 = _
  rw [val_set]
  exact bitsOf_mod (n := 1) x (by decide) (by decide)

end NetMargin

/-! ### The two outcomes -/

section Outcomes

variable {m v : Nat} {tie : Bool} {w : ShWrite} {s : State}

/-- The state after the write of the register. -/
abbrev afterMargin (m v : Nat) (tie : Bool) (s : State) : State :=
  (storeWrite netMarginEntry 0 m v (fullMask 1) (R.TICK_NETMARGIN.addr 0) tie).run s

/-- The waiting write of the margin is neither a ramp target nor a slot map word. -/
theorem netMargin_unblocked (h : w.addr = R.TICK_NETMARGIN.addr 0) : isRampTgt w = false ∧ isSlotmap w = false := by
  rw [isRampTgt, isSlotmap, h]
  decide

/-- A write that loses its tie leaves the margin and the waiting write, and its loss is noted. -/
theorem afterMargin_lost (hw : s.shPend.filter (·.addr = R.TICK_NETMARGIN.addr 0) = [w]) (hl : w.late = false)
    (ht : tieLost (R.TICK_NETMARGIN.addr 0) m tie s = true) :
    afterMargin m v tie s = (noteTieLost (R.TICK_NETMARGIN.addr 0) m w).run s := by
  obtain ⟨x, -, hrun⟩ := storeWrite_netMargin m v tie s
  rw [afterMargin, hrun, ht]
  exact noteShadow_lost hw hl ht _ _

/-- A write that stands gives the margin its value and waits in place of the earlier one, and a conflict that it makes is recorded. -/
theorem afterMargin_stands (hw : s.shPend.filter (·.addr = R.TICK_NETMARGIN.addr 0) = [w]) (hl : w.late = false)
    (ht : tieLost (R.TICK_NETMARGIN.addr 0) m tie s = false) :
    ∃ u, SameEdge s u ∧ F.TICK_NETMARGIN_NS.get 0 u = v % 2 ^ 14 ∧ u.shPend = s.shPend ∧ u.sump = s.sump ∧
      (∀ {r : Reg}, r.dims = [] → r.perMaster = false → R.TICK_NETMARGIN.base + 4 ≤ r.base → r.val 0 u = r.val 0 s) ∧
      let t := (onlyIf (meets m w s) (noteConflict (R.TICK_NETMARGIN.addr 0) w.master m tie)).run u
      afterMargin m v tie s = (Act.upd (.shPend (t.shPend.filter (·.addr ≠ R.TICK_NETMARGIN.addr 0) ++
        [standing (R.TICK_NETMARGIN.addr 0) m (R.TICK_NETMARGIN.val 0 s) false w s (nextSeq t)]))).run t := by
  obtain ⟨x, hx, hrun⟩ := storeWrite_netMargin m v tie s
  rw [ht, Bool.not_false, onlyIf_true] at hrun
  have hsame : SameEdge s ((R.TICK_NETMARGIN.set 0 x m).run s) := netMargin_sameEdge
  have hpend : ((R.TICK_NETMARGIN.set 0 x m).run s).shPend = s.shPend := set_keeps (f := (·.shPend)) (fun _ _ _ => rfl) ..
  refine ⟨(R.TICK_NETMARGIN.set 0 x m).run s, hsame, netMargin_get hx, hpend, set_keeps (f := (·.sump)) (fun _ _ _ => rfl) ..,
    fun hd hp hb => netMargin_apart hd hp (.inr hb), ?_⟩
  generalize (R.TICK_NETMARGIN.set 0 x m).run s = u at hrun hsame hpend
  have haddr : w.addr = R.TICK_NETMARGIN.addr 0 := by
    have hmem : w ∈ s.shPend.filter (·.addr = R.TICK_NETMARGIN.addr 0) := hw ▸ List.mem_singleton.mpr rfl
    simpa using (List.mem_filter.mp hmem).2
  obtain ⟨hramp, hmap⟩ := netMargin_unblocked haddr
  have hdue : dueNow w u = dueNow w s := hsame.dueNow hramp hmap
  have hmeets : meets m w u = meets m w s := by rw [meets, hsame.inEdgeCycle, hdue, meets]
  have hlate : comesLate m u = comesLate m s := by rw [comesLate, hsame.inEdgeCycle, hsame.heldForMark, comesLate]
  rw [← hpend] at hw
  have htu : tieLost (R.TICK_NETMARGIN.addr 0) m tie u = false := by
    rw [tieLost_shadow hw hl, hmeets, ← tieLost_shadow (hpend ▸ hw) hl]
    exact ht
  have hstanding : ∀ q, standing (R.TICK_NETMARGIN.addr 0) m (R.TICK_NETMARGIN.val 0 s) false w u q =
      standing (R.TICK_NETMARGIN.addr 0) m (R.TICK_NETMARGIN.val 0 s) false w s q := fun q => by rw [standing, hlate, hdue, standing]
  rw [afterMargin, hrun, noteShadow_stands hw hl htu, hmeets]
  dsimp only
  rw [hstanding]

/-- A write of the register by a master comes to it, at a state that stands alike towards the edge, and is answered. -/
theorem registerWrite_netMargin {m : Master} (h : WriteReaches m (R.TICK_NETMARGIN.addr 0) s) (hm : m.val = 1 → accessPends 1 s = false)
    (v : W64) (tie : Bool) : ∃ b r l q e,
      exec (.registerWrite m (BitVec.ofNat 32 (R.TICK_NETMARGIN.addr 0)) .b4 v tie) s =
        .next ((respond m [] e).run (afterMargin m (v.toNat % 2 ^ 32) tie (atTarget b r l q s))) := by
  obtain ⟨b, r, l, q, e, hrun⟩ := busAccess_writeReg (v := v) h hm (by decide) (by unfold peripheral; decide) placeOf_netMargin tie
  refine ⟨b, r, l, q, e, ?_⟩
  rw [regWrite_word (by decide) rfl (by decide) rfl, elemWrite_netMargin] at hrun
  exact congrArg Host.Outcome.next hrun

end Outcomes

/-- Settles O57: the write of the margin either loses its tie, and the loss is noted, or stands, and a conflict that it makes is
recorded. -/
theorem shadowConflicts : Obligations.ShadowConflicts := by
  intro m v tie w s h hm hw hl h10 late due met lost again also winner loser
  obtain ⟨b, r, l, p, e, hexec⟩ := registerWrite_netMargin h hm v tie
  have hlost : tieLost (R.TICK_NETMARGIN.addr 0) m tie (atTarget b r l p s) = lost := tieLost_shadow (s := s) hw hl tie
  have haddr : R.TICK_NETMARGIN.addr 0 < 2 ^ 32 := by decide
  rw [hexec]
  cases hout : lost with
  | true =>
    obtain ⟨⟨hmet, htie⟩, -⟩ : (met = true ∧ tie = true) ∧ _ := by simpa [lost] using hout
    have hwin : winner = w.master := if_pos hout
    have hlose : loser = m.val := if_pos hout
    have hagain : again = (w.ousted == some m.val) := by rw [← Bool.true_and (_ == _), ← hout]
    have halso : also = (w.ousted == some w.master) := by rw [← Bool.true_and (_ == _), ← hout]
    have hstores := noteTieLost_stores (R.TICK_NETMARGIN.addr 0) m w
    obtain ⟨htied, ⟨hla, hlt, hlw, hll⟩, hnew, hold⟩ := noteTieLost_records (w := w) haddr m.isLt h10 (atTarget b r l p s)
    rw [afterMargin_lost (s := atTarget b r l p s) hw hl (hlost.trans hout), hwin, hlose, hmet, htie, hagain, halso]
    refine ⟨_, nextSeq s, rfl, fun x hx => lt_nextSeq hx, val_stores hstores accerr_out_conflict _,
      fun _ => ⟨val_stores hstores netMargin_out_conflict _, touches_shPend (noteTieLost_touches ..) (by decide) (by decide) _⟩,
      fun hf => absurd hf (by decide), fun _ => ⟨fun ha => ?_, fun ha => hold (by simpa using ha), htied, hla, hlt, hlw, hll⟩,
      fun hf => absurd hf (by decide)⟩
    obtain ⟨hev, hbits⟩ := hnew (by simpa using ha)
    exact ⟨hev, fun i _ => hbits i⟩
  | false =>
    have hwin : winner = m.val := if_neg (by simp [hout])
    have hlose : loser = w.master := if_neg (by simp [hout])
    have hagain : again = false := by simp [again, hout]
    have halso : also = false := by simp [also, hout]
    obtain ⟨u, -, hget, hpend, hsump, hkeep, hrun⟩ := afterMargin_stands (v := v.toNat % 2 ^ 32) (s := atTarget b r l p s) hw hl
      (hlost.trans hout)
    have hmet : meets m w (atTarget b r l p s) = met := rfl
    rw [hmet] at hrun
    have hstores : (onlyIf met (noteConflict (R.TICK_NETMARGIN.addr 0) w.master m tie)).Stores conflictRegs :=
      (stores_onlyIf ..).mpr fun _ => noteConflict_stores _ _ _ _
    have htouches : (onlyIf met (noteConflict (R.TICK_NETMARGIN.addr 0) w.master m tie)).Touches raiseKinds :=
      (touches_onlyIf ..).mpr fun _ => noteConflict_touches _ _ _ _
    have htpend := (touches_shPend htouches (by decide) (by decide) u).trans hpend
    have hxget := (get_stores hstores (f := F.TICK_NETMARGIN_NS) netMargin_out_conflict u).trans hget
    have hacc := (val_stores hstores accerr_out_conflict u).trans (hkeep rfl rfl (by decide))
    have hconf : R.XBAR_CONFLICT.val 0 u = R.XBAR_CONFLICT.val 0 s := hkeep rfl rfl (by decide)
    have hclast : R.XBAR_CONFLICT_LAST.val 0 u = R.XBAR_CONFLICT_LAST.val 0 s := hkeep rfl rfl (by decide)
    have hmargin : v.toNat % 2 ^ 32 % 2 ^ 14 = v.toNat % 2 ^ 14 := by omega
    rw [hrun, hwin, hlose, hagain, halso]
    refine ⟨_, _, rfl, fun x hx => lt_nextSeq (htpend ▸ hx), hacc, fun hf => absurd hf (by decide),
      fun _ => ⟨hxget.trans hmargin, ?_⟩, fun hyes => ?_, fun hno => ?_⟩
    · exact congrArg (fun l => l.filter (·.addr ≠ R.TICK_NETMARGIN.addr 0) ++ [_]) htpend
    · have hrec := noteConflict_records (a := R.TICK_NETMARGIN.addr 0) haddr h10 m.isLt tie u
      rw [hyes, onlyIf_true]
      generalize (noteConflict (R.TICK_NETMARGIN.addr 0) w.master m tie).run u = t at hrec ⊢
      obtain ⟨hev, hover, htied, hlast⟩ := hrec
      refine ⟨fun _ => ⟨hev, fun i _ => ?_⟩, fun hf => absurd hf (by decide), htied.trans ?_, hlast⟩
      · refine (congrArg (bitOf · i) hover).trans ((bitOf_or_two_pow ..).trans ?_)
        rw [Bool.false_and, Bool.or_false]
        exact congrArg (fun v => (i == w.master || bitOf (bitsOf v 9 0) i)) hconf
      · exact congrArg (fun v => (tie || bitsOf v 16 16 == 1)) hconf
    · rw [hno]
      exact ⟨hconf, hclast, hsump⟩

end Sys2Proof.Machine
end

