-- ==== Sys2Proof/Proofs/LaneReads.lean ====
section
/-! SUPPORT. What the registers of a lane read as, and that landing results changes no read (R115, R116, R161). -/

namespace Sys2Proof.Machine

/-! ### The reads of a lane -/

/-- The bits of a register that a result names. -/
def LaneDest.width : LaneDest → Nat
  | .d _ => 40
  | .acc _ => 88
  | .a _ | .m _ | .len _ => 18
  | .flags => 2

/-- What the register itself holds. -/
def Lane.held (l : Lane) : LaneDest → Nat
  | .d i => l.d[i.val].toNat
  | .acc i => l.acc[i.val].toNat
  | .a i => l.a[i.val].toNat
  | .m i => l.m[i.val].toNat
  | .len i => l.len[i.val].toNat
  | .flags => b2n l.zf + 2 * b2n l.nf

/-- A reader of `d` at position `n` sees the result `r`. -/
def PendRes.serves (r : PendRes) (d : LaneDest) (mac : Bool) (n : Nat) : Bool :=
  decide (r.dest = d) && (if mac then r.macAt ≤ n else r.at_ ≤ n)

/-- The result in flight that a reader of `d` at position `n` sees. -/
def inFlight (rs : List PendRes) (d : LaneDest) (mac : Bool) (n : Nat) : Option Nat :=
  ((rs.filter fun r => r.serves d mac n).getLast?).map (·.val)

/-- What a reader of `d` at position `n` reads. -/
def Lane.reads (l : Lane) (d : LaneDest) (mac : Bool) (n : Nat) : Nat := (inFlight l.results d mac n).getD (l.held d) % 2 ^ d.width

theorem seen_eq (l : Lane) (d : LaneDest) (mac : Bool) : seen l d mac = inFlight l.results d mac l.pos := rfl

/-- A word given as a number, or the word of a register, by their bits. -/
theorem toNat_ofNat_getD {w : Nat} (o : Option Nat) (x : BitVec w) :
    ((o.map (BitVec.ofNat w)).getD x).toNat = o.getD x.toNat % 2 ^ w := by
  cases o with
  | none => exact (Nat.mod_eq_of_lt x.isLt).symm
  | some v => exact BitVec.toNat_ofNat v w

theorem rdD_reads (l : Lane) (i : Fin 16) : (rdD l i).toNat = l.reads (.d i) false l.pos := by
  refine Eq.trans ?_ (toNat_ofNat_getD (inFlight l.results (.d i) false l.pos) l.d[i.val])
  unfold rdD
  rw [seen_eq]
  cases inFlight l.results (.d i) false l.pos <;> rfl

theorem rdAcc_reads (l : Lane) (i : Fin 4) (mac : Bool) : (rdAcc l i mac).toNat = l.reads (.acc i) mac l.pos := by
  refine Eq.trans ?_ (toNat_ofNat_getD (inFlight l.results (.acc i) mac l.pos) l.acc[i.val])
  unfold rdAcc
  rw [seen_eq]
  cases inFlight l.results (.acc i) mac l.pos <;> rfl

theorem rdA_reads (l : Lane) (i : Fin 16) : (rdA l i).toNat = l.reads (.a i) false l.pos := by
  refine Eq.trans ?_ (toNat_ofNat_getD (inFlight l.results (.a i) false l.pos) l.a[i.val])
  unfold rdA
  rw [seen_eq]
  cases inFlight l.results (.a i) false l.pos <;> rfl

theorem rdFlags_reads (l : Lane) : rdFlags l = (l.reads .flags false l.pos % 2 == 1, l.reads .flags false l.pos / 2 % 2 == 1) := by
  unfold rdFlags Lane.reads
  rw [seen_eq]
  cases inFlight l.results .flags false l.pos with
  | none =>
    show (l.zf, l.nf) = ((b2n l.zf + 2 * b2n l.nf) % 2 ^ 2 % 2 == 1, (b2n l.zf + 2 * b2n l.nf) % 2 ^ 2 / 2 % 2 == 1)
    cases l.zf <;> cases l.nf <;> rfl
  | some v =>
    show (v % 2 == 1, v / 2 % 2 == 1) = (v % 2 ^ 2 % 2 == 1, v % 2 ^ 2 / 2 % 2 == 1)
    rw [show v % 2 ^ 2 % 2 = v % 2 by omega, show v % 2 ^ 2 / 2 % 2 = v / 2 % 2 by omega]

/-! ### Lanes that read alike -/

/-- Every register reads alike in two lanes, each at its own position. -/
def ReadAlike (l l' : Lane) : Prop := ∀ d mac, l.reads d mac l.pos = l'.reads d mac l'.pos

section ReadAlike

variable {l l' : Lane} (h : ReadAlike l l')
include h

theorem ReadAlike.rdD (i : Fin 16) : rdD l i = rdD l' i :=
  BitVec.eq_of_toNat_eq ((rdD_reads l i).trans ((h (.d i) false).trans (rdD_reads l' i).symm))

theorem ReadAlike.rdAcc (i : Fin 4) (mac : Bool) : rdAcc l i mac = rdAcc l' i mac :=
  BitVec.eq_of_toNat_eq ((rdAcc_reads l i mac).trans ((h (.acc i) mac).trans (rdAcc_reads l' i mac).symm))

theorem ReadAlike.rdA (i : Fin 16) : rdA l i = rdA l' i :=
  BitVec.eq_of_toNat_eq ((rdA_reads l i).trans ((h (.a i) false).trans (rdA_reads l' i).symm))

theorem ReadAlike.rdFlags : rdFlags l = rdFlags l' := by rw [rdFlags_reads, rdFlags_reads, h .flags false]

end ReadAlike

/-! ### Results in flight -/

section InFlight

variable {r : PendRes} {rs : List PendRes} {d : LaneDest} {mac : Bool} {p n : Nat}

/-- The result issued last comes first. -/
theorem inFlight_cons : inFlight (r :: rs) d mac n = (inFlight rs d mac n).or (if r.serves d mac n then some r.val else none) := by
  unfold inFlight
  rw [List.filter_cons]
  split
  · rw [List.getLast?_cons, Option.map_some]
    cases (rs.filter fun r => r.serves d mac n).getLast? <;> rfl
  · rw [Option.or_none]

/-- A result just issued is the one that its readers see. -/
theorem inFlight_concat (h : r.serves d mac n = true) : inFlight (rs ++ [r]) d mac n = some r.val := by
  unfold inFlight
  rw [List.filter_append, List.filter_singleton, h]
  simp

/-- Readers from `p` on see a result that has landed at `p`. -/
theorem PendRes.serves_landed (h : r.landed p = true) (hp : p ≤ n) (mac : Bool) : r.serves r.dest mac n = true := by
  unfold PendRes.landed at h
  unfold PendRes.serves
  cases mac <;> simp at h ⊢ <;> omega

theorem inFlight_isSome {q : PendRes} (hq : q ∈ rs) (h : q.serves d mac n = true) : ∃ v, inFlight rs d mac n = some v := by
  have hmem : q ∈ rs.filter fun r => r.serves d mac n := List.mem_filter.mpr ⟨hq, h⟩
  exact ⟨_, by rw [inFlight, List.getLast?_eq_some_getLast (List.ne_nil_of_mem hmem)]; rfl⟩

end InFlight

/-! ### Landing -/

/-- A landed result is what its register holds. -/
theorem held_landRes_self (l : Lane) (d : LaneDest) (v : Nat) : (landRes l d v).held d % 2 ^ d.width = v % 2 ^ d.width := by
  cases d with
  | flags =>
    show (b2n (v % 2 == 1) + 2 * b2n (v / 2 % 2 == 1)) % 2 ^ 2 = v % 2 ^ 2
    have h0 := Nat.mod_two_eq_zero_or_one v
    have h1 := Nat.mod_two_eq_zero_or_one (v / 2)
    rcases h0 with h0 | h0 <;> rcases h1 with h1 | h1 <;> rw [h0, h1] <;> simp [b2n] <;> omega
  | _ => simp [Lane.held, landRes, LaneDest.width]

/-- The other registers stay. -/
theorem held_landRes_ne (l : Lane) {d e : LaneDest} (h : e ≠ d) (v : Nat) : (landRes l e v).held d = l.held d := by
  cases e <;> cases d
  case flags.flags => exact absurd rfl h
  case d.d i j | acc.acc i j | a.a i j | m.m i j | len.len i j =>
    exact congrArg BitVec.toNat (Vector.getElem_set_ne i.isLt j.isLt fun hij => h (congrArg _ (Fin.ext hij)))
  all_goals rfl

section Landing

variable {p n : Nat} {d : LaneDest} {mac : Bool}

/-- Where nothing for `d` lands, the results and the register of `d` stay. -/
theorem landAll_unlanded : ∀ {rs : List PendRes} (l : Lane), (∀ q ∈ rs, q.dest = d → q.landed p = false) →
    inFlight (landAll p rs l).2 d mac n = inFlight rs d mac n ∧ (landAll p rs l).1.held d = l.held d
  | [], _, _ => ⟨rfl, rfl⟩
  | r :: rs, l, h => by
    have hr := h r List.mem_cons_self
    have ih := fun l => landAll_unlanded (rs := rs) l fun q hq => h q (List.mem_cons_of_mem r hq)
    rw [landAll]
    split
    next hany =>
      obtain ⟨q, hq, hland⟩ := List.any_eq_true.mp hany
      obtain ⟨hqr, hland⟩ : q.dest = r.dest ∧ q.landed p = true := by simpa using hland
      have hd : r.dest ≠ d := fun e => by rw [h q (List.mem_cons_of_mem r hq) (hqr.trans e)] at hland; cases hland
      rw [inFlight_cons, PendRes.serves, decide_eq_false hd]
      simpa using ih l
    next =>
      split
      next hland =>
        have hd : r.dest ≠ d := fun e => by rw [hr e] at hland; cases hland
        rw [inFlight_cons, PendRes.serves, decide_eq_false hd, ← held_landRes_ne l hd r.val]
        simpa using ih (landRes l r.dest r.val)
      next =>
        obtain ⟨hfl, hheld⟩ := ih l
        exact ⟨by rw [inFlight_cons, inFlight_cons, hfl], hheld⟩

/-- Landing at `p` changes nothing that a reader from `p` on reads. -/
theorem reads_landAll (hp : p ≤ n) : ∀ (rs : List PendRes) (l : Lane),
    (inFlight (landAll p rs l).2 d mac n).getD ((landAll p rs l).1.held d) % 2 ^ d.width =
      (inFlight rs d mac n).getD (l.held d) % 2 ^ d.width
  | [], _ => rfl
  | r :: rs, l => by
    have ih := reads_landAll hp rs
    rw [landAll]
    split
    next hany =>
      obtain ⟨q, hq, hland⟩ := List.any_eq_true.mp hany
      obtain ⟨hqr, hland⟩ : q.dest = r.dest ∧ q.landed p = true := by simpa using hland
      rw [ih, inFlight_cons]
      by_cases hd : r.dest = d
      · obtain ⟨v, hv⟩ := inFlight_isSome hq (hqr.trans hd ▸ q.serves_landed hland hp mac)
        rw [hv, Option.some_or]
      · rw [PendRes.serves, decide_eq_false hd]
        simp
    next hany =>
      split
      next hland =>
        rw [ih, inFlight_cons]
        by_cases hd : r.dest = d
        · subst hd
          rw [r.serves_landed hland hp mac, if_pos rfl]
          cases inFlight rs r.dest mac n with
          | none => exact held_landRes_self l r.dest r.val
          | some v => rfl
        · rw [held_landRes_ne l hd, PendRes.serves, decide_eq_false hd]
          simp
      next =>
        rw [inFlight_cons, inFlight_cons]
        by_cases hd : r.dest = d
        · have hnone : ∀ q ∈ rs, q.dest = d → q.landed p = false := fun q hq hqd => by
            have hq := List.any_eq_false.mp (Bool.eq_false_iff.mpr hany) q hq
            rw [hqd, hd, decide_eq_true rfl, Bool.true_and] at hq
            exact Bool.eq_false_iff.mpr hq
          obtain ⟨hfl, hheld⟩ := landAll_unlanded (mac := mac) (n := n) l hnone
          rw [hfl, hheld]
        · rw [PendRes.serves, decide_eq_false hd]
          simpa using ih l

/-- A new issue position changes nothing that a later reader reads. -/
theorem reads_advancePos {l : Lane} (h : l.pos + 1 ≤ n) : (advancePos l).reads d mac n = l.reads d mac n :=
  reads_landAll h l.results l

end Landing

/-! ### What landing leaves -/

theorem landRes_stepRet (l : Lane) (d : LaneDest) (v : Nat) : (landRes l d v).stepRet = l.stepRet := by
  cases d <;> rfl

theorem landAll_stepRet {p : Nat} : ∀ (rs : List PendRes) (l : Lane), (landAll p rs l).1.stepRet = l.stepRet
  | [], _ => rfl
  | r :: rs, l => by
    rw [landAll]
    split
    · exact landAll_stepRet rs l
    · split
      · exact (landAll_stepRet rs _).trans (landRes_stepRet ..)
      · exact landAll_stepRet rs l

theorem advancePos_stepRet (l : Lane) : (advancePos l).stepRet = l.stepRet := landAll_stepRet ..

/-- A result for `d` read at its position. -/
theorem reads_putD (i : Fin 16) (v : W40) {lat n : Nat} {l : Lane} (h : l.pos + lat ≤ n) :
    (putD i v lat l).reads (.d i) false n = v.toNat := by
  have hserves : (PendRes.mk (.d i) v.toNat l.pos (l.pos + lat) (l.pos + lat)).serves (.d i) false n = true := by
    simp [PendRes.serves, h]
  show (inFlight (l.results ++ [_]) (.d i) false n).getD _ % 2 ^ 40 = _
  rw [inFlight_concat hserves]
  exact Nat.mod_eq_of_lt v.isLt

end Sys2Proof.Machine
end

