-- ==== Sys2Proof/Proofs/LaneIssue.lean ====
section
/-! SUPPORT. A lane that comes to its word, and an instruction that has executed (R115, R116, R123, R130–R134). -/

namespace Sys2Proof.Machine

/-! ### The slot of a lane -/

/-- A change of a lane slot is what the slot then holds. -/
@[simp] theorem laneAt_setLane (l : Nat) (f : Lane → Lane) (s : State) : laneAt ((setLane l f).run s) l = f (laneAt s l) :=
  get_put_self ..

theorem mem_setLane (l : Nat) (f : Lane → Lane) (s : State) : ((setLane l f).run s).mem = s.mem := rfl

/-- What changes no lane leaves the slot. -/
theorem laneAt_touches {ks : List Kind} {a : Act} (ha : a.Touches ks) (h : Kind.lane ∉ ks) (hr : Kind.nodeReset ∉ ks) (l : Nat)
    (s : State) : laneAt (a.run s) l = laneAt s l :=
  congrArg (smGet _ · l) (touches_lanes ha h hr s)

theorem touches_putWord40 {ks : List Kind} (hm : Kind.mem ∈ ks) (he : Kind.ecc ∈ ks) (a : Nat) (v : W40) : (putWord40 a v).Touches ks :=
  ⟨touches_setWord40 hm a v, touches_eccFull he a 8⟩

/-! ### The instruction that has executed -/

/-- The lane after an instruction without a change of flow (R115, R119). -/
def retired (cost stall : Nat) (store : Bool) (L : Lane) : Lane := { advancePos L with
  st := if L.st = .stall then .run else L.st
  cause := .none
  reps := (nextPc L.reps L.pc).1
  cache := if (cacheLevel (nextPc L.reps L.pc).1).isSome then L.cache else []
  pc := (nextPc L.reps L.pc).2
  cyc := L.cyc + cost + stall
  stalls := L.stalls + stall
  lastStore := store }

/-- Outside a step, and with an address that follows, an instruction changes its lane alone. -/
theorem retireNext_run {l : Nat} {s : State} (hret : (laneAt s l).stepRet = none)
    (hnext : (nextPc (laneAt s l).reps (laneAt s l).pc).2 < 4096) (cost stall : Nat) (store : Bool) :
    (retireNext l cost stall store).run s = (setLane l (retired cost stall store)).run s := by
  unfold retireNext retire
  rw [run_look]
  dsimp only
  have hlast : ∀ u, laneAt u l = retired cost stall store (laneAt s l) → (stepEnd l).run u = u := fun u hu => by
    have hu : (laneAt u l).stepRet = none := by
      rw [hu]
      exact (advancePos_stepRet _).trans hret
    simp [stepEnd, hu]
  have hmin : min (nextPc (laneAt s l).reps (laneAt s l).pc).2 4095 = (nextPc (laneAt s l).reps (laneAt s l).pc).2 := by omega
  rw [run_acts_cons, run_acts_cons, run_acts_cons, run_acts_nil, onlyIf, if_neg (by simpa using hnext), run_done]
  unfold setLane
  simp only [run_look, run_upd, hmin]
  exact hlast _ (get_put_self ..)

/-- No instruction follows where no step is in progress. -/
theorem stepOn_idle {l : Nat} {s : State} (hret : (laneAt s l).stepRet = none) (n : Nat) : (stepOn l n).run s = s := by
  cases n with
  | zero => rfl
  | succ n => simp [stepOn, hret]

/-! ### Issue -/

/-- A fetched word changes of its lane only the loop cache. -/
theorem fillCache_lane (l : Nat) (s : State) : ∃ c, laneAt ((fillCache l).run s) l = { laneAt s l with cache := c } := by
  unfold fillCache
  rw [run_look]
  dsimp only
  split
  next r _ =>
    cases hin : (laneAt s l).cache.contains (laneAt s l).pc with
    | true => exact ⟨(laneAt s l).cache, rfl⟩
    | false =>
      refine ⟨(laneAt s l).cache ++ [(laneAt s l).pc], ?_⟩
      have hfresh : (onlyIf (!s.ecc.marks.isEmpty)
          (eccFresh fun k => eccInst k = laneInst 3 l && eccUnit k = (laneAt s l).pc - r.first)).Touches [.ecc] :=
        (touches_onlyIf ..).mpr fun _ => touches_setEcc (by decide) _
      rw [Bool.not_false, onlyIf_true, run_seq, laneAt_touches hfresh (by decide) (by decide), laneAt_setLane]
  · exact ⟨(laneAt s l).cache, rfl⟩

/-- The stores that are due are written, and the others stay in flight. -/
theorem landStores_lane (l : Nat) (p : PendStore → Bool) (s : State) :
    laneAt ((landStores l p).run s) l = { laneAt s l with stores := (laneAt s l).stores.filter fun x => !p x } := by
  unfold landStores
  rw [run_look, run_seq, laneAt_setLane]
  dsimp only
  rw [laneAt_touches (ks := [.mem, .ecc]) _ (by decide) (by decide)]
  exact within_forEach.mpr fun x _ => touches_putWord40 (by decide) (by decide) _ _

/-- A lane that has come to its word executes it; the loop cache is filled and the stores that are due are written before. -/
theorem laneRun_issues {l : LaneSlot} {w : LaneWord} {s : State} (h : LaneAtWord l w s) : ∃ u c ps,
    laneAt u l = { laneAt s l with cache := c, stores := ps } ∧ (laneRun l w).run s = (doWord l w).run u := by
  unfold laneRun
  rw [run_look]
  dsimp only
  rw [if_pos (by simp [h.runs, h.noStep]), h.noHalt, if_neg (by decide)]
  have hfetch : fetchMarks s l = [] := by
    unfold fetchMarks marksIn
    rw [h.clean]
    dsimp only
    split
    · split <;> rfl
    · rfl
  have hrun : (issueWord l (some w)).run s =
      (doWord l w).run ((landStores l fun st => st.issued + 2 ≤ (laneAt s l).pos).run ((fillCache l).run s)) := by
    unfold issueWord
    rw [run_look, hfetch]
    dsimp only
    rw [h.code]
    simp [eccJudge]
  obtain ⟨c, hcache⟩ := fillCache_lane l s
  refine ⟨_, c, (laneAt s l).stores.filter fun x => !decide (x.issued + 2 ≤ (laneAt s l).pos), ?_, hrun⟩
  rw [landStores_lane, hcache]

end Sys2Proof.Machine
end

