-- ==== Sys2Proof/Proofs/LaneGallery.lean ====
section
/-! SUPPORT. The accesses of gallery memory by a lane, and the NOP (R52, R109, R118, R158). -/

namespace Sys2Proof.Machine

/-! ### An access stalls -/

/-- A word that stalls leaves its lane at it. -/
theorem laneRun_stalls {l : LaneSlot} {w : LaneWord} {c : StallCause} {s : State} (h : LaneAtWord l w s) (hw : doWord l w = doStall l c) :
    (laneAt ((laneRun l w).run s) l).st = .stall ∧ (laneAt ((laneRun l w).run s) l).cause = c ∧
      (laneAt ((laneRun l w).run s) l).pc = (laneAt s l).pc := by
  obtain ⟨u, _, _, hu, hrun⟩ := laneRun_issues h
  rw [hrun, hw, doStall, laneAt_setLane, hu]
  exact ⟨rfl, rfl, rfl⟩

/-! ### A stall ends -/

/-- A grant is state of the matrices alone. -/
theorem touches_grant {ks : List Kind} (h : Kind.bus ∈ ks) (id : Nat) (slots : List Nat) : (grant id slots).Touches ks := by
  unfold grant grantAt
  exact touches_setBus h _

/-- The address update of a gallery access leaves all but the results in flight. -/
theorem galPost_eq (n m : Fin 16) (en : Bool) (L : Lane) : ∃ rs, galPost n m en L = { L with results := rs } := by
  cases en with
  | false => exact ⟨L.results, rfl⟩
  | true => exact ⟨_, rfl⟩

/-- What a word that stalled does when its stall ends. -/
def stalledWord (l : Nat) : LaneWord → Act
  | .control (.gld d n m en) => doGldReturn l d n m en
  | .control (.gst r n m en) => doGstGrant l r n m en
  | .control (.qrd d p) => doQrd l d p
  | _ => .done

/-- The lane in slot `l` is stalled for `c`, outside a step and with no halt ahead, at the word `w`, and an address follows. -/
structure StallsAt (l : LaneSlot) (c : StallCause) (w : LaneWord) (s : State) : Prop where
  stalls : (laneAt s l).st = .stall
  cause : (laneAt s l).cause = c
  noStep : (laneAt s l).stepRet = none
  noHalt : haltHere (laneAt s l) l s = false
  code : decodeLane (word64 s (progAddr l (laneAt s l).pc)) = some w
  next : (nextPc (laneAt s l).reps (laneAt s l).pc).2 < 4096

section StallsAt

variable {l : LaneSlot} {s u : State} {d n m : Fin 16} {en : Bool}

/-- Then the word at the lane's pc does what it waited for. -/
theorem StallsAt.stallEnds_run {c : StallCause} {w : LaneWord} (h : StallsAt l c w s) :
    (stallEnds l c).run s = (stepOn l stepFuel).run ((stalledWord l w).run s) := by
  unfold stallEnds
  rw [run_look]
  dsimp only
  rw [if_pos (by simp [h.stalls, h.cause]), h.noHalt, if_neg (by decide), run_seq, h.code]
  cases w with
  | compute w => rfl
  | control w => cases w <;> rfl

/-- When its stall ends the instruction executes, by a change `f` of its lane after what else it does. -/
theorem StallsAt.ends {c : StallCause} {w : LaneWord} (h : StallsAt l c w s) {f : Lane → Lane} {stall : Nat}
    (hu : laneAt u l = laneAt s l) (ha : (stalledWord l w).run s = (acts [setLane l f, retireNext l 1 stall false]).run u)
    (hf : ∃ rs, f (laneAt s l) = { laneAt s l with results := rs }) :
    (stallEnds l c).run s = (setLane l (retired 1 stall false)).run ((setLane l f).run u) := by
  obtain ⟨rs, hf⟩ := hf
  have hL : laneAt ((setLane l f).run u) l = f (laneAt s l) := by rw [laneAt_setLane, hu]
  have hrun : (stalledWord l w).run s = (setLane l (retired 1 stall false)).run ((setLane l f).run u) := by
    rw [ha, run_acts_cons, run_acts_cons, run_acts_nil,
      retireNext_run (by rw [hL, hf]; exact h.noStep) (by rw [hL, hf]; exact h.next)]
  have hret : (laneAt ((stalledWord l w).run s) l).stepRet = none := by
    rw [hrun, laneAt_setLane, hL, hf]
    exact (advancePos_stepRet _).trans h.noStep
  rw [h.stallEnds_run, stepOn_idle hret, hrun]

/-- The data of a load return: the instruction executes, and its result is the word. -/
theorem StallsAt.gldReturn (h : StallsAt l .gld (.control (.gld d n m en)) s) (hc : s.ecc.marks = []) :
    laneAt ((stallEnds l .gld).run s) l = retired 1 (4 + galSlices l s) false
      (putD d (word40 s (galAddr (l / 17) (rdA (laneAt s l) n).toNat)) 1 (galPost n m en (laneAt s l))) := by
  have hgrant := touches_grant (ks := [.bus]) (by decide) (laneId l) [galAddr (l / 17) (rdA (laneAt s l) n).toNat]
  have hclean := (congrArg EccState.marks (touches_ecc hgrant (by decide) (by decide) s)).trans hc
  have hlane := laneAt_touches hgrant (by decide) (by decide) l s
  have hf : ∃ rs, putD d (word40 s (galAddr (l / 17) (rdA (laneAt s l) n).toNat)) 1 (galPost n m en (laneAt s l)) =
      { laneAt s l with results := rs } := by
    obtain ⟨rs, hpost⟩ := galPost_eq n m en (laneAt s l)
    rw [hpost]
    exact ⟨_, rfl⟩
  rw [h.ends (f := fun L => putD d (word40 s (galAddr (l / 17) (rdA (laneAt s l) n).toNat)) 1 (galPost n m en L))
    (stall := 4 + galSlices l s) hlane ?_ hf, laneAt_setLane, laneAt_setLane, hlane]
  unfold stalledWord doGldReturn eccRead
  rw [run_look]
  dsimp only
  rw [run_seq, run_look, marksIn, hclean]
  simp [eccJudge]

/-- A store is granted: the instruction executes, and the word holds the value. -/
theorem StallsAt.gstGrant (h : StallsAt l .gst (.control (.gst d n m en)) s) (hwf : Memory.wf s.mem = true) :
    laneAt ((stallEnds l .gst).run s) l = retired 1 0 false (galPost n m en (laneAt s l)) ∧
      word40 ((stallEnds l .gst).run s) (galAddr (l / 17) (rdA (laneAt s l) n).toNat) = rdD (laneAt s l) d := by
  generalize hga : galAddr (l / 17) (rdA (laneAt s l) n).toNat = ga
  have hgrant := touches_grant (ks := [.bus]) (by decide) (laneId l) [ga]
  have hput := touches_putWord40 (ks := [.mem, .ecc]) (by decide) (by decide) ga (rdD (laneAt s l) d)
  have hlane := (laneAt_touches hput (by decide) (by decide) l _).trans (laneAt_touches hgrant (by decide) (by decide) l s)
  have ha : (stalledWord l (.control (.gst d n m en))).run s = (acts [setLane l (galPost n m en), retireNext l 1 0 false]).run
      ((putWord40 ga (rdD (laneAt s l) d)).run ((grant (laneId l) [ga]).run s)) := by
    unfold stalledWord doGstGrant
    rw [run_look]
    dsimp only
    rw [hga, run_acts_cons, run_acts_cons]
  rw [h.ends hlane ha (galPost_eq ..), laneAt_setLane, laneAt_setLane, hlane]
  refine ⟨rfl, ?_⟩
  have hwf : Memory.wf ((grant (laneId l) [ga]).run s).mem = true := by rw [touches_mem hgrant (by decide) (by decide)]; exact hwf
  refine Eq.trans (congrArg (fun mem => BitVec.ofNat 40 (memLe mem ga 5)) ?_) (word40_setWord40 hwf ga (rdD (laneAt s l) d))
  rw [mem_setLane, mem_setLane, putWord40, run_seq, touches_mem (ks := [.ecc]) (touches_eccFull (by decide) ga 8) (by decide) (by decide)]

end StallsAt

/-! ### NOP -/

theorem addrUpds_off (L0 : Lane) {u0 u1 : AddrUpd} (h0 : u0.en = false) (h1 : u1.en = false) (L : Lane) : addrUpds L0 u0 u1 L = L := by
  simp [addrUpds, h0, h1]

/-- A word of NOPs without an address update changes nothing of its lane. -/
theorem computeEff_nops (L : Lane) {u0 u1 : AddrUpd} (h0 : u0.en = false) (h1 : u1.en = false) :
    computeEff L ⟨.nop, .nop, .none, u0, u1⟩ [] = (⟨L, false, false⟩, false) :=
  congrArg (fun L' => ((⟨L', false, false⟩ : SlotEff), false)) (addrUpds_off L h0 h1 L)

/-- It only executes. -/
theorem doCompute_nops {u0 u1 : AddrUpd} (h0 : u0.en = false) (h1 : u1.en = false) (l : Nat) (s : State) :
    (doCompute l ⟨.nop, .nop, .none, u0, u1⟩).run s = (retireNext l 1 0 false).run ((setLane l id).run s) := by
  unfold doCompute
  rw [run_look]
  dsimp only
  simp [wordLoads, eccJudge, lowestBad, pairStoreBad, wordStore, computeEff_nops _ h0 h1, pairStall]
  rfl

/-- A lane that comes to a NOP executes it, and nothing else of it changes but the loop cache and the stores in flight. -/
theorem laneRun_nop {l : LaneSlot} {h : Half} {u0 u1 : AddrUpd} {s : State}
    (hat : LaneAtWord l (slotWord h .nop ⟨.nop, .none, u0, u1⟩) s) (h0 : u0.en = false) (h1 : u1.en = false) : ∃ c ps,
    laneAt ((laneRun l (slotWord h .nop ⟨.nop, .none, u0, u1⟩)).run s) l =
      retired 1 0 false { laneAt s l with cache := c, stores := ps } := by
  have hw : slotWord h .nop ⟨.nop, .none, u0, u1⟩ = .compute ⟨.nop, .nop, .none, u0, u1⟩ := by cases h <;> rfl
  rw [hw] at hat ⊢
  obtain ⟨u, c, ps, hu, hrun⟩ := laneRun_issues hat
  have hid : laneAt ((setLane l id).run u) l = { laneAt s l with cache := c, stores := ps } := (laneAt_setLane ..).trans hu
  refine ⟨c, ps, ?_⟩
  rw [hrun, doWord, doCompute_nops h0 h1, retireNext_run (by rw [hid]; exact hat.noStep) (by rw [hid]; exact hat.next), laneAt_setLane, hid]

/-- Settles O18: the lane stalls at its access, and data return and grant execute it; landing results changes no read, so the loaded
word is what the next instruction reads, and a NOP leaves every later read as it was. -/
theorem laneGalleryComplete : Obligations.LaneGalleryComplete := by
  intro l h d n m en u0 u1 s L ga
  refine ⟨fun hat => ⟨_, rfl, laneRun_stalls hat rfl⟩, fun hat => ⟨_, rfl, laneRun_stalls hat rfl⟩,
    fun hst hca hret hhalt hclean hcode hnext => ⟨_, rfl, ?_⟩, fun hst hca hret hhalt hwf hcode hnext => ⟨_, rfl, ?_⟩,
    fun hat h0 h1 => ⟨_, rfl, ?_⟩⟩
  · have hat : StallsAt l .gld (.control (.gld d n m en)) s := ⟨hst, hca, hret, hhalt, hcode, hnext⟩
    obtain ⟨rs, hpost⟩ := galPost_eq n m en (laneAt s l)
    have hlane := hat.gldReturn hclean
    rw [hpost] at hlane
    refine ⟨(congrArg Lane.st hlane).trans (if_pos hst), BitVec.eq_of_toNat_eq ?_⟩
    calc (rdD (readsAfter s ((stallEnds l .gld).run s) l 1) d).toNat
        = (laneAt ((stallEnds l .gld).run s) l).reads (.d d) false (L.pos + 1) := rdD_reads ..
      _ = (putD d (word40 s ga) 1 { L with results := rs }).reads (.d d) false (L.pos + 1) := by
        rw [hlane]
        exact reads_advancePos (l := putD d (word40 s ga) 1 { L with results := rs }) (Nat.le_refl (L.pos + 1))
      _ = (word40 s ga).toNat := reads_putD d (word40 s ga) (l := { L with results := rs }) (Nat.le_refl (L.pos + 1))
  · have hat : StallsAt l .gst (.control (.gst d n m en)) s := ⟨hst, hca, hret, hhalt, hcode, hnext⟩
    obtain ⟨rs, hpost⟩ := galPost_eq n m en (laneAt s l)
    obtain ⟨hlane, hword⟩ := hat.gstGrant hwf
    rw [hpost] at hlane
    exact ⟨(congrArg Lane.st hlane).trans (if_pos hst), hword⟩
  · obtain ⟨c, ps, hlane⟩ := laneRun_nop hat h0 h1
    refine ⟨congrArg Lane.pc hlane, congrArg Lane.cyc hlane, fun k hk => ?_⟩
    have halike : ReadAlike (readsAfter s ((laneRun l (slotWord h .nop ⟨.nop, .none, u0, u1⟩)).run s) l k) (readsAfter s s l k) := by
      intro e mac
      show (laneAt _ l).reads e mac (L.pos + k) = L.reads e mac (L.pos + k)
      rw [hlane]
      exact reads_advancePos (l := { L with cache := c, stores := ps }) (Nat.add_le_add_left hk L.pos)
    exact ⟨halike.rdD, halike.rdAcc, halike.rdA, halike.rdFlags⟩

end Sys2Proof.Machine
end

