-- ==== Sys2Proof/Proofs/RefusedWrites.lean ====
section
/-! SUPPORT. Writes that a rule of the register's own refuses (R137, R281, R318, R524, R637). -/

namespace Sys2Proof.Machine

/-! ### A refused write -/

/-- A recorded access error stores its record and the registers of a report alone. -/
theorem accessErr_notice (id a reason : Nat) (wr : Bool) : (accessErr id a reason wr).Stores (wordsOf noticeRegs) := by
  have h := wordsIn_wordsOf (xs := noticeRegs) (r := R.XBAR_ACCERR) (by simp [noticeRegs]) (i := 0) (by decide) 0
  simp [accessErr, raise_notice, stores_fset (f := F.XBAR_ACCERR_VALID) h, stores_fset (f := F.XBAR_ACCERR_WR) h,
    stores_fset (f := F.XBAR_ACCERR_MASTER) h, stores_fset (f := F.XBAR_ACCERR_REASON) h, stores_inc (f := F.XBAR_ACCERR_COUNT) h,
    stores_fset (f := F.XBAR_ACCERR_ADDR) h]

/-- The write of `m` is dropped whole: the record names the master and REASON 0b11, and nothing else of the node changes (R73). -/
def Refused (m : Master) (s t : State) : Prop :=
  F.XBAR_ACCERR_VALID.get 0 t = 1 ∧ F.XBAR_ACCERR_MASTER.get 0 t = m ∧ F.XBAR_ACCERR_REASON.get 0 t = 3 ∧ OnlyChanges [.bus] [] s t

/-- A write that reaches its register and comes to a drop, after at most a change of the bus, is refused. -/
theorem arrive_refused {m : Master} {a c : Nat} {s : State} (h : WriteReaches m a s) (hc : c < 2 ^ 32) {act pre : Act}
    (hpre : pre.Touches [.bus]) (hact : ∀ b r l w,
      act.run (atTarget b r l w s) = (dropped m c).run (pre.run (atTarget b r l w s))) (en v : Nat) :
    Refused m s ((arrive m a en v act).run s) := by
  obtain ⟨b, r, l, w, hrun⟩ := arrive_atTarget h en v act
  obtain ⟨hv, -, hm, hr, -⟩ := accessErr_logs (id := m) (by omega) hc (show 3 < 4 by decide) true (pre.run (atTarget b r l w s))
  have hframe : (Act.seq pre (dropped m c)).Touches reportKinds :=
    ⟨touches_mono hpre fun _ hk => by simp_all, touches_mono (touches_dropped ..) fun _ => List.mem_cons_of_mem _⟩
  have hwords : (Act.seq pre (dropped m c)).Stores (wordsOf noticeRegs) :=
    ⟨stores_of_touches hpre (by decide) (by decide), accessErr_notice ..⟩
  have honly := onlyChanges_report hframe hwords b r l w s
  rw [run_seq] at honly
  rw [hrun, hact]
  exact ⟨hv, hm, hr, honly⟩

/-- A writable field that takes the encoding holds what a whole write asks for, but for LOCK. -/
theorem of_asWritten {e : RegEntry} (hok : FldsOk e.reg.words e.flds) {f : Fld} (hf : f ∈ e.flds) (hacc : f.acc = .rw)
    {v : Nat} (hu : f.of v ∉ f.unlisted) (i m : Nat) (s : State) : f.of (asWritten e i m v (fullMask e.reg.words) s) = f.of v := by
  rw [asWritten, of_planWrite false _ v _ hok hf]
  simp [fieldAfter, hacc, hu]

/-- So does one that LOCK does not hold. -/
theorem of_afterWrite {e : RegEntry} (hok : FldsOk e.reg.words e.flds) {f : Fld} (hf : f ∈ e.flds) (hacc : f.acc = .rw)
    (hlk : f.lk = false) {v : Nat} (hu : f.of v ∉ f.unlisted) (i m : Nat) (s : State) :
    f.of (afterWrite e i m v (fullMask e.reg.words) s) = f.of v := by
  rw [afterWrite, of_planWrite s.lock _ v _ hok hf]
  simp [fieldAfter, hacc, hlk, hu]

/-! ### Lane frames (R137) -/

/-- The address of a register of a lane window. -/
theorem laneReg_addr {r : Reg} (hd : r.dims = [(16, 0x1000000), (17, 0x40000)]) (l : Nat) :
    r.addr l = r.base + l / 17 * 0x1000000 + l % 17 * 0x40000 := by
  simp [Reg.addr, hd, dimsOfs, dimsCount, Nat.add_assoc]

theorem entryOf_laneFrame : entryOf R.LANE_FRAME = ⟨R.LANE_FRAME, [F.LANE_FRAME_OUT_CH, F.LANE_FRAME_IN_CH]⟩ := rfl

/-- The channels that a write of `LANE_FRAME` asks for. -/
theorem laneFrame_asWritten (l m v : Nat) (s : State) : let new := asWritten (entryOf R.LANE_FRAME) l m v (fullMask 1) s
    F.LANE_FRAME_OUT_CH.of new = F.LANE_FRAME_OUT_CH.of v ∧ F.LANE_FRAME_IN_CH.of new = F.LANE_FRAME_IN_CH.of v := by
  have hok : FldsOk 1 [F.LANE_FRAME_OUT_CH, F.LANE_FRAME_IN_CH] := by unfold FldsOk; decide
  rw [entryOf_laneFrame]
  exact ⟨of_asWritten hok (by simp) rfl (by simp [F.LANE_FRAME_OUT_CH]) l m s,
    of_asWritten hok (by simp) rfl (by simp [F.LANE_FRAME_IN_CH]) l m s⟩

/-- A lane frame with too many channels is dropped. -/
theorem wrLaneFrame_drops {m l v : Nat} {s : State} (h : 64 < F.LANE_FRAME_OUT_CH.of v ∨ 256 < F.LANE_FRAME_IN_CH.of v ∨
    4096 < F.LANE_FRAME_IN_CH.of v * spt (rated s)) :
    (wrLaneFrame m l v (fullMask 1)).run s = (dropped m (R.LANE_FRAME.addr l)).run s := by
  obtain ⟨hout, hin⟩ := laneFrame_asWritten l m v s
  unfold wrLaneFrame
  rw [run_look]
  dsimp only
  rw [hout, hin, if_pos (by simpa [or_assoc] using h)]

/-- A write of a register of a lane that is not released does not wait. -/
theorem whenNotReleased_run {l : Nat} {s : State} (h : laneReleased s l = false) (q : Requester) (a : Nat) (r : MatrixReq) (act : Act) :
    (whenNotReleased q l a r act).run s = act.run s := by
  unfold whenNotReleased
  rw [run_look, h, if_neg (by decide)]

/-- The samples of a tick that register writes are judged by. -/
theorem spt_rated (s : State) :
    spt (rated s) = 2 ^ F.TICK_CFG_F.of (if running s || s.tick.starting then s.tick.cfg else R.TICK_CFG.val 0 s) := by
  unfold rated
  split <;> rfl

/-- They rest on neither the bus nor the pair. -/
theorem spt_rated_atTarget (b r : SMap Nat) (q : List WriteMsg) (w : List SipMsg) (s : State) :
    spt (rated (atTarget b r q w s)) = spt (rated s) := (spt_rated _).trans (spt_rated s).symm

/-! ### Trim times (R281) -/

theorem entryOf_idTime : entryOf R.DEC_ID_TIME = ⟨R.DEC_ID_TIME, [F.DEC_ID_TIME_UPD_T, F.DEC_ID_TIME_FADE_T, F.DEC_ID_TIME_COMP_T]⟩ := rfl

/-- Trim times that do not fit the update period, or are zero, are dropped. -/
theorem wrIdTime_drops {m v : Nat} {s : State} (h : F.DEC_ID_TIME_UPD_T.of v < F.DEC_ID_TIME_COMP_T.of v + 1 + F.DEC_ID_TIME_FADE_T.of v ∨
    F.DEC_ID_TIME_COMP_T.of v = 0 ∨ F.DEC_ID_TIME_FADE_T.of v = 0) :
    (wrIdTime m v (fullMask 1)).run s = (dropped m (R.DEC_ID_TIME.addr 0)).run s := by
  have hok : FldsOk 1 [F.DEC_ID_TIME_UPD_T, F.DEC_ID_TIME_FADE_T, F.DEC_ID_TIME_COMP_T] := by unfold FldsOk; decide
  have hfld : ∀ f ∈ [F.DEC_ID_TIME_UPD_T, F.DEC_ID_TIME_FADE_T, F.DEC_ID_TIME_COMP_T],
      f.of (asWritten (entryOf R.DEC_ID_TIME) 0 m v (fullMask 1) s) = f.of v := fun f hf => by
    have hrw : f.acc = .rw ∧ f.unlisted = [] := by
      simp only [List.mem_cons, List.not_mem_nil, or_false] at hf
      rcases hf with rfl | rfl | rfl <;> exact ⟨rfl, rfl⟩
    rw [entryOf_idTime]
    exact of_asWritten hok hf hrw.1 (by simp [hrw.2]) 0 m s
  unfold wrIdTime
  rw [run_look]
  dsimp only
  rw [hfld _ (by simp), hfld _ (by simp), hfld _ (by simp), if_pos (by simpa [or_assoc] using h)]

/-! ### Sense points (R318) -/

theorem entryOf_sensePt :
    entryOf R.SENSE_PT = ⟨R.SENSE_PT, [F.SENSE_PT_EN, F.SENSE_PT_KIND, F.SENSE_PT_OWNER, F.SENSE_PT_SCALE]⟩ := rfl

/-- A key that is listed is among the entries. -/
theorem mem_of_find {α : Type} {a : Nat} {x : α} : ∀ {m : SMap α}, smFind m a = some x → (a, x) ∈ m
  | [], h => by cases h
  | (k, v) :: m, h => by
    rw [smFind] at h
    split at h
    · obtain rfl := Option.some.inj h
      subst_vars
      exact List.mem_cons_self
    · split at h
      · cases h
      · exact List.mem_cons_of_mem _ (mem_of_find h)

/-- An enabled sense point is among the listed elements, since its reset value is 0. -/
theorem sensePt_listed {q : Nat} {s : State} (hq : q < 128) (h : F.SENSE_PT_EN.on q s = true) :
    q ∈ listed s.regs (R.SENSE_PT.addr 0) 4 128 := by
  have hkey : ∀ i, R.SENSE_PT.key i 0 0 = 0x200A0100 + i * 4 := fun i => key_one rfl rfl i 0 0
  cases hfind : smFind s.regs (R.SENSE_PT.key q 0 0) with
  | none =>
    have hval : R.SENSE_PT.val q s = 0 := by
      show joinWords [(smGet _ s.regs (R.SENSE_PT.key q 0 0)).toNat] = 0
      rw [smGet, hfind]
      simp [Reg.rstWord, R.SENSE_PT, joinWords]
    have hoff : F.SENSE_PT_EN.on q s = false := by
      unfold Fld.on Fld.get
      rw [show F.SENSE_PT_EN.reg = R.SENSE_PT from rfl, hval]
      rfl
    rw [hoff] at h
    cases h
  | some x =>
    refine List.mem_eraseDups.mpr (List.mem_filterMap.mpr ⟨_, mem_of_find hfind, ?_⟩)
    have hbase : R.SENSE_PT.addr 0 = 0x200A0100 := rfl
    rw [hkey, hbase, if_pos (by simp; omega)]
    simp

/-- A sense point that another enabled point holds, or whose rail does not exist, is dropped. -/
theorem wrSensePt_drops {m p v : Nat} {s : State} (hk : F.SENSE_PT_KIND.of v < 3) (hen : F.SENSE_PT_EN.of v = 1)
    (h : (∃ q < 128, q ≠ p ∧ F.SENSE_PT_EN.on q s = true ∧ F.SENSE_PT_KIND.get q s = F.SENSE_PT_KIND.of v ∧
      F.SENSE_PT_OWNER.get q s = F.SENSE_PT_OWNER.of v) ∨ (F.SENSE_PT_KIND.of v ≠ 0 ∧ 7 < F.SENSE_PT_OWNER.of v)) :
    (wrSensePt m p v (fullMask 1)).run s = (dropped m (R.SENSE_PT.addr p)).run s := by
  have hok : FldsOk 1 [F.SENSE_PT_EN, F.SENSE_PT_KIND, F.SENSE_PT_OWNER, F.SENSE_PT_SCALE] := by unfold FldsOk; decide
  have hfld : ∀ f ∈ [F.SENSE_PT_EN, F.SENSE_PT_KIND, F.SENSE_PT_OWNER, F.SENSE_PT_SCALE], f.of v ∉ f.unlisted →
      f.of (afterWrite (entryOf R.SENSE_PT) p m v (fullMask 1) s) = f.of v := fun f hf hu => by
    have hrw : f.acc = .rw ∧ f.lk = false := by
      simp only [List.mem_cons, List.not_mem_nil, or_false] at hf
      rcases hf with rfl | rfl | rfl | rfl <;> exact ⟨rfl, rfl⟩
    rw [entryOf_sensePt]
    exact of_afterWrite hok hf hrw.1 hrw.2 hu p m s
  have hkind : F.SENSE_PT_KIND.of v ∉ F.SENSE_PT_KIND.unlisted := by
    show _ ∉ [3]
    simp
    omega
  unfold wrSensePt
  rw [run_look]
  dsimp only
  rw [hfld F.SENSE_PT_EN (by simp) (by simp [F.SENSE_PT_EN]), hfld F.SENSE_PT_KIND (by simp) hkind,
    hfld F.SENSE_PT_OWNER (by simp) (by simp [F.SENSE_PT_OWNER]), if_pos]
  rw [hen]
  rcases h with ⟨q, hq, hqp, hon, hkq, hoq⟩ | ⟨hk0, ho⟩
  · have htwin : ((listed s.regs (R.SENSE_PT.addr 0) 4 128).any fun q => decide (q ≠ p) && F.SENSE_PT_EN.on q s &&
        F.SENSE_PT_KIND.get q s == F.SENSE_PT_KIND.of v && F.SENSE_PT_OWNER.get q s == F.SENSE_PT_OWNER.of v) = true :=
      List.any_eq_true.mpr ⟨q, sensePt_listed hq hon, by simp [hqp, hon, hkq, hoq]⟩
    rw [htwin]
    rfl
  · simp [hk0, ho]

/-! ### State sets (R524) -/

theorem entryOf_stset : entryOf R.GAL_STSET =
    ⟨R.GAL_STSET, [F.GAL_STSET_XBASE, F.GAL_STSET_XLEN, F.GAL_STSET_YBASE, F.GAL_STSET_YLEN]⟩ := rfl

/-- A state set beyond its lane's memories is dropped. -/
theorem wrStset_drops {m g j v : Nat} {s : State} (h : 8192 < F.GAL_STSET_XBASE.of v + F.GAL_STSET_XLEN.of v ∨
    8192 < F.GAL_STSET_YBASE.of v + F.GAL_STSET_YLEN.of v ∨ 2048 < F.GAL_STSET_XLEN.of v + F.GAL_STSET_YLEN.of v) :
    (wrStset m g j v (fullMask 2)).run s = (dropped m (R.GAL_STSET.addr (16 * g + j) + 4)).run s := by
  have hok : FldsOk 2 [F.GAL_STSET_XBASE, F.GAL_STSET_XLEN, F.GAL_STSET_YBASE, F.GAL_STSET_YLEN] := by unfold FldsOk; decide
  have hfld : ∀ f ∈ [F.GAL_STSET_XBASE, F.GAL_STSET_XLEN, F.GAL_STSET_YBASE, F.GAL_STSET_YLEN],
      f.of (asWritten (entryOf R.GAL_STSET) (16 * g + j) m v (fullMask 2) s) = f.of v := fun f hf => by
    have hrw : f.acc = .rw ∧ f.unlisted = [] := by
      simp only [List.mem_cons, List.not_mem_nil, or_false] at hf
      rcases hf with rfl | rfl | rfl | rfl <;> exact ⟨rfl, rfl⟩
    rw [entryOf_stset]
    exact of_asWritten hok hf hrw.1 (by simp [hrw.2]) _ m s
  unfold wrStset
  rw [run_look]
  dsimp only
  rw [hfld _ (by simp), hfld _ (by simp), hfld _ (by simp), hfld _ (by simp), if_pos (by simpa [or_assoc] using h)]

theorem stset_addr (k : Nat) : R.GAL_STSET.addr k = 0xF30100 + k / 16 * 0x1000000 + k % 16 * 8 := by
  show 0xF30100 + dimsOfs [(16, 0x1000000), (16, 0x8)] k = _
  simp [dimsOfs, dimsCount, Nat.add_assoc]

/-! ### The statement -/

/-- Settles O56: each rule comes to a drop in the state that the write meets, and a drop changes nothing beyond the report. -/
theorem refusedWrites : Obligations.RefusedWrites := by
  intro m s
  refine ⟨fun l v h hrel _ hbad => ⟨_, rfl, ?_⟩, fun v h _ hbad => ⟨_, rfl, ?_⟩, fun p v h hk hen hbad => ⟨_, rfl, ?_⟩,
    fun g j v h _ hbad => ⟨_, rfl, ?_⟩, fun v h hbad => ⟨_, rfl, ?_⟩⟩
  · have hl := laneReg_addr (r := R.LANE_FRAME) rfl l
    have hb : R.LANE_FRAME.base = 0x30018 := rfl
    refine arrive_refused h (c := R.LANE_FRAME.addr l) (by omega) touches_done (fun b r q w => ?_) _ _
    rw [← spt_rated_atTarget b r q w] at hbad
    exact (whenNotReleased_run (s := atTarget b r q w s) hrel ..).trans (wrLaneFrame_drops hbad)
  · exact arrive_refused h (c := R.DEC_ID_TIME.addr 0) (by decide) touches_done (fun b r q w => wrIdTime_drops hbad) _ _
  · have hp : R.SENSE_PT.addr p = 0x200A0100 + p.val * 4 := by
      show 0x200A0100 + dimsOfs [(128, 0x4)] p = _
      simp [dimsOfs, dimsCount]
    exact arrive_refused h (c := R.SENSE_PT.addr p) (by omega) touches_done (fun b r q w => wrSensePt_drops (s := atTarget b r q w s) hk hen hbad) _ _
  · have ha := stset_addr (16 * g + j)
    refine arrive_refused (pre := unbuf m (R.GAL_STSET.addr (16 * g + j))) h (c := R.GAL_STSET.addr (16 * g + j) + 4) (by omega)
      (touches_setBus (by decide) _) (fun b r q w => ?_) _ _
    exact (run_seq ..).trans (wrStset_drops hbad)
  · refine arrive_refused h (c := R.DRAM_CFG.addr 0) (by decide) touches_done (fun b r q w => ?_) _ _
    have htaken : dramTaken s = true := by simpa [dramTaken] using hbad
    unfold wrDramCfg
    rw [run_look, if_pos (show dramTaken (atTarget b r q w s) = true from htaken)]
    rfl

end Sys2Proof.Machine
end

