-- ==== Sys2Proof/Proofs/LaneFetch.lean ====
section
/-! SUPPORT. The word that a lane has come to issues: what its fetch leaves to the instruction (R115, R116, R123, R140). -/

namespace Sys2Proof.Machine

/-! ### The fetch -/

/-- What comes before the word that issues acts: the loop cache takes it, and the stores that are due are written. -/
def fetch (l : Nat) : Act := .look fun s => .seq (fillCache l) (landStores l fun st => st.issued + 2 ≤ (laneAt s l).pos)

section Fetch

variable {l : Nat} {s : State}

/-- With no codeword in error none is met by a fetch. -/
theorem fetchMarks_clean (hc : s.ecc.marks = []) (l : Nat) : fetchMarks s l = [] := by
  unfold fetchMarks marksIn
  rw [hc]
  dsimp only
  split
  · split <;> rfl
  · rfl

/-- A word that decodes acts after its fetch. -/
theorem issueWord_run {w : LaneWord} (hc : s.ecc.marks = []) (hcode : decodeLane (word64 s (progAddr l (laneAt s l).pc)) = some w)
    {want : Option LaneWord} (hwant : want.isNone = true ∨ want = some w) : (issueWord l want).run s = (doWord l w).run ((fetch l).run s) := by
  unfold issueWord
  rw [run_look, fetchMarks_clean hc]
  dsimp only
  rw [hcode, List.any_nil, if_neg Bool.false_ne_true]
  dsimp only
  rw [if_pos (by simpa using hwant)]
  simp [eccJudge, fetch]

/-- A word that does not is a fault with code 5 (R140). -/
theorem issueWord_illegal (hc : s.ecc.marks = []) (hcode : decodeLane (word64 s (progAddr l (laneAt s l).pc)) = none)
    (want : Option LaneWord) : (issueWord l want).run s = (laneFault l 5 0).run s := by
  unfold issueWord
  rw [run_look, fetchMarks_clean hc]
  dsimp only
  rw [hcode]
  simp [eccJudge]

/-- A running lane outside a step, with no halt ahead, issues its word. -/
theorem laneRun_run {l : LaneSlot} {s : State} (hst : (laneAt s l).st = .run) (hret : (laneAt s l).stepRet = none)
    (hhalt : haltHere (laneAt s l) l s = false) (w : LaneWord) : (laneRun l w).run s = (issueWord l (some w)).run s := by
  unfold laneRun
  rw [run_look]
  dsimp only
  rw [if_pos (by simp [hst, hret]), hhalt, if_neg (by decide)]

/-- A lane that has come to its word executes it. -/
theorem laneRun_fetches {l : LaneSlot} {w : LaneWord} {s : State} (h : LaneAtWord l w s) :
    (laneRun l w).run s = (doWord l w).run ((fetch l).run s) :=
  (laneRun_run h.runs h.noStep h.noHalt w).trans (issueWord_run h.clean h.code (.inr rfl))

/-! ### What it leaves -/

theorem touches_fillCache (l : Nat) : (fillCache l).Touches [.lane, .ecc] := by
  unfold fillCache
  rw [touches_look]
  intro s
  dsimp only
  split
  · simp [eccFresh]
  · trivial

theorem touches_landStores (l : Nat) (p : PendStore → Bool) : (landStores l p).Touches [.lane, .mem, .ecc] := fun _ =>
  ⟨touches_forEach_of fun _ => touches_putWord40 (by decide) (by decide) _ _, touches_setLane (by decide) _ _⟩

theorem touches_fetch (l : Nat) : (fetch l).Touches [.lane, .mem, .ecc] := fun _ =>
  ⟨touches_mono (touches_fillCache l) (by decide), touches_landStores l _⟩

/-- Of the lane the fetch changes the loop cache and drops the stores that it writes. -/
theorem fetch_lane (l : Nat) (s : State) : ∃ c, laneAt ((fetch l).run s) l = { laneAt s l with
    cache := c, stores := (laneAt s l).stores.filter fun x => !decide (x.issued + 2 ≤ (laneAt s l).pos) } := by
  obtain ⟨c, hcache⟩ := fillCache_lane l s
  exact ⟨c, by rw [fetch, run_look, run_seq, landStores_lane, hcache]⟩

/-- While no codeword is in error a word is written as it is. -/
theorem putWord40_clean (hc : s.ecc.marks = []) (a : Nat) (v : W40) : (putWord40 a v).run s = (setWord40 a v).run s := by
  have hset : ((setWord40 a v).run s).ecc = s.ecc := touches_ecc (touches_setWord40 (by decide) a v) (ks := [.mem]) (by decide) (by decide) s
  unfold putWord40 eccFull
  rw [run_seq, run_look, hset, hc]
  rfl

/-- While no codeword is in error, writing stores leaves none. -/
theorem landStores_clean (hc : s.ecc.marks = []) (p : PendStore → Bool) : ((landStores l p).run s).ecc.marks = [] := by
  have hwrites : ∀ (xs : List PendStore) (u : State), u.ecc.marks = [] →
      ((forEach xs fun st => putWord40 (xyAddr l st.y st.addr) st.val).run u).ecc.marks = [] := by
    intro xs
    induction xs with
    | nil => exact fun _ hu => hu
    | cons x xs ih =>
      intro u hu
      have hecc := touches_ecc (ks := [.mem]) (touches_setWord40 (by decide) (xyAddr l x.y x.addr) x.val) (by decide) (by decide) u
      rw [run_forEach_cons, putWord40_clean hu]
      exact ih _ ((congrArg EccState.marks hecc).trans hu)
  exact hwrites _ s hc

/-- With no store in flight nothing is written. -/
theorem landStores_mem (hst : (laneAt s l).stores = []) (p : PendStore → Bool) : ((landStores l p).run s).mem = s.mem := by
  unfold landStores
  rw [run_look, run_seq, mem_setLane, hst]
  rfl

/-- A word fetched while no codeword is in error is no new entry of the codewords. -/
theorem fillCache_clean (hc : s.ecc.marks = []) (l : Nat) : ((fillCache l).run s).ecc = s.ecc := by
  unfold fillCache
  rw [run_look]
  dsimp only
  split
  · rw [hc]
    cases (laneAt s l).cache.contains (laneAt s l).pc <;> rfl
  · rfl

theorem fetch_clean (hc : s.ecc.marks = []) (l : Nat) : ((fetch l).run s).ecc.marks = [] := by
  rw [fetch, run_look, run_seq]
  exact landStores_clean ((congrArg EccState.marks (fillCache_clean hc l)).trans hc) _

/-- With no store in flight the fetch leaves memory. -/
theorem fetch_mem (hst : (laneAt s l).stores = []) : ((fetch l).run s).mem = s.mem := by
  obtain ⟨c, hcache⟩ := fillCache_lane l s
  rw [fetch, run_look, run_seq, landStores_mem (by rw [hcache]; exact hst)]
  exact touches_mem (touches_fillCache l) (by decide) (by decide) s

end Fetch

end Sys2Proof.Machine
end

