-- ==== Sys2Proof/Proofs/LaneResults.lean ====
section
/-! SUPPORT. Results that a word issues: who reads them, and what they leave (R116, R161). -/

namespace Sys2Proof.Machine

/-! ### More reads of a lane -/

theorem rdM_reads (l : Lane) (i : Fin 16) : (rdM l i).toNat = l.reads (.m i) false l.pos := by
  refine Eq.trans ?_ (toNat_ofNat_getD (inFlight l.results (.m i) false l.pos) l.m[i.val])
  unfold rdM
  rw [seen_eq]
  cases inFlight l.results (.m i) false l.pos <;> rfl

theorem rdLen_reads (l : Lane) (i : Fin 16) : (rdLen l i).toNat = l.reads (.len i) false l.pos := by
  refine Eq.trans ?_ (toNat_ofNat_getD (inFlight l.results (.len i) false l.pos) l.len[i.val])
  unfold rdLen
  rw [seen_eq]
  cases inFlight l.results (.len i) false l.pos <;> rfl

/-! ### A result just issued -/

section Result

variable {d e : LaneDest} {v lat macLat n : Nat} {mac : Bool} {L : Lane}

/-- The results that a reader does not see change nothing of what it reads. -/
theorem reads_unserved {rs : List PendRes} (h : ∀ r ∈ rs, r.serves d mac n = false) :
    ({ L with results := L.results ++ rs } : Lane).reads d mac n = L.reads d mac n := by
  have hnone : rs.filter (fun r => r.serves d mac n) = [] := List.filter_eq_nil_iff.mpr fun r hr => by simp [h r hr]
  show (inFlight (L.results ++ rs) d mac n).getD (L.held d) % _ = _
  rw [inFlight, List.filter_append, hnone, List.append_nil]
  rfl

/-- Its readers from its position on read the value, within the bits of the register. -/
theorem reads_putRes (h : L.pos + (if mac then macLat else lat) ≤ n) : (putRes d v lat macLat L).reads d mac n = v % 2 ^ d.width := by
  have hserves : (PendRes.mk d v L.pos (L.pos + lat) (L.pos + macLat)).serves d mac n = true := by
    cases mac <;> simpa [PendRes.serves] using h
  show (inFlight (L.results ++ [_]) d mac n).getD _ % _ = _
  rw [inFlight_concat hserves]
  rfl

end Result

/-! ### Results to some registers -/

/-- From `L` to `L'` nothing happens but that results are issued, to registers for which `p` holds. -/
def Issues (p : LaneDest → Prop) (L L' : Lane) : Prop := ∃ rs, L' = { L with results := L.results ++ rs } ∧ ∀ r ∈ rs, p r.dest

section Issues

variable {p q : LaneDest → Prop} {L L' L'' : Lane}

theorem Issues.refl (p : LaneDest → Prop) (L : Lane) : Issues p L L :=
  ⟨[], by rw [List.append_nil], fun _ h => absurd h List.not_mem_nil⟩

theorem Issues.trans (h : Issues p L L') (h' : Issues p L' L'') : Issues p L L'' := by
  obtain ⟨rs, rfl, hrs⟩ := h
  obtain ⟨rs', rfl, hrs'⟩ := h'
  refine ⟨rs ++ rs', by rw [← List.append_assoc], fun r hr => ?_⟩
  exact (List.mem_append.mp hr).elim (hrs r) (hrs' r)

theorem Issues.mono (h : Issues p L L') (hpq : ∀ d, p d → q d) : Issues q L L' := by
  obtain ⟨rs, hL, hrs⟩ := h
  exact ⟨rs, hL, fun r hr => hpq _ (hrs r hr)⟩

theorem issues_putRes {d : LaneDest} (hd : p d) (v lat macLat : Nat) (L : Lane) : Issues p L (putRes d v lat macLat L) :=
  ⟨[⟨d, v, L.pos, L.pos + lat, L.pos + macLat⟩], rfl, fun r hr => by
    obtain rfl := List.mem_singleton.mp hr
    exact hd⟩

theorem issues_putD (i : Fin 16) (v : W40) (lat : Nat) (L : Lane) : Issues (· = .d i) L (putD i v lat L) :=
  issues_putRes (p := (· = .d i)) rfl ..

theorem Issues.foldl {α : Type} {f : Lane → α → Lane} : ∀ {xs : List α}, (∀ x ∈ xs, ∀ L, Issues p L (f L x)) → ∀ L, Issues p L (xs.foldl f L)
  | [], _, L => Issues.refl p L
  | x :: _, h, L => (h x List.mem_cons_self L).trans (Issues.foldl (fun y hy => h y (List.mem_cons_of_mem x hy)) (f L x))

/-- A register to which nothing is issued reads as before. -/
theorem Issues.reads (h : Issues p L L') {d : LaneDest} (hd : ¬ p d) (mac : Bool) (n : Nat) : L'.reads d mac n = L.reads d mac n := by
  obtain ⟨rs, rfl, hrs⟩ := h
  refine reads_unserved fun r hr => ?_
  have hne : r.dest ≠ d := fun hrd => hd (hrd ▸ hrs r hr)
  rw [PendRes.serves, decide_eq_false hne, Bool.false_and]

/-- Nothing else of the lane changes. -/
theorem Issues.frame (h : Issues p L L') : ∃ rs, L' = { L with results := rs } := by
  obtain ⟨rs, hL, -⟩ := h
  exact ⟨_, hL⟩

theorem Issues.pos (h : Issues p L L') : L'.pos = L.pos := by
  obtain ⟨rs, rfl, -⟩ := h
  rfl

theorem Issues.stores (h : Issues p L L') : L'.stores = L.stores := by
  obtain ⟨rs, rfl, -⟩ := h
  rfl

end Issues

/-! ### After the instruction -/

/-- An instruction that has executed changes nothing that a later one reads. -/
theorem reads_retired {L : Lane} {n : Nat} (h : L.pos + 1 ≤ n) (cost stall : Nat) (store : Bool) (d : LaneDest) (mac : Bool) :
    (retired cost stall store L).reads d mac n = L.reads d mac n := reads_advancePos h

/-- What no landing result changes, none of several changes. -/
theorem landAll_keeps {β : Type} {f : Lane → β} (hf : ∀ l d v, f (landRes l d v) = f l) {p : Nat} :
    ∀ (rs : List PendRes) (l : Lane), f (landAll p rs l).1 = f l
  | [], _ => rfl
  | r :: rs, l => by
    rw [landAll]
    split
    · exact landAll_keeps hf rs l
    · split
      · exact (landAll_keeps hf rs _).trans (hf ..)
      · exact landAll_keeps hf rs l

theorem advancePos_stores (L : Lane) : (advancePos L).stores = L.stores :=
  landAll_keeps (f := Lane.stores) (fun _ d _ => by cases d <;> rfl) L.results L

theorem advancePos_rets (L : Lane) : (advancePos L).rets = L.rets :=
  landAll_keeps (f := Lane.rets) (fun _ d _ => by cases d <;> rfl) L.results L

section ReadsAfter

variable {s t : State} {l : LaneSlot} {n : Nat}

/-- What the instruction `n` positions after reads, from what the lane then holds. -/
theorem rdD_readsAfter (i : Fin 16) : (rdD (readsAfter s t l n) i).toNat = (laneAt t l).reads (.d i) false ((laneAt s l).pos + n) := rdD_reads ..

theorem rdAcc_readsAfter (i : Fin 4) (mac : Bool) :
    (rdAcc (readsAfter s t l n) i mac).toNat = (laneAt t l).reads (.acc i) mac ((laneAt s l).pos + n) := rdAcc_reads ..

theorem rdA_readsAfter (i : Fin 16) : (rdA (readsAfter s t l n) i).toNat = (laneAt t l).reads (.a i) false ((laneAt s l).pos + n) := rdA_reads ..

theorem rdM_readsAfter (i : Fin 16) : (rdM (readsAfter s t l n) i).toNat = (laneAt t l).reads (.m i) false ((laneAt s l).pos + n) := rdM_reads ..

theorem rdLen_readsAfter (i : Fin 16) :
    (rdLen (readsAfter s t l n) i).toNat = (laneAt t l).reads (.len i) false ((laneAt s l).pos + n) := rdLen_reads ..

end ReadsAfter

end Sys2Proof.Machine
end

