-- ==== Sys2Proof/Proofs/LaneControl.lean ====
section
/-! SUPPORT. Control words: flow, the loop stack, WAIT.TICK and the moves (R117, R119–R121, R127, R154–R157, R160). -/

namespace Sys2Proof.Machine

/-! ### An instruction that goes on at an address -/

/-- The lane after an instruction that goes on at `pc` with the loop stack `reps` (R115). -/
def retiredTo (cost stall : Nat) (store : Bool) (reps : List RepLevel) (pc : Nat) (L : Lane) : Lane := { advancePos L with
  st := if L.st = .stall then .run else L.st
  cause := .none
  reps := reps
  cache := if (cacheLevel reps).isSome then L.cache else []
  pc := pc
  cyc := L.cyc + cost + stall
  stalls := L.stalls + stall
  lastStore := store }

section Retire

variable {l : Nat} {s : State} {reps : List RepLevel} {pc : Nat}

/-- Outside a step, and to an address of the program memory, an instruction changes its lane alone. -/
theorem retire_run (hret : (laneAt s l).stepRet = none) (hpc : pc < 4096) (cost stall : Nat) (store : Bool) :
    (retire l cost stall store reps pc).run s = (setLane l (retiredTo cost stall store reps pc)).run s := by
  have hmin : min pc 4095 = pc := by omega
  have hlast : ∀ u, laneAt u l = retiredTo cost stall store reps pc (laneAt s l) → (stepEnd l).run u = u := fun u hu => by
    have hu : (laneAt u l).stepRet = none := by
      rw [hu]
      exact (advancePos_stepRet _).trans hret
    simp [stepEnd, hu]
  unfold retire
  rw [run_acts_cons, run_acts_cons, run_acts_cons, run_acts_nil, hmin, onlyIf, if_neg (by simpa using hpc), run_done]
  exact hlast _ (laneAt_setLane ..)

end Retire

/-! ### Flow -/

section Flow

variable {l : Nat} {s : State} {cc : Cond} {full : Lane → Bool} {rets : Lane → List Nat} {target : Lane → Nat}

/-- A jump, a call or a return outside REP: to its target in three cycles where the condition holds, else on in one (R117, R155). -/
theorem doFlow_lane (hret : (laneAt s l).stepRet = none) (hreps : (laneAt s l).reps = []) (hnext : (laneAt s l).pc + 1 < 4096)
    (hfull : full (laneAt s l) = false) (htgt : target (laneAt s l) < 4096) :
    laneAt ((doFlow l cc full rets target).run s) l =
      if condHolds cc (rdFlags (laneAt s l)).1 (rdFlags (laneAt s l)).2 then
        retiredTo 3 0 false (laneAt s l).reps (target (laneAt s l)) { laneAt s l with rets := rets (laneAt s l) }
      else retiredTo 1 0 false (laneAt s l).reps ((laneAt s l).pc + 1) (laneAt s l) := by
  unfold doFlow inRep
  rw [run_look]
  dsimp only
  rw [hfull, Bool.and_false, if_neg (by decide), if_neg (by simp [hreps])]
  split
  · rw [run_seq, retire_run (by rw [laneAt_setLane]; exact hret) htgt, laneAt_setLane, laneAt_setLane]
  · rw [retire_run hret hnext, laneAt_setLane]

end Flow

/-! ### The loop stack -/

/-- A REP with a pass outside REP opens a level over the words that follow (R119). -/
theorem doRep_lane {l n k : Nat} {s : State} (hret : (laneAt s l).stepRet = none) (hreps : (laneAt s l).reps = [])
    (hnext : (laneAt s l).pc + 1 < 4096) (hn : n ≠ 0) : laneAt ((doRep l n k).run s) l =
      retiredTo 1 0 false (⟨(laneAt s l).pc + 1, (laneAt s l).pc + k, n, false⟩ :: (laneAt s l).reps) ((laneAt s l).pc + 1)
        { laneAt s l with cache := [] } := by
  have houter : (cacheLevel (laneAt s l).reps).isNone = true := by rw [hreps]; rfl
  unfold doRep
  rw [run_look]
  dsimp only
  rw [if_neg (by simp [hreps]), if_neg hn, houter, onlyIf_true, run_seq, retire_run (by rw [laneAt_setLane]; exact hret) hnext,
    laneAt_setLane, laneAt_setLane]

/-! ### WAIT.TICK -/

/-- WAIT.TICK writes every store and waits (R127, R160). -/
theorem doWait_lane {l : Nat} {s : State} (hret : (laneAt s l).stepRet = none) (hreps : (laneAt s l).reps = [])
    (hnext : (laneAt s l).pc + 1 < 4096) : laneAt ((doWait l).run s) l = retiredTo 0 (b2n (laneAt s l).lastStore) false []
      ((laneAt s l).pc + 1) { laneAt s l with st := .wait, stores := [] } := by
  have hnone : (laneAt s l).stores.filter (fun _ => !true) = [] := List.filter_eq_nil_iff.mpr fun _ _ => Bool.false_ne_true
  unfold doWait inRep
  rw [run_look]
  dsimp only
  rw [if_neg (by simp [hreps]), run_acts_cons, run_acts_cons, run_acts_cons, run_acts_nil,
    retire_run (by rw [laneAt_setLane, landStores_lane]; exact hret) hnext, laneAt_setLane, laneAt_setLane, landStores_lane, hnone]

/-! ### The moves -/

/-- A move issues its result and executes. -/
theorem doMove_lane {l : Nat} {s : State} {f : Lane → Lane} (hret : (laneAt s l).stepRet = none)
    (hnext : (nextPc (laneAt s l).reps (laneAt s l).pc).2 < 4096) {p : LaneDest → Prop} (hf : Issues p (laneAt s l) (f (laneAt s l))) :
    laneAt ((doMove l f).run s) l = retired 1 0 false (f (laneAt s l)) := by
  obtain ⟨rs, hframe⟩ := hf.frame
  have hlane : laneAt ((setLane l f).run s) l = { laneAt s l with results := rs } := (laneAt_setLane ..).trans hframe
  rw [doMove, run_seq, retireNext_run (by rw [hlane]; exact hret) (by rw [hlane]; exact hnext), laneAt_setLane, laneAt_setLane]

/-- The second instruction after a result of two positions reads the value first (R116). -/
theorem reads_retired_putRes (d : LaneDest) (v : Nat) (L : Lane) :
    (retired 1 0 false (putRes d v 2 2 L)).reads d false (L.pos + 2) = v % 2 ^ d.width :=
  (reads_retired (L := putRes d v 2 2 L) (Nat.le_succ (L.pos + 1)) 1 0 false d false).trans (reads_putRes (Nat.le_refl _))

/-- A lane that comes to a move: the second instruction after reads the value first (R116). -/
theorem laneRun_move {l : LaneSlot} {w : ControlWord} {s : State} (h : LaneAtWord l (.control w) s) {d : LaneDest} {v : Lane → Nat}
    (hw : doControl l w = doMove l fun L => putRes d (v L) 2 2 L)
    (hv : ∀ c ps, v { laneAt s l with cache := c, stores := ps } = v (laneAt s l)) :
    (laneAt ((laneRun l (.control w)).run s) l).reads d false ((laneAt s l).pos + 2) = v (laneAt s l) % 2 ^ d.width := by
  obtain ⟨c, hlane⟩ := fetch_lane l s
  have hmove := doMove_lane (l := l) (s := (fetch l).run s) (f := fun L => putRes d (v L) 2 2 L) (by rw [hlane]; exact h.noStep)
    (by rw [hlane]; exact h.next) (issues_putRes (p := (· = d)) rfl ..)
  rw [laneRun_fetches h, doWord, hw, hmove, hlane]
  exact (reads_retired_putRes d _ _).trans (congrArg (· % 2 ^ d.width) (hv c _))

/-! ### The statement -/

section Outside

variable {l : LaneSlot} {w : ControlWord} {s : State}

/-- A lane that comes to a control word outside REP: the word acts on the lane as it was but for what the fetch leaves. -/
theorem LaneAtWord.outside (h : LaneAtWord l (.control w) s) (hreps : (laneAt s l).reps = []) : ∃ u c ps,
    (laneRun l (.control w)).run s = (doControl l w).run u ∧ laneAt u l = { laneAt s l with cache := c, stores := ps } ∧
      (laneAt u l).stepRet = none ∧ (laneAt u l).reps = [] ∧ (laneAt u l).pc + 1 < 4096 := by
  obtain ⟨c, hlane⟩ := fetch_lane l s
  have hnext := h.next
  rw [hreps] at hnext
  exact ⟨(fetch l).run s, c, _, laneRun_fetches h, hlane, by rw [hlane]; exact h.noStep, by rw [hlane]; exact hreps, by rw [hlane]; exact hnext⟩

end Outside

/-- Settles O17: flow, REP and WAIT.TICK go on at an address with the loop stack they leave, and the moves issue one result. -/
theorem laneControlComplete : Obligations.LaneControlComplete := by
  intro l cc tg n kk d r v w s L taken
  refine ⟨fun h hreps => ⟨_, rfl, ?_⟩, fun h hreps hrets => ⟨_, rfl, ?_⟩, fun a h hreps hlast ha => ⟨_, rfl, ?_⟩,
    fun h hn hreps => ⟨_, rfl, ?_⟩, fun h hn hreps => ⟨_, rfl, ?_⟩, fun h hreps => ⟨_, rfl, ?_⟩, fun h => ⟨_, rfl, ?_⟩,
    fun h => ⟨_, rfl, ?_⟩, fun h => ⟨_, rfl, ?_⟩, fun h => ⟨_, rfl, ?_⟩, fun h => ⟨_, rfl, ?_⟩, fun h => ⟨_, rfl, ?_⟩,
    fun h => ⟨_, rfl, ?_⟩, fun h => ⟨_, rfl, ?_⟩⟩
  · obtain ⟨u, c, ps, hrun, hu, hret, hnil, hnext⟩ := h.outside hreps
    rw [hrun, doControl, doFlow_lane hret hnil hnext rfl tg.isLt, hu]
    show Lane.pc (if taken then _ else _) = _ ∧ Lane.cyc (if taken then _ else _) = _
    cases taken <;> exact ⟨rfl, rfl⟩
  · obtain ⟨u, c, ps, hrun, hu, hret, hnil, hnext⟩ := h.outside hreps
    have hroom : decide (8 ≤ (laneAt u l).rets.length) = false := decide_eq_false (by rw [hu]; exact Nat.not_le.mpr hrets)
    rw [hrun, doControl, doFlow_lane hret hnil hnext hroom tg.isLt, hu]
    show Lane.pc (if taken then _ else _) = _ ∧ Lane.rets (if taken then _ else _) = _
    cases taken <;> exact ⟨rfl, advancePos_rets _⟩
  · obtain ⟨u, c, ps, hrun, hu, hret, hnil, hnext⟩ := h.outside hreps
    have hfull : decide ((laneAt u l).rets = []) = false := decide_eq_false (by
      rw [hu]
      intro hno
      exact absurd (hlast.symm.trans (congrArg List.getLast? hno)) nofun)
    have htop : (laneAt u l).rets.getLastD 0 = a := by
      rw [hu, List.getLastD_eq_getLast?]
      exact congrArg (·.getD 0) hlast
    rw [hrun, doControl, doFlow_lane hret hnil hnext hfull (htop.symm ▸ ha), htop, hu]
    show Lane.pc (if taken then _ else _) = _ ∧ Lane.rets (if taken then _ else _) = _
    cases taken <;> exact ⟨rfl, advancePos_rets _⟩
  · obtain ⟨u, c, ps, hrun, hu, hret, hnil, hnext⟩ := h.outside hreps
    have hlane : laneAt ((doControl l (.repImm n kk)).run u) l = _ := doRep_lane hret hnil hnext fun h0 => hn (Fin.ext h0)
    rw [hrun, hlane, hnil, hu]
    exact ⟨rfl, rfl⟩
  · obtain ⟨u, c, ps, hrun, hu, hret, hnil, hnext⟩ := h.outside hreps
    have hcount : rdD (laneAt u l) d = rdD L d := by rw [hu]; rfl
    have hlane : laneAt ((doControl l (.repD d kk)).run u) l = _ := doRep_lane hret hnil hnext (hcount ▸ hn)
    rw [hrun, hlane, hnil, hcount, hu]
    exact ⟨rfl, rfl⟩
  · obtain ⟨u, c, ps, hrun, hu, hret, hnil, hnext⟩ := h.outside hreps
    have hlane : laneAt ((doControl l .waitTick).run u) l = _ := doWait_lane hret hnil hnext
    rw [hrun, hlane, hu]
    exact ⟨rfl, rfl, advancePos_stores _⟩
  · exact BitVec.eq_of_toNat_eq ((rdD_readsAfter d).trans ((laneRun_move h rfl fun _ _ => rfl).trans (Nat.mod_eq_of_lt v.isLt)))
  · exact BitVec.eq_of_toNat_eq ((rdA_readsAfter d).trans ((laneRun_move h rfl fun _ _ => rfl).trans (Nat.mod_eq_of_lt w.isLt)))
  · exact BitVec.eq_of_toNat_eq ((rdM_readsAfter d).trans ((laneRun_move h rfl fun _ _ => rfl).trans (Nat.mod_eq_of_lt w.isLt)))
  · exact BitVec.eq_of_toNat_eq ((rdLen_readsAfter d).trans ((laneRun_move h rfl fun _ _ => rfl).trans (Nat.mod_eq_of_lt w.isLt)))
  · exact BitVec.eq_of_toNat_eq ((rdA_readsAfter d).trans ((laneRun_move h rfl fun _ _ => rfl).trans (Nat.mod_eq_of_lt (BitVec.isLt _))))
  · exact BitVec.eq_of_toNat_eq ((rdM_readsAfter d).trans ((laneRun_move h rfl fun _ _ => rfl).trans (Nat.mod_mod _ _)))
  · exact BitVec.eq_of_toNat_eq ((rdLen_readsAfter d).trans ((laneRun_move h rfl fun _ _ => rfl).trans (Nat.mod_mod _ _)))
  · exact BitVec.eq_of_toNat_eq ((rdD_readsAfter d).trans ((laneRun_move h rfl fun _ _ => rfl).trans (Nat.mod_eq_of_lt (BitVec.isLt _))))

end Sys2Proof.Machine
end

