-- ==== Sys2Proof/Proofs/LaneCompute.lean ====
section
/-! SUPPORT. Compute words: the results each part issues, and what is left of them after the word (R93–R98, R116, R143–R149, R161, R162). -/

namespace Sys2Proof.Machine

/-! ### The word of a slot operation -/

/-- The compute word in which slot `h` does `op`. -/
def slotCompute (h : Half) (op : SlotOp) (x : SlotCtx) : ComputeWord :=
  match h with
  | .s0 => ⟨op, x.other, x.mop, x.u0, x.u1⟩
  | .s1 => ⟨x.other, op, x.mop, x.u0, x.u1⟩

theorem slotWord_eq (h : Half) (op : SlotOp) (x : SlotCtx) : slotWord h op x = .compute (slotCompute h op x) := by
  cases h <;> rfl

/-! ### Slots that a word allows together -/

/-- Two slots of one word beside its memory operation write no register twice, but for two multiplies into one accumulator (R162). -/
structure SlotsApart (a b : SlotOp) (m : MemOp) : Prop where
  d : ∀ i, slotD a = some i → slotD b ≠ some i
  acc : ∀ c, slotAluAcc a = some c → slotAcc b ≠ some c
  acc' : ∀ c, slotAluAcc b = some c → slotAcc a ≠ some c
  load : ∀ i, slotD a = some i → i.val ∉ mopDests m
  load' : ∀ i, slotD b = some i → i.val ∉ mopDests m

section SlotsApart

variable {a b op : SlotOp} {m : MemOp} {h : Half} {x : SlotCtx}

theorem SlotsApart.symm (hab : SlotsApart a b m) : SlotsApart b a m :=
  ⟨fun i hb ha => hab.d i ha hb, hab.acc', hab.acc, hab.load', hab.load⟩

theorem slotsApart_of_agree (hab : slotsAgree a b m = true) : SlotsApart a b m := by
  simp only [slotsAgree, Bool.and_eq_true] at hab
  obtain ⟨⟨⟨⟨hd, hacc⟩, hacc'⟩, hload⟩, hload'⟩ := hab
  refine ⟨fun i ha hb => ?_, fun c ha hb => ?_, fun c hb ha => ?_, fun i ha => ?_, fun i hb => ?_⟩
  · simp [ha, hb] at hd
  · simp [ha, hb] at hacc
  · simp [ha, hb] at hacc'
  · simpa [ha] using hload
  · simpa [hb] using hload'

/-- In a legal word the operation of a slot stands apart from the other slot. -/
theorem slotsApart_of_legal (hl : laneLegal (slotWord h op x) = true) : SlotsApart op x.other x.mop := by
  cases h with
  | s0 => exact slotsApart_of_agree ((Bool.and_eq_true ..).mp hl).2
  | s1 => exact (slotsApart_of_agree ((Bool.and_eq_true ..).mp hl).2).symm

theorem slotAcc_of_alu {c : Fin 4} (hc : slotAluAcc op = some c) : slotAcc op = some c := by
  cases op with
  | mac | msu | mpy | mpyn => exact nomatch hc
  | _ => exact hc

theorem slotAcc_of_mul {c : Fin 4} (hc : mulAcc op = some c) : slotAcc op = some c := by
  cases op with
  | mac | msu | mpy | mpyn => exact hc
  | _ => exact nomatch hc

end SlotsApart

/-! ### The results of an ALU operation -/

/-- The registers to which an ALU operation may issue a result. -/
def aluWrites (op : SlotOp) : LaneDest → Prop
  | .d i => slotD op = some i
  | .acc c => slotAluAcc op = some c
  | .flags => True
  | .a _ | .m _ | .len _ => False

section Effects

variable {L0 : Lane} {x : SlotEff} {op : SlotOp} {w : ComputeWord} {e : LaneDest} {mac : Bool} {n : Nat}

theorem issues_putAlu {p : LaneDest → Prop} {d : Fin 16} (hd : p (.d d)) (hf : p .flags) (r : AluRes) (x : SlotEff) :
    Issues p x.lane (putAlu d r x).lane :=
  (issues_putRes hd ..).trans (issues_putRes hf ..)

theorem issues_aluEff (L0 : Lane) (op : SlotOp) (x : SlotEff) : Issues (aluWrites op) x.lane (aluEff L0 op x).lane := by
  cases op with
  | nop | mac | msu | mpy | mpyn => exact Issues.refl ..
  | cmp | tsta => exact issues_putRes (by exact trivial) ..
  | lda | clra | adda | suba => exact issues_putRes (by exact rfl) ..
  | mov | add | sub | neg | abs | max | min | and | or | xor | asr | lsl | lsr | cv => exact issues_putAlu (by exact rfl) (by exact trivial) _ x

/-- The result of an ALU operation is read by the second instruction after. -/
theorem reads_putAlu {d : Fin 16} (r : AluRes) (h : x.lane.pos + 2 ≤ n) : (putAlu d r x).lane.reads (.d d) false n = r.val.toNat := by
  have hflags : Issues (· = .flags) (putD d r.val 2 x.lane) (putAlu d r x).lane := issues_putRes (by exact rfl) ..
  exact (hflags.reads (d := .d d) nofun false n).trans (reads_putD d r.val h)

/-- A result for an accumulator of an ALU operation likewise. -/
theorem reads_putAcc (c : Fin 4) (v : W88) {L : Lane} (h : L.pos + 2 ≤ n) : (putAcc c v L).reads (.acc c) false n = v.toNat :=
  (reads_putRes h).trans (Nat.mod_eq_of_lt v.isLt)

/-! ### Several results -/

/-- After steps of which those in `W` leave `e` reading as `v` and the others leave it, one of `W` among them, it reads as `v`. -/
theorem reads_foldl {α : Type} {f : Lane → α → Lane} {W : α → Prop} {p v : Nat} (hpos : ∀ L y, (f L y).pos = L.pos) {ys : List α}
    (hput : ∀ y ∈ ys, ∀ L, W y → L.pos = p → (f L y).reads e mac n = v)
    (hkeep : ∀ y L, ¬ W y → (f L y).reads e mac n = L.reads e mac n) {L : Lane} (hL : L.pos = p) (hex : ∃ y ∈ ys, W y) :
    (ys.foldl f L).reads e mac n = v := by
  induction ys generalizing L with
  | nil => exact absurd hex (by simp)
  | cons y ys ih =>
    have ih := fun hex => ih (fun z hz => hput z (List.mem_cons_of_mem y hz)) ((hpos L y).trans hL) hex
    by_cases hin : ∃ z ∈ ys, W z
    · exact ih hin
    · have hy : W y := by
        obtain ⟨z, hz, hw⟩ := hex
        exact (List.mem_cons.mp hz).elim (· ▸ hw) fun hz => absurd ⟨z, hz, hw⟩ hin
      have hrest : ∀ zs : List α, (∀ z ∈ zs, ¬ W z) → ∀ L, (zs.foldl f L).reads e mac n = L.reads e mac n := fun zs => by
        induction zs with
        | nil => exact fun _ _ => rfl
        | cons z zs ihz =>
          exact fun hno L => (ihz (fun u hu => hno u (List.mem_cons_of_mem z hu)) _).trans (hkeep z L (hno z List.mem_cons_self))
      exact (hrest ys (fun z hz hw => hin ⟨z, hz, hw⟩) _).trans (hput y List.mem_cons_self L hy hL)

/-! ### The multiplies of a word -/

/-- What accumulator `a` holds after the multiplies of a word. -/
def macVal (L0 : Lane) (w : ComputeWord) (a : Fin 4) : W88 :=
  BitVec.ofInt 88 (mulTerm L0 a (aint (BitVec.ofInt 88 (mulTerm L0 a (aint (rdAcc L0 a true)) w.slot0))) w.slot1)

/-- The accumulators that the multiplies of a word update. -/
def mulAccs (w : ComputeWord) : List (Fin 4) :=
  match mulAcc w.slot0, mulAcc w.slot1 with
  | some a, some b => if a = b then [a] else [a, b]
  | some a, none => [a]
  | none, some b => [b]
  | none, none => []

theorem mem_mulAccs {a : Fin 4} : a ∈ mulAccs w ↔ mulAcc w.slot0 = some a ∨ mulAcc w.slot1 = some a := by
  unfold mulAccs
  cases mulAcc w.slot0 with
  | none => cases mulAcc w.slot1 <;> simp [eq_comm]
  | some b =>
    cases mulAcc w.slot1 with
    | none => simp [eq_comm]
    | some c =>
      by_cases hbc : b = c
      · simp [hbc, eq_comm]
      · simp [hbc, eq_comm]

/-- The lane after the multiplies of a word. -/
def macsLane (L0 : Lane) (w : ComputeWord) (L : Lane) : Lane := (mulAccs w).foldl (fun L a => putMac a (macVal L0 w a) L) L

theorem slotsEff_lane (L0 : Lane) (w : ComputeWord) (x : SlotEff) : ∃ y : SlotEff, y.lane = macsLane L0 w x.lane ∧
    slotsEff L0 w x = aluEff L0 w.slot1 (aluEff L0 w.slot0 y) :=
  ⟨(mulAccs w).foldl (fun x a => macEff L0 w a x) x, (List.foldl_hom SlotEff.lane fun _ _ => rfl).symm, rfl⟩

theorem issues_macsLane (L0 : Lane) (w : ComputeWord) (L : Lane) : Issues (∃ a, · = .acc a) L (macsLane L0 w L) :=
  Issues.foldl (fun a _ _ => issues_putRes ⟨a, rfl⟩ ..) L

/-- An accumulator that the multiplies of a word update: a multiply-accumulate of the next instruction reads it, and every other reader
from the third on (R116). -/
theorem reads_macsLane {a : Fin 4} (ha : a ∈ mulAccs w) {L : Lane} (h : L.pos + (if mac then 1 else 3) ≤ n) :
    (macsLane L0 w L).reads (.acc a) mac n = (macVal L0 w a).toNat := by
  refine reads_foldl (f := fun L b => putMac b (macVal L0 w b) L) (W := (· = a)) (p := L.pos) (fun _ _ => rfl)
    (fun b _ L' hb hL' => ?_) (fun b L' hb => ?_) rfl ⟨a, ha, rfl⟩
  · subst hb
    exact (reads_putRes (by rw [hL']; exact h)).trans (Nat.mod_eq_of_lt (macVal L0 w b).isLt)
  · have hissues : Issues (· = .acc b) L' (putMac b (macVal L0 w b) L') := issues_putRes (by exact rfl) ..
    exact hissues.reads (fun he => hb (LaneDest.acc.inj he).symm) mac n

/-! ### The slots of a word -/

theorem slotsEff_issues (L0 : Lane) (w : ComputeWord) (x : SlotEff) :
    Issues (fun e => aluWrites w.slot1 e ∨ aluWrites w.slot0 e) (macsLane L0 w x.lane) (slotsEff L0 w x).lane := by
  obtain ⟨y, hy, heq⟩ := slotsEff_lane L0 w x
  rw [heq, ← hy]
  exact ((issues_aluEff L0 w.slot0 y).mono fun _ => .inr).trans ((issues_aluEff ..).mono fun _ => .inl)

/-- What slot `h` leaves a register reading as, is what it reads as after the word where the other slot does not write it. -/
theorem reads_slotsEff {h : Half} {c : SlotCtx} {v : Nat} (hother : ¬ aluWrites c.other e)
    (hown : ∀ y : SlotEff, y.lane.pos = x.lane.pos → (aluEff L0 op y).lane.reads e mac n = v) :
    (slotsEff L0 (slotCompute h op c) x).lane.reads e mac n = v := by
  obtain ⟨y, hy, heq⟩ := slotsEff_lane L0 (slotCompute h op c) x
  have hpos : y.lane.pos = x.lane.pos := hy ▸ (issues_macsLane ..).pos
  rw [heq]
  cases h with
  | s0 => exact ((issues_aluEff L0 c.other _).reads hother mac n).trans (hown y hpos)
  | s1 => exact hown _ ((issues_aluEff L0 c.other y).pos.trans hpos)

/-! ### The stores and the address updates -/

/-- The stores of a word change of its lane only the stores in flight. -/
theorem storeEff_lane (L0 : Lane) (w : ComputeWord) (x : SlotEff) : ∃ ps, (storeEff L0 w x).1.lane = { x.lane with stores := ps } := by
  unfold storeEff
  split <;> exact ⟨_, rfl⟩

theorem issues_addrUpds (L0 : Lane) (u0 u1 : AddrUpd) (L : Lane) : Issues (∃ i, · = .a i) L (addrUpds L0 u0 u1 L) := by
  have hone : ∀ (c : Bool) (u : AddrUpd) (L : Lane), Issues (∃ i, · = .a i) L (if c then putA u.an (addrUpd L0 u) 1 L else L) := by
    intro c u L
    split
    · exact issues_putRes ⟨u.an, rfl⟩ ..
    · exact Issues.refl ..
  exact (hone _ u0 L).trans (hone _ u1 _)

/-! ### The whole word -/

/-- The lane after the loads of a word. -/
def loadsLane (vs : List (Nat × W40)) (L : Lane) : Lane := vs.foldl (fun L v => putD (f16 v.1) v.2 3 L) L

theorem issues_loadsLane (vs : List (Nat × W40)) (L : Lane) : Issues (fun e => ∃ q ∈ vs, e = .d (f16 q.1)) L (loadsLane vs L) :=
  Issues.foldl (fun q hq _ => issues_putRes ⟨q, hq, rfl⟩ ..) L

theorem computeEff_lane (L0 : Lane) (w : ComputeWord) (vs : List (Nat × W40)) : (computeEff L0 w vs).1.lane =
    addrUpds L0 w.u0 w.u1 (storeEff L0 w (slotsEff L0 w ⟨loadsLane vs L0, false, false⟩)).1.lane := rfl

/-- A compute word changes of its lane the results and the stores in flight. -/
theorem computeEff_frame (L0 : Lane) (w : ComputeWord) (vs : List (Nat × W40)) :
    ∃ rs ps, (computeEff L0 w vs).1.lane = { L0 with results := rs, stores := ps } := by
  obtain ⟨_, hloads⟩ := (issues_loadsLane vs L0).frame
  obtain ⟨_, hmacs⟩ := (issues_macsLane L0 w (loadsLane vs L0)).frame
  obtain ⟨_, hslots⟩ := (slotsEff_issues L0 w ⟨loadsLane vs L0, false, false⟩).frame
  obtain ⟨_, hstore⟩ := storeEff_lane L0 w (slotsEff L0 w ⟨loadsLane vs L0, false, false⟩)
  obtain ⟨_, haddr⟩ := (issues_addrUpds L0 w.u0 w.u1 (storeEff L0 w (slotsEff L0 w ⟨loadsLane vs L0, false, false⟩)).1.lane).frame
  rw [computeEff_lane, haddr, hstore, hslots, hmacs, hloads]
  exact ⟨_, _, rfl⟩

/-- A register that is no address register reads after the word as after its slots. -/
theorem reads_computeEff (vs : List (Nat × W40)) (he : ∀ i, e ≠ .a i) : (computeEff L0 w vs).1.lane.reads e mac n =
    (slotsEff L0 w ⟨loadsLane vs L0, false, false⟩).lane.reads e mac n := by
  obtain ⟨_, hstore⟩ := storeEff_lane L0 w (slotsEff L0 w ⟨loadsLane vs L0, false, false⟩)
  rw [computeEff_lane, (issues_addrUpds ..).reads (fun ⟨i, hi⟩ => he i hi), hstore]
  rfl

end Effects

/-! ### A lane that comes to a compute word -/

/-- The words that the loads of a compute word deliver, with the registers they go to. -/
def loadVals (l : Nat) (w : ComputeWord) (s : State) : List (Nat × W40) := (wordLoads (laneAt s l) w).map fun q =>
  (q.2.2, loadWord (laneAt s l) q.1 (q.2.1.toNat % 8192) (word40 s (xyAddr l q.1 (q.2.1.toNat % 8192))))

section Compute

variable {l : LaneSlot} {s : State} {w : ComputeWord}

/-- With no codeword in error no word is uncorrectable. -/
theorem wordBad_clean (hc : s.ecc.marks = []) (a : Nat) : wordBad s a = false := by
  simp [wordBad, marksIn, hc]

/-- A compute word that meets no error does what `computeEff` says and executes. -/
theorem doCompute_lane {l : Nat} {s : State} (hc : s.ecc.marks = []) (hbanks : pairStoreBad (laneAt s l) w = false)
    (hret : (laneAt s l).stepRet = none) (hnext : (nextPc (laneAt s l).reps (laneAt s l).pc).2 < 4096) : ∃ stall o,
    laneAt ((doCompute l w).run s) l =
      retired 1 stall (wordStore w).isSome { (computeEff (laneAt s l) w (loadVals l w s)).1.lane with aov := o } := by
  obtain ⟨rs, ps, hframe⟩ := computeEff_frame (laneAt s l) w (loadVals l w s)
  have hbad : (wordLoads (laneAt s l) w).filter (fun q => wordBad s (xyAddr l q.1 (q.2.1.toNat % 8192))) = [] :=
    List.filter_eq_nil_iff.mpr fun q _ => by simp [wordBad_clean hc]
  have hrun : ∃ u o, (doCompute l w).run s = (retireNext l 1 (b2n (pairStall (laneAt s l) w)) (wordStore w).isSome).run u ∧
      laneAt u l = { (computeEff (laneAt s l) w (loadVals l w s)).1.lane with aov := o } := by
    unfold doCompute
    rw [run_look]
    dsimp only
    rw [hc, hbad, hbanks]
    refine ⟨_, (computeEff (laneAt s l) w (loadVals l w s)).1.lane.aov || (computeEff (laneAt s l) w (loadVals l w s)).1.aov, rfl, ?_⟩
    rw [laneAt_touches (ks := [.reg]) ?_ (by decide) (by decide), laneAt_touches (ks := [.reg]) ?_ (by decide) (by decide),
      laneAt_touches (ks := [.reg]) ?_ (by decide) (by decide), laneAt_setLane]
    · rfl
    · simp
    · simp
    · split
      · simp
      · trivial
  obtain ⟨u, o, hrun, hu⟩ := hrun
  exact ⟨_, o, by rw [hrun, retireNext_run (by rw [hu, hframe]; exact hret) (by rw [hu, hframe]; exact hnext), laneAt_setLane, hu]⟩

end Compute

end Sys2Proof.Machine
end

