-- ==== Sys2Proof/Proofs/LaneSlots.lean ====
section
/-! SUPPORT. The operations of the arithmetic slots (R93–R98, R101, R116, R144–R147, R161). -/

namespace Sys2Proof.Machine

/-! ### What a slot leaves after its word -/

section Slot

variable {l : LaneSlot} {s : State} {h : Half} {op : SlotOp} {x : SlotCtx} {w : ComputeWord} {e : LaneDest} {mac : Bool} {n v : Nat}

/-- A lane that comes to a compute word does what `computeEff` says, after its fetch. -/
theorem laneRun_compute (hat : LaneAtWord l (.compute w) s) : ∃ stall o, laneAt ((laneRun l (.compute w)).run s) l =
    retired 1 stall (wordStore w).isSome
      { (computeEff (laneAt ((fetch l).run s) l) w (loadVals l w ((fetch l).run s))).1.lane with aov := o } := by
  obtain ⟨c, hlane⟩ := fetch_lane l s
  have hbanks : pairStoreBad (laneAt ((fetch l).run s) l) w = false := by rw [hlane]; exact hat.banks w rfl
  rw [laneRun_fetches hat, doWord]
  exact doCompute_lane (fetch_clean hat.clean l) hbanks (by rw [hlane]; exact hat.noStep) (by rw [hlane]; exact hat.next)

/-- What the loads and the slots of a word leave a register reading as, later instructions read. -/
theorem laneRun_reads_word (hat : LaneAtWord l (.compute w) s) (he : ∀ i, e ≠ .a i) (hn : (laneAt s l).pos + 1 ≤ n) :
    (laneAt ((laneRun l (.compute w)).run s) l).reads e mac n = (slotsEff (laneAt ((fetch l).run s) l) w
      ⟨loadsLane (loadVals l w ((fetch l).run s)) (laneAt ((fetch l).run s) l), false, false⟩).lane.reads e mac n := by
  obtain ⟨stall, o, hrun⟩ := laneRun_compute hat
  obtain ⟨c, hlane⟩ := fetch_lane l s
  obtain ⟨rs, ps, hframe⟩ := computeEff_frame (laneAt ((fetch l).run s) l) w (loadVals l w ((fetch l).run s))
  have hpos : (computeEff (laneAt ((fetch l).run s) l) w (loadVals l w ((fetch l).run s))).1.lane.pos = (laneAt s l).pos := by
    rw [hframe, hlane]
  rw [hrun, reads_retired (by rw [← hpos] at hn; exact hn), ← reads_computeEff _ he]
  rfl

/-- What the slots of a word leave a register reading as, whatever its loads. -/
theorem laneRun_reads_slots (hat : LaneAtWord l (.compute w) s) (he : ∀ i, e ≠ .a i) (hn : (laneAt s l).pos + 1 ≤ n)
    (hslots : ∀ c ps, ∀ y : SlotEff, y.lane.pos = (laneAt s l).pos →
      (slotsEff { laneAt s l with cache := c, stores := ps } w y).lane.reads e mac n = v) :
    (laneAt ((laneRun l (.compute w)).run s) l).reads e mac n = v := by
  obtain ⟨c, hlane⟩ := fetch_lane l s
  rw [laneRun_reads_word hat he hn, hlane]
  exact hslots _ _ _ (issues_loadsLane ..).pos

/-- A result of one slot's operation, which the other slot does not write, later instructions read. -/
theorem laneRun_reads_slot (hat : LaneAtWord l (slotWord h op x) s) (he : ∀ i, e ≠ .a i) (hn : (laneAt s l).pos + 1 ≤ n)
    (hother : ¬ aluWrites x.other e) (hown : ∀ c ps, ∀ y : SlotEff, y.lane.pos = (laneAt s l).pos →
      (aluEff { laneAt s l with cache := c, stores := ps } op y).lane.reads e mac n = v) :
    (laneAt ((laneRun l (slotWord h op x)).run s) l).reads e mac n = v := by
  rw [slotWord_eq] at hat ⊢
  exact laneRun_reads_slots hat he hn fun c ps y hy => reads_slotsEff hother fun z hz => hown c ps z (hz.trans hy)

/-- An operation that gives D register `d` the result `r`. -/
theorem laneRun_slotD {d : Fin 16} {r : AluRes} (hat : LaneAtWord l (slotWord h op x) s) (hd : slotD op = some d)
    (hr : ∀ c ps y, aluEff { laneAt s l with cache := c, stores := ps } op y = putAlu d r y) :
    rdD (readsAfter s ((laneRun l (slotWord h op x)).run s) l 2) d = r.val := by
  refine BitVec.eq_of_toNat_eq ((rdD_readsAfter d).trans ?_)
  refine laneRun_reads_slot hat nofun (Nat.le_succ _) ((slotsApart_of_legal hat.legal).d d hd) fun c ps y hy => ?_
  rw [hr]
  exact reads_putAlu r (by rw [hy])

/-- An operation of the ALU that gives accumulator `a` the value `r`. -/
theorem laneRun_slotAcc {a : Fin 4} {r : W88} (hat : LaneAtWord l (slotWord h op x) s) (ha : slotAluAcc op = some a)
    (hr : ∀ c ps y, (aluEff { laneAt s l with cache := c, stores := ps } op y).lane = putAcc a r y.lane) :
    rdAcc (readsAfter s ((laneRun l (slotWord h op x)).run s) l 2) a false = r := by
  refine BitVec.eq_of_toNat_eq ((rdAcc_readsAfter a false).trans ?_)
  have hother : slotAluAcc x.other ≠ some a := fun h => (slotsApart_of_legal hat.legal).acc a ha (slotAcc_of_alu h)
  refine laneRun_reads_slot hat nofun (Nat.le_succ _) hother fun c ps y hy => ?_
  rw [hr]
  exact reads_putAcc a r (by rw [hy])

/-- An accumulator that the multiplies of a word update, and no ALU slot. -/
theorem laneRun_mac {a : Fin 4} (hat : LaneAtWord l (.compute w) s) (ha : a ∈ mulAccs w) (h0 : slotAluAcc w.slot0 ≠ some a)
    (h1 : slotAluAcc w.slot1 ≠ some a) :
    rdAcc (readsAfter s ((laneRun l (.compute w)).run s) l 1) a true = macVal (laneAt s l) w a ∧
      rdAcc (readsAfter s ((laneRun l (.compute w)).run s) l 3) a false = macVal (laneAt s l) w a := by
  have hreads : ∀ mac n, (laneAt s l).pos + (if mac then 1 else 3) ≤ n →
      (laneAt ((laneRun l (.compute w)).run s) l).reads (.acc a) mac n = (macVal (laneAt s l) w a).toNat := by
    intro mac n hn
    refine laneRun_reads_slots hat nofun (Nat.le_trans (by cases mac <;> simp) hn) fun c ps y hy => ?_
    rw [(slotsEff_issues _ w y).reads (d := .acc a) (fun h => Or.elim h h1 h0), reads_macsLane ha (by rw [hy]; exact hn)]
    rfl
  exact ⟨BitVec.eq_of_toNat_eq ((rdAcc_readsAfter a true).trans (hreads true _ (Nat.le_refl _))),
    BitVec.eq_of_toNat_eq ((rdAcc_readsAfter a false).trans (hreads false _ (Nat.le_refl _)))⟩

end Slot

/-! ### Values -/

section Values

variable {w : Nat} (x y : BitVec w) (n : Nat)

theorem ofInt_max_toInt : BitVec.ofInt w (max x.toInt y.toInt) = if x.toInt < y.toInt then y else x := by
  split
  next h => rw [max_eq_right h.le, BitVec.ofInt_toInt]
  next h => rw [max_eq_left (not_lt.mp h), BitVec.ofInt_toInt]

theorem ofInt_min_toInt : BitVec.ofInt w (min x.toInt y.toInt) = if y.toInt < x.toInt then y else x := by
  split
  next h => rw [min_eq_right h.le, BitVec.ofInt_toInt]
  next h => rw [min_eq_left (not_lt.mp h), BitVec.ofInt_toInt]

theorem sshiftRight_eq_ofInt : x.sshiftRight n = BitVec.ofInt w (x.toInt / 2 ^ n) := by
  rw [← BitVec.ofInt_toInt (x := x.sshiftRight n), BitVec.toInt_sshiftRight, Int.shiftRight_eq_div_pow]
  norm_cast

theorem shiftLeft_eq_ofNat : x <<< n = BitVec.ofNat w (x.toNat * 2 ^ n) :=
  BitVec.eq_of_toNat_eq (by simp [Nat.shiftLeft_eq])

theorem ushiftRight_eq_ofNat : x >>> n = BitVec.ofNat w (x.toNat / 2 ^ n) :=
  BitVec.eq_of_toNat_eq (by
    rw [BitVec.toNat_ushiftRight, Nat.shiftRight_eq_div_pow, BitVec.toNat_ofNat,
      Nat.mod_eq_of_lt ((Nat.div_le_self ..).trans_lt x.isLt)])

theorem ofInt_toInt_add : BitVec.ofInt w (x.toInt + y.toInt) = x + y := by
  rw [BitVec.ofInt_add, BitVec.ofInt_toInt, BitVec.ofInt_toInt]

theorem ofInt_toInt_sub : BitVec.ofInt w (x.toInt - y.toInt) = x - y := by
  rw [Int.sub_eq_add_neg, BitVec.ofInt_add, BitVec.ofInt_neg, BitVec.ofInt_toInt, BitVec.ofInt_toInt, BitVec.sub_eq_add_neg]

end Values

/-! ### The statements -/

/-- Settles O11: the ALU issues the result of its operation, for the second instruction after, and no other part of the word writes the register. -/
theorem laneAluDComplete : Obligations.LaneAluDComplete := by
  intro l h d r n x s L dst src gives
  refine ⟨fun hat => ⟨_, rfl, ?_⟩, fun hat => ⟨_, rfl, ?_⟩, fun hat => ⟨_, rfl, ?_⟩, fun hat => ⟨_, rfl, ?_⟩, fun hat => ⟨_, rfl, ?_⟩,
    fun hat => ⟨_, rfl, ?_⟩, fun hat => ⟨_, rfl, ?_⟩, fun hat => ⟨_, rfl, ?_⟩, fun hat => ⟨_, rfl, ?_⟩, fun hat => ⟨_, rfl, ?_⟩,
    fun hat => ⟨_, rfl, ?_⟩, fun hat => ⟨_, rfl, ?_⟩, fun hat => ⟨_, rfl, ?_⟩⟩
  · exact laneRun_slotD hat rfl (r := bitRes (rdD L r)) fun _ _ _ => rfl
  · exact laneRun_slotD hat rfl (r := satRes (dst + src)) fun _ _ _ => rfl
  · exact laneRun_slotD hat rfl (r := satRes (dst - src)) fun _ _ _ => rfl
  · exact laneRun_slotD hat rfl (r := satRes (-src)) fun _ _ _ => rfl
  · exact laneRun_slotD hat rfl (r := satRes src.natAbs) fun _ _ _ => rfl
  · exact (laneRun_slotD hat rfl (r := bitRes (if dst < src then rdD L r else rdD L d)) fun _ _ _ => rfl).trans
      (ofInt_max_toInt (rdD L d) (rdD L r)).symm
  · exact (laneRun_slotD hat rfl (r := bitRes (if src < dst then rdD L r else rdD L d)) fun _ _ _ => rfl).trans
      (ofInt_min_toInt (rdD L d) (rdD L r)).symm
  · exact laneRun_slotD hat rfl (r := bitRes (rdD L d &&& rdD L r)) fun _ _ _ => rfl
  · exact laneRun_slotD hat rfl (r := bitRes (rdD L d ||| rdD L r)) fun _ _ _ => rfl
  · exact laneRun_slotD hat rfl (r := bitRes (rdD L d ^^^ rdD L r)) fun _ _ _ => rfl
  · exact (laneRun_slotD hat rfl (r := bitRes ((rdD L d).sshiftRight n)) fun _ _ _ => rfl).trans (sshiftRight_eq_ofInt ..)
  · exact (laneRun_slotD hat rfl (r := bitRes (rdD L d <<< n.val)) fun _ _ _ => rfl).trans (shiftLeft_eq_ofNat ..)
  · exact (laneRun_slotD hat rfl (r := bitRes (rdD L d >>> n.val)) fun _ _ _ => rfl).trans (ushiftRight_eq_ofNat ..)

/-- Settles O15: conversions issue a D result, the operations on accumulators an accumulator result, for the second instruction after. -/
theorem laneAccumulatorComplete : Obligations.LaneAccumulatorComplete := by
  intro l h d acc src rm x s L a conv gives
  have hconv : ∀ c, LaneAtWord l (slotWord h (.cv c d acc rm) x) s →
      rdD (readsAfter s ((laneRun l (slotWord h (.cv c d acc rm) x)).run s) l 2) d = (convert c rm (rdAcc L acc false)).val :=
    fun c hat => laneRun_slotD hat rfl fun _ _ _ => rfl
  refine ⟨fun hat => ⟨_, rfl, hconv _ hat⟩, fun hat => ⟨_, rfl, hconv _ hat⟩, fun hat => ⟨_, rfl, hconv _ hat⟩,
    fun hat => ⟨_, rfl, hconv _ hat⟩, fun hat => ⟨_, rfl, ?_⟩, fun hat => ⟨_, rfl, ?_⟩, fun hat => ⟨_, rfl, ?_⟩, fun hat => ⟨_, rfl, ?_⟩⟩
  · exact laneRun_slotAcc hat rfl fun _ _ _ => rfl
  · exact laneRun_slotAcc hat rfl fun _ _ _ => rfl
  · exact (laneRun_slotAcc hat rfl fun _ _ _ => rfl).trans (ofInt_toInt_add (rdAcc L acc false) (rdAcc L src false))
  · exact (laneRun_slotAcc hat rfl fun _ _ _ => rfl).trans (ofInt_toInt_sub (rdAcc L acc false) (rdAcc L src false))

/-! ### Multiplies -/

section Multiply

variable {L : Lane} {a : Fin 4} {op : SlotOp} {h : Half} {x : SlotCtx}

/-- A slot that does not multiply into an accumulator adds nothing to it. -/
theorem mulTerm_other (ha : mulAcc op ≠ some a) (t : Int) : mulTerm L a t op = t := by
  cases op with
  | mac c _ _ | msu c _ _ | mpy c _ _ | mpyn c _ _ => exact if_neg fun hc => ha (congrArg some hc)
  | _ => rfl

/-- Slot `h` alone multiplies into the accumulator. -/
theorem macVal_slot (ha : mulAcc x.other ≠ some a) :
    macVal L (slotCompute h op x) a = BitVec.ofInt 88 (mulTerm L a (aint (rdAcc L a true)) op) := by
  cases h with
  | s0 => exact (congrArg (BitVec.ofInt 88) (mulTerm_other ha _)).trans BitVec.ofInt_toInt
  | s1 =>
    show BitVec.ofInt 88 (mulTerm L a (aint (BitVec.ofInt 88 (mulTerm L a _ x.other))) op) = _
    rw [mulTerm_other ha, aint, aint, BitVec.ofInt_toInt]

/-- What a slot adds to a wrapped total is, modulo 2^88, what it adds to the total. -/
theorem ofInt_mulTerm_wrapped (t : Int) :
    BitVec.ofInt 88 (mulTerm L a (aint (BitVec.ofInt 88 t)) op) = BitVec.ofInt 88 (mulTerm L a t op) := by
  have hsame : BitVec.ofInt 88 (aint (BitVec.ofInt 88 t)) = BitVec.ofInt 88 t := BitVec.ofInt_toInt
  have hadd : ∀ v : Int, BitVec.ofInt 88 (aint (BitVec.ofInt 88 t) + v) = BitVec.ofInt 88 (t + v) := fun v => by
    rw [BitVec.ofInt_add, hsame, BitVec.ofInt_add]
  unfold mulTerm
  split
  · split
    · exact hadd _
    · exact hsame
  · split
    · exact hadd (-_)
    · exact hsame
  · split
    · rfl
    · exact hsame
  · split
    · rfl
    · exact hsame
  · exact hsame

/-- A multiply slot writes no accumulator as an ALU slot. -/
theorem slotAluAcc_of_mul (ha : mulAcc op = some a) (c : Fin 4) : slotAluAcc op ≠ some c := by
  cases op with
  | mac | msu | mpy | mpyn => exact nofun
  | _ => exact nomatch ha

end Multiply

/-- Settles O13: the other slot neither multiplies into the accumulator nor, in a legal word, writes it, so it takes one product. -/
theorem laneMultiplyComplete : Obligations.LaneMultiplyComplete := by
  intro l h acc a b x s hother L old prod gives
  have hval : ∀ op, LaneAtWord l (slotWord h op x) s → mulAcc op = some acc →
      let v := BitVec.ofInt 88 (mulTerm L acc old op)
      rdAcc (readsAfter s ((laneRun l (slotWord h op x)).run s) l 1) acc true = v ∧
        rdAcc (readsAfter s ((laneRun l (slotWord h op x)).run s) l 3) acc false = v := by
    intro op hat hop
    have halu := slotAluAcc_of_mul hop acc
    have halu' : slotAluAcc x.other ≠ some acc := fun hc => (slotsApart_of_legal hat.legal).acc' acc hc (slotAcc_of_mul hop)
    have hone := macVal_slot (L := L) (op := op) (h := h) hother
    rw [slotWord_eq] at hat ⊢
    dsimp only
    rw [← hone]
    cases h with
    | s0 => exact laneRun_mac hat (mem_mulAccs.mpr (.inl hop)) halu halu'
    | s1 => exact laneRun_mac hat (mem_mulAccs.mpr (.inr hop)) halu' halu
  refine ⟨fun hat => ⟨_, rfl, ?_⟩, fun hat => ⟨_, rfl, ?_⟩, fun hat => ⟨_, rfl, ?_⟩, fun hat => ⟨_, rfl, ?_⟩⟩
  all_goals simpa only [mulTerm, if_true] using hval _ hat rfl

/-- The command of a slot's operation comes to the word that it stands in. -/
theorem exec_slotInstr (l : LaneSlot) (h : Half) (x : SlotCtx) (op : SlotOp) (s : State) :
    exec (slotInstr l h x op) s = .next ((laneRun l (slotWord h op x)).run s) := by
  cases op with
  | cv c => cases c <;> rfl
  | _ => rfl

/-- Settles O14: the accumulator takes the two updates one after the other, the first of them wrapped. -/
theorem laneTwoProducts : Obligations.LaneTwoProducts := by
  intro l acc o0 o1 mop u0 u1 s hat h0 h1 L after
  have hafter : ∀ op, mulAcc op = some acc → ∀ t, mulTerm L acc t op = after t op := by
    intro op hop t
    cases op with
    | mac | msu | mpy | mpyn => exact if_pos (Option.some.inj hop)
    | _ => exact nomatch hop
  have hsum : macVal L ⟨o0, o1, mop, u0, u1⟩ acc = BitVec.ofInt 88 (after (after (aint (rdAcc L acc true)) o0) o1) := by
    rw [macVal, ofInt_mulTerm_wrapped, hafter o1 h1, hafter o0 h0]
  refine ⟨_, exec_slotInstr .., exec_slotInstr .., ?_⟩
  exact (laneRun_mac hat (mem_mulAccs.mpr (.inl h0)) (slotAluAcc_of_mul h0 acc) (slotAluAcc_of_mul h1 acc)).1.trans hsum

end Sys2Proof.Machine
end

