-- ==== Sys2Proof/Proofs/LaneMemory.lean ====
section
/-! SUPPORT. Loads and stores of the lane memories (R106–R108, R111, R116, R150–R153, R162). -/

namespace Sys2Proof.Machine

/-! ### The registers that a word loads -/

theorem wordLoads_dests (L : Lane) (w : ComputeWord) : (wordLoads L w).map (·.2.2) = mopDests w.mop := by
  have hside : ∀ y p an d, (sideLoads L y p an d).map (·.2.2) = loadDests p d := fun y p an d => by cases p <;> rfl
  obtain ⟨_, _, mop, _, _⟩ := w
  cases mop with
  | none | sx | sy => rfl
  | lx | ly => exact hside ..
  | lxy => exact List.map_append.trans (congrArg₂ (· ++ ·) (hside ..) (hside ..))

theorem loadDests_distinct {p : Bool} {d : Fin 16} (h : pairEven p d = true) : (loadDests p d).Nodup ∧ ∀ k ∈ loadDests p d, k < 16 := by
  cases p with
  | false => exact ⟨List.nodup_singleton _, fun k hk => List.mem_singleton.mp hk ▸ d.isLt⟩
  | true =>
    have heven : d.val % 2 = 0 := by simpa [pairEven] using h
    have hlt := d.isLt
    simp [loadDests]
    omega

/-- A legal word loads different registers (R162). -/
theorem mopDests_distinct {m : MemOp} (h : mopLegal m = true) : (mopDests m).Nodup ∧ ∀ k ∈ mopDests m, k < 16 := by
  cases m with
  | none | sx | sy => exact ⟨List.nodup_nil, nofun⟩
  | lx p d | ly p d => exact loadDests_distinct h
  | lxy px dx py dy =>
    simp only [mopLegal, Bool.and_eq_true] at h
    obtain ⟨⟨hx, hy⟩, hdisj⟩ := h
    obtain ⟨hnx, hltx⟩ := loadDests_distinct hx
    obtain ⟨hny, hlty⟩ := loadDests_distinct hy
    refine ⟨hnx.append hny ?_, fun k hk => (List.mem_append.mp hk).elim (hltx k) (hlty k)⟩
    intro k hkx hky
    simp at hdisj
    exact hdisj k hkx hky

theorem f16_val (d : Fin 16) : f16 d.val = d := Fin.ext (Nat.mod_eq_of_lt d.isLt)

/-! ### A lane that comes to a load or a store -/

section Memory

variable {l : LaneSlot} {s : State} {w : ComputeWord}

/-- With no store in flight a load reads memory. -/
theorem loadVals_idle (hst : (laneAt s l).stores = []) : loadVals l w s =
    (wordLoads (laneAt s l) w).map fun q => (q.2.2, word40 s (xyAddr l q.1 (q.2.1.toNat % 8192))) := by
  unfold loadVals loadWord
  rw [hst]
  rfl

/-- With no store in flight a fetch changes of its lane the loop cache. -/
theorem fetch_lane_idle (hst : (laneAt s l).stores = []) : ∃ c, laneAt ((fetch l).run s) l = { laneAt s l with cache := c, stores := [] } := by
  obtain ⟨c, hlane⟩ := fetch_lane l s
  rw [hst] at hlane
  exact ⟨c, hlane⟩

theorem wordLoads_fetched (c : List Nat) (ps : List PendStore) (L : Lane) :
    wordLoads { L with cache := c, stores := ps } w = wordLoads L w := rfl

/-- The third instruction after a load reads its word first. -/
theorem laneRun_load (hat : LaneAtWord l (.compute w) s) (hst : (laneAt s l).stores = []) {q : LoadReq} (hq : q ∈ wordLoads (laneAt s l) w) :
    rdD (readsAfter s ((laneRun l (.compute w)).run s) l 3) (f16 q.2.2) = word40 s (xyAddr l q.1 (q.2.1.toNat % 8192)) := by
  obtain ⟨hmop, hslots⟩ := (Bool.and_eq_true ..).mp hat.legal
  have hapart := slotsApart_of_agree hslots
  obtain ⟨hnodup, hlt⟩ := mopDests_distinct hmop
  rw [← wordLoads_dests (laneAt s l) w] at hnodup hlt
  have hval : ∀ q' ∈ wordLoads (laneAt s l) w, (f16 q'.2.2).val = q'.2.2 := fun q' hq' =>
    Nat.mod_eq_of_lt (hlt _ (List.mem_map_of_mem hq'))
  have hload : (f16 q.2.2).val ∈ mopDests w.mop := by
    rw [hval q hq, ← wordLoads_dests (laneAt s l) w]
    exact List.mem_map_of_mem hq
  obtain ⟨c, hlane⟩ := fetch_lane_idle hst
  have hvals : loadVals l w ((fetch l).run s) =
      (wordLoads (laneAt s l) w).map fun q => (q.2.2, word40 s (xyAddr l q.1 (q.2.1.toNat % 8192))) := by
    rw [loadVals_idle (by rw [hlane]), hlane, wordLoads_fetched]
    unfold word40
    rw [fetch_mem hst]
  refine BitVec.eq_of_toNat_eq ((rdD_readsAfter _).trans ?_)
  rw [laneRun_reads_word (e := .d (f16 q.2.2)) hat nofun (Nat.le_add_right ((laneAt s l).pos + 1) 2),
    (slotsEff_issues _ w _).reads (d := .d (f16 q.2.2))
      (fun h => Or.elim h (fun h => hapart.load' _ h hload) fun h => hapart.load _ h hload),
    (issues_macsLane _ w _).reads (d := .d (f16 q.2.2)) (fun ⟨_, h⟩ => LaneDest.noConfusion h), hvals, hlane]
  refine reads_foldl (f := fun L (v : Nat × W40) => putD (f16 v.1) v.2 3 L) (W := fun v => f16 v.1 = f16 q.2.2)
    (fun _ _ => rfl) (fun v hv L' hw hL' => ?_) (fun v L' hw => ?_) rfl ⟨_, List.mem_map_of_mem hq, rfl⟩
  · obtain ⟨q', hq', rfl⟩ := List.mem_map.mp hv
    have hsame : q'.2.2 = q.2.2 := by rw [← hval q' hq', hw, hval q hq]
    obtain rfl := List.inj_on_of_nodup_map hnodup hq' hq hsame
    exact reads_putD _ _ (by rw [hL'])
  · exact (issues_putD (f16 v.1) v.2 3 L').reads (fun he => hw (LaneDest.d.inj he).symm) ..

/-- The first word of a load, and the second of a pair. -/
theorem mem_sideLoads (L : Lane) (y p : Bool) (an d : Fin 16) : (y, rdA L an, d.val) ∈ sideLoads L y p an d ∧
    (p = true → (y, partner (rdA L an) (rdLen L an), d.val + 1) ∈ sideLoads L y p an d) := by
  cases p with
  | false => exact ⟨List.mem_singleton_self _, nofun⟩
  | true => exact ⟨List.mem_cons_self, fun _ => List.mem_cons_of_mem _ List.mem_cons_self⟩

/-- One side of the loads of a word: its first register and, of a pair, the next one. -/
theorem laneRun_side (hat : LaneAtWord l (.compute w) s) (hst : (laneAt s l).stores = []) {y p : Bool} {an d : Fin 16}
    (hside : ∀ q ∈ sideLoads (laneAt s l) y p an d, q ∈ wordLoads (laneAt s l) w) :
    rdD (readsAfter s ((laneRun l (.compute w)).run s) l 3) d = word40 s (xyAddr l y ((rdA (laneAt s l) an).toNat % 8192)) ∧
      (p = true → rdD (readsAfter s ((laneRun l (.compute w)).run s) l 3) (nextD d) =
        word40 s (xyAddr l y ((partner (rdA (laneAt s l) an) (rdLen (laneAt s l) an)).toNat % 8192))) := by
  obtain ⟨hone, htwo⟩ := mem_sideLoads (laneAt s l) y p an d
  have hfirst := laneRun_load hat hst (hside _ hone)
  rw [f16_val] at hfirst
  exact ⟨hfirst, fun hp => laneRun_load hat hst (hside _ (htwo hp))⟩

/-- The stores of a word are in flight after it. -/
theorem laneRun_stores (hat : LaneAtWord l (.compute w) s) (hst : (laneAt s l).stores = []) {ps : List PendStore}
    (hps : ∀ c, ∀ x : SlotEff, x.lane.stores = [] → x.lane.pos = (laneAt s l).pos →
      (storeEff { laneAt s l with cache := c, stores := [] } w x).1.lane.stores = ps) :
    (laneAt ((laneRun l (.compute w)).run s) l).stores = ps := by
  obtain ⟨stall, o, hrun⟩ := laneRun_compute hat
  obtain ⟨c, hlane⟩ := fetch_lane_idle hst
  rw [hrun, hlane, computeEff_lane]
  generalize loadVals l w ((fetch l).run s) = vs
  generalize hL0 : ({ laneAt s l with cache := c, stores := [] } : Lane) = L0
  have hloads := issues_loadsLane vs L0
  have hmacs := issues_macsLane L0 w (loadsLane vs L0)
  have hslots := slotsEff_issues L0 w ⟨loadsLane vs L0, false, false⟩
  have hidle : (slotsEff L0 w ⟨loadsLane vs L0, false, false⟩).lane.stores = [] := by
    rw [hslots.stores, hmacs.stores, hloads.stores, ← hL0]
  have hpos : (slotsEff L0 w ⟨loadsLane vs L0, false, false⟩).lane.pos = (laneAt s l).pos := by
    rw [hslots.pos, hmacs.pos, hloads.pos, ← hL0]
  refine (advancePos_stores _).trans (((issues_addrUpds L0 w.u0 w.u1 _).stores).trans ?_)
  rw [← hps c _ hidle hpos, hL0]

end Memory

/-- Settles O16: no other part of the word writes the registers that it loads, and its stores join those in flight. -/
theorem laneMemoryComplete : Obligations.LaneMemoryComplete := by
  intro l p q d e r acc c rm x s L xw yw a0 a1 p0 p1 st cvd hst
  refine ⟨fun hat => ⟨_, rfl, laneRun_side hat hst fun _ hq => hq⟩, fun hat => ⟨_, rfl, laneRun_side hat hst fun _ hq => hq⟩,
    fun hat => ⟨_, rfl, ?_⟩, fun hat => ⟨_, rfl, ?_⟩, fun hat => ⟨_, rfl, ?_⟩, fun hat _ => ⟨_, rfl, ?_⟩, fun hat => ⟨_, rfl, ?_⟩,
    fun hat => ⟨_, rfl, ?_⟩, fun hat _ => ⟨_, rfl, ?_⟩⟩
  · obtain ⟨hx, hx'⟩ := laneRun_side (y := false) (p := p) (an := x.u0.an) (d := d) hat hst fun _ hq => List.mem_append_left _ hq
    obtain ⟨hy, hy'⟩ := laneRun_side (y := true) (p := q) (an := x.u1.an) (d := e) hat hst fun _ hq => List.mem_append_right _ hq
    exact ⟨hx, hy, hx', hy'⟩
  all_goals
    refine laneRun_stores hat hst fun c y hidle hpos => ?_
    simp only [storeEff, wordStore, putStore, hidle, hpos]
    rfl

end Sys2Proof.Machine
end

