-- ==== Sys2Proof/Proofs/LaneFaults.lean ====
section
/-! SUPPORT. The registers of the lane windows, and a lane that faults (R125, R132, R139, R140, R156). -/

namespace Sys2Proof.Machine

/-! ### The registers of a lane slot -/

section LaneRegs

variable {r r' : Reg} (hd : r.dims = [(16, 0x1000000), (17, 0x40000)]) (hp : r.perMaster = false) (hb : r.base + 4 * r.words ≤ 0x40000)
include hd hp

theorem laneReg_key (l w m : Nat) : r.key l w m = r.base + l / 17 * 0x1000000 + l % 17 * 0x40000 + 4 * w := by
  simp [Reg.key, laneReg_addr hd, hp]

include hb

/-- No event and no access error is recorded in the window of a lane. -/
theorem laneReg_out (l : LaneSlot) (m : Nat) : WordsOut errRegs r l m := fun w hw => by
  have hl := l.isLt
  rw [laneReg_key hd hp]
  exact errRegs_off (by omega) (by omega) (by omega) (by omega) (by omega) (by omega)

theorem laneReg_out_raise (l : LaneSlot) (m : Nat) : WordsOut raiseRegs r l m := fun w hw =>
  Bool.eq_false_iff.mpr fun h => absurd (errRegs_of_raise h) (by rw [laneReg_out hd hp hb l m w hw]; exact Bool.false_ne_true)

/-- The fault flags of a gallery are apart from the windows of its lanes. -/
theorem laneReg_apart_galFault (l g m n : Nat) : Apart r l m R.GAL_FAULT g n := fun w hw w' hw' => by
  have hw' : w' < 1 := hw'
  rw [laneReg_key hd hp, key_one (r := R.GAL_FAULT) rfl rfl, show R.GAL_FAULT.base = 0xF30000 from rfl]
  omega

end LaneRegs

/-! ### A lane that faults -/

section Fault

variable {l : LaneSlot} {s : State} {code addr : Nat}

/-- What `LANE_FAULT` takes (R125). -/
def faultWord (l : Nat) (s : State) (code addr : Nat) : Nat :=
  tickNum s % 2 ^ 24 + addr % 2 ^ 18 * 2 ^ 24 + (laneAt s l).pc % 4096 * 2 ^ 44 + code % 16 * 2 ^ 56 + 2 ^ 63

/-- A lane that faults stands in FAULT with its stacks empty. -/
theorem laneFault_lane (l : Nat) (s : State) (code addr : Nat) : (laneAt ((laneFault l code addr).run s) l).st = .fault ∧
    (laneAt ((laneFault l code addr).run s) l).reps = [] ∧ (laneAt ((laneFault l code addr).run s) l).rets = [] := by
  unfold laneFault
  rw [run_look]
  dsimp only
  rw [run_acts_cons, run_acts_cons, run_acts_cons, run_acts_cons, run_acts_cons, run_acts_nil,
    laneAt_touches (touches_raise _ _ _ _ _) (by decide) (by decide), laneAt_touches (ks := [.reg]) (by simp) (by decide) (by decide),
    laneAt_touches (ks := [.reg]) (by simp) (by decide) (by decide), laneAt_setLane]
  exact ⟨rfl, rfl, rfl⟩

/-- `LANE_FAULT` shows the code, the address of the word and the address of the data. -/
theorem laneFault_reg (l : LaneSlot) (s : State) (code addr : Nat) :
    R.LANE_FAULT.val l ((laneFault l code addr).run s) = faultWord l s code addr % 2 ^ 64 := by
  unfold laneFault
  rw [run_look]
  dsimp only
  rw [run_acts_cons, run_acts_cons, run_acts_cons, run_acts_cons, run_acts_cons, run_acts_nil,
    val_stores (stores_raise _ _ _ _ _) (laneReg_out_raise (r := R.LANE_FAULT) rfl rfl (by decide) l 0)]
  exact (val_set_apart (laneReg_apart_galFault (r := R.LANE_FAULT) rfl rfl (by decide) _ _ _ _) _ _).trans (val_set ..)

/-- So it is valid, and its code and its PC are those of the fault. -/
theorem laneFault_fields (hpc : (laneAt s l).pc < 4096) : let t := (laneFault l code addr).run s
    F.LANE_FAULT_VALID.get l t = 1 ∧ F.LANE_FAULT_CODE.get l t = code % 16 ∧ F.LANE_FAULT_PC.get l t = (laneAt s l).pc := by
  show bitsOf (R.LANE_FAULT.val ..) 63 63 = 1 ∧ bitsOf (R.LANE_FAULT.val ..) 59 56 = code % 16 ∧ bitsOf (R.LANE_FAULT.val ..) 55 44 = _
  rw [laneFault_reg]
  unfold faultWord bitsOf
  omega

end Fault

/-- Settles O20: the lane comes to the word at its pc, which does not decode, and faults with code 5. -/
theorem laneIllegalWordFaults : Obligations.LaneIllegalWordFaults := by
  intro l cc tg s hst hret hhalt hclean hcode hpc
  have hrun : (laneRun l (.control (.jmp cc tg))).run s = (laneFault l 5 0).run s :=
    (laneRun_run hst hret hhalt _).trans (issueWord_illegal hclean hcode _)
  obtain ⟨hfault, hreps, hrets⟩ := laneFault_lane l s 5 0
  rw [← hrun] at hfault hreps hrets
  exact ⟨_, rfl, hfault, hreps, hrets, by rw [hrun]; exact laneFault_fields hpc⟩

end Sys2Proof.Machine
end

