-- ==== Sys2Proof/Proofs/LaneWindow.lean ====
section
/-! SUPPORT. The window commands of a lane: halt, resume, step, fault clear, the PC and the frame sizes (R124, R130, R131, R135, R137). -/

namespace Sys2Proof.Machine

/-! ### A lane that halts -/

section Halt

variable {l : Nat} {s : State}

/-- Every store in flight holds the word that it replaced. -/
theorem oldWords_old (mem : PendStore → W40) : ∀ (xs before : List PendStore), ∀ x ∈ oldWords mem before xs, x.old.isSome = true
  | [], _ => nofun
  | _ :: xs, _ => fun _ hx => (List.mem_cons.mp hx).elim (fun h => h ▸ rfl) (oldWords_old mem xs _ _)

/-- A lane that halts keeps its stores with the words that they replace. -/
theorem storesHalt_lane (l : Nat) (s : State) : laneAt ((storesHalt l).run s) l = { laneAt s l with
    stores := oldWords (fun x => word40 s (xyAddr l x.y x.addr)) [] (laneAt s l).stores } := by
  unfold storesHalt
  rw [run_look, run_seq, laneAt_setLane, laneAt_touches (ks := [.mem, .ecc]) _ (by decide) (by decide)]
  exact within_forEach.mpr fun x _ => touches_putWord40 (by decide) (by decide) _ _

/-- Its one store is written. -/
theorem storesHalt_word {x : PendStore} (hx : (laneAt s l).stores = [x]) (hold : x.old = none) (hwf : Memory.wf s.mem = true) :
    word40 ((storesHalt l).run s) (xyAddr l x.y x.addr) = x.val := by
  have hstores : (laneAt s l).stores.filter (·.old.isNone) = [x] := by rw [hx, List.filter_singleton, hold]; rfl
  have hmem : ((storesHalt l).run s).mem = ((setWord40 (xyAddr l x.y x.addr) x.val).run s).mem := by
    unfold storesHalt
    rw [run_look, run_seq, mem_setLane, hstores, run_forEach_cons]
    exact touches_mem (touches_eccFull (ks := [.ecc]) (by decide) _ _) (by decide) (by decide) _
  exact (congrArg (fun mem => BitVec.ofNat 40 (memLe mem (xyAddr l x.y x.addr) 5)) hmem).trans (word40_setWord40 hwf _ _)

/-- The boundary at which a requested halt takes effect. -/
theorem laneHaltEnter_run (hhalt : F.LANE_CTRL_HALT.on l s = true) (hst : (laneAt s l).st = .run ∨ (laneAt s l).st = .stall)
    (hreps : (laneAt s l).reps = []) (hret : (laneAt s l).stepRet = none) :
    (laneHaltEnter l).run s = (setLane l fun L => { L with st := .halt, cause := .none }).run ((storesHalt l).run s) := by
  unfold laneHaltEnter
  rw [run_look]
  dsimp only
  rw [if_pos (by simp [hhalt, hst, hreps, hret]), run_seq]

end Halt

/-! ### A step -/

/-- A step whose one instruction issues results and goes on at the next address ends in the state that it began in (R131). -/
theorem doMove_step {l : Nat} {s : State} {r : LaneSt} {f : Lane → Lane} (hst : (laneAt s l).st = .run) (hret : (laneAt s l).stepRet = some r)
    (hreps : (laneAt s l).reps = []) (hstores : (laneAt s l).stores = []) (hpc : (laneAt s l).pc + 1 < 4096)
    {p : LaneDest → Prop} (hf : Issues p (laneAt s l) (f (laneAt s l))) :
    laneAt ((doMove l f).run s) l = { retired 1 0 false (f (laneAt s l)) with st := r, stepRet := none, stores := [] } := by
  obtain ⟨rs, hframe⟩ := hf.frame
  have hlane : laneAt ((setLane l f).run s) l = f (laneAt s l) := laneAt_setLane ..
  have hnext : nextPc (f (laneAt s l)).reps (f (laneAt s l)).pc = ([], (laneAt s l).pc + 1) := by rw [hframe, hreps]; rfl
  have hmin : min ((laneAt s l).pc + 1) 4095 = (laneAt s l).pc + 1 := by omega
  have hend : ∀ u, laneAt u l = retired 1 0 false (f (laneAt s l)) →
      laneAt ((stepEnd l).run u) l = { retired 1 0 false (f (laneAt s l)) with st := r, stepRet := none, stores := [] } := by
    intro u hu
    have hret' : (laneAt u l).stepRet = some r := by rw [hu]; exact (advancePos_stepRet _).trans (by rw [hframe]; exact hret)
    have hreps' : (laneAt u l).reps = [] := by rw [hu]; exact congrArg Prod.fst hnext
    have hst' : (laneAt u l).st = .run := by rw [hu, hframe]; simp [retired, hst]
    have hstores' : (laneAt u l).stores = [] := by rw [hu]; exact (advancePos_stores _).trans (by rw [hframe]; exact hstores)
    unfold stepEnd
    rw [run_look]
    dsimp only
    rw [hret']
    dsimp only
    rw [if_pos (by simp [hreps', hst']), run_seq, laneAt_setLane, storesHalt_lane]
    dsimp only
    rw [hst', hstores', ← hu]
    rfl
  unfold doMove retireNext retire
  rw [run_seq, run_look]
  dsimp only
  rw [hlane, hnext]
  dsimp only
  rw [hmin, run_acts_cons, run_acts_cons, run_acts_cons, run_acts_nil, onlyIf, if_neg (by simp; omega), run_done]
  refine hend _ ((laneAt_setLane ..).trans ?_)
  rw [hlane, retired, hnext]

/-- STEP of a lane in HALT at a move: the lane has executed it and stands in HALT again. -/
theorem laneActBits_step {m : Nat} {l : LaneSlot} {s : State} {w : ControlWord} {f : Lane → Lane} (hst : (laneAt s l).st = .halt)
    (hreps : (laneAt s l).reps = []) (hstores : (laneAt s l).stores = []) (hpc : (laneAt s l).pc + 1 < 4096) (hc : s.ecc.marks = [])
    (hcode : decodeLane (word64 s (progAddr l (laneAt s l).pc)) = some (.control w)) (hw : doControl l w = doMove l f)
    {p : LaneDest → Prop} (hf : ∀ L, Issues p L (f L)) : ∃ c, laneAt ((laneActBits m l true false).run s) l =
      { retired 1 0 false (f { laneAt s l with st := .run, stepRet := some .halt, cache := c, stores := [] }) with
        st := .halt, stepRet := none, stores := [] } := by
  generalize hu : (setLane l fun L => { L with st := .run, stepRet := some L.st }).run s = u
  have hlane : laneAt u l = { laneAt s l with st := .run, stepRet := some .halt } := by rw [← hu, laneAt_setLane, hst]
  have hclean : u.ecc.marks = [] := by rw [← hu]; exact hc
  have hcode : decodeLane (word64 u (progAddr l (laneAt u l).pc)) = some (.control w) := by rw [hlane, ← hu]; exact hcode
  obtain ⟨c, hfetch⟩ := fetch_lane_idle (l := l) (s := u) (by rw [hlane]; exact hstores)
  rw [hlane] at hfetch
  have hissue := issueWord_run hclean hcode (want := none) (.inl rfl)
  have hmove := doMove_step (l := l) (s := (fetch l).run u) (r := .halt) (f := f) (by rw [hfetch]) (by rw [hfetch]) (by rw [hfetch]; exact hreps)
    (by rw [hfetch]) (by rw [hfetch]; exact hpc) (hf _)
  rw [← hw, ← doWord, ← hissue, hfetch] at hmove
  have hidle : (stepOn l stepFuel).run ((issueWord l none).run u) = (issueWord l none).run u := stepOn_idle (by rw [hmove]) _
  have hrun : (laneActBits m l true false).run s = (issueWord l none).run u := by
    unfold laneActBits stepTaken
    rw [run_look]
    dsimp only
    rw [hst]
    simp only [onlyIf, run_acts_cons, run_acts_nil, run_seq, run_done, hu, hidle, decide_true, Bool.true_or, Bool.not_true, Bool.and_false,
      Bool.not_false, Bool.and_self, Bool.false_and, Bool.or_self, if_true, Bool.false_eq_true, if_false]
  exact ⟨c, by rw [hrun, hmove]⟩

/-! ### HALT, the end of a fault, the PC and the frame sizes -/

/-- A write of HALT. -/
theorem laneHaltBit_run {l v : Nat} {s : State} : F.LANE_CTRL_HALT.get l ((laneHaltBit l v).run s) = v % 2 ∧
    laneAt ((laneHaltBit l v).run s) l = if v = 0 ∧ (laneAt s l).st = .halt then { laneAt s l with st := .run } else laneAt s l := by
  have hset : laneAt ((F.LANE_CTRL_HALT.set l v).run s) l = laneAt s l :=
    laneAt_touches (ks := [.reg]) (by simp) (by decide) (by decide) l s
  have hget : F.LANE_CTRL_HALT.get l ((F.LANE_CTRL_HALT.set l v).run s) = v % 2 := get_set _ _ _ _ _ (by decide) (by decide)
  unfold laneHaltBit
  rw [run_look, run_seq]
  dsimp only
  by_cases h : v = 0 ∧ (laneAt s l).st = .halt
  · rw [onlyIf, if_pos (by simpa using h), if_pos h, laneAt_setLane, hset]
    exact ⟨hget, rfl⟩
  · rw [onlyIf, if_neg (by simpa using h), if_neg h, run_done]
    exact ⟨hget, hset⟩

/-- A bit just cleared in a field of fault flags. -/
theorem bitOf_putBits_zero (x b : Nat) {n : Nat} (h : b < n) : bitOf (putBits x b b 0 % 2 ^ n) b = false := by
  have hbit : putBits x b b 0 / 2 ^ b % 2 = 0 := by simpa [bitsOf] using bitsOf_putBits x 0 (hi := b) (lo := b) (Nat.le_succ b)
  have hcut : putBits x b b 0 % 2 ^ n / 2 ^ b % 2 = putBits x b b 0 / 2 ^ b % 2 := by
    have := Nat.testBit_mod_two_pow (putBits x b b 0) n b
    simp only [Nat.testBit_eq_decide_div_mod_eq, h, decide_true, Bool.true_and, decide_eq_decide] at this
    omega
  rw [bitOf, hcut, hbit]
  rfl

/-- FCLR ends a fault, and its flags go (R130). -/
theorem laneActBits_fclr {m : Nat} {l : LaneSlot} {s : State} (hin : laneIn s l = none) (hst : (laneAt s l).st = .fault) :
    let t := (laneActBits m l false true).run s
    (laneAt t l).st = .idle ∧ F.LANE_FAULT_VALID.get l t = 0 ∧ bitOf (F.GAL_FAULT_SLOT.get (l / 17) t) (l % 17) = false := by
  have hrun : (laneActBits m l false true).run s = (laneFclr l).run s := by
    unfold laneActBits
    rw [run_look]
    dsimp only
    simp only [hin, onlyIf, run_acts_cons, run_acts_nil, run_done, Bool.false_and, Bool.and_false, Option.isSome_none, Bool.not_false,
      Bool.and_self, Bool.or_self, if_true, Bool.false_eq_true, if_false]
  dsimp only
  rw [hrun]
  unfold laneFclr
  rw [run_look, if_pos hst, run_acts_cons, run_acts_cons, run_acts_cons, run_acts_nil]
  refine ⟨?_, ?_, ?_⟩
  · rw [laneAt_touches (ks := [.reg]) (by simp) (by decide) (by decide), laneAt_touches (ks := [.reg]) (by simp) (by decide) (by decide),
      laneAt_setLane]
  · rw [get_set_apart _ _ (laneReg_apart_galFault (r := R.LANE_FAULT) rfl rfl (by decide) _ _ _ _)]
    exact get_set _ _ _ _ _ (by decide) (by decide)
  · rw [get_set _ _ _ _ _ (by decide) (by decide)]
    exact bitOf_putBits_zero _ _ (Nat.mod_lt _ (by decide))

/-- A write of `LANE_FRAME` that fits is stored, and acts at the next edge (R137). -/
theorem wrLaneFrame_stores {m : Nat} {l : LaneSlot} {v : Nat} {s : State} (hlock : s.lock = false) (hout : F.LANE_FRAME_OUT_CH.of v ≤ 64)
    (hin : F.LANE_FRAME_IN_CH.of v ≤ 256) (hfit : F.LANE_FRAME_IN_CH.of v * spt (rated s) ≤ 4096) :
    let t := (wrLaneFrame m l v (fullMask 1)).run s
    F.LANE_FRAME_OUT_CH.get l t = F.LANE_FRAME_OUT_CH.of v ∧ F.LANE_FRAME_IN_CH.get l t = F.LANE_FRAME_IN_CH.of v ∧
      R.LANE_FRAME.liveVal l t = R.LANE_FRAME.liveVal l s := by
  obtain ⟨houtw, hinw⟩ := laneFrame_asWritten l m v s
  have hok : FldsOk 1 [F.LANE_FRAME_OUT_CH, F.LANE_FRAME_IN_CH] := by unfold FldsOk; decide
  have hrun : (wrLaneFrame m l v (fullMask 1)).run s =
      (storeWrite (entryOf R.LANE_FRAME) l m v (fullMask 1) (R.LANE_FRAME.addr l)).run s := by
    unfold wrLaneFrame
    rw [run_look]
    dsimp only
    rw [houtw, hinw, if_neg (by simp; omega)]
  have hfield : ∀ f ∈ [F.LANE_FRAME_OUT_CH, F.LANE_FRAME_IN_CH], f.reg = R.LANE_FRAME → f.acc = .rw → f.unlisted = [] →
      f.get l ((storeWrite (entryOf R.LANE_FRAME) l m v (fullMask 1) (R.LANE_FRAME.addr l)).run s) = f.of v := by
    intro f hf hreg hacc hun
    have hget := storeWrite_field (entryOf R.LANE_FRAME) l m v (R.LANE_FRAME.addr l) false false s
      (laneReg_out (r := R.LANE_FRAME) rfl rfl (by decide) l m) (tieLost_none ..) hok hf hreg
    rw [get_master (by rw [hreg]; rfl)] at hget
    exact hget.trans (by simp [fieldAfter, hacc, hun, hlock])
  dsimp only
  rw [hrun]
  exact ⟨hfield _ (by simp) rfl rfl rfl, hfield _ (by simp) rfl rfl rfl,
    liveVal_congr (touches_live (touches_storeWrite ..) (by decide) (by decide) s) ..⟩

/-- Settles O24: each command by what its act does at the lane, a step by the one instruction that it executes. -/
theorem laneWindowCommandsComplete : Obligations.LaneWindowCommandsComplete := by
  intro m l s
  refine ⟨fun h => ⟨_, rfl, ?_⟩, fun hhalt hst hreps hret => ⟨_, rfl, ?_⟩, fun h hst => ⟨_, rfl, ?_⟩,
    fun d v h hst hreps hc hstores hcode hpc => ⟨_, rfl, ?_⟩, fun h hin hst => ⟨_, rfl, ?_⟩, fun v h hrel hst => ⟨_, rfl, ?_⟩,
    fun v h hrel hlock hout hin hfit => ⟨_, rfl, ?_⟩⟩
  · obtain ⟨b, r, q, w, hrun⟩ := arrive_atTarget h 0xF 1 (laneHaltBit l 1)
    obtain ⟨hget, hlane⟩ := laneHaltBit_run (l := l) (v := 1) (s := atTarget b r q w s)
    rw [hrun]
    exact ⟨hget, hlane⟩
  · rw [laneHaltEnter_run hhalt hst hreps hret, laneAt_setLane, storesHalt_lane]
    refine ⟨rfl, rfl, rfl, oldWords_old _ _ _, fun x hx hold hwf => ?_⟩
    exact storesHalt_word hx hold hwf
  · obtain ⟨b, r, q, w, hrun⟩ := arrive_atTarget h 0xF 0 (laneHaltBit l 0)
    obtain ⟨hget, hlane⟩ := laneHaltBit_run (l := l) (v := 0) (s := atTarget b r q w s)
    rw [if_pos ⟨rfl, hst⟩] at hlane
    rw [hrun, hlane]
    exact ⟨hget, rfl, rfl⟩
  · obtain ⟨b, r, q, w, hrun⟩ := arrive_atTarget h 0xF (2 + F.LANE_CTRL_HALT.get l s) (laneActBits m l true false)
    obtain ⟨c, hlane⟩ := laneActBits_step (m := m) (s := atTarget b r q w s) hst hreps hstores (by exact Nat.succ_lt_succ hpc) hc hcode rfl
      (issues_putD d v 2)
    refine ⟨?_, ?_, ?_, BitVec.eq_of_toNat_eq ((rdD_readsAfter d).trans ?_)⟩
    all_goals rw [hrun, hlane]
    · show (nextPc (laneAt s l).reps (laneAt s l).pc).2 = _
      rw [hreps]
      rfl
    · exact (reads_retired_putRes (.d d) v.toNat _).trans (Nat.mod_eq_of_lt v.isLt)
  · obtain ⟨b, r, q, w, hrun⟩ := arrive_atTarget h 0xF (4 + F.LANE_CTRL_HALT.get l s) (laneActBits m l false true)
    rw [hrun]
    exact laneActBits_fclr (s := atTarget b r q w s) hin hst
  · obtain ⟨b, r, q, w, hrun⟩ := arrive_atTarget h 0xF v.toNat
      (whenNotReleased (.master m) l (R.LANE_PC.addr l) (.write .b4 (v.setWidth 64)) (wrLanePc m l v.toNat))
    rw [hrun, whenNotReleased_run (s := atTarget b r q w s) hrel, wrLanePc, run_look]
    dsimp only
    rw [if_neg (by exact hst), laneAt_setLane]
  · obtain ⟨b, r, q, w, hrun⟩ := arrive_atTarget h 0xF v.toNat (whenNotReleased (.master m) l (R.LANE_FRAME.addr l)
      (.write .b4 (v.setWidth 64)) (wrLaneFrame m l v.toNat (fullMask 1)))
    rw [hrun, whenNotReleased_run (s := atTarget b r q w s) hrel]
    rw [← spt_rated_atTarget b r q w s] at hfit
    exact wrLaneFrame_stores hlock hout hin hfit

end Sys2Proof.Machine
end

