-- ==== Sys2Proof/Proofs/LaneQueues.lean ====
section
/-! SUPPORT. The queue ports of the lanes (R110, R159, R365, R367, R368). -/

namespace Sys2Proof.Machine

/-! ### What the pool does beside the lanes -/

/-- What an operation on a queue can change: the pool, codewords, and what an event reaches. -/
abbrev poolKinds : List Kind := .pool :: .ecc :: raiseKinds

theorem touches_setQueue {ks : List Kind} (h : Kind.pool ∈ ks) (q : Nat) (f : PoolQ → PoolQ) : (setQueue q f).Touches ks :=
  touches_setPool h _

theorem touches_queueMark (q : Nat) : (queueMark q).Touches poolKinds := by
  simp [queueMark, touches_setQueue]

theorem touches_poolMark : poolMark.Touches poolKinds := by
  unfold poolMark
  rw [touches_look]
  intro s
  dsimp only
  split <;> simp

theorem touches_countFree : countFree.Touches poolKinds := by
  simp [countFree, touches_poolMark]

theorem touches_releaseCell (c q : Nat) : (releaseCell c q).Touches poolKinds := by
  simp [releaseCell, setTag, setFree, touches_setQueue, touches_countFree, eccFresh]

section Ports

variable {l : LaneSlot} {s t : State} {d p : Fin 16} {n q : Nat}

/-- Which lane a slot holds rests on the values in force. -/
theorem laneIn_congr (h : t.live = s.live) (l : Nat) : laneIn t l = laneIn s l := by
  unfold laneIn slotOf
  simp only [liveVal_congr h]

/-- So do the bindings of its ports. -/
theorem laneBound_congr (h : t.live = s.live) (n p : Nat) (write : Bool) : laneBound n p write t = laneBound n p write s := by
  have hqueue : F.POOL_LPORT_QUEUE.live (16 * n + p) t = F.POOL_LPORT_QUEUE.live (16 * n + p) s :=
    congrArg (bitsOf · _ _) (liveVal_congr h ..)
  unfold laneBound
  dsimp only
  rw [liveOn_congr h, liveOn_congr h, hqueue]

/-! ### QRD -/

theorem touches_grantUplink (l : Nat) : (grantUplink l).Touches [.bus] := by
  unfold grantUplink grantAt
  exact touches_setBus (by decide) _

/-- A queue that holds a word gives it, and the operation goes on with no lane changed. -/
theorem readWord_run {id : Nat} {ev : Ev} {k : Option (W40 × Bool) → Act} (hc : s.ecc.marks = []) (hwhole : (queueAt s q).broken = false)
    (hword : wordEmpty (queueAt s q) = false) : ∃ a : Act, a.Touches poolKinds ∧ (readWord q id ev k).run s =
      (k (some (word40 s (cellAddr (queueAt s q).head + 8 * (queueAt s q).rd), true))).run (a.run s) := by
  generalize ha : cellAddr (queueAt s q).head + 8 * (queueAt s q).rd = a
  have hgive : ∀ step : Act, step.Touches poolKinds → ∃ a' : Act, a'.Touches poolKinds ∧
      (eccRead a 8 id (some ev) fun ok => acts [step, queueMark q, k (some (if ok then word40 s a else 0, ok))]).run s =
        (k (some (word40 s a, true))).run (a'.run s) := by
    intro step hstep
    refine ⟨.seq step (queueMark q), ⟨hstep, touches_queueMark q⟩, ?_⟩
    unfold eccRead marksIn
    rw [run_look, hc]
    rfl
  unfold readWord
  rw [run_look]
  dsimp only
  rw [hwhole, hword, if_neg (by decide), if_neg (by decide), ha]
  split
  · have htag : ∀ k : Nat → Bool → Act, (readTag (queueAt s q).head k).run s = (k (tagOf s (queueAt s q).head) true).run s := by
      intro k
      unfold readTag eccReadKey
      rw [run_look, hc]
      rfl
    rw [htag, if_pos rfl]
    exact hgive _ (by simp [touches_setQueue, touches_releaseCell])
  · exact hgive _ (touches_setQueue (ks := poolKinds) (by decide) _ _)

/-- QRD of a bound port that holds a word issues it, with no lane changed before. -/
theorem doQrd_word (hin : laneIn s l = some n) (hbound : laneBound n p false s = some q) (hc : s.ecc.marks = [])
    (hwhole : (queueAt s q).broken = false) (hword : wordEmpty (queueAt s q) = false) : ∃ u, laneAt u l = laneAt s l ∧
      (doQrd l d p).run s = (doMove l (putD d (word40 s (cellAddr (queueAt s q).head + 8 * (queueAt s q).rd)) 1)).run u := by
  have hpool : queueAt ((grantUplink l).run s) q = queueAt s q := rfl
  obtain ⟨a, htouch, hread⟩ := readWord_run (s := (grantUplink l).run s) (q := q) (id := laneId l) (ev := .ECC_UE_QRD)
    (k := fun r => match r with
      | some (v, _) => doMove l (putD d v 1)
      | none => doStall l .qrd) hc hwhole hword
  refine ⟨a.run ((grantUplink l).run s), ?_, ?_⟩
  · rw [laneAt_touches htouch (by decide) (by decide), laneAt_touches (touches_grantUplink l) (by decide) (by decide)]
  · unfold doQrd
    rw [run_look, hin]
    dsimp only
    rw [hbound]
    exact hread

/-- The next instruction reads the word first. -/
theorem doQrd_lane (hin : laneIn s l = some n) (hbound : laneBound n p false s = some q) (hc : s.ecc.marks = [])
    (hwhole : (queueAt s q).broken = false) (hword : wordEmpty (queueAt s q) = false) (hret : (laneAt s l).stepRet = none)
    (hnext : (nextPc (laneAt s l).reps (laneAt s l).pc).2 < 4096) : laneAt ((doQrd l d p).run s) l =
      retired 1 0 false (putD d (word40 s (cellAddr (queueAt s q).head + 8 * (queueAt s q).rd)) 1 (laneAt s l)) := by
  obtain ⟨u, hu, hrun⟩ := doQrd_word hin hbound hc hwhole hword
  rw [hrun, doMove_lane (by rw [hu]; exact hret) (by rw [hu]; exact hnext) (issues_putD ..), hu]

/-- QRD of a bound port that holds none stalls the lane. -/
theorem doQrd_empty (hin : laneIn s l = some n) (hbound : laneBound n p false s = some q) (hwhole : (queueAt s q).broken = false)
    (hword : wordEmpty (queueAt s q) = true) : laneAt ((doQrd l d p).run s) l = { laneAt s l with st := .stall, cause := .qrd } := by
  have hread : ∀ k, (readWord q (laneId l) .ECC_UE_QRD k).run ((grantUplink l).run s) = (k none).run ((grantUplink l).run s) := by
    intro k
    have hwhole : (queueAt ((grantUplink l).run s) q).broken = false := hwhole
    have hword : wordEmpty (queueAt ((grantUplink l).run s) q) = true := hword
    unfold readWord
    rw [run_look]
    dsimp only
    rw [hwhole, hword, if_neg (by decide), if_pos rfl]
  unfold doQrd
  rw [run_look, hin]
  dsimp only
  rw [hbound]
  dsimp only
  rw [run_seq, hread, doStall, laneAt_setLane, laneAt_touches (touches_grantUplink l) (by decide) (by decide)]

/-! ### QWR -/

/-- The word that a slot of 64 bits takes, by its low bits. -/
theorem ofInt_low (w : W40) : ofInt 64 w.toInt % 2 ^ 40 = w.toNat := by
  have hlt := w.isLt
  unfold ofInt
  rw [BitVec.toInt_eq_toNat_cond]
  split <;> omega

/-- The cell takes the word. -/
theorem word40_memSetLe_ofInt (hwf : Memory.wf s.mem = true) (a : Nat) (w : W40) :
    word40 ((memSetLe a 8 (ofInt 64 w.toInt)).run s) a = w := by
  have hbytes : memLe ((memSetLe a 8 (ofInt 64 w.toInt)).run s).mem a 5 = ofInt 64 w.toInt % 2 ^ (8 * 5) :=
    memLe_of_bytes _ 5 a _ fun i hi => memGet_memSetLe_in hwf (by omega)
  rw [word40, hbytes]
  exact BitVec.eq_of_toNat_eq (by rw [BitVec.toNat_ofNat, show 2 ^ (8 * 5) = 2 ^ 40 from rfl, Nat.mod_mod, ofInt_low])

/-- Judging its marks leaves the words of a queue. -/
theorem queueMark_wr (q : Nat) (s : State) : (queueAt ((queueMark q).run s) q).wr = (queueAt s q).wr := by
  have hset : ∀ (f : PoolQ → PoolQ) (u : State), queueAt ((setQueue q f).run u) q = f (queueAt u q) := fun f u => get_put_self ..
  have hkeep : ∀ (a : Act) (u : State), a.Touches raiseKinds → queueAt (a.run u) q = queueAt u q := fun a u ha =>
    congrArg (fun x : PoolState => smGet (fun _ => poolQReset) x.queues q) (touches_pool ha (by decide) (by decide) u)
  unfold queueMark
  rw [run_look]
  dsimp only
  rw [run_acts_cons, run_acts_cons, run_acts_cons, run_acts_nil, hkeep _ _ (by simp), hkeep _ _ (by simp), hset]

/-- A word appended where the last cell of the queue has room. -/
theorem appendWord_run {req : Nat} {w : W40} (hwhole : (queueAt s q).broken = false) (htail : (queueAt s q).tail ≠ 0)
    (hroom : (queueAt s q).wr < 32) (hwf : Memory.wf s.mem = true) :
    let t := (appendWord q req w).run s
    (queueAt t q).wr = (queueAt s q).wr + 1 ∧ word40 t (cellAddr (queueAt s q).tail + 8 * (queueAt s q).wr) = w ∧
      ∀ l, laneAt t l = laneAt s l := by
  generalize ha : cellAddr (queueAt s q).tail + 8 * (queueAt s q).wr = a
  generalize hf : (fun x : PoolQ => { x with depth := x.depth + b2n (wordEmpty x), wr := x.wr + 1 }) = f
  have hrun : (appendWord q req w).run s = (queueMark q).run ((eccFull a 8).run ((memSetLe a 8 (ofInt 64 w.toInt)).run ((setQueue q f).run s))) := by
    unfold appendWord
    rw [run_look]
    dsimp only
    rw [hwhole, if_neg (by decide), if_pos (by simp [htail, hroom]), ha, hf]
    rfl
  have hset : queueAt ((setQueue q f).run s) q = f (queueAt s q) := get_put_self ..
  have hmemSet := touches_memSetLe (ks := [.mem]) (by decide) a 8 (ofInt 64 w.toInt)
  have hecc := touches_eccFull (ks := [.ecc]) (by decide) a 8
  dsimp only
  rw [hrun]
  refine ⟨?_, ?_, fun l => ?_⟩
  · rw [queueMark_wr]
    unfold queueAt
    rw [touches_pool hecc (by decide) (by decide), touches_pool hmemSet (by decide) (by decide)]
    exact (congrArg PoolQ.wr hset).trans (by rw [← hf]; rfl)
  · have hmem : ∀ u : State, ((queueMark q).run ((eccFull a 8).run u)).mem = u.mem := fun u =>
      (touches_mem (touches_queueMark q) (by decide) (by decide) _).trans (touches_mem hecc (by decide) (by decide) u)
    exact (congrArg (fun mem => BitVec.ofNat 40 (memLe mem a 5)) (hmem _)).trans (word40_memSetLe_ofInt hwf a w)
  · rw [laneAt_touches (touches_queueMark q) (by decide) (by decide), laneAt_touches hecc (by decide) (by decide),
      laneAt_touches hmemSet (by decide) (by decide),
      laneAt_touches (touches_setQueue (ks := [.pool]) (by decide) q f) (by decide) (by decide)]

/-- QWR of a bound port whose last cell has room appends its word. -/
theorem doQwr_word (hin : laneIn s l = some n) (hbound : laneBound n p true s = some q) (hwhole : (queueAt s q).broken = false)
    (htail : (queueAt s q).tail ≠ 0) (hroom : (queueAt s q).wr < 32) (hwf : Memory.wf s.mem = true) (hret : (laneAt s l).stepRet = none)
    (hnext : (nextPc (laneAt s l).reps (laneAt s l).pc).2 < 4096) : let t := (doQwr l p d).run s
    (queueAt t q).wr = (queueAt s q).wr + 1 ∧ word40 t (cellAddr (queueAt s q).tail + 8 * (queueAt s q).wr) = rdD (laneAt s l) d := by
  have hgrant := laneAt_touches (touches_grantUplink l) (by decide) (by decide) l s
  generalize hu : (appendWord q (laneId l) (rdD (laneAt s l) d)).run ((grantUplink l).run s) = u
  obtain ⟨hwr, hword, hsame⟩ := appendWord_run (s := (grantUplink l).run s) (req := laneId l) (w := rdD (laneAt s l) d) hwhole htail hroom hwf
  rw [hu] at hwr hword hsame
  have hlane : laneAt u l = laneAt s l := (hsame l).trans hgrant
  have hrun : (doQwr l p d).run s = (setLane l (retired 1 0 false)).run u := by
    unfold doQwr
    rw [run_look, run_seq, hin]
    dsimp only
    rw [hbound]
    dsimp only
    rw [run_seq, hu, retireNext_run (by rw [hlane]; exact hret) (by rw [hlane]; exact hnext)]
  dsimp only
  rw [hrun]
  exact ⟨hwr, hword⟩

end Ports

/-! ### The statement -/

/-- Settles O25: after its fetch the instruction finds its port and its queue as they were, and the word of the queue is what the next
instruction reads. -/
theorem laneQueuePortsComplete : Obligations.LaneQueuePortsComplete := by
  intro l d p n q s hin hc hst hwhole
  obtain ⟨c, hlane⟩ := fetch_lane_idle hst
  generalize hu : (fetch l).run s = u at hlane
  have hlive : u.live = s.live := hu ▸ touches_live (touches_fetch l) (by decide) (by decide) s
  have hpool : u.pool = s.pool := hu ▸ touches_pool (touches_fetch l) (by decide) (by decide) s
  have hmem : u.mem = s.mem := hu ▸ fetch_mem hst
  have hclean : u.ecc.marks = [] := hu ▸ fetch_clean hc l
  have hin' := (laneIn_congr hlive l).trans hin
  have hqueue : queueAt u q = queueAt s q := congrArg (fun x : PoolState => smGet (fun _ => poolQReset) x.queues q) hpool
  have hword : ∀ a, word40 u a = word40 s a := fun a => congrArg (fun mem => BitVec.ofNat 40 (memLe mem a 5)) hmem
  have hread : ∀ (t : State) (L : Lane) (v : W40), L.pos = (laneAt s l).pos → laneAt t l = retired 1 0 false (putD d v 1 L) →
      rdD (readsAfter s t l 1) d = v := by
    intro t L v hpos ht
    refine BitVec.eq_of_toNat_eq ((rdD_readsAfter d).trans ?_)
    rw [ht, reads_retired (L := putD d v 1 L) (by rw [← hpos]; rfl)]
    exact reads_putD d v (by rw [hpos])
  refine ⟨fun hat hbound hfull => ⟨_, rfl, ?_⟩, fun hat hbound hempty => ⟨_, rfl, ?_⟩,
    fun hstall hcause hret hhalt hcode hnext hbound hfull => ⟨_, rfl, ?_⟩, fun hat hbound htail hroom => ⟨_, rfl, ?_⟩⟩
  · have hend := doQrd_lane (d := d) hin' ((laneBound_congr hlive ..).trans hbound) hclean (by rw [hqueue]; exact hwhole)
      (by rw [hqueue]; exact hfull) (by rw [hlane]; exact hat.noStep) (by rw [hlane]; exact hat.next)
    rw [hqueue, hword, hlane] at hend
    rw [laneRun_fetches hat, hu]
    exact hread _ { laneAt s l with cache := c, stores := [] } _ rfl hend
  · have hend := doQrd_empty (d := d) hin' ((laneBound_congr hlive ..).trans hbound) (by rw [hqueue]; exact hwhole)
      (by rw [hqueue]; exact hempty)
    rw [hlane] at hend
    rw [laneRun_fetches hat, hu, doWord, doControl, hend]
    exact ⟨rfl, rfl, rfl⟩
  · have hat : StallsAt l .qrd (.control (.qrd d p)) s := ⟨hstall, hcause, hret, hhalt, hcode, hnext⟩
    have hend := doQrd_lane (d := d) hin hbound hc hwhole hfull hret hnext
    have hidle : (laneAt ((doQrd l d p).run s) l).stepRet = none := by
      rw [hend]
      exact (advancePos_stepRet _).trans hret
    have hrun : (stallEnds l .qrd).run s = (doQrd l d p).run s := hat.stallEnds_run.trans (stepOn_idle hidle _)
    rw [hrun]
    exact ⟨(congrArg Lane.st hend).trans (if_pos hstall), hread _ _ _ rfl hend⟩
  · obtain ⟨-, -, hwf, -⟩ := hat.form
    have hend := doQwr_word (d := d) hin' ((laneBound_congr hlive ..).trans hbound) (by rw [hqueue]; exact hwhole) (by rw [hqueue]; exact htail)
      (by rw [hqueue]; exact hroom) (by rw [hmem]; exact hwf) (by rw [hlane]; exact hat.noStep) (by rw [hlane]; exact hat.next)
    dsimp only at hend
    rw [hqueue, hlane] at hend
    rw [laneRun_fetches hat, hu]
    exact hend

end Sys2Proof.Machine
end

