-- ==== Sys2Proof/Proofs/LaneFlags.lean ====
section
/-! SUPPORT. The flags Z and N that a slot sets (R144, R147, R148, R161). -/

namespace Sys2Proof.Machine

section Flags

variable {l : LaneSlot} {s t : State} {h : Half} {op : SlotOp} {x : SlotCtx} {n : Nat} {z neg : Bool}

/-- Flags just issued, as the second instruction after reads them. -/
theorem reads_putFlags {L : Lane} (hn : L.pos + 2 ≤ n) : (putFlags z neg L).reads .flags false n = b2n z + 2 * b2n neg :=
  (reads_putRes hn).trans (by cases z <;> cases neg <;> rfl)

/-- The flags that the instruction `n` positions after reads, from what the lane then holds. -/
theorem rdFlags_readsAfter (hreads : (laneAt t l).reads .flags false ((laneAt s l).pos + n) = b2n z + 2 * b2n neg) :
    rdFlags (readsAfter s t l n) = (z, neg) := by
  have hflags : (readsAfter s t l n).reads .flags false (readsAfter s t l n).pos = b2n z + 2 * b2n neg := hreads
  rw [rdFlags_reads, hflags]
  cases z <;> cases neg <;> rfl

/-- Slot 1 acts last, and so does slot 0 beside a NOP: what its operation leaves a register reading as, the slots of the word do. -/
theorem reads_slotsEff_last {L0 : Lane} {y : SlotEff} {e : LaneDest} {mac : Bool} {v : Nat} (hlast : h = .s1 ∨ x.other = .nop)
    (hown : ∀ y' : SlotEff, y'.lane.pos = y.lane.pos → (aluEff L0 op y').lane.reads e mac n = v) :
    (slotsEff L0 (slotCompute h op x) y).lane.reads e mac n = v := by
  obtain ⟨y', hy, heq⟩ := slotsEff_lane L0 (slotCompute h op x) y
  have hpos : y'.lane.pos = y.lane.pos := hy ▸ (issues_macsLane ..).pos
  rw [heq]
  cases h with
  | s0 =>
    have hnop : x.other = .nop := hlast.resolve_left nofun
    rw [slotCompute, hnop]
    exact hown y' hpos
  | s1 => exact hown _ ((issues_aluEff L0 x.other y').pos.trans hpos)

/-- An operation of the last slot that sets the flags to `z` and `neg`. -/
theorem laneRun_flags (hat : LaneAtWord l (slotWord h op x) s) (hlast : h = .s1 ∨ x.other = .nop)
    (hset : ∀ c ps y, (aluEff { laneAt s l with cache := c, stores := ps } op y).lane = putFlags z neg y.lane) :
    rdFlags (readsAfter s ((laneRun l (slotWord h op x)).run s) l 2) = (z, neg) := by
  rw [slotWord_eq] at hat ⊢
  refine rdFlags_readsAfter (laneRun_reads_slots hat nofun (Nat.le_succ _) fun c ps y hy => ?_)
  refine reads_slotsEff_last hlast fun y' hy' => ?_
  rw [hset]
  exact reads_putFlags (by rw [hy', hy])

end Flags

/-- The flags of CMP compare the two words, since the difference is exact. -/
theorem cmpFlags_eq (dst src : W40) : cmpFlags dst src = (decide (sint dst = sint src), decide (sint dst < sint src)) := by
  simp only [cmpFlags, sub_eq_zero, sub_neg]

/-- The flags of TSTA are those of the accumulator as a number. -/
theorem accFlags_eq (v : W88) : accFlags v = (decide (v = 0), decide (aint v < 0)) := by
  rw [accFlags, BitVec.msb_eq_toInt, aint]

/-- Settles O12: the flags of the slot that acts last, from the difference or the accumulator that it reads. -/
theorem laneFlagsComplete : Obligations.LaneFlagsComplete := by
  intro l h d r acc x s hlast L
  refine ⟨fun hat => ⟨_, rfl, ?_⟩, fun hat => ⟨_, rfl, ?_⟩⟩
  · exact (laneRun_flags hat hlast fun _ _ _ => rfl).trans (cmpFlags_eq (rdD L d) (rdD L r))
  · exact (laneRun_flags hat hlast fun _ _ _ => rfl).trans (accFlags_eq (rdAcc L acc false))

end Sys2Proof.Machine
end

