-- ==== Sys2Proof/Proofs/LaneFields.lean ====
section
/-! SUPPORT. The fields of a number that is put together from them, and the codes of the lane words (R143, R147, R155). -/

namespace Sys2Proof.Machine

/-! ### Fields one beside the other -/

section Layout

variable {a x v n hi lo k : Nat}

theorem bitsOf_all (hx : x < 2 ^ (hi + 1)) : bitsOf x hi 0 = x := by
  rw [bitsOf, Nat.pow_zero, Nat.div_one, Nat.sub_zero, Nat.mod_eq_of_lt hx]

theorem bitsOf_above (hx : x < 2 ^ lo) : bitsOf x hi lo = 0 := by
  rw [bitsOf, Nat.div_eq_of_lt hx, Nat.zero_mod]

/-- A field of the high part. -/
theorem bitsOf_high (hx : x < 2 ^ n) (hn : n ≤ lo) (hlo : lo ≤ hi) : bitsOf (a * 2 ^ n + x) hi lo = bitsOf a (hi - n) (lo - n) := by
  have hpow : 2 ^ lo = 2 ^ n * 2 ^ (lo - n) := by rw [← Nat.pow_add, Nat.add_sub_cancel' hn]
  have hwidth : hi - n + 1 - (lo - n) = hi + 1 - lo := by omega
  rw [bitsOf, bitsOf, hpow, ← Nat.div_div_eq_div_mul, Nat.add_comm, Nat.add_mul_div_right _ _ (Nat.two_pow_pos _),
    Nat.div_eq_of_lt hx, Nat.zero_add, hwidth]

/-- A field of the low part. -/
theorem bitsOf_low (hhi : hi < n) (hlo : lo ≤ hi) : bitsOf (a * 2 ^ n + x) hi lo = bitsOf x hi lo := by
  have hpow : 2 ^ n = 2 ^ (n - (hi + 1)) * 2 ^ (hi + 1 - lo) * 2 ^ lo := by
    rw [← Nat.pow_add, ← Nat.pow_add]
    congr 1
    omega
  rw [bitsOf, bitsOf, hpow, ← Nat.mul_assoc, ← Nat.mul_assoc, Nat.add_comm, Nat.add_mul_div_right _ _ (Nat.two_pow_pos _),
    Nat.add_mul_mod_self_right]

theorem bitsOf_high_only (hn : n ≤ lo) (hlo : lo ≤ hi) : bitsOf (a * 2 ^ n) hi lo = bitsOf a (hi - n) (lo - n) :=
  bitsOf_high (x := 0) (Nat.two_pow_pos n) hn hlo

theorem bitsOf_low_only (hhi : hi < n) (hlo : lo ≤ hi) : bitsOf (a * 2 ^ n) hi lo = 0 :=
  (bitsOf_low (x := 0) hhi hlo).trans (bitsOf_above (Nat.two_pow_pos lo))

/-- The low bits, cut in two above bit `k`. -/
theorem bitsOf_split (v : Nat) {hi : Nat} (k : Nat) (hk : k ≤ hi) :
    bitsOf v hi 0 = bitsOf v hi (k + 1) * 2 ^ (k + 1) + bitsOf v k 0 := by
  have hpow : 2 ^ (hi + 1 - 0) = 2 ^ (k + 1) * 2 ^ (hi + 1 - (k + 1)) := by
    rw [← Nat.pow_add]
    congr 1
    omega
  rw [bitsOf, bitsOf, bitsOf, hpow, Nat.mod_mul, Nat.pow_zero, Nat.div_one, Nat.add_comm, Nat.mul_comm, Nat.sub_zero]

/-- The low bits below a field of zeros. -/
theorem bitsOf_skip (h : bitsOf v hi (k + 1) = 0) (hk : k ≤ hi) : bitsOf v hi 0 = bitsOf v k 0 := by
  rw [bitsOf_split v k hk, h, Nat.zero_mul, Nat.zero_add]

/-- The low bits above a field of zeros. -/
theorem bitsOf_shift (h : bitsOf v k 0 = 0) (hk : k ≤ hi) : bitsOf v hi 0 = bitsOf v hi (k + 1) * 2 ^ (k + 1) := by
  rw [bitsOf_split v k hk, h, Nat.add_zero]

end Layout

/-! ### Fields as operands -/

section Operands

variable {v n hi lo : Nat}

@[simp] theorem f4_fin (i : Fin 4) : f4 i = i := Fin.ext (Nat.mod_eq_of_lt i.isLt)

@[simp] theorem f16_fin (i : Fin 16) : f16 i = i := Fin.ext (Nat.mod_eq_of_lt i.isLt)

@[simp] theorem f32_fin (i : Fin 32) : f32 i = i := Fin.ext (Nat.mod_eq_of_lt i.isLt)

@[simp] theorem f256_fin (i : Fin 256) : f256 i = i := Fin.ext (Nat.mod_eq_of_lt i.isLt)

@[simp] theorem f4096_fin (i : Fin 4096) : f4096 i = i := Fin.ext (Nat.mod_eq_of_lt i.isLt)

@[simp] theorem f65536_fin (i : Fin 65536) : f65536 i = i := Fin.ext (Nat.mod_eq_of_lt i.isLt)

theorem f4_val (h : n < 4) : (f4 n).val = n := Nat.mod_eq_of_lt h

/-- A field is within its width already. -/
theorem bitsOf_mod_width (v hi lo : Nat) : bitsOf v hi lo % 2 ^ (hi + 1 - lo) = bitsOf v hi lo := Nat.mod_mod ..

@[simp] theorem f4_field (v lo : Nat) : (f4 (bitsOf v (lo + 1) lo)).val = bitsOf v (lo + 1) lo := by
  have h := bitsOf_mod_width v (lo + 1) lo
  rwa [show lo + 1 + 1 - lo = 2 by omega] at h

@[simp] theorem f16_field (v lo : Nat) : (f16 (bitsOf v (lo + 3) lo)).val = bitsOf v (lo + 3) lo := by
  have h := bitsOf_mod_width v (lo + 3) lo
  rwa [show lo + 3 + 1 - lo = 4 by omega] at h

theorem toNat_ofNat_field {w : Nat} (v : Nat) (h : hi + 1 = w) : (BitVec.ofNat w (bitsOf v hi 0)).toNat = bitsOf v hi 0 := by
  rw [BitVec.toNat_ofNat, ← h]
  exact bitsOf_mod_width v hi 0

@[simp] theorem f256_field (v : Nat) : (f256 (bitsOf v 7 0)).val = bitsOf v 7 0 := bitsOf_mod_width ..

@[simp] theorem f4096_field (v : Nat) : (f4096 (bitsOf v 11 0)).val = bitsOf v 11 0 := bitsOf_mod_width ..

@[simp] theorem f65536_field (v : Nat) : (f65536 (bitsOf v 47 32)).val = bitsOf v 47 32 := bitsOf_mod_width ..

end Operands

/-! ### Codes -/

theorem b2n_lt (b : Bool) : b2n b < 2 := by cases b <;> decide

@[simp] theorem b2n_eq_one (b : Bool) : decide (b2n b = 1) = b := by cases b <;> rfl

/-- A bit as a number. -/
@[simp] theorem b2n_bit (v i : Nat) : b2n (decide (bitsOf v i i = 1)) = bitsOf v i i := by
  have hlt := bitsOf_lt v i i
  rw [Nat.add_sub_cancel_left] at hlt
  rcases (by omega : bitsOf v i i = 0 ∨ bitsOf v i i = 1) with h | h <;> rw [h] <;> rfl

theorem condCode_lt (c : Cond) : condCode c < 7 := by cases c <;> decide

@[simp] theorem condOf_condCode (c : Cond) : condOf (condCode c) = some c := by cases c <;> rfl

theorem condCode_of_condOf {n : Nat} {c : Cond} (h : condOf n = some c) : condCode c = n := by
  unfold condOf at h
  split at h <;> cases h <;> rfl

theorem convCode_lt (c : Conv) : convCode c < 4 := by cases c <;> decide

@[simp] theorem convOf_convCode (c : Conv) : convOf (convCode c) = c := by cases c <;> rfl

theorem convCode_convOf {n : Nat} (h : n < 4) : convCode (convOf n) = n := by
  rcases (by omega : n = 0 ∨ n = 1 ∨ n = 2 ∨ n = 3) with rfl | rfl | rfl | rfl <;> rfl

theorem rmCode_lt (r : Rounding) : rmCode r < 2 := by cases r <;> decide

@[simp] theorem rmOf_rmCode (r : Rounding) : rmOf (rmCode r) = r := by cases r <;> rfl

theorem rmCode_rmOf {n : Nat} (h : n < 2) : rmCode (rmOf n) = n := by
  rcases (by omega : n = 0 ∨ n = 1) with rfl | rfl <;> rfl

end Sys2Proof.Machine
end

