-- ==== Sys2Proof/Proofs/ControlWords.lean ====
section
/-! SUPPORT. The words of control instructions and their decoder (R139, R154–R160). -/

namespace Sys2Proof.Machine

section Control

variable {v op x hi lo k : Nat}

/-! ### From the instruction to the word -/

theorem encCop_eq (op : Nat) : encCop op = (2 ^ 7 + op) * 2 ^ 56 := by
  unfold encCop
  omega

/-- The operation of a control word. -/
theorem encCop_op (hop : op < 64) (hx : x < 2 ^ 56) : bitsOf (encCop op + x) 61 56 = op := by
  unfold encCop bitsOf
  omega

/-- The other fields lie below it. -/
theorem encCop_below (hhi : hi < 56) (hlo : lo ≤ hi) : bitsOf (encCop op + x) hi lo = bitsOf x hi lo := by
  rw [encCop_eq, bitsOf_low hhi hlo]

/-- Each field is found where the word has it, and the other bits are zeros. -/
theorem decodeControl_encodeControl (c : ControlWord) : decodeControl (encodeControl c) = some (.control c) := by
  cases c
  case waitTick => rfl
  case' jmp cc _ | call cc _ | ret cc => have hcc := condCode_lt cc
  case' gld _ _ _ en | gst _ _ _ en => have hen := b2n_lt en
  all_goals
    simp (disch := omega) [-Nat.reducePow, encodeControl, decodeControl, Nat.add_assoc, encCop_op, encCop_below, bitsOf_high, bitsOf_low,
      bitsOf_high_only, bitsOf_low_only, bitsOf_all, bitsOf_above]

/-- A control word has format 0b10. -/
theorem encodeControl_bounds (c : ControlWord) : 2 ^ 63 ≤ encodeControl c ∧ encodeControl c < 2 ^ 63 + 2 ^ 62 := by
  cases c
  case' jmp cc _ | call cc _ | ret cc => have hcc := condCode_lt cc
  case' gld _ _ _ en | gst _ _ _ en => have hen := b2n_lt en
  all_goals
    simp only [encodeControl, encCop]
    omega

/-! ### From the word to the instruction -/

/-- A control word from its operation and the bits below. -/
theorem encCop_fields (hv : v < 2 ^ 64) (hf : bitsOf v 63 62 = 2) : encCop (bitsOf v 61 56) + bitsOf v 55 0 = v := by
  unfold encCop
  unfold bitsOf at *
  omega

/-- The bits below the operation, in each form of control words (R154): a condition and an address. -/
theorem bits_flow (h : bitsOf v 52 12 = 0) : bitsOf v 55 0 = bitsOf v 55 53 * 2 ^ 53 + bitsOf v 11 0 := by
  rw [bitsOf_split v 52 (by decide), bitsOf_skip h (by decide)]

/-- A count and a length. -/
theorem bits_count (h : bitsOf v 55 48 = 0) (h' : bitsOf v 31 8 = 0) : bitsOf v 55 0 = bitsOf v 47 32 * 2 ^ 32 + bitsOf v 7 0 := by
  rw [bitsOf_skip h (by decide), bitsOf_split v 31 (by decide), bitsOf_skip h' (by decide)]

/-- A register and a number. -/
theorem bits_reg (h : bitsOf v 55 52 = 0) (hk : k ≤ 47) (h' : bitsOf v 47 (k + 1) = 0) :
    bitsOf v 55 0 = bitsOf v 51 48 * 2 ^ 48 + bitsOf v k 0 := by
  rw [bitsOf_skip h (by decide), bitsOf_split v 47 (by decide), bitsOf_skip h' hk]

/-- Two registers. -/
theorem bits_regs (h : bitsOf v 55 52 = 0) (h' : bitsOf v 43 0 = 0) :
    bitsOf v 55 0 = bitsOf v 51 48 * 2 ^ 48 + bitsOf v 47 44 * 2 ^ 44 := by
  rw [bitsOf_skip h (by decide), bitsOf_split v 47 (by decide), bitsOf_shift h' (by decide)]

/-- Three registers and EN. -/
theorem bits_gallery (h : bitsOf v 55 52 = 0) (h' : bitsOf v 38 0 = 0) :
    bitsOf v 55 0 = bitsOf v 51 48 * 2 ^ 48 + (bitsOf v 47 44 * 2 ^ 44 + (bitsOf v 43 40 * 2 ^ 40 + bitsOf v 39 39 * 2 ^ 39)) := by
  rw [bitsOf_skip h (by decide), bitsOf_split v 47 (by decide), bitsOf_split v 43 (by decide), bitsOf_split v 39 (by decide),
    bitsOf_shift h' (by decide)]

/-- A control word that decodes is put together again from its fields. -/
theorem encodeLane_of_decodeControl {w : LaneWord} (hv : v < 2 ^ 64) (hf : bitsOf v 63 62 = 2) (h : decodeControl v = some w) :
    encodeLane w = v ∧ laneLegal w = true := by
  have hword := encCop_fields hv hf
  unfold decodeControl at h
  dsimp only at h
  split at h
  -- JMP and CALL
  case h_1 hop | h_2 hop =>
    obtain ⟨hz, h⟩ := Option.ite_none_right_eq_some.mp h
    obtain ⟨cc, hcc, rfl⟩ := Option.map_eq_some_iff.mp h
    rw [hop, bits_flow hz, ← Nat.add_assoc] at hword
    simpa [encodeLane, encodeControl, laneLegal, condCode_of_condOf hcc] using hword
  -- RET
  case h_3 hop =>
    obtain ⟨hz, h⟩ := Option.ite_none_right_eq_some.mp h
    obtain ⟨cc, hcc, rfl⟩ := Option.map_eq_some_iff.mp h
    rw [hop, bitsOf_shift hz (by decide)] at hword
    simpa [encodeLane, encodeControl, laneLegal, condCode_of_condOf hcc] using hword
  -- REP with its count
  case h_4 hop =>
    obtain ⟨⟨h1, h2⟩, h⟩ := Option.ite_none_right_eq_some.mp h
    obtain rfl := Option.some.inj h
    rw [hop, bits_count h1 h2, ← Nat.add_assoc] at hword
    simpa [encodeLane, encodeControl, laneLegal] using hword
  -- WAIT.TICK
  case h_6 hop =>
    obtain ⟨h1, h⟩ := Option.ite_none_right_eq_some.mp h
    obtain rfl := Option.some.inj h
    rw [hop, h1] at hword
    simpa [encodeLane, encodeControl, laneLegal] using hword
  -- one register and a number: REP, LDI, MOVA, MOVM, MOVL, QRD, QWR
  case h_5 hop | h_7 hop | h_8 hop | h_9 hop | h_10 hop | h_17 hop | h_18 hop =>
    obtain ⟨⟨h1, h2⟩, h⟩ := Option.ite_none_right_eq_some.mp h
    obtain rfl := Option.some.inj h
    rw [hop, bits_reg h1 (by decide) h2, ← Nat.add_assoc] at hword
    simpa [-BitVec.toNat_ofNat, toNat_ofNat_field, encodeLane, encodeControl, laneLegal] using hword
  -- moves between registers
  case h_11 hop | h_12 hop | h_13 hop | h_14 hop =>
    obtain ⟨⟨h1, h2⟩, h⟩ := Option.ite_none_right_eq_some.mp h
    obtain rfl := Option.some.inj h
    rw [hop, bits_regs h1 h2, ← Nat.add_assoc] at hword
    simpa [encodeLane, encodeControl, laneLegal] using hword
  -- GLD and GST
  case h_15 hop | h_16 hop =>
    obtain ⟨⟨h1, h2⟩, h⟩ := Option.ite_none_right_eq_some.mp h
    obtain rfl := Option.some.inj h
    rw [hop, bits_gallery h1 h2] at hword
    simpa [encodeLane, encodeControl, laneLegal, Nat.add_assoc] using hword
  case h_19 => exact nomatch h

end Control

end Sys2Proof.Machine
end

