-- ==== Sys2Proof/Proofs/SlotWords.lean ====
section
/-! SUPPORT. The 15 bits of an arithmetic slot and their decoder (R145, R147). -/

namespace Sys2Proof.Machine

/-! ### Multiply slots -/

section Multiply

variable {v op x y z : Nat} {o : SlotOp}

theorem encMul_lt (hop : op < 8) (hx : x < 4) (hy : y < 16) (hz : z < 16) : encMul op x y z < 2 ^ 14 := by
  unfold encMul
  omega

theorem encMul_even : encMul op x y z % 2 = 0 := by
  unfold encMul
  omega

theorem encMul_op (hop : op < 8) (hx : x < 4) (hy : y < 16) (hz : z < 16) : bitsOf (encMul op x y z) 13 11 = op := by
  unfold encMul bitsOf
  omega

theorem encMul_acc (hx : x < 4) (hy : y < 16) (hz : z < 16) : bitsOf (encMul op x y z) 10 9 = x := by
  unfold encMul bitsOf
  omega

theorem encMul_da (hy : y < 16) (hz : z < 16) : bitsOf (encMul op x y z) 8 5 = y := by
  unfold encMul bitsOf
  omega

theorem encMul_db (hz : z < 16) : bitsOf (encMul op x y z) 4 1 = z := by
  unfold encMul bitsOf
  omega

/-- A multiply slot from its fields. -/
theorem encMul_fields (hv : v < 2 ^ 14) (heven : v % 2 = 0) :
    encMul (bitsOf v 13 11) (bitsOf v 10 9) (bitsOf v 8 5) (bitsOf v 4 1) = v := by
  unfold encMul bitsOf
  omega

theorem decodeSlot_of_lt (hv : v < 2 ^ 14) : decodeSlot v = decodeMul v := by
  have hmod : v % 16384 = v := Nat.mod_eq_of_lt hv
  rw [decodeSlot, bitOf, Nat.div_eq_of_lt hv, hmod]
  rfl

theorem encodeSlot_of_decodeMul (hv : v < 2 ^ 14) (h : decodeMul v = some o) : encodeSlot o = v := by
  unfold decodeMul at h
  dsimp only at h
  obtain ⟨heven, h⟩ := Option.ite_none_left_eq_some.mp h
  have hword := encMul_fields hv (not_not.mp heven)
  split at h
  -- NOP
  case h_1 hop =>
    obtain ⟨hz, h⟩ := Option.ite_none_right_eq_some.mp h
    obtain rfl := Option.some.inj h
    unfold bitsOf at hop
    rw [encodeSlot]
    omega
  case h_6 => exact nomatch h
  all_goals
    next hop =>
      obtain rfl := Option.some.inj h
      rw [hop] at hword
      simpa [encodeSlot] using hword

end Multiply

/-! ### ALU slots -/

section Alu

variable {v op x y r : Nat} {o : SlotOp}

theorem bitOf_encAlu (hop : op < 32) (hx : x < 16) (hy : y < 16) (hr : r < 2) : bitOf (encAlu op x y r) 14 = true := by
  have hbit : encAlu op x y r / 2 ^ 14 % 2 = 1 := by
    unfold encAlu
    omega
  rw [bitOf, hbit]
  rfl

theorem encAlu_op (hop : op < 32) (hx : x < 16) (hy : y < 16) (hr : r < 2) : bitsOf (encAlu op x y r % 16384) 13 9 = op := by
  unfold encAlu bitsOf
  omega

theorem encAlu_dst (hx : x < 16) (hy : y < 16) (hr : r < 2) : bitsOf (encAlu op x y r % 16384) 8 5 = x := by
  unfold encAlu bitsOf
  omega

theorem encAlu_src (hy : y < 16) (hr : r < 2) : bitsOf (encAlu op x y r % 16384) 4 1 = y := by
  unfold encAlu bitsOf
  omega

theorem encAlu_rm (hr : r < 2) : encAlu op x y r % 2 = r := by
  unfold encAlu
  omega

theorem encAlu_amount (hy : y < 16) (hr : r < 2) : encAlu op x y r % 32 = y * 2 + r := by
  unfold encAlu
  omega

/-- An ALU slot from its fields. -/
theorem encAlu_fields (hv : v < 2 ^ 14) : encAlu (bitsOf v 13 9) (bitsOf v 8 5) (bitsOf v 4 1) (v % 2) = 2 ^ 14 + v := by
  unfold encAlu bitsOf
  omega

theorem encodeSlot_of_decodeAlu (hv : v < 2 ^ 14) (h : decodeAlu v = some o) : encodeSlot o = 2 ^ 14 + v := by
  have hword := encAlu_fields hv
  unfold decodeAlu at h
  dsimp only at h
  split at h
  case h_24 => exact nomatch h
  -- ASR, LSL and LSR, whose amount takes SRC and RM together
  case h_12 hop | h_13 hop | h_14 hop =>
    obtain rfl := Option.some.inj h
    rw [hop] at hword
    have hamount : (f32 (v % 32)).val = v % 32 := Nat.mod_mod ..
    have hsrc : v % 32 / 2 = bitsOf v 4 1 := by
      unfold bitsOf
      omega
    have hrm : v % 32 % 2 = v % 2 := by omega
    simpa [encodeSlot, hamount, hsrc, hrm] using hword
  all_goals
    next hop =>
      obtain ⟨hz, h⟩ := Option.ite_none_right_eq_some.mp h
      obtain rfl := Option.some.inj h
      rw [hop] at hword
      simpa (disch := omega) [encodeSlot, hz, f4_val, rmCode_rmOf, convCode] using hword

end Alu

/-! ### Either -/

theorem encodeSlot_lt (o : SlotOp) : encodeSlot o < 2 ^ 15 := by
  cases o
  case' cv c _ _ rm =>
    have hc := convCode_lt c
    have hrm := rmCode_lt rm
  all_goals
    simp only [encodeSlot, encAlu, encMul]
    omega

theorem decodeSlot_encodeSlot (o : SlotOp) : decodeSlot (encodeSlot o) = some o := by
  cases o with
  | nop => rfl
  | mac acc da db | msu acc da db | mpy acc da db | mpyn acc da db =>
    rw [encodeSlot, decodeSlot_of_lt (encMul_lt (by decide) acc.isLt da.isLt db.isLt)]
    simp (disch := omega) [decodeMul, encMul_even, encMul_op, encMul_acc, encMul_da, encMul_db]
  | asr d n | lsl d n | lsr d n =>
    simp (disch := omega) [encodeSlot, decodeSlot, decodeAlu, bitOf_encAlu, encAlu_op, encAlu_dst, encAlu_amount, Nat.div_add_mod']
  | cv c d acc rm =>
    have hrm := rmCode_lt rm
    cases c
    all_goals
      simp (disch := omega) [encodeSlot, decodeSlot, decodeAlu, bitOf_encAlu, encAlu_op, encAlu_dst, encAlu_src, encAlu_rm, convCode]
  | _ => simp (disch := omega) [encodeSlot, decodeSlot, decodeAlu, bitOf_encAlu, encAlu_op, encAlu_dst, encAlu_src, encAlu_rm]

theorem encodeSlot_of_decodeSlot {v : Nat} {o : SlotOp} (hv : v < 2 ^ 15) (h : decodeSlot v = some o) : encodeSlot o = v := by
  rcases Nat.lt_or_ge v (2 ^ 14) with hlt | hge
  · exact encodeSlot_of_decodeMul hlt (decodeSlot_of_lt hlt ▸ h)
  · have hbit : v / 2 ^ 14 % 2 = 1 := by omega
    rw [decodeSlot, bitOf, hbit, if_pos (by decide)] at h
    have hslot := encodeSlot_of_decodeAlu (by omega) h
    omega

end Sys2Proof.Machine
end

