-- ==== Sys2Proof/Proofs/ComputeWords.lean ====
section
/-! SUPPORT. Compute words and their decoder, and the statements about all words of the lanes (R139, R140, R143, R150–R152, R162). -/

namespace Sys2Proof.Machine

/-! ### The source of a store -/

section Source

variable {xp src : Nat} {r : StoreSrc}

theorem encodeSrc_lt (r : StoreSrc) : (encodeSrc r).1 < 2 ∧ (encodeSrc r).2 < 256 := by
  cases r with
  | reg s | pair s =>
    have hs := s.isLt
    exact ⟨by simp [encodeSrc], hs.trans (by decide)⟩
  | conv a c rm =>
    have hc := convCode_lt c
    have hrm := rmCode_lt rm
    exact ⟨Nat.two_pos, by simp only [encodeSrc]; omega⟩

theorem decodeSrc_encodeSrc (h : srcLegal r = true) : decodeSrc (encodeSrc r).1 (encodeSrc r).2 = some r := by
  cases r with
  | reg s =>
    have hlt : s.val < 128 := by omega
    simp [encodeSrc, decodeSrc, hlt]
  | pair s =>
    have hlt : s.val < 128 := by omega
    have heven : s.val % 2 = 0 := by simpa [srcLegal] using h
    simp [encodeSrc, decodeSrc, hlt, heven]
  | conv a c rm =>
    have hc := convCode_lt c
    have hrm := rmCode_lt rm
    have hconv : bitsOf (128 + convCode c * 32 + rmCode rm * 16 + a) 6 5 = convCode c := by
      unfold bitsOf
      omega
    have hmode : bitsOf (128 + convCode c * 32 + rmCode rm * 16 + a) 4 4 = rmCode rm := by
      unfold bitsOf
      omega
    have hzero : bitsOf (128 + convCode c * 32 + rmCode rm * 16 + a) 3 2 = 0 := by
      unfold bitsOf
      omega
    have hacc : f4 (128 + convCode c * 32 + rmCode rm * 16 + a) = a := Fin.ext (by simp only [f4]; omega)
    rw [encodeSrc, decodeSrc, if_neg (by omega), if_neg (by simp [hzero]), hconv, hmode, hacc, convOf_convCode, rmOf_rmCode]

theorem encodeSrc_of_decodeSrc (hxp : xp < 2) (hsrc : src < 256) (h : decodeSrc xp src = some r) :
    encodeSrc r = (xp, src) ∧ srcLegal r = true := by
  unfold decodeSrc at h
  split at h
  next hlt =>
    obtain ⟨hreg, h⟩ := Option.ite_none_left_eq_some.mp h
    have hval : (f16 src).val = src := Nat.mod_eq_of_lt (not_le.mp hreg)
    split at h
    next hzero =>
      obtain rfl := Option.some.inj h
      exact ⟨by rw [encodeSrc, hval, hzero], rfl⟩
    next hone =>
      obtain ⟨heven, h⟩ := Option.ite_none_right_eq_some.mp h
      obtain rfl := Option.some.inj h
      have hxp : xp = 1 := by omega
      exact ⟨by rw [encodeSrc, hval, hxp], by simp [srcLegal, hval, heven]⟩
  next hge =>
    obtain ⟨hbits, h⟩ := Option.ite_none_left_eq_some.mp h
    obtain rfl := Option.some.inj h
    have hxp : xp = 0 := by omega
    have hconv := convCode_convOf (bitsOf_lt src 6 5)
    have hmode := rmCode_rmOf (bitsOf_lt src 4 4)
    have hword : 128 + bitsOf src 6 5 * 32 + bitsOf src 4 4 * 16 + src % 4 = src := by
      unfold bitsOf at *
      omega
    exact ⟨by rw [encodeSrc, hconv, hmode, hxp]; exact congrArg (Prod.mk 0) hword, rfl⟩

end Source

/-! ### Memory operations -/

section Memory

variable {v op xp yp xd yd : Nat} {m : MemOp}

theorem encMem_lt (hop : op < 8) (hxp : xp < 2) (hyp : yp < 2) (hxd : xd < 16) (hyd : yd < 16) : encMem op xp yp xd yd < 2 ^ 13 := by
  unfold encMem
  omega

theorem encMem_op (hop : op < 8) (hxp : xp < 2) (hyp : yp < 2) (hxd : xd < 16) (hyd : yd < 16) :
    bitsOf (encMem op xp yp xd yd) 12 10 = op := by
  unfold encMem bitsOf
  omega

theorem encMem_xp (hxp : xp < 2) (hyp : yp < 2) (hxd : xd < 16) (hyd : yd < 16) : bitsOf (encMem op xp yp xd yd) 9 9 = xp := by
  unfold encMem bitsOf
  omega

theorem encMem_yp (hyp : yp < 2) (hxd : xd < 16) (hyd : yd < 16) : bitsOf (encMem op xp yp xd yd) 8 8 = yp := by
  unfold encMem bitsOf
  omega

theorem encMem_xd (hxd : xd < 16) (hyd : yd < 16) : bitsOf (encMem op xp yp xd yd) 7 4 = xd := by
  unfold encMem bitsOf
  omega

theorem encMem_yd (hyd : yd < 16) : bitsOf (encMem op xp yp xd yd) 3 0 = yd := by
  unfold encMem bitsOf
  omega

/-- A memory operation from its fields. -/
theorem encMem_fields (hv : v < 2 ^ 13) : encMem (bitsOf v 12 10) (bitsOf v 9 9) (bitsOf v 8 8) (bitsOf v 7 4) (bitsOf v 3 0) = v := by
  unfold encMem bitsOf
  omega

theorem encodeMop_lt (m : MemOp) : encodeMop m < 2 ^ 13 := by
  cases m with
  | none => decide
  | lx p d | ly p d =>
    have hp := b2n_lt p
    exact encMem_lt (by decide) (by omega) (by omega) (by omega) (by omega)
  | lxy px dx py dy => exact encMem_lt (by decide) (b2n_lt px) (b2n_lt py) dx.isLt dy.isLt
  | sx src | sy src =>
    obtain ⟨hxp, hsrc⟩ := encodeSrc_lt src
    exact encMem_lt (by decide) hxp (by decide) (by omega) (by omega)

theorem decodeMop_encodeMop (h : mopLegal m = true) : decodeMop (encodeMop m) = some m := by
  cases m with
  | none => rfl
  | lx p d | ly p d =>
    have hp := b2n_lt p
    have hpair : pairEven p d = true := h
    simp (disch := omega) [encodeMop, decodeMop, encMem_op, encMem_xp, encMem_yp, encMem_xd, encMem_yd, hpair]
  | lxy px dx py dy =>
    have hpx := b2n_lt px
    have hpy := b2n_lt py
    simp only [mopLegal, Bool.and_eq_true] at h
    obtain ⟨⟨hx, hy⟩, hapart⟩ := h
    simp (disch := omega) only [encodeMop, decodeMop, encMem_op, encMem_xp, encMem_yp, encMem_xd, encMem_yd, b2n_eq_one, f16_fin]
    rw [if_pos ⟨hx, hy, hapart⟩]
  | sx src | sy src =>
    obtain ⟨hxp, hsrc⟩ := encodeSrc_lt src
    have hdec := decodeSrc_encodeSrc (r := src) h
    simp (disch := omega) [encodeMop, decodeMop, encMem_op, encMem_xp, encMem_yp, encMem_xd, encMem_yd, Nat.div_add_mod', hdec]

/-- A store's source from its fields. -/
theorem encodeSrc_fields {src : StoreSrc} (h : decodeSrc (bitsOf v 9 9) (bitsOf v 7 4 * 16 + bitsOf v 3 0) = some src) :
    (encodeSrc src).1 = bitsOf v 9 9 ∧ (encodeSrc src).2 / 16 = bitsOf v 7 4 ∧ (encodeSrc src).2 % 16 = bitsOf v 3 0 ∧
      srcLegal src = true := by
  have hxd := bitsOf_lt v 7 4
  have hyd := bitsOf_lt v 3 0
  obtain ⟨heq, hlegal⟩ := encodeSrc_of_decodeSrc (bitsOf_lt v 9 9) (by omega) h
  rw [heq]
  exact ⟨rfl, by dsimp only; omega, by dsimp only; omega, hlegal⟩

theorem encodeMop_of_decodeMop (hv : v < 2 ^ 13) (h : decodeMop v = some m) : encodeMop m = v ∧ mopLegal m = true := by
  have hword := encMem_fields hv
  unfold decodeMop at h
  dsimp only at h
  split at h
  -- no operation
  case h_1 hop =>
    obtain ⟨hz, h⟩ := Option.ite_none_right_eq_some.mp h
    obtain rfl := Option.some.inj h
    unfold bitsOf at hop
    exact ⟨by rw [encodeMop]; omega, rfl⟩
  -- LX and LY
  case h_2 hop | h_3 hop =>
    obtain ⟨⟨h1, h2, hpair⟩, h⟩ := Option.ite_none_right_eq_some.mp h
    obtain rfl := Option.some.inj h
    rw [hop, h1, h2] at hword
    exact ⟨by simpa [encodeMop] using hword, hpair⟩
  -- LXY
  case h_4 hop =>
    obtain ⟨⟨hx, hy, hapart⟩, h⟩ := Option.ite_none_right_eq_some.mp h
    obtain rfl := Option.some.inj h
    rw [hop] at hword
    exact ⟨by simpa [encodeMop] using hword, by rw [mopLegal, hx, hy, hapart]; rfl⟩
  -- SX and SY
  case h_5 hop | h_6 hop =>
    obtain ⟨hyp, h⟩ := Option.ite_none_right_eq_some.mp h
    obtain ⟨src, hsrc, rfl⟩ := Option.map_eq_some_iff.mp h
    obtain ⟨hxp, hxd, hyd, hlegal⟩ := encodeSrc_fields hsrc
    rw [hop, hyp] at hword
    exact ⟨by rw [encodeMop, hxp, hxd, hyd, hword], hlegal⟩
  case h_7 => exact nomatch h

end Memory

/-! ### Address updates -/

theorem encodeUpd_lt (u : AddrUpd) : encodeUpd u < 2 ^ 9 := by
  have hen := b2n_lt u.en
  unfold encodeUpd
  omega

theorem decodeUpd_encodeUpd (u : AddrUpd) : decodeUpd (encodeUpd u) = u := by
  have hlt := b2n_lt u.en
  have hen : bitsOf (encodeUpd u) 8 8 = b2n u.en := by
    unfold encodeUpd bitsOf
    omega
  have han : bitsOf (encodeUpd u) 7 4 = u.an := by
    unfold encodeUpd bitsOf
    omega
  have hmm : bitsOf (encodeUpd u) 3 0 = u.mm := by
    unfold encodeUpd bitsOf
    omega
  rw [decodeUpd, hen, han, hmm, b2n_eq_one, f16_fin, f16_fin]

theorem encodeUpd_decodeUpd {v : Nat} (hv : v < 2 ^ 9) : encodeUpd (decodeUpd v) = v := by
  have hword : bitsOf v 8 8 * 256 + bitsOf v 7 4 * 16 + bitsOf v 3 0 = v := by
    unfold bitsOf
    omega
  simpa [encodeUpd, decodeUpd] using hword

/-! ### Whole words -/

section Word

variable {v : Nat}

/-- The parts of a compute word in their places (R143). -/
theorem encodeCompute_bits (w : ComputeWord) : encodeCompute w < 2 ^ 62 ∧ encodeCompute w % 2 = 0 ∧
    bitsOf (encodeCompute w) 61 47 = encodeSlot w.slot0 ∧ bitsOf (encodeCompute w) 46 32 = encodeSlot w.slot1 ∧
    bitsOf (encodeCompute w) 31 19 = encodeMop w.mop ∧ bitsOf (encodeCompute w) 18 10 = encodeUpd w.u0 ∧
    bitsOf (encodeCompute w) 9 1 = encodeUpd w.u1 := by
  have h0 := encodeSlot_lt w.slot0
  have h1 := encodeSlot_lt w.slot1
  have hm := encodeMop_lt w.mop
  have hu0 := encodeUpd_lt w.u0
  have hu1 := encodeUpd_lt w.u1
  unfold encodeCompute bitsOf
  omega

theorem decodeCompute_encodeCompute {w : ComputeWord} (hmop : mopLegal w.mop = true) (hagree : slotsAgree w.slot0 w.slot1 w.mop = true) :
    decodeCompute (encodeCompute w) = some (.compute w) := by
  obtain ⟨-, heven, h0, h1, hm, hu0, hu1⟩ := encodeCompute_bits w
  rw [decodeCompute, h0, h1, hm, hu0, hu1, decodeSlot_encodeSlot, decodeSlot_encodeSlot, decodeMop_encodeMop hmop, decodeUpd_encodeUpd,
    decodeUpd_encodeUpd]
  exact if_pos ⟨heven, hagree⟩

/-- A compute word from its fields. -/
theorem compute_of_bits (hf : bitsOf v 63 62 = 0) (hv : v < 2 ^ 64) (heven : v % 2 = 0) :
    bitsOf v 61 47 * 2 ^ 47 + bitsOf v 46 32 * 2 ^ 32 + bitsOf v 31 19 * 2 ^ 19 + bitsOf v 18 10 * 2 ^ 10 + bitsOf v 9 1 * 2 = v := by
  unfold bitsOf at *
  omega

/-- A compute word that decodes likewise, and its parts agree as R162 asks. -/
theorem encodeLane_of_decodeCompute {w : LaneWord} (hv : v < 2 ^ 64) (hf : bitsOf v 63 62 = 0) (h : decodeCompute v = some w) :
    encodeLane w = v ∧ laneLegal w = true := by
  unfold decodeCompute at h
  split at h
  next a b m ha hb hm =>
    obtain ⟨⟨heven, hagree⟩, h⟩ := Option.ite_none_right_eq_some.mp h
    obtain rfl := Option.some.inj h
    obtain ⟨hmop, hlegal⟩ := encodeMop_of_decodeMop (bitsOf_lt v 31 19) hm
    refine ⟨?_, (Bool.and_eq_true ..).mpr ⟨hlegal, hagree⟩⟩
    rw [encodeLane, encodeCompute, encodeSlot_of_decodeSlot (bitsOf_lt v 61 47) ha, encodeSlot_of_decodeSlot (bitsOf_lt v 46 32) hb, hmop,
      encodeUpd_decodeUpd (bitsOf_lt v 18 10), encodeUpd_decodeUpd (bitsOf_lt v 9 1), compute_of_bits hf hv heven]
  next => exact nomatch h

/-- A word of format 0b00 is a compute word (R139). -/
theorem decodeLane_compute (hf : bitsOf v 63 62 = 0) : decodeLane v = decodeCompute v := by
  simp only [decodeLane, hf]

/-- A word of format 0b10 is a control word. -/
theorem decodeLane_control (hf : bitsOf v 63 62 = 2) : decodeLane v = decodeControl v := by
  simp only [decodeLane, hf]

end Word

/-! ### The statements -/

/-- Settles O21: the format of the word tells the two kinds apart, and each decoder finds the fields of its words. -/
theorem laneWordRoundTrip : Obligations.LaneWordRoundTrip := by
  intro w hlegal
  cases w with
  | compute w =>
    obtain ⟨hmop, hagree⟩ := (Bool.and_eq_true ..).mp hlegal
    obtain ⟨hlt, -⟩ := encodeCompute_bits w
    have hformat : bitsOf (encodeCompute w) 63 62 = 0 := bitsOf_above hlt
    refine ⟨?_, hlt.trans (by decide)⟩
    exact (decodeLane_compute hformat).trans (decodeCompute_encodeCompute hmop hagree)
  | control c =>
    obtain ⟨hge, hlt⟩ := encodeControl_bounds c
    have hformat : bitsOf (encodeControl c) 63 62 = 2 := by
      unfold bitsOf
      omega
    refine ⟨?_, hlt.trans (by decide)⟩
    exact (decodeLane_control hformat).trans (decodeControl_encodeControl c)

/-- Settles O22: a word that decodes is put together again from its fields. -/
theorem laneWordUnique : Obligations.LaneWordUnique := by
  intro v w h
  unfold decodeLane at h
  split at h
  next hformat => exact encodeLane_of_decodeCompute v.isLt hformat h
  next hformat => exact encodeLane_of_decodeControl v.isLt hformat h
  next => exact nomatch h

/-- Settles O23 by decoding each word. -/
theorem laneWordsDecode : Obligations.LaneWordsDecode := by
  unfold Obligations.LaneWordsDecode
  decide +kernel

end Sys2Proof.Machine
end

