-- ==== Sys2Proof/Proofs/MemoryCommands.lean ====
section
/-! SUPPORT. The capture of a report whose code has more than 16 bits (R163, R164, R175–R177). -/

namespace Sys2Proof.Machine

/-- There are 12 counts, one for each class; an element 32 would be the low word of the first log entry. -/
theorem celog_holds_count32 (s : State) : F.SYS_ECC_CECNT_COUNT.get 32 s = R.SYS_ECC_CELOG.val 0 s % 2 ^ 16 := by
  have hkey : R.SYS_ECC_CECNT.key 32 0 0 = R.SYS_ECC_CELOG.key 0 0 0 := by decide
  have hword : R.SYS_ECC_CECNT.word 32 0 0 s = R.SYS_ECC_CELOG.word 0 0 0 s := by unfold Reg.word; rw [hkey]; rfl
  have hcount : F.SYS_ECC_CECNT_COUNT.get 32 s = (R.SYS_ECC_CECNT.word 32 0 0 s + 2 ^ 32 * 0) / 2 ^ 0 % 2 ^ 16 := rfl
  have hentry : R.SYS_ECC_CELOG.val 0 s = R.SYS_ECC_CELOG.word 0 0 0 s + 2 ^ 32 * (R.SYS_ECC_CELOG.word 0 1 0 s + 2 ^ 32 * 0) := rfl
  rw [hcount, hentry, hword]
  omega

/-- The node after reset, with a waiting report of class 32 (a code of 18 bits). -/
def class32Waits : State := { State.reset with ecc := { eccReset with queue := [⟨0x20000, 0, 0⟩] } }

/-- Its capture counts it, after it has written the entry. -/
theorem ceTake_counts_class32 : F.SYS_ECC_CECNT_COUNT.get 32 (ceTake.run class32Waits) = 1 := by decide +kernel

/-- Refutes O28: the state does not bound the code of a report to the 16 bits of R164, and the count of a report of class 32, kept where the first
log entry stands, overwrites the entry that the report has just been given. -/
theorem not_memoryCommandsComplete : ¬ Obligations.MemoryCommandsComplete := by
  unfold Obligations.MemoryCommandsComplete
  intro h
  obtain ⟨t, ht, -, hentry, -⟩ := (h class32Waits).1 ⟨0x20000, 0, 0⟩ [] rfl (by decide)
  obtain rfl : ceTake.run class32Waits = t := Host.Outcome.next.inj ht
  have hcount := ceTake_counts_class32
  rw [celog_holds_count32, hentry] at hcount
  exact absurd hcount (by decide)

end Sys2Proof.Machine
end

