-- ==== Sys2Proof/Proofs/RoutingCommands.lean ====
section
/-! SUPPORT. The release of a stalled route write of the host port while a later word of the port waits behind it (R201, R601). -/

namespace Sys2Proof.Machine

/-- The node after an edge in whose cycle the host port issued two words to entry 5 of `ROUTE_BUS`: the first, which enables the entry, stalls
until E1 has ended (R201), and the second, which disables it again, waits behind the first (R601). All else stands as after reset. -/
def hostWordsWait : State := { State.reset with bus := { busReset with
  routeStall := [⟨.master 1, R.ROUTE_BUS.addr 5, .write .b4 0x80000641⟩]
  waiting := [⟨.master 1, R.ROUTE_BUS.addr 5, .write .b4 0⟩] } }

/-- The release performs both words in issue order: the entry holds what the second says. -/
theorem release_disables_entry :
    F.ROUTE_BUS_VALID.get 5 ((Act.seq routeRelease (resumeWaiting fun _ => true)).run hostWordsWait) = 0 := by decide +kernel

/-- Refutes O30: nothing keeps a second access of the same master from waiting behind the stalled write. The release performs that one too
(R601), so the entry need not hold what the stalled write asked for. -/
theorem not_routingCommandsComplete : ¬ Obligations.RoutingCommandsComplete := by
  unfold Obligations.RoutingCommandsComplete
  intro h
  obtain ⟨-, -, -, hrelease, -⟩ := h 1 0 hostWordsWait
  obtain ⟨t, ht, -, hvalid, -⟩ := hrelease 5 0x80000641 (by decide +kernel) rfl
  obtain rfl : (Act.seq routeRelease (resumeWaiting fun _ => true)).run hostWordsWait = t := Host.Outcome.next.inj ht
  have hdisabled : F.ROUTE_BUS_VALID.of (0x80000641 : W64).toNat = 0 := hvalid.symm.trans release_disables_entry
  exact absurd hdisabled (by decide)

end Sys2Proof.Machine
end

