-- ==== Sys2Proof/Proofs/DelayCommands.lean ====
section
/-! SUPPORT. The write of a delay tap while the tick stands and `TICK_CFG` holds another F than the one in force (R46, R236). -/

namespace Sys2Proof.Machine

/-! ### Taps out of range (R236) -/

theorem entryOf_dlyTap : entryOf R.DRAM_DLY_TAP = ⟨R.DRAM_DLY_TAP, [F.DRAM_DLY_TAP_EN, F.DRAM_DLY_TAP_LINE, F.DRAM_DLY_TAP_GAL,
    F.DRAM_DLY_TAP_OUT_ADDR, F.DRAM_DLY_TAP_DELAY]⟩ := rfl

/-- The line and the delay that a write of a tap asks for. -/
theorem dlyTap_afterWrite (j m v : Nat) (s : State) : let new := afterWrite (entryOf R.DRAM_DLY_TAP) j m v (fullMask 2) s
    F.DRAM_DLY_TAP_LINE.of new = F.DRAM_DLY_TAP_LINE.of v ∧ F.DRAM_DLY_TAP_DELAY.of new = F.DRAM_DLY_TAP_DELAY.of v := by
  have hok : FldsOk 2 (entryOf R.DRAM_DLY_TAP).flds := by rw [entryOf_dlyTap]; unfold FldsOk; decide
  exact ⟨of_afterWrite hok (by simp [entryOf_dlyTap]) rfl rfl (by simp [F.DRAM_DLY_TAP_LINE]) j m s,
    of_afterWrite hok (by simp [entryOf_dlyTap]) rfl rfl (by simp [F.DRAM_DLY_TAP_DELAY]) j m s⟩

/-- A tap out of range for the F that register writes are judged by is dropped. -/
theorem wrDlyTap_drops {j m v : Nat} {s : State}
    (h : tapInRange (rated s) (F.DRAM_DLY_TAP_LINE.of v) (F.DRAM_DLY_TAP_DELAY.of v) = false) :
    (wrDlyTap m j v (fullMask 2)).run s = (dropped m (R.DRAM_DLY_TAP.addr j + 4)).run s := by
  obtain ⟨hline, hdelay⟩ := dlyTap_afterWrite j m v s
  unfold wrDlyTap
  rw [run_look]
  dsimp only
  rw [hline, hdelay, h, if_pos (by simp)]

/-- The range that register writes are judged by rests on the registers, their applied copies and the tick alone. -/
theorem tapInRange_rated_congr {s t : State} (hr : t.regs = s.regs) (hl : t.live = s.live) (hk : t.tick = s.tick) (l d : Nat) :
    tapInRange (rated t) l d = tapInRange (rated s) l d := by
  have hlen : ∀ u : State, lineLen (rated u) l = lineLen u l := fun u => by unfold rated; split <;> rfl
  have hsame : lineLen t l = lineLen s l := by unfold lineLen Fld.live; rw [liveVal_congr hl]
  have hval : ∀ r : Reg, r.val 0 t = r.val 0 s := fun r => by unfold Reg.val Reg.word; rw [hr]
  have hrun : running t = running s := congrArg (fun v => bitsOf v _ _ == 1) (hval R.TICK_STAT)
  rw [tapInRange, spt_rated, hrun, hk, hval, hlen, hsame, tapInRange, spt_rated, hlen]

/-- The words of a tap are no record of an error and no report of an event. -/
theorem dlyTap_out {j : Nat} (h : j < 2048) : WordsOut errRegs R.DRAM_DLY_TAP j 0 :=
  out_one (n := 2048) (st := 8) rfl rfl (fun w hw => by
    have hb : R.DRAM_DLY_TAP.base = 0x20128000 := rfl
    have hn : R.DRAM_DLY_TAP.words = 2 := rfl
    exact errRegs_off (by omega) (by omega) (by omega) (by omega) (by omega) (by omega)) 0

/-- The command leaves a tap as it was where the DELAY is out of range for that F. -/
theorem dlyTapWrite_keeps {m : Master} {i : Fin 2048} {v : W64} {s t : State} (h : WriteReaches m (R.DRAM_DLY_TAP.addr i) s)
    (hrange : tapInRange (rated s) (F.DRAM_DLY_TAP_LINE.of v.toNat) (F.DRAM_DLY_TAP_DELAY.of v.toNat) = false)
    (ht : exec (.dlyTapWrite m i v) s = .next t) : R.DRAM_DLY_TAP.val i t = R.DRAM_DLY_TAP.val i s := by
  obtain rfl : (arrivePair m (R.DRAM_DLY_TAP.addr i) v.toNat (wrDlyTap m i v.toNat (fullMask 2))).run s = t :=
    Host.Outcome.next.inj ht
  obtain ⟨b, r, q, w, hrun⟩ := arrive_atTarget h 0xFF v.toNat
    (.seq (unbuf m (R.DRAM_DLY_TAP.addr i)) (wrDlyTap m i v.toNat (fullMask 2)))
  have hthere := (tapInRange_rated_congr (s := s) (t := (unbuf m (R.DRAM_DLY_TAP.addr i)).run (atTarget b r q w s))
    rfl rfl rfl _ _).trans hrange
  rw [arrivePair, hrun, run_seq, wrDlyTap_drops hthere, val_stores (stores_dropped ..) (dlyTap_out i.isLt)]
  rfl

/-! ### The statement -/

/-- The node with the tick standing and F = 4 in force, as after reset, after `TICK_CFG` has been written with F = 16; line 5 is applied
with 100 groups, a LEN of 800 samples. -/
def newRateWaits : State :=
  (R.DRAM_DLY_LINE.setLive 5 (2 ^ 63 + 100)).run ((R.TICK_CFG.set 0 0x41).run State.reset)

/-- Tap 0 enabled on line 5 with a DELAY of 19 samples: 3 × F + 7 for the F in force, below the 55 of the F to come. -/
def nearTap : W64 := 0x80A0000000000013

/-- Refutes O31: the statement takes the range of a tap by the F in force (R236), but the model judges a write while the tick stands by the
F that `TICK_CFG` holds for the next start (R46, R547). A tap whose DELAY is in range for the first alone is dropped, and its EN stays 0. -/
theorem not_delayCommandsComplete : ¬ Obligations.DelayCommandsComplete := by
  unfold Obligations.DelayCommandsComplete
  intro h
  obtain ⟨-, -, htap, -, -⟩ := h 1 nearTap newRateWaits
  have hreach : WriteReaches 1 (R.DRAM_DLY_TAP.addr 0) newRateWaits := by decide +kernel
  obtain ⟨t, ht, hen, -⟩ := htap 0 hreach (by decide +kernel) (by decide) (by decide)
  have hkeep := dlyTapWrite_keeps hreach (by decide +kernel) ht
  rw [Fld.get, show F.DRAM_DLY_TAP_EN.reg = R.DRAM_DLY_TAP from rfl, hkeep] at hen
  exact absurd hen (by decide +kernel)

end Sys2Proof.Machine
end

