-- ==== Sys2Proof/Proofs/Microphones.lean ====
section
/-! SUPPORT. The configuration of the microphones, the end of a mute period, and the outputs of both paths (R260, R264–R266, R270, R271). -/

namespace Sys2Proof.Machine

/-! ### Writes of configuration -/

/-- A stored whole write leaves a writable field as it asks, where the field takes the encoding and LOCK does not hold it. -/
theorem storeWrite_get {e : RegEntry} {f : Fld} {i m v a : Nat} {s : State} (hok : FldsOk e.reg.words e.flds)
    (ho : WordsOut errRegs e.reg i m) (hp : e.reg.perMaster = false) (hf : f ∈ e.flds) (hr : f.reg = e.reg) (hacc : f.acc = .rw)
    (hlk : (f.lk && s.lock) = false) (hu : f.of v ∉ f.unlisted) :
    f.get i ((storeWrite e i m v (fullMask e.reg.words) a).run s) = f.of v := by
  rw [← get_master (by rw [hr, hp]) i m, storeWrite_field e i m v a false false s ho (tieLost_none ..) hok hf hr]
  simp [fieldAfter, hacc, hlk, hu]

/-- A stored write changes no applied value. -/
theorem storeWrite_liveVal (e : RegEntry) (i m v mask a : Nat) (r : Reg) (j : Nat) (s : State) :
    r.liveVal j ((storeWrite e i m v mask a).run s) = r.liveVal j s :=
  liveVal_congr (touches_live (touches_storeWrite ..) (by decide) (by decide) s) ..

/-- The registers of the microphones and of the governor are no records of an error and no reports of an event. -/
theorem errRegs_dec {k : Nat} (h : 0x20080000 ≤ k) (h' : k < 0x20090000) : errRegs k = false :=
  errRegs_off (by omega) (by omega) (by omega) (by omega) (by omega) (by omega)

theorem entryOf_pdmClk : entryOf R.PDM_CLK = ⟨R.PDM_CLK, [F.PDM_CLK_EN, F.PDM_CLK_DIV]⟩ := rfl

theorem pdmClk_fldsOk : FldsOk 1 [F.PDM_CLK_EN, F.PDM_CLK_DIV] := by unfold FldsOk; decide

theorem pdmClk_out {i : Nat} (hi : i < 16) (m : Nat) : WordsOut errRegs R.PDM_CLK i m :=
  out_one (n := 16) (st := 4) rfl rfl (fun w hw => by
    have hb : R.PDM_CLK.base = 0x20080000 := rfl
    have hw : w < 1 := hw
    exact errRegs_dec (by omega) (by omega)) m

/-- A divider that f_B allows is stored, and acts at the next edge (R260). -/
theorem wrPdmClk_stores {m i v : Nat} {s : State} (hi : i < 16) (hlo : 16 ≤ F.PDM_CLK_DIV.of v) (hhi : F.PDM_CLK_DIV.of v ≤ 96)
    (hfb : 1024000 * F.PDM_CLK_DIV.of v ≤ fB s) : let t := (wrPdmClk m i v (fullMask 1)).run s
    F.PDM_CLK_EN.get i t = F.PDM_CLK_EN.of v ∧ F.PDM_CLK_DIV.get i t = F.PDM_CLK_DIV.of v ∧
      R.PDM_CLK.liveVal i t = R.PDM_CLK.liveVal i s := by
  have hdiv : F.PDM_CLK_DIV.of (afterWrite (entryOf R.PDM_CLK) i m v (fullMask 1) s) = F.PDM_CLK_DIV.of v := by
    rw [entryOf_pdmClk]
    exact of_afterWrite pdmClk_fldsOk (by simp) rfl rfl (by simp [F.PDM_CLK_DIV]) i m s
  have hrun : (wrPdmClk m i v (fullMask 1)).run s =
      (storeWrite (entryOf R.PDM_CLK) i m v (fullMask 1) (R.PDM_CLK.addr i)).run s := by
    unfold wrPdmClk
    rw [run_look]
    dsimp only
    rw [hdiv, if_neg (by simp; omega)]
  have hout := pdmClk_out hi m
  dsimp only
  rw [hrun, entryOf_pdmClk]
  exact ⟨storeWrite_get pdmClk_fldsOk hout rfl (by simp) rfl rfl rfl (by simp [F.PDM_CLK_EN]),
    storeWrite_get pdmClk_fldsOk hout rfl (by simp) rfl rfl rfl (by simp [F.PDM_CLK_DIV]), storeWrite_liveVal ..⟩

theorem entryOf_decMic : entryOf R.DEC_MIC = ⟨R.DEC_MIC, [F.DEC_MIC_FINE_EN, F.DEC_MIC_FAST_EN, F.DEC_MIC_ORDER, F.DEC_MIC_RLOG,
    F.DEC_MIC_H, F.DEC_MIC_INV, F.DEC_MIC_GAIN, F.DEC_MIC_THR, F.DEC_MIC_HYST, F.DEC_MIC_TPATH, F.DEC_MIC_TEN, F.DEC_MIC_MUTE_MS]⟩ := rfl

theorem decMic_fldsOk : FldsOk 2 (entryOf R.DEC_MIC).flds := by
  rw [entryOf_decMic]
  unfold FldsOk
  decide

theorem decMic_out {i : Nat} (hi : i < 64) (m : Nat) : WordsOut errRegs R.DEC_MIC i m :=
  out_one (n := 64) (st := 8) rfl rfl (fun w hw => by
    have hb : R.DEC_MIC.base = 0x20080200 := rfl
    have hw : w < 2 := hw
    exact errRegs_dec (by omega) (by omega)) m

/-- What R266 asks of a configuration rests on its RLOG and H alone. -/
theorem fineOk_congr {v v' : Nat} (hr : F.DEC_MIC_RLOG.of v' = F.DEC_MIC_RLOG.of v) (hh : F.DEC_MIC_H.of v' = F.DEC_MIC_H.of v)
    (s : State) (i : Nat) : fineOk s i v' = fineOk s i v := by
  unfold fineOk micR micH
  rw [hr, hh]

/-- By the rate that register writes are judged by, it rests on neither the bus nor the pair. -/
theorem fineOk_rated_bus (b : BusState) (p : PairState) (s : State) (i v : Nat) :
    fineOk (rated { s with bus := b, pair := p }) i v = fineOk (rated s) i v := by
  have hrunning : running { s with bus := b, pair := p } = running s := rfl
  unfold rated
  rw [hrunning]
  dsimp only
  split <;> rfl

/-- A consistent configuration is stored, and acts at the next edge (R266). -/
theorem wrDecMic_stores {m i v : Nat} {s : State} (hi : i < 64) (ho : F.DEC_MIC_ORDER.of v < 3) (hr : F.DEC_MIC_RLOG.of v < 5)
    (hh : F.DEC_MIC_H.of v < 3) (hfine : F.DEC_MIC_FINE_EN.of v = 1 → fineOk (rated s) i v = true) :
    let t := (wrDecMic m i v (fullMask 2)).run s
    F.DEC_MIC_FINE_EN.get i t = F.DEC_MIC_FINE_EN.of v ∧ F.DEC_MIC_ORDER.get i t = F.DEC_MIC_ORDER.of v ∧
      F.DEC_MIC_RLOG.get i t = F.DEC_MIC_RLOG.of v ∧ F.DEC_MIC_H.get i t = F.DEC_MIC_H.of v ∧
      R.DEC_MIC.liveVal i t = R.DEC_MIC.liveVal i s := by
  have hen_listed : F.DEC_MIC_FINE_EN.of v ∉ F.DEC_MIC_FINE_EN.unlisted := by simp [F.DEC_MIC_FINE_EN]
  have ho_listed : F.DEC_MIC_ORDER.of v ∉ F.DEC_MIC_ORDER.unlisted := by simp [F.DEC_MIC_ORDER] at ho ⊢; omega
  have hr_listed : F.DEC_MIC_RLOG.of v ∉ F.DEC_MIC_RLOG.unlisted := by simp [F.DEC_MIC_RLOG] at hr ⊢; omega
  have hh_listed : F.DEC_MIC_H.of v ∉ F.DEC_MIC_H.unlisted := by simp [F.DEC_MIC_H] at hh ⊢; omega
  have hasked : ∀ f ∈ (entryOf R.DEC_MIC).flds, f.acc = .rw → f.lk = false → f.of v ∉ f.unlisted →
      f.of (afterWrite (entryOf R.DEC_MIC) i m v (fullMask 2) s) = f.of v := fun f hf hacc hlk hu =>
    of_afterWrite decMic_fldsOk hf hacc hlk hu i m s
  have hrun : (wrDecMic m i v (fullMask 2)).run s =
      (storeWrite (entryOf R.DEC_MIC) i m v (fullMask 2) (R.DEC_MIC.addr i + 4)).run s := by
    unfold wrDecMic
    rw [run_look]
    dsimp only
    rw [fineOk_congr (hasked _ (by simp [entryOf_decMic]) rfl rfl hr_listed) (hasked _ (by simp [entryOf_decMic]) rfl rfl hh_listed),
      hasked _ (by simp [entryOf_decMic]) rfl rfl hen_listed, if_neg (by simpa using hfine)]
  have hget : ∀ f ∈ (entryOf R.DEC_MIC).flds, f.reg = R.DEC_MIC → f.acc = .rw → f.lk = false → f.of v ∉ f.unlisted →
      f.get i ((storeWrite (entryOf R.DEC_MIC) i m v (fullMask 2) (R.DEC_MIC.addr i + 4)).run s) = f.of v :=
    fun f hf hreg hacc hlk hu => storeWrite_get decMic_fldsOk (decMic_out hi m) rfl hf hreg hacc (by rw [hlk]; rfl) hu
  dsimp only
  rw [hrun]
  exact ⟨hget _ (by simp [entryOf_decMic]) rfl rfl rfl hen_listed, hget _ (by simp [entryOf_decMic]) rfl rfl rfl ho_listed,
    hget _ (by simp [entryOf_decMic]) rfl rfl rfl hr_listed, hget _ (by simp [entryOf_decMic]) rfl rfl rfl hh_listed,
    storeWrite_liveVal ..⟩

/-! ### The state of a microphone -/

@[simp] theorem micAt_setMic (i : Nat) (f : MicState → MicState) (s : State) : micAt ((setMic i f).run s) i = f (micAt s i) :=
  get_put_self ..

/-- Storing a register leaves the microphones. -/
theorem micAt_set (i : Nat) (r : Reg) (j v : Nat) (s : State) : micAt ((r.set j v).run s) i = micAt s i :=
  set_keeps (f := fun s => micAt s i) (fun _ _ _ => rfl) r j v 0 s

/-- So does an event. -/
theorem micAt_raise (i : Nat) (e : Ev) (d0 d1 d2 g : Nat) (s : State) : micAt ((raise e d0 d1 d2 g).run s) i = micAt s i :=
  congrArg (fun d : DecState => smGet (fun _ => micReset) d.mics i) (touches_dec (touches_raise ..) (by decide) (by decide) s)

/-- The end of a mute period (R264). -/
theorem muteEnd_ends {i : Nat} (hi : i < 64) (s : State) : (micAt ((muteEnd i).run s) i).mute = 0 ∧
    bitOf (R.DEC_MUTED.val 0 ((muteEnd i).run s)) i = false := by
  unfold muteEnd setMuted
  rw [run_seq, run_look]
  refine ⟨?_, ?_⟩
  · rw [micAt_set, micAt_setMic]
  · rw [val_set]
    exact bitOf_putBits_zero _ _ hi

/-! ### Outputs -/

/-- The parts of a microphone that an output gives, which the thresholds and the over-range rule only read. -/
def micOutputs (x : MicState) : Cic × Cic × W40 × SMap W40 := (x.fine, x.fast, x.fineLast, x.fastOut)

theorem micOutputs_setMic {i : Nat} {f : MicState → MicState} (h : ∀ x, micOutputs (f x) = micOutputs x) :
    Keeps (fun s => micOutputs (micAt s i)) (setMic i f) := fun _ => (congrArg micOutputs (micAt_setMic ..)).trans (h _)

/-- The thresholds (R273) and the over-range rule (R271) leave the outputs of the microphone. -/
theorem micTake_outputs (i : Nat) (fastPath : Bool) (y : Int × Bool) (w : W40) :
    Keeps (fun s => micOutputs (micAt s i)) (micTake i fastPath y w) := by
  have hkeep : ∀ a : Act, (∀ s, micAt (a.run s) i = micAt s i) → Keeps (fun s => micOutputs (micAt s i)) a :=
    fun _ h s => congrArg micOutputs (h s)
  have hover : Keeps (fun s => micOutputs (micAt s i)) (setMic i fun y =>
      if fastPath then { y with ovrFast := true } else { y with ovrFine := true }) :=
    micOutputs_setMic fun x => by cases fastPath <;> rfl
  refine Keeps.look fun s => Keeps.acts ?_
  simp only [List.forall_mem_cons, List.not_mem_nil, false_imp_iff, implies_true, and_true]
  refine ⟨Keeps.onlyIf fun _ => micOutputs_setMic fun _ => rfl, Keeps.onlyIf fun _ => Keeps.acts ?_⟩
  simp only [List.forall_mem_cons, List.not_mem_nil, false_imp_iff, implies_true, and_true]
  exact ⟨hkeep _ (micAt_set i _ _ _), hover, Keeps.onlyIf fun _ => hkeep _ fun _ => rfl,
    Keeps.onlyIf fun _ => hkeep _ (micAt_raise i _ _ _ _ _)⟩

/-- A value that is a whole number is the sample, whatever the free number says. -/
theorem micSample_whole {y : Int × Bool} (h : y.2 = false) (r r' : Nat) : micSample y r = micSample y r' := by simp [micSample, h]

/-- The sample of an output is the one that the next free number selects. -/
theorem micRound_run (y : Int × Bool) (k : W40 → Act) (s : State) :
    ∃ u, (micRound y k).run s = (k (micSample y (Config.freeNat s.free))).run u := by
  unfold micRound
  cases hy : y.2 with
  | true => exact ⟨_, rfl⟩
  | false => exact ⟨s, by rw [micSample_whole hy (Config.freeNat s.free) 0]; rfl⟩

/-- An output: what the filters leave of the microphone, with the sample put where its path keeps it, and then judged. -/
theorem micRound_outputs (i : Nat) (fastPath : Bool) (y : Int × Bool) (put : W40 → MicState) (s : State) :
    micOutputs (micAt ((micRound y fun w => .seq (setMic i fun _ => put w) (micTake i fastPath y w)).run s) i) =
      micOutputs (put (micSample y (Config.freeNat s.free))) := by
  obtain ⟨u, hrun⟩ := micRound_run y (fun w => .seq (setMic i fun _ => put w) (micTake i fastPath y w)) s
  rw [hrun, run_seq]
  exact (micTake_outputs ..).trans (congrArg micOutputs (micAt_setMic ..))

/-- What a fine output leaves of the microphone whose filters are in the state `x`. -/
def withFine (x : MicState) (w : W40) : MicState := { x with fineOut := x.fineOut ++ [w], fineLast := w }

/-- What a fast output at node sample `k` leaves. -/
def withFast (k : Nat) (x : MicState) (w : W40) : MicState := { x with fastOut := smInsert x.fastOut k w }

/-- An output of a path whose filters give `z`, kept where `put` says. -/
def outputOf (i : Nat) (fastPath : Bool) (z : MicState × Int × Bool) (put : MicState → W40 → MicState) : Act :=
  micRound z.2 fun w => .seq (setMic i fun _ => put z.1 w) (micTake i fastPath z.2 w)

theorem fineOutput_run {i : Nat} (bits : List Bool) {s : State} (hclk : micClocked s i = true) (hen : F.DEC_MIC_FINE_EN.liveOn i s = true)
    (hok : fineOk s i (R.DEC_MIC.liveVal i s) = true) : (fineOutput i bits).run s =
      (outputOf i false (fineRun (R.DEC_MIC.liveVal i s) (micAt s i) bits) withFine).run s := by
  unfold fineOutput
  rw [run_look]
  dsimp only
  rw [hclk, hen, hok, if_pos (by decide)]
  generalize fineRun (R.DEC_MIC.liveVal i s) (micAt s i) bits = z
  rfl

theorem fastOutput_run {i : Nat} (bits : List Bool) (k : Nat) {s : State} (hclk : micClocked s i = true)
    (hen : F.DEC_MIC_FAST_EN.liveOn i s = true) : (fastOutput i bits k).run s =
      (outputOf i true (fastRun (R.DEC_MIC.liveVal i s) (micAt s i) bits) (withFast k)).run s := by
  unfold fastOutput
  rw [run_look]
  dsimp only
  rw [hclk, hen, if_pos (by decide)]
  generalize fastRun (R.DEC_MIC.liveVal i s) (micAt s i) bits = z
  rfl

/-- A fine output gives the sample, and leaves the path as its filters do (R265). -/
theorem outputOf_fine (i : Nat) (z : MicState × Int × Bool) (s : State) : let t := (outputOf i false z withFine).run s
    (micAt t i).fineLast = micSample z.2 (Config.freeNat s.free) ∧ (micAt t i).fine = z.1.fine := by
  have hout := micRound_outputs i false z.2 (withFine z.1) s
  simp only [micOutputs, withFine, Prod.mk.injEq] at hout
  obtain ⟨hfine, -, hlast, -⟩ := hout
  exact ⟨hlast, hfine⟩

/-- So does a fast output (R270). -/
theorem outputOf_fast (i k : Nat) (z : MicState × Int × Bool) (s : State) : let t := (outputOf i true z (withFast k)).run s
    smFind (micAt t i).fastOut k = some (micSample z.2 (Config.freeNat s.free)) ∧ (micAt t i).fast = z.1.fast := by
  have hout := micRound_outputs i true z.2 (withFast k z.1) s
  simp only [micOutputs, withFast, Prod.mk.injEq] at hout
  obtain ⟨-, hfast, -, hkept⟩ := hout
  exact ⟨(congrArg (smFind · k) hkept).trans (find_insert_self ..), hfast⟩

end Sys2Proof.Machine
end

