-- ==== Sys2Proof/Proofs/PoolStores.lean ====
section
/-! SUPPORT. The registers that appending a word to a queue can store (R161, R176, R179, R365, R370, R371). -/

namespace Sys2Proof.Machine

/-- The words of the pool block and of the error logs, and those of an event. -/
def poolWords (k : Nat) : Bool := raiseRegs k || (0x20000400 ≤ k && k < 0x20000800) || (0x200B0000 ≤ k && k < 0x200B1000)

theorem stores_raise_pool (e : Ev) (d0 d1 d2 g : Nat) : (raise e d0 d1 d2 g).Stores poolWords :=
  stores_mono (stores_raise e d0 d1 d2 g) fun k h => by simp [poolWords, h]

/-! ### Codewords that are read -/

theorem stores_ceReport (k bit : Nat) : (ceReport k bit).Stores poolWords := by
  have hlost : (F.SYS_ECC_CELOST_COUNT.inc 0).Stores poolWords :=
    stores_inc (f := F.SYS_ECC_CELOST_COUNT) (by unfold WordsIn; decide) 1
  rw [ceReport, stores_look]
  intro s
  split
  · exact stores_setEcc _
  · exact hlost

theorem stores_ueNote (k req : Nat) (ev : Option Ev) : (ueNote k req ev).Stores poolWords := by
  have hcount : (F.SYS_ECC_UECNT_COUNT.inc 0).Stores poolWords :=
    stores_inc (f := F.SYS_ECC_UECNT_COUNT) (by unfold WordsIn; decide) 1
  have hlog : ∀ v, (R.SYS_ECC_UE.set 0 v).Stores poolWords := stores_rset (by unfold WordsIn; decide)
  unfold ueNote
  rw [stores_look]
  intro s
  simp only [stores_acts_cons, stores_acts_nil, and_true, stores_onlyIf]
  refine ⟨hcount, fun _ => hlog _, stores_setSump _, ?_⟩
  cases ev with
  | none => exact stores_done
  | some e => exact stores_raise_pool _ _ _ _ _

/-- A codeword check stores what its reports do, and then what goes on with it. -/
theorem stores_eccJudge {ms : List (Nat × EccMark)} {req : Nat} {ev : Option Ev} {k : Bool → Act} (h : ∀ ok, (k ok).Stores poolWords) :
    (eccJudge ms req ev k).Stores poolWords := by
  unfold eccJudge
  simp only [stores_acts_cons, stores_acts_nil, and_true]
  refine ⟨stores_forEach_of fun p => ?_, h _⟩
  split
  · exact stores_ceReport _ _
  · exact stores_ueNote _ _ _

theorem stores_readTag {c : Nat} {k : Nat → Bool → Act} (h : ∀ t ok, (k t ok).Stores poolWords) : (readTag c k).Stores poolWords :=
  fun _ => stores_eccJudge fun ok s => h (tagOf s c) ok

/-! ### Cells and queues -/

theorem stores_setTag (c : Nat) (t : Word) : (setTag c t).Stores poolWords := by simp [setTag, eccFresh]

theorem stores_setQueue (q : Nat) (f : PoolQ → PoolQ) : (setQueue q f).Stores poolWords := stores_setPool _

theorem stores_queueMark (q : Nat) : (queueMark q).Stores poolWords := by
  have hhigh : ∀ v, (R.POOL_QHIGH.set (q / 32 % 128) v).Stores poolWords := stores_rset fun w hw => by
    have hb : R.POOL_QHIGH.base = 0x200B0200 := rfl
    have hw : w < 1 := hw
    rw [key_one rfl rfl]
    simp only [poolWords, Bool.or_eq_true, Bool.and_eq_true, decide_eq_true_eq]
    omega
  simp [queueMark, stores_setQueue, hhigh, stores_raise_pool]

theorem stores_poolMark : poolMark.Stores poolWords := by
  have hmark : WordsIn poolWords R.POOL_WMSTAT 0 0 := by unfold WordsIn; decide
  rw [poolMark, stores_look]
  intro s
  dsimp only
  split
  · simp [stores_fset (f := F.POOL_WMSTAT_ABOVE) hmark, stores_fset (f := F.POOL_WMSTAT_CROSSED) hmark, stores_raise_pool]
  · simp [stores_fset (f := F.POOL_WMSTAT_ABOVE) hmark]

theorem stores_countFree : countFree.Stores poolWords := fun _ =>
  ⟨stores_fset (f := F.POOL_STAT_FREE) (by unfold WordsIn; decide) _, stores_poolMark⟩

theorem stores_overdraw (q req : Nat) : (overdraw q req).Stores poolWords := by
  simp [overdraw, stores_setQueue, stores_raise_pool]

/-- The grant of a cell stores what counts it, and then what goes on with it. -/
theorem stores_allocCell {q req owner : Nat} {lnk : Bool} {k : Option Nat → Act} (h : ∀ c, (k c).Stores poolWords) :
    (allocCell q req owner lnk k).Stores poolWords := by
  have hclosed : ∀ v, (F.POOL_WMSTAT_CLOSED.set 0 v).Stores poolWords := stores_fset (by unfold WordsIn; decide)
  rw [allocCell, stores_look]
  intro s
  dsimp only
  split
  · exact h _
  · split
    · exact ⟨stores_overdraw _ _, h _⟩
    · split
      · exact h _
      · refine stores_readTag fun t ok => ?_
        split
        · exact ⟨stores_setPool _, stores_setTag _ _, stores_setQueue _ _, stores_countFree, h _⟩
        · exact ⟨hclosed _, stores_countFree, h _⟩

theorem stores_tailGood {q : Nat} {k : Act} (h : k.Stores poolWords) : (tailGood q k).Stores poolWords := by
  rw [tailGood, stores_look]
  intro s
  dsimp only
  split
  · exact h
  · refine stores_readTag fun _ ok => ?_
    split
    · exact h
    · exact stores_setQueue _ _

theorem stores_eccFull (a n : Nat) : (eccFull a n).Stores poolWords := by
  rw [eccFull, stores_look]
  intro s
  split
  · exact stores_done
  · exact stores_setEcc _

/-- Appending a word stores registers of the pool, of the error logs and of an event alone. -/
theorem stores_appendWord (q req : Nat) (w : W40) : (appendWord q req w).Stores poolWords := by
  have hput : ∀ a, (acts [memSetLe a 8 (ofInt 64 w.toInt), eccFull a 8, queueMark q]).Stores poolWords := fun a =>
    ⟨stores_memSetLe .., stores_eccFull _ _, stores_queueMark q⟩
  rw [appendWord, stores_look]
  intro s
  dsimp only
  split
  · exact stores_done
  · split
    · exact ⟨stores_setQueue _ _, hput _⟩
    · refine stores_tailGood (stores_allocCell fun c => ?_)
      cases c with
      | none => exact stores_done
      | some c => exact ⟨(stores_onlyIf ..).mpr fun _ => stores_setTag _ _, stores_setQueue _ _, hput _⟩

end Sys2Proof.Machine
end

