-- ==== Sys2Proof/Proofs/TrimGovernor.lean ====
section
/-! SUPPORT. The trim governor: the update of the applied trims, the selector writes, its timing, and ZERO (R274–R283). -/

namespace Sys2Proof.Machine

/-! ### Effects in turn -/

/-- What the effect of every item keeps, all of them keep. -/
theorem run_forEach_inv {α : Type} {f : α → Act} {I : State → Prop} {xs : List α} (h : ∀ y ∈ xs, ∀ s, I s → I ((f y).run s)) :
    ∀ {s : State}, I s → I ((forEach xs f).run s) := by
  induction xs with
  | nil => exact fun hs => hs
  | cons y ys ih =>
    obtain ⟨hy, hys⟩ := List.forall_mem_cons.mp h
    intro s hs
    rw [run_forEach_cons]
    exact ih hys (hy s hs)

/-- Where one item leads from `P` to `Q` and the others keep both, so do all of them together. -/
theorem run_forEach_one {α : Type} {f : α → Act} {P Q : State → Prop} {x : α} {xs : List α} (hx : x ∈ xs) (hn : xs.Nodup)
    (hP : ∀ y ∈ xs, y ≠ x → ∀ s, P s → P ((f y).run s)) (hQ : ∀ y ∈ xs, y ≠ x → ∀ s, Q s → Q ((f y).run s))
    (hf : ∀ s, P s → Q ((f x).run s)) : ∀ {s : State}, P s → Q ((forEach xs f).run s) := by
  induction xs with
  | nil => cases hx
  | cons y ys ih =>
    obtain ⟨hy, hn⟩ := List.nodup_cons.mp hn
    obtain ⟨hPy, hPys⟩ := List.forall_mem_cons.mp hP
    obtain ⟨-, hQys⟩ := List.forall_mem_cons.mp hQ
    intro s hs
    rw [run_forEach_cons]
    rcases List.mem_cons.mp hx with rfl | hx
    · exact run_forEach_inv (fun z hz => hQys z hz (ne_of_mem_of_not_mem hz hy)) (hf s hs)
    · exact ih hx hn hPys hQys (hPy (ne_of_mem_of_not_mem hx hy).symm s hs)

theorem forEach_map {α β : Type} (xs : List α) (g : α → β) (f : β → Act) : forEach (xs.map g) f = forEach xs fun x => f (g x) := by
  simp [forEach, Function.comp_def]

/-- A two's complement field from its value. -/
theorem ofInt_toInt {w v : Nat} (h : v < 2 ^ w) : ofInt w (toInt w v) = v := by
  unfold ofInt toInt
  rw [Nat.mod_eq_of_lt h]
  split
  · rw [← Int.natCast_mod, Nat.mod_eq_of_lt h]
    rfl
  · rw [Int.sub_emod_right, ← Int.natCast_mod, Nat.mod_eq_of_lt h]
    rfl

theorem ofInt_lt (w : Nat) (x : Int) : ofInt w x < 2 ^ w := by
  have hpos : (0 : Int) < (2 ^ w : Nat) := by exact_mod_cast Nat.two_pow_pos w
  have hlt := Int.emod_lt_of_pos x hpos
  have hge := Int.emod_nonneg x (Int.ne_of_gt hpos)
  unfold ofInt
  omega

/-! ### The registers of the governor -/

/-- The words that the channels share in an update: their flags, and what an event stores. -/
def flagWords (k : Nat) : Bool := raiseRegs k || (0x20081018 ≤ k && k < 0x20081028)

/-- The words that the update of channel `c` can store. -/
def trimWords (c k : Nat) : Bool := flagWords k || (0x20083000 + 64 * c ≤ k && k < 0x20083000 + 64 * c + 64)

theorem raiseRegs_off {k : Nat} (h : errRegs k = false) : raiseRegs k = false := (Bool.or_eq_false_iff.mp h).1

theorem stores_raise_flag (e : Ev) (d0 d1 d2 g : Nat) : (raise e d0 d1 d2 g).Stores flagWords :=
  stores_mono (stores_raise e d0 d1 d2 g) fun k h => by simp [flagWords, h]

theorem trimWords_of_flag (c : Nat) {k : Nat} (h : flagWords k = true) : trimWords c k = true := by simp [trimWords, h]

/-- The registers that an update reads are stored by none, and the trims of a channel by its own alone. -/
theorem trimWords_off {c k : Nat} (h : k < 0x20030000 ∨ (0x20080000 ≤ k ∧ k < 0x20090000)) (hf : k < 0x20081018 ∨ 0x20081028 ≤ k)
    (hc : k < 0x20083000 + 64 * c ∨ 0x20083000 + 64 * c + 64 ≤ k) : trimWords c k = false := by
  have herr : errRegs k = false := errRegs_off (by omega) (by omega) (by omega) (by omega) (by omega) (by omega)
  simp only [trimWords, flagWords, raiseRegs_off herr, Bool.false_or, Bool.or_eq_false_iff, Bool.and_eq_false_iff, decide_eq_false_iff_not]
  omega

/-- An applied trim is no flag of the channels. -/
theorem trim_out_flags {c b : Nat} (hc : c < 64) (hb : b < 16) : WordsOut flagWords R.DEC_ID_TRIM (16 * c + b) 0 :=
  out_one (n := 1024) (st := 4) rfl rfl (fun w hw => by
    have hbase : R.DEC_ID_TRIM.base = 0x20083000 := rfl
    have hw : w < 1 := hw
    have herr := raiseRegs_off (k := R.DEC_ID_TRIM.base + (16 * c + b) * 4 + 4 * w) (errRegs_dec (by omega) (by omega))
    simp only [flagWords, herr, Bool.false_or, Bool.and_eq_false_iff, decide_eq_false_iff_not]
    omega) 0

/-- Nor a register of the pool. -/
theorem trim_out_pool {c b : Nat} (hc : c < 64) (hb : b < 16) : WordsOut poolWords R.DEC_ID_TRIM (16 * c + b) 0 :=
  out_one (n := 1024) (st := 4) rfl rfl (fun w hw => by
    have hbase : R.DEC_ID_TRIM.base = 0x20083000 := rfl
    have hw : w < 1 := hw
    have herr := raiseRegs_off (k := R.DEC_ID_TRIM.base + (16 * c + b) * 4 + 4 * w) (errRegs_dec (by omega) (by omega))
    simp only [poolWords, herr, Bool.false_or, Bool.or_eq_false_iff, Bool.and_eq_false_iff, decide_eq_false_iff_not]
    omega) 0

/-- No channel but `c` stores its trims. -/
theorem trim_out_others {c b d : Nat} (hc : c < 64) (hb : b < 16) (hd : d ≠ c) : WordsOut (trimWords d) R.DEC_ID_TRIM (16 * c + b) 0 :=
  out_one (n := 1024) (st := 4) rfl rfl (fun w hw => by
    have hbase : R.DEC_ID_TRIM.base = 0x20083000 := rfl
    have hw : w < 1 := hw
    exact trimWords_off (by omega) (by omega) (by omega)) 0

theorem trim_apart {k k' : Nat} (h : k ≠ k') : Apart R.DEC_ID_TRIM k 0 R.DEC_ID_TRIM k' 0 := fun w hw w' hw' => by
  have hw : w < 1 := hw
  have hw' : w' < 1 := hw'
  rw [key_one rfl rfl, key_one rfl rfl]
  omega

/-- A word of a register of the selectors. -/
theorem key_sel {r : Reg} (hd : r.dims = [(16, 0x1000000), (16, 4)]) (hp : r.perMaster = false) (k w m : Nat) :
    r.key k w m = r.base + k / 16 * 0x1000000 + k % 16 * 4 + 4 * w := by
  simp [Reg.key, Reg.addr, hd, hp, dimsOfs, dimsCount, Nat.add_assoc]

/-! ### The update of one channel -/

/-- An update changes nothing of the governor's state but the selector writes to come. -/
theorem trimChannel_keeps (c u : Nat) : Keeps (fun s => (s.dec.trim.clipped, s.dec.trim.enabled)) (trimChannel c u) := by
  have hset : ∀ (r : Reg) (i v : Nat), Keeps (fun s => (s.dec.trim.clipped, s.dec.trim.enabled)) (r.set i v) :=
    fun r i v => set_keeps (fun _ _ _ => rfl) r i v 0
  have hraise : Keeps (fun s => (s.dec.trim.clipped, s.dec.trim.enabled)) (raise .ID_BOUND c) := fun s =>
    congrArg (fun d : DecState => (d.trim.clipped, d.trim.enabled)) (touches_dec (touches_raise _ _ _ _ _) (by decide) (by decide) s)
  refine Keeps.look fun s => ?_
  split
  · exact hset _ _ _
  · split
    · exact Keeps.done _
    · refine Keeps.acts ?_
      simp only [List.forall_mem_cons, List.not_mem_nil, false_imp_iff, implies_true, and_true]
      exact ⟨Keeps.onlyIf fun _ => Keeps.seq (hset _ _ _) hraise,
        Keeps.forEach fun _ _ => Keeps.onlyIf fun _ => fset_keeps (fun _ _ _ => rfl) _ _ _ 0, Keeps.onlyIf fun _ _ => rfl⟩

theorem stores_trimChannel (c u : Nat) : (trimChannel c u).Stores (trimWords c) := by
  have hflag : ∀ {a : Act}, a.Stores flagWords → a.Stores (trimWords c) := fun h => stores_mono h fun _ => trimWords_of_flag c
  have hfrz : ∀ v, (R.DEC_ID_FRZ.set 0 v).Stores flagWords := stores_rset (by unfold WordsIn; decide)
  have hclamp : ∀ v, (R.DEC_ID_CLAMP.set 0 v).Stores flagWords := stores_rset (by unfold WordsIn; decide)
  have htrim : ∀ b < 16, ∀ v, (F.DEC_ID_TRIM_TRIM.set (16 * c + b) v).Stores (trimWords c) := fun b hb => stores_fset fun w hw => by
    have hbase : F.DEC_ID_TRIM_TRIM.reg.base = 0x20083000 := rfl
    have hw : w < 1 := hw
    rw [key_one (r := F.DEC_ID_TRIM_TRIM.reg) rfl rfl]
    simp only [trimWords, Bool.or_eq_true, Bool.and_eq_true, decide_eq_true_eq]
    omega
  rw [trimChannel, stores_look]
  intro s
  have hbands : F.DEC_ID_CH_BANDS.get c s < 16 := bitsOf_lt ..
  split
  · exact hflag (hfrz _)
  · split
    · exact stores_done
    · simp only [forEach_map, stores_acts_cons, stores_acts_nil, and_true, stores_onlyIf]
      refine ⟨fun _ => hflag ⟨hclamp _, stores_raise_flag _ _ _ _ _⟩, stores_forEach.mpr fun b hb => (stores_onlyIf ..).mpr fun _ => ?_,
        fun _ => stores_setDec _⟩
      exact htrim b (by have := List.mem_range.mp hb; omega) _

/-- The trim that an update moves band `b` of channel `c` to (R277). -/
def movedTrim (c b : Nat) (s : State) : Int :=
  trimMove (toInt 20 (F.DEC_ID_PROP_TRIM.get (16 * c + b) s)) (toInt 20 (F.DEC_ID_TRIM_TRIM.get (16 * c + b) s))
    (F.DEC_ID_LIMIT_BOUND.get 0 s) (F.DEC_ID_LIMIT_STEP.get 0 s)

/-- The bands of a channel take their moved trims `x`; one whose trim `a` the move leaves as it is needs no store. -/
theorem bands_move {c b n : Nat} (hb : b < n) (a x : Nat → Int) {s : State}
    (ha : toInt 20 (F.DEC_ID_TRIM_TRIM.get (16 * c + b) s) = a b) : F.DEC_ID_TRIM_TRIM.get (16 * c + b) ((forEach (List.range n) fun b =>
      onlyIf (decide (a b ≠ x b)) (F.DEC_ID_TRIM_TRIM.set (16 * c + b) (ofInt 20 (x b)))).run s) = ofInt 20 (x b) := by
  have hothers : ∀ d, d ≠ b → ∀ s, F.DEC_ID_TRIM_TRIM.get (16 * c + b)
      ((onlyIf (decide (a d ≠ x d)) (F.DEC_ID_TRIM_TRIM.set (16 * c + d) (ofInt 20 (x d)))).run s) =
        F.DEC_ID_TRIM_TRIM.get (16 * c + b) s := fun d hd s => by
    cases decide (a d ≠ x d) with
    | false => rfl
    | true => exact get_set_apart _ _ (trim_apart (by omega)) _ _
  refine run_forEach_one (P := fun s => toInt 20 (F.DEC_ID_TRIM_TRIM.get (16 * c + b) s) = a b)
    (Q := fun s => F.DEC_ID_TRIM_TRIM.get (16 * c + b) s = ofInt 20 (x b)) (List.mem_range.mpr hb) List.nodup_range
    (fun d _ hd s h => (congrArg (toInt 20) (hothers d hd s)).trans h) (fun d _ hd s h => (hothers d hd s).trans h) (fun s h => ?_) ha
  by_cases hmove : a b = x b
  · rw [decide_eq_false (not_not.mpr hmove), onlyIf_false, run_done, ← hmove, ← h]
    exact (ofInt_toInt (bitsOf_lt ..)).symm
  · rw [decide_eq_true hmove, onlyIf_true, get_set _ _ _ _ _ (by decide) (by decide)]
    exact Nat.mod_eq_of_lt (ofInt_lt ..)

/-- A channel that is not frozen moves its trims in AUTO (R277). -/
theorem trimChannel_moves {c b u : Nat} {s : State} (hc : c < 64) (hb : b ≤ F.DEC_ID_CH_BANDS.get c s) (hf : trimFrozen s c = false)
    (hm : F.DEC_ID_CFG_MODE.get 0 s = 2) :
    F.DEC_ID_TRIM_TRIM.get (16 * c + b) ((trimChannel c u).run s) = ofInt 20 (movedTrim c b s) := by
  have hbands : F.DEC_ID_CH_BANDS.get c s < 16 := bitsOf_lt ..
  have hout : WordsOut flagWords F.DEC_ID_TRIM_TRIM.reg (16 * c + b) 0 := trim_out_flags hc (by omega)
  have hclamp : ∀ v, (Act.seq (R.DEC_ID_CLAMP.set 0 v) (raise .ID_BOUND c)).Stores flagWords := fun v =>
    ⟨stores_rset (by unfold WordsIn; decide) v, stores_raise_flag _ _ _ _ _⟩
  unfold trimChannel
  rw [run_look, if_neg (by simp [hf]), if_neg (by simp [hm])]
  simp only [forEach_map, run_acts_cons, run_acts_nil]
  rw [get_stores ((stores_onlyIf ..).mpr fun _ => stores_setDec _) hout]
  refine bands_move (Nat.lt_succ_of_le hb) (fun b => toInt 20 (F.DEC_ID_TRIM_TRIM.get (16 * c + b) s)) (movedTrim c · s) ?_
  rw [get_stores ((stores_onlyIf ..).mpr fun _ => hclamp _) hout]

/-! ### The update -/

/-- `t` shows channel `c` what `s` does: the channels held, and every register that no other channel stores. -/
structure TrimAlike (c : Nat) (s t : State) : Prop where
  clipped : t.dec.trim.clipped = s.dec.trim.clipped
  enabled : t.dec.trim.enabled = s.dec.trim.enabled
  get : ∀ (f : Fld) (i : Nat), (∀ d ≠ c, WordsOut (trimWords d) f.reg i 0) → f.get i t = f.get i s

theorem TrimAlike.refl (c : Nat) (s : State) : TrimAlike c s s := ⟨rfl, rfl, fun _ _ _ => rfl⟩

/-- The update of another channel keeps it. -/
theorem TrimAlike.other {c d : Nat} {s t : State} (h : TrimAlike c s t) (hd : d ≠ c) (u : Nat) : TrimAlike c s ((trimChannel d u).run t) := by
  have hkeep := trimChannel_keeps d u t
  simp only [Prod.mk.injEq] at hkeep
  exact ⟨hkeep.1.trans h.clipped, hkeep.2.trans h.enabled,
    fun f i hf => (get_stores (stores_trimChannel d u) (hf d hd) t).trans (h.get f i hf)⟩

section Alike

variable {c : Nat} {s t : State} (h : TrimAlike c s t)
include h

/-- A single register of the governor below the flags. -/
theorem TrimAlike.get_zero (f : Fld) (hd : f.reg.dims = []) (hp : f.reg.perMaster = false) (hw : f.reg.words = 1)
    (hb : 0x20081000 ≤ f.reg.base) (hb' : f.reg.base < 0x20081018) : f.get 0 t = f.get 0 s :=
  h.get f 0 fun d _ => out_zero hd hp (fun w hw' => trimWords_off (by omega) (by omega) (by omega)) 0 0

theorem TrimAlike.get_channel (f : Fld) (hr : f.reg = R.DEC_ID_CH) (hc : c < 64) : f.get c t = f.get c s :=
  h.get f c fun d _ => by
    rw [hr]
    exact out_one (n := 64) (st := 4) rfl rfl (fun w hw => by
      have hbase : R.DEC_ID_CH.base = 0x20081100 := rfl
      have hw : w < 1 := hw
      exact trimWords_off (by omega) (by omega) (by omega)) 0

theorem TrimAlike.get_proposal {k : Nat} (hk : k < 1024) : F.DEC_ID_PROP_TRIM.get k t = F.DEC_ID_PROP_TRIM.get k s :=
  h.get F.DEC_ID_PROP_TRIM k fun d _ => out_one (n := 1024) (st := 4) rfl rfl (fun w hw => by
    have hbase : F.DEC_ID_PROP_TRIM.reg.base = 0x20082000 := rfl
    have hw : w < 1 := hw
    exact trimWords_off (by omega) (by omega) (by omega)) 0

theorem TrimAlike.get_trim {b : Nat} (hc : c < 64) (hb : b < 16) :
    F.DEC_ID_TRIM_TRIM.get (16 * c + b) t = F.DEC_ID_TRIM_TRIM.get (16 * c + b) s :=
  h.get F.DEC_ID_TRIM_TRIM (16 * c + b) fun _ hd => trim_out_others hc hb hd

theorem TrimAlike.get_selector (f : Fld) (hr : f.reg = R.GDMA_SEL_STAT) {k : Nat} (hk : k < 256) : f.get k t = f.get k s :=
  h.get f k fun d _ => by
    rw [hr]
    intro w hw
    have hbase : R.GDMA_SEL_STAT.base = 0xF20180 := rfl
    have hw : w < 1 := hw
    rw [key_sel rfl rfl]
    exact trimWords_off (by omega) (by omega) (by omega)

/-- The channel is frozen in both or in neither (R278). -/
theorem TrimAlike.frozen (hc : c < 64) : trimFrozen t c = trimFrozen s c := by
  have hgal : F.DEC_ID_CH_GAL.get c s < 16 := bitsOf_lt ..
  have hsel : F.DEC_ID_CH_SEL.get c s < 16 := bitsOf_lt ..
  unfold trimFrozen Fld.on
  dsimp only
  rw [h.clipped, h.enabled, h.get_channel F.DEC_ID_CH_GAL rfl hc, h.get_channel F.DEC_ID_CH_SEL rfl hc, h.get_channel F.DEC_ID_CH_MIC rfl hc,
    h.get_selector F.GDMA_SEL_STAT_FADE rfl (by omega), h.get_selector F.GDMA_SEL_STAT_PEND rfl (by omega)]

/-- Its trims move alike. -/
theorem TrimAlike.moved {b : Nat} (hc : c < 64) (hb : b < 16) : movedTrim c b t = movedTrim c b s := by
  unfold movedTrim
  rw [h.get_proposal (by omega), h.get_trim hc hb, h.get_zero F.DEC_ID_LIMIT_BOUND rfl rfl rfl (by decide) (by decide),
    h.get_zero F.DEC_ID_LIMIT_STEP rfl rfl rfl (by decide) (by decide)]

end Alike

/-- The grants of an update store no trim (R279). -/
theorem stores_trimGrant (c : Nat) : (trimGrant c).Stores poolWords := fun _ =>
  (stores_onlyIf ..).mpr fun _ => stores_forEach_of fun _ => stores_appendWord _ _ _

/-- The update moves the trims of every enabled channel that is not frozen, one channel after another (R277). -/
theorem trimChannels_move {c b u : Nat} {s : State} {chans : List Nat} (hmem : c ∈ chans) (hn : chans.Nodup) (hc : c < 64)
    (hb : b ≤ F.DEC_ID_CH_BANDS.get c s) (hf : trimFrozen s c = false) (hm : F.DEC_ID_CFG_MODE.get 0 s = 2) :
    F.DEC_ID_TRIM_TRIM.get (16 * c + b) ((forEach chans fun c => trimChannel c u).run s) = ofInt 20 (movedTrim c b s) := by
  have hbands : F.DEC_ID_CH_BANDS.get c s < 16 := bitsOf_lt ..
  have hb' : b < 16 := by omega
  refine run_forEach_one (P := TrimAlike c s) (Q := fun t => F.DEC_ID_TRIM_TRIM.get (16 * c + b) t = ofInt 20 (movedTrim c b s))
    hmem hn (fun d _ hd t ht => ht.other hd u)
    (fun d _ hd t ht => (get_stores (stores_trimChannel d u) (f := F.DEC_ID_TRIM_TRIM) (trim_out_others hc hb' hd) t).trans ht)
    (fun t ht => ?_) (TrimAlike.refl c s)
  rw [← ht.moved hc hb']
  exact trimChannel_moves hc ((ht.get_channel F.DEC_ID_CH_BANDS rfl hc).symm ▸ hb) ((ht.frozen hc).trans hf)
    ((ht.get_zero F.DEC_ID_CFG_MODE rfl rfl rfl (by decide) (by decide)).trans hm)

/-- The channels that take part in an update. -/
def trimChans (s : State) : List Nat := (List.range 64).filter fun c => F.DEC_ID_CH_EN.on c s

/-- An update that is due: the channels, their grants, and the governor's state of it. -/
theorem trimUpdate_run {s : State} (h : s.dec.trim.due = true) : trimUpdate.run s =
    (setDec fun d => { d with trim := { d.trim with due := false, clipped := [], enabled := [] } }).run
      ((forEach (trimChans s) trimGrant).run ((forEach (trimChans s) fun c => trimChannel c s.dec.trim.tick).run s)) := by
  unfold trimUpdate
  rw [run_look]
  dsimp only
  rw [if_pos h]
  rfl

/-- The applied trims after an update in AUTO (R277). -/
theorem trimUpdate_moves {c b : Nat} {s : State} (h : s.dec.trim.due = true) (hm : F.DEC_ID_CFG_MODE.get 0 s = 2) (hc : c < 64)
    (hen : F.DEC_ID_CH_EN.on c s = true) (hf : trimFrozen s c = false) (hb : b ≤ F.DEC_ID_CH_BANDS.get c s) :
    F.DEC_ID_TRIM_TRIM.get (16 * c + b) (trimUpdate.run s) = ofInt 20 (movedTrim c b s) := by
  have hbands : F.DEC_ID_CH_BANDS.get c s < 16 := bitsOf_lt ..
  have hmem : c ∈ trimChans s := List.mem_filter.mpr ⟨List.mem_range.mpr hc, hen⟩
  have hgrants : (forEach (trimChans s) trimGrant).Stores poolWords := stores_forEach_of stores_trimGrant
  have hout : WordsOut poolWords F.DEC_ID_TRIM_TRIM.reg (16 * c + b) 0 := trim_out_pool hc (by omega)
  rw [trimUpdate_run h, get_stores (stores_setDec _) hout, get_stores hgrants hout]
  exact trimChannels_move hmem (List.nodup_range.filter _) hc hb hf hm

/-! ### Selector writes -/

theorem entryOf_gdmaSel : entryOf R.GDMA_SEL = ⟨R.GDMA_SEL, [F.GDMA_SEL_BANK, F.GDMA_SEL_SHAPE, F.GDMA_SEL_FADE_T]⟩ := rfl

theorem gdmaSel_out {k : Nat} (hk : k < 256) (m : Nat) : WordsOut errRegs R.GDMA_SEL k m := fun w hw => by
  have hbase : R.GDMA_SEL.base = 0xF20100 := rfl
  have hw : w < 1 := hw
  rw [key_sel rfl rfl]
  exact errRegs_off (by omega) (by omega) (by omega) (by omega) (by omega) (by omega)

/-- What a selector write asks for: the other bank, by the shape and the time of the governor's fades (R280). -/
def selectorWord (k : Nat) (s : State) : Nat :=
  (1 - F.GDMA_SEL_STAT_ACTIVE.get k s) * 2 ^ 31 + F.DEC_ID_CFG_SHAPE.get 0 s * 2 ^ 30 + F.DEC_ID_TIME_FADE_T.get 0 s

theorem selectorWord_fields (k : Nat) (s : State) : F.GDMA_SEL_BANK.of (selectorWord k s) = 1 - F.GDMA_SEL_STAT_ACTIVE.get k s ∧
    F.GDMA_SEL_SHAPE.of (selectorWord k s) = F.DEC_ID_CFG_SHAPE.get 0 s ∧
    F.GDMA_SEL_FADE_T.of (selectorWord k s) = F.DEC_ID_TIME_FADE_T.get 0 s := by
  have hshape : F.DEC_ID_CFG_SHAPE.get 0 s < 2 := bitsOf_lt ..
  have hfade : F.DEC_ID_TIME_FADE_T.get 0 s < 256 := bitsOf_lt ..
  simp only [Fld.of, F.GDMA_SEL_BANK, F.GDMA_SEL_SHAPE, F.GDMA_SEL_FADE_T, bitsOf, selectorWord]
  omega

/-- A selector write in its edge leaves the selector as it asks (R280). -/
theorem trimSelect_writes {k e : Nat} {s : State} (hk : k < 256) (hsel : s.dec.trim.sel = [(k, e)]) (he : e ≤ tickNum s)
    (hm : F.DEC_ID_CFG_MODE.get 0 s = 2) : let t := trimSelect.run s
    t.dec.trim.sel = [] ∧ F.GDMA_SEL_BANK.get k t = 1 - F.GDMA_SEL_STAT_ACTIVE.get k s ∧
      F.GDMA_SEL_SHAPE.get k t = F.DEC_ID_CFG_SHAPE.get 0 s ∧ F.GDMA_SEL_FADE_T.get k t = F.DEC_ID_TIME_FADE_T.get 0 s := by
  intro t
  have hrun : t = (write32 (entryOf R.GDMA_SEL) 2 k (selectorWord k s)).run
      ((setDec fun d => { d with trim := { d.trim with sel := d.trim.sel.filter fun p => tickNum s < p.2 } }).run s) := by
    show trimSelect.run s = _
    unfold trimSelect
    rw [run_look]
    dsimp only
    rw [hsel, hm]
    simp [he, forEach, acts]
    rfl
  have hok : FldsOk 1 [F.GDMA_SEL_BANK, F.GDMA_SEL_SHAPE, F.GDMA_SEL_FADE_T] := by unfold FldsOk; decide
  have hout := gdmaSel_out hk 2
  obtain ⟨hbank, hshape, hfade⟩ := selectorWord_fields k s
  rw [hrun, write32, entryOf_gdmaSel]
  refine ⟨?_, (storeWrite_get hok hout rfl (by simp) rfl rfl rfl (by simp [F.GDMA_SEL_BANK])).trans hbank,
    (storeWrite_get hok hout rfl (by simp) rfl rfl rfl (by simp [F.GDMA_SEL_SHAPE])).trans hshape,
    (storeWrite_get hok hout rfl (by simp) rfl rfl rfl (by simp [F.GDMA_SEL_FADE_T])).trans hfade⟩
  rw [touches_dec (touches_storeWrite _ _ _ _ _ _ _ _) (by decide) (by decide)]
  show s.dec.trim.sel.filter _ = []
  simp [hsel, he]

/-! ### Timing -/

theorem idTime_fldsOk : FldsOk 1 [F.DEC_ID_TIME_UPD_T, F.DEC_ID_TIME_FADE_T, F.DEC_ID_TIME_COMP_T] := by unfold FldsOk; decide

/-- Trim times that fit the update period are stored while LOCK is 0 (R281). -/
theorem wrIdTime_stores {m v : Nat} {s : State} (hl : s.lock = false) (hc : F.DEC_ID_TIME_COMP_T.of v ≠ 0) (hf : F.DEC_ID_TIME_FADE_T.of v ≠ 0)
    (hfit : F.DEC_ID_TIME_COMP_T.of v + 1 + F.DEC_ID_TIME_FADE_T.of v ≤ F.DEC_ID_TIME_UPD_T.of v) :
    let t := (wrIdTime m v (fullMask 1)).run s
    F.DEC_ID_TIME_COMP_T.get 0 t = F.DEC_ID_TIME_COMP_T.of v ∧ F.DEC_ID_TIME_FADE_T.get 0 t = F.DEC_ID_TIME_FADE_T.of v ∧
      F.DEC_ID_TIME_UPD_T.get 0 t = F.DEC_ID_TIME_UPD_T.of v := by
  have hasked : ∀ f ∈ [F.DEC_ID_TIME_UPD_T, F.DEC_ID_TIME_FADE_T, F.DEC_ID_TIME_COMP_T], f.acc = .rw → f.unlisted = [] →
      f.of (asWritten (entryOf R.DEC_ID_TIME) 0 m v (fullMask 1) s) = f.of v := fun f hmem hacc hun => by
    rw [entryOf_idTime]
    exact of_asWritten idTime_fldsOk hmem hacc (by simp [hun]) 0 m s
  have hrun : (wrIdTime m v (fullMask 1)).run s =
      (storeWrite (entryOf R.DEC_ID_TIME) 0 m v (fullMask 1) (R.DEC_ID_TIME.addr 0)).run s := by
    unfold wrIdTime
    rw [run_look]
    dsimp only
    rw [hasked F.DEC_ID_TIME_UPD_T (by simp) rfl rfl, hasked F.DEC_ID_TIME_FADE_T (by simp) rfl rfl,
      hasked F.DEC_ID_TIME_COMP_T (by simp) rfl rfl, if_neg (by simp; omega)]
  have hout : WordsOut errRegs R.DEC_ID_TIME 0 m := out_zero rfl rfl (fun w hw => by
    have hbase : R.DEC_ID_TIME.base = 0x20081004 := rfl
    have hw : w < 1 := hw
    exact errRegs_dec (by omega) (by omega)) 0 m
  have hget : ∀ f ∈ [F.DEC_ID_TIME_UPD_T, F.DEC_ID_TIME_FADE_T, F.DEC_ID_TIME_COMP_T], f.reg = R.DEC_ID_TIME → f.acc = .rw →
      f.unlisted = [] → f.get 0 ((storeWrite (entryOf R.DEC_ID_TIME) 0 m v (fullMask 1) (R.DEC_ID_TIME.addr 0)).run s) = f.of v :=
    fun f hmem hreg hacc hun => by
      rw [entryOf_idTime]
      exact storeWrite_get idTime_fldsOk hout rfl hmem hreg hacc (by rw [hl, Bool.and_false]) (by simp [hun])
  dsimp only
  rw [hrun]
  exact ⟨hget _ (by simp) rfl rfl rfl, hget _ (by simp) rfl rfl rfl, hget _ (by simp) rfl rfl rfl⟩

/-! ### The statement -/

/-- Settles O32: each command by what its act does in the state that it meets, a write in the one that the matrices hand it. -/
theorem micCommandsComplete : Obligations.MicCommandsComplete := by
  intro m s
  refine ⟨fun i v h hlo hhi hfb => ⟨_, rfl, ?_⟩, fun i v h ho hr hh hfine => ⟨_, rfl, ?_⟩, fun i h => ⟨_, rfl, ?_⟩,
    fun i bits hlock hclk hen hok => ⟨_, rfl, ?_⟩, fun i bits k hlock hclk hen => ⟨_, rfl, ?_⟩,
    fun hdue hm => ⟨_, rfl, ?_⟩, fun k e hsel he hm => ⟨_, rfl, trimSelect_writes k.isLt hsel he hm⟩, fun h => ⟨_, rfl, ?_⟩,
    fun v h hl hc hf hfit => ⟨_, rfl, ?_⟩⟩
  · obtain ⟨b, r, l, w, hrun⟩ := arrive_atTarget h 0xF v.toNat (wrPdmClk m i v.toNat (fullMask 1))
    rw [hrun]
    exact wrPdmClk_stores (s := atTarget b r l w s) i.isLt hlo hhi hfb
  · obtain ⟨b, r, l, w, hrun⟩ := arrive_atTarget h 0xFF v.toNat
      (.seq (unbuf m (R.DEC_MIC.addr i)) (wrDecMic m i v.toNat (fullMask 2)))
    rw [arrivePair, hrun, run_seq]
    exact wrDecMic_stores (s := (unbuf m (R.DEC_MIC.addr i)).run (atTarget b r l w s)) i.isLt ho hr hh
      fun hon => (fineOk_rated_bus _ _ s i v.toNat).trans (hfine hon)
  · rw [h]
    exact muteEnd_ends i.isLt s
  · rw [run_look, hlock, onlyIf_true, fineOutput_run bits hclk hen hok]
    exact outputOf_fine ..
  · rw [run_look, hlock, onlyIf_true, fastOutput_run bits k hclk hen]
    exact outputOf_fast ..
  · refine ⟨?_, ?_, fun c b hen hf hb => trimUpdate_moves hdue hm c.isLt hen hf hb⟩
    · rw [trimUpdate_run hdue]
      rfl
    · rw [trimUpdate_run hdue]
      rfl
  · obtain ⟨b, r, l, w, hrun⟩ := arrive_atTarget h 0xF 1 idZero
    rw [hrun]
    rfl
  · obtain ⟨b, r, l, w, hrun⟩ := arrive_atTarget h 0xF v.toNat (wrIdTime m v.toNat (fullMask 1))
    rw [hrun]
    exact wrIdTime_stores (s := atTarget b r l w s) hl hc hf hfit

end Sys2Proof.Machine
end

