-- ==== Sys2Proof/Proofs/SerialCommands.lean ====
section
/-! SUPPORT. A late block of a converter whose loss of lock takes the node to the safe state (R306, R528, R531). -/

namespace Sys2Proof.Machine

/-- The node after reset, with the transmit direction of port 0 enabled in ASRC mode and SAP_ASRC_UNLOCK of class SAFE. The direction is listed
twice: its first entry, the one that is read, is LOCKED, and a second entry under the same key is RUN. -/
def twiceListed : State :=
  let s := (F.SUMP_EVCFG_CLASS.set (evNum .SAP_ASRC_UNLOCK) 4).run ((R.SAP_TXCFG.setLive 0 (2 ^ 31 + 2 ^ 29)).run State.reset)
  { s with sap := { s.sap with dirs := [(1, { sapDirReset with st := .locked }), (1, { sapDirReset with st := .run })] } }

theorem twiceListed_locked : sapAsrc twiceListed 0 1 = true ∧ (sapAt twiceListed 0 1).st = .locked := by decide +kernel

/-- The late block puts the first entry to ACQUIRE, and its event enters the safe state. There the silencing of SDO puts back every listed
entry in turn, so the second one stands at the end. -/
theorem asrcBreak_ends_in_second_entry : (sapAt ((asrcBreak 0 1).run twiceListed) 0 1).st = .run := by decide +kernel

/-- Refutes O33: nothing in the statement keeps a direction from being listed twice, and then a late block that enters the safe state leaves
the direction as its second entry says, not in ACQUIRE. -/
theorem not_serialCommandsComplete : ¬ Obligations.SerialCommandsComplete := by
  unfold Obligations.SerialCommandsComplete
  intro h
  obtain ⟨-, -, -, -, -, hlate, -⟩ := h 1 0 twiceListed
  obtain ⟨hasrc, hlocked⟩ := twiceListed_locked
  obtain ⟨t, ht, hacquire, -⟩ := hlate .tx hasrc hlocked
  obtain rfl : (onlyIf (sapAsrc twiceListed 0 1 && sapRuns (sapAt twiceListed 0 1).st) (asrcBreak 0 1)).run twiceListed = t :=
    Host.Outcome.next.inj ht
  rw [hasrc, hlocked] at hacquire
  exact absurd (asrcBreak_ends_in_second_entry.symm.trans hacquire) (by decide)

end Sys2Proof.Machine
end

