-- ==== Sys2Proof/Proofs/SensePoints.lean ====
section
/-! SUPPORT. What a SENSE frame stores for each of its points, and the configuration of a point (R315–R318). -/

namespace Sys2Proof.Machine

/-! ### The registers that a frame stores -/

/-- The words that the points of a frame share: the bad points, the overcurrents, and what an event stores, the states of the channels and of
the rails among it. -/
def protectWords (k : Nat) : Bool :=
  raiseRegs k || (0x20090040 ≤ k && k < 0x20090048) || (0x200A0700 ≤ k && k < 0x200A0710)

/-- The words that a frame can store for point `p`. -/
def pointWords (p k : Nat) : Bool := protectWords k || k == 0x200A0500 + 4 * p

theorem protectWords_of_raise {k : Nat} (h : raiseRegs k = true) : protectWords k = true := by simp [protectWords, h]

theorem pointWords_of_protect (p : Nat) {k : Nat} (h : protectWords k = true) : pointWords p k = true := by simp [pointWords, h]

theorem senseVal_key (p w m : Nat) : R.SENSE_VAL.key p w m = 0x200A0500 + p * 4 + 4 * w := key_one rfl rfl p w m

theorem senseVal_in (p : Nat) : WordsIn (pointWords p) R.SENSE_VAL p 0 := fun w hw => by
  have hw : w < 1 := hw
  rw [senseVal_key]
  simp only [pointWords, Bool.or_eq_true, beq_iff_eq]
  omega

/-- The value of a point is stored for that point alone. -/
theorem senseVal_out_protect {p : Nat} (hp : p < 128) : WordsOut protectWords R.SENSE_VAL p 0 := fun w hw => by
  have hw : w < 1 := hw
  have herr := raiseRegs_off (k := R.SENSE_VAL.key p w 0) (by
    rw [senseVal_key]
    exact errRegs_off (by omega) (by omega) (by omega) (by omega) (by omega) (by omega))
  rw [senseVal_key] at herr ⊢
  simp only [protectWords, herr, Bool.false_or, Bool.or_eq_false_iff, Bool.and_eq_false_iff, decide_eq_false_iff_not]
  omega

theorem senseVal_out_others {p q : Nat} (hp : p < 128) (hq : q ≠ p) : WordsOut (pointWords q) R.SENSE_VAL p 0 := fun w hw => by
  have hw' : w < 1 := hw
  rw [pointWords, senseVal_out_protect hp w hw, Bool.false_or, beq_eq_false_iff_ne, senseVal_key]
  omega

/-! ### Events raised together, and a channel that faults -/

/-- The events of one cycle store nothing beyond `raiseRegs`. -/
theorem stores_raiseAll (rs : List RaiseReq) : (raiseAll rs).Stores raiseRegs := fun _ =>
  (stores_seq ..).mpr ⟨stores_forEach_of fun _ => ⟨stores_sumpUse _, stores_note _ _ _ _ _⟩, stores_react _⟩

theorem stores_raise_protect (e : Ev) (d0 d1 d2 g : Nat) : (raise e d0 d1 d2 g).Stores protectWords :=
  stores_mono (stores_raise e d0 d1 d2 g) fun _ => protectWords_of_raise

theorem stores_raiseAll_protect (rs : List RaiseReq) : (raiseAll rs).Stores protectWords :=
  stores_mono (stores_raiseAll rs) fun _ => protectWords_of_raise

theorem modStat_in {c : Nat} (hc : c < 64) : WordsIn protectWords R.MOD_STAT c 0 := fun w hw =>
  protectWords_of_raise (raiseRegs_mod hc w hw)

theorem stores_modDiag {c : Nat} (hc : c < 64) (x : Nat) : (F.MOD_STAT_DIAG.set c x).Stores protectWords :=
  stores_fset (f := F.MOD_STAT_DIAG) (modStat_in hc) x

theorem stores_chanFault {c : Nat} (hc : c < 64) (cause : Nat) : (chanFault c cause).Stores protectWords :=
  ⟨stores_fset (f := F.MOD_STAT_STATE) (modStat_in hc) _, stores_fset (f := F.MOD_STAT_FCAUSE) (modStat_in hc) _⟩

theorem stores_chanDisable (c id : Nat) : (chanDisable c id).Stores protectWords := stores_setChan c _

theorem stores_modOc {c : Nat} (hc : c < 64) : (modOc c).Stores protectWords := by
  have hoc : ∀ v, (R.MOD_OCST.set 0 v).Stores protectWords := stores_rset (by unfold WordsIn; decide)
  rw [modOc, stores_look]
  intro s
  simp only [stores_acts_cons, stores_acts_nil, and_true]
  refine ⟨stores_chanFault hc _, hoc _, ?_, stores_chanDisable _ _⟩
  split
  · split
    · exact ⟨stores_modDiag hc _, stores_raiseAll_protect _⟩
    · exact stores_raise_protect _ _ _ _ _
  · exact stores_raise_protect _ _ _ _ _

theorem stores_modLost {cs : List Nat} (hcs : ∀ c ∈ cs, c < 64) (p : Nat) : (modLost cs p).Stores protectWords := by
  rw [modLost, stores_look]
  intro s
  refine stores_forEach.mpr fun c hc r => ⟨stores_chanFault (hcs c hc) _, ?_, stores_chanDisable _ _⟩
  split
  · exact ⟨stores_modDiag (hcs c hc) _, stores_raiseAll_protect _⟩
  · exact stores_raise_protect _ _ _ _ _

theorem stores_diagFail {c : Nat} (hc : c < 64) (code : Nat) : (diagFail c code).Stores protectWords := fun _ =>
  ⟨stores_modDiag hc _, stores_chanFault hc _, stores_setChan _ _, stores_raise_protect _ _ _ _ _⟩

theorem stores_measure (c : Nat) (valid : Bool) (v : Int) : (measure c valid v).Stores protectWords := fun _ =>
  (stores_onlyIf ..).mpr fun _ => stores_setChan _ _

/-! ### What the owner of a point makes of its value -/

theorem stores_curTaken {c : Nat} (hc : c < 64) (p : Nat) : (curTaken c p).Stores protectWords := by
  have htaken : ∀ b valid v, (onlyIf b (measure c valid v)).Stores protectWords := fun _ _ _ =>
    (stores_onlyIf ..).mpr fun _ => stores_measure _ _ _
  rw [curTaken, stores_look]
  intro s
  dsimp only
  split
  · exact stores_done
  · split
    · exact htaken _ _ _
    · simp only [stores_acts_cons, stores_acts_nil, and_true]
      exact ⟨stores_setChan _ _, htaken _ _ _,
        stores_ite (stores_modOc hc) ((stores_onlyIf ..).mpr fun _ => stores_modLost (List.forall_mem_singleton.mpr hc) p)⟩

theorem groupChans_lt {s : State} {g c : Nat} (h : c ∈ groupChans s g) : c < 64 := List.mem_range.mp (List.mem_filter.mp h).1

theorem stores_vrailTaken {g : Nat} (hg : g < 8) (p : Nat) : (vrailTaken g p).Stores protectWords := by
  have hmeas : ∀ v, (F.RAIL_STAT_MEAS.set g v).Stores protectWords :=
    stores_fset (f := F.RAIL_STAT_MEAS) fun w hw => protectWords_of_raise (raiseRegs_rail hg w hw)
  rw [vrailTaken, stores_look]
  intro s
  simp only [stores_acts_cons, stores_acts_nil, and_true, stores_onlyIf]
  refine ⟨fun _ => ?_, stores_setRail _ _, fun t => ?_, fun _ => stores_modLost (fun c hc => ?_) p⟩
  · split
    · exact hmeas _
    · exact stores_draw fun r => hmeas _
  · exact (stores_onlyIf ..).mpr fun _ => ⟨stores_setRail _ _, stores_raise_protect _ _ _ _ _⟩
  · exact groupChans_lt (List.mem_filter.mp hc).1

theorem stores_irailTaken (g p : Nat) : (irailTaken g p).Stores protectWords := by
  rw [irailTaken, stores_look]
  intro s
  refine stores_forEach.mpr fun c hc t => (stores_onlyIf ..).mpr fun _ => ?_
  have hc : c < 64 := groupChans_lt (List.mem_filter.mp hc).1
  exact ⟨stores_setChan _ _, stores_measure _ _ _, (stores_onlyIf ..).mpr fun _ => stores_diagFail hc _⟩

/-- What the configuration of a point makes of its new value (R335, R337, R343, R346, R347). -/
def pointTaken (p : Nat) : Act := .look fun s =>
  let o := F.SENSE_PT_OWNER.live p s
  onlyIf (F.SENSE_PT_EN.liveOn p s) (match F.SENSE_PT_KIND.live p s with
    | 0 => curTaken o p
    | 1 => onlyIf (decide (o < 8)) (vrailTaken o p)
    | _ => irailTaken o p)

theorem stores_pointTaken (p : Nat) : (pointTaken p).Stores protectWords := by
  rw [pointTaken, stores_look]
  intro s
  have howner : F.SENSE_PT_OWNER.live p s < 64 := bitsOf_lt ..
  refine (stores_onlyIf ..).mpr fun _ => ?_
  split
  · exact stores_curTaken howner p
  · exact (stores_onlyIf ..).mpr fun h => stores_vrailTaken (of_decide_eq_true h) p
  · exact stores_irailTaken _ p

/-! ### Codes -/

/-- Point `p` shows the code `c`: it is valid unless it is 0x8000 (R317). -/
def ShowsCode (p c : Nat) (t : State) : Prop := F.SENSE_VAL_CODE.get p t = c ∧ (F.SENSE_VAL_VALID.get p t = 1 ↔ c ≠ 0x8000)

/-- Effects that store nothing of the point leave what it shows. -/
theorem ShowsCode.stores {A : Nat → Bool} {a : Act} (ha : a.Stores A) {p c : Nat} (ho : WordsOut A R.SENSE_VAL p 0) {s : State}
    (h : ShowsCode p c s) : ShowsCode p c (a.run s) := by
  unfold ShowsCode
  rw [get_stores (f := F.SENSE_VAL_CODE) ha ho, get_stores (f := F.SENSE_VAL_VALID) ha ho]
  exact h

theorem showsCode_of_stored {p c v : Nat} (hc : c < 65536) (hv : v = 1 ∧ c ≠ 0x8000 ∨ v = 0 ∧ c = 0x8000) (s : State) :
    ShowsCode p c ((F.SENSE_VAL_VALID.set p v).run ((F.SENSE_VAL_CODE.set p c).run s)) := by
  refine ⟨?_, ?_⟩
  · rw [get_set_beside F.SENSE_VAL_CODE F.SENSE_VAL_VALID _ _ _ _ rfl (by decide) (by decide) (by decide) (by decide),
      get_set _ _ _ _ _ (by decide) (by decide)]
    exact Nat.mod_eq_of_lt hc
  · rw [get_set _ _ _ _ _ (by decide) (by decide)]
    simp only [F.SENSE_VAL_VALID]
    omega

theorem senseBad_stores {p : Nat} (hp : p < 128) (v : Nat) : (R.SENSE_BAD.set (p / 32) v).Stores protectWords :=
  stores_rset (fun w hw => by
    have hb : R.SENSE_BAD.base = 0x200A0700 := rfl
    have hw : w < 1 := hw
    rw [key_one rfl rfl]
    simp only [protectWords, Bool.or_eq_true, Bool.and_eq_true, decide_eq_true_eq]
    omega) v

theorem stores_setPt (p : Nat) (x : SensePt) : (setPt p x).Stores protectWords := stores_setMods _

/-- A code that a point receives is what it shows (R317). -/
theorem takeCode_shows {p c : Nat} (hp : p < 128) (hc : c < 65536) (s : State) : ShowsCode p c ((takeCode p c).run s) := by
  have hout := senseVal_out_protect hp
  unfold takeCode
  rw [run_look, run_seq]
  by_cases hbad : c = 0x8000
  · rw [if_pos hbad, run_acts_cons, run_acts_cons, run_acts_cons, run_acts_nil]
    exact ((showsCode_of_stored hc (.inr ⟨rfl, hbad⟩) s).stores (senseBad_stores hp _) hout).stores (stores_setPt _ _) hout
  · rw [if_neg hbad, run_seq]
    exact (showsCode_of_stored hc (.inl ⟨rfl, hbad⟩) s).stores (stores_setPt _ _) hout

theorem stores_takeCode {p : Nat} (hp : p < 128) (c : Nat) : (takeCode p c).Stores (pointWords p) := by
  have hpoint : ∀ {a : Act}, a.Stores protectWords → a.Stores (pointWords p) := fun h => stores_mono h fun _ => pointWords_of_protect p
  have hvalid : ∀ x, (F.SENSE_VAL_VALID.set p x).Stores (pointWords p) := stores_fset (f := F.SENSE_VAL_VALID) (senseVal_in p)
  rw [takeCode, stores_look]
  intro s
  refine ⟨stores_fset (f := F.SENSE_VAL_CODE) (senseVal_in p) c, ?_⟩
  split
  · exact ⟨hvalid _, hpoint (senseBad_stores hp _), hpoint (stores_setPt _ _)⟩
  · exact ⟨hvalid _, hpoint (stores_setPt _ _)⟩

theorem stores_senseSample (k c : Nat) : (senseSample k c).Stores protectWords := fun _ => stores_setMods _

/-! ### A frame -/

/-- The code of point `i` of the port in a frame: two to a word, the even one above (R316). -/
def frameCode (ws : List Word) (i : Nat) : Nat :=
  if i % 2 = 0 then (ws.getD (i / 2) 0).toNat / 65536 else (ws.getD (i / 2) 0).toNat % 65536

theorem frameCode_lt (ws : List Word) (i : Nat) : frameCode ws i < 65536 := by
  have hword := (ws.getD (i / 2) 0).isLt
  unfold frameCode
  split <;> omega

/-- What a frame of an enabled port does for its point `i`. -/
def framePoint (k : Nat) (ws : List Word) (i : Nat) : Act :=
  .seq (.seq (takeCode (32 * k + i) (frameCode ws i)) (onlyIf (i % 2 = 0) (senseSample (16 * k + i / 2) (frameCode ws i))))
    (pointTaken (32 * k + i))

theorem senseFrame_run {k : Nat} (ws : List Word) {s : State} (h : bitOf (F.SENSE_CTRL_EN.get 0 s) k = true) :
    (senseFrame k ws).run s = (forEach (List.range 32) (framePoint k ws)).run s := by
  unfold senseFrame
  rw [run_look, h]
  rfl

theorem stores_framePoint {k i : Nat} (hk : k < 4) (hi : i < 32) (ws : List Word) :
    (framePoint k ws i).Stores (pointWords (32 * k + i)) :=
  have hpoint : ∀ {a : Act}, a.Stores protectWords → a.Stores (pointWords (32 * k + i)) := fun h =>
    stores_mono h fun _ => pointWords_of_protect _
  ⟨⟨stores_takeCode (by omega) _, (stores_onlyIf ..).mpr fun _ => hpoint (stores_senseSample _ _)⟩, hpoint (stores_pointTaken _)⟩

theorem framePoint_shows {k i : Nat} (hk : k < 4) (hi : i < 32) (ws : List Word) (s : State) :
    ShowsCode (32 * k + i) (frameCode ws i) ((framePoint k ws i).run s) := by
  have hp : 32 * k + i < 128 := by omega
  have hout := senseVal_out_protect hp
  exact ((takeCode_shows hp (frameCode_lt ws i) s).stores ((stores_onlyIf ..).mpr fun _ => stores_senseSample _ _) hout).stores
    (stores_pointTaken _) hout

/-- A frame gives each of its points its code: no other point takes it away (R317). -/
theorem senseFrame_shows {k i : Nat} (hk : k < 4) (hi : i < 32) (ws : List Word) {s : State}
    (h : bitOf (F.SENSE_CTRL_EN.get 0 s) k = true) : ShowsCode (32 * k + i) (frameCode ws i) ((senseFrame k ws).run s) := by
  rw [senseFrame_run ws h]
  refine run_forEach_one (P := fun _ => True) (Q := ShowsCode (32 * k + i) (frameCode ws i)) (List.mem_range.mpr hi) List.nodup_range
    (fun _ _ _ _ _ => trivial) (fun j hj hji t ht => ?_) (fun t _ => framePoint_shows hk hi ws t) trivial
  exact ht.stores (stores_framePoint hk (List.mem_range.mp hj) ws) (senseVal_out_others (by omega) (by omega))

/-! ### Configuration -/

theorem sensePt_fldsOk : FldsOk 1 [F.SENSE_PT_EN, F.SENSE_PT_KIND, F.SENSE_PT_OWNER, F.SENSE_PT_SCALE] := by unfold FldsOk; decide

theorem sensePt_out {i : Nat} (hi : i < 128) (m : Nat) : WordsOut errRegs R.SENSE_PT i m :=
  out_one (n := 128) (st := 4) rfl rfl (fun w hw => by
    have hb : R.SENSE_PT.base = 0x200A0100 := rfl
    have hw : w < 1 := hw
    exact errRegs_off (by omega) (by omega) (by omega) (by omega) (by omega) (by omega)) m

/-- The elements listed are elements of the set. -/
theorem lt_of_mem_listed {m : SMap Word} {base stride n q : Nat} (h : q ∈ listed m base stride n) : q < n := by
  obtain ⟨p, -, hp⟩ := List.mem_filterMap.mp (List.mem_eraseDups.mp h)
  split at hp
  next hin =>
    obtain rfl := Option.some.inj hp
    obtain ⟨hlo, hhi⟩ := (Bool.and_eq_true ..).mp hin
    exact Nat.div_lt_of_lt_mul (Nat.sub_lt_left_of_lt_add (of_decide_eq_true hlo) (of_decide_eq_true hhi))
  next => cases hp

/-- A point that is its owner's only one of its kind is stored (R318). -/
theorem wrSensePt_stores {m p v : Nat} {s : State} (hp : p < 128) (hk : F.SENSE_PT_KIND.of v < 3)
    (hen : F.SENSE_PT_EN.of v = 1 → (F.SENSE_PT_KIND.of v ≠ 0 → F.SENSE_PT_OWNER.of v ≤ 7) ∧
      ∀ q < 128, q ≠ p → F.SENSE_PT_EN.on q s = true →
        ¬ (F.SENSE_PT_KIND.get q s = F.SENSE_PT_KIND.of v ∧ F.SENSE_PT_OWNER.get q s = F.SENSE_PT_OWNER.of v)) :
    let t := (wrSensePt m p v (fullMask 1)).run s
    F.SENSE_PT_EN.get p t = F.SENSE_PT_EN.of v ∧ F.SENSE_PT_KIND.get p t = F.SENSE_PT_KIND.of v ∧
      F.SENSE_PT_OWNER.get p t = F.SENSE_PT_OWNER.of v ∧ F.SENSE_PT_SCALE.get p t = F.SENSE_PT_SCALE.of v := by
  have hkind : F.SENSE_PT_KIND.of v ∉ F.SENSE_PT_KIND.unlisted := by simp [F.SENSE_PT_KIND] at hk ⊢; omega
  have hasked : ∀ f ∈ [F.SENSE_PT_EN, F.SENSE_PT_KIND, F.SENSE_PT_OWNER, F.SENSE_PT_SCALE], f.acc = .rw → f.lk = false →
      f.of v ∉ f.unlisted → f.of (afterWrite (entryOf R.SENSE_PT) p m v (fullMask 1) s) = f.of v := fun f hf hacc hlk hu => by
    rw [entryOf_sensePt]
    exact of_afterWrite sensePt_fldsOk hf hacc hlk hu p m s
  have hrun : (wrSensePt m p v (fullMask 1)).run s =
      (storeWrite (entryOf R.SENSE_PT) p m v (fullMask 1) (R.SENSE_PT.addr p)).run s := by
    unfold wrSensePt
    rw [run_look]
    dsimp only
    rw [hasked F.SENSE_PT_EN (by simp) rfl rfl (by simp [F.SENSE_PT_EN]), hasked F.SENSE_PT_KIND (by simp) rfl rfl hkind,
      hasked F.SENSE_PT_OWNER (by simp) rfl rfl (by simp [F.SENSE_PT_OWNER]), if_neg]
    simp only [Bool.and_eq_true, Bool.or_eq_true, decide_eq_true_eq, List.any_eq_true, beq_iff_eq]
    rintro ⟨hon, ⟨q, hq, ⟨⟨hqp, hqon⟩, hqk⟩, hqo⟩ | ⟨hk0, ho⟩⟩
    · exact (hen hon).2 q (lt_of_mem_listed hq) hqp hqon ⟨hqk, hqo⟩
    · have := (hen hon).1 hk0
      omega
  have hget : ∀ f ∈ [F.SENSE_PT_EN, F.SENSE_PT_KIND, F.SENSE_PT_OWNER, F.SENSE_PT_SCALE], f.reg = R.SENSE_PT → f.acc = .rw →
      f.lk = false → f.of v ∉ f.unlisted →
      f.get p ((storeWrite (entryOf R.SENSE_PT) p m v (fullMask 1) (R.SENSE_PT.addr p)).run s) = f.of v :=
    fun f hf hreg hacc hlk hu => by
      rw [entryOf_sensePt]
      exact storeWrite_get sensePt_fldsOk (sensePt_out hp m) rfl hf hreg hacc (by rw [hlk]; rfl) hu
  dsimp only
  rw [hrun]
  exact ⟨hget _ (by simp) rfl rfl rfl (by simp [F.SENSE_PT_EN]), hget _ (by simp) rfl rfl rfl hkind,
    hget _ (by simp) rfl rfl rfl (by simp [F.SENSE_PT_OWNER]), hget _ (by simp) rfl rfl rfl (by simp [F.SENSE_PT_SCALE])⟩

/-! ### The statement -/

/-- Settles O34: the value of a point is stored for that point alone, so what the other points of its frame cause leaves it; and a write that
finds no twin is stored. -/
theorem senseCommandsComplete : Obligations.SenseCommandsComplete := by
  intro s
  refine ⟨fun k ws hlock hen => ⟨_, rfl, fun i hi => ?_⟩, fun m i v h hk hen => ⟨_, rfl, ?_⟩⟩
  · rw [run_look, hlock, onlyIf_true]
    exact senseFrame_shows k.isLt hi ws hen
  · obtain ⟨b, r, l, w, hrun⟩ := arrive_atTarget h 0xF v.toNat (wrSensePt m i v.toNat (fullMask 1))
    rw [hrun]
    exact wrSensePt_stores (s := atTarget b r l w s) i.isLt hk hen

end Sys2Proof.Machine
end

