-- ==== Sys2Proof/Proofs/ModulatorCommands.lean ====
section
/-! SUPPORT. A carrier period of an idle channel while the channels are listed out of order (R323, R328). -/

namespace Sys2Proof.Machine

/-- The node after reset, with its modulator channels listed out of order: channel 1 stands first and waits for the reference edge of
cycle 0, channel 0 stands behind it with BEN high. -/
def listedOutOfOrder : State :=
  { State.reset with mods := { modsReset with
    chans := [(1, { modReset with benAt := some 0 }), (0, { modReset with ben := true })] } }

/-- The entry of channel 1 hides that of channel 0, which reads as after reset. -/
theorem listedOutOfOrder_idle : chanSt listedOutOfOrder 0 = 0 ∧ chanAt listedOutOfOrder 0 = modReset := by decide +kernel

/-- The reference edge leaves channel 1 as after reset, so that it is no longer listed, and uncovers the entry of channel 0. With BEN high its
carrier period has pulses of half the period. -/
theorem carrierPeriod_pulses_out_of_order : (chanAt ((carrierPeriod 0).run listedOutOfOrder) 0).wa ≠ 0 := by decide +kernel

/-- Refutes O35: nothing in the statement keeps the channels listed by rising number, and then the reference edge of another channel uncovers
an entry of the idle channel with BEN high, whose carrier period has a pulse. -/
theorem not_modulatorCommandsComplete : ¬ Obligations.ModulatorCommandsComplete := by
  unfold Obligations.ModulatorCommandsComplete
  intro h
  obtain ⟨hidle, -⟩ := h 1 0 0 0 listedOutOfOrder
  obtain ⟨hoff, hchan⟩ := listedOutOfOrder_idle
  obtain ⟨t, ht, hpulse, -⟩ := hidle hoff (congrArg ModChan.ben hchan) (congrArg ModChan.lowIn hchan) (congrArg ModChan.dis hchan)
  obtain rfl : (carrierPeriod 0).run listedOutOfOrder = t := Host.Outcome.next.inj ht
  exact carrierPeriod_pulses_out_of_order hpulse

end Sys2Proof.Machine
end

