-- ==== Sys2Proof/Proofs/PoolCells.lean ====
section
/-! SUPPORT. The cells of the pool: their tags, allocation, free, and the items of one cell that are pushed and popped (R353, R356–R363). -/

namespace Sys2Proof.Machine

/-! ### Tags (R353) -/

section Tags

/-- A bit of a number that is a flag. -/
theorem bitOf_of_b2n {v i : Nat} {b : Bool} (h : v / 2 ^ i % 2 = b2n b) : bitOf v i = b := by
  rw [bitOf, h]
  cases b <;> rfl

variable {held last lnk : Bool} {owner link : Nat}

theorem mkTag_toNat (held last lnk : Bool) (owner link : Nat) : (mkTag held last lnk owner link).toNat =
    b2n held * 2 ^ 31 + b2n last * 2 ^ 30 + b2n lnk * 2 ^ 29 + owner % 1024 * 2 ^ 16 + link % 65536 := by
  have hheld := b2n_lt held
  have hlast := b2n_lt last
  have hlnk := b2n_lt lnk
  rw [mkTag, BitVec.toNat_ofNat, Nat.mod_eq_of_lt (by omega)]

@[simp] theorem tagHeld_mkTag : tagHeld (mkTag held last lnk owner link).toNat = held := by
  have hlast := b2n_lt last
  have hlnk := b2n_lt lnk
  have hheld := b2n_lt held
  exact bitOf_of_b2n (by rw [mkTag_toNat]; omega)

@[simp] theorem tagLast_mkTag : tagLast (mkTag held last lnk owner link).toNat = last := by
  have hlast := b2n_lt last
  have hlnk := b2n_lt lnk
  exact bitOf_of_b2n (by rw [mkTag_toNat]; omega)

@[simp] theorem tagLnk_mkTag : tagLnk (mkTag held last lnk owner link).toNat = lnk := by
  have hlnk := b2n_lt lnk
  exact bitOf_of_b2n (by rw [mkTag_toNat]; omega)

@[simp] theorem tagOwner_mkTag : tagOwner (mkTag held last lnk owner link).toNat = owner % 1024 := by
  rw [tagOwner, bitsOf, mkTag_toNat]
  omega

@[simp] theorem tagLink_mkTag : tagLink (mkTag held last lnk owner link).toNat = link % 65536 := by
  rw [tagLink, bitsOf, mkTag_toNat]
  omega

end Tags

section Cells

variable {s : State} {c q req : Nat}

/-- A tag is read with no codeword in error. -/
theorem readTag_clean (hc : s.ecc.marks = []) (k : Nat → Bool → Act) : (readTag c k).run s = (k (tagOf s c) true).run s := by
  unfold readTag eccReadKey
  rw [run_look, hc]
  rfl

/-! ### What each operation leaves of the pool -/

@[simp] theorem setTag_pool (c : Nat) (t : Word) (s : State) :
    ((setTag c t).run s).pool = { s.pool with tags := smPut tagReset s.pool.tags c t } := rfl

@[simp] theorem setQueue_pool (q : Nat) (f : PoolQ → PoolQ) (s : State) :
    ((setQueue q f).run s).pool = { s.pool with queues := smPut (fun _ => poolQReset) s.pool.queues q (f (queueAt s q)) } := rfl

@[simp] theorem setFree_pool (b head cnt : Nat) (s : State) : ((setFree b head cnt).run s).pool = { s.pool with
    freeHead := smPut (fun b => 16384 * b + 512) s.pool.freeHead b head
    freeCnt := smPut (fun _ => 15872) s.pool.freeCnt b cnt } := rfl

@[simp] theorem setPool_pool (f : PoolState → PoolState) (s : State) : ((setPool f).run s).pool = f s.pool := rfl

@[simp] theorem respond_pool (id : Nat) (vs : List Nat) (s : State) : ((respond id vs).run s).pool = s.pool := rfl

/-- The count of the free cells and its marks stand in registers. -/
@[simp] theorem countFree_pool (s : State) : (countFree.run s).pool = s.pool := by
  have hmark : poolMark.Touches raiseKinds := by
    unfold poolMark
    rw [touches_look]
    intro s
    dsimp only
    split <;> simp
  have htouch : countFree.Touches raiseKinds := by simp [countFree, hmark]
  exact touches_pool htouch (by decide) (by decide) s

/-- Judging the marks of a queue changes its marks alone. -/
theorem queueMark_pool (q : Nat) (s : State) : ∃ above crossed : Bool,
    ((queueMark q).run s).pool = ((setQueue q fun x => { x with above := above, crossed := crossed }).run s).pool := by
  have hkeep : ∀ (a : Act) (u : State), a.Touches raiseKinds → (a.run u).pool = u.pool := fun a u ha =>
    touches_pool ha (by decide) (by decide) u
  unfold queueMark
  rw [run_look]
  dsimp only
  rw [run_acts_cons, run_acts_cons, run_acts_cons, run_acts_nil, hkeep _ _ (by simp), hkeep _ _ (by simp)]
  exact ⟨_, _, rfl⟩

/-! ### What is read of the pool -/

theorem queueAt_congr {t : State} (h : t.pool = s.pool) (q : Nat) : queueAt t q = queueAt s q := by rw [queueAt, h, queueAt]

theorem tagOf_congr {t : State} (h : t.pool = s.pool) (c : Nat) : tagOf t c = tagOf s c := by rw [tagOf, h, tagOf]

theorem queueAt_setQueue (q : Nat) (f : PoolQ → PoolQ) (s : State) : queueAt ((setQueue q f).run s) q = f (queueAt s q) :=
  get_put_self ..

theorem tagOf_setQueue (q : Nat) (f : PoolQ → PoolQ) (s : State) (c : Nat) : tagOf ((setQueue q f).run s) c = tagOf s c := rfl

/-! ### Allocation and free -/

/-- A queue below its reservation is granted the first free cell of its home bank. -/
theorem allocCell_grants (h : GrantsCell q c s) (req : Nat) : ∃ u,
    (∀ k, (allocCell q req req false k).run s = (k (some c)).run u) ∧ tagOf u c = (mkTag true false false req q).toNat ∧
      (queueAt u q).used = (queueAt s q).used + 1 ∧ freeHead u (qHome (queueAt s q) % 4) = tagLink (tagOf s c) := by
  obtain ⟨hitem, hwhole, hroom, hbank, hhead, hsome, hclean⟩ := h
  have hon : qEn (queueAt s q) = true := (Bool.and_eq_true_iff.mp hitem).1
  have hbanks : (((List.range 4).map fun i => (qHome (queueAt s q) + i) % 4).find? fun b => !bankClosed s b && freeHead s b ≠ 0) =
      some (qHome (queueAt s q) % 4) := List.find?_cons_of_pos (by simp [hbank, hhead, hsome])
  refine ⟨(acts [setFree (qHome (queueAt s q) % 4) (tagLink (tagOf s c)) (freeCells s (qHome (queueAt s q) % 4) - 1),
    setTag c (mkTag true false false req q), setQueue q fun x => { x with used := x.used + 1 }, countFree]).run s, fun k => ?_,
    by simp [tagOf, queueAt, freeHead]⟩
  unfold allocCell
  rw [run_look]
  dsimp only
  rw [hwhole, hon, if_neg (by decide), if_neg (by omega), hbanks]
  dsimp only
  rw [hhead, readTag_clean hclean]
  rfl

/-- The requester that a cell stands with holds it, in no chain (R352). -/
structure HoldsCell (req c : Nat) (s : State) : Prop where
  held : tagHeld (tagOf s c) = true
  unlinked : tagLnk (tagOf s c) = false
  owner : tagOwner (tagOf s c) = req
  clean : s.ecc.marks = []

/-- A free by the holder puts the cell in front of the free list of its bank. -/
theorem freeCell_releases (h : HoldsCell req c s) : let q := tagLink (tagOf s c)
    let t := (freeCell req c).run s
    tagOf t c = (mkTag false false true 0 (freeHead s (c / 16384))).toNat ∧ freeHead t (c / 16384) = c ∧
      freeCells t (c / 16384) = freeCells s (c / 16384) + 1 ∧ (queueAt t q).used = (queueAt s q).used - 1 := by
  obtain ⟨hheld, hunlinked, howner, hclean⟩ := h
  have hrun : (freeCell req c).run s = (releaseCell c (tagLink (tagOf s c))).run s := by
    unfold freeCell
    rw [readTag_clean hclean]
    simp [hheld, hunlinked, howner]
  dsimp only
  rw [hrun]
  simp [releaseCell, tagOf, queueAt, freeHead, freeCells]

/-! ### Items of one cell -/

/-- A queue with one more item, the single cell `c` (R359). -/
def withItem (c : Nat) (x : PoolQ) : PoolQ := { x with head := if x.head = 0 then c else x.head, tail := c, depth := x.depth + 1 }

/-- The push of a whole item to an empty queue makes its cell the head and the tail. -/
theorem pushCell_links (h : HoldsCell req c s) (hopen : smFind s.pool.opens req = none) (hq : tagLink (tagOf s c) % 4096 = q)
    (hwhole : (queueAt s q).broken = false) (hhead : (queueAt s q).head = 0) (htail : (queueAt s q).tail = 0) :
    let t := (pushCell req c true).run s
    tagOf t c = (mkTag true true true poolEngine 0).toNat ∧ (queueAt t q).head = c ∧ (queueAt t q).tail = c ∧
      (queueAt t q).depth = (queueAt s q).depth + 1 := by
  obtain ⟨hheld, hunlinked, howner, hclean⟩ := h
  generalize hu : (acts [setTag c (mkTag true true true poolEngine 0), setPool fun p => { p with opens := smErase p.opens req }]).run s = u
  have htag : tagOf u c = (mkTag true true true poolEngine 0).toNat := by simp [← hu, tagOf]
  have hsame : queueAt u q = queueAt s q := by simp [← hu, queueAt]
  have hpush : (pushCell req c true).run s = (linkItem q [c]).run u := by
    unfold pushCell
    rw [readTag_clean hclean, run_look]
    simp only [hheld, hunlinked, howner, hopen, hq, hwhole]
    simp [tailGood, htail, ← hu]
  have hlink : (linkItem q [c]).run u = (queueMark q).run ((setQueue q (withItem c)).run u) := by
    unfold withItem
    simp [linkItem, hsame, htail]
  obtain ⟨above, crossed, hmark⟩ := queueMark_pool q ((setQueue q (withItem c)).run u)
  dsimp only
  rw [hpush, hlink, tagOf_congr hmark, queueAt_congr hmark, queueAt_setQueue, queueAt_setQueue, tagOf_setQueue, tagOf_setQueue, hsame]
  exact ⟨htag, if_pos hhead, rfl, rfl⟩

/-- A cell that ends its item is handed over. -/
theorem takeCell_hands (hclean : s.ecc.marks = []) (hlast : tagLast (tagOf s c) = true) : ∃ u,
    (∀ k, (takeCell req q c [] k).run s = (k (2 ^ 31 + 2 ^ 30 + c)).run u) ∧ tagOf u c = (mkTag true true false req q).toNat ∧
      (queueAt u q).depth = (queueAt s q).depth - 1 := by
  generalize hu : (acts [setTag c (mkTag true true false req q), setQueue q fun x => { x with depth := x.depth - 1 }]).run s = u
  have htag : tagOf u c = (mkTag true true false req q).toNat := by simp [← hu, tagOf]
  have hdepth : (queueAt u q).depth = (queueAt s q).depth - 1 := by simp [← hu, queueAt]
  obtain ⟨above, crossed, hmark⟩ := queueMark_pool q u
  refine ⟨(setPool fun p => { p with popped := smErase p.popped req }).run ((queueMark q).run u), fun k => ?_,
    (tagOf_congr hmark c).trans htag, (congrArg PoolQ.depth ((queueAt_congr hmark q).trans (queueAt_setQueue ..))).trans hdepth⟩
  unfold takeCell
  rw [readTag_clean hclean, if_pos rfl, hlast, ← hu]
  rfl

/-- Cell `c` is the oldest item of queue `q`, and requester `req` has no item in hand (R361). -/
structure HeadsQueue (req q c : Nat) (s : State) : Prop where
  free : smFind s.pool.popped req = none
  whole : (queueAt s q).broken = false
  head : (queueAt s q).head = c
  some : c ≠ 0
  depth : 0 < (queueAt s q).depth
  last : tagLast (tagOf s c) = true
  clean : s.ecc.marks = []

/-- A queue without its head `c`, which links to `next`. -/
def pastHead (c next : Nat) (x : PoolQ) : PoolQ := if c = x.tail then { x with head := 0, tail := 0 } else { x with head := next }

theorem pastHead_depth (c next : Nat) (x : PoolQ) : (pastHead c next x).depth = x.depth := by
  unfold pastHead
  split <;> rfl

/-- A pop takes the head of the queue, where that cell is the whole item. -/
theorem popCell_takes (h : HeadsQueue req q c s) : ∃ u, (∀ k, (popCell req q k).run s = (k (some (2 ^ 31 + 2 ^ 30 + c))).run u) ∧
    tagOf u c = (mkTag true true false req q).toNat ∧ (queueAt u q).depth = (queueAt s q).depth - 1 := by
  obtain ⟨hfree, hwhole, hhead, hsome, hdepth, hlast, hclean⟩ := h
  have hcells : itemCells s (queueAt s q).depth c = [c] := by
    obtain ⟨n, hn⟩ := Nat.exists_eq_succ_of_ne_zero hdepth.ne'
    simp [hn, itemCells, hsome, hlast]
  have hrun : ∀ k, (popCell req q k).run s =
      (takeCell req q c [] fun v => k (some v)).run ((setQueue q (pastHead c (tagLink (tagOf s c)))).run s) := by
    intro k
    unfold popCell
    rw [run_look, hfree]
    dsimp only
    rw [hwhole, hhead, if_neg (by decide), if_neg hsome, hcells]
    rfl
  obtain ⟨u, htake, htag, hend⟩ := takeCell_hands (s := (setQueue q (pastHead c (tagLink (tagOf s c)))).run s) (req := req) (q := q)
    hclean hlast
  exact ⟨u, fun k => (hrun k).trans (htake _), htag, by rw [hend, queueAt_setQueue, pastHead_depth]⟩

/-! ### Reads of a master (R359, R361, R362) -/

/-- A read of POOL_ALLOC takes the cell that the selected queue grants. -/
theorem readAlloc_grants {m : Master} (hsel : F.POOL_SELQ_QUEUE.get 0 s m = q) (h : GrantsCell q c s) (k : Nat → Act) : ∃ u,
    (readAlloc m k).run s = (k (2 ^ 31 + c)).run u ∧ tagOf u c = (mkTag true false false m q).toNat ∧
      (queueAt u q).used = (queueAt s q).used + 1 ∧ freeHead u (qHome (queueAt s q) % 4) = tagLink (tagOf s c) := by
  obtain ⟨u, hrun, hend⟩ := allocCell_grants h m
  refine ⟨u, ?_, hend⟩
  unfold readAlloc
  rw [run_look]
  dsimp only
  rw [hsel, h.item, if_neg (by simp)]
  exact hrun _

/-- A read of POOL_POP or POOL_TRYPOP takes the cell that is the oldest item of the selected queue, and is answered. -/
theorem readPop_takes {m : Master} (hsel : F.POOL_SELQ_QUEUE.get 0 s m = q) (hitem : isItemQ (queueAt s q) = true)
    (h : HeadsQueue m q c s) (tryPop : Bool) : ∃ u, (readPop m tryPop).run s = (respond m [2 ^ 31 + 2 ^ 30 + c]).run u ∧
      tagOf u c = (mkTag true true false m q).toNat ∧ (queueAt u q).depth = (queueAt s q).depth - 1 := by
  obtain ⟨u, hrun, hend⟩ := popCell_takes h
  refine ⟨u, ?_, hend⟩
  unfold readPop
  rw [run_look]
  dsimp only
  rw [hsel, h.free, hitem, if_neg (by simp)]
  exact hrun _

/-- A read while the matrices go is performed at its target. -/
theorem reads_atTarget (h : asleep s = false) (m a : Nat) (act : Act) : ∃ b r,
    (reads m a act).run s = act.run (atTarget b r s.pair.sentWrites s.pair.waiting s) := reads_run h m a act

end Cells

/-! ### The statement -/

/-- Settles O26: each command comes to one operation on the pool in the state that it meets, and an answer leaves the pool. -/
theorem poolCellCommandsComplete : Obligations.PoolCellCommandsComplete := by
  intro m v c q s hawake hclean hwhole
  have hmaster : m.val % 1024 = m.val := Nat.mod_eq_of_lt (by omega)
  refine ⟨fun hsel hitem hroom hbank hhead hsome => ⟨_, rfl, ?_⟩, fun hreach hcell hheld hunlinked howner hlink => ⟨_, rfl, ?_⟩,
    fun hreach hcell hlast hheld hunlinked howner hlink hopen hhead htail => ⟨_, rfl, ?_⟩,
    fun tryPop hsel hitem hfree hhead hsome hdepth hlast => ?_⟩
  · obtain ⟨b, r, hrun⟩ := reads_atTarget hawake m (R.POOL_ALLOC.addr 0) (readAlloc m fun v => respond m [v])
    obtain ⟨u, hgrant, htag, hused, hfirst⟩ := readAlloc_grants (s := atTarget b r s.pair.sentWrites s.pair.waiting s) hsel
      ⟨hitem, hwhole, hroom, hbank, hhead, hsome, hclean⟩ fun v => respond m [v]
    rw [hrun, hgrant, tagOf_congr (respond_pool ..), htag, tagHeld_mkTag, tagLnk_mkTag, tagOwner_mkTag]
    exact ⟨respond_answers .., rfl, rfl, hmaster, hused, hfirst⟩
  · obtain ⟨b, r, l, w, hrun⟩ := arrive_atTarget hreach 0xF v.toNat (freeCell m (v.toNat % 65536))
    subst hcell hlink
    obtain ⟨htag, hhead, hfree, hused⟩ := freeCell_releases (s := atTarget b r l w s) ⟨hheld, hunlinked, howner, hclean⟩
    rw [hrun, htag, tagHeld_mkTag, tagLink_mkTag]
    exact ⟨rfl, rfl, hhead, hfree, hused⟩
  · obtain ⟨b, r, l, w, hrun⟩ := arrive_atTarget hreach 0xF v.toNat (pushCell m (v.toNat % 65536) (bitOf v.toNat 31))
    subst hcell
    obtain ⟨htag, hend⟩ := pushCell_links (s := atTarget b r l w s) ⟨hheld, hunlinked, howner, hclean⟩ hopen hlink hwhole hhead htail
    rw [hrun, hlast, htag, tagLnk_mkTag, tagLast_mkTag]
    exact ⟨rfl, rfl, hend⟩
  · obtain ⟨b, r, hrun⟩ := reads_atTarget hawake m ((if tryPop then R.POOL_TRYPOP else R.POOL_POP).addr 0) (readPop m tryPop)
    obtain ⟨u, htake, htag, hend⟩ := readPop_takes (s := atTarget b r s.pair.sentWrites s.pair.waiting s) hsel hitem
      ⟨hfree, hwhole, hhead, hsome, hdepth, hlast, hclean⟩ tryPop
    have hexec : exec (if tryPop then .poolTrypop m else .poolPop m) s = .next ((respond m [2 ^ 31 + 2 ^ 30 + c]).run u) := by
      rw [← htake, ← hrun]
      cases tryPop <;> rfl
    refine ⟨_, hexec, respond_answers .., ?_⟩
    rw [tagOf_congr (respond_pool ..), htag, tagLnk_mkTag, tagOwner_mkTag]
    exact ⟨rfl, hmaster, hend⟩

end Sys2Proof.Machine
end

