-- ==== Sys2Proof/Proofs/PoolQueues.lean ====
section
/-! SUPPORT. The end of a wait of a gallery DMA that is marked as a wait for a word (R257, R362, R365). -/

namespace Sys2Proof.Machine

/-- A wait of gallery DMA 0 for a word of queue 7. The model sets none: of a DMA it sets waits for a descriptor alone (R257). -/
def dmaWordWait : PoolWait := { req := reqId (.gdma 0), queue := 7, word := true, since := 0, raised := false }

/-- The node after reset with that wait, where word queue 7 holds an unread word. -/
def dmaAwaitsWord : State := { State.reset with pool := { poolReset with
  queues := [(7, { poolQReset with cfg := 0xC000000000000010, head := 512, tail := 512, used := 1, depth := 1, wr := 1 })]
  waits := [dmaWordWait] } }

/-- What arrives for a gallery DMA starts a job where the DMA is enabled, and answers no one. -/
theorem jobStart_answers_none :
    smFind ((onlyIf (waiting dmaAwaitsWord (dmaId 0)) (jobStart 0)).run dmaAwaitsWord).bus.resp (reqId (.gdma 0)) = none := by
  decide +kernel

/-- Refutes O27: nothing in the statement keeps a wait for a word from being that of a gallery DMA. Its wait ends in the start of a job, which
takes items alone (R257), and no word is answered. -/
theorem not_poolQueueCommandsComplete : ¬ Obligations.PoolQueueCommandsComplete := by
  unfold Obligations.PoolQueueCommandsComplete
  intro h
  obtain ⟨-, -, hwait, -⟩ := h 1 7 dmaAwaitsWord
  obtain ⟨t, ht, -, hanswer⟩ := hwait (.gdma 0) dmaWordWait rfl rfl rfl rfl (by decide) (by decide) (by decide)
  obtain rfl : (onlyIf (waiting dmaAwaitsWord (dmaId 0)) (jobStart 0)).run dmaAwaitsWord = t := Host.Outcome.next.inj ht
  exact Option.some_ne_none _ (hanswer.symm.trans jobStart_answers_none)

end Sys2Proof.Machine
end

