-- ==== Sys2Proof/Proofs/CanonicalForm.lean ====
section
/-! SUPPORT. The canonical form of the state: every primitive update keeps it, and so every step. -/

namespace Sys2Proof.Machine

/-- What a reset of the node keeps of a canonical state is canonical. -/
theorem canonical_resetState (porst : Bool) {s : State} (h : s.Canonical) : (resetState porst s).Canonical := by
  obtain ⟨hregs, hlive, hmem, -, -⟩ := h
  have hkept : smSortedAbove none (s.regs.filter fun p => survives porst p.1) = true := sortedAbove_filter _ hregs
  refine ⟨?_, sortedAbove_filter _ hlive, memory_wf_upd (.nodeReset porst) s hmem, rfl, rfl⟩
  show smSortedAbove none ((ropeStatKept porst s).foldl (fun m p => smInsert m p.1 p.2) _) = true
  unfold ropeStatKept
  split
  · exact sortedAbove_insert hkept fun _ hc => nomatch hc
  · exact hkept

/-- Every primitive update keeps the form: a register word and an applied one are inserted in order, a byte, a lane and a gallery DMA are
put so that a default is not listed. -/
theorem canonical_upd (u : Upd) {s : State} (h : s.Canonical) : (u.apply s).Canonical := by
  have hall := h
  obtain ⟨hregs, hlive, hmem, hlanes, hgdma⟩ := h
  cases u with
  | reg a v => exact ⟨sortedAbove_insert hregs (fun _ hc => nomatch hc), hlive, hmem, hlanes, hgdma⟩
  | live a v => exact ⟨hregs, sortedAbove_insert hlive (fun _ hc => nomatch hc), hmem, hlanes, hgdma⟩
  | mem a b => exact ⟨hregs, hlive, memory_wf_put hmem a b, hlanes, hgdma⟩
  | lane i l => exact ⟨hregs, hlive, hmem, wf_put hlanes i l, hgdma⟩
  | gdma g x => exact ⟨hregs, hlive, hmem, hlanes, wf_put hgdma g x⟩
  | nodeReset porst => exact canonical_resetState porst hall
  | _ => exact hall

/-- Settles O9: a step is an effect, and every primitive update of an effect keeps the form. -/
theorem canonicalKept : Obligations.CanonicalKept :=
  fun _ _ hs ht => step_induction State.Canonical (fun u _ h => canonical_upd u h) (fun _ _ h => h) hs ht

/-- Settles O10: the maps of the reset state list two register words, in order, and nothing else. -/
theorem canonicalAtReset : Obligations.CanonicalAtReset := by
  unfold Obligations.CanonicalAtReset
  exact ⟨by decide, rfl, memory_wf_reset, rfl, rfl⟩

end Sys2Proof.Machine
end

