-- ==== Sys2Proof/Proofs/Steps.lean ====
section
/-! SUPPORT. The step with a command waiting, and the idle cycle. -/

namespace Sys2Proof.Machine

/-- Settles O1: `step` takes the command off the queue before it is performed. -/
theorem stepRunsFrontCommand : Obligations.StepRunsFrontCommand := by
  intro c rest s h
  unfold step
  rw [h]

/-- Settles O3: a command is one effect, and no primitive update reaches the queue. -/
theorem everyCommandGoesOn : Obligations.EveryCommandGoesOn := by
  intro c s
  obtain ⟨a, ha⟩ := exec_effect c s
  exact ⟨a.run s, ha, run_pending a s⟩

/-! ### An idle cycle (logs 36, 102) -/

/-- The node after the counters of a cycle with no command, before the engines that count it. -/
def counted (s : State) : State := { s with
  elapsed := s.elapsed + 1
  now := if s.clk.hold then s.now else s.now + 1
  tick := { s.tick with cycle := if running s then s.tick.cycle + 1 else s.tick.cycle } }

/-- The lanes that wait for a word of their queue count a stalled cycle. -/
def stallsCount (s : State) : Act :=
  forEach ((s.lanes.filter fun e => e.2.st == .stall && e.2.cause == .qrd).map (·.1)) fun l =>
    setLane l fun L => { L with cyc := L.cyc + 1, stalls := L.stalls + 1 }

/-- Where no edge is due, or the counter is held, the counters count, and then the engines. -/
theorem idleCycle_run {s : State} (h : edgeDue s = false ∨ s.clk.hold = true) : idleCycle.run s =
    (stallsCount s).run ((siphonRun 1).run ((kaRun 1).run (refEdges.run (counted s)))) := by
  have hif : (edgeDue s && !s.clk.hold) = false := by rcases h with h | h <;> simp [h]
  unfold idleCycle counted
  rw [run_look, hif]
  cases s.clk.hold <;> cases running s <;> rfl

theorem touches_refEdges : refEdges.Touches [.mods] :=
  fun _ => touches_forEach_of fun _ => touches_setChan List.mem_cons_self _ _

theorem touches_sipSend : sipSend.Touches [.pair] := by
  rw [sipSend, touches_look]
  intro s
  split
  · exact touches_setPair List.mem_cons_self _
  · trivial

theorem touches_siphonRun (n : Nat) : (siphonRun n).Touches [.pair] := by
  have hsend : modstateSend.Touches [.pair] := fun _ =>
    (touches_onlyIf ..).mpr fun _ => ⟨touches_setPair List.mem_cons_self _, touches_sipQueue List.mem_cons_self _ _⟩
  exact ⟨hsend, fun _ => touches_forEach_of fun _ => touches_sipSend⟩

theorem touches_stallsCount (s : State) : (stallsCount s).Touches [.lane] :=
  touches_forEach_of fun _ => touches_setLane List.mem_cons_self _ _

theorem touches_kaRun (n : Nat) : (kaRun n).Touches [.pwr, .reg] := by
  rw [kaRun, touches_look]
  intro s
  simp only [touches_onlyIf, touches_seq]
  exact fun _ => ⟨touches_setPwr (by simp) _, fun _ => ⟨touches_fset (by simp) _ _ _ _, fun _ => touches_fset (by simp) _ _ _ _⟩⟩

/-- The keep-alive counter advances by the whole cycles of 32,768 Hz that have come together (R591). -/
theorem kaRun_counts (n : Nat) {s : State} (h : F.PWR_KACFG_CLK.on 0 s = true) : F.PWR_KACNT_COUNT.get 0 ((kaRun n).run s) =
    (F.PWR_KACNT_COUNT.get 0 s + (s.pwr.kaFrac + 32768 * n) / (cclkMHz s * 1000000)) % 2 ^ 48 := by
  have hlt : F.PWR_KACNT_COUNT.get 0 s < 2 ^ 48 := bitsOf_lt ..
  have halarm : ∀ (b : Bool) (u : State), F.PWR_KACNT_COUNT.get 0 ((onlyIf b (F.PWR_KALATCH_ALARM.set 0 1)).run u) =
      F.PWR_KACNT_COUNT.get 0 u := by
    intro b u
    cases b with
    | false => rfl
    | true => exact get_set_apart _ _ (apart_zero rfl rfl rfl rfl (by decide) _ _) ..
  unfold kaRun
  rw [run_look, h, onlyIf_true]
  by_cases hf : cclkMHz s * 1000000 ≤ s.pwr.kaFrac + 32768 * n
  · rw [decide_eq_true hf, onlyIf_true, run_seq, run_seq, halarm, get_set _ _ _ _ _ (by decide) (by decide)]
    exact Nat.mod_mod ..
  · rw [decide_eq_false hf, onlyIf_false, Nat.div_eq_of_lt (by omega), Nat.add_zero, Nat.mod_eq_of_lt hlt]
    rfl

/-- Settles O2: in a due edge cycle nothing counts; otherwise the counters do, and of the engines that count the cycle only the keep-alive
counter stores a register. -/
theorem idleStepCountsOneCycle : Obligations.IdleStepCountsOneCycle := by
  intro s hp
  have hstep : step s = .next (idleCycle.run s) := by
    unfold step
    rw [hp]
  refine ⟨fun hd hh => ?_, fun h => ⟨_, hstep, ?_⟩⟩
  · rw [hstep, idleCycle, run_look, hd, hh]
    rfl
  · have hregs : (refEdges.run (counted s)).regs = s.regs := touches_regs touches_refEdges (by decide) (by decide) _
    have hpwr : (refEdges.run (counted s)).pwr = s.pwr := touches_pwr touches_refEdges (by decide) (by decide) _
    have hclk : (refEdges.run (counted s)).clk = s.clk := touches_clk touches_refEdges (by decide) (by decide) _
    have hon : ∀ f : Fld, f.get 0 (refEdges.run (counted s)) = f.get 0 s := fun f => by
      unfold Fld.get Reg.val Reg.word
      rw [hregs]
    have hafter : (Act.seq (siphonRun 1) (stallsCount s)).Touches [.pair, .lane] :=
      ⟨touches_mono (touches_siphonRun 1) (by simp), touches_mono (touches_stallsCount s) (by simp)⟩
    have hall : (acts [refEdges, kaRun 1, siphonRun 1, stallsCount s]).Touches [.mods, .pwr, .reg, .pair, .lane] :=
      ⟨touches_mono touches_refEdges (by simp), touches_mono (touches_kaRun 1) (by simp),
        touches_mono (touches_siphonRun 1) (by simp), touches_mono (touches_stallsCount s) (by simp)⟩
    have hr : ∀ u, (Act.seq (siphonRun 1) (stallsCount s)).run u = (stallsCount s).run ((siphonRun 1).run u) := fun _ => rfl
    rw [idleCycle_run h]
    refine ⟨touches_elapsed hall (by decide) (by decide) (counted s), touches_now hall (by decide) (by decide) (counted s),
      touches_live hall (by decide) (by decide) (counted s), touches_mem hall (by decide) (by decide) (counted s),
      congrArg TickState.cycle (touches_tick hall (by decide) (by decide) (counted s)), fun hoff => ?_, fun hclkOn => ?_⟩
    · have hoff' : F.PWR_KACFG_CLK.on 0 (refEdges.run (counted s)) = false := by rw [Fld.on, hon]; exact hoff
      rw [← hr, touches_regs hafter (by decide) (by decide), kaRun, run_look, hoff', onlyIf_false]
      exact hregs
    · have hon' : F.PWR_KACFG_CLK.on 0 (refEdges.run (counted s)) = true := by rw [Fld.on, hon]; exact hclkOn
      have hcount := kaRun_counts 1 hon'
      rw [hon, hpwr, cclkMHz, hclk] at hcount
      rw [← hr]
      refine Eq.trans ?_ hcount
      unfold Fld.get Reg.val Reg.word
      rw [touches_regs hafter (by decide) (by decide)]

end Sys2Proof.Machine
end

