-- ==== Sys2Proof/Proofs/LaneFrame.lean ====
section
/-! SUPPORT. What a compute word leaves unchanged (R129, R143–R153). -/

namespace Sys2Proof.Machine

/-! ### Other lanes -/

/-- The update changes no lane but slot `l`. -/
def Upd.ownLane (l : Nat) : Upd → Prop
  | .lane i _ => i = l
  | .nodeReset _ => False
  | _ => True

theorem ownLane_of_touches {ks : List Kind} {a : Act} (ha : a.Touches ks) (h : Kind.lane ∉ ks) (hr : Kind.nodeReset ∉ ks) (l : Nat) :
    a.Within (Upd.ownLane l) :=
  within_mono (fun u hu => by cases u <;> trivial) ha

theorem ownLane_setLane (l : Nat) (f : Lane → Lane) : (setLane l f).Within (Upd.ownLane l) := fun _ => rfl

/-- Such a primitive update leaves every other lane of a canonical state. -/
theorem upd_otherLane {u : Upd} {l k : Nat} (hu : u.ownLane l) (hk : k ≠ l) {s : State} (hs : s.Canonical) :
    laneAt (u.apply s) k = laneAt s k := by
  obtain ⟨-, -, -, hlanes, -⟩ := hs
  cases u with
  | lane i x =>
    obtain rfl : i = l := hu
    exact get_put_ne _ (wf_sorted hlanes) x hk
  | nodeReset p => exact absurd hu id
  | _ => rfl

/-- So does an effect of such updates. -/
theorem run_otherLane {a : Act} {l k : Nat} (ha : a.Within (Upd.ownLane l)) (hk : k ≠ l) {s : State} (hs : s.Canonical) :
    laneAt (a.run s) k = laneAt s k := by
  induction a generalizing s with
  | done => rfl
  | upd u => exact upd_otherLane ha hk hs
  | seq a b iha ihb => exact (ihb ha.2 (run_induction State.Canonical (fun u _ h => canonical_upd u h) a s hs)).trans (iha ha.1 hs)
  | look f ih => exact ih s (ha s) hs

/-! ### The fetch and the word -/

theorem ownLane_fetch (l : Nat) : (fetch l).Within (Upd.ownLane l) := by
  have hfill : (fillCache l).Within (Upd.ownLane l) := by
    unfold fillCache
    rw [within_look]
    intro s
    dsimp only
    split
    · have hfresh := fun p => ownLane_of_touches (ks := [.ecc]) (a := eccFresh p) (by simp [eccFresh]) (by decide) (by decide) l
      simp [ownLane_setLane, hfresh]
    · trivial
  have hput : ∀ a v, (putWord40 a v).Within (Upd.ownLane l) := fun a v =>
    ownLane_of_touches (ks := [.mem, .ecc]) (touches_putWord40 (by decide) (by decide) a v) (by decide) (by decide) l
  exact fun _ => ⟨hfill, fun _ => ⟨within_forEach_of fun _ => hput _ _, ownLane_setLane _ _⟩⟩

/-- The words of `LANE_STAT` and `LANE_CLIP` of a slot. -/
def laneReports (l a : Nat) : Bool := a = R.LANE_STAT.addr l || a = R.LANE_CLIP.addr l || a = R.LANE_CLIP.addr l + 4

theorem laneReports_stat (l : Nat) : WordsIn (laneReports l) R.LANE_STAT l 0 := by
  intro w hw
  obtain rfl : w = 0 := Nat.lt_one_iff.mp hw
  simp [laneReports, Reg.key, R.LANE_STAT]

theorem laneReports_clip (l : Nat) : WordsIn (laneReports l) R.LANE_CLIP l 0 := by
  intro w hw
  have hw : w = 0 ∨ w = 1 := by have : w < 2 := hw; omega
  rcases hw with rfl | rfl <;> simp [laneReports, Reg.key, R.LANE_CLIP]

/-- A compute word that meets no error changes its lane, and flags of `LANE_STAT` and `LANE_CLIP` of its slot. -/
theorem doCompute_reports {l : Nat} {s : State} {w : ComputeWord} (hc : s.ecc.marks = []) (hbanks : pairStoreBad (laneAt s l) w = false)
    (hret : (laneAt s l).stepRet = none) (hnext : (nextPc (laneAt s l).reps (laneAt s l).pc).2 < 4096) :
    ∃ a : Act, a.Touches [.lane, .reg] ∧ a.Within (Upd.ownLane l) ∧ a.Stores (laneReports l) ∧ (doCompute l w).run s = a.run s := by
  obtain ⟨rs, ps, hframe⟩ := computeEff_frame (laneAt s l) w (loadVals l w s)
  have hbad : (wordLoads (laneAt s l) w).filter (fun q => wordBad s (xyAddr l q.1 (q.2.1.toNat % 8192))) = [] :=
    List.filter_eq_nil_iff.mpr fun q _ => by simp [wordBad_clean hc]
  let r := computeEff (laneAt s l) w (loadVals l w s)
  let flags : Act := acts [
    onlyIf r.1.sat (F.LANE_STAT_SAT.set l 1),
    onlyIf r.1.aov (F.LANE_STAT_AOV.set l 1),
    (match wordStore w, clipChan l (rdA (laneAt s l) w.u0.an) s with
      | some (true, .conv _ _ _), some c => onlyIf r.2 (R.LANE_CLIP.set l (R.LANE_CLIP.val l s ||| 2 ^ c))
      | _, _ => .done)]
  have htouch : flags.Touches [.reg] := by
    simp only [flags, touches_acts_cons, touches_onlyIf]
    refine ⟨fun _ => by simp, fun _ => by simp, ?_, trivial⟩
    split
    · simp
    · trivial
  have hstore : flags.Stores (laneReports l) := by
    simp only [flags, stores_acts_cons, stores_onlyIf]
    refine ⟨fun _ => stores_fset (laneReports_stat l) _, fun _ => stores_fset (laneReports_stat l) _, ?_, trivial⟩
    split
    · simpa using fun _ => stores_rset (laneReports_clip l) _
    · trivial
  let first : Act := setLane l fun _ => { r.1.lane with aov := r.1.lane.aov || r.1.aov }
  let last : Act := setLane l (retired 1 (b2n (pairStall (laneAt s l) w)) (wordStore w).isSome)
  have hrun : (doCompute l w).run s =
      (retireNext l 1 (b2n (pairStall (laneAt s l) w)) (wordStore w).isSome).run (flags.run (first.run s)) := by
    unfold doCompute
    rw [run_look]
    dsimp only
    rw [hc, hbad, hbanks]
    rfl
  have hlane : laneAt (flags.run (first.run s)) l = { r.1.lane with aov := r.1.lane.aov || r.1.aov } := by
    rw [laneAt_touches htouch (by decide) (by decide), laneAt_setLane]
  have hr : r.1.lane = { laneAt s l with results := rs, stores := ps } := hframe
  refine ⟨acts [first, flags, last], ?_, ?_, ?_, ?_⟩
  · exact ⟨touches_setLane (by simp) _ _, touches_mono htouch (by simp), touches_setLane (by simp) _ _⟩
  · exact ⟨ownLane_setLane _ _, ownLane_of_touches htouch (by decide) (by decide) l, ownLane_setLane _ _⟩
  · exact ⟨stores_setLane _ _, hstore, stores_setLane _ _⟩
  · rw [hrun, retireNext_run (by rw [hlane, hr]; exact hret) (by rw [hlane, hr]; exact hnext)]
    rfl

/-! ### The statement -/

/-- The command of a memory operation runs the word that it stands in. -/
theorem exec_memInstr {l : LaneSlot} {x : MemCtx} {op : MemOp} {i : Instr} (h : some i = memInstr l x op) (s : State) :
    exec i s = .next ((laneRun l (memWord op x)).run s) := by
  cases op with
  | none => cases h
  | _ => cases h; rfl

/-- Settles O19: with no codeword in error and no store in flight the fetch and the word change their own lane, and the word flags of its own
slot. -/
theorem laneComputeFrame : Obligations.LaneComputeFrame := by
  intro l w i s t hat hstores hi ht
  have hrun : exec i s = .next ((laneRun l (.compute w)).run s) := by
    rcases hi with rfl | rfl | hi
    · exact exec_slotInstr ..
    · exact exec_slotInstr ..
    · exact exec_memInstr hi s
  obtain rfl : (laneRun l (.compute w)).run s = t := Host.Outcome.next.inj (hrun.symm.trans ht)
  obtain ⟨c, hlane⟩ := fetch_lane l s
  have hbanks : pairStoreBad (laneAt ((fetch l).run s) l) w = false := by rw [hlane]; exact hat.banks w rfl
  obtain ⟨a, htouch, hown, hstore, ha⟩ := doCompute_reports (fetch_clean hat.clean l) hbanks (by rw [hlane]; exact hat.noStep)
    (by rw [hlane]; exact hat.next)
  have hall : (Act.seq (fetch l) a).Touches [.lane, .mem, .ecc, .reg] :=
    ⟨touches_mono (touches_fetch l) (by simp), touches_mono htouch (by simp)⟩
  rw [laneRun_fetches hat, doWord, ha, ← run_seq]
  refine ⟨?_, touches_live hall (by decide) (by decide) s, touches_shPend hall (by decide) (by decide) s,
    touches_pool hall (by decide) (by decide) s, touches_sump hall (by decide) (by decide) s, touches_tick hall (by decide) (by decide) s,
    touches_bus hall (by decide) (by decide) s, touches_route hall (by decide) (by decide) s,
    fun k hk => run_otherLane (a := .seq (fetch l) a) ⟨ownLane_fetch l, hown⟩ hk hat.form, fun k h0 h1 h2 => ?_⟩
  · rw [run_seq, touches_mem htouch (by decide) (by decide), fetch_mem hstores]
  · rw [run_seq, find_stores hstore (by simp [laneReports, h0, h1, h2]), touches_regs (touches_fetch l) (by decide) (by decide)]

end Sys2Proof.Machine
end

