-- ==== Sys2Proof/Proofs/ConfigurationFrames.lean ====
section
/-! SUPPORT. A selector write that waits under a number beyond the 256 selectors (R246, R274, R280). -/

namespace Sys2Proof.Machine

/-- The node after reset, in AUTO mode, where a selector write that is due waits under number 256: the selectors are 0 to 255. -/
def selectorBeyond : State :=
  let s := (F.DEC_ID_CFG_MODE.set 0 2).run State.reset
  { s with dec := { s.dec with trim := { s.dec.trim with sel := [(256, 0)] } } }

/-- The word that selector 256 would have, in a place that no register has. -/
def wordBeyond : Nat := 0x10000000 + R.GDMA_SEL.base

theorem trimSelect_stores_beyond : (smFind (trimSelect.run selectorBeyond).regs wordBeyond).isSome = true := by decide +kernel

theorem selectorBeyond_unlisted : smFind selectorBeyond.regs wordBeyond = none := by decide +kernel

/-- A word of a register stands at its base or above. -/
theorem base_le_key (r : Reg) (i w m : Nat) : r.base ≤ r.key i w m := by
  unfold Reg.key Reg.addr
  omega

/-- The place belongs to no selector, and to no register of a report. -/
theorem wordBeyond_nowhere : ∀ x ∈ [Where.all R.GDMA_SEL] ++ noticeRegs, ¬ x.has wordBeyond := by
  have hreports : ∀ r : Reg, 0x20000000 ≤ r.base → ¬ (Where.all r).has wordBeyond := by
    rintro r hr ⟨i, -, w, -, m, hk⟩
    have := base_le_key r i w m
    have : wordBeyond < 0x20000000 := by decide
    omega
  have hselectors : ¬ (Where.all R.GDMA_SEL).has wordBeyond := by
    rintro ⟨i, hi, w, hw, m, hk⟩
    have hi : i < 256 := hi
    have hw : w < 1 := hw
    rw [key_sel rfl rfl] at hk
    unfold wordBeyond at hk
    omega
  intro x hx
  rcases List.mem_append.mp hx with hx | hx
  · obtain rfl := List.mem_singleton.mp hx
    exact hselectors
  · simp only [noticeRegs, List.mem_cons, List.not_mem_nil, or_false] at hx
    rcases hx with rfl | rfl | rfl | rfl | rfl | rfl | rfl | rfl | rfl | rfl | rfl | rfl | rfl <;> exact hreports _ (by decide)

/-- Refutes O59: nothing in the statement keeps the selector writes that wait within the 256 selectors. One that waits under number 256 is
stored beyond every register that the command is allowed. -/
theorem not_configurationFrame : ¬ Obligations.ConfigurationFrame := by
  unfold Obligations.ConfigurationFrame
  intro h
  obtain ⟨-, hregs⟩ := h .trimSelectorWrite _ _ selectorBeyond _ rfl (by decide) rfl
  have hkept : smFind (trimSelect.run selectorBeyond).regs wordBeyond = none :=
    (hregs wordBeyond wordBeyond_nowhere).trans selectorBeyond_unlisted
  exact absurd (hkept ▸ trimSelect_stores_beyond) (by decide)

end Sys2Proof.Machine
end

