-- ==== Sys2Proof/Proofs/FieldStores.lean ====
section
/-! SUPPORT. What a stored register, field or count leaves: the other registers, the other fields of the same register, and every component
of the state but the registers. -/

namespace Sys2Proof.Machine

/-! ### Registers that stand apart -/

/-- A register with one copy whose elements follow one another, each in a place of its own. -/
def Reg.flat (r : Reg) : Bool := !r.perMaster && match r.dims with
  | [] => true
  | [(_, st)] => decide (4 * r.words ≤ st)
  | _ => false

/-- Two such registers share no address. -/
def Reg.awayFrom (r r' : Reg) : Bool :=
  r.flat && r'.flat && (decide (r.base + r.span ≤ r'.base) || decide (r'.base + r'.span ≤ r.base))

theorem key_range {r : Reg} (h : r.flat = true) {i w : Nat} (hi : i < dimsCount r.dims) (hw : w < r.words) (m : Nat) :
    r.base ≤ r.key i w m ∧ r.key i w m < r.base + r.span := by
  unfold Reg.flat at h
  simp only [Bool.and_eq_true, Bool.not_eq_true'] at h
  obtain ⟨hp, hd⟩ := h
  unfold Reg.span
  match he : r.dims with
  | [] =>
    rw [key_zero he hp]
    exact ⟨Nat.le_add_right .., by simp only; omega⟩
  | [(n, st)] =>
    rw [he] at hd hi
    have hst : 4 * r.words ≤ st := of_decide_eq_true hd
    have hi : i < n := by simpa [dimsCount] using hi
    have hle : i * st + st ≤ n * st := by rw [← Nat.succ_mul]; exact Nat.mul_le_mul_right _ hi
    rw [key_one he hp]
    exact ⟨by omega, by simp only; omega⟩
  | _ :: _ :: _ => rw [he] at hd; cases hd

theorem apart_of_away {r r' : Reg} (h : r.awayFrom r' = true) {i j : Nat} (hi : i < dimsCount r.dims) (hj : j < dimsCount r'.dims)
    (m n : Nat) : Apart r i m r' j n := fun w hw w' hw' => by
  unfold Reg.awayFrom at h
  simp only [Bool.and_eq_true, Bool.or_eq_true, decide_eq_true_eq] at h
  obtain ⟨⟨hr, hr'⟩, hb⟩ := h
  have k := key_range hr hi hw m
  have k' := key_range hr' hj hw' n
  omega

/-! ### Stored fields -/

theorem val_fset_apart {r : Reg} {f : Fld} {i j m n : Nat} (h : Apart r i m f.reg j n) (x : Nat) (s : State) :
    r.val i ((f.set j x n).run s) m = r.val i s m := val_set_apart h ..

theorem val_inc_apart {r : Reg} {f : Fld} {i j m : Nat} (h : Apart r i m f.reg j 0) (n : Nat) (s : State) :
    r.val i ((f.inc j n).run s) m = r.val i s m := val_set_apart h ..

theorem get_inc_apart {f g : Fld} {i j m : Nat} (h : Apart f.reg i m g.reg j 0) (n : Nat) (s : State) :
    f.get i ((g.inc j n).run s) m = f.get i s m := get_set_apart _ _ h ..

/-- Two fields of one register that share no bit. -/
def Fld.besides (f g : Fld) : Bool := decide (f.lo ≤ f.hi ∧ f.hi < 32 * f.reg.words ∧ g.lo ≤ g.hi) && f.apart g

theorem get_set_other (f g : Fld) (hr : f.reg = g.reg) (h : f.besides g = true) (i x : Nat) (s : State) :
    f.get i ((g.set i x).run s) = f.get i s := by
  unfold Fld.besides Fld.apart at h
  simp only [Bool.and_eq_true, Bool.or_eq_true, decide_eq_true_eq] at h
  obtain ⟨⟨hf, hw, hg⟩, ha⟩ := h
  exact get_set_beside f g i x 0 s hr (by omega) (by omega) hw (Or.symm ha)

theorem get_inc_other (f g : Fld) (hr : f.reg = g.reg) (h : f.besides g = true) (i n : Nat) (s : State) :
    f.get i ((g.inc i n).run s) = f.get i s := get_set_other f g hr h ..

/-- A field that lies in its register. -/
def Fld.inside (f : Fld) : Bool := decide (f.lo ≤ f.hi ∧ f.hi < 32 * f.reg.words)

/-- A stored field reads as the value stored in it. -/
theorem get_set_same (f : Fld) (h : f.inside = true) {x : Nat} (hx : x < 2 ^ f.width) (i : Nat) (s : State) :
    f.get i ((f.set i x).run s) = x := by
  unfold Fld.inside at h
  obtain ⟨hle, hw⟩ := of_decide_eq_true h
  rw [get_set f i x 0 s (by omega) hw]
  exact Nat.mod_eq_of_lt hx

theorem satInc_lt (w v n : Nat) : satInc w v n < 2 ^ w := by
  have : 0 < 2 ^ w := Nat.two_pow_pos w
  unfold satInc; omega

theorem get_inc_same (f : Fld) (h : f.inside = true) (i n : Nat) (s : State) :
    f.get i ((f.inc i n).run s) = satInc f.width (f.get i s) n := get_set_same f h (satInc_lt _ _ _) i s

/-! ### States with the same registers -/

theorem val_congr {s t : State} (h : t.regs = s.regs) (r : Reg) (i m : Nat) : r.val i t m = r.val i s m := by
  unfold Reg.val Reg.word
  rw [h]

theorem get_congr {s t : State} (h : t.regs = s.regs) (f : Fld) (i m : Nat) : f.get i t m = f.get i s m := by
  unfold Fld.get
  rw [val_congr h]

/-! ### Whole writes of `n` words -/

section
variable {e : RegEntry} {n : Nat} {f : Fld} {i m v a : Nat} {s : State}

theorem stored_get (hn : e.reg.words = n) (hok : FldsOk n e.flds) (ho : WordsOut errRegs e.reg i m) (hp : e.reg.perMaster = false)
    (hf : f ∈ e.flds) (hr : f.reg = e.reg) (hacc : f.acc = .rw) (hlk : (f.lk && s.lock) = false) (hu : f.of v ∉ f.unlisted) :
    f.get i ((storeWrite e i m v (fullMask n) a).run s) = f.of v := by
  subst hn
  exact storeWrite_get hok ho hp hf hr hacc hlk hu

theorem asWritten_of (hn : e.reg.words = n) (hok : FldsOk n e.flds) (hf : f ∈ e.flds) (hacc : f.acc = .rw) (hu : f.of v ∉ f.unlisted) :
    f.of (asWritten e i m v (fullMask n) s) = f.of v := by
  subst hn
  exact of_asWritten hok hf hacc hu i m s

theorem afterWrite_of (hn : e.reg.words = n) (hok : FldsOk n e.flds) (hf : f ∈ e.flds) (hacc : f.acc = .rw)
    (hlk : (f.lk && s.lock) = false) (hu : f.of v ∉ f.unlisted) : f.of (afterWrite e i m v (fullMask n) s) = f.of v := by
  subst hn
  exact (of_planWrite s.lock _ v _ hok hf).trans (by simp [fieldAfter, hacc, hlk, hu])

end

/-! ### Short sequences of effects -/

theorem acts_two (a b : Act) (s : State) : (acts [a, b]).run s = b.run (a.run s) := rfl

theorem acts_three (a b c : Act) (s : State) : (acts [a, b, c]).run s = c.run (b.run (a.run s)) := rfl

theorem acts_four (a b c d : Act) (s : State) : (acts [a, b, c, d]).run s = d.run (c.run (b.run (a.run s))) := rfl

theorem acts_five (a b c d e : Act) (s : State) : (acts [a, b, c, d, e]).run s = e.run (d.run (c.run (b.run (a.run s)))) := rfl

/-! ### The other components -/

theorem rset_frame (r : Reg) (i v m : Nat) (s : State) : (r.set i v m).run s = { s with regs := ((r.set i v m).run s).regs } := by
  have h : ∀ (xs : List Nat) (s : State), (forEach xs fun w => .upd (.reg (r.key i w m) (BitVec.ofNat 32 (v / 2 ^ (32 * w))))).run s =
      { s with regs := ((forEach xs fun w => .upd (.reg (r.key i w m) (BitVec.ofNat 32 (v / 2 ^ (32 * w))))).run s).regs } := by
    intro xs
    induction xs with
    | nil => exact fun _ => rfl
    | cons w xs ih =>
      intro s
      rw [run_forEach_cons]
      exact ih ((Upd.reg (r.key i w m) (BitVec.ofNat 32 (v / 2 ^ (32 * w)))).apply s)
  exact h _ s

theorem fset_frame (f : Fld) (i x m : Nat) (s : State) : (f.set i x m).run s = { s with regs := ((f.set i x m).run s).regs } :=
  rset_frame ..

theorem inc_frame (f : Fld) (i n : Nat) (s : State) : (f.inc i n).run s = { s with regs := ((f.inc i n).run s).regs } := fset_frame ..

end Sys2Proof.Machine
end

