-- ==== Sys2Proof/Proofs/SumpHistory.lean ====
section
/-! SUPPORT. The history of the Sump: what a self-fault leaves of the words of the history, and how one raise is logged (R535–R538). -/

namespace Sys2Proof.Machine

/-! ### Words that no report stores -/

/-- All words but those of `SUMP_CTRL`, `SUMP_REFUSED`, `SUMP_HIST_STAT`, `SUMP_HIST` and `SUMP_EVCFG`. -/
def beyondSump (k : Nat) : Bool :=
  !(0x20030004 ≤ k && k < 0x20030010) && !(0x20030100 ≤ k && k < 0x20030300) && !(0x20030800 ≤ k && k < 0x20030C00)

theorem beyondSump_notice {k : Nat} (h : wordsOf noticeRegs k = true) : beyondSump k = true := by
  obtain ⟨x, hx, hk⟩ := wordsOf_eq_true.mp h
  suffices (k < 0x20030004 ∨ 0x20030010 ≤ k) ∧ (k < 0x20030100 ∨ 0x20030300 ≤ k) ∧ (k < 0x20030800 ∨ 0x20030C00 ≤ k) by
    simp [beyondSump]; omega
  simp only [noticeRegs, List.mem_cons, List.not_mem_nil, or_false] at hx
  rcases hx with rfl | rfl | rfl | rfl | rfl | rfl | rfl | rfl | rfl | rfl | rfl | rfl | rfl <;>
    obtain ⟨i, hi, w, hw, m, rfl⟩ := hk
  all_goals
    simp only [Reg.key, Reg.addr, dimsOfs, dimsCount, R.XBAR_DERR, R.XBAR_ACCERR, R.XBAR_CONFLICT, R.XBAR_CONFLICT_LAST, R.SUMP_STAT,
      R.SUMP_LOST, R.SUMP_EVSTAT, R.SUMP_EVCNT, R.MOD_STAT, R.RAIL_STAT, R.ROPE_STAT, R.PAIR_STAT, R.PAIR_HIST, Bool.false_eq_true,
      if_false] at hi hw ⊢
    omega

theorem hist_out {i : Nat} (h : i < 32) : WordsOut beyondSump R.SUMP_HIST i 0 := out_one rfl rfl (fun w hw => by
  have hb : R.SUMP_HIST.base = 0x20030100 := rfl
  have hw : w < 4 := hw
  simp [beyondSump]; omega) 0

theorem histStat_out : WordsOut beyondSump R.SUMP_HIST_STAT 0 0 := by unfold WordsOut; decide

theorem refused_out : WordsOut beyondSump R.SUMP_REFUSED 0 0 := by unfold WordsOut; decide

/-! ### The use of words of the Sump -/

theorem selfFault_notice : selfFault.Stores (wordsOf noticeRegs) := by
  have hs : (F.SUMP_STAT_SELF.set 0 1).Stores (wordsOf noticeRegs) :=
    stores_fset (f := F.SUMP_STAT_SELF) (wordsIn_wordsOf (r := R.SUMP_STAT) (by simp [noticeRegs]) (by decide) 0) 1
  simp [selfFault, hs, enterSafe_notice, note_notice]

theorem sumpUse_notice (ws : List Nat) : (sumpUse ws).Stores beyondSump := by
  unfold sumpUse
  rw [stores_look]
  intro s
  rw [stores_onlyIf]
  exact fun _ => stores_mono selfFault_notice fun _ => beyondSump_notice

/-- Words without a parity error are used as they are. -/
theorem sumpUse_sound {ws : List Nat} {s : State} (h : ∀ w ∈ ws, w ∉ s.sump.parity) : (sumpUse ws).run s = s := by
  have hn : (ws.any fun a => s.sump.parity.contains a) = false := by
    rw [List.any_eq_false]
    exact fun a ha => by simpa using h a ha
  rw [sumpUse, run_look, hn]
  rfl

/-! ### One raise is logged -/

theorem histEntry_lt (r : SumpRaise) : histEntry r < 2 ^ 128 := by unfold histEntry; omega

theorem histNext_lt (s : State) : F.SUMP_HIST_STAT_NEXT.get 0 s < 32 := Nat.mod_lt _ (by decide)

theorem hist_apart {i j : Nat} (h : i ≠ j) : Apart R.SUMP_HIST i 0 R.SUMP_HIST j 0 := fun w hw w' hw' => by
  have hw : w < 4 := hw
  have hw' : w' < 4 := hw'
  rw [key_one rfl rfl, key_one rfl rfl]; omega

theorem hist_apart_stat {i : Nat} (h : i < 32) : Apart R.SUMP_HIST i 0 R.SUMP_HIST_STAT 0 0 :=
  apart_of_away (by decide) h (by decide) 0 0

theorem stat_apart_hist {i : Nat} (h : i < 32) : Apart R.SUMP_HIST_STAT 0 0 R.SUMP_HIST i 0 :=
  apart_of_away (by decide) (by decide) h 0 0

/-- The count of a ring that has room rises, and a full one counts what it replaces (R537). -/
def countLogged (s : State) : Act :=
  if F.SUMP_HIST_STAT_COUNT.get 0 s < 32 then F.SUMP_HIST_STAT_COUNT.set 0 (F.SUMP_HIST_STAT_COUNT.get 0 s + 1)
  else F.SUMP_HIST_STAT_OVF.inc 0

variable {r : SumpRaise} {rest : List SumpRaise} {s : State}

/-- The state in which a logged raise stands in the ring and NEXT is advanced. -/
def entered (r : SumpRaise) (s : State) : State :=
  (F.SUMP_HIST_STAT_NEXT.set 0 ((F.SUMP_HIST_STAT_NEXT.get 0 s + 1) % 32)).run
    ((R.SUMP_HIST.set (F.SUMP_HIST_STAT_NEXT.get 0 s) (histEntry r)).run
      ((setSump fun x => { x with queue := x.queue.drop 1 }).run ((sumpUse [R.SUMP_HIST_STAT.addr 0]).run s)))

theorem logOne_run (h : s.sump.queue = r :: rest) : logOne.run s = (countLogged s).run (entered r s) := by
  rw [logOne, run_look, h]
  rfl

theorem entered_hist {i : Nat} (hi : i < 32) : R.SUMP_HIST.val i (entered r s) =
    if i = F.SUMP_HIST_STAT_NEXT.get 0 s then histEntry r else R.SUMP_HIST.val i s := by
  rw [entered, val_fset_apart (hist_apart_stat hi)]
  split
  next h =>
    rw [h, val_set]
    exact Nat.mod_eq_of_lt (histEntry_lt r)
  next h =>
    rw [val_set_apart (hist_apart h), val_stores (A := beyondSump) (stores_setSump _) (hist_out hi), val_stores (sumpUse_notice _) (hist_out hi)]

theorem entered_stat {f : Fld} (hr : f.reg = R.SUMP_HIST_STAT) (h : f.besides F.SUMP_HIST_STAT_NEXT = true) :
    f.get 0 (entered r s) = f.get 0 s := by
  have ho : WordsOut beyondSump f.reg 0 0 := hr ▸ histStat_out
  rw [entered, get_set_other _ _ hr h, Fld.get, val_set_apart (hr ▸ stat_apart_hist (histNext_lt s)), ← Fld.get,
    get_stores (A := beyondSump) (stores_setSump _) ho, get_stores (sumpUse_notice _) ho]

theorem entered_next : F.SUMP_HIST_STAT_NEXT.get 0 (entered r s) = (F.SUMP_HIST_STAT_NEXT.get 0 s + 1) % 32 :=
  get_set_same F.SUMP_HIST_STAT_NEXT (by decide) (Nat.mod_lt _ (by decide)) 0 _

theorem entered_sump (h : R.SUMP_HIST_STAT.addr 0 ∉ s.sump.parity) : (entered r s).sump = { s.sump with queue := s.sump.queue.drop 1 } := by
  rw [entered, fset_frame, rset_frame, sumpUse_sound (by simpa using h)]
  rfl

theorem countLogged_hist {i : Nat} (hi : i < 32) (t : State) : R.SUMP_HIST.val i ((countLogged s).run t) = R.SUMP_HIST.val i t := by
  unfold countLogged
  split
  · exact val_fset_apart (hist_apart_stat hi) ..
  · exact val_inc_apart (hist_apart_stat hi) ..

theorem countLogged_next (t : State) : F.SUMP_HIST_STAT_NEXT.get 0 ((countLogged s).run t) = F.SUMP_HIST_STAT_NEXT.get 0 t := by
  unfold countLogged
  split
  · exact get_set_other F.SUMP_HIST_STAT_NEXT F.SUMP_HIST_STAT_COUNT rfl (by decide) ..
  · exact get_inc_other F.SUMP_HIST_STAT_NEXT F.SUMP_HIST_STAT_OVF rfl (by decide) ..

theorem countLogged_sump (t : State) : ((countLogged s).run t).sump = t.sump := by
  unfold countLogged
  split
  · rw [fset_frame]
  · rw [inc_frame]

theorem logOne_room (h : s.sump.queue = r :: rest) (hc : F.SUMP_HIST_STAT_COUNT.get 0 s < 32) :
    F.SUMP_HIST_STAT_COUNT.get 0 (logOne.run s) = F.SUMP_HIST_STAT_COUNT.get 0 s + 1 ∧
      F.SUMP_HIST_STAT_OVF.get 0 (logOne.run s) = F.SUMP_HIST_STAT_OVF.get 0 s := by
  rw [logOne_run h, countLogged, if_pos hc]
  exact ⟨get_set_same F.SUMP_HIST_STAT_COUNT (by decide) (by change _ < 64; omega) 0 _,
    (get_set_other F.SUMP_HIST_STAT_OVF F.SUMP_HIST_STAT_COUNT rfl (by decide) ..).trans (entered_stat rfl (by decide))⟩

theorem logOne_full (h : s.sump.queue = r :: rest) (hc : 32 ≤ F.SUMP_HIST_STAT_COUNT.get 0 s) :
    F.SUMP_HIST_STAT_COUNT.get 0 (logOne.run s) = F.SUMP_HIST_STAT_COUNT.get 0 s ∧
      F.SUMP_HIST_STAT_OVF.get 0 (logOne.run s) = satInc 16 (F.SUMP_HIST_STAT_OVF.get 0 s) 1 := by
  rw [logOne_run h, countLogged, if_neg (by omega), get_inc_same F.SUMP_HIST_STAT_OVF (by decide),
    get_inc_other F.SUMP_HIST_STAT_COUNT F.SUMP_HIST_STAT_OVF rfl (by decide),
    entered_stat rfl (by decide), entered_stat rfl (by decide)]
  exact ⟨rfl, rfl⟩

theorem logOne_hist (h : s.sump.queue = r :: rest) {i : Nat} (hi : i < 32) : R.SUMP_HIST.val i (logOne.run s) =
    if i = F.SUMP_HIST_STAT_NEXT.get 0 s then histEntry r else R.SUMP_HIST.val i s := by
  rw [logOne_run h, countLogged_hist hi, entered_hist hi]

theorem logOne_next (h : s.sump.queue = r :: rest) :
    F.SUMP_HIST_STAT_NEXT.get 0 (logOne.run s) = (F.SUMP_HIST_STAT_NEXT.get 0 s + 1) % 32 := by
  rw [logOne_run h, countLogged_next, entered_next]

theorem logOne_queue (h : s.sump.queue = r :: rest) (hp : R.SUMP_HIST_STAT.addr 0 ∉ s.sump.parity) :
    (logOne.run s).sump.queue = rest := by
  rw [logOne_run h, countLogged_sump, entered_sump hp, h]
  rfl

/-- Settles O58: a raise is entered at NEXT, and the ring counts or replaces. -/
theorem historyRing : Obligations.HistoryRing := by
  intro r rest s h
  have hn := histNext_lt s
  refine ⟨_, rfl, logOne_queue h, ?_, logOne_next h, ?_, fun i hi hne => ?_, logOne_room h, logOne_full h⟩
  · rw [logOne_hist h hn, if_pos rfl]
  · rw [logOne_next h, show ((F.SUMP_HIST_STAT_NEXT.get 0 s + 1) % 32 + 31) % 32 = F.SUMP_HIST_STAT_NEXT.get 0 s by omega,
      logOne_hist h hn, if_pos rfl]
  · rw [logOne_hist h hi, if_neg hne]

end Sys2Proof.Machine
end

