-- ==== Sys2Proof/Proofs/SumpCommands.lean ====
section
/-! SUPPORT. The commands of the Sump: a self-fault, the clear of a status bit, EXIT, HCLR, an event's configuration and a read of the
history (R526, R532–R538). -/

namespace Sys2Proof.Machine

/-! ### A self-fault -/

/-- All words but that of `SUMP_STAT`. -/
def beyondStat (k : Nat) : Bool := decide (k ≠ 0x20030000)

theorem sumpStat_out : WordsOut beyondStat R.SUMP_STAT 0 0 := by unfold WordsOut; decide

theorem beyondStat_words {r : Reg} (h : r.awayFrom R.SUMP_STAT = true) {i : Nat} (hi : i < dimsCount r.dims) (m : Nat) :
    WordsIn beyondStat r i m := fun w hw =>
  have hd : 0 < dimsCount R.SUMP_STAT.dims := by decide
  decide_eq_true (apart_of_away h hi hd m 0 w hw 0 (by decide))

theorem note_beyondStat (e : Ev) (d0 d1 d2 g : Nat) : (note e d0 d1 d2 g).Stores beyondStat := by
  have hc : WordsIn beyondStat R.SUMP_EVCNT (evNum e) 0 := beyondStat_words (by decide) (evNum_lt e) 0
  have hs : WordsIn beyondStat R.SUMP_EVSTAT (evNum e / 32) 0 := beyondStat_words (by decide) (evSrc_bound e) 0
  have hl : WordsIn beyondStat R.SUMP_LOST 0 0 := beyondStat_words (by decide) (by decide) 0
  rw [note, stores_look]
  intro s
  simp only [stores_acts_cons, stores_acts_nil, and_true, stores_onlyIf]
  refine ⟨stores_inc hc _, stores_rset hs _, by simp, fun _ => ?_⟩
  split
  · simp
  · exact stores_inc (f := F.SUMP_LOST_COUNT) hl _

theorem chanSafe_beyondStat {c : Nat} (h : c < 64) : (chanSafe c).Stores beyondStat := by
  have hw : WordsIn beyondStat R.MOD_STAT c 0 := beyondStat_words (by decide) h 0
  rw [chanSafe, stores_look]
  intro s
  dsimp only
  split
  · simp
  · simp [chanDisable, stores_fset (f := F.MOD_STAT_DIAG) hw, stores_fset (f := F.MOD_STAT_STATE) hw]

theorem railSafe_beyondStat {g : Nat} (h : g < 8) : (railSafe g).Stores beyondStat := by
  have hw : WordsIn beyondStat R.RAIL_STAT g 0 := beyondStat_words (by decide) h 0
  simp [railSafe, railSend, stores_fset (f := F.RAIL_STAT_STATE) hw, stores_fset (f := F.RAIL_STAT_TARGET) hw,
    stores_fset (f := F.RAIL_STAT_VCMD) hw, stores_fset (f := F.RAIL_STAT_DONE) hw]

theorem ropesRemoved_beyondStat : ropesRemoved.Stores beyondStat := by
  have hw : WordsIn beyondStat R.ROPE_STAT 0 0 := beyondStat_words (by decide) (by decide) 0
  rw [ropesRemoved, stores_look]
  intro s
  split
  · simp
  · simp [stores_fset (f := F.ROPE_STAT_SAFE_OFF) hw]

theorem pairSafe_beyondStat : pairSafe.Stores beyondStat := by
  have hs : WordsIn beyondStat R.PAIR_STAT 0 0 := beyondStat_words (by decide) (by decide) 0
  have hh : WordsIn beyondStat R.PAIR_HIST 0 0 := beyondStat_words (by decide) (by decide) 0
  rw [pairSafe, stores_look]
  intro s
  split
  · simp [releaseOwn, sipQueue, stores_fset (f := F.PAIR_STAT_STATE) hs, stores_fset (f := F.PAIR_HIST_RELEASE) hh]
  · simp

/-- What the entry to the safe state does beside its state (R348, R531). -/
def safeActs (s : State) : List Act := [forEach (List.range 64) chanSafe, forEach (List.range 8) railSafe, sdoSilent, ropesRemoved,
  onlyIf (F.EZ_CFG_EN.on 0 s) (setT1s fun t => { t with safeMute := true }), pairSafe]

theorem safeActs_beyondStat (s : State) : (acts (safeActs s)).Stores beyondStat := by
  simp only [safeActs, stores_acts_cons, stores_acts_nil, and_true, stores_onlyIf]
  exact ⟨stores_forEach.mpr fun c hc => chanSafe_beyondStat (List.mem_range.mp hc),
    stores_forEach.mpr fun g hg => railSafe_beyondStat (List.mem_range.mp hg), by simp [sdoSilent], ropesRemoved_beyondStat,
    by simp, pairSafe_beyondStat⟩

theorem enterSafe_run {s : State} (h : inSafe s = false) :
    enterSafe.run s = (acts (safeActs s)).run ((F.SUMP_STAT_STATE.set 0 2).run s) := by
  rw [enterSafe, run_look, if_neg (by simp [h])]
  rfl

theorem enterSafe_inSafe (s : State) : inSafe (enterSafe.run s) = true := by
  cases h : inSafe s with
  | true => rw [enterSafe, run_look, if_pos h, run_done, h]
  | false =>
    rw [enterSafe_run h, inSafe, get_stores (safeActs_beyondStat s) sumpStat_out, get_set_same F.SUMP_STAT_STATE (by decide) (by decide)]
    rfl

theorem enterSafe_self (s : State) : F.SUMP_STAT_SELF.get 0 (enterSafe.run s) = F.SUMP_STAT_SELF.get 0 s := by
  cases h : inSafe s with
  | true => rw [enterSafe, run_look, if_pos h, run_done]
  | false =>
    rw [enterSafe_run h, get_stores (safeActs_beyondStat s) sumpStat_out, get_set_other F.SUMP_STAT_SELF F.SUMP_STAT_STATE rfl (by decide)]

theorem selfFault_faults (s : State) : let t := selfFault.run s
    F.SUMP_STAT_SELF.get 0 t = 1 ∧ inSafe t = true ∧ EvSet .SUMP_SELF t := by
  have hn := note_beyondStat .SUMP_SELF 0 0 0 0
  simp only [selfFault, run_acts_cons, run_acts_nil]
  refine ⟨?_, ?_, note_sets ..⟩
  · rw [get_stores hn sumpStat_out, enterSafe_self, get_set_same F.SUMP_STAT_SELF (by decide) (by decide)]
  · rw [inSafe, get_stores hn sumpStat_out]
    exact enterSafe_inSafe _

theorem sumpScan_run {s : State} (h : s.sump.parity ≠ []) : sumpScan.run s = selfFault.run s := by
  have hp : (!s.sump.parity.isEmpty) = true := by simp [h]
  rw [sumpScan, run_look, hp, onlyIf_true]

/-! ### Refusals -/

theorem refuse_run (n : Nat) (s : State) : (refuse n).run s =
    (F.SUMP_REFUSED_COUNT.inc 0).run ((F.SUMP_REFUSED_EVENT.set 0 n).run ((F.SUMP_STAT_CLEAR_REFUSED.set 0 1).run s)) := rfl

theorem refuse_refuses {n : Nat} (h : n < 256) (s : State) : let t := (refuse n).run s
    F.SUMP_STAT_CLEAR_REFUSED.get 0 t = 1 ∧ F.SUMP_REFUSED_EVENT.get 0 t = n ∧
      F.SUMP_REFUSED_COUNT.get 0 t = satInc 16 (F.SUMP_REFUSED_COUNT.get 0 s) 1 := by
  dsimp only
  have hsr : Apart R.SUMP_STAT 0 0 R.SUMP_REFUSED 0 0 := apart_of_away (by decide) (by decide) (by decide) 0 0
  have hrs : Apart R.SUMP_REFUSED 0 0 R.SUMP_STAT 0 0 := apart_of_away (by decide) (by decide) (by decide) 0 0
  rw [refuse_run]
  refine ⟨?_, ?_, ?_⟩
  · rw [get_inc_apart hsr, get_set_apart _ _ hsr, get_set_same F.SUMP_STAT_CLEAR_REFUSED (by decide) (by decide)]
  · rw [get_inc_other F.SUMP_REFUSED_EVENT F.SUMP_REFUSED_COUNT rfl (by decide),
      get_set_same F.SUMP_REFUSED_EVENT (by decide) h]
  · rw [get_inc_same F.SUMP_REFUSED_COUNT (by decide), get_set_other F.SUMP_REFUSED_COUNT F.SUMP_REFUSED_EVENT rfl (by decide),
      get_set_apart _ _ hrs]
    rfl

theorem refuse_sump (n : Nat) (s : State) : ((refuse n).run s).sump = s.sump := by
  rw [refuse_run, inc_frame, fset_frame, fset_frame]

theorem refuse_evstat {i : Nat} (hi : i < 8) (n : Nat) (s : State) : R.SUMP_EVSTAT.val i ((refuse n).run s) = R.SUMP_EVSTAT.val i s := by
  have hr : Apart R.SUMP_EVSTAT i 0 R.SUMP_REFUSED 0 0 := apart_of_away (by decide) hi (by decide) 0 0
  have hs : Apart R.SUMP_EVSTAT i 0 R.SUMP_STAT 0 0 := apart_of_away (by decide) hi (by decide) 0 0
  rw [refuse_run, val_inc_apart hr, val_fset_apart hr, val_fset_apart hs]

/-! ### The clear of a status bit -/

theorem bitOf_putBits_self (v j : Nat) : bitOf (putBits v j j 0) j = false := by
  have h := bitsOf_putBits v 0 (hi := j) (lo := j) (by omega)
  unfold bitsOf at h
  unfold bitOf
  rw [show j + 1 - j = 1 by omega, Nat.pow_one] at h
  rw [h]
  rfl

theorem bitOf_putBits_ne (v : Nat) {j k : Nat} (h : k ≠ j) : bitOf (putBits v j j 0) k = bitOf v k := by
  have hb : bitsOf (putBits v j j 0) k k = bitsOf v k k := by
    rcases Nat.lt_or_gt_of_ne h with h | h
    · exact bitsOf_putBits_below v 0 (by omega) h (by omega)
    · exact bitsOf_putBits_above v 0 (by omega) h
  unfold bitsOf at hb
  rw [show k + 1 - k = 1 by omega, Nat.pow_one] at hb
  unfold bitOf
  rw [hb]

theorem bitOf_two_pow (j k : Nat) : bitOf (2 ^ j) k = decide (j = k) := by
  unfold bitOf
  rw [← Nat.testBit_two_pow, Nat.testBit_eq_decide_div_mod_eq]
  rfl

theorem filter_two_pow {j : Nat} (hj : j < 32) : (List.range 32).filter (fun k => bitOf (2 ^ j) k) = [j] := by
  simp only [bitOf_two_pow]
  interval_cases j <;> decide

/-- A write that names one listed bit clears or refuses that bit alone. -/
theorem wrEvstat_one {i j v : Nat} (hj : j < 32) (hv : v = 2 ^ j) (hl : evListed (32 * i + j) = true) (m : Nat) (s : State) :
    (wrEvstat m i v (fullMask 1)).run s = (clearEv (32 * i + j)).run s := by
  have hmask : v &&& fullMask 1 = 2 ^ j := by
    rw [hv]
    exact and_mask (Nat.pow_lt_pow_right (by decide) hj)
  have hnone : ((List.range 32).any fun k => bitOf (2 ^ j) k && !evListed (32 * i + k)) = false := by
    rw [List.any_eq_false]
    intro k _
    rw [bitOf_two_pow]
    by_cases h : j = k
    · subst h; simp [hl]
    · simp [h]
  unfold wrEvstat clearEvents
  dsimp only
  rw [hmask, filter_two_pow hj, hnone]
  rfl

theorem clearEv_clears {i j : Nat} {s : State} (hj : j < 32) (hb : bitOf (R.SUMP_EVSTAT.val i s) j = true)
    (hs : R.SUMP_EVSTAT.addr i ∉ s.sump.parity) (hh : evHeld (32 * i + j) s = false) : let t := (clearEv (32 * i + j)).run s
    bitOf (R.SUMP_EVSTAT.val i t) j = false ∧
      ∀ k, k < 32 → k ≠ j → bitOf (R.SUMP_EVSTAT.val i t) k = bitOf (R.SUMP_EVSTAT.val i s) k := by
  have e1 : (32 * i + j) / 32 = i := by omega
  have e2 : (32 * i + j) % 32 = j := by omega
  have hrun : (clearEv (32 * i + j)).run s = (setSump fun x => { x with srcs := x.srcs.filter fun p => p.1 ≠ 32 * i + j }).run
      ((R.SUMP_EVSTAT.set i (putBits (R.SUMP_EVSTAT.val i s) j j 0)).run s) := by
    rw [clearEv, run_look, e1, e2, if_pos hb, hh, run_seq, sumpUse_sound (by simpa using hs)]
    rfl
  have hval : R.SUMP_EVSTAT.val i ((clearEv (32 * i + j)).run s) = putBits (R.SUMP_EVSTAT.val i s) j j 0 % 2 ^ 32 := by
    rw [hrun]
    exact val_set R.SUMP_EVSTAT i _ 0 s
  have hbit (k : Nat) (hk : k < 32) (x : Nat) : bitOf (x % 2 ^ 32) k = bitOf x k := by
    have h : bitsOf (x % 2 ^ 32) k k = bitsOf x k k := bitsOf_mod x (n := 1) (hi := k) (lo := k) (by omega) (by omega)
    unfold bitsOf at h
    rw [show k + 1 - k = 1 by omega, Nat.pow_one] at h
    unfold bitOf
    rw [h]
  dsimp only
  rw [hval]
  exact ⟨(hbit j hj _).trans (bitOf_putBits_self _ j), fun k hk hne => (hbit k hk _).trans (bitOf_putBits_ne _ hne)⟩

theorem clearEv_refuses {i j : Nat} {s : State} (hj : j < 32) (hb : bitOf (R.SUMP_EVSTAT.val i s) j = true)
    (hs : R.SUMP_EVSTAT.addr i ∉ s.sump.parity) (hh : evHeld (32 * i + j) s = true) :
    (clearEv (32 * i + j)).run s = (refuse (32 * i + j)).run s := by
  have e1 : (32 * i + j) / 32 = i := by omega
  have e2 : (32 * i + j) % 32 = j := by omega
  rw [clearEv, run_look, e1, e2, if_pos hb, hh, run_seq, sumpUse_sound (by simpa using hs)]
  rfl

theorem evHeld_atTarget (n : Nat) (b r : SMap Nat) (l : List WriteMsg) (w : List SipMsg) (s : State) :
    evHeld n (atTarget b r l w s) = evHeld n s := rfl

/-! ### EXIT -/

theorem exitOk_atTarget (b r : SMap Nat) (l : List WriteMsg) (w : List SipMsg) (s : State) : exitOk (atTarget b r l w s) = exitOk s := rfl

theorem cmdEdge_atTarget (b r : SMap Nat) (l : List WriteMsg) (w : List SipMsg) (s : State) : cmdEdge (atTarget b r l w s) = cmdEdge s := rfl

section
variable {s : State} (hst : F.SUMP_STAT_STATE.get 0 s ≠ 0) (hs : ∀ w ∈ exitWords, w ∉ s.sump.parity)
include hst hs

theorem exitWrite_accepts (hok : exitOk s = true) : (exitWrite.run s).sump.exitPend = some (cmdEdge s) := by
  rw [exitWrite, run_seq, sumpUse_sound hs, run_look, if_neg hst, if_pos hok]
  rfl

theorem exitWrite_refuses (hok : exitOk s = false) : exitWrite.run s = (refuse 0xFF).run s := by
  rw [exitWrite, run_seq, sumpUse_sound hs, run_look, if_neg hst, if_neg (by simp [hok])]

theorem exitApply_applies (hp : s.sump.exitPend.isSome = true) (hok : exitOk s = true) : let t := exitApply.run s
    t.sump.exitPend = none ∧ F.SUMP_STAT_STATE.get 0 t = 0 ∧ t.sump.zeroHold = false := by
  have hrun : exitApply.run s = (setSump fun x => { x with
      risePend := x.zeroHold || x.fallPend || x.fallHo || x.risePend, zeroHold := false, fallPend := false, fallHo := false }).run
        ((F.SUMP_STAT_STATE.set 0 0).run ((setSump fun x => { x with exitPend := none }).run s)) := by
    have hok' : exitOk ((setSump fun x => { x with exitPend := none }).run s) = true := hok
    have hst' : F.SUMP_STAT_STATE.get 0 ((setSump fun x => { x with exitPend := none }).run s) ≠ 0 := hst
    rw [exitApply, run_look, if_pos hp]
    simp only [run_acts_cons, run_acts_nil, run_look]
    rw [sumpUse_sound hs, if_neg hst', if_pos hok', run_seq]
  dsimp only
  rw [hrun, fset_frame]
  refine ⟨rfl, ?_, rfl⟩
  rw [← fset_frame]
  exact get_set_same F.SUMP_STAT_STATE (by decide) (by decide) 0 _

end

/-! ### HCLR and the history -/

theorem histClear_clears (s : State) : let t := histClear.run s
    (∀ i < 32, R.SUMP_HIST.val i t = 0) ∧ R.SUMP_HIST_STAT.val 0 t = 0 := by
  have hone : ∀ i < 32, R.SUMP_HIST.val i ((forEach (List.range 32) fun i => R.SUMP_HIST.set i 0).run s) = 0 := fun i hi =>
    run_forEach_one (P := fun _ => True) (Q := fun s => R.SUMP_HIST.val i s = 0) (List.mem_range.mpr hi) List.nodup_range
      (fun _ _ _ _ _ => trivial) (fun j _ hne s hs => (val_set_apart (hist_apart hne.symm) 0 s).trans hs)
      (fun s _ => val_set R.SUMP_HIST i 0 0 s) trivial
  exact ⟨fun i hi => (val_set_apart (hist_apart_stat hi) 0 _).trans (hone i hi), val_set R.SUMP_HIST_STAT 0 0 0 _⟩

/-- The words of an entry beyond its first are latched for a master. -/
def latchRest (m a : Nat) (v : Nat → Nat) : Act := forEach [1, 2, 3] fun w => setBus fun b => { b with
  latch := smInsert b.latch (latchKey m (a + 4 * w)) (BitVec.ofNat 32 (v w)) }

theorem readHist_run (m i : Nat) (s : State) : (readHist m i).run s = (respond m [histWord s i 0]).run
    ((latchRest m (R.SUMP_HIST.addr 0) (histWord s i)).run ((sumpUse ((List.range 4).map fun w => R.SUMP_HIST.addr i + 4 * w)).run s)) := by
  rw [readHist, run_look]
  simp only [run_acts_cons, run_acts_nil, latchRest]

theorem latched_respond (id : Nat) (vs : List Nat) (err : Bool) (s : State) (m a : Nat) :
    latched ((respond id vs err).run s) m a = latched s m a := rfl

theorem latched_rest (m a : Nat) {v : Nat → Nat} (hv : ∀ w, v w < 2 ^ 32) {w : Nat} (hw : w ∈ [1, 2, 3]) (s : State) :
    latched ((latchRest m a v).run s) m (a + 4 * w) = some (v w) := by
  have hk {x y : Nat} (h : x ≠ y) : latchKey m (a + 4 * x) ≠ latchKey m (a + 4 * y) := by unfold latchKey; omega
  have hfind : smFind ((latchRest m a v).run s).bus.latch (latchKey m (a + 4 * w)) = some (BitVec.ofNat 32 (v w)) := by
    unfold latchRest
    refine run_forEach_one (P := fun _ => True) (Q := fun s => smFind s.bus.latch (latchKey m (a + 4 * w)) = some (BitVec.ofNat 32 (v w)))
      hw (by decide) (fun _ _ _ _ _ => trivial) (fun y _ hne s hs => ?_) (fun s _ => ?_) trivial
    · exact (find_insert_ne s.bus.latch _ (hk hne.symm)).trans hs
    · exact find_insert_self ..
  rw [latched, hfind, Option.map_some, BitVec.toNat_ofNat, Nat.mod_eq_of_lt (hv w)]

theorem histWord_lt (s : State) (i w : Nat) : histWord s i w < 2 ^ 32 := BitVec.isLt _

/-! ### An event's configuration -/

/-- A field that a write of `v` may take, whatever the rest of the word says. -/
def Fld.takes (f : Fld) (locked : Bool) (v : Nat) : Prop :=
  f.acc = .rw ∧ f.sh = false ∧ (f.lk && locked) = false ∧ f.of v ∉ f.unlisted

theorem planField_takes {f : Fld} {n v : Nat} {locked : Bool} (hf : f.lo ≤ f.hi) (hn : f.hi < 32 * n) (h : f.takes locked v) (old : Nat)
    {p : WrPlan} (hp : p.sh = false ∧ p.lkHit = false ∧ p.unlisted = false) :
    let q := planField locked old v (fullMask n) p f
    q.sh = false ∧ q.lkHit = false ∧ q.unlisted = false := by
  obtain ⟨hacc, hsh, hlk, hu⟩ := h
  obtain ⟨ps, pl, pu⟩ := hp
  have hm := of_fullMask hf hn
  have hw : f.of v &&& f.of (fullMask n) = f.of v := by rw [hm]; exact and_mask (of_lt f v)
  have hc : f.of old - (f.of old &&& f.of (fullMask n)) + f.of v = f.of v := by rw [hm, and_mask (of_lt f old)]; omega
  unfold planField
  dsimp only
  rw [hw, hc, hacc, hlk]
  dsimp only
  split
  · exact ⟨ps, pl, pu⟩
  · rw [if_neg (by simp), if_neg (by simpa using hu)]
    exact ⟨by simp [ps, hsh], pl, pu⟩

theorem planWrite_takes {fs : List Fld} {n v : Nat} {locked : Bool} (hok : FldsOk n fs) (h : ∀ f ∈ fs, f.takes locked v) (old : Nat) :
    let q := planWrite locked old v (fullMask n) fs
    q.sh = false ∧ q.lkHit = false ∧ q.unlisted = false := by
  have key : ∀ (l : List Fld) (p : WrPlan), (∀ f ∈ l, f ∈ fs) → p.sh = false ∧ p.lkHit = false ∧ p.unlisted = false →
      let q := l.foldl (planField locked old v (fullMask n)) p
      q.sh = false ∧ q.lkHit = false ∧ q.unlisted = false := by
    intro l
    induction l with
    | nil => exact fun _ _ hp => hp
    | cons f l ih =>
      intro p hl hp
      obtain ⟨hle, hlt⟩ := hok.1 f (hl f List.mem_cons_self)
      exact ih _ (fun g hg => hl g (List.mem_cons_of_mem _ hg)) (planField_takes hle hlt (h f (hl f List.mem_cons_self)) old hp)
  exact key fs _ (fun _ hf => hf) ⟨rfl, rfl, rfl⟩

/-- A whole write that every field takes stores the register and records nothing. -/
theorem storeWrite_takes {e : RegEntry} {i m v a : Nat} {s : State} (hok : FldsOk e.reg.words e.flds) (h : ∀ f ∈ e.flds, f.takes s.lock v) :
    (storeWrite e i m v (fullMask e.reg.words) a).run s =
      (e.reg.set i (afterWrite e i m v (fullMask e.reg.words) s) m).run s := by
  obtain ⟨hsh, hlk, hu⟩ := planWrite_takes (locked := s.lock) hok h (e.reg.val i s m)
  unfold storeWrite afterWrite
  simp only [run_look, run_acts_cons, run_acts_nil, hsh, hlk, hu, Bool.false_and, Bool.not_false, onlyIf_true, onlyIf_false, run_done,
    Bool.false_eq_true, if_false]

theorem storeWrite_takes_get {e : RegEntry} {f : Fld} {i m v a : Nat} {s : State} (hok : FldsOk e.reg.words e.flds)
    (h : ∀ f ∈ e.flds, f.takes s.lock v) (hp : e.reg.perMaster = false) (hf : f ∈ e.flds) (hr : f.reg = e.reg) :
    f.get i ((storeWrite e i m v (fullMask e.reg.words) a).run s) = f.of v := by
  obtain ⟨hacc, -, hlk, hu⟩ := h f hf
  obtain ⟨hle, hlt⟩ := hok.1 f hf
  rw [storeWrite_takes hok h, ← get_master (by rw [hr, hp]) i m, Fld.get, hr, val_set, bitsOf_mod _ (by omega) hlt]
  exact (of_planWrite s.lock _ v _ hok hf).trans (by simp [fieldAfter, hacc, hlk, hu])

theorem entryOf_evcfg : entryOf R.SUMP_EVCFG = ⟨R.SUMP_EVCFG, [F.SUMP_EVCFG_LOG, F.SUMP_EVCFG_INT1, F.SUMP_EVCFG_INT0, F.SUMP_EVCFG_CLASS]⟩ :=
  rfl

theorem evcfg_fldsOk : FldsOk 1 (entryOf R.SUMP_EVCFG).flds := by rw [entryOf_evcfg]; unfold FldsOk; decide

theorem evcfg_takes {locked : Bool} {v : Nat} (hl : locked = false) (hc : F.SUMP_EVCFG_CLASS.of v < 5) :
    ∀ f ∈ (entryOf R.SUMP_EVCFG).flds, f.takes locked v := by
  rw [entryOf_evcfg]
  simp only [List.forall_mem_cons, List.not_mem_nil, false_imp_iff, implies_true, and_true, hl]
  refine ⟨⟨rfl, rfl, rfl, List.not_mem_nil⟩, ⟨rfl, rfl, rfl, List.not_mem_nil⟩, ⟨rfl, rfl, rfl, List.not_mem_nil⟩, rfl, rfl, rfl, ?_⟩
  show F.SUMP_EVCFG_CLASS.of v ∉ [5, 6, 7]
  simp; omega

theorem wrEvcfg_stores {m i v : Nat} {s : State} (hl : s.lock = false) (he : evListed i = true) (hc : F.SUMP_EVCFG_CLASS.of v < 5)
    (h : F.SUMP_EVCFG_CLASS.of v = F.SUMP_EVCFG_CLASS.get i s ∨
      (evIsFixed i = false ∧ bitOf (R.SUMP_EVSTAT.val (i / 32) s) (i % 32) = false)) :
    ∀ f ∈ (entryOf R.SUMP_EVCFG).flds, f.get i ((wrEvcfg m i v (fullMask 1)).run s) = f.of v := by
  have hw : F.SUMP_EVCFG_CLASS.of (asWritten (entryOf R.SUMP_EVCFG) i m v (fullMask 1) s) = F.SUMP_EVCFG_CLASS.of v :=
    of_asWritten evcfg_fldsOk (by rw [entryOf_evcfg]; simp) rfl (by show _ ∉ [5, 6, 7]; simp; omega) i m s
  have hrun : (wrEvcfg m i v (fullMask 1)).run s = (storeWrite (entryOf R.SUMP_EVCFG) i m v (fullMask 1) (R.SUMP_EVCFG.addr i)).run s := by
    rw [wrEvcfg, run_look]
    dsimp only
    rw [hw, he, if_neg (by simp), if_neg]
    rcases h with h | ⟨hf, hb⟩
    · simp [h]
    · simp [hf, hb]
  intro f hf
  rw [hrun]
  exact storeWrite_takes_get evcfg_fldsOk (evcfg_takes hl hc) rfl hf (by
    rw [entryOf_evcfg] at hf ⊢
    simp only [List.mem_cons, List.not_mem_nil, or_false] at hf
    rcases hf with rfl | rfl | rfl | rfl <;> rfl)

/-! ### The statement -/

/-- Settles O46: each command comes to one operation of the Sump, on words without a parity error. -/
theorem sumpCommandsComplete : Obligations.SumpCommandsComplete := by
  intro m s sound
  refine ⟨fun r rest h => ⟨_, rfl, fun hs => logOne_queue h (by simpa [sound] using hs), ?_, logOne_next h⟩,
    fun h => ⟨_, rfl, by rw [sumpScan_run h]; exact selfFault_faults s⟩, ?_, fun hreach => ⟨?_, ?_, ?_⟩, ?_, ?_, ?_⟩
  · rw [logOne_hist h (histNext_lt s), if_pos rfl]
  · intro i j v hreach hv hl hb hs
    obtain ⟨b, r, l, w, hrun⟩ := arrive_atTarget hreach 0xF v.toNat (wrEvstat m i v.toNat (fullMask 1))
    have hs : R.SUMP_EVSTAT.addr i ∉ (atTarget b r l w s).sump.parity := hs _ List.mem_cons_self
    have hn : 32 * i.val + j.val < 256 := by omega
    rw [wrEvstat_one j.isLt hv hl] at hrun
    refine ⟨fun hh => ⟨_, rfl, ?_⟩, fun hh => ⟨_, rfl, ?_⟩⟩
    · rw [hrun]
      exact clearEv_clears (s := atTarget b r l w s) j.isLt hb hs hh
    · rw [hrun, clearEv_refuses (s := atTarget b r l w s) j.isLt hb hs hh]
      exact ⟨refuse_evstat i.isLt .., refuse_refuses hn _⟩
  · intro hst hok hs
    obtain ⟨b, r, l, w, hrun⟩ := arrive_atTarget hreach 0xF 1 exitWrite
    exact ⟨_, rfl, by rw [hrun]; exact exitWrite_accepts (s := atTarget b r l w s) hst hs hok⟩
  · intro hst hok hs
    obtain ⟨b, r, l, w, hrun⟩ := arrive_atTarget hreach 0xF 1 exitWrite
    obtain ⟨hset, hev, -⟩ := refuse_refuses (n := 0xFF) (by decide) (atTarget b r l w s)
    refine ⟨_, rfl, ?_⟩
    rw [hrun, exitWrite_refuses (s := atTarget b r l w s) hst hs hok, refuse_sump]
    exact ⟨rfl, hset, hev⟩
  · obtain ⟨b, r, l, w, hrun⟩ := arrive_atTarget hreach 0xF 2 histClear
    obtain ⟨hent, hstat⟩ := histClear_clears (atTarget b r l w s)
    have hzero (f : Fld) (hr : f.reg = R.SUMP_HIST_STAT) : f.get 0 (histClear.run (atTarget b r l w s)) = 0 := by
      rw [Fld.get, hr, hstat]
      simp [bitsOf]
    refine ⟨_, rfl, ?_⟩
    rw [hrun]
    exact ⟨hent, hzero _ rfl, hzero _ rfl, hzero _ rfl⟩
  · intro hr hp hst hok hs
    refine ⟨_, rfl, ?_⟩
    rw [hr]
    exact exitApply_applies hst hs hp hok
  · intro i v hreach hl he hc h
    obtain ⟨b, r, l, w, hrun⟩ := arrive_atTarget hreach 0xF v.toNat (wrEvcfg m i v.toNat (fullMask 1))
    have hget := wrEvcfg_stores (m := m) (s := atTarget b r l w s) hl he hc h
    rw [entryOf_evcfg] at hget
    refine ⟨_, rfl, ?_⟩
    rw [hrun]
    exact ⟨hget _ (by simp), hget _ (by simp), hget _ (by simp), hget _ (by simp)⟩
  · intro i hawake
    obtain ⟨b, r, hrun⟩ := reads_atTarget hawake m (R.SUMP_HIST.addr i) (readHist m i)
    refine ⟨_, rfl, ?_⟩
    rw [hrun, readHist_run]
    refine ⟨respond_answers .., fun w hw => ?_⟩
    rw [latched_respond]
    exact latched_rest m _ (histWord_lt _ i) hw _

end Sys2Proof.Machine
end

