-- ==== Sys2Proof/Proofs/SpareLanes.lean ====
section
/-! SUPPORT. The spare lanes: the load that ends, the state set ranges and the gallery copies (R518–R521, R524). -/

namespace Sys2Proof.Machine

/-! ### The load ends -/

section
variable {s : State} {g : Nat} {x : SpareLoad}

/-- What a load that meets no codeword in error does (R519). -/
def loadWhole (g : Nat) (x : SpareLoad) (a : Nat) : Act := acts [
  loadArea g a 0x28000, loadRegs g x.slot, setPair fun p => { p with spares := smInsert p.spares g { x with done := true } }]

theorem spareLoadEnd_clean (h : smFind s.pair.spares g = some x) (hd : x.done = false) (hc : s.ecc.marks = []) :
    ∃ a b r, (spareLoadEnd g).run s = (loadWhole g x a).run (atTarget b r s.pair.sentWrites s.pair.waiting s) := by
  obtain ⟨b, r, hb⟩ := grant_run (dmaId g) [0x80000000 + 4096 * F.GAL_COPY_BASE.live g s + x.lane % 16 * 0x28000, slotBase (17 * g + 16)] s
  refine ⟨0x80000000 + 4096 * F.GAL_COPY_BASE.live g s + x.lane % 16 * 0x28000, b, r, ?_⟩
  have hm (a n : Nat) : marksIn s a n = [] := by simp [marksIn, hc]
  rw [spareLoadEnd, run_look, h]
  simp only [hm, List.filterMap_nil, hd, Bool.false_eq_true, if_false]
  rw [run_seq, hb, run_acts_cons, run_forEach_nil]
  rfl

theorem touches_loadArea (g a n : Nat) : (loadArea g a n).Touches [.mem, .ecc] := by
  have hcopy (src dst n : Nat) (keep : Nat → Bool) : (copyBytes src dst n keep).Touches [.mem, .ecc] := by
    rw [copyBytes, touches_look]
    intro s
    rw [touches_seq]
    exact ⟨touches_forEach_of fun _ => List.mem_cons_self, touches_forEach_of fun _ => List.mem_cons_self⟩
  have hecc (a n : Nat) : (eccFull a n).Touches [.mem, .ecc] := touches_eccFull (by decide) a n
  rw [loadArea]
  simp only [touches_acts_cons, touches_acts_nil, and_true]
  exact ⟨hcopy _ _ _ _, hcopy _ _ _ _, hcopy _ _ _ _, hecc _ _, hecc _ _, hecc _ _⟩

/-- The configuration that S16 takes, in the order it is stored. -/
theorem loadRegs_run (g l : Nat) (s : State) : (loadRegs g l).run s =
    ((R.LANE_ENABLE.setLive (17 * g + 16) (R.LANE_ENABLE.liveVal l s)).run <| (R.LANE_ENABLE.set (17 * g + 16) (R.LANE_ENABLE.val l s)).run <|
    (R.LANE_FRAME.setLive (17 * g + 16) (R.LANE_FRAME.liveVal l s)).run <| (R.LANE_FRAME.set (17 * g + 16) (R.LANE_FRAME.val l s)).run <|
    (R.LANE_ENTRY.set (17 * g + 16) (R.LANE_ENTRY.val l s)).run <| (R.LANE_STALL.set (17 * g + 16) 0).run <|
    (R.LANE_CYC.set (17 * g + 16) 0).run <| (R.LANE_CLIP.set (17 * g + 16) 0).run <| (R.LANE_FAULT.set (17 * g + 16) 0).run <|
    (R.LANE_STAT.set (17 * g + 16) 0).run <| (R.LANE_CTRL.set (17 * g + 16) 0).run <| (Upd.lane (17 * g + 16) laneReset).apply s) := rfl

theorem laneRegs_apart {r r' : Reg} (hd : r.dims = [(16, 0x1000000), (17, 0x40000)]) (hp : r.perMaster = false)
    (hd' : r'.dims = [(16, 0x1000000), (17, 0x40000)]) (hp' : r'.perMaster = false)
    (hb : r.base + 4 * r.words ≤ r'.base ∨ r'.base + 4 * r'.words ≤ r.base) (i m n : Nat) : Apart r i m r' i n := fun w hw w' hw' => by
  rw [laneReg_key hd hp, laneReg_key hd' hp']
  omega

theorem liveVal_setLive_apart {r r' : Reg} {i j : Nat} (h : ∀ w < r.words, ∀ w' < r'.words, r.addr i + 4 * w ≠ r'.addr j + 4 * w')
    (v : Nat) (s : State) : r.liveVal i ((r'.setLive j v).run s) = r.liveVal i s := by
  have hfind (xs : List Nat) (hx : ∀ w' ∈ xs, w' < r'.words) (s : State) (w : Nat) (hw : w < r.words) :
      smFind ((forEach xs fun w' => .upd (.live (r'.addr j + 4 * w') (BitVec.ofNat 32 (v / 2 ^ (32 * w'))))).run s).live (r.addr i + 4 * w) =
        smFind s.live (r.addr i + 4 * w) := by
    induction xs generalizing s with
    | nil => rfl
    | cons w' xs ih =>
      rw [run_forEach_cons, ih fun y hy => hx y (List.mem_cons_of_mem _ hy)]
      exact find_insert_ne _ _ (h w hw w' (hx w' List.mem_cons_self))
  unfold Reg.liveVal smGet
  congr 1
  refine List.map_congr_left fun w hw => ?_
  rw [Reg.setLive, hfind _ (fun _ hy => List.mem_range.mp hy) s w (List.mem_range.mp hw)]

theorem live_rset (r : Reg) (i v : Nat) (s : State) : ((r.set i v).run s).live = s.live := by rw [rset_frame]

theorem setLive_frame (r : Reg) (i v : Nat) (s : State) : (r.setLive i v).run s = { s with live := ((r.setLive i v).run s).live } := by
  have h : ∀ (xs : List Nat) (s : State), (forEach xs fun w => .upd (.live (r.addr i + 4 * w) (BitVec.ofNat 32 (v / 2 ^ (32 * w))))).run s =
      { s with live := ((forEach xs fun w => .upd (.live (r.addr i + 4 * w) (BitVec.ofNat 32 (v / 2 ^ (32 * w))))).run s).live } := by
    intro xs
    induction xs with
    | nil => exact fun _ => rfl
    | cons w xs ih =>
      intro s
      rw [run_forEach_cons]
      exact ih ((Upd.live (r.addr i + 4 * w) (BitVec.ofNat 32 (v / 2 ^ (32 * w)))).apply s)
  exact h _ s

theorem val_setLive (r r' : Reg) (i j v m : Nat) (s : State) : r.val i ((r'.setLive j v).run s) m = r.val i s m := by
  rw [setLive_frame]; rfl

/-- S16 takes the ENTRY and the frame in force of the failed slot, and stands reset (R519). -/
theorem loadRegs_loads (g l : Nat) (s : State) : let t := (loadRegs g l).run s
    R.LANE_ENTRY.val (17 * g + 16) t = R.LANE_ENTRY.val l s ∧ R.LANE_FRAME.liveVal (17 * g + 16) t = R.LANE_FRAME.liveVal l s ∧
      laneAt t (17 * g + 16) = laneReset ∧ t.pair = s.pair := by
  have hkeep (r : Reg) (i v : Nat) (s : State) : laneAt ((r.set i v).run s) (17 * g + 16) = laneAt s (17 * g + 16) ∧
      ((r.set i v).run s).pair = s.pair := by rw [rset_frame]; exact ⟨rfl, rfl⟩
  have hkeepL (r : Reg) (i v : Nat) (s : State) : laneAt ((r.setLive i v).run s) (17 * g + 16) = laneAt s (17 * g + 16) ∧
      ((r.setLive i v).run s).pair = s.pair := by rw [setLive_frame]; exact ⟨rfl, rfl⟩
  have hlive (r : Reg) (j i v : Nat) (s : State) : r.liveVal j ((R.LANE_ENABLE.set i v).run s) = r.liveVal j s :=
    liveVal_congr (live_rset ..) ..
  dsimp only
  rw [loadRegs_run]
  refine ⟨?_, ?_, ?_, ?_⟩
  · rw [val_setLive, val_set_apart (laneRegs_apart rfl rfl rfl rfl (by decide) _ 0 0), val_setLive,
      val_set_apart (laneRegs_apart rfl rfl rfl rfl (by decide) _ 0 0), val_set]
    exact Nat.mod_eq_of_lt (val_lt R.LANE_ENTRY l 0 s)
  · have hap : ∀ w < R.LANE_FRAME.words, ∀ w' < R.LANE_ENABLE.words,
        R.LANE_FRAME.addr (17 * g + 16) + 4 * w ≠ R.LANE_ENABLE.addr (17 * g + 16) + 4 * w' := fun w hw w' hw' => by
      have hb : R.LANE_FRAME.base + 4 * R.LANE_FRAME.words ≤ R.LANE_ENABLE.base ∨ R.LANE_ENABLE.base + 4 * R.LANE_ENABLE.words ≤ R.LANE_FRAME.base := by
        decide
      rw [laneReg_addr rfl, laneReg_addr rfl]
      omega
    have hlt : R.LANE_FRAME.liveVal l s < 2 ^ (32 * R.LANE_FRAME.words) := by
      have := joinWords_lt (ws := (List.range R.LANE_FRAME.words).map fun w =>
        (smGet (fun _ => R.LANE_FRAME.rstWord l w) s.live (R.LANE_FRAME.addr l + 4 * w)).toNat) (by
          intro w hw
          obtain ⟨_, -, rfl⟩ := List.mem_map.mp hw
          exact BitVec.isLt _)
      simpa [Reg.liveVal] using this
    rw [liveVal_setLive_apart hap, hlive, liveVal_setLive]
    exact Nat.mod_eq_of_lt hlt
  · rw [(hkeepL ..).1, (hkeep ..).1, (hkeepL ..).1, (hkeep ..).1, (hkeep ..).1, (hkeep ..).1, (hkeep ..).1, (hkeep ..).1, (hkeep ..).1,
      (hkeep ..).1, (hkeep ..).1]
    exact get_put_self (fun _ => laneReset) s.lanes (17 * g + 16) laneReset
  · rw [(hkeepL ..).2, (hkeep ..).2, (hkeepL ..).2, (hkeep ..).2, (hkeep ..).2, (hkeep ..).2, (hkeep ..).2, (hkeep ..).2, (hkeep ..).2,
      (hkeep ..).2, (hkeep ..).2]
    rfl

theorem loadWhole_run (g : Nat) (x : SpareLoad) (a : Nat) (s : State) : (loadWhole g x a).run s =
    (setPair fun p => { p with spares := smInsert p.spares g { x with done := true } }).run
      ((loadRegs g x.slot).run ((loadArea g a 0x28000).run s)) := by
  rw [loadWhole, acts_three]

/-- The load is marked as ended; registers, values in force and lanes stay. -/
theorem loadMarked (g : Nat) (x : SpareLoad) (t : State) :
    let u := (setPair fun p => { p with spares := smInsert p.spares g { x with done := true } }).run t
    smFind u.pair.spares g = some { x with done := true } ∧ u.regs = t.regs ∧ u.live = t.live ∧ u.lanes = t.lanes :=
  ⟨find_insert_self .., rfl, rfl, rfl⟩

theorem loadWhole_loads (g : Nat) (x : SpareLoad) (a : Nat) (s : State) : let t := (loadWhole g x a).run s
    smFind t.pair.spares g = some { x with done := true } ∧ R.LANE_ENTRY.val (17 * g + 16) t = R.LANE_ENTRY.val x.slot s ∧
      R.LANE_FRAME.liveVal (17 * g + 16) t = R.LANE_FRAME.liveVal x.slot s ∧ laneAt t (17 * g + 16) = laneReset := by
  have ht := touches_loadArea g a 0x28000
  have hr := touches_regs ht (by decide) (by decide) s
  have hl := touches_live ht (by decide) (by decide) s
  obtain ⟨hentry, hframe, hlane, -⟩ := loadRegs_loads g x.slot ((loadArea g a 0x28000).run s)
  obtain ⟨hdone, mr, ml, mla⟩ := loadMarked g x ((loadRegs g x.slot).run ((loadArea g a 0x28000).run s))
  dsimp only
  rw [loadWhole_run]
  refine ⟨hdone, (val_congr mr ..).trans (hentry.trans (val_congr hr ..)), (liveVal_congr ml ..).trans (hframe.trans (liveVal_congr hl ..)), ?_⟩
  rw [laneAt, mla]
  exact hlane

end

/-! ### Configuration -/

theorem stset_fldsOk : FldsOk 2 (entryOf R.GAL_STSET).flds := by rw [entryOf_stset]; unfold FldsOk; decide

theorem stset_out (g j : Fin 16) (m : Nat) : WordsOut errRegs R.GAL_STSET (16 * g + j) m := fun w hw => by
  have hw : w < 2 := hw
  have hk : R.GAL_STSET.key (16 * g + j) w m = R.GAL_STSET.addr (16 * g + j) + 4 * w := by simp [Reg.key, show R.GAL_STSET.perMaster = false from rfl]
  rw [hk, stset_addr]
  exact errRegs_off (by omega) (by omega) (by omega) (by omega) (by omega) (by omega)

/-- A state set within its lane's memories is stored (R524). -/
theorem wrStset_stores {m v : Nat} {g j : Fin 16} {s : State} (hl : s.lock = false)
    (hx : F.GAL_STSET_XBASE.of v + F.GAL_STSET_XLEN.of v ≤ 8192) (hy : F.GAL_STSET_YBASE.of v + F.GAL_STSET_YLEN.of v ≤ 8192)
    (hn : F.GAL_STSET_XLEN.of v + F.GAL_STSET_YLEN.of v ≤ 2048) :
    ∀ f ∈ [F.GAL_STSET_XBASE, F.GAL_STSET_XLEN, F.GAL_STSET_YBASE, F.GAL_STSET_YLEN],
      f.get (16 * g + j) ((wrStset m g j v (fullMask 2)).run s) = f.of v := by
  have hrw : ∀ f ∈ (entryOf R.GAL_STSET).flds, f.reg = R.GAL_STSET ∧ f.acc = .rw ∧ f.unlisted = [] := by
    rw [entryOf_stset]
    simp only [List.forall_mem_cons, List.not_mem_nil, false_imp_iff, implies_true, and_true]
    exact ⟨⟨rfl, rfl, rfl⟩, ⟨rfl, rfl, rfl⟩, ⟨rfl, rfl, rfl⟩, rfl, rfl, rfl⟩
  have hfld : ∀ f ∈ (entryOf R.GAL_STSET).flds, f.of (asWritten (entryOf R.GAL_STSET) (16 * g + j) m v (fullMask 2) s) = f.of v :=
    fun f hf => of_asWritten stset_fldsOk hf (hrw f hf).2.1 (by simp [(hrw f hf).2.2]) _ m s
  have hrun : (wrStset m g j v (fullMask 2)).run s =
      (storeWrite (entryOf R.GAL_STSET) (16 * g + j) m v (fullMask 2) (R.GAL_STSET.addr (16 * g + j) + 4)).run s := by
    rw [entryOf_stset] at hfld
    rw [wrStset, run_look]
    dsimp only
    rw [entryOf_stset, hfld _ (by simp), hfld _ (by simp), hfld _ (by simp), hfld _ (by simp), if_neg (by simp; omega)]
  intro f hf
  obtain ⟨hreg, hacc, hun⟩ := hrw f hf
  rw [hrun]
  exact storeWrite_get stset_fldsOk (stset_out g j m) rfl hf hreg hacc (by simp [hl]) (by simp [hun])

theorem entryOf_galCopy : entryOf R.GAL_COPY = ⟨R.GAL_COPY, [F.GAL_COPY_EN, F.GAL_COPY_BASE]⟩ := rfl

theorem galCopy_fldsOk : FldsOk 2 [F.GAL_COPY_EN, F.GAL_COPY_BASE] := by unfold FldsOk; decide

theorem galCopy_out (g : Fin 16) (m : Nat) : WordsOut errRegs R.GAL_COPY g m :=
  out_one (n := 16) (st := 0x1000000) rfl rfl (fun w hw => by
    have hb : R.GAL_COPY.base = 0xF30010 := rfl
    have hw : w < 2 := hw
    exact errRegs_off (by omega) (by omega) (by omega) (by omega) (by omega) (by omega)) m

/-- A gallery copy within LPDDR5X is stored, and acts at the next edge (R518). -/
theorem wrGalCopy_stores {m v : Nat} {g : Fin 16} {s : State} (hl : s.lock = false)
    (h : F.GAL_COPY_EN.of v = 1 → 4096 * F.GAL_COPY_BASE.of v + 2621440 ≤ dramSize s) : let t := (wrGalCopy m g v (fullMask 2)).run s
    F.GAL_COPY_EN.get g t = F.GAL_COPY_EN.of v ∧ F.GAL_COPY_BASE.get g t = F.GAL_COPY_BASE.of v ∧
      R.GAL_COPY.liveVal g t = R.GAL_COPY.liveVal g s := by
  have hen := of_asWritten (e := ⟨R.GAL_COPY, [F.GAL_COPY_EN, F.GAL_COPY_BASE]⟩) (f := F.GAL_COPY_EN) (v := v) galCopy_fldsOk (by simp) rfl
    (by simp [F.GAL_COPY_EN]) g m s
  have hbase := of_asWritten (e := ⟨R.GAL_COPY, [F.GAL_COPY_EN, F.GAL_COPY_BASE]⟩) (f := F.GAL_COPY_BASE) (v := v) galCopy_fldsOk (by simp)
    rfl (by simp [F.GAL_COPY_BASE]) g m s
  have hrun : (wrGalCopy m g v (fullMask 2)).run s =
      (storeWrite (entryOf R.GAL_COPY) g m v (fullMask 2) (R.GAL_COPY.addr g + 4)).run s := by
    rw [wrGalCopy, run_look]
    dsimp only
    rw [entryOf_galCopy]
    dsimp only at hen hbase
    rw [show fullMask 2 = fullMask R.GAL_COPY.words from rfl, hen, hbase, if_neg]
    simp only [Bool.and_eq_true, decide_eq_true_eq, not_and]
    intro h1
    have := h h1
    omega
  have hlk (b : Bool) : (b && s.lock) = false := by rw [hl, Bool.and_false]
  dsimp only
  rw [hrun, entryOf_galCopy]
  exact ⟨storeWrite_get galCopy_fldsOk (galCopy_out g m) rfl (by simp) rfl rfl (hlk _) (by simp [F.GAL_COPY_EN]),
    storeWrite_get galCopy_fldsOk (galCopy_out g m) rfl (by simp) rfl rfl (hlk _) (by simp [F.GAL_COPY_BASE]), storeWrite_liveVal ..⟩

/-! ### The statement -/

/-- Settles O29: a load that meets clean codewords is whole, and both configurations are stored by the fields of their registers. -/
theorem spareCommandsComplete : Obligations.SpareCommandsComplete := by
  intro m g i v s
  refine ⟨fun x hx hd hc => ⟨_, rfl, ?_⟩, fun hreach hl hx hy hn => ⟨_, rfl, ?_⟩, fun hreach hl h => ⟨_, rfl, ?_⟩⟩
  · obtain ⟨a, b, r, hrun⟩ := spareLoadEnd_clean hx hd hc
    rw [hrun]
    exact loadWhole_loads g x a _
  · obtain ⟨b, r, l, w, hrun⟩ := arrive_atTarget hreach 0xFF v.toNat
      (.seq (unbuf m (R.GAL_STSET.addr (16 * g + i))) (wrStset m g i v.toNat (fullMask 2)))
    have hget := wrStset_stores (m := m) (g := g) (j := i)
      (s := (unbuf m (R.GAL_STSET.addr (16 * g + i))).run (atTarget b r l w s)) hl hx hy hn
    rw [arrivePair, hrun, run_seq]
    exact ⟨hget _ (by simp), hget _ (by simp), hget _ (by simp), hget _ (by simp)⟩
  · obtain ⟨b, r, l, w, hrun⟩ := arrive_atTarget hreach 0xFF v.toNat
      (.seq (unbuf m (R.GAL_COPY.addr g)) (wrGalCopy m g v.toNat (fullMask 2)))
    rw [arrivePair, hrun, run_seq]
    exact wrGalCopy_stores (s := (unbuf m (R.GAL_COPY.addr g)).run (atTarget b r l w s)) hl h

end Sys2Proof.Machine
end

