-- ==== Sys2Proof/Proofs/Resets.lean ====
section
/-! SUPPORT. The reset of the node, its sources, and the watchdog (R539, R568–R570). -/

namespace Sys2Proof.Machine

/-! ### Registers after a reset -/

/-- A word that does not survive a reset is not listed after it. -/
theorem find_reset {porst : Bool} {k : Nat} (hk : survives porst k = false) (hr : k ≠ 0x20060008) (s : State) :
    smFind ((Upd.nodeReset porst).apply s).regs k = none := by
  have hfilter : smFind (s.regs.filter fun p => survives porst p.1) k = none := by
    cases h : smFind (s.regs.filter fun p => survives porst p.1) k with
    | none => rfl
    | some v =>
      obtain ⟨-, hs⟩ := List.mem_filter.mp (mem_of_find h)
      rw [hk] at hs
      cases hs
  have hregs : ((Upd.nodeReset porst).apply s).regs =
      (ropeStatKept porst s).foldl (fun m p => smInsert m p.1 p.2) (s.regs.filter fun p => survives porst p.1) := rfl
  rw [hregs, ropeStatKept]
  split
  · exact (find_insert_ne _ _ hr).trans hfilter
  · exact hfilter

/-- A register word that reads as at reset. -/
def Reset (r : Reg) (i : Nat) (s : State) : Prop := ∀ w < r.words, smFind s.regs (r.key i w 0) = none

theorem Reset.val {r : Reg} {i : Nat} {s : State} (h : Reset r i s) :
    r.val i s = joinWords ((List.range r.words).map fun w => (r.rstWord i w).toNat) := by
  unfold Reg.val Reg.word smGet
  congr 1
  refine List.map_congr_left fun w hw => ?_
  rw [h w (List.mem_range.mp hw)]
  rfl

theorem Reset.get {f : Fld} {i : Nat} {s : State} (h : Reset f.reg i s) :
    f.get i s = bitsOf (joinWords ((List.range f.reg.words).map fun w => (f.reg.rstWord i w).toNat)) f.hi f.lo := by
  rw [Fld.get, h.val]

theorem reset_single {r : Reg} (hd : r.dims = []) (hp : r.perMaster = false) {porst : Bool}
    (h : ∀ w < r.words, survives porst (r.base + 4 * w) = false ∧ r.base + 4 * w ≠ 0x20060008) (s : State) :
    Reset r 0 ((Upd.nodeReset porst).apply s) := fun w hw => by
  rw [key_zero hd hp]
  exact find_reset (h w hw).1 (h w hw).2 s

/-! ### What a reset leaves -/

/-- The state before SYS_RESET is raised. -/
def resetRecorded (c : Nat) (s : State) : State :=
  (onlyIf (decide (c ≠ 0)) dramRefresh).run ((F.SYS_RSTCAUSE_CAUSE.set 0 c).run ((Upd.nodeReset (c == 0)).apply s))

theorem sysReset_run (c : Nat) (s : State) : (sysReset c).run s =
    (onlyIf (decide (c = 0)) ropeChanged).run ((raise .SYS_RESET c).run (resetRecorded c s)) := rfl

section
variable {c : Nat} {s : State}

theorem resetRecorded_frame (c : Nat) (s : State) :
    resetRecorded c s = { (Upd.nodeReset (c == 0)).apply s with regs := (resetRecorded c s).regs } := by
  unfold resetRecorded dramRefresh
  cases decide (c ≠ 0) with
  | false => rw [onlyIf_false, run_done, fset_frame]
  | true => rw [onlyIf_true, rset_frame, fset_frame]

theorem resetRecorded_apart {r : Reg} (hc : r.awayFrom R.SYS_RSTCAUSE = true) (hd : r.awayFrom R.DRAM_STAT = true) {i : Nat}
    (hi : i < dimsCount r.dims) : r.val i (resetRecorded c s) = r.val i ((Upd.nodeReset (c == 0)).apply s) := by
  have ac : Apart r i 0 R.SYS_RSTCAUSE 0 0 := apart_of_away hc hi (by decide) 0 0
  have ad : Apart r i 0 R.DRAM_STAT 0 0 := apart_of_away hd hi (by decide) 0 0
  unfold resetRecorded dramRefresh
  cases decide (c ≠ 0) with
  | false => rw [onlyIf_false, run_done, val_fset_apart ac]
  | true => rw [onlyIf_true, val_set_apart ad, val_fset_apart ac]

theorem survives_off {k : Nat} (h : 0x20000000 ≤ k) (h1 : k < 0x20140100 ∨ 0x20140118 ≤ k) (h2 : k < 0x20060000 ∨ 0x20060180 ≤ k)
    (porst : Bool) : survives porst k = false ∧ k ≠ 0x20060008 := by
  refine ⟨?_, by omega⟩
  unfold survives
  cases porst <;> simp <;> omega

theorem resetRecorded_zero {f : Fld} (hd : f.reg.dims = []) (hp : f.reg.perMaster = false) (hw : f.reg.words = 1) (hz : f.reg.rst 0 = 0)
    (hb : 0x20000000 ≤ f.reg.base) (h1 : f.reg.base < 0x20140100 ∨ 0x20140118 ≤ f.reg.base)
    (h2 : f.reg.base < 0x20060000 ∨ 0x20060180 ≤ f.reg.base) (hc : f.reg.awayFrom R.SYS_RSTCAUSE = true)
    (ha : f.reg.awayFrom R.DRAM_STAT = true) : f.get 0 (resetRecorded c s) = 0 := by
  have hr : Reset f.reg 0 ((Upd.nodeReset (c == 0)).apply s) := reset_single hd hp (fun w hlt => by
    have hlt : w < 1 := hw ▸ hlt
    obtain rfl : w = 0 := by omega
    exact survives_off (by omega) (by omega) (by omega) _) s
  have hword : f.reg.rstWord 0 0 = 0#32 := by
    unfold Reg.rstWord
    rw [hz]
    rfl
  rw [Fld.get, resetRecorded_apart hc ha (by rw [hd]; decide), hr.val, hw]
  simp [hword, joinWords, bitsOf]

theorem resetRecorded_cause (hc : c < 8) : F.SYS_RSTCAUSE_CAUSE.get 0 (resetRecorded c s) = c := by
  have ad : Apart R.SYS_RSTCAUSE 0 0 R.DRAM_STAT 0 0 := apart_of_away (by decide) (by decide) (by decide) 0 0
  have hset := get_set_same F.SYS_RSTCAUSE_CAUSE (by decide) (x := c) hc 0 ((Upd.nodeReset (c == 0)).apply s)
  unfold resetRecorded dramRefresh
  cases decide (c ≠ 0) with
  | false => exact hset
  | true => exact (congrArg (fun v => bitsOf v F.SYS_RSTCAUSE_CAUSE.hi F.SYS_RSTCAUSE_CAUSE.lo) (val_set_apart ad 8 _)).trans hset

theorem resetRecorded_refresh (hc : c ≠ 0) : F.DRAM_STAT_SR.get 0 (resetRecorded c s) = 1 := by
  have hd : decide (c ≠ 0) = true := decide_eq_true hc
  unfold resetRecorded dramRefresh
  rw [hd, onlyIf_true, Fld.get, show F.DRAM_STAT_SR.reg = R.DRAM_STAT from rfl, val_set]
  rfl

/-- SYS_RESET is informative as long as nothing has configured it (R540). -/
theorem resetRecorded_class : F.SUMP_EVCFG_CLASS.get 0 (resetRecorded c s) = 0 := by
  have hr : Reset R.SUMP_EVCFG 0 ((Upd.nodeReset (c == 0)).apply s) := fun w hw => by
    have hw : w < 1 := hw
    obtain rfl : w = 0 := by omega
    have hk : R.SUMP_EVCFG.key 0 0 0 = 0x20030800 := rfl
    rw [hk]
    obtain ⟨hsv, hne⟩ := survives_off (k := 0x20030800) (by decide) (.inl (by decide)) (.inl (by decide)) (c == 0)
    exact find_reset hsv hne s
  rw [Fld.get, show F.SUMP_EVCFG_CLASS.reg = R.SUMP_EVCFG from rfl, resetRecorded_apart (by decide) (by decide) (by decide), hr.val]
  decide

end

/-- An informative event without parity errors is noted, and that is all. -/
theorem raise_info {e : Ev} {s : State} (hp : s.sump.parity = []) (hc : F.SUMP_EVCFG_CLASS.get (evNum e) s = 0) (d0 d1 d2 g : Nat) :
    (raise e d0 d1 d2 g).run s = (note e d0 d1 d2 g).run s := by
  have hr : react [0] = .done := rfl
  rw [raise, run_look, acts_three, sumpUse_sound (by simp [hp]), hc, hr, run_done]

/-- What every source of a reset has in common (R568). -/
def IsReset (c : Nat) (t : State) : Prop := F.SYS_RSTCAUSE_CAUSE.get 0 t = c ∧ EvSet .SYS_RESET t ∧ running t = false ∧ boot t = 0 ∧
  F.SUMP_STAT_STATE.get 0 t = 0

theorem ropeChanged_regs (b : Bool) (s : State) : ((onlyIf b ropeChanged).run s).regs = s.regs ∧ ((onlyIf b ropeChanged).run s).pwr = s.pwr := by
  cases b <;> exact ⟨rfl, rfl⟩

theorem isReset_congr {c : Nat} {s t : State} (h : t.regs = s.regs) (hs : IsReset c s) : IsReset c t := by
  unfold IsReset EvSet running boot Fld.on at *
  rw [get_congr h, val_congr h, get_congr h, get_congr h, get_congr h]
  exact hs

theorem sysReset_resets {c : Nat} (hc : c < 8) (s : State) : IsReset c ((sysReset c).run s) ∧
    (c ≠ 0 → F.DRAM_STAT_SR.get 0 ((sysReset c).run s) = 1) ∧ ((sysReset c).run s).pwr.vdd = s.pwr.vdd := by
  have hparity : (resetRecorded c s).sump.parity = [] := by rw [resetRecorded_frame]; rfl
  have hraise := raise_info hparity (e := .SYS_RESET) resetRecorded_class c 0 0 0
  have hst : (note .SYS_RESET c 0 0 0).Stores raiseRegs := stores_note _ _ _ _ _
  have hout {f : Fld} (ho : WordsOut raiseRegs f.reg 0 0) : f.get 0 ((note .SYS_RESET c 0 0 0).run (resetRecorded c s)) =
      f.get 0 (resetRecorded c s) := get_stores hst ho _
  obtain ⟨hregs, hpwr⟩ := ropeChanged_regs (decide (c = 0)) ((note .SYS_RESET c 0 0 0).run (resetRecorded c s))
  rw [sysReset_run, hraise]
  refine ⟨isReset_congr hregs ⟨?_, note_sets .., ?_, ?_, ?_⟩, fun hne => ?_, ?_⟩
  · rw [hout (by unfold WordsOut; decide)]
    exact resetRecorded_cause hc
  · unfold running Fld.on
    rw [hout (by unfold WordsOut; decide), resetRecorded_zero rfl rfl rfl rfl (by decide) (by decide) (by decide) (by decide) (by decide)]
    rfl
  · unfold boot
    rw [hout (by unfold WordsOut; decide), resetRecorded_zero rfl rfl rfl rfl (by decide) (by decide) (by decide) (by decide) (by decide)]
  · rw [get_stores (note_beyondStat .SYS_RESET c 0 0 0) sumpStat_out,
      resetRecorded_zero rfl rfl rfl rfl (by decide) (by decide) (by decide) (by decide) (by decide)]
  · rw [get_congr hregs, hout (by unfold WordsOut; decide)]
    exact resetRecorded_refresh hne
  · rw [hpwr, touches_pwr (touches_note .SYS_RESET c 0 0 0) (by decide) (by decide), resetRecorded_frame]
    rfl

/-! ### The watchdog -/

theorem entryOf_wdog : entryOf R.SYS_WDOG = ⟨R.SYS_WDOG, [F.SYS_WDOG_EN, F.SYS_WDOG_TIMEOUT]⟩ := rfl

theorem wdog_fldsOk : FldsOk 1 [F.SYS_WDOG_EN, F.SYS_WDOG_TIMEOUT] := by unfold FldsOk; decide

theorem wrWdog_stores {m v : Nat} {s : State} (hl : s.lock = false) : let t := (wrWdog m v (fullMask 1)).run s
    F.SYS_WDOG_EN.get 0 t = F.SYS_WDOG_EN.of v ∧ F.SYS_WDOG_TIMEOUT.get 0 t = F.SYS_WDOG_TIMEOUT.of v ∧
      (F.SYS_WDOG_EN.of v = 1 → t.pwr.wdogAt = s.elapsed) := by
  have hlk (b : Bool) : (b && s.lock) = false := by rw [hl, Bool.and_false]
  have hout : WordsOut errRegs R.SYS_WDOG 0 m := out_zero rfl rfl (by decide) 0 m
  have hen := stored_get (n := 1) (s := s) (a := R.SYS_WDOG.addr 0) (v := v) (e := ⟨R.SYS_WDOG, [F.SYS_WDOG_EN, F.SYS_WDOG_TIMEOUT]⟩) rfl wdog_fldsOk
    hout rfl (f := F.SYS_WDOG_EN) (by simp) rfl rfl (hlk _) (by simp [F.SYS_WDOG_EN])
  have hto := stored_get (n := 1) (s := s) (a := R.SYS_WDOG.addr 0) (v := v) (e := ⟨R.SYS_WDOG, [F.SYS_WDOG_EN, F.SYS_WDOG_TIMEOUT]⟩) rfl wdog_fldsOk
    hout rfl (f := F.SYS_WDOG_TIMEOUT) (by simp) rfl rfl (hlk _) (by simp [F.SYS_WDOG_TIMEOUT])
  have hel := touches_elapsed (touches_storeWrite (entryOf R.SYS_WDOG) 0 m v (fullMask 1) (R.SYS_WDOG.addr 0) false false)
    (by decide) (by decide) s
  rw [entryOf_wdog] at hel
  have hrestart (b : Bool) (u : State) : ((onlyIf b wdogRestart).run u).regs = u.regs := by cases b <;> rfl
  rw [wrWdog, run_look, run_seq, run_look, entryOf_wdog]
  generalize (storeWrite (⟨R.SYS_WDOG, [F.SYS_WDOG_EN, F.SYS_WDOG_TIMEOUT]⟩ : RegEntry) 0 m v (fullMask 1) (R.SYS_WDOG.addr 0)).run s = u
    at hen hto hel
  dsimp only
  rw [get_congr (hrestart ..), get_congr (hrestart ..)]
  refine ⟨hen, hto, fun h1 => ?_⟩
  have hon : F.SYS_WDOG_EN.on 0 u = true := by
    unfold Fld.on
    rw [hen, h1]
    rfl
  rw [hl, hon]
  exact hel

/-! ### The statement -/

theorem and_word {v : Word} : v.toNat &&& fullMask 1 = v.toNat := and_mask v.isLt

/-- Settles O50: every source comes to `sysReset` with its cause, or is dropped. -/
theorem resetCommandsComplete : Obligations.ResetCommandsComplete := by
  intro m s isReset
  have hdrop (c : Nat) (hc : c < 2 ^ 32) (u : State) : F.XBAR_ACCERR_REASON.get 0 ((dropped m c).run u) = 3 :=
    (accessErr_logs (id := m) (by omega) hc (show 3 < 4 by decide) true u).2.2.2.1
  refine ⟨⟨⟨_, rfl, (sysReset_resets (by decide) _).1⟩, _, rfl, (sysReset_resets (by decide) _).2.2⟩, fun ns => ⟨fun h => ?_, fun h hv => ?_⟩,
    fun v hreach => ⟨fun hkey hgo => ?_, fun hkey => ⟨_, rfl, ?_⟩⟩, fun v hreach hl => ⟨_, rfl, ?_⟩,
    fun v hreach => ⟨fun hkey => ⟨_, rfl, ?_⟩, fun hkey => ⟨_, rfl, ?_⟩⟩, fun hdue => ⟨_, rfl, ?_⟩⟩
  · show Host.Outcome.next ((resetPulse ns).run s) = .next s
    rw [resetPulse, run_look, if_pos (by simp [h]), run_done]
  · have hrun : (resetPulse ns).run s = (sysReset 1).run s := by
      rw [resetPulse, run_look, if_neg (by simp [hv]; omega), if_pos h]
    obtain ⟨hreset, hsr, -⟩ := sysReset_resets (c := 1) (by decide) s
    exact ⟨⟨_, rfl, hrun ▸ hreset⟩, _, rfl, hrun ▸ hsr (by decide)⟩
  · obtain ⟨b, r, l, w, hrun⟩ := arrive_atTarget hreach 0xF v.toNat (wrSwrst m v.toNat (fullMask 1))
    refine ⟨_, rfl, ?_⟩
    rw [hrun, wrSwrst, and_word, if_pos (by simp [hkey, hgo])]
    exact (sysReset_resets (by decide) _).1
  · obtain ⟨b, r, l, w, hrun⟩ := arrive_atTarget hreach 0xF v.toNat (wrSwrst m v.toNat (fullMask 1))
    have hout : WordsOut errRegs F.SYS_RSTCAUSE_CAUSE.reg 0 0 := by unfold WordsOut; decide
    rw [hrun, wrSwrst, and_word, if_neg (by simp [hkey])]
    exact ⟨hdrop _ (by decide) _, get_stores (stores_dropped ..) hout _⟩
  · obtain ⟨b, r, l, w, hrun⟩ := arrive_atTarget hreach 0xF v.toNat (wrWdog m v.toNat (fullMask 1))
    rw [hrun]
    exact wrWdog_stores (s := atTarget b r l w s) hl
  · obtain ⟨b, r, l, w, hrun⟩ := arrive_atTarget hreach 0xF v.toNat (wrKick m v.toNat (fullMask 1))
    rw [hrun, wrKick, and_word, if_pos hkey]
    rfl
  · obtain ⟨b, r, l, w, hrun⟩ := arrive_atTarget hreach 0xF v.toNat (wrKick m v.toNat (fullMask 1))
    rw [hrun, wrKick, and_word, if_neg hkey, touches_pwr (touches_dropped ..) (by decide) (by decide)]
    exact ⟨rfl, hdrop _ (by decide) _⟩
  · rw [run_look, hdue]
    exact (sysReset_resets (by decide) s).1

end Sys2Proof.Machine
end

