-- ==== Sys2Proof/Proofs/FactoryDefaults.lean ====
section
/-! SUPPORT. The loader's fall to factory defaults: what it stores, and the state it leaves (R546, R551). -/

namespace Sys2Proof.Machine

/-! ### Words outside a block -/

/-- The words that lie outside the block from `lo` to `hi`. -/
def outside (lo hi k : Nat) : Bool := decide (k < lo) || decide (hi ≤ k)

/-- A register with its elements outside the block. -/
def Reg.clear (r : Reg) (lo hi : Nat) : Bool := r.flat && (decide (hi ≤ r.base) || decide (r.base + r.span ≤ lo))

/-- A register with its elements inside the block. -/
def Reg.within (r : Reg) (lo hi : Nat) : Bool := r.flat && decide (lo ≤ r.base) && decide (r.base + r.span ≤ hi)

theorem clear_in {r : Reg} {lo hi : Nat} (h : r.clear lo hi = true) {i : Nat} (hi' : i < dimsCount r.dims) (m : Nat) :
    WordsIn (outside lo hi) r i m := fun w hw => by
  unfold Reg.clear at h
  simp only [Bool.and_eq_true, Bool.or_eq_true, decide_eq_true_eq] at h
  have hk := key_range h.1 hi' hw m
  unfold outside
  simp only [Bool.or_eq_true, decide_eq_true_eq]
  omega

theorem within_out {r : Reg} {lo hi : Nat} (h : r.within lo hi = true) {i : Nat} (hi' : i < dimsCount r.dims) (m : Nat) :
    WordsOut (outside lo hi) r i m := fun w hw => by
  unfold Reg.within at h
  simp only [Bool.and_eq_true, decide_eq_true_eq] at h
  obtain ⟨⟨hf, hlo⟩, hhi⟩ := h
  have hk := key_range hf hi' hw m
  unfold outside
  simp only [Bool.or_eq_false_iff, decide_eq_false_iff_not]
  omega

/-- The words outside the registers of the loader. -/
abbrev offStrata : Nat → Bool := outside 0x20020000 0x20030000

theorem offStrata_raise {k : Nat} (h : raiseRegs k = true) : offStrata k = true := by
  have b1 : R.ROPE_STAT.base = 0x20060008 := rfl
  have b2 : R.PAIR_STAT.base = 0x20110008 := rfl
  have b3 : R.PAIR_HIST.base = 0x2011000C := rfl
  unfold raiseRegs at h
  rw [b1, b2, b3] at h
  simp only [Bool.or_eq_true, Bool.and_eq_true, decide_eq_true_eq] at h
  simp only [outside, Bool.or_eq_true, decide_eq_true_eq]
  omega

/-! ### What the factory defaults store -/

theorem stores_ropesRemoved_strata : ropesRemoved.Stores offStrata := by
  have hw : WordsIn offStrata R.ROPE_STAT 0 0 := clear_in (by decide) (by decide) 0
  rw [ropesRemoved, stores_look]
  intro s
  split
  · simp
  · simp [stores_fset (f := F.ROPE_STAT_SAFE_OFF) hw]

theorem stores_gmJudge : gmJudge.Stores offStrata := by
  have hs : WordsIn offStrata R.PTP_STAT 0 0 := clear_in (by decide) (by decide) 0
  have hg : WordsIn offStrata R.PTP_GMID 0 0 := clear_in (by decide) (by decide) 0
  have hr : (raise .PTP_GM_CHANGE 0 0 0 0).Stores offStrata := stores_mono (stores_raise _ _ _ _ _) fun _ => offStrata_raise
  rw [gmJudge, stores_look]
  intro s
  simp [stores_fset (f := F.PTP_STAT_SLAVEPORT) hs, stores_fset (f := F.PTP_STAT_QUAL) hs, stores_fset (f := F.PTP_STAT_GM) hs,
    stores_fset (f := F.PTP_STAT_GMCHG) hs, stores_fset (f := F.PTP_GMID_ID) hg, hr]

theorem stores_setPtpPort {A : Nat → Bool} (p : Nat) (f : PtpPort → PtpPort) : (setPtpPort p f).Stores A := stores_setPtp _

theorem ptpPstat_in {p : Nat} (h : p < 4) : WordsIn offStrata R.PTP_PSTAT p 0 := clear_in (by decide) h 0

theorem stores_stateDecision : stateDecision.Stores offStrata := by
  rw [stateDecision, stores_look]
  intro s
  rw [stores_seq]
  refine ⟨stores_forEach.mpr fun p hp => ?_, stores_gmJudge⟩
  have hp : p < 4 := List.mem_range.mp (List.mem_filter.mp hp).1
  simp [stores_fset (f := F.PTP_PSTAT_STATE) (ptpPstat_in hp), stores_setPtpPort]

theorem stores_portsJudge : portsJudge.Stores offStrata := by
  rw [portsJudge, stores_look]
  intro s
  rw [stores_seq]
  refine ⟨stores_forEach.mpr fun p hp => ?_, stores_stateDecision⟩
  have hset (x : Nat) := stores_fset (f := F.PTP_PSTAT_STATE) (ptpPstat_in (List.mem_range.mp hp)) x
  dsimp only
  split
  · simp [stores_setPtpPort, hset]
  · simp [stores_setPtpPort, hset]

theorem stores_defaultQueue (q resv : Nat) : (defaultQueue q resv).Stores offStrata := by
  have hw : WordsIn offStrata R.POOL_STAT 0 0 := clear_in (by decide) (by decide) 0
  rw [defaultQueue, stores_look]
  intro s
  exact ⟨stores_setPool _, stores_fset (f := F.POOL_STAT_UNRES) hw _⟩

theorem stores_raiseAll_strata (rs : List RaiseReq) : (raiseAll rs).Stores offStrata :=
  stores_mono (stores_raiseAll rs) fun _ => offStrata_raise

theorem stores_formJudge (rs : List RaiseReq) : (formJudge rs).Stores offStrata := by
  have hs : WordsIn offStrata R.PAIR_STAT 0 0 := clear_in (by decide) (by decide) 0
  have hh : WordsIn offStrata R.PAIR_HIST 0 0 := clear_in (by decide) (by decide) 0
  rw [formJudge, stores_look]
  intro s
  split
  · simp [takeOwn, stores_fset (f := F.PAIR_STAT_STATE) hs, stores_fset (f := F.PAIR_HIST_TAKEOVER) hh, stores_raiseAll_strata]
  · exact stores_raiseAll_strata rs

theorem stores_pairCfgApplied (old : Nat) : (pairCfgApplied old).Stores offStrata := by
  have hs : WordsIn offStrata R.PAIR_STAT 0 0 := clear_in (by decide) (by decide) 0
  rw [pairCfgApplied, stores_look]
  intro s
  dsimp only
  split
  · simp
  · split
    · split
      · exact stores_fset (f := F.PAIR_STAT_STATE) hs _
      · simp [stores_fset (f := F.PAIR_STAT_STATE) hs, stores_formJudge]
    · simp [stores_fset (f := F.PAIR_STAT_STATE) hs]

theorem stores_defaultsSet : defaultsSet.Stores offStrata := by
  have fs (f : Fld) (h : f.reg.clear 0x20020000 0x20030000 = true) (hn : 0 < dimsCount f.reg.dims) (x : Nat) : (f.set 0 x).Stores offStrata :=
    stores_fset (clear_in h hn 0) x
  have fp (f : Fld) (h : f.reg.clear 0x20020000 0x20030000 = true) (hn : 4 ≤ dimsCount f.reg.dims) {p : Nat} (hp : p ∈ List.range 4)
      (x : Nat) : (f.set p x).Stores offStrata := stores_fset (clear_in h (by have := List.mem_range.mp hp; omega) 0) x
  rw [defaultsSet]
  simp only [stores_acts_cons, stores_acts_nil, and_true]
  refine ⟨fs F.ROPE_CTRL_SRC (by decide) (by decide) _, stores_ropesRemoved_strata, stores_forEach.mpr fun p hp => ?_,
    stores_rset (clear_in (by decide) (by decide) 0) _, stores_defaultQueue _ _, stores_defaultQueue _ _,
    fs F.ETH_P4RX_QUEUE (by decide) (by decide) _, fs F.ETH_P4TX_QUEUE (by decide) (by decide) _, fs F.PTP_CFG_EN (by decide) (by decide) _,
    fs F.PTP_CFG_PROFILE (by decide) (by decide) _, fs F.PTP_CFG_UDP (by decide) (by decide) _,
    fs F.PTP_CFG_SLAVE_ONLY (by decide) (by decide) _, stores_forEach.mpr fun p hp => fp F.PTP_PCFG_EN (by decide) (by decide) hp _,
    stores_portsJudge, ?_⟩
  · simp only [stores_acts_cons, stores_acts_nil, and_true]
    exact ⟨fp F.ETH_PCFG_MODE (by decide) (by decide) hp _, fp F.ETH_PCFG_EN (by decide) (by decide) hp _,
      fp F.ETH_PQ_RXQ (by decide) (by decide) hp _⟩
  · rw [stores_look]
    intro s
    simp only [stores_acts_cons, stores_acts_nil, and_true]
    exact ⟨fs F.PAIR_CFG_EN (by decide) (by decide) _, stores_fsetLive _ _ _, stores_pairCfgApplied _⟩

/-! ### The state DEFAULT -/

/-- The loader stands in DEFAULT with its cause (R546). -/
structure InDefault (c : Nat) (t : State) : Prop where
  boot : boot t = 5
  cause : F.STRATA_STAT_CAUSE.get 0 t = c
  flag : F.STRATA_STAT_DEFAULT.get 0 t = 1
  phase : phase t = 7
  event : EvSet .STRATA_DEFAULT t

/-- The state in which BOOT, CAUSE and DEFAULT have been written. -/
def defaultNamed (c : Nat) (s : State) : State :=
  (F.STRATA_STAT_DEFAULT.set 0 1).run ((F.STRATA_STAT_CAUSE.set 0 c).run ((F.STRATA_STAT_BOOT.set 0 5).run s))

theorem defaultNamed_stat {c : Nat} (hc : c < 16) (s : State) : Machine.boot (defaultNamed c s) = 5 ∧
    F.STRATA_STAT_CAUSE.get 0 (defaultNamed c s) = c ∧ F.STRATA_STAT_DEFAULT.get 0 (defaultNamed c s) = 1 := by
  refine ⟨?_, ?_, get_set_same F.STRATA_STAT_DEFAULT (by decide) (by decide) 0 _⟩
  · unfold Machine.boot defaultNamed
    rw [get_set_other F.STRATA_STAT_BOOT F.STRATA_STAT_DEFAULT rfl (by decide), get_set_other F.STRATA_STAT_BOOT F.STRATA_STAT_CAUSE rfl (by decide),
      get_set_same F.STRATA_STAT_BOOT (by decide) (by decide)]
  · unfold defaultNamed
    rw [get_set_other F.STRATA_STAT_CAUSE F.STRATA_STAT_DEFAULT rfl (by decide), get_set_same F.STRATA_STAT_CAUSE (by decide) hc]

/-- The defaults of the ROM, with what the loader forgets and with the event. -/
def defaultRest : Act := acts [
  R.STRATA_ICW.set 0 0, R.STRATA_OVL.set 0 0,
  setStrata fun x => { x with
    base := none, arm := none, rel := none, warmReq := false, warmArm := none, warmGo := false
    cmds := [], routes := [], sect := [], sectAt := none, rDone := false },
  defaultsSet,
  raise .STRATA_DEFAULT,
  F.PWR_STAT_PHASE.set 0 7,
  .look fun s => onlyIf s.pwr.mixOn (setPwr fun p => { p with fade := some 0 })]

theorem loadDefault_run (c : Nat) (s : State) : (loadDefault c).run s =
    defaultRest.run (defaultNamed c ((onlyIf s.strata.played blocksReset).run s)) := by
  rw [loadDefault, run_look, run_acts_cons, run_acts_cons, run_acts_cons, run_acts_cons, defaultRest, defaultNamed]

/-- The last effects: PHASE shows DEFAULT, and an early mix fades. -/
def defaultPhase : Act := .seq (F.PWR_STAT_PHASE.set 0 7) (.look fun s => onlyIf s.pwr.mixOn (setPwr fun p => { p with fade := some 0 }))

theorem defaultRest_run (s : State) : ∃ u, defaultRest.run s = defaultPhase.run ((raise .STRATA_DEFAULT).run u) ∧
    R.STRATA_STAT.val 0 u = R.STRATA_STAT.val 0 s := by
  refine ⟨_, by rw [defaultRest, run_acts_cons, run_acts_cons, run_acts_cons, run_acts_cons, run_acts_cons, acts_two, defaultPhase, run_seq], ?_⟩
  rw [val_stores stores_defaultsSet (within_out (by decide) (by decide) 0), val_stores (A := offStrata) (stores_setStrata _) (within_out (by decide) (by decide) 0),
    val_set_apart (apart_of_away (by decide) (by decide) (by decide) 0 0), val_set_apart (apart_of_away (by decide) (by decide) (by decide) 0 0)]

theorem defaultPhase_regs (s : State) : (defaultPhase.run s).regs = ((F.PWR_STAT_PHASE.set 0 7).run s).regs := by
  rw [defaultPhase, run_seq, run_look]
  generalize (F.PWR_STAT_PHASE.set 0 7).run s = t
  cases t.pwr.mixOn <;> rfl

/-- Whatever the loader did, it falls to DEFAULT. -/
theorem loadDefault_inDefault {c : Nat} (hc : c < 16) (s : State) : InDefault c ((loadDefault c).run s) := by
  obtain ⟨hboot, hcause, hflag⟩ := defaultNamed_stat hc ((onlyIf s.strata.played blocksReset).run s)
  obtain ⟨u, hrun, hu⟩ := defaultRest_run (defaultNamed c ((onlyIf s.strata.played blocksReset).run s))
  have hphase := defaultPhase_regs ((raise .STRATA_DEFAULT).run u)
  have ha : Apart R.STRATA_STAT 0 0 R.PWR_STAT 0 0 := apart_of_away (by decide) (by decide) (by decide) 0 0
  have he : Apart R.SUMP_EVSTAT 0 0 R.PWR_STAT 0 0 := apart_of_away (by decide) (by decide) (by decide) 0 0
  have hraise : (raise .STRATA_DEFAULT 0 0 0 0).Stores raiseRegs := stores_raise _ _ _ _ _
  have hstat {f : Fld} (hr : f.reg = R.STRATA_STAT) : f.get 0 ((loadDefault c).run s) =
      f.get 0 (defaultNamed c ((onlyIf s.strata.played blocksReset).run s)) := by
    rw [loadDefault_run, hrun, get_congr hphase, Fld.get, hr, val_fset_apart ha,
      val_stores hraise (by unfold WordsOut; decide), hu, Fld.get, hr]
  refine ⟨(hstat rfl).trans hboot, (hstat rfl).trans hcause, (hstat rfl).trans hflag, ?_, ?_⟩
  · rw [Machine.phase, loadDefault_run, hrun, get_congr hphase]
    exact get_set_same F.PWR_STAT_PHASE (by decide) (by decide) 0 _
  · have hs := raise_sets .STRATA_DEFAULT 0 0 0 0 u
    show bitOf (R.SUMP_EVSTAT.val 0 _) _ = true
    rw [loadDefault_run, hrun, val_congr hphase, val_fset_apart he]
    exact hs

end Sys2Proof.Machine
end

