-- ==== Sys2Proof/Proofs/DramCommands.lean ====
section
/-! SUPPORT. The LPDDR5X controller: INIT, the end of initialization, and its configuration (R635–R637). -/

namespace Sys2Proof.Machine

theorem entryOf_dramCfg : entryOf R.DRAM_CFG = ⟨R.DRAM_CFG, [F.DRAM_CFG_SIZE, F.DRAM_CFG_RANKS, F.DRAM_CFG_RATE]⟩ := rfl

theorem dramCfg_fldsOk : FldsOk 1 [F.DRAM_CFG_SIZE, F.DRAM_CFG_RANKS, F.DRAM_CFG_RATE] := by unfold FldsOk; decide

theorem dramCfg_out (m : Nat) : WordsOut errRegs R.DRAM_CFG 0 m := out_zero rfl rfl (by decide) 0 m

theorem dramStat_get (f : Fld) (hr : f.reg = R.DRAM_STAT) {v : Nat} (hv : v < 2 ^ 32) (s : State) :
    f.get 0 ((R.DRAM_STAT.set 0 v).run s) = f.of v := by
  rw [Fld.get, hr, val_set, Fld.of]
  exact congrArg (fun v => bitsOf v f.hi f.lo) (Nat.mod_eq_of_lt hv)

/-- INIT is taken while the controller is neither READY nor BUSY (R636). -/
theorem wrDramCtrl_init {m : Nat} {s : State} (h : dramTaken s = false) :
    (wrDramCtrl m 1 (fullMask 1)).run s = (R.DRAM_STAT.set 0 2).run s := by
  rw [wrDramCtrl, run_look, if_neg (by decide), if_neg (by simp [h])]

section
variable {s : State} {ok : Bool}

/-- The controller's state at the end of initialization. -/
def dramEnded (ok : Bool) (s : State) : State := (R.DRAM_STAT.set 0 (if ok then 1 else 4)).run s

theorem dramDone_run (hb : F.DRAM_STAT_BUSY.on 0 s = true) : (dramDone ok).run s =
    (onlyIf (decide (boot s = 1) && decide (s.strata.hdr ≠ [])) (if ok then dramReady else loadDefault 3)).run (dramEnded ok s) := by
  rw [dramDone, run_look, if_neg (by simp [hb])]
  rfl

theorem dramEnded_stat (f : Fld) (hr : f.reg = R.DRAM_STAT) : f.get 0 (dramEnded ok s) = f.of (if ok then 1 else 4) :=
  dramStat_get f hr (by cases ok <;> decide) s

theorem dramEnded_apart {r : Reg} (h : r.awayFrom R.DRAM_STAT = true) (hn : 0 < dimsCount r.dims) :
    r.val 0 (dramEnded ok s) = r.val 0 s := val_set_apart (apart_of_away h hn (by decide) 0 0) _ s

theorem dramEnded_strata : (dramEnded ok s).strata = s.strata := by rw [dramEnded, rset_frame]

/-- An image that fits the memory is staged (R545). -/
theorem dramReady_stages (hw : s.strata.warmReq = false) (hlo : 0x80000000 ≤ stageAddr s) (hhi : stageAddr s + hdrField s 8 4 ≤ dramEnd s) :
    boot (dramReady.run s) = 2 := by
  rw [dramReady, run_look, if_neg (by simp; omega), hw, if_neg (by decide)]
  exact get_set_same F.STRATA_STAT_BOOT (by decide) (by decide) 0 s

theorem dramDone_boots (hb : F.DRAM_STAT_BUSY.on 0 s = true) (h1 : boot s = 1) (hh : s.strata.hdr ≠ []) (hw : s.strata.warmReq = false)
    (hlo : 0x80000000 ≤ stageAddr s) (hhi : stageAddr s + hdrField s 8 4 ≤ dramEnd s) :
    boot ((dramDone ok).run s) = if ok then 2 else 5 := by
  have hst : (dramEnded ok s).strata = s.strata := dramEnded_strata
  have hcond : (decide (boot s = 1) && decide (s.strata.hdr ≠ [])) = true := by simp [h1, hh]
  have hend : dramEnd (dramEnded ok s) = dramEnd s := by
    have hv : R.DRAM_CFG.val 0 (dramEnded ok s) = R.DRAM_CFG.val 0 s := dramEnded_apart (by decide) (by decide)
    unfold dramEnd Fld.get
    rw [show F.DRAM_CFG_SIZE.reg = R.DRAM_CFG from rfl, hv]
  have haddr : stageAddr (dramEnded ok s) = stageAddr s := by unfold stageAddr hdrField; rw [hst]
  have hlen : hdrField (dramEnded ok s) 8 4 = hdrField s 8 4 := by unfold hdrField; rw [hst]
  rw [dramDone_run hb, hcond, onlyIf_true]
  cases ok with
  | true => exact dramReady_stages (hst ▸ hw) (haddr ▸ hlo) (by rw [haddr, hlen, hend]; exact hhi)
  | false => exact (loadDefault_inDefault (by decide) _).boot

end

/-! ### Configuration -/

theorem wrDramCfg_stores {m v : Nat} {s : State} (h : dramTaken s = false) (hl : s.lock = false) (hs : F.DRAM_CFG_SIZE.of v < 3)
    (hr : F.DRAM_CFG_RATE.of v < 3) : let t := (wrDramCfg m v (fullMask 1)).run s
    F.DRAM_CFG_SIZE.get 0 t = F.DRAM_CFG_SIZE.of v ∧ F.DRAM_CFG_RATE.get 0 t = F.DRAM_CFG_RATE.of v ∧
      F.DRAM_CFG_RANKS.get 0 t = F.DRAM_CFG_RANKS.of v := by
  have hlk (b : Bool) : (b && s.lock) = false := by rw [hl, Bool.and_false]
  have hun {n : Nat} (h : n < 3) : n ∉ [3, 4, 5, 6, 7] := by simp; omega
  dsimp only
  rw [wrDramCfg, run_look, if_neg (by simp [h]), entryOf_dramCfg]
  exact ⟨stored_get rfl dramCfg_fldsOk (dramCfg_out m) rfl (by simp) rfl rfl (hlk _) (hun hs),
    stored_get rfl dramCfg_fldsOk (dramCfg_out m) rfl (by simp) rfl rfl (hlk _) (hun hr),
    stored_get rfl dramCfg_fldsOk (dramCfg_out m) rfl (by simp) rfl rfl (hlk _) (by simp [F.DRAM_CFG_RANKS])⟩

/-! ### The statement -/

/-- Settles O54: INIT and the end of initialization store `DRAM_STAT`, and a configuration is stored or dropped. -/
theorem dramCommandsComplete : Obligations.DramCommandsComplete := by
  intro m v s
  refine ⟨fun hreach h => ⟨_, rfl, ?_⟩, fun ok hb => ⟨fun h => ⟨_, rfl, ?_⟩, fun h1 hh hw hlo hhi => ⟨_, rfl, ?_⟩⟩,
    fun hreach h hl hs hr => ⟨_, rfl, ?_⟩, fun hreach h => ⟨_, rfl, ?_⟩⟩
  · obtain ⟨b, r, l, w, hrun⟩ := arrive_atTarget hreach 0xF 1 (wrDramCtrl m 1 (fullMask 1))
    rw [hrun, wrDramCtrl_init (s := atTarget b r l w s) h]
    exact ⟨dramStat_get F.DRAM_STAT_BUSY rfl (by decide) _, dramStat_get F.DRAM_STAT_READY rfl (by decide) _,
      dramStat_get F.DRAM_STAT_SR rfl (by decide) _⟩
  · have hcond : (decide (boot s = 1) && decide (s.strata.hdr ≠ [])) = false := by simp [h]
    rw [dramDone_run hb, hcond, onlyIf_false, run_done, dramEnded_stat _ rfl, dramEnded_stat _ rfl, dramEnded_stat _ rfl]
    cases ok <;> decide
  · exact dramDone_boots hb h1 hh hw hlo hhi
  · obtain ⟨b, r, l, w, hrun⟩ := arrive_atTarget hreach 0xF v.toNat (wrDramCfg m v.toNat (fullMask 1))
    rw [hrun]
    exact wrDramCfg_stores (s := atTarget b r l w s) h hl hs hr
  · obtain ⟨b, r, l, w, hrun⟩ := arrive_atTarget hreach 0xF v.toNat (wrDramCfg m v.toNat (fullMask 1))
    have hdrop : (wrDramCfg m v.toNat (fullMask 1)).run (atTarget b r l w s) = (dropped m (R.DRAM_CFG.addr 0)).run (atTarget b r l w s) := by
      rw [wrDramCfg, run_look, if_pos (show dramTaken (atTarget b r l w s) = true from h)]
    rw [hrun, hdrop]
    exact ⟨val_stores (stores_dropped ..) (dramCfg_out 0) _,
      (accessErr_logs (id := m) (by omega) (by decide) (show 3 < 4 by decide) true (atTarget b r l w s)).2.2.2.1⟩

end Sys2Proof.Machine
end

