-- ==== Sys2Proof/Proofs/EarlyMix.lean ====
section
/-! SUPPORT. The early mix and the restart of the tick (R571–R576). The updates of a mix and of a start spare what the loader and the power
unit hold. -/

namespace Sys2Proof.Machine

/-! ### Updates that spare the loader and the power unit -/

/-- The word is neither that of `PWR_STAT` nor one of the loader. -/
def bootFree (k : Nat) : Bool := decide (k ≠ 0x20140000) && offStrata k

/-- The update changes neither the loader nor the power unit, nor memory beyond the galleries G0 to G3. -/
def Upd.sparesBoot : Upd → Prop
  | .reg k _ => bootFree k = true
  | .mem a _ => a < 0x4000000
  | .pwr _ | .strata _ | .nodeReset _ => False
  | _ => True

theorem bootFree_of {k : Nat} (h : k < 0x20020000 ∨ 0x20030000 ≤ k) (h' : k ≠ 0x20140000) : bootFree k = true := by
  simp only [bootFree, outside, Bool.and_eq_true, Bool.or_eq_true, decide_eq_true_eq]
  exact ⟨h', h⟩

theorem bootFree_of_raise {k : Nat} (h : raiseRegs k = true) : bootFree k = true := by
  have hs := offStrata_raise h
  refine bootFree_of (by simpa [outside] using hs) ?_
  rintro rfl
  revert h
  decide

theorem within_kinds {ks : List Kind} {A : Nat → Bool} {p : Upd → Prop} {a : Act} (ht : a.Touches ks) (hs : a.Stores A)
    (h : ∀ u : Upd, u.kind ∈ ks → (∀ k v, u = .reg k v → A k = true) → (∀ b, u ≠ .nodeReset b) → p u) : a.Within p :=
  within_mono (fun u hu => by
    obtain ⟨hk, hst⟩ := hu
    refine h u hk (fun k v e => ?_) (fun b e => ?_)
    · subst e; exact hst
    · subst e; exact hst) (within_and ht hs)

theorem raise_sparesBoot (e : Ev) (d0 d1 d2 g : Nat) : (raise e d0 d1 d2 g).Within Upd.sparesBoot :=
  within_kinds (touches_raise e d0 d1 d2 g) (stores_raise e d0 d1 d2 g) fun u hk hr hn => by
    cases u with
    | reg k v => exact bootFree_of_raise (hr k v rfl)
    | mem => exact absurd hk (show Kind.mem ∉ raiseKinds by decide)
    | pwr => exact absurd hk (show Kind.pwr ∉ raiseKinds by decide)
    | strata => exact absurd hk (show Kind.strata ∉ raiseKinds by decide)
    | nodeReset b => exact (hn b rfl).elim
    | _ => trivial

section
variable {a : Act} (h : a.Within Upd.sparesBoot) (s : State)
include h

theorem spared_pwr : (a.run s).pwr = s.pwr :=
  within_keeps (f := (·.pwr)) h (fun u s hu => by
    cases u with
    | pwr | nodeReset => exact hu.elim
    | _ => rfl) s

theorem spared_strata : (a.run s).strata = s.strata :=
  within_keeps (f := (·.strata)) h (fun u s hu => by
    cases u with
    | strata | nodeReset => exact hu.elim
    | _ => rfl) s

theorem spared_stores : a.Stores bootFree := within_mono (fun u hu => by
  cases u with
  | reg k v => exact hu
  | nodeReset => exact hu.elim
  | _ => trivial) h

theorem spared_val {r : Reg} (hr : WordsOut bootFree r 0 0) : r.val 0 (a.run s) = r.val 0 s := val_stores (spared_stores h) hr s

theorem spared_get {f : Fld} (hr : WordsOut bootFree f.reg 0 0) : f.get 0 (a.run s) = f.get 0 s := get_stores (spared_stores h) hr s

theorem spared_phase : phase (a.run s) = phase s := spared_get h s (by unfold WordsOut; decide)

theorem spared_boot : boot (a.run s) = boot s := spared_get h s (by unfold WordsOut; decide)

end

/-! ### A start of the tick -/

theorem set_sparesBoot {r : Reg} {i m : Nat} (h : ∀ w < r.words, bootFree (r.key i w m) = true) (v : Nat) :
    (r.set i v m).Within Upd.sparesBoot := within_set fun w _ hw => h w hw

theorem fset_sparesBoot {f : Fld} {i m : Nat} (h : ∀ w < f.reg.words, bootFree (f.reg.key i w m) = true) (v : Nat) :
    (f.set i v m).Within Upd.sparesBoot := fun _ => set_sparesBoot h _

theorem fset_single {f : Fld} (hd : f.reg.dims = []) (hp : f.reg.perMaster = false) (h : ∀ w < f.reg.words, bootFree (f.reg.base + 4 * w) = true)
    (v : Nat) : (f.set 0 v).Within Upd.sparesBoot := fset_sparesBoot (fun w hw => by rw [key_zero hd hp]; exact h w hw) v

theorem showBudget_sparesBoot : showBudget.Within Upd.sparesBoot := fun _ =>
  ⟨fset_single rfl rfl (by decide) _, fset_single rfl rfl (by decide) _, fset_single rfl rfl (by decide) _⟩

theorem setMis_sparesBoot {n : Nat} (hn : n < 8) (num : Int) (den : Nat) : (setMis n num den).Within Upd.sparesBoot := by
  have mis (v : Nat) : (F.CLK_OUTMIS_MIS.set n v).Within Upd.sparesBoot := fset_sparesBoot (fun w hw => by
    rw [key_one (r := F.CLK_OUTMIS_MIS.reg) rfl rfl]
    have hb : F.CLK_OUTMIS_MIS.reg.base = R.CLK_OUTMIS.base := rfl
    have hlo : 0x20030000 ≤ R.CLK_OUTMIS.base := by decide
    have hhi : R.CLK_OUTMIS.base + 0x1000 ≤ 0x20140000 := by decide
    have hw : w < 1 := hw
    exact bootFree_of (by omega) (by omega)) v
  have both (x : Int) : (Act.look fun s => acts [F.CLK_OUTMIS_MIS.set n (ofInt 32 x),
      F.CLK_ALIGNPEND_PEND.set 0 (putBits (F.CLK_ALIGNPEND_PEND.get 0 s) n n (b2n (decide (den < num.natAbs))))]).Within Upd.sparesBoot :=
    fun s => ⟨mis _, fset_single rfl rfl (by decide) _⟩
  unfold setMis roundFree
  split
  · exact both _
  · exact within_draw_of (fun _ => trivial) fun _ => both _

theorem micJudge_sparesBoot (i : Nat) : (micJudge i).Within Upd.sparesBoot := by
  rw [micJudge, within_look]
  intro s
  dsimp only
  split
  · exact ⟨fun _ => trivial, raise_sparesBoot _ _ _ _ _⟩
  · split
    · exact fun _ => trivial
    · trivial

theorem rateTaken_sparesBoot : rateTaken.Within Upd.sparesBoot := by
  rw [rateTaken, within_look]
  intro s
  simp only [within_acts_cons, within_acts_nil, and_true]
  refine ⟨within_forEach.mpr fun g hg => fset_sparesBoot (fun w hw => ?_) _,
    fun _ => ⟨fun _ => trivial, within_forEach_of fun _ => raise_sparesBoot _ _ _ _ _⟩,
    fun s => within_forEach.mpr fun n hn => setMis_sparesBoot (List.mem_range.mp (List.mem_filter.mp hn).1) _ _,
    fun _ => within_forEach_of micJudge_sparesBoot, within_forEach_of fun _ _ => trivial⟩
  rw [key_one (r := F.RAMP_STAT_WORDS.reg) rfl rfl]
  have hg := List.mem_range.mp hg
  have hb : F.RAMP_STAT_WORDS.reg.base = 0xF10008 := rfl
  have hw : w < 1 := hw
  exact bootFree_of (by omega) (by omega)

theorem tickBegin_sparesBoot : tickBegin.Within Upd.sparesBoot := by
  rw [tickBegin, within_look]
  intro s
  split
  · trivial
  · exact ⟨fun _ => trivial, showBudget_sparesBoot, rateTaken_sparesBoot⟩

/-! ### A port of the mix -/

/-- The update spares the tick, its registers, and what the loader and the power unit hold. -/
def Upd.sparesMix (u : Upd) : Prop := u.sparesTick ∧ u.sparesBoot

theorem mix_set {r : Reg} {i m : Nat} (h : ∀ w < r.words, 0x20030000 ≤ r.key i w m ∧ r.key i w m ≠ 0x20140000) (v : Nat) :
    (r.set i v m).Within Upd.sparesMix := within_set fun w _ hw => by
  obtain ⟨hlo, hne⟩ := h w hw
  exact ⟨tickWord_off (by omega), bootFree_of (by omega) hne⟩

/-- A port register, whatever the number of the port: its words never meet that of `PWR_STAT`. -/
theorem mix_port {r : Reg} {n st : Nat} (hd : r.dims = [(n, st)]) (hp : r.perMaster = false) (hw : r.words = 1) (hst : st = 0x400)
    (hb : 0x20030000 ≤ r.base) (hm : r.base % 0x400 ≠ 0) (i v : Nat) : (r.set i v).Within Upd.sparesMix := mix_set (fun w hlt => by
  have hlt : w < 1 := hw ▸ hlt
  rw [key_one hd hp, hst]
  omega) v

theorem mix_of_raise (e : Ev) (d0 d1 d2 g : Nat) : (raise e d0 d1 d2 g).Within Upd.sparesMix :=
  within_and (spares_raise e d0 d1 d2 g) (raise_sparesBoot e d0 d1 d2 g)

theorem mix_setSap (f : SapState → SapState) : (setSap f).Within Upd.sparesMix := fun _ => ⟨trivial, trivial⟩

theorem mix_setSapDir (n d : Nat) (f : SapDir → SapDir) : (setSapDir n d f).Within Upd.sparesMix := mix_setSap _

theorem mix_sapTo (n d : Nat) (st : SapSt) : (sapTo n d st).Within Upd.sparesMix := by
  have stat (f : Fld) (hf : f.reg = R.SAP_STAT) (v : Nat) : (f.set n v).Within Upd.sparesMix := fun s => by
    rw [hf]
    exact mix_port rfl rfl rfl rfl (by decide) (by decide) _ _
  rw [sapTo, within_look]
  intro s
  refine ⟨mix_setSapDir _ _ _, within_ite (stat F.SAP_STAT_RXSTATE rfl _) (stat F.SAP_STAT_TXSTATE rfl _), within_ite ?_ ?_⟩
  · exact mix_port rfl rfl rfl rfl (by decide) (by decide) _ _
  · exact mix_port rfl rfl rfl rfl (by decide) (by decide) _ _

theorem mix_sapOut (n d p : Nat) : (sapOut n d p).Within Upd.sparesMix := ⟨mix_sapTo _ _ _, mix_setSapDir _ _ _⟩

theorem mix_asrcUnlock (n d : Nat) (quiet : Bool) : (asrcUnlock n d quiet).Within Upd.sparesMix := fun _ =>
  ⟨mix_sapTo _ _ _, mix_setSapDir _ _ _, (within_onlyIf _ _).mpr fun _ => mix_of_raise _ _ _ _ _⟩

theorem mix_sapEnd (n d : Nat) : (sapEnd n d).Within Upd.sparesMix := ⟨mix_sapTo _ _ _, mix_setSapDir _ _ _⟩

theorem mix_ropeConflict : ropeConflict.Within Upd.sparesMix := fun _ => (within_onlyIf _ _).mpr fun _ _ =>
  mix_set (fun w hw => by
    have hw : w < 1 := hw
    have hb : F.ROPE_STAT_CONFLICT.reg.base = 0x20060008 := rfl
    rw [key_zero rfl rfl]
    omega) _

theorem mix_clocksShow : clocksShow.Within Upd.sparesMix := fun _ =>
  within_forEach_of fun _ => (within_onlyIf _ _).mpr fun _ => mix_setSap _

theorem mix_sapClkApplied (p old : Nat) : (sapClkApplied p old).Within Upd.sparesMix := fun s => by
  refine (within_onlyIf _ _).mpr fun _ => ⟨(within_onlyIf _ _).mpr fun _ => mix_setSap _, mix_clocksShow, mix_ropeConflict,
    within_forEach_of fun e t => (within_onlyIf _ _).mpr fun _ => ⟨within_ite (mix_asrcUnlock _ _ _) (mix_sapOut _ _ _), mix_setSapDir _ _ _⟩⟩

theorem mix_sapCfgApplied (n d old : Nat) : (sapCfgApplied n d old).Within Upd.sparesMix := by
  have hstop : (acts [F.SAP_STAT_TXSTATE.set n 0, R.SAP_TXRATIO.set n 0, setSapDir n 1 fun x => { x with ending := true }]).Within
      Upd.sparesMix := ⟨fun s => mix_port (r := R.SAP_STAT) rfl rfl rfl rfl (by decide) (by decide) _ _,
        mix_port rfl rfl rfl rfl (by decide) (by decide) _ _, mix_setSapDir _ _ _⟩
  refine ⟨fun s => (within_onlyIf _ _).mpr fun _ => mix_sapEnd _ _, fun s => ⟨within_ite ?_ (within_ite ?_ (within_ite ?_ ?_)), mix_ropeConflict⟩⟩
  · exact (within_onlyIf _ _).mpr fun _ => ⟨mix_setSapDir _ _ _, within_ite hstop (mix_sapEnd _ _)⟩
  · exact (within_onlyIf _ _).mpr fun _ => ⟨within_ite (mix_asrcUnlock _ _ _) (mix_sapOut _ _ _), mix_setSapDir _ _ _⟩
  · exact (within_onlyIf _ _).mpr fun _ => mix_sapTo _ _ _
  · exact mix_setSapDir _ _ _

theorem mix_setBoth {r : Reg} (hd : r.dims = [(32, 0x400)]) (hp : r.perMaster = false) (hw : r.words = 1)
    (hb : 0x20070000 ≤ r.base) (hb' : r.base < 0x20070400) {n : Nat} (hn : n < 32) (v : Nat) : (setBoth r n v).Within Upd.sparesMix :=
  ⟨mix_set (fun w hlt => by
    have hlt : w < 1 := hw ▸ hlt
    rw [key_one hd hp]
    omega) v, within_forEach_of fun _ => ⟨trivial, trivial⟩⟩

theorem mix_mixSap {n : Nat} (hn : n < 32) (clk dir slots : Nat) : (mixSap n clk dir slots).Within Upd.sparesMix := fun s =>
  ⟨mix_setBoth rfl rfl rfl (by decide) (by decide) hn _, mix_sapClkApplied _ _, mix_setBoth rfl rfl rfl (by decide) (by decide) hn _,
    mix_setBoth rfl rfl rfl (by decide) (by decide) hn _, mix_setBoth rfl rfl rfl (by decide) (by decide) hn _, mix_sapCfgApplied _ _ _,
    mix_setBoth rfl rfl rfl (by decide) (by decide) hn _, mix_sapCfgApplied _ _ _⟩

theorem mix_romFill : romFill.Within Upd.sparesMix := fun s => by
  refine ⟨within_forEach.mpr fun c hc => ⟨trivial, ?_⟩, within_forEach.mpr fun p hp => ?_, within_forEach_of fun _ => ⟨trivial, trivial⟩,
    fun _ => ⟨trivial, trivial⟩, fun _ => ⟨trivial, trivial⟩⟩
  · show c.1 < 0x4000000
    exact of_decide_eq_true (List.mem_filter.mp hc).2
  · have hk := (List.mem_filter.mp hp).2
    simp only [rampTgtC0, Bool.and_eq_true, decide_eq_true_eq] at hk
    obtain ⟨⟨hlt, -⟩, -⟩ := hk
    exact ⟨tickWord_off (by omega), bootFree_of (by omega) (by omega)⟩

theorem mix_portsOff : mixPortsOff.Within Upd.sparesMix :=
  within_forEach.mpr fun _ hn _ => (within_onlyIf _ _).mpr fun _ => mix_mixSap (List.mem_range.mp hn) _ _ _

/-! ### The commands -/

theorem mix_setPwr_tick (f : PwrState → PwrState) : (setPwr f).Within Upd.sparesTick := fun _ => trivial

/-- What comes before the start of the tick in an early mix: the power unit's own record aside, all of it spares what the loader and the
power unit hold. -/
def mixSet (s : State) : Act := acts [
  onlyIf (hdrField s 38 2 = 0) (F.PWR_BOOT_EMIXSRC.set 0 1), romFill,
  setPwr fun p => { p with mix := (mixTerms s).filter fun t => decide (-240 < t.gain), mixOn := true, fade := none },
  forEach ((List.range 32).filter (mixPort s (mixTerms s))) fun n =>
    mixSap n (if s.pins.emixFmt then 0x12080000 else 0x52380000) (2 ^ 31 + n * 2 ^ 20 + 8 * n) (2 ^ mixChans s - 1)]

section
variable {s : State} (ha : asleep s = false) (hb : boot s = 1 ∨ boot s = 2) (hh : s.strata.hdr ≠ []) (hp : phase s = 0)
  (hc : s.clk.up = true) (hr : running s = false) (hm : s.pwr.mixOn = false) (ht : mixTerms s ≠ [])
include ha hb hh hp hc hr hm ht

theorem mixStart_run : mixStart.run s =
    (F.PWR_STAT_PHASE.set 0 1).run (tickBegin.run ((F.TICK_CTRL_RUN.set 0 1).run ((mixSet s).run s))) := by
  have hg : (asleep s || !(boot s = 1 || boot s = 2) || s.strata.hdr = [] || phase s ≠ 0 || !s.clk.up || running s || s.pwr.mixOn) = false := by
    rcases hb with hb | hb <;> simp [ha, hb, hh, hp, hc, hr, hm]
  unfold mixStart
  rw [run_look]
  simp only [hg, ht, decide_false, Bool.false_and, Bool.false_eq_true, if_false]
  rfl

end

theorem emix_within (s : State) : (onlyIf (hdrField s 38 2 = 0) (F.PWR_BOOT_EMIXSRC.set 0 1)).Within Upd.sparesMix :=
  (within_onlyIf _ _).mpr fun _ _ => mix_set (fun w hw => by
    have hw : w < 1 := hw
    have hb : F.PWR_BOOT_EMIXSRC.reg.base = 0x20140004 := rfl
    rw [key_zero rfl rfl]
    omega) _

theorem mixPorts_within (s : State) (ts : List MixTerm) (clk : Nat) (dir : Nat → Nat) (slots : Nat) :
    (forEach ((List.range 32).filter (mixPort s ts)) fun n => mixSap n clk (dir n) slots).Within Upd.sparesMix :=
  within_forEach.mpr fun _ hn => mix_mixSap (List.mem_range.mp (List.mem_filter.mp hn).1) _ _ _

theorem mixSet_tick (s : State) : (mixSet s).Within Upd.sparesTick := by
  have hleft {a : Act} (h : a.Within Upd.sparesMix) : a.Within Upd.sparesTick := within_mono (fun _ => And.left) h
  exact ⟨hleft (emix_within s), hleft mix_romFill, mix_setPwr_tick _, hleft (mixPorts_within _ _ _ _ _)⟩

theorem mixSet_pwr (s : State) : ((mixSet s).run s).pwr.mixOn = true ∧
    ((mixSet s).run s).pwr.mix = (mixTerms s).filter fun t => decide (-240 < t.gain) := by
  have hright {a : Act} (h : a.Within Upd.sparesMix) : a.Within Upd.sparesBoot := within_mono (fun _ => And.right) h
  rw [mixSet, acts_four, spared_pwr (hright (mixPorts_within _ _ _ _ _))]
  exact ⟨rfl, rfl⟩

theorem runSet_sparesBoot (v : Nat) : (F.TICK_CTRL_RUN.set 0 v).Within Upd.sparesBoot := fset_single rfl rfl (by decide) v

theorem phaseSet_tick (v : Nat) : (F.PWR_STAT_PHASE.set 0 v).Within Upd.sparesTick := spares_clk rfl rfl (by decide) v

theorem phase_set {v : Nat} (hv : v < 2 ^ F.PWR_STAT_PHASE.width) (s : State) : phase ((F.PWR_STAT_PHASE.set 0 v).run s) = v :=
  get_set_same F.PWR_STAT_PHASE (by decide) hv 0 s

theorem running_runSet (v : Nat) (s : State) : running ((F.TICK_CTRL_RUN.set 0 v).run s) = running s := by
  have h : F.TICK_STAT_RUNNING.get 0 ((F.TICK_CTRL_RUN.set 0 v).run s) = F.TICK_STAT_RUNNING.get 0 s :=
    get_set_apart _ _ (apart_of_away (by decide) (by decide) (by decide) 0 0) ..
  unfold running Fld.on
  rw [h]

/-- RUN is set and the tick begins, and the phase goes on. -/
theorem tickStart_phase {s : State} (hr : running s = false) (hs : s.tick.starting = false) {v : Nat} (hv : v < 2 ^ F.PWR_STAT_PHASE.width) :
    let t := (F.PWR_STAT_PHASE.set 0 v).run (tickBegin.run ((F.TICK_CTRL_RUN.set 0 1).run s))
    t.pwr = s.pwr ∧ t.tick.starting = true ∧ F.TICK_CTRL_RUN.get 0 t = 1 ∧ phase t = v := by
  have hr' : running ((F.TICK_CTRL_RUN.set 0 1).run s) = false := (running_runSet 1 s).trans hr
  have hs' : ((F.TICK_CTRL_RUN.set 0 1).run s).tick.starting = false := by rw [fset_frame]; exact hs
  obtain ⟨htick, hrun⟩ := tickBegin_starts hr' hs'
  dsimp only
  refine ⟨?_, ?_, ?_, phase_set hv _⟩
  · rw [fset_frame]
    exact (spared_pwr tickBegin_sparesBoot _).trans (spared_pwr (runSet_sparesBoot 1) s)
  · rw [spares_tick (phaseSet_tick v), htick]
  · rw [spares_run (phaseSet_tick v), hrun]
    exact get_set_same F.TICK_CTRL_RUN (by decide) (by decide) 0 s

/-- The early mix starts (R572–R574). -/
theorem mixStart_starts {s : State} (ha : asleep s = false) (hb : boot s = 1 ∨ boot s = 2) (hh : s.strata.hdr ≠ []) (hp : phase s = 0)
    (hc : s.clk.up = true) (hr : running s = false) (hs : s.tick.starting = false) (hm : s.pwr.mixOn = false) (ht : mixTerms s ≠ []) :
    let t := mixStart.run s
    t.pwr.mixOn = true ∧ t.pwr.mix = (mixTerms s).filter (fun x => decide (-240 < x.gain)) ∧ t.tick.starting = true ∧
      F.TICK_CTRL_RUN.get 0 t = 1 ∧ phase t = 1 := by
  have htick := mixSet_tick s
  obtain ⟨hon, hmix⟩ := mixSet_pwr s
  obtain ⟨hpwr, hstart, hrun, hphase⟩ := tickStart_phase (s := (mixSet s).run s) (v := 1) ((spares_running htick s).trans hr)
    ((congrArg TickState.starting (spares_tick htick s)).trans hs) (by decide)
  dsimp only
  rw [mixStart_run ha hb hh hp hc hr hm ht]
  exact ⟨by rw [hpwr, hon], by rw [hpwr, hmix], hstart, hrun, hphase⟩

/-- The mix ends with its fade, and on the way to the base layer RUN is cleared (R575, R576). -/
theorem mixEnd_ends {s : State} {k : Nat} (hm : s.pwr.mixOn = true) (hf : s.pwr.fade = some k) (hk : 480 ≤ k * spt s) :
    let t := mixEnd.run s
    t.pwr.mixOn = false ∧ t.pwr.mix = [] ∧ t.pwr.fade = none ∧ (phase s = 2 → F.TICK_CTRL_RUN.get 0 t = 0 ∧ phase t = 3) ∧
      (phase s ≠ 2 → phase t = phase s) := by
  have hoff : mixPortsOff.Within Upd.sparesBoot := within_mono (fun _ => And.right) mix_portsOff
  have hrun : mixEnd.run s = (onlyIf (phase s = 2) (.seq (F.TICK_CTRL_RUN.set 0 0) (F.PWR_STAT_PHASE.set 0 3))).run
      (mixPortsOff.run ((Upd.pwr { s.pwr with mixOn := false, fade := none, mix := [] }).apply s)) := by
    unfold mixEnd
    rw [run_look, hf]
    simp only [hm, hk, decide_true, Bool.not_true, Bool.or_self, Bool.false_eq_true, if_false]
    rfl
  have hp : phase (mixPortsOff.run ((Upd.pwr { s.pwr with mixOn := false, fade := none, mix := [] }).apply s)) = phase s :=
    spared_phase hoff _
  have hpwr : (mixPortsOff.run ((Upd.pwr { s.pwr with mixOn := false, fade := none, mix := [] }).apply s)).pwr =
      { s.pwr with mixOn := false, fade := none, mix := [] } := spared_pwr hoff _
  dsimp only
  rw [hrun]
  by_cases h2 : phase s = 2
  · simp only [onlyIf, h2, decide_true, if_true, ne_eq, not_true_eq_false, false_implies, and_true, true_implies]
    rw [run_seq, fset_frame F.PWR_STAT_PHASE, fset_frame F.TICK_CTRL_RUN]
    refine ⟨by rw [hpwr], by rw [hpwr], by rw [hpwr], ?_, ?_⟩
    · rw [← fset_frame F.TICK_CTRL_RUN, ← fset_frame F.PWR_STAT_PHASE, spares_run (phaseSet_tick 3)]
      exact get_set_same F.TICK_CTRL_RUN (by decide) (by decide) 0 _
    · rw [← fset_frame F.TICK_CTRL_RUN, ← fset_frame F.PWR_STAT_PHASE]
      exact phase_set (by decide) _
  · simp only [onlyIf, h2, decide_false, Bool.false_eq_true, if_false, run_done, ne_eq, not_false_eq_true, true_implies, false_implies, true_and]
    exact ⟨by rw [hpwr], by rw [hpwr], by rw [hpwr], hp⟩

/-- Step 4 of R575, once PTPWAIT has passed. -/
theorem tickRestart_starts {s : State} (hp : phase s = 4) (hb : boot s = 4) (hr : running s = false) (hs : s.tick.starting = false)
    (he : passed s.strata.endAt (msCycles (F.PWR_BOOT_PTPWAIT.get 0 s) s) s = true) : let t := (tickRestart true).run s
    F.TICK_CTRL_RUN.get 0 t = 1 ∧ t.tick.starting = true ∧ phase t = 5 := by
  have hrun : (tickRestart true).run s = (F.PWR_STAT_PHASE.set 0 5).run (tickBegin.run ((F.TICK_CTRL_RUN.set 0 1).run s)) := by
    unfold tickRestart
    rw [run_look]
    simp only [hp, hb, he, decide_true, Bool.true_or, Bool.and_self, if_true]
    rfl
  obtain ⟨-, hstart, hone, hphase⟩ := tickStart_phase hr hs (v := 5) (by decide)
  dsimp only
  rw [hrun]
  exact ⟨hone, hstart, hphase⟩

/-- Settles O51: one lemma for each of the three commands; what a mix does to the ports spares the power unit and the tick. -/
theorem bringUpCommandsComplete : Obligations.BringUpCommandsComplete := fun _ =>
  ⟨fun ha hb hh hp hc hr hs hm ht => ⟨_, rfl, mixStart_starts ha hb hh hp hc hr hs hm ht⟩,
    fun _ hm hf hk => ⟨_, rfl, mixEnd_ends hm hf hk⟩,
    fun hp hb hr hs he => ⟨_, rfl, tickRestart_starts hp hb hr hs he⟩⟩

end Sys2Proof.Machine
end

