-- ==== Sys2Proof/Proofs/ImageLoading.lean ====
section
/-! SUPPORT. The loading of an image: the header block and its preamble, the copy into LPDDR5X and its check (R541–R550). -/

namespace Sys2Proof.Machine

/-! ### What the ROM does before the header -/

/-- The word is neither one of the loader nor one of the LPDDR5X controller. -/
def loadOff (k : Nat) : Bool := offStrata k && outside 0x20120000 0x20120010 k

/-- The update stores words of `A` alone, and changes neither the loader's own state nor what the power unit holds. -/
def Upd.sparesLoader (A : Nat → Bool) : Upd → Prop
  | .reg k _ => A k = true
  | .lock _ | .pwr _ | .strata _ | .nodeReset _ => False
  | _ => True

theorem loadOff_of {k : Nat} (h : k < 0x20020000 ∨ 0x20030000 ≤ k ∧ k < 0x20120000 ∨ 0x20120010 ≤ k) : loadOff k = true := by
  simp only [loadOff, offStrata, outside, Bool.and_eq_true, Bool.or_eq_true, decide_eq_true_eq]
  omega

theorem loadOff_raise {k : Nat} (h : raiseRegs k = true) : loadOff k = true := by
  have b1 : R.ROPE_STAT.base = 0x20060008 := rfl
  have b2 : R.PAIR_STAT.base = 0x20110008 := rfl
  have b3 : R.PAIR_HIST.base = 0x2011000C := rfl
  unfold raiseRegs at h
  rw [b1, b2, b3] at h
  simp only [Bool.or_eq_true, Bool.and_eq_true, decide_eq_true_eq] at h
  exact loadOff_of (by omega)

theorem within_spares {A : Nat → Bool} {ks : List Kind} {a : Act} (ht : a.Touches ks) (hs : a.Stores A)
    (hk : Kind.lock ∉ ks ∧ Kind.pwr ∉ ks ∧ Kind.strata ∉ ks) : a.Within (Upd.sparesLoader A) :=
  within_kinds ht hs fun u hu hr hn => by
    obtain ⟨hlock, hpwr, hstrata⟩ := hk
    cases u with
    | reg k v => exact hr k v rfl
    | lock => exact hlock hu
    | pwr => exact hpwr hu
    | strata => exact hstrata hu
    | nodeReset b => exact (hn b rfl).elim
    | _ => trivial

theorem raise_sparesLoad (e : Ev) (d0 d1 d2 g : Nat) : (raise e d0 d1 d2 g).Within (Upd.sparesLoader loadOff) :=
  within_spares (touches_raise e d0 d1 d2 g) (stores_mono (stores_raise e d0 d1 d2 g) fun _ => loadOff_raise) (by decide)

section
variable {A : Nat → Bool} {a : Act} (h : a.Within (Upd.sparesLoader A)) (s : State)
include h

theorem loadSpared_pwr : (a.run s).pwr = s.pwr :=
  within_keeps (f := (·.pwr)) h (fun u s hu => by
    cases u with
    | pwr | nodeReset => exact hu.elim
    | _ => rfl) s

theorem loadSpared_lock : (a.run s).lock = s.lock :=
  within_keeps (f := (·.lock)) h (fun u s hu => by
    cases u with
    | lock | nodeReset => exact hu.elim
    | _ => rfl) s

theorem loadSpared_strata : (a.run s).strata = s.strata :=
  within_keeps (f := (·.strata)) h (fun u s hu => by
    cases u with
    | strata | nodeReset => exact hu.elim
    | _ => rfl) s

theorem loadSpared_val {r : Reg} (hr : WordsOut A r 0 0) : r.val 0 (a.run s) = r.val 0 s :=
  val_stores (within_mono (fun u hu => by
    cases u with
    | reg k v => exact hu
    | nodeReset => exact hu.elim
    | _ => trivial) h) hr s

end

theorem loadOff_in {r : Reg} {i : Nat} (h : ∀ w < r.words, r.key i w 0 < 0x20020000) (v : Nat) : (r.set i v).Within (Upd.sparesLoader loadOff) :=
  within_set fun w _ hw => loadOff_of (.inl (h w hw))

/-- A single register of the system block. -/
theorem sysSet_within {r : Reg} (hd : r.dims = []) (hp : r.perMaster = false) (hb : r.base + 4 * r.words ≤ 0x20020000) (v : Nat) :
    (r.set 0 v).Within (Upd.sparesLoader loadOff) := loadOff_in (fun w hw => by rw [key_zero hd hp]; omega) v

theorem sysInc_within {f : Fld} (hd : f.reg.dims = []) (hp : f.reg.perMaster = false) (hb : f.reg.base + 4 * f.reg.words ≤ 0x20020000) (n : Nat) :
    (f.inc 0 n).Within (Upd.sparesLoader loadOff) := fun _ _ => sysSet_within hd hp hb _

theorem zeroRampWord_within {i : Nat} (hi : i < 16 * 4096) (w : Nat) : (zeroRampWord i w).Within (Upd.sparesLoader loadOff) := by
  unfold zeroRampWord
  split
  · refine loadOff_in (fun w hw => ?_) _
    have hw : w < 2 := hw
    have hk : R.RAMP_TGT.key i w 0 = 0xF18000 + (i / 4096 * 0x1000000 + i % 4096 * 8) + 4 * w := by
      simp [Reg.key, Reg.addr, R.RAMP_TGT, dimsOfs, dimsCount]
    omega
  · exact fun _ => trivial
  · exact fun _ => trivial
  · exact fun _ => trivial

theorem zeroUnit_within {inst addr n : Nat} (h : remapSize inst addr = some n) : (zeroUnit inst addr).Within (Upd.sparesLoader loadOff) := by
  have hmem (a n v : Nat) : (memSetLe a n v).Within (Upd.sparesLoader loadOff) := within_forEach_of fun _ => trivial
  have hlat : inst / 4096 = 9 → addr < 4096 := fun hc => by
    simp only [remapSize, hc] at h
    split at h
    · cases h
    · split at h
      · simp_all
      · cases h
  have hramp : inst / 4096 = 5 → addr < 16384 := fun hc => by
    simp only [remapSize, hc] at h
    split at h
    · cases h
    · split at h
      · simp_all
      · cases h
  unfold zeroUnit
  dsimp only
  split <;> rename_i hc
  · exact hmem _ _ _
  · exact hmem _ _ _
  · exact hmem _ _ _
  · exact hmem _ _ _
  · exact zeroRampWord_within (by have := hramp hc; omega) _
  · exact hmem _ _ _
  · exact fun _ => trivial
  · exact fun _ => trivial
  · refine loadOff_in (fun w hw => ?_) _
    have hw : w < 2 := hw
    have hb : R.TICK_LAT.base = 0x20018000 := rfl
    have := hlat hc
    rw [key_one rfl rfl]
    omega
  · trivial

theorem ceReport_within (k bit : Nat) : (ceReport k bit).Within (Upd.sparesLoader loadOff) := by
  rw [ceReport, within_look]
  intro s
  split
  · exact fun _ => trivial
  · exact sysInc_within rfl rfl (by decide) _

theorem ueNote_within (k req : Nat) (ev : Option Ev) : (ueNote k req ev).Within (Upd.sparesLoader loadOff) := by
  intro s
  refine ⟨sysInc_within rfl rfl (by decide) _, (within_onlyIf _ _).mpr fun _ => sysSet_within rfl rfl (by decide) _, fun _ => trivial, ?_⟩
  cases ev with
  | none => trivial
  | some e => exact raise_sparesLoad e _ _ _ _

theorem eccJudge_within {ms : List (Nat × EccMark)} {req : Nat} {ev : Option Ev} {k : Bool → Act}
    (h : ∀ ok, (k ok).Within (Upd.sparesLoader loadOff)) :
    (eccJudge ms req ev k).Within (Upd.sparesLoader loadOff) := by
  refine ⟨within_forEach_of fun p => ?_, h _⟩
  split
  · exact ceReport_within _ _
  · exact ueNote_within _ _ _

theorem remapDo_within (inst addr : Nat) : (remapDo inst addr false).Within (Upd.sparesLoader loadOff) := by
  rw [remapDo, within_look]
  intro s
  dsimp only
  split
  · trivial
  · next n hn =>
    refine within_ite trivial (within_ite trivial (eccJudge_within fun ok => ⟨?_, fun _ => trivial, trivial⟩))
    exact (within_onlyIf _ _).mpr fun _ => zeroUnit_within hn

theorem romStart_within : romStart.Within (Upd.sparesLoader loadOff) := by
  have hlist (v : Nat) : (F.SYS_REMAP_RES_LIST_BAD.set 0 v).Within (Upd.sparesLoader loadOff) := fun _ => sysSet_within rfl rfl (by decide) _
  have hremap : remapList.Within (Upd.sparesLoader loadOff) := fun s => by
    refine fun s => eccJudge_within fun ok => within_ite ⟨hlist _, within_forEach_of fun i => remapDo_within _ _⟩ (hlist _)
  have hscan : jrnlScan.Within (Upd.sparesLoader loadOff) := fun s =>
    (within_onlyIf _ _).mpr fun _ => within_forEach_of fun j s s => eccJudge_within fun _ => trivial
  refine ⟨hremap, hscan, fun s => ?_⟩
  dsimp only
  split
  · exact ⟨sysSet_within rfl rfl (by decide) _, fun _ => sysSet_within rfl rfl (by decide) _⟩
  · trivial

/-! ### The preamble -/

/-- What a register write of the preamble leaves: the loader with its registers, the supplies, and LPDDR5X that is not READY. -/
structure Held (s t : State) : Prop where
  strata : t.strata = s.strata
  pwr : t.pwr = s.pwr
  regs : ∀ r : Reg, WordsOut offStrata r 0 0 → r.val 0 t = r.val 0 s
  ready : F.DRAM_STAT_READY.on 0 s = false → F.DRAM_STAT_READY.on 0 t = false

theorem Held.trans {s t u : State} (h : Held s t) (h' : Held t u) : Held s u :=
  ⟨h'.strata.trans h.strata, h'.pwr.trans h.pwr, fun r hr => (h'.regs r hr).trans (h.regs r hr), fun hs => h'.ready (h.ready hs)⟩

theorem held_of_spares {a : Act} (h : a.Within (Upd.sparesLoader offStrata)) {s : State}
    (hr : F.DRAM_STAT_READY.on 0 s = false → F.DRAM_STAT_READY.on 0 (a.run s) = false) : Held s (a.run s) :=
  ⟨loadSpared_strata h s, loadSpared_pwr h s, fun _ hw => loadSpared_val h s hw, hr⟩

/-- The word is neither one of the loader nor `DRAM_STAT`. -/
def statOff (k : Nat) : Bool := offStrata k && outside 0x20120008 0x2012000C k

theorem statOff_err {k : Nat} (h : errRegs k = true) : statOff k = true := by
  simp only [errRegs, Bool.or_eq_true, Bool.and_eq_true, decide_eq_true_eq] at h
  rcases h with h | ⟨hlo, hhi⟩
  · have := loadOff_raise h
    simp only [loadOff, statOff, offStrata, outside, Bool.and_eq_true, Bool.or_eq_true, decide_eq_true_eq] at this ⊢
    omega
  · simp only [statOff, offStrata, outside, Bool.and_eq_true, Bool.or_eq_true, decide_eq_true_eq]
    omega

theorem held_of_statOff {a : Act} {ks : List Kind} (ht : a.Touches ks) (hs : a.Stores statOff)
    (hk : Kind.lock ∉ ks ∧ Kind.pwr ∉ ks ∧ Kind.strata ∉ ks) (s : State) : Held s (a.run s) := by
  have hstat : R.DRAM_STAT.val 0 (a.run s) = R.DRAM_STAT.val 0 s := val_stores hs (by unfold WordsOut; decide) s
  refine held_of_spares (within_spares ht (stores_mono hs fun k hk => ?_) hk) fun hr => ?_
  · simp only [statOff, Bool.and_eq_true] at hk
    exact hk.1
  · unfold Fld.on Fld.get at hr ⊢
    rw [show F.DRAM_STAT_READY.reg = R.DRAM_STAT from rfl] at hr ⊢
    rw [hstat, hr]

theorem held_dropped (m a : Nat) (s : State) : Held s ((dropped m a).run s) :=
  held_of_statOff (touches_dropped m a) (stores_mono (stores_dropped m a) fun _ => statOff_err) (by decide) s

theorem held_refl (s : State) : Held s s := ⟨rfl, rfl, fun _ _ => rfl, id⟩

theorem held_wrDramCfg (m v mask : Nat) (s : State) : Held s ((wrDramCfg m v mask).run s) := by
  have hw : WordsIn statOff (entryOf R.DRAM_CFG).reg 0 m := fun w hw => by
    have hw : w < 1 := hw
    rw [entryOf_dramCfg, key_zero rfl rfl, show R.DRAM_CFG.base = 0x20120000 from rfl]
    simp only [statOff, offStrata, outside, Bool.and_eq_true, Bool.or_eq_true, decide_eq_true_eq]
    omega
  rw [wrDramCfg, run_look]
  split
  · exact held_dropped _ _ s
  · exact held_of_statOff (touches_storeWrite _ _ _ _ _ _ _ _) (stores_storeWrite _ _ _ _ _ _ _ _ _ hw fun _ => statOff_err) (by decide) s

theorem held_wrDramCtrl (m v mask : Nat) (s : State) : Held s ((wrDramCtrl m v mask).run s) := by
  rw [wrDramCtrl, run_look]
  split
  · exact held_refl s
  · split
    · exact held_dropped _ _ s
    · refine held_of_spares (within_set fun w _ hw => ?_) fun _ => ?_
      · have hw : w < 1 := hw
        show offStrata _ = true
        rw [key_zero rfl rfl, show R.DRAM_STAT.base = 0x20120008 from rfl]
        simp only [offStrata, outside, Bool.or_eq_true, decide_eq_true_eq]
        omega
      · rw [Fld.on, dramStat_get _ rfl (by decide)]
        decide

/-- An entry of the preamble is a whole register write, which the loader makes as master 0. -/
def preambleWrite (a v : Nat) : Act := busAccess (.master 0) a (.write .b4 (BitVec.ofNat 64 v))

section
variable {s : State} {a v : Nat} (hs : asleep s = false)
include hs

theorem loader_reaches (a : Nat) : WriteReaches (0 : Master) a s := ⟨hs, by simp [standbyDrops, hostMaster]⟩

theorem preambleWrite_cfg (v : Nat) : ∃ b r l w e, (preambleWrite (R.DRAM_CFG.addr 0) v).run s =
    (respond 0 [] e).run ((wrDramCfg 0 (v % 2 ^ 64 % 2 ^ 32) (fullMask 1)).run (atTarget b r l w s)) := by
  obtain ⟨b, r, l, w, e, hrun⟩ := busAccess_writeReg (m := 0) (v := BitVec.ofNat 64 v) (p := ⟨entryOf R.DRAM_CFG, 0, 0, false⟩)
    (loader_reaches hs (R.DRAM_CFG.addr 0)) (fun h => absurd h (by decide)) (by decide) (by unfold peripheral; decide) rfl false
  rw [BitVec.toNat_ofNat, regWrite_word (by decide) rfl (by decide) rfl] at hrun
  exact ⟨b, r, l, w, e, hrun⟩

theorem preambleWrite_ctrl (v : Nat) : ∃ b r l w e, (preambleWrite (R.DRAM_CTRL.addr 0) v).run s =
    (respond 0 [] e).run ((wrDramCtrl 0 (v % 2 ^ 64 % 2 ^ 32) (fullMask 1)).run (atTarget b r l w s)) := by
  obtain ⟨b, r, l, w, e, hrun⟩ := busAccess_writeReg (m := 0) (v := BitVec.ofNat 64 v) (p := ⟨entryOf R.DRAM_CTRL, 0, 0, false⟩)
    (loader_reaches hs (R.DRAM_CTRL.addr 0)) (fun h => absurd h (by decide)) (by decide) (by unfold peripheral; decide) rfl false
  rw [BitVec.toNat_ofNat, regWrite_word (by decide) rfl (by decide) rfl] at hrun
  exact ⟨b, r, l, w, e, hrun⟩

theorem held_preambleWrite (h : a = R.DRAM_CFG.addr 0 ∨ a = R.DRAM_CTRL.addr 0) : Held s ((preambleWrite a v).run s) := by
  have hat (b r l w) : Held s (atTarget b r l w s) := ⟨rfl, rfl, fun _ _ => rfl, id⟩
  have hans (e : Bool) (t : State) : Held t ((respond 0 [] e).run t) := ⟨rfl, rfl, fun _ _ => rfl, id⟩
  rcases h with rfl | rfl
  · obtain ⟨b, r, l, w, e, hrun⟩ := preambleWrite_cfg hs v
    rw [hrun]
    exact ((hat b r l w).trans (held_wrDramCfg _ _ _ _)).trans (hans e _)
  · obtain ⟨b, r, l, w, e, hrun⟩ := preambleWrite_ctrl hs v
    rw [hrun]
    exact ((hat b r l w).trans (held_wrDramCtrl _ _ _ _)).trans (hans e _)

end

theorem Held.asleep {s t : State} (h : Held s t) : asleep t = asleep s := by unfold Machine.asleep; rw [h.pwr]

theorem held_forEach {α : Type} {f : α → Act} (xs : List α) : (∀ x ∈ xs, ∀ s, asleep s = false → Held s ((f x).run s)) →
    ∀ s, asleep s = false → Held s ((forEach xs f).run s) := by
  induction xs with
  | nil => exact fun _ s _ => held_refl s
  | cons x xs ih =>
    intro h s hs
    have hx := h x List.mem_cons_self s hs
    rw [run_forEach_cons]
    exact hx.trans (ih (fun y hy => h y (List.mem_cons_of_mem _ hy)) _ (hx.asleep.trans hs))

/-! ### The header block -/

/-- What the loader takes of a header block that passes its checks. -/
def headerTaken (h : List Byte) (ask : Option (Option (Bool × Nat))) (n : Nat) : Act := acts [
  setStrata fun x => { x with hdr := h, warmReq := ask.isSome, warmArm := ask.getD none }, R.STRATA_ICW.set 0 (fieldLe h 12 4),
  F.STRATA_OVL_PRESENT.set 0 (2 ^ fieldLe h 6 1 - 1),
  F.STRATA_STAT_BOOT.set 0 1, setStrata fun x => { x with dramAt := n }]

theorem ofBe_foldl_lt (bs : List Byte) (n : Nat) : bs.foldl (fun a b => 256 * a + b.toNat) n < (n + 1) * 256 ^ bs.length := by
  induction bs generalizing n with
  | nil => simp
  | cons b bs ih =>
    have hb : b.toNat < 256 := b.isLt
    calc (b :: bs).foldl (fun a b => 256 * a + b.toNat) n < (256 * n + b.toNat + 1) * 256 ^ bs.length := ih _
      _ ≤ ((n + 1) * 256) * 256 ^ bs.length := Nat.mul_le_mul_right _ (by omega)
      _ = (n + 1) * 256 ^ (b :: bs).length := by rw [Nat.mul_assoc, List.length_cons, Nat.pow_succ']

theorem fieldLe_lt (bs : List Byte) (i n : Nat) : fieldLe bs i n < 256 ^ n := by
  have h := ofBe_foldl_lt ((bs.drop i).take n).reverse 0
  rw [Nat.zero_add, Nat.one_mul, List.length_reverse] at h
  exact Nat.lt_of_lt_of_le h (Nat.pow_le_pow_right (by decide) (List.length_take_le _ _))

section
variable (h : List Byte) (ask : Option (Option (Bool × Nat))) (n : Nat) (s : State)

theorem headerTaken_run : (headerTaken h ask n).run s = (setStrata fun x => { x with dramAt := n }).run ((F.STRATA_STAT_BOOT.set 0 1).run
    ((F.STRATA_OVL_PRESENT.set 0 (2 ^ fieldLe h 6 1 - 1)).run ((R.STRATA_ICW.set 0 (fieldLe h 12 4)).run
      ((setStrata fun x => { x with hdr := h, warmReq := ask.isSome, warmArm := ask.getD none }).run s)))) := acts_five ..

theorem headerTaken_hdr : ((headerTaken h ask n).run s).strata.hdr = h := by
  rw [headerTaken_run, fset_frame F.STRATA_STAT_BOOT, fset_frame F.STRATA_OVL_PRESENT, rset_frame R.STRATA_ICW]
  rfl

theorem headerTaken_frame : ((headerTaken h ask n).run s).pwr = s.pwr ∧ ((headerTaken h ask n).run s).lock = s.lock := by
  rw [headerTaken_run, fset_frame F.STRATA_STAT_BOOT, fset_frame F.STRATA_OVL_PRESENT, rset_frame R.STRATA_ICW]
  exact ⟨rfl, rfl⟩

theorem headerTaken_val {r : Reg} (hr : r.awayFrom R.STRATA_ICW = true ∧ r.awayFrom R.STRATA_OVL = true ∧ r.awayFrom R.STRATA_STAT = true)
    (hd : 0 < dimsCount r.dims) : r.val 0 ((headerTaken h ask n).run s) = r.val 0 s := by
  obtain ⟨hicw, hovl, hstat⟩ := hr
  rw [headerTaken_run]
  exact (val_fset_apart (f := F.STRATA_STAT_BOOT) (apart_of_away hstat hd (by decide) 0 0) _ _).trans <|
    (val_fset_apart (f := F.STRATA_OVL_PRESENT) (apart_of_away hovl hd (by decide) 0 0) _ _).trans <|
    val_set_apart (apart_of_away hicw hd (by decide) 0 0) _ _

theorem headerTaken_icw : R.STRATA_ICW.val 0 ((headerTaken h ask n).run s) = fieldLe h 12 4 := by
  rw [headerTaken_run]
  refine (val_fset_apart (f := F.STRATA_STAT_BOOT) (apart_of_away (by decide) (by decide) (by decide) 0 0) _ _).trans <|
    (val_fset_apart (f := F.STRATA_OVL_PRESENT) (apart_of_away (by decide) (by decide) (by decide) 0 0) _ _).trans ?_
  rw [val_set]
  exact Nat.mod_eq_of_lt (fieldLe_lt h 12 4)

theorem headerTaken_boot : boot ((headerTaken h ask n).run s) = 1 := by
  rw [headerTaken_run]
  exact get_set_same F.STRATA_STAT_BOOT (by decide) (by decide) 0 _

theorem headerTaken_ovl (ho : fieldLe h 6 1 ≤ 15) :
    F.STRATA_OVL_PRESENT.get 0 ((headerTaken h ask n).run s) = 2 ^ fieldLe h 6 1 - 1 := by
  have hlt : 2 ^ fieldLe h 6 1 ≤ 2 ^ 15 := Nat.pow_le_pow_right (by decide) ho
  rw [headerTaken_run]
  refine (get_set_apart F.STRATA_OVL_PRESENT F.STRATA_STAT_BOOT (apart_of_away (by decide) (by decide) (by decide) 0 0) _ _).trans ?_
  refine get_set_same F.STRATA_OVL_PRESENT (by decide) ?_ 0 _
  rw [show F.STRATA_OVL_PRESENT.width = 15 from rfl]
  omega

end

theorem hdrCause_lt (h : List Byte) : hdrCause h < 16 := by
  unfold hdrCause
  dsimp only
  split_ifs <;> decide

section
variable {s : State} {hdr : List Byte} (hv : s.pwr.vdd = true) (hl : s.pwr.listen = false) (hc : s.clk.up = true) (hb : boot s = 0)
  (hs : s.strata.hdr = []) (hh : hdr ≠ [])
include hv hl hc hb hs hh

theorem loaderStart_guard : (!s.pwr.vdd || s.pwr.listen || !s.clk.up || boot s ≠ 0 || s.strata.hdr ≠ [] || hdr = []) = false := by
  simp [hv, hl, hc, hb, hs, hh]

/-- A header block that fails its checks leads to DEFAULT (R546, R551). -/
theorem loaderStart_fails (hf : hdrCause (hdr.take (hdrLen hdr)) ≠ 0) :
    InDefault (hdrCause (hdr.take (hdrLen hdr))) ((loaderStart hdr).run s) := by
  rw [loaderStart, run_look, loaderStart_guard hv hl hc hb hs hh]
  simp only [Bool.false_eq_true, if_false, run_seq, run_look, ne_eq, hf, not_false_eq_true, if_true]
  exact loadDefault_inDefault (hdrCause_lt _) _

theorem loaderStart_run (hf : hdrCause (hdr.take (hdrLen hdr)) = 0) : ∃ ask n, (loaderStart hdr).run s =
    (Act.look fun s => onlyIf (boot s = 1 && F.DRAM_STAT_READY.on 0 s) dramReady).run
      ((preamble (hdr.take (hdrLen hdr))).run ((headerTaken (hdr.take (hdrLen hdr)) ask n).run (romStart.run s))) := by
  refine ⟨warmAsked (romStart.run s) (fieldLe (hdr.take (hdrLen hdr)) 12 4), (romStart.run s).elapsed, ?_⟩
  rw [loaderStart, run_look, loaderStart_guard hv hl hc hb hs hh]
  simp only [Bool.false_eq_true, if_false, run_seq, run_look, ne_eq, hf, not_true_eq_false]
  rw [headerTaken_run, run_acts_cons, run_acts_cons, run_acts_cons, run_acts_cons, run_acts_cons, acts_two, run_look]

/-- A header block that passes its checks leads to DRAM, with its preamble made (R545). -/
theorem loaderStart_passes (hf : hdrCause (hdr.take (hdrLen hdr)) = 0) (hr : F.DRAM_STAT_READY.on 0 s = false) :
    let h := hdr.take (hdrLen hdr)
    (∀ i < fieldLe h 36 2, fieldLe h (320 + 8 * i) 4 = R.DRAM_CFG.addr 0 ∨ fieldLe h (320 + 8 * i) 4 = R.DRAM_CTRL.addr 0) →
    ∃ u, asleep u = false ∧ u.lock = s.lock ∧ (∀ r : Reg, r = R.DRAM_CFG ∨ r = R.DRAM_STAT → r.val 0 u = r.val 0 s) ∧
      (loaderStart hdr).run s = (preamble h).run u ∧
      ((loaderStart hdr).run s).strata.hdr = h ∧ R.STRATA_ICW.val 0 ((loaderStart hdr).run s) = fieldLe h 12 4 ∧
      boot ((loaderStart hdr).run s) = 1 ∧
      (fieldLe h 6 1 ≤ 15 → F.STRATA_OVL_PRESENT.get 0 ((loaderStart hdr).run s) = 2 ^ fieldLe h 6 1 - 1) := by
  intro h hp
  obtain ⟨ask, n, hrun⟩ := loaderStart_run hv hl hc hb hs hh hf
  let u := (headerTaken h ask n).run (romStart.run s)
  obtain ⟨hpwr, hlock⟩ := headerTaken_frame h ask n (romStart.run s)
  have hwake : asleep u = false := by
    unfold asleep
    rw [hpwr, loadSpared_pwr romStart_within, hv, hl]
    rfl
  have hdram : ∀ r : Reg, r = R.DRAM_CFG ∨ r = R.DRAM_STAT → r.val 0 u = r.val 0 s := by
    rintro r (rfl | rfl)
    · exact (headerTaken_val h ask n _ (by decide) (by decide)).trans (loadSpared_val romStart_within s (by unfold WordsOut; decide))
    · exact (headerTaken_val h ask n _ (by decide) (by decide)).trans (loadSpared_val romStart_within s (by unfold WordsOut; decide))
  have hready : F.DRAM_STAT_READY.on 0 u = false := by
    unfold Fld.on Fld.get at hr ⊢
    rw [show F.DRAM_STAT_READY.reg = R.DRAM_STAT from rfl] at hr ⊢
    rw [hdram _ (.inr rfl), hr]
  have hheld : Held u ((preamble h).run u) :=
    held_forEach _ (fun i hi _ hs => held_preambleWrite hs (hp i (List.mem_range.mp hi))) u hwake
  have hend : (loaderStart hdr).run s = (preamble h).run u := by
    rw [hrun, run_look, hheld.ready hready, Bool.and_false, onlyIf_false, run_done]
  rw [hend]
  refine ⟨u, hwake, hlock.trans (loadSpared_lock romStart_within s), hdram, rfl, ?_, ?_, ?_, fun ho => ?_⟩
  · rw [hheld.strata]; exact headerTaken_hdr h ask n _
  · rw [hheld.regs _ (by unfold WordsOut; decide)]; exact headerTaken_icw h ask n _
  · have hb : boot ((preamble h).run u) = boot u := by
      unfold boot Fld.get
      rw [hheld.regs _ (by unfold WordsOut; decide)]
    rw [hb]
    exact headerTaken_boot h ask n _
  · have hb : F.STRATA_OVL_PRESENT.get 0 ((preamble h).run u) = F.STRATA_OVL_PRESENT.get 0 u := by
      unfold Fld.get
      rw [hheld.regs _ (by unfold WordsOut; decide)]
    rw [hb]
    exact headerTaken_ovl h ask n _ ho

end

/-- A preamble of one entry that configures the controller. -/
theorem preamble_cfg {h : List Byte} {u : State} (hu : asleep u = false) (h1 : fieldLe h 36 2 = 1)
    (ha : fieldLe h 320 4 = R.DRAM_CFG.addr 0) (ht : dramTaken u = false) (hl : u.lock = false)
    (hs : F.DRAM_CFG_SIZE.of (fieldLe h 324 4) < 3) (hr : F.DRAM_CFG_RATE.of (fieldLe h 324 4) < 3) : let t := (preamble h).run u
    F.DRAM_CFG_SIZE.get 0 t = F.DRAM_CFG_SIZE.of (fieldLe h 324 4) ∧ F.DRAM_CFG_RATE.get 0 t = F.DRAM_CFG_RATE.of (fieldLe h 324 4) := by
  have hrun : (preamble h).run u = (preambleWrite (fieldLe h 320 4) (fieldLe h 324 4)).run u := by
    unfold preamble
    rw [h1]
    rfl
  obtain ⟨b, r, l, w, e, hw⟩ := preambleWrite_cfg hu (fieldLe h 324 4)
  have hv : fieldLe h 324 4 % 2 ^ 64 % 2 ^ 32 = fieldLe h 324 4 := by
    have := fieldLe_lt h 324 4
    omega
  obtain ⟨hsize, hrate, -⟩ := wrDramCfg_stores (m := 0) (s := atTarget b r l w u) ht hl hs hr
  dsimp only
  rw [hrun, ha, hw, hv]
  exact ⟨hsize, hrate⟩

/-! ### The copy -/

section
variable {s : State} (h : Memory.wf s.mem = true) (a : Nat)
include h

theorem memGet_bytesBelow {c k : Nat} (bs : List Byte) (hc : c < a + k) :
    memGet ((forEach (bs.zipIdx k) fun p => .upd (.mem (a + p.2) p.1)).run s).mem c = memGet s.mem c := by
  induction bs generalizing k s with
  | nil => rfl
  | cons b bs ih =>
    rw [List.zipIdx_cons, run_forEach_cons, ih (memory_wf_put h _ _) (by omega)]
    exact memGet_put_ne h _ (by omega)

theorem memGet_bytesAt {k i : Nat} (bs : List Byte) (hi : i < bs.length) :
    memGet ((forEach (bs.zipIdx k) fun p => .upd (.mem (a + p.2) p.1)).run s).mem (a + k + i) = bs[i] := by
  induction bs generalizing k s i with
  | nil => exact absurd hi (Nat.not_lt_zero i)
  | cons b bs ih =>
    rw [List.zipIdx_cons, run_forEach_cons]
    have hw : Memory.wf ((Act.upd (.mem (a + k) b)).run s).mem = true := memory_wf_put h _ _
    cases i with
    | zero =>
      rw [Nat.add_zero, memGet_bytesBelow hw a bs (by omega)]
      exact memGet_put_self _ _ _
    | succ i => rw [show a + k + (i + 1) = a + (k + 1) + i by omega, ih hw (by simpa using hi), List.getElem_cons_succ]

/-- Bytes written read back. -/
theorem memBytes_memSetBytes (bs : List Byte) : memBytes ((memSetBytes a bs).run s).mem a bs.length = bs :=
  List.ext_getElem (by simp [memBytes]) fun i hi hi' => by
    have := memGet_bytesAt h a (k := 0) bs hi'
    rw [Nat.add_zero] at this
    simpa [memBytes, memSetBytes] using this

end

/-- The update changes neither the loader's own state nor memory beyond the galleries G0 to G3. -/
def Upd.sparesStaged : Upd → Prop
  | .mem a _ => a < 0x4000000
  | .strata _ | .nodeReset _ => False
  | _ => True

section
variable {a : Act} (h : a.Within Upd.sparesStaged)
include h

theorem staged_strata (s : State) : (a.run s).strata = s.strata :=
  within_keeps (f := (·.strata)) h (fun u s hu => by
    cases u with
    | strata | nodeReset => exact hu.elim
    | _ => rfl) s

theorem staged_memGet {s : State} (hw : Memory.wf s.mem = true) {c : Nat} (hc : 0x4000000 ≤ c) :
    memGet (a.run s).mem c = memGet s.mem c := by
  induction a generalizing s with
  | done => rfl
  | upd u =>
    cases u with
    | mem b v => exact memGet_put_ne hw v (by have hb : b < 0x4000000 := h; omega)
    | nodeReset => exact h.elim
    | _ => rfl
  | seq a b iha ihb => exact (ihb h.2 (memory_wf_run a s hw)).trans (iha h.1 hw)
  | look k ih => exact ih s (h s) hw

theorem staged_memBytes {s : State} (hw : Memory.wf s.mem = true) {c : Nat} (hc : 0x4000000 ≤ c) (n : Nat) :
    memBytes (a.run s).mem c n = memBytes s.mem c n :=
  List.map_congr_left fun i _ => staged_memGet h hw (by omega)

end

theorem staged_of_boot {a : Act} (h : a.Within Upd.sparesBoot) : a.Within Upd.sparesStaged := within_mono (fun u hu => by
  cases u with
  | mem | strata | nodeReset => exact hu
  | _ => trivial) h

theorem staged_of_raise (e : Ev) (d : Nat) : (raise e d 0 0 0).Within Upd.sparesStaged := staged_of_boot (raise_sparesBoot e d 0 0 0)

theorem mixStart_staged : mixStart.Within Upd.sparesStaged := fun s => by
  have hmix {a : Act} (h : a.Within Upd.sparesMix) : a.Within Upd.sparesStaged := staged_of_boot (within_mono (fun _ => And.right) h)
  have hreg (f : Fld) (v : Nat) : (f.set 0 v).Within Upd.sparesStaged := fun _ => within_set fun _ _ _ => trivial
  refine within_ite trivial ⟨hmix (emix_within s), within_ite trivial
    ⟨hmix mix_romFill, fun _ => trivial, hmix (mixPorts_within _ _ _ _ _), hreg _ _, staged_of_boot tickBegin_sparesBoot, hreg _ _⟩⟩

theorem mixStart_off {s : State} (h : phase s ≠ 0) : mixStart.run s = s := by
  unfold mixStart
  rw [run_look]
  simp [h]

/-- What the judgement of an overlay leaves. -/
theorem ovlBad_spares (k : Nat) : (ovlBad k).Within (Upd.sparesLoader fun w => w ≠ 0x20140000) := fun s => by
  refine within_ite trivial ⟨fun _ => within_set fun w _ hw => ?_, within_spares (touches_raise _ _ _ _ _)
    (stores_mono (stores_raise _ _ _ _ _) fun w hw => ?_) (by decide)⟩
  · have hw : w < 1 := hw
    show decide _ = true
    rw [key_zero rfl rfl, show F.STRATA_OVL_BAD.reg.base = R.STRATA_OVL.base from rfl]
    have hb : R.STRATA_OVL.base < 0x20030000 := by decide
    exact decide_eq_true (by omega)
  · have := bootFree_of_raise hw
    simp only [bootFree, Bool.and_eq_true] at this
    exact this.1

/-- Bounds of the base layer in the staged copy. -/
def baseSpan (s : State) : Nat × Nat := (stageAddr s + hdrField s 16 4, stageAddr s + hdrField s 16 4 + hdrField s 20 4)

theorem baseSpan_congr {s t : State} (h : t.strata = s.strata) : baseSpan t = baseSpan s := by
  unfold baseSpan stageAddr hdrField
  rw [h]

/-- Where the loader goes once the early mix has been seen to: BOOT, the base, and PHASE. -/
def playSet (s : State) : Act := acts [
  F.STRATA_STAT_BOOT.set 0 3, setStrata fun x => { x with base := some (baseSpan s) },
  if s.pwr.mixOn then .seq (F.PWR_STAT_PHASE.set 0 2) (setPwr fun p => { p with fade := some 0 }) else F.PWR_STAT_PHASE.set 0 3]

theorem playSet_sets (u s : State) : let t := (playSet u).run s
    boot t = 3 ∧ t.strata.base = some (baseSpan u) ∧ phase t = (if u.pwr.mixOn then 2 else 3) ∧ t.mem = s.mem := by
  have hboot : boot ((setStrata fun x => { x with base := some (baseSpan u) }).run ((F.STRATA_STAT_BOOT.set 0 3).run s)) = 3 :=
    get_set_same F.STRATA_STAT_BOOT (by decide) (by decide) 0 s
  have hphase (v : Nat) (t : State) : boot ((F.PWR_STAT_PHASE.set 0 v).run t) = boot t :=
    get_set_apart F.STRATA_STAT_BOOT F.PWR_STAT_PHASE (apart_of_away (by decide) (by decide) (by decide) 0 0) _ _
  have hframe : ((setStrata fun x => { x with base := some (baseSpan u) }).run ((F.STRATA_STAT_BOOT.set 0 3).run s)).strata.base =
      some (baseSpan u) ∧ ((setStrata fun x => { x with base := some (baseSpan u) }).run ((F.STRATA_STAT_BOOT.set 0 3).run s)).mem = s.mem := by
    rw [fset_frame]; exact ⟨rfl, rfl⟩
  obtain ⟨hbase, hmem⟩ := hframe
  dsimp only
  rw [playSet, acts_three]
  generalize (setStrata fun x => { x with base := some (baseSpan u) }).run ((F.STRATA_STAT_BOOT.set 0 3).run s) = t at hboot hbase hmem
  cases u.pwr.mixOn with
  | true => exact ⟨(hphase 2 t).trans hboot, by rw [if_pos rfl, run_seq, fset_frame]; exact hbase, phase_set (by decide) t,
      by rw [if_pos rfl, run_seq, fset_frame]; exact hmem⟩
  | false => exact ⟨(hphase 3 t).trans hboot, by rw [if_neg (by decide), fset_frame]; exact hbase, phase_set (by decide) t,
      by rw [if_neg (by decide), fset_frame]; exact hmem⟩

theorem toPlay_run (s : State) : toPlay.run s = (playSet (mixStart.run s)).run (mixStart.run s) := rfl

/-- The base stands ready to play, and the staged copy is as it was (R545, R575). -/
theorem toPlay_ready {s : State} (hw : Memory.wf s.mem = true) (ha : 0x80000000 ≤ stageAddr s) (n : Nat) : let t := toPlay.run s
    boot t = 3 ∧ t.strata.base = some (baseSpan s) ∧ memBytes t.mem (stageAddr s) n = memBytes s.mem (stageAddr s) n ∧
      (phase t = 2 ∨ phase t = 3) ∧ (phase s ≠ 0 → phase t = if s.pwr.mixOn then 2 else 3) := by
  obtain ⟨hboot, hbase, hphase, hmem⟩ := playSet_sets (mixStart.run s) (mixStart.run s)
  dsimp only
  rw [toPlay_run]
  refine ⟨hboot, ?_, ?_, ?_, fun hp => ?_⟩
  · rw [hbase, baseSpan_congr (staged_strata mixStart_staged s)]
  · rw [hmem]
    exact staged_memBytes mixStart_staged hw (by omega) n
  · rw [hphase]
    split
    · exact .inl rfl
    · exact .inr rfl
  · rw [hphase, mixStart_off hp]

section
variable {s : State} {img : List Byte} (hb : boot s = 2) (hl : hdrField s 8 4 ≤ img.length)
include hb hl

/-- The copy has been written. -/
def copied (img : List Byte) (s : State) : State :=
  (eccFull (stageAddr s) (hdrField s 8 4)).run ((memSetBytes (stageAddr s) (img.take (hdrField s 8 4))).run s)

theorem stageDone_run : (stageDone img).run s =
    (if crc32c ((img.drop (hdrField s 16 4)).take (hdrField s 20 4)) ≠ hdrField s 24 4 then loadDefault 4
     else .seq
      (forEach (List.range (hdrField s 6 1)) fun i =>
        let (o, n, c) := ovlDir s (i + 1)
        onlyIf (decide (crc32c ((img.drop o).take n) ≠ c) || !layerGood s ((img.drop o).take n)) (ovlBad (i + 1)))
      toPlay).run (copied img s) := by
  have hg : (boot s ≠ 2 || img.length < hdrField s 8 4) = false := by simp [hb, hl]
  rw [stageDone, run_look]
  dsimp only
  rw [hg, if_neg (by decide), acts_three]
  rfl

theorem stageDone_fails (hf : crc32c ((img.drop (hdrField s 16 4)).take (hdrField s 20 4)) ≠ hdrField s 24 4) :
    InDefault 4 ((stageDone img).run s) := by
  rw [stageDone_run hb hl, if_pos hf]
  exact loadDefault_inDefault (by decide) _

end

theorem copied_frame (img : List Byte) (s : State) : (copied img s).strata = s.strata ∧ (copied img s).pwr = s.pwr ∧
    phase (copied img s) = phase s ∧
    (copied img s).mem = ((memSetBytes (stageAddr s) (img.take (hdrField s 8 4))).run s).mem := by
  have hset : (memSetBytes (stageAddr s) (img.take (hdrField s 8 4))).Touches [.mem] := touches_memSetBytes (by decide) _ _
  have hecc : (eccFull (stageAddr s) (hdrField s 8 4)).Touches [.ecc] := touches_eccFull (by decide) _ _
  refine ⟨?_, ?_, ?_, touches_mem hecc (by decide) (by decide) _⟩
  · exact (touches_strata hecc (by decide) (by decide) _).trans (touches_strata hset (by decide) (by decide) s)
  · exact (touches_pwr hecc (by decide) (by decide) _).trans (touches_pwr hset (by decide) (by decide) s)
  · exact (get_congr (touches_regs hecc (by decide) (by decide) _) _ _ _).trans (get_congr (touches_regs hset (by decide) (by decide) s) _ _ _)

/-- The judgement of the overlays (R549). -/
def ovlsJudged (img : List Byte) (s : State) : Act := forEach (List.range (hdrField s 6 1)) fun i =>
  let (o, n, c) := ovlDir s (i + 1)
  onlyIf (decide (crc32c ((img.drop o).take n) ≠ c) || !layerGood s ((img.drop o).take n)) (ovlBad (i + 1))

theorem ovlsJudged_spares (img : List Byte) (s : State) : (ovlsJudged img s).Within (Upd.sparesLoader fun w => w ≠ 0x20140000) :=
  within_forEach_of fun _ => (within_onlyIf _ _).mpr fun _ => ovlBad_spares _

theorem ovlsJudged_mem (img : List Byte) (s t : State) : ((ovlsJudged img s).run t).mem = t.mem := by
  have hbad (k : Nat) : (ovlBad k).Touches raiseKinds := fun _ => within_ite trivial
    ⟨fun _ => within_set fun _ _ _ => (show Kind.reg ∈ raiseKinds by decide), touches_raise _ _ _ _ _⟩
  exact touches_mem (ks := raiseKinds) (touches_forEach_of fun _ => (within_onlyIf _ _).mpr fun _ => hbad _) (by decide) (by decide) t

/-- A copy whose base passes is ready to play (R545). -/
theorem stageDone_passes {s : State} {img : List Byte} (hb : boot s = 2) (hl : hdrField s 8 4 ≤ img.length)
    (hf : crc32c ((img.drop (hdrField s 16 4)).take (hdrField s 20 4)) = hdrField s 24 4) (hw : Memory.wf s.mem = true)
    (ha : 0x80000000 ≤ stageAddr s) : let t := (stageDone img).run s
    boot t = 3 ∧ t.strata.base = some (baseSpan s) ∧ memBytes t.mem (stageAddr s) (hdrField s 8 4) = img.take (hdrField s 8 4) ∧
      (phase t = 2 ∨ phase t = 3) ∧ (phase s ≠ 0 → phase t = if s.pwr.mixOn then 2 else 3) := by
  let u := (ovlsJudged img s).run (copied img s)
  obtain ⟨hstrata, hpwr, hphase, hmem⟩ := copied_frame img s
  have hspares := ovlsJudged_spares img s
  have hustrata : u.strata = s.strata := (loadSpared_strata hspares _).trans hstrata
  have hupwr : u.pwr = s.pwr := (loadSpared_pwr hspares _).trans hpwr
  have huphase : phase u = phase s := by
    have hv : R.PWR_STAT.val 0 u = R.PWR_STAT.val 0 (copied img s) := loadSpared_val hspares _ (by unfold WordsOut; decide)
    rw [← hphase]
    unfold phase Fld.get
    rw [show F.PWR_STAT_PHASE.reg = R.PWR_STAT from rfl, hv]
  have humem : u.mem = ((memSetBytes (stageAddr s) (img.take (hdrField s 8 4))).run s).mem := (ovlsJudged_mem img s _).trans hmem
  have haddr : stageAddr u = stageAddr s := by unfold stageAddr hdrField; rw [hustrata]
  have huw : Memory.wf u.mem = true := humem ▸ memory_wf_run _ s hw
  obtain ⟨hboot, hbase, hbytes, hto, hfrom⟩ := toPlay_ready huw (haddr ▸ ha) (hdrField s 8 4)
  have hrun : (stageDone img).run s = toPlay.run u := by
    rw [stageDone_run hb hl, if_neg (by simp [hf]), run_seq]
    rfl
  have hlen : (img.take (hdrField s 8 4)).length = hdrField s 8 4 := List.length_take_of_le hl
  have hcopy := memBytes_memSetBytes hw (stageAddr s) (img.take (hdrField s 8 4))
  rw [hlen, ← humem] at hcopy
  dsimp only
  rw [hrun]
  refine ⟨hboot, ?_, ?_, hto, fun hp => ?_⟩
  · rw [hbase, baseSpan_congr hustrata]
  · rw [haddr] at hbytes
    rw [hbytes, hcopy]
  · rw [hfrom (huphase ▸ hp), hupwr]

/-! ### The statement -/

/-- Settles O47: the ROM spares what the loader goes by, each write of the preamble keeps it, and the copy is written before it is judged. -/
theorem loadingCompletes : Obligations.LoadingCompletes := by
  intro s
  refine ⟨fun hdr hv hl hc hb hs hh => ⟨fun hf hr hp => ⟨_, rfl, ?_⟩, fun hf => ⟨_, rfl, ?_⟩⟩, fun hb hr ha ht => ⟨_, rfl, ?_⟩,
    fun img hb hl => ⟨fun hf hw ha => ⟨_, rfl, stageDone_passes hb hl hf hw ha⟩, fun hf => ⟨_, rfl, ?_⟩⟩⟩
  · obtain ⟨u, hwake, hlock, hregs, hrun, hhdr, hicw, hboot, hovl⟩ := loaderStart_passes hv hl hc hb hs hh hf hr hp
    refine ⟨hhdr, hicw, hboot, hovl, fun h1 hcfg hlk htaken hsize hrate => ?_⟩
    have htake : dramTaken u = false := by
      unfold dramTaken Fld.on Fld.get at htaken ⊢
      rw [show F.DRAM_STAT_READY.reg = R.DRAM_STAT from rfl, show F.DRAM_STAT_BUSY.reg = R.DRAM_STAT from rfl] at htaken ⊢
      rw [hregs _ (.inr rfl), htaken]
    have hcfgd := preamble_cfg hwake h1 hcfg htake (hlock.trans hlk) hsize hrate
    rw [← hrun] at hcfgd
    exact hcfgd
  · obtain ⟨hboot, hcause, hflag, hphase, hev⟩ := loaderStart_fails hv hl hc hb hs hh hf
    exact ⟨hboot, hcause, hflag, hphase, hev⟩
  · have hgo : (boot s = 1 && !F.DRAM_STAT_READY.on 0 s && !asleep s && passed s.strata.dramAt (msCycles 50 s) s) = true := by
      simp [hb, hr, ha, ht]
    obtain ⟨hboot, hcause, hflag, -, hev⟩ := loadDefault_inDefault (c := 3) (by decide) s
    rw [run_look, hgo, onlyIf_true]
    exact ⟨hboot, hcause, hflag, hev⟩
  · obtain ⟨hboot, hcause, -, -, -⟩ := stageDone_fails hb hl hf
    exact ⟨hboot, hcause⟩

end Sys2Proof.Machine
end

