-- ==== Sys2Proof/Proofs/Events.lean ====
section
/-! SUPPORT. Effects that keep a property of the state, and the status bit of an event, which no later raise clears (R525). -/

namespace Sys2Proof.Machine

/-! ### Effects that keep a property -/

/-- The effect leads from states with the property to states with it. -/
def Act.Preserves (P : State → Prop) (a : Act) : Prop := ∀ s, P s → P (a.run s)

section
variable {P : State → Prop}

theorem preserves_done : Act.done.Preserves P := fun _ h => h

theorem preserves_seq {a b : Act} (ha : a.Preserves P) (hb : b.Preserves P) : (Act.seq a b).Preserves P := fun _ h => hb _ (ha _ h)

theorem preserves_look {k : State → Act} (h : ∀ s, (k s).Preserves P) : (Act.look k).Preserves P := fun s hs => h s s hs

theorem preserves_ite {c : Prop} [Decidable c] {a b : Act} (ha : a.Preserves P) (hb : b.Preserves P) : (if c then a else b).Preserves P := by
  split <;> assumption

theorem preserves_onlyIf {c : Bool} {a : Act} (h : a.Preserves P) : (onlyIf c a).Preserves P := by
  cases c
  · exact preserves_done
  · exact h

theorem preserves_acts {as : List Act} (h : ∀ a ∈ as, a.Preserves P) : (acts as).Preserves P := by
  induction as with
  | nil => exact preserves_done
  | cons a as ih =>
    intro s hs
    rw [run_acts_cons]
    exact ih (fun b hb => h b (List.mem_cons_of_mem _ hb)) _ (h a List.mem_cons_self s hs)

theorem preserves_forEach {α : Type} {xs : List α} {f : α → Act} (h : ∀ x ∈ xs, (f x).Preserves P) : (forEach xs f).Preserves P :=
  preserves_acts fun a ha => by
    obtain ⟨x, hx, rfl⟩ := List.mem_map.mp ha
    exact h x hx

end

/-! ### Effects made of updates and raises -/

/-- The property is kept by the updates of `q` and by every raise. -/
structure Keeper (q : Upd → Prop) (P : State → Prop) : Prop where
  upd : ∀ u s, q u → P s → P (u.apply s)
  raise : ∀ e d0 d1 d2 g, (raise e d0 d1 d2 g).Preserves P

/-- The effect is made of updates of `q` and of raises: what they all keep, it keeps. -/
def Act.MadeOf (q : Upd → Prop) (a : Act) : Prop := ∀ P : State → Prop, Keeper q P → a.Preserves P

section
variable {q : Upd → Prop}

theorem madeOf_done : Act.done.MadeOf q := fun _ _ => preserves_done

theorem madeOf_upd {u : Upd} (h : q u) : (Act.upd u).MadeOf q := fun _ hP s hs => hP.upd u s h hs

theorem madeOf_raise (e : Ev) (d0 d1 d2 g : Nat) : (raise e d0 d1 d2 g).MadeOf q := fun _ hP => hP.raise e d0 d1 d2 g

theorem madeOf_seq {a b : Act} (ha : a.MadeOf q) (hb : b.MadeOf q) : (Act.seq a b).MadeOf q := fun P hP => preserves_seq (ha P hP) (hb P hP)

theorem madeOf_look {k : State → Act} (h : ∀ s, (k s).MadeOf q) : (Act.look k).MadeOf q := fun P hP => preserves_look fun s => h s P hP

theorem madeOf_ite {c : Prop} [Decidable c] {a b : Act} (ha : a.MadeOf q) (hb : b.MadeOf q) : (if c then a else b).MadeOf q := by
  split <;> assumption

theorem madeOf_onlyIf {c : Bool} {a : Act} (h : a.MadeOf q) : (onlyIf c a).MadeOf q := fun P hP => preserves_onlyIf (h P hP)

theorem madeOf_nil : (acts []).MadeOf q := madeOf_done

theorem madeOf_cons {a : Act} {as : List Act} (h : a.MadeOf q) (hs : (acts as).MadeOf q) : (acts (a :: as)).MadeOf q := fun P hP s hP' => by
  rw [run_acts_cons]
  exact hs P hP _ (h P hP s hP')

theorem madeOf_forEach {α : Type} {xs : List α} {f : α → Act} (h : ∀ x ∈ xs, (f x).MadeOf q) : (forEach xs f).MadeOf q := fun P hP =>
  preserves_forEach fun x hx => h x hx P hP

theorem madeOf_within {a : Act} (h : a.Within q) : a.MadeOf q := by
  induction a with
  | done => exact madeOf_done
  | upd u => exact madeOf_upd h
  | seq a b iha ihb => exact madeOf_seq (iha h.1) (ihb h.2)
  | look k ih => exact madeOf_look fun s => ih s (h s)

theorem madeOf_rset {r : Reg} {i m : Nat} (h : ∀ w < r.words, ∀ x, q (.reg (r.key i w m) x)) (v : Nat) : (r.set i v m).MadeOf q :=
  madeOf_within (within_set fun w x hw => h w hw x)

theorem madeOf_fset {f : Fld} {i m : Nat} (h : ∀ w < f.reg.words, ∀ x, q (.reg (f.reg.key i w m) x)) (v : Nat) : (f.set i v m).MadeOf q :=
  madeOf_look fun _ => madeOf_rset h _

theorem madeOf_inc {f : Fld} {i : Nat} (h : ∀ w < f.reg.words, ∀ x, q (.reg (f.reg.key i w 0) x)) (n : Nat) : (f.inc i n).MadeOf q :=
  madeOf_look fun _ => madeOf_fset h _

end

/-! ### Status bits -/

/-- The word is none of the status bits. -/
def evstatOff (k : Nat) : Bool := outside 0x20030300 0x20030320 k

theorem evstatOff_out {i : Nat} (hi : i < 8) : WordsOut evstatOff R.SUMP_EVSTAT i 0 := within_out (by decide) hi 0

theorem event_of_stores {a : Act} (e : Ev) (h : a.Stores evstatOff) : a.Preserves (EvSet e) := fun s hs => by
  unfold EvSet at hs ⊢
  rw [val_stores h (evstatOff_out (evSrc_bound e)), hs]

theorem evstatOff_in {r : Reg} (h : r.clear 0x20030300 0x20030320 = true) {i : Nat} (hi : i < dimsCount r.dims) :
    WordsIn evstatOff r i 0 := clear_in h hi 0

theorem event_kept_fset (e : Ev) {f : Fld} (h : f.reg.clear 0x20030300 0x20030320 = true) {i : Nat} (hi : i < dimsCount f.reg.dims) (v : Nat) :
    (f.set i v).Preserves (EvSet e) := event_of_stores e (stores_fset (evstatOff_in h hi) v)

theorem event_kept_inc (e : Ev) {f : Fld} (h : f.reg.clear 0x20030300 0x20030320 = true) {i : Nat} (hi : i < dimsCount f.reg.dims) (n : Nat) :
    (f.inc i n).Preserves (EvSet e) := event_of_stores e (stores_inc (evstatOff_in h hi) n)

theorem bitOf_or_set {x k j : Nat} (hj : j < 32) (h : bitOf x j = true) : bitOf ((x ||| 2 ^ k) % 2 ^ 32) j = true := by
  have hb : (x ||| 2 ^ k) % 2 ^ 32 / 2 ^ j % 2 = (x ||| 2 ^ k) / 2 ^ j % 2 := by
    rw [← Nat.toNat_testBit, ← Nat.toNat_testBit, Nat.testBit_mod_two_pow]
    simp [hj]
  have := bitOf_or_two_pow x k j
  unfold bitOf at h this ⊢
  rw [hb, this, h, Bool.or_true]

/-- Another bit of a word of status bits is set. -/
theorem event_kept_evstat (e : Ev) (n : Nat) {s t : State} (h : EvSet e s) (ht : EvSet e t) :
    EvSet e ((R.SUMP_EVSTAT.set (n / 32) (R.SUMP_EVSTAT.val (n / 32) s ||| 2 ^ (n % 32))).run t) := by
  unfold EvSet at h ht ⊢
  by_cases hn : n / 32 = evNum e / 32
  · rw [hn, val_set]
    exact bitOf_or_set (Nat.mod_lt _ (by decide)) h
  · rw [val_set_apart, ht]
    intro w hw w' hw'
    have hw : w < 1 := hw
    have hw' : w' < 1 := hw'
    rw [key_one rfl rfl, key_one rfl rfl]
    omega

theorem note_keeps_event (e f : Ev) (d0 d1 d2 g : Nat) : (note f d0 d1 d2 g).Preserves (EvSet e) := fun s h => by
  have hinc := event_kept_inc e (f := F.SUMP_EVCNT_COUNT) (by decide) (i := evNum f) (evNum_lt f) 1
  rw [note, run_look, run_acts_cons, run_acts_cons]
  refine event_of_stores e ?_ _ (event_kept_evstat e (evNum f) h (hinc s h))
  refine ⟨stores_setSump _, (stores_onlyIf _ _).mpr fun _ => ?_⟩
  split
  · exact stores_setSump _
  · exact stores_inc (f := F.SUMP_LOST_COUNT) (evstatOff_in (by decide) (by decide)) 1

theorem enterSafe_keeps_event (e : Ev) : enterSafe.Preserves (EvSet e) := fun s h => by
  unfold EvSet at h ⊢
  rw [val_stores enterSafe_storesOnly (evstat_out (evSrc_bound e)), h]

theorem react_keeps_event (e : Ev) (cs : List Nat) : (react cs).Preserves (EvSet e) := fun s h => by
  unfold EvSet at h ⊢
  rw [val_stores (react_storesOnly cs) (evstat_out (evSrc_bound e)), h]

/-- No raise clears a status bit. -/
theorem raise_keeps_event (e f : Ev) (d0 d1 d2 g : Nat) : (raise f d0 d1 d2 g).Preserves (EvSet e) := by
  have hself : selfFault.Preserves (EvSet e) := preserves_acts <| by
    simp only [List.forall_mem_cons, List.not_mem_nil, false_imp_iff, implies_true, and_true]
    exact ⟨event_kept_fset e (by decide) (by decide) _, enterSafe_keeps_event e, note_keeps_event e _ _ _ _ _⟩
  refine preserves_look fun s => preserves_acts ?_
  simp only [List.forall_mem_cons, List.not_mem_nil, false_imp_iff, implies_true, and_true]
  exact ⟨preserves_look fun _ => preserves_onlyIf hself, note_keeps_event e f d0 d1 d2 g, react_keeps_event e _⟩

end Sys2Proof.Machine
end

