-- ==== Sys2Proof/Proofs/PoolFrees.lean ====
section
/-! SUPPORT. What items and their cells change, and the ports that hold them: the grant and the freeing of cells, the push and the pop of an item,
the flush of a port and the change of a link (R353–R364, R376, R377). -/

namespace Sys2Proof.Machine

theorem madeOf_mono {q q' : Upd → Prop} {a : Act} (h : a.MadeOf q) (hq : ∀ u, q u → q' u) : a.MadeOf q' := fun P hP =>
  h P ⟨fun u s hu => hP.upd u s (hq u hu), hP.raise⟩

/-- The words of the pool and of the error logs. -/
def itemWords (k : Nat) : Bool := (0x20000400 ≤ k && k < 0x20000800) || (0x200B0000 ≤ k && k < 0x200B1000)

/-- The updates that the operations on cells and items are made of. -/
def Upd.ofItems : Upd → Prop
  | .reg k _ => itemWords k = true
  | .pool _ | .ecc _ | .sump _ | .mem _ _ => True
  | _ => False

section
variable {r : Reg} {i : Nat} (h : r.within 0x20000400 0x20000800 = true ∨ r.within 0x200B0000 0x200B1000 = true) (hi : i < dimsCount r.dims)
include h hi

theorem itemWords_key : ∀ w < r.words, ∀ x, Upd.ofItems (.reg (r.key i w 0) x) := fun w hw x => by
  show itemWords _ = true
  unfold Reg.within at h
  simp only [Bool.and_eq_true, decide_eq_true_eq] at h
  simp only [itemWords, Bool.or_eq_true, Bool.and_eq_true, decide_eq_true_eq]
  rcases h with ⟨⟨hf, hlo⟩, hhi⟩ | ⟨⟨hf, hlo⟩, hhi⟩ <;> have hk := key_range hf hi hw 0 <;> omega

theorem items_rset (v : Nat) : (r.set i v).MadeOf Upd.ofItems := madeOf_rset (itemWords_key h hi) v

end

section
variable {f : Fld} {i : Nat} (h : f.reg.within 0x20000400 0x20000800 = true ∨ f.reg.within 0x200B0000 0x200B1000 = true)
  (hi : i < dimsCount f.reg.dims)
include h hi

theorem items_fset (v : Nat) : (f.set i v).MadeOf Upd.ofItems := madeOf_fset (itemWords_key h hi) v

theorem items_inc (n : Nat) : (f.inc i n).MadeOf Upd.ofItems := madeOf_inc (itemWords_key h hi) n

end

/-! ### Codewords, cells and queues -/

theorem items_eccJudge {ms : List (Nat × EccMark)} {req : Nat} {ev : Option Ev} {k : Bool → Act} (h : ∀ ok, (k ok).MadeOf Upd.ofItems) :
    (eccJudge ms req ev k).MadeOf Upd.ofItems := by
  refine madeOf_cons (madeOf_forEach fun p _ => ?_) (madeOf_cons (h _) madeOf_nil)
  split
  · refine madeOf_look fun s => madeOf_ite (madeOf_within fun _ => trivial) (items_inc (.inl (by decide)) (by decide) 1)
  · refine madeOf_look fun s => madeOf_cons (items_inc (.inl (by decide)) (by decide) 1) <|
      madeOf_cons (madeOf_onlyIf (items_rset (.inl (by decide)) (by decide) _)) <|
      madeOf_cons (madeOf_within fun _ => trivial) <| madeOf_cons ?_ madeOf_nil
    cases ev with
    | none => exact madeOf_done
    | some e => exact madeOf_raise e _ _ _ _

theorem items_readTag {c : Nat} {k : Nat → Bool → Act} (h : ∀ t ok, (k t ok).MadeOf Upd.ofItems) : (readTag c k).MadeOf Upd.ofItems :=
  madeOf_look fun _ => items_eccJudge fun ok => madeOf_look fun s => h (tagOf s c) ok

theorem items_setPool (f : PoolState → PoolState) : (setPool f).MadeOf Upd.ofItems := madeOf_within fun _ => trivial

theorem items_setTag (c : Nat) (t : Word) : (setTag c t).MadeOf Upd.ofItems := madeOf_seq (items_setPool _) (madeOf_within fun _ => trivial)

theorem items_countFree : countFree.MadeOf Upd.ofItems := by
  have mark (f : Fld) (h : f.reg.within 0x200B0000 0x200B1000 = true) (hd : 0 < dimsCount f.reg.dims) (v : Nat) : (f.set 0 v).MadeOf Upd.ofItems :=
    items_fset (.inr h) hd v
  refine madeOf_look fun s => madeOf_seq (mark F.POOL_STAT_FREE (by decide) (by decide) _) (madeOf_look fun s => madeOf_ite (madeOf_onlyIf ?_) ?_)
  · exact madeOf_cons (mark F.POOL_WMSTAT_ABOVE (by decide) (by decide) _) <| madeOf_cons (mark F.POOL_WMSTAT_CROSSED (by decide) (by decide) _) <|
      madeOf_cons (madeOf_onlyIf (madeOf_raise _ _ _ _ _)) madeOf_nil
  · exact madeOf_onlyIf (mark F.POOL_WMSTAT_ABOVE (by decide) (by decide) _)

theorem items_releaseCell (c q : Nat) : (releaseCell c q).MadeOf Upd.ofItems := madeOf_look fun _ =>
  madeOf_cons (items_setTag _ _) <| madeOf_cons (items_setPool _) <| madeOf_cons (items_setPool _) <| madeOf_cons items_countFree madeOf_nil

theorem items_poolErr (code req c : Nat) : (poolErr code req c).MadeOf Upd.ofItems := by
  have err (f : Fld) (h : f.reg.within 0x200B0000 0x200B1000 = true) (hd : 0 < dimsCount f.reg.dims) (v : Nat) : (f.set 0 v).MadeOf Upd.ofItems :=
    items_fset (.inr h) hd v
  exact madeOf_cons (err F.POOL_ERR_VALID (by decide) (by decide) _) <| madeOf_cons (err F.POOL_ERR_CODE (by decide) (by decide) _) <|
    madeOf_cons (err F.POOL_ERR_REQ (by decide) (by decide) _) <|
    madeOf_cons (items_inc (f := F.POOL_ERR_COUNT) (.inr (by decide)) (by decide) 1) <|
    madeOf_cons (err F.POOL_ERR_CELL (by decide) (by decide) _) <|
    madeOf_cons (madeOf_ite (madeOf_raise _ _ _ _ _) (madeOf_raise _ _ _ _ _)) madeOf_nil

theorem items_freeCell (req c : Nat) : (freeCell req c).MadeOf Upd.ofItems := items_readTag fun _ _ =>
  madeOf_ite madeOf_done <| madeOf_ite (items_poolErr _ _ _) <| madeOf_ite (items_poolErr _ _ _) (items_releaseCell _ _)

theorem items_freeCells (req : Nat) (cs : List Nat) : (freeCells_ req cs).MadeOf Upd.ofItems := madeOf_forEach fun _ _ => items_freeCell _ _

theorem items_setQueue (q : Nat) (f : PoolQ → PoolQ) : (setQueue q f).MadeOf Upd.ofItems := items_setPool _

theorem items_queueMark (q : Nat) : (queueMark q).MadeOf Upd.ofItems := madeOf_look fun _ =>
  madeOf_cons (items_setQueue _ _) <| madeOf_cons (madeOf_onlyIf (items_rset (r := R.POOL_QHIGH) (.inr (by decide)) (Nat.mod_lt _ (by decide)) _)) <|
    madeOf_cons (madeOf_onlyIf (madeOf_raise _ _ _ _ _)) madeOf_nil

theorem items_overdraw (q req : Nat) : (overdraw q req).MadeOf Upd.ofItems := madeOf_look fun _ =>
  madeOf_cons (items_setQueue _ _) <| madeOf_cons (madeOf_onlyIf (madeOf_raise _ _ _ _ _)) madeOf_nil

/-! ### Items -/

section
variable {q req : Nat}

theorem items_allocCell {owner : Nat} {lnk : Bool} {k : Option Nat → Act} (h : ∀ c, (k c).MadeOf Upd.ofItems) :
    (allocCell q req owner lnk k).MadeOf Upd.ofItems := by
  have hclosed (v : Nat) : (F.POOL_WMSTAT_CLOSED.set 0 v).MadeOf Upd.ofItems := items_fset (.inr (by decide)) (by decide) v
  refine madeOf_look fun s => madeOf_ite (h _) (madeOf_ite (madeOf_seq (items_overdraw _ _) (h _)) ?_)
  split
  · exact h _
  · exact items_readTag fun _ _ => madeOf_ite
      (madeOf_cons (items_setPool _) <| madeOf_cons (items_setTag _ _) <| madeOf_cons (items_setQueue _ _) <|
        madeOf_cons items_countFree <| madeOf_cons (h _) madeOf_nil)
      (madeOf_cons (hclosed _) <| madeOf_cons items_countFree <| madeOf_cons (h _) madeOf_nil)

theorem items_allocCells {n : Nat} {k fail : List Nat → Act} (hk : ∀ cs, (k cs).MadeOf Upd.ofItems) (hf : ∀ cs, (fail cs).MadeOf Upd.ofItems) :
    (allocCells q req n k fail).MadeOf Upd.ofItems := by
  induction n generalizing k fail with
  | zero => exact hk []
  | succ n ih =>
    refine items_allocCell fun c => ?_
    cases c with
    | none => exact hf []
    | some c => exact ih (fun cs => hk (c :: cs)) fun cs => hf (c :: cs)

theorem items_eccFull (a n : Nat) : (eccFull a n).MadeOf Upd.ofItems := madeOf_look fun _ => madeOf_ite madeOf_done (madeOf_within fun _ => trivial)

theorem items_memSetBytes (a : Nat) (bs : List Byte) : (memSetBytes a bs).MadeOf Upd.ofItems :=
  madeOf_within (within_forEach.mpr fun _ _ => trivial)

theorem items_poolPut (id a : Nat) (bs : List Byte) : (poolPut id a bs).MadeOf Upd.ofItems :=
  madeOf_cons (items_memSetBytes _ _) <| madeOf_cons (items_eccFull _ _) <| madeOf_cons (madeOf_onlyIf <| madeOf_look fun _ =>
    items_eccJudge fun _ => madeOf_seq (madeOf_onlyIf (madeOf_within fun _ => trivial)) (madeOf_onlyIf (items_memSetBytes _ _))) madeOf_nil

theorem items_cellsWrite (id : Nat) (cs : List Nat) (bs : List Byte) : (cellsWrite id cs bs).MadeOf Upd.ofItems := by
  induction cs generalizing bs with
  | nil => exact madeOf_done
  | cons c cs ih => exact madeOf_seq (items_poolPut _ _ _) (ih _)

theorem items_linkItem (q : Nat) (cells : List Nat) : (linkItem q cells).MadeOf Upd.ofItems := madeOf_look fun s => by
  dsimp only
  split
  · exact madeOf_cons (madeOf_onlyIf (items_setTag _ _)) <| madeOf_cons (items_setQueue _ _) <| madeOf_cons (items_queueMark _) madeOf_nil
  · exact madeOf_done

theorem items_tailGood {k : Act} (h : k.MadeOf Upd.ofItems) : (tailGood q k).MadeOf Upd.ofItems := madeOf_look fun _ =>
  madeOf_ite h (items_readTag fun _ _ => madeOf_ite h (items_setQueue _ _))

theorem items_pushCell (req c : Nat) (last : Bool) : (pushCell req c last).MadeOf Upd.ofItems := items_readTag fun t ok => madeOf_look fun s => by
  refine madeOf_ite madeOf_done (madeOf_ite (items_poolErr _ _ _) (madeOf_ite (items_poolErr _ _ _) (madeOf_ite madeOf_done ?_)))
  have hlink (a : Act) (ha : a.MadeOf Upd.ofItems) : (acts [setTag c (mkTag true last true poolEngine 0), a,
      if last then .seq (setPool fun p => { p with opens := smErase p.opens req })
        (linkItem (tagLink t % 4096) ((match smFind s.pool.opens req with | some o => o.cells | none => []) ++ [c]))
      else setPool fun p => { p with opens := smInsert p.opens req ⟨tagLink t % 4096,
        (match smFind s.pool.opens req with | some o => o.cells | none => []) ++ [c]⟩ }]).MadeOf Upd.ofItems :=
    madeOf_cons (items_setTag _ _) <| madeOf_cons ha <| madeOf_cons (madeOf_ite (madeOf_seq (items_setPool _) (items_linkItem _ _)) (items_setPool _)) madeOf_nil
  have hprev : (match smFind s.pool.opens req with
      | some o => (match o.cells.getLast? with
        | some p => setTag p (mkTag true false true poolEngine c)
        | none => .done)
      | none => .done : Act).MadeOf Upd.ofItems := by
    split
    · split
      · exact items_setTag _ _
      · exact madeOf_done
    · exact madeOf_done
  cases last with
  | false => exact hlink _ hprev
  | true => exact items_tailGood (hlink _ hprev)

theorem items_pushItem (req : Nat) (cs : List Nat) : (pushItem req cs).MadeOf Upd.ofItems := by
  induction cs with
  | nil => exact madeOf_done
  | cons c cs ih =>
    cases cs with
    | nil => exact items_pushCell _ _ _
    | cons d ds => exact madeOf_seq (items_pushCell _ _ _) ih

theorem items_storeItem {bs : List Byte} {k : Bool → Act} (h : ∀ b, (k b).MadeOf Upd.ofItems) : (storeItem q req bs k).MadeOf Upd.ofItems :=
  madeOf_look fun _ => madeOf_ite (h _) <| items_allocCells
    (fun _ => madeOf_cons (items_cellsWrite _ _ _) <| madeOf_cons madeOf_done <| madeOf_cons (items_pushItem _ _) <| madeOf_cons (h _) madeOf_nil)
    fun _ => madeOf_seq (items_freeCells _ _) (h _)

theorem items_takeCell {c : Nat} {rest : List Nat} {k : Nat → Act} (h : ∀ v, (k v).MadeOf Upd.ofItems) :
    (takeCell req q c rest k).MadeOf Upd.ofItems := items_readTag fun _ _ => madeOf_ite
  (madeOf_cons (items_setTag _ _) <| madeOf_cons (items_setQueue _ _) <| madeOf_cons (items_queueMark _) <| madeOf_cons (items_setPool _) <|
    madeOf_cons (h _) madeOf_nil)
  (madeOf_cons (items_setQueue _ _) <| madeOf_cons (items_setPool _) <| madeOf_cons (h _) madeOf_nil)

end

/-! ### Ports -/

/-- The words of the pool, of the Ethernet block and of the error logs. -/
def portWords (k : Nat) : Bool := (0x20000400 ≤ k && k < 0x20000800) || (0x200B0000 ≤ k && k < 0x200B1000) || (0x200C0000 ≤ k && k < 0x200D0000)

/-- The updates that changing ports and their items are made of. -/
def Upd.ofPorts : Upd → Prop
  | .reg k _ => portWords k = true
  | .pool _ | .ecc _ | .eth _ | .sump _ | .mem _ _ => True
  | _ => False

theorem ofPorts_of_items {u : Upd} (h : u.ofItems) : u.ofPorts := by
  cases u with
  | reg k v =>
    have h : itemWords k = true := h
    show portWords k = true
    rw [itemWords] at h
    rw [portWords, h, Bool.true_or]
  | _ => trivial

theorem ports_of_items {a : Act} (h : a.MadeOf Upd.ofItems) : a.MadeOf Upd.ofPorts := madeOf_mono h fun _ => ofPorts_of_items

section
variable {f : Fld} {i : Nat} (h : f.reg.within 0x200C0000 0x200D0000 = true) (hi : i < dimsCount f.reg.dims)
include h hi

theorem portWords_key : ∀ w < f.reg.words, ∀ x, Upd.ofPorts (.reg (f.reg.key i w 0) x) := fun w hw x => by
  show portWords _ = true
  unfold Reg.within at h
  simp only [Bool.and_eq_true, decide_eq_true_eq] at h
  simp only [portWords, Bool.or_eq_true, Bool.and_eq_true, decide_eq_true_eq]
  obtain ⟨⟨hf, hlo⟩, hhi⟩ := h
  have hk := key_range hf hi hw 0
  omega

theorem ports_fset (v : Nat) : (f.set i v).MadeOf Upd.ofPorts := madeOf_fset (portWords_key h hi) v

end

theorem ports_setEth (f : EthState → EthState) : (setEth f).MadeOf Upd.ofPorts := madeOf_within fun _ => trivial

theorem ports_freeCells (req : Nat) (cs : List Nat) : (freeCells_ req cs).MadeOf Upd.ofPorts := ports_of_items (items_freeCells req cs)

theorem ports_setPort (p : Nat) (f : EthPort → EthPort) : (setPort p f).MadeOf Upd.ofPorts := ports_setEth _

theorem ports_itemLeave (i p : Nat) : (itemLeave i p).MadeOf Upd.ofPorts := by
  refine madeOf_look fun s => ?_
  dsimp only
  split
  · exact madeOf_done
  · exact madeOf_ite (madeOf_seq (ports_setEth _) (ports_freeCells _ _)) (ports_setEth _)

theorem ports_pcnt {p k : Nat} (hp : p < 5) (hk : k < 9) : (pcnt p k).MadeOf Upd.ofPorts := madeOf_inc (fun w hw x => by
  have hw : w < 1 := hw
  have hkey : F.ETH_PCNT_COUNT.reg.key (9 * p + k) w 0 = 0x200C0100 + ((9 * p + k) / 9 * 0x400 + (9 * p + k) % 9 * 4) + 4 * w := by
    simp [Reg.key, Reg.addr, F.ETH_PCNT_COUNT, R.ETH_PCNT, dimsOfs, dimsCount]
  show portWords _ = true
  rw [hkey]
  simp only [portWords, Bool.or_eq_true, Bool.and_eq_true, decide_eq_true_eq]
  omega) 1

theorem ports_portFlush {p : Nat} (hp : p < 5) : (portFlush p).MadeOf Upd.ofPorts := madeOf_look fun _ =>
  madeOf_seq (ports_setPort _ _) (madeOf_forEach fun _ _ => madeOf_seq (ports_pcnt hp (by decide)) (ports_itemLeave _ _))

theorem ports_linkChange {p : Nat} (hp : p < 4) (up : Bool) : (linkChange p up).MadeOf Upd.ofPorts := madeOf_look fun _ =>
  madeOf_ite madeOf_done <|
    madeOf_cons (ports_fset (f := F.ETH_PSTAT_LINK) (by decide) (show p < dimsCount [(4, 0x400)] from hp) _) <|
    madeOf_cons (ports_fset (f := F.ETH_PSTAT_LINKCHG) (by decide) (show p < dimsCount [(4, 0x400)] from hp) _) <|
    madeOf_cons (madeOf_raise _ _ _ _ _) <| madeOf_cons (madeOf_onlyIf (ports_portFlush (by omega))) madeOf_nil

end Sys2Proof.Machine
end

