-- ==== Sys2Proof/Proofs/PowerUnit.lean ====
section
/-! SUPPORT. The inputs, the mains and the shutdown (R577–R592). -/

namespace Sys2Proof.Machine

/-! ### What a report leaves of the power unit -/

/-- The word is not one of the power unit. -/
def pwrOff (k : Nat) : Bool := outside 0x20140000 0x20150000 k

/-- The power unit stands as it did. -/
structure PowerKept (s t : State) : Prop where
  pwr : t.pwr = s.pwr
  regs : ∀ r : Reg, WordsOut pwrOff r 0 0 → r.val 0 t = r.val 0 s

theorem PowerKept.get {s t : State} (h : PowerKept s t) {f : Fld} (hf : f.reg.within 0x20140000 0x20150000 = true)
    (hd : 0 < dimsCount f.reg.dims) : f.get 0 t = f.get 0 s := by
  unfold Fld.get
  rw [h.regs _ (within_out hf hd 0)]

/-- The update stores no word of the power unit, nor what it holds. -/
def Upd.sparesPower : Upd → Prop
  | .reg k _ => pwrOff k = true
  | .pwr _ | .nodeReset _ => False
  | _ => True

theorem powerKept_within {a : Act} (h : a.Within Upd.sparesPower) (s : State) : PowerKept s (a.run s) :=
  ⟨within_keeps (f := (·.pwr)) h (fun u s hu => by
    cases u with
    | pwr | nodeReset => exact hu.elim
    | _ => rfl) s, fun _ hr => val_stores (within_mono (fun u hu => by
      cases u with
      | reg k v => exact hu
      | nodeReset => exact hu.elim
      | _ => trivial) h) hr s⟩

theorem pwrOff_raise {k : Nat} (h : raiseRegs k = true) : pwrOff k = true := by
  have b1 : R.ROPE_STAT.base = 0x20060008 := rfl
  have b2 : R.PAIR_STAT.base = 0x20110008 := rfl
  have b3 : R.PAIR_HIST.base = 0x2011000C := rfl
  unfold raiseRegs at h
  rw [b1, b2, b3] at h
  simp only [Bool.or_eq_true, Bool.and_eq_true, decide_eq_true_eq] at h
  simp only [pwrOff, outside, Bool.or_eq_true, decide_eq_true_eq]
  omega

theorem raise_sparesPower (e : Ev) (d0 d1 d2 g : Nat) : (raise e d0 d1 d2 g).Within Upd.sparesPower :=
  within_kinds (touches_raise e d0 d1 d2 g) (stores_raise e d0 d1 d2 g) fun u hk hr hn => by
    cases u with
    | reg k v => exact pwrOff_raise (hr k v rfl)
    | pwr => exact absurd hk (show Kind.pwr ∉ raiseKinds by decide)
    | nodeReset b => exact (hn b rfl).elim
    | _ => trivial

theorem PowerKept.trans {s t u : State} (h : PowerKept s t) (h' : PowerKept t u) : PowerKept s u :=
  ⟨h'.pwr.trans h.pwr, fun r hr => (h'.regs r hr).trans (h.regs r hr)⟩

theorem powerKept_refl (s : State) : PowerKept s s := ⟨rfl, fun _ _ => rfl⟩

theorem keeper_power (s : State) : Keeper Upd.ofPorts (PowerKept s) where
  upd u t hu h := h.trans (powerKept_within (a := .upd u) (by
    cases u with
    | reg k v =>
      show pwrOff k = true
      have hu : portWords k = true := hu
      simp only [portWords, Bool.or_eq_true, Bool.and_eq_true, decide_eq_true_eq] at hu
      simp only [pwrOff, outside, Bool.or_eq_true, decide_eq_true_eq]
      omega
    | pwr | nodeReset => exact hu
    | _ => trivial) t)
  raise e d0 d1 d2 g t h := h.trans (powerKept_within (raise_sparesPower e d0 d1 d2 g) t)

theorem keeper_event (e : Ev) : Keeper Upd.ofPorts (EvSet e) where
  upd u t hu h := event_of_stores (a := .upd u) e (by
    cases u with
    | reg k v =>
      show evstatOff k = true
      have hu : portWords k = true := hu
      simp only [portWords, Bool.or_eq_true, Bool.and_eq_true, decide_eq_true_eq] at hu
      simp only [evstatOff, outside, Bool.or_eq_true, decide_eq_true_eq]
      omega
    | nodeReset => exact hu
    | _ => trivial) t h
  raise f d0 d1 d2 g := raise_keeps_event e f d0 d1 d2 g

theorem ports_portsWake : portsWake.MadeOf Upd.ofPorts := madeOf_forEach fun _ hp => ports_linkChange (List.mem_range.mp hp) false

/-! ### Inputs -/

theorem inAt_setIn (i : Nat) (x : InState) (s : State) : inAt ((setIn i x).run s) i = x := get_put_self _ _ _ _

theorem inAt_congr {s t : State} (h : t.pwr = s.pwr) (i : Nat) : inAt t i = inAt s i := by unfold inAt; rw [h]

theorem inPin_settles (i : Nat) (s : State) : let t := (inPin i false).run s
    (inAt t i).low = !(inAt s i).low ∧ (inAt t i).active = (inAt s i).active := by
  have h : inAt ((inPin i false).run s) i = { inAt s i with low := !(inAt s i).low, since := s.elapsed } := inAt_setIn _ _ s
  dsimp only
  rw [h]
  exact ⟨rfl, rfl⟩

theorem inPin_absorbs {i : InPin} {s : State} (hv : s.pwr.vdd = true) : let t := (inPin i true).run s
    (inAt t i).low = (inAt s i).low ∧ (inAt t i).absorbed = (inAt s i).absorbed + 1 ∧
      F.PWR_INOVF_COUNT.get i t = satInc 16 (F.PWR_INOVF_COUNT.get i s) 1 := by
  have hrun : (inPin i true).run s = (F.PWR_INOVF_COUNT.inc i).run
      ((setIn i { inAt s i with absorbed := (inAt s i).absorbed + 1, since := s.elapsed }).run s) := by
    rw [inPin, run_look, hv]
    rfl
  have hpwr (t : State) : ((F.PWR_INOVF_COUNT.inc i).run t).pwr = t.pwr := by rw [inc_frame]
  dsimp only
  rw [hrun, inAt_congr (hpwr _), inAt_setIn, get_inc_same F.PWR_INOVF_COUNT (by decide)]
  exact ⟨rfl, rfl, rfl⟩

/-- What an input sets off spares what the power unit holds, and stores no status bit. -/
theorem inAction_spares {i : Nat} {b : Bool} {s : State} (hl : s.pwr.listen = false) :
    ((inAction i b).run s).pwr = s.pwr ∧ ∀ e, EvSet e s → EvSet e ((inAction i b).run s) := by
  have hsend (a v : Nat) : (sendWrite a v).Touches [.pair, .reg, .strata] ∧ (sendWrite a v).Stores evstatOff := by
    have hq (n : Nat) (x : SipBody) : (sipQueue n x).Touches [.pair, .reg, .strata] ∧ (sipQueue n x).Stores evstatOff :=
      ⟨touches_sipQueue (by decide) n x, fun s => (stores_onlyIf _ _).mpr fun _ => stores_setPair _⟩
    refine ⟨fun s => (within_onlyIf _ _).mpr fun _ => ⟨fun _ => ?_, (hq _ _).1⟩, fun s => (stores_onlyIf _ _).mpr fun _ => ⟨stores_setPair _, (hq _ _).2⟩⟩
    exact (show Kind.pair ∈ [Kind.pair, .reg, .strata] by decide)
  have htrig : strataTrigger.Touches [.pair, .reg, .strata] ∧ strataTrigger.Stores evstatOff := by
    have hin : WordsIn evstatOff R.STRATA_SWSTAT 0 0 := evstatOff_in (by decide) (by decide)
    have hreg : Kind.reg ∈ [Kind.pair, .reg, .strata] := by decide
    constructor
    · refine fun s => within_ite ⟨touches_fset hreg F.STRATA_SWSTAT_STATE 0 3 0, fun _ => ?_⟩ (within_ite trivial
        ⟨touches_fset hreg F.STRATA_SWSTAT_RESULT 0 9 0, touches_inc hreg F.STRATA_SWSTAT_REFCNT 0 1⟩)
      exact (show Kind.strata ∈ [Kind.pair, .reg, .strata] by decide)
    · exact fun s => within_ite ⟨stores_fset (f := F.STRATA_SWSTAT_STATE) hin 3, stores_setStrata _⟩ (within_ite trivial
        ⟨stores_fset (f := F.STRATA_SWSTAT_RESULT) hin 9, stores_inc (f := F.STRATA_SWSTAT_REFCNT) hin 1⟩)
  have hevin (n : Nat) : (evinTrigger n).Touches [.pair, .reg, .strata] ∧ (evinTrigger n).Stores evstatOff :=
    ⟨fun s => within_ite ⟨(within_onlyIf _ _).mpr fun _ => (hsend _ _).1, htrig.1⟩ trivial,
      fun s => within_ite ⟨(stores_onlyIf _ _).mpr fun _ => (hsend _ _).2, htrig.2⟩ trivial⟩
  have hact : ∃ a : Act, a.Touches [.pair, .reg, .strata] ∧ a.Stores evstatOff ∧ (inAction i b).run s = a.run s := by
    have hg : (b && s.pwr.listen && F.PWR_INCFG_WAKE.on i s) = false := by rw [hl, Bool.and_false, Bool.false_and]
    rw [inAction, run_look, hg, if_neg (by decide)]
    refine ⟨if i = 0 then sendMute else onlyIf b (evinTrigger (i - 1)), ?_, ?_, rfl⟩
    · exact within_ite (fun s => (hsend _ _).1) ((within_onlyIf _ _).mpr fun _ => (hevin _).1)
    · exact within_ite (fun s => (hsend _ _).2) ((stores_onlyIf _ _).mpr fun _ => (hevin _).2)
  obtain ⟨a, ht, hs, hrun⟩ := hact
  rw [hrun]
  exact ⟨touches_pwr ht (by decide) (by decide) s, fun e => event_of_stores e hs s⟩

theorem inFilter_takes {i : InPin} {s : State} (hv : s.pwr.vdd = true) (hl : s.pwr.listen = false) (ha : inActive s i ≠ (inAt s i).active)
    (hp : passed (inAt s i).since (usCycles (max 10 (F.PWR_INCFG_DEB.get i s)) s) s = true) : let t := (inFilter i).run s
    (inAt t i).active = inActive s i ∧ (inAt t i).absorbed = 0 ∧ (0 < (inAt s i).absorbed → EvSet .IN_COALESCE t) := by
  let x : InState := { inAt s i with active := inActive s i, absorbed := 0, changed := s.elapsed }
  let u := (onlyIf (!inActive s i) (F.PWR_INSTAT_STUCK.set 0 (putBits (F.PWR_INSTAT_STUCK.get 0 s) i i 0))).run ((setIn i x).run s)
  let v := (onlyIf (decide (0 < (inAt s i).absorbed)) (raise .IN_COALESCE i (inAt s i).absorbed)).run u
  have hrun : (inFilter i).run s = (inAction i (inActive s i)).run v := by
    rw [inFilter, run_look]
    simp only [ha, hv, hp, decide_false, Bool.not_true, Bool.or_self, Bool.false_eq_true, if_false]
    rfl
  have hu : u.pwr = ((setIn i x).run s).pwr := by
    show State.pwr ((onlyIf (!inActive s i) _).run _) = _
    cases inActive s i
    · rw [Bool.not_false, onlyIf_true, fset_frame]
    · rfl
  have hv : v.pwr = u.pwr := (powerKept_within ((within_onlyIf _ _).mpr fun _ => raise_sparesPower _ _ _ _ _) u).pwr
  obtain ⟨hpwr, hev⟩ := inAction_spares (i := i) (b := inActive s i) (s := v) (by rw [hv, hu]; exact hl)
  have hin : inAt ((inAction i (inActive s i)).run v) i = x := by
    rw [inAt_congr (hpwr.trans (hv.trans hu))]
    exact inAt_setIn _ _ s
  dsimp only
  rw [hrun, hin]
  refine ⟨rfl, rfl, fun hpos => hev _ ?_⟩
  show EvSet _ ((onlyIf (decide (0 < (inAt s i).absorbed)) _).run u)
  rw [decide_eq_true hpos, onlyIf_true]
  exact raise_sets ..

/-- A bit that was clear is set by the addition of its weight. -/
theorem bitOf_add_pow {b i n : Nat} (hi : i < n) (h : bitOf b i = false) : bitOf ((b + 2 ^ i) % 2 ^ n) i = true := by
  have htest (y : Nat) : bitOf y i = y.testBit i := by
    rw [Nat.testBit_eq_decide_div_mod_eq]
    unfold bitOf
    exact beq_eq_decide _ 1
  rw [htest] at h ⊢
  rw [Nat.testBit_mod_two_pow, Nat.add_comm, Nat.testBit_two_pow_add_eq, h]
  simp [hi]

theorem inStuck_sets {i : InPin} {s : State} (hv : s.pwr.vdd = true) (ha : (inAt s i).active = true) (hm : F.PWR_INCFG_STUCK.get i s ≠ 0)
    (hb : bitOf (F.PWR_INSTAT_STUCK.get 0 s) i = false)
    (hp : passed (inAt s i).changed (msCycles (F.PWR_INCFG_STUCK.get i s) s) s = true) : let t := (inStuck i).run s
    bitOf (F.PWR_INSTAT_STUCK.get 0 t) i = true ∧ EvSet .IN_STUCK t := by
  have hrun : (inStuck i).run s =
      (raise .IN_STUCK i).run ((F.PWR_INSTAT_STUCK.set 0 (F.PWR_INSTAT_STUCK.get 0 s + 2 ^ i.val)).run s) := by
    rw [inStuck, run_look]
    simp only [ha, hv, hb, hp, ne_eq, hm, not_false_eq_true, decide_true, Bool.not_false, Bool.and_self, if_true]
    rfl
  dsimp only
  rw [hrun]
  refine ⟨?_, raise_sets ..⟩
  rw [(powerKept_within (raise_sparesPower _ _ _ _ _) _).get (by decide) (by decide)]
  rw [get_set F.PWR_INSTAT_STUCK 0 _ 0 s (by decide) (by decide)]
  exact bitOf_add_pow i.isLt hb

/-! ### The mains -/

/-- What the mains' judgement leaves in either case: the peak, the half-cycles kept, and the levels. -/
structure PeaksKept (s t : State) : Prop where
  vpk : F.PWR_MSTAT_VPK.get 0 t = F.PWR_MSTAT_VPK.get 0 s
  vpks : t.pwr.vpks = s.pwr.vpks
  mcfg : R.PWR_MCFG.val 0 t = R.PWR_MCFG.val 0 s

theorem PeaksKept.trans {s t u : State} (h : PeaksKept s t) (h' : PeaksKept t u) : PeaksKept s u :=
  ⟨h'.vpk.trans h.vpk, h'.vpks.trans h.vpks, h'.mcfg.trans h.mcfg⟩

theorem PowerKept.peaks {s t : State} (h : PowerKept s t) : PeaksKept s t :=
  ⟨h.get (by decide) (by decide), by rw [h.pwr], h.regs _ (within_out (by decide) (by decide) 0)⟩

theorem peaksKept_below (v : Nat) (s : State) : PeaksKept s ((F.PWR_MSTAT_BELOW.set 0 v).run s) where
  vpk := get_set_other F.PWR_MSTAT_VPK F.PWR_MSTAT_BELOW rfl (by decide) 0 v s
  vpks := by rw [fset_frame]
  mcfg := val_fset_apart (f := F.PWR_MSTAT_BELOW) (apart_of_away (by decide) (by decide) (by decide) 0 0) v s

/-- A field of `PWR_STAT` is stored. -/
theorem peaksKept_stat {f : Fld} (hf : f.reg = R.PWR_STAT) (v : Nat) (s : State) : PeaksKept s ((f.set 0 v).run s) where
  vpk := get_set_apart F.PWR_MSTAT_VPK f (hf ▸ apart_of_away (by decide) (by decide) (by decide) 0 0) v s
  vpks := by rw [fset_frame]
  mcfg := val_fset_apart (f := f) (hf ▸ apart_of_away (by decide) (by decide) (by decide) 0 0) v s

theorem peaksKept_setPwr {f : PwrState → PwrState} (hf : ∀ p, (f p).vpks = p.vpks) (s : State) : PeaksKept s ((setPwr f).run s) :=
  ⟨rfl, hf s.pwr, rfl⟩

theorem peaksKept_sdEnter (k : Nat) (s : State) : PeaksKept s ((sdEnter k).run s) :=
  (peaksKept_stat (f := F.PWR_STAT_SD) rfl k s).trans (powerKept_within (raise_sparesPower .PWR_SHUTDOWN k 0 0 0) _).peaks

theorem sdEnter_enters {k : Nat} (hk : k < 8) (s : State) : sdSt ((sdEnter k).run s) = k ∧ EvSet .PWR_SHUTDOWN ((sdEnter k).run s) := by
  refine ⟨?_, raise_sets ..⟩
  have hkept := (powerKept_within (raise_sparesPower .PWR_SHUTDOWN k 0 0 0) ((F.PWR_STAT_SD.set 0 k).run s)).get (f := F.PWR_STAT_SD)
    (by decide) (by decide)
  exact hkept.trans (get_set_same F.PWR_STAT_SD (by decide) hk 0 s)

theorem event_kept_sdEnter (e : Ev) (k : Nat) : (sdEnter k).Preserves (EvSet e) :=
  preserves_seq (event_kept_fset e (f := F.PWR_STAT_SD) (by decide) (by decide) k) (raise_keeps_event e _ _ _ _ _)

/-- What a brown-out does before the shutdown sequence is started. -/
def brownShown (s : State) : Act := acts [F.PWR_MSTAT_BELOW.set 0 1, raise .MAINS_LOW 1, onlyIf s.pwr.listen portsWake,
  setPwr fun p => { p with listen := false }]

/-- The start of the shutdown sequence. -/
def sdStart (s : State) : Act :=
  onlyIf (F.PWR_MCFG_SD_EN.on 0 s && sdSt s == 0) (.seq (setPwr fun p => { p with sdAt := s.elapsed, returned := false }) (sdEnter 1))

theorem brownOut_run (s : State) : brownOut.run s = (sdStart s).run ((brownShown s).run s) := by
  rw [brownOut, run_look, acts_five, brownShown, acts_four]
  rfl

theorem brownShown_shows (s : State) : let t := (brownShown s).run s
    PeaksKept s t ∧ F.PWR_MSTAT_BELOW.get 0 t = 1 ∧ EvSet .MAINS_LOW t := by
  let u := (F.PWR_MSTAT_BELOW.set 0 1).run s
  let v := (raise .MAINS_LOW 1).run u
  have hkept : PowerKept u ((onlyIf s.pwr.listen portsWake).run v) :=
    (powerKept_within (raise_sparesPower .MAINS_LOW 1 0 0 0) u).trans (preserves_onlyIf (ports_portsWake _ (keeper_power v)) v (powerKept_refl v))
  have hev : EvSet .MAINS_LOW ((onlyIf s.pwr.listen portsWake).run v) :=
    preserves_onlyIf (ports_portsWake _ (keeper_event .MAINS_LOW)) v (raise_sets ..)
  dsimp only
  rw [brownShown, acts_four]
  exact ⟨((peaksKept_below 1 s).trans hkept.peaks).trans (peaksKept_setPwr (f := fun p => { p with listen := false }) (fun _ => rfl) _),
    (hkept.get (f := F.PWR_MSTAT_BELOW) (by decide) (by decide)).trans (get_set_same F.PWR_MSTAT_BELOW (by decide) (by decide) 0 s), hev⟩

theorem peaksKept_refl (s : State) : PeaksKept s s := ⟨rfl, rfl, rfl⟩

theorem peaksKept_onlyIf {b : Bool} {a : Act} {s : State} (h : PeaksKept s (a.run s)) : PeaksKept s ((onlyIf b a).run s) := by
  cases b
  · exact peaksKept_refl s
  · exact h

theorem peaksKept_sdStart (u s : State) : PeaksKept s ((sdStart u).run s) :=
  peaksKept_onlyIf ((peaksKept_setPwr (f := fun p => { p with sdAt := u.elapsed, returned := false }) (fun _ => rfl) s).trans
    (peaksKept_sdEnter 1 _))

theorem below_sdStart (u s : State) : F.PWR_MSTAT_BELOW.get 0 ((sdStart u).run s) = F.PWR_MSTAT_BELOW.get 0 s := by
  unfold sdStart
  cases F.PWR_MCFG_SD_EN.on 0 u && sdSt u == 0 with
  | false => rfl
  | true =>
    have hkept := (powerKept_within (raise_sparesPower .PWR_SHUTDOWN 1 0 0 0) ((F.PWR_STAT_SD.set 0 1).run
      ((setPwr fun p => { p with sdAt := u.elapsed, returned := false }).run s))).get (f := F.PWR_MSTAT_BELOW) (by decide) (by decide)
    exact hkept.trans (get_set_apart F.PWR_MSTAT_BELOW F.PWR_STAT_SD (apart_of_away (by decide) (by decide) (by decide) 0 0) 1 _)

/-- A brown-out (R585, R586). -/
theorem brownOut_done (s : State) : let t := brownOut.run s
    PeaksKept s t ∧ F.PWR_MSTAT_BELOW.get 0 t = 1 ∧ EvSet .MAINS_LOW t ∧
      (F.PWR_MCFG_SD_EN.on 0 s = true → sdSt s = 0 → sdSt t = 1 ∧ EvSet .PWR_SHUTDOWN t) := by
  obtain ⟨hkept, hbelow, hev⟩ := brownShown_shows s
  dsimp only
  rw [brownOut_run]
  refine ⟨hkept.trans (peaksKept_sdStart _ _), (below_sdStart _ _).trans hbelow, ?_, fun hen hsd => ?_⟩
  · exact preserves_onlyIf (preserves_seq (event_of_stores _ (stores_setPwr _)) (event_kept_sdEnter _ 1)) _ hev
  · have hgo : (F.PWR_MCFG_SD_EN.on 0 s && sdSt s == 0) = true := by rw [hen, hsd]; rfl
    rw [sdStart, hgo, onlyIf_true]
    exact sdEnter_enters (by decide) _

/-- An abort of the shutdown sequence in S1. -/
theorem abort_counts (s : State) : let t := (Act.seq (F.PWR_STAT_SD.set 0 0) (F.PWR_STAT_ABORTS.inc 0)).run s
    PeaksKept s t ∧ F.PWR_MSTAT_BELOW.get 0 t = F.PWR_MSTAT_BELOW.get 0 s ∧ sdSt t = 0 ∧
      F.PWR_STAT_ABORTS.get 0 t = satInc 16 (F.PWR_STAT_ABORTS.get 0 s) 1 := by
  have hstat (f : Fld) (hf : f.reg = R.PWR_STAT) (v : Nat) (t : State) :
      F.PWR_MSTAT_BELOW.get 0 ((f.set 0 v).run t) = F.PWR_MSTAT_BELOW.get 0 t :=
    get_set_apart F.PWR_MSTAT_BELOW f (hf ▸ apart_of_away (by decide) (by decide) (by decide) 0 0) v t
  have hsd := get_set_same F.PWR_STAT_SD (by decide) (x := 0) (by decide) 0 s
  have hab := get_set_other F.PWR_STAT_ABORTS F.PWR_STAT_SD rfl (by decide) 0 0 s
  have hbelow := hstat F.PWR_STAT_SD rfl 0 s
  have hkept := peaksKept_stat (f := F.PWR_STAT_SD) rfl 0 s
  dsimp only
  rw [run_seq]
  generalize (F.PWR_STAT_SD.set 0 0).run s = u at hsd hab hbelow hkept
  refine ⟨hkept.trans (peaksKept_stat (f := F.PWR_STAT_ABORTS) rfl _ u), (hstat F.PWR_STAT_ABORTS rfl _ u).trans hbelow,
    (get_inc_other F.PWR_STAT_SD F.PWR_STAT_ABORTS rfl (by decide) 0 1 u).trans hsd, ?_⟩
  rw [get_inc_same F.PWR_STAT_ABORTS (by decide), hab]
  rfl

/-- A return, but for one that comes in S4 (R585, R586). -/
theorem mainsReturn_done {s : State} (h4 : sdSt s ≠ 4) : let t := mainsReturn.run s
    PeaksKept s t ∧ F.PWR_MSTAT_BELOW.get 0 t = 0 ∧
      (sdSt s = 1 → sdSt t = 0 ∧ F.PWR_STAT_ABORTS.get 0 t = satInc 16 (F.PWR_STAT_ABORTS.get 0 s) 1) := by
  have hbelow := get_set_same F.PWR_MSTAT_BELOW (by decide) (x := 0) (by decide) 0 s
  have haborts := get_set_apart (i := 0) (j := 0) F.PWR_STAT_ABORTS F.PWR_MSTAT_BELOW (apart_of_away (by decide) (by decide) (by decide) 0 0) 0 s
  have hkept := peaksKept_below 0 s
  dsimp only
  rw [mainsReturn, run_look, run_seq]
  generalize (F.PWR_MSTAT_BELOW.set 0 0).run s = u at hbelow haborts hkept
  split
  · next h0 => exact ⟨hkept, hbelow, fun h => by omega⟩
  · next h1 =>
    obtain ⟨hpeaks, hstays, hsd, hcount⟩ := abort_counts u
    exact ⟨hkept.trans hpeaks, hstays.trans hbelow, fun _ => ⟨hsd, by rw [hcount, haborts]⟩⟩
  · next h4' => exact absurd h4' h4
  · next h0 h1 _ => exact ⟨hkept.trans (peaksKept_setPwr (f := fun p => { p with returned := true }) (fun _ => rfl) u), hbelow, fun h => absurd h h1⟩

/-- The judgement of the levels leaves the peaks and the levels. -/
theorem peaksKept_mainsJudge {s : State} (h4 : sdSt s ≠ 4) : PeaksKept s (mainsJudge.run s) := by
  rw [mainsJudge, run_look]
  split
  · exact peaksKept_onlyIf (mainsReturn_done h4).1
  · exact peaksKept_onlyIf (brownOut_done s).1

/-- The state in which the levels are judged at the end of a half-cycle. -/
def halfEnded (v : Nat) (s : State) : State := (setPwr fun p => { p with vpks := (v :: p.vpks).take 15 }).run ((F.PWR_MSTAT_VPK.set 0 v).run s)

theorem halfCycle_run {v : Nat} {s : State} (hv : s.pwr.vdd = true) : (halfCycle v).run s = mainsJudge.run (halfEnded v s) := by
  rw [halfCycle, run_look, hv, Bool.not_true, if_neg (by decide), acts_three]
  rfl

theorem halfEnded_regs {v : Nat} (hv : v < 65536) (s : State) : F.PWR_MSTAT_VPK.get 0 (halfEnded v s) = v ∧
    F.PWR_MSTAT_BELOW.get 0 (halfEnded v s) = F.PWR_MSTAT_BELOW.get 0 s ∧ R.PWR_MCFG.val 0 (halfEnded v s) = R.PWR_MCFG.val 0 s ∧
    R.PWR_STAT.val 0 (halfEnded v s) = R.PWR_STAT.val 0 s :=
  ⟨get_set_same F.PWR_MSTAT_VPK (by decide) hv 0 s, get_set_other F.PWR_MSTAT_BELOW F.PWR_MSTAT_VPK rfl (by decide) 0 v s,
    val_fset_apart (f := F.PWR_MSTAT_VPK) (apart_of_away (by decide) (by decide) (by decide) 0 0) v s,
    val_fset_apart (f := F.PWR_MSTAT_VPK) (apart_of_away (by decide) (by decide) (by decide) 0 0) v s⟩

theorem halfEnded_vpks (v : Nat) (s : State) : (halfEnded v s).pwr.vpks = (v :: s.pwr.vpks).take 15 := by
  show ((v :: ((F.PWR_MSTAT_VPK.set 0 v).run s).pwr.vpks).take 15) = _
  rw [fset_frame]

/-- One half-cycle decides where one suffices. -/
theorem lastPeaks_one {v : Nat} {s : State} {p : Nat → Bool} (hp : p v = true) : lastPeaks (halfEnded v s) (max 1 1) p = true := by
  unfold lastPeaks
  rw [halfEnded_vpks]
  simp [hp]

section
variable {v : Nat} {s : State} (hv : v < 65536) (hvdd : s.pwr.vdd = true) (h4 : sdSt s ≠ 4)
include hv hvdd h4

theorem halfCycle_peaks : let t := (halfCycle v).run s
    F.PWR_MSTAT_VPK.get 0 t = v ∧ t.pwr.vpks = (v :: s.pwr.vpks).take 15 := by
  obtain ⟨hvpk, -, -, hstat⟩ := halfEnded_regs hv s
  have h4' : sdSt (halfEnded v s) ≠ 4 := by
    unfold sdSt Fld.get at h4 ⊢
    rw [show F.PWR_STAT_SD.reg = R.PWR_STAT from rfl] at h4 ⊢
    rwa [hstat]
  have hkept := peaksKept_mainsJudge h4'
  dsimp only
  rw [halfCycle_run hvdd]
  exact ⟨hkept.vpk.trans hvpk, hkept.vpks.trans (halfEnded_vpks v s)⟩

omit h4 in
theorem halfCycle_low (hb : F.PWR_MSTAT_BELOW.on 0 s = false) (hn : F.PWR_MCFG_NLOW.get 0 s = 1) (hlow : v < F.PWR_MCFG_LOW.get 0 s) :
    let t := (halfCycle v).run s
    F.PWR_MSTAT_BELOW.get 0 t = 1 ∧ EvSet .MAINS_LOW t ∧
      (F.PWR_MCFG_SD_EN.on 0 s = true → sdSt s = 0 → sdSt t = 1 ∧ EvSet .PWR_SHUTDOWN t) := by
  obtain ⟨-, hbelow, hcfg, hstat⟩ := halfEnded_regs hv s
  have hb' : F.PWR_MSTAT_BELOW.on 0 (halfEnded v s) = false := by unfold Fld.on at hb ⊢; rw [hbelow, hb]
  have hmcfg (f : Fld) (hf : f.reg = R.PWR_MCFG) : f.get 0 (halfEnded v s) = f.get 0 s := by unfold Fld.get; rw [hf, hcfg]
  have hsd : sdSt (halfEnded v s) = sdSt s := by
    unfold sdSt Fld.get
    rw [show F.PWR_STAT_SD.reg = R.PWR_STAT from rfl, hstat]
  have hrun : (halfCycle v).run s = brownOut.run (halfEnded v s) := by
    rw [halfCycle_run hvdd, mainsJudge, run_look, hb', if_neg (by decide), hmcfg F.PWR_MCFG_NLOW rfl, hmcfg F.PWR_MCFG_LOW rfl, hn,
      lastPeaks_one (by simpa using hlow), onlyIf_true]
  obtain ⟨-, hset, hev, hstart⟩ := brownOut_done (halfEnded v s)
  dsimp only
  rw [hrun]
  refine ⟨hset, hev, fun hen h0 => hstart ?_ (hsd.trans h0)⟩
  unfold Fld.on at hen ⊢
  rw [hmcfg F.PWR_MCFG_SD_EN rfl, hen]

theorem halfCycle_return (hb : F.PWR_MSTAT_BELOW.on 0 s = true) (hn : F.PWR_MCFG_NRET.get 0 s = 1) (hret : F.PWR_MCFG_RET.get 0 s ≤ v) :
    let t := (halfCycle v).run s
    F.PWR_MSTAT_BELOW.get 0 t = 0 ∧ (sdSt s = 1 → sdSt t = 0 ∧ F.PWR_STAT_ABORTS.get 0 t = satInc 16 (F.PWR_STAT_ABORTS.get 0 s) 1) := by
  obtain ⟨-, hbelow, hcfg, hstat⟩ := halfEnded_regs hv s
  have hb' : F.PWR_MSTAT_BELOW.on 0 (halfEnded v s) = true := by unfold Fld.on at hb ⊢; rw [hbelow, hb]
  have hmcfg (f : Fld) (hf : f.reg = R.PWR_MCFG) : f.get 0 (halfEnded v s) = f.get 0 s := by unfold Fld.get; rw [hf, hcfg]
  have hst (f : Fld) (hf : f.reg = R.PWR_STAT) : f.get 0 (halfEnded v s) = f.get 0 s := by unfold Fld.get; rw [hf, hstat]
  have hsd : sdSt (halfEnded v s) = sdSt s := hst F.PWR_STAT_SD rfl
  have hrun : (halfCycle v).run s = mainsReturn.run (halfEnded v s) := by
    rw [halfCycle_run hvdd, mainsJudge, run_look, hb', if_pos rfl, hmcfg F.PWR_MCFG_NRET rfl, hmcfg F.PWR_MCFG_RET rfl, hn,
      lastPeaks_one (by simpa using hret), onlyIf_true]
  obtain ⟨-, hclear, habort⟩ := mainsReturn_done (s := halfEnded v s) (by rw [hsd]; exact h4)
  dsimp only
  rw [hrun]
  refine ⟨hclear, fun h1 => ?_⟩
  obtain ⟨h0, hcount⟩ := habort (hsd.trans h1)
  exact ⟨h0, by rw [hcount, hst F.PWR_STAT_ABORTS rfl]⟩

end

/-! ### The shutdown sequence -/

theorem shutdown2_enters {s : State} (h1 : sdSt s = 1) (hg : gainsZero s = true)
    (hp : passed s.pwr.sdAt (msCycles (F.PWR_MCFG_DWELL.get 0 s) s) s = true) : let t := shutdown2.run s
    sdSt t = 2 ∧ EvSet .PWR_SHUTDOWN t := by
  let u := (sdEnter 2).run ((setPwr fun p => { p with sdAt := s.elapsed }).run s)
  have hregs : (shutdown2.run s).regs = u.regs := by
    rw [shutdown2, run_look]
    simp only [h1, hg, hp, decide_true, Bool.and_self, if_true]
    rw [acts_three]
    rfl
  obtain ⟨hsd, hev⟩ := sdEnter_enters (k := 2) (by decide) ((setPwr fun p => { p with sdAt := s.elapsed }).run s)
  exact ⟨(get_congr hregs _ _ _).trans hsd, by unfold EvSet; rw [val_congr hregs]; exact hev⟩

theorem shutdown3_enters {s : State} (h2 : sdSt s = 2) (hp : passed s.pwr.sdAt (saveCycles s) s = true) : let t := shutdown3.run s
    sdSt t = 3 ∧ F.TICK_CTRL_RUN.get 0 t = 0 ∧ EvSet .PWR_SHUTDOWN t := by
  have hrun : shutdown3.run s = (F.TICK_CTRL_RUN.set 0 0).run ((sdEnter 3).run ((jrnlWrite true).run s)) := by
    rw [shutdown3, run_look]
    simp only [h2, hp, decide_true, Bool.and_self, if_true]
    rw [acts_three]
  obtain ⟨hsd, hev⟩ := sdEnter_enters (k := 3) (by decide) ((jrnlWrite true).run s)
  dsimp only
  rw [hrun]
  generalize (sdEnter 3).run ((jrnlWrite true).run s) = u at hsd hev
  exact ⟨(get_set_apart F.PWR_STAT_SD F.TICK_CTRL_RUN (apart_of_away (by decide) (by decide) (by decide) 0 0) 0 u).trans hsd,
    get_set_same F.TICK_CTRL_RUN (by decide) (by decide) 0 u, event_kept_fset _ (f := F.TICK_CTRL_RUN) (by decide) (by decide) 0 u hev⟩

theorem shutdown4_run {s : State} (h3 : sdSt s = 3) (hr : running s = false) : shutdown4.run s =
    (if s.pwr.returned then sysReset 2 (shutdown := true) else .seq (sdEnter 4) (setPwr fun p => { p with pdreq := true })).run
      (dramRefresh.run s) := by
  rw [shutdown4, run_look]
  simp only [h3, hr, decide_true, Bool.not_false, Bool.and_self, if_true]
  rw [acts_two]

/-- The stage S4 (R586). -/
theorem shutdown4_enters {s : State} (h3 : sdSt s = 3) (hr : running s = false) (hret : s.pwr.returned = false) : let t := shutdown4.run s
    sdSt t = 4 ∧ t.pwr.pdreq = true ∧ F.DRAM_STAT_SR.get 0 t = 1 := by
  have hsr : F.DRAM_STAT_SR.get 0 (dramRefresh.run s) = 1 := dramStat_get F.DRAM_STAT_SR rfl (by decide) s
  have hsd := (sdEnter_enters (k := 4) (by decide) (dramRefresh.run s)).1
  have hkeep : F.DRAM_STAT_SR.get 0 ((sdEnter 4).run (dramRefresh.run s)) = F.DRAM_STAT_SR.get 0 (dramRefresh.run s) :=
    (get_stores (stores_raise .PWR_SHUTDOWN 4 0 0 0) (by unfold WordsOut; decide) _).trans
      (get_set_apart F.DRAM_STAT_SR F.PWR_STAT_SD (apart_of_away (by decide) (by decide) (by decide) 0 0) 4 _)
  dsimp only
  rw [shutdown4_run h3 hr, hret, if_neg (by decide), run_seq]
  generalize (sdEnter 4).run (dramRefresh.run s) = u at hsd hkeep
  exact ⟨hsd, rfl, hkeep.trans hsr⟩

/-- A reset that ends a shutdown records it (R586). -/
theorem sysReset_shutdown (s : State) : let t := (sysReset 2 (shutdown := true)).run s
    F.SYS_RSTCAUSE_CAUSE.get 0 t = 2 ∧ F.SYS_RSTCAUSE_SHUTDOWN.get 0 t = 1 ∧ EvSet .SYS_RESET t := by
  have hrun : (sysReset 2 (shutdown := true)).run s =
      (raise .SYS_RESET 2).run ((F.SYS_RSTCAUSE_SHUTDOWN.set 0 1).run (resetRecorded 2 s)) := rfl
  have hcause := resetRecorded_cause (c := 2) (s := s) (by decide)
  have hout {f : Fld} (ho : WordsOut raiseRegs f.reg 0 0) (u : State) : f.get 0 ((raise .SYS_RESET 2).run u) = f.get 0 u :=
    get_stores (stores_raise .SYS_RESET 2 0 0 0) ho u
  dsimp only
  rw [hrun]
  generalize resetRecorded 2 s = u at hcause
  refine ⟨?_, ?_, raise_sets ..⟩
  · rw [hout (by unfold WordsOut; decide), get_set_other F.SYS_RSTCAUSE_CAUSE F.SYS_RSTCAUSE_SHUTDOWN rfl (by decide), hcause]
  · rw [hout (by unfold WordsOut; decide)]
    exact get_set_same F.SYS_RSTCAUSE_SHUTDOWN (by decide) (by decide) 0 u

/-! ### The supplies -/

/-- A filter that keeps every entry of a key keeps what is found there. -/
theorem find_filter {α : Type} {p : Nat × α → Bool} {a : Nat} (hp : ∀ v, p (a, v) = true) : ∀ {m : SMap α}, smSortedAbove none m = true →
    smFind (m.filter p) a = smFind m a
  | [], _ => rfl
  | (k, v) :: m, hm => by
    have hrest : smSortedAbove (some k) m = true := hm
    have ih : smFind (m.filter p) a = smFind m a := find_filter hp (by
      cases m with
      | nil => rfl
      | cons q m =>
        simp only [smSortedAbove, Bool.and_eq_true] at hrest ⊢
        exact hrest.2)
    cases hkv : p (k, v) with
    | true => rw [List.filter_cons_of_pos hkv, smFind, smFind, ih]
    | false =>
      have hne : a ≠ k := by
        rintro rfl
        rw [hp v] at hkv
        cases hkv
      rw [List.filter_cons_of_neg (by simp [hkv]), ih, smFind, if_neg hne]
      split
      · next hlt => exact find_of_sortedAbove hrest (by omega)
      · rfl

/-- A word of the keep-alive domain survives every reset. -/
theorem find_survives {porst : Bool} {k : Nat} (hk : survives porst k = true) (hr : k ≠ 0x20060008) {s : State}
    (hs : smSortedAbove none s.regs = true) : smFind ((Upd.nodeReset porst).apply s).regs k = smFind s.regs k := by
  have hfilter : smFind (s.regs.filter fun p => survives porst p.1) k = smFind s.regs k := find_filter (fun _ => hk) hs
  have hregs : ((Upd.nodeReset porst).apply s).regs =
      (ropeStatKept porst s).foldl (fun m p => smInsert m p.1 p.2) (s.regs.filter fun p => survives porst p.1) := rfl
  rw [hregs, ropeStatKept]
  split
  · exact (find_insert_ne _ _ hr).trans hfilter
  · exact hfilter

theorem val_survives {r : Reg} (hd : r.dims = []) (hp : r.perMaster = false) {porst : Bool}
    (h : ∀ w < r.words, survives porst (r.base + 4 * w) = true ∧ r.base + 4 * w ≠ 0x20060008) {s : State}
    (hs : smSortedAbove none s.regs = true) : r.val 0 ((Upd.nodeReset porst).apply s) = r.val 0 s := by
  unfold Reg.val Reg.word smGet
  congr 1
  refine List.map_congr_left fun w hw => ?_
  obtain ⟨hk, hne⟩ := h w (List.mem_range.mp hw)
  rw [key_zero hd hp, find_survives hk hne hs]

theorem supplyFail_leaves {s : State} (hs : s.Canonical) : let t := supplyFail.run s
    t.pwr.vdd = false ∧ t.rope.live = false ∧ t.pair.own = false ∧ R.PWR_KALATCH.val 0 t = R.PWR_KALATCH.val 0 s ∧
      R.PWR_KACFG.val 0 t = R.PWR_KACFG.val 0 s := by
  let u := (setPwr fun p => { p with vdd := false }).run s
  have hregs : (supplyFail.run s).regs = ((Upd.nodeReset true).apply u).regs := rfl
  have hu : smSortedAbove none u.regs = true := And.left hs
  refine ⟨rfl, rfl, rfl, ?_, ?_⟩
  · rw [val_congr hregs, val_survives rfl rfl (by decide) hu]
    rfl
  · rw [val_congr hregs, val_survives rfl rfl (by decide) hu]
    rfl

/-! ### Configuration -/

/-- The fields of `PWR_MCFG`. -/
abbrev mcfgFlds : List Fld :=
  [F.PWR_MCFG_SD_EN, F.PWR_MCFG_DWELL, F.PWR_MCFG_NRET, F.PWR_MCFG_NLOW, F.PWR_MCFG_RET, F.PWR_MCFG_LOW]

theorem entryOf_mcfg : entryOf R.PWR_MCFG = ⟨R.PWR_MCFG, mcfgFlds⟩ := rfl

theorem mcfg_fldsOk : FldsOk 2 mcfgFlds := by unfold FldsOk; decide

/-- Levels in order are stored, and judged at once (R585). -/
theorem wrMcfg_stores {m v : Nat} {s : State} (hl : s.lock = false) (h4 : sdSt s ≠ 4) (hlt : F.PWR_MCFG_LOW.of v < F.PWR_MCFG_RET.of v) :
    ∀ f ∈ mcfgFlds, f.get 0 ((wrMcfg m v (fullMask 2)).run s) = f.of v := by
  have hout : WordsOut errRegs R.PWR_MCFG 0 m := out_zero rfl rfl (by decide) 0 m
  have hof (f : Fld) (hf : f ∈ mcfgFlds) (hacc : f.acc = .rw) (hu : f.of v ∉ f.unlisted) :
      f.of (asWritten ⟨R.PWR_MCFG, mcfgFlds⟩ 0 m v (fullMask 2) s) = f.of v := asWritten_of (n := 2) rfl mcfg_fldsOk hf hacc hu
  have hrun : (wrMcfg m v (fullMask 2)).run s =
      mainsJudge.run ((storeWrite ⟨R.PWR_MCFG, mcfgFlds⟩ 0 m v (fullMask 2) (R.PWR_MCFG.addr 0 + 4)).run s) := by
    rw [wrMcfg, run_look, entryOf_mcfg]
    dsimp only
    rw [hof F.PWR_MCFG_RET (by simp) rfl (by simp [F.PWR_MCFG_RET]), hof F.PWR_MCFG_LOW (by simp) rfl (by simp [F.PWR_MCFG_LOW]),
      if_neg (by omega)]
    rfl
  have hstored : ∀ f ∈ mcfgFlds, f.get 0 ((storeWrite ⟨R.PWR_MCFG, mcfgFlds⟩ 0 m v (fullMask 2) (R.PWR_MCFG.addr 0 + 4)).run s) = f.of v := by
    intro f hf
    have hfield : f.reg = R.PWR_MCFG ∧ f.acc = .rw ∧ f.unlisted = [] := by
      simp only [mcfgFlds, List.mem_cons, List.not_mem_nil, or_false] at hf
      rcases hf with rfl | rfl | rfl | rfl | rfl | rfl <;> exact ⟨rfl, rfl, rfl⟩
    obtain ⟨hr, hacc, hu⟩ := hfield
    exact stored_get (n := 2) rfl mcfg_fldsOk hout rfl hf hr hacc (by rw [hl, Bool.and_false]) (by simp [hu])
  have hsd : sdSt ((storeWrite ⟨R.PWR_MCFG, mcfgFlds⟩ 0 m v (fullMask 2) (R.PWR_MCFG.addr 0 + 4)).run s) = sdSt s := by
    refine get_stores (stores_storeWrite _ _ _ _ _ _ _ _ (fun k => errRegs k || decide (0x20140010 ≤ k)) (fun w hw => ?_) fun k hk => ?_)
      (by unfold WordsOut; decide) s
    · rw [key_zero rfl rfl, show R.PWR_MCFG.base = 0x20140010 from rfl]
      simp
    · rw [hk, Bool.true_or]
  have hkept := peaksKept_mainsJudge (s := (storeWrite ⟨R.PWR_MCFG, mcfgFlds⟩ 0 m v (fullMask 2) (R.PWR_MCFG.addr 0 + 4)).run s) (by rw [hsd]; exact h4)
  intro f hf
  have hr : f.reg = R.PWR_MCFG := by
    simp only [mcfgFlds, List.mem_cons, List.not_mem_nil, or_false] at hf
    rcases hf with rfl | rfl | rfl | rfl | rfl | rfl <;> rfl
  rw [hrun, ← hstored f hf]
  unfold Fld.get
  rw [hr, hkept.mcfg]

theorem jhost_fldsOk : FldsOk 2 [F.PWR_JHOST_HLEN, F.PWR_JHOST_HADDR] := by unfold FldsOk; decide

theorem entryOf_jhost : entryOf R.PWR_JHOST = ⟨R.PWR_JHOST, [F.PWR_JHOST_HLEN, F.PWR_JHOST_HADDR]⟩ := rfl

/-- Host bytes that lie in LPDDR5X are stored (R587). -/
theorem wrJhost_stores {m v : Nat} {s : State} (hn : F.PWR_JHOST_HLEN.of v ≤ 32704) (h8 : F.PWR_JHOST_HADDR.of v % 8 = 0)
    (hlo : 0x80000000 ≤ F.PWR_JHOST_HADDR.of v) (hhi : F.PWR_JHOST_HADDR.of v + F.PWR_JHOST_HLEN.of v ≤ dramEnd s) :
    let t := (wrJhost m v (fullMask 2)).run s
    F.PWR_JHOST_HADDR.get 0 t = F.PWR_JHOST_HADDR.of v ∧ F.PWR_JHOST_HLEN.get 0 t = F.PWR_JHOST_HLEN.of v := by
  have hout : WordsOut errRegs R.PWR_JHOST 0 m := out_zero rfl rfl (by decide) 0 m
  have ha := afterWrite_of (n := 2) (e := ⟨R.PWR_JHOST, [F.PWR_JHOST_HLEN, F.PWR_JHOST_HADDR]⟩) (f := F.PWR_JHOST_HADDR) (i := 0) (m := m) (v := v)
    (s := s) rfl jhost_fldsOk (by simp) rfl rfl (by simp [F.PWR_JHOST_HADDR])
  have hb := afterWrite_of (n := 2) (e := ⟨R.PWR_JHOST, [F.PWR_JHOST_HLEN, F.PWR_JHOST_HADDR]⟩) (f := F.PWR_JHOST_HLEN) (i := 0) (m := m) (v := v)
    (s := s) rfl jhost_fldsOk (by simp) rfl rfl (by simp [F.PWR_JHOST_HLEN])
  dsimp only
  rw [wrJhost, run_look, entryOf_jhost]
  dsimp only
  rw [ha, hb, if_neg (by simp; omega)]
  exact ⟨stored_get (n := 2) rfl jhost_fldsOk hout rfl (by simp) rfl rfl rfl (by simp [F.PWR_JHOST_HADDR]),
    stored_get (n := 2) rfl jhost_fldsOk hout rfl (by simp) rfl rfl rfl (by simp [F.PWR_JHOST_HLEN])⟩

/-- LISTEN is entered (R589). -/
theorem wrLp_listens {m : Nat} {s : State} (hr : running s = false) (hs : sdSt s = 0) : let t := (wrLp m 1 (fullMask 1)).run s
    t.pwr.listen = true ∧ t.clk.lockB = false ∧ F.DRAM_STAT_SR.get 0 t = 1 := by
  let u := (setClk fun c => { c with lockB := false, phased := false }).run ((setPwr fun p => { p with listen := true }).run (portsSleep.run s))
  have hrun : (wrLp m 1 (fullMask 1)).run s = dramRefresh.run ((lockStart 1).run u) := by
    have hsd : F.PWR_STAT_SD.get 0 s = 0 := hs
    rw [wrLp, run_look, if_neg (by decide), if_neg (by simp [hr, hsd]), acts_five]
  have hlock : ((lockStart 1).run u).pwr = u.pwr ∧ ((lockStart 1).run u).clk.lockB = u.clk.lockB := by
    rw [lockStart, run_look, run_seq, showLock, run_look, fset_frame]
    exact ⟨rfl, rfl⟩
  have hframe (t : State) : (dramRefresh.run t).pwr = t.pwr ∧ (dramRefresh.run t).clk = t.clk := by
    rw [dramRefresh, rset_frame]
    exact ⟨rfl, rfl⟩
  obtain ⟨hpwr, hclk⟩ := hframe ((lockStart 1).run u)
  dsimp only
  rw [hrun]
  exact ⟨by rw [hpwr, hlock.1]; rfl, by rw [hclk, hlock.2]; rfl, dramStat_get F.DRAM_STAT_SR rfl (by decide) _⟩

/-! ### The keep-alive domain -/

theorem kaAlarm_latches {s : State} (h : F.PWR_KACFG_CLK.on 0 s = true) : let t := kaAlarm.run s
    F.PWR_KALATCH_ALARM.get 0 t = 1 ∧ F.PWR_KACNT_COUNT.get 0 t = F.PWR_KAALARM_ALARM.get 0 s := by
  have hlt : F.PWR_KAALARM_ALARM.get 0 s < 2 ^ F.PWR_KACNT_COUNT.width := Nat.mod_lt _ (Nat.two_pow_pos _)
  have hrun : kaAlarm.run s = (F.PWR_KALATCH_ALARM.set 0 1).run ((F.PWR_KACNT_COUNT.set 0 (F.PWR_KAALARM_ALARM.get 0 s)).run
      ((setPwr fun p => { p with kaFrac := 0 }).run s)) := by
    rw [kaAlarm, run_look, h, onlyIf_true, acts_three]
  have hcount := get_set_same F.PWR_KACNT_COUNT (by decide) hlt 0 ((setPwr fun p => { p with kaFrac := 0 }).run s)
  dsimp only
  rw [hrun]
  generalize (F.PWR_KACNT_COUNT.set 0 (F.PWR_KAALARM_ALARM.get 0 s)).run ((setPwr fun p => { p with kaFrac := 0 }).run s) = u at hcount
  exact ⟨get_set_same F.PWR_KALATCH_ALARM (by decide) (by decide) 0 u,
    (get_set_apart F.PWR_KACNT_COUNT F.PWR_KALATCH_ALARM (apart_of_away (by decide) (by decide) (by decide) 0 0) 1 u).trans hcount⟩

theorem vkaLoss_clears (s : State) : let t := vkaLoss.run s
    F.PWR_KALATCH_KAPOR.get 0 t = 1 ∧ R.PWR_KACFG.val 0 t = 0 ∧ F.PWR_KAALARM_ALARM.get 0 t = 0 := by
  have apart {r r' : Reg} (h : r.awayFrom r' = true) (hd : 0 < dimsCount r.dims) (hd' : 0 < dimsCount r'.dims) (v : Nat) (t : State) :
      r.val 0 ((r'.set 0 v).run t) = r.val 0 t := val_set_apart (apart_of_away h hd hd' 0 0) v t
  dsimp only
  rw [vkaLoss, acts_five]
  unfold Fld.get
  refine ⟨?_, ?_, ?_⟩
  · rw [apart (r := F.PWR_KALATCH_KAPOR.reg) (by decide) (by decide) (by decide), apart (r := F.PWR_KALATCH_KAPOR.reg) (by decide) (by decide) (by decide),
      show F.PWR_KALATCH_KAPOR.reg = R.PWR_KALATCH from rfl, val_set]
    decide
  · rw [apart (by decide) (by decide) (by decide), apart (by decide) (by decide) (by decide), apart (by decide) (by decide) (by decide), val_set]
    rfl
  · rw [show F.PWR_KAALARM_ALARM.reg = R.PWR_KAALARM from rfl, val_set]
    decide

/-! ### The statement -/

/-- Settles O52: each of the commands by the effect that its guard admits; what a report changes spares the power unit. -/
theorem powerCommandsComplete : Obligations.PowerCommandsComplete := by
  intro m i s
  refine ⟨⟨_, rfl, inPin_settles i s⟩, fun hv => ⟨_, rfl, inPin_absorbs hv⟩, fun hv hl ha hp => ⟨_, rfl, inFilter_takes hv hl ha hp⟩,
    fun hv ha hm hb hp => ⟨_, rfl, inStuck_sets hv ha hm hb hp⟩, fun v hv h4 => ⟨_, rfl, ?_⟩, fun h1 hg hp => ⟨_, rfl, shutdown2_enters h1 hg hp⟩,
    fun h2 hp => ⟨_, rfl, shutdown3_enters h2 hp⟩,
    fun h3 hr => ⟨fun hret => ⟨_, rfl, shutdown4_enters h3 hr hret⟩, fun hret => ⟨_, rfl, ?_⟩⟩, fun hs => ⟨_, rfl, supplyFail_leaves hs⟩,
    fun v hreach hl h4 hlt => ⟨_, rfl, ?_⟩, fun v hreach hn h8 hlo hhi => ⟨_, rfl, ?_⟩, fun hreach hr hs => ⟨_, rfl, ?_⟩,
    fun h => ⟨_, rfl, ?_⟩, ⟨_, rfl, get_set_same F.PWR_KALATCH_MAINS (by decide) (by decide) 0 s⟩, fun h => ⟨_, rfl, kaAlarm_latches h⟩,
    ⟨_, rfl, vkaLoss_clears s⟩⟩
  · obtain ⟨hvpk, hvpks⟩ := halfCycle_peaks v.isLt hv h4
    exact ⟨hvpk, hvpks, halfCycle_low v.isLt hv, halfCycle_return v.isLt hv h4⟩
  · rw [shutdown4_run h3 hr, hret, if_pos rfl]
    exact sysReset_shutdown _
  · obtain ⟨b, r, l, w, hrun⟩ := arrive_atTarget hreach 0xFF v.toNat (.seq (unbuf m (R.PWR_MCFG.addr 0)) (wrMcfg m v.toNat (fullMask 2)))
    have hget := wrMcfg_stores (m := m) (s := (unbuf m (R.PWR_MCFG.addr 0)).run (atTarget b r l w s)) hl h4 hlt
    rw [arrivePair, hrun, run_seq]
    exact ⟨hget _ (by simp), hget _ (by simp), hget _ (by simp), hget _ (by simp), hget _ (by simp), hget _ (by simp)⟩
  · obtain ⟨b, r, l, w, hrun⟩ := arrive_atTarget hreach 0xFF v.toNat (.seq (unbuf m (R.PWR_JHOST.addr 0)) (wrJhost m v.toNat (fullMask 2)))
    rw [arrivePair, hrun, run_seq]
    exact wrJhost_stores (s := (unbuf m (R.PWR_JHOST.addr 0)).run (atTarget b r l w s)) hn h8 hlo hhi
  · obtain ⟨b, r, l, w, hrun⟩ := arrive_atTarget hreach 0xF 1 (wrLp m 1 (fullMask 1))
    rw [hrun]
    exact wrLp_listens (s := atTarget b r l w s) hr hs
  · rw [run_look, h, onlyIf_true]
    exact get_set_same F.PWR_KALATCH_TAMPER (by decide) (by decide) 0 s

end Sys2Proof.Machine
end

