-- ==== Sys2Proof/Proofs/HostPort.lean ====
section
/-! SUPPORT. The transactions of the host port, master M1 (R593–R606). -/

namespace Sys2Proof.Machine

/-! ### The start of a transaction -/

/-- The state in which a command that is not refused begins. -/
def begun (c op : Nat) (s : State) : State := (setHcp fun h => { h with
  open_ := true, code := 0, op := op, quad := bitOf c 2, todo := [], out := bytesBe 1 (hcpStatusByte s) }).run s

section
variable {c op : Nat} {act : Act} {s : State} (ha : asleep s = false) (ho : s.hcp.open_ = false) (hop : hcpOp c = op) (hb : hcpBad s c = false)
include ha ho hop hb

theorem hcpBegin_run : (hcpBegin c op act).run s =
    (if op < 2 && (accessPends 1 s || !s.clk.up) then hcpFail 6 else act).run (begun c op s) := by
  rw [hcpBegin, run_look, if_neg (by simp [ha, ho, hop]), run_seq, hb, if_neg (by decide)]
  rfl

theorem hcpBegin_takes (hw : op < 2 → accessPends 1 s = false ∧ s.clk.up = true) : (hcpBegin c op act).run s = act.run (begun c op s) := by
  rw [hcpBegin_run ha ho hop hb, if_neg]
  intro h
  simp only [Bool.and_eq_true, decide_eq_true_eq, Bool.or_eq_true, Bool.not_eq_true'] at h
  obtain ⟨hlt, hp⟩ := h
  obtain ⟨hpend, hup⟩ := hw hlt
  rw [hpend, hup] at hp
  exact hp.elim (by decide) (by decide)

theorem hcpBegin_busy (hlt : op < 2) (hp : accessPends 1 s = true) : (hcpBegin c op act).run s = (hcpFail 6).run (begun c op s) := by
  rw [hcpBegin_run ha ho hop hb, if_pos (by simp [hlt, hp])]

end

theorem hcp_raise (e : Ev) (d : Nat) (s : State) : ((raise e d).run s).hcp = s.hcp := touches_hcp (touches_raise e d 0 0 0) (by decide) (by decide) s

/-- The first condition that a transaction meets stands (R603). -/
theorem hcpFail_stands {c : Nat} {s : State} (h1 : c ≠ 1) (h : s.hcp.code = 0) : let t := (hcpFail c).run s
    t.hcp = { s.hcp with code := c } ∧ EvSet .HCP_ERR t := by
  have hrun : (hcpFail c).run s = (raise .HCP_ERR c).run ((setHcp fun x => { x with code := c }).run s) := by
    rw [hcpFail, run_look, if_neg (by simp [h]), run_seq, onlyIf, if_pos (by simp [h1])]
  dsimp only
  rw [hrun]
  exact ⟨hcp_raise _ _ _, raise_sets ..⟩

/-! ### Reads -/

/-- A read of a register that shows what it stores, and belongs to no table. -/
theorem regRead_icw (m : Nat) (k : Nat → Bool → Act) (s : State) :
    (regRead m ⟨⟨R.STRATA_ICW, [F.STRATA_ICW_ICW]⟩, 0, 0, false⟩ (R.STRATA_ICW.addr 0) true k).run s = (k (R.STRATA_ICW.val 0 s) false).run s := by
  have hv : regShow ⟨⟨R.STRATA_ICW, [F.STRATA_ICW_ICW]⟩, 0, 0, false⟩ m s = R.STRATA_ICW.val 0 s := val_master rfl 0 m s
  have hlt : R.STRATA_ICW.val 0 s / 2 ^ (32 * 0) % 2 ^ 32 = R.STRATA_ICW.val 0 s := by
    have : R.STRATA_ICW.val 0 s < 2 ^ 32 := val_lt R.STRATA_ICW 0 0 s
    omega
  rw [← hlt, ← hv]
  unfold regRead
  rw [blockUse_off (by decide)]
  exact tableCheck_nil m k _ s

/-- The host port reads the check word of the image. -/
theorem hcpRead_icw {s : State} (ha : asleep s = false) (hp : accessPends 1 s = false) : ∃ b r,
    (busAccess (.master 1) (R.STRATA_ICW.addr 0) (.read .b4)).run s =
      (respond 1 [R.STRATA_ICW.val 0 s]).run (atTarget b r s.pair.sentWrites s.pair.waiting s) := by
  obtain ⟨b, r, hrun⟩ := busAccess_read (m := 1) (a := R.STRATA_ICW.addr 0) (sz := .b4) ha (mustWait_off ⟨_, .inl rfl⟩ (.inl (by decide)) fun _ => hp)
  refine ⟨b, r, ?_⟩
  have hlt : R.STRATA_ICW.val 0 s % 2 ^ 32 = R.STRATA_ICW.val 0 s := Nat.mod_eq_of_lt (val_lt R.STRATA_ICW 0 0 s)
  rw [hrun, show sizeBytes .b4 = 4 from rfl, oneRead_reg (by decide) (by unfold peripheral; decide)
    (show placeOf (R.STRATA_ICW.addr 0) = some ⟨⟨R.STRATA_ICW, [F.STRATA_ICW_ICW]⟩, 0, 0, false⟩ from rfl)]
  refine (regRead_icw _ _ (atTarget b r s.pair.sentWrites s.pair.waiting s)).trans ?_
  rw [show R.STRATA_ICW.val 0 (atTarget b r s.pair.sentWrites s.pair.waiting s) = R.STRATA_ICW.val 0 s from rfl, hlt]
  rfl

/-- A word behind its token (R598). -/
def hcpWord (s : State) : List Byte := bytesBe 1 0x5A ++ bytesBe 4 (R.STRATA_ICW.val 0 s)

/-- The state in which a word is asked for, with the words that are left to read. -/
def asked (l : List (Nat × Size)) (s : State) : State :=
  (setBus fun b => { b with resp := smErase b.resp 1 }).run ((setHcp fun h => { h with todo := l }).run s)

theorem hcpReads_cons (a : Nat) (sz : Size) (l : List (Nat × Size)) (s : State) : (hcpReads ((a, sz) :: l)).run s =
    (Act.look fun s => if accessPends 1 s then .done else .seq (hcpTake sz) (hcpReads l)).run
      ((busAccess (.master 1) a (.read sz)).run (asked ((a, sz) :: l) s)) := rfl

/-- The state in which the check word has been answered. -/
def icwAnswered (b r : SMap Nat) (s : State) : State := (respond 1 [R.STRATA_ICW.val 0 s]).run (atTarget b r s.pair.sentWrites s.pair.waiting s)

/-- The state in which the check word has gone out. -/
def icwDriven (b r : SMap Nat) (s : State) : State := (hcpDrive (hcpWord s)).run (icwAnswered b r s)

theorem hcpTake_icw (b r : SMap Nat) (s : State) : (hcpTake .b4).run (icwAnswered b r s) = icwDriven b r s := by
  have hlt : (BitVec.ofNat 64 (R.STRATA_ICW.val 0 s)).toNat = R.STRATA_ICW.val 0 s := by
    have : R.STRATA_ICW.val 0 s < 2 ^ 32 := val_lt R.STRATA_ICW 0 0 s
    rw [BitVec.toNat_ofNat]
    omega
  have hfind : smFind (icwAnswered b r s).bus.resp 1 = some ⟨[BitVec.ofNat 64 (R.STRATA_ICW.val 0 s)], false⟩ :=
    respond_answers 1 [R.STRATA_ICW.val 0 s] false _
  rw [hcpTake, run_look, hfind]
  simp only [Bool.false_eq_true, if_false, List.headD_cons, hlt]
  rfl

theorem icwDriven_frame (b r : SMap Nat) (s : State) : asleep (icwDriven b r s) = asleep s ∧ accessPends 1 (icwDriven b r s) = accessPends 1 s ∧
    hcpWord (icwDriven b r s) = hcpWord s ∧ (icwDriven b r s).hcp = { s.hcp with out := s.hcp.out ++ hcpWord s } := ⟨rfl, rfl, rfl, rfl⟩

theorem asked_frame (l : List (Nat × Size)) (s : State) : asleep (asked l s) = asleep s ∧ accessPends 1 (asked l s) = accessPends 1 s ∧
    hcpWord (asked l s) = hcpWord s ∧ (asked l s).hcp = { s.hcp with todo := l } := ⟨rfl, rfl, rfl, rfl⟩

/-- One word of a READ of the check word. -/
theorem hcpReads_word {s : State} (ha : asleep s = false) (hp : accessPends 1 s = false) (l : List (Nat × Size)) : ∃ v : State,
    (hcpReads ((R.STRATA_ICW.addr 0, .b4) :: l)).run s = (hcpReads l).run v ∧ asleep v = false ∧ accessPends 1 v = false ∧
      hcpWord v = hcpWord s ∧ v.hcp.open_ = s.hcp.open_ ∧ v.hcp.code = s.hcp.code ∧ v.hcp.out = s.hcp.out ++ hcpWord s := by
  obtain ⟨hua, hup, huw, huh⟩ := asked_frame ((R.STRATA_ICW.addr 0, .b4) :: l) s
  obtain ⟨b, r, hread⟩ := hcpRead_icw (hua.trans ha) (hup.trans hp)
  obtain ⟨hva, hvp, hvw, hvh⟩ := icwDriven_frame b r (asked ((R.STRATA_ICW.addr 0, .b4) :: l) s)
  have hpends : accessPends 1 (icwAnswered b r (asked ((R.STRATA_ICW.addr 0, .b4) :: l) s)) = false := hup.trans hp
  refine ⟨icwDriven b r (asked ((R.STRATA_ICW.addr 0, .b4) :: l) s), ?_, hva.trans (hua.trans ha), hvp.trans (hup.trans hp),
    hvw.trans huw, by rw [hvh, huh], by rw [hvh, huh], by rw [hvh, huw, huh]⟩
  rw [hcpReads_cons, hread, ← icwAnswered, run_look, hpends, if_neg (by decide), run_seq, hcpTake_icw]

/-- The words of a READ of the check word. -/
theorem hcpReads_icw (n : Nat) : ∀ {s : State}, asleep s = false → accessPends 1 s = false →
    let t := (hcpReads (List.replicate n (R.STRATA_ICW.addr 0, .b4))).run s
    t.hcp.open_ = s.hcp.open_ ∧ t.hcp.code = s.hcp.code ∧ t.hcp.out = s.hcp.out ++ (List.replicate n (hcpWord s)).flatten := by
  induction n with
  | zero => exact fun _ _ => ⟨rfl, rfl, (List.append_nil _).symm⟩
  | succ n ih =>
    intro s ha hp
    obtain ⟨v, hrun, hva, hvp, hvw, hvo, hvc, hvout⟩ := hcpReads_word ha hp (List.replicate n (R.STRATA_ICW.addr 0, .b4))
    obtain ⟨ho, hc, hout⟩ := ih hva hvp
    dsimp only
    rw [List.replicate_succ, hrun]
    refine ⟨ho.trans hvo, hc.trans hvc, ?_⟩
    rw [hout, hvout, hvw, List.replicate_succ, List.flatten_cons, List.append_assoc]

/-! ### Writes -/

/-- A 32-bit write of a register word in the low half of its slot is answered without an error. -/
theorem slotPut_lowReg {m : Master} {a v : Nat} {p : Place} (h8 : a % 8 = 0) (ha : peripheral a) (hp : placeOf a = some p) (tie : Bool)
    (k : Bool → Act) (s : State) :
    (slotPut (.master m) (slotOfWrite a 4 v) tie false k).run s = (Act.seq (regWrite m p a (v % 2 ^ 32) tie) (k false)).run s := by
  have hslot : slotOfWrite a 4 v = ⟨a, 0xF, v % 2 ^ 32⟩ := by
    rcases slotOfWrite_half (by omega : a % 4 = 0) v with ⟨-, h⟩ | ⟨he, -⟩
    · exact h
    · omega
  have hgo (u : Nat) : groupWrite (.master m) a 0xF u tie false = regWrite m p a u tie := by simp [groupWrite, hp, reqId]
  have hfail (t : State) : groupFails (reqId (.master m)) (a + 4) 0 t = false := rfl
  rw [hslot]
  unfold slotPut
  rw [run_look]
  simp only [show (0xF : Nat) ≠ 0 by decide, if_false, reaches, slotBare_peripheral ha, windowOf_peripheral ha, Bool.not_true, Bool.or_self,
    Bool.false_eq_true, show (0xF : Nat) % 16 = 0xF by decide, show (0xF : Nat) / 16 = 0 by decide, Nat.mod_mod, groupWrite_none, hfail]
  rw [acts_two, run_look, run_seq, run_done, run_seq]
  exact congrArg (fun w => (k false).run (w.run s)) (hgo _)

theorem busAccess_writeLow {m : Master} {a : Nat} {v : W64} {p : Place} {s : State} (h : WriteReaches m a s)
    (hm : m.val = 1 → accessPends 1 s = false) (h8 : a % 8 = 0) (ha : peripheral a) (hp : placeOf a = some p) : ∃ b r l w,
    (busAccess (.master m) a (.write .b4 v)).run s =
      (respond m []).run ((regWrite m p a (v.toNat % 2 ^ 32) false).run (atTarget b r l w s)) := by
  have hw : mustWait (.master m) a (.write .b4 v) s = false := mustWait_off ⟨_, .inr ⟨_, rfl⟩⟩ (.inl (by have := ha.1; omega)) hm
  obtain ⟨b, r, l, w, hgo⟩ := busAccess_write (sz := .b4) (v := v) h hw (show a % 4 = 0 by omega) false
  exact ⟨b, r, l, w, hgo.trans (slotPut_lowReg h8 ha hp false (fun e => respond m [] e) (atTarget b r l w s))⟩

theorem hcpWaiting_none {s : State} (h : accessPends 1 s = false) : hcpWaiting s = 0 := by
  unfold accessPends at h
  simp only [Bool.or_eq_false_iff, List.any_eq_false, beq_iff_eq] at h
  obtain ⟨⟨hw, hr⟩, -⟩ := h
  unfold hcpWaiting
  rw [List.filter_eq_nil_iff.mpr (by simpa using hw), List.filter_eq_nil_iff.mpr (by simpa using hr)]
  rfl

/-- The state in which a word is issued. -/
def issuing (s : State) : State := (setBus fun b => { b with resp := smErase b.resp 1 }).run s

/-- A word of a WRITE that is answered without an error ends a WRITE of one word. -/
theorem hcpWrites_one {sz : Size} {a : Nat} {v : W64} {s u : State} (hp : accessPends 1 s = false)
    (h : (busAccess (.master 1) a (.write sz v)).run (issuing s) = (respond 1 []).run u) :
    (hcpWrites sz [(a, v)]).run s = (respond 1 []).run u := by
  have hlt : ¬ 16 ≤ hcpWaiting s := by rw [hcpWaiting_none hp]; decide
  have hfind : smFind ((respond 1 []).run u).bus.resp 1 = some ⟨[], false⟩ := respond_answers 1 [] false u
  rw [hcpWrites, run_look, if_neg hlt, acts_four, ← issuing, h, run_look, hfind]
  rfl

/-- The limit of `XBAR_AGE` is written by the host port. -/
theorem hcpWrite_age {v : W64} {s : State} (h : WriteReaches 1 (R.XBAR_AGE.addr 0) s) (hp : accessPends 1 s = false) (hl : s.lock = false) :
    let t := (hcpWrites .b4 [(R.XBAR_AGE.addr 0, v)]).run s
    t.hcp = s.hcp ∧ F.XBAR_AGE_LIMIT.get 0 t = v.toNat % 256 := by
  obtain ⟨b, r, l, w, hrun⟩ := busAccess_writeLow (m := 1) (v := v) (s := issuing s) h (fun _ => hp) (by decide) (by unfold peripheral; decide)
    placeOf_xbarAge
  rw [show ((1 : Master) : Nat) = 1 from rfl] at hrun
  obtain ⟨t, ht, hlim⟩ := registerWrite_xbarAge (m := 1) (v := v) (s := issuing s) h (fun _ => hp) hl false
  have hexec : exec (.registerWrite 1 (BitVec.ofNat 32 (R.XBAR_AGE.addr 0)) .b4 v false) (issuing s) =
      .next ((busAccess (.master 1) (R.XBAR_AGE.addr 0) (.write .b4 v)).run (issuing s)) := rfl
  rw [hexec] at ht
  dsimp only
  rw [hcpWrites_one hp hrun]
  refine ⟨?_, ?_⟩
  · show ((regWrite 1 _ _ _ false).run _).hcp = _
    rw [regWrite_word (by decide) rfl (by decide) rfl]
    exact touches_hcp (touches_storeWrite ⟨R.XBAR_AGE, [F.XBAR_AGE_LIMIT]⟩ 0 1 _ _ _ false false) (by decide) (by decide) _
  · rw [← hrun, Host.Outcome.next.inj ht]
    exact hlim

theorem placeOf_hcpCfg : placeOf (R.HCP_CFG.addr 0) = some ⟨entryOf R.HCP_CFG, 0, 0, false⟩ := rfl

/-- A configuration that the host port writes itself waits for the end of its transaction (R606). -/
theorem hcpWrite_cfg {v : W64} {s : State} (ha : asleep s = false) (hp : accessPends 1 s = false) (hc : s.hcp.cfg = none) :
    let t := (hcpWrites .b4 [(R.HCP_CFG.addr 0, v)]).run s
    ∃ w, t.hcp.cfg = some w ∧ R.HCP_CFG.val 0 t = R.HCP_CFG.val 0 s ∧ F.HCP_CFG_QEN.of w.toNat = F.HCP_CFG_QEN.of v.toNat := by
  have hreach : WriteReaches 1 (R.HCP_CFG.addr 0) (issuing s) := ⟨ha, by simp [standbyDrops, show forwardedBlock (R.HCP_CFG.addr 0) = false by decide]⟩
  obtain ⟨b, r, l, w, hrun⟩ := busAccess_writeLow (m := 1) (v := v) hreach (fun _ => hp) (by decide) (by unfold peripheral; decide) placeOf_hcpCfg
  rw [show ((1 : Master) : Nat) = 1 from rfl] at hrun
  have hold : R.HCP_CFG.val 0 s - (R.HCP_CFG.val 0 s &&& fullMask 1) = 0 := by
    rw [show R.HCP_CFG.val 0 s &&& fullMask 1 = R.HCP_CFG.val 0 s from and_mask (val_lt R.HCP_CFG 0 0 s), Nat.sub_self]
  have hnew : v.toNat % 2 ^ 32 &&& fullMask 1 = v.toNat % 2 ^ 32 := and_mask (Nat.mod_lt _ (by decide))
  have hwrite : (regWrite 1 ⟨entryOf R.HCP_CFG, 0, 0, false⟩ (R.HCP_CFG.addr 0) (v.toNat % 2 ^ 32) false).run (atTarget b r l w (issuing s)) =
      (setHcp fun h => { h with cfg := some (BitVec.ofNat 32 (v.toNat % 2 ^ 32)) }).run (atTarget b r l w (issuing s)) := by
    have hcfg : (atTarget b r l w (issuing s)).hcp.cfg = none := hc
    have hval : R.HCP_CFG.val 0 (atTarget b r l w (issuing s)) = R.HCP_CFG.val 0 s := rfl
    rw [regWrite_word (by decide) rfl (by decide) rfl]
    show (wrHcpCfg 1 (v.toNat % 2 ^ 32) (fullMask 1)).run _ = _
    rw [wrHcpCfg, run_look, if_pos rfl]
    dsimp only
    rw [hcfg, hval]
    dsimp only
    rw [hold, hnew, Nat.zero_add]
  dsimp only
  rw [hcpWrites_one hp hrun, hwrite]
  refine ⟨BitVec.ofNat 32 (v.toNat % 2 ^ 32), rfl, rfl, ?_⟩
  rw [BitVec.toNat_ofNat]
  show v.toNat % 2 ^ 32 % 2 ^ 32 / 2 ^ 0 % 2 ^ 1 = v.toNat / 2 ^ 0 % 2 ^ 1
  omega

/-- A configuration that another master writes takes force at once (log 56). -/
theorem hcpCfg_others {m : Master} {v : Word} {s : State} (hm : m.val ≠ 1) (h : WriteReaches m (R.HCP_CFG.addr 0) s) :
    let t := (busAccess (.master m) (R.HCP_CFG.addr 0) (.write .b4 (v.setWidth 64))).run s
    F.HCP_CFG_QEN.get 0 t = F.HCP_CFG_QEN.of v.toNat ∧ F.HCP_CFG_INTOD.get 0 t = F.HCP_CFG_INTOD.of v.toNat := by
  obtain ⟨b, r, l, w, hrun⟩ := busAccess_writeLow (v := v.setWidth 64) h (fun h1 => absurd h1 hm) (by decide) (by unfold peripheral; decide) placeOf_hcpCfg
  have hv : (v.setWidth 64).toNat % 2 ^ 32 = v.toNat := by
    have := v.isLt
    rw [BitVec.toNat_setWidth]
    omega
  have hout : WordsOut errRegs R.HCP_CFG 0 m := out_zero rfl rfl (by decide) 0 m
  have hok : FldsOk 1 [F.HCP_CFG_INTOD, F.HCP_CFG_QEN] := by unfold FldsOk; decide
  have hwrite : (regWrite m ⟨entryOf R.HCP_CFG, 0, 0, false⟩ (R.HCP_CFG.addr 0) v.toNat false).run (atTarget b r l w s) =
      (storeWrite ⟨R.HCP_CFG, [F.HCP_CFG_INTOD, F.HCP_CFG_QEN]⟩ 0 m v.toNat (fullMask 1) (R.HCP_CFG.addr 0)).run (atTarget b r l w s) := by
    rw [regWrite_word (by decide) rfl (by decide) rfl]
    show (wrHcpCfg m v.toNat (fullMask 1)).run _ = _
    rw [wrHcpCfg, run_look, if_neg hm]
    rfl
  dsimp only
  rw [hrun, hv, hwrite]
  exact ⟨stored_get (n := 1) rfl hok hout rfl (by simp) rfl rfl rfl (by simp [F.HCP_CFG_QEN]),
    stored_get (n := 1) rfl hok hout rfl (by simp) rfl rfl rfl (by simp [F.HCP_CFG_INTOD])⟩

/-! ### STATUS and ABORT -/

theorem pendingAt_none {id : Nat} {s : State} (h : pendingAt id s = none) : accessPends id s = false := by
  unfold pendingAt at h
  simp only [Option.or_eq_none_iff, Option.map_eq_none_iff, List.find?_eq_none] at h
  obtain ⟨⟨hw, hr⟩, hp⟩ := h
  unfold accessPends
  simp only [Bool.or_eq_false_iff, List.any_eq_false]
  exact ⟨⟨hw, hr⟩, hp⟩

theorem accessPends_congr {s t : State} (hw : t.bus.waiting = s.bus.waiting) (hr : t.bus.routeStall = s.bus.routeStall)
    (hp : t.pool.waits = s.pool.waits) (id : Nat) : accessPends id t = accessPends id s := by
  unfold accessPends
  rw [hw, hr, hp]

theorem dropWaits_ends (id : Nat) (s : State) : accessPends id ((dropWaits id).run s) = false := by
  show ((s.bus.waiting.filter fun w => reqId w.who ≠ id).any _ || (s.bus.routeStall.filter fun w => reqId w.who ≠ id).any _ ||
    (s.pool.waits.filter (·.req ≠ id)).any _) = false
  simp [List.any_filter]

/-- The same accesses wait, and the host port stands as it did. -/
structure WaitsKept (s t : State) : Prop where
  waiting : t.bus.waiting = s.bus.waiting
  stall : t.bus.routeStall = s.bus.routeStall
  waits : t.pool.waits = s.pool.waits
  hcp : t.hcp = s.hcp

theorem waitsKept_refl (s : State) : WaitsKept s s := ⟨rfl, rfl, rfl, rfl⟩

theorem WaitsKept.pends {s t : State} (h : WaitsKept s t) (id : Nat) : accessPends id t = accessPends id s :=
  accessPends_congr h.waiting h.stall h.waits id

theorem WaitsKept.trans {s t u : State} (h : WaitsKept s t) (h' : WaitsKept t u) : WaitsKept s u :=
  ⟨h'.waiting.trans h.waiting, h'.stall.trans h.stall, h'.waits.trans h.waits, h'.hcp.trans h.hcp⟩

theorem waitsKept_of {ks : List Kind} {a : Act} (h : a.Touches ks)
    (hk : Kind.bus ∉ ks ∧ Kind.pool ∉ ks ∧ Kind.hcp ∉ ks ∧ Kind.nodeReset ∉ ks) (s : State) : a.Preserves (WaitsKept s) := fun t ht => by
  obtain ⟨hb, hp, hh, hr⟩ := hk
  have hbus := touches_bus h hb hr t
  have hpool := touches_pool h hp hr t
  exact ht.trans ⟨by rw [hbus], by rw [hbus], by rw [hpool], touches_hcp h hh hr t⟩

theorem waitsKept_raise (e : Ev) (d0 d1 d2 g : Nat) (s : State) : (raise e d0 d1 d2 g).Preserves (WaitsKept s) :=
  waitsKept_of (touches_raise e d0 d1 d2 g) (by decide) s

theorem waitsKept_noteAbort (id a n : Nat) (wr : Bool) (s : State) : (noteAbort id a n wr).Preserves (WaitsKept s) := by
  have hreg (v : Nat) : (R.XBAR_ABORT.set 0 v).Preserves (WaitsKept s) :=
    waitsKept_of (ks := [.reg]) (touches_rset (by decide) _ _ _ _) (by decide) s
  refine preserves_acts ?_
  simp only [List.forall_mem_cons, List.not_mem_nil, false_imp_iff, implies_true, and_true]
  refine ⟨hreg _, ?_, waitsKept_raise _ _ _ _ _ _⟩
  split
  · exact fun t ht => ⟨ht.waiting, ht.stall, ht.waits, ht.hcp⟩
  · exact preserves_done

theorem masterReset_ends (id : Nat) (s : State) : accessPends id ((masterReset id).run s) = false ∧ ((masterReset id).run s).hcp = s.hcp := by
  rw [masterReset, run_look]
  cases h : pendingAt id s with
  | none => exact ⟨pendingAt_none h, rfl⟩
  | some p =>
    have hkept := waitsKept_noteAbort id p.1 0 p.2 _ ((dropWaits id).run s) (waitsKept_refl _)
    dsimp only
    rw [acts_two]
    exact ⟨(hkept.pends id).trans (dropWaits_ends id s), hkept.hcp⟩

/-- A condition that a transaction meets leaves what waits. -/
theorem hcpFail_waits {c : Nat} (s : State) (id : Nat) : accessPends id ((hcpFail c).run s) = accessPends id s := by
  rw [hcpFail, run_look]
  split
  · rfl
  · exact (preserves_onlyIf (waitsKept_raise _ _ _ _ _ _) _ (waitsKept_refl ((setHcp fun x => { x with code := c }).run s))).pends id

/-- An ABORT ends what M1 waits for, and stands as the code (R605). -/
theorem hcpAbort_ends {s : State} (hc : s.hcp.code = 0) :
    let t := (acts [masterReset 1, setBus fun b => { b with resp := smErase b.resp 1 }, hcpFail 5, F.HCP_STAT_CODE.set 0 5]).run s
    t.hcp.code = 5 ∧ F.HCP_STAT_CODE.get 0 t = 5 ∧ EvSet .HCP_ERR t ∧ accessPends 1 t = false := by
  obtain ⟨hends, hhcp⟩ := masterReset_ends 1 s
  have hcode0 : ((setBus fun b => { b with resp := smErase b.resp 1 }).run ((masterReset 1).run s)).hcp.code = 0 := by
    show ((masterReset 1).run s).hcp.code = 0
    rw [hhcp, hc]
  have hends' : accessPends 1 ((setBus fun b => { b with resp := smErase b.resp 1 }).run ((masterReset 1).run s)) = false := hends
  dsimp only
  rw [acts_four]
  generalize (setBus fun b => { b with resp := smErase b.resp 1 }).run ((masterReset 1).run s) = u at hcode0 hends'
  obtain ⟨hcode, hev⟩ := hcpFail_stands (c := 5) (by decide) hcode0
  have hpend := (hcpFail_waits (c := 5) u 1).trans hends'
  generalize (hcpFail 5).run u = v at hcode hev hpend
  have hkept : WaitsKept v ((F.HCP_STAT_CODE.set 0 5).run v) :=
    waitsKept_of (ks := [.reg]) (touches_fset (by decide) _ _ _ _) (by decide) v v (waitsKept_refl v)
  exact ⟨by rw [hkept.hcp, hcode], get_set_same F.HCP_STAT_CODE (by decide) (by decide) 0 v,
    event_kept_fset _ (f := F.HCP_STAT_CODE) (by decide) (by decide) 5 v hev, (hkept.pends 1).trans hpend⟩

/-! ### The end of a transaction -/

/-- What the end of a transaction records, where no configuration waits for it. -/
def riseRecorded (s : State) : Act := acts [
  onlyIf (s.hcp.op ≠ 2 || s.hcp.code ≠ 0) (F.HCP_STAT_CODE.set 0 s.hcp.code),
  onlyIf (s.hcp.code ≠ 0) (.seq (F.HCP_STAT_ERRSEEN.set 0 1) (F.HCP_CNT_ERRORS.inc 0)),
  F.HCP_CNT_TRANS.set 0 ((F.HCP_CNT_TRANS.get 0 s + 1) % 65536)]

/-- The condition that the rise itself meets. -/
def risePart (part : Bool) (s : State) : Act :=
  onlyIf (part && (s.hcp.op = 1 || (s.hcp.op = 0 && s.hcp.out.length = 1))) (hcpFail 3)

theorem risePart_cfg (part : Bool) (s t : State) : ((risePart part s).run t).hcp.cfg = t.hcp.cfg := by
  unfold risePart
  cases part && (s.hcp.op = 1 || (s.hcp.op = 0 && s.hcp.out.length = 1)) with
  | false => rfl
  | true =>
    rw [onlyIf_true, hcpFail, run_look]
    split
    · rfl
    · have := (preserves_onlyIf (c := decide (3 ≠ 1)) (waitsKept_raise .HCP_ERR 3 0 0 0 _) _
        (waitsKept_refl ((setHcp fun x => { x with code := 3 }).run t))).hcp
      have hcfg := congrArg HcpState.cfg this
      exact hcfg

theorem hcpRise_run {part : Bool} {s : State} (ho : s.hcp.open_ = true) (ht : s.hcp.todo = []) (hc : s.hcp.cfg = none) :
    let u := (risePart part s).run s
    (hcpRise part).run s = (setHcp fun h => { h with open_ := false, todo := [], cfg := none }).run ((riseRecorded u).run u) := by
  have hu : ((risePart part s).run s).hcp.cfg = none := (risePart_cfg part s s).trans hc
  have hnone : (Act.look fun s => onlyIf (s.hcp.todo ≠ []) (hcpFail 5)).run s = s := by rw [run_look, ht]; rfl
  have hpart : (Act.look fun s => onlyIf (part && (s.hcp.op = 1 || (s.hcp.op = 0 && s.hcp.out.length = 1))) (hcpFail 3)).run s =
      (risePart part s).run s := rfl
  dsimp only
  rw [hcpRise, run_look, ho, Bool.not_true, if_neg (by decide), acts_four, ht]
  dsimp only
  rw [run_done, hnone, hpart, run_look]
  generalize (risePart part s).run s = u at hu
  rw [hu, acts_five, run_done, riseRecorded, acts_three]

theorem hcpCnt_out : WordsOut raiseRegs R.HCP_CNT 0 0 := by unfold WordsOut; decide

/-- A transaction that ends without a condition (R603). -/
theorem hcpRise_ends {s : State} (ho : s.hcp.open_ = true) (ht : s.hcp.todo = []) (hg : s.hcp.cfg = none) (hc : s.hcp.code = 0)
    (hop : s.hcp.op ≠ 2) : let t := (hcpRise false).run s
    t.hcp.open_ = false ∧ F.HCP_STAT_CODE.get 0 t = 0 ∧ F.HCP_CNT_TRANS.get 0 t = (F.HCP_CNT_TRANS.get 0 s + 1) % 65536 ∧
      F.HCP_CNT_ERRORS.get 0 t = F.HCP_CNT_ERRORS.get 0 s := by
  have hpart : (risePart false s).run s = s := rfl
  have hrun : (riseRecorded s).run s =
      (F.HCP_CNT_TRANS.set 0 ((F.HCP_CNT_TRANS.get 0 s + 1) % 65536)).run ((F.HCP_STAT_CODE.set 0 0).run s) := by
    rw [riseRecorded, acts_three, hc]
    simp only [hop, ne_eq, not_false_eq_true, decide_true, Bool.true_or, onlyIf_true, not_true_eq_false, decide_false, onlyIf_false, run_done]
  have hcode := get_set_same F.HCP_STAT_CODE (by decide) (x := 0) (by decide) 0 s
  have herr : F.HCP_CNT_ERRORS.get 0 ((F.HCP_STAT_CODE.set 0 0).run s) = F.HCP_CNT_ERRORS.get 0 s :=
    get_set_apart F.HCP_CNT_ERRORS F.HCP_STAT_CODE (apart_of_away (by decide) (by decide) (by decide) 0 0) 0 s
  dsimp only
  rw [hcpRise_run ho ht hg, hpart, hrun]
  refine ⟨rfl, ?_⟩
  show F.HCP_STAT_CODE.get 0 ((F.HCP_CNT_TRANS.set 0 _).run _) = 0 ∧ F.HCP_CNT_TRANS.get 0 ((F.HCP_CNT_TRANS.set 0 _).run _) = _ ∧
    F.HCP_CNT_ERRORS.get 0 ((F.HCP_CNT_TRANS.set 0 _).run _) = _
  generalize (F.HCP_STAT_CODE.set 0 0).run s = u at hcode herr
  exact ⟨(get_set_apart F.HCP_STAT_CODE F.HCP_CNT_TRANS (apart_of_away (by decide) (by decide) (by decide) 0 0) _ u).trans hcode,
    get_set_same F.HCP_CNT_TRANS (by decide) (Nat.mod_lt _ (by decide)) 0 u,
    (get_set_other F.HCP_CNT_ERRORS F.HCP_CNT_TRANS rfl (by decide) 0 _ u).trans herr⟩

/-- What a rise records of a condition that the transaction has met. -/
theorem riseRecorded_error {c : Nat} {u : State} (hc : u.hcp.code = c) (h0 : c ≠ 0) (hlt : c < 16) : let t := (riseRecorded u).run u
    F.HCP_STAT_CODE.get 0 t = c ∧ F.HCP_STAT_ERRSEEN.get 0 t = 1 ∧
      F.HCP_CNT_ERRORS.get 0 t = satInc 16 (F.HCP_CNT_ERRORS.get 0 u) 1 := by
  have hrun : (riseRecorded u).run u = (F.HCP_CNT_TRANS.set 0 ((F.HCP_CNT_TRANS.get 0 u + 1) % 65536)).run
      ((F.HCP_CNT_ERRORS.inc 0).run ((F.HCP_STAT_ERRSEEN.set 0 1).run ((F.HCP_STAT_CODE.set 0 c).run u))) := by
    rw [riseRecorded, acts_three, hc]
    simp only [h0, ne_eq, not_false_eq_true, decide_true, Bool.or_true, onlyIf_true, run_seq]
  have hcnt (f : Fld) (hf : f.reg = R.HCP_STAT) (v : Nat) (t : State) : F.HCP_CNT_ERRORS.get 0 ((f.set 0 v).run t) = F.HCP_CNT_ERRORS.get 0 t :=
    get_set_apart F.HCP_CNT_ERRORS f (hf ▸ apart_of_away (by decide) (by decide) (by decide) 0 0) v t
  have hstat (f g : Fld) (hf : f.reg = R.HCP_STAT) (hg : g.reg = R.HCP_CNT) (v : Nat) (t : State) :
      f.get 0 ((g.set 0 v).run t) = f.get 0 t := get_set_apart f g (by rw [hf, hg]; exact apart_of_away (by decide) (by decide) (by decide) 0 0) v t
  have hcode := get_set_same F.HCP_STAT_CODE (by decide) hlt 0 u
  have herr := hcnt F.HCP_STAT_CODE rfl c u
  dsimp only
  rw [hrun]
  generalize (F.HCP_STAT_CODE.set 0 c).run u = v at hcode herr
  have hcode' := (get_set_other F.HCP_STAT_CODE F.HCP_STAT_ERRSEEN rfl (by decide) 0 1 v).trans hcode
  have hseen := get_set_same F.HCP_STAT_ERRSEEN (by decide) (x := 1) (by decide) 0 v
  have herr' := (hcnt F.HCP_STAT_ERRSEEN rfl 1 v).trans herr
  generalize (F.HCP_STAT_ERRSEEN.set 0 1).run v = w at hcode' hseen herr'
  have hinc := get_inc_same F.HCP_CNT_ERRORS (by decide) 0 1 w
  rw [herr', show F.HCP_CNT_ERRORS.width = 16 from rfl] at hinc
  have hcode'' := (hstat F.HCP_STAT_CODE F.HCP_CNT_ERRORS rfl rfl (satInc 16 (F.HCP_CNT_ERRORS.get 0 w) 1) w).trans hcode'
  have hseen'' := (hstat F.HCP_STAT_ERRSEEN F.HCP_CNT_ERRORS rfl rfl (satInc 16 (F.HCP_CNT_ERRORS.get 0 w) 1) w).trans hseen
  have hrun' : (F.HCP_CNT_ERRORS.inc 0).run w = (F.HCP_CNT_ERRORS.set 0 (satInc 16 (F.HCP_CNT_ERRORS.get 0 w) 1)).run w := rfl
  rw [← hrun'] at hcode'' hseen''
  generalize (F.HCP_CNT_ERRORS.inc 0).run w = x at hinc hcode'' hseen''
  exact ⟨(hstat F.HCP_STAT_CODE F.HCP_CNT_TRANS rfl rfl _ x).trans hcode'', (hstat F.HCP_STAT_ERRSEEN F.HCP_CNT_TRANS rfl rfl _ x).trans hseen'',
    (get_set_other F.HCP_CNT_ERRORS F.HCP_CNT_TRANS rfl (by decide) 0 _ x).trans hinc⟩

theorem riseRecorded_event (e : Ev) (u : State) : (riseRecorded u).Preserves (EvSet e) := by
  have hset (f : Fld) (hf : f.reg.clear 0x20030300 0x20030320 = true) (hd : 0 < dimsCount f.reg.dims) (v : Nat) : (f.set 0 v).Preserves (EvSet e) :=
    event_kept_fset e hf hd v
  refine preserves_acts ?_
  simp only [List.forall_mem_cons, List.not_mem_nil, false_imp_iff, implies_true, and_true]
  exact ⟨preserves_onlyIf (hset F.HCP_STAT_CODE (by decide) (by decide) _),
    preserves_onlyIf (preserves_seq (hset F.HCP_STAT_ERRSEEN (by decide) (by decide) 1)
      (event_kept_inc e (f := F.HCP_CNT_ERRORS) (by decide) (by decide) 1)), hset F.HCP_CNT_TRANS (by decide) (by decide) _⟩

/-- A rise inside a word of a WRITE is the condition 3 (R601, R603). -/
theorem hcpRise_part {s : State} (ho : s.hcp.open_ = true) (ht : s.hcp.todo = []) (hg : s.hcp.cfg = none) (hc : s.hcp.code = 0)
    (hop : s.hcp.op = 1) : let t := (hcpRise true).run s
    F.HCP_STAT_CODE.get 0 t = 3 ∧ F.HCP_STAT_ERRSEEN.get 0 t = 1 ∧
      F.HCP_CNT_ERRORS.get 0 t = satInc 16 (F.HCP_CNT_ERRORS.get 0 s) 1 ∧ EvSet .HCP_ERR t := by
  have hpart : (risePart true s).run s = (hcpFail 3).run s := by
    unfold risePart
    simp [hop]
  obtain ⟨hhcp, hev⟩ := hcpFail_stands (c := 3) (by decide) hc
  have herr : F.HCP_CNT_ERRORS.get 0 ((hcpFail 3).run s) = F.HCP_CNT_ERRORS.get 0 s := by
    rw [hcpFail, run_look, if_neg (by simp [hc]), run_seq]
    exact get_stores (stores_raise .HCP_ERR 3 0 0 0) hcpCnt_out _
  dsimp only
  rw [hcpRise_run ho ht hg, hpart]
  generalize (hcpFail 3).run s = u at hhcp hev herr
  obtain ⟨hcode, hseen, herrs⟩ := riseRecorded_error (c := 3) (u := u) (by rw [hhcp]) (by decide) (by decide)
  exact ⟨hcode, hseen, herrs.trans (by rw [herr]), riseRecorded_event _ u u hev⟩

/-! ### A read left pending -/

theorem touches_ceReport (k bit : Nat) : (ceReport k bit).Touches [.ecc, .reg] := by
  rw [ceReport, touches_look]
  intro s
  split
  · exact fun _ => (show Kind.ecc ∈ [Kind.ecc, .reg] by decide)
  · exact touches_inc (by decide) F.SYS_ECC_CELOST_COUNT 0 1

theorem waitsKept_eccJudge {ms : List (Nat × EccMark)} {req : Nat} {ev : Option Ev} {k : Bool → Act} {s : State}
    (h : ∀ ok, (k ok).Preserves (WaitsKept s)) : (eccJudge ms req ev k).Preserves (WaitsKept s) := by
  have hreport (k bit : Nat) : (ceReport k bit).Preserves (WaitsKept s) := waitsKept_of (ks := [.ecc, .reg])
    (touches_ceReport k bit) (by decide) s
  have hnote (k : Nat) : (ueNote k req ev).Preserves (WaitsKept s) := by
    refine waitsKept_of (ks := raiseKinds) (fun t => ?_) (by decide) s
    refine ⟨touches_inc (by decide) F.SYS_ECC_UECNT_COUNT 0 1, (within_onlyIf _ _).mpr fun _ => touches_rset (by decide) _ _ _ _,
      fun _ => (show Kind.sump ∈ raiseKinds by decide), ?_⟩
    cases ev with
    | none => trivial
    | some e => exact touches_raise e _ _ _ _
  refine preserves_acts ?_
  simp only [List.forall_mem_cons, List.not_mem_nil, false_imp_iff, implies_true, and_true]
  refine ⟨preserves_forEach fun p _ => ?_, h _⟩
  split
  · exact hreport _ _
  · exact hnote _


theorem waitsKept_respond (vs : List Nat) (e : Bool) (s : State) : (respond 1 vs e).Preserves (WaitsKept s) :=
  fun _ ht => ⟨ht.waiting, ht.stall, ht.waits, ht.hcp⟩

theorem waitsKept_memRead (a n : Nat) (s : State) :
    (memRead .x 1 a n (some .ECC_UE_MASTER) fun v e => respond 1 [v] e).Preserves (WaitsKept s) :=
  preserves_look fun _ => waitsKept_eccJudge fun _ => preserves_look fun _ => preserves_ite (waitsKept_respond _ _ s) (waitsKept_respond _ _ s)

theorem waitsKept_decodeErr (a : Nat) (s : State) : (Act.seq (decodeErr 1 false a) (respond 1 [0])).Preserves (WaitsKept s) :=
  preserves_seq (waitsKept_of (touches_decodeErr 1 false a) (by decide) s) (waitsKept_respond _ _ s)

theorem waitsKept_windowRead (a n : Nat) (s : State) :
    (windowRead (.master 1) .x a n fun v e => respond 1 [v] e).Preserves (WaitsKept s) := by
  refine preserves_look fun u => ?_
  have hx : (dramOut .x u || (decide (Window.x = .pool) && busHole u a)) = false := rfl
  dsimp only
  rw [hx, if_neg (by decide), if_neg (by simp)]
  exact preserves_seq preserves_done (waitsKept_memRead _ _ s)

theorem waitsKept_grant (id : Nat) (as : List Nat) (s : State) : (grant id as).Preserves (WaitsKept s) :=
  fun _ ht => ⟨ht.waiting, ht.stall, ht.waits, ht.hcp⟩

theorem waitsKept_oneRead (l : LaneSlot) (k : Fin 8192) (s : State) :
    (oneRead (.master 1) (xyAddr l false k) 4 fun v e => respond 1 [v] e).Preserves (WaitsKept s) := by
  refine preserves_look fun t => ?_
  rw [windowOf_xAddr, if_neg (show ¬ (4 : Nat) = 8 by decide)]
  exact preserves_ite (waitsKept_decodeErr _ s) (waitsKept_windowRead _ _ s)

theorem perform_readX (l : LaneSlot) (k : Fin 8192) : perform (.master 1) (xyAddr l false k) (.read .b4) 16 false =
    .seq (grant 1 [xyAddr l false k]) (oneRead (.master 1) (xyAddr l false k) 4 fun v e => respond 1 [v] e) := by
  rw [perform]
  rfl

/-- A read of an X word leaves what waits. -/
theorem waitsKept_readX (l : LaneSlot) (k : Fin 8192) (s : State) :
    (perform (.master 1) (xyAddr l false k) (.read .b4) 16 false).Preserves (WaitsKept s) := by
  rw [perform_readX]
  exact preserves_seq (waitsKept_grant 1 _ s) (waitsKept_oneRead l k s)

theorem laneWindow_x (l : LaneSlot) (k : Fin 8192) : laneWindow (xyAddr l false k) = some l.val := by
  obtain ⟨-, hlt, -⟩ := xyOffset_bounds false k
  rw [xyAddr_eq]
  exact laneWindow_slot l (by omega)

theorem groupBars_readable {l a : Nat} {s : State} (h : laneWindow a = some l) (hl : laneReleased s l = false) : groupBars s a = false := by
  unfold groupBars
  rw [h]
  dsimp only
  rw [hl, Bool.false_and]

theorem laneBars_read {a : Nat} {s : State} (h : groupBars s (a / 4 * 4) = false) : laneBars (.master 1) a (.read .b4) s = false := by
  have hgroups : reqGroups a (.read .b4) = [a / 4 * 4] := rfl
  unfold laneBars
  dsimp only
  rw [hgroups, List.any_cons, h]
  simp

/-- No word of a lane that is not released is barred. -/
theorem laneBars_readX {l : LaneSlot} (k : Fin 8192) {s : State} (hl : laneReleased s l = false) :
    laneBars (.master 1) (xyAddr l false k) (.read .b4) s = false := by
  have h4 : xyAddr l false k / 4 * 4 = xyAddr l false k := by
    obtain ⟨h8, -, -⟩ := xyOffset_bounds false k
    rw [xyAddr_eq]
    omega
  exact laneBars_read (by rw [h4]; exact groupBars_readable (laneWindow_x l k) hl)

section
variable {a : Nat} {s : State} (ha : asleep s = false) (hr : s.bus.routeStall = [])
  (hw : s.bus.waiting = [⟨.master 1, a, .read .b4⟩]) (hl : laneBars (.master 1) a (.read .b4) s = false)
include ha hr hw hl

theorem resumeWaiting_read : (resumeWaiting fun q => reqId q == 1).run s = (perform (.master 1) a (.read .b4) 16 false).run
    ((setBus fun b => { b with waiting := b.waiting.erase ⟨.master 1, a, .read .b4⟩ }).run s) := by
  have hmine : ([⟨.master 1, a, .read .b4⟩] : List WaitAcc).filter (fun w => reqId w.who == 1) = [⟨.master 1, a, .read .b4⟩] := rfl
  have hfind : (s.bus.waiting.find? fun x => x.who = .master 1) = some ⟨.master 1, a, .read .b4⟩ := by rw [hw]; simp
  rw [resumeWaiting, run_look, hw, hmine, run_forEach_cons, run_forEach_nil, run_look]
  dsimp only
  rw [hfind, hr, hl, ha]
  simp only [List.any_nil, Bool.not_false, decide_true, Bool.and_self, if_true]
  rfl

/-- A read of the host port that is left pending goes on once it is not barred, and its data is discarded (R600). -/
theorem hcpComplete_discards (ho : s.hcp.open_ = false) (hq : s.pool.waits = [])
    (hkeep : ∀ u, (perform (.master 1) a (.read .b4) 16 false).Preserves (WaitsKept u)) : let t := hcpComplete.run s
    t.bus.waiting = [] ∧ smFind t.bus.resp 1 = none := by
  have hdone : (waitDone 1).run s = s := by rw [waitDone, run_look, hq]; rfl
  have hu : ((setBus fun b => { b with waiting := b.waiting.erase ⟨.master 1, a, .read .b4⟩ }).run s).bus.waiting = [] := by
    show s.bus.waiting.erase _ = []
    rw [hw]
    exact List.erase_cons_head ..
  have hstall : ((setBus fun b => { b with waiting := b.waiting.erase ⟨.master 1, a, .read .b4⟩ }).run s).bus.routeStall = [] := hr
  have hwaits : ((setBus fun b => { b with waiting := b.waiting.erase ⟨.master 1, a, .read .b4⟩ }).run s).pool.waits = [] := hq
  dsimp only
  rw [hcpComplete, run_look, ho, ha, Bool.or_self, if_neg (by decide), acts_three, hdone, resumeWaiting_read ha hr hw hl]
  generalize (setBus fun b => { b with waiting := b.waiting.erase ⟨.master 1, a, .read .b4⟩ }).run s = u at hu hstall hwaits
  have hkept := hkeep u u (waitsKept_refl u)
  have hpend : accessPends 1 u = false := by
    unfold accessPends
    rw [hu, hstall, hwaits]
    rfl
  rw [run_look, hkept.pends, hpend, Bool.not_false, onlyIf_true]
  exact ⟨hkept.waiting.trans hu, find_erase_self _ _⟩

end

/-! ### The statement -/

/-- Settles O53: a transaction begins with its status byte, and each of its commands goes on from there. -/
theorem hostPortCommandsComplete : Obligations.HostPortCommandsComplete := by
  intro cmd s fresh status
  refine ⟨fun n ⟨ha, ho, hop, hb⟩ hp hc hsz hinc => ⟨_, rfl, ?_⟩, fun v ⟨ha, ho, hop, hb⟩ hp hc hsz hreach hl => ⟨_, rfl, ?_⟩,
    fun v ⟨ha, ho, hop, hb⟩ hp hc hsz hg => ?_, fun ⟨ha, ho, hop, hb⟩ hpass => ⟨_, rfl, ?_⟩, fun ⟨ha, ho, hop, hb⟩ => ⟨_, rfl, ?_⟩,
    fun ho ha hp hop hb a n => ⟨_, rfl, ?_⟩,
    fun ho ht hg => ⟨fun hc hop => ⟨_, rfl, hcpRise_ends ho ht hg hc hop⟩, fun hc hop => ⟨_, rfl, hcpRise_part ho ht hg hc hop⟩⟩,
    fun l k ho ha hr hq hw hl => ⟨_, rfl, hcpComplete_discards ha hr hw (laneBars_readX k hl) ho hq (waitsKept_readX l k)⟩, fun m v hm hreach => ⟨_, rfl, hcpCfg_others hm hreach⟩⟩
  · have hlist : ((List.range n).map fun k => (hcpAddr cmd.toNat (BitVec.ofNat 32 (R.STRATA_ICW.addr 0)).toNat k, hcpSize cmd.toNat)) =
        List.replicate n (R.STRATA_ICW.addr 0, .b4) := by
      have haddr (k : Nat) : hcpAddr cmd.toNat (BitVec.ofNat 32 (R.STRATA_ICW.addr 0)).toNat k = R.STRATA_ICW.addr 0 := by
        rw [hcpAddr, hinc, if_neg (by decide)]
        decide
      simp only [haddr, hsz, List.map_const', List.length_range]
    obtain ⟨hopen, hcode, hout⟩ := hcpReads_icw n (s := begun cmd.toNat 0 s) ha hp
    rw [hlist, hcpBegin_takes ha ho hop hb fun _ => ⟨hp, hc⟩]
    exact ⟨hopen, hcode, hout⟩
  · have hlist : ([v].zipIdx.map fun p => (hcpAddr cmd.toNat (BitVec.ofNat 32 (R.XBAR_AGE.addr 0)).toNat p.2, p.1)) =
        [(R.XBAR_AGE.addr 0, v)] := by
      have haddr : hcpAddr cmd.toNat (BitVec.ofNat 32 (R.XBAR_AGE.addr 0)).toNat 0 = R.XBAR_AGE.addr 0 := by
        unfold hcpAddr
        rw [Nat.zero_mul]
        split <;> decide
      show [(hcpAddr cmd.toNat (BitVec.ofNat 32 (R.XBAR_AGE.addr 0)).toNat 0, v)] = _
      rw [haddr]
    obtain ⟨hhcp, hlim⟩ := hcpWrite_age (v := v) (s := begun cmd.toNat 1 s) hreach hp hl
    rw [hsz, hlist, hcpBegin_takes ha ho hop hb fun _ => ⟨hp, hc⟩]
    exact ⟨by rw [hhcp]; rfl, by rw [hhcp]; rfl, hlim⟩
  · have hlist : ([v].zipIdx.map fun p => (hcpAddr cmd.toNat (BitVec.ofNat 32 (R.HCP_CFG.addr 0)).toNat p.2, p.1)) =
        [(R.HCP_CFG.addr 0, v)] := by
      have haddr : hcpAddr cmd.toNat (BitVec.ofNat 32 (R.HCP_CFG.addr 0)).toNat 0 = R.HCP_CFG.addr 0 := by
        unfold hcpAddr
        rw [Nat.zero_mul]
        split <;> decide
      show [(hcpAddr cmd.toNat (BitVec.ofNat 32 (R.HCP_CFG.addr 0)).toNat 0, v)] = _
      rw [haddr]
    obtain ⟨w, hcfg, hval, hqen⟩ := hcpWrite_cfg (v := v) (s := begun cmd.toNat 1 s) ha hp hg
    refine ⟨_, w, rfl, ?_⟩
    rw [hsz, hlist, hcpBegin_takes ha ho hop hb fun _ => ⟨hp, hc⟩]
    exact ⟨hcfg, hval, hqen⟩
  · rw [run_look, hpass, onlyIf_true, hcpBegin_takes ha ho hop hb fun h => absurd h (by decide)]
    exact ⟨rfl, rfl, rfl⟩
  · rw [hcpBegin_takes ha ho hop hb fun h => absurd h (by decide)]
    exact hcpAbort_ends rfl
  · obtain ⟨hhcp, hev⟩ := hcpFail_stands (c := 6) (s := begun cmd.toNat 0 s) (by decide) rfl
    rw [hcpBegin_busy ha ho hop hb (by decide) hp]
    exact ⟨by rw [hhcp], by rw [hhcp]; rfl, hev⟩

end Sys2Proof.Machine
end

