-- ==== Sys2Proof/Proofs/BaseRecords.lean ====
section
/-! SUPPORT. A WRITE record of the base layer, while a switch section still has words to write (R543, R556). -/

namespace Sys2Proof.Machine

/-- The base stands at a WRITE record of two words to address 0, and STATE is 3 with one record of the switch section left. -/
def sectionAwaits : State :=
  let s := (acts [F.STRATA_SWSTAT_STATE.set 0 3, F.STRATA_STAT_BOOT.set 0 3, F.PWR_STAT_PHASE.set 0 3]).run State.reset
  { s with
    mem := [⟨0x80000000, 2⟩, ⟨0x80000002, 2⟩]
    strata := { s.strata with base := some (0x80000000, 0x80000010), sect := [[]] } }

theorem sectionAwaits_plays : PlaysNext 2 0x80000000 0x80000010 sectionAwaits where
  base := rfl
  free := by decide +kernel
  type := by decide +kernel
  room := by decide +kernel
  whole := by decide +kernel
  clean := rfl

/-- The command writes the record of the section, and the base stays where it is. -/
theorem recordWrite_leavesBase :
    ((Act.look fun s => if sectionOn s then sectionRecord else playRecord 2).run sectionAwaits).strata.base =
      some (0x80000000, 0x80000010) := by decide +kernel

/-- The accesses of the record at the front of a base layer, and the state in which they are made. -/
def frontAccesses (s : State) (a : Nat) : List (Nat × Size × Nat) := recAccesses (memBytes s.mem a (recSize (memBytes s.mem a 8)))

/-- The base has gone on behind the record at its front. -/
def behindFront (s : State) (a e : Nat) : State :=
  { s with strata := { s.strata with
      base := some (a + recSize (memBytes s.mem a (recSize (memBytes s.mem a 8))), e), played := true } }

theorem loaderDoes_goesOn :
    (loaderDoes (frontAccesses sectionAwaits 0x80000000) (behindFront sectionAwaits 0x80000000 0x80000010)).strata.base ≠
      some (0x80000000, 0x80000010) := by decide +kernel

/-- Refutes O48: nothing in the statement excludes a switch section that still has words to write. RECORD_WRITE then writes the section's
record and not the record of the base. -/
theorem not_recordCommandsComplete : ¬ Obligations.RecordCommandsComplete := by
  unfold Obligations.RecordCommandsComplete
  intro h
  obtain ⟨-, -, hwrite, -⟩ := h sectionAwaits 0x80000000 0x80000010
  obtain ⟨-, -, hloader⟩ := hwrite sectionAwaits_plays (by decide +kernel)
  have hsame := congrArg (fun t : State => t.strata.base) (Host.Outcome.next.inj hloader)
  exact loaderDoes_goesOn (hsame.symm.trans recordWrite_leavesBase)

end Sys2Proof.Machine
end

