-- ==== Sys2Proof/Proofs/StrataCommands.lean ====
section
/-! SUPPORT. Arming, switching and reloading strata (R549–R564). -/

namespace Sys2Proof.Machine

/-! ### Commands that wait for their edge -/

theorem bitOf_or (x y i : Nat) : bitOf (x ||| y) i = (bitOf x i || bitOf y i) := by
  have h : ∀ v : Nat, bitOf v i = v.testBit i := fun v => by rw [Nat.testBit_eq_decide_div_mod_eq]; rfl
  rw [h, h, h, Nat.testBit_or]

/-- A command that waits and is of the register whose bits are `own`, due at the edge at which one written now is applied. -/
def joins (own : Nat) (s : State) (c : LoaderCmd) : Bool :=
  decide (c.bits &&& own ≠ 0) && (c.edge == some (cmdEdge s) || (c.edge.isNone && !(inEdgeCycle s && switchDue s)))

/-- What the edge depends on at which a command written now is applied. -/
theorem cmdEdge_congr {s t : State} (htick : t.tick = s.tick) (hnow : t.now = s.now) (hclk : t.clk = s.clk)
    (hnum : R.TICK_NUM.val 0 t = R.TICK_NUM.val 0 s) (hstat : R.TICK_STAT.val 0 t = R.TICK_STAT.val 0 s) : cmdEdge t = cmdEdge s := by
  have hrun : running t = running s := congrArg (fun v => bitsOf v _ _ == 1) hstat
  have hspt : spt t = spt s := by rw [spt, htick, spt]
  have hfs : fsHz t = fsHz s := by rw [fsHz, htick, fsHz]
  have hmhz : cclkMHz t = cclkMHz s := by rw [cclkMHz, hclk, cclkMHz]
  have hpos : ∀ n, edgePos n t = edgePos n s := fun n => by rw [edgePos, hspt, hmhz, hfs, edgePos]
  have hnext : nextTick t = nextTick s := by
    rw [nextTick, htick, hnow, hspt, hmhz, hfs, show tickNum t = tickNum s from hnum]
    simp only [hpos, nextTick]
  have hin : inEdgeCycle t = inEdgeCycle s := by simp only [inEdgeCycle, edgeDue, hrun, hnext, hpos, htick, hnow]
  rw [cmdEdge, hin, hnext, cmdEdge]

/-- An effect that stores outside the registers of the tick leaves that edge. -/
theorem cmdEdge_run {ks : List Kind} {A : Nat → Bool} {a : Act} (ht : a.Touches ks)
    (hk : Kind.tick ∉ ks ∧ Kind.now ∉ ks ∧ Kind.clk ∉ ks ∧ Kind.nodeReset ∉ ks) (hs : a.Stores A)
    (hA : WordsOut A R.TICK_NUM 0 0 ∧ WordsOut A R.TICK_STAT 0 0) (s : State) : cmdEdge (a.run s) = cmdEdge s :=
  cmdEdge_congr (touches_tick ht hk.1 hk.2.2.2 s) (touches_now ht hk.2.1 hk.2.2.2 s) (touches_clk ht hk.2.2.1 hk.2.2.2 s)
    (val_stores hs hA.1 s) (val_stores hs hA.2 s)

/-- The written command waits at its edge; what waits for another stays (R559). -/
theorem strataWait_strata (m a own bits : Nat) (s : State) : ∃ kept q, ((strataWait m a own bits false).run s).strata =
    { s.strata with cmds := (s.strata.cmds.filter fun c => !joins own s c) ++ [⟨some (cmdEdge s), bits ||| kept, q⟩] } := by
  have hshadow : ((noteShadow a 0 m false false).run s).strata = s.strata := touches_strata (touches_noteShadow ..) (by decide) (by decide) s
  refine ⟨if (rival a m s).isSome then 0 else (s.strata.cmds.filter (joins own s)).foldl (fun b c => b ||| c.bits) 0,
    nextSeq ((noteShadow a 0 m false false).run s), ?_⟩
  rw [strataWait, run_look]
  dsimp only
  rw [run_seq, tieLost_none, Bool.not_false, onlyIf_true]
  generalize (noteShadow a 0 m false false).run s = u at hshadow ⊢
  rw [← hshadow]
  rfl

theorem strataWait_waits {m a own bits b : Nat} (hb : bitOf bits b = true) {s : State} :
    CommandWaits b s ((strataWait m a own bits false).run s) := by
  obtain ⟨kept, q, hstrata⟩ := strataWait_strata m a own bits s
  unfold CommandWaits
  rw [hstrata]
  refine ⟨⟨_, List.mem_append_right _ (List.mem_singleton_self _), rfl, by rw [bitOf_or, hb, Bool.true_or]⟩, fun c hc hsome hne => ?_⟩
  refine List.mem_append_left _ (List.mem_filter.mpr ⟨hc, ?_⟩)
  have hnone : c.edge.isNone = false := by rw [← Option.not_isSome, hsome]; rfl
  simp [joins, hne, hnone]

theorem stores_strataWait (m a own bits : Nat) : (strataWait m a own bits false).Stores errRegs := by
  rw [strataWait, stores_look]
  intro s
  simp only [stores_seq, stores_noteShadow, true_and, stores_onlyIf, stores_look, stores_setStrata, implies_true]

/-- A command that a rule of its block drops. -/
theorem dropped_command (m : Master) {a : Nat} (ha : a < 2 ^ 32) (s : State) : let t := (dropped m a).run s
    t.strata = s.strata ∧ F.XBAR_ACCERR_REASON.get 0 t = 3 := by
  obtain ⟨-, -, -, hreason, -⟩ := accessErr_logs (id := m) (by omega) ha (show 3 < 4 by decide) true s
  exact ⟨touches_strata (touches_dropped ..) (by decide) (by decide) s, hreason⟩

section
variable {m : Master} {s : State} (hreach : WriteReaches m (R.STRATA_CMD.addr 0) s)
include hreach

/-- A command of STRATA_CMD waits in the running strata, ARM only from IDLE (R559). -/
theorem strataCmd_waits (hboot : boot s = 4) {v b : Nat} (hv : bitOf ((v &&& fullMask 1) % 8) b = true)
    (harm : bitOf ((v &&& fullMask 1) % 8) 0 = true → swSt s = 0) :
    CommandWaits b s ((arrive m (R.STRATA_CMD.addr 0) 0xF v (wrStrataCmd m v (fullMask 1))).run s) := by
  obtain ⟨g, r, l, w, hrun⟩ := arrive_atTarget hreach 0xF v (wrStrataCmd m v (fullMask 1))
  have hsome : (v &&& fullMask 1) % 8 ≠ 0 := by
    intro h
    rw [h] at hv
    exact absurd hv (by unfold bitOf; simp)
  have hfree : (F.STRATA_STAT_BOOT.get 0 (atTarget g r l w s) ≠ 4 || (bitOf ((v &&& fullMask 1) % 8) 0 && swSt (atTarget g r l w s) ≠ 0)) =
      false := by
    have hb : F.STRATA_STAT_BOOT.get 0 (atTarget g r l w s) = 4 := hboot
    have hs : swSt (atTarget g r l w s) = swSt s := rfl
    rw [hb, hs]
    cases h : bitOf ((v &&& fullMask 1) % 8) 0
    · rfl
    · rw [harm h]; rfl
  rw [hrun, wrStrataCmd, run_look]
  dsimp only
  rw [if_neg hsome, hfree, if_neg (by decide)]
  exact strataWait_waits (s := atTarget g r l w s) hv

theorem strataArm_refused (hbusy : swSt s ≠ 0) : ∃ t, exec (.strataArm m) s = .next t ∧ t.strata.cmds = s.strata.cmds ∧
    F.XBAR_ACCERR_REASON.get 0 t = 3 := by
  refine ⟨_, rfl, ?_⟩
  obtain ⟨g, r, l, w, hrun⟩ := arrive_atTarget hreach 0xF 1 (wrStrataCmd m 1 (fullMask 1))
  have hbar : (F.STRATA_STAT_BOOT.get 0 (atTarget g r l w s) ≠ 4 || (bitOf ((1 &&& fullMask 1) % 8) 0 && swSt (atTarget g r l w s) ≠ 0)) =
      true := by
    have hs : swSt (atTarget g r l w s) = swSt s := rfl
    rw [hs, Bool.or_eq_true, Bool.and_eq_true]
    exact .inr ⟨by decide, decide_eq_true hbusy⟩
  rw [hrun, wrStrataCmd, run_look]
  dsimp only
  rw [if_neg (by decide), hbar, if_pos rfl]
  obtain ⟨hstrata, hreason⟩ := dropped_command m (show R.STRATA_CMD.addr 0 < 2 ^ 32 by decide) (atTarget g r l w s)
  exact ⟨congrArg (·.cmds) hstrata, hreason⟩

end

/-! ### Reload commands -/

/-- The entry of `STRATA_GCMD`. -/
abbrev gcmdEntry : RegEntry :=
  ⟨R.STRATA_GCMD, [F.STRATA_GCMD_GO, F.STRATA_GCMD_GAL, F.STRATA_GCMD_SRC, F.STRATA_GCMD_RET_T, F.STRATA_GCMD_INDEX]⟩

/-- The write of `STRATA_GCMD` that an order makes. -/
abbrev gcmdStore (m v : Nat) : Act := storeWrite gcmdEntry 0 m v (fullMask 1) (R.STRATA_GCMD.addr 0)

theorem gcmdStore_strata (m v : Nat) (s : State) : ((gcmdStore m v).run s).strata = s.strata :=
  touches_strata (touches_storeWrite ..) (by decide) (by decide) s

/-- Words that it can store. -/
def gcmdWords (k : Nat) : Bool := errRegs k || k == R.STRATA_GCMD.base

theorem gcmd_words {m : Nat} : WordsIn gcmdWords R.STRATA_GCMD 0 m := fun w hw => by
  obtain rfl : w = 0 := Nat.lt_one_iff.mp hw
  rw [key_zero rfl rfl]
  decide

theorem stores_gcmdStore (m v : Nat) : (gcmdStore m v).Stores gcmdWords :=
  stores_storeWrite _ _ _ _ _ _ _ _ _ gcmd_words fun k hk => by rw [gcmdWords, hk, Bool.true_or]

theorem touches_gcmdStore (m v : Nat) : (gcmdStore m v).Touches storeKinds := touches_storeWrite _ _ _ _ _ _ _ _

theorem gcmdStore_edge (m v : Nat) (s : State) : cmdEdge ((gcmdStore m v).run s) = cmdEdge s :=
  cmdEdge_run (touches_gcmdStore m v) (by decide) (stores_gcmdStore m v)
    ⟨by unfold WordsOut; decide, by unfold WordsOut; decide⟩ s

/-- GO stores the other fields, and then waits or is dropped (R564). -/
theorem wrGcmd_go {m : Nat} {v : Word} (hgo : bitOf v.toNat 31 = true) (s : State) : (wrGcmd m v.toNat (fullMask 1)).run s =
    (if reloadRuns s || swSt s = 1 then dropped m (R.STRATA_GCMD.addr 0) else strataWait m (R.STRATA_GCMD.addr 0) 8 8 false).run
      ((gcmdStore m v.toNat).run s) := by
  have hand : v.toNat &&& fullMask 1 = v.toNat := and_mask v.isLt
  rw [wrGcmd, run_look]
  dsimp only
  rw [run_seq, tieLost_none, Bool.and_false, Bool.not_false, onlyIf_true, hand, hgo, Bool.not_true, if_neg (by decide)]
  rfl

section
variable {m : Master} {v : Word} {s : State} (hreach : WriteReaches m (R.STRATA_GCMD.addr 0) s) (hgo : bitOf v.toNat 31 = true)
include hreach hgo

theorem galleryReloadGo_waits (hruns : reloadRuns s = false) (harming : swSt s ≠ 1) : ∃ t, exec (.galleryReloadGo m v) s = .next t ∧
    CommandWaits 3 s t ∧
      F.STRATA_GCMD_GAL.get 0 t = F.STRATA_GCMD_GAL.of v.toNat ∧ F.STRATA_GCMD_SRC.get 0 t = F.STRATA_GCMD_SRC.of v.toNat ∧
      F.STRATA_GCMD_RET_T.get 0 t = F.STRATA_GCMD_RET_T.of v.toNat ∧ F.STRATA_GCMD_INDEX.get 0 t = F.STRATA_GCMD_INDEX.of v.toNat := by
  refine ⟨_, rfl, ?_⟩
  obtain ⟨b, r, l, w, hrun⟩ := arrive_atTarget hreach 0xF v.toNat (wrGcmd m v.toNat (fullMask 1))
  rw [hrun, wrGcmd_go hgo, if_neg]
  swap
  · rw [show reloadRuns (atTarget b r l w s) = false from hruns]
    exact fun h => harming ((Bool.false_or _).symm.trans h |> of_decide_eq_true)
  have hstored : ∀ f ∈ gcmdEntry.flds, f.reg = R.STRATA_GCMD → f.acc = .rw → (f.lk = false ∧ f.unlisted = []) →
      f.get 0 ((strataWait m (R.STRATA_GCMD.addr 0) 8 8 false).run ((gcmdStore m v.toNat).run (atTarget b r l w s))) = f.of v.toNat := by
    intro f hf hr hacc hfree
    have hout : WordsOut errRegs f.reg 0 0 := by rw [hr]; exact out_zero rfl rfl (by decide) 0 0
    rw [get_stores (stores_strataWait m (R.STRATA_GCMD.addr 0) 8 8) hout]
    exact stored_get (e := gcmdEntry) (n := 1) rfl (by unfold FldsOk; decide) (out_zero rfl rfl (by decide) 0 m) rfl hf hr hacc
      (by rw [hfree.1]; rfl) (by rw [hfree.2]; exact List.not_mem_nil)
  refine ⟨?_, hstored F.STRATA_GCMD_GAL (by simp) rfl rfl ⟨rfl, rfl⟩, hstored F.STRATA_GCMD_SRC (by simp) rfl rfl ⟨rfl, rfl⟩,
    hstored F.STRATA_GCMD_RET_T (by simp) rfl rfl ⟨rfl, rfl⟩, hstored F.STRATA_GCMD_INDEX (by simp) rfl rfl ⟨rfl, rfl⟩⟩
  have hedge : cmdEdge ((gcmdStore m v.toNat).run (atTarget b r l w s)) = cmdEdge s := gcmdStore_edge ..
  have hwaits : CommandWaits 3 _ _ := strataWait_waits (m := m) (a := R.STRATA_GCMD.addr 0) (own := 8) (show bitOf 8 3 = true by decide)
    (s := (gcmdStore m v.toNat).run (atTarget b r l w s))
  unfold CommandWaits at hwaits ⊢
  rwa [hedge, gcmdStore_strata] at hwaits

theorem galleryReloadGo_refused (hruns : reloadRuns s = true) : ∃ t, exec (.galleryReloadGo m v) s = .next t ∧
    t.strata.cmds = s.strata.cmds ∧ F.XBAR_ACCERR_REASON.get 0 t = 3 := by
  refine ⟨_, rfl, ?_⟩
  obtain ⟨b, r, l, w, hrun⟩ := arrive_atTarget hreach 0xF v.toNat (wrGcmd m v.toNat (fullMask 1))
  rw [hrun, wrGcmd_go hgo, if_pos (by rw [show reloadRuns (atTarget b r l w s) = true from hruns]; rfl)]
  obtain ⟨hstrata, hreason⟩ := dropped_command m (show R.STRATA_GCMD.addr 0 < 2 ^ 32 by decide) ((gcmdStore m v.toNat).run (atTarget b r l w s))
  exact ⟨congrArg (·.cmds) (hstrata.trans (gcmdStore_strata ..)), hreason⟩

end

/-! ### Arming and the trigger -/

theorem get_setStrata (f : Fld) (i : Nat) (g : StrataState → StrataState) (s : State) : f.get i ((setStrata g).run s) = f.get i s := rfl

section
variable {s : State}

theorem armingDone_complete {a e : Nat} (hst : swSt s = 1) (herr : s.strata.armErr = 0) (harm : s.strata.arm = some (a, e)) (hend : e ≤ a)
    (hwarm : s.strata.warmGo = false) : ∃ t, exec .armingComplete s = .next t ∧ swSt t = 2 ∧ F.STRATA_SWSTAT_RESULT.get 0 t = 1 := by
  have hrun : armingDone.run s = (F.STRATA_SWSTAT_RESULT.set 0 1).run ((F.STRATA_SWSTAT_STATE.set 0 2).run s) := by
    rw [armingDone, run_look]
    dsimp only
    rw [if_neg (by simp [hst]), herr, if_neg (by decide), harm]
    dsimp only
    rw [if_pos (decide_eq_true hend), acts_three, hwarm, onlyIf_false, run_done]
  refine ⟨_, rfl, ?_⟩
  rw [hrun]
  exact ⟨(get_set_other F.STRATA_SWSTAT_STATE F.STRATA_SWSTAT_RESULT rfl (by decide) 0 1 _).trans (get_set_same _ (by decide) (by decide) ..),
    get_set_same _ (by decide) (by decide) ..⟩

theorem armingDone_failed (hst : swSt s = 1) (herr : s.strata.armErr ≠ 0) (hcode : s.strata.armErr < 16) :
    ∃ t, exec .armingComplete s = .next t ∧ swSt t = 0 ∧ F.STRATA_SWSTAT_RESULT.get 0 t = s.strata.armErr ∧ t.strata.arm = none := by
  have hrun : armingDone.run s = (setStrata fun x => { x with arm := none, armErr := 0, warmGo := false }).run
      ((F.STRATA_SWSTAT_RESULT.set 0 s.strata.armErr).run ((F.STRATA_SWSTAT_STATE.set 0 0).run s)) := by
    rw [armingDone, run_look]
    dsimp only
    rw [if_neg (by simp [hst]), if_pos herr, acts_three]
  refine ⟨_, rfl, ?_⟩
  rw [hrun]
  refine ⟨?_, ?_, rfl⟩
  · rw [swSt, get_setStrata, get_set_other F.STRATA_SWSTAT_STATE F.STRATA_SWSTAT_RESULT rfl (by decide)]
    exact get_set_same F.STRATA_SWSTAT_STATE (by decide) (by decide) 0 s
  · rw [get_setStrata]
    exact get_set_same F.STRATA_SWSTAT_RESULT (by decide) hcode 0 _

section
variable (hrun : running s = true) (hmode : F.STRATA_TRIG_MODE.get 0 s = 2) (hat : tickNum s + 1 = F.STRATA_AT_AT.get 0 s)
include hrun hmode hat

theorem strataAt_run : exec .strataAtTrigger s = .next (strataTrigger.run s) := by
  have hdue : (running s && F.STRATA_TRIG_MODE.get 0 s == 2 && tickNum s + 1 == F.STRATA_AT_AT.get 0 s) = true := by simp [hrun, hmode, hat]
  show Host.Outcome.next ((onlyIf (running s && F.STRATA_TRIG_MODE.get 0 s == 2 && tickNum s + 1 == F.STRATA_AT_AT.get 0 s)
    strataTrigger).run s) = _
  rw [hdue, onlyIf_true]

theorem strataAt_plays (hst : swSt s = 2) : ∃ t, exec .strataAtTrigger s = .next t ∧ swSt t = 3 ∧ t.strata.sectAt = none := by
  refine ⟨_, strataAt_run hrun hmode hat, ?_⟩
  rw [strataTrigger, run_look, if_pos hst, run_seq]
  exact ⟨get_set_same F.STRATA_SWSTAT_STATE (by decide) (by decide) 0 s, rfl⟩

theorem strataAt_refused (h2 : swSt s ≠ 2) (h3 : swSt s ≠ 3) : ∃ t, exec .strataAtTrigger s = .next t ∧ swSt t = swSt s ∧
    F.STRATA_SWSTAT_RESULT.get 0 t = 9 ∧ F.STRATA_SWSTAT_REFCNT.get 0 t = satInc 8 (F.STRATA_SWSTAT_REFCNT.get 0 s) 1 := by
  refine ⟨_, strataAt_run hrun hmode hat, ?_⟩
  rw [strataTrigger, run_look, if_neg h2, if_neg h3, run_seq]
  refine ⟨?_, ?_, ?_⟩
  · have hcount := get_inc_other F.STRATA_SWSTAT_STATE F.STRATA_SWSTAT_REFCNT rfl (by decide) 0 1 ((F.STRATA_SWSTAT_RESULT.set 0 9).run s)
    exact hcount.trans (get_set_other F.STRATA_SWSTAT_STATE F.STRATA_SWSTAT_RESULT rfl (by decide) 0 9 s)
  · have hcount := get_inc_other F.STRATA_SWSTAT_RESULT F.STRATA_SWSTAT_REFCNT rfl (by decide) 0 1 ((F.STRATA_SWSTAT_RESULT.set 0 9).run s)
    exact hcount.trans (get_set_same F.STRATA_SWSTAT_RESULT (by decide) (by decide) 0 s)
  · rw [get_inc_same _ (by decide), get_set_other F.STRATA_SWSTAT_REFCNT F.STRATA_SWSTAT_RESULT rfl (by decide)]
    rfl

end

/-! ### The switch section -/

/-- A write that loses no tie waits for its edge. -/
theorem noteShadow_pends (a old m : Nat) (s : State) : ∃ x ∈ ((noteShadow a old m false false).run s).shPend, x.addr = a ∧ x.master = m := by
  unfold noteShadow
  rw [run_look]
  dsimp only
  rw [tieLost_none, if_neg (by decide), run_seq, run_look, run_upd]
  exact ⟨_, List.mem_append_right _ (List.mem_singleton_self _), rfl, rfl⟩

/-- Words that a write of the margin can store. -/
def marginWords (k : Nat) : Bool := errRegs k || k == R.TICK_NETMARGIN.base

/-- The write of the margin. -/
abbrev marginStore (m v : Nat) : Act := storeWrite netMarginEntry 0 m v (fullMask 1) (R.TICK_NETMARGIN.addr 0)

theorem margin_words {m : Nat} : WordsIn marginWords R.TICK_NETMARGIN 0 m := fun w hw => by
  obtain rfl : w = 0 := Nat.lt_one_iff.mp hw
  rw [key_zero rfl rfl]
  decide

theorem stores_marginStore (m v : Nat) : (marginStore m v).Stores marginWords :=
  stores_storeWrite _ _ _ _ _ _ _ _ _ margin_words fun k hk => by rw [marginWords, hk, Bool.true_or]

theorem touches_marginStore (m v : Nat) : (marginStore m v).Touches storeKinds := touches_storeWrite _ _ _ _ _ _ _ _

/-- The margin has been written with `v`: its shadow waits and is held, and what is in force stays. -/
structure MarginHeld (v : Word) (s t : State) : Prop where
  strata : t.strata.sect = s.strata.sect ∧ t.strata.sectAt = s.strata.sectAt
  value : F.TICK_NETMARGIN_NS.get 0 t = F.TICK_NETMARGIN_NS.of v.toNat
  live : F.TICK_NETMARGIN_NS.live 0 t = F.TICK_NETMARGIN_NS.live 0 s
  edge : cmdEdge t = cmdEdge s
  waits : ∃ x ∈ t.shPend, x.addr = R.TICK_NETMARGIN.addr 0 ∧ x.held = true

theorem marginStore_waits (m v : Nat) (s : State) : ∃ x ∈ ((marginStore m v).run s).shPend, x.addr = R.TICK_NETMARGIN.addr 0 ∧ x.master = m := by
  obtain ⟨x, -, hrun⟩ := storeWrite_netMargin m v false s
  rw [hrun]
  exact noteShadow_pends ..

theorem marginStore_value (m : Nat) (v : Word) (s : State) :
    F.TICK_NETMARGIN_NS.get 0 ((marginStore m v.toNat).run s) = F.TICK_NETMARGIN_NS.of v.toNat :=
  stored_get (e := netMarginEntry) (n := 1) rfl (by unfold FldsOk; decide) (out_zero rfl rfl (by decide) 0 m) rfl (by simp) rfl rfl rfl
    List.not_mem_nil

/-- The loader writes the margin as any register. -/
theorem loaderWrite_margin (v : Word) {s : State} (ha : asleep s = false) : ∃ b r l w e,
    (loaderWrite (R.TICK_NETMARGIN.addr 0, .b4, v.toNat)).run s = (respond 0 [] e).run ((marginStore 0 v.toNat).run (atTarget b r l w s)) := by
  have hreach : WriteReaches ((0 : Master) : Nat) (R.TICK_NETMARGIN.addr 0) s := ⟨ha, by
    rw [standbyDrops]
    simp [hostMaster]⟩
  obtain ⟨b, r, l, w, e, hrun⟩ := busAccess_writeReg (v := BitVec.ofNat 64 v.toNat) hreach (fun h => absurd h (by decide)) (by decide)
    (by unfold peripheral; decide) placeOf_netMargin false
  have hv : (BitVec.ofNat 64 v.toNat).toNat % 2 ^ 32 = v.toNat := by
    have := v.isLt
    rw [BitVec.toNat_ofNat]
    omega
  refine ⟨b, r, l, w, e, ?_⟩
  rw [loaderWrite, hrun, regWrite_word (by decide) rfl rfl rfl, hv, elemWrite_netMargin]
  rfl

/-- What the loader holds of a write of the section (R556). -/
def holdSection (n a : Nat) : Act := .look fun s =>
  .seq (.upd (.shPend (s.shPend.map fun x => if x.addr = a && x.master = 0 then { x with held := true } else x)))
    (setStrata fun x => { x with cmds := x.cmds.map fun c => if n ≤ c.seq then { c with edge := none } else c })

/-- The write of the section is answered and held. -/
theorem marginHeld_answered {v : Word} {s u : State} (hsect : u.strata.sect = s.strata.sect ∧ u.strata.sectAt = s.strata.sectAt)
    (hvalue : F.TICK_NETMARGIN_NS.get 0 u = F.TICK_NETMARGIN_NS.of v.toNat)
    (hlive : F.TICK_NETMARGIN_NS.live 0 u = F.TICK_NETMARGIN_NS.live 0 s) (hedge : cmdEdge u = cmdEdge s)
    (hwaits : ∃ x ∈ u.shPend, x.addr = R.TICK_NETMARGIN.addr 0 ∧ x.master = 0) (e : Bool) (n : Nat) :
    MarginHeld v s ((holdSection n (R.TICK_NETMARGIN.addr 0)).run ((respond 0 [] e).run u)) := by
  obtain ⟨x, hx, hxa, hxm⟩ := hwaits
  generalize ht : (holdSection n (R.TICK_NETMARGIN.addr 0)).run ((respond 0 [] e).run u) = t
  have hregs : t.regs = u.regs := ht ▸ rfl
  have hpend : t.shPend = u.shPend.map fun x =>
      if x.addr = R.TICK_NETMARGIN.addr 0 && x.master = 0 then { x with held := true } else x := ht ▸ rfl
  exact {
    strata := ht ▸ hsect
    value := (get_congr hregs ..).trans hvalue
    live := Eq.trans (congrArg (fun n => bitsOf n _ _) (liveVal_congr (ht ▸ rfl) ..)) hlive
    edge := (cmdEdge_congr (ht ▸ rfl) (ht ▸ rfl) (ht ▸ rfl) (val_congr hregs ..) (val_congr hregs ..)).trans hedge
    waits := ⟨{ x with held := true }, hpend ▸ List.mem_map.mpr ⟨x, hx, by simp [hxa, hxm]⟩, hxa, rfl⟩ }

theorem live_congr {s t : State} (h : t.live = s.live) (f : Fld) (i : Nat) : f.live i t = f.live i s := by
  unfold Fld.live
  rw [liveVal_congr h]

theorem marginStore_edge (m v : Nat) (s : State) : cmdEdge ((marginStore m v).run s) = cmdEdge s :=
  cmdEdge_run (touches_marginStore m v) (by decide) (stores_marginStore m v) ⟨by unfold WordsOut; decide, by unfold WordsOut; decide⟩ s

theorem marginStore_strata (m v : Nat) (s : State) : ((marginStore m v).run s).strata = s.strata :=
  touches_strata (touches_marginStore m v) (by decide) (by decide) s

theorem marginStore_live (m v : Nat) (s : State) : F.TICK_NETMARGIN_NS.live 0 ((marginStore m v).run s) = F.TICK_NETMARGIN_NS.live 0 s :=
  congrArg (fun n => bitsOf n _ _) (storeWrite_liveVal ..)

theorem holdSection_run (a : Nat) (v : Word) {p : Place} (hp : placeOf a = some p) (ha : p.e.reg.addr p.i = a) {s u : State}
    (hload : (loaderWrite (a, .b4, v.toNat)).run s = u) : (sectWrite (a, v)).run s = (holdSection (nextSeq s) a).run u := by
  rw [sectWrite, run_look, run_seq, hload, run_look]
  dsimp only
  rw [hp]
  dsimp only
  rw [ha]
  rfl

theorem sectWrite_margin (v : Word) {s : State} (ha : asleep s = false) :
    MarginHeld v s ((sectWrite (R.TICK_NETMARGIN.addr 0, v)).run s) := by
  obtain ⟨b, r, l, w, e, hload⟩ := loaderWrite_margin v ha
  rw [holdSection_run _ v placeOf_netMargin rfl hload]
  have hstrata : ((marginStore 0 v.toNat).run (atTarget b r l w s)).strata = s.strata := marginStore_strata ..
  have hlive : F.TICK_NETMARGIN_NS.live 0 (atTarget b r l w s) = F.TICK_NETMARGIN_NS.live 0 s := live_congr rfl ..
  have hedge := (marginStore_edge 0 v.toNat (atTarget b r l w s)).trans (cmdEdge_atTarget b r l w s)
  exact marginHeld_answered (s := s) ⟨congrArg (·.sect) hstrata, congrArg (·.sectAt) hstrata⟩ (marginStore_value ..)
    ((marginStore_live ..).trans hlive) hedge (marginStore_waits ..) e _

theorem recWaits_margin (v : Word) (s : State) :
    recWaits ([(R.TICK_NETMARGIN.addr 0, v)].map fun w => (w.1, .b4, 0)) s = false := by
  have hgo : mustWait (.master 0) (R.TICK_NETMARGIN.addr 0) (.write .b4 0) s = false :=
    mustWait_off ⟨_, .inr ⟨_, rfl⟩⟩ (.inl (by decide)) fun h => absurd h (by decide)
  rw [mustWait, Bool.or_eq_false_iff] at hgo
  rw [recWaits, List.map_singleton, List.any_cons, List.any_nil, Bool.or_false]
  exact hgo.1

theorem sectionRecord_margin {v : Word} {rest : List (List (Nat × Word))} {s : State} (ha : asleep s = false)
    (hsect : s.strata.sect = [(R.TICK_NETMARGIN.addr 0, v)] :: rest) :
    MarginHeld v ((setStrata fun x => { x with sect := rest }).run s) (sectionRecord.run s) := by
  have hrun : sectionRecord.run s = (sectWrite (R.TICK_NETMARGIN.addr 0, v)).run ((setStrata fun x => { x with sect := rest }).run s) := by
    rw [sectionRecord, run_look, hsect]
    dsimp only
    rw [recWaits_margin, if_neg (by decide), run_seq, run_forEach_cons, run_forEach_nil]
  rw [hrun]
  exact sectWrite_margin v ha

section
variable {s : State} (hst : swSt s = 3) (hat : s.strata.sectAt = none)
include hst hat

theorem sectionDone_run : sectionDone.run s = (Act.look fun s =>
    onlyIf s.strata.sect.isEmpty (setStrata fun x => { x with sectAt := some (cmdEdge s) })).run
      ((forEach s.strata.sect fun _ => sectionRecord).run s) := by
  rw [sectionDone, run_look, if_neg (by simp [hst, hat]), run_seq]

theorem switchPlay_empty (hsect : s.strata.sect = []) : ∃ t, exec .switchPlayComplete s = .next t ∧ t.strata.sectAt = some (cmdEdge s) := by
  refine ⟨_, rfl, ?_⟩
  rw [sectionDone_run hst hat, hsect, run_forEach_nil, run_look, hsect]
  rfl

theorem switchPlay_margin {v : Word} (ha : asleep s = false) (hsect : s.strata.sect = [[(R.TICK_NETMARGIN.addr 0, v)]]) :
    ∃ t, exec .switchPlayComplete s = .next t ∧ t.strata.sectAt = some (cmdEdge s) ∧
      F.TICK_NETMARGIN_NS.get 0 t = F.TICK_NETMARGIN_NS.of v.toNat ∧ F.TICK_NETMARGIN_NS.live 0 t = F.TICK_NETMARGIN_NS.live 0 s ∧
      ∃ x ∈ t.shPend, x.addr = R.TICK_NETMARGIN.addr 0 ∧ x.held = true := by
  have h := sectionRecord_margin ha hsect
  have hrun : sectionDone.run s = (Act.look fun s =>
      onlyIf s.strata.sect.isEmpty (setStrata fun x => { x with sectAt := some (cmdEdge s) })).run (sectionRecord.run s) := by
    rw [sectionDone_run hst hat, hsect]
    rfl
  refine ⟨_, rfl, ?_⟩
  rw [hrun]
  generalize sectionRecord.run s = u at h ⊢
  obtain ⟨⟨hrest, -⟩, hvalue, hlive, hedge, hwaits⟩ := h
  have hempty : u.strata.sect = [] := hrest
  rw [run_look, hempty]
  exact ⟨congrArg some hedge, hvalue, hlive, hwaits⟩

theorem recordWrite_section {v : Word} {r : List (Nat × Word)} {rest : List (List (Nat × Word))} (ha : asleep s = false)
    (hsect : s.strata.sect = [(R.TICK_NETMARGIN.addr 0, v)] :: r :: rest) : ∃ t, exec .recordWrite s = .next t ∧
      t.strata.sect = r :: rest ∧ t.strata.sectAt = none ∧ F.TICK_NETMARGIN_NS.get 0 t = F.TICK_NETMARGIN_NS.of v.toNat := by
  have hon : sectionOn s = true := by simp [sectionOn, hst, hat, hsect]
  have hrun : (Act.look fun s => if sectionOn s then sectionRecord else playRecord 2).run s = sectionRecord.run s := by
    rw [run_look, if_pos hon]
  obtain ⟨⟨hrest, hnone⟩, hvalue, -⟩ := sectionRecord_margin ha hsect
  exact ⟨_, rfl, by rw [hrun]; exact hrest, by rw [hrun]; exact hnone.trans hat, by rw [hrun]; exact hvalue⟩

end

/-! ### The end of a reload -/

theorem reloadDone_played (hbusy : F.STRATA_GSTAT_BUSY.on 0 s = true) {a e : Nat} (herr : s.strata.rErr = 0)
    (hrel : s.strata.rel = some (a, e)) (hend : e ≤ a) : ∃ t, exec .reloadPlayComplete s = .next t ∧
      F.STRATA_GSTAT_BUSY.get 0 t = 0 ∧ t.strata.rel = none ∧ t.strata.rDone = true := by
  have hrun : reloadDone.run s = (setStrata fun x => { x with rel := none, rDone := true }).run ((F.STRATA_GSTAT_BUSY.set 0 0).run s) := by
    rw [reloadDone, run_look]
    dsimp only
    rw [hbusy, if_neg (by decide), herr, if_neg (by decide), hrel]
    dsimp only
    rw [if_pos (decide_eq_true hend), run_seq]
  refine ⟨_, rfl, ?_⟩
  rw [hrun]
  exact ⟨get_set_same F.STRATA_GSTAT_BUSY (by decide) (by decide) 0 s, rfl, rfl⟩

theorem reloadDone_failed (hbusy : F.STRATA_GSTAT_BUSY.on 0 s = true) (herr : s.strata.rErr ≠ 0) (hcode : s.strata.rErr < 16) :
    ∃ t, exec .reloadPlayComplete s = .next t ∧ F.STRATA_GSTAT_BUSY.get 0 t = 0 ∧
      F.STRATA_GSTAT_RESULT.get 0 t = s.strata.rErr ∧ t.strata.out = s.strata.out := by
  have hrun : reloadDone.run s = (setStrata fun x => { x with rel := none }).run
      ((F.STRATA_GSTAT_RESULT.set 0 s.strata.rErr).run ((F.STRATA_GSTAT_BUSY.set 0 0).run s)) := by
    rw [reloadDone, run_look]
    dsimp only
    rw [hbusy, if_neg (by decide), if_pos herr, acts_three]
  refine ⟨_, rfl, ?_⟩
  rw [hrun]
  refine ⟨?_, ?_, ?_⟩
  · rw [get_setStrata, get_set_other F.STRATA_GSTAT_BUSY F.STRATA_GSTAT_RESULT rfl (by decide)]
    exact get_set_same F.STRATA_GSTAT_BUSY (by decide) (by decide) 0 s
  · rw [get_setStrata]
    exact get_set_same F.STRATA_GSTAT_RESULT (by decide) hcode 0 _
  · show ((F.STRATA_GSTAT_RESULT.set 0 s.strata.rErr).run ((F.STRATA_GSTAT_BUSY.set 0 0).run s)).strata.out = _
    rw [fset_frame, fset_frame]

end

/-- Settles O49. Clause by clause: a command waits at the edge that `cmdEdge` names, arming and reloads end as their fields say, and a
section is written record by record. -/
theorem strataCommandsComplete : Obligations.StrataCommandsComplete := by
  unfold Obligations.StrataCommandsComplete
  intro m s
  refine ⟨fun hreach hboot => ⟨fun hst => ⟨_, rfl, ?_⟩, ⟨_, rfl, ?_⟩, ⟨_, rfl, ?_⟩, strataArm_refused hreach⟩,
    fun _ _ => armingDone_complete, armingDone_failed,
    fun hrun hmode hat => ⟨strataAt_plays hrun hmode hat, strataAt_refused hrun hmode hat⟩,
    fun hst hat hsect => switchPlay_empty hst hat hsect, fun _ hst hat ha _ hsect => switchPlay_margin hst hat ha hsect,
    fun _ _ _ hst hat ha hsect => recordWrite_section hst hat ha hsect,
    fun _ hreach hgo hruns hst => galleryReloadGo_waits hreach hgo hruns hst,
    fun _ hreach hgo hruns => galleryReloadGo_refused hreach hgo hruns,
    fun hbusy => ⟨fun _ _ => reloadDone_played hbusy, reloadDone_failed hbusy⟩⟩
  · exact strataCmd_waits hreach hboot (by decide) fun _ => hst
  · exact strataCmd_waits hreach hboot (by decide) fun h => absurd h (by decide)
  · exact strataCmd_waits hreach hboot (by decide) fun h => absurd h (by decide)

end Sys2Proof.Machine
end

