-- ==== Sys2Proof/Proofs/PairRaises.lean ====
section
/-! SUPPORT. What a raise leaves of the pair logic: only an owner whose partner is a standby over a live link releases its outputs, or asks
for a handover (R505, R530). -/

namespace Sys2Proof.Machine

/-! ### Updates beside the pair -/

/-- The word is neither that of `PAIR_STAT` nor that of `PAIR_HIST`. -/
def pairOff (k : Nat) : Bool := outside 0x20110008 0x20110010 k

theorem pairStat_off : WordsOut pairOff R.PAIR_STAT 0 0 := within_out (by decide) (by decide) 0

theorem pairHist_off : WordsOut pairOff R.PAIR_HIST 0 0 := within_out (by decide) (by decide) 0

/-- The update leaves the pair logic, its state and its history. -/
def Upd.sparesPair : Upd → Prop
  | .reg k _ => pairOff k = true
  | .pair _ | .nodeReset _ => False
  | _ => True

theorem sparesPair_within {ks : List Kind} {a : Act} (ht : a.Touches ks) (hk : Kind.pair ∉ ks) (hs : a.Stores pairOff) :
    a.Within Upd.sparesPair := within_kinds ht hs fun u hu hr hn => by
  cases u with
  | reg k v => exact hr k v rfl
  | pair p => exact hk hu
  | nodeReset b => exact hn b rfl
  | _ => trivial

section
variable {a : Act} (h : a.Within Upd.sparesPair) (s : State)
include h

theorem sparesPair_pair : (a.run s).pair = s.pair :=
  within_keeps (f := (·.pair)) h (fun u _ hu => by cases u <;> first | rfl | exact hu.elim) s

theorem sparesPair_stores : a.Stores pairOff := within_mono (fun u hu => by cases u <;> trivial) h

theorem sparesPair_stat : R.PAIR_STAT.val 0 (a.run s) = R.PAIR_STAT.val 0 s := val_stores (sparesPair_stores h) pairStat_off s

theorem sparesPair_hist : R.PAIR_HIST.val 0 (a.run s) = R.PAIR_HIST.val 0 s := val_stores (sparesPair_stores h) pairHist_off s

end

theorem pairOff_clear {r : Reg} (h : r.clear 0x20110008 0x20110010 = true) {i : Nat} (hi : i < dimsCount r.dims) : WordsIn pairOff r i 0 :=
  clear_in h hi 0

theorem fset_sparesPair {f : Fld} (h : f.reg.clear 0x20110008 0x20110010 = true) {i : Nat} (hi : i < dimsCount f.reg.dims) (v : Nat) :
    (f.set i v).Within Upd.sparesPair :=
  sparesPair_within (ks := [.reg]) (touches_fset (by simp) _ _ _ _) (by decide) (stores_fset (pairOff_clear h hi) v)

theorem chanSafe_sparesPair {c : Nat} (hc : c < 64) : (chanSafe c).Within Upd.sparesPair := by
  have hw := pairOff_clear (r := R.MOD_STAT) (by decide) (i := c) hc
  refine sparesPair_within (ks := [.reg, .mods]) ?_ (by decide) ?_
  · rw [chanSafe, touches_look]
    intro s
    dsimp only
    split <;> simp [chanDisable]
  · rw [chanSafe, stores_look]
    intro s
    dsimp only
    split
    · exact stores_done
    · simp [chanDisable, stores_fset (f := F.MOD_STAT_DIAG) hw, stores_fset (f := F.MOD_STAT_STATE) hw]

theorem railSafe_sparesPair {g : Nat} (hg : g < 8) : (railSafe g).Within Upd.sparesPair := by
  have hw := pairOff_clear (r := R.RAIL_STAT) (by decide) (i := g) hg
  refine sparesPair_within (ks := [.reg, .mods]) (by simp [railSafe, railSend]) (by decide) ?_
  simp [railSafe, railSend, stores_fset (f := F.RAIL_STAT_STATE) hw, stores_fset (f := F.RAIL_STAT_TARGET) hw,
    stores_fset (f := F.RAIL_STAT_VCMD) hw, stores_fset (f := F.RAIL_STAT_DONE) hw]

theorem ropesRemoved_sparesPair : ropesRemoved.Within Upd.sparesPair := by
  have hw := pairOff_clear (r := R.ROPE_STAT) (by decide) (i := 0) (by decide)
  refine sparesPair_within (ks := [.reg, .rope]) ?_ (by decide) ?_
  · rw [ropesRemoved, touches_look]
    intro s
    split <;> simp
  · rw [ropesRemoved, stores_look]
    intro s
    split
    · exact stores_done
    · simp [stores_fset (f := F.ROPE_STAT_SAFE_OFF) hw]

theorem note_sparesPair (e : Ev) (d0 d1 d2 g : Nat) : (note e d0 d1 d2 g).Within Upd.sparesPair := by
  have hc := pairOff_clear (r := R.SUMP_EVCNT) (by decide) (evNum_lt e)
  have hs := pairOff_clear (r := R.SUMP_EVSTAT) (by decide) (evSrc_bound e)
  have hl := pairOff_clear (r := R.SUMP_LOST) (by decide) (i := 0) (by decide)
  refine sparesPair_within (ks := [.reg, .sump]) ?_ (by decide) ?_
  · rw [note, touches_look]
    intro s
    simp only [touches_acts_cons, touches_acts_nil, and_true, touches_onlyIf]
    refine ⟨by simp, by simp, by simp, fun _ => ?_⟩
    split <;> simp
  · rw [note, stores_look]
    intro s
    simp only [stores_acts_cons, stores_acts_nil, and_true, stores_onlyIf]
    refine ⟨stores_inc hc _, stores_rset hs _, stores_setSump _, fun _ => ?_⟩
    split
    · exact stores_setSump _
    · exact stores_inc (f := F.SUMP_LOST_COUNT) hl _

/-! ### Raises -/

/-- What updates beside the pair keep, and the reactions that reach the pair. -/
structure PairKeeper (P : State → Prop) : Prop where
  spares : ∀ {a : Act}, a.Within Upd.sparesPair → a.Preserves P
  safe : pairSafe.Preserves P
  fault : enterNodeFault.Preserves P

section
variable {P : State → Prop} (h : PairKeeper P)
include h

theorem enterSafe_preserves : enterSafe.Preserves P := preserves_look fun s => preserves_ite preserves_done <| preserves_acts <| by
  simp only [List.forall_mem_cons, List.not_mem_nil, false_imp_iff, implies_true, and_true]
  refine ⟨h.spares (fset_sparesPair (by decide) (by decide) _), ?_, ?_, h.spares ?_, h.spares ropesRemoved_sparesPair,
    preserves_onlyIf (h.spares ?_), h.safe⟩
  · exact preserves_forEach fun c hc => h.spares (chanSafe_sparesPair (List.mem_range.mp hc))
  · exact preserves_forEach fun g hg => h.spares (railSafe_sparesPair (List.mem_range.mp hg))
  · exact sparesPair_within (ks := [.sap]) (by simp [sdoSilent]) (by decide) (by simp [sdoSilent])
  · exact sparesPair_within (ks := [.t1s]) (by simp) (by decide) (by simp)

theorem note_preserves (e : Ev) (d0 d1 d2 g : Nat) : (note e d0 d1 d2 g).Preserves P := h.spares (note_sparesPair e d0 d1 d2 g)

theorem selfFault_preserves : selfFault.Preserves P := preserves_acts <| by
  simp only [List.forall_mem_cons, List.not_mem_nil, false_imp_iff, implies_true, and_true]
  exact ⟨h.spares (fset_sparesPair (by decide) (by decide) _), enterSafe_preserves h, note_preserves h _ _ _ _ _⟩

theorem sumpUse_preserves (ws : List Nat) : (sumpUse ws).Preserves P := preserves_look fun _ => preserves_onlyIf (selfFault_preserves h)

theorem react_preserves (cs : List Nat) : (react cs).Preserves P :=
  preserves_ite (enterSafe_preserves h) (preserves_onlyIf h.fault)

theorem raise_preserves (e : Ev) (d0 d1 d2 g : Nat) : (raise e d0 d1 d2 g).Preserves P := preserves_look fun _ => preserves_acts <| by
  simp only [List.forall_mem_cons, List.not_mem_nil, false_imp_iff, implies_true, and_true]
  exact ⟨sumpUse_preserves h _, note_preserves h e d0 d1 d2 g, react_preserves h _⟩

theorem raiseAll_preserves (rs : List RaiseReq) : (raiseAll rs).Preserves P := preserves_look fun _ => preserves_acts <| by
  simp only [List.forall_mem_cons, List.not_mem_nil, false_imp_iff, implies_true, and_true]
  exact ⟨preserves_forEach fun r _ => preserves_seq (sumpUse_preserves h _) (note_preserves h _ _ _ _ _), react_preserves h _⟩

end

/-! ### No release is due -/

/-- By what `PAIR_STAT` reads, the chip does not own, or its link is down, or its partner is no standby. -/
def restsAt (v : Nat) : Bool := bitsOf v 3 0 != 2 || bitsOf v 30 30 != 1 || !isStandby (bitsOf v 27 24)

/-- The chip owns, and its partner is a standby over a live link. -/
def releaseDue (s : State) : Bool := pairIs 2 s && F.PAIR_STAT_LINK.on 0 s && isStandby (F.PAIR_STAT_PSTATE.get 0 s)

theorem restsAt_stat (s : State) : restsAt (R.PAIR_STAT.val 0 s) = !releaseDue s := by
  show (bitsOf (R.PAIR_STAT.val 0 s) 3 0 != 2 || bitsOf (R.PAIR_STAT.val 0 s) 30 30 != 1 || !isStandby (bitsOf (R.PAIR_STAT.val 0 s) 27 24)) =
    !(bitsOf (R.PAIR_STAT.val 0 s) 3 0 == 2 && bitsOf (R.PAIR_STAT.val 0 s) 30 30 == 1 && isStandby (bitsOf (R.PAIR_STAT.val 0 s) 27 24))
  simp only [bne, Bool.not_and]

theorem releaseDue_off {s : State} (h : restsAt (R.PAIR_STAT.val 0 s) = true) : releaseDue s = false := by
  rw [restsAt_stat] at h
  simpa using h

/-- The pair logic, its state and its history are those named. -/
def PairIsAt (p : PairState) (v h : Nat) (s : State) : Prop := s.pair = p ∧ R.PAIR_STAT.val 0 s = v ∧ R.PAIR_HIST.val 0 s = h

theorem pairIsAt_spared {p : PairState} {v h : Nat} {a : Act} (ha : a.Within Upd.sparesPair) : a.Preserves (PairIsAt p v h) := fun s hs =>
  ⟨(sparesPair_pair ha s).trans hs.1, (sparesPair_stat ha s).trans hs.2.1, (sparesPair_hist ha s).trans hs.2.2⟩

/-- Where no release is due, a raise leaves the pair logic as it is. -/
theorem pairIsAt_keeper {p : PairState} {v h : Nat} (hv : restsAt v = true) : PairKeeper (PairIsAt p v h) where
  spares := pairIsAt_spared
  safe s hs := by
    have hrest : (pairIs 2 s && F.PAIR_CFG_EN.liveOn 0 s && F.PAIR_STAT_LINK.on 0 s && isStandby (F.PAIR_STAT_PSTATE.get 0 s)) = false := by
      have hdue := releaseDue_off (hs.2.1 ▸ hv : restsAt (R.PAIR_STAT.val 0 s) = true)
      unfold releaseDue at hdue
      cases h2 : pairIs 2 s <;> simp_all
    rw [pairSafe, run_look, hrest, if_neg (by decide)]
    exact hs
  fault s hs := by
    have hrest : (pairIs 2 s && F.PAIR_STAT_LINK.on 0 s && F.PAIR_STAT_PSTATE.get 0 s == 6 && !s.pair.suspect) = false := by
      have hdue := releaseDue_off (hs.2.1 ▸ hv : restsAt (R.PAIR_STAT.val 0 s) = true)
      unfold releaseDue at hdue
      cases h6 : F.PAIR_STAT_PSTATE.get 0 s == 6
      · simp
      · rw [eq_of_beq h6] at hdue
        simp_all [isStandby]
    have hstate : PairIsAt p v h ((F.SUMP_STAT_STATE.set 0 1).run s) := pairIsAt_spared (fset_sparesPair (by decide) (by decide) 1) s hs
    rw [enterNodeFault, run_look, hrest]
    split
    · exact hs
    · rw [run_seq, if_neg (by decide)]
      split
      · exact hstate
      · exact hstate

section
variable {s : State} (h : releaseDue s = false)
include h

theorem raise_rests (e : Ev) (d0 d1 d2 g : Nat) : PairIsAt s.pair (R.PAIR_STAT.val 0 s) (R.PAIR_HIST.val 0 s) ((raise e d0 d1 d2 g).run s) :=
  raise_preserves (pairIsAt_keeper (by rw [restsAt_stat, h]; rfl)) e d0 d1 d2 g s ⟨rfl, rfl, rfl⟩

theorem raiseAll_rests (rs : List RaiseReq) : PairIsAt s.pair (R.PAIR_STAT.val 0 s) (R.PAIR_HIST.val 0 s) ((raiseAll rs).run s) :=
  raiseAll_preserves (pairIsAt_keeper (by rw [restsAt_stat, h]; rfl)) rs s ⟨rfl, rfl, rfl⟩

end

/-- Fields of the two registers read alike where the registers do. -/
theorem PairIsAt.get {p : PairState} {s t : State} (h : PairIsAt p (R.PAIR_STAT.val 0 s) (R.PAIR_HIST.val 0 s) t) {f : Fld}
    (hf : f.reg = R.PAIR_STAT ∨ f.reg = R.PAIR_HIST) : f.get 0 t = f.get 0 s := by
  obtain ⟨-, hstat, hhist⟩ := h
  unfold Fld.get
  rcases hf with hf | hf
  · rw [hf, hstat]
  · rw [hf, hhist]

/-- Off the link nothing is released. -/
theorem releaseDue_linkOff {s : State} (h : siphonUp s = false) : releaseDue s = false := by
  have : F.PAIR_STAT_LINK.on 0 s = false := h
  simp [releaseDue, this]

theorem releaseDue_notOwner {s : State} (h : pairSt s ≠ 2) : releaseDue s = false := by
  have : pairIs 2 s = false := beq_false_of_ne h
  simp [releaseDue, this]

end Sys2Proof.Machine
end

