-- ==== Sys2Proof/Proofs/PairCommands.lean ====
section
/-! SUPPORT. The commands and transitions of the pair (R484–R513). -/

namespace Sys2Proof.Machine

theorem get_setPair (f : Fld) (i : Nat) (g : PairState → PairState) (s : State) : f.get i ((setPair g).run s) = f.get i s := rfl

/-! ### Changes of state -/

/-- The state after `takeOwn`. -/
abbrev owned (s : State) : State := takeOwn.run s

theorem takeOwn_run (s : State) : takeOwn.run s = (setPair fun p => { p with own := true, missing := 0, handover := none, engine := none }).run
    ((F.PAIR_HIST_TAKEOVER.set 0 1).run ((F.PAIR_STAT_STATE.set 0 2).run s)) := by
  rw [takeOwn, acts_three]

theorem takeOwn_pair (s : State) : (takeOwn.run s).pair = { s.pair with own := true, missing := 0, handover := none, engine := none } := by
  rw [takeOwn_run, fset_frame, fset_frame]
  rfl

theorem takeOwn_state (s : State) : pairSt (takeOwn.run s) = 2 := by
  rw [takeOwn_run, pairSt, get_setPair,
    get_set_apart F.PAIR_STAT_STATE F.PAIR_HIST_TAKEOVER (apart_of_away (by decide) (by decide) (by decide) 0 0)]
  exact get_set_same F.PAIR_STAT_STATE (by decide) (by decide) 0 s

theorem takeOwn_hist (s : State) : F.PAIR_HIST_TAKEOVER.get 0 (takeOwn.run s) = 1 := by
  rw [takeOwn_run, get_setPair]
  exact get_set_same F.PAIR_HIST_TAKEOVER (by decide) (by decide) 0 _

/-- The other fields of `PAIR_STAT` stay. -/
theorem takeOwn_get {f : Fld} (hr : f.reg = R.PAIR_STAT) (h : f.besides F.PAIR_STAT_STATE = true) (s : State) :
    f.get 0 (takeOwn.run s) = f.get 0 s := by
  rw [takeOwn_run, get_setPair, get_set_apart f F.PAIR_HIST_TAKEOVER (i := 0) (j := 0)
    (by rw [hr]; exact apart_of_away (by decide) (by decide) (by decide) 0 0)]
  exact get_set_other f F.PAIR_STAT_STATE hr h 0 2 s

theorem takeOwn_link (s : State) : siphonUp (takeOwn.run s) = siphonUp s :=
  congrArg (· == 1) (takeOwn_get (f := F.PAIR_STAT_LINK) rfl (by decide) s)

/-- A chip that takes ownership where no partner stands by keeps it through the raise. -/
theorem takeOwn_raised {s : State} (h : releaseDue (takeOwn.run s) = false) : let t := (raise .PAIR_TAKEOVER).run (takeOwn.run s)
    pairSt t = 2 ∧ t.pair.own = true ∧ F.PAIR_HIST_TAKEOVER.get 0 t = 1 ∧ EvSet .PAIR_TAKEOVER t := by
  have hrest := raise_rests h .PAIR_TAKEOVER 0 0 0 0
  refine ⟨?_, ?_, ?_, raise_sets ..⟩
  · exact (hrest.get (f := F.PAIR_STAT_STATE) (.inl rfl)).trans (takeOwn_state s)
  · rw [hrest.1, takeOwn_pair]
  · exact (hrest.get (f := F.PAIR_HIST_TAKEOVER) (.inr rfl)).trans (takeOwn_hist s)

theorem enterOut_leaves (s : State) : pairSt (enterOut.run s) = 8 ∧ (enterOut.run s).pair.own = false := by
  rw [enterOut, acts_two]
  exact ⟨get_set_same F.PAIR_STAT_STATE (by decide) (by decide) 0 s, rfl⟩

theorem enterConverge_leaves (s : State) : let t := enterConverge.run s
    pairSt t = 4 ∧ t.pair = { s.pair with lanesLeft := activeLanes s, convLeft := convT s + 1, syncedTicks := 0 } := by
  have hrun : enterConverge.run s = (setPair fun p => { p with lanesLeft := activeLanes s, convLeft := convT s + 1, syncedTicks := 0 }).run
      ((F.PAIR_MATCH_RUN.set 0 0).run ((F.PAIR_STAT_STATE.set 0 4).run s)) := by
    rw [enterConverge, run_look, acts_three]
  dsimp only
  rw [hrun]
  constructor
  · rw [pairSt, get_setPair, get_set_apart F.PAIR_STAT_STATE F.PAIR_MATCH_RUN (apart_of_away (by decide) (by decide) (by decide) 0 0)]
    exact get_set_same F.PAIR_STAT_STATE (by decide) (by decide) 0 s
  · rw [fset_frame, fset_frame]
    rfl

theorem enterCopy_state (s : State) : pairSt (enterCopy.run s) = 3 := by
  rw [enterCopy, acts_three, pairSt, get_setPair,
    get_set_apart F.PAIR_STAT_STATE F.PAIR_MATCH_RUN (apart_of_away (by decide) (by decide) (by decide) 0 0)]
  exact get_set_same F.PAIR_STAT_STATE (by decide) (by decide) 0 s

/-! ### Transitions -/

section
variable {s : State}

theorem pairIs_of {c : Nat} (h : pairSt s = c) : pairIs c s = true := beq_iff_eq.mpr h

theorem pairIs_not {c : Nat} (h : pairSt s ≠ c) : pairIs c s = false := beq_false_of_ne h

/-- Side B alone takes ownership when FORM has lasted (R511). -/
theorem formTimeout_takes (hst : pairSt s = 1) (hside : sideA s = false) (hup : siphonUp s = false) (hpin : s.pair.partnerOwn = false)
    (htime : passed s.pair.ownAt (msCycles (F.PAIR_CFG_START_MS.live 0 s) s) s = true) : ∃ t, exec .formTimeout s = .next t ∧
    pairSt t = 2 ∧ t.pair.own = true ∧ F.PAIR_HIST_TAKEOVER.get 0 t = 1 ∧ EvSet .PAIR_TAKEOVER t := by
  refine ⟨_, rfl, ?_⟩
  rw [run_look, pairIs_of hst, hside, hup, hpin, htime]
  exact takeOwn_raised (releaseDue_linkOff ((takeOwn_link s).trans hup))

theorem copyPass_converges (hst : pairSt s = 3) (hdiff : s.pair.icwDiff = false) : ∃ t, exec .copyPassComplete s = .next t ∧ pairSt t = 4 ∧
    t.pair.lanesLeft = activeLanes s ∧ t.pair.convLeft = convT s + 1 := by
  refine ⟨_, rfl, ?_⟩
  rw [run_look, pairIs_of hst, hdiff]
  obtain ⟨hstate, hpair⟩ := enterConverge_leaves s
  exact ⟨hstate, congrArg (·.lanesLeft) hpair, congrArg (·.convLeft) hpair⟩

theorem copyPass_out (hst : pairSt s = 3) (hdiff : s.pair.icwDiff = true) : ∃ t, exec .copyPassComplete s = .next t ∧ pairSt t = 8 ∧
    EvSet .PAIR_IMAGE_DIFF t := by
  refine ⟨_, rfl, ?_⟩
  obtain ⟨hout, -⟩ := enterOut_leaves s
  have hrest := raise_rests (releaseDue_notOwner (s := enterOut.run s) (by rw [hout]; decide)) .PAIR_IMAGE_DIFF 0 0 0 0
  rw [run_look, pairIs_of hst, hdiff]
  exact ⟨(hrest.get (f := F.PAIR_STAT_STATE) (.inl rfl)).trans hout, raise_sets ..⟩

/-- The partner's pin is followed, and outside pair mode decides on side A (R486). -/
theorem ownPin_follows (low : Bool) : ∃ t, exec (.ownPinChange low) s = .next t ∧ t.pair.partnerOwn = !low ∧
    (pairSt s = 0 → t.pair.own = (sideA s && low) ∧ pairSt t = 0) := by
  refine ⟨_, rfl, ?_⟩
  rw [run_look, run_seq]
  generalize hu : (setPair fun p => { p with partnerOwn := !low, ownAt := if p.partnerOwn = low then s.elapsed else p.ownAt }).run s = u
  have hpin : u.pair.partnerOwn = !low := hu ▸ rfl
  have hst : pairSt u = pairSt s := hu ▸ rfl
  have hside : sideA u = sideA s := hu ▸ rfl
  rw [run_look, run_seq]
  by_cases h0 : pairSt s = 0
  · rw [pairIs_of (hst.trans h0), onlyIf_true]
    generalize hv : (setPair fun p => { p with own := sideA u && low }).run u = v
    have hpin' : v.pair.partnerOwn = !low := hv ▸ hpin
    have hst' : pairSt v = 0 := hv ▸ hst.trans h0
    have hown : v.pair.own = (sideA s && low) := by rw [← hside]; exact hv ▸ rfl
    have hrun : (formJudge []).run v = v := by
      rw [formJudge, run_look, pairIs_not (by rw [hst']; decide), Bool.false_and, Bool.false_and, Bool.false_and, if_neg (by decide)]
      rfl
    rw [hrun]
    exact ⟨hpin', fun _ => ⟨hown, hst'⟩⟩
  · rw [pairIs_not (by rw [hst]; exact h0), onlyIf_false, run_done]
    refine ⟨?_, fun h => absurd h h0⟩
    rw [formJudge, run_look]
    split
    next hform =>
      have hup : siphonUp u = false := by
        simp only [Bool.and_eq_true, Bool.not_eq_true'] at hform
        exact hform.1.2
      rw [run_seq, (raiseAll_rests (releaseDue_linkOff ((takeOwn_link u).trans hup)) _).1, takeOwn_pair]
      exact hpin
    next => exact hpin

end

/-! ### A dropped command -/

/-- The pair logic is as named, the words of the Sump are sound, and an access error is of no class that reacts (R528). -/
def AccessSilent (p : PairState) (s : State) : Prop :=
  s.pair = p ∧ s.sump.parity = [] ∧ F.SUMP_EVCFG_CLASS.get (evNum .XBAR_ACCESS) s < 3

theorem accerr_silent {p : PairState} {f : Fld} (hf : f.reg = R.XBAR_ACCERR) (x : Nat) : (f.set 0 x).Preserves (AccessSilent p) := by
  rintro s ⟨hpair, hparity, hclass⟩
  have hget : F.SUMP_EVCFG_CLASS.get (evNum .XBAR_ACCESS) ((f.set 0 x).run s) = F.SUMP_EVCFG_CLASS.get (evNum .XBAR_ACCESS) s :=
    get_set_apart F.SUMP_EVCFG_CLASS f (by rw [hf]; exact apart_of_away (by decide) (by decide) (by decide) 0 0) ..
  exact ⟨by rw [fset_frame]; exact hpair, by rw [fset_frame]; exact hparity, by rw [hget]; exact hclass⟩

/-- A raise that nothing reacts to leaves the pair logic. -/
theorem raise_silent {p : PairState} {s : State} (h : AccessSilent p s) (d0 d1 d2 g : Nat) : ((raise .XBAR_ACCESS d0 d1 d2 g).run s).pair = p := by
  obtain ⟨hpair, hparity, hclass⟩ := h
  have hsound : ((raiseWords (evNum .XBAR_ACCESS)).any fun a => s.sump.parity.contains a) = false := by rw [hparity]; rfl
  have hreact : react [F.SUMP_EVCFG_CLASS.get (evNum .XBAR_ACCESS) s] = .done := by
    generalize F.SUMP_EVCFG_CLASS.get (evNum .XBAR_ACCESS) s = c at hclass
    interval_cases c <;> rfl
  rw [raise, run_look, hreact, acts_three, sumpUse, run_look, hsound, onlyIf_false, run_done, run_done,
    sparesPair_pair (note_sparesPair .XBAR_ACCESS d0 d1 d2 g), hpair]

theorem dropped_silent {p : PairState} {s : State} (h : AccessSilent p s) (m a : Nat) : ((dropped m a).run s).pair = p := by
  have hsets : ∀ f : Fld, f.reg = R.XBAR_ACCERR → ∀ x, (f.set 0 x).Preserves (AccessSilent p) := fun _ hf x => accerr_silent hf x
  refine raise_silent (s := (acts [F.XBAR_ACCERR_VALID.set 0 1, F.XBAR_ACCERR_WR.set 0 (b2n true), F.XBAR_ACCERR_MASTER.set 0 m,
    F.XBAR_ACCERR_REASON.set 0 3, F.XBAR_ACCERR_COUNT.inc 0, F.XBAR_ACCERR_ADDR.set 0 a]).run s) ?_ m 3 0 0
  refine preserves_acts (P := AccessSilent p) ?_ s h
  simp only [List.forall_mem_cons, List.not_mem_nil, false_imp_iff, implies_true, and_true]
  exact ⟨hsets _ rfl _, hsets _ rfl _, hsets _ rfl _, hsets _ rfl _, preserves_look fun _ => hsets _ rfl _, hsets _ rfl _⟩

/-! ### Commands -/

/-- HANDOVER is taken or dropped (R510). -/
theorem handover_run (m : Nat) (u : State) : (wrPairCmd m 8 (fullMask 1)).run u =
    (if noHandover u then dropped m (R.PAIR_CMD.addr 0) else cmdHandover).run u := by
  have hlast : (wrPairCmd m 8 (fullMask 1)).run u = (acts [onlyIf (true && !(true && noHandover u)) cmdHandover, .done,
      onlyIf (false || (true && noHandover u)) (dropped m (R.PAIR_CMD.addr 0))]).run u := rfl
  rw [hlast, acts_three]
  cases noHandover u <;> rfl

/-- OUT is taken or dropped (R512). -/
theorem out_run (m : Nat) (u : State) : (wrPairCmd m 1 (fullMask 1)).run u =
    (if noOut u then dropped m (R.PAIR_CMD.addr 0) else cmdOut).run u := by
  have hlast : (wrPairCmd m 1 (fullMask 1)).run u = (acts [onlyIf (true && !(true && noOut u)) cmdOut, .done, .done,
      .look fun _ => acts [.done, .done, onlyIf ((true && noOut u) || false) (dropped m (R.PAIR_CMD.addr 0))]]).run u := rfl
  rw [hlast, acts_four, run_look, acts_three]
  cases noOut u <;> rfl

theorem cmdJoin_up {s : State} (hst : pairSt s = 8) (hup : siphonUp s = true) (b r : SMap Nat) (l : List WriteMsg) (w : List SipMsg) (upd : Bool) :
    (cmdJoin upd).run (atTarget b r l w s) =
    (if upd then .seq (setPair fun p => { p with joinUpd := true, missing := 0 }) enterConverge else enterCopy).run (atTarget b r l w s) := by
  rw [cmdJoin, run_look, show pairIs 8 (atTarget b r l w s) = true from pairIs_of hst, show siphonUp (atTarget b r l w s) = true from hup,
    if_neg (by decide), if_neg (by decide)]

section
variable {m : Master} {s : State} (hreach : WriteReaches m (R.PAIR_CMD.addr 0) s)
include hreach

/-- A command of one bit of `PAIR_CMD` acts where it arrives. -/
theorem pairCmd_arrives (v : Nat) : ∃ b r l w, (arrive m (R.PAIR_CMD.addr 0) 0xF v (wrPairCmd m v (fullMask 1))).run s =
    (wrPairCmd m v (fullMask 1)).run (atTarget b r l w s) := arrive_atTarget hreach _ _ _

theorem pairPreset_asks (hup : siphonUp s = true) : ∃ t, exec (.pairPreset m) s = .next t ∧ t.pair.rstReq = true := by
  refine ⟨_, rfl, ?_⟩
  obtain ⟨b, r, l, w, hrun⟩ := pairCmd_arrives hreach 16
  rw [hrun]
  generalize hu : atTarget b r l w s = u
  have hup' : siphonUp u = true := hu ▸ hup
  have hcmd : (wrPairCmd m 16 (fullMask 1)).run u = cmdPreset.run u := rfl
  rw [hcmd, cmdPreset, run_look, hup', onlyIf_true, run_seq, sipQueue, run_look]
  cases F.PAIR_STAT_LINK.on 0 ((setPair fun p => { p with rstReq := true }).run u) <;> rfl

theorem pairHandover_taken (hst : pairSt s = 2) (hready : partnerReady s = true) : ∃ t, exec (.pairHandover m) s = .next t ∧
    t.pair.hoReq = some (cmdEdge s) ∧ t.pair.thenOut = s.pair.thenOut := by
  refine ⟨_, rfl, ?_⟩
  obtain ⟨b, r, l, w, hrun⟩ := pairCmd_arrives hreach 8
  have hfree : noHandover (atTarget b r l w s) = false := by
    show (!(pairIs 2 s && partnerReady s)) = false
    rw [pairIs_of hst, hready]
    rfl
  rw [hrun, handover_run, hfree, if_neg (by decide)]
  exact ⟨congrArg some (cmdEdge_atTarget ..), rfl⟩

theorem pairOut_taken (hst : pairSt s = 2) (hready : partnerReady s = true) : ∃ t, exec (.pairCmdOut m) s = .next t ∧
    t.pair.hoReq = some (cmdEdge s) ∧ t.pair.thenOut = true := by
  refine ⟨_, rfl, ?_⟩
  obtain ⟨b, r, l, w, hrun⟩ := pairCmd_arrives hreach 1
  have hst' : pairSt (atTarget b r l w s) = 2 := hst
  have hfree : noOut (atTarget b r l w s) = false := by
    show (pairIs 2 s && !partnerReady s) = false
    rw [hready, Bool.not_true, Bool.and_false]
  rw [hrun, out_run, hfree, if_neg (by decide), cmdOut, run_look, pairIs_not (by rw [hst']; decide), if_neg (by decide), pairIs_of hst',
    if_pos rfl]
  exact ⟨congrArg some (cmdEdge_atTarget ..), rfl⟩

theorem pairOut_leaves (h0 : pairSt s ≠ 0) (h2 : pairSt s ≠ 2) : ∃ t, exec (.pairCmdOut m) s = .next t ∧ pairSt t = 8 ∧
    t.pair.own = false := by
  refine ⟨_, rfl, ?_⟩
  obtain ⟨b, r, l, w, hrun⟩ := pairCmd_arrives hreach 1
  have hfree : noOut (atTarget b r l w s) = false := by
    show (pairIs 2 s && !partnerReady s) = false
    rw [pairIs_not h2, Bool.false_and]
  have hcmd : cmdOut.run (atTarget b r l w s) = enterOut.run (atTarget b r l w s) := by
    rw [cmdOut, run_look, show pairIs 0 (atTarget b r l w s) = false from pairIs_not h0,
      show pairIs 2 (atTarget b r l w s) = false from pairIs_not h2, if_neg (by decide), if_neg (by decide)]
  rw [hrun, out_run, hfree, if_neg (by decide), hcmd]
  exact enterOut_leaves _

section
variable (hst : pairSt s = 8) (hup : siphonUp s = true)
include hst hup

theorem pairJoin_copies : ∃ t, exec (.pairJoin m) s = .next t ∧ pairSt t = 3 := by
  refine ⟨_, rfl, ?_⟩
  obtain ⟨b, r, l, w, hrun⟩ := pairCmd_arrives hreach 2
  have hcmd : ∀ u, (wrPairCmd m 2 (fullMask 1)).run u = (cmdJoin false).run u := fun _ => rfl
  rw [hrun, hcmd, cmdJoin_up hst hup, if_neg (by decide)]
  exact enterCopy_state _

theorem pairJoinUpd_converges : ∃ t, exec (.pairJoinUpd m) s = .next t ∧ pairSt t = 4 ∧ t.pair.joinUpd = true ∧
    t.pair.lanesLeft = activeLanes s := by
  refine ⟨_, rfl, ?_⟩
  obtain ⟨b, r, l, w, hrun⟩ := pairCmd_arrives hreach 4
  have hcmd : ∀ u, (wrPairCmd m 4 (fullMask 1)).run u = (cmdJoin true).run u := fun _ => rfl
  rw [hrun, hcmd, cmdJoin_up hst hup, if_pos rfl, run_seq]
  generalize hv : (setPair fun p => { p with joinUpd := true, missing := 0 }).run (atTarget b r l w s) = v
  obtain ⟨hstate, hpair⟩ := enterConverge_leaves v
  have hlanes : activeLanes v = activeLanes s := hv ▸ rfl
  have hupd : v.pair.joinUpd = true := hv ▸ rfl
  exact ⟨hstate, (congrArg (·.joinUpd) hpair).trans hupd, (congrArg (·.lanesLeft) hpair).trans hlanes⟩

end

theorem pairHandover_dropped (h : pairSt s ≠ 2 ∨ partnerReady s = false) : ∃ t, exec (.pairHandover m) s = .next t ∧
    F.XBAR_ACCERR_REASON.get 0 t = 3 ∧
      (F.SUMP_EVCFG_CLASS.get (evNum .XBAR_ACCESS) s < 3 → s.sump.parity = [] → t.pair.hoReq = s.pair.hoReq) := by
  refine ⟨_, rfl, ?_⟩
  obtain ⟨b, r, l, w, hrun⟩ := pairCmd_arrives hreach 8
  have hbar : noHandover (atTarget b r l w s) = true := by
    show (!(pairIs 2 s && partnerReady s)) = true
    rcases h with h | h
    · rw [pairIs_not h]; rfl
    · rw [h, Bool.and_false]; rfl
  rw [hrun, handover_run, hbar, if_pos rfl]
  refine ⟨(dropped_command m (by decide) _).2, fun hclass hparity => ?_⟩
  rw [dropped_silent (p := (atTarget b r l w s).pair) ⟨rfl, hparity, hclass⟩]
  rfl

end

/-- The patch margin is stored while the margin in force leaves room for it (R495). -/
theorem pairPatch_stores {m : Master} {v : Word} {s : State} (hreach : WriteReaches m (R.PAIR_PATCH.addr 0) s)
    (hroom : F.PAIR_PATCH_NS.of v.toNat + 400 ≤ F.TICK_NETMARGIN_NS.live 0 s) :
    ∃ t, exec (.pairPatchWrite m v) s = .next t ∧ F.PAIR_PATCH_NS.get 0 t = F.PAIR_PATCH_NS.of v.toNat := by
  refine ⟨_, rfl, ?_⟩
  obtain ⟨b, r, l, w, hrun⟩ := arrive_atTarget hreach 0xF v.toNat (wrPairPatch m v.toNat (fullMask 1))
  have hentry : entryOf R.PAIR_PATCH = ⟨R.PAIR_PATCH, [F.PAIR_PATCH_NS]⟩ := rfl
  have hlive : F.TICK_NETMARGIN_NS.live 0 (atTarget b r l w s) = F.TICK_NETMARGIN_NS.live 0 s := live_congr rfl ..
  have hok : FldsOk 1 [F.PAIR_PATCH_NS] := by unfold FldsOk; decide
  rw [hrun, wrPairPatch, run_look]
  dsimp only
  rw [hentry, afterWrite_of (n := 1) rfl hok (List.mem_singleton_self _) rfl rfl List.not_mem_nil, hlive, if_neg (by omega)]
  exact stored_get (n := 1) rfl hok (out_zero rfl rfl (by decide) 0 m) rfl (List.mem_singleton_self _) rfl rfl rfl List.not_mem_nil

/-- Settles O45. Clause by clause; what a raise does to the pair is the one thing that could undo a transition. -/
theorem pairCommandsComplete : Obligations.PairCommandsComplete := by
  unfold Obligations.PairCommandsComplete
  intro m s
  exact ⟨formTimeout_takes, ownPin_follows,
    fun hreach => ⟨pairPreset_asks hreach,
      fun hst hready => ⟨pairHandover_taken hreach hst hready, pairOut_taken hreach hst hready⟩,
      pairOut_leaves hreach, fun hst hup => ⟨pairJoin_copies hreach hst hup, pairJoinUpd_converges hreach hst hup⟩,
      pairHandover_dropped hreach⟩,
    copyPass_converges, copyPass_out, fun _ => pairPatch_stores⟩

end Sys2Proof.Machine
end

