-- ==== Sys2Proof/Proofs/TimePins.lean ====
section
/-! SUPPORT. The system counter, the event outputs and the capture inputs (R439–R460). -/

namespace Sys2Proof.Machine

/-! ### Writes of part of a register -/

/-- The first field of a register takes what its own part of the write makes of it, whatever bits of the others are written. -/
theorem of_planWrite_head (locked : Bool) (old v mask : Nat) {f : Fld} {gs : List Fld} (hf : f.lo ≤ f.hi)
    (h : ∀ g ∈ gs, f.apart g = true ∧ g.lo ≤ g.hi) :
    f.of (planWrite locked old v mask (f :: gs)).val = f.of (planField locked old v mask ⟨old, false, false, false⟩ f).val := by
  unfold planWrite
  rw [List.foldl_cons]
  generalize planField locked old v mask ⟨old, false, false, false⟩ f = p
  induction gs generalizing p with
  | nil => rfl
  | cons g gs ih =>
    obtain ⟨ha, hg⟩ := h g List.mem_cons_self
    rw [List.foldl_cons, ih fun x hx => h x (List.mem_cons_of_mem _ hx)]
    exact of_planField_apart locked old v mask p ha hf hg

/-! ### The counter -/

theorem get_setPtp (f : Fld) (g : PtpState → PtpState) (i : Nat) (s : State) : f.get i ((setPtp g).run s) = f.get i s := rfl

/-- Every word but the count of the steps. -/
def offSteps (k : Nat) : Bool := outside 0x200F0048 0x200F004C k

theorem stepcnt_out : WordsOut offSteps R.PTP_STEPCNT 0 0 := within_out (by decide) (by decide) 0

theorem outMis_in {n : Nat} (h : n < 8) : WordsIn offSteps R.CLK_OUTMIS n 0 := clear_in (by decide) h 0

theorem touches_roundFree {ks : List Kind} {num : Int} {den : Nat} {k : Int → Act} (hf : Kind.free ∈ ks) (h : ∀ x, (k x).Touches ks) :
    (roundFree num den k).Touches ks := by
  unfold roundFree
  split
  · exact h _
  · exact touches_draw hf fun _ => h _

theorem stores_roundFree {A : Nat → Bool} {num : Int} {den : Nat} {k : Int → Act} (h : ∀ x, (k x).Stores A) :
    (roundFree num den k).Stores A := by
  unfold roundFree
  split
  · exact h _
  · exact stores_draw fun _ => h _

theorem touches_outStepped (c : Int) : (outStepped c).Touches [.reg, .free] := fun _ =>
  touches_forEach_of fun _ => touches_roundFree (by decide) fun _ _ =>
    ⟨touches_fset (by decide) _ _ _ _, touches_fset (by decide) _ _ _ _⟩

theorem stores_outStepped (c : Int) : (outStepped c).Stores offSteps := fun _ =>
  stores_forEach.mpr fun _ hn => stores_roundFree fun _ _ =>
    ⟨stores_fset (outMis_in (List.mem_range.mp (List.mem_filter.mp hn).1)) _, stores_fset (clear_in (by decide) (by decide) 0) _⟩

theorem touches_setEvt (e : Nat) (f : EvtOut → EvtOut) : (setEvt e f).Touches [.ptp] := touches_setPtp (by decide) _

theorem touches_evtStepped : evtStepped.Touches [.ptp] := fun _ =>
  touches_forEach_of fun _ => touches_ite (touches_setEvt _ _) ((touches_onlyIf _ _).mpr fun _ => touches_setEvt _ _)

theorem nearestGrid (x : Nat) : (((x : Int) + 32768000) / 65536000).toNat = (x + 32768000) / 65536000 := by omega

/-- What a step does once its target is known. -/
def stepTo (n : Nat) : Act := .look fun s => acts [
  .upd (.now n), outStepped ((n : Int) - s.now), F.PTP_STEPCNT_COUNT.inc 0, raise .PTP_STEP, evtStepped]

theorem counterStep_run (x : Nat) (s : State) : (counterStep (x : Int)).run s = (stepTo ((x + 32768000) / 65536000)).run s := by
  rw [counterStep, run_look]
  dsimp only
  rw [nearestGrid, stepTo, run_look]

/-- A step takes the counter to its target, is counted and raised (R442). -/
theorem stepTo_steps (n : Nat) (s : State) : let t := (stepTo n).run s
    t.now = n ∧ F.PTP_STEPCNT_COUNT.get 0 t = satInc 32 (F.PTP_STEPCNT_COUNT.get 0 s) 1 ∧ EvSet .PTP_STEP t := by
  have hregs (u : State) : (evtStepped.run u).regs = u.regs := touches_regs touches_evtStepped (by decide) (by decide) u
  have hraise (u : State) : F.PTP_STEPCNT_COUNT.get 0 ((raise .PTP_STEP).run u) = F.PTP_STEPCNT_COUNT.get 0 u := by
    rw [Fld.get, show F.PTP_STEPCNT_COUNT.reg = R.PTP_STEPCNT from rfl,
      val_stores (stores_raise _ _ _ _ _) (out_zero rfl rfl (by decide) 0 0)]
    rfl
  have houts (c : Int) (u : State) : F.PTP_STEPCNT_COUNT.get 0 ((outStepped c).run u) = F.PTP_STEPCNT_COUNT.get 0 u := by
    rw [Fld.get, show F.PTP_STEPCNT_COUNT.reg = R.PTP_STEPCNT from rfl, val_stores (stores_outStepped c) stepcnt_out]
    rfl
  have hset : F.PTP_STEPCNT_COUNT.get 0 ((Act.upd (.now n)).run s) = F.PTP_STEPCNT_COUNT.get 0 s := get_congr rfl ..
  dsimp only
  rw [stepTo, run_look, acts_five]
  refine ⟨?_, ?_, ?_⟩
  · rw [touches_now touches_evtStepped (by decide) (by decide), touches_now (touches_raise _ _ _ _ _) (by decide) (by decide), inc_frame,
      touches_now (touches_outStepped _) (by decide) (by decide)]
    rfl
  · rw [get_congr (hregs _), hraise, get_inc_same F.PTP_STEPCNT_COUNT (by decide), houts, hset]
    rfl
  · unfold EvSet
    rw [val_congr (hregs _)]
    exact raise_sets ..

/-- The target is the grid value nearest the time asked for. -/
theorem counterStep_steps (x : Nat) (s : State) : let t := (counterStep (x : Int)).run s
    t.now = (x + 32768000) / 65536000 ∧ F.PTP_STEPCNT_COUNT.get 0 t = satInc 32 (F.PTP_STEPCNT_COUNT.get 0 s) 1 ∧ EvSet .PTP_STEP t := by
  rw [counterStep_run]
  exact stepTo_steps _ s

section
variable {m : Master} {s : State}

/-- A read of the lowest word takes the whole counter at once (R443). -/
theorem timeRead_latches (s : State) : let t := (timeRead m).run s
    smFind t.bus.resp m = some ⟨[BitVec.ofNat 64 (timeWord (nowFrac s) 0)], false⟩ ∧
    ∀ w ∈ [1, 2, 3], smFind t.ptp.latch (4 * m + w) = some (BitVec.ofNat 32 (timeWord (nowFrac s) w)) := by
  refine ⟨find_insert_self .., fun w hw => ?_⟩
  have hlatch : ((timeRead m).run s).ptp.latch = smInsert (smInsert (smInsert s.ptp.latch (4 * m + 1)
      (BitVec.ofNat 32 (timeWord (nowFrac s) 1))) (4 * m + 2) (BitVec.ofNat 32 (timeWord (nowFrac s) 2))) (4 * m + 3)
      (BitVec.ofNat 32 (timeWord (nowFrac s) 3)) := rfl
  rw [hlatch]
  obtain rfl | rfl | rfl : w = 1 ∨ w = 2 ∨ w = 3 := by simpa using hw
  · rw [find_insert_ne _ _ (by omega), find_insert_ne _ _ (by omega), find_insert_self]
  · rw [find_insert_ne _ _ (by omega), find_insert_self]
  · rw [find_insert_self]

/-- A write of the highest word steps the counter to the words that wait (R443). -/
theorem timeCommit_run {v : Nat} {a b d : Word} (hr : running s = false) (hf : ∀ q < 4, ptpFollows s q = false)
    (ha : smFind s.ptp.wbuf (4 * m) = some a) (hb : smFind s.ptp.wbuf (4 * m + 1) = some b) (hd : smFind s.ptp.wbuf (4 * m + 2) = some d)
    (hle : b.toNat ≤ 999999999) : ∃ u, (timeCommit m v).run s = (counterStep
      ((((v % 65536 * 2 ^ 32 + d.toNat) * 65536000000000 + b.toNat * 65536 + a.toNat % 65536) * cclkMHz s : Nat) : Int)).run u ∧
      u.regs = s.regs := by
  have hany : (List.range 4).any (ptpFollows s) = false :=
    List.any_eq_false.mpr fun q hq => by simp [hf q (List.mem_range.mp hq)]
  have ha' : smFind s.ptp.wbuf (4 * m + 0) = some a := ha
  refine ⟨(setPtp fun x => { x with wbuf := [0, 1, 2].foldl (fun l i => smErase l (4 * m + i)) x.wbuf }).run s, ?_, rfl⟩
  unfold timeCommit
  rw [run_look]
  simp only [ha', hb, hd, hr, hany, Bool.false_or, decide_eq_true_eq, Nat.not_lt.mpr hle, if_false, run_seq, Nat.cast_mul]

end

/-! ### The event outputs -/

section
variable {e : Nat}

theorem evtAt_setEvt (e : Nat) (f : EvtOut → EvtOut) (s : State) : evtAt ((setEvt e f).run s) e = f (evtAt s e) := get_put_self ..

theorem get_setEvt (f : Fld) (g : EvtOut → EvtOut) (i : Nat) (s : State) : f.get i ((setEvt e g).run s) = f.get i s := rfl

theorem evtAt_fset (f : Fld) (i v : Nat) (s : State) : evtAt ((f.set i v).run s) e = evtAt s e := by
  rw [evtAt, fset_frame]
  rfl

theorem evtAt_raise (d0 d1 d2 g : Nat) (x : Ev) (s : State) : evtAt ((raise x d0 d1 d2 g).run s) e = evtAt s e := by
  rw [evtAt, touches_ptp (touches_raise _ _ _ _ _) (by decide) (by decide)]
  rfl

theorem entryOf_evtCtrl : entryOf R.PTP_EVT_CTRL = ⟨R.PTP_EVT_CTRL,
    [F.PTP_EVT_CTRL_EN, F.PTP_EVT_CTRL_MODE, F.PTP_EVT_CTRL_POL, F.PTP_EVT_CTRL_LATE, F.PTP_EVT_CTRL_ACTIVE]⟩ := rfl

theorem evtCtrl_out (he : e < 8) (m : Nat) : WordsOut errRegs R.PTP_EVT_CTRL e m := out_one rfl rfl (fun w hw => by
  have hw : w < 1 := hw
  have hb : R.PTP_EVT_CTRL.base = 0x200F0400 := rfl
  exact errRegs_off (by omega) (by omega) (by omega) (by omega) (by omega) (by omega)) m

theorem evtCtrl_flds : FldsOk 1 (entryOf R.PTP_EVT_CTRL).flds := by
  rw [entryOf_evtCtrl]
  unfold FldsOk
  decide

theorem en_putBits (v x : Nat) : F.PTP_EVT_CTRL_EN.of (putBits v 31 31 x) = x % 2 := bitsOf_putBits v x (by decide)

theorem mode_putBits (v x : Nat) : F.PTP_EVT_CTRL_MODE.of (putBits v 31 31 x) = F.PTP_EVT_CTRL_MODE.of v :=
  bitsOf_putBits_below v x (by decide) (by decide) (by decide)

variable {m : Nat} {s : State}

theorem afterWrite_evtEn (m v : Nat) (s : State) : F.PTP_EVT_CTRL_EN.of (afterWrite (entryOf R.PTP_EVT_CTRL) e m v (fullMask 1) s) =
    F.PTP_EVT_CTRL_EN.of v :=
  afterWrite_of (e := entryOf R.PTP_EVT_CTRL) (n := 1) rfl evtCtrl_flds (by rw [entryOf_evtCtrl]; simp) rfl rfl (by simp [F.PTP_EVT_CTRL_EN])

theorem afterWrite_evtMode (m v : Nat) (s : State) : F.PTP_EVT_CTRL_MODE.of (afterWrite (entryOf R.PTP_EVT_CTRL) e m v (fullMask 1) s) =
    F.PTP_EVT_CTRL_MODE.of v :=
  afterWrite_of (e := entryOf R.PTP_EVT_CTRL) (n := 1) rfl evtCtrl_flds (by rw [entryOf_evtCtrl]; simp) rfl rfl (by simp [F.PTP_EVT_CTRL_MODE])

/-- EN is written whatever becomes of MODE. -/
theorem storeWrite_evtEn (he : e < 8) (v a : Nat) {mask : Nat} (hm : mask = fullMask 1 ∨ mask = putBits (fullMask 1) 30 30 0) (s : State) :
    F.PTP_EVT_CTRL_EN.get e ((storeWrite (entryOf R.PTP_EVT_CTRL) e m v mask a).run s) = F.PTP_EVT_CTRL_EN.of v := by
  have hone : F.PTP_EVT_CTRL_EN.of mask = 1 := by rcases hm with rfl | rfl <;> decide
  have hlt (x : Nat) : F.PTP_EVT_CTRL_EN.of x < 2 := of_lt F.PTP_EVT_CTRL_EN x
  have hand (x : Nat) : F.PTP_EVT_CTRL_EN.of x &&& 1 = F.PTP_EVT_CTRL_EN.of x := and_mask (w := 1) (hlt x)
  have hval := storeWrite_val (entryOf R.PTP_EVT_CTRL) e m v mask a false false s (evtCtrl_out he m) (tieLost_none ..)
  have hplan : F.PTP_EVT_CTRL_EN.of (afterWrite (entryOf R.PTP_EVT_CTRL) e m v mask s) = F.PTP_EVT_CTRL_EN.of v := by
    rw [afterWrite, entryOf_evtCtrl, of_planWrite_head _ _ _ _ (by decide) (by decide)]
    unfold planField
    dsimp only
    rw [hone, hand, hand, Nat.sub_self, Nat.zero_add, if_neg (by decide)]
    exact (bitsOf_putBits _ _ (by decide)).trans (Nat.mod_eq_of_lt (hlt v))
  rw [← get_master (show F.PTP_EVT_CTRL_EN.reg.perMaster = false from rfl) e m]
  unfold Fld.get
  rw [show F.PTP_EVT_CTRL_EN.reg = (entryOf R.PTP_EVT_CTRL).reg from rfl, hval, bitsOf_mod _ (by decide) (by decide)]
  exact hplan

theorem evtAt_storeWrite (en : RegEntry) (i m v mask a : Nat) (s : State) : evtAt ((storeWrite en i m v mask a).run s) e = evtAt s e := by
  rw [evtAt, touches_ptp (touches_storeWrite _ _ _ _ _ _ _ _) (by decide) (by decide)]
  rfl

theorem evtAt_dropped (m a : Nat) (s : State) : evtAt ((dropped m a).run s) e = evtAt s e := by
  rw [evtAt, touches_ptp (touches_dropped _ _) (by decide) (by decide)]
  rfl

/-- A write of EN 1 to a sound schedule arms it (R457). -/
theorem evtArm_arms (he : e < 8) (v : Nat) (hen : F.PTP_EVT_CTRL_EN.on e s = false) (hns : F.PTP_EVT_NS_NS.get e s ≤ 999999999)
    (hwid : 10 ≤ F.PTP_EVT_WID_WIDTH.get e s) (hper : F.PTP_EVT_CTRL_MODE.of v = 1 → 20 ≤ F.PTP_EVT_PER_PERIOD.get e s ∧
      F.PTP_EVT_WID_WIDTH.get e s ≤ F.PTP_EVT_PER_PERIOD.get e s - 10) :
    let t := (wrEvtCtrl m e (putBits v 31 31 1) (fullMask 1)).run s
    F.PTP_EVT_CTRL_EN.get e t = 1 ∧ (evtAt t e).arming = true ∧ F.PTP_EVT_CTRL_MODE.get e t = F.PTP_EVT_CTRL_MODE.of v := by
  have hrun : (wrEvtCtrl m e (putBits v 31 31 1) (fullMask 1)).run s =
      (setEvt e fun x => { x with armed := false, arming := true, k := 0 }).run
        ((storeWrite (entryOf R.PTP_EVT_CTRL) e m (putBits v 31 31 1) (fullMask 1) (R.PTP_EVT_CTRL.addr e)).run s) := by
    have hns' : ¬ 999999999 < F.PTP_EVT_NS_NS.get e s := by omega
    have hwid' : ¬ F.PTP_EVT_WID_WIDTH.get e s < 10 := by omega
    have hper' : ¬ (F.PTP_EVT_CTRL_MODE.of v = 1 ∧ (F.PTP_EVT_PER_PERIOD.get e s < 20 ∨
        F.PTP_EVT_PER_PERIOD.get e s - 10 < F.PTP_EVT_WID_WIDTH.get e s)) := fun h => by have := hper h.1; omega
    unfold wrEvtCtrl
    rw [run_look]
    dsimp only
    rw [afterWrite_evtEn, afterWrite_evtMode, en_putBits, mode_putBits, hen]
    rw [if_neg (by simpa [hns', hwid'] using hper'), acts_four]
    rfl
  have hmode : F.PTP_EVT_CTRL_MODE.get e ((storeWrite (entryOf R.PTP_EVT_CTRL) e m (putBits v 31 31 1) (fullMask 1)
      (R.PTP_EVT_CTRL.addr e)).run s) = F.PTP_EVT_CTRL_MODE.of (putBits v 31 31 1) :=
    stored_get (e := entryOf R.PTP_EVT_CTRL) (n := 1) rfl evtCtrl_flds (evtCtrl_out he m) rfl (by rw [entryOf_evtCtrl]; simp) rfl rfl rfl
      (by simp [F.PTP_EVT_CTRL_MODE])
  dsimp only
  rw [hrun]
  refine ⟨?_, ?_, ?_⟩
  · rw [get_setEvt, storeWrite_evtEn he _ _ (.inl rfl), en_putBits]
  · rw [evtAt_setEvt]
  · rw [get_setEvt, hmode, mode_putBits]

/-- A write of EN 0 takes the schedule away (R457). -/
theorem evtDisarm_disarms (he : e < 8) (v : Nat) (s : State) : let t := (wrEvtCtrl m e (putBits v 31 31 0) (fullMask 1)).run s
    F.PTP_EVT_CTRL_EN.get e t = 0 ∧ (evtAt t e).armed = false ∧ (evtAt t e).arming = false := by
  obtain ⟨mask, b, hmask, hrun⟩ : ∃ mask b, (mask = fullMask 1 ∨ mask = putBits (fullMask 1) 30 30 0) ∧
      (wrEvtCtrl m e (putBits v 31 31 0) (fullMask 1)).run s = (setEvt e fun x => { x with armed := false, arming := false }).run
        ((onlyIf b (dropped m (R.PTP_EVT_CTRL.addr e))).run
          ((storeWrite (entryOf R.PTP_EVT_CTRL) e m (putBits v 31 31 0) mask (R.PTP_EVT_CTRL.addr e)).run s)) := by
    refine ⟨if F.PTP_EVT_CTRL_EN.on e s then putBits (fullMask 1) 30 30 0 else fullMask 1,
      F.PTP_EVT_CTRL_EN.on e s && F.PTP_EVT_CTRL_MODE.of (afterWrite (entryOf R.PTP_EVT_CTRL) e m (putBits v 31 31 0) (fullMask 1) s) ≠
        F.PTP_EVT_CTRL_MODE.get e s, by split <;> simp, ?_⟩
    unfold wrEvtCtrl
    rw [run_look]
    dsimp only
    rw [afterWrite_evtEn, en_putBits, if_neg (by simp), acts_four]
    rfl
  have hdrop (u : State) : F.PTP_EVT_CTRL_EN.get e ((onlyIf b (dropped m (R.PTP_EVT_CTRL.addr e))).run u) = F.PTP_EVT_CTRL_EN.get e u := by
    unfold Fld.get
    rw [show F.PTP_EVT_CTRL_EN.reg = R.PTP_EVT_CTRL from rfl,
      val_stores ((stores_onlyIf b _).mpr fun _ => stores_dropped m (R.PTP_EVT_CTRL.addr e)) (evtCtrl_out he 0)]
  dsimp only
  rw [hrun]
  refine ⟨?_, ?_, ?_⟩
  · rw [get_setEvt, hdrop, storeWrite_evtEn he _ _ hmask, en_putBits]
  · rw [evtAt_setEvt]
  · rw [evtAt_setEvt]

/-- A periodic schedule, or one whose time is to come, is armed (R458). -/
theorem evtArmed_arms (h : (evtAt s e).arming = true) (hp : F.PTP_EVT_CTRL_MODE.on e s = true ∨ evtPast s (evtStart s e) = false) :
    (evtAt ((evtArmed e).run s) e).armed = true ∧ (evtAt ((evtArmed e).run s) e).arming = false := by
  have hsplit : (!F.PTP_EVT_CTRL_MODE.on e s && evtPast s (evtStart s e)) = false := by rcases hp with hp | hp <;> simp [hp]
  obtain ⟨k, b, hrun⟩ : ∃ k b, (evtArmed e).run s =
      (onlyIf b (.seq (F.PTP_EVT_CTRL_LATE.set e 1) (raise .EVT_LATE e))).run
        ((setEvt e fun x => { x with arming := false, armed := true, k := k }).run s) := by
    refine ⟨if evtPast s (evtStart s e) then evtFirst s e else 0, evtPast s (evtStart s e), ?_⟩
    unfold evtArmed
    rw [run_look]
    dsimp only
    rw [h, hsplit, Bool.not_true, if_neg (by decide), if_neg (by decide), acts_two]
  have hlate (u : State) : evtAt ((onlyIf b (.seq (F.PTP_EVT_CTRL_LATE.set e 1) (raise .EVT_LATE e))).run u) e = evtAt u e := by
    cases b with
    | false => rfl
    | true => rw [onlyIf_true, run_seq, evtAt_raise, evtAt_fset]
  rw [hrun, hlate, evtAt_setEvt]
  exact ⟨rfl, rfl⟩

theorem roundFree_run (num : Int) (den : Nat) (k : Int → Act) (s : State) :
    ∃ x n, (roundFree num den k).run s = (k x).run { s with free := n } := by
  unfold roundFree
  split
  · exact ⟨_, s.free, rfl⟩
  · exact ⟨_, _, rfl⟩

/-- The edges of a pulse are drawn, and nothing else is done before it. -/
theorem evtEdges_run (t w : Nat) (k : Nat → Nat → Act) (s : State) : ∃ up down n, (evtEdges t w k).run s = (k up down).run { s with free := n } := by
  unfold evtEdges
  rw [run_look]
  obtain ⟨x, n, hx⟩ := roundFree_run ((t * cclkMHz s * 32 : Nat) : Int) 1000 (fun up =>
    roundFree (((t + w) * cclkMHz s * 32 : Nat) : Int) 1000 fun down => k up.toNat down.toNat) s
  obtain ⟨y, n', hy⟩ := roundFree_run (((t + w) * cclkMHz s * 32 : Nat) : Int) 1000 (fun down => k x.toNat down.toNat) { s with free := n }
  exact ⟨_, _, n', hx.trans hy⟩

/-- A pulse starts at its time (R456). -/
theorem evtPulse_starts (h : (evtAt s e).armed = true) (ha : (evtAt s e).active = false)
    (hk : F.PTP_EVT_CTRL_MODE.on e s = true ∨ (evtAt s e).k = 0) (hn : evtTime s e * cclkMHz s ≤ s.now * 1000) : let t := (evtPulse e).run s
    (evtAt t e).active = true ∧ F.PTP_EVT_CTRL_ACTIVE.get e t = 1 ∧ (evtAt t e).k = (evtAt s e).k + 1 := by
  have honce : (!F.PTP_EVT_CTRL_MODE.on e s && decide (0 < (evtAt s e).k)) = false := by
    rcases hk with hk | hk
    · rw [hk]; rfl
    · rw [hk]; simp
  obtain ⟨stop, up, down, n, hrun⟩ : ∃ stop up down n, (evtPulse e).run s = (F.PTP_EVT_CTRL_ACTIVE.set e 1).run
      ((setEvt e fun x => { x with active := true, k := x.k + 1, stop := stop, up := up, down := down }).run { s with free := n }) := by
    unfold evtPulse
    rw [run_look]
    dsimp only
    rw [h, ha, honce, if_neg (by simpa using hn)]
    obtain ⟨up, down, n, hedges⟩ := evtEdges_run (evtTime s e) (F.PTP_EVT_WID_WIDTH.get e s) _ s
    exact ⟨_, up, down, n, hedges⟩
  dsimp only
  rw [hrun]
  refine ⟨?_, get_set_same F.PTP_EVT_CTRL_ACTIVE (by decide) (by decide) .., ?_⟩
  · rw [evtAt_fset, evtAt_setEvt]
  · rw [evtAt_fset, evtAt_setEvt]
    rfl

/-- A pulse ends after its width (R456, R458). -/
theorem evtPulseEnd_ends (ha : (evtAt s e).active = true) (hs : (evtAt s e).stop ≤ s.elapsed) : let t := (evtPulseEnd e).run s
    (evtAt t e).active = false ∧ F.PTP_EVT_CTRL_ACTIVE.get e t = 0 := by
  have hrun : (evtPulseEnd e).run s =
      (F.PTP_EVT_CTRL_ACTIVE.set e 0).run ((setEvt e fun x => { x with active := false }).run s) := by
    rw [evtPulseEnd, run_look, ha, decide_eq_true hs, Bool.and_self, onlyIf_true, run_seq]
  dsimp only
  rw [hrun]
  refine ⟨?_, get_set_same F.PTP_EVT_CTRL_ACTIVE (by decide) (by decide) ..⟩
  rw [evtAt_fset, evtAt_setEvt]

end

/-! ### The capture inputs -/

theorem capAt_setCap (c : Nat) (f : CapIn → CapIn) (s : State) : capAt ((setCap c f).run s) c = f (capAt s c) := get_put_self ..

/-- An edge that is selected is queued with its time (R459). -/
theorem capEdge_queues {c ts : Nat} {rise : Bool} {s : State} (he : F.PTP_CAP_CFG_EN.on c s = true) (ha : asleep s = false)
    (hs : bitOf (F.PTP_CAP_CFG_EDGE.get c s) (if rise then 0 else 1) = true) (hl : (capAt s c).fifo.length < 16) :
    (capAt ((capEdge c rise ts).run s) c).fifo = (capAt s c).fifo ++ [(BitVec.ofNat 64 (capStamp s ts), rise)] := by
  have hrun : (capEdge c rise ts).run s =
      (setCap c fun y => { y with fifo := y.fifo ++ [(BitVec.ofNat 64 (capStamp s ts), rise)] }).run s := by
    unfold capEdge
    rw [run_look]
    dsimp only
    rw [he, hs, ha, if_neg (by decide), if_pos hl]
  rw [hrun, capAt_setCap]

theorem ptp_respond (m : Nat) (vs : List Nat) (s : State) : ((respond m vs).run s).ptp = s.ptp := rfl

theorem resp_respond (m : Nat) (vs : List Nat) (s : State) :
    smFind ((respond m vs).run s).bus.resp m = some ⟨vs.map (BitVec.ofNat 64), false⟩ := find_insert_self ..

theorem capAt_latch (c : Nat) (f : PtpState → SMap W64) (s : State) :
    capAt ((setPtp fun x => { x with capLatch := f x }).run s) c = capAt s c := rfl

/-- A read of the head takes it (R460). -/
theorem capHead_takes {m : Master} {c : Nat} {s : State} {ts : W64} {rise : Bool} {rest : List (W64 × Bool)}
    (h : (capAt s c).fifo = (ts, rise) :: rest) : let t := (capHead m c).run s
    (capAt t c).fifo = rest ∧ smFind t.ptp.capLatch (4 * m + c) = some ts ∧
    smFind t.bus.resp m = some ⟨[BitVec.ofNat 64 (2 ^ 31 + b2n rise * 2 ^ 30 + rest.length)], false⟩ := by
  have hrun : (capHead m c).run s = (respond m [2 ^ 31 + b2n rise * 2 ^ 30 + rest.length]).run
      ((setPtp fun x => { x with capLatch := smInsert x.capLatch (4 * m + c) ts }).run
        ((setCap c fun y => { y with fifo := rest }).run s)) := by
    rw [capHead, run_look, h]
    rfl
  dsimp only
  rw [hrun]
  refine ⟨?_, ?_, resp_respond _ _ _⟩
  · rw [capAt, ptp_respond, ← capAt, capAt_latch, capAt_setCap]
  · rw [ptp_respond]
    exact find_insert_self ..

/-- Settles O42: one lemma for each of the commands, at the target where the access reaches it. -/
theorem timePinsComplete : Obligations.TimePinsComplete := by
  intro m e c s
  refine ⟨fun hg hp hq => ⟨_, rfl, ?_⟩, fun ha => ⟨_, rfl, ?_⟩, fun v a b d hreach hr hf hba hbb hbd hle => ⟨_, rfl, ?_⟩,
    fun v hreach hen hns hwid hper => ⟨_, rfl, ?_⟩, fun h hp => ⟨_, rfl, evtArmed_arms h hp⟩, fun v hreach => ⟨_, rfl, ?_⟩,
    fun h ha hk hn => ⟨_, rfl, evtPulse_starts h ha hk hn⟩, fun ha hs => ⟨_, rfl, evtPulseEnd_ends ha hs⟩,
    fun rise ts he ha hs hl => ⟨_, rfl, capEdge_queues he ha hs hl⟩, fun ts rise rest ha hcap => ⟨_, rfl, ?_⟩⟩
  · rw [run_look, hg, hp, hq, Bool.not_false, Bool.and_self, Bool.and_self, onlyIf_true]
    exact get_set_same F.PTP_STAT_QUAL (by decide) (by decide) 0 s
  · obtain ⟨k, r, hrun⟩ := reads_atTarget ha m (R.PTP_TIME_FRAC.addr 0) (timeRead m)
    rw [hrun]
    exact timeRead_latches _
  · obtain ⟨k, r, l, w, hrun⟩ := arrive_atTarget hreach 0xF v.toNat (timeCommit m v.toNat)
    obtain ⟨u, hstep, hregs⟩ := timeCommit_run (m := m) (s := atTarget k r l w s) (v := v.toNat) hr hf hba hbb hbd hle
    obtain ⟨hnow, hcnt, hev⟩ := counterStep_steps (((v.toNat % 65536 * 2 ^ 32 + d.toNat) * 65536000000000 + b.toNat * 65536 +
      a.toNat % 65536) * cclkMHz s) u
    rw [hrun, hstep]
    exact ⟨hnow, hcnt.trans (by rw [get_congr hregs]; rfl), hev⟩
  · obtain ⟨k, r, l, w, hrun⟩ := arrive_atTarget hreach 0xF (putBits v.toNat 31 31 1) (wrEvtCtrl m e (putBits v.toNat 31 31 1) (fullMask 1))
    rw [hrun]
    exact evtArm_arms (s := atTarget k r l w s) e.isLt v.toNat hen hns hwid hper
  · obtain ⟨k, r, l, w, hrun⟩ := arrive_atTarget hreach 0xF (putBits v.toNat 31 31 0) (wrEvtCtrl m e (putBits v.toNat 31 31 0) (fullMask 1))
    rw [hrun]
    exact evtDisarm_disarms e.isLt v.toNat _
  · obtain ⟨k, r, hrun⟩ := reads_atTarget ha m (R.PTP_CAP_HEAD.addr c) (capHead m c)
    rw [hrun]
    exact capHead_takes (s := atTarget k r s.pair.sentWrites s.pair.waiting s) hcap

end Sys2Proof.Machine
end

