-- ==== Sys2Proof/Proofs/ClockCommands.lean ====
section
/-! SUPPORT. The commands of the clock unit (R461–R481). -/

namespace Sys2Proof.Machine

/-! ### Single bits of a field -/

theorem bitOf_put (v k : Nat) (b : Bool) : bitOf (putBits v k k (b2n b)) k = b := by
  refine bitOf_of_b2n ?_
  have h := bitsOf_putBits v (b2n b) (hi := k) (lo := k) (by omega)
  rw [bitsOf, show k + 1 - k = 1 by omega, Nat.pow_one] at h
  rw [h]
  cases b <;> rfl

theorem bitOf_put_other (v x : Nat) {j k : Nat} (h : j ≠ k) : bitOf (putBits v k k x) j = bitOf v j := by
  have hb : bitsOf (putBits v k k x) j j = bitsOf v j j := by
    rcases Nat.lt_or_gt_of_ne h with h | h
    · exact bitsOf_putBits_below v x (by omega) h (by omega)
    · exact bitsOf_putBits_above v x (by omega) h
  rw [bitsOf, bitsOf, show j + 1 - j = 1 by omega, Nat.pow_one] at hb
  rw [bitOf, hb, bitOf]

theorem bitOf_cut (x : Nat) {j n : Nat} (h : j < n) : bitOf (x % 2 ^ n) j = bitOf x j := by
  have htest (y : Nat) : bitOf y j = y.testBit j := by
    rw [Nat.testBit_eq_decide_div_mod_eq]
    exact beq_eq_decide _ 1
  rw [htest, htest, Nat.testBit_mod_two_pow, decide_eq_true h, Bool.true_and]

section
variable {f : Fld} (h : f.inside = true) {k : Nat} (hk : k < f.width)
include h hk

theorem bitOf_get_set (i x : Nat) (s : State) : bitOf (f.get i ((f.set i x).run s)) k = bitOf x k := by
  unfold Fld.inside at h
  obtain ⟨hle, hw⟩ := of_decide_eq_true h
  rw [get_set f i x 0 s (by omega) hw]
  exact bitOf_cut x hk

theorem bitOf_get_put (i v : Nat) (b : Bool) (s : State) : bitOf (f.get i ((f.set i (putBits v k k (b2n b))).run s)) k = b := by
  rw [bitOf_get_set h hk, bitOf_put]

theorem bitOf_get_or (i v : Nat) (s : State) : bitOf (f.get i ((f.set i (v ||| 2 ^ k)).run s)) k = true := by
  rw [bitOf_get_set h hk, bitOf_or_two_pow, beq_self_eq_true, Bool.true_or]

end

/-! ### What an event leaves of the clock unit -/

/-- Every word but those of the clock unit. -/
def offClk (k : Nat) : Bool := outside 0x20100000 0x20101000 k

theorem offClk_raise {k : Nat} (h : raiseRegs k = true) : offClk k = true := by
  have b1 : R.ROPE_STAT.base = 0x20060008 := rfl
  have b2 : R.PAIR_STAT.base = 0x20110008 := rfl
  have b3 : R.PAIR_HIST.base = 0x2011000C := rfl
  simp only [raiseRegs, Bool.or_eq_true, Bool.and_eq_true, decide_eq_true_eq] at h
  simp only [offClk, outside, Bool.or_eq_true, decide_eq_true_eq]
  omega

/-- The registers of the clock unit and its hidden state are the same. -/
structure ClkKept (s t : State) : Prop where
  clk : t.clk = s.clk
  words : ∀ k, offClk k = false → smFind t.regs k = smFind s.regs k

theorem ClkKept.get {s t : State} (h : ClkKept s t) {f : Fld} (hr : f.reg.within 0x20100000 0x20101000 = true) {i : Nat}
    (hi : i < dimsCount f.reg.dims) : f.get i t = f.get i s := by
  have hout : WordsOut offClk f.reg i 0 := within_out hr hi 0
  unfold Fld.get Reg.val Reg.word smGet
  congr 2
  exact List.map_congr_left fun w hw => by rw [h.words _ (hout w (List.mem_range.mp hw))]

theorem clkKept_of {a : Act} {ks : List Kind} (ht : a.Touches ks) (hk : Kind.clk ∉ ks) (hn : Kind.nodeReset ∉ ks) (hs : a.Stores offClk)
    (s : State) : ClkKept s (a.run s) :=
  ⟨touches_clk ht hk hn s, fun _ h => find_stores hs h s⟩

theorem clkKept_raise (e : Ev) (d0 d1 d2 g : Nat) (s : State) : ClkKept s ((raise e d0 d1 d2 g).run s) :=
  clkKept_of (touches_raise e d0 d1 d2 g) (by decide) (by decide) (stores_mono (stores_raise e d0 d1 d2 g) fun _ => offClk_raise) s

theorem ClkKept.trans {s t u : State} (h : ClkKept s t) (h' : ClkKept t u) : ClkKept s u :=
  ⟨h'.clk.trans h.clk, fun k hk => (h'.words k hk).trans (h.words k hk)⟩

theorem keeper_clk (s : State) : Keeper Upd.ofPorts (ClkKept s) where
  upd u t hu h := h.trans ⟨by cases u <;> first | rfl | exact hu.elim, fun j hj => by
    cases u with
    | reg k v =>
      have hu : portWords k = true := hu
      simp only [portWords, Bool.or_eq_true, Bool.and_eq_true, decide_eq_true_eq] at hu
      simp only [offClk, outside, Bool.or_eq_false_iff, decide_eq_false_iff_not] at hj
      exact find_insert_ne _ _ (by omega)
    | nodeReset => exact hu.elim
    | _ => rfl⟩
  raise e d0 d1 d2 g t h := h.trans (clkKept_raise e d0 d1 d2 g t)

/-! ### The states -/

theorem get_setClk (f : Fld) (g : ClkState → ClkState) (i : Nat) (s : State) : f.get i ((setClk g).run s) = f.get i s := rfl

theorem clk_setClk (g : ClkState → ClkState) (s : State) : ((setClk g).run s).clk = g s.clk := rfl

theorem clk_fset (f : Fld) (i v : Nat) (s : State) : ((f.set i v).run s).clk = s.clk := by rw [fset_frame]

theorem clk_rset (r : Reg) (i v : Nat) (s : State) : ((r.set i v).run s).clk = s.clk := by rw [rset_frame]

/-- The event of the entry into a state (R475). -/
def enterEv : Nat → Ev
  | 0 => .CLK_FREERUN | 1 => .CLK_ACQUIRE | 2 => .CLK_LOCKED | 3 => .CLK_HOLDOVER | _ => .CLK_HOLD_EXPIRED

theorem clkEnter_run (c : Nat) (s : State) : (clkEnter c).run s = (raise (enterEv c)).run
    ((F.CLK_HIST_ENTERED.set 0 (F.CLK_HIST_ENTERED.get 0 s ||| 2 ^ c)).run ((F.CLK_STAT_STATE.set 0 c).run s)) := by
  rcases c with _ | _ | _ | _ | c <;> rfl

theorem clkEnter_clk (c : Nat) (s : State) : ((clkEnter c).run s).clk = s.clk := by
  rw [clkEnter_run, (clkKept_raise ..).clk, clk_fset, clk_fset]

theorem clkEnter_state {c : Nat} (hc : c < 8) (s : State) : clkSt ((clkEnter c).run s) = c := by
  rw [clkEnter_run, clkSt, (clkKept_raise ..).get (by decide) (by decide),
    get_set_apart F.CLK_STAT_STATE F.CLK_HIST_ENTERED (apart_of_away (by decide) (by decide) (by decide) 0 0)]
  exact get_set_same F.CLK_STAT_STATE (by decide) hc 0 s

theorem clkEnter_event (c : Nat) (s : State) : EvSet (enterEv c) ((clkEnter c).run s) := by
  rw [clkEnter_run]
  exact raise_sets ..

/-- The other fields of `CLK_STAT` stay. -/
theorem clkEnter_stat (c : Nat) {f : Fld} (hr : f.reg = R.CLK_STAT) (hb : f.besides F.CLK_STAT_STATE = true) (s : State) :
    f.get 0 ((clkEnter c).run s) = f.get 0 s := by
  rw [clkEnter_run, (clkKept_raise ..).get (by rw [hr]; decide) (by rw [hr]; decide),
    get_set_apart f F.CLK_HIST_ENTERED (by rw [hr]; exact apart_of_away (by decide) (by decide) (by decide) 0 0),
    get_set_other f F.CLK_STAT_STATE hr hb]

/-- The other registers of the unit stay. -/
theorem clkEnter_other (c : Nat) {f : Fld} (hw : f.reg.within 0x20100000 0x20101000 = true) (hs : f.reg.awayFrom R.CLK_STAT = true)
    (hh : f.reg.awayFrom R.CLK_HIST = true) {i : Nat} (hi : i < dimsCount f.reg.dims) (s : State) :
    f.get i ((clkEnter c).run s) = f.get i s := by
  rw [clkEnter_run, (clkKept_raise ..).get hw hi, get_set_apart f F.CLK_HIST_ENTERED (apart_of_away hh hi (by decide) 0 0),
    get_set_apart f F.CLK_STAT_STATE (apart_of_away hs hi (by decide) 0 0)]

/-! ### FREERUN -/

theorem setFreeY_get {f : Fld} (h : f.reg.awayFrom R.CLK_Y = true) (hd : f.reg.dims = []) (s : State) :
    f.get 0 (setFreeY.run s) = f.get 0 s := by
  have ha : Apart f.reg 0 0 R.CLK_Y 0 0 := apart_of_away h (by rw [hd]; decide) (by decide) 0 0
  rw [setFreeY, run_look, setY, Fld.get, val_set_apart ha, Fld.get]

theorem setFreeY_clk (s : State) : (setFreeY.run s).clk = s.clk := by
  rw [setFreeY, run_look, setY, clk_rset]

theorem goFreerun_run (s : State) : goFreerun.run s = (clkEnter 0).run (setFreeY.run ((F.CLK_STAT_STEP.set 0 0).run
    ((F.CLK_STAT_REF.set 0 7).run ((setClk fun c => { c with sel := none, dwell := 0, cand := none, wtr := 0 }).run s)))) := rfl

theorem goFreerun_clk (s : State) : (goFreerun.run s).clk = { s.clk with sel := none, dwell := 0, cand := none, wtr := 0 } := by
  rw [goFreerun_run, clkEnter_clk, setFreeY_clk, clk_fset, clk_fset, clk_setClk]

theorem goFreerun_state (s : State) : clkSt (goFreerun.run s) = 0 := by
  rw [goFreerun_run, clkEnter_state (by decide)]

theorem goFreerun_step (s : State) : F.CLK_STAT_STEP.get 0 (goFreerun.run s) = 0 := by
  rw [goFreerun_run, clkEnter_stat 0 rfl (by decide), setFreeY_get (by decide) rfl,
    get_set_same F.CLK_STAT_STEP (by decide) (by decide)]

theorem goFreerun_ref (s : State) : F.CLK_STAT_REF.get 0 (goFreerun.run s) = 7 := by
  rw [goFreerun_run, clkEnter_stat 0 rfl (by decide), setFreeY_get (by decide) rfl, get_set_other F.CLK_STAT_REF F.CLK_STAT_STEP rfl (by decide),
    get_set_same F.CLK_STAT_REF (by decide) (by decide)]

theorem goFreerun_pllok (s : State) : F.CLK_STAT_PLLOK.get 0 (goFreerun.run s) = F.CLK_STAT_PLLOK.get 0 s := by
  rw [goFreerun_run, clkEnter_stat 0 rfl (by decide), setFreeY_get (by decide) rfl, get_set_other F.CLK_STAT_PLLOK F.CLK_STAT_STEP rfl (by decide),
    get_set_other F.CLK_STAT_PLLOK F.CLK_STAT_REF rfl (by decide), get_setClk]

theorem goFreerun_ctrl (s : State) : F.CLK_CTRL_FREERUN.get 0 (goFreerun.run s) = F.CLK_CTRL_FREERUN.get 0 s := by
  rw [goFreerun_run, clkEnter_other 0 (by decide) (by decide) (by decide) (by decide), setFreeY_get (by decide) rfl,
    get_set_apart F.CLK_CTRL_FREERUN F.CLK_STAT_STEP (apart_of_away (by decide) (by decide) (by decide) 0 0),
    get_set_apart F.CLK_CTRL_FREERUN F.CLK_STAT_REF (apart_of_away (by decide) (by decide) (by decide) 0 0), get_setClk]

theorem entryOf_clkCtrl : entryOf R.CLK_CTRL = ⟨R.CLK_CTRL, [F.CLK_CTRL_INSVC, F.CLK_CTRL_FREERUN]⟩ := rfl

section
variable {m : Nat} {s : State}

theorem clkCtrl_stored (x : Nat) (m : Nat) (s : State) (hx : x < 2) :
    F.CLK_CTRL_FREERUN.get 0 ((storeWrite (entryOf R.CLK_CTRL) 0 m (putBits (R.CLK_CTRL.val 0 s) 0 0 x) (fullMask 1) (R.CLK_CTRL.addr 0)).run s) =
      x := by
  rw [stored_get (e := entryOf R.CLK_CTRL) (n := 1) (f := F.CLK_CTRL_FREERUN) rfl (by rw [entryOf_clkCtrl]; unfold FldsOk; decide)
    (out_zero rfl rfl (by decide) 0 m) rfl (by rw [entryOf_clkCtrl]; simp) rfl rfl rfl (by simp [F.CLK_CTRL_FREERUN])]
  exact (bitsOf_putBits _ x (by decide)).trans (Nat.mod_eq_of_lt hx)

theorem clkCtrl_stored_stat (m v : Nat) (s : State) :
    R.CLK_STAT.val 0 ((storeWrite (entryOf R.CLK_CTRL) 0 m v (fullMask 1) (R.CLK_CTRL.addr 0)).run s) = R.CLK_STAT.val 0 s := by
  refine val_stores (A := fun k => errRegs k || k == 0x20100000) (stores_storeWrite _ _ _ _ _ _ _ _ _ ?_ fun k hk => by simp [hk])
    (out_zero rfl rfl (by decide) 0 0) s
  intro w hw
  have hw : w < 1 := hw
  obtain rfl : w = 0 := by omega
  rw [show (entryOf R.CLK_CTRL).reg = R.CLK_CTRL from rfl, key_zero rfl rfl]
  decide

theorem clkCtrl_stored_clk (m v : Nat) (s : State) :
    ((storeWrite (entryOf R.CLK_CTRL) 0 m v (fullMask 1) (R.CLK_CTRL.addr 0)).run s).clk = s.clk :=
  touches_clk (touches_storeWrite _ _ _ _ _ _ _ _) (by decide) (by decide) s

/-- A write of FREERUN 1 forces FREERUN (R475). -/
theorem clkCtrl_forces (hu : s.clk.up = true) (hf : F.CLK_CTRL_FREERUN.on 0 s = false) (hst : clkSt s ≠ 0) :
    let t := (wrClkCtrl m (putBits (R.CLK_CTRL.val 0 s) 0 0 1) (fullMask 1)).run s
    F.CLK_CTRL_FREERUN.get 0 t = 1 ∧ clkSt t = 0 ∧ t.clk.sel = none ∧ F.CLK_STAT_REF.get 0 t = 7 ∧ F.CLK_STAT_STEP.get 0 t = 0 := by
  have hget := clkCtrl_stored 1 m s (by decide)
  have hrun : (wrClkCtrl m (putBits (R.CLK_CTRL.val 0 s) 0 0 1) (fullMask 1)).run s =
      goFreerun.run ((storeWrite (entryOf R.CLK_CTRL) 0 m (putBits (R.CLK_CTRL.val 0 s) 0 0 1) (fullMask 1) (R.CLK_CTRL.addr 0)).run s) := by
    rw [wrClkCtrl, run_look, run_seq, run_look, Fld.on, hget, hf, hu, if_neg hst]
    rfl
  dsimp only
  rw [hrun, goFreerun_ctrl, hget, goFreerun_clk]
  exact ⟨rfl, goFreerun_state _, rfl, goFreerun_ref _, goFreerun_step _⟩

/-- A write of FREERUN 0 leaves the state as it is (R475). -/
theorem clkCtrl_releases (m : Nat) (s : State) : let t := (wrClkCtrl m (putBits (R.CLK_CTRL.val 0 s) 0 0 0) (fullMask 1)).run s
    F.CLK_CTRL_FREERUN.get 0 t = 0 ∧ clkSt t = clkSt s ∧ t.clk.sel = s.clk.sel := by
  have hget := clkCtrl_stored 0 m s (by decide)
  have hrun : (wrClkCtrl m (putBits (R.CLK_CTRL.val 0 s) 0 0 0) (fullMask 1)).run s =
      (storeWrite (entryOf R.CLK_CTRL) 0 m (putBits (R.CLK_CTRL.val 0 s) 0 0 0) (fullMask 1) (R.CLK_CTRL.addr 0)).run s := by
    rw [wrClkCtrl, run_look, run_seq, run_look, Fld.on, hget]
    rfl
  dsimp only
  rw [hrun, clkCtrl_stored_clk]
  refine ⟨hget, ?_, rfl⟩
  unfold clkSt Fld.get
  rw [show F.CLK_STAT_STATE.reg = R.CLK_STAT from rfl, clkCtrl_stored_stat]

end

/-! ### The PLLs -/

theorem showLock_bit {p : Nat} (hp : p < 3) (b : Bool) (s : State) : bitOf (F.CLK_STAT_PLLOK.get 0 ((showLock p b).run s)) p = b := by
  rw [showLock, run_look]
  exact bitOf_get_put (by decide) hp ..

theorem showLock_clk (p : Nat) (b : Bool) (s : State) : ((showLock p b).run s).clk = s.clk := by rw [showLock, run_look, clk_fset]

/-- Every word but those of the misalignments. -/
def misWords (k : Nat) : Bool := k == 0x201000F4 || (decide (0x20100104 ≤ k) && k % 16 == 4)

theorem outMis_words {n : Nat} (h : n < 8) : WordsIn misWords R.CLK_OUTMIS n 0 := fun w hw => by
  have hw : w < 1 := hw
  have hb : R.CLK_OUTMIS.base = 0x20100104 := rfl
  rw [key_one rfl rfl, hb]
  simp only [misWords, Bool.or_eq_true, Bool.and_eq_true, decide_eq_true_eq, beq_iff_eq]
  omega

theorem stores_setMis {n : Nat} (h : n < 8) (num : Int) (den : Nat) : (setMis n num den).Stores misWords :=
  stores_roundFree fun _ _ => ⟨stores_fset (outMis_words h) _, stores_fset (fun w hw => by
    have hw : w < 1 := hw
    obtain rfl : w = 0 := by omega
    rw [key_zero rfl rfl]
    decide) _⟩

theorem touches_setMis (n : Nat) (num : Int) (den : Nat) : (setMis n num den).Touches [.reg, .free] :=
  touches_roundFree (by decide) fun _ _ => ⟨touches_fset (by decide) _ _ _ _, touches_fset (by decide) _ _ _ _⟩

theorem stores_outUnset {n : Nat} (h : n < 8) : (outUnset n).Stores misWords := fun _ => stores_draw fun _ => stores_setMis h _ _

theorem touches_outUnset (n : Nat) : (outUnset n).Touches [.reg, .free] := fun _ => touches_draw (by decide) fun _ => touches_setMis _ _ _

theorem gridResume_clk (s : State) : (gridResume.run s).clk = { s.clk with fsel := F.CLK_PLLA_FSEL.on 0 s, relockA := false, hold := false } := by
  have hshow (u : State) : (showBudget.run u).clk = u.clk := by
    rw [showBudget, run_look]
    dsimp only
    rw [acts_three, clk_fset, clk_fset, clk_fset]
  rw [gridResume, run_look]
  dsimp only
  rw [acts_three, hshow, clk_setClk]
  rfl

theorem gridResume_pllok (s : State) : F.CLK_STAT_PLLOK.get 0 (gridResume.run s) = F.CLK_STAT_PLLOK.get 0 s := by
  have hout (f : Fld) (h : F.CLK_STAT_PLLOK.reg.awayFrom f.reg = true) (hd : f.reg.dims = []) (v : Nat) (u : State) :
      F.CLK_STAT_PLLOK.get 0 ((f.set 0 v).run u) = F.CLK_STAT_PLLOK.get 0 u :=
    get_set_apart _ _ (apart_of_away h (by decide) (by rw [hd]; decide) 0 0) ..
  have hshow (u : State) : F.CLK_STAT_PLLOK.get 0 (showBudget.run u) = F.CLK_STAT_PLLOK.get 0 u := by
    rw [showBudget, run_look]
    dsimp only
    rw [acts_three, hout F.TICK_BUDGET_LANE_CYC (by decide) rfl, hout F.TICK_CYCFRAC_FRAC (by decide) rfl, hout F.TICK_CYC_CYC_INT (by decide) rfl]
  rw [gridResume, run_look]
  dsimp only
  rw [acts_three, hshow, get_setClk]
  exact get_congr rfl ..

section
variable {s : State}

theorem lockA_run (h : s.clk.lockA = false) : (pllLock .a).run s =
    (onlyIf (!s.clk.up) (.seq (setClk fun c => { c with up := true }) goFreerun)).run ((onlyIf s.clk.hold gridResume).run
      ((showLock 0 true).run ((setClk fun c => { c with lockA := true }).run s))) := by
  unfold pllLock
  rw [run_look, h, if_neg (by decide), acts_four]

/-- The lock of PLL_A ends a hold and, the first time, brings the unit up in FREERUN (R461, R463). -/
theorem lockA_locks (h : s.clk.lockA = false) : let t := (pllLock .a).run s
    t.clk.lockA = true ∧ bitOf (F.CLK_STAT_PLLOK.get 0 t) 0 = true ∧ t.clk.hold = false := by
  have hshow : let u := (showLock 0 true).run ((setClk fun c => { c with lockA := true }).run s)
      u.clk = { s.clk with lockA := true } ∧ bitOf (F.CLK_STAT_PLLOK.get 0 u) 0 = true :=
    ⟨by rw [showLock_clk, clk_setClk], showLock_bit (by decide) true _⟩
  dsimp only
  rw [lockA_run h]
  generalize (showLock 0 true).run ((setClk fun c => { c with lockA := true }).run s) = u at hshow ⊢
  obtain ⟨huc, hub⟩ := hshow
  have hresume : let v := (onlyIf s.clk.hold gridResume).run u
      v.clk.lockA = true ∧ v.clk.hold = false ∧ bitOf (F.CLK_STAT_PLLOK.get 0 v) 0 = true := by
    cases hh : s.clk.hold with
    | false => exact ⟨by rw [onlyIf_false, run_done, huc], by rw [onlyIf_false, run_done, huc, hh], hub⟩
    | true =>
      rw [onlyIf_true]
      dsimp only
      rw [gridResume_clk, gridResume_pllok, huc]
      exact ⟨rfl, rfl, hub⟩
  generalize (onlyIf s.clk.hold gridResume).run u = v at hresume ⊢
  obtain ⟨hl, hh, hb⟩ := hresume
  cases s.clk.up with
  | true => exact ⟨hl, hb, hh⟩
  | false =>
    rw [Bool.not_false, onlyIf_true, run_seq, goFreerun_clk, goFreerun_pllok, clk_setClk, get_setClk]
    exact ⟨hl, hb, hh⟩

/-- The lock of PLL_B leaves the phase of the sample clock to be set (R461, R466). -/
theorem lockB_locks (h : s.clk.lockB = false) : let t := (pllLock .b).run s
    t.clk.lockB = true ∧ bitOf (F.CLK_STAT_PLLOK.get 0 t) 1 = true := by
  have hrun : (pllLock .b).run s = (onlyIf s.clk.relockB (forEach ((List.range 8).filter fun n => F.CLK_OUT_EN.on n s) outUnset)).run
      ((showLock 1 true).run ((setClk fun c => { c with lockB := true, relockB := false, phased := false }).run s)) := by
    unfold pllLock
    rw [run_look]
    dsimp only
    rw [h, if_neg (by decide), acts_three]
  have ht : (onlyIf s.clk.relockB (forEach ((List.range 8).filter fun n => F.CLK_OUT_EN.on n s) outUnset)).Touches [.reg, .free] :=
    (touches_onlyIf _ _).mpr fun _ => touches_forEach_of touches_outUnset
  have hs : (onlyIf s.clk.relockB (forEach ((List.range 8).filter fun n => F.CLK_OUT_EN.on n s) outUnset)).Stores misWords :=
    (stores_onlyIf _ _).mpr fun _ => stores_forEach.mpr fun n hn => stores_outUnset (List.mem_range.mp (List.mem_filter.mp hn).1)
  have hout : WordsOut misWords F.CLK_STAT_PLLOK.reg 0 0 := out_zero rfl rfl (by decide) 0 0
  dsimp only
  rw [hrun, touches_clk ht (by decide) (by decide), showLock_clk, clk_setClk, Fld.get, val_stores hs hout]
  exact ⟨rfl, showLock_bit (by decide) true _⟩

theorem lockC_locks (h : s.clk.lockC = false) : let t := (pllLock .c).run s
    t.clk.lockC = true ∧ bitOf (F.CLK_STAT_PLLOK.get 0 t) 2 = true := by
  have hrun : (pllLock .c).run s = (showLock 2 true).run ((setClk fun c => { c with lockC := true }).run s) := by
    unfold pllLock
    rw [run_look]
    dsimp only
    rw [h, if_neg (by decide), acts_two]
  dsimp only
  rw [hrun, showLock_clk, clk_setClk]
  exact ⟨rfl, showLock_bit (by decide) true _⟩

end

/-- A loss of lock is shown and noted before it is raised. -/
def lockLost (p : Nat) (e : Ev) (g : ClkState → ClkState) (h : Nat) : Act :=
  acts [setClk g, lockStart p, F.CLK_HIST_UNLOCK.set 0 (h ||| 2 ^ p), raise e p]

theorem lockStart_run (p : Nat) (s : State) : ∃ w, (lockStart p).run s =
    (showLock p false).run ((setClk fun c => { c with lfsr := smInsert c.lfsr p w }).run s) := ⟨_, rfl⟩

theorem lockLost_shows {p : Nat} (hp : p < 3) (e : Ev) (g : ClkState → ClkState) (h : Nat) (s : State) : let t := (lockLost p e g h).run s
    (∃ l, t.clk = { g s.clk with lfsr := l }) ∧ bitOf (F.CLK_STAT_PLLOK.get 0 t) p = false ∧
      bitOf (F.CLK_HIST_UNLOCK.get 0 t) p = true ∧ EvSet e t := by
  obtain ⟨w, hw⟩ := lockStart_run p ((setClk g).run s)
  have hk := clkKept_raise e p 0 0 0 ((F.CLK_HIST_UNLOCK.set 0 (h ||| 2 ^ p)).run ((lockStart p).run ((setClk g).run s)))
  dsimp only
  rw [lockLost, acts_four]
  refine ⟨⟨_, by rw [hk.clk, clk_fset, hw, showLock_clk, clk_setClk, clk_setClk]⟩, ?_, ?_, raise_sets ..⟩
  · rw [hk.get (by decide) (by decide),
      get_set_apart F.CLK_STAT_PLLOK F.CLK_HIST_UNLOCK (apart_of_away (by decide) (by decide) (by decide) 0 0), hw]
    exact showLock_bit hp false _
  · rw [hk.get (by decide) (by decide)]
    exact bitOf_get_or (by decide) hp ..

/-- The ports lose their links, and the clock unit stays (R465). -/
theorem linksDown_kept (s : State) : ClkKept s ((forEach (List.range 4) fun p => linkChange p false).run s) :=
  madeOf_forEach (fun _ hp => ports_linkChange (List.mem_range.mp hp) false) _ (keeper_clk s) s ⟨rfl, fun _ _ => rfl⟩

theorem linksDown_event (e : Ev) {s : State} (h : EvSet e s) : EvSet e ((forEach (List.range 4) fun p => linkChange p false).run s) :=
  madeOf_forEach (fun _ hp => ports_linkChange (List.mem_range.mp hp) false) _ (keeper_event e) s h

section
variable {s : State}

theorem unlockA (h : s.clk.lockA = true) : let t := (pllUnlock .a).run s
    t.clk.lockA = false ∧ bitOf (F.CLK_STAT_PLLOK.get 0 t) 0 = false ∧ bitOf (F.CLK_HIST_UNLOCK.get 0 t) 0 = true ∧
      EvSet .CLK_PLL_UNLOCK_A t := by
  have hrun : (pllUnlock .a).run s =
      (lockLost 0 .CLK_PLL_UNLOCK_A (fun c => { c with lockA := false }) (F.CLK_HIST_UNLOCK.get 0 s)).run s := by
    unfold pllUnlock
    rw [run_look]
    dsimp only
    rw [if_pos h, lockLost]
  obtain ⟨⟨l, hl⟩, hrest⟩ := lockLost_shows (p := 0) (by decide) .CLK_PLL_UNLOCK_A (fun c => { c with lockA := false })
    (F.CLK_HIST_UNLOCK.get 0 s) s
  dsimp only
  rw [hrun]
  exact ⟨by rw [hl], hrest⟩

theorem unlockB (h : s.clk.lockB = true) : let t := (pllUnlock .b).run s
    t.clk.lockB = false ∧ bitOf (F.CLK_STAT_PLLOK.get 0 t) 1 = false ∧ bitOf (F.CLK_HIST_UNLOCK.get 0 t) 1 = true ∧
      EvSet .CLK_PLL_UNLOCK_BC t := by
  have hrun : (pllUnlock .b).run s =
      (lockLost 1 .CLK_PLL_UNLOCK_BC (fun c => { c with lockB := false, phased := false }) (F.CLK_HIST_UNLOCK.get 0 s)).run s := by
    unfold pllUnlock
    rw [run_look]
    dsimp only
    rw [if_pos h, lockLost]
  obtain ⟨⟨l, hl⟩, hrest⟩ := lockLost_shows (p := 1) (by decide) .CLK_PLL_UNLOCK_BC (fun c => { c with lockB := false, phased := false })
    (F.CLK_HIST_UNLOCK.get 0 s) s
  dsimp only
  rw [hrun]
  exact ⟨by rw [hl], hrest⟩

theorem unlockC (h : s.clk.lockC = true) : let t := (pllUnlock .c).run s
    t.clk.lockC = false ∧ bitOf (F.CLK_STAT_PLLOK.get 0 t) 2 = false ∧ bitOf (F.CLK_HIST_UNLOCK.get 0 t) 2 = true ∧
      EvSet .CLK_PLL_UNLOCK_BC t := by
  have hrun : (pllUnlock .c).run s = (forEach (List.range 4) fun p => linkChange p false).run
      ((lockLost 2 .CLK_PLL_UNLOCK_BC (fun c => { c with lockC := false }) (F.CLK_HIST_UNLOCK.get 0 s)).run s) := by
    unfold pllUnlock
    rw [run_look]
    dsimp only
    rw [if_pos h, acts_five, lockLost, acts_four]
  obtain ⟨⟨l, hl⟩, hok, hhist, hev⟩ := lockLost_shows (p := 2) (by decide) .CLK_PLL_UNLOCK_BC (fun c => { c with lockC := false })
    (F.CLK_HIST_UNLOCK.get 0 s) s
  dsimp only
  rw [hrun]
  generalize (lockLost 2 .CLK_PLL_UNLOCK_BC (fun c => { c with lockC := false }) (F.CLK_HIST_UNLOCK.get 0 s)).run s = u at hl hok hhist hev ⊢
  have hk := linksDown_kept u
  rw [hk.clk, hk.get (f := F.CLK_STAT_PLLOK) (by decide) (by decide), hk.get (f := F.CLK_HIST_UNLOCK) (by decide) (by decide)]
  exact ⟨by rw [hl], hok, hhist, linksDown_event _ hev⟩

end

/-! ### The outputs -/

section
variable {n : Nat}

/-- An output stands within 1 ns of its nominal position, with nothing pending. -/
def Aligned (n : Nat) (x : Int) (s : State) : Prop :=
  F.CLK_OUTMIS_MIS.get n s = ofInt 32 x ∧ bitOf (F.CLK_ALIGNPEND_PEND.get 0 s) n = false

theorem setMis_run (n : Nat) (x : Int) (s : State) : (setMis n x 1).run s =
    (F.CLK_ALIGNPEND_PEND.set 0 (putBits (F.CLK_ALIGNPEND_PEND.get 0 s) n n (b2n (decide (1 < x.natAbs))))).run
      ((F.CLK_OUTMIS_MIS.set n (ofInt 32 x)).run s) := by
  have hmod : x % ((1 : Nat) : Int) = 0 := by omega
  have hdiv : x / ((1 : Nat) : Int) = x := by omega
  rw [setMis, roundFree, if_pos hmod, hdiv]
  rfl

theorem pend_mis {j : Nat} (hj : j < 8) (x : Nat) (s : State) :
    F.CLK_ALIGNPEND_PEND.get 0 ((F.CLK_OUTMIS_MIS.set j x).run s) = F.CLK_ALIGNPEND_PEND.get 0 s :=
  get_set_apart _ _ (apart_of_away (by decide) (by decide) hj 0 0) ..

theorem mis_pend (hn : n < 8) (x : Nat) (s : State) : F.CLK_OUTMIS_MIS.get n ((F.CLK_ALIGNPEND_PEND.set 0 x).run s) = F.CLK_OUTMIS_MIS.get n s :=
  get_set_apart _ _ (apart_of_away (by decide) hn (by decide) 0 0) ..

theorem setMis_aligns (hn : n < 8) {x : Int} (hx : x.natAbs ≤ 1) (s : State) : Aligned n x ((setMis n x 1).run s) := by
  have hd : decide (1 < x.natAbs) = false := decide_eq_false (by omega)
  rw [setMis_run, hd]
  refine ⟨?_, bitOf_get_put (by decide) hn ..⟩
  rw [mis_pend hn]
  exact get_set_same F.CLK_OUTMIS_MIS (by decide) (ofInt_lt 32 x) n s

theorem outMis_apart {i j : Nat} (h : i ≠ j) : Apart R.CLK_OUTMIS i 0 R.CLK_OUTMIS j 0 := fun w hw w' hw' => by
  have hw : w < 1 := hw
  have hw' : w' < 1 := hw'
  rw [key_one rfl rfl, key_one rfl rfl]
  omega

/-- Another output, or the same one again. -/
theorem setMis_keeps (hn : n < 8) {j : Nat} (hj : j < 8) : (setMis j 0 1).Preserves (Aligned n 0) := fun s h => by
  by_cases hjn : n = j
  · subst hjn
    exact setMis_aligns hn (by decide) s
  · have hmis : F.CLK_OUTMIS_MIS.get n ((F.CLK_OUTMIS_MIS.set j (ofInt 32 0)).run s) = F.CLK_OUTMIS_MIS.get n s :=
      get_set_apart _ _ (outMis_apart hjn) ..
    rw [setMis_run]
    refine ⟨?_, ?_⟩
    · rw [mis_pend hn, hmis, h.1]
    · rw [bitOf_get_set (by decide) hn, bitOf_put_other _ _ hjn]
      exact h.2

/-- What one of the effects establishes where `I` holds, and the others keep, holds after them all. -/
theorem forEach_establishes {α : Type} {I P : State → Prop} {xs : List α} {f : α → Act} {x : α} (hx : x ∈ xs)
    (hinv : ∀ y ∈ xs, (f y).Preserves I) (hkeep : ∀ y ∈ xs, (f y).Preserves P) (hest : ∀ s, I s → P ((f x).run s)) {s : State} (hs : I s) :
    P ((forEach xs f).run s) := by
  induction xs generalizing s with
  | nil => cases hx
  | cons y ys ih =>
    have tail {Q : State → Prop} (h : ∀ z ∈ y :: ys, (f z).Preserves Q) : ∀ z ∈ ys, (f z).Preserves Q := fun z hz => h z (List.mem_cons_of_mem _ hz)
    rw [run_forEach_cons]
    rcases List.mem_cons.mp hx with rfl | hx
    · exact preserves_forEach (tail hkeep) _ (hest s hs)
    · exact ih hx (tail hinv) (tail hkeep) (hinv y List.mem_cons_self s hs)

/-- A realignment takes the outputs that it names to their nominal positions (R481). -/
theorem wrClkAlign_aligns (hn : n < 8) {v : Nat} {s : State} (hv : bitOf v n = true) (he : F.CLK_OUT_EN.on n s = true) :
    Aligned n 0 ((wrClkAlign v).run s) := by
  rw [wrClkAlign, run_look]
  refine forEach_establishes (I := fun _ => True) (x := n) (List.mem_filter.mpr ⟨List.mem_range.mpr hn, by rw [hv, he]; rfl⟩)
    (fun _ _ _ h => h) (fun j hj => ?_) (fun u _ => setMis_aligns hn (by decide) u) trivial
  exact setMis_keeps hn (List.mem_range.mp (List.mem_filter.mp hj).1)

theorem slew_near (r : Nat) : (((r % 3 : Nat) : Int) - 1).natAbs ≤ 1 ∧ (toInt 32 (ofInt 32 (((r % 3 : Nat) : Int) - 1))).natAbs ≤ 1 := by
  have hr : r % 3 < 3 := Nat.mod_lt _ (by decide)
  generalize r % 3 = k at hr ⊢
  interval_cases k <;> decide

theorem entryOf_clkOut : entryOf R.CLK_OUT = ⟨R.CLK_OUT, [F.CLK_OUT_EN, F.CLK_OUT_POL, F.CLK_OUT_LEVEL, F.CLK_OUT_FMT]⟩ := rfl

theorem clkOut_out (hn : n < 8) (m : Nat) : WordsOut errRegs R.CLK_OUT n m := out_one rfl rfl (fun w hw => by
  have hw : w < 1 := hw
  have hb : R.CLK_OUT.base = 0x20100100 := rfl
  exact errRegs_off (by omega) (by omega) (by omega) (by omega) (by omega) (by omega)) m

theorem clkOut_flds : FldsOk 1 (entryOf R.CLK_OUT).flds := by
  rw [entryOf_clkOut]
  unfold FldsOk
  decide

theorem clkOut_misWords (n : Nat) : WordsOut misWords R.CLK_OUT n 0 := out_one rfl rfl (fun w hw => by
  have hw : w < 1 := hw
  have hb : R.CLK_OUT.base = 0x20100100 := rfl
  rw [hb]
  simp only [misWords, Bool.or_eq_false_iff, Bool.and_eq_false_iff, beq_eq_false_iff_ne, decide_eq_false_iff_not]
  omega) 0

theorem outPast_congr {s t : State} (h : t.tick = s.tick) (level fmt : Nat) : outPast t level fmt = outPast s level fmt := by
  have hf : fsHz t = fsHz s := by rw [fsHz, h, fsHz]
  have hs : spt t = spt s := by rw [spt, h, spt]
  have ho : outFreq t fmt = outFreq s fmt := by
    unfold outFreq
    rw [hf, hs]
  unfold outPast
  rw [ho]

theorem outPast_atTarget (b r : SMap Nat) (l : List WriteMsg) (w : List SipMsg) (s : State) (level fmt : Nat) :
    outPast (rated (atTarget b r l w s)) level fmt = outPast (rated s) level fmt := by
  have hr : running (atTarget b r l w s) = running s := rfl
  have ht : (atTarget b r l w s).tick = s.tick := rfl
  have hc : R.TICK_CFG.val 0 (atTarget b r l w s) = R.TICK_CFG.val 0 s := val_congr rfl ..
  refine outPast_congr ?_ level fmt
  simp only [rated, hr, ht, hc]
  split <;> rfl

/-- A write of an output within its limits is stored (R479). -/
theorem wrClkOut_stores (hn : n < 8) (m v : Nat) {s : State} (hf : F.CLK_OUT_FMT.of v < 6)
    (hp : outPast (rated s) (F.CLK_OUT_LEVEL.of v) (F.CLK_OUT_FMT.of v) = false) : let t := (wrClkOut m n v (fullMask 1)).run s
    F.CLK_OUT_EN.get n t = F.CLK_OUT_EN.of v ∧ F.CLK_OUT_FMT.get n t = F.CLK_OUT_FMT.of v ∧ F.CLK_OUT_LEVEL.get n t = F.CLK_OUT_LEVEL.of v := by
  have hlisted : F.CLK_OUT_FMT.of v ∉ F.CLK_OUT_FMT.unlisted := by
    have hu : F.CLK_OUT_FMT.unlisted = [6, 7] := rfl
    rw [hu]
    simp only [List.mem_cons, List.not_mem_nil, or_false]
    omega
  have hafter {f : Fld} (hm : f ∈ (entryOf R.CLK_OUT).flds) (ha : f.acc = .rw) (hl : f.lk = false) (hu : f.of v ∉ f.unlisted) :
      f.of (afterWrite (entryOf R.CLK_OUT) n m v (fullMask 1) s) = f.of v :=
    afterWrite_of (e := entryOf R.CLK_OUT) (n := 1) rfl clkOut_flds hm ha (by rw [hl]; rfl) hu
  have hstored {f : Fld} (hm : f ∈ (entryOf R.CLK_OUT).flds) (hr : f.reg = R.CLK_OUT) (ha : f.acc = .rw) (hl : f.lk = false)
      (hu : f.of v ∉ f.unlisted) :
      f.get n ((storeWrite (entryOf R.CLK_OUT) n m v (fullMask 1) (R.CLK_OUT.addr n)).run s) = f.of v :=
    stored_get (e := entryOf R.CLK_OUT) (n := 1) rfl clkOut_flds (clkOut_out hn m) rfl hm hr ha (by rw [hl]; rfl) hu
  have hlevel := hafter (f := F.CLK_OUT_LEVEL) (by rw [entryOf_clkOut]; simp) rfl rfl (by simp [F.CLK_OUT_LEVEL])
  have hfmt := hafter (f := F.CLK_OUT_FMT) (by rw [entryOf_clkOut]; simp) rfl rfl hlisted
  obtain ⟨a, ha, hrun⟩ : ∃ a : Act, a.Stores misWords ∧ (wrClkOut m n v (fullMask 1)).run s =
      a.run ((setClk fun c => { c with lowOut := c.lowOut.filter (· ≠ n) }).run
        ((storeWrite (entryOf R.CLK_OUT) n m v (fullMask 1) (R.CLK_OUT.addr n)).run s)) := by
    unfold wrClkOut
    rw [run_look]
    dsimp only
    rw [hlevel, hfmt, hp, if_neg (by decide), acts_three]
    exact ⟨_, stores_ite (stores_setMis hn _ _) ((stores_onlyIf _ _).mpr fun _ => stores_outUnset hn), rfl⟩
  have hkeep {f : Fld} (hr : f.reg = R.CLK_OUT) (u : State) : f.get n (a.run u) = f.get n u := by
    unfold Fld.get
    rw [hr, val_stores ha (clkOut_misWords n)]
  dsimp only
  rw [hrun, hkeep rfl, hkeep rfl, hkeep rfl, get_setClk, get_setClk, get_setClk]
  exact ⟨hstored (by rw [entryOf_clkOut]; simp) rfl rfl rfl (by simp [F.CLK_OUT_EN]),
    hstored (by rw [entryOf_clkOut]; simp) rfl rfl rfl hlisted,
    hstored (by rw [entryOf_clkOut]; simp) rfl rfl rfl (by simp [F.CLK_OUT_LEVEL])⟩

end

/-! ### The frequency of PLL_A -/

theorem entryOf_clkPlla : entryOf R.CLK_PLLA = ⟨R.CLK_PLLA, [F.CLK_PLLA_FSEL]⟩ := rfl

/-- Another FSEL starts PLL_A anew and holds the counter (R463). -/
theorem wrClkPlla_relocks (m v : Nat) {s : State} (hr : running s = false) (hl : s.lock = false) :
    let t := (wrClkPlla m v (fullMask 1)).run s
    F.CLK_PLLA_FSEL.get 0 t = F.CLK_PLLA_FSEL.of v ∧
      (F.CLK_PLLA_FSEL.of v ≠ b2n s.clk.fsel → t.clk.lockA = false ∧ t.clk.hold = true) := by
  have hget : F.CLK_PLLA_FSEL.get 0 ((storeWrite (entryOf R.CLK_PLLA) 0 m v (fullMask 1) (R.CLK_PLLA.addr 0)).run s) = F.CLK_PLLA_FSEL.of v :=
    stored_get (e := entryOf R.CLK_PLLA) (n := 1) rfl (by rw [entryOf_clkPlla]; unfold FldsOk; decide) (out_zero rfl rfl (by decide) 0 m) rfl
      (by rw [entryOf_clkPlla]; simp) rfl rfl (by rw [hl, Bool.and_false]) (by simp [F.CLK_PLLA_FSEL])
  have hclk : ((storeWrite (entryOf R.CLK_PLLA) 0 m v (fullMask 1) (R.CLK_PLLA.addr 0)).run s).clk = s.clk :=
    touches_clk (touches_storeWrite _ _ _ _ _ _ _ _) (by decide) (by decide) s
  have hrun : (wrClkPlla m v (fullMask 1)).run s = (onlyIf ((F.CLK_PLLA_FSEL.of v == 1) ≠ s.clk.fsel) (.seq
      (setClk fun c => { c with relockA := true, lockA := false, hold := true }) (lockStart 0))).run
        ((storeWrite (entryOf R.CLK_PLLA) 0 m v (fullMask 1) (R.CLK_PLLA.addr 0)).run s) := by
    rw [wrClkPlla, run_look, hr, if_neg (by decide), run_seq, run_look, Fld.on, hget, hclk]
  have hkeep (w : Word × Nat) (u : State) : F.CLK_PLLA_FSEL.get 0 ((showLock 0 false).run
      ((setClk fun c => { c with lfsr := smInsert c.lfsr 0 w }).run u)) = F.CLK_PLLA_FSEL.get 0 u := by
    rw [showLock, run_look, get_set_apart F.CLK_PLLA_FSEL F.CLK_STAT_PLLOK (apart_of_away (by decide) (by decide) (by decide) 0 0), get_setClk]
  have hlt : F.CLK_PLLA_FSEL.of v < 2 := of_lt F.CLK_PLLA_FSEL v
  dsimp only
  rw [hrun]
  generalize (storeWrite (entryOf R.CLK_PLLA) 0 m v (fullMask 1) (R.CLK_PLLA.addr 0)).run s = u at hget hclk ⊢
  obtain ⟨w, hw⟩ := lockStart_run 0 ((setClk fun c => { c with relockA := true, lockA := false, hold := true }).run u)
  by_cases hne : (F.CLK_PLLA_FSEL.of v == 1) = s.clk.fsel
  · rw [decide_eq_false (by simpa using hne), onlyIf_false, run_done]
    refine ⟨hget, fun h => absurd ?_ h⟩
    rw [← hne]
    generalize F.CLK_PLLA_FSEL.of v = x at hlt ⊢
    interval_cases x <;> rfl
  · rw [decide_eq_true hne, onlyIf_true, run_seq, hw, hkeep, get_setClk, showLock_clk, clk_setClk, clk_setClk]
    exact ⟨hget, fun _ => ⟨rfl, rfl⟩⟩

/-! ### The loop and the holdover -/

section
variable {s : State}

/-- The loop advances one step after its dwell (R472). -/
theorem stepAdvance_advances {k : Nat} (hk : s.clk.sel = some k) (hf : F.CLK_STAT_STEP.get 0 s < finalStep s k)
    (hd : stepDwell (F.CLK_STAT_STEP.get 0 s) ≤ s.clk.dwell) : let t := stepAdvance.run s
    F.CLK_STAT_STEP.get 0 t = F.CLK_STAT_STEP.get 0 s + 1 ∧ t.clk.dwell = 0 := by
  have hrun : stepAdvance.run s = lockJudge.run ((setClk fun c => { c with dwell := 0 }).run
      ((F.CLK_STAT_STEP.set 0 (F.CLK_STAT_STEP.get 0 s + 1)).run s)) := by
    rw [stepAdvance, run_look]
    dsimp only
    rw [hk]
    dsimp only
    rw [if_pos (by simp [hf, hd]), acts_three]
  have hjudge (u : State) : F.CLK_STAT_STEP.get 0 (lockJudge.run u) = F.CLK_STAT_STEP.get 0 u ∧ (lockJudge.run u).clk = u.clk := by
    rw [lockJudge, run_look]
    split
    · unfold onlyIf
      split
      · exact ⟨clkEnter_stat 2 rfl (by decide) u, clkEnter_clk 2 u⟩
      · exact ⟨rfl, rfl⟩
    · exact ⟨rfl, rfl⟩
  have hlast : finalStep s k ≤ 5 := by
    unfold finalStep
    split
    · omega
    · omega
    · split <;> omega
    · omega
  dsimp only
  rw [hrun, (hjudge _).1, (hjudge _).2, get_setClk, clk_setClk]
  exact ⟨get_set_same F.CLK_STAT_STEP (by decide) (show _ < 2 ^ 3 by omega) 0 s, rfl⟩

/-- The holdover expires, and the grandmaster is no longer qualified (R475, R454). -/
theorem holdExpired_enters (hs : clkSt s = 3) (hh : F.CLK_HOLD_LEFT_MS.get 0 s = 0) :
    let t := (onlyIf (clkSt s = 3 && F.CLK_HOLD_LEFT_MS.get 0 s = 0)
      (.seq (clkEnter 4) (.seq (F.PTP_STAT_QUAL.set 0 0) (setPtp fun x => { x with qual := [] })))).run s
    clkSt t = 4 ∧ F.PTP_STAT_QUAL.get 0 t = 0 ∧ EvSet .CLK_HOLD_EXPIRED t := by
  have hcond : (decide (clkSt s = 3) && decide (F.CLK_HOLD_LEFT_MS.get 0 s = 0)) = true := by rw [hs, hh]; rfl
  have hset (u : State) : clkSt ((F.PTP_STAT_QUAL.set 0 0).run u) = clkSt u :=
    get_set_apart F.CLK_STAT_STATE F.PTP_STAT_QUAL (apart_of_away (by decide) (by decide) (by decide) 0 0) ..
  dsimp only
  rw [hcond, onlyIf_true, run_seq, run_seq, get_setPtp]
  refine ⟨?_, get_set_same F.PTP_STAT_QUAL (by decide) (by decide) .., ?_⟩
  · rw [clkSt, get_setPtp, ← clkSt, hset, clkEnter_state (by decide)]
  · exact event_kept_fset .CLK_HOLD_EXPIRED (f := F.PTP_STAT_QUAL) (by decide) (by decide) 0 _ (clkEnter_event 4 s)

end

/-! ### The references -/

/-- Reference 1 is valid, and has been good for `n` milliseconds. -/
def Ref1Good (n : Nat) (s : State) : Prop := refValid s 1 = true ∧ smGet (fun _ => 0) s.clk.good 1 = n

section
variable {n : Nat}

theorem ref1_of {s t : State} (hv : F.CLK_REFSTAT_VALID.get 0 t = F.CLK_REFSTAT_VALID.get 0 s) (hg : t.clk.good = s.clk.good)
    (h : Ref1Good n s) : Ref1Good n t := ⟨by rw [refValid, hv]; exact h.1, by rw [hg]; exact h.2⟩

theorem ref1_raise (e : Ev) (d0 d1 d2 g : Nat) : (raise e d0 d1 d2 g).Preserves (Ref1Good n) := fun s h =>
  have hk := clkKept_raise e d0 d1 d2 g s
  ref1_of (hk.get (by decide) (by decide)) (by rw [hk.clk]) h

theorem ref1_fset {f : Fld} (h : R.CLK_REFSTAT.awayFrom f.reg = true) (hd : f.reg.dims = []) (v : Nat) : (f.set 0 v).Preserves (Ref1Good n) :=
  fun _ hs => ref1_of (get_set_apart F.CLK_REFSTAT_VALID f (apart_of_away h (by decide) (by rw [hd]; decide) 0 0) ..) (by rw [clk_fset]) hs

theorem ref1_rset {r : Reg} (h : R.CLK_REFSTAT.awayFrom r = true) (hd : r.dims = []) (v : Nat) : (r.set 0 v).Preserves (Ref1Good n) :=
  fun s hs => ref1_of (by
    have ha : Apart R.CLK_REFSTAT 0 0 r 0 0 := apart_of_away h (by decide) (by rw [hd]; decide) 0 0
    rw [Fld.get, show F.CLK_REFSTAT_VALID.reg = R.CLK_REFSTAT from rfl, val_set_apart ha]
    rfl) (by rw [clk_rset]) hs

theorem ref1_setClk {f : ClkState → ClkState} (h : ∀ c, (f c).good = c.good) : (setClk f).Preserves (Ref1Good n) :=
  fun s hs => ref1_of (s := s) (t := (setClk f).run s) rfl (h s.clk) hs

theorem ref1_roundFree {num : Int} {den : Nat} {k : Int → Act} (h : ∀ x, (k x).Preserves (Ref1Good n)) :
    (roundFree num den k).Preserves (Ref1Good n) := fun s hs => by
  obtain ⟨x, m, hrun⟩ := roundFree_run num den k s
  rw [hrun]
  exact h x _ hs

theorem ref1_setY (y : Int) : (setY y).Preserves (Ref1Good n) := ref1_rset (by decide) rfl _

theorem ref1_clkEnter (c : Nat) : (clkEnter c).Preserves (Ref1Good n) := fun s hs =>
  ref1_of (clkEnter_other c (by decide) (by decide) (by decide) (by decide) s) (by rw [clkEnter_clk]) hs

theorem ref1_goHoldover : goHoldover.Preserves (Ref1Good n) := preserves_look fun s => preserves_acts <| by
  simp only [List.forall_mem_cons, List.not_mem_nil, false_implies, implies_true, and_true]
  exact ⟨preserves_onlyIf (ref1_roundFree fun _ => ref1_setY _), ref1_fset (by decide) rfl _, ref1_setClk fun _ => rfl,
    ref1_fset (by decide) rfl _, ref1_clkEnter 3⟩

theorem ref1_refSelect (k : Nat) : (refSelect k).Preserves (Ref1Good n) := preserves_look fun s => preserves_acts <| by
  simp only [List.forall_mem_cons, List.not_mem_nil, false_implies, implies_true, and_true]
  exact ⟨ref1_fset (by decide) rfl _, ref1_setClk fun _ => rfl, ref1_raise _ _ _ _ _, ref1_fset (by decide) rfl _, ref1_fset (by decide) rfl _,
    ref1_clkEnter 1⟩

theorem ref1_refChoose : refChoose.Preserves (Ref1Good n) := preserves_look fun s => by
  refine preserves_seq ?_ (ref1_setClk fun _ => rfl)
  split
  · exact ref1_refSelect _
  · exact preserves_done
  · refine preserves_ite ref1_goHoldover ?_
    split
    · exact ref1_setClk fun _ => rfl
    · exact preserves_ite (ref1_setClk fun _ => rfl) <| preserves_ite (ref1_refSelect _) <|
        preserves_ite (ref1_setClk fun _ => rfl) (preserves_ite (ref1_refSelect _) (ref1_setClk fun _ => rfl))

theorem ref1_lockJudge : lockJudge.Preserves (Ref1Good n) := preserves_look fun s => by
  split
  · exact preserves_onlyIf (ref1_clkEnter 2)
  · exact preserves_done

theorem ref1_takePherr (o : RefObs) (k : Nat) : (takePherr o k).Preserves (Ref1Good n) := preserves_look fun s =>
  preserves_ite (ref1_rset (by decide) rfl _) <| preserves_ite preserves_done (ref1_roundFree fun _ => ref1_rset (by decide) rfl _)

theorem ref1_loopMove (o : RefObs) (k : Nat) : (loopMove o k).Preserves (Ref1Good n) := preserves_look fun _ =>
  preserves_look fun _ => preserves_seq (fun _ hs => ref1_of rfl rfl hs) (ref1_setY _)

theorem ref1_loopMs (o : RefObs) : (loopMs o).Preserves (Ref1Good n) := preserves_look fun s => by
  split
  · exact preserves_done
  · refine preserves_seq (ref1_takePherr o _) (preserves_look fun s => preserves_acts ?_)
    simp only [List.forall_mem_cons, List.not_mem_nil, false_implies, implies_true, and_true]
    exact ⟨ref1_fset (by decide) rfl _, ref1_setClk fun _ => rfl, ref1_loopMove o _, ref1_lockJudge⟩

theorem ref1_histMs : histMs.Preserves (Ref1Good n) := preserves_look fun _ =>
  preserves_seq (ref1_setClk fun _ => rfl) (preserves_look fun _ => ref1_fset (by decide) rfl _)

end

/-- What the judgement of a reference makes of its counts and its validity. -/
def refTaken (k good bad : Nat) (now : Bool) : Act := .look fun s =>
  .seq (setClk fun c => { c with good := smInsert c.good k good, bad := smInsert c.bad k bad })
    (F.CLK_REFSTAT_VALID.set 0 (putBits (F.CLK_REFSTAT_VALID.get 0 s) k k (b2n now)))

/-- The loss of a reference is noted and raised. -/
def refLost (k old : Nat) : Act := .seq (F.CLK_REFSTAT_LOST.set 0 (old ||| 2 ^ k)) (raise .CLK_REF_LOST k)

theorem refJudge_run (o : RefObs) (k : Nat) (s : State) : ∃ good bad now lost old,
    (refJudge o k).run s = (onlyIf lost (refLost k old)).run ((refTaken k good bad now).run s) := by
  rw [refJudge, run_look]
  rcases refSeen s o k with ⟨cond, chk⟩
  exact ⟨_, _, _, _, _, rfl⟩

theorem refTaken_valid {k j : Nat} (hj : j < 4) (h : j ≠ k) (good bad : Nat) (now : Bool) (s : State) :
    refValid ((refTaken k good bad now).run s) j = refValid s j := by
  rw [refValid, refTaken, run_look, run_seq, bitOf_get_set (by decide) hj, bitOf_put_other _ _ h]
  rfl

theorem refTaken_good {k j : Nat} (h : j ≠ k) (good bad : Nat) (now : Bool) (s : State) :
    smGet (fun _ => 0) ((refTaken k good bad now).run s).clk.good j = smGet (fun _ => 0) s.clk.good j := by
  rw [refTaken, run_look, run_seq, clk_fset, clk_setClk]
  exact get_insert_ne _ _ _ h

theorem refLost_valid (k old j : Nat) (s : State) : refValid ((refLost k old).run s) j = refValid s j := by
  rw [refValid, refLost, run_seq, (clkKept_raise ..).get (by decide) (by decide), get_set_other F.CLK_REFSTAT_VALID F.CLK_REFSTAT_LOST rfl (by decide)]
  rfl

theorem refLost_clk (k old : Nat) (s : State) : ((refLost k old).run s).clk = s.clk := by
  rw [refLost, run_seq, (clkKept_raise ..).clk, clk_fset]

/-- The judgement of another reference. -/
theorem refJudge_other (o : RefObs) {k j : Nat} (hj : j < 4) (h : j ≠ k) (s : State) : refValid ((refJudge o k).run s) j = refValid s j ∧
    smGet (fun _ => 0) ((refJudge o k).run s).clk.good j = smGet (fun _ => 0) s.clk.good j := by
  obtain ⟨good, bad, now, lost, old, hrun⟩ := refJudge_run o k s
  rw [hrun, ← refTaken_valid hj h good bad now s, ← refTaken_good h good bad now s]
  cases lost with
  | false => exact ⟨rfl, rfl⟩
  | true => exact ⟨refLost_valid .., by rw [onlyIf_true, refLost_clk]⟩

/-- The words that the judgement of a reference can change. -/
def judgeWords (k : Nat) : Bool := raiseRegs k || k == 0x20100018

theorem refJudge_stores (o : RefObs) (k : Nat) : (refJudge o k).Stores judgeWords := by
  have hin : WordsIn judgeWords R.CLK_REFSTAT 0 0 := fun w hw => by
    have hw : w < 1 := hw
    obtain rfl : w = 0 := by omega
    rw [key_zero rfl rfl]
    decide
  rw [refJudge, stores_look]
  intro s
  rcases refSeen s o k with ⟨cond, chk⟩
  exact ⟨stores_setClk _, stores_fset hin _, (stores_onlyIf _ _).mpr fun _ => ⟨stores_fset hin _,
    stores_mono (stores_raise _ _ _ _ _) fun k hk => by simp [judgeWords, hk]⟩⟩

theorem refJudge_touches (o : RefObs) (k : Nat) : (refJudge o k).Touches (.clk :: raiseKinds) := by
  rw [refJudge, touches_look]
  intro s
  rcases refSeen s o k with ⟨cond, chk⟩
  exact ⟨touches_setClk (by decide) _, touches_fset (by decide) _ _ _ _, (touches_onlyIf _ _).mpr fun _ => ⟨touches_fset (by decide) _ _ _ _,
    touches_raise_of (by decide) _ _ _ _ _⟩⟩

section
variable {o : RefObs} {s t : State}

/-- What is seen of REF1 depends on its rate, the rate in force and the range that is asked for. -/
theorem refSeen_congr (h1 : F.CLK_REF1_RATE.get 0 t = F.CLK_REF1_RATE.get 0 s) (hf : F.CLK_FRANGE_FRANGE.get 0 t = F.CLK_FRANGE_FRANGE.get 0 s)
    (hr : fsHz (rated t) = fsHz (rated s)) : refSeen t o 1 = refSeen s o 1 := by
  have hrate : refRate t 1 = refRate s 1 := by rw [refRate, refRate, if_pos rfl, if_pos rfl, Fld.on, h1, hr, Fld.on]
  have hfreq : refFreq t o 1 = refFreq s o 1 := by simp only [refFreq, hrate]
  simp only [refSeen, refPresent, refInRange, hrate, hfreq, hf]

theorem fsHz_rated_congr (ht : t.tick = s.tick) (hr : running t = running s) (hc : R.TICK_CFG.val 0 t = R.TICK_CFG.val 0 s) :
    fsHz (rated t) = fsHz (rated s) := by
  simp only [rated, hr, ht, hc]
  split <;> simp only [fsHz, ht]

theorem fsHz_setClk (f : ClkState → ClkState) (s : State) : fsHz (rated ((setClk f).run s)) = fsHz (rated s) :=
  fsHz_rated_congr rfl (by rw [running, Fld.on, get_setClk, running, Fld.on]) (val_congr rfl ..)

/-- The judgement of another reference leaves what is seen of REF1. -/
theorem refJudge_seen (o : RefObs) (k : Nat) (s : State) : refSeen ((refJudge o k).run s) o 1 = refSeen s o 1 ∧
    F.CLK_FRANGE_QMS.get 0 ((refJudge o k).run s) = F.CLK_FRANGE_QMS.get 0 s := by
  have hval (r : Reg) (h : WordsOut judgeWords r 0 0) : r.val 0 ((refJudge o k).run s) = r.val 0 s := val_stores (refJudge_stores o k) h s
  have hrange := hval R.CLK_FRANGE (out_zero rfl rfl (by decide) 0 0)
  have hrate := hval R.CLK_REF1 (out_zero rfl rfl (by decide) 0 0)
  have hrun := hval R.TICK_STAT (out_zero rfl rfl (by decide) 0 0)
  have hcfg := hval R.TICK_CFG (out_zero rfl rfl (by decide) 0 0)
  have htick : ((refJudge o k).run s).tick = s.tick := touches_tick (refJudge_touches o k) (by decide) (by decide) s
  generalize (refJudge o k).run s = t at hrange hrate hrun hcfg htick ⊢
  have hget (f : Fld) (h : f.reg.val 0 t = f.reg.val 0 s) : f.get 0 t = f.get 0 s := by rw [Fld.get, h, Fld.get]
  refine ⟨refSeen_congr (hget F.CLK_REF1_RATE hrate) (hget F.CLK_FRANGE_FRANGE hrange) (fsHz_rated_congr htick ?_ hcfg), hget F.CLK_FRANGE_QMS hrange⟩
  rw [running, Fld.on, hget F.TICK_STAT_RUNNING hrun, running, Fld.on]

/-- A millisecond that completes the time asked for makes REF1 valid (R468). -/
theorem refJudge_first (hv : refValid s 1 = false) (hs : refSeen s o 1 = (true, true))
    (hq : F.CLK_FRANGE_QMS.get 0 s ≤ smGet (fun _ => 0) s.clk.good 1 + 1) :
    Ref1Good (smGet (fun _ => 0) s.clk.good 1 + 1) ((refJudge o 1).run s) := by
  have hrun : (refJudge o 1).run s = (refTaken 1 (smGet (fun _ => 0) s.clk.good 1 + 1) 0 true).run s := by
    rw [refJudge, run_look]
    simp only [hs, hv, decide_eq_true hq, Bool.and_self, if_true, Nat.one_ne_zero, if_false, Bool.false_eq_true, Bool.false_and, onlyIf_false]
    rfl
  rw [hrun]
  refine ⟨?_, ?_⟩
  · rw [refValid, refTaken, run_look, run_seq]
    exact bitOf_get_put (by decide) (by decide) ..
  · rw [refTaken, run_look, run_seq, clk_fset, clk_setClk]
    exact get_insert_self ..

/-- The other judgements leave it so. -/
theorem refJudges_first (hv : refValid s 1 = false) (hs : refSeen s o 1 = (true, true))
    (hq : F.CLK_FRANGE_QMS.get 0 s ≤ smGet (fun _ => 0) s.clk.good 1 + 1) :
    Ref1Good (smGet (fun _ => 0) s.clk.good 1 + 1) ((forEach (List.range 4) (refJudge o)).run s) := by
  have hother {k n : Nat} (hk : 1 ≠ k) : (refJudge o k).Preserves (Ref1Good n) := fun u h => by
    obtain ⟨hval, hgood⟩ := refJudge_other o (j := 1) (by decide) hk u
    exact ⟨hval.trans h.1, hgood.trans h.2⟩
  have hlist : List.range 4 = [0, 1, 2, 3] := rfl
  rw [hlist, run_forEach_cons, run_forEach_cons, run_forEach_cons, run_forEach_cons, run_forEach_nil]
  obtain ⟨hval, hgood⟩ := refJudge_other o (k := 0) (j := 1) (by decide) (by decide) s
  obtain ⟨hseen, hqms⟩ := refJudge_seen o 0 s
  have hone := refJudge_first (o := o) (hval.trans hv) (hseen.trans hs) (by rw [hqms, hgood]; exact hq)
  rw [hgood] at hone
  exact hother (by decide) _ (hother (by decide) _ hone)

/-- One evaluation makes REF1 valid, whatever becomes of the selection and the loop (R468, R470). -/
theorem refEvaluate_valid (hu : s.clk.up = true) (hp : passed s.clk.evalAt (msCycles 1 s) s = true) (hv : refValid s 1 = false)
    (hs : refSeen s o 1 = (true, true)) (hq : F.CLK_FRANGE_QMS.get 0 s ≤ smGet (fun _ => 0) s.clk.good 1 + 1) :
    Ref1Good (smGet (fun _ => 0) s.clk.good 1 + 1) ((refEvaluate o).run s) := by
  have hjudged := refJudges_first (o := o) (s := (setClk fun c => { c with evalAt := s.elapsed }).run s) hv
    ((refSeen_congr (get_setClk ..) (get_setClk ..) (fsHz_setClk ..)).trans hs) hq
  rw [refEvaluate, run_look, hu, hp, if_neg (by decide), acts_four]
  refine ref1_histMs _ (preserves_onlyIf (preserves_acts ?_) _ hjudged)
  simp only [List.forall_mem_cons, List.not_mem_nil, false_implies, implies_true, and_true]
  exact ⟨preserves_onlyIf (ref1_fset (by decide) rfl _), ref1_refChoose, preserves_look fun _ => preserves_onlyIf (ref1_loopMs o)⟩

end

/-- Settles O43: one lemma for each of the commands; what a raise can change lies outside the clock unit. -/
theorem clockCommandsComplete : Obligations.ClockCommandsComplete := by
  intro m s
  refine ⟨fun o hu hp _ hv hs hq => ⟨_, rfl, refEvaluate_valid hu hp hv hs hq⟩, fun k hk hf hd => ⟨_, rfl, stepAdvance_advances hk hf hd⟩,
    fun hs hh => ⟨_, rfl, ?_⟩, fun p hp => ⟨_, rfl, ?_⟩, fun p hp => ⟨_, rfl, ?_⟩, fun hl => ⟨_, rfl, ?_⟩,
    fun hreach hu hf hst => ⟨_, rfl, ?_⟩, fun hreach => ⟨_, rfl, ?_⟩, fun mask n hreach hb he => ⟨_, rfl, ?_⟩,
    fun n v hreach hf hp => ⟨_, rfl, ?_⟩, fun v hreach hr hl => ⟨_, rfl, ?_⟩, fun n hi hb => ⟨_, rfl, ?_⟩⟩
  · rw [run_look]
    exact holdExpired_enters hs hh
  · cases p with
    | a =>
      obtain ⟨hl, hb, hh⟩ := lockA_locks hp
      exact ⟨hl, hb, fun _ => hh⟩
    | b =>
      obtain ⟨hl, hb⟩ := lockB_locks hp
      exact ⟨hl, hb, fun h => nomatch h⟩
    | c =>
      obtain ⟨hl, hb⟩ := lockC_locks hp
      exact ⟨hl, hb, fun h => nomatch h⟩
  · cases p with
    | a => exact unlockA hp
    | b => exact unlockB hp
    | c => exact unlockC hp
  · rw [run_look, hl, onlyIf_true]
    rfl
  · obtain ⟨b, r, l, w, hrun⟩ := arrive_atTarget hreach 0xF (putBits (R.CLK_CTRL.val 0 s) 0 0 1)
      (wrClkCtrl m (putBits (R.CLK_CTRL.val 0 s) 0 0 1) (fullMask 1))
    rw [run_look, hrun]
    exact clkCtrl_forces (s := atTarget b r l w s) hu hf hst
  · obtain ⟨b, r, l, w, hrun⟩ := arrive_atTarget hreach 0xF (putBits (R.CLK_CTRL.val 0 s) 0 0 0)
      (wrClkCtrl m (putBits (R.CLK_CTRL.val 0 s) 0 0 0) (fullMask 1))
    rw [run_look, hrun]
    exact clkCtrl_releases m (atTarget b r l w s)
  · obtain ⟨b, r, l, w, hrun⟩ := arrive_atTarget hreach 0xF mask.toNat (wrClkAlign mask.toNat)
    obtain ⟨hmis, hpend⟩ := wrClkAlign_aligns n.isLt (s := atTarget b r l w s) hb he
    rw [hrun]
    exact ⟨hmis, hpend⟩
  · obtain ⟨b, r, l, w, hrun⟩ := arrive_atTarget hreach 0xF v.toNat (wrClkOut m n v.toNat (fullMask 1))
    rw [hrun]
    exact wrClkOut_stores n.isLt m v.toNat (s := atTarget b r l w s) hf ((outPast_atTarget ..).trans hp)
  · obtain ⟨b, r, l, w, hrun⟩ := arrive_atTarget hreach 0xF v.toNat (wrClkPlla m v.toNat (fullMask 1))
    rw [hrun]
    exact wrClkPlla_relocks m v.toNat (s := atTarget b r l w s) hr hl
  · obtain ⟨hone, hnear⟩ := slew_near (Config.freeNat s.free)
    obtain ⟨hmis, hpend⟩ := setMis_aligns n.isLt hone { s with free := s.free + 1 }
    have hrun : (Act.look fun s => onlyIf (!F.CLK_CTRL_INSVC.on 0 s && bitOf (F.CLK_ALIGNPEND_PEND.get 0 s) n)
        (draw fun r => setMis n ((r % 3 : Nat) - 1) 1)).run s =
          (setMis n (((Config.freeNat s.free % 3 : Nat) : Int) - 1) 1).run { s with free := s.free + 1 } := by
      rw [run_look, hi, hb, Bool.not_false, Bool.and_self, onlyIf_true]
      rfl
    rw [hrun, hmis]
    exact ⟨hnear, hpend⟩

end Sys2Proof.Machine
end

