-- ==== Sys2Proof/Proofs/ItemRuns.lean ====
section
/-! SUPPORT. Cells granted and items taken by a requester, with what that leaves of memory and of the other units (R356–R361). -/

namespace Sys2Proof.Machine

/-- What granting a cell and taking an item change besides registers: the pool, the codewords, and what an event reaches. -/
abbrev itemKinds : List Kind := .pool :: .ecc :: raiseKinds

theorem touches_setTag (c : Nat) (t : Word) : (setTag c t).Touches itemKinds := ⟨touches_setPool (by decide) _, touches_setEcc (by decide) _⟩

theorem touches_queueMark_items (q : Nat) : (queueMark q).Touches itemKinds := fun _ =>
  ⟨touches_setPool (by decide) _, (touches_onlyIf _ _).mpr fun _ => touches_rset (by decide) _ _ _ _,
    (touches_onlyIf _ _).mpr fun _ => touches_raise_of (by decide) _ _ _ _ _⟩

theorem setTag_marks {s : State} (h : s.ecc.marks = []) (c : Nat) (t : Word) : ((setTag c t).run s).ecc.marks = [] := by
  show s.ecc.marks.filter _ = []
  rw [h]
  rfl

/-- An act that takes a cell or an item of one cell: it is made of the updates of items, and it leaves memory and the codewords good. -/
structure TakesItem (a : Act) (s : State) : Prop where
  made : a.MadeOf Upd.ofItems
  touches : a.Touches itemKinds
  stores : a.Stores poolWords
  clean : (a.run s).ecc.marks = []

section
variable {q req c : Nat} {s : State}

/-- The grant of one cell to a private engine. -/
theorem allocCells_one (h : GrantsCell q c s) (req : Nat) : ∃ a : Act, TakesItem a s ∧
    ∀ k fail, (allocCells q req 1 k fail).run s = (k [c]).run (a.run s) := by
  obtain ⟨hitem, hwhole, hroom, hbank, hhead, hsome, hclean⟩ := h
  have hon : qEn (queueAt s q) = true := (Bool.and_eq_true_iff.mp hitem).1
  have hbanks : (((List.range 4).map fun i => (qHome (queueAt s q) + i) % 4).find? fun b => !bankClosed s b && freeHead s b ≠ 0) =
      some (qHome (queueAt s q) % 4) := List.find?_cons_of_pos (by simp [hbank, hhead, hsome])
  have hcount : countFree.Touches raiseKinds := by
    have hmark : poolMark.Touches raiseKinds := by
      rw [poolMark, touches_look]
      intro u
      dsimp only
      split <;> simp
    simp [countFree, hmark]
  refine ⟨acts [setFree (qHome (queueAt s q) % 4) (tagLink (tagOf s c)) (freeCells s (qHome (queueAt s q) % 4) - 1),
    setTag c (mkTag true false false req q), setQueue q fun x => { x with used := x.used + 1 }, countFree],
    ⟨?_, ⟨touches_setPool (by decide) _, touches_setTag _ _, touches_setPool (by decide) _, touches_mono hcount (by decide)⟩,
      ⟨stores_setPool _, stores_setTag _ _, stores_setQueue _ _, stores_countFree⟩, ?_⟩, fun k fail => ?_⟩
  · exact madeOf_cons (items_setPool _) <| madeOf_cons (items_setTag _ _) <| madeOf_cons (items_setQueue _ _) <|
      madeOf_cons items_countFree madeOf_nil
  · rw [acts_four, touches_ecc hcount (by decide) (by decide)]
    exact setTag_marks (s := (setFree (qHome (queueAt s q) % 4) (tagLink (tagOf s c)) (freeCells s (qHome (queueAt s q) % 4) - 1)).run s) hclean c _
  · rw [allocCells, allocCell, run_look]
    dsimp only
    rw [hwhole, hon, if_neg (by decide), if_neg (by omega), hbanks]
    dsimp only
    rw [hhead, readTag_clean hclean, if_pos rfl, acts_five, acts_four]
    rfl

/-- The item of one cell at the head of a queue is taken. -/
theorem popItem_one (h : HoldsItem req q c s) : ∃ a : Act, TakesItem a s ∧
    ∀ n k, (popItem req q (n + 1) k).run s = (k [c]).run (a.run s) := by
  obtain ⟨hitem, hwhole, hfree, hhead, hsome, hcell, hdepth, hlast, hclean⟩ := h
  have hcells : itemCells s (queueAt s q).depth c = [c] := by
    obtain ⟨n, hn⟩ := Nat.exists_eq_succ_of_ne_zero hdepth.ne'
    simp [hn, itemCells, hsome, hlast]
  refine ⟨acts [setQueue q (pastHead c (tagLink (tagOf s c))), setTag c (mkTag true true false req q),
    setQueue q fun x => { x with depth := x.depth - 1 }, queueMark q, setPool fun p => { p with popped := smErase p.popped req }],
    ⟨?_, ⟨touches_setPool (by decide) _, touches_setTag _ _, touches_setPool (by decide) _, touches_queueMark_items q, touches_setPool (by decide) _⟩,
      ⟨stores_setQueue _ _, stores_setTag _ _, stores_setQueue _ _, stores_queueMark q, stores_setPool _⟩, ?_⟩, fun n k => ?_⟩
  · exact madeOf_cons (items_setQueue _ _) <| madeOf_cons (items_setTag _ _) <| madeOf_cons (items_setQueue _ _) <|
      madeOf_cons (items_queueMark q) <| madeOf_cons (items_setPool _) madeOf_nil
  · have hmark : (queueMark q).Touches (.pool :: raiseKinds) := fun _ =>
      ⟨touches_setPool (by decide) _, (touches_onlyIf _ _).mpr fun _ => touches_rset (by decide) _ _ _ _,
        (touches_onlyIf _ _).mpr fun _ => touches_raise_of (by decide) _ _ _ _ _⟩
    have hpool (f : PoolState → PoolState) (u : State) : ((setPool f).run u).ecc = u.ecc := rfl
    rw [acts_five, hpool, touches_ecc hmark (by decide) (by decide)]
    exact setTag_marks (s := (setQueue q (pastHead c (tagLink (tagOf s c)))).run s) hclean c _
  · have hbit : bitOf (2 ^ 31 + 2 ^ 30 + c) 30 = true := by
      unfold bitOf
      rw [show (2 ^ 31 + 2 ^ 30 + c) / 2 ^ 30 % 2 = 1 by omega]
      rfl
    have hmod : (2 ^ 31 + 2 ^ 30 + c) % 65536 = c := by omega
    have hcond : ¬ 2 ^ 31 + 2 ^ 30 + c < 2 ^ 31 := by omega
    have hpop (k : Option Nat → Act) : (popCell req q k).run s =
        (takeCell req q c [] fun v => k (some v)).run ((setQueue q (pastHead c (tagLink (tagOf s c)))).run s) := by
      rw [popCell, run_look, hfree]
      dsimp only
      rw [hwhole, hhead, if_neg (by decide), if_neg hsome, hcells]
      rfl
    have hlast' : tagLast (tagOf ((setQueue q (pastHead c (tagLink (tagOf s c)))).run s) c) = true := hlast
    have hclean' : ((setQueue q (pastHead c (tagLink (tagOf s c)))).run s).ecc.marks = [] := hclean
    rw [popItem, hpop, takeCell, readTag_clean hclean', if_pos rfl, hlast', acts_five, acts_five]
    dsimp only
    rw [show b2n true = 1 from rfl, Nat.one_mul, if_neg hcond, hbit, if_pos rfl, hmod]
    rfl

/-- Memory is as it was. -/
theorem TakesItem.mem {a : Act} (h : TakesItem a s) : (a.run s).mem = s.mem := touches_mem h.touches (by decide) (by decide) s

/-- The bytes of the item are read with no codeword in error. -/
theorem TakesItem.read {a : Act} (h : TakesItem a s) (id : Nat) (cs : List Nat) (k : List Byte → Act) :
    (cellsTake id cs k).run (a.run s) = (k (cellsRead s cs)).run (a.run s) := by
  have hread : cellsRead (a.run s) cs = cellsRead s cs := by rw [cellsRead, h.mem, cellsRead]
  rw [cellsTake, run_look, h.clean, hread]
  rfl

end

end Sys2Proof.Machine
end

