-- ==== Sys2Proof/Proofs/T1sPort.lean ====
section
/-! SUPPORT. The 10BASE-T1S port (R403–R406), and what events and items leave of it and of the Eztasia engine. -/

namespace Sys2Proof.Machine

/-! ### What events and items leave -/

/-- The state of the port and of the engine is the same, but for a MUTE that the safe state may ask for (R531). -/
def MuteOnly (x : T1sState) (t : State) : Prop := ∃ b, t.t1s = { x with safeMute := b }

section
variable {x : T1sState}

theorem muteOnly_touches {ks : List Kind} {a : Act} (h : a.Touches ks) (hk : Kind.t1s ∉ ks) (hn : Kind.nodeReset ∉ ks) :
    a.Preserves (MuteOnly x) := fun s ⟨b, hb⟩ => ⟨b, (touches_t1s h hk hn s).trans hb⟩

theorem muteOnly_fset (f : Fld) (i v : Nat) : (f.set i v).Preserves (MuteOnly x) :=
  muteOnly_touches (ks := [.reg]) (touches_fset (by decide) _ _ _ _) (by decide) (by decide)

theorem muteOnly_setSump (f : SumpState → SumpState) : (setSump f).Preserves (MuteOnly x) :=
  muteOnly_touches (ks := [.sump]) (touches_setSump (by decide) _) (by decide) (by decide)

theorem muteOnly_chanSafe (c : Nat) : (chanSafe c).Preserves (MuteOnly x) :=
  muteOnly_touches (ks := [.reg, .mods]) (by
    rw [chanSafe, touches_look]
    intro s
    dsimp only
    split <;> simp [chanDisable]) (by decide) (by decide)

theorem muteOnly_ropesRemoved : ropesRemoved.Preserves (MuteOnly x) :=
  muteOnly_touches (ks := [.reg, .rope]) (by
    rw [ropesRemoved, touches_look]
    intro s
    split <;> simp) (by decide) (by decide)

theorem muteOnly_pairSafe : pairSafe.Preserves (MuteOnly x) :=
  muteOnly_touches (ks := [.reg, .pair, .sump]) (by
    rw [pairSafe, touches_look]
    intro s
    split <;> simp [releaseOwn]) (by decide) (by decide)

theorem muteOnly_enterSafe : enterSafe.Preserves (MuteOnly x) := preserves_look fun s => preserves_ite preserves_done <| preserves_acts <| by
  simp only [List.forall_mem_cons, List.not_mem_nil, false_imp_iff, implies_true, and_true]
  refine ⟨muteOnly_fset _ _ _, preserves_forEach fun _ _ => muteOnly_chanSafe _, preserves_forEach fun _ _ => ?_, ?_, muteOnly_ropesRemoved,
    preserves_onlyIf fun t ⟨b, hb⟩ => ⟨true, ?_⟩, muteOnly_pairSafe⟩
  · exact muteOnly_touches (ks := [.reg, .mods]) (by simp [railSafe, railSend]) (by decide) (by decide)
  · exact muteOnly_touches (ks := [.sap]) (by simp [sdoSilent]) (by decide) (by decide)
  · show { t.t1s with safeMute := true } = _
    rw [hb]

theorem muteOnly_note (e : Ev) (d0 d1 d2 g : Nat) : (note e d0 d1 d2 g).Preserves (MuteOnly x) :=
  muteOnly_touches (ks := [.reg, .sump]) (by
    rw [note, touches_look]
    intro s
    simp only [touches_acts_cons, touches_acts_nil, and_true, touches_onlyIf]
    refine ⟨by simp, by simp, by simp, fun _ => ?_⟩
    split <;> simp) (by decide) (by decide)

theorem muteOnly_enterNodeFault : enterNodeFault.Preserves (MuteOnly x) :=
  muteOnly_touches (ks := [.reg, .sump, .pair]) (by
    rw [enterNodeFault, touches_look]
    intro s
    split
    · exact touches_done
    · refine ⟨touches_fset (by decide) _ _ _ _, ?_⟩
      exact touches_ite ⟨touches_setSump (by decide) _, touches_setPair (by decide) _⟩
        (touches_ite touches_done (touches_setSump (by decide) _))) (by decide) (by decide)

theorem muteOnly_raise (e : Ev) (d0 d1 d2 g : Nat) : (raise e d0 d1 d2 g).Preserves (MuteOnly x) := preserves_look fun s => preserves_acts <| by
  simp only [List.forall_mem_cons, List.not_mem_nil, false_imp_iff, implies_true, and_true]
  refine ⟨preserves_look fun _ => preserves_onlyIf <| preserves_acts ?_, muteOnly_note _ _ _ _ _,
    preserves_ite muteOnly_enterSafe (preserves_onlyIf muteOnly_enterNodeFault)⟩
  simp only [List.forall_mem_cons, List.not_mem_nil, false_imp_iff, implies_true, and_true]
  exact ⟨muteOnly_fset _ _ _, muteOnly_enterSafe, muteOnly_note _ _ _ _ _⟩

end

/-- Every word but those of the port and of the engine. -/
def offT1s (k : Nat) : Bool := outside 0x200D0000 0x200E0000 k

/-- The registers of the port and of the engine are the same, and so is their state but for a MUTE. -/
structure T1sKept (s t : State) : Prop where
  mute : MuteOnly s.t1s t
  words : ∀ k, offT1s k = false → smFind t.regs k = smFind s.regs k

theorem T1sKept.refl (s : State) : T1sKept s s := ⟨⟨s.t1s.safeMute, rfl⟩, fun _ _ => rfl⟩

theorem T1sKept.trans {s t u : State} (h : T1sKept s t) (h' : T1sKept t u) : T1sKept s u := by
  obtain ⟨⟨b, hb⟩, hw⟩ := h
  obtain ⟨⟨b', hb'⟩, hw'⟩ := h'
  exact ⟨⟨b', by rw [hb', hb]⟩, fun k hk => (hw' k hk).trans (hw k hk)⟩

theorem T1sKept.get {s t : State} (h : T1sKept s t) {f : Fld} (hr : f.reg.within 0x200D0000 0x200E0000 = true) {i : Nat}
    (hi : i < dimsCount f.reg.dims) : f.get i t = f.get i s := by
  have hout : WordsOut offT1s f.reg i 0 := within_out hr hi 0
  unfold Fld.get Reg.val Reg.word smGet
  congr 2
  exact List.map_congr_left fun w hw => by rw [h.words _ (hout w (List.mem_range.mp hw))]

theorem offT1s_raise {k : Nat} (h : raiseRegs k = true) : offT1s k = true := by
  have b1 : R.ROPE_STAT.base = 0x20060008 := rfl
  have b2 : R.PAIR_STAT.base = 0x20110008 := rfl
  have b3 : R.PAIR_HIST.base = 0x2011000C := rfl
  simp only [raiseRegs, Bool.or_eq_true, Bool.and_eq_true, decide_eq_true_eq] at h
  simp only [offT1s, outside, Bool.or_eq_true, decide_eq_true_eq]
  omega

theorem t1sKept_raise (e : Ev) (d0 d1 d2 g : Nat) (s : State) : T1sKept s ((raise e d0 d1 d2 g).run s) :=
  ⟨muteOnly_raise e d0 d1 d2 g s ⟨_, rfl⟩, fun _ hk => find_stores (stores_mono (stores_raise e d0 d1 d2 g) fun _ => offT1s_raise) hk s⟩

theorem keeper_t1s (s : State) : Keeper Upd.ofPorts (T1sKept s) where
  upd u t hu h := h.trans ⟨⟨t.t1s.safeMute, by cases u <;> first | rfl | exact hu.elim⟩, fun j hj => by
    cases u with
    | reg k v =>
      have hu : portWords k = true := hu
      simp only [portWords, Bool.or_eq_true, Bool.and_eq_true, decide_eq_true_eq] at hu
      simp only [offT1s, outside, Bool.or_eq_false_iff, decide_eq_false_iff_not] at hj
      exact find_insert_ne _ _ (by omega)
    | nodeReset => exact hu.elim
    | _ => rfl⟩
  raise e d0 d1 d2 g t h := h.trans (t1sKept_raise e d0 d1 d2 g t)

theorem t1sKept_ports {a : Act} (h : a.MadeOf Upd.ofPorts) (s : State) : T1sKept s (a.run s) := h _ (keeper_t1s s) s (.refl s)

theorem t1sKept_items {a : Act} (h : a.MadeOf Upd.ofItems) (s : State) : T1sKept s (a.run s) := t1sKept_ports (ports_of_items h) s

/-! ### Reception -/

theorem ports_wakeCheck {src : Nat} {f : Frame} {k : Bool → Act} (h : ∀ b, (k b).MadeOf Upd.ofPorts) :
    (wakeCheck src f k).MadeOf Upd.ofPorts := madeOf_look fun s => by
  dsimp only
  split
  · exact h false
  · exact madeOf_cons (ports_fset (f := F.ETH_WAKE_STAT_LAST) (by decide) (by decide) _) <|
      madeOf_cons (ports_fset (f := F.ETH_WAKE_STAT_HIT) (by decide) (by decide) _) <|
      madeOf_cons (madeOf_forEach fun _ _ => madeOf_raise _ _ _ _ _) <| madeOf_cons (h true) madeOf_nil

theorem wakeCheck_touches {src : Nat} {f : Frame} {k : Bool → Act} (h : ∀ b, (k b).Touches raiseKinds) :
    (wakeCheck src f k).Touches raiseKinds := fun s => by
  dsimp only
  split
  · exact h false
  · exact ⟨touches_fset (by decide) _ _ _ _, touches_fset (by decide) _ _ _ _, touches_forEach_of fun _ => touches_raise _ _ _ _ _, h true⟩

/-- The words that a match of a pattern can change. -/
def wakeWords (k : Nat) : Bool := raiseRegs k || k == 0x200C5200

theorem wakeCheck_stores {src : Nat} {f : Frame} {k : Bool → Act} (h : ∀ b, (k b).Stores wakeWords) : (wakeCheck src f k).Stores wakeWords := by
  have hin : WordsIn wakeWords R.ETH_WAKE_STAT 0 0 := fun w hw => by
    have hw : w < 1 := hw
    obtain rfl : w = 0 := by omega
    rw [key_zero rfl rfl]
    decide
  rw [wakeCheck, stores_look]
  intro s
  dsimp only
  split
  · exact h false
  · exact ⟨stores_fset (f := F.ETH_WAKE_STAT_LAST) hin _, stores_fset (f := F.ETH_WAKE_STAT_HIT) hin _,
      stores_forEach_of fun _ => stores_mono (stores_raise _ _ _ _ _) fun k hk => by simp [wakeWords, hk], h true⟩

section
variable {q c : Nat} {s t : State}

theorem GrantsCell.congr (h : GrantsCell q c s) (hp : t.pool = s.pool) (he : t.ecc = s.ecc)
    (hc : F.POOL_WMSTAT_CLOSED.get 0 t = F.POOL_WMSTAT_CLOSED.get 0 s) : GrantsCell q c t := by
  obtain ⟨hitem, hwhole, hroom, hbank, hhead, hsome, hclean⟩ := h
  have hq : queueAt t q = queueAt s q := queueAt_congr hp q
  exact ⟨by rw [hq]; exact hitem, by rw [hq]; exact hwhole, by rw [hq]; exact hroom, by rw [hq, bankClosed, hc]; exact hbank,
    by rw [hq, freeHead, hp]; exact hhead, hsome, by rw [he]; exact hclean⟩

/-- A frame that meets the wake patterns leaves what its cells are granted by. -/
theorem wake_grants (h : GrantsCell (F.EZ_Q_RPLQ.get 0 s) c s) (f : Frame) : let v := (wakeCheck 1 f fun _ => .done).run s
    GrantsCell (F.EZ_Q_RPLQ.get 0 v) c v ∧ F.T1S_CNT_COUNT.get 0 v = F.T1S_CNT_COUNT.get 0 s := by
  have ht : (wakeCheck 1 f fun _ => .done).Touches raiseKinds := wakeCheck_touches fun _ => touches_done
  have hs : (wakeCheck 1 f fun _ => .done).Stores wakeWords := wakeCheck_stores fun _ => stores_done
  have hk := t1sKept_ports (ports_wakeCheck (src := 1) (f := f) fun _ => madeOf_done) s
  dsimp only
  rw [hk.get (by decide) (by decide), hk.get (f := F.T1S_CNT_COUNT) (by decide) (by decide)]
  exact ⟨h.congr (touches_pool ht (by decide) (by decide) s) (touches_ecc ht (by decide) (by decide) s)
    (get_stores hs (out_zero rfl rfl (by decide) 0 0) s), rfl⟩

theorem cellsFor_short {f : Frame} (h : f.length ≤ 240) : cellsFor f.length = 1 := by
  unfold cellsFor
  omega

/-- A good frame of one cell is counted (R403). -/
theorem t1sRx_counts {f : Frame} (ts : Nat) (he : F.T1S_CFG_EN.on 0 s = true) (h : GrantsCell (F.EZ_Q_RPLQ.get 0 s) c s) (h64 : 64 ≤ f.length)
    (h240 : f.length ≤ 240) (hf : fcsOk f = true) :
    F.T1S_CNT_COUNT.get 0 ((t1sRx f ts).run s) = satInc 32 (F.T1S_CNT_COUNT.get 0 s) 1 := by
  obtain ⟨hgrant, hcnt⟩ := wake_grants h f
  generalize hv : (wakeCheck 1 f fun _ => .done).run s = v at hgrant hcnt
  obtain ⟨a, ha, hrun⟩ := allocCells_one hgrant t1sId
  have hpre := t1sKept_items ha.made v
  have hwrite (bs : List Byte) (u : State) := t1sKept_items (items_cellsWrite t1sId [c] bs) u
  have hfree (u : State) := t1sKept_items (items_freeCells t1sId [c]) u
  rw [t1sRx, run_look, he, if_neg (by decide), if_neg (by omega), if_neg (by omega), hf, if_neg (by decide), run_seq, hv, run_look]
  dsimp only
  rw [hgrant.item, if_pos rfl, cellsFor_short h240, hrun, acts_three, (hfree _).get (by decide) (by decide), t1sCnt,
    get_inc_same F.T1S_CNT_COUNT (by decide), (hwrite _ _).get (by decide) (by decide), hpre.get (by decide) (by decide), hcnt]
  rfl

end

/-! ### Transmission -/

section
variable {s : State} {f : Frame} {rest : List Frame}

theorem muteFirst_off (h : s.t1s.safeMute = false) : muteFirst.run s = s := by
  rw [muteFirst, run_look, h]
  rfl

theorem cnt_t1s (k : Nat) (s : State) : ((t1sCnt k).run s).t1s = s.t1s := by rw [t1sCnt, inc_frame]

theorem get_setT1s (g : Fld) (f : T1sState → T1sState) (i : Nat) (s : State) : g.get i ((setT1s f).run s) = g.get i s := rfl

theorem get_ezLeft (g : Fld) (f : Frame) (i : Nat) (s : State) : g.get i ((ezLeft f).run s) = g.get i s := rfl

theorem ezLeft_t1s (f : Frame) (s : State) : ∃ o d, ((ezLeft f).run s).t1s = { s.t1s with out := o, discover := d } := ⟨_, _, rfl⟩

/-- The frame at the head leaves the port (R404). -/
theorem t1sSent_sends (h : s.t1s.queue = f :: rest) : let t := t1sSent.run s
    (∃ o d, t.t1s = { s.t1s with queue := rest, colls := 0, backoff := none, lastTx := f, out := o, discover := d }) ∧
    F.T1S_CNT_COUNT.get 5 t = satInc 32 (F.T1S_CNT_COUNT.get 5 s) 1 := by
  have hrun : t1sSent.run s = (ezLeft f).run ((setT1s fun t => { t with queue := rest, colls := 0, backoff := none, lastTx := f }).run
      ((t1sCnt 5).run s)) := by
    rw [t1sSent, run_look, h]
    rfl
  have hset (g : T1sState → T1sState) (u : State) : ((setT1s g).run u).t1s = g u.t1s := rfl
  dsimp only
  rw [hrun, get_ezLeft, get_setT1s, t1sCnt, get_inc_same F.T1S_CNT_COUNT (by decide)]
  refine ⟨?_, rfl⟩
  obtain ⟨o, d, ho⟩ := ezLeft_t1s f ((setT1s fun t => { t with queue := rest, colls := 0, backoff := none, lastTx := f }).run
    ((F.T1S_CNT_COUNT.inc 5).run s))
  refine ⟨o, d, ?_⟩
  rw [ho, hset, inc_frame]

/-- A collision starts a backoff (R404). -/
theorem t1sCollide_backs (ho : t1sOn s = true) (hb : s.t1s.backoff = none) (hq : s.t1s.queue = f :: rest) (hc : s.t1s.colls ≠ 15) :
    ∃ b at_, (t1sCollide.run s).t1s = { s.t1s with colls := s.t1s.colls + 1, backoff := some b, backoffAt := at_ } ∧
      b < 2 ^ min (s.t1s.colls + 1) 10 := by
  have hrun : t1sCollide.run s = (draw fun r => setT1s fun t => { t with
      colls := s.t1s.colls + 1, backoff := some (r % 2 ^ min (s.t1s.colls + 1) 10), backoffAt := s.elapsed }).run ((t1sCnt 6).run s) := by
    rw [t1sCollide, run_look, hq]
    dsimp only
    rw [ho, hb, if_neg (by decide), run_seq, if_neg (by omega)]
  refine ⟨Config.freeNat s.free % 2 ^ min (s.t1s.colls + 1) 10, s.elapsed, ?_, Nat.mod_lt _ (Nat.two_pow_pos _)⟩
  have hfree : ((t1sCnt 6).run s).free = s.free := by rw [t1sCnt, inc_frame]
  have hdraw (k : Nat → Act) (u : State) : (draw k).run u = (k (Config.freeNat u.free)).run { u with free := u.free + 1 } := rfl
  have hset (g : T1sState → T1sState) (u : State) : ((setT1s g).run u).t1s = g u.t1s := rfl
  rw [hrun, hdraw, hset, hfree]
  dsimp only
  rw [cnt_t1s]

/-- The sixteenth collision of a frame discards it (R404). -/
theorem t1sCollide_gives (ho : t1sOn s = true) (hb : s.t1s.backoff = none) (hq : s.t1s.queue = f :: rest) (hc : s.t1s.colls = 15) :
    let t := t1sCollide.run s
    t.t1s.queue = rest ∧ t.t1s.colls = 0 ∧ EvSet .T1S_EXCESS_COLL t := by
  have hrun : t1sCollide.run s = (raise .T1S_EXCESS_COLL).run ((t1sCnt 7).run ((ezLeft f).run
      ((setT1s fun t => { t with queue := rest, colls := 0 }).run ((t1sCnt 6).run s)))) := by
    rw [t1sCollide, run_look, hq]
    dsimp only
    rw [ho, hb, if_neg (by decide), run_seq, hc, if_pos rfl, acts_four]
  obtain ⟨o, d, hleft⟩ := ezLeft_t1s f ((setT1s fun t => { t with queue := rest, colls := 0 }).run ((t1sCnt 6).run s))
  obtain ⟨b, hmute⟩ := (t1sKept_raise .T1S_EXCESS_COLL 0 0 0 0 ((t1sCnt 7).run ((ezLeft f).run
    ((setT1s fun t => { t with queue := rest, colls := 0 }).run ((t1sCnt 6).run s))))).mute
  dsimp only
  rw [hrun]
  refine ⟨?_, ?_, raise_sets ..⟩
  · rw [hmute, cnt_t1s, hleft]
    rfl
  · rw [hmute, cnt_t1s, hleft]
    rfl

theorem nodeCount_two (s : State) : 2 ≤ nodeCount s := by
  unfold nodeCount
  dsimp only
  split
  · next h => exact h.1
  · decide

theorem entryOf_t1sCfg : entryOf R.T1S_CFG = ⟨R.T1S_CFG, [F.T1S_CFG_EN, F.T1S_CFG_PLCA, F.T1S_CFG_NODECNT, F.T1S_CFG_TO]⟩ := rfl

/-- A write of the configuration is stored while the port is off (R405). -/
theorem wrT1sCfg_stores (m v : Nat) (he : F.T1S_CFG_EN.on 0 s = false) : let t := (wrT1sCfg m v (fullMask 1)).run s
    F.T1S_CFG_EN.get 0 t = F.T1S_CFG_EN.of v ∧ F.T1S_CFG_PLCA.get 0 t = F.T1S_CFG_PLCA.of v ∧
      F.T1S_CFG_NODECNT.get 0 t = F.T1S_CFG_NODECNT.of v := by
  have hstored {f : Fld} (hm : f ∈ (entryOf R.T1S_CFG).flds) (hr : f.reg = R.T1S_CFG) (ha : f.acc = .rw) (hl : f.lk = false)
      (hu : f.unlisted = []) : f.get 0 ((storeWrite (entryOf R.T1S_CFG) 0 m v (fullMask 1) (R.T1S_CFG.addr 0)).run s) = f.of v :=
    stored_get (e := entryOf R.T1S_CFG) (n := 1) rfl (by rw [entryOf_t1sCfg]; unfold FldsOk; decide) (out_zero rfl rfl (by decide) 0 m) rfl hm hr
      ha (by rw [hl]; rfl) (by rw [hu]; exact List.not_mem_nil)
  have hset (g : Fld) (b : Bool) (f : T1sState → T1sState) (u : State) : g.get 0 ((onlyIf b (setT1s f)).run u) = g.get 0 u := by cases b <;> rfl
  have hrun : ∃ b, (wrT1sCfg m v (fullMask 1)).run s = (onlyIf b (setT1s fun t => { t with plcaId := none, backoff := none })).run
      ((storeWrite (entryOf R.T1S_CFG) 0 m v (fullMask 1) (R.T1S_CFG.addr 0)).run s) := by
    rw [wrT1sCfg, run_look]
    dsimp only
    rw [he, Bool.false_and, if_neg (by decide), run_seq]
    exact ⟨_, rfl⟩
  obtain ⟨b, hrun⟩ := hrun
  dsimp only
  rw [hrun, hset, hset, hset]
  exact ⟨hstored (by rw [entryOf_t1sCfg]; simp) rfl rfl rfl rfl, hstored (by rw [entryOf_t1sCfg]; simp) rfl rfl rfl rfl,
    hstored (by rw [entryOf_t1sCfg]; simp) rfl rfl rfl rfl⟩

end

/-- Settles O38: one lemma for each of the commands; an event changes nothing of the port but a MUTE that waits. -/
theorem t1sCommandsComplete : Obligations.T1sCommandsComplete := by
  intro m s
  refine ⟨fun f ts c hv hl he hg h64 h240 hf => ⟨_, rfl, ?_⟩, fun f rest ho hp hb hm hq => ⟨_, rfl, ?_⟩, fun f rest ho hb hq hc => ?_,
    fun f rest ho hb hq hc => ⟨_, rfl, t1sCollide_gives ho hb hq hc⟩, fun hp => ⟨_, rfl, ?_⟩, fun ho hp hi => ⟨_, rfl, ?_⟩,
    fun f rest ho hi hb hm hq => ⟨_, rfl, ?_⟩, fun k hi hp => ⟨_, rfl, ?_⟩, fun v hreach he => ⟨_, rfl, ?_⟩⟩
  · rw [t1sArrives, run_look, hv, hl, if_neg (by decide), if_neg (by decide)]
    exact t1sRx_counts ts.toNat he hg h64 h240 hf
  · obtain ⟨⟨o, d, ht⟩, hcnt⟩ := t1sSent_sends hq
    rw [run_look, ho, hp, hb, Bool.not_false, Bool.true_or, if_pos (by decide), run_seq, muteFirst_off hm]
    exact ⟨by rw [ht], by rw [ht], by rw [ht], hcnt⟩
  · obtain ⟨b, at_, ht, hlt⟩ := t1sCollide_backs ho hb hq hc
    exact ⟨_, b, rfl, by rw [ht], by rw [ht], by rw [ht], hlt⟩
  · rw [run_look, hp, onlyIf_true]
    exact ⟨rfl, rfl⟩
  · rw [run_look, ho, hp, hi]
    rfl
  · obtain ⟨⟨o, d, ht⟩, -⟩ := t1sSent_sends hq
    have h2 := nodeCount_two s
    have hset (g : T1sState → T1sState) (u : State) : ((setT1s g).run u).t1s = g u.t1s := rfl
    have hsends : (decide (0 = 0) && t1sOn s && s.t1s.backoff.isNone && (decide (s.t1s.queue ≠ []) || s.t1s.safeMute && ezOn s)) = true := by
      rw [ho, hb, hq]
      rfl
    rw [run_look, hi]
    dsimp only
    rw [hsends, Bool.not_true, Bool.false_and, if_neg (by decide), run_seq, onlyIf_true, run_seq, muteFirst_off hm, hset, ht]
    exact ⟨rfl, rfl, if_pos (by omega)⟩
  · have hset (g : T1sState → T1sState) (u : State) : ((setT1s g).run u).t1s = g u.t1s := rfl
    have hsends (b : Bool) : (decide (k + 1 = 0) && t1sOn s && s.t1s.backoff.isNone && b) = false := by simp
    rw [run_look, hi]
    dsimp only
    rw [hsends, hp, if_neg (by decide), run_seq, onlyIf_false, run_done, hset]
    exact ⟨rfl, rfl⟩
  · obtain ⟨b, r, l, w, hrun⟩ := arrive_atTarget hreach 0xF v.toNat (wrT1sCfg m v.toNat (fullMask 1))
    rw [hrun]
    exact wrT1sCfg_stores (s := atTarget b r l w s) m v.toNat he

end Sys2Proof.Machine
end

