-- ==== Sys2Proof/Proofs/Eztasia.lean ====
section
/-! SUPPORT. The commands of the Eztasia engine (R407–R412). -/

namespace Sys2Proof.Machine

theorem t1s_setT1s (f : T1sState → T1sState) (s : State) : ((setT1s f).run s).t1s = f s.t1s := rfl

theorem t1s_fset (f : Fld) (i v : Nat) (s : State) : ((f.set i v).run s).t1s = s.t1s := by rw [fset_frame]

/-! ### Transactions -/

section
variable {a : Nat} {s t : State}

/-- The frame of a message rests on the address of the node and of the element. -/
theorem ezFrame_congr (hm : t.t1s.macs = s.t1s.macs) (ha : F.ETH_MAC_ADDR.get 0 t = F.ETH_MAC_ADDR.get 0 s)
    (he : F.EZ_CFG_ETYPE.get 0 t = F.EZ_CFG_ETYPE.get 0 s) (a : Nat) (m : List Byte) : ezFrame t a m = ezFrame s a m := by
  unfold ezFrame
  rw [hm, ha, he]

/-- A transaction that starts takes the next SEQ and is outstanding at its element (R409). -/
theorem ezStart_t1s (a : Nat) (cells : List Nat) (m : List Byte) (s : State) : ((ezStart a cells m).run s).t1s = { s.t1s with
    seq := (s.t1s.seq + 1) % 65536
    queue := s.t1s.queue ++ [ezFrame s a (ezStamp m s.t1s.seq)]
    out := smInsert s.t1s.out a
      ⟨s.t1s.seq, ezStamp m s.t1s.seq, cells.isEmpty, F.EZ_TIME_RETRY.get 0 s, none, cells⟩ } := rfl

theorem ezSubmit_starts (h : smFind s.t1s.out a = none) (cells : List Nat) (m : List Byte) :
    (ezSubmit a cells m).run s = (ezStart a cells m).run s := by
  rw [ezSubmit, run_look, h]
  rfl

/-- While a transaction is outstanding the next one waits. -/
theorem ezSubmit_waits (h : (smFind s.t1s.out a).isSome = true) (cells : List Nat) (m : List Byte) :
    ((ezSubmit a cells m).run s).t1s.out = s.t1s.out := by
  rw [ezSubmit, run_look, h, if_pos rfl]
  split <;> rfl

/-- A submission for another element leaves what is outstanding at this one. -/
theorem ezSubmit_other {b : Nat} (hb : a ≠ b) (cells : List Nat) (m : List Byte) (s : State) :
    smFind ((ezSubmit b cells m).run s).t1s.out a = smFind s.t1s.out a := by
  cases ho : smFind s.t1s.out b with
  | none =>
    rw [ezSubmit_starts ho, ezStart_t1s]
    exact find_insert_ne _ _ hb
  | some x => rw [ezSubmit_waits (by rw [ho]; rfl)]

end

/-! ### Transactions of the host -/

section
variable {c ty : Nat} {s : State}

/-- The engine takes the item at the head of its queue, of a command that it holds (R408). -/
theorem ezHost_takes (ho : ezOn s = true) (hs : inSafe s = false) (h : HoldsItem t1sId (F.EZ_Q_CMDQ.get 0 s) c s)
    (hv : ezValid (cellsRead s [c]) = true) (hty : ezType (cellsRead s [c]) = ty) (ha : fieldBe (cellsRead s [c]) 4 1 < 32 ∨ fieldBe (cellsRead s [c]) 4 1 = 255) :
    ∃ u, T1sKept s u ∧ F.ETH_MAC_ADDR.get 0 u = F.ETH_MAC_ADDR.get 0 s ∧ (ezHost ty).run s =
      (if fieldBe (cellsRead s [c]) 4 1 < 32 then ezSubmit (fieldBe (cellsRead s [c]) 4 1) [c] (cellsRead s [c])
        else ezSend (fieldBe (cellsRead s [c]) 4 1) (cellsRead s [c]) fun seq _ => .seq
          (onlyIf (ezType (cellsRead s [c]) = 1) (setT1s fun t => { t with discover := t.discover ++ [(seq, none)] }))
          (freeCells_ t1sId [c])).run u := by
  obtain ⟨a, htake, hpop⟩ := popItem_one h
  have hpop (k : List Nat → Act) : (popItem t1sId (F.EZ_Q_CMDQ.get 0 s) 65536 k).run s = (k [c]).run (a.run s) := hpop 65535 k
  have hhead : ezHead s = some (cellsRead s [c]) := by
    have hread : cellsRead s [c] = memBytes s.mem (cellAddr c) 256 := by simp [cellsRead]
    unfold ezHead
    dsimp only
    rw [h.item, h.head, h.whole, hread, if_pos (by simp [h.some])]
  have hrest : (!ezOn s || inSafe s || ([0x01, 0x10, 0x12, 0x30].contains (ezType (cellsRead s [c])) && decide (ezType (cellsRead s [c]) ≠ ty))) = false := by
    rw [ho, hs, hty]
    simp
  have hbad : (!ezValid (cellsRead s [c]) || (decide (32 ≤ fieldBe (cellsRead s [c]) 4 1) && decide (fieldBe (cellsRead s [c]) 4 1 ≠ 255))) = false := by
    rw [hv]
    simp
    omega
  refine ⟨a.run s, t1sKept_items htake.made s, get_stores htake.stores (f := F.ETH_MAC_ADDR) (out_zero rfl rfl (by decide) 0 0) s, ?_⟩
  rw [ezHost, run_look, hhead]
  dsimp only
  rw [hrest, if_neg (by decide), hpop, if_neg (by simp), htake.read]
  rw [hbad, if_neg (by decide)]

/-- A transaction for one element (R409). -/
theorem ezHost_submits {a : Nat} (hlt : a < 32) (ho : ezOn s = true) (hs : inSafe s = false) (h : HoldsItem t1sId (F.EZ_Q_CMDQ.get 0 s) c s)
    (hv : ezValid (cellsRead s [c]) = true) (hty : ezType (cellsRead s [c]) = ty) (ha : fieldBe (cellsRead s [c]) 4 1 = a)
    (hout : smFind s.t1s.out a = none) : let t := (ezHost ty).run s
    t.t1s.seq = (s.t1s.seq + 1) % 65536 ∧
      smFind t.t1s.out a = some ⟨s.t1s.seq, ezStamp (cellsRead s [c]) s.t1s.seq, false, F.EZ_TIME_RETRY.get 0 s, none, [c]⟩ ∧
      t.t1s.queue = s.t1s.queue ++ [ezFrame s a (ezStamp (cellsRead s [c]) s.t1s.seq)] := by
  subst ha
  obtain ⟨u, hk, hmac, hrun⟩ := ezHost_takes ho hs h hv hty (.inl hlt)
  obtain ⟨b, hb⟩ := hk.mute
  have hframe (m : List Byte) : ezFrame u (fieldBe (cellsRead s [c]) 4 1) m = ezFrame s (fieldBe (cellsRead s [c]) 4 1) m :=
    ezFrame_congr (by rw [hb]) hmac (hk.get (by decide) (by decide)) _ m
  have hnone : smFind u.t1s.out (fieldBe (cellsRead s [c]) 4 1) = none := by rw [hb]; exact hout
  dsimp only
  rw [hrun, if_pos hlt, ezSubmit_starts hnone, ezStart_t1s, hframe, hk.get (f := F.EZ_TIME_RETRY) (by decide) (by decide), hb]
  exact ⟨rfl, find_insert_self .., rfl⟩

/-- A DISCOVER for all elements opens its window (R410). -/
theorem ezHost_discovers (ho : ezOn s = true) (hs : inSafe s = false) (h : HoldsItem t1sId (F.EZ_Q_CMDQ.get 0 s) c s)
    (hv : ezValid (cellsRead s [c]) = true) (hty : ezType (cellsRead s [c]) = 1) (ha : fieldBe (cellsRead s [c]) 4 1 = 255) :
    let t := (ezHost 1).run s
    t.t1s.discover = s.t1s.discover ++ [(s.t1s.seq, none)] ∧ t.t1s.seq = (s.t1s.seq + 1) % 65536 := by
  obtain ⟨u, hk, -, hrun⟩ := ezHost_takes ho hs h hv hty (.inr ha)
  obtain ⟨b, hb⟩ := hk.mute
  have hsend (k : Nat → List Byte → Act) (v : State) : (ezSend 255 (cellsRead s [c]) k).run v =
      (k v.t1s.seq (ezStamp (cellsRead s [c]) v.t1s.seq)).run ((setT1s fun t => { t with
        seq := (v.t1s.seq + 1) % 65536, queue := t.queue ++ [ezFrame v 255 (ezStamp (cellsRead s [c]) v.t1s.seq)] }).run v) := rfl
  dsimp only
  rw [hrun, ha, if_neg (by decide), hsend, run_seq, hty]
  have hfree (v : State) : ((freeCells_ t1sId [c]).run v).t1s.discover = v.t1s.discover ∧ ((freeCells_ t1sId [c]).run v).t1s.seq = v.t1s.seq := by
    obtain ⟨b, hb⟩ := (t1sKept_items (items_freeCells t1sId [c]) v).mute
    rw [hb]
    exact ⟨rfl, rfl⟩
  rw [(hfree _).1, (hfree _).2, decide_eq_true rfl, onlyIf_true, t1s_setT1s, t1s_setT1s, hb]
  exact ⟨rfl, rfl⟩

end

/-! ### Polls -/

/-- A poll is outstanding at element `a`. -/
def Polled (a : Nat) (s : State) : Prop := ∃ x, smFind s.t1s.out a = some x ∧ x.poll = true ∧ ezType x.msg = 0x20

theorem ezType_poll (seq a : Nat) : ezType (ezStamp (ezMsg 0x20 0 a 0xFE []) seq) = 0x20 := rfl

/-- The next poll of an element that is free. -/
theorem ezSubmit_polls {a : Nat} {s : State} (h : smFind s.t1s.out a = none ∨ Polled a s) : Polled a ((ezSubmit a [] (ezMsg 0x20 0 a 0xFE [])).run s) := by
  rcases h with h | ⟨x, hx, hp, ht⟩
  · rw [Polled, ezSubmit_starts h, ezStart_t1s]
    exact ⟨_, find_insert_self .., rfl, ezType_poll _ _⟩
  · rw [Polled, ezSubmit_waits (by rw [hx]; rfl)]
    exact ⟨x, hx, hp, ht⟩

/-- All enabled elements are polled (R411). -/
theorem ezPollAll_polls {a : Fin 32} {s : State} (ho : ezOn s = true) (hms : F.EZ_TIME_POLL_MS.get 0 s ≠ 0)
    (hp : passed s.t1s.pollAt (msCycles (F.EZ_TIME_POLL_MS.get 0 s) s) s = true) (he : F.EZ_ELEM_EN.on a s = true)
    (hout : smFind s.t1s.out a = none) : Polled a (ezPollAll.run s) := by
  have hother {b : Nat} {m : List Byte} (hb : (a : Nat) ≠ b) {Q : Option EzTrans → Prop} :
      (ezSubmit b [] m).Preserves fun u => Q (smFind u.t1s.out a) := fun u h => by
    show Q (smFind ((ezSubmit b [] m).run u).t1s.out a)
    rw [ezSubmit_other hb]
    exact h
  have hinv (b : Nat) : (ezSubmit b [] (ezMsg 0x20 0 b 0xFE [])).Preserves fun u => smFind u.t1s.out a = none ∨ Polled a u := fun u h => by
    by_cases hb : (a : Nat) = b
    · subst hb
      exact .inr (ezSubmit_polls h)
    · exact hother hb (Q := fun o => o = none ∨ ∃ x, o = some x ∧ x.poll = true ∧ ezType x.msg = 0x20) u h
  have hkeep (b : Nat) : (ezSubmit b [] (ezMsg 0x20 0 b 0xFE [])).Preserves (Polled a) := fun u h => by
    by_cases hb : (a : Nat) = b
    · subst hb
      exact ezSubmit_polls (.inr h)
    · exact hother hb (Q := fun o => ∃ x, o = some x ∧ x.poll = true ∧ ezType x.msg = 0x20) u h
  rw [ezPollAll, run_look]
  dsimp only
  rw [ho, decide_eq_false hms, hp, if_neg (by decide), run_seq]
  exact forEach_establishes (x := (a : Nat)) (List.mem_filter.mpr ⟨List.mem_range.mpr a.isLt, he⟩) (fun b _ => hinv b) (fun b _ => hkeep b)
    (fun _ => ezSubmit_polls) (.inl hout)

/-! ### Messages of elements -/

/-- What a message of element `a` leaves: the address it came from, its SEQ, and no other transaction waiting. -/
structure Heard (a : Nat) (src : BitVec 48) (seq : Nat) (t : State) : Prop where
  mac : smFind t.t1s.macs a = some src
  seq : F.EZ_ELEM_LASTSEQ.get a t = seq

section
variable {a : Nat} {src : BitVec 48} {seq : Nat} {msg : List Byte} {s t : State}

theorem Heard.kept (h : Heard a src seq s) (hk : T1sKept s t) (ha : a < 32) : Heard a src seq t := by
  obtain ⟨b, hb⟩ := hk.mute
  exact ⟨by rw [hb]; exact h.mac, (hk.get (by decide) ha).trans h.seq⟩

/-- A valid message of an element of the type asked for goes on, and its source is noted (R408, R409). -/
theorem ezFrom_run {ty : Nat} (ho : ezOn s = true) (hv : ezValid msg = true) (ha : fieldBe msg 5 1 = a) (hlt : a < 32) (ht : ezType msg = ty)
    (src : BitVec 48) (k : Nat → Nat → Act) : (ezFrom ty src.toNat msg k).run s =
      (k a (fieldBe msg 2 2)).run ((setT1s fun t => { t with macs := smInsert t.macs a src }).run s) := by
  rw [ezFrom, run_look, ho, if_neg (by decide), hv, ha, if_neg (by simp; omega), if_neg (by simp [ht]), run_seq, BitVec.ofNat_toNat,
    BitVec.setWidth_eq]

theorem fieldBe_two (m : List Byte) (i : Nat) : fieldBe m i 2 < 2 ^ 16 := by
  rw [fieldBe]
  have hle : ((m.drop i).take 2).length ≤ 2 := List.length_take_le ..
  generalize (m.drop i).take 2 = bs at hle ⊢
  match bs with
  | [] => decide
  | [x] =>
    have := x.isLt
    simp only [ofBe, List.foldl]
    omega
  | [x, y] =>
    have := x.isLt
    have := y.isLt
    simp only [ofBe, List.foldl]
    omega
  | _ :: _ :: _ :: _ => simp at hle

theorem lastSeq_heard (hmac : smFind s.t1s.macs a = some src) (hs : seq < 2 ^ 16) : Heard a src seq ((F.EZ_ELEM_LASTSEQ.set a seq).run s) :=
  ⟨by rw [t1s_fset]; exact hmac, get_set_same F.EZ_ELEM_LASTSEQ (by decide) hs a s⟩

theorem items_ezReply (m : List Byte) : (ezReply m).MadeOf Upd.ofItems := madeOf_look fun _ => items_storeItem fun _ => madeOf_done

/-- An ANNOUNCE in the window of its DISCOVER is pushed (R410). -/
theorem ezAnnounce_heard (ho : ezOn s = true) (hv : ezValid msg = true) (ha : fieldBe msg 5 1 = a) (hlt : a < 32) (ht : ezType msg = 2)
    (hd : fieldBe msg 2 2 ∈ s.t1s.discover.map (·.1)) (src : BitVec 48) :
    Heard a src (fieldBe msg 2 2) ((ezAnswer 2 src.toNat msg).run s) := by
  have hany : (s.t1s.discover.any fun d => d.1 = fieldBe msg 2 2) = true := by
    obtain ⟨d, hd, he⟩ := List.mem_map.mp hd
    exact List.any_eq_true.mpr ⟨d, hd, by simpa using he⟩
  have hheard : Heard a src (fieldBe msg 2 2) ((F.EZ_ELEM_LASTSEQ.set a (fieldBe msg 2 2)).run
      ((setT1s fun t => { t with macs := smInsert t.macs a src }).run s)) := lastSeq_heard (find_insert_self ..) (fieldBe_two _ _)
  have hrun : (ezAnswer 2 src.toNat msg).run s = (ezReply (msg.take (8 + fieldBe msg 6 2))).run
      ((F.EZ_ELEM_LASTSEQ.set a (fieldBe msg 2 2)).run ((setT1s fun t => { t with macs := smInsert t.macs a src }).run s)) := by
    rw [ezAnswer, ezFrom_run ho hv ha hlt ht, run_look, t1s_setT1s]
    dsimp only
    rw [hany, if_pos (by decide), run_seq]
  rw [hrun]
  exact hheard.kept (t1sKept_items (items_ezReply _) _) hlt

/-- An answer ends the transaction that is outstanding with its SEQ. -/
def answered (ty a seq : Nat) (x : EzTrans) (faults : SMap Nat) (msg : List Byte) : Act := acts [
  F.EZ_ELEM_LASTSEQ.set a seq,
  onlyIf (x.poll || ty = 0x21) (ezPresent a),
  onlyIf (!x.poll || (ty = 0x21 && smFind faults a ≠ some (fieldBe msg 10 2))) (ezReply (msg.take (8 + fieldBe msg 6 2))),
  onlyIf (ty = 0x21) (setT1s fun t => { t with faults := smInsert t.faults a (fieldBe msg 10 2) }),
  ezEnd a]

theorem ezAnswer_run {ty : Nat} {x : EzTrans} (ho : ezOn s = true) (hv : ezValid msg = true) (ha : fieldBe msg 5 1 = a) (hlt : a < 32)
    (ht : ezType msg = ty) (h2 : ty ≠ 2) (hx : smFind s.t1s.out a = some x) (hs : x.seq = fieldBe msg 2 2) (src : BitVec 48) :
    (ezAnswer ty src.toNat msg).run s = (answered ty a (fieldBe msg 2 2) x s.t1s.faults msg).run
      ((setT1s fun t => { t with macs := smInsert t.macs a src }).run s) := by
  rw [ezAnswer, ezFrom_run ho hv ha hlt ht, run_look, t1s_setT1s]
  dsimp only
  rw [decide_eq_false h2, Bool.false_and, if_neg (by decide), hx]
  dsimp only
  rw [if_neg (by simp [hs])]
  rfl

/-- The transaction of an element ends, and none was waiting for it. -/
theorem ezEnd_ends (hw : s.t1s.waiting = []) (a : Nat) : ∃ b, ((ezEnd a).run s).t1s = { s.t1s with out := smErase s.t1s.out a, safeMute := b } ∧
    ∀ k, offT1s k = false → smFind ((ezEnd a).run s).regs k = smFind s.regs k := by
  obtain ⟨cells, hrun⟩ : ∃ cells, (ezEnd a).run s = (freeCells_ t1sId cells).run ((setT1s fun t => { t with out := smErase t.out a }).run s) := by
    refine ⟨match smFind s.t1s.out a with | some x => x.cells | none => [], ?_⟩
    rw [ezEnd, run_look, hw]
    rfl
  have hk := t1sKept_items (items_freeCells t1sId cells) ((setT1s fun t => { t with out := smErase t.out a }).run s)
  obtain ⟨b, hb⟩ := hk.mute
  rw [hrun]
  exact ⟨b, by rw [hb, t1s_setT1s], fun k h => hk.words k h⟩

end

section
variable {a : Nat} {src : BitVec 48} {seq ty : Nat} {x : EzTrans} {faults : SMap Nat} {msg : List Byte} {s : State}

/-- The element is shown present (R411). -/
theorem ezPresent_state (a : Nat) (s : State) : ((ezPresent a).run s).t1s = { s.t1s with missed := smErase s.t1s.missed a } := by
  rw [ezPresent, run_look, run_seq, t1s_setT1s, t1s_fset]

theorem ezPresent_seq (ha : a < 32) (s : State) : F.EZ_ELEM_LASTSEQ.get a ((ezPresent a).run s) = F.EZ_ELEM_LASTSEQ.get a s := by
  rw [ezPresent, run_look, run_seq, get_setT1s,
    get_set_apart F.EZ_ELEM_LASTSEQ F.EZ_PRESENT_PRESENT (apart_of_away (by decide) ha (by decide) 0 0)]

theorem ezPresent_shown (ha : a < 32) (s : State) : bitOf (F.EZ_PRESENT_PRESENT.get 0 ((ezPresent a).run s)) a = true := by
  rw [ezPresent, run_look, run_seq, get_setT1s]
  exact bitOf_get_or (by decide) ha ..

/-- What stands before the transaction ends: the message is heard, and what waits is as it was. -/
theorem answered_heard (ha : a < 32) (hseq : seq < 2 ^ 16) (hmac : smFind s.t1s.macs a = some src) (hw : s.t1s.waiting = []) : ∃ u,
    (answered ty a seq x faults msg).run s = (ezEnd a).run u ∧ Heard a src seq u ∧ u.t1s.waiting = [] ∧
      (ty = 0x21 → bitOf (F.EZ_PRESENT_PRESENT.get 0 u) a = true ∧ smFind u.t1s.faults a = some (fieldBe msg 10 2)) := by
  rw [answered, acts_five]
  have h1 : Heard a src seq ((F.EZ_ELEM_LASTSEQ.set a seq).run s) := lastSeq_heard hmac hseq
  have hw1 : ((F.EZ_ELEM_LASTSEQ.set a seq).run s).t1s.waiting = [] := by rw [t1s_fset]; exact hw
  generalize (F.EZ_ELEM_LASTSEQ.set a seq).run s = u1 at h1 hw1 ⊢
  have h2 : let u := (onlyIf (x.poll || ty = 0x21) (ezPresent a)).run u1
      Heard a src seq u ∧ u.t1s.waiting = [] ∧ (ty = 0x21 → bitOf (F.EZ_PRESENT_PRESENT.get 0 u) a = true) := by
    cases hp : (x.poll || decide (ty = 0x21)) with
    | false => exact ⟨h1, hw1, fun h => by rw [decide_eq_true h, Bool.or_true] at hp; cases hp⟩
    | true =>
      rw [onlyIf_true]
      have hst := ezPresent_state a u1
      exact ⟨⟨by rw [hst]; exact h1.mac, (ezPresent_seq ha u1).trans h1.seq⟩, by rw [hst]; exact hw1, fun _ => ezPresent_shown ha u1⟩
  generalize (onlyIf (x.poll || ty = 0x21) (ezPresent a)).run u1 = u2 at h2 ⊢
  obtain ⟨h2, hw2, hp2⟩ := h2
  have hk : T1sKept u2 ((onlyIf (!x.poll || (ty = 0x21 && smFind faults a ≠ some (fieldBe msg 10 2)))
      (ezReply (msg.take (8 + fieldBe msg 6 2)))).run u2) := t1sKept_items (madeOf_onlyIf (items_ezReply _)) u2
  generalize (onlyIf (!x.poll || (ty = 0x21 && smFind faults a ≠ some (fieldBe msg 10 2)))
    (ezReply (msg.take (8 + fieldBe msg 6 2)))).run u2 = u3 at hk ⊢
  obtain ⟨b, hb⟩ := hk.mute
  have h3 := h2.kept hk ha
  have hw3 : u3.t1s.waiting = [] := by rw [hb]; exact hw2
  have hp3 : ty = 0x21 → bitOf (F.EZ_PRESENT_PRESENT.get 0 u3) a = true := fun h => by rw [hk.get (by decide) (by decide)]; exact hp2 h
  refine ⟨_, rfl, ?_⟩
  by_cases hty : ty = 0x21
  · rw [decide_eq_true hty, onlyIf_true]
    exact ⟨⟨h3.mac, h3.seq⟩, hw3, fun h => ⟨hp3 h, find_insert_self ..⟩⟩
  · rw [decide_eq_false hty, onlyIf_false]
    exact ⟨h3, hw3, fun h => absurd h hty⟩

/-- The answer with the SEQ outstanding ends its transaction (R409–R411). -/
theorem ezAnswer_ends (ho : ezOn s = true) (hv : ezValid msg = true) (ha : fieldBe msg 5 1 = a) (hlt : a < 32)
    (ht : ezType msg = ty) (h2 : ty ≠ 2) (hx : smFind s.t1s.out a = some x) (hs : x.seq = fieldBe msg 2 2) (hw : s.t1s.waiting = [])
    (src : BitVec 48) : let t := (ezAnswer ty src.toNat msg).run s
    smFind t.t1s.out a = none ∧ Heard a src (fieldBe msg 2 2) t ∧
      (ty = 0x21 → bitOf (F.EZ_PRESENT_PRESENT.get 0 t) a = true ∧ smFind t.t1s.faults a = some (fieldBe msg 10 2)) := by
  obtain ⟨u, hrun, hheard, hwait, hshown⟩ := answered_heard (ty := ty) (x := x) (faults := s.t1s.faults) (msg := msg) (src := src) hlt
    (fieldBe_two msg 2) (s := (setT1s fun t => { t with macs := smInsert t.macs a src }).run s) (find_insert_self ..) hw
  obtain ⟨b, hend, hwords⟩ := ezEnd_ends hwait a
  have hget {f : Fld} (hr : f.reg.within 0x200D0000 0x200E0000 = true) {i : Nat} (hi : i < dimsCount f.reg.dims) :
      f.get i ((ezEnd a).run u) = f.get i u := by
    have hout : WordsOut offT1s f.reg i 0 := within_out hr hi 0
    unfold Fld.get Reg.val Reg.word smGet
    congr 2
    exact List.map_congr_left fun w hw => by rw [hwords _ (hout w (List.mem_range.mp hw))]
  dsimp only
  rw [ezAnswer_run ho hv ha hlt ht h2 hx hs, hrun, hget (f := F.EZ_PRESENT_PRESENT) (by decide) (by decide), hend]
  exact ⟨find_erase_self .., ⟨by rw [hend]; exact hheard.mac, (hget (f := F.EZ_ELEM_LASTSEQ) (by decide) hlt).trans hheard.seq⟩, hshown⟩

/-- A FAULT is raised (R412). -/
theorem ezFault_raised (ho : ezOn s = true) (hv : ezValid msg = true) (ha : fieldBe msg 5 1 = a) (hlt : a < 32) (ht : ezType msg = 0x40)
    (src : BitVec 48) : let t := (ezFrom 0x40 src.toNat msg fun a _ =>
      .seq (ezReply (msg.take (8 + fieldBe msg 6 2))) (raise .EZ_FAULT a (fieldBe msg 8 2))).run s
    smFind t.t1s.macs a = some src ∧ EvSet .EZ_FAULT t := by
  have hk := (t1sKept_items (items_ezReply (msg.take (8 + fieldBe msg 6 2))) ((setT1s fun t => { t with macs := smInsert t.macs a src }).run s)).trans
    (t1sKept_raise .EZ_FAULT a (fieldBe msg 8 2) 0 0 _)
  obtain ⟨b, hb⟩ := hk.mute
  dsimp only
  rw [ezFrom_run ho hv ha hlt ht, run_seq]
  refine ⟨?_, raise_sets ..⟩
  rw [hb]
  exact find_insert_self ..

/-- A message that is not answered is sent again while retries are left (R409). -/
theorem ezExpire_resends (ho : ezOn s = true) (hx : smFind s.t1s.out a = some x) (hd : ezDue s x.sentAt = true) (hl : 0 < x.left) :
    ((ezExpire a).run s).t1s = { s.t1s with
      out := smInsert s.t1s.out a { x with left := x.left - 1, sentAt := none }, queue := s.t1s.queue ++ [ezFrame s a x.msg] } := by
  rw [ezExpire, run_look, hx]
  dsimp only
  rw [ho, hd, if_neg (by decide), if_pos hl]
  rfl

end

/-- Settles O39: the four host commands are one lemma, and so are the answers; items and events change nothing of the engine but a MUTE
that waits. -/
theorem eztasiaCommandsComplete : Obligations.EztasiaCommandsComplete := by
  intro a src msg s ho
  refine ⟨fun i ty c hi hs h hv hty ha hout => ?_, fun c hs h hv hty ha => ⟨_, rfl, ezHost_discovers ho hs h hv hty ha⟩,
    fun hms hp he hout => ?_, fun hv ha ht hd => ⟨_, rfl, ?_⟩, fun i ty x hi hv ha ht hx hs hw => ?_,
    fun x hv ha ht hx hs hw => ⟨_, rfl, ?_⟩, fun hv ha ht => ⟨_, rfl, ezFault_raised ho hv ha a.isLt ht src⟩,
    fun x hx hd hl => ⟨_, rfl, ?_⟩, fun d rest hd hdue => ⟨_, rfl, ?_⟩⟩
  · have hsub := ezHost_submits a.isLt ho hs h hv hty ha hout
    simp only [List.mem_cons, Prod.mk.injEq, List.not_mem_nil, or_false] at hi
    rcases hi with ⟨rfl, rfl⟩ | ⟨rfl, rfl⟩ | ⟨rfl, rfl⟩ | ⟨rfl, rfl⟩ <;> exact ⟨_, rfl, hsub⟩
  · obtain ⟨x, hx⟩ := ezPollAll_polls ho hms hp he hout
    exact ⟨_, x, rfl, hx⟩
  · have h := ezAnnounce_heard ho hv ha a.isLt ht hd src
    exact ⟨h.mac, h.seq⟩
  · have hne : ty ≠ 2 := by
      rintro rfl
      simp at hi
    obtain ⟨hend, hheard, -⟩ := ezAnswer_ends ho hv ha a.isLt ht hne hx hs hw src
    simp only [List.mem_cons, Prod.mk.injEq, List.not_mem_nil, or_false] at hi
    rcases hi with ⟨rfl, rfl⟩ | ⟨rfl, rfl⟩ | ⟨rfl, rfl⟩ <;> exact ⟨_, rfl, hend, hheard.mac, hheard.seq⟩
  · obtain ⟨hend, -, hshown⟩ := ezAnswer_ends ho hv ha a.isLt ht (by decide) hx hs hw src
    exact ⟨hend, hshown rfl⟩
  · rw [ezExpire_resends ho hx hd hl]
    exact ⟨find_insert_self .., rfl⟩
  · rw [run_look, hd]
    dsimp only
    rw [hdue, onlyIf_true]
    exact ⟨rfl, rfl⟩

end Sys2Proof.Machine
end

