-- ==== Sys2Proof/Proofs/SwitchItems.lean ====
section
/-! SUPPORT. A frame that the host pushed for the switch, while the list of values of MAXLEN holds one that no frame meets (R381, R393). -/

namespace Sys2Proof.Machine

/-- The switch is awake and its queue from the host is queue 7; VLAN 0 has P4 as its member, and MAXLEN of the frames is 0. -/
def noFrameFits : State :=
  let s := (acts [F.PWR_STAT_PHASE.set 0 3, F.ETH_P4TX_QUEUE.set 0 7, F.ETH_VLAN_EN.set 0 1, F.ETH_VLAN_VID.set 0 0,
    F.ETH_VLAN_MEMBER.set 0 31]).run State.reset
  { s with
    mem := [⟨cellAddr 1, 64⟩]
    elapsed := 1000000
    eth := { s.eth with maxLens := [(0, 0)] }
    pool := { s.pool with
      queues := [(7, { poolQReset with cfg := 0x8000000000000010#64, head := 1, tail := 1, used := 1, depth := 1 })]
      tags := [(1, mkTag true true true 0 0)] } }

/-- The item that the queue holds is one cell. -/
theorem noFrameFits_holds : HoldsItem swId (F.ETH_P4TX_QUEUE.get 0 noFrameFits) 1 noFrameFits where
  item := by decide +kernel
  whole := by decide +kernel
  free := by decide +kernel
  head := by decide +kernel
  some := by decide
  cell := by decide
  depth := by decide +kernel
  last := by decide +kernel
  clean := rfl

/-- The frame is dropped as too long, so it is not counted as received. -/
theorem noFrameFits_drops : F.ETH_PCNT_COUNT.get 36 (p4TxItem.run noFrameFits) = 0 := by decide +kernel

/-- Refutes O36: the statement asks of a frame from the host only that it has at most 240 bytes, not that MAXLEN of the state admits it. -/
theorem not_ethernetCommandsComplete : ¬ Obligations.EthernetCommandsComplete := by
  unfold Obligations.EthernetCommandsComplete
  intro h
  obtain ⟨-, -, -, -, -, -, -, -, -, -, -, -, -, hitem, -⟩ := h 0 0 noFrameFits
  obtain ⟨t, ht, hcount, -⟩ := hitem 1 0 (by decide +kernel) noFrameFits_holds (by decide +kernel) (by decide +kernel) (by decide +kernel)
    (by decide +kernel)
  have hrun : p4TxItem.run noFrameFits = t := Host.Outcome.next.inj ht
  have hone : satInc 32 (F.ETH_PCNT_COUNT.get 36 noFrameFits) 1 = 1 := by decide +kernel
  rw [← hrun, noFrameFits_drops, hone] at hcount
  exact absurd hcount (by decide)

end Sys2Proof.Machine
end

