-- ==== Sys2Proof/Proofs/StreamHeader.lean ====
section
/-! SUPPORT. The header that a Coleel frame of the node carries (R419). -/

namespace Sys2Proof.Machine

/-! ### Fields of frames -/

theorem fieldBe_append_left {xs : List Byte} {i n : Nat} (h : i + n ≤ xs.length) (ys : List Byte) : fieldBe (xs ++ ys) i n = fieldBe xs i n := by
  rw [fieldBe, fieldBe, List.drop_append_of_le_length (by omega), List.take_append_of_le_length (by rw [List.length_drop]; omega)]

theorem fieldBe_append_right (xs ys : List Byte) (i n : Nat) : fieldBe (xs ++ ys) (xs.length + i) n = fieldBe ys i n := by
  rw [fieldBe, fieldBe, List.drop_append, List.drop_eq_nil_of_le (by omega), List.nil_append, Nat.add_sub_cancel_left]

theorem fieldBe_past {xs : List Byte} {i : Nat} (h : xs.length ≤ i) (n : Nat) : fieldBe xs i n = 0 := by
  rw [fieldBe, List.drop_eq_nil_of_le h, List.take_nil]
  rfl

theorem bytesBe_length (n v : Nat) : (bytesBe n v).length = n := by simp [bytesBe, bytesLe]

/-- A field of the payload of a frame with a tag stands 18 bytes into the frame. -/
theorem fieldBe_mkFrame {dst src tci etype i n : Nat} {payload : List Byte} (h : i + n ≤ payload.length) :
    fieldBe (mkFrame dst src (some tci) etype payload) (18 + i) n = fieldBe payload i n := by
  let head : List Byte := bytesBe 6 dst ++ bytesBe 6 src ++ (bytesBe 2 tagType ++ bytesBe 2 tci) ++ bytesBe 2 etype
  have hlen : head.length = 18 := by simp [head, bytesBe_length]
  have hin : 18 + i + n ≤ (head ++ payload).length := by
    rw [List.length_append]
    omega
  show fieldBe (head ++ payload ++ List.replicate _ 0 ++ bytesLe 4 _) (18 + i) n = _
  rw [List.append_assoc, fieldBe_append_left hin, ← hlen, fieldBe_append_right]

/-! ### The statement -/

/-- The tick runs in a node that stands alone; its number is 5, and entry 0 sends frames of one sample for stream 0. -/
def streamSends : State :=
  (acts [F.PWR_STAT_PHASE.set 0 3, F.TICK_STAT_RUNNING.set 0 1, F.CLT_STAT_ACCEPT.set 0 1, F.CLT_ID_NODE.set 0 5,
    R.CLT_TXCFG.setLive 0 (2 ^ 63 + 2 ^ 49)]).run State.reset

/-- The number of the stream, which is 0, stands 6 bytes into the payload. -/
theorem streamSends_stream : fieldBe (cltTxAt ((cltTxFrame 0 0).run streamSends) 0).lastTx 24 2 = 0 := by decide +kernel

/-- Refutes O40: the node and pair identifiers stand in bytes 2 and 4 of a Coleel header, while the statement asks for them in bytes 4 and
6; byte 6 begins the number of the stream. -/
theorem not_streamCommandsComplete : ¬ Obligations.StreamCommandsComplete := by
  unfold Obligations.StreamCommandsComplete
  intro h
  obtain ⟨-, -, -, -, hsend, -⟩ := h 0 0 [] 0 streamSends
  obtain ⟨t, payload, ht, -, hframe, -, hpair, hdue, -⟩ := hsend 0 0 (by decide +kernel) (by decide +kernel) (by decide +kernel)
    (by decide +kernel) ⟨0, by decide +kernel, by decide⟩
  have hrun : (cltTxFrame 0 0).run streamSends = t := Host.Outcome.next.inj ht
  have hlong : 12 < payload.length := by
    by_contra hshort
    rw [fieldBe_past (Nat.le_of_not_lt hshort)] at hdue
    exact absurd hdue (by decide +kernel)
  have hsolo : fieldBe payload 6 2 = 5 := hpair.trans (by decide +kernel)
  have hzero : fieldBe payload 6 2 = 0 := by
    rw [if_pos (by decide +kernel), if_pos (by decide +kernel)] at hframe
    beta_reduce at hframe
    rw [← fieldBe_mkFrame (by omega), ← hframe, ← hrun]
    exact streamSends_stream
  omega

end Sys2Proof.Machine
end

