-- ==== Sys2Proof/Proofs/ManagementAgent.lean ====
section
/-! SUPPORT. The management agent: what its requests and answers leave of it, and its access to the aging limit (R394–R399). -/

namespace Sys2Proof.Machine

/-- Every word but those of the management agent. -/
def offAgent (k : Nat) : Bool := outside 0x200C6000 0x200C6100 k

/-- The agent has the same request in progress, and its registers are the same. -/
structure AgentKept (s t : State) : Prop where
  mgmt : t.eth.mgmt = s.eth.mgmt
  words : ∀ k, offAgent k = false → smFind t.regs k = smFind s.regs k

theorem AgentKept.refl (s : State) : AgentKept s s := ⟨rfl, fun _ _ => rfl⟩

theorem AgentKept.trans {s t u : State} (h : AgentKept s t) (h' : AgentKept t u) : AgentKept s u :=
  ⟨h'.mgmt.trans h.mgmt, fun k hk => (h'.words k hk).trans (h.words k hk)⟩

theorem AgentKept.get {s t : State} (h : AgentKept s t) {f : Fld} (hr : f.reg.within 0x200C6000 0x200C6100 = true) {i : Nat}
    (hi : i < dimsCount f.reg.dims) : f.get i t = f.get i s := by
  have hout : WordsOut offAgent f.reg i 0 := within_out hr hi 0
  unfold Fld.get Reg.val Reg.word smGet
  congr 2
  exact List.map_congr_left fun w hw => by rw [h.words _ (hout w (List.mem_range.mp hw))]

/-! ### What keeps the agent -/

theorem offAgent_raise {k : Nat} (h : raiseRegs k = true) : offAgent k = true := by
  have b1 : R.ROPE_STAT.base = 0x20060008 := rfl
  have b2 : R.PAIR_STAT.base = 0x20110008 := rfl
  have b3 : R.PAIR_HIST.base = 0x2011000C := rfl
  simp only [raiseRegs, Bool.or_eq_true, Bool.and_eq_true, decide_eq_true_eq] at h
  simp only [offAgent, outside, Bool.or_eq_true, decide_eq_true_eq]
  omega

theorem agentKept_raise (e : Ev) (d0 d1 d2 g : Nat) (s : State) : AgentKept s ((raise e d0 d1 d2 g).run s) :=
  ⟨by rw [touches_eth (touches_raise e d0 d1 d2 g) (by decide) (by decide)],
    fun _ hk => find_stores (stores_mono (stores_raise e d0 d1 d2 g) fun _ => offAgent_raise) hk s⟩

theorem keeper_agent (s : State) : Keeper Upd.ofItems (AgentKept s) where
  upd u t hu h := h.trans ⟨by cases u <;> first | rfl | exact hu.elim, fun j hj => by
    cases u with
    | reg k v =>
      have hu : itemWords k = true := hu
      simp only [itemWords, Bool.or_eq_true, Bool.and_eq_true, decide_eq_true_eq] at hu
      simp only [offAgent, outside, Bool.or_eq_false_iff, decide_eq_false_iff_not] at hj
      exact find_insert_ne _ _ (by omega)
    | nodeReset => exact hu.elim
    | _ => rfl⟩
  raise e d0 d1 d2 g t h := h.trans (agentKept_raise e d0 d1 d2 g t)

theorem agentKept_items {a : Act} (h : a.MadeOf Upd.ofItems) (s : State) : a.Preserves (AgentKept s) := h _ (keeper_agent s)

theorem agentKept_setEth {f : EthState → EthState} (h : ∀ e, (f e).mgmt = e.mgmt) (s : State) : (setEth f).Preserves (AgentKept s) :=
  fun _ ht => ht.trans ⟨h _, fun _ _ => rfl⟩

theorem agentKept_setPort {p : Nat} {f : EthPort → EthPort} (s : State) : (setPort p f).Preserves (AgentKept s) :=
  agentKept_setEth (fun _ => by rfl) s

theorem pcnt_key {p k : Nat} (hp : p < 5) (hk : k < 9) (w : Nat) (hw : w < 1) :
    F.ETH_PCNT_COUNT.reg.key (9 * p + k) w 0 < 0x200C2000 := by
  have hkey : F.ETH_PCNT_COUNT.reg.key (9 * p + k) w 0 = 0x200C0100 + ((9 * p + k) / 9 * 0x400 + (9 * p + k) % 9 * 4) + 4 * w := by
    simp [Reg.key, Reg.addr, F.ETH_PCNT_COUNT, R.ETH_PCNT, dimsOfs, dimsCount]
  rw [hkey]
  omega

theorem agentKept_pcnt {p k : Nat} (hp : p < 5) (hk : k < 9) (s : State) : (pcnt p k).Preserves (AgentKept s) := fun t ht => by
  refine ht.trans ⟨by rw [pcnt, inc_frame], fun j hj => ?_⟩
  have hw : (pcnt p k).Stores fun k => decide (k < 0x200C2000) := stores_inc (fun w hw => decide_eq_true (pcnt_key hp hk w hw)) 1
  refine find_stores hw ?_ t
  simp only [offAgent, outside, Bool.or_eq_false_iff, decide_eq_false_iff_not] at hj
  exact decide_eq_false (by omega)

/-! ### Frames of the agent -/

section
variable {i : Nat} {x : EthItem} {s : State}

theorem agentKept_enqueueAll {ps : List Nat} (hps : ∀ p ∈ ps, p < 5) {k : List Nat → Act} (hk : ∀ l, (k l).Preserves (AgentKept s)) :
    (enqueueAll i x ps k).Preserves (AgentKept s) := by
  induction ps generalizing k with
  | nil => exact hk []
  | cons p ps ih =>
    obtain ⟨hp, hps⟩ := List.forall_mem_cons.mp hps
    have hrest (ok : Bool) : (enqueueAll i x ps fun rest => k (if ok then p :: rest else rest)).Preserves (AgentKept s) :=
      ih hps fun _ => hk _
    exact preserves_look fun t => preserves_ite (preserves_seq (agentKept_pcnt hp (by decide) s) (hrest false))
      (preserves_seq (agentKept_setPort s) (hrest true))

/-- A frame of the node's own goes to the ports and to nobody within. -/
theorem agentKept_forward {f : Frame} {ts : Nat} (s : State) : (forwardFrame 4 x f ts).Preserves (AgentKept s) := by
  have hdrop : (freeCells_ swId x.cells).Preserves (AgentKept s) := agentKept_items (items_freeCells _ _) s
  have hvlan : (Act.seq (pcnt 4 5) (freeCells_ swId x.cells)).Preserves (AgentKept s) :=
    preserves_seq (agentKept_pcnt (by decide) (by decide) s) hdrop
  refine preserves_look fun t => ?_
  dsimp only
  split
  · exact hvlan
  · refine preserves_ite hvlan (preserves_seq (agentKept_pcnt (by decide) (by decide) s) (preserves_look fun u => ?_))
    simp only [show ¬ (4 : Nat) < 4 by decide, decide_false, Bool.false_and, Bool.false_eq_true, if_false]
    refine preserves_ite hvlan (preserves_ite hdrop (preserves_look fun w => preserves_seq (agentKept_setEth (fun _ => by rfl) s)
      (agentKept_enqueueAll (fun p hp => ?_) fun took => ?_)))
    · have := (List.mem_filter.mp hp).2
      have : p < 4 := by simpa using this
      omega
    · rw [if_neg (by simp)]
      exact preserves_ite (preserves_seq (agentKept_setEth (fun _ => by rfl) s) (preserves_onlyIf hdrop)) (agentKept_setEth (fun _ => by rfl) s)

end

/-- A response that is sent ends the request and stores the count `n` of answers. -/
theorem responds_ends (f : Frame) (vid pcp : Nat) (cells : List Nat) {n : Nat} (hn : n < 65536) (s : State) :
    let t := (acts [setEth fun e => { e with mgmt := none, lastResp := f }, p4Send f 2 vid pcp false, F.ETH_MGMT_CNT_DONE.set 0 n,
      freeCells_ swId cells]).run s
    t.eth.mgmt = none ∧ F.ETH_MGMT_CNT_DONE.get 0 t = n ∧ F.ETH_MGMT_CNT_BAD.get 0 t = F.ETH_MGMT_CNT_BAD.get 0 s := by
  let u := (p4Send f 2 vid pcp false).run ((setEth fun e => { e with mgmt := none, lastResp := f }).run s)
  have hsent : AgentKept ((setEth fun e => { e with mgmt := none, lastResp := f }).run s) u := agentKept_forward _ _ (.refl _)
  have hfreed : AgentKept ((F.ETH_MGMT_CNT_DONE.set 0 n).run u)
      ((freeCells_ swId cells).run ((F.ETH_MGMT_CNT_DONE.set 0 n).run u)) := agentKept_items (items_freeCells _ _) _ _ (.refl _)
  dsimp only
  rw [acts_four]
  refine ⟨?_, ?_, ?_⟩
  · rw [hfreed.mgmt, fset_frame]
    exact hsent.mgmt
  · rw [hfreed.get (by decide) (by decide)]
    exact get_set_same F.ETH_MGMT_CNT_DONE (by decide) hn 0 u
  · rw [hfreed.get (by decide) (by decide), get_set_other F.ETH_MGMT_CNT_BAD F.ETH_MGMT_CNT_DONE rfl (by decide), hsent.get (by decide) (by decide)]
    rfl

/-- An answer ends the request and counts it. -/
theorem mgmtAnswer_ends (r : MgmtReq) (op status : Nat) (s : State) : let t := (mgmtAnswer r op status).run s
    t.eth.mgmt = none ∧ F.ETH_MGMT_CNT_DONE.get 0 t = (F.ETH_MGMT_CNT_DONE.get 0 s + 1) % 65536 ∧
    F.ETH_MGMT_CNT_BAD.get 0 t = F.ETH_MGMT_CNT_BAD.get 0 s :=
  responds_ends _ r.vid r.pcp r.cells (Nat.mod_lt _ (by decide)) s

/-! ### Accesses -/

/-- The last access of a request completes. -/
theorem mgmtStep_ends {r : MgmtReq} {s : State} (hm : s.eth.mgmt = some r) (ha : asleep s = false) (hp : accessPends 2 s = false)
    (hc : r.count ≤ r.done + 1) : let t := mgmtStep.run s
    t.eth.mgmt = none ∧ F.ETH_MGMT_CNT_DONE.get 0 t = (F.ETH_MGMT_CNT_DONE.get 0 s + 1) % 65536 := by
  have hlast : ∃ r' op status, mgmtStep.run s = (mgmtAnswer r' op status).run s := by
    rw [mgmtStep, run_look, hm, ha, hp]
    dsimp only
    rw [if_neg (by decide), if_neg (by omega)]
    exact ⟨_, _, _, rfl⟩
  obtain ⟨r', op, status, hrun⟩ := hlast
  obtain ⟨hnone, hdone, -⟩ := mgmtAnswer_ends r' op status s
  dsimp only
  rw [hrun]
  exact ⟨hnone, hdone⟩

theorem agentKept_dropWaits (id : Nat) (s : State) : (dropWaits id).Preserves (AgentKept s) := fun _ ht => ht.trans ⟨rfl, fun _ _ => rfl⟩

theorem agentKept_noteAbort (id a n : Nat) (wr : Bool) (s : State) : (noteAbort id a n wr).Preserves (AgentKept s) := by
  have hreg (v : Nat) : (R.XBAR_ABORT.set 0 v).Preserves (AgentKept s) := fun u hu => hu.trans
    ⟨by rw [rset_frame], fun k hk => find_stores (stores_rset (A := offAgent) (by unfold WordsIn; decide) v) hk u⟩
  refine preserves_acts ?_
  simp only [List.forall_mem_cons, List.not_mem_nil, false_imp_iff, implies_true, and_true]
  refine ⟨hreg _, ?_, fun u hu => hu.trans (agentKept_raise _ _ _ _ _ u)⟩
  split
  · exact fun u hu => hu.trans ⟨rfl, fun _ _ => rfl⟩
  · exact preserves_done

/-- A reset of the agent's accesses leaves the agent. -/
theorem agentKept_masterReset (id : Nat) (s : State) : (masterReset id).Preserves (AgentKept s) := preserves_look fun t => by
  split
  · refine preserves_acts ?_
    simp only [List.forall_mem_cons, List.not_mem_nil, false_imp_iff, implies_true, and_true]
    exact ⟨agentKept_dropWaits id s, agentKept_noteAbort _ _ _ _ s⟩
  · exact preserves_done

/-- A request that has lasted too long is given up and counted. -/
theorem mgmtAbort_ends {r : MgmtReq} {s : State} (hm : s.eth.mgmt = some r) (ha : asleep s = false)
    (hp : passed r.since (msCycles (max 1 (F.ETH_MGMT_Q_TMO.get 0 s)) s) s = true) : let t := mgmtAbort.run s
    t.eth.mgmt = none ∧ F.ETH_MGMT_CNT_BAD.get 0 t = satInc 16 (F.ETH_MGMT_CNT_BAD.get 0 s) 1 ∧
    F.ETH_MGMT_CNT_DONE.get 0 t = (F.ETH_MGMT_CNT_DONE.get 0 s + 1) % 65536 := by
  have hrun : mgmtAbort.run s = (mgmtAnswer r (if r.write then 2 else 1) 3).run ((F.ETH_MGMT_CNT_BAD.inc 0).run ((masterReset 2).run s)) := by
    rw [mgmtAbort, run_look, hm]
    dsimp only
    rw [ha, hp, Bool.not_false, Bool.and_true, onlyIf_true, acts_three]
  obtain ⟨hnone, hdone, hbad⟩ := mgmtAnswer_ends r (if r.write then 2 else 1) 3 ((F.ETH_MGMT_CNT_BAD.inc 0).run ((masterReset 2).run s))
  dsimp only
  rw [hrun]
  refine ⟨hnone, hbad.trans ?_, hdone.trans ?_⟩
  · rw [get_inc_same _ (by decide), (agentKept_masterReset 2 s s (.refl s)).get (by decide) (by decide)]
    rfl
  · rw [Fld.inc, run_look, get_set_other F.ETH_MGMT_CNT_DONE F.ETH_MGMT_CNT_BAD rfl (by decide), (agentKept_masterReset 2 s s (.refl s)).get (by decide) (by decide)]

/-! ### Requests -/

/-- A read of the aging limit shows what is stored. -/
theorem regRead_age (m : Nat) (k : Nat → Bool → Act) (s : State) :
    (regRead m ⟨⟨R.XBAR_AGE, [F.XBAR_AGE_LIMIT]⟩, 0, 0, false⟩ (R.XBAR_AGE.addr 0) true k).run s = (k (R.XBAR_AGE.val 0 s) false).run s := by
  have hv : regShow ⟨⟨R.XBAR_AGE, [F.XBAR_AGE_LIMIT]⟩, 0, 0, false⟩ m s = R.XBAR_AGE.val 0 s := val_master rfl 0 m s
  have hlt : R.XBAR_AGE.val 0 s / 2 ^ (32 * 0) % 2 ^ 32 = R.XBAR_AGE.val 0 s := by
    have : R.XBAR_AGE.val 0 s < 2 ^ 32 := val_lt R.XBAR_AGE 0 0 s
    omega
  rw [← hlt, ← hv]
  unfold regRead
  rw [blockUse_off (by decide)]
  exact tableCheck_nil m k _ s

/-- The agent reads the aging limit. -/
theorem agentReads_age {s : State} (ha : asleep s = false) : let t := (busAccess (.master 2) (R.XBAR_AGE.addr 0) (.read .b4)).run s
    t.eth = s.eth ∧ smFind t.bus.resp 2 = some ⟨[BitVec.ofNat 64 (R.XBAR_AGE.val 0 s)], false⟩ := by
  obtain ⟨b, r, hrun⟩ := busAccess_read (m := 2) (a := R.XBAR_AGE.addr 0) (sz := .b4) ha
    (mustWait_off ⟨_, .inl rfl⟩ (.inl (by decide)) fun h => absurd h (by decide))
  have hlt : R.XBAR_AGE.val 0 s % 2 ^ 32 = R.XBAR_AGE.val 0 s := Nat.mod_eq_of_lt (val_lt R.XBAR_AGE 0 0 s)
  have hread := regRead_age 2 (fun v e => respond 2 [v % 2 ^ 32] e) (atTarget b r s.pair.sentWrites s.pair.waiting s)
  dsimp only
  rw [hrun, show sizeBytes .b4 = 4 from rfl, oneRead_reg (by decide) (by unfold peripheral; decide) placeOf_xbarAge]
  rw [show R.XBAR_AGE.val 0 (atTarget b r s.pair.sentWrites s.pair.waiting s) = R.XBAR_AGE.val 0 s from rfl, hlt] at hread
  rw [show ((2 : Master) : Nat) = 2 from rfl, hread]
  exact ⟨rfl, respond_answers 2 [R.XBAR_AGE.val 0 s] false _⟩

/-- The agent writes the aging limit. -/
theorem agentWrites_age {v : W64} {s : State} (ha : asleep s = false) (hl : s.lock = false) :
    let t := (busAccess (.master 2) (R.XBAR_AGE.addr 0) (.write .b4 v)).run s
    t.eth = s.eth ∧ F.XBAR_AGE_LIMIT.get 0 t = v.toNat % 256 := by
  have hreach : WriteReaches ((2 : Master) : Nat) (R.XBAR_AGE.addr 0) s := ⟨ha, by
    rw [standbyDrops, show forwardedBlock (R.XBAR_AGE.addr 0) = false by decide, Bool.and_false]⟩
  have hm : ((2 : Master) : Nat) = 1 → accessPends 1 s = false := fun h => absurd h (by decide)
  obtain ⟨b, r, l, w, hrun⟩ := busAccess_writeLow (m := 2) (v := v) hreach hm (by decide) (by unfold peripheral; decide) placeOf_xbarAge
  obtain ⟨t, ht, hlim⟩ := registerWrite_xbarAge (m := 2) (v := v) hreach hm hl false
  have hexec : exec (.registerWrite 2 (BitVec.ofNat 32 (R.XBAR_AGE.addr 0)) .b4 v false) s =
      .next ((busAccess (.master 2) (R.XBAR_AGE.addr 0) (.write .b4 v)).run s) := rfl
  rw [hexec] at ht
  refine ⟨?_, by rw [Host.Outcome.next.inj ht]; exact hlim⟩
  rw [hrun]
  show ((regWrite 2 _ _ _ false).run _).eth = _
  rw [regWrite_word (by decide) rfl (by decide) rfl]
  exact touches_eth (touches_storeWrite ⟨R.XBAR_AGE, [F.XBAR_AGE_LIMIT]⟩ 0 2 _ _ _ false false) (by decide) (by decide) _

section
variable {c h : Nat} {r₀ r : MgmtReq} {s : State}

/-- The agent takes a request of one cell; nothing but the switch, the pool and what an event reaches differs when it issues its first
access. -/
theorem mgmtTake_issues (hn : s.eth.mgmt = none) (ha : asleep s = false) (he : F.ETH_MGMT_EN.on 0 s = true)
    (hi : HoldsItem swId (F.ETH_MGMT_Q_QUEUE.get 0 s) c s) (hh : mgmtHead s = some h) (hp : mgmtParse [c] (cellsRead s [c]) = (r₀, true))
    (hr : r = { r₀ with tagged := (smFind s.eth.tagged c).getD r₀.tagged, since := s.elapsed }) : ∃ u : State, u.eth.mgmt = some r ∧
      asleep u = false ∧ u.lock = s.lock ∧ R.XBAR_AGE.val 0 u = R.XBAR_AGE.val 0 s ∧ (mgmtTake h).run s = mgmtIssue.run u := by
  obtain ⟨a, htake, hpop⟩ := popItem_one hi
  have hpwr : (a.run s).pwr = s.pwr := touches_pwr htake.touches (by decide) (by decide) s
  refine ⟨(setEth fun e => { e with mgmt := some r }).run ((setEth fun e => { e with tagged := smErase e.tagged c }).run (a.run s)),
    rfl, ?_, touches_lock htake.touches (by decide) (by decide) s, val_stores htake.stores (out_zero rfl rfl (by decide) 0 0) s, ?_⟩
  · show ((a.run s).pwr.listen || !(a.run s).pwr.vdd) = false
    rw [hpwr]
    exact ha
  · rw [mgmtTake, run_look, hh]
    dsimp only
    rw [ha, hn, he, if_neg (by simp), hpop 65535, if_neg (by simp), htake.read, hp]
    dsimp only
    rw [if_pos rfl, hr]
    rfl

/-- The first access of a request for the aging limit. -/
theorem mgmtIssue_age {u : State} (hm : u.eth.mgmt = some r) (hd : r.done = 0) (ha : r.addr = R.XBAR_AGE.addr 0) :
    mgmtIssue.run u = (busAccess (.master 2) (R.XBAR_AGE.addr 0)
      (if r.write then .write .b4 ((r.data.getD 0 0).setWidth 64) else .read .b4)).run
      ((setBus fun b => { b with resp := smErase b.resp 2 }).run u) := by
  rw [mgmtIssue, run_look, hm]
  dsimp only
  rw [run_seq, hd, ha]
  rfl

end

/-! ### The statement -/

/-- Settles O37: a request is taken with what the pool and an event may do beside it; its access is one of the bus to a register, and every
answer ends the request, whatever the switch does with the frame. -/
theorem managementCommandsComplete : Obligations.ManagementCommandsComplete := by
  unfold Obligations.ManagementCommandsComplete
  intro s hawake
  refine ⟨fun c r₀ r hn he hi hp hr haddr => ?_, fun r hm hpend hlast => ⟨_, rfl, mgmtStep_ends hm hawake hpend hlast⟩,
    fun r hm hpassed => ⟨_, rfl, mgmtAbort_ends hm hawake hpassed⟩⟩
  have hdone : r.done = 0 := by
    rw [hr]
    exact (congrArg (fun x : MgmtReq × Bool => x.1.done) hp).symm
  refine ⟨fun hhead hread => ?_, fun hhead hwrite hlock _ => ?_⟩
  · obtain ⟨u, hmu, hau, -, hage, hrun⟩ := mgmtTake_issues hn hawake he hi hhead hp hr
    obtain ⟨heth, hresp⟩ := agentReads_age (s := (setBus fun b => { b with resp := smErase b.resp 2 }).run u) hau
    refine ⟨(mgmtTake 1).run s, rfl, ?_⟩
    rw [hrun, mgmtIssue_age hmu hdone haddr, hread, if_neg (by decide), ← hage]
    exact ⟨(congrArg (fun e : EthState => e.mgmt) heth).trans hmu, hresp⟩
  · obtain ⟨u, hmu, hau, hlu, -, hrun⟩ := mgmtTake_issues hn hawake he hi hhead hp hr
    obtain ⟨heth, hlimit⟩ := agentWrites_age (v := (r.data.getD 0 0).setWidth 64)
      (s := (setBus fun b => { b with resp := smErase b.resp 2 }).run u) hau (hlu.trans hlock)
    refine ⟨(mgmtTake 2).run s, rfl, ?_⟩
    rw [hrun, mgmtIssue_age hmu hdone haddr, hwrite, if_pos rfl]
    refine ⟨(congrArg (fun e : EthState => e.mgmt) heth).trans hmu, hlimit.trans ?_⟩
    show _ = (r.data.getD 0 0).toNat / 2 ^ 0 % 2 ^ (7 + 1 - 0)
    rw [BitVec.toNat_setWidth_of_le (by decide)]
    omega

end Sys2Proof.Machine
end

