-- ==== Sys2Proof/Proofs/PtpMessages.lean ====
section
/-! SUPPORT. What the messages of PTP keep of the ports and of their counters (R444–R454). -/

namespace Sys2Proof.Machine

/-! ### Register words -/

/-- Every word but those that count messages. -/
def offPcnt (k : Nat) : Bool := decide (k < 0x200F0110) || decide (0x200F0180 ≤ k) || decide (k % 0x20 < 0x10)

/-- Every word but those of the ports and of the offset. -/
def offPorts (k : Nat) : Bool := outside 0x200F0030 0x200F0038 k && outside 0x200F0100 0x200F0180 k

theorem offPcnt_of_offPorts {k : Nat} (h : offPorts k = true) : offPcnt k = true := by
  simp only [offPorts, outside, Bool.and_eq_true, Bool.or_eq_true, decide_eq_true_eq] at h
  simp only [offPcnt, Bool.or_eq_true, decide_eq_true_eq]
  omega

theorem offPorts_of_low {k : Nat} (h : decide (k < 0x200F0000) = true) : offPorts k = true := by
  have h := of_decide_eq_true h
  simp only [offPorts, outside, Bool.and_eq_true, Bool.or_eq_true, decide_eq_true_eq]
  omega

theorem offPorts_raise {k : Nat} (h : raiseRegs k = true) : offPorts k = true := by
  have b1 : R.ROPE_STAT.base = 0x20060008 := rfl
  have b2 : R.PAIR_STAT.base = 0x20110008 := rfl
  have b3 : R.PAIR_HIST.base = 0x2011000C := rfl
  simp only [raiseRegs, Bool.or_eq_true, Bool.and_eq_true, decide_eq_true_eq] at h
  simp only [offPorts, outside, Bool.and_eq_true, Bool.or_eq_true, decide_eq_true_eq]
  omega

theorem offPorts_in {r : Reg} (h : r.clear 0x200F0030 0x200F0038 = true) (h' : r.clear 0x200F0100 0x200F0180 = true) {i : Nat}
    (hi : i < dimsCount r.dims) : WordsIn offPorts r i 0 := fun w hw => by
  rw [offPorts, clear_in h hi 0 w hw, clear_in h' hi 0 w hw]
  rfl

section
variable {p : Nat}

theorem pcnt_index {k : Nat} (hk : k < 4) (w : Nat) (hw : w < 1) : R.PTP_PCNT.key (4 * p + k) w 0 = 0x200F0110 + p * 0x20 + k * 4 := by
  have hkey : R.PTP_PCNT.key (4 * p + k) w 0 = 0x200F0110 + ((4 * p + k) / 4 * 0x20 + (4 * p + k) % 4 * 4) + 4 * w := by
    simp [Reg.key, Reg.addr, R.PTP_PCNT, dimsOfs, dimsCount]
  omega

theorem pcnt_out (hp : p < 4) {k : Nat} (hk : k < 4) : WordsOut offPcnt R.PTP_PCNT (4 * p + k) 0 := fun w hw => by
  rw [pcnt_index hk w hw]
  simp only [offPcnt, Bool.or_eq_false_iff, decide_eq_false_iff_not]
  omega

theorem pcnt_apart {j k : Nat} (hj : j < 4) (hk : k < 4) (h : j ≠ k) : Apart R.PTP_PCNT (4 * p + j) 0 R.PTP_PCNT (4 * p + k) 0 :=
  fun w hw w' hw' => by
    rw [pcnt_index hj w hw, pcnt_index hk w' hw']
    omega

theorem pstat_out (hp : p < 4) : WordsOut offPorts R.PTP_PSTAT p 0 := fun w hw => by
  have hw : w < 1 := hw
  have hb : R.PTP_PSTAT.base = 0x200F0104 := rfl
  rw [key_one rfl rfl, hb]
  simp only [offPorts, outside, Bool.and_eq_false_iff, Bool.or_eq_false_iff, decide_eq_false_iff_not]
  omega

/-- A register of the ports that counts no messages. -/
theorem portReg_in {r : Reg} (hd : r.dims = [(4, 0x20)]) (hm : r.perMaster = false) (hw : 4 * r.words ≤ 0x10)
    (hb : r.base % 0x20 + 4 * r.words ≤ 0x10) (p : Nat) : WordsIn offPcnt r p 0 := fun w h => by
  rw [key_one hd hm]
  simp only [offPcnt, Bool.or_eq_true, decide_eq_true_eq]
  omega

/-- A register of the ports of the switch. -/
theorem ethPort_in {r : Reg} (hd : r.dims = [(4, 0x400)]) (hb : decide (r.base + 0x1000 + 4 * r.words < 0x200F0000) = true)
    (hm : r.perMaster = false) {p : Nat} (hp : p < 4) : WordsIn offPcnt r p 0 := fun w h => by
  have hb := of_decide_eq_true hb
  rw [key_one hd hm]
  simp only [offPcnt, Bool.or_eq_true, decide_eq_true_eq]
  omega

theorem pstat_in : WordsIn offPcnt R.PTP_PSTAT p 0 := portReg_in rfl rfl (by decide) (by decide) p

theorem pstat_apart {q : Nat} (h : p ≠ q) : Apart R.PTP_PSTAT p 0 R.PTP_PSTAT q 0 := fun w hw w' hw' => by
  have hw : w < 1 := hw
  have hw' : w' < 1 := hw'
  rw [key_one rfl rfl, key_one rfl rfl]
  omega

end

/-! ### Counts -/

/-- Counter `k` of port `p` has counted one message. -/
abbrev PtpCounts (p k : Nat) (s t : State) : Prop := F.PTP_PCNT_COUNT.get (4 * p + k) t = satInc 32 (F.PTP_PCNT_COUNT.get (4 * p + k) s) 1

theorem ptpCnt_counts {p k : Nat} (s : State) : PtpCounts p k s ((ptpCnt p k).run s) := get_inc_same F.PTP_PCNT_COUNT (by decide) _ 1 s

theorem ptpCnt_other {p j k : Nat} (hj : j < 4) (hk : k < 4) (h : j ≠ k) (s : State) :
    F.PTP_PCNT_COUNT.get (4 * p + j) ((ptpCnt p k).run s) = F.PTP_PCNT_COUNT.get (4 * p + j) s := get_inc_apart (pcnt_apart hj hk h) 1 s

/-- What stores no counter of messages keeps a count. -/
theorem PtpCounts.then {p j : Nat} (hp : p < 4) (hj : j < 4) {s t : State} (h : PtpCounts p j s t) {a : Act} (ha : a.Stores offPcnt) : PtpCounts p j s (a.run t) :=
  (get_stores ha (pcnt_out hp hj) t).trans h

theorem ptpCnt_frame (p k : Nat) (s : State) : (ptpCnt p k).run s = { s with regs := ((ptpCnt p k).run s).regs } := inc_frame ..

/-- The counters of messages store the words that `offPcnt` leaves out alone. -/
theorem ptpCnt_stores {p k : Nat} (hp : p < 4) (hk : k < 4) : (ptpCnt p k).Stores fun k => !offPcnt k := stores_inc (fun w hw => by
  show (!offPcnt (R.PTP_PCNT.key (4 * p + k) w 0)) = true
  rw [pcnt_out hp hk w hw]
  rfl) 1

/-- A register that counts no messages keeps its value as one is counted. -/
theorem get_ptpCnt {f : Fld} {i p k : Nat} (hf : WordsIn offPcnt f.reg i 0) (hp : p < 4) (hk : k < 4) (s : State) :
    f.get i ((ptpCnt p k).run s) = f.get i s := get_stores (ptpCnt_stores hp hk) (fun w hw => congrArg (!·) (hf w hw)) s

/-! ### Ports -/

theorem ptpAt_setPtpPort (p : Nat) (f : PtpPort → PtpPort) (s : State) : ptpAt ((setPtpPort p f).run s) p = f (ptpAt s p) := get_put_self ..

theorem get_setPtpPort (f : Fld) (i p : Nat) (g : PtpPort → PtpPort) (s : State) : f.get i ((setPtpPort p g).run s) = f.get i s := rfl

theorem ptpAt_congr {s t : State} (h : t.ptp = s.ptp) (p : Nat) : ptpAt t p = ptpAt s p := by rw [ptpAt, h, ptpAt]

theorem ptpAt_ptpCnt (p k q : Nat) (s : State) : ptpAt ((ptpCnt p k).run s) q = ptpAt s q := ptpAt_congr (by rw [ptpCnt_frame]) q

/-! ### Messages that arrive -/

section
variable {p k q : Nat} (hp : p < 4) (hk : k < 4) (s : State) (g : PtpMsg)
include hp hk

theorem ptpSt_ptpCnt : ptpSt ((ptpCnt p k).run s) q = ptpSt s q := get_ptpCnt pstat_in hp hk s

theorem ptpFollows_ptpCnt : ptpFollows ((ptpCnt p k).run s) q = ptpFollows s q := by rw [ptpFollows, ptpSt_ptpCnt hp hk, ptpFollows]

theorem ptpPeer_ptpCnt : ptpPeer ((ptpCnt p k).run s) = ptpPeer s := by
  rw [ptpPeer, get_ptpCnt (fun w hw => by revert w; decide) hp hk, ptpPeer]

theorem clockId_ptpCnt : clockId ((ptpCnt p k).run s) = clockId s := by
  rw [clockId, get_ptpCnt (fun w hw => by revert w; decide) hp hk, clockId]

theorem ingressQ_ptpCnt (t : Nat) : ingressQ ((ptpCnt p k).run s) q t = ingressQ s q t := by
  rw [ingressQ, get_ptpCnt (portReg_in rfl rfl (by decide) (by decide) q) hp hk, ingressQ]

theorem fromMaster_ptpCnt : fromMaster ((ptpCnt p k).run s) q g = fromMaster s q g := by
  rw [fromMaster, ptpFollows_ptpCnt hp hk, ptpAt_ptpCnt, fromMaster]

theorem toPort_ptpCnt : toPort ((ptpCnt p k).run s) q g = toPort s q g := by
  rw [toPort, ownPortId, clockId_ptpCnt hp hk, toPort, ownPortId]

end

/-- A message of the domain is counted, and then does what it says. -/
theorem ptpRx_takes {p d : Nat} {s : State} (hr : ptpRuns s p = true) (hd : d = F.PTP_CFG_DOMAIN.get 0 s) (k : State → Act) :
    (ptpRx p d k).run s = (k ((ptpCnt p 0).run s)).run ((ptpCnt p 0).run s) := by
  rw [ptpRx, run_look, hr, onlyIf_true, run_seq, decide_eq_true hd, onlyIf_true, run_look]

/-- A message of another domain is counted alone. -/
theorem ptpRx_ignores {p d : Nat} {s : State} (hr : ptpRuns s p = true) (hd : d ≠ F.PTP_CFG_DOMAIN.get 0 s) (k : State → Act) :
    (ptpRx p d k).run s = (ptpCnt p 0).run s := by
  rw [ptpRx, run_look, hr, onlyIf_true, run_seq, decide_eq_false hd]
  rfl

/-! ### Offsets -/

theorem stores_outStepped_ports (c : Int) : (outStepped c).Stores offPorts := fun _ =>
  stores_forEach.mpr fun _ hn => stores_roundFree fun _ _ =>
    ⟨stores_fset (offPorts_in (by decide) (by decide) (List.mem_range.mp (List.mem_filter.mp hn).1)) _,
      stores_fset (offPorts_in (by decide) (by decide) (by decide)) _⟩

theorem stores_raise_ports (e : Ev) (d0 d1 d2 g : Nat) : (raise e d0 d1 d2 g).Stores offPorts :=
  stores_mono (stores_raise e d0 d1 d2 g) fun _ => offPorts_raise

theorem stores_counterStep (x : Int) : (counterStep x).Stores offPorts := by
  have hevts : evtStepped.Stores offPorts := stores_of_touches touches_evtStepped (by decide) (by decide)
  have hcount : WordsIn offPorts R.PTP_STEPCNT 0 0 := offPorts_in (by decide) (by decide) (by decide)
  rw [counterStep, stores_look]
  intro s
  simp [stores_outStepped_ports, stores_inc (f := F.PTP_STEPCNT_COUNT) hcount, stores_raise_ports, hevts]

/-- What an offset brings about behind its registers: qualification and steps. -/
def offsetJudged (p : Nat) (ts : List Nat) (big good run : Bool) (x : Int) : Act := acts [
  setPtp fun y => { y with qual := ts, lost := y.lost.filter (· ≠ p) },
  onlyIf (!big) (F.PTP_STAT_STEP_PEND.set 0 0),
  onlyIf (big && run) (F.PTP_STAT_STEP_PEND.set 0 1),
  onlyIf (big && !run) (counterStep x),
  onlyIf (!good) (F.PTP_STAT_QUAL.set 0 0),
  .look fun s => onlyIf (good && !F.PTP_STAT_STEP_PEND.on 0 s && qualMet s ts) (F.PTP_STAT_QUAL.set 0 1)]

theorem stores_offsetJudged (p : Nat) (ts : List Nat) (big good run : Bool) (x : Int) : (offsetJudged p ts big good run x).Stores offPorts := by
  have hstat (f : Fld) (h : f.reg = R.PTP_STAT) (v : Nat) : (f.set 0 v).Stores offPorts :=
    stores_fset (by rw [h]; exact offPorts_in (by decide) (by decide) (by decide)) v
  simp [offsetJudged, hstat F.PTP_STAT_STEP_PEND rfl, hstat F.PTP_STAT_QUAL rfl, stores_counterStep]

theorem offsetTaken_run (p : Nat) (t1 t2 : Int) (s : State) : ∃ ts big good run x, (offsetTaken p t1 t2).run s =
    (offsetJudged p ts big good run x).run ((F.PTP_OFS_OFFSET.set 0 (ofInt 64 (t2 - t1 - (ptpAt s p).mean))).run
      ((F.PTP_STAT_SLAVEPORT.set 0 p).run ((F.PTP_PSTAT_STATE.set p 9).run
        ((setPtpPort p fun x => { x with t1 := t1, t2 := t2, synced := true, syncAt := s.elapsed }).run s)))) := ⟨_, _, _, _, _, rfl⟩

/-- A Sync gives its offset, and its port is a slave. -/
theorem offsetTaken_gives {p : Nat} (hp : p < 4) (t1 t2 : Int) (s : State) : let t := (offsetTaken p t1 t2).run s
    (∀ k < 4, F.PTP_PCNT_COUNT.get (4 * p + k) t = F.PTP_PCNT_COUNT.get (4 * p + k) s) ∧ ptpSt t p = 9 ∧
    F.PTP_OFS_OFFSET.get 0 t = ofInt 64 (t2 - t1 - (ptpAt s p).mean) := by
  obtain ⟨ts, big, good, run, x, hrun⟩ := offsetTaken_run p t1 t2 s
  have hjudged := stores_offsetJudged p ts big good run x
  have hofs (v : Nat) : (F.PTP_OFS_OFFSET.set 0 v).Stores offPcnt := stores_fset (fun w hw => by revert w; decide) v
  have hslave (v : Nat) : (F.PTP_STAT_SLAVEPORT.set 0 v).Stores offPcnt := stores_fset (fun w hw => by revert w; decide) v
  dsimp only
  rw [hrun]
  refine ⟨fun k hk => ?_, ?_, ?_⟩
  · rw [get_stores (stores_mono hjudged fun _ => offPcnt_of_offPorts) (pcnt_out hp hk), get_stores (hofs _) (pcnt_out hp hk),
      get_stores (hslave _) (pcnt_out hp hk), get_stores (stores_fset (f := F.PTP_PSTAT_STATE) pstat_in 9) (pcnt_out hp hk)]
    rfl
  · rw [ptpSt, get_stores hjudged (pstat_out hp),
      get_set_apart F.PTP_PSTAT_STATE F.PTP_OFS_OFFSET (apart_of_away (by decide) (show p < dimsCount [(4, 0x20)] from hp) (by decide) 0 0),
      get_set_apart F.PTP_PSTAT_STATE F.PTP_STAT_SLAVEPORT (apart_of_away (by decide) (show p < dimsCount [(4, 0x20)] from hp) (by decide) 0 0)]
    exact get_set_same F.PTP_PSTAT_STATE (by decide) (by decide) p _
  · have hout : WordsOut offPorts R.PTP_OFS 0 0 := fun w hw => by revert w; decide
    rw [get_stores hjudged hout]
    exact get_set_same F.PTP_OFS_OFFSET (by decide) (ofInt_lt 64 _) 0 _

/-! ### Messages that leave -/

theorem stores_pcnt_low {p k : Nat} (hp : p < 5) (hk : k < 9) : (pcnt p k).Stores fun k => decide (k < 0x200F0000) :=
  stores_inc (fun w hw => decide_eq_true (by have := pcnt_key hp hk w hw; omega)) 1

theorem touches_pcnt (p k : Nat) : (pcnt p k).Touches [.reg, .eth] := touches_inc (by decide) _ _ _

section
variable {p i : Nat} {x : EthItem} {k : Bool → Act}

theorem stores_enqueue {A : Nat → Bool} (hA : ∀ k, decide (k < 0x200F0000) = true → A k = true) (hp : p < 5) (h : ∀ ok, (k ok).Stores A) :
    (enqueue p i x k).Stores A := fun _ =>
  stores_ite ((stores_seq _ _).mpr ⟨stores_mono (stores_pcnt_low hp (by decide)) hA, h _⟩) ((stores_seq _ _).mpr ⟨stores_setEth _, h _⟩)

theorem touches_enqueue (h : ∀ ok, (k ok).Touches [.reg, .eth]) : (enqueue p i x k).Touches [.reg, .eth] := fun _ =>
  touches_ite ((touches_seq _ _).mpr ⟨touches_pcnt _ _, h _⟩) ((touches_seq _ _).mpr ⟨touches_setEth (by decide) _, h _⟩)

end

/-- A port may send. -/
abbrev PtpSends (p : Nat) (s : State) : Prop := F.ETH_PCFG_EN.on p s = true ∧ linkUp s p = true

section
variable {p : Nat} (hp : p < 4) (ev : Option PtpEvent) (msg : List Byte) (s : State)
include hp

/-- The item of a message comes to the switch. -/
theorem ptpSend_run (h : PtpSends p s) : ∃ (f : Frame) (a : Act), a.Stores (fun k => decide (k < 0x200F0000)) ∧ a.Touches [.reg, .eth] ∧
    (ptpSend p ev msg).run s = a.run ((setPtpPort p fun y => { y with lastTx := f }).run ((ptpCnt p 1).run ((pcnt 4 0).run s))) := by
  obtain ⟨he, hl⟩ := h
  rw [ptpSend, run_look, he, hl, if_neg (by decide), acts_five]
  refine ⟨_, .seq (setEth fun e => { e with nextItem := s.eth.nextItem + 1, items := smInsert e.items s.eth.nextItem _ })
    (enqueue p s.eth.nextItem _ fun ok => onlyIf (!ok) (setEth fun e => { e with items := smErase e.items s.eth.nextItem })), ?_, ?_, rfl⟩
  · exact (stores_seq _ _).mpr ⟨stores_setEth _, stores_enqueue (fun _ => id) (by omega) fun _ => (stores_onlyIf _ _).mpr fun _ => stores_setEth _⟩
  · exact (touches_seq _ _).mpr ⟨touches_setEth (by decide) _, touches_enqueue fun _ => (touches_onlyIf _ _).mpr fun _ => touches_setEth (by decide) _⟩

/-- A message that is sent is counted as such, and as nothing else. -/
theorem ptpSend_counts (h : PtpSends p s) : PtpCounts p 1 s ((ptpSend p ev msg).run s) ∧
    F.PTP_PCNT_COUNT.get (4 * p) ((ptpSend p ev msg).run s) = F.PTP_PCNT_COUNT.get (4 * p) s := by
  obtain ⟨f, a, hstores, -, hrun⟩ := ptpSend_run hp ev msg s h
  have hoff : a.Stores offPcnt := stores_mono hstores fun _ hk => offPcnt_of_offPorts (offPorts_of_low hk)
  have hcell : (pcnt 4 0).Stores offPcnt := stores_mono (stores_pcnt_low (by decide) (by decide)) fun _ hk => offPcnt_of_offPorts (offPorts_of_low hk)
  rw [hrun]
  refine ⟨?_, ?_⟩
  · rw [PtpCounts, get_stores hoff (pcnt_out hp (by decide)), get_setPtpPort, ptpCnt_counts, get_stores hcell (pcnt_out hp (by decide))]
  · have hzero := ptpCnt_other (p := p) (j := 0) (k := 1) (by decide) (by decide) (by decide) ((pcnt 4 0).run s)
    rw [get_stores hoff (pcnt_out hp (k := 0) (by decide)), get_setPtpPort]
    exact hzero.trans (get_stores hcell (pcnt_out hp (k := 0) (by decide)) s)

/-- A port that sends, or may not, keeps all but its last message. -/
theorem ptpSend_port : ∃ f, ptpAt ((ptpSend p ev msg).run s) p = { ptpAt s p with lastTx := f } := by
  by_cases h : PtpSends p s
  · obtain ⟨f, a, -, htouches, hrun⟩ := ptpSend_run hp ev msg s h
    refine ⟨f, ?_⟩
    rw [hrun, ptpAt_congr (touches_ptp htouches (by decide) (by decide) _), ptpAt_setPtpPort, ptpAt_ptpCnt,
      ptpAt_congr (touches_ptp (touches_pcnt 4 0) (by decide) (by decide) s)]
  · refine ⟨(ptpAt s p).lastTx, ?_⟩
    have hoff : (!F.ETH_PCFG_EN.on p s || !linkUp s p) = true := by
      by_contra hc
      simp only [Bool.or_eq_true, Bool.not_eq_true', not_or, Bool.not_eq_false] at hc
      exact h hc
    rw [ptpSend, run_look, hoff, if_pos rfl]
    rfl

end

/-- What answers a message that has been counted. -/
theorem counted_sends {p : Nat} (hp : p < 4) (ev : Option PtpEvent) (msg : List Byte) {s : State} (h : PtpSends p s) :
    let t := (ptpSend p ev msg).run ((ptpCnt p 0).run s)
    PtpCounts p 0 s t ∧ PtpCounts p 1 s t := by
  have hsends : PtpSends p ((ptpCnt p 0).run s) := by
    have hcfg : F.ETH_PCFG_EN.get p ((ptpCnt p 0).run s) = F.ETH_PCFG_EN.get p s := get_ptpCnt (ethPort_in rfl (by decide) rfl hp) hp (by decide) s
    have hlink : F.ETH_PSTAT_LINK.get p ((ptpCnt p 0).run s) = F.ETH_PSTAT_LINK.get p s :=
      get_ptpCnt (ethPort_in rfl (by decide) rfl hp) hp (by decide) s
    rw [PtpSends, Fld.on, hcfg, linkUp, Fld.on, hlink]
    exact h
  obtain ⟨hone, hzero⟩ := ptpSend_counts hp ev msg ((ptpCnt p 0).run s) hsends
  exact ⟨hzero.trans (ptpCnt_counts s), hone.trans (by rw [ptpCnt_other (by decide) (by decide) (by decide)])⟩

/-! ### Delays -/

/-- A measurement joins the last eight of its port. -/
theorem delayTaken_takes {p : Nat} (hp : p < 4) (d : Int) (s : State) : let t := (delayTaken p d).run s
    (∀ k < 4, F.PTP_PCNT_COUNT.get (4 * p + k) t = F.PTP_PCNT_COUNT.get (4 * p + k) s) ∧ (ptpAt t p).req = (ptpAt s p).req ∧
    (ptpAt t p).delays.length = min 8 ((ptpAt s p).delays.length + 1) := by
  obtain ⟨mean, n, hrun⟩ := roundFree_run ((d :: (ptpAt s p).delays).take 8).sum ((d :: (ptpAt s p).delays).take 8).length (fun mean => acts [
    setPtpPort p fun x => { x with delays := (d :: (ptpAt s p).delays).take 8, mean := mean },
    onlyIf (ptpFollows s p) (F.PTP_MPD_DELAY.set 0 (ofInt 64 mean))]) s
  let b := onlyIf (ptpFollows s p) (F.PTP_MPD_DELAY.set 0 (ofInt 64 mean))
  have hstores : b.Stores offPcnt := (stores_onlyIf _ _).mpr fun _ => stores_fset (fun w hw => by revert w; decide) _
  have htouches : b.Touches [.reg] := (touches_onlyIf _ _).mpr fun _ => touches_fset (by decide) _ _ _ _
  dsimp only
  rw [delayTaken, run_look, hrun, acts_two]
  refine ⟨fun k hk => get_stores hstores (pcnt_out hp hk) _, ?_⟩
  rw [ptpAt_congr (touches_ptp htouches (by decide) (by decide) _), ptpAt_setPtpPort]
  refine ⟨rfl, ?_⟩
  show ((d :: (ptpAt s p).delays).take 8).length = _
  rw [List.length_take, List.length_cons]

/-- A delay that is measured answers the request of its port. -/
theorem measured_answers {p : Nat} (hp : p < 4) (g : PtpPort → PtpPort) (hreq : ∀ x, (g x).req = none) (hdel : ∀ x, (g x).delays = x.delays)
    (num : Int) (s : State) : let t := (Act.seq (setPtpPort p g) (roundFree num 2 (delayTaken p))).run s
    (∀ k < 4, F.PTP_PCNT_COUNT.get (4 * p + k) t = F.PTP_PCNT_COUNT.get (4 * p + k) s) ∧ (ptpAt t p).req = none ∧
    (ptpAt t p).delays.length = min 8 ((ptpAt s p).delays.length + 1) := by
  obtain ⟨d, n, hrun⟩ := roundFree_run num 2 (delayTaken p) ((setPtpPort p g).run s)
  obtain ⟨hcnt, hr, hd⟩ := delayTaken_takes hp d { (setPtpPort p g).run s with free := n }
  have hat : ptpAt { (setPtpPort p g).run s with free := n } p = g (ptpAt s p) := ptpAt_setPtpPort p g s
  dsimp only
  rw [run_seq, hrun]
  rw [hat] at hr hd
  exact ⟨hcnt, hr.trans (hreq _), by rw [hd, hdel]⟩

/-! ### The state decision -/

/-- A key that is listed stays listed when another is removed, in whatever order the map stands. -/
theorem find_erase_kept {α : Type} {m : SMap α} {a c : Nat} {x : α} (h : smFind m c = some x) (hne : c ≠ a) : smFind (smErase m a) c = some x := by
  induction m with
  | nil => exact absurd h (by simp [smFind])
  | cons q m ih =>
    obtain ⟨k, v⟩ := q
    by_cases hk : c = k
    · subst hk
      have hv : some v = some x := by simpa [smFind] using h
      rw [smErase, if_neg (Ne.symm hne)]
      split
      · exact h
      · simpa [smFind] using hv
    · have hlt : ¬ c < k := fun hlt => by simp [smFind, hk, hlt] at h
      have htail : smFind m c = some x := by simpa [smFind, hk, hlt] using h
      rw [smErase]
      split
      · exact ih htail
      · split
        · exact h
        · simpa [smFind, hk, hlt] using ih htail

theorem find_put_kept {α : Type} [DecidableEq α] {d : Nat → α} {m : SMap α} {a c : Nat} {x : α} (h : smFind m c = some x) (hne : c ≠ a) (v : α) :
    smFind (smPut d m a v) c = some x := by
  unfold smPut
  split
  · exact find_erase_kept h hne
  · rw [find_insert_ne _ _ hne, h]

theorem find_put_own {α : Type} [DecidableEq α] {d : Nat → α} (m : SMap α) {a : Nat} {v : α} (h : v ≠ d a) : smFind (smPut d m a v) a = some v := by
  rw [smPut, if_neg h]
  exact find_insert_self ..

/-- Port `p` holds the Announce `a`, and has heard it unless it enters LISTENING by the decision in `u`. -/
def Hears (u : State) (p : Nat) (a : Option AnnounceMsg) (s : State) : Prop :=
  ∃ x, smFind s.ptp.ports p = some x ∧ x.ann = a ∧ (x.heard = true ∨ (ptpSt u p ≠ 4 ∧ decide_ u p = 4 ∧ ptpSt s p = 4))

/-- What the decision in `u` does to port `q`. -/
def decisionAt (u : State) (q : Nat) : Act := acts [
  F.PTP_PSTAT_STATE.set q (decide_ u q),
  onlyIf ((decide_ u q = 8 || decide_ u q = 9) && !ptpFollows u q) (setPtpPort q fun x => { x with synced := false, sync := none, syncAt := u.elapsed }),
  onlyIf (decide_ u q = 4 && ptpSt u q ≠ 4) (setPtpPort q fun x => { x with heard := false, annAt := u.elapsed })]

theorem stateDecision_run (u : State) : stateDecision.run u =
    gmJudge.run ((forEach ((List.range 4).filter fun q => ptpSt u q ≠ 3) (decisionAt u)).run u) := rfl

section
variable {u : State} {p : Nat} {a : Option AnnounceMsg}

theorem hears_setOther {q : Nat} (hne : p ≠ q) (f : PtpPort → PtpPort) : (setPtpPort q f).Preserves (Hears u p a) := fun s h => by
  obtain ⟨x, hx, hann, hheard⟩ := h
  exact ⟨x, find_put_kept (d := fun _ => ptpPortReset) hx hne (f (smGet (fun _ => ptpPortReset) s.ptp.ports q)), hann, hheard⟩

theorem hears_pstat {q : Nat} : (F.PTP_PSTAT_STATE.set q (decide_ u q)).Preserves (Hears u p a) := fun s h => by
  obtain ⟨x, hx, hann, hheard⟩ := h
  refine ⟨x, by rw [fset_frame]; exact hx, hann, hheard.imp_right fun ⟨hne, hdec, hst⟩ => ⟨hne, hdec, ?_⟩⟩
  by_cases hq : p = q
  · subst hq
    rw [hdec]
    exact get_set_same F.PTP_PSTAT_STATE (by decide) (by decide) p s
  · rw [ptpSt, get_set_apart F.PTP_PSTAT_STATE F.PTP_PSTAT_STATE (pstat_apart hq)]
    exact hst

/-- The decision on port `p` leaves its Announce. -/
theorem hears_decisionOwn (ha : a ≠ none ∨ u.elapsed ≠ 0) : (decisionAt u p).Preserves (Hears u p a) := fun s h => by
  have hset := hears_pstat (q := p) s h
  have hst : decide_ u p = 4 → ptpSt ((F.PTP_PSTAT_STATE.set p (decide_ u p)).run s) p = 4 := fun hdec => by
    rw [hdec]
    exact get_set_same F.PTP_PSTAT_STATE (by decide) (by decide) p s
  obtain ⟨x, hx, hann, hheard⟩ := hset
  rw [decisionAt, acts_three]
  generalize (F.PTP_PSTAT_STATE.set p (decide_ u p)).run s = v at hx hheard hst
  have hget : smGet (fun _ => ptpPortReset) v.ptp.ports p = x := by rw [smGet, hx]; rfl
  by_cases h4 : decide_ u p = 4
  · have hno : ((decide (decide_ u p = 8) || decide (decide_ u p = 9)) && !ptpFollows u p) = false := by simp [h4]
    rw [hno]
    by_cases hu : ptpSt u p = 4
    · have hoff : (decide (decide_ u p = 4) && decide (ptpSt u p ≠ 4)) = false := by simp [hu]
      rw [hoff]
      exact ⟨x, hx, hann, .inl (hheard.resolve_right fun h => h.1 hu)⟩
    · have hon : (decide (decide_ u p = 4) && decide (ptpSt u p ≠ 4)) = true := by simp [h4, hu]
      rw [hon, onlyIf_true]
      refine ⟨{ x with heard := false, annAt := u.elapsed }, ?_, hann, .inr ⟨hu, h4, hst h4⟩⟩
      show smFind (smPut (fun _ => ptpPortReset) v.ptp.ports p { smGet (fun _ => ptpPortReset) v.ptp.ports p with
        heard := false, annAt := u.elapsed }) p = _
      rw [hget]
      refine find_put_own _ fun hdef => ?_
      rcases ha with ha | ha
      · exact ha (hann.symm.trans (congrArg PtpPort.ann hdef))
      · exact ha (congrArg PtpPort.annAt hdef)
  · have hoff : (decide (decide_ u p = 4) && decide (ptpSt u p ≠ 4)) = false := by simp [h4]
    have hon : x.heard = true := hheard.resolve_right fun h => h4 h.2.1
    rw [hoff]
    by_cases hf : ((decide (decide_ u p = 8) || decide (decide_ u p = 9)) && !ptpFollows u p) = true
    · rw [hf, onlyIf_true]
      refine ⟨{ x with synced := false, sync := none, syncAt := u.elapsed }, ?_, hann, .inl hon⟩
      show smFind (smPut (fun _ => ptpPortReset) v.ptp.ports p { smGet (fun _ => ptpPortReset) v.ptp.ports p with
        synced := false, sync := none, syncAt := u.elapsed }) p = _
      rw [hget]
      refine find_put_own _ fun hdef => ?_
      have hunheard : x.heard = false := congrArg PtpPort.heard hdef
      exact absurd (hon.symm.trans hunheard) (by decide)
    · rw [Bool.eq_false_iff.mpr hf]
      exact ⟨x, hx, hann, .inl hon⟩

theorem hears_decision (ha : a ≠ none ∨ u.elapsed ≠ 0) (q : Nat) : (decisionAt u q).Preserves (Hears u p a) := by
  by_cases hq : p = q
  · subst hq
    exact hears_decisionOwn ha
  · refine preserves_acts ?_
    simp only [List.forall_mem_cons, List.not_mem_nil, false_imp_iff, implies_true, and_true]
    exact ⟨hears_pstat, preserves_onlyIf (hears_setOther hq _), preserves_onlyIf (hears_setOther hq _)⟩

/-- What the states of the ports entail leaves the ports. -/
theorem gmJudge_ports (m : SMap PtpPort) : gmJudge.Preserves fun s => s.ptp.ports = m := preserves_look fun s => by
  have hset (f : Fld) (v : Nat) : (f.set 0 v).Preserves fun s => s.ptp.ports = m := fun t ht => by
    rw [fset_frame]
    exact ht
  have hqual (f : PtpState → PtpState) (hf : ∀ x, (f x).ports = x.ports) : (setPtp f).Preserves fun s => s.ptp.ports = m := fun t ht =>
    (hf _).trans ht
  have hraise : (raise .PTP_GM_CHANGE).Preserves fun s => s.ptp.ports = m := fun t ht =>
    (congrArg PtpState.ports (touches_ptp (touches_raise _ _ _ _ _) (by decide) (by decide) t)).trans ht
  refine preserves_acts ?_
  simp only [List.forall_mem_cons, List.not_mem_nil, false_imp_iff, implies_true, and_true]
  exact ⟨preserves_onlyIf (hqual _ fun _ => rfl), hset _ _, preserves_onlyIf (preserves_seq (hset _ _) (hqual _ fun _ => rfl)),
    preserves_onlyIf (hqual _ fun _ => rfl), hset _ _, preserves_onlyIf (preserves_seq (hset _ _) (preserves_onlyIf (preserves_seq (hset _ _) hraise)))⟩

theorem stores_gmJudge_ports : gmJudge.Stores offPorts := by
  have hs : WordsIn offPorts R.PTP_STAT 0 0 := offPorts_in (by decide) (by decide) (by decide)
  have hg : WordsIn offPorts R.PTP_GMID 0 0 := offPorts_in (by decide) (by decide) (by decide)
  rw [gmJudge, stores_look]
  intro s
  simp [stores_fset (f := F.PTP_STAT_SLAVEPORT) hs, stores_fset (f := F.PTP_STAT_QUAL) hs, stores_fset (f := F.PTP_STAT_GM) hs,
    stores_fset (f := F.PTP_STAT_GMCHG) hs, stores_fset (f := F.PTP_GMID_ID) hg, stores_raise_ports]

theorem stores_stateDecision_cnt : stateDecision.Stores offPcnt := by
  rw [stateDecision, stores_look]
  intro s
  rw [stores_seq]
  refine ⟨stores_forEach_of fun q => ?_, stores_mono stores_gmJudge_ports fun _ => offPcnt_of_offPorts⟩
  simp [stores_fset (f := F.PTP_PSTAT_STATE) pstat_in, stores_setPtpPort]

/-- A port that has heard an Announce, or none for long, keeps it through the decision, and enters LISTENING alone unheard. -/
theorem stateDecision_hears (hp : p < 4) {x : PtpPort} (hx : smFind u.ptp.ports p = some x) (hann : x.ann = a) (hheard : x.heard = true)
    (ha : a ≠ none ∨ u.elapsed ≠ 0) : let t := stateDecision.run u
    (ptpAt t p).ann = a ∧ (ptpSt u p = 4 ∨ ptpSt t p ≠ 4 → (ptpAt t p).heard = true) := by
  have hloop : Hears u p a ((forEach ((List.range 4).filter fun q => ptpSt u q ≠ 3) (decisionAt u)).run u) :=
    preserves_forEach (fun q _ => hears_decision ha q) u ⟨x, hx, hann, .inl hheard⟩
  dsimp only
  rw [stateDecision_run]
  generalize (forEach ((List.range 4).filter fun q => ptpSt u q ≠ 3) (decisionAt u)).run u = v at hloop
  obtain ⟨y, hy, hyann, hyheard⟩ := hloop
  have hat : ptpAt (gmJudge.run v) p = y := by rw [ptpAt, gmJudge_ports v.ptp.ports v rfl, smGet, hy]; rfl
  have hst : ptpSt (gmJudge.run v) p = ptpSt v p := get_stores stores_gmJudge_ports (pstat_out hp) v
  rw [hat, hst]
  refine ⟨hyann, fun h => hyheard.resolve_right fun ⟨hne, _, h4⟩ => ?_⟩
  rcases h with h | h
  · exact hne h
  · exact h h4

/-- A port that hears keeps its Announce through the decision that follows. -/
theorem hearing_decides (hp : p < 4) {f : PtpPort → PtpPort} (hann : ∀ x, (f x).ann = a) (hheard : ∀ x, (f x).heard = true) {v : State}
    (ha : a ≠ none ∨ v.elapsed ≠ 0) : let t := stateDecision.run ((setPtpPort p f).run v)
    (ptpAt t p).ann = a ∧ (ptpSt v p = 4 ∨ ptpSt t p ≠ 4 → (ptpAt t p).heard = true) :=
  stateDecision_hears hp (find_put_own (d := fun _ => ptpPortReset) v.ptp.ports fun hdef =>
    absurd ((hheard _).symm.trans (congrArg PtpPort.heard hdef)) (by decide)) (hann _) (hheard _) ha

end

/-! ### The messages -/

section
variable {p : Port} {g : PtpMsg} {s : State} (hr : ptpRuns s p = true)
include hr

/-- A Sync of one step gives its offset. -/
theorem sync_gives (hd : g.domain = F.PTP_CFG_DOMAIN.get 0 s) (hm : fromMaster s p g = true) (ht : g.twoStep = false) :
    ∃ t, exec (.ptpSync p g) s = .next t ∧ PtpCounts p 0 s t ∧ ptpSt t p = 9 ∧ F.PTP_OFS_OFFSET.get 0 t =
      ofInt 64 (quarters (ingressQ s p g.rx) - ((g.origin : Int) * 65536 + g.corr) - (ptpAt s p).mean) := by
  have hp : p.val < 4 := p.isLt
  refine ⟨_, rfl, ?_⟩
  rw [ptpRx_takes hr hd, fromMaster_ptpCnt hp (by decide), hm, ht, ingressQ_ptpCnt hp (by decide)]
  obtain ⟨hcnt, hst, hofs⟩ := offsetTaken_gives hp ((g.origin : Int) * 65536 + g.corr) (quarters (ingressQ s p g.rx)) ((ptpCnt p 0).run s)
  rw [ptpAt_ptpCnt] at hofs
  exact ⟨(hcnt 0 (by decide)).trans (ptpCnt_counts s), hst, hofs⟩

/-- A Sync of two steps waits. -/
theorem sync_waits (hd : g.domain = F.PTP_CFG_DOMAIN.get 0 s) (hm : fromMaster s p g = true) (ht : g.twoStep = true) :
    ∃ t, exec (.ptpSync p g) s = .next t ∧ (ptpAt t p).sync = some ⟨g.seq, ingressQ s p g.rx, g.corr, 0⟩ := by
  have hp : p.val < 4 := p.isLt
  refine ⟨_, rfl, ?_⟩
  rw [ptpRx_takes hr hd, fromMaster_ptpCnt hp (by decide), hm, ht, ingressQ_ptpCnt hp (by decide)]
  dsimp only
  rw [if_neg (by decide), if_pos rfl, ptpAt_setPtpPort]

/-- The Follow_Up of a Sync gives the offset. -/
theorem followUp_gives {y : TwoStep} (hy : (ptpAt s p).sync = some y) (hd : g.domain = F.PTP_CFG_DOMAIN.get 0 s) (hm : fromMaster s p g = true)
    (hq : y.seq = g.seq) : ∃ t, exec (.ptpFollowUp p g) s = .next t ∧ PtpCounts p 0 s t ∧ ptpSt t p = 9 ∧ F.PTP_OFS_OFFSET.get 0 t =
      ofInt 64 (quarters y.rx - ((g.origin : Int) * 65536 + y.corr + g.corr) - (ptpAt s p).mean) := by
  have hp : p.val < 4 := p.isLt
  refine ⟨_, rfl, ?_⟩
  rw [ptpRx_takes hr hd, ptpAt_ptpCnt, hy]
  dsimp only
  rw [fromMaster_ptpCnt hp (by decide), hm, if_pos (by simp [hq]), run_seq]
  obtain ⟨hcnt, hst, hofs⟩ := offsetTaken_gives hp ((g.origin : Int) * 65536 + y.corr + g.corr) (quarters y.rx)
    ((setPtpPort p fun x => { x with sync := none }).run ((ptpCnt p 0).run s))
  rw [ptpAt_setPtpPort, ptpAt_ptpCnt] at hofs
  exact ⟨(hcnt 0 (by decide)).trans (ptpCnt_counts s), hst, hofs⟩

/-- The first Announce of a port is kept. -/
theorem announce_kept {a : AnnounceMsg} (hd : a.domain = F.PTP_CFG_DOMAIN.get 0 s) (hid : a.srcId.toNat ≠ clockId s) (hsteps : a.steps.val < 255)
    (hn : (ptpAt s p).ann = none) : ∃ t, exec (.ptpAnnounce p a) s = .next t ∧ PtpCounts p 0 s t ∧ (ptpAt t p).ann = some a ∧
      (ptpSt s p = 4 ∨ ptpSt t p ≠ 4 → (ptpAt t p).heard = true) := by
  have hp : p.val < 4 := p.isLt
  refine ⟨_, rfl, ?_⟩
  rw [ptpRx_takes hr hd]
  dsimp only
  rw [clockId_ptpCnt hp (by decide), if_neg (by simp [hid, hsteps]), ptpAt_ptpCnt, hn, run_seq]
  have hst : ptpSt ((ptpCnt p 0).run s) p = ptpSt s p := ptpSt_ptpCnt hp (by decide) s
  rw [← hst]
  refine ⟨PtpCounts.then hp (by decide) ?_ stores_stateDecision_cnt, hearing_decides hp (fun _ => rfl) (fun _ => rfl) (.inl (Option.some_ne_none a))⟩
  exact (get_setPtpPort ..).trans (ptpCnt_counts s)

/-- A Delay_Req is answered by a master port. -/
theorem delayReq_answered (hd : g.domain = F.PTP_CFG_DOMAIN.get 0 s) (hpeer : ptpPeer s = false) (hst : ptpSt s p = 6) (h : PtpSends p s) :
    ∃ t, exec (.ptpDelayReq p g) s = .next t ∧ PtpCounts p 0 s t ∧ PtpCounts p 1 s t := by
  have hp : p.val < 4 := p.isLt
  refine ⟨_, rfl, ?_⟩
  rw [ptpRx_takes hr hd, ptpPeer_ptpCnt hp (by decide), ptpSt_ptpCnt hp (by decide), hpeer, hst, if_neg (by decide)]
  exact counted_sends hp _ _ h

/-- A Pdelay_Req is answered. -/
theorem pdelayReq_answered (hd : g.domain = F.PTP_CFG_DOMAIN.get 0 s) (hpeer : ptpPeer s = true) (h : PtpSends p s) :
    ∃ t, exec (.ptpPdelayReq p g) s = .next t ∧ PtpCounts p 0 s t ∧ PtpCounts p 1 s t := by
  have hp : p.val < 4 := p.isLt
  refine ⟨_, rfl, ?_⟩
  rw [ptpRx_takes hr hd, ptpPeer_ptpCnt hp (by decide), hpeer]
  dsimp only
  rw [if_neg (by decide)]
  exact counted_sends hp _ _ h

/-- A delay has been measured on port `p` by a message that counts. -/
abbrev PtpMeasured (p : Nat) (s t : State) : Prop := PtpCounts p 0 s t ∧ (ptpAt t p).req = none ∧
  (ptpAt t p).delays.length = min 8 ((ptpAt s p).delays.length + 1)

omit hr in
theorem counted_measures {f : PtpPort → PtpPort} (hreq : ∀ x, (f x).req = none) (hdel : ∀ x, (f x).delays = x.delays) (num : Int) :
    PtpMeasured p s ((Act.seq (setPtpPort p f) (roundFree num 2 (delayTaken p))).run ((ptpCnt p 0).run s)) := by
  obtain ⟨hcnt, hnone, hlen⟩ := measured_answers p.isLt f hreq hdel num ((ptpCnt p 0).run s)
  rw [ptpAt_ptpCnt] at hlen
  exact ⟨(hcnt 0 (by decide)).trans (ptpCnt_counts s), hnone, hlen⟩

/-- The Delay_Resp to the request of a port. -/
theorem delayResp_measures {seq t3 : Nat} (hq : (ptpAt s p).req = some (seq, t3)) (hd : g.domain = F.PTP_CFG_DOMAIN.get 0 s)
    (hpeer : ptpPeer s = false) (hm : fromMaster s p g = true) (ht : toPort s p g = true) (hseq : seq = g.seq.val) :
    ∃ t, exec (.ptpDelayResp p g) s = .next t ∧ PtpMeasured p s t := by
  have hp : p.val < 4 := p.isLt
  refine ⟨_, rfl, ?_⟩
  rw [ptpRx_takes hr hd]
  dsimp only
  rw [ptpAt_ptpCnt, hq]
  dsimp only
  rw [ptpPeer_ptpCnt hp (by decide), fromMaster_ptpCnt hp (by decide), toPort_ptpCnt hp (by decide), hpeer, hm, ht, if_pos (by simp [hseq])]
  refine counted_measures ?_ ?_ _
  · exact fun _ => rfl
  · exact fun _ => rfl

/-- The Pdelay_Resp of two steps waits for its follow-up. -/
theorem pdelayResp_waits {seq t1 : Nat} (hq : (ptpAt s p).req = some (seq, t1)) (hd : g.domain = F.PTP_CFG_DOMAIN.get 0 s)
    (hpeer : ptpPeer s = true) (ht : toPort s p g = true) (hseq : seq = g.seq.val) (htwo : g.twoStep = true) :
    ∃ t, exec (.ptpPdelayResp p g) s = .next t ∧ (ptpAt t p).pdel = some ⟨g.seq, ingressQ s p g.rx, g.corr, g.origin⟩ := by
  have hp : p.val < 4 := p.isLt
  refine ⟨_, rfl, ?_⟩
  rw [ptpRx_takes hr hd]
  dsimp only
  rw [ptpAt_ptpCnt, hq]
  dsimp only
  rw [ptpPeer_ptpCnt hp (by decide), toPort_ptpCnt hp (by decide), hpeer, ht, if_neg (by simp [hseq]), htwo, if_pos rfl, ptpAt_setPtpPort,
    ingressQ_ptpCnt hp (by decide)]

/-- The Pdelay_Resp of one step. -/
theorem pdelayResp_measures {seq t1 : Nat} (hq : (ptpAt s p).req = some (seq, t1)) (hd : g.domain = F.PTP_CFG_DOMAIN.get 0 s)
    (hpeer : ptpPeer s = true) (ht : toPort s p g = true) (hseq : seq = g.seq.val) (hone : g.twoStep = false) :
    ∃ t, exec (.ptpPdelayResp p g) s = .next t ∧ PtpMeasured p s t := by
  have hp : p.val < 4 := p.isLt
  refine ⟨_, rfl, ?_⟩
  rw [ptpRx_takes hr hd]
  dsimp only
  rw [ptpAt_ptpCnt, hq]
  dsimp only
  rw [ptpPeer_ptpCnt hp (by decide), toPort_ptpCnt hp (by decide), hpeer, ht, if_neg (by simp [hseq]), hone, if_neg (by decide)]
  refine counted_measures ?_ ?_ _
  · exact fun _ => rfl
  · exact fun _ => rfl

/-- The follow-up of a Pdelay_Resp. -/
theorem pdelayRespFollowUp_measures {seq t1 : Nat} {y : TwoStep} (hq : (ptpAt s p).req = some (seq, t1)) (hy : (ptpAt s p).pdel = some y)
    (hd : g.domain = F.PTP_CFG_DOMAIN.get 0 s) (hpeer : ptpPeer s = true) (ht : toPort s p g = true) (hseq : y.seq = g.seq.val) :
    ∃ t, exec (.ptpPdelayRespFollowUp p g) s = .next t ∧ PtpMeasured p s t := by
  have hp : p.val < 4 := p.isLt
  refine ⟨_, rfl, ?_⟩
  rw [ptpRx_takes hr hd]
  dsimp only
  rw [ptpAt_ptpCnt, hq, hy]
  dsimp only
  rw [ptpPeer_ptpCnt hp (by decide), toPort_ptpCnt hp (by decide), hpeer, ht, if_neg (by simp [hseq])]
  refine counted_measures ?_ ?_ _
  · exact fun _ => rfl
  · exact fun _ => rfl

/-- A message of management is counted, as bad too. -/
theorem management_counts : ∃ t, exec (.ptpManagementMsg p) s = .next t ∧ PtpCounts p 0 s t ∧ PtpCounts p 2 s t := by
  refine ⟨_, rfl, ?_⟩
  rw [run_look, ptpRx_takes hr rfl]
  refine ⟨(ptpCnt_other (p := p) (j := 0) (k := 2) (by decide) (by decide) (by decide) _).trans (ptpCnt_counts s), (ptpCnt_counts _).trans ?_⟩
  rw [ptpCnt_other (by decide) (by decide) (by decide)]

/-- A message of another domain is counted alone. -/
theorem otherDomain_counts (hd : g.domain ≠ F.PTP_CFG_DOMAIN.get 0 s) (k : State → Act) :
    PtpCounts p 0 s ((ptpRx p g.domain k).run s) ∧ ((ptpRx p g.domain k).run s).ptp = s.ptp := by
  rw [ptpRx_ignores hr hd]
  exact ⟨ptpCnt_counts s, by rw [ptpCnt_frame]⟩

omit hr in
/-- What a port sends is counted, and the port keeps what it has noted of it. -/
theorem noted_sends (f : PtpPort → PtpPort) (ev : Option PtpEvent) (msg : List Byte) :
    let t := (ptpSend p ev msg).run ((setPtpPort p f).run s)
    (∃ l, ptpAt t p = { f (ptpAt s p) with lastTx := l }) ∧ (PtpSends p s → PtpCounts p 1 s t) := by
  obtain ⟨l, hl⟩ := ptpSend_port p.isLt ev msg ((setPtpPort p f).run s)
  rw [ptpAt_setPtpPort] at hl
  exact ⟨⟨l, hl⟩, fun h => (ptpSend_counts p.isLt ev msg ((setPtpPort p f).run s) h).1⟩

/-- A master port sends a Sync. -/
theorem syncTx_sends (hst : ptpSt s p = 6) : ∃ t, exec (.ptpSyncTx p) s = .next t ∧ (ptpAt t p).seqSync = ((ptpAt s p).seqSync + 1) % 65536 ∧
    (PtpSends p s → PtpCounts p 1 s t) := by
  refine ⟨_, rfl, ?_⟩
  rw [run_look]
  dsimp only
  rw [hr, hst, if_neg (by decide), run_seq]
  obtain ⟨⟨l, hl⟩, hcnt⟩ := noted_sends (p := p) (s := s) (fun x => { x with seqSync := (x.seqSync + 1) % 65536 })
    (some ⟨0, F.PTP_PCFG_ONESTEP.on p s, (ptpAt s p).seqSync, 0, 0⟩) (ptpMsg s p 0 (ptpAt s p).seqSync (if F.PTP_PCFG_ONESTEP.on p s then 0 else 0x200)
      (ptpIntv s F.PTP_INTV_SYNC (-7) 1) 0 (ptpStamp 0))
  exact ⟨by rw [hl], hcnt⟩

/-- A master port sends an Announce. -/
theorem announceTx_sends (hst : ptpSt s p = 6) : ∃ t, exec (.ptpAnnounceTx p) s = .next t ∧
    (ptpAt t p).seqAnn = ((ptpAt s p).seqAnn + 1) % 65536 ∧ (PtpSends p s → PtpCounts p 1 s t) := by
  refine ⟨_, rfl, ?_⟩
  rw [run_look]
  rw [hr, hst, if_neg (by decide), run_seq]
  obtain ⟨⟨l, hl⟩, hcnt⟩ := noted_sends (p := p) (s := s) (fun x => { x with seqAnn := (x.seqAnn + 1) % 65536 }) none
    (ptpMsg s p 11 (ptpAt s p).seqAnn 0 (ptpIntv s F.PTP_INTV_ANNOUNCE (-3) 3) 0 (announceBody s))
  exact ⟨by rw [hl], hcnt⟩

/-- A port asks for its delay. -/
theorem delayReqTx_sends (h : ptpPeer s = true ∨ ptpFollows s p = true ∧ (ptpAt s p).synced = true) : ∃ t, exec (.ptpDelayReqTx p) s = .next t ∧
    (ptpAt t p).seqDel = ((ptpAt s p).seqDel + 1) % 65536 ∧ (PtpSends p s → PtpCounts p 1 s t) := by
  have hgo : (!ptpRuns s p || (!ptpPeer s && !(ptpFollows s p && (ptpAt s p).synced))) = false := by
    rcases h with h | ⟨hf, hs⟩
    · simp [hr, h]
    · simp [hr, hf, hs]
  refine ⟨_, rfl, ?_⟩
  rw [run_look]
  dsimp only
  rw [hgo, if_neg (by decide), run_seq]
  obtain ⟨⟨l, hl⟩, hcnt⟩ := noted_sends (p := p) (s := s) (fun x => { x with seqDel := (x.seqDel + 1) % 65536 })
    (some ⟨if ptpPeer s then 2 else 1, false, (ptpAt s p).seqDel, 0, 0⟩) (ptpMsg s p (if ptpPeer s then 2 else 1) (ptpAt s p).seqDel 0 0x7F 0
      (ptpStamp 0 ++ (if ptpPeer s then bytesBe 10 0 else [])))
  exact ⟨by rw [hl], hcnt⟩

/-- The oldest follow-up that is due is sent. -/
theorem followUpTx_sends {h : Bool × Nat × Nat × Nat} {rest : List (Bool × Nat × Nat × Nat)} (hf : (ptpAt s p).follow = h :: rest) :
    ∃ t, exec (.ptpFollowUpTx p) s = .next t ∧ (ptpAt t p).follow = rest ∧ (PtpSends p s → PtpCounts p 1 s t) := by
  obtain ⟨pd, seq, tx, req⟩ := h
  have hsend : ∃ ev msg, (if pd then ptpSend p none (ptpMsg s p 10 seq 0 0x7F (quarters (tx % 4)) (ptpStamp tx ++ bytesBe 10 req))
      else ptpSend p none (ptpMsg s p 8 seq 0 (ptpIntv s F.PTP_INTV_SYNC (-7) 1) (quarters (tx % 4)) (ptpStamp tx))) = ptpSend p ev msg := by
    cases pd <;> exact ⟨_, _, rfl⟩
  obtain ⟨ev, msg, hmsg⟩ := hsend
  refine ⟨_, rfl, ?_⟩
  rw [run_look, hr, if_neg (by decide), hf]
  dsimp only
  rw [hmsg, run_seq]
  obtain ⟨⟨l, hl⟩, hcnt⟩ := noted_sends (p := p) (s := s) (fun x => { x with follow := rest }) ev msg
  exact ⟨by rw [hl], hcnt⟩

omit hr in
/-- An interval of messages lasts. -/
theorem ptpCycles_pos (s : State) (f : Fld) (lo hi : Int) {n : Nat} (hn : 2 ≤ n) : 0 < ptpCycles s f lo hi n := by
  have hmhz : 1200 ≤ cclkMHz s := by
    unfold cclkMHz
    split <;> decide
  have hpow : 1 ≤ 2 ^ (min hi (max lo (toInt 8 (f.get 0 s))) + 7).toNat := Nat.one_le_two_pow
  have hprod : 2 * 1200 * 1000000 * 1 ≤ n * cclkMHz s * 1000000 * 2 ^ (min hi (max lo (toInt 8 (f.get 0 s))) + 7).toNat := by gcongr
  exact Nat.div_pos (by omega) (by decide)

/-- Without an Announce for long, a port forgets its master. -/
theorem announceTimeout_forgets (hdue : annDue s p = true) : ∃ t, exec (.ptpAnnounceTimeout p) s = .next t ∧ (ptpAt t p).ann = none ∧
    (ptpSt s p = 4 ∨ ptpSt t p ≠ 4 → (ptpAt t p).heard = true) := by
  have hlate : s.elapsed ≠ 0 := by
    have hpos := ptpCycles_pos s F.PTP_INTV_ANNOUNCE (-3) 3 (n := max 2 (F.PTP_INTV_ANN_TO.get 0 s)) (le_max_left _ _)
    have hpassed := of_decide_eq_true hdue
    omega
  refine ⟨_, rfl, ?_⟩
  rw [run_look, hr, hdue, Bool.and_self, onlyIf_true, run_seq]
  exact hearing_decides p.isLt (fun _ => rfl) (fun _ => rfl) (.inr hlate)

omit hr in
/-- A loss of Sync is shown, counted and raised. -/
theorem loss_reports (f : PtpState → PtpState) (d : Nat) (s : State) :
    let t := (raise .PTP_SYNC_LOSS d).run ((setPtp f).run ((ptpCnt p 3).run ((F.PTP_STAT_SYNC_LOST.set 0 1).run s)))
    F.PTP_STAT_SYNC_LOST.get 0 t = 1 ∧ PtpCounts p 3 s t ∧ t.ptp = f s.ptp ∧ EvSet .PTP_SYNC_LOSS t := by
  have hp : p.val < 4 := p.isLt
  have hstat : WordsIn offPcnt R.PTP_STAT 0 0 := fun w hw => by revert w; decide
  dsimp only
  refine ⟨?_, ?_, ?_, raise_sets ..⟩
  · rw [get_stores (stores_raise _ _ _ _ _) (out_zero rfl rfl (by decide) 0 0), get_setPtp, get_ptpCnt hstat hp (by decide)]
    exact get_set_same F.PTP_STAT_SYNC_LOST (by decide) (by decide) 0 s
  · refine PtpCounts.then hp (by decide) ?_ (stores_mono (stores_raise_ports _ _ _ _ _) fun _ => offPcnt_of_offPorts)
    rw [PtpCounts, get_setPtp, ptpCnt_counts, get_stores (stores_fset (f := F.PTP_STAT_SYNC_LOST) hstat 1) (pcnt_out hp (by decide))]
  · rw [touches_ptp (touches_raise _ _ _ _ _) (by decide) (by decide), ptpCnt_frame, fset_frame]
    rfl

/-- A port whose master sends no Sync reports its loss once. -/
theorem syncLoss_reports (hf : ptpFollows s p = true) (hl : p.val ∉ s.ptp.lost) (hdue : syncDue s p = true) :
    ∃ t, exec (.ptpSyncLoss p) s = .next t ∧ F.PTP_STAT_SYNC_LOST.get 0 t = 1 ∧ PtpCounts p 3 s t ∧ p.val ∈ t.ptp.lost ∧ EvSet .PTP_SYNC_LOSS t := by
  have hnot : s.ptp.lost.contains p.val = false := by simpa using hl
  refine ⟨_, rfl, ?_⟩
  rw [run_look, hr, hf, hnot, hdue, Bool.not_false, Bool.and_self, Bool.and_self, Bool.and_self, onlyIf_true, acts_four]
  obtain ⟨hstat, hcnt, hptp, hev⟩ := loss_reports (p := p) (fun x => { x with lost := x.lost.filter (· ≠ (p : Nat)) ++ [(p : Nat)] }) p s
  exact ⟨hstat, hcnt, by rw [hptp]; exact List.mem_append_right _ (List.mem_singleton.mpr rfl), hev⟩

end

/-! ### The statement -/

/-- Settles O41: what a message says stands in the data of its port, and the counters of messages are words that nothing else of the engine
stores; the decision of the ports keeps the Announce of each. -/
theorem ptpMessagesComplete : Obligations.PtpMessagesComplete := by
  unfold Obligations.PtpMessagesComplete
  intro p g s hr
  refine ⟨fun hd hm ht => sync_gives hr hd hm ht, fun hd hm ht => sync_waits hr hd hm ht, fun y hy hd hm hq => followUp_gives hr hy hd hm hq,
    fun a hd hid hsteps hn => announce_kept hr hd hid hsteps hn, fun hd hpeer hst h => delayReq_answered hr hd hpeer hst h,
    fun seq t3 hq hd hpeer hm ht hseq => delayResp_measures hr hq hd hpeer hm ht hseq, fun hd hpeer h => pdelayReq_answered hr hd hpeer h,
    fun hd i hi => ?_, fun seq t1 hq hd hpeer ht hseq htwo => pdelayResp_waits hr hq hd hpeer ht hseq htwo,
    fun seq t1 hq hd hpeer ht hseq hone => pdelayResp_measures hr hq hd hpeer ht hseq hone,
    fun seq t1 y hq hy hd hpeer ht hseq => pdelayRespFollowUp_measures hr hq hy hd hpeer ht hseq, management_counts hr, fun hst => syncTx_sends hr hst,
    fun hst => announceTx_sends hr hst, fun h => delayReqTx_sends hr h, fun h rest hf => followUpTx_sends hr hf,
    fun hdue => announceTimeout_forgets hr hdue, fun hf hl hdue => syncLoss_reports hr hf hl hdue⟩
  simp only [List.mem_cons, List.not_mem_nil, or_false] at hi
  rcases hi with rfl | rfl | rfl | rfl | rfl | rfl | rfl <;> exact ⟨_, rfl, otherDomain_counts hr hd _⟩

end Sys2Proof.Machine
end

