-- ==== Sys2Proof/Proofs/SiphonMarks.lean ====
section
/-! SUPPORT. Messages of Siphon that arrive whole, the link, and what a MARK leaves (R489–R491, R502–R508). -/

namespace Sys2Proof.Machine

/-! ### Segments -/

/-- The state once a good segment has ended the run of failed ones. -/
def checked (s : State) : State := (setPair fun p => { p with crcRun := 0 }).run s

theorem checked_get (f : Fld) (i : Nat) (s : State) : f.get i (checked s) = f.get i s := rfl

theorem segTake_good {b : List Byte} {s : State} (hb : segOk b = true) (hup : siphonUp s = true) : (segTake b).run s = checked s := by
  rw [segTake, run_look, hup, hb]
  rfl

theorem segTakes_good {segs : List (List Byte)} (hok : ∀ b ∈ segs, segOk b = true) {s : State} (hup : siphonUp s = true) :
    (forEach segs segTake).run (checked s) = checked s := by
  induction segs with
  | nil => rfl
  | cons b segs ih =>
    rw [run_forEach_cons, segTake_good (hok b List.mem_cons_self) (s := checked s) hup]
    exact ih fun c hc => hok c (List.mem_cons_of_mem _ hc)

/-- A message that is whole has segments, and all of them pass their check. -/
theorem segsBody_whole {ty tk : Nat} {segs : List (List Byte)} {pl : List Byte} (h : segsBody ty segs = some (tk, pl)) :
    segs ≠ [] ∧ ∀ b ∈ segs, segOk b = true := by
  unfold segsBody at h
  dsimp only at h
  split at h
  next hc =>
    simp only [Bool.and_eq_true, List.all_eq_true, Bool.not_eq_true', List.isEmpty_eq_false_iff] at hc
    obtain ⟨hne, hall⟩ := hc
    refine ⟨hne, fun b hb => ?_⟩
    obtain ⟨i, hi, rfl⟩ := List.mem_iff_getElem.mp hb
    exact (hall (segs[i], i) (List.mk_mem_zipIdx_iff_getElem?.mpr (List.getElem?_eq_getElem hi))).1.1.1
  next => cases h

/-- A message that arrives whole acts on the state in which its segments were good. -/
theorem message_whole {ty tk : Nat} {segs : List (List Byte)} {pl : List Byte} {s : State} (hup : siphonUp s = true) (hs : asleep s = false)
    (h : segsBody ty segs = some (tk, pl)) (act : Nat → List Byte → Act) : (message ty segs act).run s = (act tk pl).run (checked s) := by
  obtain ⟨hne, hok⟩ := segsBody_whole h
  obtain ⟨b, segs, rfl⟩ := List.exists_cons_of_ne_nil hne
  have htake : (forEach (b :: segs) segTake).run s = checked s := by
    rw [run_forEach_cons, segTake_good (hok b List.mem_cons_self) hup]
    exact segTakes_good (fun c hc => hok c (List.mem_cons_of_mem _ hc)) hup
  rw [message, run_look, hup, hs, if_neg (by decide), run_seq, htake, run_look, h]
  dsimp only
  rw [show siphonUp (checked s) = true from hup, if_pos rfl]

/-! ### What stays of the partner and of the link -/

/-- The partner's last MARK and state, the run of failed segments, the link, and whether its fall is recorded. -/
def OfPartner (m : Option MarkMsg) (c st lk ld : Nat) (s : State) : Prop :=
  s.pair.mark = m ∧ s.pair.crcRun = c ∧ F.PAIR_STAT_PSTATE.get 0 s = st ∧ F.PAIR_STAT_LINK.get 0 s = lk ∧ F.PAIR_HIST_LINK_DOWN.get 0 s = ld

section
variable {m : Option MarkMsg} {c st lk ld : Nat}

theorem ofPartner_setPair {f : PairState → PairState} (hm : ∀ p, (f p).mark = p.mark) (hc : ∀ p, (f p).crcRun = p.crcRun) :
    (setPair f).Preserves (OfPartner m c st lk ld) := fun s ⟨h1, h2, h3, h4, h5⟩ => ⟨(hm s.pair).trans h1, (hc s.pair).trans h2, h3, h4, h5⟩

theorem ofPartner_of_fields {s t : State} (hp : t.pair = s.pair) (hf : ∀ f ∈ [F.PAIR_STAT_PSTATE, F.PAIR_STAT_LINK, F.PAIR_HIST_LINK_DOWN],
    f.get 0 t = f.get 0 s) (h : OfPartner m c st lk ld s) : OfPartner m c st lk ld t := by
  simp only [List.forall_mem_cons, List.not_mem_nil, false_imp_iff, implies_true, and_true] at hf
  obtain ⟨h1, h2, h3, h4, h5⟩ := h
  obtain ⟨f3, f4, f5⟩ := hf
  exact ⟨hp ▸ h1, hp ▸ h2, f3.trans h3, f4.trans h4, f5.trans h5⟩

theorem ofPartner_state (v : Nat) : (F.PAIR_STAT_STATE.set 0 v).Preserves (OfPartner m c st lk ld) := fun s => by
  refine ofPartner_of_fields (by rw [fset_frame]) ?_
  simp only [List.forall_mem_cons, List.not_mem_nil, false_imp_iff, implies_true, and_true]
  exact ⟨get_set_other F.PAIR_STAT_PSTATE F.PAIR_STAT_STATE rfl (by decide) 0 v s,
    get_set_other F.PAIR_STAT_LINK F.PAIR_STAT_STATE rfl (by decide) 0 v s,
    get_set_apart F.PAIR_HIST_LINK_DOWN F.PAIR_STAT_STATE (apart_of_away (by decide) (by decide) (by decide) 0 0) v s⟩

theorem ofPartner_hist {f : Fld} (hr : f.reg = R.PAIR_HIST) (h : F.PAIR_HIST_LINK_DOWN.besides f = true) (v : Nat) :
    (f.set 0 v).Preserves (OfPartner m c st lk ld) := fun s => by
  refine ofPartner_of_fields (by rw [fset_frame]) ?_
  simp only [List.forall_mem_cons, List.not_mem_nil, false_imp_iff, implies_true, and_true]
  exact ⟨get_set_apart _ _ (by rw [hr]; exact apart_of_away (by decide) (by decide) (by decide) 0 0) v s,
    get_set_apart _ _ (by rw [hr]; exact apart_of_away (by decide) (by decide) (by decide) 0 0) v s, get_set_other _ _ hr.symm h 0 v s⟩

theorem ofPartner_spared {a : Act} (ha : a.Within Upd.sparesPair) : a.Preserves (OfPartner m c st lk ld) := fun s => by
  have hstat := sparesPair_stat ha s
  have hhist := sparesPair_hist ha s
  refine ofPartner_of_fields (sparesPair_pair ha s) ?_
  simp only [List.forall_mem_cons, List.not_mem_nil, false_imp_iff, implies_true, and_true]
  exact ⟨congrArg (bitsOf · 27 24) hstat, congrArg (bitsOf · 30 30) hstat, congrArg (bitsOf · _ _) hhist⟩

theorem ofPartner_releaseOwn (n : Nat) : (releaseOwn n).Preserves (OfPartner m c st lk ld) := preserves_acts <| by
  simp only [List.forall_mem_cons, List.not_mem_nil, false_imp_iff, implies_true, and_true]
  exact ⟨ofPartner_state n, ofPartner_hist rfl (by decide) 1, ofPartner_setPair (fun _ => rfl) (fun _ => rfl),
    preserves_look fun _ => preserves_onlyIf fun _ h => h⟩

theorem ofPartner_takeOwn : takeOwn.Preserves (OfPartner m c st lk ld) := preserves_acts <| by
  simp only [List.forall_mem_cons, List.not_mem_nil, false_imp_iff, implies_true, and_true]
  exact ⟨ofPartner_state 2, ofPartner_hist rfl (by decide) 1, ofPartner_setPair (fun _ => rfl) (fun _ => rfl)⟩

/-- The reactions to a raise leave the link and what the partner said. -/
theorem ofPartner_keeper : PairKeeper (OfPartner m c st lk ld) where
  spares := ofPartner_spared
  safe := preserves_look fun _ => preserves_ite (preserves_acts <| by
      simp only [List.forall_mem_cons, List.not_mem_nil, false_imp_iff, implies_true, and_true]
      exact ⟨ofPartner_releaseOwn 1, preserves_look fun _ => preserves_seq (ofPartner_setPair (fun _ => rfl) (fun _ => rfl))
        (preserves_look fun _ => preserves_onlyIf (ofPartner_setPair (fun _ => rfl) (fun _ => rfl)))⟩) preserves_done
  fault := preserves_look fun _ => preserves_ite preserves_done <| preserves_seq
    (ofPartner_spared (fset_sparesPair (by decide) (by decide) 1)) <| preserves_ite
      (preserves_seq (fun _ h => h) (ofPartner_setPair (fun _ => rfl) (fun _ => rfl))) <| preserves_ite preserves_done fun _ h => h

theorem ofPartner_raise (e : Ev) (d0 d1 d2 g : Nat) : (raise e d0 d1 d2 g).Preserves (OfPartner m c st lk ld) :=
  raise_preserves ofPartner_keeper e d0 d1 d2 g

theorem ofPartner_formJudge (rs : List RaiseReq) : (formJudge rs).Preserves (OfPartner m c st lk ld) := preserves_look fun _ =>
  preserves_ite (preserves_seq ofPartner_takeOwn (raiseAll_preserves ofPartner_keeper _)) (raiseAll_preserves ofPartner_keeper _)

theorem ofPartner_leaseLost : leaseLost.Preserves (OfPartner m c st lk ld) := preserves_acts <| by
  simp only [List.forall_mem_cons, List.not_mem_nil, false_imp_iff, implies_true, and_true]
  exact ⟨ofPartner_state 1, ofPartner_hist rfl (by decide) 1, ofPartner_setPair (fun _ => rfl) (fun _ => rfl), ofPartner_formJudge _⟩

end

/-! ### The link -/

theorem selfFault_keeps_event (e : Ev) : selfFault.Preserves (EvSet e) := preserves_acts <| by
  simp only [List.forall_mem_cons, List.not_mem_nil, false_imp_iff, implies_true, and_true]
  exact ⟨event_kept_fset e (by decide) (by decide) _, enterSafe_keeps_event e, note_keeps_event e _ _ _ _ _⟩

theorem raiseAll_keeps_event (e : Ev) (rs : List RaiseReq) : (raiseAll rs).Preserves (EvSet e) := preserves_look fun _ => preserves_acts <| by
  simp only [List.forall_mem_cons, List.not_mem_nil, false_imp_iff, implies_true, and_true]
  exact ⟨preserves_forEach fun r _ => preserves_seq (preserves_look fun _ => preserves_onlyIf (selfFault_keeps_event e))
    (note_keeps_event e _ _ _ _ _), react_keeps_event e _⟩

theorem formJudge_keeps_event (e : Ev) (rs : List RaiseReq) : (formJudge rs).Preserves (EvSet e) := preserves_look fun _ =>
  preserves_ite (preserves_seq (preserves_acts <| by
    simp only [List.forall_mem_cons, List.not_mem_nil, false_imp_iff, implies_true, and_true]
    exact ⟨event_kept_fset e (by decide) (by decide) _, event_kept_fset e (by decide) (by decide) _, fun _ h => h⟩)
    (raiseAll_keeps_event e _)) (raiseAll_keeps_event e _)

theorem leaseLost_keeps_event (e : Ev) : leaseLost.Preserves (EvSet e) := preserves_acts <| by
  simp only [List.forall_mem_cons, List.not_mem_nil, false_imp_iff, implies_true, and_true]
  exact ⟨event_kept_fset e (by decide) (by decide) _, event_kept_fset e (by decide) (by decide) _, fun _ h => h, formJudge_keeps_event e _⟩

section
variable {s : State}

theorem linkUp_comes (h : siphonUp s = false) : ∃ t, exec .pairLinkUp s = .next t ∧ siphonUp t = true ∧ t.pair.crcRun = 0 ∧
    EvSet .PAIR_LINK_UP t := by
  refine ⟨_, rfl, ?_⟩
  rw [goLinkUp, run_look, h, if_neg (by decide), acts_three]
  generalize hu : (F.PAIR_STAT_LINK.set 0 1).run s = u
  have hlink : F.PAIR_STAT_LINK.get 0 u = 1 := hu ▸ get_set_same F.PAIR_STAT_LINK (by decide) (by decide) 0 s
  obtain ⟨-, hcrc, -, hlk, -⟩ := ofPartner_raise .PAIR_LINK_UP 0 0 0 0 _
    (⟨rfl, rfl, rfl, hlink, rfl⟩ : OfPartner u.pair.mark 0 (F.PAIR_STAT_PSTATE.get 0 u) 1 (F.PAIR_HIST_LINK_DOWN.get 0 u) (checked u))
  exact ⟨beq_iff_eq.mpr hlk, hcrc, raise_sets ..⟩

/-- What follows the fall of the link: a standby that is not eligible loses its lease. -/
def linkLost : Act := acts [
  setPair fun p => { p with crcRun := 0, waiting := [] },
  .look fun s => onlyIf (isStandby (pairSt s) && !eligible (pairSt s) s) leaseLost,
  formJudge]

theorem linkLost_link (hlink : F.PAIR_STAT_LINK.get 0 s = 0) (hdown : F.PAIR_HIST_LINK_DOWN.get 0 s = 1) :
    F.PAIR_STAT_LINK.get 0 (linkLost.run s) = 0 ∧ F.PAIR_HIST_LINK_DOWN.get 0 (linkLost.run s) = 1 := by
  have hcleared : OfPartner s.pair.mark 0 (F.PAIR_STAT_PSTATE.get 0 s) 0 1 ((setPair fun p => { p with crcRun := 0, waiting := [] }).run s) := by
    refine ⟨rfl, rfl, ?_, ?_, ?_⟩
    · rw [get_setPair]
    · rw [get_setPair, hlink]
    · rw [get_setPair, hdown]
  obtain ⟨-, -, -, hl, hd⟩ := ofPartner_formJudge [] _ (preserves_look (fun _ => preserves_onlyIf ofPartner_leaseLost) _ hcleared)
  exact ⟨hl, hd⟩

theorem linkLost_keeps_event (e : Ev) : linkLost.Preserves (EvSet e) := preserves_acts <| by
  simp only [List.forall_mem_cons, List.not_mem_nil, false_imp_iff, implies_true, and_true]
  exact ⟨fun _ h => h, preserves_look fun _ => preserves_onlyIf (leaseLost_keeps_event e), formJudge_keeps_event e []⟩

theorem goLinkDown_run (h : siphonUp s = true) : goLinkDown.run s =
    linkLost.run ((raise .PAIR_LINK_DOWN).run ((F.PAIR_HIST_LINK_DOWN.set 0 1).run ((F.PAIR_STAT_LINK.set 0 0).run s))) := by
  rw [goLinkDown, run_look, h, if_neg (by decide), run_acts_cons, run_acts_cons, run_acts_cons, linkLost]

theorem linkDown_falls (h : siphonUp s = true) : ∃ t, exec .pairLinkDown s = .next t ∧ siphonUp t = false ∧ F.PAIR_HIST_LINK_DOWN.get 0 t = 1 ∧
    EvSet .PAIR_LINK_DOWN t := by
  refine ⟨goLinkDown.run s, rfl, ?_⟩
  rw [goLinkDown_run h]
  have hlink : F.PAIR_STAT_LINK.get 0 ((F.PAIR_HIST_LINK_DOWN.set 0 1).run ((F.PAIR_STAT_LINK.set 0 0).run s)) = 0 := by
    rw [get_set_apart F.PAIR_STAT_LINK F.PAIR_HIST_LINK_DOWN (apart_of_away (by decide) (by decide) (by decide) 0 0)]
    exact get_set_same F.PAIR_STAT_LINK (by decide) (by decide) 0 s
  have hdown := get_set_same F.PAIR_HIST_LINK_DOWN (by decide) (x := 1) (by decide) 0 ((F.PAIR_STAT_LINK.set 0 0).run s)
  generalize (F.PAIR_HIST_LINK_DOWN.set 0 1).run ((F.PAIR_STAT_LINK.set 0 0).run s) = u at hlink hdown
  obtain ⟨-, -, -, hlk, hld⟩ := ofPartner_raise .PAIR_LINK_DOWN 0 0 0 0 u ⟨rfl, rfl, rfl, hlink, hdown⟩
  obtain ⟨hl, hd⟩ := linkLost_link hlk hld
  exact ⟨beq_eq_false_iff_ne.mpr (by rw [hl]; decide), hd, linkLost_keeps_event _ _ (raise_sets ..)⟩

end

/-! ### MARK -/

/-- The partner's MARK as it is stored, and the state that it shows. -/
def noted (g : MarkMsg) (s : State) : State := (F.PAIR_STAT_PSTATE.set 0 g.state).run ((setPair fun p => { p with
  mark := some g, arrived := if g.owner then p.arrived ++ [g.tick] else p.arrived, suspect := false
  modSent := if g.state = 3 then [] else p.modSent, railSent := if g.state = 3 then [] else p.railSent
  checkFrom := if isCompared g.state && !isCompared (partnerSt s) && partnerSt s ≠ 2 then fullTick s g.tick else p.checkFrom }).run s)

/-- How a chip that was in the state `s` obeys a MARK. -/
def obeys (g : MarkMsg) (s : State) : Act :=
  if pairIs 1 s then
    if g.owner then enterCopy
    else onlyIf (sideA s) (acts [F.PAIR_STAT_STATE.set 0 2, F.PAIR_HIST_TAKEOVER.set 0 1,
      setPair fun p => { p with driveDue := true, missing := 0 }])
  else if pairIs 2 s then onlyIf g.owner (.seq (releaseOwn 1) (raise .PAIR_RELEASE))
  else if isStandby (pairSt s) then
    if g.rel then relTakeover else onlyIf g.ho (setPair fun p => { p with handover := some (fullTick s g.tick + 1) })
  else .done

section
variable {g : MarkMsg} {s : State}

theorem takeMark_run : (takeMark g).run s = (obeys g s).run (noted g s) := by
  rw [takeMark, run_look, acts_three, noted, obeys]

theorem noted_partner : OfPartner (some g) s.pair.crcRun g.state (F.PAIR_STAT_LINK.get 0 s) (F.PAIR_HIST_LINK_DOWN.get 0 s) (noted g s) := by
  refine ⟨by rw [noted, fset_frame]; rfl, by rw [noted, fset_frame]; rfl, ?_, ?_, ?_⟩
  · exact get_set_same F.PAIR_STAT_PSTATE (by decide) g.state.isLt 0 _
  · rw [noted, get_set_other F.PAIR_STAT_LINK F.PAIR_STAT_PSTATE rfl (by decide), get_setPair]
  · rw [noted, get_set_apart F.PAIR_HIST_LINK_DOWN F.PAIR_STAT_PSTATE (apart_of_away (by decide) (by decide) (by decide) 0 0), get_setPair]

theorem noted_state : pairSt (noted g s) = pairSt s := by
  rw [pairSt, noted, get_set_other F.PAIR_STAT_STATE F.PAIR_STAT_PSTATE rfl (by decide), get_setPair, pairSt]

theorem obeys_partner {m : Option MarkMsg} {c st lk ld : Nat} : (obeys g s).Preserves (OfPartner m c st lk ld) := by
  refine preserves_ite (preserves_ite ?_ (preserves_onlyIf ?_)) (preserves_ite (preserves_onlyIf ?_)
    (preserves_ite (preserves_ite ?_ ?_) preserves_done))
  · refine preserves_acts ?_
    simp only [List.forall_mem_cons, List.not_mem_nil, false_imp_iff, implies_true, and_true]
    exact ⟨ofPartner_state 3, ofPartner_spared (fset_sparesPair (by decide) (by decide) 0), ofPartner_setPair (fun _ => rfl) (fun _ => rfl)⟩
  · refine preserves_acts ?_
    simp only [List.forall_mem_cons, List.not_mem_nil, false_imp_iff, implies_true, and_true]
    exact ⟨ofPartner_state 2, ofPartner_hist rfl (by decide) 1, ofPartner_setPair (fun _ => rfl) (fun _ => rfl)⟩
  · exact preserves_seq (ofPartner_releaseOwn 1) (ofPartner_raise _ _ _ _ _)
  · refine preserves_look fun _ => preserves_acts ?_
    simp only [List.forall_mem_cons, List.not_mem_nil, false_imp_iff, implies_true, and_true]
    exact ⟨preserves_onlyIf (enterSafe_preserves ofPartner_keeper), ofPartner_takeOwn, ofPartner_raise _ _ _ _ _⟩
  · exact preserves_onlyIf (ofPartner_setPair (fun _ => rfl) (fun _ => rfl))

/-- Where the partner is no standby nothing is released. -/
theorem releaseDue_partner (h : isStandby (F.PAIR_STAT_PSTATE.get 0 s) = false) : releaseDue s = false := by
  simp [releaseDue, h]

theorem relTakeover_takes (h : isStandby (F.PAIR_STAT_PSTATE.get 0 s) = false) : let t := relTakeover.run s
    pairSt t = 2 ∧ t.pair.own = true ∧ F.PAIR_HIST_TAKEOVER.get 0 t = 1 ∧ EvSet .PAIR_TAKEOVER t := by
  rw [relTakeover, run_look, acts_three]
  generalize hu : (onlyIf (!eligible (pairSt s) s) enterSafe).run s = u
  have hpartner : OfPartner s.pair.mark s.pair.crcRun (F.PAIR_STAT_PSTATE.get 0 s) (F.PAIR_STAT_LINK.get 0 s) (F.PAIR_HIST_LINK_DOWN.get 0 s) u :=
    hu ▸ preserves_onlyIf (enterSafe_preserves ofPartner_keeper) s ⟨rfl, rfl, rfl, rfl, rfl⟩
  obtain ⟨-, -, hst, -⟩ := ofPartner_takeOwn u hpartner
  exact takeOwn_raised (releaseDue_partner (by rw [hst]; exact h))

theorem standby_others (h : isStandby (pairSt s) = true) : pairIs 1 s = false ∧ pairIs 2 s = false := by
  refine ⟨pairIs_not fun h1 => ?_, pairIs_not fun h2 => ?_⟩
  · rw [h1] at h; cases h
  · rw [h2] at h; cases h

/-- What a MARK leaves, by the state that the chip was in. -/
theorem takeMark_leaves : let t := (takeMark g).run s
    t.pair.mark = some g ∧ F.PAIR_STAT_PSTATE.get 0 t = g.state ∧ t.pair.crcRun = s.pair.crcRun ∧
      (isStandby (pairSt s) = true → g.rel = false → g.ho = true → t.pair.handover = some (fullTick s g.tick + 1)) ∧
      (pairSt s = 1 → g.owner = true → pairSt t = 3) ∧
      (isStandby (pairSt s) = true → g.rel = true → isStandby g.state = false → pairSt t = 2 ∧ t.pair.own = true ∧
        F.PAIR_HIST_TAKEOVER.get 0 t = 1 ∧ EvSet .PAIR_TAKEOVER t) := by
  rw [takeMark_run]
  have hnoted := noted_partner (g := g) (s := s)
  obtain ⟨hmark, hcrc, hst, -⟩ := obeys_partner (g := g) (s := s) _ hnoted
  refine ⟨hmark, hst, hcrc, fun hs hr hh => ?_, fun h1 ho => ?_, fun hs hr hg => ?_⟩
  · obtain ⟨h1, h2⟩ := standby_others hs
    simp only [obeys, h1, h2, hs, hr, hh, Bool.false_eq_true, if_false, if_true, onlyIf_true]
    rfl
  · simp only [obeys, pairIs_of h1, ho, if_true]
    exact enterCopy_state _
  · obtain ⟨h1, h2⟩ := standby_others hs
    simp only [obeys, h1, h2, hs, hr, Bool.false_eq_true, if_false, if_true]
    obtain ⟨-, -, hstate, -⟩ := hnoted
    exact relTakeover_takes (by rw [hstate]; exact hg)

end

end Sys2Proof.Machine
end

