-- ==== Sys2Proof/Proofs/SiphonCopies.lean ====
section
/-! SUPPORT. What Siphon copies from an owner: its writes, the states of its channels and rails, a lane's state set and the data of a
rejoin (R351, R497, R513–R515). -/

namespace Sys2Proof.Machine

/-! ### Channels and rails -/

theorem followChan_run (r : ModRec) (s : State) : ∃ a : Act, a.Touches [.mods] ∧ (followChan r).run s =
    a.run ((F.MOD_STAT_STATE.set r.ch r.st).run ((F.MOD_STAT_DIAG.set r.ch r.diag).run ((F.MOD_STAT_FCAUSE.set r.ch r.cause).run s))) := by
  rw [followChan, run_look]
  dsimp only
  rw [run_acts_cons, run_acts_cons, run_acts_cons]
  refine ⟨_, ?_, rfl⟩
  simp only [touches_acts_cons, touches_acts_nil, and_true]
  refine ⟨touches_ite touches_done ?_, (touches_onlyIf _ _).mpr fun _ => touches_setChan (by decide) _ _,
    (touches_onlyIf _ _).mpr fun _ => touches_setChan (by decide) _ _⟩
  split <;> simp [chanDisable]

/-- A channel shows the state, the cause and the result of its record. -/
theorem followChan_shows (r : ModRec) (s : State) : let t := (followChan r).run s
    chanSt t r.ch = r.st ∧ F.MOD_STAT_FCAUSE.get r.ch t = r.cause ∧ F.MOD_STAT_DIAG.get r.ch t = r.diag := by
  obtain ⟨a, ha, hrun⟩ := followChan_run r s
  dsimp only
  rw [hrun, chanSt, get_congr (touches_regs ha (by decide) (by decide) _), get_congr (touches_regs ha (by decide) (by decide) _),
    get_congr (touches_regs ha (by decide) (by decide) _)]
  refine ⟨get_set_same F.MOD_STAT_STATE (by decide) r.st.isLt _ _, ?_, ?_⟩
  · rw [get_set_other F.MOD_STAT_FCAUSE F.MOD_STAT_STATE rfl (by decide), get_set_other F.MOD_STAT_FCAUSE F.MOD_STAT_DIAG rfl (by decide)]
    exact get_set_same F.MOD_STAT_FCAUSE (by decide) r.cause.isLt _ _
  · rw [get_set_other F.MOD_STAT_DIAG F.MOD_STAT_STATE rfl (by decide)]
    exact get_set_same F.MOD_STAT_DIAG (by decide) r.diag.isLt _ _

theorem followRail_run (q : RailRec) (s : State) : (followRail q).run s = (F.RAIL_STAT_DONE.set q.g (b2n q.done)).run
    ((F.RAIL_STAT_VCMD.set q.g q.vcmd).run ((F.RAIL_STAT_TARGET.set q.g q.target).run ((F.RAIL_STAT_STATE.set q.g q.st).run s))) := by
  rw [followRail, acts_four]

/-- A rail group shows what its record says. -/
theorem followRail_shows (q : RailRec) (s : State) : let t := (followRail q).run s
    F.RAIL_STAT_STATE.get q.g t = q.st ∧ F.RAIL_STAT_TARGET.get q.g t = q.target ∧ F.RAIL_STAT_VCMD.get q.g t = q.vcmd ∧
      F.RAIL_STAT_DONE.get q.g t = b2n q.done := by
  have hst : q.st.val < 2 ^ F.RAIL_STAT_STATE.width := Nat.lt_trans q.st.isLt (by decide)
  have hdone : b2n q.done < 2 ^ F.RAIL_STAT_DONE.width := by cases q.done <;> decide
  rw [followRail_run]
  refine ⟨?_, ?_, ?_, get_set_same F.RAIL_STAT_DONE (by decide) hdone _ _⟩
  · rw [get_set_other F.RAIL_STAT_STATE F.RAIL_STAT_DONE rfl (by decide), get_set_other F.RAIL_STAT_STATE F.RAIL_STAT_VCMD rfl (by decide),
      get_set_other F.RAIL_STAT_STATE F.RAIL_STAT_TARGET rfl (by decide)]
    exact get_set_same F.RAIL_STAT_STATE (by decide) hst _ _
  · rw [get_set_other F.RAIL_STAT_TARGET F.RAIL_STAT_DONE rfl (by decide), get_set_other F.RAIL_STAT_TARGET F.RAIL_STAT_VCMD rfl (by decide)]
    exact get_set_same F.RAIL_STAT_TARGET (by decide) q.target.isLt _ _
  · rw [get_set_other F.RAIL_STAT_VCMD F.RAIL_STAT_DONE rfl (by decide)]
    exact get_set_same F.RAIL_STAT_VCMD (by decide) q.vcmd.isLt _ _

/-- It leaves the channels. -/
theorem followRail_chans {f : Fld} (hr : f.reg = R.MOD_STAT) (q : RailRec) (c : Fin 64) (s : State) :
    f.get c ((followRail q).run s) = f.get c s := by
  have hap : Apart f.reg c 0 R.RAIL_STAT q.g 0 := by
    rw [hr]
    exact apart_of_away (by decide) c.isLt q.g.isLt 0 0
  rw [followRail_run, get_set_apart f F.RAIL_STAT_DONE hap, get_set_apart f F.RAIL_STAT_VCMD hap, get_set_apart f F.RAIL_STAT_TARGET hap,
    get_set_apart f F.RAIL_STAT_STATE hap]

/-! ### Lanes -/

/-- A lane that has taken a state set. -/
def LaneSet.into (g : LaneSet) (l : Lane) : Lane := { l with
  d := Vector.ofFn fun i => g.ds.getD i.val 0
  acc := Vector.ofFn fun i => g.accs.getD i.val 0
  a := Vector.ofFn fun i => g.as_.getD i.val 0
  m := Vector.ofFn fun i => g.ms.getD i.val 0
  len := Vector.ofFn fun i => g.lens.getD i.val 0
  zf := g.zf, nf := g.nf, rets := g.rets.map (·.val), pc := g.pc.val, results := [], stores := [] }

theorem putLaneSet_run (slot : Nat) (g : LaneSet) (s : State) : ∃ u, (putLaneSet slot g).run s = (setLane slot (LaneSet.into g)).run u :=
  ⟨_, by rw [putLaneSet, run_look, acts_three]; rfl⟩

/-! ### Addresses of gallery memory -/

theorem galAddr_aligned (k : Fin 16) (w : Fin 262144) : galAddr k w % 8 = 0 := by
  rw [galAddr_eq]
  omega

/-- They are beyond the windows of the lanes. -/
theorem galAddr_beyond (k : Fin 16) (w : Fin 262144) : 0x440000 ≤ galAddr k w / 4 * 4 % 0x1000000 ∧
    galAddr k w / 4 * 4 % 0x1000000 + 4 < 0x1000000 := by
  have hw := w.isLt
  rw [galAddr_eq]
  omega

section
variable {s : State} {segs : List (List Byte)} {tk : Nat} {pl : List Byte} (hup : siphonUp s = true) (hs : asleep s = false)
include hup hs

/-! ### Segments, digests and resets -/

theorem siphonMark_leaves (h : segsBody 0x01 segs = some (tk, pl)) (hlen : pl.length = 8) :
    exec (.siphonMark (segs.headD []) segs.tail) s = .next ((takeMark (markOf tk pl)).run (checked s)) := by
  have hsegs : segs.headD [] :: segs.tail = segs := by
    obtain ⟨b, bs, rfl⟩ := List.exists_cons_of_ne_nil (segsBody_whole h).1
    rfl
  show Host.Outcome.next ((message 0x01 (segs.headD [] :: segs.tail) fun t p => onlyIf (p.length = 8) (takeMark (markOf t p))).run s) = _
  rw [hsegs, message_whole hup hs h, decide_eq_true hlen, onlyIf_true]

theorem siphonRstreq_resets (h : segsBody 0x02 segs = some (tk, pl)) (hen : F.PAIR_CFG_PRST_EN.liveOn 0 s = true) :
    ∃ t, exec (.siphonRstreq segs) s = .next t ∧ F.SYS_RSTCAUSE_CAUSE.get 0 t = 4 ∧ boot t = 0 ∧ running t = false ∧ EvSet .SYS_RESET t := by
  obtain ⟨⟨hcause, hev, hrun, hboot, -⟩, -⟩ := sysReset_resets (c := 4) (by decide) (checked s)
  refine ⟨_, rfl, ?_⟩
  rw [message_whole hup hs h, run_look, show F.PAIR_CFG_PRST_EN.liveOn 0 (checked s) = true from hen, onlyIf_true]
  exact ⟨hcause, hboot, hrun, hev⟩

theorem siphonDigest_kept (h : segsBody 0x03 segs = some (tk, pl)) (hlen : pl.length = 68) :
    ∃ t, exec (.siphonDigest (segs.headD []) segs.tail) s = .next t ∧ t.pair.partnerDig = (digestFrom tk pl :: s.pair.partnerDig).take 4 := by
  have hsegs : segs.headD [] :: segs.tail = segs := by
    obtain ⟨b, bs, rfl⟩ := List.exists_cons_of_ne_nil (segsBody_whole h).1
    rfl
  have hjudge : suppressJudge.Touches [.clt] := fun u => by
    dsimp only
    split
    · exact (touches_onlyIf _ _).mpr fun _ => touches_setClt (by decide) _
    · trivial
  refine ⟨_, rfl, ?_⟩
  rw [hsegs, message_whole hup hs h, decide_eq_true hlen, onlyIf_true, run_seq, touches_pair hjudge (by decide) (by decide)]
  rfl

theorem siphonEngine_kept (g : EngineRec) (h : segsBody 0x31 segs = some (tk, pl)) (hst : pairSt s = 3 ∨ pairSt s = 4) :
    ∃ t, exec (.siphonEngine g segs) s = .next t ∧ t.pair.engine = some g := by
  have hjoin : (pairIs 3 (checked s) || pairIs 4 (checked s)) = true := by
    rcases hst with hst | hst
    · rw [pairIs_of (s := checked s) hst, Bool.true_or]
    · rw [pairIs_of (c := 4) (s := checked s) hst, Bool.or_true]
  refine ⟨_, rfl, ?_⟩
  rw [message_whole hup hs h, run_look, hjoin, onlyIf_true]
  rfl

theorem siphonModstate_follows (r : ModRec) (q : RailRec) (h : segsBody 0x11 segs = some (tk, pl)) (hst : isStandby (pairSt s) = true) :
    ∃ t, exec (.siphonModstate [r] [q] segs) s = .next t ∧
      chanSt t r.ch = r.st ∧ F.MOD_STAT_FCAUSE.get r.ch t = r.cause ∧ F.MOD_STAT_DIAG.get r.ch t = r.diag ∧
      F.RAIL_STAT_STATE.get q.g t = q.st ∧ F.RAIL_STAT_TARGET.get q.g t = q.target ∧ F.RAIL_STAT_VCMD.get q.g t = q.vcmd ∧
      F.RAIL_STAT_DONE.get q.g t = b2n q.done := by
  refine ⟨_, rfl, ?_⟩
  rw [message_whole hup hs h, run_look, show isStandby (pairSt (checked s)) = true from hst, onlyIf_true, run_seq, run_forEach_cons,
    run_forEach_nil, run_forEach_cons, run_forEach_nil]
  obtain ⟨hst', hcause, hdiag⟩ := followChan_shows r (checked s)
  obtain ⟨hstate, htarget, hvcmd, hdone⟩ := followRail_shows q ((followChan r).run (checked s))
  exact ⟨(followRail_chans rfl q r.ch _).trans hst', (followRail_chans rfl q r.ch _).trans hcause, (followRail_chans rfl q r.ch _).trans hdiag,
    hstate, htarget, hvcmd, hdone⟩

/-! ### Gallery words -/

theorem siphonWrite_writes {g : WriteMsg} {k : Fin 16} {w : Fin 262144} (h : segsBody 0x10 segs = some (tk, pl))
    (hst : isStandby (pairSt s) = true) (haddr : g.addr.toNat = galAddr k w) (hen : g.en = 0xFF) (hwf : Memory.wf s.mem = true) :
    ∃ t, exec (.siphonWrite g segs) s = .next t ∧ word40 t (galAddr k w) = g.data.setWidth 40 := by
  have ha8 := galAddr_aligned k w
  have hdata := g.data.isLt
  have hbars : laneBars (.master 3) (galAddr k w) (.write .b8 0) (checked s) = false := by
    have hfree := mustWait_off (m := (3 : Master)) (a := galAddr k w) (r := .write .b8 0) (s := checked s) ⟨_, .inr ⟨_, rfl⟩⟩
      (.inr (galAddr_beyond k w))
      (fun h => absurd h (by decide))
    exact (Bool.or_eq_false_iff.mp hfree).1
  refine ⟨_, rfl, ?_⟩
  rw [message_whole hup hs h, mirrorWrite, run_look]
  dsimp only
  rw [show isStandby (F.PAIR_STAT_STATE.get 0 (checked s)) = true from hst, haddr, ha8, hen, Nat.sub_zero, hbars, if_neg (by decide), Bool.false_and,
    if_neg (by decide), run_seq]
  obtain ⟨b, r, hpark⟩ := grant_run 3 [galAddr k w] (checked s)
  rw [parkOn, hpark]
  obtain ⟨fresh, hf, hput⟩ := slotsWrite_whole (w := .gal) rfl (d := g.data.toNat * 2 ^ (8 * 0) % 2 ^ 64) ha8 g.master (ueEvent (.master g.master))
    (fun _ => .done) (atTarget b r (checked s).pair.sentWrites (checked s).pair.waiting (checked s))
  rw [mirrorCopy_gal] at hput
  show word40 ((slotPut (.master g.master) ⟨galAddr k w, 0xFF, g.data.toNat * 2 ^ (8 * 0) % 2 ^ 64⟩ false false fun _ => .done).run _) _ = _
  rw [slotPut_window (windowOf_galAddr k w _) rfl, hput, run_done, word40, touches_mem hf (by decide) (by decide)]
  refine (word40_setWord40 (s := atTarget b r _ _ (checked s)) hwf _ _).trans (BitVec.eq_of_toNat_eq ?_)
  rw [BitVec.toNat_ofNat, BitVec.toNat_setWidth]
  omega

/-! ### A rejoin -/

theorem siphonCopy_takes (h : segsBody 0x40 segs = some (tk, pl)) (hst : pairSt s = 3) (x : CopyRec) :
    exec (.siphonCopy [x] segs) s = .next ((takeCopy x).run (checked s)) := by
  show Host.Outcome.next ((message 0x40 segs fun _ _ => .look fun s => onlyIf (pairIs 3 s) (forEach [x] takeCopy)).run s) = _
  rw [message_whole hup hs h, run_look, pairIs_of (s := checked s) hst, onlyIf_true, run_forEach_cons, run_forEach_nil]

omit hup in
theorem takeCopy_slot (k : Fin 16) (n : Fin 262144) (v : W64) (hwf : Memory.wf s.mem = true) :
    word40 ((takeCopy (.slot (BitVec.ofNat 32 (galAddr k n)) v)).run (checked s)) (galAddr k n) = v.setWidth 40 := by
  have ha8 := galAddr_aligned k n
  have ha : (BitVec.ofNat 32 (galAddr k n)).toNat = galAddr k n := by
    have hk := k.isLt
    have hn := n.isLt
    have := galAddr_eq k n
    rw [BitVec.toNat_ofNat]
    omega
  have hmaster : standbyDrops 3 (galAddr k n) (checked s) = false := by simp [standbyDrops, hostMaster]
  rw [takeCopy, run_look, ha, windowOf_galAddr]
  dsimp only
  rw [show (Window.gal.is40 || decide (Window.gal = .prog)) = true from rfl, onlyIf_true, show galAddr k n / 8 * 8 = galAddr k n by omega,
    busAccess_run (s := checked s) hs (by simp [reqBeats]) (by simp [reqBeats])
      (mustWait_off ⟨_, .inr ⟨_, rfl⟩⟩ (.inr (galAddr_beyond k n)) (fun h => absurd h (by decide)))]
  exact (perform_whole (s := checked s) hmaster (windowOf_galAddr k n _) rfl ha8 (fun u _ => mirrorCopy_gal _ _ u) hwf v).1

theorem siphonLanestate_takes {g : LaneSet} {slot : Nat} (h : segsBody 0x30 segs = some (tk, pl)) (hst : pairSt s = 4)
    (hslot : slotOf s g.lane = some slot) (htick : g.tick = BitVec.ofNat 32 (tickNum s)) (hwait : (laneAt s slot).st = .wait)
    (hedge : edgeDue s = false) : ∃ t, exec (.siphonLanestate g segs) s = .next t ∧
      (laneAt t slot).pc = g.pc ∧ (laneAt t slot).zf = g.zf ∧ (laneAt t slot).nf = g.nf ∧
      (∀ i : Fin 16, (laneAt t slot).d[i] = g.ds.getD i 0 ∧ (laneAt t slot).a[i] = g.as_.getD i 0) ∧ g.lane.val ∉ t.pair.lanesLeft := by
  refine ⟨_, rfl, ?_⟩
  have htake : (g.tick = BitVec.ofNat 32 (tickNum (checked s)) && (laneAt (checked s) slot).st == .wait && !edgeDue (checked s)) = true := by
    show (decide (g.tick = BitVec.ofNat 32 (tickNum s)) && (laneAt s slot).st == .wait && !edgeDue s) = true
    rw [decide_eq_true htick, hwait, hedge]
    rfl
  obtain ⟨u, hput⟩ := putLaneSet_run slot g (checked s)
  rw [message_whole hup hs h, takeLaneState, run_look, pairIs_of (s := checked s) hst, if_neg (by decide),
    show slotOf (checked s) g.lane = some slot from hslot]
  dsimp only
  rw [if_pos htake, run_seq, hput, run_look]
  have hlane := laneAt_setLane slot (LaneSet.into g) u
  generalize (setLane slot (LaneSet.into g)).run u = v at hlane
  refine ⟨congrArg (·.pc) hlane, congrArg (·.zf) hlane, congrArg (·.nf) hlane, fun i => ⟨?_, ?_⟩, ?_⟩
  · show (laneAt v slot).d[i] = _
    rw [hlane]
    exact Vector.getElem_ofFn _
  · show (laneAt v slot).a[i] = _
    rw [hlane]
    exact Vector.getElem_ofFn _
  · show g.lane.val ∉ v.pair.lanesLeft.filter (· ≠ g.lane.val)
    simp

end

end Sys2Proof.Machine
end

