-- ==== Sys2Proof/Proofs/SiphonMessages.lean ====
section
/-! SUPPORT. The stamps and stream frames that a partner sends over Siphon, and all of its messages (R313, R490–R497, R513–R515). -/

namespace Sys2Proof.Machine

/-! ### Stamps of side A -/

/-- The kinds of state that a raise reaches beside the audio ports. -/
abbrev besideSap : List Kind := [.reg, .sump, .mods, .rope, .t1s, .pair]

/-- The latest stamp of side A for a direction is `u`. -/
def StampedA (k u : Nat) (s : State) : Prop := smFind s.sap.stampsA k = some u

section
variable {k u : Nat}

theorem stampedA_beside {a : Act} (h : a.Touches besideSap) : a.Preserves (StampedA k u) := fun s hs => by
  rw [StampedA, touches_sap h (by decide) (by decide)]
  exact hs

theorem stampedA_setSapDir (n d : Nat) (f : SapDir → SapDir) : (setSapDir n d f).Preserves (StampedA k u) := fun _ h => h

theorem stampedA_rset (r : Reg) (i v : Nat) : (r.set i v).Preserves (StampedA k u) := stampedA_beside (touches_rset (by decide) _ _ _ _)

theorem stampedA_fset (f : Fld) (i v : Nat) : (f.set i v).Preserves (StampedA k u) := stampedA_beside (touches_fset (by decide) _ _ _ _)

theorem stampedA_chanSafe (c : Nat) : (chanSafe c).Preserves (StampedA k u) := stampedA_beside <| by
  rw [chanSafe, touches_look]
  intro s
  dsimp only
  exact touches_ite touches_done <| by simp [chanDisable, touches_acts_cons]

theorem stampedA_ropesRemoved : ropesRemoved.Preserves (StampedA k u) := stampedA_beside <| by
  rw [ropesRemoved, touches_look]
  intro s
  exact touches_ite touches_done (by simp)

theorem stampedA_pairSafe : pairSafe.Preserves (StampedA k u) := stampedA_beside <| by
  rw [pairSafe, touches_look]
  intro s
  exact touches_ite (by simp [releaseOwn]) touches_done

theorem stampedA_enterNodeFault : enterNodeFault.Preserves (StampedA k u) := stampedA_beside <| by
  rw [enterNodeFault, touches_look]
  intro s
  exact touches_ite touches_done ⟨touches_fset (by decide) _ _ _ _, touches_ite ⟨touches_setSump (by decide) _, touches_setPair (by decide) _⟩
    (touches_ite touches_done (touches_setSump (by decide) _))⟩

theorem stampedA_enterSafe : enterSafe.Preserves (StampedA k u) := preserves_look fun s => preserves_ite preserves_done <| preserves_acts <| by
  simp only [List.forall_mem_cons, List.not_mem_nil, false_imp_iff, implies_true, and_true]
  exact ⟨stampedA_fset _ _ _, preserves_forEach fun c _ => stampedA_chanSafe c,
    preserves_forEach fun g _ => stampedA_beside (by simp [railSafe, railSend]), fun _ h => h, stampedA_ropesRemoved,
    preserves_onlyIf (stampedA_beside (touches_setT1s (by decide) _)), stampedA_pairSafe⟩

theorem stampedA_note (e : Ev) (d0 d1 d2 g : Nat) : (note e d0 d1 d2 g).Preserves (StampedA k u) := stampedA_beside <| by
  rw [note, touches_look]
  intro s
  simp only [touches_acts_cons, touches_acts_nil, and_true, touches_onlyIf]
  exact ⟨by simp, by simp, by simp, fun _ => touches_ite (by simp) (by simp)⟩

theorem stampedA_raise (e : Ev) (d0 d1 d2 g : Nat) : (raise e d0 d1 d2 g).Preserves (StampedA k u) := preserves_look fun s => preserves_acts <| by
  simp only [List.forall_mem_cons, List.not_mem_nil, false_imp_iff, implies_true, and_true]
  refine ⟨preserves_look fun _ => preserves_onlyIf <| preserves_acts ?_, stampedA_note _ _ _ _ _,
    preserves_ite stampedA_enterSafe (preserves_onlyIf stampedA_enterNodeFault)⟩
  simp only [List.forall_mem_cons, List.not_mem_nil, false_imp_iff, implies_true, and_true]
  exact ⟨stampedA_fset _ _ _, stampedA_enterSafe, stampedA_note _ _ _ _ _⟩

theorem stampedA_sapFlag (n d : Nat) (rx tx : Fld) : (sapFlag n d rx tx).Preserves (StampedA k u) :=
  preserves_ite (stampedA_fset _ _ _) (stampedA_fset _ _ _)

theorem stampedA_sapStamp (n d t : Nat) : (sapStamp n d t).Preserves (StampedA k u) := preserves_look fun _ =>
  preserves_seq (stampedA_rset _ _ _) (preserves_onlyIf (stampedA_beside (touches_sipQueue (by decide) _ _)))

theorem stampedA_sapPhase (n d : Nat) (th : Int) : (sapPhase n d th).Preserves (StampedA k u) := preserves_look fun _ =>
  preserves_seq (stampedA_fset _ _ _) (preserves_onlyIf (preserves_seq (stampedA_sapFlag _ _ _ _) (stampedA_raise _ _ _ _ _)))

theorem stampedA_sapFirst (n d t p : Nat) : (sapFirst n d t p).Preserves (StampedA k u) := preserves_look fun _ => preserves_acts <| by
  simp only [List.forall_mem_cons, List.not_mem_nil, false_imp_iff, implies_true, and_true]
  exact ⟨stampedA_setSapDir _ _ _, stampedA_sapStamp _ _ _, stampedA_sapPhase _ _ _⟩

theorem stampedA_sapOut (n d p : Nat) : (sapOut n d p).Preserves (StampedA k u) := by
  refine preserves_seq (preserves_look fun _ => preserves_acts ?_) (stampedA_setSapDir _ _ _)
  simp only [List.forall_mem_cons, List.not_mem_nil, false_imp_iff, implies_true, and_true]
  exact ⟨stampedA_setSapDir _ _ _, preserves_ite (stampedA_fset _ _ _) (stampedA_fset _ _ _),
    preserves_ite (stampedA_rset _ _ _) (stampedA_rset _ _ _)⟩

theorem stampedA_sapUnderrun (n d : Nat) : (sapUnderrun n d).Preserves (StampedA k u) := by
  refine preserves_look fun _ => preserves_ite (preserves_acts ?_) preserves_done
  simp only [List.forall_mem_cons, List.not_mem_nil, false_imp_iff, implies_true, and_true]
  exact ⟨stampedA_setSapDir _ _ _, stampedA_sapFlag _ _ _ _, stampedA_beside (touches_inc (by decide) _ _ _), stampedA_rset _ _ _,
    stampedA_raise _ _ _ _ _⟩

theorem stampedA_sapExcess (n d : Nat) : (sapExcess n d).Preserves (StampedA k u) :=
  preserves_seq (stampedA_sapFlag _ _ _ _) (stampedA_raise _ _ _ _ _)

end

/-- The stamp that comes is kept, whatever is judged by it again. -/
theorem stampTaken_stamps (n d u : Nat) (s : State) : StampedA (2 * n + d) u ((stampTaken n d u).run s) := by
  rw [stampTaken, run_look, run_seq]
  refine preserves_onlyIf (preserves_ite ?_ (preserves_ite preserves_done (preserves_ite (stampedA_sapFirst _ _ _ _) (preserves_acts ?_)))) _ ?_
  · exact preserves_seq (stampedA_sapStamp _ _ _) (stampedA_setSapDir _ _ _)
  · simp only [List.forall_mem_cons, List.not_mem_nil, false_imp_iff, implies_true, and_true]
    exact ⟨stampedA_sapFirst _ _ _ _, preserves_ite preserves_done (preserves_ite (stampedA_sapExcess _ _) (stampedA_fset _ _ _)),
      stampedA_sapOut _ _ _, preserves_onlyIf (stampedA_sapUnderrun _ _)⟩
  · exact find_insert_self _ _ _

/-! ### Frames of the partner -/

theorem cltMatch_index {s : State} {f : Frame} {e : Nat} (h : cltMatch s f = some e) : e < 256 := by
  have hmem : e ∈ cltEntries s := List.mem_of_find?_eq_some h
  simp only [cltEntries, listed, List.mem_eraseDups, List.mem_filterMap] at hmem
  obtain ⟨p, -, hp⟩ := hmem
  split at hp
  next hc =>
    simp only [Bool.and_eq_true, decide_eq_true_eq] at hc
    injection hp with hp
    omega
  next => cases hp

/-- The receive counters of an entry are none of those of the pair. -/
theorem pairCnt_apart_rxcnt {e : Nat} (he : e < 256) : Apart R.PAIR_CNT 4 0 R.CLT_RXCNT (6 * e + 0) 0 := fun w hw w' hw' => by
  have hw : w < 1 := hw
  have hw' : w' < 1 := hw'
  have hkey : R.CLT_RXCNT.key (6 * e + 0) w' 0 = 0x200E4000 + ((6 * e + 0) / 6 * 0x20 + (6 * e + 0) % 6 * 4) + 4 * w' := by
    simp [Reg.key, Reg.addr, R.CLT_RXCNT, dimsOfs, dimsCount]
  have hb : R.PAIR_CNT.base = 0x20110200 := rfl
  rw [hkey, key_one rfl rfl, hb]
  omega

theorem cltRxAt_setCltRx (e : Nat) (g : CltRx → CltRx) (s : State) : cltRxAt ((setCltRx e g).run s) e = g (cltRxAt s e) := get_put_self ..

theorem cltRxAt_rxCnt (e k : Nat) (s : State) : cltRxAt ((rxCnt e k).run s) e = cltRxAt s e := by
  rw [rxCnt, inc_frame]
  rfl

/-- The header of a Coleel frame, and what follows it. -/
def coleelHead (s : State) (e : Nat) (f : Frame) : List Byte := (coleelOf s (rxCfg s e).kind f).getD []

/-- The words of a frame that the configuration of its entry asks for. -/
def coleelWords (s : State) (e : Nat) (f : Frame) : List W40 :=
  streamWords (wszBits (rxCfg s e).wsz) ((rxCfg s e).ch * (rxCfg s e).spp) ((coleelHead s e f).drop 24)

/-- Where the first sample of a frame stands. -/
def coleelPos (s : State) (e : Nat) (f : Frame) : Int :=
  ((fieldBe (coleelHead s e f) 12 8 : Int) - 1) * spt s + fieldBe (coleelHead s e f) 20 1

/-- The partner's copy of a frame of entry `e` is well-formed and in time, new, and held in one cell, `cell`. -/
structure PatchFits (f : Frame) (e cell : Nat) (s : State) : Prop where
  accept : F.CLT_STAT_ACCEPT.on 0 s = true
  entry : cltMatch s f = some e
  kind : (rxCfg s e).kind < 2
  sound : ColeelWellFormed s (rxCfg s e) f
  due : edgePos (fieldBe (coleelHead s e f) 12 8 - 16) s ≤ s.now
  begun : 0 ≤ coleelPos s e f
  intime : beforeEdge s (latchEdge s (coleelPos s e f)) (max 100 (F.PAIR_PATCH_NS.get 0 s)) = true
  samples : 0 < (rxCfg s e).ch * (rxCfg s e).spp
  onecell : (rxCfg s e).ch * (rxCfg s e).spp ≤ 51
  fresh : smFind ((smFind (cltRxAt s e).buf ((coleelPos s e f).toNat / spt s + 1)).getD [])
    ((coleelPos s e f).toNat % spt s * (rxCfg s e).ch) = none
  grants : GrantsCell (F.CLT_CFG_BUFQ.get 0 s) cell s

/-- A frame that comes in time and needs one cell is placed there. -/
theorem cltPlace_patch {e cell : Nat} {c : StreamCfg} {q : Int} {ws : List W40} {f : Frame} {ts : Nat} {s : State} (hq : 0 ≤ q)
    (hedge : beforeEdge s (latchEdge s q) (max 100 (F.PAIR_PATCH_NS.get 0 s)) = true) (hpos : 0 < c.ch * c.spp) (hfit : c.ch * c.spp ≤ 51)
    (hnew : smFind ((smFind (cltRxAt s e).buf (q.toNat / spt s + 1)).getD []) (q.toNat % spt s * c.ch) = none)
    (hg : GrantsCell (F.CLT_CFG_BUFQ.get 0 s) cell s) : ∃ (a : Act) (cells : List (Nat × Nat)), a.Touches (.mem :: .free :: itemKinds) ∧
      a.Stores poolWords ∧ (cltPlace e c q false ws f ts true).run s = (rxCnt e 0).run
        ((setCltRx e fun x => { x with buf := fillBuf s q.toNat c.ch ws x.buf, cells := x.cells ++ cells }).run (a.run s)) := by
  obtain ⟨a, ha, hrun⟩ := allocCells_one hg cltId
  have hone : (c.ch * c.spp + 50) / 51 = 1 := by omega
  refine ⟨.seq a (draw fun r => .seq (memSetLe (cellAddr cell) 256 r) (eccFull (cellAddr cell) 256)),
    [(cell, (q.toNat + (min (c.ch * c.spp) (51 * 0 + 51) - 1) / c.ch) / spt s + 1)],
    ⟨touches_mono ha.touches (by decide), touches_draw (by decide) fun _ => ⟨touches_memSetLe (by decide) _ _ _, touches_eccFull (by decide) _ _⟩⟩,
    ⟨ha.stores, stores_draw fun _ => ⟨stores_memSetLe _ _ _, stores_eccFull _ _⟩⟩, ?_⟩
  have hlate : (decide (q < 0) || !beforeEdge s (latchEdge s q) (max 100 (F.PAIR_PATCH_NS.get 0 s))) = false := by
    rw [hedge, decide_eq_false (by omega)]
    rfl
  rw [cltPlace, run_look]
  dsimp only
  rw [if_pos rfl, hlate, if_neg (by decide), if_neg (by decide), hnew, if_neg (by decide), hg.item, if_pos rfl, hone, hrun, acts_four,
    run_forEach_cons, run_forEach_nil]
  rfl

section
variable {s t : State} {f : Frame}

theorem coleelOf_congr (he : F.CLT_CFG_ETYPE.get 0 t = F.CLT_CFG_ETYPE.get 0 s) (hp : F.CLT_UDP_PORT.get 0 t = F.CLT_UDP_PORT.get 0 s)
    (k : Nat) : coleelOf t k f = coleelOf s k f := by
  rw [coleelOf, he, hp, coleelOf]

theorem cltMatch_congr (hl : t.live = s.live) (hc : ∀ k, coleelOf t k f = coleelOf s k f) : cltMatch t f = cltMatch s f := by
  have hmatch : (fun e => cltMatches t e f) = fun e => cltMatches s e f := funext fun e => by
    simp only [cltMatches, hc, liveVal_congr hl, liveOn_congr hl, live_congr hl]
  rw [cltMatch, cltEntries, hl, hmatch, cltMatch, cltEntries]

/-- A well-formed frame of an entry that is not early is placed. -/
theorem cltColeel_run {e ts : Nat} {patch : Bool} (hw : ColeelWellFormed s (rxCfg s e) f)
    (hnow : edgePos (fieldBe (coleelHead s e f) 12 8 - 16) s ≤ s.now) : (cltColeel e f ts patch).run s =
      (cltPlace e (rxCfg s e) (coleelPos s e f) false (coleelWords s e f) f ts patch).run s := by
  obtain ⟨h1, h2, h3, h4, h5, h6, h7, h8, h9⟩ := hw
  have hip : ((rxCfg s e).kind = 1 ∧ ipSumOk (frPayload f) = false) = False := eq_false fun ⟨hk, hf⟩ => by
    rw [h8 hk] at hf
    cases hf
  unfold coleelPos coleelWords coleelHead at *
  rw [cltColeel, run_look]
  dsimp only
  rw [decide_eq_false (p := s.now < _) (by omega), h1, h2, h3, h4, h5, h7]
  simp [h6, h9, hip]

theorem patch_kind {e cell : Nat} (h : PatchFits f e cell s) :
    [0, 1, 2, 3].contains (F.CLT_RXCFG_KIND.live e s) = true ∧ F.CLT_RXCFG_KIND.live e s < 2 := by
  have hk : F.CLT_RXCFG_KIND.live e s < 2 := h.kind
  refine ⟨?_, hk⟩
  interval_cases F.CLT_RXCFG_KIND.live e s <;> rfl

/-- The samples of such a frame wait for their edge, and the counters of the pair stay. -/
theorem PatchFits.placed {e cell : Nat} (h : PatchFits f e cell s) (ts : Nat) : let t := (cltTake [0, 1, 2, 3] f ts true).run s
    F.PAIR_CNT_COUNT.get 4 t = F.PAIR_CNT_COUNT.get 4 s ∧
      (cltRxAt t e).buf = fillBuf s (coleelPos s e f).toNat (rxCfg s e).ch (coleelWords s e f) (cltRxAt s e).buf := by
  obtain ⟨hlisted, hkind⟩ := patch_kind h
  obtain ⟨a, cells, ha, hst, hrun⟩ := cltPlace_patch (ws := coleelWords s e f) (f := f) (ts := ts) h.begun h.intime h.samples h.onecell h.fresh
    h.grants
  dsimp only
  rw [cltTake, run_look, h.entry]
  dsimp only
  rw [hlisted, h.accept, if_neg (by decide), if_neg (by decide), if_pos hkind, cltColeel_run h.sound h.due, hrun]
  constructor
  · rw [rxCnt, get_inc_apart (pairCnt_apart_rxcnt (cltMatch_index h.entry))]
    exact get_stores hst (by unfold WordsOut; decide) s
  · rw [cltRxAt_rxCnt, cltRxAt_setCltRx, cltRxAt, touches_clt ha (by decide) (by decide), cltRxAt]

/-- What a count of the pair leaves is enough. -/
theorem PatchFits.counted {e cell : Nat} {rs : SMap Word} (h : PatchFits f e cell s) (hget : ∀ g : Fld, Apart g.reg 0 0 R.PAIR_CNT 4 0 →
    g.get 0 { s with regs := rs } = g.get 0 s) : PatchFits f e cell { s with regs := rs } ∧
      coleelPos { s with regs := rs } e f = coleelPos s e f ∧ coleelWords { s with regs := rs } e f = coleelWords s e f := by
  have hcoleel (k : Nat) : coleelOf { s with regs := rs } k f = coleelOf s k f :=
    coleelOf_congr (hget F.CLT_CFG_ETYPE (apart_of_away (by decide) (by decide) (by decide) 0 0))
      (hget F.CLT_UDP_PORT (apart_of_away (by decide) (by decide) (by decide) 0 0)) k
  have hhead : coleelHead { s with regs := rs } e f = coleelHead s e f := congrArg (·.getD []) (hcoleel _)
  have hpos : coleelPos { s with regs := rs } e f = coleelPos s e f := by
    rw [coleelPos, hhead]
    rfl
  have hwords : coleelWords { s with regs := rs } e f = coleelWords s e f := by
    rw [coleelWords, hhead]
    rfl
  have hmatch : cltMatch { s with regs := rs } f = cltMatch s f := cltMatch_congr rfl hcoleel
  refine ⟨⟨?_, hmatch.trans h.entry, h.kind, ?_, ?_, ?_, ?_, h.samples, h.onecell, ?_, ?_⟩, hpos, hwords⟩
  · rw [Fld.on, hget F.CLT_STAT_ACCEPT (apart_of_away (by decide) (by decide) (by decide) 0 0)]
    exact h.accept
  · simp only [ColeelWellFormed, hcoleel]
    exact h.sound
  · rw [hhead]
    exact h.due
  · rw [hpos]
    exact h.begun
  · rw [hpos, hget F.PAIR_PATCH_NS (apart_of_away (by decide) (by decide) (by decide) 0 0)]
    exact h.intime
  · rw [hpos]
    exact h.fresh
  · rw [hget F.CLT_CFG_BUFQ (apart_of_away (by decide) (by decide) (by decide) 0 0)]
    exact h.grants.congr rfl rfl (hget F.POOL_WMSTAT_CLOSED (apart_of_away (by decide) (by decide) (by decide) 0 0))

end

section
variable {s : State} {segs : List (List Byte)} {tk : Nat} {pl : List Byte} (hup : siphonUp s = true) (hs : asleep s = false)
include hup hs

theorem siphonStamp_stamps (i : Fin 64) (x : W64) (h : segsBody 0x12 segs = some (tk, pl)) :
    ∃ t, exec (.siphonStamp [(i, x)] segs) s = .next t ∧ smFind t.sap.stampsA i = some (stampInstant s x.toNat) := by
  have hstamp := stampTaken_stamps (i / 2) (i % 2) (stampInstant (checked s) x.toNat) (checked s)
  rw [show 2 * (i.val / 2) + i.val % 2 = i by omega] at hstamp
  refine ⟨_, rfl, ?_⟩
  rw [message_whole hup hs h, run_look, run_forEach_cons, run_forEach_nil]
  exact hstamp

omit hup hs in
theorem PatchFits.checked {f : Frame} {e cell : Nat} (h : PatchFits f e cell s) : PatchFits f e cell (checked s) :=
  ⟨h.accept, h.entry, h.kind, h.sound, h.due, h.begun, h.intime, h.samples, h.onecell, h.fresh, h.grants.congr rfl rfl rfl⟩

theorem siphonPatch_places {f : Frame} {ts : W64} {e cell : Nat} (h : segsBody 0x20 segs = some (tk, pl))
    (hen : F.PAIR_CFG_EN.liveOn 0 s = true) (hfits : PatchFits f e cell s) : ∃ t, exec (.siphonPatch f ts segs) s = .next t ∧
      F.PAIR_CNT_COUNT.get 4 t = satInc 32 (F.PAIR_CNT_COUNT.get 4 s) 1 ∧
      (cltRxAt t e).buf = fillBuf s (coleelPos s e f).toNat (rxCfg s e).ch (coleelWords s e f) (cltRxAt s e).buf := by
  refine ⟨_, rfl, ?_⟩
  rw [message_whole hup hs h, run_look, show F.PAIR_CFG_EN.liveOn 0 (checked s) = true from hen, onlyIf_true, run_seq]
  have hcount := get_inc_same F.PAIR_CNT_COUNT (by decide) 4 1 (checked s)
  have hget : ∀ g : Fld, Apart g.reg 0 0 R.PAIR_CNT 4 0 → g.get 0 ((F.PAIR_CNT_COUNT.inc 4).run (checked s)) = g.get 0 (checked s) :=
    fun g hap => get_inc_apart hap 1 (checked s)
  rw [inc_frame] at hcount hget ⊢
  obtain ⟨hfits', hpos, hwords⟩ := hfits.checked.counted hget
  obtain ⟨hcnt, hbuf⟩ := hfits'.placed ts.toNat
  exact ⟨hcnt.trans hcount, by rw [hbuf, hpos, hwords]; rfl⟩

/-! ### A failed segment -/

omit hs in
theorem segTake_failed {b : List Byte} (hb : segOk b = false) (hrun : s.pair.crcRun < 7) : (segTake b).run s =
    (setPair fun p => { p with crcRun := p.crcRun + 1 }).run ((F.PAIR_CNT_COUNT.inc 2).run s) := by
  have hpair : ((F.PAIR_CNT_COUNT.inc 2).run s).pair = s.pair := by rw [inc_frame]
  rw [segTake, run_look, hup, hb, if_neg (by decide), if_neg (by decide), acts_three, run_look]
  have hfew : decide (8 ≤ ((setPair fun p => { p with crcRun := p.crcRun + 1 }).run ((F.PAIR_CNT_COUNT.inc 2).run s)).pair.crcRun) = false := by
    show decide (8 ≤ ((F.PAIR_CNT_COUNT.inc 2).run s).pair.crcRun + 1) = false
    rw [hpair]
    exact decide_eq_false (by omega)
  rw [hfew, onlyIf_false, run_done]

theorem siphonMark_failed {b : List Byte} (hb : segOk b = false) (hrun : s.pair.crcRun < 7) : ∃ t, exec (.siphonMark b []) s = .next t ∧
    t.pair.crcRun = s.pair.crcRun + 1 ∧ F.PAIR_CNT_COUNT.get 2 t = satInc 32 (F.PAIR_CNT_COUNT.get 2 s) 1 ∧ t.pair.mark = s.pair.mark := by
  have hnone : segsBody 0x01 [b] = none := by
    cases h : segsBody 0x01 [b] with
    | none => rfl
    | some x =>
      have hok := (segsBody_whole (tk := x.1) (pl := x.2) h).2 b List.mem_cons_self
      rw [hb] at hok
      cases hok
  refine ⟨_, rfl, ?_⟩
  rw [message, run_look, hup, hs, if_neg (by decide), run_seq, run_forEach_cons, run_forEach_nil, segTake_failed hup hb hrun, run_look, hnone]
  dsimp only
  rw [run_done, get_setPair, get_inc_same F.PAIR_CNT_COUNT (by decide) 2 1 s, inc_frame]
  exact ⟨rfl, rfl, rfl⟩

/-! ### All messages -/

theorem siphonMark_taken (h : segsBody 0x01 segs = some (tk, pl)) (hlen : pl.length = 8) : let g := markOf tk pl
    ∃ t, exec (.siphonMark (segs.headD []) segs.tail) s = .next t ∧ t.pair.mark = some g ∧
      F.PAIR_STAT_PSTATE.get 0 t = g.state ∧ t.pair.crcRun = 0 ∧
      (isStandby (pairSt s) = true → g.rel = false → g.ho = true → t.pair.handover = some (fullTick s g.tick + 1)) ∧
      (pairSt s = 1 → g.owner = true → pairSt t = 3) ∧
      (isStandby (pairSt s) = true → g.rel = true → isStandby g.state = false → pairSt t = 2 ∧ t.pair.own = true ∧
        F.PAIR_HIST_TAKEOVER.get 0 t = 1 ∧ EvSet .PAIR_TAKEOVER t) :=
  ⟨_, siphonMark_leaves hup hs h hlen, takeMark_leaves (g := markOf tk pl) (s := checked s)⟩

theorem siphonCopy_stores (h : segsBody 0x40 segs = some (tk, pl)) (hst : pairSt s = 3) :
    (∀ w : Word, ∃ t, exec (.siphonCopy [.icw w] segs) s = .next t ∧ t.pair.icwDiff = decide (w.toNat ≠ R.STRATA_ICW.val 0 s)) ∧
    (∀ (k : Fin 16) (n : Fin 262144) (v : W64), Memory.wf s.mem = true →
      ∃ t, exec (.siphonCopy [.slot (BitVec.ofNat 32 (galAddr k n)) v] segs) s = .next t ∧ word40 t (galAddr k n) = v.setWidth 40) ∧
    (∀ (i : Fin 1024) (key mask : W64) (act : Word), ∃ t, exec (.siphonCopy [.mac i key mask act] segs) s = .next t ∧
      smGet (fun _ => (⟨0, 0, 0⟩ : AtEntry)) t.eth.at_ i = ⟨key, mask, act⟩) ∧
    (∀ (e : Fin 65536) (v : Word), ∃ t, exec (.siphonCopy [.route e v] segs) s = .next t ∧
      smGet (fun _ => 0) t.route.tbl e = v &&& 0x80000FFF) := by
  refine ⟨fun w => ⟨_, siphonCopy_takes hup hs h hst _, rfl⟩,
    fun k n v hwf => ⟨_, siphonCopy_takes hup hs h hst _, takeCopy_slot hs k n v hwf⟩,
    fun i key mask act => ⟨_, siphonCopy_takes hup hs h hst _, get_put_self ..⟩, fun e v => ⟨_, siphonCopy_takes hup hs h hst _, ?_⟩⟩
  refine (get_put_self ..).trans (BitVec.eq_of_toNat_eq ?_)
  have hv := v.isLt
  rw [Nat.mod_eq_of_lt hv, BitVec.toNat_ofNat, BitVec.toNat_and]
  exact Nat.mod_eq_of_lt (Nat.lt_of_le_of_lt Nat.and_le_left hv)

end

/-- Settles O44: each message that is whole acts on the state in which its segments were good. -/
theorem siphonMessagesComplete : Obligations.SiphonMessagesComplete := by
  intro s
  refine ⟨linkUp_comes, linkDown_falls, fun hup hs segs tk pl => ?_⟩
  refine ⟨siphonMark_taken hup hs, siphonRstreq_resets hup hs, siphonDigest_kept hup hs,
    fun g k w h hst ha hen hwf => siphonWrite_writes hup hs h hst ha hen hwf, fun r q h hst => siphonModstate_follows hup hs r q h hst,
    fun i x h => siphonStamp_stamps hup hs i x h, ?_,
    fun g slot h hst hslot htick hwait hedge => siphonLanestate_takes hup hs h hst hslot htick hwait hedge,
    fun g h hst => siphonEngine_kept hup hs g h hst, siphonCopy_stores hup hs, fun b hb hrun => siphonMark_failed hup hs hb hrun⟩
  intro f ts e cell c hd q h hen hacc hm hk hw hnow hq hedge hpos hfit hnew hg
  exact siphonPatch_places hup hs h hen ⟨hacc, hm, hk, hw, hnow, hq, hedge, hpos, hfit, hnew, hg⟩

end Sys2Proof.Machine
end
